-- ==== Sys2Proof/Word.lean ====
section
/-! DEFINITION. Word types of the W9-640 (00 R1, 04 R75): bytes, register words, lanes, vectors, instruction words. -/

namespace Sys2Proof

/-- A byte of memory. -/
abbrev Byte := BitVec 8
/-- A lane of a vector register, a predicate's 32 lane bits, a 32-bit word. -/
abbrev W32 := BitVec 32
/-- A scalar register, a program counter, a status register. -/
abbrev W64 := BitVec 64
/-- An instruction word (04 R75). -/
abbrev W96 := BitVec 96
/-- A vector register: 32 lanes of 32 bits (11 R213). -/
abbrev VWord := BitVec 1024

end Sys2Proof
end

