-- ==== Sys2Proof/Syntax.lean ====
section
/-! DEFINITION. Abstract syntax: operand classes (04 R77), modifier groups, one shape of operands per instruction form, and
`Instr`, one constructor per row of the table of operations and events. -/

namespace Sys2Proof

/-! ## Register names and operand classes (04 R77) -/

abbrev SReg := Fin 64
abbrev VReg := Fin 32
abbrev PReg := Fin 8
abbrev CReg := Fin 16
abbrev ZReg := Fin 8
abbrev TReg := Fin 16
abbrev OReg := Fin 32

/-- Positions that accept `s i`: a register or the 32-bit immediate I. -/
inductive SI where
  | s (r : SReg)
  | i (v : W32)
  deriving DecidableEq, Repr

/-- Positions that accept `s i k`: also a constant-window operand, window and word offset (04 R78). -/
inductive Src where
  | s (r : SReg)
  | i (v : W32)
  | k (window : Fin 8) (word : Fin 131072)
  deriving DecidableEq, Repr

/-- Positions that accept `v s i k`. -/
inductive VSrc where
  | v (r : VReg)
  | s (r : SReg)
  | i (v : W32)
  | k (window : Fin 8) (word : Fin 131072)
  deriving DecidableEq, Repr

/-- Positions that accept `v s i`. -/
inductive VSI where
  | v (r : VReg)
  | s (r : SReg)
  | i (v : W32)
  deriving DecidableEq, Repr

/-- Positions that accept `t s`. -/
inductive TS where
  | t (r : TReg)
  | s (r : SReg)
  deriving DecidableEq, Repr

/-- Positions that accept `s p`. -/
inductive SP where
  | s (r : SReg)
  | p (r : PReg)
  deriving DecidableEq, Repr

/-- A memory operand (05 R91): base register and register or immediate offset. -/
structure MemOp where
  base : SReg
  off : SI
  deriving DecidableEq, Repr

/-! ## Modifier groups -/

/-- The integer types, in code order 0-7 (07 R122). -/
inductive IntTy where
  | i64 | i32 | i16 | i8 | n64 | n32 | n16 | n8
  deriving DecidableEq, Repr

/-- Floating vector element types, in OP order 0x80-0x84 (11 R216). -/
inductive FTy where
  | f32 | f16 | bf16 | e4m3 | e5m2
  deriving DecidableEq, Repr

/-- Types of vector loads and stores, in index order 0-10 (10 R190). -/
inductive VTy where
  | n32 | i32 | f32 | f16 | bf16 | e4m3 | e5m2 | sx3 | sx5 | sx8 | c4
  deriving DecidableEq, Repr

/-- Types of `vcvt`, in code order 0-6 (11 R220). -/
inductive CvtTy where
  | f32 | f16 | bf16 | e4m3 | e5m2 | i32 | n32
  deriving DecidableEq, Repr

/-- Matrix formats, in code order 1-9 (13 R243). -/
inductive MFmt where
  | f16 | bf16 | e4m3 | e5m2 | sx3 | sx5 | sx8 | c4 | i8
  deriving DecidableEq, Repr

/-- Rounding codes 0-4 (09 R171). -/
inductive Rm where
  | rne | rtz | rup | rdn | rna
  deriving DecidableEq, Repr

/-- Scopes 0-3 (04 R75). -/
inductive Scope where
  | core | block | device | system
  deriving DecidableEq, Repr

/-- Order group of atomics, codes 0-3 (16 R303). -/
inductive Ord where
  | rlx | acq | rel | acqrel
  deriving DecidableEq, Repr

/-- The 32-bit lane types of compares and reductions (11 R219, R223). -/
inductive LaneTy where
  | f32 | i32 | n32
  deriving DecidableEq, Repr

/-- Type and rounding or overflow group of a lane reduction (11 R223, 14 R269). -/
inductive Red where
  | f32 (rm : Rm)
  | i32 (sat : Bool)
  | n32 (sat : Bool)
  deriving DecidableEq, Repr

/-- Gang sizes, codes 1-3 (07 R138). -/
inductive GSize where
  | g2 | g4 | g8
  deriving DecidableEq, Repr

/-- Prefetch levels, codes 0-2 (10 R196). -/
inductive PLevel where
  | l2 | l1 | llc
  deriving DecidableEq, Repr

/-- Fence kinds, FN 0-2 (16 R310). -/
inductive FenceKind where
  | acq | rel | full
  deriving DecidableEq, Repr

/-- The modifiers every thread instruction carries: guard (04 R76), hint (04 R81), required feature (04 R80). -/
structure Hdr where
  pred : PReg
  hint : Fin 16
  feat : Fin 16
  deriving DecidableEq, Repr

/-! ## Operand shapes -/

structure HOnly where
  h : Hdr
  deriving DecidableEq, Repr
structure DOnly where
  h : Hdr
  d : SReg
  deriving DecidableEq, Repr
structure DA where
  h : Hdr
  d : SReg
  a : SReg
  deriving DecidableEq, Repr
structure DSI where
  h : Hdr
  d : SReg
  a : SI
  deriving DecidableEq, Repr
/-- `add` and its like (07 R125, R126). -/
structure IntA where
  h : Hdr
  ty : IntTy
  sat : Bool
  d : SReg
  a : SReg
  b : Src
  deriving DecidableEq, Repr
/-- Shifts and rotates: B accepts no constant word. -/
structure IntSh where
  h : Hdr
  ty : IntTy
  sat : Bool
  d : SReg
  a : SReg
  b : SI
  deriving DecidableEq, Repr
structure Ins where
  h : Hdr
  d : SReg
  a : SReg
  b : SReg
  c : SI
  deriving DecidableEq, Repr
structure IntU where
  h : Hdr
  ty : IntTy
  d : SReg
  a : SReg
  deriving DecidableEq, Repr
structure Cmp where
  h : Hdr
  ty : IntTy
  d : SP
  a : SReg
  b : Src
  deriving DecidableEq, Repr
structure Sel where
  h : Hdr
  d : SReg
  a : Src
  b : SReg
  c : PReg
  deriving DecidableEq, Repr
structure Mov where
  h : Hdr
  ty : IntTy
  d : SReg
  a : Src
  deriving DecidableEq, Repr
structure Lih where
  h : Hdr
  d : SReg
  a : SReg
  i : W32
  deriving DecidableEq, Repr
structure Lea where
  h : Hdr
  scale : Fin 5
  d : SReg
  a : SReg
  b : SI
  deriving DecidableEq, Repr
structure PPP where
  h : Hdr
  d : PReg
  a : PReg
  b : PReg
  deriving DecidableEq, Repr
structure PP where
  h : Hdr
  d : PReg
  a : PReg
  deriving DecidableEq, Repr
structure PI where
  h : Hdr
  d : PReg
  i : W32
  deriving DecidableEq, Repr
structure SPr where
  h : Hdr
  d : SReg
  a : PReg
  deriving DecidableEq, Repr
structure PS where
  h : Hdr
  d : PReg
  a : SReg
  deriving DecidableEq, Repr
structure SrdA where
  h : Hdr
  d : SReg
  n : Fin 4096
  deriving DecidableEq, Repr
structure SwrA where
  h : Hdr
  a : SReg
  n : Fin 4096
  deriving DecidableEq, Repr
/-- A transfer to an offset (04 R69). -/
structure BrO where
  h : Hdr
  off : W32
  deriving DecidableEq, Repr
structure BrR where
  h : Hdr
  r : SReg
  off : W32
  deriving DecidableEq, Repr
structure AOnly where
  h : Hdr
  a : SReg
  deriving DecidableEq, Repr
structure GangA where
  h : Hdr
  size : GSize
  deriving DecidableEq, Repr
structure PartA where
  h : Hdr
  row : Bool
  d : SReg
  a : SI
  b : SI
  deriving DecidableEq, Repr
structure ABC where
  h : Hdr
  a : SReg
  b : SReg
  c : SReg
  deriving DecidableEq, Repr
structure CSI where
  h : Hdr
  d : CReg
  a : SI
  deriving DecidableEq, Repr
structure CbW where
  h : Hdr
  d : SReg
  a : CReg
  n : Fin 256
  deriving DecidableEq, Repr
structure LdA where
  h : Hdr
  acq : Bool
  scope : Scope
  ty : IntTy
  d : SReg
  m : MemOp
  deriving DecidableEq, Repr
structure StA where
  h : Hdr
  rel : Bool
  scope : Scope
  ty : IntTy
  m : MemOp
  c : SReg
  deriving DecidableEq, Repr
structure VldA where
  h : Hdr
  x : VTy
  scope : Scope
  d : VReg
  m : MemOp
  deriving DecidableEq, Repr
structure VstA where
  h : Hdr
  x : VTy
  sat : Bool
  rm : Rm
  scope : Scope
  m : MemOp
  c : VReg
  deriving DecidableEq, Repr
structure LdvA where
  h : Hdr
  acq : Bool
  track : Bool
  scope : Scope
  ty : IntTy
  d : SReg
  m : MemOp
  c : SReg
  deriving DecidableEq, Repr
structure StcvA where
  h : Hdr
  rel : Bool
  scope : Scope
  ty : IntTy
  d : SReg
  m : MemOp
  c : SReg
  deriving DecidableEq, Repr
structure PrefA where
  h : Hdr
  level : PLevel
  m : MemOp
  deriving DecidableEq, Repr
structure TSI where
  h : Hdr
  d : TReg
  a : SI
  deriving DecidableEq, Repr
structure TOnly where
  h : Hdr
  d : TReg
  deriving DecidableEq, Repr
structure TdefA where
  h : Hdr
  d : TReg
  a : SReg
  deriving DecidableEq, Repr
structure TstatA where
  h : Hdr
  d : SReg
  a : TReg
  deriving DecidableEq, Repr
structure CpyA where
  h : Hdr
  scope : Scope
  acq : Bool
  rel : Bool
  fill : Bool
  d : SReg
  a : TS
  b : TS
  c : SI
  deriving DecidableEq, Repr
structure CjobA where
  h : Hdr
  scope : Scope
  acq : Bool
  rel : Bool
  d : SReg
  a : SReg
  deriving DecidableEq, Repr
structure SIOnly where
  h : Hdr
  a : SI
  deriving DecidableEq, Repr
structure RrdA where
  h : Hdr
  word : Fin 4
  d : SReg
  a : SI
  deriving DecidableEq, Repr
structure VFlt where
  h : Hdr
  ft : FTy
  rm : Rm
  sat : Bool
  d : VReg
  a : VReg
  b : VSrc
  deriving DecidableEq, Repr
structure VFma where
  h : Hdr
  ft : FTy
  rm : Rm
  sat : Bool
  d : VReg
  a : VReg
  b : VSrc
  c : VReg
  deriving DecidableEq, Repr
structure VFMM where
  h : Hdr
  ft : FTy
  d : VReg
  a : VReg
  b : VSrc
  deriving DecidableEq, Repr
structure VFU where
  h : Hdr
  ft : FTy
  d : VReg
  a : VReg
  deriving DecidableEq, Repr
structure VInt where
  h : Hdr
  ty : IntTy
  sat : Bool
  d : VReg
  a : VReg
  b : VSrc
  deriving DecidableEq, Repr
structure VIntSh where
  h : Hdr
  ty : IntTy
  sat : Bool
  d : VReg
  a : VReg
  b : VSI
  deriving DecidableEq, Repr
structure VCmp where
  h : Hdr
  ty : LaneTy
  d : PReg
  a : VReg
  b : VSrc
  deriving DecidableEq, Repr
structure VCvt where
  h : Hdr
  dst : CvtTy
  src : CvtTy
  rm : Rm
  sat : Bool
  part : Fin 4
  d : VReg
  a : VReg
  deriving DecidableEq, Repr
structure VV where
  h : Hdr
  d : VReg
  a : VReg
  deriving DecidableEq, Repr
structure VVV where
  h : Hdr
  d : VReg
  a : VReg
  b : VReg
  deriving DecidableEq, Repr
structure VSel where
  h : Hdr
  d : VReg
  a : VReg
  b : VSrc
  c : PReg
  deriving DecidableEq, Repr
structure VBc where
  h : Hdr
  d : VReg
  a : Src
  deriving DecidableEq, Repr
structure VSl where
  h : Hdr
  d : VReg
  a : VReg
  b : VReg
  c : SI
  deriving DecidableEq, Repr
structure VGet where
  h : Hdr
  d : SReg
  a : VReg
  b : SI
  deriving DecidableEq, Repr
structure VSet where
  h : Hdr
  d : VReg
  a : Src
  b : SI
  deriving DecidableEq, Repr
structure VRed where
  h : Hdr
  ty : Red
  d : SReg
  a : VReg
  deriving DecidableEq, Repr
structure VSqrt where
  h : Hdr
  rm : Rm
  d : VReg
  a : VReg
  deriving DecidableEq, Repr
structure VDivA where
  h : Hdr
  rm : Rm
  d : VReg
  a : VReg
  b : VSrc
  deriving DecidableEq, Repr
structure MOnly where
  h : Hdr
  m : MemOp
  deriving DecidableEq, Repr
structure VCtd where
  h : Hdr
  f32 : Bool
  part : Fin 8
  d : VReg
  a : VReg
  deriving DecidableEq, Repr
structure VCte where
  h : Hdr
  part : Fin 8
  d : VReg
  a : VReg
  deriving DecidableEq, Repr
structure VGb where
  h : Hdr
  d : VReg
  a : VReg
  b : SI
  deriving DecidableEq, Repr
structure OClaim where
  h : Hdr
  d : SReg
  a : OReg
  b : SI
  deriving DecidableEq, Repr
structure ORel where
  h : Hdr
  a : OReg
  b : SI
  deriving DecidableEq, Repr
structure ZClaim where
  h : Hdr
  d : SReg
  a : ZReg
  b : SI
  deriving DecidableEq, Repr
structure ZRel where
  h : Hdr
  a : ZReg
  b : SI
  deriving DecidableEq, Repr
structure OLoad where
  h : Hdr
  scope : Scope
  acq : Bool
  d : SReg
  a : OReg
  b : TS
  c : SReg
  deriving DecidableEq, Repr
structure MmaA where
  h : Hdr
  m32 : Bool
  fmt : MFmt
  q : Fin 4
  chk : Bool
  d : SReg
  a : ZReg
  b : OReg
  c : OReg
  deriving DecidableEq, Repr
structure ZClr where
  h : Hdr
  int : Bool
  d : SReg
  a : ZReg
  deriving DecidableEq, Repr
structure ZSt where
  h : Hdr
  scope : Scope
  rel : Bool
  fill : Bool
  d : SReg
  a : TS
  b : ZReg
  c : SReg
  deriving DecidableEq, Repr
structure ZLd where
  h : Hdr
  scope : Scope
  acq : Bool
  d : SReg
  a : ZReg
  b : TS
  c : SReg
  deriving DecidableEq, Repr
structure MChk where
  h : Hdr
  notrap : Bool
  d : SReg
  a : ZReg
  deriving DecidableEq, Repr
structure RBind where
  h : Hdr
  map : Bool
  scope : Scope
  d : SReg
  a : SReg
  b : SI
  c : SI
  deriving DecidableEq, Repr
structure RRow where
  h : Hdr
  map : Bool
  fin : Bool
  d : SReg
  a : SI
  deriving DecidableEq, Repr
structure RVseg where
  h : Hdr
  map : Bool
  d : VReg
  a : SI
  deriving DecidableEq, Repr
structure RPseg where
  h : Hdr
  map : Bool
  d : PReg
  a : SI
  deriving DecidableEq, Repr
structure RVld where
  h : Hdr
  map : Bool
  strict : Bool
  scope : Scope
  d : VReg
  a : SReg
  b : SReg
  c : SI
  deriving DecidableEq, Repr
structure RVRed where
  h : Hdr
  map : Bool
  ty : Red
  d : VReg
  a : VReg
  b : SI
  c : SI
  deriving DecidableEq, Repr
structure RVnorm where
  h : Hdr
  map : Bool
  strict : Bool
  rm : Rm
  d : VReg
  a : VReg
  b : SI
  deriving DecidableEq, Repr
structure RMma where
  h : Hdr
  alongK : Bool
  m32 : Bool
  fmt : MFmt
  q : Fin 4
  chk : Bool
  d : SReg
  a : ZReg
  b : OReg
  c : OReg
  deriving DecidableEq, Repr
/-- Fetch-and-op atomics (16 R303); types i64, i32, n64, n32. -/
structure Atom where
  h : Hdr
  ord : Ord
  scope : Scope
  ty : IntTy
  d : SReg
  m : MemOp
  c : SReg
  deriving DecidableEq, Repr
structure AtomF where
  h : Hdr
  ord : Ord
  scope : Scope
  d : SReg
  m : MemOp
  c : SReg
  deriving DecidableEq, Repr
structure MRed where
  h : Hdr
  rel : Bool
  scope : Scope
  ty : IntTy
  m : MemOp
  c : SReg
  deriving DecidableEq, Repr
structure MRedF where
  h : Hdr
  rel : Bool
  scope : Scope
  m : MemOp
  c : SReg
  deriving DecidableEq, Repr
structure CasvA where
  h : Hdr
  ord : Ord
  scope : Scope
  ty : IntTy
  d : SReg
  a : SReg
  b : SReg
  c : SReg
  deriving DecidableEq, Repr
structure WaitvA where
  h : Hdr
  scope : Scope
  d : SReg
  a : SReg
  b : SReg
  c : SI
  deriving DecidableEq, Repr
structure FenceA where
  h : Hdr
  kind : FenceKind
  scope : Scope
  deriving DecidableEq, Repr
structure BarA where
  h : Hdr
  scope : Scope
  d : SReg
  a : SI
  deriving DecidableEq, Repr
structure BarW where
  h : Hdr
  scope : Scope
  d : SReg
  a : SI
  b : SI
  deriving DecidableEq, Repr
structure IbS where
  h : Hdr
  scope : Scope
  d : SReg
  a : SReg
  b : SI
  deriving DecidableEq, Repr
structure IbR where
  h : Hdr
  scope : Scope
  d : SReg
  deriving DecidableEq, Repr
structure DSig where
  h : Hdr
  irq : Bool
  a : SReg
  b : SReg
  deriving DecidableEq, Repr
structure MSend where
  h : Hdr
  ack : Bool
  d : SReg
  a : TS
  b : SReg
  deriving DecidableEq, Repr
structure DAB where
  h : Hdr
  d : SReg
  a : SReg
  b : SReg
  deriving DecidableEq, Repr
structure VRnd where
  h : Hdr
  f32 : Bool
  d : VReg
  deriving DecidableEq, Repr
structure SmplA where
  h : Hdr
  d : SReg
  a : TReg
  b : SReg
  deriving DecidableEq, Repr
structure XwrA where
  h : Hdr
  a : SI
  b : SReg
  deriving DecidableEq, Repr
structure TresA where
  h : Hdr
  next : Bool
  deriving DecidableEq, Repr
/-- `xlinv.page` names its address register, `xlinv.all` none (22 R367). -/
structure XlA where
  h : Hdr
  a : Option SReg
  deriving DecidableEq, Repr
structure LdpiA where
  h : Hdr
  ty : IntTy
  d : SReg
  a : SReg
  i : W32
  deriving DecidableEq, Repr
structure StpiA where
  h : Hdr
  ty : IntTy
  d : SReg
  i : W32
  c : SReg
  deriving DecidableEq, Repr
structure VldpiA where
  h : Hdr
  d : VReg
  a : SReg
  deriving DecidableEq, Repr
structure VdotA where
  h : Hdr
  rm : Rm
  d : SReg
  a : VReg
  b : VReg
  deriving DecidableEq, Repr

/-! ## Operands of events -/

/-- A partition, queue, cluster, core and slot as the events name them. -/
abbrev PartN := Fin 16
abbrev ClusterN := Fin 128
abbrev CoreN := Fin 1024

/-- A task: partition, launch identifier, task index. -/
structure TaskId where
  part : Nat
  lid : Nat
  idx : Nat
  deriving DecidableEq, Repr

/-- A thread: package core number and slot. -/
structure ThreadId where
  core : Nat
  slot : Nat
  deriving DecidableEq, Repr

/-- A message: the identity of 18 R327. -/
structure MsgKey where
  part : Nat
  group : Nat
  srank : Nat
  drank : Nat
  chan : Nat
  mseq : Nat
  deriving DecidableEq, Repr

/-- A register field that has no behaviour of its own (00 R4): what REGISTER_WRITE writes. -/
inductive RegTarget where
  | qbase (p : PartN) (q : Fin 64)
  | qctl (p : PartN) (q : Fin 64)
  | fairw (p : PartN)
  | mxbud (c : ClusterN)
  | station (p : PartN) (i : Fin 4)
  | scb (p : PartN) (word : Fin 5)
  | retainPart (k : Fin 16)
  | power
  /-- The rate correction, in parts per million, of the management core's PTP servo (24 R386). -/
  | ptpServo
  /-- The one forward step of the PTP time, in nanoseconds, that boot permits (24 R386). -/
  | ptpStep
  /-- Eight bytes of device memory at a physical address, written by the host through PCIe: they enter the posted queue (08 R155); `ms`:
  the page is memory-side. -/
  | memory (pa : Nat) (ms : Bool)
  deriving DecidableEq, Repr

/-- A detected uncorrectable error (22 R379). -/
inductive SoftErr where
  /-- In a value the thread's current region can make again, or in an instruction of no region. -/
  | transient (t : ThreadId)
  /-- In stored bytes of memory: the 8-byte word at a physical address. -/
  | memory (pa : Nat)
  /-- In stored bytes of a scratchpad. -/
  | sram (core : Nat) (off : Nat)
  /-- In an 8-byte word of the register that a specifier names. -/
  | register (t : ThreadId) (r : Byte) (word : Nat)
  deriving DecidableEq, Repr

/-- A side-band datagram (24 R393): header fields that vary, body, and the signature that ends a signed request. -/
structure Datagram where
  op : Byte
  reqId : W32
  counter : W64
  body : List Byte
  sig : List Byte
  deriving DecidableEq, Repr

/-- One step of the machine: one constructor per row of the table of operations and events. Thread instructions come first. -/
inductive Instr where
  -- scalar and address (07)
  | add (x : IntA) | sub (x : IntA) | mul (x : IntA) | mulh (x : IntA)
  | and (x : IntA) | or (x : IntA) | xor (x : IntA) | andn (x : IntA)
  | shl (x : IntSh) | shr (x : IntSh) | rotl (x : IntSh)
  | min (x : IntA) | max (x : IntA) | div (x : IntA) | rem (x : IntA)
  | ext (x : IntSh) | ins (x : Ins)
  | clz (x : IntU) | ctz (x : IntU) | popc (x : IntU) | brev (x : IntU) | bswap (x : IntU)
  | cmpeq (x : Cmp) | cmpne (x : Cmp) | cmplt (x : Cmp) | cmple (x : Cmp) | cmpgt (x : Cmp) | cmpge (x : Cmp)
  | sel (x : Sel) | mov (x : Mov) | lih (x : Lih) | lea (x : Lea) | nop (x : HOnly)
  | pand (x : PPP) | por (x : PPP) | pxor (x : PPP) | pandn (x : PPP) | pnot (x : PP)
  | pset (x : PI) | pread (x : SPr) | pwrite (x : PS) | pcnt (x : SPr)
  | srd (x : SrdA) | swr (x : SwrA)
  | br (x : BrO) | brz (x : BrR) | brnz (x : BrR) | brdec (x : BrR)
  | call (x : BrO) | callr (x : AOnly) | jr (x : AOnly) | ret (x : HOnly)
  | gang (x : GangA) | disband (x : HOnly) | part (x : PartA)
  | ftileset (x : ABC) | ftile (x : DOnly)
  | cbset (x : CSI) | cbwaitc (x : CbW) | cbwaitp (x : CbW) | cbadvc (x : CSI) | cbadvp (x : CSI)
  -- memory, tiles, copies (10)
  | ld (x : LdA) | st (x : StA) | vld (x : VldA) | vst (x : VstA)
  | ldv (x : LdvA) | stcv (x : StcvA) | valchk (x : DOnly) | valclr (x : HOnly) | pref (x : PrefA)
  | tfill (x : TSI) | trel (x : TOnly) | tdef (x : TdefA) | tstat (x : TstatA)
  | cpy (x : CpyA) | cjob (x : CjobA) | cpoll (x : DA) | cwait (x : DA)
  | rset (x : ABC) | unpin (x : SIOnly) | rrd (x : RrdA) | frarm (x : TSI)
  -- vector (11)
  | vflgrd (x : DOnly) | vflgclr (x : DOnly)
  | vadd (x : VFlt) | vsub (x : VFlt) | vmul (x : VFlt) | vfma (x : VFma) | vfnma (x : VFma)
  | vmin (x : VFMM) | vmax (x : VFMM) | vabs (x : VFU) | vneg (x : VFU)
  | vaddInt (x : VInt) | vsubInt (x : VInt) | vmulInt (x : VInt) | vmulh (x : VInt)
  | vand (x : VInt) | vor (x : VInt) | vxor (x : VInt) | vandn (x : VInt)
  | vshl (x : VIntSh) | vshr (x : VIntSh) | vrotl (x : VIntSh) | vminInt (x : VInt) | vmaxInt (x : VInt)
  | vcmpeq (x : VCmp) | vcmpne (x : VCmp) | vcmplt (x : VCmp) | vcmple (x : VCmp) | vcmpgt (x : VCmp) | vcmpge (x : VCmp)
  | vcmpun (x : VCmp) | vcvt (x : VCvt)
  | vmov (x : VV) | vperm (x : VVV) | vsel (x : VSel) | vbcast (x : VBc) | vslide (x : VSl) | vgetl (x : VGet) | vsetl (x : VSet)
  | vrsum (x : VRed) | vrmax (x : VRed) | vrmin (x : VRed)
  | vrcp (x : VV) | vrsqrt (x : VV) | vsqrt (x : VSqrt) | vdiv (x : VDivA)
  | vexp2 (x : VV) | vlog2 (x : VV) | vsinpi (x : VV) | vcospi (x : VV) | vtanh (x : VV)
  | ctload (x : MOnly) | vctdec (x : VCtd) | vctenc (x : VCte)
  | vgsum (x : VRed) | vgmax (x : VRed) | vgmin (x : VRed) | vgperm (x : VVV) | vgbcast (x : VGb)
  -- matrix and ragged (13, 14)
  | oclaim (x : OClaim) | orelease (x : ORel) | zclaim (x : ZClaim) | zrelease (x : ZRel)
  | oload (x : OLoad) | mma (x : MmaA) | zclear (x : ZClr) | zstore (x : ZSt) | zload (x : ZLd) | mcheck (x : MChk)
  | mpoll (x : DA) | mwait (x : DA) | mstat (x : DOnly)
  | rbind (x : RBind) | rrow (x : RRow) | rvseg (x : RVseg) | rpseg (x : RPseg) | rvld (x : RVld)
  | rvsum (x : RVRed) | rvmax (x : RVRed) | rvmin (x : RVRed) | rvnorm (x : RVnorm) | rmma (x : RMma)
  -- atomics and synchronisation (16)
  | aadd (x : Atom) | aand (x : Atom) | aor (x : Atom) | axor (x : Atom) | amin (x : Atom) | amax (x : Atom)
  | aswap (x : Atom) | acas (x : Atom) | afadd (x : AtomF)
  | mradd (x : MRed) | mrand (x : MRed) | mror (x : MRed) | mrxor (x : MRed) | mrmin (x : MRed) | mrmax (x : MRed)
  | mrfadd (x : MRedF) | casv (x : CasvA) | waitv (x : WaitvA) | fence (x : FenceA)
  | barsync (x : BarA) | bararv (x : BarA) | barwait (x : BarW) | phadv (x : DOnly) | phwait (x : DSI)
  | ibsend (x : IbS) | ibrecv (x : IbR) | ibpoll (x : DOnly) | dlaunch (x : DA) | dsignal (x : DSig)
  -- messages, streams, sampler (18, 20)
  | msgsend (x : MSend) | msgpost (x : DAB) | msgtest (x : DA) | msgwait (x : DA) | msgcancel (x : DA)
  | rand (x : DOnly) | vrand (x : VRnd) | rtell (x : DOnly) | rseek (x : DSI) | smpl (x : SmplA) | tokexec (x : DAB)
  -- system, W7 expansions (22)
  | exit (x : HOnly) | rgn (x : HOnly) | tctx (x : DOnly) | xrd (x : DSI) | xwr (x : XwrA) | tresume (x : TresA)
  | tkill (x : HOnly) | tret (x : HOnly) | spillgo (x : DOnly) | spstat (x : DOnly) | xlinv (x : XlA)
  | ldpi (x : LdpiA) | stpi (x : StpiA) | vldpi (x : VldpiA) | vdot (x : VdotA)
  -- words that are not instructions, fetch faults, unknown side-band requests
  | undefinedOpcode (op fn : Byte)
  | instructionFetchFault (cause : Byte) (line : Nat) (info : W64)
  -- events: the first group
  | queueEnable (p : PartN) (q : Fin 64) (v : W64)
  | qwrWrite (p : PartN) (q : Fin 64) (v : W64)
  | acceptPacket (host : Option VWord)
  | dispatchTask (c : ClusterN) (b0 : Fin 8)
  | partitionCreate (p : PartN) (v : BitVec 512)
  | slotTableWrite (c : ClusterN) (e : Fin 8) (v : W64)
  | fetchFill (c : ClusterN) (line : Nat)
  | loadDataArrival (t : ThreadId)
  | storeBufferDrain (c : CoreN) (id : Nat)
  | blockBufferDrain (c : ClusterN) (id : Nat) (merged : List Nat)
  | coherencePointOperation (t : ThreadId)
  | copyJobStart (c : ClusterN)
  | copyJobRow (c : ClusterN) (id : Nat)
  | copyJobComplete (c : ClusterN) (id : Nat)
  | barrierComplete (t : TaskId) (bar : Fin 4)
  | registerWrite (r : RegTarget) (v : W64)
  -- queues, acceptance, dispatch, closing (02, 03, 24)
  | queueDisable (p : PartN) (q : Fin 64) (v : W64)
  | queueDrain (p : PartN) (q : Fin 64) (v : W64)
  | queueAbort (p : PartN) (q : Fin 64) (v : W64)
  | taskRetire (t : TaskId)
  | closeLaunch (p : PartN) (lid : Nat)
  | expertChange (p : PartN) (b : Bool)
  | sltstatClear (v : W32)
  | preemptTask (t : TaskId)
  | spillStart (t : TaskId)
  | spillStop (t : TaskId)
  | spillEnd (t : TaskId)
  | resumeFill (t : TaskId) (c : ClusterN) (b0 : Fin 8)
  -- fetch, buffers, points of coherence (04, 15)
  | l1CopyDrop (c : CoreN) (line : Nat)
  | postedWritePerform
  | fabricSendDepart
  -- engines (10, 13, 15, 16, 20)
  | multicastClaim (c : ClusterN) (id : Nat)
  | matrixJobStart (c : ClusterN)
  | matrixJobComplete (c : ClusterN) (id : Nat)
  | arbiterWindowBoundary (c : ClusterN)
  | ridgePublish (p : PartN) (lid : Nat)
  | layPhase (p : PartN) (lid : Nat)
  | waitvTimeout (t : ThreadId)
  | samplerRequestServe (c : ClusterN)
  -- host registers (02, 10, 15, 18, 22, 24)
  | rpctlWrite (p : PartN) (v : W64)
  | flowRuleWrite (p : PartN) (r : Fin 32) (word : Fin 4) (v : W64)
  | msgCountersClear (p : PartN)
  | hostXlinv (p : PartN) (v : W64)
  | xlinvComplete (p : PartN)
  | trstGo (v : W64)
  | tenantResetPerform (v : BitVec 512)
  | operatorKeyLoad (x y : BitVec 256)
  -- front ports and links (10, 18, 19)
  | frameReceive (port : Fin 2) (bytes : List Byte)
  | flitReceive (port : Fin 12) (flit : VWord)
  | ackIdleSend (port : Fin 12)
  | replayTimeout (port : Fin 12)
  | fragmentTransmit (port : Fin 12) (vc : Fin 8)
  | laneFailure (port : Fin 12) (lane : Fin 16)
  | retrainComplete (port : Fin 12) (peer : BitVec 16) (ok : Bool)
  | fragmentReceive (port : Fin 12)
  | messageComplete (k : MsgKey)
  | messageDeadlineExpiry (k : MsgKey)
  | sendFragmentsDeparted (t : ThreadId) (seq : W32)
  | sendAckTimeout (t : ThreadId) (seq : W32)
  -- errors, supervisor, boot, side band, limits (22, 24)
  | softErrorDetected (e : SoftErr)
  | supervisorTakeRecord (c : CoreN)
  | powerOn
  | imageReplyReceive (src : BitVec 128) (status : Byte) (total off : W32) (bytes : List Byte)
  | imageRequestResend (off : W32)
  | imagePartyAbandon
  | identity (dg : Datagram)
  | attest (dg : Datagram)
  | tenantReset (dg : Datagram)
  | crashRead (dg : Datagram)
  | errlogRead (dg : Datagram)
  | fwStage (dg : Datagram)
  | fwCommit (dg : Datagram)
  | linkRetrain (dg : Datagram)
  | imageGet (dg : Datagram) (port0 : Bool)
  | clusterGate (c : ClusterN)
  | clusterWake (c : ClusterN) (pass : Bool)
  | thermalTrip (die : Fin 4)
  | thermalTripRelease (die : Fin 4)
  | sidebandUnknownOpcode (dg : Datagram)
  deriving DecidableEq, Repr

end Sys2Proof
end

