-- ==== Sys2Proof/WellFormed.lean ====
section
/-! DEFINITION. Well-formed instructions: the conditions on an abstract instruction under which a word of the spec encodes it
(04 R76, R77, R80, R84 checks 2 to 4), and which constructors are events (steps with no word). -/

namespace Sys2Proof

/-! ## Pieces -/

/-- 04 R80: FEAT values the W9-640 supports. -/
def Hdr.featOk (h : Hdr) : Bool := h.feat.val ≤ 8
/-- An instruction that accepts a guard. -/
def Hdr.any (h : Hdr) : Bool := h.featOk
/-- An instruction that accepts none: PRED = 0 (04 R76). -/
def Hdr.unguarded (h : Hdr) : Bool := h.featOk && h.pred.val == 0

def SI.namesI : SI → Bool
  | .s _ => false
  | .i _ => true
def Src.namesI : Src → Bool
  | .s _ => false
  | .i _ | .k .. => true

/-- 04 R86: the assigned status-register numbers. -/
def srAssigned (n : Nat) : Bool := n ≤ 0x01D
/-- Rounding codes 0-3 (11 R216, R223). -/
def Rm.noRna (r : Rm) : Bool := r != .rna
/-- Element widths up to 32 bits (11 R218). -/
def IntTy.vec (t : IntTy) : Bool := t != .i64 && t != .n64
/-- Types of atomics (16 R299). -/
def IntTy.atomic : IntTy → Bool
  | .i64 | .i32 | .n64 | .n32 => true
  | _ => false
def Red.noRna : Red → Bool
  | .f32 r => r.noRna
  | _ => true
/-- Maximum and minimum: no rounding and no overflow group. -/
def Red.plain : Red → Bool
  | .f32 r => r == .rne
  | .i32 s | .n32 s => !s
/-- 11 R220: exactly one side is f32. -/
def vcvtPair (dst src : CvtTy) : Bool := (dst == .f32) != (src == .f32)
def CvtTy.intTy : CvtTy → Bool
  | .i32 | .n32 => true
  | _ => false
def CvtTy.width : CvtTy → Nat
  | .f32 | .i32 | .n32 => 32
  | .f16 | .bf16 => 16
  | .e4m3 | .e5m2 => 8
/-- 10 R190: the block formats take no guard. -/
def VTy.guarded : VTy → Bool
  | .sx3 | .sx5 | .sx8 | .c4 => false
  | _ => true
def VTy.raw : VTy → Bool
  | .n32 | .i32 | .f32 => true
  | _ => false
/-- 14 R272: formats of `.mk`. -/
def MFmt.mkOk : MFmt → Bool
  | .sx3 | .sx5 | .c4 => false
  | _ => true
def TS.isTile : TS → Bool
  | .t _ => true
  | .s _ => false

/-! ## The condition -/

/-- `i` is one of the table's events or words that are not instructions: it has no 96-bit word of its own. -/
def Instr.isEvent : Instr → Bool
  | .queueEnable .. | .queueDisable .. | .queueDrain .. | .queueAbort .. | .qwrWrite .. | .acceptPacket .. | .dispatchTask ..
  | .taskRetire .. | .closeLaunch .. | .expertChange .. | .partitionCreate .. | .slotTableWrite .. | .sltstatClear ..
  | .preemptTask .. | .spillStart .. | .spillStop .. | .spillEnd .. | .resumeFill .. | .fetchFill .. | .loadDataArrival ..
  | .storeBufferDrain .. | .blockBufferDrain .. | .l1CopyDrop .. | .coherencePointOperation .. | .postedWritePerform
  | .fabricSendDepart | .copyJobStart .. | .copyJobRow .. | .copyJobComplete .. | .multicastClaim .. | .matrixJobStart ..
  | .matrixJobComplete .. | .arbiterWindowBoundary .. | .ridgePublish .. | .layPhase .. | .barrierComplete .. | .waitvTimeout ..
  | .samplerRequestServe .. | .rpctlWrite .. | .flowRuleWrite .. | .msgCountersClear .. | .hostXlinv .. | .xlinvComplete ..
  | .trstGo .. | .tenantResetPerform .. | .operatorKeyLoad .. | .registerWrite .. | .frameReceive .. | .flitReceive ..
  | .ackIdleSend .. | .replayTimeout .. | .fragmentTransmit .. | .laneFailure .. | .retrainComplete .. | .fragmentReceive ..
  | .messageComplete .. | .messageDeadlineExpiry .. | .sendFragmentsDeparted .. | .sendAckTimeout .. | .softErrorDetected ..
  | .supervisorTakeRecord .. | .powerOn | .imageReplyReceive .. | .imageRequestResend .. | .imagePartyAbandon | .identity ..
  | .attest .. | .tenantReset .. | .crashRead .. | .errlogRead .. | .fwStage .. | .fwCommit .. | .linkRetrain .. | .imageGet ..
  | .clusterGate .. | .clusterWake .. | .thermalTrip .. | .thermalTripRelease .. | .sidebandUnknownOpcode .. => true
  | _ => false

def IntA.wf (satOk : Bool) (x : IntA) : Bool := x.h.any && (satOk || !x.sat)
def IntSh.wf (satOk : Bool) (x : IntSh) : Bool := x.h.any && (satOk || !x.sat)
def IntU.wf (x : IntU) : Bool := x.h.any
def VFlt.wf (x : VFlt) : Bool := x.h.any && x.rm.noRna
def VInt.wf (satOk : Bool) (x : VInt) : Bool := x.h.any && x.ty.vec && (satOk || !x.sat)
def VIntSh.wf (satOk : Bool) (x : VIntSh) : Bool := x.h.any && x.ty.vec && (satOk || !x.sat)

/-- A word of the spec encodes `i` (events: `i` names no word and is well formed as it stands). -/
def Instr.wf : Instr → Bool
  | .add x | .sub x | .mul x | .div x => x.wf true
  | .mulh x | .and x | .or x | .xor x | .andn x | .min x | .max x | .rem x => x.wf false
  | .shl x => x.wf true
  | .shr x | .rotl x => x.wf false
  | .ext x => x.wf false && (x.ty == .i64 || x.ty == .n64)
  | .ins x => x.h.any
  | .clz x | .ctz x | .popc x | .brev x => x.wf
  | .bswap x => x.wf && x.ty != .i8 && x.ty != .n8
  | .cmpeq x | .cmpne x | .cmplt x | .cmple x | .cmpgt x | .cmpge x => x.h.any
  | .sel x => x.h.any
  | .mov x => x.h.any
  | .lih x => x.h.any
  | .lea x => x.h.any && (!x.b.namesI || x.scale.val == 0)
  | .nop x => x.h.any
  | .pand x | .por x | .pxor x | .pandn x => x.h.any
  | .pnot x => x.h.any
  | .pset x => x.h.any
  | .pread x | .pcnt x => x.h.any
  | .pwrite x => x.h.any
  | .srd x => x.h.any && srAssigned x.n.val
  | .swr x => x.h.any && srAssigned x.n.val
  | .br x | .call x => x.h.any
  | .brz x | .brnz x | .brdec x => x.h.any
  | .callr x | .jr x => x.h.any
  | .ret x => x.h.any
  | .gang x => x.h.unguarded
  | .disband x => x.h.unguarded
  | .part x => x.h.any && !(x.a.namesI && x.b.namesI)
  | .ftileset x => x.h.unguarded
  | .ftile x => x.h.unguarded
  | .cbset x | .cbadvc x | .cbadvp x => x.h.unguarded
  | .cbwaitc x | .cbwaitp x => x.h.unguarded
  | .ld x => x.h.any
  | .st x => x.h.any
  | .vld x => if x.x.guarded then x.h.any else x.h.unguarded
  | .vst x => (if x.x.guarded then x.h.any else x.h.unguarded) && (!x.x.raw || (x.rm == .rne && !x.sat))
  | .ldv x => x.h.any
  | .stcv x => x.h.any
  | .valchk x => x.h.any
  | .valclr x => x.h.any
  | .pref x => x.h.any
  | .tfill x | .frarm x => x.h.unguarded
  | .trel x => x.h.unguarded
  | .tdef x => x.h.unguarded
  | .tstat x => x.h.unguarded
  | .cpy x => x.h.unguarded && (!x.fill || x.a.isTile)
  | .cjob x => x.h.unguarded
  | .cpoll x | .cwait x => x.h.unguarded
  | .rset x => x.h.unguarded
  | .unpin x => x.h.unguarded
  | .rrd x => x.h.unguarded
  | .vflgrd x | .vflgclr x => x.h.unguarded
  | .vadd x | .vsub x | .vmul x => x.wf
  | .vfma x | .vfnma x => x.h.any && x.rm.noRna
  | .vmin x | .vmax x => x.h.any
  | .vabs x | .vneg x => x.h.any
  | .vaddInt x | .vsubInt x | .vmulInt x => x.wf true
  | .vmulh x | .vand x | .vor x | .vxor x | .vandn x | .vminInt x | .vmaxInt x => x.wf false
  | .vshl x => x.wf true
  | .vshr x | .vrotl x => x.wf false
  | .vcmpeq x | .vcmpne x | .vcmplt x | .vcmple x | .vcmpgt x | .vcmpge x => x.h.any
  | .vcmpun x => x.h.any && x.ty == .f32
  | .vcvt x => (if (if x.dst == .f32 then x.src else x.dst).intTy then x.h.any else x.h.unguarded) && vcvtPair x.dst x.src
      && (!x.sat || (x.dst != .f32 && !x.dst.intTy)) && x.part.val < 32 / (if x.dst == .f32 then x.src else x.dst).width
  | .vmov x => x.h.any
  | .vperm x => x.h.any
  | .vsel x => x.h.any
  | .vbcast x => x.h.any
  | .vslide x => x.h.any
  | .vgetl x => x.h.unguarded
  | .vsetl x => x.h.unguarded && !(x.a.namesI && x.b.namesI)
  | .vrsum x => x.h.any && x.ty.noRna
  | .vrmax x | .vrmin x => x.h.any && x.ty.plain
  | .vrcp x | .vrsqrt x | .vexp2 x | .vlog2 x | .vsinpi x | .vcospi x | .vtanh x => x.h.any
  | .vsqrt x => x.h.any && x.rm.noRna
  | .vdiv x => x.h.any && x.rm.noRna
  | .ctload x => x.h.unguarded
  | .vctdec x => x.h.unguarded
  | .vctenc x => x.h.unguarded
  | .vgsum x => x.h.any && x.ty.noRna
  | .vgmax x | .vgmin x => x.h.any && x.ty.plain
  | .vgperm x => x.h.any
  | .vgbcast x => x.h.any
  | .oclaim x => x.h.unguarded
  | .orelease x => x.h.unguarded
  | .zclaim x => x.h.unguarded
  | .zrelease x => x.h.unguarded
  | .oload x => x.h.unguarded
  | .mma x => x.h.unguarded && (x.m32 || x.q.val == 0)
  | .zclear x => x.h.unguarded
  | .zstore x => x.h.unguarded && (!x.fill || x.a.isTile)
  | .zload x => x.h.unguarded
  | .mcheck x => x.h.unguarded
  | .mpoll x | .mwait x => x.h.unguarded
  | .mstat x => x.h.unguarded
  | .rbind x => x.h.unguarded && !(x.b.namesI && x.c.namesI)
  | .rrow x => x.h.any
  | .rvseg x => x.h.any
  | .rpseg x => x.h.any
  | .rvld x => x.h.any
  | .rvsum x => x.h.any && x.ty.noRna && !(x.b.namesI && x.c.namesI)
  | .rvmax x | .rvmin x => x.h.any && x.ty.plain && !(x.b.namesI && x.c.namesI)
  | .rvnorm x => x.h.any && x.rm.noRna
  | .rmma x => x.h.unguarded && (x.m32 || x.q.val == 0) && (!x.alongK || x.fmt.mkOk)
  | .aadd x | .aand x | .aor x | .axor x | .amin x | .amax x | .aswap x | .acas x => x.h.any && x.ty.atomic
  | .afadd x => x.h.any
  | .mradd x | .mrand x | .mror x | .mrxor x | .mrmin x | .mrmax x => x.h.any && x.ty.atomic
  | .mrfadd x => x.h.any
  | .casv x => x.h.any && x.ty.atomic
  | .waitv x => x.h.any
  | .fence x => x.h.any
  | .barsync x | .bararv x => x.h.unguarded
  | .barwait x => x.h.unguarded && !(x.a.namesI && x.b.namesI)
  | .phadv x => x.h.unguarded
  | .phwait x => x.h.unguarded
  | .ibsend x => x.h.any
  | .ibrecv x => x.h.unguarded
  | .ibpoll x => x.h.unguarded
  | .dlaunch x => x.h.any
  | .dsignal x => x.h.any
  | .msgsend x => x.h.any
  | .msgpost x => x.h.any
  | .msgtest x | .msgwait x | .msgcancel x => x.h.unguarded
  | .rand x => x.h.any
  | .vrand x => x.h.any
  | .rtell x => x.h.unguarded
  | .rseek x => x.h.unguarded
  | .smpl x => x.h.unguarded
  | .tokexec x => x.h.unguarded
  | .exit x | .rgn x | .tkill x | .tret x => x.h.unguarded
  | .tctx x | .spillgo x | .spstat x => x.h.unguarded
  | .xrd x => x.h.unguarded
  | .xwr x => x.h.unguarded
  | .tresume x => x.h.unguarded
  | .xlinv x => x.h.unguarded
  | .ldpi x => x.h.unguarded
  | .stpi x => x.h.unguarded
  | .vldpi x => x.h.unguarded
  | .vdot x => x.h.unguarded && x.rm.noRna
  | .undefinedOpcode .. | .instructionFetchFault .. => true
  | _ => true

end Sys2Proof
end

