-- ==== Sys2Proof/Decode.lean ====
section
/-! DEFINITION. The instruction word (04 R75), operand specifiers (R77), the opcode map with every encoding table of the spec as a
table of forms, the word checks 2 to 4 of R84, decoding, and the encoder. -/

namespace Sys2Proof

/-! ## Fields of a word (04 R75) -/

structure Fields where
  op : Byte
  fn : Byte
  d : Byte
  a : Byte
  b : Byte
  c : Byte
  feat : BitVec 4
  hint : BitVec 4
  pred : BitVec 3
  mod : BitVec 5
  i : W32
  deriving DecidableEq, Repr

def Fields.ofWord (w : W96) : Fields :=
  { op := w.extractLsb' 88 8, fn := w.extractLsb' 80 8, d := w.extractLsb' 72 8, a := w.extractLsb' 64 8,
    b := w.extractLsb' 56 8, c := w.extractLsb' 48 8, feat := w.extractLsb' 44 4, hint := w.extractLsb' 40 4,
    pred := w.extractLsb' 37 3, mod := w.extractLsb' 32 5, i := w.extractLsb' 0 32 }

def Fields.word (f : Fields) : W96 :=
  f.op ++ f.fn ++ f.d ++ f.a ++ f.b ++ f.c ++ f.feat ++ f.hint ++ f.pred ++ f.mod ++ f.i

/-! ## Operand specifiers (04 R77) -/

/-- The classes the encoding tables name. -/
inductive Cls where
  | s | v | c | p | z | k | i | t | o
  deriving DecidableEq, Repr

/-- Class of a specifier; `none` for 0xFF and the reserved patterns. -/
def clsOf (x : Byte) : Option Cls :=
  let n := x.toNat
  if n < 0x40 then some .s
  else if n < 0x60 then some .v
  else if n < 0x70 then some .c
  else if n < 0x78 then some .p
  else if n < 0x80 then some .z
  else if n = 0x80 then some .k
  else if n = 0x81 then some .i
  else if n < 0x90 then none
  else if n < 0xA0 then some .t
  else if n < 0xC0 then some .o
  else none

def regS (x : Byte) : SReg := ⟨x.toNat % 64, by omega⟩
def regV (x : Byte) : VReg := ⟨x.toNat % 32, by omega⟩
def regC (x : Byte) : CReg := ⟨x.toNat % 16, by omega⟩
def regP (x : Byte) : PReg := ⟨x.toNat % 8, by omega⟩
def regZ (x : Byte) : ZReg := ⟨x.toNat % 8, by omega⟩
def regT (x : Byte) : TReg := ⟨x.toNat % 16, by omega⟩
def regO (x : Byte) : OReg := ⟨x.toNat % 32, by omega⟩

/-- Window of a constant-window operand (R78). -/
def kWindow (i : W32) : Fin 8 := ⟨i.toNat / 2 ^ 29 % 8, by omega⟩
/-- Word offset of a constant-window operand. -/
def kWord (i : W32) : Fin 131072 := ⟨i.toNat / 4096 % 131072, by omega⟩

namespace Fields

def hdr (f : Fields) : Hdr := ⟨⟨f.pred.toNat, f.pred.isLt⟩, ⟨f.hint.toNat, f.hint.isLt⟩, ⟨f.feat.toNat, f.feat.isLt⟩⟩
def m (f : Fields) : Nat := f.mod.toNat
def bit (f : Fields) (n : Nat) : Bool := f.mod.toNat / 2 ^ n % 2 == 1
def sD (f : Fields) : SReg := regS f.d
def sA (f : Fields) : SReg := regS f.a
def sB (f : Fields) : SReg := regS f.b
def sC (f : Fields) : SReg := regS f.c
def vD (f : Fields) : VReg := regV f.d
def vA (f : Fields) : VReg := regV f.a
def vB (f : Fields) : VReg := regV f.b
def vC (f : Fields) : VReg := regV f.c
def pD (f : Fields) : PReg := regP f.d
def pA (f : Fields) : PReg := regP f.a
def pB (f : Fields) : PReg := regP f.b
def pC (f : Fields) : PReg := regP f.c
def cD (f : Fields) : CReg := regC f.d
def cA (f : Fields) : CReg := regC f.a
def zA (f : Fields) : ZReg := regZ f.a
def zB (f : Fields) : ZReg := regZ f.b
def tD (f : Fields) : TReg := regT f.d
def tA (f : Fields) : TReg := regT f.a
def oA (f : Fields) : OReg := regO f.a
def oB (f : Fields) : OReg := regO f.b
def oC (f : Fields) : OReg := regO f.c

/-- A position of classes s i. -/
def si (f : Fields) (x : Byte) : SI := if x = 0x81 then .i f.i else .s (regS x)
def src (f : Fields) (x : Byte) : Src :=
  if x = 0x81 then .i f.i else if x = 0x80 then .k (kWindow f.i) (kWord f.i) else .s (regS x)
def vsrc (f : Fields) (x : Byte) : VSrc :=
  if x = 0x81 then .i f.i else if x = 0x80 then .k (kWindow f.i) (kWord f.i)
  else if x.toNat < 0x40 then .s (regS x) else .v (regV x)
def vsi (f : Fields) (x : Byte) : VSI :=
  if x = 0x81 then .i f.i else if x.toNat < 0x40 then .s (regS x) else .v (regV x)
def ts (_ : Fields) (x : Byte) : TS := if x.toNat < 0x40 then .s (regS x) else .t (regT x)
def sp (_ : Fields) (x : Byte) : SP := if x.toNat < 0x40 then .s (regS x) else .p (regP x)
/-- A memory operand in A and B: A an s register, B an s register or 0x81, where I is the offset (10 R186, 04 R91). -/
def mem (f : Fields) : MemOp := ⟨f.sA, f.si f.b⟩

end Fields

/-! ## Codes of modifier groups -/

/-- Type group of the memory instructions, MOD[34:32] (10 R186); the integer types of 07 R125 have the same codes. -/
def intTy (n : Nat) : IntTy :=
  match n with
  | 0 => .i64 | 1 => .i32 | 2 => .i16 | 3 => .i8 | 4 => .n64 | 5 => .n32 | 6 => .n16 | _ => .n8
def IntTy.code : IntTy → Nat
  | .i64 => 0 | .i32 => 1 | .i16 => 2 | .i8 => 3 | .n64 => 4 | .n32 => 5 | .n16 => 6 | .n8 => 7
/-- Scope group, MOD[36:35] of the memory instructions (10 R186). -/
def scopeOf (n : Nat) : Scope :=
  match n with
  | 0 => .core | 1 => .block | 2 => .device | _ => .system
def Scope.code : Scope → Nat
  | .core => 0 | .block => 1 | .device => 2 | .system => 3
def rmOf (n : Nat) : Rm :=
  match n with
  | 0 => .rne | 1 => .rtz | 2 => .rup | 3 => .rdn | _ => .rna
def Rm.code : Rm → Nat
  | .rne => 0 | .rtz => 1 | .rup => 2 | .rdn => 3 | .rna => 4
def ordOf (n : Nat) : Ord :=
  match n with
  | 0 => .rlx | 1 => .acq | 2 => .rel | _ => .acqrel
def Ord.code : Ord → Nat
  | .rlx => 0 | .acq => 1 | .rel => 2 | .acqrel => 3
def fty (n : Nat) : FTy :=
  match n with
  | 0 => .f32 | 1 => .f16 | 2 => .bf16 | 3 => .e4m3 | _ => .e5m2
def FTy.code : FTy → Nat
  | .f32 => 0 | .f16 => 1 | .bf16 => 2 | .e4m3 => 3 | .e5m2 => 4
def vty (n : Nat) : VTy :=
  match n with
  | 0 => .n32 | 1 => .i32 | 2 => .f32 | 3 => .f16 | 4 => .bf16 | 5 => .e4m3 | 6 => .e5m2 | 7 => .sx3 | 8 => .sx5 | 9 => .sx8 | _ => .c4
def VTy.code : VTy → Nat
  | .n32 => 0 | .i32 => 1 | .f32 => 2 | .f16 => 3 | .bf16 => 4 | .e4m3 => 5 | .e5m2 => 6 | .sx3 => 7 | .sx5 => 8 | .sx8 => 9 | .c4 => 10
def cvtTy (n : Nat) : CvtTy :=
  match n with
  | 0 => .f32 | 1 => .f16 | 2 => .bf16 | 3 => .e4m3 | 4 => .e5m2 | 5 => .i32 | _ => .n32
def CvtTy.code : CvtTy → Nat
  | .f32 => 0 | .f16 => 1 | .bf16 => 2 | .e4m3 => 3 | .e5m2 => 4 | .i32 => 5 | .n32 => 6
def mfmt (n : Nat) : MFmt :=
  match n with
  | 1 => .f16 | 2 => .bf16 | 3 => .e4m3 | 4 => .e5m2 | 5 => .sx3 | 6 => .sx5 | 7 => .sx8 | 8 => .c4 | _ => .i8
def MFmt.code : MFmt → Nat
  | .f16 => 1 | .bf16 => 2 | .e4m3 => 3 | .e5m2 => 4 | .sx3 => 5 | .sx5 => 6 | .sx8 => 7 | .c4 => 8 | .i8 => 9
def gsize (n : Nat) : GSize :=
  match n with
  | 1 => .g2 | 2 => .g4 | _ => .g8
def GSize.code : GSize → Nat
  | .g2 => 1 | .g4 => 2 | .g8 => 3
def plevel (n : Nat) : PLevel :=
  match n with
  | 0 => .l2 | 1 => .l1 | _ => .llc
def PLevel.code : PLevel → Nat
  | .l2 => 0 | .l1 => 1 | .llc => 2
def laneTy (n : Nat) : LaneTy :=
  match n with
  | 1 => .i32 | 5 => .n32 | _ => .f32
def LaneTy.code : LaneTy → Nat
  | .f32 => 0 | .i32 => 1 | .n32 => 5

/-! ## Forms -/

/-- What I holds when no position names it. -/
inductive IUse where
  | zero | offset | sreg
  deriving DecidableEq, Repr

/-- One row of an encoding table: what each position accepts (`none`: the position must hold 0xFF), whether C is a count,
what I holds, whether a guard is accepted, the MOD values assigned, and the instruction the fields stand for. -/
structure Form where
  d : Option (List Cls)
  a : Option (List Cls)
  b : Option (List Cls)
  c : Option (List Cls)
  count : Bool
  iuse : IUse
  guard : Bool
  modOk : Fields → Bool
  build : Fields → Instr

namespace Form

def s : Option (List Cls) := some [.s]
def v : Option (List Cls) := some [.v]
def p : Option (List Cls) := some [.p]
def c' : Option (List Cls) := some [.c]
def t : Option (List Cls) := some [.t]
def o : Option (List Cls) := some [.o]
def z : Option (List Cls) := some [.z]
def i' : Option (List Cls) := some [.i]
def si : Option (List Cls) := some [.s, .i]
def sik : Option (List Cls) := some [.s, .i, .k]
def vsik : Option (List Cls) := some [.v, .s, .i, .k]
def vsi : Option (List Cls) := some [.v, .s, .i]
def ts : Option (List Cls) := some [.t, .s]
def sp : Option (List Cls) := some [.s, .p]

/-- A row with no count and I zero or named by a position. -/
def row (d a b c : Option (List Cls)) (guard : Bool) (modOk : Fields → Bool) (build : Fields → Instr) : Form :=
  ⟨d, a, b, c, false, .zero, guard, modOk, build⟩

/-! Assigned MOD values. -/

def mod0 (f : Fields) : Bool := f.m == 0
/-- INT of 07 R122. -/
def modInt (sat : Bool) (f : Fields) : Bool := f.m < (if sat then 16 else 8)
/-- INT limited to 8, 16 and 32 bits (11 R218). -/
def modVInt (sat : Bool) (f : Fields) : Bool := modInt sat f && f.m % 4 != 0
/-- INT limited to types 1 and 5. -/
def modLane (sat : Bool) (f : Fields) : Bool := f.m == 1 || f.m == 5 || (sat && (f.m == 9 || f.m == 13))
/-- FLT of 11 R216. -/
def modFlt (f : Fields) : Bool := f.m < 16 && f.m % 8 < 4
/-- [34:32] RM 0-3, rest zero. -/
def modRm (f : Fields) : Bool := f.m < 4
/-- Scope and any type (10 R186). -/
def modAny (_ : Fields) : Bool := true
/-- Scope and a type of 16 R299. -/
def modAtomic (f : Fields) : Bool := f.m % 4 < 2
/-- Scope alone in [36:35]. -/
def modScope (f : Fields) : Bool := f.m % 8 == 0

/-! Shapes that several rows share. -/

def intA (k : IntA → Instr) (sat : Bool) : Form :=
  row s s sik none true (modInt sat) fun f => k ⟨f.hdr, intTy (f.m % 8), f.bit 3, f.sD, f.sA, f.src f.b⟩
def intSh (k : IntSh → Instr) (sat : Bool) (ok : Fields → Bool) : Form :=
  row s s si none true (fun f => modInt sat f && ok f) fun f => k ⟨f.hdr, intTy (f.m % 8), f.bit 3, f.sD, f.sA, f.si f.b⟩
def intU (k : IntU → Instr) (ok : Fields → Bool) : Form :=
  row s s none none true (fun f => modInt false f && ok f) fun f => k ⟨f.hdr, intTy (f.m % 8), f.sD, f.sA⟩
def cmp (k : Cmp → Instr) : Form :=
  row sp s sik none true (modInt false) fun f => k ⟨f.hdr, intTy (f.m % 8), f.sp f.d, f.sA, f.src f.b⟩
def ppp (k : PPP → Instr) : Form := row p p p none true mod0 fun f => k ⟨f.hdr, f.pD, f.pA, f.pB⟩
def spr (k : SPr → Instr) : Form := row s p none none true mod0 fun f => k ⟨f.hdr, f.sD, f.pA⟩
def hOnly (k : HOnly → Instr) (g : Bool) : Form := row none none none none g mod0 fun f => k ⟨f.hdr⟩
def dOnly (k : DOnly → Instr) (g : Bool) : Form := row s none none none g mod0 fun f => k ⟨f.hdr, f.sD⟩
def da (k : DA → Instr) (g : Bool) : Form := row s s none none g mod0 fun f => k ⟨f.hdr, f.sD, f.sA⟩
def dsi (k : DSI → Instr) (g : Bool) : Form := row s si none none g mod0 fun f => k ⟨f.hdr, f.sD, f.si f.a⟩
def aOnly (k : AOnly → Instr) (g : Bool) : Form := row none s none none g mod0 fun f => k ⟨f.hdr, f.sA⟩
def brO (k : BrO → Instr) : Form := ⟨none, none, none, none, false, .offset, true, mod0, fun f => k ⟨f.hdr, f.i⟩⟩
def csi (k : CSI → Instr) : Form := row c' si none none false mod0 fun f => k ⟨f.hdr, f.cD, f.si f.a⟩
def cbW (k : CbW → Instr) : Form :=
  ⟨s, c', none, none, true, .zero, false, mod0, fun f => k ⟨f.hdr, f.sD, f.cA, ⟨f.c.toNat, f.c.isLt⟩⟩⟩
def tsi (k : TSI → Instr) : Form := row t si none none false mod0 fun f => k ⟨f.hdr, f.tD, f.si f.a⟩
def vflt (k : VFlt → Instr) (ty : FTy) : Form :=
  row v v vsik none true modFlt fun f => k ⟨f.hdr, ty, rmOf (f.m % 8), f.bit 3, f.vD, f.vA, f.vsrc f.b⟩
def vfma (k : VFma → Instr) (ty : FTy) : Form :=
  row v v vsik v true modFlt fun f => k ⟨f.hdr, ty, rmOf (f.m % 8), f.bit 3, f.vD, f.vA, f.vsrc f.b, f.vC⟩
def vfmm (k : VFMM → Instr) (ty : FTy) : Form :=
  row v v vsik none true mod0 fun f => k ⟨f.hdr, ty, f.vD, f.vA, f.vsrc f.b⟩
def vfu (k : VFU → Instr) (ty : FTy) : Form := row v v none none true mod0 fun f => k ⟨f.hdr, ty, f.vD, f.vA⟩
def vint (k : VInt → Instr) (sat : Bool) : Form :=
  row v v vsik none true (modVInt sat) fun f => k ⟨f.hdr, intTy (f.m % 8), f.bit 3, f.vD, f.vA, f.vsrc f.b⟩
def vintSh (k : VIntSh → Instr) (sat : Bool) : Form :=
  row v v vsi none true (modVInt sat) fun f => k ⟨f.hdr, intTy (f.m % 8), f.bit 3, f.vD, f.vA, f.vsi f.b⟩
def vcmpF (k : VCmp → Instr) : Form := row p v vsik none true mod0 fun f => k ⟨f.hdr, .f32, f.pD, f.vA, f.vsrc f.b⟩
def vcmpI (k : VCmp → Instr) : Form :=
  row p v vsik none true (modLane false) fun f => k ⟨f.hdr, laneTy (f.m % 8), f.pD, f.vA, f.vsrc f.b⟩
def vv (k : VV → Instr) : Form := row v v none none true mod0 fun f => k ⟨f.hdr, f.vD, f.vA⟩
def vvv (k : VVV → Instr) : Form := row v v v none true mod0 fun f => k ⟨f.hdr, f.vD, f.vA, f.vB⟩
def redTy (f : Fields) : Red := if f.m % 8 == 1 then .i32 (f.bit 3) else .n32 (f.bit 3)
def redF (k : VRed → Instr) (ok : Fields → Bool) : Form := row s v none none true ok fun f => k ⟨f.hdr, .f32 (rmOf (f.m % 8)), f.sD, f.vA⟩
def redI (k : VRed → Instr) (sat : Bool) : Form := row s v none none true (modLane sat) fun f => k ⟨f.hdr, redTy f, f.sD, f.vA⟩
def atom (k : Atom → Instr) (ord : Ord) : Form :=
  row s s si s true modAtomic fun f => k ⟨f.hdr, ord, scopeOf (f.m / 8), intTy (f.m % 8), f.sD, f.mem, f.sC⟩
def mred (k : MRed → Instr) (rel : Bool) : Form :=
  row none s si s true modAtomic fun f => k ⟨f.hdr, rel, scopeOf (f.m / 8), intTy (f.m % 8), f.mem, f.sC⟩
def rvred (k : RVRed → Instr) (red : Fields → Red) (ok : Fields → Bool) : Form :=
  row v v si si true ok fun f => k ⟨f.hdr, f.bit 4, red f, f.vD, f.vA, f.si f.b, f.si f.c⟩
/-- `f` with MOD[36] clear, for the groups that share MOD with MAP. -/
def lo (f : Fields) : Fields := { f with mod := BitVec.ofNat 5 (f.m % 16) }

end Form

open Form in
/-- Majors 0x10-0x18 (07 R125 to R133). -/
def formScalar (op fn : Nat) : Option Form :=
  match op with
  | 0x10 =>
    match fn with
    | 0 => some (intA .add true) | 1 => some (intA .sub true) | 2 => some (intA .mul true) | 3 => some (intA .mulh false)
    | 4 => some (intA .and false) | 5 => some (intA .or false) | 6 => some (intA .xor false) | 7 => some (intA .andn false)
    | 8 => some (intSh .shl true fun _ => true) | 9 => some (intSh .shr false fun _ => true)
    | 10 => some (intSh .rotl false fun _ => true) | 11 => some (intA .min false) | 12 => some (intA .max false)
    | _ => none
  | 0x11 =>
    match fn with
    | 0 => some (intA .div true) | 1 => some (intA .rem false) | _ => none
  | 0x12 =>
    match fn with
    | 0 => some (intSh .ext false fun f => f.m % 4 == 0)
    | 1 => some (row s s s si true mod0 fun f => .ins ⟨f.hdr, f.sD, f.sA, f.sB, f.si f.c⟩)
    | 2 => some (intU .clz fun _ => true) | 3 => some (intU .ctz fun _ => true) | 4 => some (intU .popc fun _ => true)
    | 5 => some (intU .brev fun _ => true) | 6 => some (intU .bswap fun f => f.m % 4 != 3)
    | _ => none
  | 0x13 =>
    match fn with
    | 0 => some (cmp .cmpeq) | 1 => some (cmp .cmpne) | 2 => some (cmp .cmplt) | 3 => some (cmp .cmple)
    | 4 => some (cmp .cmpgt) | 5 => some (cmp .cmpge) | _ => none
  | 0x14 =>
    match fn with
    | 0 => some (row s sik s p true mod0 fun f => .sel ⟨f.hdr, f.sD, f.src f.a, f.sB, f.pC⟩)
    | 1 => some (row s sik none none true (modInt false) fun f => .mov ⟨f.hdr, intTy (f.m % 8), f.sD, f.src f.a⟩)
    | 2 => some (row s s i' none true mod0 fun f => .lih ⟨f.hdr, f.sD, f.sA, f.i⟩)
    | _ => none
  | 0x15 =>
    match fn with
    | 0 => some (ppp .pand) | 1 => some (ppp .por) | 2 => some (ppp .pxor) | 3 => some (ppp .pandn)
    | 4 => some (row p p none none true mod0 fun f => .pnot ⟨f.hdr, f.pD, f.pA⟩)
    | 5 => some (row p i' none none true mod0 fun f => .pset ⟨f.hdr, f.pD, f.i⟩)
    | 6 => some (spr .pread)
    | 7 => some (row p s none none true mod0 fun f => .pwrite ⟨f.hdr, f.pD, f.sA⟩)
    | 8 => some (spr .pcnt)
    | _ => none
  | 0x16 =>
    match fn with
    | 0 => some ⟨s, none, none, none, false, .sreg, true, mod0, fun f => .srd ⟨f.hdr, f.sD, ⟨f.i.toNat % 4096, by omega⟩⟩⟩
    | 1 => some ⟨none, s, none, none, false, .sreg, true, mod0, fun f => .swr ⟨f.hdr, f.sA, ⟨f.i.toNat % 4096, by omega⟩⟩⟩
    | _ => none
  | 0x17 =>
    match fn with
    | 0 => some (hOnly .nop true) | _ => none
  | 0x18 =>
    match fn with
    | 0 => some (row s s si none true (fun f => f.m < 5 && (f.b != 0x81 || f.m == 0))
        fun f => .lea ⟨f.hdr, ⟨f.m % 5, by omega⟩, f.sD, f.sA, f.si f.b⟩)
    | _ => none
  | _ => none

open Form in
/-- Majors 0x30-0x34 (07 R135 to R142). -/
def formControl (op fn : Nat) : Option Form :=
  match op with
  | 0x30 =>
    match fn with
    | 0 => some (brO .br)
    | 1 => some ⟨none, s, none, none, false, .offset, true, mod0, fun f => .brz ⟨f.hdr, f.sA, f.i⟩⟩
    | 2 => some ⟨none, s, none, none, false, .offset, true, mod0, fun f => .brnz ⟨f.hdr, f.sA, f.i⟩⟩
    | 3 => some ⟨s, none, none, none, false, .offset, true, mod0, fun f => .brdec ⟨f.hdr, f.sD, f.i⟩⟩
    | _ => none
  | 0x31 =>
    match fn with
    | 0 => some (brO .call) | 1 => some (aOnly .callr true) | 2 => some (aOnly .jr true) | 3 => some (hOnly .ret true)
    | _ => none
  | 0x32 =>
    match fn with
    | 0 => some (row none none none none false (fun f => 1 ≤ f.m && f.m ≤ 3) fun f => .gang ⟨f.hdr, gsize f.m⟩)
    | 1 => some (hOnly .disband false)
    | 2 => some (row s si si none true (fun f => f.m < 2) fun f => .part ⟨f.hdr, f.bit 0, f.sD, f.si f.a, f.si f.b⟩)
    | _ => none
  | 0x33 =>
    match fn with
    | 0 => some (row none s s s false mod0 fun f => .ftileset ⟨f.hdr, f.sA, f.sB, f.sC⟩)
    | 1 => some (dOnly .ftile false)
    | _ => none
  | 0x34 =>
    match fn with
    | 0 => some (csi .cbset) | 1 => some (cbW .cbwaitc) | 2 => some (cbW .cbwaitp) | 3 => some (csi .cbadvc) | 4 => some (csi .cbadvp)
    | _ => none
  | _ => none

open Form in
/-- Majors 0x40-0x47 (10 R186, R188 to R210): the classes of each position, type from MOD[34:32], scope from MOD[36:35], order from FN. -/
def formMemory (op fn : Nat) : Option Form :=
  match op with
  | 0x40 =>
    match fn with
    | 0 => some (row s s si none true modAny fun f => .ld ⟨f.hdr, false, scopeOf (f.m / 8), intTy (f.m % 8), f.sD, f.mem⟩)
    | 1 => some (row s s si none true modAny fun f => .ld ⟨f.hdr, true, scopeOf (f.m / 8), intTy (f.m % 8), f.sD, f.mem⟩)
    | 2 => some (row none s si s true modAny fun f => .st ⟨f.hdr, false, scopeOf (f.m / 8), intTy (f.m % 8), f.mem, f.sC⟩)
    | 3 => some (row none s si s true modAny fun f => .st ⟨f.hdr, true, scopeOf (f.m / 8), intTy (f.m % 8), f.mem, f.sC⟩)
    | _ => none
  | 0x41 =>
    if fn < 4 then
      some (row s s si s true modAny fun f =>
        .ldv ⟨f.hdr, fn % 2 == 1, fn / 2 == 1, scopeOf (f.m / 8), intTy (f.m % 8), f.sD, f.mem, f.sC⟩)
    else
      match fn with
      | 4 => some (row s s si s true modAny fun f => .stcv ⟨f.hdr, false, scopeOf (f.m / 8), intTy (f.m % 8), f.sD, f.mem, f.sC⟩)
      | 5 => some (row s s si s true modAny fun f => .stcv ⟨f.hdr, true, scopeOf (f.m / 8), intTy (f.m % 8), f.sD, f.mem, f.sC⟩)
      | 6 => some (dOnly .valchk true)
      | 7 => some (hOnly .valclr true)
      | _ => none
  | 0x42 =>
    let x := fn % 16
    if fn < 11 then
      some (row v s si none (vty x).guarded modScope fun f => .vld ⟨f.hdr, vty x, scopeOf (f.m / 8), f.vD, f.mem⟩)
    else if 0x10 ≤ fn && fn < 0x1B || 0x23 ≤ fn && fn < 0x2B then
      some (row none s si v (vty x).guarded (fun f => if x < 3 then f.m % 8 == 0 else f.m % 8 < 5)
        fun f => .vst ⟨f.hdr, vty x, fn / 16 == 2, rmOf (f.m % 8), scopeOf (f.m / 8), f.mem, f.vC⟩)
    else none
  | 0x43 =>
    match fn with
    | 0 => some (row none s si none true (fun f => f.m < 3) fun f => .pref ⟨f.hdr, plevel f.m, f.mem⟩)
    | _ => none
  | 0x44 =>
    match fn with
    | 0 => some (tsi .tfill)
    | 1 => some (row t none none none false mod0 fun f => .trel ⟨f.hdr, f.tD⟩)
    | 2 => some (row t s none none false mod0 fun f => .tdef ⟨f.hdr, f.tD, f.sA⟩)
    | 3 => some (row s t none none false mod0 fun f => .tstat ⟨f.hdr, f.sD, f.tA⟩)
    | _ => none
  | 0x45 =>
    match fn with
    | 0 => some (row s ts ts si false (fun f => !f.bit 0 || clsOf f.a == some .t)
        fun f => .cpy ⟨f.hdr, scopeOf (f.m / 2 % 4), f.bit 4, f.bit 3, f.bit 0, f.sD, f.ts f.a, f.ts f.b, f.si f.c⟩)
    | 1 => some (row s s none none false (fun f => f.m % 2 == 0)
        fun f => .cjob ⟨f.hdr, scopeOf (f.m / 2 % 4), f.bit 4, f.bit 3, f.sD, f.sA⟩)
    | 2 => some (da .cpoll false)
    | 3 => some (da .cwait false)
    | _ => none
  | 0x46 =>
    match fn with
    | 0 => some (row none s s s false mod0 fun f => .rset ⟨f.hdr, f.sA, f.sB, f.sC⟩)
    | 1 => some (row none si none none false mod0 fun f => .unpin ⟨f.hdr, f.si f.a⟩)
    | 2 => some (row s si none none false (fun f => f.m < 4) fun f => .rrd ⟨f.hdr, ⟨f.m % 4, by omega⟩, f.sD, f.si f.a⟩)
    | _ => none
  | 0x47 =>
    match fn with
    | 0 => some (tsi .frarm) | _ => none
  | _ => none

open Form in
/-- Majors 0x60-0x67 (16 R303 to R317). -/
def formSync (op fn : Nat) : Option Form :=
  match op with
  | 0x60 =>
    if fn < 64 then
      let ord := ordOf (fn / 16)
      match fn % 16 with
      | 0 => some (atom .aadd ord) | 1 => some (atom .aand ord) | 2 => some (atom .aor ord) | 3 => some (atom .axor ord)
      | 4 => some (atom .amin ord) | 5 => some (atom .amax ord) | 6 => some (atom .aswap ord) | 7 => some (atom .acas ord)
      | 8 => some (row s s si s true modScope fun f => .afadd ⟨f.hdr, ord, scopeOf (f.m / 8), f.sD, f.mem, f.sC⟩)
      | _ => none
    else none
  | 0x61 =>
    if fn < 16 || 32 ≤ fn && fn < 48 then
      let rel := fn / 16 == 2
      match fn % 16 with
      | 0 => some (mred .mradd rel) | 1 => some (mred .mrand rel) | 2 => some (mred .mror rel) | 3 => some (mred .mrxor rel)
      | 4 => some (mred .mrmin rel) | 5 => some (mred .mrmax rel)
      | 6 => some (row none s si s true modScope fun f => .mrfadd ⟨f.hdr, rel, scopeOf (f.m / 8), f.mem, f.sC⟩)
      | _ => none
    else none
  | 0x62 =>
    match fn with
    | 0 => some (row none none none none true modScope fun f => .fence ⟨f.hdr, .acq, scopeOf (f.m / 8)⟩)
    | 1 => some (row none none none none true modScope fun f => .fence ⟨f.hdr, .rel, scopeOf (f.m / 8)⟩)
    | 2 => some (row none none none none true modScope fun f => .fence ⟨f.hdr, .full, scopeOf (f.m / 8)⟩)
    | _ => none
  | 0x63 =>
    match fn with
    | 0 => some (row s si none none false modScope fun f => .barsync ⟨f.hdr, scopeOf (f.m / 8), f.sD, f.si f.a⟩)
    | 1 => some (row s si none none false modScope fun f => .bararv ⟨f.hdr, scopeOf (f.m / 8), f.sD, f.si f.a⟩)
    | 2 => some (row s si si none false modScope fun f => .barwait ⟨f.hdr, scopeOf (f.m / 8), f.sD, f.si f.a, f.si f.b⟩)
    | _ => none
  | 0x64 =>
    match fn with
    | 0 => some (dOnly .phadv false) | 1 => some (dsi .phwait false) | _ => none
  | 0x65 =>
    match fn with
    | 0 => some (row s s si none true modScope fun f => .ibsend ⟨f.hdr, scopeOf (f.m / 8), f.sD, f.sA, f.si f.b⟩)
    | 1 => some (row s none none none false modScope fun f => .ibrecv ⟨f.hdr, scopeOf (f.m / 8), f.sD⟩)
    | 2 => some (dOnly .ibpoll false)
    | _ => none
  | 0x66 =>
    if fn < 4 then
      some (row s s s s true modAtomic fun f =>
        .casv ⟨f.hdr, ordOf fn, scopeOf (f.m / 8), intTy (f.m % 8), f.sD, f.sA, f.sB, f.sC⟩)
    else if fn = 4 then
      some (row s s s si true modScope fun f => .waitv ⟨f.hdr, scopeOf (f.m / 8), f.sD, f.sA, f.sB, f.si f.c⟩)
    else none
  | 0x67 =>
    match fn with
    | 0 => some (da .dlaunch true)
    | 1 => some (row none s s none true (fun f => f.m < 2) fun f => .dsignal ⟨f.hdr, f.bit 0, f.sA, f.sB⟩)
    | _ => none
  | _ => none

open Form in
/-- Majors 0x70-0x7F (18 R332, 20 R343, R347). -/
def formFabric (op fn : Nat) : Option Form :=
  match op with
  | 0x70 =>
    match fn with
    | 0 => some (row s ts s none true mod0 fun f => .msgsend ⟨f.hdr, false, f.sD, f.ts f.a, f.sB⟩)
    | 1 => some (row s ts s none true mod0 fun f => .msgsend ⟨f.hdr, true, f.sD, f.ts f.a, f.sB⟩)
    | _ => none
  | 0x71 =>
    match fn with
    | 0 => some (row s s s none true mod0 fun f => .msgpost ⟨f.hdr, f.sD, f.sA, f.sB⟩) | _ => none
  | 0x72 =>
    match fn with
    | 0 => some (da .msgtest false) | 1 => some (da .msgwait false) | _ => none
  | 0x73 =>
    match fn with
    | 0 => some (da .msgcancel false) | _ => none
  | 0x78 =>
    match fn with
    | 0 => some (dOnly .rand true)
    | 1 => some (row v none none none true mod0 fun f => .vrand ⟨f.hdr, false, f.vD⟩)
    | 2 => some (row v none none none true mod0 fun f => .vrand ⟨f.hdr, true, f.vD⟩)
    | 3 => some (dOnly .rtell false)
    | 4 => some (dsi .rseek false)
    | _ => none
  | 0x7C =>
    match fn with
    | 0 => some (row s t s none false mod0 fun f => .smpl ⟨f.hdr, f.sD, f.tA, f.sB⟩)
    | 1 => some (row s s s none false mod0 fun f => .tokexec ⟨f.hdr, f.sD, f.sA, f.sB⟩)
    | _ => none
  | _ => none

open Form in
/-- Floating arithmetic, majors 0x80-0x84 (11 R216). -/
def formFloat (ty : FTy) (fn : Nat) : Option Form :=
  match fn with
  | 0 => some (vflt .vadd ty) | 1 => some (vflt .vsub ty) | 2 => some (vflt .vmul ty)
  | 3 => some (vfma .vfma ty) | 4 => some (vfma .vfnma ty) | 5 => some (vfmm .vmin ty) | 6 => some (vfmm .vmax ty)
  | 7 => some (vfu .vabs ty) | 8 => some (vfu .vneg ty)
  | _ => none

/-- The type whose width sets the number of parts of a `vcvt`. -/
def cvtOther (dst src : CvtTy) : CvtTy := if dst = .f32 then src else dst

open Form in
/-- 11 R220: the 16 listed FN values. -/
def formCvt (fn : Nat) : Option Form :=
  let sat := fn / 128 == 1
  let sr := fn / 16 % 8
  let ds := fn % 16
  if sr < 7 && ds < 7 && vcvtPair (cvtTy ds) (cvtTy sr) && (!sat || (1 ≤ ds && ds ≤ 4)) then
    let dst := cvtTy ds
    let src := cvtTy sr
    some (row v v none none (cvtOther dst src).intTy (fun f => f.m % 8 < 5 && f.m / 8 < 32 / (cvtOther dst src).width)
      fun f => .vcvt ⟨f.hdr, dst, src, rmOf (f.m % 8), sat, ⟨f.m / 8 % 4, by omega⟩, f.vD, f.vA⟩)
  else none

open Form in
/-- Majors 0x85-0x8E (11 R215 to R229). -/
def formVector (op fn : Nat) : Option Form :=
  match op with
  | 0x85 =>
    match fn with
    | 0 => some (vcmpF .vcmpeq) | 1 => some (vcmpF .vcmpne) | 2 => some (vcmpF .vcmplt) | 3 => some (vcmpF .vcmple)
    | 4 => some (vcmpF .vcmpgt) | 5 => some (vcmpF .vcmpge) | 6 => some (vcmpF .vcmpun)
    | 0x10 => some (vcmpI .vcmpeq) | 0x11 => some (vcmpI .vcmpne) | 0x12 => some (vcmpI .vcmplt) | 0x13 => some (vcmpI .vcmple)
    | 0x14 => some (vcmpI .vcmpgt) | 0x15 => some (vcmpI .vcmpge)
    | _ => none
  | 0x86 => formCvt fn
  | 0x87 =>
    match fn with
    | 0 => some (vv .vmov)
    | 1 => some (vvv .vperm)
    | 2 => some (row v v vsik p true mod0 fun f => .vsel ⟨f.hdr, f.vD, f.vA, f.vsrc f.b, f.pC⟩)
    | 3 => some (row v sik none none true mod0 fun f => .vbcast ⟨f.hdr, f.vD, f.src f.a⟩)
    | 4 => some (row v v v si true mod0 fun f => .vslide ⟨f.hdr, f.vD, f.vA, f.vB, f.si f.c⟩)
    | 5 => some (row s v si none false mod0 fun f => .vgetl ⟨f.hdr, f.sD, f.vA, f.si f.b⟩)
    | 6 => some (row v sik si none false mod0 fun f => .vsetl ⟨f.hdr, f.vD, f.src f.a, f.si f.b⟩)
    | _ => none
  | 0x88 =>
    match fn with
    | 0 => some (vint .vaddInt true) | 1 => some (vint .vsubInt true) | 2 => some (vint .vmulInt true) | 3 => some (vint .vmulh false)
    | 4 => some (vint .vand false) | 5 => some (vint .vor false) | 6 => some (vint .vxor false) | 7 => some (vint .vandn false)
    | 8 => some (vintSh .vshl true) | 9 => some (vintSh .vshr false) | 10 => some (vintSh .vrotl false)
    | 11 => some (vint .vminInt false) | 12 => some (vint .vmaxInt false)
    | _ => none
  | 0x8A =>
    match fn with
    | 0 => some (redF .vrsum modRm) | 1 => some (redF .vrmax mod0) | 2 => some (redF .vrmin mod0)
    | 8 => some (redI .vrsum true) | 9 => some (redI .vrmax false) | 10 => some (redI .vrmin false)
    | _ => none
  | 0x8B =>
    match fn with
    | 0 => some (vv .vrcp) | 1 => some (vv .vrsqrt)
    | 2 => some (row v v none none true modRm fun f => .vsqrt ⟨f.hdr, rmOf f.m, f.vD, f.vA⟩)
    | 3 => some (row v v vsik none true modRm fun f => .vdiv ⟨f.hdr, rmOf f.m, f.vD, f.vA, f.vsrc f.b⟩)
    | 4 => some (vv .vexp2) | 5 => some (vv .vlog2) | 6 => some (vv .vsinpi) | 7 => some (vv .vcospi) | 8 => some (vv .vtanh)
    | _ => none
  | 0x8C =>
    match fn with
    | 0 => some (row none s si none false mod0 fun f => .ctload ⟨f.hdr, f.mem⟩)
    | 1 => some (row v v none none false (fun f => f.m < 8) fun f => .vctdec ⟨f.hdr, false, ⟨f.m % 8, by omega⟩, f.vD, f.vA⟩)
    | 2 => some (row v v none none false (fun f => f.m < 8) fun f => .vctdec ⟨f.hdr, true, ⟨f.m % 8, by omega⟩, f.vD, f.vA⟩)
    | 3 => some (row v v none none false (fun f => f.m < 8) fun f => .vctenc ⟨f.hdr, ⟨f.m % 8, by omega⟩, f.vD, f.vA⟩)
    | _ => none
  | 0x8D =>
    match fn with
    | 0 => some (redF .vgsum modRm) | 1 => some (redF .vgmax mod0) | 2 => some (redF .vgmin mod0)
    | 8 => some (redI .vgsum true) | 9 => some (redI .vgmax false) | 10 => some (redI .vgmin false)
    | 0x10 => some (vvv .vgperm)
    | 0x11 => some (row v v si none true mod0 fun f => .vgbcast ⟨f.hdr, f.vD, f.vA, f.si f.b⟩)
    | _ => none
  | 0x8E =>
    match fn with
    | 0 => some (dOnly .vflgrd false) | 1 => some (dOnly .vflgclr false) | _ => none
  | _ => none

open Form in
/-- Majors 0xB0-0xB5 (13 R238 to R253). -/
def formMatrix (op fn : Nat) : Option Form :=
  match op with
  | 0xB0 =>
    match fn with
    | 0 => some (row s o si none false mod0 fun f => .oclaim ⟨f.hdr, f.sD, f.oA, f.si f.b⟩)
    | 1 => some (row none o si none false mod0 fun f => .orelease ⟨f.hdr, f.oA, f.si f.b⟩)
    | 2 => some (row s z si none false mod0 fun f => .zclaim ⟨f.hdr, f.sD, f.zA, f.si f.b⟩)
    | 3 => some (row none z si none false mod0 fun f => .zrelease ⟨f.hdr, f.zA, f.si f.b⟩)
    | _ => none
  | 0xB1 =>
    match fn with
    | 0 => some (row s o ts s false (fun f => f.m % 2 == 0 && !f.bit 3)
        fun f => .oload ⟨f.hdr, scopeOf (f.m / 2 % 4), f.bit 4, f.sD, f.oA, f.ts f.b, f.sC⟩)
    | _ => none
  | 0xB2 =>
    if fn < 32 && 1 ≤ fn % 16 && fn % 16 ≤ 9 then
      let m32 := fn / 16 == 1
      some (row s z o o false (fun f => f.m / 4 % 4 == 0 && (m32 || f.m % 4 == 0))
        fun f => .mma ⟨f.hdr, m32, mfmt (fn % 16), ⟨f.m % 4, by omega⟩, f.bit 4, f.sD, f.zA, f.oB, f.oC⟩)
    else none
  | 0xB3 =>
    match fn with
    | 0 => some (row s z none none false (fun f => f.m < 2) fun f => .zclear ⟨f.hdr, f.bit 0, f.sD, f.zA⟩)
    | 1 => some (row s ts z s false (fun f => f.m % 2 == 0 && (!f.bit 3 || clsOf f.a == some .t))
        fun f => .zstore ⟨f.hdr, scopeOf (f.m / 2 % 4), f.bit 4, f.bit 3, f.sD, f.ts f.a, f.zB, f.sC⟩)
    | 2 => some (row s z ts s false (fun f => f.m % 2 == 0 && !f.bit 3)
        fun f => .zload ⟨f.hdr, scopeOf (f.m / 2 % 4), f.bit 4, f.sD, f.zA, f.ts f.b, f.sC⟩)
    | _ => none
  | 0xB4 =>
    match fn with
    | 0 => some (row s z none none false (fun f => f.m < 2) fun f => .mcheck ⟨f.hdr, f.bit 0, f.sD, f.zA⟩) | _ => none
  | 0xB5 =>
    match fn with
    | 0 => some (da .mpoll false) | 1 => some (da .mwait false) | 2 => some (dOnly .mstat false) | _ => none
  | _ => none

open Form in
/-- Majors 0xC0-0xC4 (14 R262 to R272). -/
def formRagged (op fn : Nat) : Option Form :=
  match op with
  | 0xC0 =>
    match fn with
    | 0 => some (row s s si si false (fun f => f.m % 2 == 0 && !f.bit 3)
        fun f => .rbind ⟨f.hdr, f.bit 4, scopeOf (f.m / 2 % 4), f.sD, f.sA, f.si f.b, f.si f.c⟩)
    | 1 => some (row s si none none true (fun f => f.m % 16 < 2) fun f => .rrow ⟨f.hdr, f.bit 4, f.bit 0, f.sD, f.si f.a⟩)
    | 2 => some (row v si none none true (fun f => f.m % 16 == 0) fun f => .rvseg ⟨f.hdr, f.bit 4, f.vD, f.si f.a⟩)
    | 3 => some (row p si none none true (fun f => f.m % 16 == 0) fun f => .rpseg ⟨f.hdr, f.bit 4, f.pD, f.si f.a⟩)
    | _ => none
  | 0xC1 =>
    match fn with
    | 0 => some (row v s s si true (fun f => f.m % 2 == 0)
        fun f => .rvld ⟨f.hdr, f.bit 4, f.bit 3, scopeOf (f.m / 2 % 4), f.vD, f.sA, f.sB, f.si f.c⟩)
    | _ => none
  | 0xC2 =>
    match fn with
    | 0 => some (rvred .rvsum (fun f => .f32 (rmOf (f.m % 8))) fun f => f.m % 16 < 4)
    | 1 => some (rvred .rvmax (fun _ => .f32 .rne) fun f => f.m % 16 == 0)
    | 2 => some (rvred .rvmin (fun _ => .f32 .rne) fun f => f.m % 16 == 0)
    | 8 => some (rvred .rvsum redTy fun f => modLane true (lo f))
    | 9 => some (rvred .rvmax redTy fun f => modLane false (lo f))
    | 10 => some (rvred .rvmin redTy fun f => modLane false (lo f))
    | _ => none
  | 0xC3 =>
    match fn with
    | 0 => some (row v v si none true (fun f => f.m % 8 < 4)
        fun f => .rvnorm ⟨f.hdr, f.bit 4, f.bit 3, rmOf (f.m % 8), f.vD, f.vA, f.si f.b⟩)
    | _ => none
  | 0xC4 =>
    let fmt := mfmt (fn % 16)
    if fn < 64 && 1 ≤ fn % 16 && fn % 16 ≤ 9 && (fn < 32 || fmt.mkOk) then
      let m32 := fn / 16 % 2 == 1
      some (row s z o o false (fun f => f.m / 4 % 4 == 0 && (m32 || f.m % 4 == 0))
        fun f => .rmma ⟨f.hdr, fn / 32 == 1, m32, fmt, ⟨f.m % 4, by omega⟩, f.bit 4, f.sD, f.zA, f.oB, f.oC⟩)
    else none
  | _ => none

open Form in
/-- Majors 0x01-0x06 and 0xD0-0xD2 (22 R367, R370). `all` is MOD[32], which decides whether `xlinv` uses A. -/
def formSystem (op fn : Nat) (all : Bool) : Option Form :=
  match op with
  | 0x01 =>
    match fn with
    | 0 => some (hOnly .exit false) | 1 => some (hOnly .rgn false) | _ => none
  | 0x02 =>
    match fn with
    | 0 => some (dOnly .tctx false) | _ => none
  | 0x03 =>
    match fn with
    | 0 => some (dsi .xrd false)
    | 1 => some (row none si s none false mod0 fun f => .xwr ⟨f.hdr, f.si f.a, f.sB⟩)
    | _ => none
  | 0x04 =>
    match fn with
    | 0 => some (row none none none none false (fun f => f.m < 2) fun f => .tresume ⟨f.hdr, f.bit 0⟩)
    | 1 => some (hOnly .tkill false)
    | 2 => some (hOnly .tret false)
    | _ => none
  | 0x05 =>
    match fn with
    | 0 => some (dOnly .spillgo false) | 1 => some (dOnly .spstat false) | _ => none
  | 0x06 =>
    match fn with
    | 0 =>
      if all then some (row none none none none false (fun f => f.m < 2) fun f => .xlinv ⟨f.hdr, none⟩)
      else some (row none s none none false (fun f => f.m < 2) fun f => .xlinv ⟨f.hdr, some f.sA⟩)
    | _ => none
  | 0xD0 =>
    match fn with
    | 0 => some (row s s i' none false (modInt false) fun f => .ldpi ⟨f.hdr, intTy (f.m % 8), f.sD, f.sA, f.i⟩)
    | 1 => some (row s none i' s false (modInt false) fun f => .stpi ⟨f.hdr, intTy (f.m % 8), f.sD, f.i, f.sC⟩)
    | _ => none
  | 0xD1 =>
    match fn with
    | 0 => some (row v s none none false mod0 fun f => .vldpi ⟨f.hdr, f.vD, f.sA⟩) | _ => none
  | 0xD2 =>
    match fn with
    | 0 => some (row s v v none false modRm fun f => .vdot ⟨f.hdr, rmOf f.m, f.sD, f.vA, f.vB⟩) | _ => none
  | _ => none

/-- The row of the encoding tables a word's OP and FN select (04 R83). -/
def form (f : Fields) : Option Form :=
  let op := f.op.toNat
  let fn := f.fn.toNat
  if op < 0x10 then formSystem op fn (f.bit 0)
  else if op < 0x30 then formScalar op fn
  else if op < 0x40 then formControl op fn
  else if op < 0x60 then formMemory op fn
  else if op < 0x70 then formSync op fn
  else if op < 0x80 then formFabric op fn
  else if op < 0x85 then formFloat (fty (op - 0x80)) fn
  else if op < 0xB0 then formVector op fn
  else if op < 0xC0 then formMatrix op fn
  else if op < 0xC8 then formRagged op fn
  else formSystem op fn false

/-! ## The word checks of 04 R84 -/

/-- What a word fails: check 2 (cause 0x01, EMUL), check 3 (cause 0x03, FEAT), check 4 (cause 0x02, field). -/
inductive DecErr where
  | opcode (emul : Bool) (op fn : Byte)
  | feature (f : Fin 16)
  | field (n : Fin 8)
  deriving DecidableEq, Repr

/-- Order of the checks. -/
def DecErr.stage : DecErr → Nat
  | .opcode .. => 2
  | .feature _ => 3
  | .field _ => 4

/-- 04 R85: majors that the supervisor may emulate. -/
def emulable (op : Byte) : Bool :=
  (0xC8 ≤ op.toNat && op.toNat ≤ 0xCF) || (0xE0 ≤ op.toNat && op.toNat ≤ 0xFE)

/-- Check 2 of one position: a used position holds neither 0xFF nor a class it does not accept. A reserved pattern names no
class and is left to check 4. -/
def posOk (p : Option (List Cls)) (x : Byte) : Bool :=
  match p with
  | none => true
  | some l =>
    match clsOf x with
    | none => x != 0xFF
    | some cl => l.contains cl

/-- The position is used and names I. -/
def posI (p : Option (List Cls)) (x : Byte) : Bool := p.isSome && (x == 0x80 || x == 0x81)
/-- The position is used and names a constant word. -/
def posK (p : Option (List Cls)) (x : Byte) : Bool := p.isSome && x == 0x80
/-- Check 4 of one position: an unused position holds 0xFF, a used one no reserved pattern. -/
def restOk (p : Option (List Cls)) (x : Byte) : Bool := if p.isSome then (clsOf x).isSome else x == 0xFF

def Form.namesI (r : Form) (f : Fields) : Bool := posI r.a f.a || posI r.b f.b || posI r.c f.c
def Form.namesK (r : Form) (f : Fields) : Bool := posK r.a f.a || posK r.b f.b || posK r.c f.c
def Form.countI (r : Form) (f : Fields) : Nat :=
  (posI r.a f.a).toNat + (posI r.b f.b).toNat + (posI r.c f.c).toNat

/-- Check 2. -/
def Form.classesOk (r : Form) (f : Fields) : Bool :=
  posOk r.d f.d && posOk r.a f.a && posOk r.b f.b && posOk r.c f.c && r.countI f ≤ 1

/-- I as check 4 requires it. -/
def Form.iOk (r : Form) (f : Fields) : Bool :=
  if r.namesI f then !r.namesK f || f.i.toNat % 4096 == 0
  else
    match r.iuse with
    | .zero => f.i == 0
    | .offset => true
    | .sreg => f.i.toNat < 4096 && srAssigned f.i.toNat

/-- Check 4: the first field at fault, in the numbering of TRAPINFO[2:0]. R84 fixes no order inside the check; D, A, B, C, MOD, I, PRED is the model's
choice (log 70). -/
def Form.badField (r : Form) (f : Fields) : Option (Fin 8) :=
  if !restOk r.d f.d then some 0
  else if !restOk r.a f.a then some 1
  else if !restOk r.b f.b then some 2
  else if !(r.count || restOk r.c f.c) then some 3
  else if !r.modOk f then some 4
  else if !r.iOk f then some 5
  else if !r.guard && f.pred != 0 then some 6
  else none

/-- Checks 2, 3 and 4 of one word, then the instruction. -/
def decodeFields (f : Fields) : Except DecErr Instr :=
  match form f with
  | none => .error (.opcode (emulable f.op) f.op f.fn)
  | some r =>
    if !r.classesOk f then .error (.opcode (emulable f.op) f.op f.fn)
    else if 8 < f.feat.toNat then .error (.feature ⟨f.feat.toNat, f.feat.isLt⟩)
    else
      match r.badField f with
      | some n => .error (.field n)
      | none => .ok (r.build f)

def decode (w : W96) : Except DecErr Instr := decodeFields (Fields.ofWord w)

/-- The instruction the decoder reads from a word numbered as the table numbers bits; a word that check 2 turns away is the
table's UNDEFINED_OPCODE. -/
def decodeTableWord (_nbits w : Nat) : Option Instr :=
  match decode (BitVec.ofNat 96 w) with
  | .ok i => some i
  | .error (.opcode _ op fn) => some (.undefinedOpcode op fn)
  | .error _ => none

/-! ## Encoding -/

namespace Enc

def s (r : SReg) : Byte := BitVec.ofNat 8 r.val
def v (r : VReg) : Byte := BitVec.ofNat 8 (0x40 + r.val)
def c (r : CReg) : Byte := BitVec.ofNat 8 (0x60 + r.val)
def p (r : PReg) : Byte := BitVec.ofNat 8 (0x70 + r.val)
def z (r : ZReg) : Byte := BitVec.ofNat 8 (0x78 + r.val)
def t (r : TReg) : Byte := BitVec.ofNat 8 (0x90 + r.val)
def o (r : OReg) : Byte := BitVec.ofNat 8 (0xA0 + r.val)

/-- A specifier with the I it needs, if any. -/
abbrev Opnd := Byte × Option W32

def iOf (w : Fin 8) (n : Fin 131072) : W32 := BitVec.ofNat 32 (w.val * 2 ^ 29 + n.val * 4096)
def si : SI → Opnd
  | .s r => (s r, none)
  | .i x => (0x81, some x)
def src : Src → Opnd
  | .s r => (s r, none)
  | .i x => (0x81, some x)
  | .k w n => (0x80, some (iOf w n))
def vsrc : VSrc → Opnd
  | .v r => (v r, none)
  | .s r => (s r, none)
  | .i x => (0x81, some x)
  | .k w n => (0x80, some (iOf w n))
def vsi : VSI → Opnd
  | .v r => (v r, none)
  | .s r => (s r, none)
  | .i x => (0x81, some x)
def ts : TS → Byte
  | .t r => t r
  | .s r => s r
def sp : SP → Byte
  | .s r => s r
  | .p r => p r

/-- A word with every position unused, MOD and I zero. -/
def base (op fn : Nat) (h : Hdr) : Fields :=
  { op := BitVec.ofNat 8 op, fn := BitVec.ofNat 8 fn, d := 0xFF, a := 0xFF, b := 0xFF, c := 0xFF,
    feat := BitVec.ofNat 4 h.feat.val, hint := BitVec.ofNat 4 h.hint.val, pred := BitVec.ofNat 3 h.pred.val, mod := 0, i := 0 }

end Enc

namespace Fields

def withMod (f : Fields) (m : Nat) : Fields := { f with mod := BitVec.ofNat 5 m }
def withD (f : Fields) (x : Byte) : Fields := { f with d := x }
def withA (f : Fields) (x : Byte) : Fields := { f with a := x }
def withB (f : Fields) (x : Byte) : Fields := { f with b := x }
def withC (f : Fields) (x : Byte) : Fields := { f with c := x }
def withI (f : Fields) (x : W32) : Fields := { f with i := x }
def opA (f : Fields) (x : Enc.Opnd) : Fields := { f with a := x.1, i := x.2.getD f.i }
def opB (f : Fields) (x : Enc.Opnd) : Fields := { f with b := x.1, i := x.2.getD f.i }
def opC (f : Fields) (x : Enc.Opnd) : Fields := { f with c := x.1, i := x.2.getD f.i }
def mm (f : Fields) (m : MemOp) : Fields := (f.withA (Enc.s m.base)).opB (Enc.si m.off)

end Fields

namespace Enc

def intMod (ty : IntTy) (sat : Bool) : Nat := ty.code + sat.toNat * 8
def intA (fn : Nat) (x : IntA) (op : Nat) : Fields :=
  ((((base op fn x.h).withMod (intMod x.ty x.sat)).withD (s x.d)).withA (s x.a)).opB (src x.b)
def intSh (op fn : Nat) (x : IntSh) : Fields :=
  ((((base op fn x.h).withMod (intMod x.ty x.sat)).withD (s x.d)).withA (s x.a)).opB (si x.b)
def intU (fn : Nat) (x : IntU) : Fields := (((base 0x12 fn x.h).withMod x.ty.code).withD (s x.d)).withA (s x.a)
def cmp (fn : Nat) (x : Cmp) : Fields := ((((base 0x13 fn x.h).withMod x.ty.code).withD (sp x.d)).withA (s x.a)).opB (src x.b)
def ppp (fn : Nat) (x : PPP) : Fields := (((base 0x15 fn x.h).withD (p x.d)).withA (p x.a)).withB (p x.b)
def spr (fn : Nat) (x : SPr) : Fields := ((base 0x15 fn x.h).withD (s x.d)).withA (p x.a)
def hOnly (op fn : Nat) (x : HOnly) : Fields := base op fn x.h
def dOnly (op fn : Nat) (x : DOnly) : Fields := (base op fn x.h).withD (s x.d)
def da (op fn : Nat) (x : DA) : Fields := ((base op fn x.h).withD (s x.d)).withA (s x.a)
def dsi (op fn : Nat) (x : DSI) : Fields := ((base op fn x.h).withD (s x.d)).opA (si x.a)
def aOnly (op fn : Nat) (x : AOnly) : Fields := (base op fn x.h).withA (s x.a)
def brO (op fn : Nat) (x : BrO) : Fields := (base op fn x.h).withI x.off
def abc (op fn : Nat) (x : ABC) : Fields := (((base op fn x.h).withA (s x.a)).withB (s x.b)).withC (s x.c)
def csi (fn : Nat) (x : CSI) : Fields := ((base 0x34 fn x.h).withD (c x.d)).opA (si x.a)
def cbW (fn : Nat) (x : CbW) : Fields := (((base 0x34 fn x.h).withD (s x.d)).withA (c x.a)).withC (BitVec.ofNat 8 x.n.val)
def tsi (op fn : Nat) (x : TSI) : Fields := ((base op fn x.h).withD (t x.d)).opA (si x.a)
def scTy (sc : Scope) (ty : IntTy) : Nat := sc.code * 8 + ty.code
def fltMod (rm : Rm) (sat : Bool) : Nat := rm.code + sat.toNat * 8
def vflt (fn : Nat) (x : VFlt) : Fields :=
  ((((base (0x80 + x.ft.code) fn x.h).withMod (fltMod x.rm x.sat)).withD (v x.d)).withA (v x.a)).opB (vsrc x.b)
def vfma (fn : Nat) (x : VFma) : Fields :=
  (((((base (0x80 + x.ft.code) fn x.h).withMod (fltMod x.rm x.sat)).withD (v x.d)).withA (v x.a)).opB (vsrc x.b)).withC (v x.c)
def vfmm (fn : Nat) (x : VFMM) : Fields := (((base (0x80 + x.ft.code) fn x.h).withD (v x.d)).withA (v x.a)).opB (vsrc x.b)
def vfu (fn : Nat) (x : VFU) : Fields := ((base (0x80 + x.ft.code) fn x.h).withD (v x.d)).withA (v x.a)
def vint (fn : Nat) (x : VInt) : Fields :=
  ((((base 0x88 fn x.h).withMod (intMod x.ty x.sat)).withD (v x.d)).withA (v x.a)).opB (vsrc x.b)
def vintSh (fn : Nat) (x : VIntSh) : Fields :=
  ((((base 0x88 fn x.h).withMod (intMod x.ty x.sat)).withD (v x.d)).withA (v x.a)).opB (vsi x.b)
def vcmp (n : Nat) (x : VCmp) : Fields :=
  ((((base 0x85 (if x.ty = .f32 then n else 0x10 + n) x.h).withMod x.ty.code).withD (p x.d)).withA (v x.a)).opB (vsrc x.b)
def vv (op fn : Nat) (x : VV) : Fields := ((base op fn x.h).withD (v x.d)).withA (v x.a)
def vvv (op fn : Nat) (x : VVV) : Fields := (((base op fn x.h).withD (v x.d)).withA (v x.a)).withB (v x.b)
def redMod : Red → Nat
  | .f32 rm => rm.code
  | .i32 sat => 1 + sat.toNat * 8
  | .n32 sat => 5 + sat.toNat * 8
def redFn (n : Nat) : Red → Nat
  | .f32 _ => n
  | _ => 8 + n
def vred (op n : Nat) (x : VRed) : Fields := (((base op (redFn n x.ty) x.h).withMod (redMod x.ty)).withD (s x.d)).withA (v x.a)
def atom (n : Nat) (x : Atom) : Fields :=
  ((((base 0x60 (x.ord.code * 16 + n) x.h).withMod (scTy x.scope x.ty)).withD (s x.d)).mm x.m).withC (s x.c)
def mred (n : Nat) (x : MRed) : Fields :=
  (((base 0x61 (x.rel.toNat * 32 + n) x.h).withMod (scTy x.scope x.ty)).mm x.m).withC (s x.c)
def jobMod (acq second : Bool) (sc : Scope) (b0 : Bool) : Nat := acq.toNat * 16 + second.toNat * 8 + sc.code * 2 + b0.toNat
def bar (fn : Nat) (x : BarA) : Fields := (((base 0x63 fn x.h).withMod (x.scope.code * 8)).withD (s x.d)).opA (si x.a)
def rvred (n : Nat) (x : RVRed) : Fields :=
  (((((base 0xC2 (redFn n x.ty) x.h).withMod (x.map.toNat * 16 + redMod x.ty)).withD (v x.d)).withA (v x.a)).opB (si x.b)).opC (si x.c)

end Enc

open Enc in
/-- The fields of a thread instruction's word; `none` for events and for words that are not instructions. -/
def encodeFields : Instr → Option Fields
  | .add x => some (intA 0 x 0x10) | .sub x => some (intA 1 x 0x10) | .mul x => some (intA 2 x 0x10) | .mulh x => some (intA 3 x 0x10)
  | .and x => some (intA 4 x 0x10) | .or x => some (intA 5 x 0x10) | .xor x => some (intA 6 x 0x10) | .andn x => some (intA 7 x 0x10)
  | .shl x => some (intSh 0x10 8 x) | .shr x => some (intSh 0x10 9 x) | .rotl x => some (intSh 0x10 10 x)
  | .min x => some (intA 11 x 0x10) | .max x => some (intA 12 x 0x10)
  | .div x => some (intA 0 x 0x11) | .rem x => some (intA 1 x 0x11)
  | .ext x => some (intSh 0x12 0 x)
  | .ins x => some (((((base 0x12 1 x.h).withD (s x.d)).withA (s x.a)).withB (s x.b)).opC (si x.c))
  | .clz x => some (intU 2 x) | .ctz x => some (intU 3 x) | .popc x => some (intU 4 x) | .brev x => some (intU 5 x) | .bswap x => some (intU 6 x)
  | .cmpeq x => some (cmp 0 x) | .cmpne x => some (cmp 1 x) | .cmplt x => some (cmp 2 x) | .cmple x => some (cmp 3 x)
  | .cmpgt x => some (cmp 4 x) | .cmpge x => some (cmp 5 x)
  | .sel x => some (((((base 0x14 0 x.h).withD (s x.d)).opA (src x.a)).withB (s x.b)).withC (p x.c))
  | .mov x => some ((((base 0x14 1 x.h).withMod x.ty.code).withD (s x.d)).opA (src x.a))
  | .lih x => some ((((base 0x14 2 x.h).withD (s x.d)).withA (s x.a)).opB (0x81, some x.i))
  | .lea x => some (((((base 0x18 0 x.h).withMod x.scale.val).withD (s x.d)).withA (s x.a)).opB (si x.b))
  | .nop x => some (hOnly 0x17 0 x)
  | .pand x => some (ppp 0 x) | .por x => some (ppp 1 x) | .pxor x => some (ppp 2 x) | .pandn x => some (ppp 3 x)
  | .pnot x => some (((base 0x15 4 x.h).withD (p x.d)).withA (p x.a))
  | .pset x => some (((base 0x15 5 x.h).withD (p x.d)).opA (0x81, some x.i))
  | .pread x => some (spr 6 x)
  | .pwrite x => some (((base 0x15 7 x.h).withD (p x.d)).withA (s x.a))
  | .pcnt x => some (spr 8 x)
  | .srd x => some (((base 0x16 0 x.h).withD (s x.d)).withI (BitVec.ofNat 32 x.n.val))
  | .swr x => some (((base 0x16 1 x.h).withA (s x.a)).withI (BitVec.ofNat 32 x.n.val))
  | .br x => some (brO 0x30 0 x)
  | .brz x => some (((base 0x30 1 x.h).withA (s x.r)).withI x.off)
  | .brnz x => some (((base 0x30 2 x.h).withA (s x.r)).withI x.off)
  | .brdec x => some (((base 0x30 3 x.h).withD (s x.r)).withI x.off)
  | .call x => some (brO 0x31 0 x) | .callr x => some (aOnly 0x31 1 x) | .jr x => some (aOnly 0x31 2 x) | .ret x => some (hOnly 0x31 3 x)
  | .gang x => some ((base 0x32 0 x.h).withMod x.size.code)
  | .disband x => some (hOnly 0x32 1 x)
  | .part x => some (((((base 0x32 2 x.h).withMod x.row.toNat).withD (s x.d)).opA (si x.a)).opB (si x.b))
  | .ftileset x => some (abc 0x33 0 x) | .ftile x => some (dOnly 0x33 1 x)
  | .cbset x => some (csi 0 x) | .cbwaitc x => some (cbW 1 x) | .cbwaitp x => some (cbW 2 x)
  | .cbadvc x => some (csi 3 x) | .cbadvp x => some (csi 4 x)
  | .ld x => some ((((base 0x40 x.acq.toNat x.h).withMod (scTy x.scope x.ty)).withD (s x.d)).mm x.m)
  | .st x => some ((((base 0x40 (2 + x.rel.toNat) x.h).withMod (scTy x.scope x.ty)).mm x.m).withC (s x.c))
  | .vld x => some ((((base 0x42 x.x.code x.h).withMod (x.scope.code * 8)).withD (v x.d)).mm x.m)
  | .vst x => some ((((base 0x42 (16 + x.sat.toNat * 16 + x.x.code) x.h).withMod (x.scope.code * 8 + x.rm.code)).mm x.m).withC (v x.c))
  | .ldv x => some (((((base 0x41 (x.acq.toNat + x.track.toNat * 2) x.h).withMod (scTy x.scope x.ty)).withD (s x.d)).mm x.m).withC (s x.c))
  | .stcv x => some (((((base 0x41 (4 + x.rel.toNat) x.h).withMod (scTy x.scope x.ty)).withD (s x.d)).mm x.m).withC (s x.c))
  | .valchk x => some (dOnly 0x41 6 x) | .valclr x => some (hOnly 0x41 7 x)
  | .pref x => some (((base 0x43 0 x.h).withMod x.level.code).mm x.m)
  | .tfill x => some (tsi 0x44 0 x)
  | .trel x => some ((base 0x44 1 x.h).withD (t x.d))
  | .tdef x => some (((base 0x44 2 x.h).withD (t x.d)).withA (s x.a))
  | .tstat x => some (((base 0x44 3 x.h).withD (s x.d)).withA (t x.a))
  | .cpy x => some ((((((base 0x45 0 x.h).withMod (jobMod x.acq x.rel x.scope x.fill)).withD (s x.d)).withA (ts x.a)).withB (ts x.b)).opC (si x.c))
  | .cjob x => some ((((base 0x45 1 x.h).withMod (jobMod x.acq x.rel x.scope false)).withD (s x.d)).withA (s x.a))
  | .cpoll x => some (da 0x45 2 x) | .cwait x => some (da 0x45 3 x)
  | .rset x => some (abc 0x46 0 x)
  | .unpin x => some ((base 0x46 1 x.h).opA (si x.a))
  | .rrd x => some ((((base 0x46 2 x.h).withMod x.word.val).withD (s x.d)).opA (si x.a))
  | .frarm x => some (tsi 0x47 0 x)
  | .vflgrd x => some (dOnly 0x8E 0 x) | .vflgclr x => some (dOnly 0x8E 1 x)
  | .vadd x => some (vflt 0 x) | .vsub x => some (vflt 1 x) | .vmul x => some (vflt 2 x)
  | .vfma x => some (vfma 3 x) | .vfnma x => some (vfma 4 x)
  | .vmin x => some (vfmm 5 x) | .vmax x => some (vfmm 6 x) | .vabs x => some (vfu 7 x) | .vneg x => some (vfu 8 x)
  | .vaddInt x => some (vint 0 x) | .vsubInt x => some (vint 1 x) | .vmulInt x => some (vint 2 x) | .vmulh x => some (vint 3 x)
  | .vand x => some (vint 4 x) | .vor x => some (vint 5 x) | .vxor x => some (vint 6 x) | .vandn x => some (vint 7 x)
  | .vshl x => some (vintSh 8 x) | .vshr x => some (vintSh 9 x) | .vrotl x => some (vintSh 10 x)
  | .vminInt x => some (vint 11 x) | .vmaxInt x => some (vint 12 x)
  | .vcmpeq x => some (vcmp 0 x) | .vcmpne x => some (vcmp 1 x) | .vcmplt x => some (vcmp 2 x) | .vcmple x => some (vcmp 3 x)
  | .vcmpgt x => some (vcmp 4 x) | .vcmpge x => some (vcmp 5 x) | .vcmpun x => some (vcmp 6 x)
  | .vcvt x => some ((((base 0x86 (x.sat.toNat * 128 + x.src.code * 16 + x.dst.code) x.h).withMod (x.part.val * 8 + x.rm.code)).withD (v x.d)).withA (v x.a))
  | .vmov x => some (vv 0x87 0 x) | .vperm x => some (vvv 0x87 1 x)
  | .vsel x => some (((((base 0x87 2 x.h).withD (v x.d)).withA (v x.a)).opB (vsrc x.b)).withC (p x.c))
  | .vbcast x => some (((base 0x87 3 x.h).withD (v x.d)).opA (src x.a))
  | .vslide x => some (((((base 0x87 4 x.h).withD (v x.d)).withA (v x.a)).withB (v x.b)).opC (si x.c))
  | .vgetl x => some ((((base 0x87 5 x.h).withD (s x.d)).withA (v x.a)).opB (si x.b))
  | .vsetl x => some ((((base 0x87 6 x.h).withD (v x.d)).opA (src x.a)).opB (si x.b))
  | .vrsum x => some (vred 0x8A 0 x) | .vrmax x => some (vred 0x8A 1 x) | .vrmin x => some (vred 0x8A 2 x)
  | .vrcp x => some (vv 0x8B 0 x) | .vrsqrt x => some (vv 0x8B 1 x)
  | .vsqrt x => some ((((base 0x8B 2 x.h).withMod x.rm.code).withD (v x.d)).withA (v x.a))
  | .vdiv x => some (((((base 0x8B 3 x.h).withMod x.rm.code).withD (v x.d)).withA (v x.a)).opB (vsrc x.b))
  | .vexp2 x => some (vv 0x8B 4 x) | .vlog2 x => some (vv 0x8B 5 x) | .vsinpi x => some (vv 0x8B 6 x)
  | .vcospi x => some (vv 0x8B 7 x) | .vtanh x => some (vv 0x8B 8 x)
  | .ctload x => some ((base 0x8C 0 x.h).mm x.m)
  | .vctdec x => some ((((base 0x8C (1 + x.f32.toNat) x.h).withMod x.part.val).withD (v x.d)).withA (v x.a))
  | .vctenc x => some ((((base 0x8C 3 x.h).withMod x.part.val).withD (v x.d)).withA (v x.a))
  | .vgsum x => some (vred 0x8D 0 x) | .vgmax x => some (vred 0x8D 1 x) | .vgmin x => some (vred 0x8D 2 x)
  | .vgperm x => some (vvv 0x8D 0x10 x)
  | .vgbcast x => some ((((base 0x8D 0x11 x.h).withD (v x.d)).withA (v x.a)).opB (si x.b))
  | .oclaim x => some ((((base 0xB0 0 x.h).withD (s x.d)).withA (o x.a)).opB (si x.b))
  | .orelease x => some (((base 0xB0 1 x.h).withA (o x.a)).opB (si x.b))
  | .zclaim x => some ((((base 0xB0 2 x.h).withD (s x.d)).withA (z x.a)).opB (si x.b))
  | .zrelease x => some (((base 0xB0 3 x.h).withA (z x.a)).opB (si x.b))
  | .oload x => some ((((((base 0xB1 0 x.h).withMod (jobMod x.acq false x.scope false)).withD (s x.d)).withA (o x.a)).withB (ts x.b)).withC (s x.c))
  | .mma x => some ((((((base 0xB2 (x.m32.toNat * 16 + x.fmt.code) x.h).withMod (x.chk.toNat * 16 + x.q.val)).withD (s x.d)).withA (z x.a)).withB (o x.b)).withC (o x.c))
  | .zclear x => some ((((base 0xB3 0 x.h).withMod x.int.toNat).withD (s x.d)).withA (z x.a))
  | .zstore x => some ((((((base 0xB3 1 x.h).withMod (jobMod x.rel x.fill x.scope false)).withD (s x.d)).withA (ts x.a)).withB (z x.b)).withC (s x.c))
  | .zload x => some ((((((base 0xB3 2 x.h).withMod (jobMod x.acq false x.scope false)).withD (s x.d)).withA (z x.a)).withB (ts x.b)).withC (s x.c))
  | .mcheck x => some ((((base 0xB4 0 x.h).withMod x.notrap.toNat).withD (s x.d)).withA (z x.a))
  | .mpoll x => some (da 0xB5 0 x) | .mwait x => some (da 0xB5 1 x) | .mstat x => some (dOnly 0xB5 2 x)
  | .rbind x => some ((((((base 0xC0 0 x.h).withMod (jobMod x.map false x.scope false)).withD (s x.d)).withA (s x.a)).opB (si x.b)).opC (si x.c))
  | .rrow x => some ((((base 0xC0 1 x.h).withMod (x.map.toNat * 16 + x.fin.toNat)).withD (s x.d)).opA (si x.a))
  | .rvseg x => some ((((base 0xC0 2 x.h).withMod (x.map.toNat * 16)).withD (v x.d)).opA (si x.a))
  | .rpseg x => some ((((base 0xC0 3 x.h).withMod (x.map.toNat * 16)).withD (p x.d)).opA (si x.a))
  | .rvld x => some ((((((base 0xC1 0 x.h).withMod (jobMod x.map x.strict x.scope false)).withD (v x.d)).withA (s x.a)).withB (s x.b)).opC (si x.c))
  | .rvsum x => some (rvred 0 x) | .rvmax x => some (rvred 1 x) | .rvmin x => some (rvred 2 x)
  | .rvnorm x => some (((((base 0xC3 0 x.h).withMod (x.map.toNat * 16 + x.strict.toNat * 8 + x.rm.code)).withD (v x.d)).withA (v x.a)).opB (si x.b))
  | .rmma x => some ((((((base 0xC4 (x.alongK.toNat * 32 + x.m32.toNat * 16 + x.fmt.code) x.h).withMod (x.chk.toNat * 16 + x.q.val)).withD (s x.d)).withA (z x.a)).withB (o x.b)).withC (o x.c))
  | .aadd x => some (atom 0 x) | .aand x => some (atom 1 x) | .aor x => some (atom 2 x) | .axor x => some (atom 3 x)
  | .amin x => some (atom 4 x) | .amax x => some (atom 5 x) | .aswap x => some (atom 6 x) | .acas x => some (atom 7 x)
  | .afadd x => some (((((base 0x60 (x.ord.code * 16 + 8) x.h).withMod (x.scope.code * 8)).withD (s x.d)).mm x.m).withC (s x.c))
  | .mradd x => some (mred 0 x) | .mrand x => some (mred 1 x) | .mror x => some (mred 2 x) | .mrxor x => some (mred 3 x)
  | .mrmin x => some (mred 4 x) | .mrmax x => some (mred 5 x)
  | .mrfadd x => some ((((base 0x61 (x.rel.toNat * 32 + 6) x.h).withMod (x.scope.code * 8)).mm x.m).withC (s x.c))
  | .casv x => some ((((((base 0x66 x.ord.code x.h).withMod (scTy x.scope x.ty)).withD (s x.d)).withA (s x.a)).withB (s x.b)).withC (s x.c))
  | .waitv x => some ((((((base 0x66 4 x.h).withMod (x.scope.code * 8)).withD (s x.d)).withA (s x.a)).withB (s x.b)).opC (si x.c))
  | .fence x => some ((base 0x62 (match x.kind with | .acq => 0 | .rel => 1 | .full => 2) x.h).withMod (x.scope.code * 8))
  | .barsync x => some (bar 0 x) | .bararv x => some (bar 1 x)
  | .barwait x => some (((((base 0x63 2 x.h).withMod (x.scope.code * 8)).withD (s x.d)).opA (si x.a)).opB (si x.b))
  | .phadv x => some (dOnly 0x64 0 x) | .phwait x => some (dsi 0x64 1 x)
  | .ibsend x => some (((((base 0x65 0 x.h).withMod (x.scope.code * 8)).withD (s x.d)).withA (s x.a)).opB (si x.b))
  | .ibrecv x => some (((base 0x65 1 x.h).withMod (x.scope.code * 8)).withD (s x.d))
  | .ibpoll x => some (dOnly 0x65 2 x)
  | .dlaunch x => some (da 0x67 0 x)
  | .dsignal x => some ((((base 0x67 1 x.h).withMod x.irq.toNat).withA (s x.a)).withB (s x.b))
  | .msgsend x => some ((((base 0x70 x.ack.toNat x.h).withD (s x.d)).withA (ts x.a)).withB (s x.b))
  | .msgpost x => some ((((base 0x71 0 x.h).withD (s x.d)).withA (s x.a)).withB (s x.b))
  | .msgtest x => some (da 0x72 0 x) | .msgwait x => some (da 0x72 1 x) | .msgcancel x => some (da 0x73 0 x)
  | .rand x => some (dOnly 0x78 0 x)
  | .vrand x => some ((base 0x78 (1 + x.f32.toNat) x.h).withD (v x.d))
  | .rtell x => some (dOnly 0x78 3 x) | .rseek x => some (dsi 0x78 4 x)
  | .smpl x => some ((((base 0x7C 0 x.h).withD (s x.d)).withA (t x.a)).withB (s x.b))
  | .tokexec x => some ((((base 0x7C 1 x.h).withD (s x.d)).withA (s x.a)).withB (s x.b))
  | .exit x => some (hOnly 0x01 0 x) | .rgn x => some (hOnly 0x01 1 x) | .tctx x => some (dOnly 0x02 0 x)
  | .xrd x => some (dsi 0x03 0 x)
  | .xwr x => some (((base 0x03 1 x.h).opA (si x.a)).withB (s x.b))
  | .tresume x => some ((base 0x04 0 x.h).withMod x.next.toNat)
  | .tkill x => some (hOnly 0x04 1 x) | .tret x => some (hOnly 0x04 2 x)
  | .spillgo x => some (dOnly 0x05 0 x) | .spstat x => some (dOnly 0x05 1 x)
  | .xlinv x => some (match x.a with | none => (base 0x06 0 x.h).withMod 1 | some r => (base 0x06 0 x.h).withA (s r))
  | .ldpi x => some (((((base 0xD0 0 x.h).withMod x.ty.code).withD (s x.d)).withA (s x.a)).opB (0x81, some x.i))
  | .stpi x => some (((((base 0xD0 1 x.h).withMod x.ty.code).withD (s x.d)).opB (0x81, some x.i)).withC (s x.c))
  | .vldpi x => some (((base 0xD1 0 x.h).withD (v x.d)).withA (s x.a))
  | .vdot x => some (((((base 0xD2 0 x.h).withMod x.rm.code).withD (s x.d)).withA (v x.a)).withB (v x.b))
  | _ => none

/-- The 96-bit word of a thread instruction. -/
def encode (i : Instr) : Option W96 := (encodeFields i).map Fields.word

end Sys2Proof
end

