-- ==== Sys2Proof/Config.lean ====
section
/-! DEFINITION. What one implementation fixes and the spec leaves open. Every constant here is opaque: no proof sees a value. The
free values are applied to `State.free`, a counter that the step advances. -/

namespace Sys2Proof.Config

/-- A free bit: old or new value of a cached translation, of a constant word or of a fetch line under rewrite (08 R151, 01 R20, 04 R74). -/
opaque freeBit : Nat → Bool
/-- The approximate special functions (11 R225): function number, input bits, a value that the model uses only where it lies
inside the spec's bound. -/
opaque approx : Nat → W32 → W32
/-- Serial number and certificate chain of the device, the fused secret of its identity key, and the numbers that its signatures draw (24
R392). -/
opaque serial : BitVec 128
opaque certificate : List (BitVec 8)
opaque identitySecret : Nat
opaque signNonce : Nat → Nat
/-- Interface identifier of the side-band port's IPv6 link-local address (24 R394). -/
opaque linkId : BitVec 64
/-- Aladun's public key in the boot ROM (24 R390). -/
opaque romKeyX : Nat
opaque romKeyY : Nat
/-- Fixed latency correction of a front port's receive timestamp in nanoseconds (10 R209). -/
opaque stampNs : Nat → Nat

end Sys2Proof.Config
end

