-- ==== Sys2Proof/Machine/State.lean ====
section
/-! DEFINITION. The state of a W9-640 package: every register, table, buffer, queue and record the spec gives it, as plain data, and
`State.reset`. Faults and refusals of the model. -/

namespace Sys2Proof.Machine

/-- A table: entries by number, in rising order; an entry that is not listed holds the table's default. -/
abbrev Tab (α : Type) := List (Nat × α)

/-! ## Threads -/

/-- Circular-buffer handle (06 R119). -/
structure Cb where
  valid : Bool
  q : Nat
  p : Nat
  lenm1 : Nat
  first : Nat
  deriving DecidableEq, Repr

def Cb.reset : Cb := ⟨false, 0, 0, 0, 0⟩

/-- The register files. -/
inductive RegFile where
  | s | v | p | c
  deriving DecidableEq, Repr

/-- The register files of a thread (00 R1). Entries of s, v, p and c by register number; unlisted registers hold 0. `bad` lists the
poisoned 8-byte words: file, register, word within the register (22 R379). -/
structure Regs where
  s : Tab W64
  v : Tab VWord
  p : Tab W32
  c : Tab Cb
  bad : List (RegFile × Nat × Nat)
  deriving DecidableEq, Repr

def Regs.reset : Regs := ⟨[], [], [], [], []⟩

/-- `MODE` (04 R87). -/
structure Mode where
  repro : Bool
  fp8ns : Bool
  arith : Bool
  fmtovr : Bool
  rngrep : Bool
  deriving DecidableEq, Repr

def Mode.reset : Mode := ⟨false, false, false, false, false⟩

/-- What a segment map holds for one local row (14 R260). -/
structure SegRow where
  seg : Nat
  start : Nat
  fin : Nat
  deriving DecidableEq, Repr

/-- A segment map (14 R260): the rows list has NROW entries; FIRST and LAST follow from START and END. -/
structure SegMap where
  valid : Bool
  gen : W32
  rpa : Nat
  origin : Nat
  rows : List SegRow
  deriving DecidableEq, Repr

def SegMap.reset : SegMap := ⟨false, 0, 0, 0, []⟩

/-- Validation set (10 R194): physical lines with versions in the order added, and OVF. -/
structure ValSet where
  entries : List (Nat × W32)
  ovf : Bool
  deriving DecidableEq, Repr

def ValSet.reset : ValSet := ⟨[], false⟩

/-- Flow-signature state (22 R380). -/
structure Sig where
  h : W64
  n : Nat
  valid : Bool
  deriving DecidableEq, Repr

def Sig.reset : Sig := ⟨0, 0, false⟩

/-- Idempotent region and its log (22 R378): the start values the log keeps, the registers written since, and restarts so far.
`inside` is false for an instruction that lies in no region. -/
structure Region where
  pc : W64
  esn : W32
  ctr : Nat
  sticky : BitVec 4
  mode : Mode
  valset : ValSet
  sm0 : SegMap
  sm1 : SegMap
  regs : Regs
  ws : List Nat
  wv : List Nat
  wp : List Nat
  wc : List Nat
  restarts : Nat
  inside : Bool
  deriving DecidableEq, Repr

def Region.reset : Region :=
  ⟨0, 1, 0, 0, .reset, .reset, .reset, .reset, .reset, [], [], [], [], 0, false⟩

/-! ## Places -/

/-- A page as an access meets it. -/
structure Pg where
  va : Nat
  size : Nat
  pa : Nat
  leaf : W64
  deriving DecidableEq, Repr
/-- Where the bytes of an access lie. -/
inductive Place where
  /-- A scratchpad: core, offset of the first byte. -/
  | sp (core off : Nat)
  /-- The capability list. -/
  | cap (off : Nat)
  /-- Pages, in increasing address order. -/
  | mem (pgs : List Pg)
  deriving DecidableEq, Repr

/-- Status of a message handle (18 R334), with what the trap of `msgwait` reports. -/
structure MsgStatus where
  code : Nat
  len : Nat
  frags : Nat
  rebuilt : Nat
  addr : W64
  deriving DecidableEq, Repr

/-- A message handle of a thread (18 R331): the identifier its submission wrote, SEQ, kind (receive or send) and status. -/
structure Handle where
  ident : W64
  seq : W32
  recv : Bool
  st : MsgStatus
  /-- The cycle of the last change from outside: a wait for its end ends in a later one (06 R108). -/
  doneAt : Nat
  deriving DecidableEq, Repr

/-- A live job of a thread (10 R199, 13 R240): SEQ and, when it has completed, its status word. -/
structure LiveJob where
  /-- The identifier that its submission wrote (10 R199). -/
  ident : W64
  seq : W32
  id : Nat
  done : Option W64
  /-- The cycle of its completion: a wait for it ends in a later one (06 R108). -/
  doneAt : Nat
  /-- `mcheck.trap` (13 R254). -/
  traps : Bool
  deriving DecidableEq, Repr

/-- Everything a completed access or request writes into its thread. -/
structure Result where
  s : List (SReg × W64)
  v : List (VReg × VWord)
  p : List (PReg × W32)
  sticky : BitVec 4
  ctab : Option (W64 × W64)
  map : Option (Bool × SegMap)
  track : Option (Nat × W32)
  acq : Option Scope
  /-- The completion of a tagged effect: ESN advances (16 R300). -/
  tagged : Bool
  /-- The sub-tile of the work queue that the reply brings: the thread owns it already (07 R140). -/
  owned : Option W64
  deriving DecidableEq, Repr

def Result.none : Result := ⟨[], [], [], 0, .none, .none, .none, .none, false, .none⟩

/-- Operation of a fetch-and-op atomic or a memory-side reduction (16 R303, R306). -/
inductive AOp where
  | add | and | or | xor | min | max | swap | cas | fadd
  deriving DecidableEq, Repr

/-- An indivisible operation at a point of coherence that a thread waits for (15 R277 move 7). -/
inductive CohKind where
  | ldv (track : Bool) (c : SReg)
  | stcv (expect : W32) (v : W64)
  | atomic (op : AOp) (cmp : W64) (v : W64)
  | casv (expect : W32) (old v : W64)
  /-- `dsignal` (16 R319): the value, and whether an interrupt follows. -/
  | signal (v : W64) (irq : Bool)
  deriving DecidableEq, Repr

structure CohOp where
  kind : CohKind
  ty : IntTy
  va : W64
  pa : Nat
  mside : Bool
  d : SReg
  acq : Option Scope
  /-- The evict-first hint (04 R81). -/
  evict : Bool
  deriving DecidableEq, Repr

/-- One attempt of `rbind` or of a tensor job at a snapshot (14 R263). -/
structure Snap where
  /-- Lines read, with the versions they had. -/
  lines : List (Nat × W32)
  header : List Byte
  bounds : List Nat
  /-- Virtual and physical address of the record. -/
  va : Nat
  rpa : Nat
  attempt : Nat
  deriving DecidableEq, Repr

/-- The stage in which an issued instruction waits (06 R108). -/
inductive Stage where
  /-- A reply on its way: LOAD_DATA_ARRIVAL delivers it. -/
  | data (r : Result)
  /-- An operation at a point of coherence, after release entry `rel` has drained. -/
  | coh (op : CohOp) (rel : Option Nat)
  /-- `fence.full`: release entry `rel` has to reach its level. -/
  | fence (rel : Nat) (scope : Scope)
  /-- `barsync`, `bararv`: release entry, then the arrival. -/
  | barRel (rel : Nat) (sync : Bool) (scope : Scope) (ctl : W64) (d : SReg)
  /-- `barsync`: waits until GEN differs. -/
  | barWait (bar : Nat) (gen : W32) (scope : Scope) (d : SReg)
  | phRel (rel : Nat) (d : SReg)
  | phWait (phase : W32) (d : SReg)
  | ibRel (rel : Nat) (scope : Scope) (dest : W64) (v : W64) (d : SReg)
  | dlRel (rel : Nat) (addr : W64) (d : SReg)
  /-- The packet has been read and the queue was full. -/
  | dlFull (words : VWord) (d : SReg)
  | dlWait (d : SReg)
  | waitv (since : Nat) (va : W64) (pa : Nat) (mside : Bool) (v : W32) (scope : Scope) (limit : Nat) (d : SReg)
  | rbind (snap : Snap) (va : W64) (map : Bool) (scope : Scope) (origin count : W64) (d : SReg)
  /-- `cjob`: 0 the descriptor has not arrived yet, 1 it has and its checks are made, 2 the submission waits. -/
  | cjob (desc : List Byte) (step : Nat) (x : CjobA) (row : Option Snap)
  /-- The number of the request. -/
  | sampler (id : Nat)
  | xlinv
  /-- A W7 expansion (22 R370): turns left up to and with its final step, whether its load is still on its way, what the final step writes
  to registers, and the store it makes, with its evict-first hint (04 R81). -/
  | steps (left : Nat) (far : Bool) (r : Result) (st : Option (Place × W64 × List Byte × Bool))
  /-- The second instruction of a pair, whose load meets the store that the first has just made (15 R278). -/
  | second
  | gang (n : Nat)
  deriving DecidableEq, Repr

/-- An issued instruction that waits: the PC it issued at, the PC after its bundle, and the thread's registers and flags as they
stood before the bundle (22 R372: on resume it issues again in full). -/
structure Pend where
  ipc : W64
  npc : W64
  regs : Regs
  sticky : BitVec 4
  mode : Mode
  /-- Words of the instruction and of the other one of its bundle. -/
  word : W96
  other : W96
  stage : Stage
  deriving DecidableEq, Repr

/-- A bundle that a gang leader has issued and its follower issues one rotation later (06 R113). -/
structure FollowBundle where
  ipc : W64
  ipc2 : W64
  i1 : Instr
  i2 : Option Instr
  w1 : W96
  w2 : W96
  link : W64
  npc : W64
  /-- The leader's transfer was taken. -/
  taken : Bool
  cycle : Nat
  deriving DecidableEq, Repr

/-- Gang membership (06 R112): size, index, bundles issued (22 R372), the bundles to follow, oldest first, and operands captured for
a gang-wide form (11 R229): A and B with the guard. -/
structure Gang where
  size : Nat
  idx : Nat
  gcnt : Nat
  queue : List FollowBundle
  cap : Option (VWord × VWord × W64 × W32)
  /-- What every member had captured for the last form that was combined, in GANGIDX order, and whether the member issues its bundle again after a
  pre-emption, the combination being done (22 R372). -/
  prev : List (VWord × VWord × W64 × W32)
  redo : Bool
  /-- The gang has disbanded; the member still has one bundle of it to issue. -/
  leaving : Bool
  /-- The bundle that a follower issued last (22 R372). -/
  last : Option FollowBundle
  deriving DecidableEq, Repr

/-- Where a slot stands: no thread, running, parked on a trap (22 R361), or ended. -/
inductive TStatus where
  | empty | running | parked | ended
  deriving DecidableEq, Repr

/-- How a thread comes to its next bundle: by falling through or by a checked transfer, by a resume (22 R368), at a vector (22 R362),
by a region restart (22 R378), or to issue again what it waited in when its task was pre-empted (22 R372). -/
inductive Arrive where
  | plain | resume | vector | restart | again
  deriving DecidableEq, Repr

/-- A thread: the context of one barrel slot. -/
structure Thread where
  regs : Regs
  pc : W64
  status : TStatus
  mode : Mode
  timehi : BitVec 16
  sticky : BitVec 4
  ctr : Nat
  esn : W32
  valset : ValSet
  sm0 : SegMap
  sm1 : SegMap
  copySeq : W32
  mtxSeq : W32
  msgSeq : W32
  jobs : List LiveJob
  mjobs : List LiveJob
  handles : List Handle
  sig : Sig
  region : Region
  /-- The fetch line the thread has entered: its number and the image it uses (04 R67, R74); the line refetched for a parity
  mismatch; the line whose prefetches were last requested (04 R72). -/
  line : Option (Nat × BitVec 512)
  refetch : Option Nat
  pref : Option Nat
  /-- A conflict of the launch that the thread has still to trap on: TRAPADDR, TRAPINFO (15 R294). -/
  confl : Option (W64 × W64)
  /-- Turns still to pass for a long instruction or an expansion (06 R111, 22 R370). -/
  skip : Nat
  pend : Option Pend
  gang : Option Gang
  arrive : Arrive
  /-- Posted writes numbered below this are performed before the thread's next load (15 R282). -/
  settle : Nat
  /-- The signature table read for the bundle at a PC: its bytes, and whether they have arrived (22 R380). -/
  sigRead : Option (W64 × List Byte × Bool)
  /-- A sub-tile handed to the thread's `ftile`, which was stopped before the answer came (07 R140, 22 R372). -/
  tileDue : Option W64
  /-- The thread passes its turns until RIDGE has passed a phase (03 R60): at `phwait`, or before a global access (15 R293). -/
  ridgeWait : Bool
  /-- The cycle in which the thread's last wait ended: it issues in a later one (06 R108). -/
  wake : Option Nat
  /-- The thread parks as this cycle ends (21 R359): PC, cause, TRAPADDR, TRAPINFO. -/
  parkDue : Option (W64 × Byte × W64 × W64)
  deriving DecidableEq, Repr

def Thread.reset : Thread :=
  { regs := .reset, pc := 0, status := .empty, mode := .reset, timehi := 0, sticky := 0, ctr := 0, esn := 1,
    valset := .reset, sm0 := .reset, sm1 := .reset, copySeq := 0, mtxSeq := 0, msgSeq := 0, jobs := [], mjobs := [], handles := [],
    sig := .reset, region := .reset, line := none, refetch := none, pref := none, confl := none, skip := 0, pend := none, gang := none, arrive := .plain, settle := 0, sigRead := none, tileDue := none, ridgeWait := false, wake := none, parkDue := none }

/-! ## Cores -/

inductive TileSt where
  | empty | filling | ready | draining
  deriving DecidableEq, Repr

/-- Tile-table entry (08 R158); SIZE 0 is an unused entry. -/
structure Tile where
  base : Nat
  size : Nat
  st : TileSt
  expect : Nat
  arrived : Nat
  deriving DecidableEq, Repr

def Tile.reset : Tile := ⟨0, 0, .empty, 0, 0⟩

/-- Trap record (22 R361), with the cycle in which it was appended, the partition and the task it concerns and, for `xrd` 0xF0 to 0xFA, the
words of the trapping bundle as the core fetched them. -/
structure TrapRec where
  cause : Byte
  pc : W64
  addr : W64
  info : W64
  slot : Nat
  ganged : Bool
  cycle : Nat
  part : Nat
  task : Option TaskId
  word : W96
  other : W96
  deriving DecidableEq, Repr

/-- One byte that a buffered write carries: the physical address (the offset, for a scratchpad), the virtual address, the byte, and
whether it carries poison (22 R379). -/
structure WCell where
  pa : Nat
  va : Nat
  b : Byte
  bad : Bool
  deriving DecidableEq, Repr

/-- An entry of a store buffer or a block buffer (15 R276). -/
structure Entry where
  id : Nat
  /-- Issuing slot of a thread's entry, with its core. -/
  thread : Option ThreadId
  /-- The job of an engine's entry. -/
  job : Option Nat
  /-- The core whose scratchpad is the destination; `none` for a global destination. -/
  dest : Option Nat
  cells : List WCell
  scope : Scope
  /-- A release entry (15 R281). -/
  rel : Bool
  captured : List Nat
  /-- A memory-side reduction: operation and type (16 R306). -/
  red : Option (AOp × IntTy × W64)
  /-- The tag of a reduction: partition, launch, G, ESN (16 R300). -/
  tag : Option ((Nat × Nat × Nat) × W32)
  /-- SEQ of the thread's fabric sends that a SYSTEM release waits for (15 R284). -/
  sends : List W32
  mside : Bool
  /-- The evict-first hint of the store or job (04 R81). -/
  evict : Bool
  /-- Threads, and jobs, that have read from the entry (15 R279, R281, R286). -/
  readers : List ThreadId
  jreaders : List Nat
  /-- The partition and, in reproducible mode, the shingle the write belongs to: task and phase (15 R292). -/
  part : Nat
  shingle : Option (TaskId × W32)
  deriving DecidableEq, Repr

/-- An L1 copy (15 R276): the physical line, the shingle whose bytes it shows (15 R292), the bytes. -/
structure L1Copy where
  line : Nat
  sh : Option (TaskId × W32)
  data : VWord
  deriving DecidableEq, Repr

/-- A byte that an engine has written to a scratchpad in the present cycle: loads take it from the next cycle on (15 R286, 20 R355). With
`firm`, a store that drains in the same cycle does not replace it (20 R356). -/
structure LateByte where
  off : Nat
  b : Byte
  firm : Bool
  bad : Bool
  deriving DecidableEq, Repr

/-- Identity of a landing-slot arm and landing state (10 R210). -/
structure Landing where
  arms : List Nat
  seq : W32
  deriving DecidableEq, Repr

/-- Snapshot in the shape cache (14 R264). -/
structure ShapeEntry where
  rpa : Nat
  version : W32
  header : List Byte
  bounds : List Nat
  deriving DecidableEq, Repr

/-- Spill status of a core (22 R375). -/
structure Spill where
  state : Nat
  cause : Byte
  frame : Nat
  offset : Nat
  /-- The task whose image the core is writing or reading. -/
  task : Option TaskId
  /-- SAVEBASE, NFRAME and FRAMEMB as the core last read them (22 R362). -/
  savebase : W64
  nframe : Nat
  framemb : Nat
  deriving DecidableEq, Repr

def Spill.reset : Spill := ⟨0, 0, 0, 0, none, 0, 0, 0⟩

structure Core where
  threads : Tab Thread
  task : Option TaskId
  /-- Index within the block. -/
  bidx : Nat
  /-- Scratchpad split in 64 KiB units (08 R145), and the partition of the core's previous task. -/
  sp : Nat
  lastPart : Option Nat
  /-- Scratchpad bytes by offset; an unlisted byte holds 0. -/
  sram : List Host.Cell
  tiles : Tab Tile
  /-- Tile states at the start of the cycle (07 R143). -/
  tiles0 : Tab Tile
  /-- Entries that a `tdef` of this cycle has written (08 R161). -/
  tdefs : List Nat
  /-- Engine writes of this cycle, oldest first. -/
  late : List LateByte
  ctab : W64
  ctabhi : W64
  /-- A code table that arrived in this cycle, and the values that `swr` gave CTAB and CTABHI in this cycle (11 R227). -/
  ctabNew : Option (W64 × W64)
  ctabW : Option W64 × Option W64
  sb : List Entry
  /-- Entries that left the store buffer in this cycle: a wait for one ends in a later cycle (06 R108). -/
  gone : List Nat
  /-- Jobs whose completion a slot of the core has observed (15 R287). -/
  observed : List Nat
  l1 : List L1Copy
  /-- Fetched lines by virtual line number, oldest first: the image and the cycle of its fill (04 R71). -/
  l0 : List (Nat × BitVec 512 × Nat)
  /-- Cached constant lines: window, line within the window, 64 bytes (04 R79). -/
  cc : List (Nat × Nat × BitVec 512)
  shape : List ShapeEntry
  queue : List TrapRec
  bank0 : Option TrapRec
  bank1 : Option TrapRec
  spill : Spill
  crashes : W32
  /-- Inbox (16 R315): cycle of arrival and value, oldest first. -/
  inbox : List (Nat × W64)
  land : Tab Landing
  /-- Cycle at which the core left reset. -/
  cycle0 : Nat
  deriving DecidableEq, Repr

def Core.reset : Core :=
  { threads := [], task := none, bidx := 0, sp := 4, lastPart := none, sram := [], tiles := [], tiles0 := [], tdefs := [],
    late := [], ctab := 0, ctabhi := 0, ctabNew := none, ctabW := (none, none), sb := [], gone := [], observed := [], l1 := [], l0 := [], cc := [], shape := [], queue := [], bank0 := none,
    bank1 := none, spill := .reset, crashes := 0, inbox := [], land := [], cycle0 := 0 }

/-! ## Clusters -/

/-- A cached translation (08 R151): partition, first virtual byte, bytes, the leaf entry. -/
structure TlbEntry where
  part : Nat
  base : Nat
  size : Nat
  leaf : W64
  deriving DecidableEq, Repr

/-- A fetch-merge entry (04 R73): physical line address, the kind of its page, and requesters (core, virtual line number). -/
structure FetchEntry where
  pa : Nat
  mside : Bool
  reqs : List (Nat × Nat)
  deriving DecidableEq, Repr

/-- State a job has reached. -/
inductive JobSt where
  /-- Queued. -/
  | queued
  /-- Started; rows below `next` are done. -/
  | running (next : Nat)
  /-- All rows done or stopped: waits for its release entry. -/
  | finishing (rel : Nat)
  | done
  deriving DecidableEq, Repr

/-- Where a job's side lies: a tile of the submitting core, or a virtual address. -/
inductive Side where
  | tile (t : Nat)
  | addr (va : W64)
  deriving DecidableEq, Repr

/-- Who submitted a job. -/
structure Owner where
  thread : ThreadId
  task : TaskId
  part : Nat
  super : Bool
  seq : W32
  mode : Mode
  /-- Shingle of the task in reproducible mode. -/
  shingle : Option (TaskId × W32)
  deriving DecidableEq, Repr

/-- A copy-unit job (10 R202). -/
structure CopyJob where
  id : Nat
  owner : Owner
  kind : Nat
  scope : Scope
  acq : Bool
  rel : Bool
  fill : Bool
  evictFirst : Bool
  src : Side
  dst : Side
  rows : Nat
  len : Nat
  sstride : W64
  dstride : W64
  idx : W64
  rxmask : Nat
  /-- Destination offset in the tile, source offset in the tile. -/
  dstOff : Nat
  srcOff : Nat
  /-- KIND 5: element type and decode flag, first row. -/
  elem : Nat
  dec : Bool
  row0 : Nat
  dim0 : Nat
  base : W64
  /-- Store-buffer entries of the thread that drain first (15 R286). -/
  before : List Nat
  st : JobSt
  claimed : Bool
  /-- A claim of the receivers falls in this cycle (10 R206): it is made as the cycle ends, after the slots' own fills (08 R161). -/
  claiming : Bool
  posted : Bool
  excess : Bool
  doneBytes : Nat
  code : Nat
  cause : Nat
  rxfail : Nat
  /-- The code table at submission. -/
  ct : W64 × W64
  deriving DecidableEq, Repr

/-- What a matrix job does (13 R240), with the operands captured at submission. -/
inductive MtxOp where
  | oload (o : Nat) (src : Side) (stride : W32) (doff rb rows : Nat) (acq : Bool)
  /-- `ragged` is that of `rmma`: along k, and the two maps. -/
  | mma (z a b : Nat) (m32 : Bool) (fmt : MFmt) (q : Nat) (chk : Bool) (ctab ctabhi : W64)
      (ragged : Option (Bool × SegMap × SegMap))
  | zclear (z : Nat) (int : Bool)
  | zstore (z : Nat) (dst : Side) (stride : W32) (rowsm1 first : Nat) (sat : Bool) (rm : Nat) (ofmt : Nat) (rel fill : Bool)
  | zload (z : Nat) (src : Side) (stride : W32) (rowsm1 first : Nat) (lmode : Bool) (ofmt : Nat) (acq : Bool)
  | mcheck (z : Nat) (trap : Bool)
  /-- Claims and releases in submission order: physical numbers freed when all earlier jobs are done. -/
  | free (slots accs : List Nat)
  deriving DecidableEq, Repr

structure MtxJob where
  id : Nat
  owner : Owner
  op : MtxOp
  scope : Scope
  evictFirst : Bool
  before : List Nat
  st : JobSt
  excess : Bool
  code : Nat
  cause : Nat
  flags : BitVec 4
  mrow : Nat
  mcol : Nat
  nar : Nat
  nac : Nat
  deriving DecidableEq, Repr

/-- An accumulator (13 R236, R251): elements by 128 m + n as A56 bit patterns, mode, saturation flags, checksum state. Checksums
are exact: an integer times 2 to the power of -600. -/
structure Acc where
  z : Tab (BitVec 56)
  int : Bool
  sat : List Nat
  rc : Tab Int
  cc : Tab Int
  sr : Tab Int
  sc : Tab Int
  rmark : List Nat
  cmark : List Nat
  kt : Nat
  chkv : Bool
  /-- The mode that the last submission sets (13 R246). -/
  smode : Bool
  /-- Elements that carry poison (22 R379). -/
  bad : List Nat
  deriving DecidableEq, Repr

def Acc.reset : Acc := ⟨[], false, [], [], [], [], [], [], [], 0, true, false, []⟩

/-- A sampler request (20 R355). -/
structure SmpReq where
  id : Nat
  thread : ThreadId
  /-- `smpl`: the first tile; `tokexec`: none. -/
  tile : Option Nat
  token : Nat
  recOff : Nat
  d : SReg
  deriving DecidableEq, Repr

structure Cluster where
  bb : List Entry
  tlb : List TlbEntry
  fmb : List FetchEntry
  copyq : List CopyJob
  mtxq : List MtxJob
  /-- Operand slots in use: bytes by offset; free slots are not listed. -/
  oslots : Tab (List Host.Cell)
  /-- Poisoned 8-byte words of operand slots: slot, word (22 R379). -/
  obad : List (Nat × Nat)
  accs : Tab Acc
  winlog : Nat
  /-- The cycle in which the present arbiter window began (13 R256). -/
  winAt : Nat
  budget : Nat
  winTotal : Nat
  winCharge : Tab Nat
  /-- Operand slots and accumulators in use, and whether the window total has reached BUDGET, at the start of the cycle (13 R257). -/
  mtx0 : Nat × Nat × Bool
  smpq : List SmpReq
  /-- Places of the copy queue, the matrix queue and the sampler's queue that came free in this cycle: a submission finds them in a later one
  (06 R108). -/
  vacated : Nat × Nat × Nat
  deriving DecidableEq, Repr

def Cluster.reset : Cluster :=
  { bb := [], tlb := [], fmb := [], copyq := [], mtxq := [], oslots := [], obad := [], accs := [], winlog := 12, winAt := 0, budget := 0x42000,
    winTotal := 0, winCharge := [], mtx0 := (0, 0, false), smpq := [], vacated := (0, 0, 0) }

/-! ## Tasks -/

/-- A block barrier (16 R311); the pending set holds (block index, tile). -/
structure Barrier where
  gen : W32
  need : Nat
  count : Nat
  pending : List (Nat × Nat)
  /-- Cycle of the last completion, and GEN as that cycle began. -/
  last : Option (Nat × W32)
  deriving DecidableEq, Repr

def Barrier.reset : Barrier := ⟨0, 0, 0, [], none⟩

/-- Work-queue context of a task (06 R117): remaining sub-tiles as (row0, rows, column), the whole grid kept for steals. -/
structure WorkQueue where
  set : Bool
  h : Nat
  nx : Nat
  ny : Nat
  /-- Boundaries of the shape record, when one was named. -/
  bounds : Option (List Nat)
  next : Nat
  /-- Sub-tiles from the end that other tasks have taken (03 R61). -/
  stolen : Nat
  deriving DecidableEq, Repr

def WorkQueue.reset : WorkQueue := ⟨false, 0, 0, 0, none, 0, 0⟩

/-- Where a task stands. -/
inductive TaskPlace where
  /-- On cores b0 .. of a package cluster. -/
  | resident (c : Nat) (b0 : Nat)
  /-- Pre-empted: contexts in the shadow banks of those cores, the spill under way. -/
  | leaving (c : Nat) (b0 : Nat)
  /-- Saved in a frame. -/
  | saved (frame : Nat)
  /-- The fill engine reads the image of a frame into the shadow banks of these cores (22 R377). -/
  | filling (c : Nat) (b0 : Nat) (frame : Nat)
  | retired
  deriving DecidableEq, Repr

/-- What a pre-empted task keeps of each core (22 R374). -/
structure CoreCtx where
  threads : Tab Thread
  tiles : Tab Tile
  inbox : List (Nat × W64)
  ctab : W64
  ctabhi : W64
  queue : List TrapRec
  bank0 : Option TrapRec
  bank1 : Option TrapRec
  sram : List Host.Cell
  observed : List Nat
  land : Tab Landing
  poison : List Nat
  deriving DecidableEq, Repr

/-- The saved image of a task (22 R374); its bytes in the save frame are private to the device: free values from number `stamp` on.
`base` is the package core that held block index 0; slots and accumulators stand under their numbers in the engine left. -/
structure Image where
  base : Nat
  /-- Virtual address of the frame's first byte, as the control block gave it when the frame was allocated (22 R362, R376). -/
  va : Nat
  stamp : Nat
  cores : List CoreCtx
  oslots : Tab (List Host.Cell)
  obad : List (Nat × Nat)
  accs : Tab Acc
  copyJobs : List CopyJob
  mtxJobs : List MtxJob
  bytes : Nat
  deriving DecidableEq, Repr

structure Task where
  id : TaskId
  place : TaskPlace
  phase : W32
  barriers : Tab Barrier
  wq : WorkQueue
  /-- Threads (block index, slot) that have arrived at the phase advance under way (16 R314). -/
  arrived : List (Nat × Nat)
  /-- Names mapped to physical operand slots and accumulators (13 R237). -/
  onames : Tab Nat
  znames : Tab Nat
  ae : Nat
  /-- AE at the start of the cycle. -/
  ae0 : Nat
  faulted : Bool
  image : Option Image
  /-- Jobs withdrawn while the task is being stopped (10 R207, 13 R258). -/
  held : List CopyJob × List MtxJob
  /-- Phase in whose laying the task's next global access has an acquire to make (15 R293). -/
  acqPhase : Bool
  /-- A slot-table write has taken a core of its block away (03 R62). -/
  mustGo : Bool
  /-- The sub-tile stolen last, per thread: (block index, slot), victim (03 R61). -/
  stealing : List ((Nat × Nat) × Nat)
  deriving DecidableEq, Repr

/-! ## Launches -/

/-- A code-rate profile (18 R325). -/
structure Profile where
  valid : Bool
  deadline : Nat
  psel : Nat
  fsize : Nat
  m : Nat
  k : Nat
  deriving DecidableEq, Repr

/-- Process-group data derived at acceptance (01 R28). -/
structure Group where
  id : W64
  nrank : Nat
  rank : Nat
  neighbours : List Nat
  /-- Path sets: destination rank, path words. -/
  paths : List (Nat × List W32)
  deriving DecidableEq, Repr

/-- The copy of a kernel descriptor the command processor keeps (01 R16, R19), reduced to what tasks use. -/
structure Kernel where
  addr : W64
  tileset : W32
  sigoff : W32
  tilemask : BitVec 16
  cbmask : BitVec 16
  entry : W64
  argsize : Nat
  drawn : Bool
  slots : Nat
  gang : Nat
  block : Nat
  spsize : Nat
  /-- Constant windows: base, size. -/
  windows : List (W64 × Nat)
  /-- Preset words of the entries of TILEMASK. -/
  presets : Tab W64
  deriving DecidableEq, Repr

inductive LState where
  | accepted | running | closed
  deriving DecidableEq, Repr

/-- A dependence word (02 R38). -/
structure Dep where
  lid : Nat
  tol : Bool
  deriving DecidableEq, Repr

/-- One line of a shingle (15 R292): virtual line number, 128-bit mask, bytes, and which bytes carry poison (22 R379). -/
structure ShLine where
  line : Nat
  mask : BitVec 128
  data : VWord
  bad : BitVec 128
  deriving DecidableEq, Repr

/-- A launch: its record (02 R43) as the command processor keeps it, what it read at acceptance, and its progress. -/
structure Launch where
  part : Nat
  lid : Nat
  qid : Nat
  state : LState
  reason : Nat
  status : Nat
  tasks : Nat
  tag : W32
  level : Nat
  repro : Bool
  bounded : Bool
  reuse : Bool
  devside : Bool
  tolran : Bool
  marker : Bool
  kdesc : W64
  seed : W64
  cbase : W64
  cext : W64
  atime : BitVec 80
  ctime : BitVec 80
  digest : W64
  ftask : W32
  fcause : Byte
  /-- A task of the launch has faulted on the package (22 R363). -/
  faulted : Bool
  deps : List Dep
  sigaddr : W64
  irq : Bool
  kernel : Kernel
  args : List Byte
  group : Option Group
  profiles : List Profile
  expert : Bool
  lastwin : Bool
  /-- Share of the package: first and one past the last task (01 R28); next undispatched task. -/
  first : Nat
  last : Nat
  next : Nat
  /-- Published RIDGE (15 R291), and as the cycle began. -/
  ridge : W32
  ridge0 : W32
  /-- Phases laid so far, the running digest, shingles not yet laid by (task, phase). -/
  laid : Nat
  dig : W64
  shingles : List ((Nat × Nat) × List ShLine)
  /-- Pre-empted tasks, which come before the undispatched ones. -/
  preempted : List Nat
  /-- First cores of the runs that dispatch has freed for the launch's lowest undispatched task (03 R60). -/
  kept : List Nat
  /-- The placement-stall event of the present wait has been posted (03 R63). -/
  stalled : Bool
  /-- MSEQ counters by (destination rank, channel) (18 R327). -/
  mseq : List ((Nat × Nat) × Nat)
  deriving DecidableEq, Repr

/-! ## Partitions -/

inductive QState where
  | disabled | active | draining | aborting
  deriving DecidableEq, Repr

/-- Register block of a queue (02 R34). -/
structure Queue where
  qbase : W64
  enable : Bool
  loc : Bool
  irqen : Bool
  prio : Nat
  qlog : Nat
  tear : Nat
  msix : Nat
  qwr : W32
  qrd : W32
  st : QState
  err : Bool
  ecode : Nat
  lastlid : W32
  deriving DecidableEq, Repr

def Queue.reset : Queue := ⟨0, false, false, false, 0, 0, 0, 0, 0, 0, .disabled, false, 0, 0⟩

/-- Partition descriptor (02 R33). -/
structure Descriptor where
  pdver : Nat
  valid : Bool
  expert : Bool
  part : Nat
  defsp : Nat
  nqueue : Nat
  pext : BitVec 16
  mshare : Nat
  priocap : Nat
  tokhi : Nat
  bslots : Nat
  ringbase : W64
  ringlog : Nat
  ptroot : Nat
  profbase : W64
  deriving DecidableEq, Repr

def Descriptor.reset (n : Nat) : Descriptor :=
  ⟨1, false, false, n, 4, 1, BitVec.ofNat 16 n, 0, 0, 0, 0, 0, 8, 0, 0⟩

/-- Supervisor control block with VEC (22 R362). -/
structure Scb where
  en : Bool
  savebase : W64
  nframe : Nat
  framemb : Nat
  xladdr : W64
  xlbusy : Bool
  vec : W64
  deriving DecidableEq, Repr

def Scb.reset : Scb := ⟨false, 0, 0, 0, 0, false, 0⟩

/-- A flow rule (10 R209). -/
structure FlowRule where
  etype : Nat
  uport : Nat
  vid : Nat
  vlanen : Bool
  hits : W32
  drops : W32
  cluster : Nat
  core : Nat
  lslot : Nat
  ports : BitVec 2
  en : Bool
  deriving DecidableEq, Repr

def FlowRule.reset : FlowRule := ⟨0, 0, 0, false, 0, 0, 0, 0, 0, 0, false⟩

/-- Message counters (18 R337). -/
structure MsgCtr where
  late : W32
  dups : W32
  drops : W32
  noMatch : W32
  lost : W32
  rebuilt : W32
  received : W32
  sent : W32
  deriving DecidableEq, Repr

def MsgCtr.reset : MsgCtr := ⟨0, 0, 0, 0, 0, 0, 0, 0⟩

/-- A log entry (22 R381). -/
structure LogEntry where
  addr : W64
  lid : W32
  id : W32
  cause : Byte
  src : Nat
  core : Nat
  time : BitVec 80
  deriving DecidableEq, Repr

/-- A posted receive (18 R329): the buffer as it was translated at issue. -/
structure Post where
  thread : ThreadId
  task : TaskId
  seq : W32
  srank : Nat
  chan : Nat
  maxlen : Nat
  va : Nat
  place : Place
  deriving DecidableEq, Repr

/-- A message being received (18 R328 to R330). -/
structure RxMsg where
  key : MsgKey
  lid : Nat
  len : Nat
  k : Nat
  m : Nat
  f : Nat
  deadline : Nat
  ackreq : Bool
  /-- Fragments received in time, by FIDX. -/
  frags : Tab (List Byte)
  post : Option Post
  /-- Data fragments written, and the posted-queue entries that write them. -/
  got : List Nat
  writes : List Nat
  rebuilt : Nat
  deriving DecidableEq, Repr

/-- An unexpected message that is lost: what the post that matches it will report (18 R329, R334). -/
structure LostMsg where
  key : MsgKey
  /-- The launch to which its fragments were delivered. -/
  lid : Nat
  len : Nat
  frags : Nat
  deriving DecidableEq, Repr

/-- A send (18 R333): its thread's handle, the identity, the source, fragments that have not left the outbound queues. -/
structure TxMsg where
  id : Nat
  thread : ThreadId
  task : TaskId
  seq : W32
  key : MsgKey
  ack : Bool
  len : Nat
  k : Nat
  m : Nat
  f : Nat
  paths : List W32
  deadline : Nat
  /-- PTP time in nanoseconds at which an unacknowledged `.ack` send becomes final. -/
  ackBy : Nat
  tile : Option Nat
  va : Nat
  /-- Cluster in which its source was translated. -/
  home : Nat
  place : Place
  shingle : Option (TaskId × W32)
  /-- Store-buffer entries that drain before the source is read. -/
  before : List Nat
  /-- Its fragments have been given to ports. -/
  sent : Bool
  left : Nat
  final : Bool
  deriving DecidableEq, Repr

/-- A device-side packet (16 R318): its words, the task for which it was issued, and the tag of its thread (LID and G), with the slot and ESN. -/
structure DevPacket where
  words : VWord
  task : TaskId
  tag : Nat × Nat
  slot : Nat
  esn : W32
  deriving DecidableEq, Repr

/-- A target of tagged effects (16 R301): a line's point of coherence, a block's barrier unit, a cluster's inbox unit, the command
processor, the fabric unit (18 R333), the sampler (20 R356). -/
inductive Target where
  | line (l : Nat) | barriers | inbox (c : Nat) | command | fabric | sampler
  deriving DecidableEq, Repr

structure Partition where
  desc : Descriptor
  queues : Tab Queue
  rrQueue : Nat
  dq : List DevPacket
  nextLid : Nat
  /-- Launches compared for stream reuse: seed, base, extent (02 R42), newest first. -/
  recent : List (W64 × W64 × W64)
  lastwin : Bool
  flow : Tab FlowRule
  stations : Tab (BitVec 48)
  ctr : MsgCtr
  scb : Scb
  faultLog : Tab LogEntry
  faultCount : W32
  fairw : Nat
  /-- VT per priority as an exact fraction (03 R57). -/
  vt : Tab (Nat × Nat)
  /-- Priorities at which the partition was active in the last cycle. -/
  vtActive : List Nat
  frames : List Nat
  resetting : Bool
  /-- Invalidations under way (22 R373): the waiting thread, `none` for the host; the address, `none` for all. -/
  xl : List (Option ThreadId × Option Nat)
  posts : List Post
  rx : List RxMsg
  /-- Closed messages remembered until their DEADLINE, and those whose post completes at once. -/
  closed : List (MsgKey × Nat)
  lost : List LostMsg
  /-- MSEQ values matched, by (source rank, channel, destination launch). -/
  matched : List ((Nat × Nat × Nat) × List Nat)
  tx : List TxMsg
  /-- Last effect performed for thread G of a launch at each target that it has reached: ESN and result (16 R301). -/
  effects : List ((Nat × Nat × Target) × W32 × W64)
  deriving DecidableEq, Repr

def Partition.reset (n : Nat) : Partition :=
  { desc := .reset n, queues := [], rrQueue := 0, dq := [], nextLid := 1, recent := [], lastwin := false, flow := [],
    stations := [], ctr := .reset, scb := .reset, faultLog := [], faultCount := 0, fairw := 1, vt := [], vtActive := [],
    frames := [], resetting := false, xl := [], posts := [], rx := [], closed := [], lost := [], matched := [], tx := [], effects := [] }

/-! ## Memory side -/

/-- Retention register (08 R162), the same on all four dies, with the counters of each die. -/
structure Retain where
  part : Nat
  ratio : Nat
  ways : Nat
  valid : Bool
  base : Nat
  limit : Nat
  fills : Tab W32
  hits : Tab W32
  deriving DecidableEq, Repr

def Retain.reset : Retain := ⟨0, 16, 0, false, 0, 0, [], []⟩

/-- The step of `rset` or `unpin` on one register, made as its cycle ends (12 R235): the new fields, and whether the counters clear. -/
structure RetainStep where
  k : Nat
  ratio : Nat
  ways : Nat
  valid : Bool
  base : Nat
  limit : Nat
  clear : Bool
  deriving DecidableEq, Repr

/-- A line held in an L2 set: physical line, retention class if any (08 R164). A set lists its ordinary lines most recent first. -/
structure L2Way where
  line : Nat
  cls : Option Nat
  deriving DecidableEq, Repr

/-- A frame that a flow rule has taken (10 R210): partition, rule, port, landing slot of a core, the bytes without FCS, whether it was tagged, the
time of its reception in nanoseconds, and the task and the entry it has chosen and waits for (08 R161). -/
structure RxFrame where
  part : Nat
  rule : Nat
  port : Nat
  core : Nat
  lslot : Nat
  bytes : List Byte
  tagged : Bool
  ns : Nat
  tile : Option (TaskId × Nat)
  deriving DecidableEq, Repr

/-- Where the bytes of a frame go (10 R210): task, tile entry, and the partition and rule that took it. -/
structure Landed where
  task : TaskId
  tile : Nat
  part : Nat
  rule : Nat
  deriving DecidableEq, Repr

/-- A posted inbound write (15 R276): its number and the bytes. -/
structure Posted where
  id : Nat
  /-- The core of a scratchpad destination. -/
  dest : Option Nat
  cells : List Host.Cell
  mside : Bool
  /-- A frame's: the entry that it has filled. -/
  land : Option Landed
  deriving DecidableEq, Repr

/-! ## Links and front ports -/

inductive LinkSt where
  | down | training | up | retraining
  deriving DecidableEq, Repr

/-- A fragment in a package: its bytes with header, the send it belongs to when sent here (partition, number), and the port
and channel whose flit buffers it holds when forwarded. -/
structure Fragment where
  bytes : List Byte
  mine : Option (Nat × Nat)
  from_ : Option (Nat × Nat)
  deriving DecidableEq, Repr

/-- A Porkan port (18 R320 to R324). -/
structure Port where
  st : LinkSt
  width : Nat
  lanes : BitVec 16
  myLanes : BitVec 16
  replays : Byte
  acked : Nat
  nextSeq : Nat
  expected : Nat
  /-- Flits sent and not acknowledged, oldest first, by SEQ. -/
  replay : List VWord
  credits : Tab Nat
  /-- Flits accepted and not passed on, per virtual channel, each with the PTP time of its arrival. -/
  inbuf : Tab (List (Nat × VWord))
  unreported : Nat
  /-- Credits to return, per virtual channel. -/
  owed : Tab Nat
  nacked : Bool
  /-- Fragments queued to leave, per virtual channel, oldest first; flits of the head already sent. -/
  outq : Tab (List Fragment)
  sentFlits : Tab Nat
  fails : Nat
  /-- Flits put on the wire, newest last. -/
  wire : List VWord
  /-- Management messages that have come whole, oldest first, and the payloads of one being assembled. -/
  mgmt : List (List Byte)
  mgmtPart : List Byte
  deriving DecidableEq, Repr

def Port.reset : Port :=
  { st := .down, width := 0, lanes := 0, myLanes := 0, replays := 0, acked := 0, nextSeq := 1, expected := 1, replay := [],
    credits := [], inbuf := [], unreported := 0, owed := [], nacked := false, outq := [], sentFlits := [], fails := 0, wire := [], mgmt := [], mgmtPart := [] }

/-! ## Management core and boot -/

/-- Boot stage (24 R389). -/
inductive Boot where
  | off
  /-- Asking for the image: source (side band or port 0), party, total length, chunks by offset. -/
  | fetching (port0 : Bool) (party : Option (BitVec 128)) (total : Nat) (chunks : Tab (List Byte))
  | running
  deriving DecidableEq, Repr

/-- A deferred value of a BOUNDED entry (03 R58): the entry's number, the value, and the tasks that have to retire before it takes effect. -/
structure Deferred where
  entry : Nat
  val : W64
  tasks : List TaskId
  deriving DecidableEq, Repr

structure Mgmt where
  boot : Boot
  image : List Byte
  staged : Tab (List Byte)
  /-- Blown bits of the fuse row (24 R390). -/
  fuse : Nat
  opKey : Option (Nat × Nat)
  /-- The greatest counter accepted since power-on. -/
  counter : Option W64
  errLog : Tab LogEntry
  errCount : W32
  gated : List Nat
  fenced : List Nat
  trip : List Nat
  power : BitVec 16
  temp : Byte
  sltErr : Bool
  sltEntry : Nat
  sltEcode : Nat
  deferred : List Deferred
  /-- Pending tenant resets in arrival order (24 R387); PART of TRST. -/
  resets : List Nat
  trstPart : Nat
  /-- PTP rate correction in parts per million (24 R386). -/
  ppm : Int
  /-- The forward step of boot has been made, or its time is past: a partition has been VALID (24 R386). -/
  stepped : Bool
  deriving DecidableEq, Repr

def Mgmt.reset : Mgmt :=
  { boot := .off, image := [], staged := [], fuse := 0, opKey := none, counter := none, errLog := [], errCount := 0, gated := [],
    fenced := [], trip := [], power := 0, temp := 0, sltErr := false, sltEntry := 0, sltEcode := 0, deferred := [],
    resets := [], trstPart := 0, ppm := 0, stepped := false }

/-! ## What leaves the package -/

/-- An address of the side-band network. -/
inductive IpAddr where
  | v4 (a : W32)
  | v6 (a : BitVec 128)
  deriving DecidableEq, Repr

inductive Out where
  /-- MSI-X vector of a partition's function (02 R47). -/
  | msix (part vector : Nat)
  /-- Side-band reply: opcode, request, status, body (24 R393). -/
  | reply (op : Byte) (req : W32) (status : Nat) (body : List Byte)
  /-- A datagram of the side-band port: addresses, UDP ports, message (24 R394). -/
  | udp (src dst : IpAddr) (sport dport : Nat) (body : List Byte)
  /-- Management message on port 0. -/
  | mgmt (body : List Byte)
  /-- Third-level reset of a core, and placement stall (22 R365, 03 R63). -/
  | coreReset (core : Nat)
  | stall (part lid : Nat)
  deriving DecidableEq, Repr

/-! ## The turn being taken -/

/-- What came of the bundle at this turn. -/
inductive Fate where
  | go | passed | trapped
  deriving DecidableEq, Repr

/-- The issuing thread and its bundle: PC of the instruction, PC after the bundle if no transfer is taken, PC the thread goes to,
the thread and code table as they stood before the bundle for the second of a pair (06 R109), the flags the first of a pair raised (11
R215), the leader's outcome for a follower (07 R137). -/
structure Cur where
  core : Nat
  slot : Nat
  ipc : W64
  link : W64
  npc : W64
  taken : Bool
  fate : Fate
  pre : Option Thread
  preCtab : Option (W64 × W64)
  flags1 : BitVec 4
  follow : Bool
  word : W96
  other : W96
  deriving DecidableEq, Repr

def Cur.reset : Cur := ⟨0, 0, 0, 0, 0, false, .go, none, none, 0, false, 0, 0⟩

/-! ## The package -/

structure State where
  /-- Events and outside inputs still to come, in the order they happen (log 1). -/
  agenda : List Instr
  /-- Core whose turn comes next in this cycle. -/
  nextCore : Nat
  cur : Cur
  free : Nat
  nextId : Nat
  out : List Out
  cycle : Nat
  /-- PTP time since its epoch in units of 1/(3 * 10^6) ns. -/
  ptp : Nat
  pkg : W32
  mem : List Host.Cell
  /-- Versions: that of a line at its L2 home under its number, that of the line at its LLC in `mvers` (08 R155, R157). -/
  vers : Tab W32
  mvers : Tab W32
  /-- Versions as the cycle began, of the lines whose version has moved in it: name of the line, version. -/
  vers0 : List (Nat × W32)
  /-- Poisoned words: physical word numbers, and (core, word) of scratchpads (22 R379). -/
  poison : List Nat
  sramPoison : List (Nat × Nat)
  l2 : Tab (List L2Way)
  retain : Tab Retain
  retainSteps : List RetainStep
  slotTable : Tab W64
  posted : List Posted
  /-- Frames that flow rules have taken: they land as a cycle ends, after the slots' own fills (08 R161). -/
  frames : List RxFrame
  rrPart : Nat
  parts : Tab Partition
  cores : Tab Core
  clusters : Tab Cluster
  tasks : List Task
  launches : List Launch
  ports : Tab Port
  mgmt : Mgmt
  deriving DecidableEq, Repr

/-- The package right after reset. -/
def State.reset : State :=
  { agenda := [], nextCore := 0, cur := .reset, free := 0, nextId := 0, out := [], cycle := 0, ptp := 0, pkg := 0, mem := [],
    vers := [], mvers := [], vers0 := [], poison := [], sramPoison := [], l2 := [], retain := [], retainSteps := [], slotTable := [], posted := [], frames := [],
    rrPart := 0, parts := [], cores := [], clusters := [], tasks := [], launches := [], ports := [], mgmt := .reset }

/-! ## Faults and refusals -/

/-- Why a step stops with a fault. -/
inductive Fault where
  /-- Raised by `step` when the next entry of the agenda is not an event: an agenda that lists a thread instruction is no order of
  events of the machine. Safe: nothing is claimed of such an agenda. -/
  | agendaEntry
  deriving DecidableEq, Repr

/-- Why a step is refused. -/
inductive Refusal where
  /-- Raised by an arm of `exec` whose instruction has no meaning yet. Safe: nothing is claimed of it. -/
  | notModelled (mnemonic : String)
  deriving DecidableEq, Repr

end Sys2Proof.Machine
end

