-- ==== Sys2Proof/Machine/Basic.lean ====
section
/-! DEFINITION. Tables, memory bytes, words, lanes and bit fields: the small operations every meaning is written with. -/

namespace Sys2Proof.Machine

/-! ## Tables -/

def Tab.get? {α : Type} : Tab α → Nat → Option α
  | [], _ => none
  | (j, a) :: r, k => if j = k then some a else Tab.get? r k

def Tab.getD {α : Type} (t : Tab α) (k : Nat) (d : α) : α := (t.get? k).getD d

def Tab.put {α : Type} : Tab α → Nat → α → Tab α
  | [], k, a => [(k, a)]
  | (j, b) :: r, k, a => if k < j then (k, a) :: (j, b) :: r else if k = j then (k, a) :: r else (j, b) :: Tab.put r k a

def Tab.del {α : Type} (t : Tab α) (k : Nat) : Tab α := t.filter fun e => e.1 != k

def Tab.vals {α : Type} (t : Tab α) : List α := t.map (·.2)

/-! ## Numbers and bit fields -/

/-- Bits [lo + w - 1 : lo] of `n`. -/
def bits (n lo w : Nat) : Nat := n / 2 ^ lo % 2 ^ w
def bit (n k : Nat) : Bool := n / 2 ^ k % 2 == 1
def w64 (n : Nat) : W64 := BitVec.ofNat 64 n
def w32 (n : Nat) : W32 := BitVec.ofNat 32 n
def byte (n : Nat) : Byte := BitVec.ofNat 8 n
/-- Two's complement value of the low `w` bits of `n`. -/
def toS (w n : Nat) : Int := if n % 2 ^ w < 2 ^ (w - 1) then (n % 2 ^ w : Nat) else (n % 2 ^ w : Nat) - (2 ^ w : Nat)
/-- The `w`-bit pattern of an integer. -/
def ofZ (w : Nat) (z : Int) : Nat := (z % (2 ^ w : Nat)).toNat
def ceilDiv (a b : Nat) : Nat := if b = 0 then 0 else (a + b - 1) / b
def bnat (b : Bool) : Nat := if b then 1 else 0
/-- The lane or bit number `k` of a list of booleans, packed. -/
def packBits : List Bool → Nat
  | [] => 0
  | b :: r => bnat b + 2 * packBits r
/-- Bit set as a list of positions below `n`. -/
def bitList (m n : Nat) : List Nat := (List.range n).filter (bit m)
def popcount (m n : Nat) : Nat := (bitList m n).length
/-- Base-2 logarithm, rounded down; `fuel` bounds the width. -/
def log2 : Nat → Nat → Nat
  | 0, _ => 0
  | fuel + 1, n => if n < 2 then 0 else 1 + log2 fuel (n / 2)

/-! ## Bytes and words: little-endian (00 R8, 04 R64) -/

def ofBytes : List Byte → Nat
  | [] => 0
  | b :: r => b.toNat + 256 * ofBytes r
def toBytes : Nat → Nat → List Byte
  | 0, _ => []
  | k + 1, n => byte n :: toBytes k (n / 256)

/-- Bytes `off` to `off + n - 1` of a byte list as a number; bytes past the end are 0. -/
def field (bs : List Byte) (off n : Nat) : Nat := ofBytes ((bs.drop off).take n)
/-- A list with the bytes at `off` replaced. -/
def patch (bs : List Byte) (off : Nat) (new : List Byte) : List Byte :=
  bs.take off ++ (new.take (bs.length - off)) ++ bs.drop (off + new.length)

/-! ## Memory: a canonical list of nonzero bytes (log 2) -/

/-- The byte at `a`; a byte that nothing has written reads 0 (log 2). -/
def memByte : List Host.Cell → Nat → Byte
  | [], _ => 0
  | (j, b) :: r, a => if j = a then b else memByte r a

def memPut : List Host.Cell → Nat → Byte → List Host.Cell
  | [], a, b => [(a, b)]
  | (j, c) :: r, a, b => if a < j then (a, b) :: (j, c) :: r else if a = j then (a, b) :: r else (j, c) :: memPut r a b

/-- One byte written; a zero byte is not listed. -/
def memSet (m : List Host.Cell) (a : Nat) (b : Byte) : List Host.Cell :=
  if b = 0 then m.filter fun e => e.1 != a else memPut m a b

def memBytes (m : List Host.Cell) (a : Nat) : Nat → List Byte
  | 0 => []
  | k + 1 => memByte m a :: memBytes m (a + 1) k

def memWrite : List Host.Cell → Nat → List Byte → List Host.Cell
  | m, _, [] => m
  | m, a, b :: r => memWrite (memSet m a b) (a + 1) r

/-- The canonical form: addresses strictly rising, no zero byte listed. -/
def Memory.wf : List Host.Cell → Bool
  | [] => true
  | [(_, b)] => b != 0
  | (a, b) :: (a', b') :: r => a < a' && b != 0 && Memory.wf ((a', b') :: r)

/-! ## Lanes (11 R213) -/

def lane (v : VWord) (j : Nat) : W32 := v.extractLsb' (32 * j) 32
/-- A list of 32-bit lanes, lane 0 first, as a number. -/
def packLanes : List W32 → Nat
  | [] => 0
  | x :: r => x.toNat + 2 ^ 32 * packLanes r
def ofLanes (l : List W32) : VWord := BitVec.ofNat 1024 (packLanes l)
def lanes (v : VWord) : List W32 := (List.range 32).map (lane v)
/-- 32 lanes, lane `j` being `f j`. -/
def mkLanes (f : Nat → W32) : VWord := ofLanes ((List.range 32).map f)
/-- Lanes whose guard bit is set take `f`; the others keep `old` (04 R76). -/
def guardLanes (g : W32) (old : VWord) (f : Nat → W32) : VWord :=
  mkLanes fun j => if bit g.toNat j then f j else lane old j
/-- A lane-bit mask of 32 booleans. -/
def mkMask (f : Nat → Bool) : W32 := w32 (packBits ((List.range 32).map f))
/-- `f n`, with `n` brought to a numeral first where a kernel evaluates it. -/
def onNumeral {α : Type} (n : Nat) (f : Nat → α) : α :=
  match n with
  | 0 => f 0
  | k + 1 => f (k + 1)
def vBytes (v : VWord) : List Byte := toBytes 128 v.toNat
def vOfBytes (b : List Byte) : VWord := BitVec.ofNat 1024 (ofBytes b)

/-! ## Lists -/

def replaceAt {α : Type} : List α → Nat → α → List α
  | [], _, _ => []
  | _ :: r, 0, a => a :: r
  | b :: r, k + 1, a => b :: replaceAt r k a
/-- A number added to a list of distinct numbers. -/
def addNew (l : List Nat) (k : Nat) : List Nat := if l.contains k then l else l ++ [k]
def sumNat : List Nat → Nat
  | [] => 0
  | a :: r => a + sumNat r
/-- The association list `l` with the value of `k` replaced or added. -/
def assocSet {κ ν : Type} [DecidableEq κ] (l : List (κ × ν)) (k : κ) (v : ν) : List (κ × ν) :=
  if l.any (fun e => e.1 = k) then l.map (fun e => if e.1 = k then (k, v) else e) else l ++ [(k, v)]
def assocGet {κ ν : Type} [DecidableEq κ] : List (κ × ν) → κ → Option ν
  | [], _ => none
  | (a, v) :: r, k => if a = k then some v else assocGet r k

end Sys2Proof.Machine
end

