-- ==== Sys2Proof/Machine/Ops.lean ====
section
/-! DEFINITION. Named operations over the state: cores, threads, registers, guards, outcomes of an instruction, points of coherence
and L2, taking a trap, returning from one, ending a thread and faulting a task. -/

namespace Sys2Proof.Machine

/-! ## Parts of the state by number -/

def State.core (s : State) (c : Nat) : Core := s.cores.getD c .reset
def State.setCore (s : State) (c : Nat) (k : Core) : State := { s with cores := s.cores.put c k }
def State.updCore (s : State) (c : Nat) (f : Core → Core) : State := s.setCore c (f (s.core c))
def State.thr (s : State) (t : ThreadId) : Thread := (s.core t.core).threads.getD t.slot .reset
def State.setThr (s : State) (t : ThreadId) (x : Thread) : State :=
  s.setCore t.core { s.core t.core with threads := (s.core t.core).threads.put t.slot x }
def State.updThr (s : State) (t : ThreadId) (f : Thread → Thread) : State := s.setThr t (f (s.thr t))
/-- The issuing thread. -/
def State.me (s : State) : ThreadId := ⟨s.cur.core, s.cur.slot⟩
def State.th (s : State) : Thread := s.thr s.me
def State.setTh (s : State) (x : Thread) : State := s.setThr s.me x
def State.updTh (s : State) (f : Thread → Thread) : State := s.setTh (f s.th)
/-- The thread as its operands are read: for the second instruction of a pair, as it stood before the first (06 R109). -/
def State.opTh (s : State) : Thread := s.cur.pre.getD s.th
/-- The code table as the issuing instruction reads it. -/
def State.ctab (s : State) : W64 × W64 := s.cur.preCtab.getD ((s.core s.cur.core).ctab, (s.core s.cur.core).ctabhi)
/-- The issuing thread's core. -/
def State.myCore (s : State) : Core := s.core s.cur.core
def State.updMyCore (s : State) (f : Core → Core) : State := s.updCore s.cur.core f

def clusterOf (core : Nat) : Nat := core / 8
def State.cluster (s : State) (c : Nat) : Cluster := s.clusters.getD c .reset
def State.setCluster (s : State) (c : Nat) (k : Cluster) : State := { s with clusters := s.clusters.put c k }
def State.updCluster (s : State) (c : Nat) (f : Cluster → Cluster) : State := s.setCluster c (f (s.cluster c))
def State.part (s : State) (p : Nat) : Partition := s.parts.getD p (.reset p)
def State.setPart (s : State) (p : Nat) (x : Partition) : State := { s with parts := s.parts.put p x }
def State.updPart (s : State) (p : Nat) (f : Partition → Partition) : State := s.setPart p (f (s.part p))
def State.task? (s : State) (t : TaskId) : Option Task := s.tasks.find? fun x => x.id = t
def State.placeOf (s : State) (t : TaskId) : Option TaskPlace := (s.task? t).map fun x => x.place
def State.updTask (s : State) (t : TaskId) (f : Task → Task) : State :=
  { s with tasks := s.tasks.map fun x => if x.id = t then f x else x }
def State.launch? (s : State) (p lid : Nat) : Option Launch := s.launches.find? fun l => l.part = p ∧ l.lid = lid
def State.updLaunch (s : State) (p lid : Nat) (f : Launch → Launch) : State :=
  { s with launches := s.launches.map fun l => if l.part = p ∧ l.lid = lid then f l else l }
/-- The task resident on a core, its launch. -/
def State.taskOn (s : State) (c : Nat) : Option Task := (s.core c).task.bind s.task?
def State.myTask (s : State) : Option Task := s.taskOn s.cur.core
def State.launchOf (s : State) (t : Task) : Option Launch := s.launch? t.id.part t.id.lid
def State.myLaunch (s : State) : Option Launch := s.myTask.bind s.launchOf

/-- Slot 7 runs at SUPERVISOR level, every other slot at USER (00 R3, 22 R364). -/
def State.super (s : State) : Bool := s.cur.slot == 7
/-- Partition in which a slot of a core runs: that of the resident task; slot 7, that of the record it serves (22 R364). -/
def State.partOf (s : State) (c slot : Nat) : Nat :=
  let k := s.core c
  let t := (k.task.map (·.part)).getD 0
  if slot == 7 then (k.bank0.map (·.part)).getD t else t
def State.myPart (s : State) : Nat := s.partOf s.cur.core s.cur.slot
/-- Cores in the block of a task at `b0` of a cluster, by block index. -/
def blockCores (cl b0 n : Nat) : List Nat := (List.range n).map fun b => 8 * cl + b0 + b
/-- Package core number of each block index of the task on core `c`; a task that leaves keeps its block until it is saved (22 R371). -/
def State.blockOf (s : State) (c : Nat) : List Nat :=
  match s.taskOn c with
  | some t =>
    match t.place, s.launchOf t with
    | .resident cl b0, some l | .leaving cl b0, some l => blockCores cl b0 l.kernel.block
    | _, _ => [c]
  | none => [c]
/-- The tag of a core's slot 7 while no task is on the core: no launch has such a LID (16 R300). -/
def coreTag (c : Nat) : Nat × Nat := (2 ^ 32 + c, 0)
/-- A number for a new buffer entry or job. -/
def State.fresh (s : State) : Nat × State := (s.nextId, { s with nextId := s.nextId + 1 })
/-- A free bit, and the state with the counter advanced (log 5). -/
def State.flip (s : State) : Bool × State := (Config.freeBit s.free, { s with free := s.free + 1 })

/-! ## Registers (00 R1, 04 R77) -/

def rdS (r : Regs) (n : SReg) : W64 := if n = 0 then 0 else r.s.getD n.val 0
/-- The whole words of a register are written: their poison clears (22 R379). -/
def Regs.clean (r : Regs) (f : RegFile) (n : Nat) : Regs := { r with bad := r.bad.filter fun x => !(x.1 == f && x.2.1 == n) }
def wrS (r : Regs) (n : SReg) (v : W64) : Regs := if n = 0 then r else { r.clean .s n.val with s := r.s.put n.val v }
def rdV (r : Regs) (n : VReg) : VWord := r.v.getD n.val 0
def wrV (r : Regs) (n : VReg) (v : VWord) : Regs := { r.clean .v n.val with v := r.v.put n.val v }
def rdP (r : Regs) (n : PReg) : W32 := if n = 0 then BitVec.allOnes 32 else r.p.getD n.val 0
def wrP (r : Regs) (n : PReg) (v : W32) : Regs := if n = 0 then r else { r.clean .p n.val with p := r.p.put n.val v }
def rdC (r : Regs) (n : CReg) : Cb := r.c.getD n.val .reset
def wrC (r : Regs) (n : CReg) (v : Cb) : Regs := { r.clean .c n.val with c := r.c.put n.val v }

/-- The lanes that an instruction word writes: the bits of its guard (04 R76). -/
def lanesOn (w : W96) (r : Regs) : W32 := rdP r ⟨bits w.toNat 37 3, Nat.mod_lt _ (by decide)⟩
/-- Words of a vector register of which a write under lanes `m` left a lane keep their poison (22 R379). -/
def keepBad (m : W32) (old : Regs) (n : VReg) (new : Regs) : Regs :=
  { new with bad := new.bad ++ old.bad.filter fun x =>
      x.1 == .v && x.2.1 == n.val && !(m.getLsbD (2 * x.2.2) && m.getLsbD (2 * x.2.2 + 1)) }

/-- Operand reads of the issuing thread. -/
def State.rs (s : State) (n : SReg) : W64 := rdS s.opTh.regs n
def State.rv (s : State) (n : VReg) : VWord := rdV s.opTh.regs n
def State.rp (s : State) (n : PReg) : W32 := rdP s.opTh.regs n
def State.rc (s : State) (n : CReg) : Cb := rdC s.opTh.regs n

def State.updRegs (s : State) (f : Regs → Regs) : State := s.updTh fun t => { t with regs := f t.regs }
/-- Register writes of the issuing thread; a write to s0 or p0 is discarded (04 R77). -/
def State.ws (s : State) (n : SReg) (v : W64) : State := s.updRegs fun r => wrS r n v
/-- A vector register write. Where both instructions of a pair write one register the vector value stands (06 R109), also against
a load of the first instruction whose data has not arrived. -/
def State.wv (s : State) (n : VReg) (v : VWord) : State := s.updRegs fun r => keepBad (lanesOn s.cur.word s.opTh.regs) r n (wrV r n v)
/-- A vector register write that sets the lanes of `m` alone. -/
def State.wvPart (s : State) (n : VReg) (m : W32) (v : VWord) : State := s.updRegs fun r => keepBad m r n (wrV r n v)
def State.wp (s : State) (n : PReg) (v : W32) : State := s.updRegs fun r => wrP r n v
def State.wc (s : State) (n : CReg) (v : Cb) : State := s.updRegs fun r => wrC r n v
/-- Sticky flags are set and never cleared by an operation (11 R214). -/
def State.orSticky (s : State) (f : BitVec 4) : State := s.updTh fun t => { t with sticky := t.sticky ||| f }

/-- The guard of an instruction: the bits of its predicate (04 R76). -/
def State.guard (s : State) (h : Hdr) : W32 := s.rp h.pred
/-- Bit 0 of the guard. -/
def State.guardOn (s : State) (h : Hdr) : Bool := (s.guard h).getLsbD 0
/-- MODE of the bundle: a write applies from the next bundle (04 R87). -/
def State.mode (s : State) : Mode := s.opTh.mode

/-! ## Outcome of an instruction -/

/-- What comes of an instruction, or of a part of one. -/
inductive Res (α : Type) where
  /-- A value, and the state with the effects so far. -/
  | ok (a : α) (s : State)
  /-- The thread passes its turn (06 R108); only caches have changed. -/
  | pass (s : State)
  /-- A trap: cause, TRAPADDR, TRAPINFO. -/
  | trap (s : State) (cause : Byte) (addr info : W64)

def Res.andThen {α β : Type} (r : Res α) (f : α → State → Res β) : Res β :=
  match r with
  | .ok a s => f a s
  | .pass s => .pass s
  | .trap s c a i => .trap s c a i

/-- The instruction is done. -/
def done (s : State) : Res Unit := .ok () s
/-- A failed check with its cause and TRAPINFO. -/
def fail {α : Type} (s : State) (cause : Byte) (info : W64) : Res α := .trap s cause 0 info
/-- A value check that fails at a position (07 R124). -/
def badPos {α : Type} (s : State) (pos : Nat) : Res α := fail s 0x02 (w64 pos)
/-- Goes on only where `b` holds. -/
def need (b : Bool) (s : State) (cause : Byte) (info : W64) (f : State → Res Unit) : Res Unit :=
  if b then f s else fail s cause info

/-! ## L2 and retention (08 R154, R162 to R164) -/

def lineOf (pa : Nat) : Nat := pa / 128
/-- Number of the L2 set of a physical line: die, slice, set (08 R154). -/
def setOf (line : Nat) : Nat :=
  let pa := 128 * line
  (bits pa 12 2 * 128 + bits pa 14 7) * 512 + bits pa 21 4 * 32 + bits pa 7 5
def dieOf (line : Nat) : Nat := bits (128 * line) 12 2
/-- Hash of R163. -/
def retainHash (line : Nat) : Nat :=
  (List.range 11).foldl (fun h j => h ^^^ bits (128 * line % 2 ^ 48) (7 + 4 * j) 4) 0
/-- The lowest retention register that selects a line. -/
def selector (ks : Tab Retain) (line : Nat) : Option Nat :=
  (ks.find? fun e => e.2.valid && decide (e.2.base ≤ line) && decide (line < e.2.limit)
    && decide (retainHash line < e.2.ratio)).map (·.1)
def dropLastOrd : List L2Way → List L2Way
  | [] => []
  | w :: r => if w.cls.isNone && r.all (·.cls.isSome) then r else w :: dropLastOrd r
/-- A way put in front of, or behind, the ordinary ways. -/
def fillWay (ws : List L2Way) (w : L2Way) (last : Bool) : List L2Way :=
  let ws := if ws.length < 16 then ws else dropLastOrd ws
  if last then ws ++ [w] else w :: ws
/-- The register whose retained class has room for a line in a set (08 R164). -/
def roomIn (ks : Tab Retain) (ws : List L2Way) (line : Nat) : Option Nat :=
  match selector ks line with
  | some k => if (ws.filter (·.cls = some k)).length < (ks.getD k .reset).ways then some k else none
  | none => none
/-- An access to a line at its home slice: a hit, a move into a retained class (12 R233), or a fill (08 R164); counts (12 R234). -/
def State.l2Touch (s : State) (pa : Nat) (evictFirst : Bool) : State :=
  let line := lineOf pa
  let n := setOf line
  let ws := s.l2.getD n []
  let die := dieOf line
  let filled (k : Nat) : Tab Retain :=
    let r := s.retain.getD k .reset
    s.retain.put k { r with fills := r.fills.put die (r.fills.getD die 0 + 1) }
  match ws.find? (·.line = line), roomIn s.retain ws line with
  | some ⟨_, some k⟩, _ =>
    let r := s.retain.getD k .reset
    { s with retain := s.retain.put k { r with hits := r.hits.put die (r.hits.getD die 0 + 1) } }
  | some ⟨_, none⟩, some k => { s with l2 := s.l2.put n (⟨line, some k⟩ :: ws.filter (·.line != line)), retain := filled k }
  | some w, none => { s with l2 := s.l2.put n (w :: ws.filter (·.line != line)) }
  | none, some k => { s with l2 := s.l2.put n (fillWay ws ⟨line, some k⟩ false), retain := filled k }
  | none, none => { s with l2 := s.l2.put n (fillWay ws ⟨line, none⟩ evictFirst) }
/-- Every retained line of register `k` becomes ordinary in place, least recently used (08 R164). -/
def State.unretain (s : State) (k : Nat) : State :=
  { s with l2 := s.l2.map fun e =>
      (e.1, e.2.filter (·.cls != some k) ++ ((e.2.filter (·.cls = some k)).map fun w => ⟨w.line, none⟩)) }

/-- The step of `rset` or `unpin` on a register (08 R162, R164, 12 R235). -/
def State.retainStep (s : State) (x : RetainStep) : State :=
  let s := s.unretain x.k
  let r := s.retain.getD x.k .reset
  { s with retain := s.retain.put x.k { r with
      ratio := x.ratio, ways := x.ways, valid := x.valid, base := x.base, limit := x.limit,
      fills := if x.clear then [] else r.fills, hits := if x.clear then [] else r.hits } }
/-- The retention steps of a cycle, after its requests. -/
def State.landRetain (s : State) : State := s.retainSteps.foldl State.retainStep { s with retainSteps := [] }

/-! ## Points of coherence (08 R155, 15 R277) -/

/-- The megabyte of the crash records: writes through page tables are discarded (22 R366). -/
def crashMB (pa : Nat) : Bool := 0x9FFFF00000 ≤ pa && pa < 0xA000000000
/-- Lines that a list of written bytes touches, without repeats. -/
def linesOf (cs : List Host.Cell) : List Nat := (cs.map fun c => lineOf c.1).eraseDups
def bumpVersions (v : Tab W32) : List Nat → Tab W32
  | [] => v
  | l :: r => bumpVersions (v.put l (v.getD l 0 + 1)) r
/-- The name of a line with the kind of its page, as validation sets and snapshots keep it. -/
def verKey (line : Nat) (ms : Bool) : Nat := 2 * line + bnat ms
/-- The versions of lines that are about to move, unless the cycle has noted them. -/
def noteVersions (v : Tab W32) (ms : Bool) (n : List (Nat × W32)) : List Nat → List (Nat × W32)
  | [] => n
  | l :: r => noteVersions v ms (if n.any fun e => e.1 == verKey l ms then n else n ++ [(verKey l ms, v.getD l 0)]) r
/-- 8-byte words of which every byte is written: their poison clears (22 R379). -/
def wholeWords (cs : List Host.Cell) : List Nat :=
  ((cs.map fun c => c.1 / 8).eraseDups).filter fun w => (List.range 8).all fun k => cs.any fun c => c.1 == 8 * w + k
def State.dropL1 (s : State) (cl : Nat) (ls : List Nat) : State :=
  { s with cores := s.cores.map fun e => if clusterOf e.1 = cl then (e.1, { e.2 with l1 := e.2.l1.filter fun x => !ls.contains x.line }) else e }
/-- Bytes of memory written, with no version counted. -/
def State.rawWrite (s : State) (cs : List Host.Cell) : State :=
  { s with mem := cs.foldl (fun m c => memSet m c.1 c.2) s.mem, poison := s.poison.filter fun w => !(wholeWords cs).contains w }
/-- One write performed at points of coherence: bytes, one version step per line, L1 copies of the cluster dropped; `ms`: the points
are those of a memory-side page. -/
def State.pocWrite (s : State) (cs : List Host.Cell) (cl : Option Nat) (ms : Bool) : State :=
  let cs := cs.filter fun c => !crashMB c.1
  let ls := linesOf cs
  let s := { s.rawWrite cs with
    vers := if ms then s.vers else bumpVersions s.vers ls, mvers := if ms then bumpVersions s.mvers ls else s.mvers,
    vers0 := noteVersions (if ms then s.mvers else s.vers) ms s.vers0 ls }
  match cl with
  | some c => s.dropL1 c ls
  | none => s
def State.pocBytes (s : State) (pa n : Nat) : List Byte := memBytes s.mem pa n
/-- The version of a line at its L2 home, or at its LLC (08 R155, R157). -/
def State.version (s : State) (line : Nat) (ms : Bool) : W32 := if ms then s.mvers.getD line 0 else s.vers.getD line 0
def State.versionOf (s : State) (key : Nat) : W32 := s.version (key / 2) (bit key 0)
/-- The read of a line's version, named by its key, is an access by 08 R148 served at the line's home slice; a memory-side line has none (12 R234). -/
def State.versionRead (s : State) (key : Nat) : State := if bit key 0 then s else s.l2Touch (128 * (key / 2)) false
def State.versionReads (s : State) (keys : List Nat) : State := keys.foldl (fun s k => s.versionRead k) s
/-- A line's version as the cycle began. -/
def State.versionStart (s : State) (line : Nat) (ms : Bool) : W32 := (assocGet s.vers0 (verKey line ms)).getD (s.version line ms)

/-! ## Scratchpads -/

/-- A scratchpad byte as engines find it, the writes of this cycle included. -/
def Core.spByte (k : Core) (a : Nat) : Byte :=
  match k.late.reverse.find? fun x => x.off == a with
  | some x => x.b
  | none => memByte k.sram a
def State.spBytes (s : State) (c off n : Nat) : List Byte := (List.range n).map fun i => (s.core c).spByte (off + i)
/-- Bytes written at once: deliveries, and bytes that a tile counts (15 R289). -/
def State.spWrite (s : State) (c off : Nat) (bs : List Byte) : State :=
  let s := s.updCore c fun k =>
    { k with sram := memWrite k.sram off bs, late := k.late.filter fun x => !(decide (off ≤ x.off) && decide (x.off < off + bs.length)) }
  let ws := wholeWords ((List.range bs.length).map fun i => (off + i, (0 : Byte)))
  { s with sramPoison := s.sramPoison.filter fun x => !(x.1 == c && ws.contains x.2) }
/-- Bytes that an engine writes in this cycle and that loads take from the next cycle on (15 R286, 20 R355). -/
def State.spLate (s : State) (c off : Nat) (bs : List (Byte × Bool)) (firm : Bool) : State :=
  s.updCore c fun k => { k with late := k.late ++ ((List.range bs.length).zip bs).map fun x => ⟨off + x.1, x.2.1, firm, x.2.2⟩ }
/-- The engine writes of a cycle have their place in the scratchpad. -/
def Core.landLate (k : Core) : Core := { k with sram := k.late.foldl (fun m x => memSet m x.off x.b) k.sram, late := [] }
/-- Poisoned words of a core's scratchpad after its engine writes of the cycle. -/
def latePoison (c : Nat) (k : Core) (l : List (Nat × Nat)) : List (Nat × Nat) :=
  let ws := wholeWords (k.late.map fun x => (x.off, x.b))
  let l := l.filter fun x => !(x.1 == c && ws.contains x.2)
  ((k.late.filter (·.bad)).map fun x => (c, x.off / 8)).foldl (fun l w => if l.contains w then l else l ++ [w]) l
/-- Every engine write of the cycle lands. -/
def State.landLate (s : State) : State :=
  { s with sramPoison := s.cores.foldl (fun l e => latePoison e.1 e.2 l) s.sramPoison, cores := s.cores.map fun e => (e.1, e.2.landLate) }
/-- The engine writes of the cycle land in one core's scratchpad. -/
def State.landLateAt (s : State) (c : Nat) : State :=
  { s with sramPoison := latePoison c (s.core c) s.sramPoison }.updCore c Core.landLate
/-- A code table that arrived in this cycle takes effect, and `swr` values of the cycle stand (11 R227). -/
def Core.landCtab (k : Core) : Core :=
  let b := k.ctabNew.getD (k.ctab, k.ctabhi)
  { k with ctab := k.ctabW.1.getD b.1, ctabhi := k.ctabW.2.getD b.2, ctabNew := none, ctabW := (none, none) }

/-! ## Time -/

def ptpUnit : Nat := 3000000
def State.ptpNs (s : State) : Nat := s.ptp / ptpUnit
def State.ptpSec (s : State) : Nat := s.ptpNs / 1000000000
def State.ptpFrac (s : State) : Nat := s.ptpNs % 1000000000
/-- PTP time as seconds [79:32] and nanoseconds [31:0] (02 R43). -/
def State.ptp80 (s : State) : BitVec 80 := BitVec.ofNat 80 (s.ptpSec * 2 ^ 32 + s.ptpFrac)

/-! ## Logs (22 R381) -/

def State.faultLog (s : State) (p : Nat) (src : Nat) (addr : W64) (lid id : W32) (cause : Byte) (core : Nat) : State :=
  let x := s.part p
  s.setPart p { x with faultLog := x.faultLog.put (x.faultCount.toNat % 64) ⟨addr, lid, id, cause, src, core, s.ptp80⟩,
                       faultCount := x.faultCount + 1 }
def State.errLog (s : State) (src : Nat) (addr : W64) (lid id : W32) (cause : Byte) (core : Nat) : State :=
  let m := s.mgmt
  { s with mgmt := { m with errLog := m.errLog.put (m.errCount.toNat % 1024) ⟨addr, lid, id, cause, src, core, s.ptp80⟩,
                            errCount := m.errCount + 1 } }

/-! ## Program counters (04 R65, R68, R69) -/

def pcLine (pc : W64) : Nat := bits pc.toNat 6 46
def pcSlot (pc : W64) : Nat := bits pc.toNat 0 3
def mkPc (line slot : Nat) : W64 := w64 (line % 2 ^ 46 * 64 + slot)
/-- First slots of the pairs of a template. -/
def pairsOf (tmpl : Nat) : List Nat :=
  match tmpl with
  | 1 => [0] | 2 => [1] | 3 => [2] | 4 => [3] | 5 => [0, 2] | 6 => [0, 3] | 7 => [1, 3] | _ => []
/-- First slot and number of slots of the bundle that holds `slot`. -/
def bundleAt (tmpl slot : Nat) : Nat × Nat :=
  if (pairsOf tmpl).contains slot then (slot, 2)
  else if slot > 0 && (pairsOf tmpl).contains (slot - 1) then (slot - 1, 2) else (slot, 1)
/-- The PC after a bundle of a line. -/
def pcAfter (line slot n : Nat) : W64 := if slot + n < 5 then mkPc line (slot + n) else mkPc (line + 1) 0

/-! ## Words of a fetch line (04 R64) -/

def lineWord (img : BitVec 512) (slot : Nat) : W96 := img.extractLsb' (96 * slot) 96
def lineTmpl (img : BitVec 512) : Nat := bits img.toNat 485 3
def lineTgt (img : BitVec 512) (slot : Nat) : Bool := img.getLsbD (480 + slot)
def lineZero (img : BitVec 512) : Bool := bits img.toNat 488 8 == 0
def halfXor (n : Nat) : Nat → Nat
  | 0 => 0
  | k + 1 => n % 65536 ^^^ halfXor (n / 65536) k
def lineParity (img : BitVec 512) : Bool := bits img.toNat 496 16 == halfXor img.toNat 30
/-- No TGT bit on the second slot of a pair. -/
def lineTargets (img : BitVec 512) : Bool := (pairsOf (lineTmpl img)).all fun a => !lineTgt img (a + 1)

/-! ## Gangs -/

/-- Package cores of a gang of `n` whose member with index `j` sits on core `c`. -/
def gangCores (c j n : Nat) : List Nat := (List.range n).map fun i => c - j + i
/-- The gang of a thread disbands (06 R115). A member that still has the bundle of the leader's previous rotation to issue in this
cycle leaves after it; a bundle the leader issued in this cycle is not issued. -/
def leaveGang (cycle : Nat) (t : Thread) : Thread :=
  match t.gang with
  | none => t
  | some g =>
    let q := g.queue.filter fun b => decide (b.cycle < cycle)
    if q.isEmpty then { t with gang := none } else { t with gang := some { g with queue := q, leaving := true } }
def State.disbandGang (s : State) (t : ThreadId) : State :=
  match (s.thr t).gang with
  | none => s
  | some g =>
    let s := (gangCores t.core g.idx g.size).foldl (fun s c => s.updThr ⟨c, t.slot⟩ (leaveGang s.cycle)) s
    s.updThr t fun x => { x with gang := none }

/-! ## Ending threads, faulting tasks (22 R363) -/

/-- A task faults: the launch keeps the first cause and task (02 R43, 22 R363). -/
def State.faultTask (s : State) (t : TaskId) (cause : Byte) : State :=
  let s := s.updTask t fun x => { x with faulted := true }
  s.updLaunch t.part t.lid fun l =>
    if l.tasks > 0 && !l.faulted then { l with fcause := cause, ftask := w32 t.idx, faulted := true } else l

def endThr (t : Thread) : Thread := { t with status := .ended, pend := none, gang := none, arrive := .plain, parkDue := none }
def State.endThread (s : State) (t : ThreadId) : State := (s.disbandGang t).updThr t endThr

/-! ## Trap records (22 R361, R366) -/

def TrapRec.bytes (r : TrapRec) : List Byte :=
  toBytes 8 (r.slot + 8 * bnat r.ganged + 256 * r.cause.toNat) ++ toBytes 8 r.pc.toNat ++ toBytes 8 r.addr.toNat ++ toBytes 8 r.info.toNat
def recBytes : Option TrapRec → List Byte
  | some r => r.bytes
  | none => toBytes 32 0
def crashAddr (c : Nat) : Nat := 0x9FFFF00000 + 256 * c
/-- The crash record of a core (22 R366). -/
def crashRecord (s : State) (c : Nat) (third : TrapRec) : List Byte :=
  let k := s.core c
  let t := k.task
  toBytes 4 0x43525348 ++ toBytes 2 c ++ toBytes 2 third.part ++ toBytes 4 k.crashes.toNat
    ++ toBytes 4 ((t.map (·.lid)).getD 0) ++ toBytes 4 ((t.map (·.idx)).getD 0) ++ toBytes 4 0 ++ toBytes 8 (s.cycle - k.cycle0)
    ++ toBytes 4 s.ptpFrac ++ toBytes 6 s.ptpSec ++ toBytes 6 0 ++ recBytes k.bank0 ++ recBytes k.bank1 ++ recBytes (some third)
    ++ toBytes 112 0

/-! ## Stopping the jobs of a task (10 R207, 13 R258) -/

/-- Status word of a copy job (10 R205). -/
def copyStatus (code cause rxfail doneB : Nat) (excess : Bool) : W64 :=
  w64 (code + 256 * bnat excess + 2 ^ 16 * cause + 2 ^ 24 * rxfail + 2 ^ 32 * doneB)
def setDone (js : List LiveJob) (id : Nat) (st : W64) (cycle : Nat) : List LiveJob :=
  js.map fun j => if j.id = id then { j with done := some st, doneAt := cycle } else j
/-- The status of a job that stopped before this cycle (06 R108). -/
def LiveJob.doneBy (j : LiveJob) (cycle : Nat) : Option W64 := if j.doneAt < cycle then j.done else none
/-- The submitting thread of a copy job learns its status. -/
def State.copyDone (s : State) (j : CopyJob) (st : W64) : State :=
  s.updThr j.owner.thread fun t => { t with jobs := setDone t.jobs j.id st s.cycle }
/-- Resources of a release not yet free: physical slots and accumulators. -/
def MtxJob.freed (j : MtxJob) : List Nat × List Nat :=
  match j.op with
  | .free os zs => (os, zs)
  | _ => ([], [])
def MtxJob.isFree (j : MtxJob) : Bool :=
  match j.op with
  | .free _ _ => true
  | _ => false
/-- Physical operand slots and accumulators become free. -/
def Cluster.release (k : Cluster) (os zs : List Nat) : Cluster :=
  { k with oslots := os.foldl (fun o p => o.del p) k.oslots, accs := zs.foldl (fun o p => o.del p) k.accs }
/-- Releases at the head of the queue free their resources: every job submitted before them has completed (13 R239). -/
def freeHeads (k : Cluster) : List MtxJob → Cluster
  | [] => { k with mtxq := [] }
  | j :: r => if j.isFree then freeHeads (k.release j.freed.1 j.freed.2) r else { k with mtxq := j :: r }
/-- Every job of a task stops at once with CODE 4, those withdrawn among them; entries already made drain. What its releases were to free is
free, and so are releases of other tasks that its jobs held back (13 R239, R258). -/
def State.stopJobs (s : State) (t : TaskId) (cl : Nat) : State :=
  let k := s.cluster cl
  let held := ((s.task? t).map (·.held)).getD ([], [])
  let mine := (k.copyq.filter fun j => j.owner.task = t) ++ held.1
  let s := mine.foldl (fun s j => s.copyDone j (copyStatus 4 0 j.rxfail j.doneBytes j.excess)) s
  let mm := (k.mtxq.filter fun j => j.owner.task = t) ++ held.2
  let s := mm.foldl (fun s j => s.updThr j.owner.thread fun t => { t with mjobs := setDone t.mjobs j.id 4 s.cycle }) s
  let s := s.updTask t fun x => { x with held := ([], []) }
  s.updCluster cl fun k =>
    let k := k.release (mm.flatMap fun j => j.freed.1) (mm.flatMap fun j => j.freed.2)
    let k := { k with copyq := k.copyq.filter fun j => j.owner.task != t, smpq := k.smpq.filter fun r => !(s.core r.thread.core).task == some t }
    freeHeads k (k.mtxq.filter fun j => j.owner.task != t)

/-! ## Taking a trap (22 R361 to R365) -/

/-- The cores that save one task show one spill status. -/
def State.setSpill (s : State) (t : Option TaskId) (x : Spill) : State :=
  { s with cores := s.cores.map fun e => if e.2.spill.state != 0 && e.2.spill.task = t then (e.1, { e.2 with spill := x }) else e }
/-- A task under pre-emption whose save has not begun is not saved: it stays on its cores until it retires (22 R365, log 80). -/
def Task.stays (x : Task) : Task :=
  match x.place, x.image with
  | .leaving cl b0, none => { x with place := .resident cl b0, held := ([], []) }
  | _, _ => x
/-- A task that is being saved loses its unsaved image and faults. -/
def State.loseImage (s : State) (c : Nat) (cause : Byte) : State :=
  let sp := (s.core c).spill
  match sp.task with
  | none => s
  | some t =>
    let s := (s.faultTask t cause).updTask t fun x => { x with place := .retired, image := none, onames := [], znames := [] }
    let s := s.updPart t.part fun p => { p with frames := if sp.cause = 0x91 then p.frames else p.frames.filter (· != sp.frame) }
    s.setSpill (some t) .reset
/-- Slot 7 stops: it holds no record and issues nothing (22 R364). -/
def stopSeven (t : Thread) : Thread := { t with status := .empty, pend := none, skip := 0, arrive := .plain }
/-- A tile whose fill or drain has been stopped: the fill has failed, and so has the drain (08 R160); a drain of a send goes on (18 R336). -/
def Tile.stop (t : Tile) (sending : Bool) : Tile :=
  match t.st with
  | .filling => { t with st := .empty, arrived := 0 }
  | .draining => if sending then t else { t with st := .ready }
  | _ => t
/-- The entries of a core from which sends have still to be read. -/
def State.sendTiles (s : State) (c : Nat) : List Nat :=
  (s.part ((s.core c).task.map (·.part) |>.getD 0)).tx.filterMap fun x => if x.thread.core = c && !x.final && !x.sent then x.tile else none
/-- An `xlinv` whose thread is no longer on its core (22 R372, R373). -/
def Partition.dropXl (p : Partition) (c : Nat) : Partition := { p with xl := p.xl.filter fun o => o.1.map (·.core) != some c }
/-- The third-level reset of a core (22 R365). -/
def State.thirdReset (s : State) (c : Nat) (third : TrapRec) : State :=
  let s := s.updCore c fun k => { k with crashes := k.crashes + 1 }
  let s := s.rawWrite (((List.range 256).zip (crashRecord s c third)).map fun e => (crashAddr c + e.1, e.2))
  let s := s.errLog 10 0 (w32 (((s.core c).task.map (·.lid)).getD 0)) 0 third.cause c
  let s := { s with out := s.out ++ [Out.coreReset c] }
  let s : State := (s.blockOf c).foldl (fun (s : State) b =>
    let s : State := (List.range 7).foldl (fun (s : State) k =>
      if (s.thr ⟨b, k⟩).status = .empty then s else s.updThr ⟨b, k⟩ endThr) s
    let s : State := s.updThr ⟨b, 7⟩ stopSeven
    let tx := s.sendTiles b
    let s : State := { s with parts := s.parts.map fun (e : Nat × Partition) => (e.1, e.2.dropXl b) }
    s.updCore b fun k => { k with sb := [], queue := [], bank0 := none, bank1 := none, tiles := k.tiles.map fun e => (e.1, e.2.stop (tx.contains e.1)) }) s
  let s := match (s.core c).task with
    | some t => ((s.faultTask t third.cause).stopJobs t (clusterOf c)).updTask t Task.stays
    | none => s
  let s := (s.loseImage c third.cause).updThr ⟨c, 7⟩ stopSeven
  { s with sramPoison := s.sramPoison.filter (·.1 != c) }.updCore c fun k => { k with sram := [], late := [], l0 := [], l1 := [], cc := [], shape := [], bank0 := none, bank1 := none, queue := [] }

/-- A record appended to the trap queue; with EN = 0 the thread ends instead (22 R361, R363), and a spill record faults the task whose
image cannot be written (log 60). -/
def State.appendRec (s : State) (c : Nat) (r : TrapRec) : State :=
  if (s.part r.part).scb.en then s.updCore c fun k => { k with queue := k.queue ++ [r] }
  else if r.slot = 7 then s.loseImage c r.cause
  else
    let s := s.updThr ⟨c, r.slot⟩ endThr
    match (s.core c).task with
    | some t => s.faultTask t r.cause
    | none => s

/-- Parks a worker thread with a record (22 R361). -/
def State.park (s : State) (t : ThreadId) (r : TrapRec) : State :=
  let s := s.disbandGang t
  let s := s.updThr t fun x => { x with status := .parked, pend := none, gang := none, arrive := .plain, skip := 0, pc := r.pc }
  s.appendRec t.core r

/-- The trap of slot 7: bank 1 and vector 1, or the third-level reset (22 R365). -/
def State.superTrap (s : State) (c : Nat) (r : TrapRec) : State :=
  if (s.core c).bank1.isSome then s.thirdReset c r
  else
    let s := s.updCore c fun k => { k with bank1 := some r }
    s.updThr ⟨c, 7⟩ fun x => { x with pc := (s.part r.part).scb.vec + 64, pend := none, skip := 0, arrive := .vector, line := none, pref := none, region := { x.region with inside := false } }

/-- The trap of any thread. -/
def State.trapThread (s : State) (t : ThreadId) (pc : W64) (cause : Byte) (addr info : W64) (w o : W96) : State :=
  let r : TrapRec :=
    { cause := cause, pc := pc, addr := addr, info := info, slot := t.slot, ganged := (s.thr t).gang.isSome, cycle := s.cycle,
      part := s.partOf t.core t.slot, task := (s.core t.core).task, word := w, other := o }
  if t.slot = 7 then s.superTrap t.core r else s.park t r

/-- The word at a PC and the other one of its bundle, in the line image that the core fetched; zero where it holds none. -/
def State.wordsAt (s : State) (t : ThreadId) (pc : W64) : W96 × W96 :=
  let l0 := ((s.core t.core).l0.find? fun e => e.1 = pcLine pc).map fun e => e.2.1
  let own := (s.thr t).line.bind fun e => if e.1 = pcLine pc then some e.2 else none
  match own, l0 with
  | some img, _ | none, some img =>
    let (a, n) := bundleAt (lineTmpl img) (pcSlot pc)
    (lineWord img (pcSlot pc), if n = 2 then lineWord img (2 * a + 1 - pcSlot pc) else 0)
  | none, none => (0, 0)
/-- A trap that reports the thread's next bundle (13 R254, 20 R354). -/
def State.trapAfter (s : State) (t : ThreadId) (pc : W64) (cause : Byte) (addr info : W64) : State :=
  let w := s.wordsAt t pc
  s.trapThread t pc cause addr info w.1 w.2

/-- TAKING A TRAP at the issuing thread's turn: the bundle takes no effect, the record holds cause, PC, address and detail. -/
def State.takeTrap (s : State) (cause : Byte) (addr info : W64) : State :=
  let s := s.trapThread s.me s.cur.ipc cause addr info s.cur.word s.cur.other
  { s with cur := { s.cur with fate := .trapped } }

/-! ## Finishing an instruction -/

/-- The outcome of an instruction at its turn. -/
def finish (r : Res Unit) : Host.Outcome State Fault Refusal :=
  match r with
  | .ok _ s => .next s
  | .pass s => .next { s with cur := { s.cur with fate := .passed } }
  | .trap s c a i => .next (s.takeTrap c a i)
/-- An instruction that takes effect only if bit 0 of its guard is 1 (04 R76). -/
def guarded (h : Hdr) (s : State) (f : State → Res Unit) : Host.Outcome State Fault Refusal :=
  if s.guardOn h then finish (f s) else .next s

/-- The thread waits in an issued instruction: the registers and flags as before the bundle stay with it (22 R372). -/
def State.wait (s : State) (g : Stage) : State :=
  let o := s.opTh
  s.updTh fun t => { t with pend := some ⟨s.cur.ipc, s.cur.npc, o.regs, o.sticky, o.mode, s.cur.word, s.cur.other, g⟩ }

/-- The stage in which a thread waits. -/
def State.stageOf (s : State) (t : ThreadId) : Option Stage := (s.thr t).pend.map fun p => p.stage
/-- A thread stops waiting without a result; a sub-tile that it owns stays with it (07 R140). -/
def Thread.dropPend (t : Thread) : Thread :=
  let due := match t.pend.map (·.stage) with
    | some (.data r) => r.owned.or t.tileDue
    | _ => t.tileDue
  { t with pend := none, tileDue := due }
/-- A trap of a thread that waits in an issued instruction: the bundle takes no effect. -/
def State.trapPend (s : State) (t : ThreadId) (cause : Byte) (addr info : W64) : State :=
  match (s.thr t).pend with
  | none => s
  | some p =>
    (s.updThr t fun x => { x.dropPend with regs := p.regs, sticky := p.sticky, mode := p.mode }).trapThread t p.ipc cause addr info p.word p.other

/-! ## Returning from a trap (22 R368) -/

/-- The thread leaves parking; its first issue is a control transfer to `target` without its TGT check. -/
def State.unpark (s : State) (t : ThreadId) (target : W64) : State :=
  s.updThr t fun x =>
    { x with status := .running, pc := target, arrive := .resume, line := none, pref := none, pend := none, skip := 0, sigRead := none,
             region := { x.region with inside := false }, sig := { x.sig with valid := false } }
/-- Slot 7 becomes idle. -/
def State.idle7 (s : State) (c : Nat) : State :=
  (s.updCore c fun k => { k with bank0 := none, bank1 := none }).updThr ⟨c, 7⟩ stopSeven

end Sys2Proof.Machine
end

