-- ==== Sys2Proof/Machine/Memory.lean ====
section
/-! DEFINITION. Memory as programs see it: page tables and translation, the checks of every access, constant windows, loads and
stores through the buffers of the reference machine, acquires and releases. -/

namespace Sys2Proof.Machine

/-! ## Page tables (08 R149, R150) -/

/-- Bytes a leaf of a level maps. -/
def pageSize (lvl : Nat) : Nat :=
  match lvl with
  | 1 => 2 ^ 30 | 2 => 2 ^ 24 | _ => 2 ^ 18
def levelIdx (lvl va : Nat) : Nat :=
  match lvl with
  | 0 => bits va 39 13 | 1 => bits va 30 9 | 2 => bits va 24 6 | _ => bits va 18 6
/-- End of HBM. -/
def hbmEnd : Nat := 0xA000000000
def pteAddr (e : Nat) : Nat := bits e 12 36 * 4096
/-- A valid entry that is malformed at its level. -/
def pteBad (lvl e : Nat) : Bool :=
  bits e 48 11 != 0 || bits e 6 6 != 0 ||
  (if bit e 1 then lvl == 0 || pteAddr e % pageSize lvl != 0 || hbmEnd ≤ pteAddr e || bits e 60 4 ≥ 9
   else lvl == 3 || bits e 59 5 != 0 || bits e 2 4 != 0)

inductive Walk where
  /-- A leaf, the bytes it maps, and the physical addresses of the entries read. -/
  | leaf (e : W64) (size : Nat) (reads : List Nat)
  | fault (info : W64) (reads : List Nat)
  deriving DecidableEq, Repr

/-- The rest of a walk from the table at `base`; `k` levels remain. -/
def walkFrom (m : List Host.Cell) (va : Nat) : Nat → Nat → List Nat → Walk
  | 0, _, reads => .fault 0 reads
  | k + 1, base, reads =>
    let lvl := 3 - k
    let a := base + 8 * levelIdx lvl va
    let e := ofBytes (memBytes m a 8)
    let reads := reads ++ [a]
    if !bit e 0 then .fault (w64 lvl) reads
    else if pteBad lvl e then .fault (w64 (lvl + 4)) reads
    else if bit e 1 then .leaf (w64 e) (pageSize lvl) reads
    else walkFrom m va k (pteAddr e) reads
def walk (m : List Host.Cell) (root va : Nat) : Walk := walkFrom m va 4 root []

def Pg.fmt (p : Pg) : Nat := bits p.leaf.toNat 60 4
def Pg.mside (p : Pg) : Bool := bit p.leaf.toNat 59
def mkPg (va size : Nat) (e : W64) : Pg := ⟨va / size * size, size, pteAddr e.toNat, e⟩

/-- The first candidate whose free bit is 1, else the last (08 R151). -/
def pick {α : Type} (free : Nat) (d : α) : List α → α × Nat
  | [] => (d, free)
  | [x] => (x, free)
  | x :: r => if Config.freeBit free then (x, free + 1) else pick (free + 1) d r

/-- The page of an address in a cluster: cached translations and the tables as they stand; where they differ, either (log 9). -/
def State.lookup (s : State) (cl p va : Nat) : (Pg ⊕ W64) × State :=
  let w := walk s.mem (s.part p).desc.ptroot va
  let cached := ((s.cluster cl).tlb.filter fun t => t.part == p && decide (t.base ≤ va) && decide (va < t.base + t.size)).map
    fun t => Walk.leaf t.leaf t.size []
  let now := match w with
    | .leaf e n _ => Walk.leaf e n []
    | .fault i _ => Walk.fault i []
  let cands := if cached.contains now then cached else cached ++ [now]
  let (c, f) := pick s.free now cands
  let s := { s with free := f }
  if cached.contains c then
    match c with
    | .leaf e n _ => (.inl (mkPg va n e), s)
    | .fault i _ => (.inr i, s)
  else
    match w with
    | .leaf e n reads =>
      let s := reads.foldl (fun s a => s.l2Touch a false) s
      (.inl (mkPg va n e), s.updCluster cl fun k => { k with tlb := k.tlb ++ [⟨p, va / n * n, n, e⟩] })
    | .fault i reads => (.inr i, reads.foldl (fun s a => s.l2Touch a false) s)

/-! ## Kinds of access -/

/-- Who accesses: core, partition, level. -/
structure Agent where
  core : Nat
  part : Nat
  super : Bool
  deriving DecidableEq, Repr
def State.agent (s : State) : Agent := ⟨s.cur.core, s.myPart, s.super⟩

structure Kind where
  rd : Bool
  wr : Bool
  fx : Bool
  deriving DecidableEq, Repr
def Kind.load : Kind := ⟨true, false, false⟩
def Kind.store : Kind := ⟨false, true, false⟩
def Kind.both : Kind := ⟨true, true, false⟩
def Kind.fetch : Kind := ⟨false, false, true⟩
def Kind.code (k : Kind) : Nat := bnat k.rd + 2 * bnat k.wr + 4 * bnat k.fx

/-- TRAPINFO of a leaf that does not permit an access; `none` where it does (08 R150). -/
def leafFail (e : W64) (k : Kind) (super : Bool) : Option W64 :=
  let u := !super && !e.getLsbD 2
  if (k.rd && !e.getLsbD 3) || (k.wr && !e.getLsbD 4) || (k.fx && !e.getLsbD 5) || u
  then some (w64 (k.code + 8 * bnat u)) else none

/-! ## The device region (08 R147) -/

def devBase : Nat := 0xFFFF000000000
def capBase : Nat := 0xFFFF200000000
/-- Bytes of a scratchpad. -/
def Core.spLen (k : Core) : Nat := k.sp * 65536

/-- The window that holds all of [va, va + n), if one does. -/
def State.window (s : State) (c va n : Nat) : Option Place :=
  let k := s.core c
  let o := va - devBase
  if va < devBase then none
  else if o < 0x100000000 then if o + n ≤ k.spLen then some (.sp c o) else none
  else if o < 0x200000000 then
    let b := (o - 0x100000000) / 0x100000
    let x := (o - 0x100000000) % 0x100000
    match (s.blockOf c)[b]? with
    | some m => if x + n ≤ k.spLen then some (.sp m x) else none
    | none => none
  else if capBase ≤ va && va + n ≤ capBase + 4096 then some (.cap (va - capBase))
  else none

/-- Translates the pages of [va, fin) in increasing order; `k` bounds their number. -/
def State.pages (s : State) (x : Agent) (kd : Kind) (fin : Nat) : Nat → Nat → List Pg → Res (List Pg)
  | 0, _, acc => .ok acc s
  | k + 1, va, acc =>
    if fin ≤ va then .ok acc s else
    let (r, s) := s.lookup (clusterOf x.core) x.part va
    match r with
    | .inr i => .trap s 0x10 (w64 va) i
    | .inl pg =>
      match leafFail pg.leaf kd x.super with
      | some i => .trap s 0x11 (w64 va) i
      | none => State.pages s x kd fin k (pg.va + pg.size) (acc ++ [pg])

/-- Checks 1 to 4 of R148 on `n` bytes at `a`; `noDev`: the access may not act on the device region. -/
def State.access (s : State) (x : Agent) (a : W64) (n : Nat) (kd : Kind) (noDev : Bool) : Res Place :=
  let va := a.toNat
  if 2 ^ 52 < va + n || 2 ^ 52 ≤ va then .trap s 0x12 a 0
  else if devBase < va + n then
    match s.window x.core va n with
    | none => .trap s 0x12 a 0
    | some w =>
      if noDev then .trap s 0x11 a 0
      else match w with
        | .cap o => if kd.wr then .trap s 0x11 a (w64 kd.code) else .ok (.cap o) s
        | w => .ok w s
  else (s.pages x kd (va + n) (n / 2 ^ 18 + 2) va []).andThen fun pgs s =>
    match pgs with
    | [] => .ok (.mem []) s
    | p :: r => if r.all fun q => q.fmt == p.fmt && q.mside == p.mside then .ok (.mem pgs) s else .trap s 0x12 a 0

/-- `access` with a natural alignment as check 5. -/
def State.accessAligned (s : State) (x : Agent) (a : W64) (n align : Nat) (kd : Kind) (noDev : Bool) : Res Place :=
  (s.access x a n kd noDev).andThen fun p s => if a.toNat % align = 0 then .ok p s else .trap s 0x13 a 0

/-- Physical address of a virtual one among translated pages. -/
def paOf (pgs : List Pg) (va : Nat) : Nat :=
  match pgs.find? fun p => decide (p.va ≤ va) && decide (va < p.va + p.size) with
  | some p => p.pa + (va - p.va)
  | none => va
/-- Where byte `va` of an access lies: physical address, scratchpad offset, or list offset. `first` is its first address. -/
def Place.at (p : Place) (first va : Nat) : Nat :=
  match p with
  | .sp _ o => o + (va - first)
  | .cap o => o + (va - first)
  | .mem pgs => paOf pgs va
def Place.dest (p : Place) : Option Nat :=
  match p with
  | .sp c _ => some c
  | _ => none
def Place.isMem (p : Place) : Bool :=
  match p with
  | .mem _ => true
  | _ => false
def Place.mside (p : Place) : Bool :=
  match p with
  | .mem (q :: _) => q.mside
  | _ => false
def Place.fmt (p : Place) : Nat :=
  match p with
  | .mem (q :: _) => q.fmt
  | _ => 0

/-! ## The capability list (00 R8 to R11) -/

/-- ID and FIELDS of the twelve entries (00 R10, R82, 13 R259, 09 R185, 20 R358, 08 R156, 18 R338, 14 R275, 15 R298, 22 R371, 10 R212,
08 R165, 16 R307). -/
def capTable : List (Nat × List Nat) :=
  [(1, [3, 2, 8, 0, 0xFF, 0, 0, 0, 0x1F, 0, 0, 0]), (2, [3, 128, 0xFE, 3, 32, 8, 56, 32, 64, 0, 128, 0]),
   (3, [0xFF, 1, 0x1F, 3, 16, 16, 3, 0]), (4, [12, 24, 16, 7, 0, 1, 4, 64, 10, 64, 3, 16]), (5, [32, 7, 16, 1]),
   (6, [8, 16, 0x17, 4, 64, 16, 64, 0, 8, 0x1D, 12, 16]), (7, [2, 128, 8, 4, 0xFF, 0x0F, 3, 128]), (8, [3, 16, 1, 0]),
   (9, [2, 7, 4, 3]), (10, [2, 4, 32, 4, 16, 32, 0, 0x24]), (11, [16, 8, 12, 16]), (12, [0x7F, 7, 1, 0])]
/-- Byte `o` of the capability list. -/
def capByte (o : Nat) : Byte :=
  match capTable[o / 32]? with
  | none => 0
  | some (id, f) =>
    let next := if o / 32 + 1 < capTable.length then 32 * (o / 32 + 1) else 0
    ((toBytes 2 id ++ [1, byte f.length] ++ toBytes 4 next ++ f.map byte)[o % 32]?).getD 0

/-! ## Reproducible mode: shingles (15 R292) -/

/-- The shingle that a task's writes go to: outside reproducible mode none. -/
def State.shingleOf (s : State) (t : Option Task) : Option (TaskId × W32) :=
  match t with
  | none => none
  | some t =>
    match s.launchOf t with
    | some l => if l.repro then some (t.id, t.phase) else none
    | none => none
/-- The shingle of a thread: the victim's while it works on a stolen sub-tile (03 R61). -/
def State.shingleFor (s : State) (x : ThreadId) : Option (TaskId × W32) :=
  match s.taskOn x.core with
  | none => none
  | some t =>
    (s.shingleOf (some t)).map fun sh =>
      match assocGet t.stealing ((s.core x.core).bidx, x.slot) with
      | some v => ({ t.id with idx := v }, sh.2)
      | none => sh
def State.myShingle (s : State) : Option (TaskId × W32) := s.shingleFor s.me
def State.shLines (s : State) (sh : TaskId × W32) : List ShLine :=
  match s.launch? sh.1.part sh.1.lid with
  | some l => (assocGet l.shingles (sh.1.idx, sh.2.toNat)).getD []
  | none => []
/-- A byte as a load finds it behind the buffers: in the task's shingle, or in memory. -/
def State.shByte (s : State) (sh : Option (TaskId × W32)) (va pa : Nat) : Byte :=
  match sh with
  | none => memByte s.mem pa
  | some k =>
    match (s.shLines k).find? fun l => l.line == va / 128 && l.mask.getLsbD (va % 128) with
    | some l => l.data.extractLsb' (8 * (va % 128)) 8
    | none => memByte s.mem pa

/-- Whether a byte of the task's shingle lies in a word with poison (22 R379); `none`: it is not in the shingle. -/
def State.shBad (s : State) (sh : Option (TaskId × W32)) (va : Nat) : Option Bool :=
  sh.bind fun k => ((s.shLines k).find? fun l => l.line == va / 128 && l.mask.getLsbD (va % 128)).map fun l =>
    l.bad.extractLsb' (va % 128 / 8 * 8) 8 != 0

/-! ## Looking a unit up in the buffers (15 R278) -/

inductive Found where
  | all (bytes : List Byte) (id : Nat) (bad : Bool)
  | part
  | none
  deriving DecidableEq, Repr

def cellOf (e : Entry) (a : Nat) : Option Byte := (e.cells.find? (·.pa = a)).map (·.b)
/-- An access under shingle `sh` meets an entry: one of its own shingle, or one that goes to no shingle (15 R292). -/
def Entry.meets (e : Entry) (sh : Option (TaskId × W32)) : Bool := e.shingle.isNone || e.shingle = sh
/-- The youngest entry for the destination that covers any of the bytes decides. -/
def findYoungest (dest : Option Nat) (sh : Option (TaskId × W32)) (ads : List Nat) : List Entry → Found
  | [] => .none
  | e :: r =>
    if e.dest = dest && e.meets sh && e.cells.any (fun c => ads.contains c.pa) then
      if e.red.isNone && ads.all (fun a => e.cells.any (·.pa = a)) then
        .all (ads.map fun a => (cellOf e a).getD 0) e.id (e.cells.any fun c => c.bad && ads.contains c.pa)
      else .part
    else findYoungest dest sh ads r

/-- An entry as read by a thread, or by a job. -/
def Entry.readBy (e : Entry) (t : Option ThreadId) (job : Option Nat) : Entry :=
  let rs := match t with
    | some t => if e.readers.contains t then e.readers else e.readers ++ [t]
    | none => e.readers
  { e with readers := rs, jreaders := (job.map (addNew e.jreaders)).getD e.jreaders }
/-- Marks a block-buffer entry as read. -/
def State.markRead (s : State) (cl id : Nat) (t : Option ThreadId) (job : Option Nat) : State :=
  s.updCluster cl fun k => { k with bb := k.bb.map fun e => if e.id = id then e.readBy t job else e }
/-- Marks a store-buffer entry as read by a thread of its core. -/
def State.markSb (s : State) (id : Nat) (t : ThreadId) : State :=
  s.updCore t.core fun k => { k with sb := k.sb.map fun e => if e.id = id then e.readBy (some t) none else e }

/-- A byte that carries poison, with the source code of R379. -/
def State.poisonAt (s : State) (p : Place) (a : Nat) : Option Nat :=
  match p with
  | .sp c _ => if s.sramPoison.contains (c, a / 8) then some 2 else none
  | .cap _ => none
  | .mem _ =>
    if !s.poison.contains (a / 8) then none
    else if p.mside then some 4
    else if (s.l2.getD (setOf (lineOf a)) []).any (·.line = lineOf a) then some 3 else some 4

/-- A byte that carries poison as an access under shingle `sh` finds it. -/
def State.poisonOf (s : State) (sh : Option (TaskId × W32)) (p : Place) (va a : Nat) : Option Nat :=
  match (if p.isMem then s.shBad sh va else none) with
  | some b => if b then some 3 else none
  | none => s.poisonAt p a
/-- What a load of one unit gives: its bytes, and whether they came from a point of coherence. -/
structure UnitRead where
  bytes : List Byte
  fromPoc : Bool
  deriving DecidableEq, Repr

/-- A line's request at its slice (12 R234): none for a memory-side page, and none where `seen` holds the line. -/
def State.request (s : State) (p : Place) (seen : List Nat) (pa : Nat) (ev : Bool) : State :=
  if p.mside || seen.contains (lineOf pa) then s else s.l2Touch pa ev
/-- Step by step lookup of the bytes at the virtual addresses `vas` of one line, for a thread (15 R278). `seen` lists the physical lines
that the access has already requested. -/
def State.readUnit (s : State) (t : ThreadId) (sh : Option (TaskId × W32)) (p : Place) (first : Nat) (seen : List Nat) (ev : Bool)
    (vas : List Nat) : Res UnitRead :=
  let c := t.core
  let ads := vas.map (p.at first)
  let cl := clusterOf c
  match p with
  | .cap _ => .ok ⟨ads.map capByte, false⟩ s
  | _ =>
    match findYoungest p.dest sh ads (s.core c).sb.reverse with
    | .all b id _ => .ok ⟨b, false⟩ (s.markSb id t)
    | .part => .pass s
    | .none =>
      match (if p.isMem then findYoungest none sh ads (s.cluster cl).bb.reverse else .none) with
      | .all b id false => .ok ⟨b, false⟩ (s.markRead cl id (some t) none)
      | .all _ _ true => .trap (s.errLog 8 (w64 (vas.headD 0)) 0 0 0x80 c) 0x80 (w64 (vas.headD 0)) 3
      | .part => .pass s
      | .none =>
        let copy := if p.isMem && !p.mside then (s.core c).l1.find? fun e => e.line == lineOf (ads.headD 0) && e.sh == sh else none
        let s := if p.isMem && copy.isNone then s.request p seen (ads.headD 0) ev else s
        match (vas.zip ads).findSome? fun x => (s.poisonOf sh p x.1 x.2).map (x.1, ·) with
        | some (va, src) => .trap (s.errLog 8 (w64 va) 0 0 0x80 c) 0x80 (w64 va) (w64 src)
        | none =>
          match p, copy with
          | .sp m _, _ => .ok ⟨ads.map (memByte (s.core m).sram), false⟩ s
          | _, some e => .ok ⟨ads.map fun a => e.data.extractLsb' (8 * (a % 128)) 8, false⟩ s
          | _, none => .ok ⟨(vas.zip ads).map fun x => s.shByte sh x.1 x.2, true⟩ s

/-- Consecutive addresses of a rising list, together. -/
def runs : List Nat → List (List Nat)
  | [] => []
  | a :: r =>
    match runs r with
    | (b :: l) :: q => if b = a + 1 then (a :: b :: l) :: q else [a] :: (b :: l) :: q
    | q => [a] :: q
/-- Units of an access: all of it for a naturally aligned scalar; else the stretches of its bytes within aligned 4-byte words (10 R191). -/
def unitsOf (vas : List Nat) (vec : Bool) : List (List Nat) :=
  if !vec then [vas]
  else
    match vas with
    | [] => []
    | a :: _ =>
      (List.range ((vas.getLastD a) / 4 + 1 - a / 4)).flatMap fun i => runs (vas.filter fun x => x / 4 == a / 4 + i)

/-- The units of an access in order; with the bytes, the virtual lines read from points of coherence and the physical lines requested. -/
def State.readUnits (s : State) (t : ThreadId) (sh : Option (TaskId × W32)) (p : Place) (first : Nat) (ev : Bool) :
    List (List Nat) → List Byte → List Nat → List Nat → Res (List Byte × List Nat)
  | [], bs, vl, _ => .ok (bs, vl) s
  | vas :: r, bs, vl, seen =>
    (s.readUnit t sh p first seen ev vas).andThen fun u s =>
    let line := lineOf (p.at first (vas.headD 0))
    State.readUnits s t sh p first ev r (bs ++ u.bytes) (if u.fromPoc then addNew vl (vas.headD 0 / 128) else vl)
      (if u.fromPoc then addNew seen line else seen)

/-! ## Tile entries (08 R160, R161) -/

/-- The state of a tile at the start of the cycle (07 R143). -/
def State.tileStart (s : State) (c t : Nat) : TileSt := ((s.core c).tiles0.getD t .reset).st
def State.setTile (s : State) (c t : Nat) (x : Tile) : State := s.updCore c fun k => { k with tiles := k.tiles.put t x }
/-- A tile in a state, at the start of the cycle and now (07 R143, 08 R161). -/
def State.tileIs (s : State) (c t : Nat) (x : TileSt) : Bool := s.tileStart c t == x && ((s.core c).tiles.getD t .reset).st == x
/-- Bytes written into a scratchpad with their poison. -/
def State.spPut (s : State) (c off : Nat) (bs : List (Byte × Bool)) : State :=
  let s := s.spWrite c off (bs.map (·.1))
  let bad := ((List.range bs.length).zip bs).filterMap fun x => if x.2.2 then some (c, (off + x.1) / 8) else none
  { s with sramPoison := bad.foldl (fun l w => if l.contains w then l else l ++ [w]) s.sramPoison }
/-- Bytes that arrive for a tile (08 R160): the state, and whether some were excess or discarded. Its state is that at the start of the cycle,
with the arrivals of the cycle before it (08 R161). -/
def State.tileArrive (s : State) (c t off : Nat) (bs : List (Byte × Bool)) : State × Bool :=
  let x := (s.core c).tiles.getD t .reset
  if !s.tileIs c t .filling then (s, !bs.isEmpty)
  else
    let n := Nat.min bs.length (x.expect - x.arrived)
    let s := s.spPut c (256 * x.base + off) (bs.take n)
    let arr := x.arrived + n
    (s.setTile c t { x with arrived := arr, st := if x.expect ≤ arr then .ready else .filling }, decide (n < bs.length))
/-- The bytes of a frame reach the entry that it has filled, while its task is on the core; HITS counts it once they are written (10 R210). -/
def State.frameArrive (s : State) (c : Nat) (l : Landed) (cs : List Host.Cell) : State :=
  if (s.core c).task != some l.task || !s.tileIs c l.tile .filling then s
  else
    let s := (s.tileArrive c l.tile 0 (cs.map fun x => (x.2, false))).1
    s.updPart l.part fun x =>
      let r := x.flow.getD l.rule .reset
      { x with flow := x.flow.put l.rule { r with hits := r.hits + 1 } }

/-! ## Posted writes -/

/-- A posted write performed at its points of coherence (12 R234), or in its scratchpad. -/
def State.postedWrite (s : State) (w : Posted) : State :=
  match w.dest, w.land with
  | some c, some l => s.frameArrive c l w.cells
  | some c, none => w.cells.foldl (fun s x => s.spWrite c x.1 [x.2]) s
  | none, _ => (if w.mside then s else (linesOf w.cells).foldl (fun s l => s.l2Touch (128 * l) false) s).pocWrite w.cells none w.mside
/-- The oldest posted writes performed, up to number `k` (15 R277 move 9). -/
def State.settle (s : State) (k : Nat) : State :=
  let now := s.posted.filter fun w => decide (w.id < k)
  let s := now.foldl (fun s w => s.postedWrite w) s
  { s with posted := s.posted.filter fun w => !decide (w.id < k) }

/-- Lines of a task's L1 copies dropped: an acquire at BLOCK or wider (15 R282). -/
def State.dropBlockL1 (s : State) (c : Nat) : State := (s.blockOf c).foldl (fun s b => s.updCore b fun k => { k with l1 := [] }) s

/-- What precedes a global access of a thread in reproducible mode (15 R293): the laying of the previous phase, then an acquire. -/
def State.phaseGate (s : State) (global : Bool) : Res Unit :=
  if !global then done s else
  match s.myTask with
  | none => done s
  | some t =>
    match s.launchOf t with
    | none => done s
    | some l =>
      if !l.repro then done s
      else if l.laid < t.phase.toNat then .pass (s.updTh fun t => { t with ridgeWait := true })
      else if t.acqPhase then done ((s.dropBlockL1 s.cur.core).updTask t.id fun t => { t with acqPhase := false })
      else done s

/-- The whole line around a byte, as an L1 copy. -/
def State.lineCopy (s : State) (sh : Option (TaskId × W32)) (p : Place) (vline : Nat) (first : Nat) : L1Copy :=
  let pa := p.at first (if first / 128 = vline then first else 128 * vline)
  let base := pa / 128 * 128
  ⟨pa / 128, sh, vOfBytes ((List.range 128).map fun i => s.shByte sh (128 * vline + i) (base + i))⟩
/-- Lines that L1 holds beside a scratchpad: 512 - 64 SP KiB (08 R145). -/
def Core.l1Lines (k : Core) : Nat := (512 - 64 * k.sp) * 8
/-- An L1 copy placed, if the core holds none of the line and shingle (15 R277 move 5). In a full L1 the oldest copy makes room (log 75). -/
def Core.addCopy (k : Core) (e : L1Copy) : Core :=
  if k.l1.any fun o => o.line == e.line && o.sh == e.sh then k else { k with l1 := k.l1.drop (k.l1.length + 1 - k.l1Lines) ++ [e] }
/-- The posted writes that the thread's SYSTEM acquires wait for are performed before its next access reads (15 R282). -/
def State.settleTh (s : State) : State := (s.settle s.th.settle).updTh fun t => { t with settle := 0 }

/-- The bytes at rising virtual addresses of an access that starts at `a`, and whether the load leaves the core (06 R110, 10 R189, 15
R278). A load that has to wait for an entry to drain changes nothing. -/
def State.loadAt (s : State) (p : Place) (a : W64) (vas : List Nat) (vec : Bool) (hint : Nat) : Res (List Byte × Bool) :=
  (s.phaseGate p.isMem).andThen fun _ s =>
  let s := s.settleTh
  let c := s.cur.core
  let sh := s.myShingle
  let va := a.toNat
  match s.readUnits s.me sh p va (hint == 1) (unitsOf vas vec) [] [] [] with
  | .pass _ => .pass s
  | .trap s c a i => .trap s c a i
  | .ok (bs, vlines) t =>
    match p with
    | .mem _ =>
      let touched := (vas.map fun v => lineOf (p.at va v)).eraseDups
      let leaves := touched.any fun l => !(s.core c).l1.any fun e => e.line == l && e.sh == sh
      let t := if p.mside || hint == 2 then t
        else t.updCore c fun k => (vlines.map fun v => t.lineCopy sh p v va).foldl Core.addCopy k
      .ok (bs, leaves) t
    | .cap _ => .ok (bs, true) t
    | .sp _ _ => .ok (bs, false) t
/-- A load of `n` bytes at `a`. -/
def State.load (s : State) (p : Place) (a : W64) (n : Nat) (vec : Bool) (hint : Nat) : Res (List Byte × Bool) :=
  s.loadAt p a ((List.range n).map (a.toNat + ·)) vec hint

/-! ## Stores, releases, acquires -/

/-- The captured set of a release of a core (15 R281). -/
def State.capture (s : State) (c : Nat) (sc : Scope) : List Nat :=
  let k := s.core c
  k.sb.map (·.id) ++
  (match sc with
   | .device | .system =>
     ((s.cluster (clusterOf c)).bb.filter fun e =>
       (e.thread.map (·.core) == some c) || e.readers.any (·.core == c) || (e.job.map k.observed.contains).getD false).map (·.id)
   | _ => [])
/-- SEQ of the thread's sends whose fragments have not all left (15 R284). -/
def State.openSends (s : State) (t : ThreadId) : List W32 :=
  ((s.part (s.partOf t.core t.slot)).tx.filter fun m => m.thread = t && (s.core t.core).task == some m.task && decide (0 < m.left)).map (·.seq)

/-- Lines of a shingle with those that writes on their way will add. -/
def State.pendingLines (s : State) (sh : TaskId × W32) : List Nat :=
  let own (es : List Entry) : List Nat := (es.filter fun e => e.shingle = some sh).flatMap fun e => e.cells.map fun c => c.va / 128
  ((s.shLines sh).map (·.line) ++ (s.cores.flatMap fun c => own c.2.sb) ++ (s.clusters.flatMap fun c => own c.2.bb)).eraseDups
/-- A write would add a line beyond the 2^16 of a shingle (15 R292). -/
def State.shFull (s : State) (sh : Option (TaskId × W32)) (cells : List WCell) : Bool :=
  match sh with
  | none => false
  | some k =>
    let have' := s.pendingLines k
    let new := ((cells.map fun c => c.va / 128).eraseDups).filter fun l => !have'.contains l
    !new.isEmpty && decide (65536 < have'.length + new.length)

/-- A new entry of the issuing thread at the end of its core's store buffer (15 R277 move 1); a full buffer holds the thread. -/
def State.newEntry (s : State) (f : Nat → Entry) : Res Nat :=
  let c := s.cur.core
  if 32 ≤ s.myCore.sb.length then .pass s
  else
    let (id, s) := s.fresh
    .ok id (s.updCore c fun k => { k with sb := k.sb ++ [f id] })

def State.entry (s : State) (id : Nat) (dest : Option Nat) (cells : List WCell) (sc : Scope) (rel mside ev : Bool) : Entry :=
  { id := id, thread := some s.me, job := none, dest := dest, cells := cells, scope := sc, rel := rel,
    captured := if rel then s.capture s.cur.core sc else [], red := none, tag := none,
    sends := if rel && sc == .system then s.openSends s.me else [], mside := mside, evict := ev, readers := [], jreaders := [], part := s.myPart,
    shingle := if dest.isNone then s.myShingle else none }

/-- An L1 copy of a line takes the bytes of a store to its shingle (08 R146). -/
def patchLine (sh : Option (TaskId × W32)) (e : L1Copy) (cells : List WCell) : L1Copy :=
  if e.sh != sh then e else
  cells.foldl (fun e c =>
    if lineOf c.pa = e.line then
      let o := 8 * (c.pa % 128)
      { e with data := (e.data &&& ~~~(BitVec.ofNat 1024 (255 * 2 ^ o))) ||| BitVec.ofNat 1024 (c.b.toNat * 2 ^ o) }
    else e) e

/-- Cells of the bytes of a store: pairs of virtual address and byte. -/
def Place.cells (p : Place) (first : Nat) (bs : List (Nat × Byte)) : List WCell := bs.map fun x => ⟨p.at first x.1, x.1, x.2, false⟩

/-- A store whose checks are made: its entry in the store buffer. -/
def State.storeNow (s : State) (p : Place) (cells : List WCell) (sc : Scope) (rel ev : Bool) : Res Unit :=
  (s.newEntry fun id => s.entry id p.dest cells sc rel p.mside ev).andThen fun _ s =>
  if p.isMem then done (s.updMyCore fun k => { k with l1 := k.l1.map fun e => patchLine s.myShingle e cells }) else done s
/-- An issued store (10 R188, R191): bytes at virtual addresses, in one entry; `ev`: with the evict-first hint. -/
def State.store (s : State) (p : Place) (a : W64) (bs : List (Nat × Byte)) (sc : Scope) (rel ev : Bool) : Res Unit :=
  (s.phaseGate p.isMem).andThen fun _ s =>
  let cells := p.cells a.toNat bs
  if p.isMem && s.shFull (s.myShingle) cells then .trap s 0x50 0 1
  else s.storeNow p cells sc rel ev

/-- A release without a store: a marked entry without bytes (15 R281). -/
def State.release (s : State) (sc : Scope) : Res Nat := s.newEntry fun id => s.entry id none [] sc true false false

/-- An acquire of a thread at a scope (15 R282). -/
def State.acquireBy (s : State) (t : ThreadId) (sc : Scope) : State :=
  match sc with
  | .core => s
  | .block | .device => s.updCore t.core fun k => { k with l1 := [] }
  | .system =>
    let k := (s.posted.map fun w => w.id + 1).foldl Nat.max 0
    (s.updCore t.core fun k => { k with l1 := [] }).updThr t fun x => { x with settle := Nat.max x.settle k }
def State.acquire (s : State) (sc : Scope) : State := s.acquireBy s.me sc

/-- A release entry has reached the level of its scope in an earlier cycle: it has left the store buffer (15 R280, R281, 06 R108). -/
def State.relDone (s : State) (c id : Nat) (sc : Scope) : Bool :=
  sc == .core || (!(s.core c).sb.any (·.id = id) && !(s.core c).gone.contains id)

/-! ## Delivery of a result -/

/-- Adds a line to a validation set (10 R194). -/
def ValSet.add (v : ValSet) (line : Nat) (ver : W32) : ValSet :=
  if v.entries.any (fun e => e.1 = line) then v
  else if 16 ≤ v.entries.length then { v with ovf := true }
  else { v with entries := v.entries ++ [(line, ver)] }

/-- Writes a result into its thread and core. -/
def State.deliver (s : State) (t : ThreadId) (r : Result) : State :=
  let s := s.updThr t fun x =>
    let g := r.s.foldl (fun g e => wrS g e.1 e.2) x.regs
    let w := ((x.pend.map (·.word)).getD s.cur.word)
    let g := r.v.foldl (fun g e => keepBad (lanesOn w ((x.pend.map (·.regs)).getD x.regs)) g e.1 (wrV g e.1 e.2)) g
    let g := r.p.foldl (fun g e => wrP g e.1 e.2) g
    { x with regs := g, sticky := x.sticky ||| r.sticky,
             valset := (r.track.map fun e => x.valset.add e.1 e.2).getD x.valset,
             sm0 := (r.map.bind fun m => if m.1 then none else some m.2).getD x.sm0,
             sm1 := (r.map.bind fun m => if m.1 then some m.2 else none).getD x.sm1,
             esn := if r.tagged then x.esn + 1 else x.esn }
  let s := match r.ctab with
    | some x => s.updCore t.core fun k => { k with ctabNew := some x }
    | none => s
  match r.acq with
  | some sc => s.acquireBy t sc
  | none => s

/-- The result of a load: at once if the load stays in the core, else when its data arrives (06 R110). -/
def State.reply (s : State) (leaves : Bool) (r : Result) : State :=
  if leaves then s.wait (.data r) else s.deliver s.me r

/-! ## Constant windows (01 R18, 04 R79) -/

/-- The first poisoned byte of a range of a scratchpad. -/
def State.spPoison (s : State) (c off n : Nat) : Option Nat :=
  ((List.range n).find? fun i => s.sramPoison.contains (c, (off + i) / 8)).map (off + ·)
/-- The 64-byte line that holds word `word` of window `w`, as it stands behind the cache; the access is checked as a load of the word. -/
def State.constLine (s : State) (l : Launch) (w word : Nat) : Res (BitVec 512) :=
  let ln := word / 16
  if w = 7 && 0 < l.kernel.argsize then .ok (BitVec.ofNat 512 (field l.args (64 * ln) 64)) s
  else
    let base := ((l.kernel.windows[w]?).getD (0, 0)).1
    let a := base + w64 (4 * word)
    (s.access s.agent a 4 .load false).andThen fun p s =>
    let x := p.at a.toNat a.toNat - 4 * (word % 16)
    match p with
    | .mem _ =>
      let s := s.request p [] x false
      match (List.range 64).findSome? fun i => s.poisonAt p (x + i) with
      | some src => .trap (s.errLog 8 a 0 0 0x80 s.cur.core) 0x80 a (w64 src)
      | none => .ok (BitVec.ofNat 512 (ofBytes (s.pocBytes x 64))) s
    | .sp m _ =>
      match s.spPoison m x 64 with
      | some _ => .trap (s.errLog 8 a 0 0 0x80 s.cur.core) 0x80 a 2
      | none => .ok (BitVec.ofNat 512 (ofBytes (memBytes (s.core m).sram x 64))) s
    | .cap _ => .ok (BitVec.ofNat 512 (ofBytes ((List.range 64).map fun i => capByte (x + i)))) s

/-- The word a constant read returns (01 R18 to R20): a miss fills the line and passes the turn; where a cached word has been
rewritten behind the cache, either value. The argument copy has no BASE: TRAPADDR of a read beyond it counts from 0; a full cache drops
its oldest line (log 61). -/
def State.readConst (s : State) (w word : Nat) : Res W32 :=
  match s.myLaunch with
  | none => .trap s 0x12 (w64 (4 * word)) 0
  | some l =>
    let (base, size) := if w = 7 && 0 < l.kernel.argsize then ((0 : W64), l.kernel.argsize) else (l.kernel.windows[w]?).getD (0, 0)
    if size ≤ 4 * word then .trap s 0x12 (base + w64 (4 * word)) 0
    else
      let ln := word / 16
      let wordOf (x : BitVec 512) : W32 := x.extractLsb' (32 * (word % 16)) 32
      match s.myCore.cc.find? fun e => e.1 == w && e.2.1 == ln with
      | none =>
        (s.constLine l w word).andThen fun now s =>
        .pass (s.updMyCore fun k => { k with cc := (if k.cc.length < 256 then k.cc else k.cc.drop 1) ++ [(w, ln, now)] })
      | some e =>
        match s.constLine l w word with
        | .ok now _ =>
          if wordOf e.2.2 = wordOf now then .ok (wordOf now) s
          else
            let (b, s) := s.flip
            .ok (if b then wordOf now else wordOf e.2.2) s
        | _ => .ok (wordOf e.2.2) s

end Sys2Proof.Machine
end

