-- ==== Sys2Proof/Machine/Operands.lean ====
section
/-! DEFINITION. Every operand form: registers, immediates, constant words, splats, memory addresses, tiles; extension of results. -/

namespace Sys2Proof.Machine

/-! ## Types (07 R122, R123) -/

def tyW (t : IntTy) : Nat :=
  match t with
  | .i64 | .n64 => 64 | .i32 | .n32 => 32 | .i16 | .n16 => 16 | .i8 | .n8 => 8
/-- SIGN = 0: signed. -/
def tySigned (t : IntTy) : Bool :=
  match t with
  | .i64 | .i32 | .i16 | .i8 => true | _ => false
/-- `val` of R123: the low w bits as a signed or unsigned integer. -/
def tyVal (t : IntTy) (x : Nat) : Int := if tySigned t then toS (tyW t) x else ((x % 2 ^ tyW t : Nat) : Int)
def tyLo (t : IntTy) : Int := if tySigned t then -(2 ^ (tyW t - 1) : Nat) else 0
def tyHi (t : IntTy) : Int := if tySigned t then (2 ^ (tyW t - 1) : Nat) - 1 else (2 ^ tyW t : Nat) - 1
/-- What `put` writes: the low w bits, extended to 64 by the sign of the type. -/
def tyPut (t : IntTy) (x : Int) : W64 :=
  let n := ofZ (tyW t) x
  if tySigned t then w64 (ofZ 64 (toS (tyW t) n)) else w64 n
/-- `put` of a bit pattern. -/
def tyPutN (t : IntTy) (n : Nat) : W64 := tyPut t (n : Nat)

/-! ## Scalar operands -/

def sext32 (i : W32) : W64 := i.signExtend 64
def zext32 (i : W32) : W64 := i.zeroExtend 64
def ext32 (signed : Bool) (i : W32) : W64 := if signed then sext32 i else zext32 i

/-- `opnd` of a position of classes s i, the immediate sign-extended. -/
def State.si (s : State) (x : SI) : W64 :=
  match x with
  | .s r => s.rs r
  | .i v => sext32 v
/-- The same with the immediate zero-extended. -/
def State.siZ (s : State) (x : SI) : W64 :=
  match x with
  | .s r => s.rs r
  | .i v => zext32 v
/-- `opnd` of a position of classes s i k, extended as the type's sign says. -/
def State.src (s : State) (signed : Bool) (x : Src) : Res W64 :=
  match x with
  | .s r => .ok (s.rs r) s
  | .i v => .ok (ext32 signed v) s
  | .k w n => (s.readConst w.val n.val).andThen fun v s => .ok (ext32 signed v) s
/-- Address of a memory operand (10 R187). -/
def State.addr (s : State) (m : MemOp) : W64 := s.rs m.base + s.si m.off

/-! ## Vector operands (11 R213) -/

/-- Element `e` of a vector register. -/
def elem (w : Nat) (v : VWord) (e : Nat) : Nat := bits v.toNat (w * e) w
/-- Operand B of a vector instruction: a vector, or a splat. -/
inductive VB where
  | v (x : VWord)
  | splat (x : Nat)
def VB.at (b : VB) (w e : Nat) : Nat :=
  match b with
  | .v x => elem w x e
  | .splat x => x % 2 ^ w
def State.vsrc (s : State) (x : VSrc) : Res VB :=
  match x with
  | .v r => .ok (.v (s.rv r)) s
  | .s r => .ok (.splat (s.rs r).toNat) s
  | .i v => .ok (.splat v.toNat) s
  | .k w n => (s.readConst w.val n.val).andThen fun v s => .ok (.splat v.toNat) s
def State.vsi (s : State) (x : VSI) : VB :=
  match x with
  | .v r => .v (s.rv r)
  | .s r => .splat (s.rs r).toNat
  | .i v => .splat v.toNat

/-- The elements of a lane packed again. -/
def packElems (w : Nat) : List Nat → Nat
  | [] => 0
  | x :: r => x % 2 ^ w + 2 ^ w * packElems w r
/-- A lane whose elements of width `w` are `f` of their register-wide numbers, with the OR of their flags. -/
def laneElems (w j : Nat) (f : Nat → Nat × Nat) : W32 × Nat :=
  let k := 32 / w
  let rs := (List.range k).map fun i => f (k * j + i)
  (w32 (packElems w (rs.map (·.1))), rs.foldl (fun a r => a ||| r.2) 0)
/-- A whole vector operation: new lanes where the guard is 1, and the flags of those lanes. -/
def vecElems (g : W32) (old : VWord) (w : Nat) (f : Nat → Nat × Nat) : VWord × Nat :=
  let rs := (List.range 32).map fun j => if bit g.toNat j then laneElems w j f else (lane old j, 0)
  (ofLanes (rs.map (·.1)), rs.foldl (fun a r => a ||| r.2) 0)

/-! ## Tiles -/

def State.tile (s : State) (t : Nat) : Tile := s.myCore.tiles.getD t .reset

/-- Names of a word's destination for the region log (22 R378): registers an instruction may write. -/
structure Dests where
  s : List Nat
  v : List Nat
  p : List Nat
  c : List Nat
  deriving DecidableEq, Repr
/-- What a specifier names as a destination. -/
def destOf (x : Byte) : Dests :=
  match clsOf x with
  | some .s => ⟨[x.toNat % 64], [], [], []⟩
  | some .v => ⟨[], [x.toNat % 32], [], []⟩
  | some .p => ⟨[], [], [x.toNat % 8], []⟩
  | some .c => ⟨[], [], [], [x.toNat % 16]⟩
  | _ => ⟨[], [], [], []⟩

end Sys2Proof.Machine
end

