-- ==== Sys2Proof/Machine/Flags.lean ====
section
/-! DEFINITION. Integer results with saturation, floating values, rounding and every flag computation (07 R123, 09). Flags of an
operation are a number: bit 0 invalid, 1 overflow, 2 inexact, 3 integer saturation (11 R214). -/

namespace Sys2Proof.Machine

def flagI : Nat := 1
def flagO : Nat := 2
def flagX : Nat := 4
def flagS : Nat := 8
def stickyOf (f : Nat) : BitVec 4 := BitVec.ofNat 4 f

/-! ## Integers (07 R125, R126) -/

/-- A result under an overflow group: the value, and whether it saturated. -/
def satTo (t : IntTy) (sat : Bool) (x : Int) : Int × Bool :=
  if sat && tyHi t < x then (tyHi t, true) else if sat && x < tyLo t then (tyLo t, true) else (x, false)

/-- TRAPINFO of cause 0x40 (07 R123, 09 R173): bit 0 division by zero, 1 saturation, 2 invalid, 3 overflow. -/
def arithInfo (f : Nat) : Nat := 2 * bnat (bit f 3) + 4 * bnat (bit f 0) + 8 * bnat (bit f 1)

/-- Rotation left of a w-bit pattern. -/
def rotlN (w x n : Nat) : Nat :=
  let k := n % w
  let x := x % 2 ^ w
  x * 2 ^ k % 2 ^ w + x / 2 ^ (w - k)

/-- Operations of R125, on values and shift counts. -/
inductive IOp where
  | add | sub | mul | mulh | and | or | xor | andn | shl | shr | rotl | min | max
  deriving DecidableEq, Repr

/-- The exact result of R125 before narrowing: `a`, `b` are the operands' patterns, `n` the shift count. -/
def iop (o : IOp) (t : IntTy) (a b n : Nat) : Int :=
  let w := tyW t
  let x := tyVal t a
  let y := tyVal t b
  let ua := a % 2 ^ w
  let ub := b % 2 ^ w
  match o with
  | .add => x + y
  | .sub => x - y
  | .mul => x * y
  | .mulh => x * y / (2 ^ w : Nat)
  | .and => ((ua &&& ub : Nat) : Int)
  | .or => ((ua ||| ub : Nat) : Int)
  | .xor => ((ua ^^^ ub : Nat) : Int)
  | .andn => ((ua &&& (2 ^ w - 1 - ub) : Nat) : Int)
  | .shl => x * (2 ^ Nat.min n w : Nat)
  | .shr => x / (2 ^ Nat.min n w : Nat)
  | .rotl => ((rotlN w ua n : Nat) : Int)
  | .min => if x ≤ y then x else y
  | .max => if x ≤ y then y else x

/-! ## Floating values -/

/-- A value: a NaN with its signalling bit, an infinity, or (-1)^neg * m * 2^e. -/
inductive FVal where
  | nan (sig : Bool)
  | inf (neg : Bool)
  | fin (neg : Bool) (m : Nat) (e : Int)
  deriving DecidableEq, Repr

/-- A format: exponent and fraction bits, bias; e4m3 has no infinity (09 R167 to R170, R181). -/
structure FFmt where
  eb : Nat
  fb : Nat
  bias : Nat
  e4 : Bool
  /-- Every NaN operand raises invalid (FP8). -/
  fp8 : Bool
  deriving DecidableEq, Repr
def fF32 : FFmt := ⟨8, 23, 127, false, false⟩
def fF16 : FFmt := ⟨5, 10, 15, false, false⟩
def fBf16 : FFmt := ⟨8, 7, 127, false, false⟩
def fE4m3 : FFmt := ⟨4, 3, 7, true, true⟩
def fE5m2 : FFmt := ⟨5, 2, 15, false, true⟩
def fA56 : FFmt := ⟨10, 45, 511, false, false⟩
def FFmt.width (f : FFmt) : Nat := 1 + f.eb + f.fb
def fmtOf (t : FTy) : FFmt :=
  match t with
  | .f32 => fF32 | .f16 => fF16 | .bf16 => fBf16 | .e4m3 => fE4m3 | .e5m2 => fE5m2
/-- The canonical NaN (09 R168 to R170, R181). -/
def FFmt.qnan (f : FFmt) : Nat := if f.e4 then 0x7F else (2 ^ f.eb - 1) * 2 ^ f.fb + 2 ^ (f.fb - 1)
def FFmt.infBits (f : FFmt) : Nat := (2 ^ f.eb - 1) * 2 ^ f.fb
/-- The largest finite magnitude. -/
def FFmt.maxBits (f : FFmt) : Nat := if f.e4 then 0x7E else f.infBits - 1
def FFmt.signBit (f : FFmt) (neg : Bool) : Nat := if neg then 2 ^ (f.eb + f.fb) else 0

def fdec (f : FFmt) (x : Nat) : FVal :=
  let neg := bit x (f.eb + f.fb)
  let e := bits x f.fb f.eb
  let m := bits x 0 f.fb
  if f.e4 then
    if e = 15 && m = 7 then .nan true
    else if e = 0 then .fin neg m (1 - (f.bias : Int) - f.fb) else .fin neg (m + 2 ^ f.fb) ((e : Int) - f.bias - f.fb)
  else if e = 2 ^ f.eb - 1 then
    if m = 0 then .inf neg else .nan (f.fp8 || !bit m (f.fb - 1))
  else if e = 0 then .fin neg m (1 - (f.bias : Int) - f.fb)
  else .fin neg (m + 2 ^ f.fb) ((e : Int) - f.bias - f.fb)

def FVal.isNan : FVal → Bool
  | .nan _ => true
  | _ => false
/-- Flags that operands raise as such (09 R168, R170). -/
def nanFlags (l : List FVal) : Nat := if l.any fun v => v = .nan true then flagI else 0
def FVal.neg : FVal → FVal
  | .nan s => .nan s
  | .inf n => .inf (!n)
  | .fin n m e => .fin (!n) m e
def FVal.sign : FVal → Bool
  | .nan _ => false
  | .inf n => n
  | .fin n _ _ => n
def FVal.isZero : FVal → Bool
  | .fin _ 0 _ => true
  | _ => false

/-- Whether a truncated magnitude `n` with remainder `r` of `2^k` is rounded up (09 R171). -/
def roundUp (rm : Rm) (neg : Bool) (n r k : Nat) : Bool :=
  match rm with
  | .rne => 2 ^ k < 2 * r || (2 * r = 2 ^ k && n % 2 = 1)
  | .rtz => false
  | .rup => !neg && r != 0
  | .rdn => neg && r != 0
  | .rna => 2 ^ k ≤ 2 * r
/-- A magnitude m * 2^e as a multiple of 2^q, rounded; whether that was inexact. -/
def quantize (rm : Rm) (neg : Bool) (m : Nat) (e q : Int) : Nat × Bool :=
  if q ≤ e then (m * 2 ^ (e - q).toNat, false)
  else
    let k := (q - e).toNat
    let n := m / 2 ^ k
    let r := m % 2 ^ k
    (if roundUp rm neg n r k then n + 1 else n, r != 0)
def bitLen (n : Nat) : Nat := if n = 0 then 0 else Nat.log2 n + 1

/-- What overflow gives (09 R172): bits and flags. -/
def overflow (f : FFmt) (rm : Rm) (sat ns neg : Bool) : Nat × Nat :=
  let b :=
    if f.e4 then if ns then 0x7F else f.signBit neg + 0x7E
    else
      let toMax := sat || (match rm with
        | .rne | .rna => false
        | .rtz => true
        | .rup => neg
        | .rdn => !neg)
      f.signBit neg + (if toMax then f.maxBits else f.infBits)
  (b, flagO ||| flagX)

/-- A value rounded once to a format (09 R171 to R173): bits and flags. -/
def fround (f : FFmt) (rm : Rm) (sat ns : Bool) (v : FVal) : Nat × Nat :=
  match v with
  | .nan _ => (f.qnan, 0)
  | .inf neg => if f.e4 then overflow f rm sat ns neg else (f.signBit neg + f.infBits, 0)
  | .fin neg 0 _ => (f.signBit neg, 0)
  | .fin neg m e =>
    let top : Int := e + bitLen m - 1
    let emin : Int := 1 - (f.bias : Int)
    let q : Int := (if top < emin then emin else top) - f.fb
    let (n, x) := quantize rm neg m e q
    let (n, q) := if 2 ^ (f.fb + 1) ≤ n then (n / 2, q + 1) else (n, q)
    let b := if n < 2 ^ f.fb then n else (q + f.fb + f.bias).toNat * 2 ^ f.fb + (n - 2 ^ f.fb)
    if f.maxBits < b then overflow f rm sat ns neg else (f.signBit neg + b, if x then flagX else 0)

/-- Signed integer at the lower of two exponents. -/
def scaled (neg : Bool) (m : Nat) (e q : Int) : Int :=
  let z : Int := (m * 2 ^ (e - q).toNat : Nat)
  if neg then -z else z

/-- Exact sum with the sign rule of zero sums (11 R217). `inv` reports ∞ - ∞. -/
def fadd (rm : Rm) (a b : FVal) : FVal × Nat :=
  match a, b with
  | .nan _, _ => (.nan false, 0)
  | _, .nan _ => (.nan false, 0)
  | .inf n, .inf k => if n = k then (.inf n, 0) else (.nan false, flagI)
  | .inf n, .fin .. => (.inf n, 0)
  | .fin .., .inf k => (.inf k, 0)
  | .fin n m e, .fin k p d =>
    if m = 0 && p = 0 then (.fin (if n = k then n else rm == .rdn) 0 0, 0)
    else
      let q := if e ≤ d then e else d
      let z := scaled n m e q + scaled k p d q
      if z = 0 then (.fin (rm == .rdn) 0 0, 0) else (.fin (z < 0) z.natAbs q, 0)
def fmul (a b : FVal) : FVal × Nat :=
  match a, b with
  | .nan _, _ => (.nan false, 0)
  | _, .nan _ => (.nan false, 0)
  | .inf n, .inf k => (.inf (n != k), 0)
  | .inf n, .fin k m _ => if m = 0 then (.nan false, flagI) else (.inf (n != k), 0)
  | .fin k m _, .inf n => if m = 0 then (.nan false, flagI) else (.inf (n != k), 0)
  | .fin n m e, .fin k p d => (.fin (n != k) (m * p) (e + d), 0)

/-- Order of two values that are not NaN, with -0 below +0 (11 R217): at most. -/
def fle (a b : FVal) : Bool :=
  match a, b with
  | .nan _, _ => false
  | _, .nan _ => false
  | .inf n, x => n || x == .inf false
  | x, .inf k => !k || x == .inf true
  | .fin n m e, .fin k p d =>
    if m = 0 && p = 0 then n || !k
    else
      let q := if e ≤ d then e else d
      decide (scaled n m e q ≤ scaled k p d q)
/-- Numeric comparison: -0 equals +0. -/
def feq (a b : FVal) : Bool :=
  match a, b with
  | .nan _, _ => false
  | _, .nan _ => false
  | x, y => (x.isZero && y.isZero) || (fle x y && fle y x)
def flt (a b : FVal) : Bool := fle a b && !feq a b

/-- Floating operations of R217. -/
inductive FOp where
  | add | sub | mul | fma | fnma | min | max | abs | neg
  deriving DecidableEq, Repr

/-- One element of R217: bits and flags. -/
def felem (o : FOp) (f : FFmt) (rm : Rm) (sat ns : Bool) (a b c : Nat) : Nat × Nat :=
  let x := fdec f a
  let y := fdec f b
  let z := fdec f c
  let ops := match o with
    | .fma | .fnma => [x, y, z]
    | .abs | .neg => [x]
    | _ => [x, y]
  let nf := nanFlags ops
  let rnd (r : FVal × Nat) : Nat × Nat :=
    let (b, fl) := fround f rm sat ns r.1
    (b, fl ||| r.2 ||| nf)
  match o with
  | .add => if ops.any FVal.isNan then (f.qnan, nf) else rnd (fadd rm x y)
  | .sub => if ops.any FVal.isNan then (f.qnan, nf) else rnd (fadd rm x y.neg)
  | .mul => if ops.any FVal.isNan then (f.qnan, nf) else rnd (fmul x y)
  | .fma | .fnma =>
    let (p, pf) := fmul x y
    if ops.any FVal.isNan then (f.qnan, nf ||| pf)
    else if p.isNan then (f.qnan, pf)
    else rnd (fadd rm (if o = .fnma then p.neg else p) z)
  | .min => if ops.any FVal.isNan then (f.qnan, nf) else (if fle x y then a else b, 0)
  | .max => if ops.any FVal.isNan then (f.qnan, nf) else (if fle x y then b else a, 0)
  | .abs => if x.isNan then (f.qnan, nf) else (a % 2 ^ (f.eb + f.fb), 0)
  | .neg => if x.isNan then (f.qnan, nf) else (a ^^^ 2 ^ (f.eb + f.fb), 0)

/-! ## Conversions (09 R174) -/

/-- An integer to a format. -/
def intToF (f : FFmt) (rm : Rm) (z : Int) : Nat × Nat := fround f rm false false (.fin (z < 0) z.natAbs 0)
/-- A floating value to an integer type (R174). A value out of range that is no integer is invalid and not inexact (log 79). -/
def fToInt (rm : Rm) (t : IntTy) (v : FVal) : Nat × Nat :=
  match v with
  | .nan _ => (0, flagI)
  | .inf neg => (ofZ (tyW t) (if neg then tyLo t else tyHi t), flagI)
  | .fin neg m e =>
    let (n, x) := quantize rm neg m e 0
    let z : Int := if neg then -(n : Int) else n
    if z < tyLo t then (ofZ (tyW t) (tyLo t), flagI)
    else if tyHi t < z then (ofZ (tyW t) (tyHi t), flagI)
    else (ofZ (tyW t) z, if x then flagX else 0)
/-- A floating format to another: widening is exact, narrowing rounds. -/
def fToF (src dst : FFmt) (rm : Rm) (sat ns : Bool) (x : Nat) : Nat × Nat :=
  let v := fdec src x
  let (b, fl) := fround dst rm sat ns v
  (b, fl ||| nanFlags [v])

/-! ## Shared-exponent blocks (09 R176 to R178) -/

/-- Magnitude bits of sx3, sx5, sx8. -/
def sxBytes (p : Nat) : Nat := 2 + 2 * (1 + p)
/-- Element `j` of a block. -/
def sxDec (p blk j : Nat) : FVal :=
  let e := bits blk 0 8
  if e = 0xFF then .nan true
  else
    let sg := bits blk (8 + 2 * (j / 4)) 2
    let fld := bits blk (16 + (1 + p) * j) (1 + p)
    let m := bits fld 0 p
    if m = 0 then .fin false 0 0 else .fin (bit fld p) m ((e : Int) - 127 - (p - 1 : Nat) - sg)
/-- `mag` of R178 with the exactness of the rounding; `none` for an infinity. -/
def sxMag (rm : Rm) (p e t : Nat) (v : FVal) : Option (Nat × Bool) :=
  match v with
  | .fin neg m d => some (quantize rm neg m d ((e : Int) - 127 - (p - 1 : Nat) - t))
  | _ => none
def magLe (x : Option (Nat × Bool)) (n : Nat) : Bool :=
  match x with
  | some (m, _) => m ≤ n
  | none => false
/-- Exponent of the leading bit of a nonzero value. -/
def topExp (v : FVal) : Int :=
  match v with
  | .fin _ m e => e + bitLen m - 1
  | _ => 0
/-- One quad: fields with shift, flags. -/
def sxQuad (rm : Rm) (p e : Nat) (q : List FVal) : Nat × List Nat × Nat :=
  let ok (t : Nat) := q.all fun v => magLe (sxMag rm p e t v) (2 ^ p - 1)
  let sg := if ok 3 then 3 else if ok 2 then 2 else if ok 1 then 1 else 0
  let fs := q.map fun v =>
    match sxMag rm p e sg v with
    | none => (bnat v.sign * 2 ^ p + (2 ^ p - 1), flagO ||| flagX)
    | some (m, x) =>
      if 2 ^ p - 1 < m then (bnat v.sign * 2 ^ p + (2 ^ p - 1), flagO ||| flagX)
      else (if m = 0 then 0 else bnat v.sign * 2 ^ p + m, if x then flagX else 0)
  (sg, fs.map (·.1), fs.foldl (fun a f => a ||| f.2) 0)
/-- Sixteen values as a block (a little-endian number) and the flags. -/
def sxEnc (rm : Rm) (p : Nat) (xs : List FVal) : Nat × Nat :=
  if xs.any FVal.isNan then (0xFF, flagI)
  else
    let inf := xs.any fun v => v = .inf false || v = .inf true
    let nz := xs.filter fun v => !v.isZero
    let e : Nat :=
      if inf then 0xFE
      else if nz.isEmpty then 0
      else
        let t := nz.foldl (fun a v => if a < topExp v then topExp v else a) (topExp (nz.headD (.inf false)))
        let b := t + 127
        if b < 0 then 0 else if 0xFE < b then 0xFE else b.toNat
    let e := if !inf && !nz.isEmpty && e < 0xFE && xs.any (fun v => !magLe (sxMag rm p e 0 v) (2 ^ p - 1)) then e + 1 else e
    let qs := (List.range 4).map fun g => sxQuad rm p e ((xs.drop (4 * g)).take 4)
    let sh := packElems 2 (qs.map (·.1))
    (e + 2 ^ 8 * sh + 2 ^ 16 * packElems (1 + p) (qs.flatMap (·.2.1)), qs.foldl (fun a q => a ||| q.2.2) 0)

/-! ## Code tables (09 R179) -/

/-- Entry `c` of a code table. -/
def ctEntry (lo hi : W64) (c : Nat) : Int := toS 8 (if c < 8 then bits lo.toNat (8 * c) 8 else bits hi.toNat (8 * (c - 8)) 8)
/-- Distance of a finite value and an integer, scaled by 2^-q. -/
def ctDist (neg : Bool) (m : Nat) (e q : Int) (z : Int) : Nat := (scaled neg m e q - z * (2 ^ (0 - q).toNat : Nat)).natAbs
def ctEnc (lo hi : W64) (v : FVal) : Nat × Nat :=
  let best (better : Nat → Nat → Bool) : Nat := (List.range 16).foldl (fun b c => if better c b then c else b) 0
  match v with
  | .nan _ => (0, flagI)
  | .inf neg =>
    (best fun c b => if neg then decide (ctEntry lo hi c < ctEntry lo hi b) else decide (ctEntry lo hi b < ctEntry lo hi c), flagO ||| flagX)
  | .fin neg m e =>
    let q : Int := if e < 0 then e else 0
    let d (c : Nat) := ctDist neg m e q (ctEntry lo hi c)
    let b := best fun c b => decide (d c < d b)
    (b, if d b = 0 then 0 else flagX)

/-! ## Trees (09 R183) -/

/-- Adjacent pairs combined, level by level; `fuel` bounds the levels. -/
def pairUp {α : Type} (f : α → α → α) : List α → List α
  | a :: b :: r => f a b :: pairUp f r
  | l => l
def tree {α : Type} (f : α → α → α) : Nat → List α → List α
  | 0, l => l
  | k + 1, l => tree f k (pairUp f l)

end Sys2Proof.Machine
end

