-- ==== Sys2Proof/Machine/Scalar.lean ====
section
/-! DEFINITION. Scalar integer, bit-field, compare, select, move, address and predicate instructions (07 R125 to R132). -/

namespace Sys2Proof.Machine

abbrev Out' := Host.Outcome State Fault Refusal

/-! ## Integer arithmetic and logic (R125) -/

/-- A result of R125 under the overflow group: written, or the saturation trap of MODE.ARITH. -/
def State.putInt (s : State) (d : SReg) (t : IntTy) (sat : Bool) (x : Int) : Res Unit :=
  if (satTo t sat x).2 && s.mode.arith then fail s 0x40 2 else done (s.ws d (tyPut t (satTo t sat x).1))
def State.intA (s : State) (x : IntA) (o : IOp) : Res Unit :=
  (s.src (tySigned x.ty) x.b).andThen fun b s => s.putInt x.d x.ty x.sat (iop o x.ty (s.rs x.a).toNat b.toNat 0)
def State.intSh (s : State) (x : IntSh) (o : IOp) : Res Unit :=
  s.putInt x.d x.ty x.sat (iop o x.ty (s.rs x.a).toNat 0 (s.siZ x.b).toNat)

def execAdd (x : IntA) (s : State) : Out' := guarded x.h s fun s => s.intA x .add
def execSub (x : IntA) (s : State) : Out' := guarded x.h s fun s => s.intA x .sub
def execMul (x : IntA) (s : State) : Out' := guarded x.h s fun s => s.intA x .mul
def execMulh (x : IntA) (s : State) : Out' := guarded x.h s fun s => s.intA x .mulh
def execAnd (x : IntA) (s : State) : Out' := guarded x.h s fun s => s.intA x .and
def execOr (x : IntA) (s : State) : Out' := guarded x.h s fun s => s.intA x .or
def execXor (x : IntA) (s : State) : Out' := guarded x.h s fun s => s.intA x .xor
def execAndn (x : IntA) (s : State) : Out' := guarded x.h s fun s => s.intA x .andn
def execShl (x : IntSh) (s : State) : Out' := guarded x.h s fun s => s.intSh x .shl
def execShr (x : IntSh) (s : State) : Out' := guarded x.h s fun s => s.intSh x .shr
def execRotl (x : IntSh) (s : State) : Out' := guarded x.h s fun s => s.intSh x .rotl
def execMin (x : IntA) (s : State) : Out' := guarded x.h s fun s => s.intA x .min
def execMax (x : IntA) (s : State) : Out' := guarded x.h s fun s => s.intA x .max

/-! ## Division (R126) -/

/-- Quotient and remainder of R126. -/
def divRem (t : IntTy) (a b : Nat) : Int × Int :=
  let x := tyVal t a
  let y := tyVal t b
  if y = 0 then ((2 ^ tyW t : Nat) - 1, x) else (Int.tdiv x y, Int.tmod x y)
def State.divide (s : State) (x : IntA) (rem : Bool) : Res Unit :=
  (s.src (tySigned x.ty) x.b).andThen fun b s =>
  let q := divRem x.ty (s.rs x.a).toNat b.toNat
  if tyVal x.ty b.toNat = 0 then
    if s.mode.arith then fail s 0x40 1 else done (s.ws x.d (tyPut x.ty (if rem then q.2 else q.1)))
  else s.putInt x.d x.ty (x.sat && !rem) (if rem then q.2 else q.1)
def execDiv (x : IntA) (s : State) : Out' := guarded x.h s fun s => s.divide x false
def execRem (x : IntA) (s : State) : Out' := guarded x.h s fun s => s.divide x true

/-! ## Bit fields and counts (R127) -/

def fieldPos (c : W64) : Nat := bits c.toNat 0 6
def fieldLen (c : W64) : Nat := bits c.toNat 8 6 + 1
/-- A field control that obeys R127. -/
def fieldOk (c : W64) : Bool := bits c.toNat 6 2 == 0 && bits c.toNat 14 50 == 0 && fieldPos c + fieldLen c ≤ 64
/-- The field of `a` that a control names, extended. -/
def extractField (signed : Bool) (a c : W64) : W64 :=
  let f := bits a.toNat (fieldPos c) (fieldLen c)
  if signed then w64 (ofZ 64 (toS (fieldLen c) f)) else w64 f
/-- `b` with the field replaced by the low bits of `a`. -/
def insertField (a b c : W64) : W64 :=
  let p := fieldPos c
  let n := fieldLen c
  let hi := b.toNat / 2 ^ (p + n)
  w64 (b.toNat % 2 ^ p + a.toNat % 2 ^ n * 2 ^ p + hi * 2 ^ (p + n))
def execExt (x : IntSh) (s : State) : Out' :=
  guarded x.h s fun s =>
    let c := s.si x.b
    if fieldOk c then done (s.ws x.d (extractField (tySigned x.ty) (s.rs x.a) c)) else badPos s 2
def execIns (x : Ins) (s : State) : Out' :=
  guarded x.h s fun s =>
    let c := s.si x.c
    if fieldOk c then done (s.ws x.d (insertField (s.rs x.a) (s.rs x.b) c)) else badPos s 3
/-- Leading zero bits of the low `w` bits. -/
def clzN (w n : Nat) : Nat := w - bitLen (n % 2 ^ w)
def ctzFrom : Nat → Nat → Nat
  | 0, _ => 0
  | k + 1, n => if n % 2 = 1 then 0 else 1 + ctzFrom k (n / 2)
def brevN : Nat → Nat → Nat
  | 0, _ => 0
  | k + 1, n => n % 2 * 2 ^ k + brevN k (n / 2)
def bswapN : Nat → Nat → Nat
  | 0, _ => 0
  | k + 1, n => n % 256 * 256 ^ k + bswapN k (n / 256)
def execClz (x : IntU) (s : State) : Out' := guarded x.h s fun s => done (s.ws x.d (w64 (clzN (tyW x.ty) (s.rs x.a).toNat)))
def execCtz (x : IntU) (s : State) : Out' := guarded x.h s fun s => done (s.ws x.d (w64 (ctzFrom (tyW x.ty) (s.rs x.a).toNat)))
def execPopc (x : IntU) (s : State) : Out' := guarded x.h s fun s => done (s.ws x.d (w64 (popcount (s.rs x.a).toNat (tyW x.ty))))
def execBrev (x : IntU) (s : State) : Out' := guarded x.h s fun s => done (s.ws x.d (tyPutN x.ty (brevN (tyW x.ty) (s.rs x.a).toNat)))
def execBswap (x : IntU) (s : State) : Out' :=
  guarded x.h s fun s => done (s.ws x.d (tyPutN x.ty (bswapN (tyW x.ty / 8) (s.rs x.a).toNat)))

/-! ## Compare, select, move (R128, R129) -/

/-- A truth value into an s register as 0 or 1, into a predicate as all lanes (R128). -/
def State.putBool (s : State) (d : SP) (c : Bool) : State :=
  match d with
  | .s r => s.ws r (if c then 1 else 0)
  | .p r => s.wp r (if c then BitVec.allOnes 32 else 0)
def State.compare (s : State) (x : Cmp) (f : Int → Int → Bool) : Res Unit :=
  (s.src (tySigned x.ty) x.b).andThen fun b s => done (s.putBool x.d (f (tyVal x.ty (s.rs x.a).toNat) (tyVal x.ty b.toNat)))
def execCmpeq (x : Cmp) (s : State) : Out' := guarded x.h s fun s => s.compare x fun a b => decide (a = b)
def execCmpne (x : Cmp) (s : State) : Out' := guarded x.h s fun s => s.compare x fun a b => decide (a ≠ b)
def execCmplt (x : Cmp) (s : State) : Out' := guarded x.h s fun s => s.compare x fun a b => decide (a < b)
def execCmple (x : Cmp) (s : State) : Out' := guarded x.h s fun s => s.compare x fun a b => decide (a ≤ b)
def execCmpgt (x : Cmp) (s : State) : Out' := guarded x.h s fun s => s.compare x fun a b => decide (b < a)
def execCmpge (x : Cmp) (s : State) : Out' := guarded x.h s fun s => s.compare x fun a b => decide (b ≤ a)
/-- `sel` reads a constant window A whatever its predicate says, and misses or traps there as any reader does (DESIGN CHOICE, log 81). -/
def execSel (x : Sel) (s : State) : Out' :=
  guarded x.h s fun s => (s.src true x.a).andThen fun a s => done (s.ws x.d (if (s.rp x.c).getLsbD 0 then a else s.rs x.b))
def execMov (x : Mov) (s : State) : Out' :=
  guarded x.h s fun s => (s.src (tySigned x.ty) x.a).andThen fun a s => done (s.ws x.d (tyPutN x.ty a.toNat))
def execLih (x : Lih) (s : State) : Out' :=
  guarded x.h s fun s => done (s.ws x.d (x.i ++ (s.rs x.a).extractLsb' 0 32))

/-! ## Address arithmetic, no-op (R130, R131) -/

def execLea (x : Lea) (s : State) : Out' :=
  guarded x.h s fun s => done (s.ws x.d (s.rs x.a + (match x.b with
    | .s r => s.rs r <<< x.scale.val
    | .i v => sext32 v)))
def execNop (x : HOnly) (s : State) : Out' := guarded x.h s done

/-! ## Predicates (R132) -/

def execPand (x : PPP) (s : State) : Out' := guarded x.h s fun s => done (s.wp x.d (s.rp x.a &&& s.rp x.b))
def execPor (x : PPP) (s : State) : Out' := guarded x.h s fun s => done (s.wp x.d (s.rp x.a ||| s.rp x.b))
def execPxor (x : PPP) (s : State) : Out' := guarded x.h s fun s => done (s.wp x.d (s.rp x.a ^^^ s.rp x.b))
def execPandn (x : PPP) (s : State) : Out' := guarded x.h s fun s => done (s.wp x.d (s.rp x.a &&& ~~~(s.rp x.b)))
def execPnot (x : PP) (s : State) : Out' := guarded x.h s fun s => done (s.wp x.d (~~~(s.rp x.a)))
def execPset (x : PI) (s : State) : Out' := guarded x.h s fun s => done (s.wp x.d x.i)
def execPread (x : SPr) (s : State) : Out' := guarded x.h s fun s => done (s.ws x.d (zext32 (s.rp x.a)))
def execPwrite (x : PS) (s : State) : Out' := guarded x.h s fun s => done (s.wp x.d ((s.rs x.a).extractLsb' 0 32))
def execPcnt (x : SPr) (s : State) : Out' := guarded x.h s fun s => done (s.ws x.d (w64 (popcount (s.rp x.a).toNat 32)))

end Sys2Proof.Machine
end

