-- ==== Sys2Proof/Machine/Access.lean ====
section
/-! DEFINITION. Scalar and vector loads and stores (10 R187 to R191), validation sets (R194) and prefetch (R196). -/

namespace Sys2Proof.Machine

/-! ## Scalar loads and stores (R188) -/

def execLd (x : LdA) (s : State) : Out' :=
  guarded x.h s fun s =>
    let a := s.addr x.m
    let n := tyW x.ty / 8
    (s.accessAligned s.agent a n n .load false).andThen fun p s =>
    (s.load p a n false x.h.hint.val).andThen fun (bs, far) s =>
    done (s.reply far { Result.none with s := [(x.d, tyPutN x.ty (ofBytes bs))], acq := if x.acq then some x.scope else none })
/-- Bytes with their virtual addresses. -/
def bytesAt (va : Nat) (bs : List Byte) : List (Nat × Byte) := ((List.range bs.length).map (va + ·)).zip bs
def execSt (x : StA) (s : State) : Out' :=
  guarded x.h s fun s =>
    let a := s.addr x.m
    let n := tyW x.ty / 8
    (s.accessAligned s.agent a n n .store false).andThen fun p s =>
    s.store p a (bytesAt a.toNat (toBytes n (s.rs x.c).toNat)) x.scope x.rel (x.h.hint.val == 1)

/-! ## Typed vector accesses (R190, R191) -/

/-- Element bytes (0: two blocks), access bytes, matching FMT (0: raw). -/
def vtyB (x : VTy) : Nat :=
  match x with
  | .n32 | .i32 | .f32 => 4 | .f16 | .bf16 => 2 | .e4m3 | .e5m2 => 1 | _ => 0
def vtyN (x : VTy) : Nat :=
  match x with
  | .n32 | .i32 | .f32 => 128 | .f16 | .bf16 => 64 | .e4m3 | .e5m2 => 32 | .sx3 => 16 | .sx5 => 24 | .sx8 => 36 | .c4 => 16
def vtyFmt (x : VTy) : Nat :=
  match x with
  | .n32 | .i32 | .f32 => 0 | .f16 => 1 | .bf16 => 2 | .e4m3 => 3 | .e5m2 => 4 | .sx3 => 5 | .sx5 => 6 | .sx8 => 7 | .c4 => 8
def vtyBlock (x : VTy) : Nat := vtyN x / 2
/-- Magnitude bits of an SX type. -/
def vtyP (x : VTy) : Nat :=
  match x with
  | .sx3 => 2 | .sx5 => 4 | _ => 7
/-- The f32 pattern of a value that f32 holds exactly, with the flag of a NaN operand. -/
def exact32 (v : FVal) : Nat × Nat := ((fround fF32 .rne false false v).1, nanFlags [v])
/-- Element `j` of an access's bytes as an f32 value and its flags (09 R174, R177, R179). -/
def decodeElem (x : VTy) (ct : W64 × W64) (bs : List Byte) (j : Nat) : Nat × Nat :=
  let blk := field bs (vtyBlock x * (j / 16)) (vtyBlock x)
  match x with
  | .n32 | .i32 | .f32 => (field bs (4 * j) 4, 0)
  | .f16 => exact32 (fdec fF16 (field bs (2 * j) 2))
  | .bf16 => exact32 (fdec fBf16 (field bs (2 * j) 2))
  | .e4m3 => exact32 (fdec fE4m3 (field bs j 1))
  | .e5m2 => exact32 (fdec fE5m2 (field bs j 1))
  | .sx3 | .sx5 | .sx8 => exact32 (sxDec (vtyP x) blk (j % 16))
  | .c4 => intToF fF32 .rne (ctEntry ct.1 ct.2 (bits blk (4 * (j % 16)) 4))
/-- The bytes of elements `lo` to `hi - 1`, or of the two blocks, that a vector encodes to, and the flags of the active lanes. -/
def encodeElems (x : VTy) (ct : W64 × W64) (rm : Rm) (sat ns : Bool) (v : VWord) (act : List Nat) (lo hi : Nat) : List Byte × Nat :=
  let val (j : Nat) : FVal := fdec fF32 (lane v j).toNat
  let lanesOf (f : FFmt) (b : Nat) : List Byte × Nat :=
    let rs := ((List.range (hi - lo)).map (lo + ·)).map fun j =>
      if act.contains j then fToF fF32 f rm sat ns (lane v j).toNat else (0, 0)
    (rs.flatMap fun r => toBytes b r.1, rs.foldl (fun a r => a ||| r.2) 0)
  match x with
  | .n32 | .i32 | .f32 => ((vBytes v).drop (4 * lo) |>.take (4 * (hi - lo)), 0)
  | .f16 => lanesOf fF16 2
  | .bf16 => lanesOf fBf16 2
  | .e4m3 => lanesOf fE4m3 1
  | .e5m2 => lanesOf fE5m2 1
  | .sx3 | .sx5 | .sx8 =>
    let bl (k : Nat) := sxEnc rm (vtyP x) ((List.range 16).map fun j => val (16 * k + j))
    (toBytes (vtyBlock x) (bl 0).1 ++ toBytes (vtyBlock x) (bl 1).1, (bl 0).2 ||| (bl 1).2)
  | .c4 =>
    let rs := (List.range 32).map fun j =>
      let r := ctEnc ct.1 ct.2 (val j)
      (r.1, r.2 ||| (if (val j) = .nan true then flagI else 0))
    (toBytes 8 (packElems 4 ((rs.take 16).map (·.1))) ++ toBytes 8 (packElems 4 ((rs.drop 16).map (·.1))),
     rs.foldl (fun a r => a ||| r.2) 0)

/-- Lanes an access acts on: those of the guard, or all for block types. -/
def State.actLanes (s : State) (h : Hdr) (x : VTy) : List Nat :=
  if vtyB x = 0 then List.range 32 else bitList (s.guard h).toNat 32
/-- Bytes of `va`'s page that an aligned run of `k` blocks covers lie in whole blocks of one page each (R190). -/
def blocksOk (p : Place) (va bs k : Nat) : Bool :=
  match p with
  | .mem pgs =>
    (List.range k).all fun i =>
      match pgs.find? fun q => decide (q.va ≤ va + i * bs) && decide (va + i * bs < q.va + q.size) with
      | some q => (va + i * bs - q.va) % bs == 0 && decide (va + (i + 1) * bs ≤ q.va + q.size)
      | none => false
  | _ => true
/-- Checks 5 and 6 of 08 R148 for a typed or raw vector access of the span at `a`; whether it is decoded. -/
def State.typed (s : State) (p : Place) (a : W64) (x : VTy) : Res Bool :=
  let f := vtyFmt x
  let dec := f != 0 && p.fmt == f
  let aligned := if vtyB x = 0 then !dec || blocksOk p a.toNat (vtyBlock x) 2 else a.toNat % vtyB x == 0
  if !aligned then .trap s 0x13 a 0
  else if f != 0 && p.fmt != 0 && p.fmt != f && !s.mode.fmtovr then .trap s 0x14 a 0
  else .ok dec s
/-- First active lane and one past the last; for block types the whole access is one element. -/
def spanLanes (x : VTy) (act : List Nat) : Nat × Nat :=
  if vtyB x = 0 then (0, 32) else (act.headD 0, act.getLastD 0 + 1)
/-- First byte and length of the span. -/
def spanBytes (x : VTy) (lo hi : Nat) : Nat × Nat := if vtyB x = 0 then (0, vtyN x) else (lo * vtyB x, (hi - lo) * vtyB x)
/-- Flags that trap under MODE.ARITH (09 R173). -/
def State.arithTrap (s : State) (f : Nat) (k : State → Res Unit) : Res Unit :=
  if s.mode.arith && (bit f 0 || bit f 1) then fail s 0x40 (w64 (arithInfo f)) else k s

/-- Virtual addresses that an access of a span of `n` bytes at `va`, `off` bytes into the vector, touches: those of active lanes (10 R191). -/
def activeBytes (x : VTy) (act : List Nat) (va off n : Nat) : List Nat :=
  ((List.range n).filter fun i => vtyB x = 0 || act.contains ((off + i) / vtyB x)).map (va + ·)
/-- The span of `n` bytes at `va` with the bytes that were read at `vas`. -/
def spanOf (va n : Nat) (vas : List Nat) (bs : List Byte) : List Byte :=
  let got := vas.zip bs
  (List.range n).map fun i => (assocGet got (va + i)).getD 0
/-- The vector register after an undecoded load: bytes `off ..` come from memory where their lane is active. -/
def rawLoad (x : VTy) (h : Hdr) (old : VWord) (act : List Nat) (off : Nat) (bs : List Byte) : VWord :=
  let n := vtyN x
  let ob := vBytes old
  vOfBytes ((List.range 128).map fun i =>
    if i < n && (vtyB x = 0 || act.contains (i / vtyB x)) then (bs[i - off]?).getD 0
    else if n ≤ i && h.pred = 0 then 0 else (ob[i]?).getD 0)
def execVld (x : VldA) (s : State) : Out' :=
  finish <|
    let act := s.actLanes x.h x.x
    if act.isEmpty then done s
    else
      let (lo, hi) := spanLanes x.x act
      let (off, n) := spanBytes x.x lo hi
      let a := s.addr x.m + w64 off
      (s.access s.agent a n .load false).andThen fun p s =>
      (s.typed p a x.x).andThen fun dec s =>
      let vas := activeBytes x.x act a.toNat off n
      (s.loadAt p a vas true x.h.hint.val).andThen fun (got, far) s =>
      let bs := spanOf a.toNat n vas got
      let old := s.rv x.d
      let put (v : VWord) (f : Nat) (s : State) : Res Unit :=
        done (s.reply far { Result.none with v := [(x.d, v)], sticky := stickyOf f })
      if dec then
        let full := List.replicate off 0 ++ bs
        let r (j : Nat) := decodeElem x.x s.ctab full j
        let f := act.foldl (fun f j => f ||| (r j).2) 0
        s.arithTrap f fun s => put (mkLanes fun j => if act.contains j then w32 (r j).1 else lane old j) f s
      else put (rawLoad x.x x.h old act off bs) 0 s
def execVst (x : VstA) (s : State) : Out' :=
  finish <|
    let act := s.actLanes x.h x.x
    if act.isEmpty then done s
    else
      let (lo, hi) := spanLanes x.x act
      let (off, n) := spanBytes x.x lo hi
      let a := s.addr x.m + w64 off
      (s.access s.agent a n .store false).andThen fun p s =>
      (s.typed p a x.x).andThen fun dec s =>
      let v := s.rv x.c
      let (bs, f) := if dec then encodeElems x.x s.ctab x.rm x.sat s.mode.fp8ns v act lo hi else (((vBytes v).drop off).take n, 0)
      s.arithTrap f fun s =>
        let cells := (bytesAt a.toNat bs).filter fun c => vtyB x.x = 0 || act.contains ((c.1 - a.toNat + off) / vtyB x.x)
        (s.store p a cells x.scope false (x.h.hint.val == 1)).andThen fun _ s => done (s.orSticky (stickyOf f))

/-! ## Validation sets (R194) -/

/-- Writes of the thread that have not been performed. -/
def State.openWrites (s : State) (t : ThreadId) : Bool :=
  ((s.core t.core).sb.any fun e => e.thread = some t) || ((s.cluster (clusterOf t.core)).bb.any fun e => e.thread = some t)
def execValchk (x : DOnly) (s : State) : Out' :=
  guarded x.h s fun s =>
    if s.openWrites s.me then .pass s
    else
      let v := s.opTh.valset
      let r := packBits (v.entries.map fun e => s.versionOf e.1 != e.2)
      done ((s.versionReads (v.entries.map (·.1))).ws x.d (w64 (r + 65536 * bnat v.ovf)))
def execValclr (x : HOnly) (s : State) : Out' := guarded x.h s fun s => done (s.updTh fun t => { t with valset := .reset })

/-! ## Prefetch (R196) -/

def execPref (x : PrefA) (s : State) : Out' :=
  guarded x.h s fun s =>
    let a := s.addr x.m
    match s.access s.agent a 1 .load true with
    | .ok p s =>
      let ev := x.h.hint.val == 1
      match x.level, p.mside with
      | .l2, false => done (s.l2Touch (p.at a.toNat a.toNat) ev)
      | .l1, false =>
        let e := s.lineCopy s.myShingle p (a.toNat / 128) a.toNat
        if s.myCore.l1.any fun o => o.line == e.line && o.sh == e.sh then done s
        else done ((s.l2Touch (128 * e.line) ev).updMyCore fun k => k.addCopy e)
      | _, _ => done s
    | .pass s => done s
    | .trap s _ _ _ => done s

end Sys2Proof.Machine
end

