-- ==== Sys2Proof/Machine/Issue.lean ====
section
/-! DEFINITION. Fetching: the L0 cache, merged fills, prefetches, wholeness of a line (04 R67 to R74), control transfers (R69, R70),
the word checks of a bundle (R84), idempotent regions (22 R378) and flow signatures (22 R380). -/

namespace Sys2Proof.Machine

/-! ## Images of lines -/

/-- The 64 bytes of the line at a physical address, read as one (04 R74). -/
def State.lineAt (s : State) (pa : Nat) : BitVec 512 := BitVec.ofNat 512 (ofBytes (s.pocBytes pa 64))
def l0Get (k : Core) (line : Nat) : Option (BitVec 512 × Nat) := (k.l0.find? (·.1 = line)).map (·.2)
/-- A line put into an L0 of 512 lines; the oldest leaves (log 14). -/
def l0Put (l : List (Nat × BitVec 512 × Nat)) (line : Nat) (img : BitVec 512) (cycle : Nat) : List (Nat × BitVec 512 × Nat) :=
  let l := l.filter (·.1 != line)
  (if l.length < 512 then l else l.drop 1) ++ [(line, img, cycle)]

/-- Page of a fetch line for the issuing thread, or the failure: cause and TRAPINFO (04 R70, 08 R147). -/
def State.fetchPage (s : State) (line : Nat) : (Pg ⊕ (Byte × W64)) × State :=
  let va := 64 * line
  if devBase ≤ va then (.inr (0x11, w64 Kind.fetch.code), s)
  else
    let (r, s) := s.lookup (clusterOf s.cur.core) s.myPart va
    match r with
    | .inr i => (.inr (0x10, i), s)
    | .inl pg =>
      match leafFail pg.leaf .fetch s.super with
      | some i => (.inr (0x11, i), s)
      | none => (.inl pg, s)

/-- A request of the core for a line at a physical address (04 R73): it joins the entry of that address, whichever kind of page it came
through, or takes a new one, or is not placed. -/
def State.fetchRequest (s : State) (pa line : Nat) (ms : Bool) : State :=
  let cl := clusterOf s.cur.core
  let c := s.cur.core
  let k := s.cluster cl
  if k.fmb.any (fun e => e.pa = pa) then
    s.setCluster cl { k with fmb := k.fmb.map fun e =>
      if e.pa = pa then { e with reqs := if e.reqs.contains (c, line) then e.reqs else e.reqs ++ [(c, line)] } else e }
  else if k.fmb.length < 16 then s.setCluster cl { k with fmb := k.fmb ++ [⟨pa, ms, [(c, line)]⟩] }
  else s
/-- The core waits for a line at a physical address. -/
def State.requested (s : State) (pa line : Nat) : Bool :=
  (s.cluster (clusterOf s.cur.core)).fmb.any fun e => e.pa == pa && e.reqs.contains (s.cur.core, line)
/-- The next four lines that are absent, within the 1 GiB region (04 R72). A prefetch that is dropped has no effect. -/
def State.prefetch (s : State) (line : Nat) : State :=
  [1, 2, 3, 4].foldl (fun (s : State) j =>
    let l := line + j
    if l / 2 ^ 24 != line / 2 ^ 24 || (l0Get s.myCore l).isSome then s
    else
      match s.fetchPage l with
      | (.inr _, _) => s
      | (.inl pg, t) =>
        let pa := pg.pa + (64 * l - pg.va)
        let t := t.fetchRequest pa l pg.mside
        if t.requested pa l then t else s) s

/-! ## Control transfers (04 R69, R70) -/

/-- Target of an offset, from the line that holds the branch. -/
def offTarget (pc : W64) (off : W32) : W64 :=
  let d := toS 29 (off.toNat / 8)
  mkPc (ofZ 46 ((pcLine pc : Int) + d)) (off.toNat % 8)
/-- The checks of a taken transfer to `t`; `tgt`: with the TGT check. The look at a line that is not in L0 is no request that a slice counts
(DESIGN CHOICE, log 83). -/
def State.checkTarget (s : State) (t : W64) (tgt : Bool) : Res Unit :=
  if 4 < pcSlot t || bits t.toNat 3 3 != 0 || bits t.toNat 52 12 != 0 then .trap s 0x05 t 0
  else
    match s.fetchPage (pcLine t) with
    | (.inr (c, i), s) => .trap s c t i
    | (.inl pg, s) =>
      let img := match l0Get s.myCore (pcLine t) with
        | some (i, _) => i
        | none => s.lineAt (pg.pa + (64 * pcLine t - pg.va))
      if tgt && !lineTgt img (pcSlot t) then .trap s 0x05 t 0 else done s
/-- A taken transfer: the PC after the bundle is the target. -/
def State.jump (s : State) (t : W64) : State := { s with cur := { s.cur with npc := t, taken := true } }

/-! ## Entering a line -/

/-- What fetching the next bundle comes to. -/
inductive Fetch where
  /-- The line's image, ready to issue from. -/
  | line (img : BitVec 512) (s : State)
  | wait (s : State)
  /-- A fetch fault: cause, line number, TRAPINFO; the PC of the trap and its TRAPADDR follow from the arrival. -/
  | fault (cause : Byte) (info : W64) (image : Option (BitVec 512)) (s : State)

/-- TRAPINFO of a line that is not whole (04 R67, R84). The pair class, bit 1, belongs to a bundle and is not looked at beside it (log 78). -/
def lineFaults (img : BitVec 512) : Nat := bnat (!lineParity img) + 4 * bnat (!lineZero img) + 8 * bnat (!lineTargets img)
/-- Checks of a line that the thread enters with an image (04 R67); a parity mismatch discards the line and fetches it once more. -/
def State.enterLine (s : State) (line pa : Nat) (ms : Bool) (img : BitVec 512) : Fetch :=
  let bad := lineFaults img
  if bit bad 0 && s.th.refetch != some line then
    let s := s.updMyCore fun k => { k with l0 := k.l0.filter (·.1 != line) }
    let s := s.errLog 5 (w64 (64 * line)) 0 0 0x04 s.cur.core
    .wait ((s.fetchRequest pa line ms).updTh fun t => { t with refetch := some line })
  else
    let s := s.updTh fun t => { t with refetch := none }
    if bad = 0 then .line img (s.updTh fun t => { t with line := some (line, img) })
    else .fault 0x04 (w64 bad) (some img) s

/-- Entering a line by way of its page: at a vector the TGT bit is checked (22 R362), and then, as for every line, what R67 asks. Of an
L0 copy and memory that differ, either is used (04 R74). -/
def State.enterPage (s : State) (line : Nat) (img : BitVec 512) : Fetch :=
  match s.fetchPage line with
  | (.inr (c, i), s) => .fault c i none s
  | (.inl pg, s) =>
    let pa := pg.pa + (64 * line - pg.va)
    let now := s.lineAt pa
    let (b, s) := if now = img then (false, s) else s.flip
    let img := if b then now else img
    if s.th.arrive = .vector && !lineTgt img (pcSlot s.th.pc) then .fault 0x05 0 (some img) s else s.enterLine line pa pg.mside img
/-- The prefetches of a thread that enters a line, once for each time it enters one. -/
def State.prefetchOnce (s : State) (line : Nat) : State :=
  if s.th.pref = some line then s else (s.prefetch line).updTh fun t => { t with pref := some line }
/-- The line of the thread's PC: in L0, available from the cycle after its fill; else requested, before the prefetches that follow it
(04 R71 to R74, log 61). -/
def State.fetch (s : State) : Fetch :=
  let line := pcLine s.th.pc
  match l0Get s.myCore line with
  | some (img, at') =>
    let s := s.prefetchOnce line
    if s.cycle ≤ at' then .wait s
    else
      match s.th.line with
      | some (l, i) => if l = line then .line i s else s.enterPage line img
      | none => s.enterPage line img
  | none =>
    match s.fetchPage line with
    | (.inr (c, i), s) => .fault c i none s
    | (.inl pg, s) => .wait ((s.fetchRequest (pg.pa + (64 * line - pg.va)) line pg.mside).prefetchOnce line)

/-! ## The bundle and its word checks (04 R66, R84) -/

/-- A bundle: its instructions with their slots and words. -/
structure Bundle where
  slot : Nat
  n : Nat
  w1 : W96
  w2 : W96
  deriving DecidableEq, Repr
def bundleOf (img : BitVec 512) (slot : Nat) : Bundle :=
  let (a, n) := bundleAt (lineTmpl img) slot
  ⟨a, n, lineWord img a, if n = 2 then lineWord img (a + 1) else 0⟩
def opOf (w : W96) : Nat := bits w.toNat 88 8
def fnOf (w : W96) : Nat := bits w.toNat 80 8
def pairFirstOk (w : W96) : Bool := 0x10 ≤ opOf w && opOf w ≤ 0x6F
def pairSecondOk (w : W96) : Bool := 0x80 ≤ opOf w && opOf w ≤ 0xAF

/-- A failed word check: its order, whether the second instruction failed it, cause and TRAPINFO; check 2 names the word. -/
structure BadWord where
  stage : Nat
  second : Bool
  cause : Byte
  info : W64
  opcode : Option (Byte × Byte)
  deriving DecidableEq, Repr
def emulable (op : Nat) : Bool := (0xC8 ≤ op && op ≤ 0xCF) || (0xE0 ≤ op && op ≤ 0xFE)
def opcodeInfo (op fn : Byte) : W64 := w64 (bnat (emulable op.toNat) + 2 ^ 8 * op.toNat + 2 ^ 16 * fn.toNat)
def badOf (pair second : Bool) (e : DecErr) : BadWord :=
  match e with
  | .opcode _ op fn => ⟨2, second, 0x01, opcodeInfo op fn, some (op, fn)⟩
  | .feature f => ⟨3, second, 0x03, w64 (f.toNat + 16 * bnat pair + 32 * bnat second), none⟩
  | .field n => ⟨4, second, 0x02, w64 n, none⟩
/-- The first failure of a bundle, one check at a time, the first instruction before the second. -/
def Bundle.check (b : Bundle) : Except BadWord (Instr × Option Instr) :=
  if b.n = 2 && !pairFirstOk b.w1 then .error ⟨1, false, 0x04, 2, none⟩
  else if b.n = 2 && !pairSecondOk b.w2 then .error ⟨1, true, 0x04, 2, none⟩
  else if b.n = 2 then
    match decode b.w1, decode b.w2 with
    | .ok i, .ok j => .ok (i, some j)
    | .error e, .ok _ => .error (badOf true false e)
    | .ok _, .error e => .error (badOf true true e)
    | .error e, .error d =>
      let x := badOf true false e
      let y := badOf true true d
      .error (if x.stage ≤ y.stage then x else y)
  else
    match decode b.w1 with
    | .ok i => .ok (i, none)
    | .error e => .error (badOf false false e)

/-! ## Regions (22 R378) -/

/-- Tagged effects (16 R300, 18 R333): a region's only one, and its first instruction. -/
def taggedEffect : Instr → Bool
  | .aadd _ | .aand _ | .aor _ | .axor _ | .amin _ | .amax _ | .aswap _ | .acas _ | .afadd _ | .mradd _ | .mrand _ | .mror _
  | .mrxor _ | .mrmin _ | .mrmax _ | .mrfadd _ | .casv _ | .stcv _ | .dlaunch _ | .dsignal _ | .ibsend _ | .ibrecv _ | .msgsend _
  | .msgpost _ | .msgcancel _ | .barsync _ | .bararv _ | .phadv _ | .smpl _ | .tokexec _ => true
  | _ => false
/-- Other instructions before which the current region ends (07 R124, 10 R187, 11 R213, 13 R241, 14 R261, 18 R331, 20 R343, 22 R378). -/
def endsRegion : Instr → Bool
  | .ftileset _ | .ftile _ | .cbadvc _ | .cbadvp _ | .tfill _ | .trel _ | .tdef _ | .cpy _ | .cjob _ | .rset _ | .unpin _ | .frarm _
  | .ctload _ | .oclaim _ | .orelease _ | .zclaim _ | .zrelease _ | .oload _ | .mma _ | .zclear _ | .zstore _ | .zload _ | .mcheck _
  | .rmma _ | .gang _ | .disband _ | .exit _ => true
  | _ => false

def Dests.join (a b : Dests) : Dests := ⟨a.s ++ b.s, a.v ++ b.v, a.p ++ b.p, a.c ++ b.c⟩
/-- Registers that an instruction may write: its destination specifier, and those its description adds. -/
def destsOf (i : Instr) (w : W96) : Dests :=
  let d := destOf (BitVec.ofNat 8 (bits w.toNat 72 8))
  let s (r : SReg) : Dests := ⟨[r.val], [], [], []⟩
  match i with
  | .call _ | .callr _ => s 63
  | .ldv x => d.join (s x.c)
  | .ldpi x => d.join (s x.a)
  | .vldpi x => d.join (s x.a)
  | _ => d
/-- A region that starts at a PC with the thread as it stands. -/
def Region.start (t : Thread) (pc : W64) : Region :=
  { pc := pc, esn := t.esn, ctr := t.ctr, sticky := t.sticky, mode := t.mode, valset := t.valset, sm0 := t.sm0, sm1 := t.sm1,
    regs := t.regs, ws := [], wv := [], wp := [], wc := [], restarts := 0, inside := true }
def Region.write (r : Region) (d : Dests) : Region :=
  { r with ws := d.s.foldl (fun l k => if k = 0 then l else addNew l k) r.ws, wv := d.v.foldl addNew r.wv,
           wp := d.p.foldl (fun l k => if k = 0 then l else addNew l k) r.wp, wc := d.c.foldl addNew r.wc }
/-- The bundle would write a 17th distinct s, p or c register, or a 5th distinct v register. -/
def Region.full (r : Region) : Bool := 16 < r.ws.length + r.wp.length + r.wc.length || 4 < r.wv.length
/-- The region of a thread as its bundle issues at `pc`: with a tagged effect, or with another instruction before which a region ends. -/
def regionBefore (t : Thread) (pc : W64) (tag ends : Bool) (d : Dests) : Region :=
  if t.arrive = .restart then t.region.write d
  else if tag then (Region.start t pc).write d
  else if ends then { t.region with inside := false }
  else
    let r := if t.region.inside then t.region else Region.start t pc
    let r' := r.write d
    if r'.full then (Region.start t pc).write d else r'
/-- The region has written a register. -/
def Region.wrote (r : Region) (f : RegFile) (n : Nat) : Bool :=
  r.inside && (match f with
    | .s => r.ws | .v => r.wv | .p => r.wp | .c => r.wc).contains n
/-- The registers of a restart: those written have their start values and marks, the others the marks they have (22 R379). -/
def Region.back (r : Region) (now : Regs) : Regs := 
  { r.regs with bad := (r.regs.bad.filter fun x => r.wrote x.1 x.2.1) ++ now.bad.filter fun x => !r.wrote x.1 x.2.1 }
/-- A region restart (22 R378): the start values return and the thread issues at REGIONPC; shared state stays. A trap that a drawn instruction of
the cycle was to take with the cycle's end goes: its request executes again (20 R357). -/
def restartRegion (t : Thread) : Thread :=
  let r := t.region
  let t := t.dropPend
  { t with
    pc := r.pc, esn := r.esn, ctr := r.ctr, sticky := r.sticky, mode := r.mode, valset := r.valset, sm0 := r.sm0, sm1 := r.sm1,
    regs := r.back t.regs, region := { r with restarts := r.restarts + 1, ws := [], wv := [], wp := [], wc := [] }, skip := 0, line := none,
    pref := none, sigRead := none, arrive := .restart, sig := { t.sig with valid := false }, parkDue := none }

/-! ## Flow signatures (22 R380) -/

/-- `mix` of R296. -/
def mix (h w : W64) : W64 :=
  let x := h ^^^ w
  let x := x.rotateLeft 23 * 0x9E6F2B8D4C31A5E7
  x ^^^ (x >>> 29)
def sigWord (g : Sig) (w : W96) : Sig := { g with h := mix (mix g.h (w.extractLsb' 0 64)) (w.extractLsb' 64 32 |>.zeroExtend 64), n := g.n + 1 }

/-- Sign-extended distance from the kernel descriptor (01 R17). -/
def kdist (base : W64) (d : W32) : W64 := base + d.signExtend 64
/-- The entry of the signature table for a PC: N and SIG. `bs` holds the table from its header on. -/
def sigFind (l : Launch) (bs : List Byte) (pc : W64) : Option (Nat × Nat) :=
  (List.range (Nat.min (field bs 0 4) 4096)).findSome? fun k =>
    let e := 16 + 16 * k
    let off := field bs e 4
    let line := l.kernel.addr + (w32 (off / 8 * 8)).signExtend 64
    if w64 (line.toNat / 64 * 64 + off % 8) = pc then some (field bs (e + 4) 2, field bs (e + 8) 4) else none
/-- The signature table read as raw loads of the core: its bytes, and whether a line of it left the core. -/
def State.sigLoad (s : State) (l : Launch) : Res (List Byte × Bool) :=
  let a := kdist l.kernel.addr l.kernel.sigoff
  (s.access s.agent a 16 .load false).andThen fun p s =>
  (s.load p a 16 true 0).andThen fun (h, far) s =>
  let n := Nat.min (field h 0 4) 4096
  if n = 0 then .ok (h, far) s
  else
    (s.access s.agent (a + 16) (16 * n) .load false).andThen fun p s =>
    (s.load p (a + 16) (16 * n) true 0).andThen fun (b, far') s => .ok (h ++ b, far || far') s
/-- Checks and restarts the thread's signature before a bundle with an entry, with the table's bytes. -/
def State.sigWith (s : State) (l : Launch) (bs : List Byte) (pc : W64) : Res Unit :=
  match sigFind l bs pc with
  | none => done s
  | some (n, sig) =>
    let g := s.th.sig
    if g.valid && n != 0 && g.n == n && bits g.h.toNat 0 32 != sig then
      .trap (s.errLog 9 pc (w32 l.lid) 0 0x81 s.cur.core) 0x81 0 (w64 (bits g.h.toNat 0 32 + 2 ^ 32 * sig))
    else done (s.updTh fun t => { t with sig := ⟨0, 0, true⟩ })
/-- The check before the bundle at `pc`; while a line of the table is on its way the thread passes its turns. -/
def State.checkSig (s : State) (pc : W64) : Res Unit :=
  match s.myLaunch with
  | none => done s
  | some l =>
    if s.cur.slot == 7 || l.kernel.sigoff = 0 then done s else
    match s.th.sigRead with
    | some (q, bs, here) =>
      if q != pc then .pass (s.updTh fun t => { t with sigRead := none })
      else if here then (s.updTh fun t => { t with sigRead := none }).sigWith l bs pc
      else .pass s
    | none =>
      (s.sigLoad l).andThen fun (bs, far) s =>
      if far then .pass (s.updTh fun t => { t with sigRead := some (pc, bs, false) }) else s.sigWith l bs pc

/-! ## Poisoned registers (22 R379) -/

/-- Instructions that read the register their D names. -/
def readsD : Instr → Bool
  | .stcv _ | .casv _ | .acas _ | .stpi _ | .cbadvc _ | .cbadvp _ => true
  | _ => false
/-- The register that a specifier names. -/
def regOf (x : Byte) : Option (RegFile × Nat) :=
  match clsOf x with
  | some .s => some (.s, x.toNat % 64)
  | some .v => some (.v, x.toNat % 32)
  | some .p => some (.p, x.toNat % 8)
  | some .c => some (.c, x.toNat % 16)
  | _ => none
/-- The registers an instruction reads, but for its guard. -/
def sourcesOf (i : Instr) (w : W96) : List (RegFile × Nat) :=
  let f (k : Nat) : Byte := BitVec.ofNat 8 (bits w.toNat k 8)
  ((if readsD i then [f 72] else []) ++ [f 64, f 56, f 48]).filterMap regOf
/-- An instruction consumes a poisoned word: its guard, or with any bit of the guard set a source; of a vector source, a word with an
active lane. -/
def consumesBad (r : Regs) (i : Instr) (w : W96) : Bool :=
  let m := lanesOn w r
  let vec := decide (0x80 ≤ bits w.toNat 88 8)
  r.bad.any fun x =>
    (x.1 == .p && x.2.1 == bits w.toNat 37 3 && x.2.1 != 0) ||
    ((sourcesOf i w).contains (x.1, x.2.1) &&
      (if x.1 == .v && vec then m.getLsbD (2 * x.2.2) || m.getLsbD (2 * x.2.2 + 1) else if vec then m != 0 else m.getLsbD 0))

end Sys2Proof.Machine
end

