-- ==== Sys2Proof/Machine/Control.lean ====
section
/-! DEFINITION. Status registers (07 R133, R134, 04 R86, R87), branches, calls and returns (07 R135 to R137), gangs and sub-tile bounds
(R138, 06 R112 to R116), the cluster work queue (R139 to R141, 06 R117, R118), circular buffers (R142, R143, 06 R119, R120). -/

namespace Sys2Proof.Machine

/-! ## Status registers -/

def Mode.word (m : Mode) : W64 := w64 (packBits [m.repro, m.fp8ns, m.arith, m.fmtovr, m.rngrep])
def Mode.ofWord (m : Mode) (x : W64) : Mode :=
  { m with fp8ns := x.getLsbD 1, arith := x.getLsbD 2, fmtovr := x.getLsbD 3, rngrep := x.getLsbD 4 }
/-- The task on whose behalf a slot acts: the resident task, and for slot 7 the task of the record that it serves. -/
def State.servedOf (s : State) (t : ThreadId) : Option TaskId :=
  if t.slot == 7 then ((s.core t.core).bank0.bind (·.task)).or (s.core t.core).task else (s.core t.core).task
/-- The same for the issuing slot. -/
def State.servedTask (s : State) : Option TaskId := s.servedOf s.me
/-- EXPERT as it stood when the launch of that task was accepted (00 R5). -/
def State.expert (s : State) : Bool :=
  ((s.servedTask.bind fun t => s.launch? t.part t.lid).map (·.expert)).getD (s.part s.myPart).desc.expert
/-- The trap bank in use (22 R364, R365). -/
def Core.bank (k : Core) : Option TrapRec := if k.bank1.isSome then k.bank1 else k.bank0
def Core.setBank (k : Core) (r : TrapRec) : Core := if k.bank1.isSome then { k with bank1 := some r } else { k with bank0 := some r }
/-- Global thread index G of 02 R39. -/
def State.gIndex (s : State) (t : ThreadId) : Nat :=
  let k := s.core t.core
  match k.task, s.taskOn t.core with
  | some id, some x => (id.idx * ((s.launchOf x).map (·.kernel.block)).getD 1 + k.bidx) * 8 + t.slot
  | _, _ => 0
/-- The value of a status register; `none` for a reserved number. -/
def State.status (s : State) (n : Nat) : Option W64 :=
  let k := s.myCore
  let t := s.myTask
  let l := s.myLaunch
  let b := (k.bank.getD ⟨0, 0, 0, 0, 0, false, 0, 0, none, 0, 0⟩)
  let c := s.cur.core
  match n with
  | 0x00 => some (w64 (s.gIndex s.me))
  | 0x01 => some (w64 (c % 8 + 16 * k.bidx))
  | 0x02 => some (w64 (c / 8 % 32))
  | 0x03 => some (w64 (c / 256))
  | 0x04 => some (zext32 s.pkg)
  | 0x05 => some (w64 (((l.bind (·.group)).map (·.rank)).getD 0))
  | 0x06 => some (w64 ((t.map (·.id.idx)).getD 0))
  | 0x07 => some (w64 ((l.map (·.lid)).getD 0))
  | 0x08 => some ((t.map fun t => zext32 t.phase).getD 0)
  | 0x09 => some ((l.map fun l => zext32 l.ridge).getD 0)
  | 0x0A => some ((l.map (·.seed)).getD 0)
  | 0x0B => some ((l.map (·.cbase)).getD 0)
  | 0x0C => some ((l.map (·.cext)).getD 0)
  | 0x0D => some s.opTh.mode.word
  | 0x0E => some (w64 (s.ptpSec % 2 ^ 32 * 2 ^ 32 + s.ptpFrac))
  | 0x0F => some (s.opTh.timehi.zeroExtend 64)
  | 0x10 => some (w64 (s.cycle - k.cycle0))
  | 0x11 => some 0x0302
  | 0x12 => some (w64 capBase)
  | 0x13 => some (w64 ((s.opTh.gang.map (·.size)).getD 1))
  | 0x14 => some (w64 ((s.opTh.gang.map (·.idx)).getD 0))
  | 0x15 => some (w64 b.cause.toNat)
  | 0x16 => some b.pc
  | 0x17 => some b.addr
  | 0x18 => some b.info
  | 0x19 => some s.opTh.region.pc
  | 0x1A => some s.ctab.1
  | 0x1B => some s.ctab.2
  | 0x1C => some (w64 k.sp)
  | 0x1D => some (w64 ((s.part s.myPart).desc.tokhi * 4096))
  | _ => none
/-- Registers 0x015 to 0x018: no access at USER level. -/
def supOnly (n : Nat) : Bool := 0x15 ≤ n && n ≤ 0x18
def execSrd (x : SrdA) (s : State) : Out' :=
  guarded x.h s fun s =>
    match s.status x.n.val with
    | none => badPos s 5
    | some v =>
      if supOnly x.n.val && !s.super then fail s 0x11 0
      else
        let s := if x.n.val = 0x0E then s.updTh fun t => { t with timehi := BitVec.ofNat 16 (s.ptpSec / 2 ^ 32) } else s
        done (s.ws x.d v)
/-- A write of a register that has RW fields at the thread's level; `none` where a field may not change. TRAPPC and REGIONPC take every bit, those
that the form of 04 R68 has as zero too (DESIGN CHOICE, log 81). -/
def State.setStatus (s : State) (n : Nat) (v : W64) : Option State :=
  let bankSet (f : TrapRec → TrapRec) : Option State :=
    some (s.updMyCore fun k => match k.bank with
      | some r => k.setBank (f r)
      | none => k)
  match n with
  | 0x0D =>
    let d := v ^^^ s.opTh.mode.word
    if d.getLsbD 0 || bits d.toNat 5 59 != 0 then none
    else if bits d.toNat 3 2 != 0 && !s.expert then none
    else some (s.updTh fun t => { t with mode := t.mode.ofWord v })
  | 0x15 => if v.toNat < 256 then bankSet fun r => { r with cause := v.extractLsb' 0 8 } else none
  | 0x16 => bankSet fun r => { r with pc := v }
  | 0x17 => bankSet fun r => { r with addr := v }
  | 0x18 => bankSet fun r => { r with info := v }
  | 0x19 => some (s.updTh fun t => { t with region := { t.region with pc := v } })
  | 0x1A => some (s.updMyCore fun k => { k with ctab := v, ctabW := (some v, k.ctabW.2) })
  | 0x1B => some (s.updMyCore fun k => { k with ctabhi := v, ctabW := (k.ctabW.1, some v) })
  | _ => none
def execSwr (x : SwrA) (s : State) : Out' :=
  guarded x.h s fun s =>
    if (s.status x.n.val).isNone then badPos s 5
    else if ((0x15 ≤ x.n.val && x.n.val ≤ 0x19) && !s.super) then fail s 0x11 0
    else match s.setStatus x.n.val (s.rs x.a) with
      | some s => done s
      | none => fail s 0x11 0

/-! ## Branches, calls, returns -/

/-- A transfer to `t` with its other effect `f`: a follower takes its leader's path, and its own effect under its own guard (R137). -/
def State.transfer (s : State) (taken : Bool) (t : W64) (f : State → State) : Res Unit :=
  if s.cur.follow || !taken then done (f s)
  else (s.checkTarget t true).andThen fun _ s => done ((f s).jump t)
def execBr (x : BrO) (s : State) : Out' := guarded x.h s fun s => s.transfer true (offTarget s.cur.ipc x.off) id
def execBrz (x : BrR) (s : State) : Out' := guarded x.h s fun s => s.transfer (s.rs x.r == 0) (offTarget s.cur.ipc x.off) id
def execBrnz (x : BrR) (s : State) : Out' := guarded x.h s fun s => s.transfer (s.rs x.r != 0) (offTarget s.cur.ipc x.off) id
def execBrdec (x : BrR) (s : State) : Out' :=
  guarded x.h s fun s =>
    let t := s.rs x.r - 1
    s.transfer (t != 0) (offTarget s.cur.ipc x.off) fun s => s.ws x.r t
def linkReg : SReg := 63
def execCall (x : BrO) (s : State) : Out' :=
  guarded x.h s fun s => s.transfer true (offTarget s.cur.ipc x.off) fun s => s.ws linkReg s.cur.link
def execCallr (x : AOnly) (s : State) : Out' :=
  guarded x.h s fun s => s.transfer true (s.rs x.a) fun s => s.ws linkReg s.cur.link
def execJr (x : AOnly) (s : State) : Out' := guarded x.h s fun s => s.transfer true (s.rs x.a) id
def execRet (x : HOnly) (s : State) : Out' := guarded x.h s fun s => s.transfer true (s.rs linkReg) id

/-! ## Gangs -/

def gsizeN (g : GSize) : Nat :=
  match g with
  | .g2 => 2 | .g4 => 4 | .g8 => 8
/-- The size a thread waits to form a gang of. -/
def gangWait (t : Thread) : Option Nat :=
  match t.pend.map (·.stage) with
  | some (Stage.gang n) => some n
  | _ => none
/-- Package cores of the group of `n` that a core of the block at `base` belongs to. -/
def groupOf (c bidx n : Nat) : List Nat := gangCores c (bidx % n) n
/-- A waiting member traps at its `gang`, which takes no effect. -/
def State.trapGang (s : State) (t : ThreadId) (info : W64) : State := s.trapPend t 0xA0 0 info
/-- The gang forms: every waiting member goes on, the member with index 0 leads. -/
def State.formGang (s : State) (slot n : Nat) (cs : List Nat) : State :=
  ((List.range n).zip cs).foldl (fun s (j, c) =>
    s.updThr ⟨c, slot⟩ fun t => { t with pend := none, gang := some ⟨n, j, 0, [], none, [], false, false, none⟩ }) s
/-- `gang.n`; where several cases of R112 hold, TRAPINFO names the first alone: [0], [1], [2] (DESIGN CHOICE, log 81). -/
def execGang (x : GangA) (s : State) : Out' :=
  finish <|
    let n := gsizeN x.size
    let c := s.cur.core
    let b := s.myCore.bidx
    let base := b / n * n
    let k := (s.myLaunch.map (·.kernel))
    if ((k.map (·.block)).getD 1) < base + n || ((k.map (·.gang)).getD 1) < n then fail s 0xA0 1
    else if s.th.gang.isSome then fail s 0xA0 2
    else
      let cs := groupOf c b n
      let ts (l : List Nat) : List ThreadId := l.map fun c => ⟨c, s.cur.slot⟩
      let others := (ts cs).filter (· != s.me)
      let meets (t : ThreadId) (m : Nat) : Bool :=
        m != n && (cs.contains t.core || (groupOf t.core (s.core t.core).bidx m).contains c)
      match (ts (s.blockOf c)).find? fun t => ((gangWait (s.thr t)).map (meets t)).getD false with
      | some o =>
        let m := (gangWait (s.thr o)).getD n
        let both := (ts cs) ++ ts (groupOf o.core (s.core o.core).bidx m)
        let s := (both.eraseDups.filter fun t => t != s.me && (gangWait (s.thr t)).isSome).foldl (fun s t => s.trapGang t 4) s
        fail s 0xA0 4
      | none =>
        if others.all fun t => gangWait (s.thr t) == some n then done (s.formGang s.cur.slot n cs)
        else done (s.wait (.gang n))
/-- The leader's `disband` reaches each follower with its bundle one rotation later. -/
def execDisband (_x : HOnly) (s : State) : Out' := finish (done (s.updTh fun t => { t with gang := none }))

/-! ## Sub-tile bounds (06 R116) -/

/-- Rows and columns of a gang's mesh. -/
def meshOf (size : Nat) : Nat × Nat :=
  match size with
  | 2 => (1, 2) | 4 => (2, 2) | 8 => (2, 4) | _ => (1, 1)
/-- Bounds lo and hi of member `g` along an axis. -/
def partBounds (row : Bool) (size g e gr : Nat) : Nat × Nat :=
  let (r, c) := meshOf size
  let p := if row then r else c
  let i := if row then g / c else g % c
  let u := ceilDiv e gr
  (Nat.min e (gr * (u * i / p)), Nat.min e (gr * (u * (i + 1) / p)))
def isPow2 (n : Nat) : Bool := (List.range 17).any fun k => n == 2 ^ k
def execPart (x : PartA) (s : State) : Out' :=
  guarded x.h s fun s =>
    let e := (s.si x.a).toNat % 2 ^ 32
    let g := (s.si x.b).toNat
    if !isPow2 g then badPos s 2
    else
      let o := s.opTh.gang
      let (lo, hi) := partBounds x.row ((o.map (·.size)).getD 1) ((o.map (·.idx)).getD 0) e g
      done (s.ws x.d (w64 (hi * 2 ^ 32 + lo)))

/-! ## The cluster work queue -/

/-- A shape record that obeys 01 R26, leaving out the comparison with DIM1: header and bounds. -/
def recordOk (h : List Byte) (b : List Nat) : Bool :=
  field h 3 1 == 0 && field h 2 1 == 1 && field h 0 2 ≤ 4095 && field h 16 16 == 0
  && b.length == field h 0 2 + 1 && b.headD 1 == 0 && (b.zip (b.drop 1)).all (fun e => e.1 ≤ e.2)
  && b.getLastD 1 == field h 4 4 && ((b.zip (b.drop 1)).map fun e => e.2 - e.1).foldl Nat.max 0 == field h 12 4
/-- Numbers of 4 bytes. -/
def words32 (bs : List Byte) (n : Nat) : List Nat := (List.range n).map fun i => field bs (4 * i) 4
/-- The shape record at an address, read as a load of the thread; whether the load left the core (R139). The addresses of the whole table are
checked before its contents, those of a table with NSEG above 4095 too (log 78). -/
def State.readRecord (s : State) (a : W64) : Res (List Byte × List Nat × Bool) :=
  (s.access s.agent a 32 .load false).andThen fun p s =>
  (s.load p a 32 true 0).andThen fun (h, l) s =>
  let n := Nat.min (field h 0 2) 4095 + 1
  (s.access s.agent (a + 32) (4 * (field h 0 2 + 1)) .load false).andThen fun p s =>
  (s.load p (a + 32) (4 * n) true 0).andThen fun (b, m) s => .ok (h, words32 b n, l || m) s

/-- Row sub-tiles of the grid with the number of rows each covers: (row0, rows), in the order of R117. -/
def WorkQueue.segTile (h nx : Nat) : List (Nat × Nat) → Nat → Option (Nat × Nat × Nat)
  | [], _ => none
  | (a, b) :: r, j =>
    let k := ceilDiv (b - a) h
    if j < k * nx then some (a + h * (j / nx), Nat.min h (b - a - h * (j / nx)), j % nx) else WorkQueue.segTile h nx r (j - k * nx)
/-- Number of sub-tiles of a grid. -/
def WorkQueue.total (q : WorkQueue) : Nat :=
  match q.bounds with
  | none => q.ny * q.nx
  | some b => sumNat ((b.zip (b.drop 1)).map fun e => ceilDiv (e.2 - e.1) q.h * q.nx)
/-- Sub-tile `j`: row0, rows, column. -/
def WorkQueue.tile (q : WorkQueue) (j : Nat) : Option (Nat × Nat × Nat) :=
  match q.bounds with
  | none => if j < q.ny * q.nx then some (q.h * (j / q.nx), q.h, j % q.nx) else none
  | some b => WorkQueue.segTile q.h q.nx (b.zip (b.drop 1)) j
def tileWord (t : Nat × Nat × Nat) : W64 := w64 (t.2.2 * 2 ^ 48 + t.2.1 * 2 ^ 32 + t.1)
/-- The next sub-tile of a queue, and of a victim the last one not handed out (03 R61). -/
def WorkQueue.takeNext (q : WorkQueue) : Option ((Nat × Nat × Nat) × WorkQueue) :=
  if q.set && decide (q.next + q.stolen < q.total) then (q.tile q.next).map fun t => (t, { q with next := q.next + 1 }) else none
def WorkQueue.takeLast (q : WorkQueue) : Option ((Nat × Nat × Nat) × WorkQueue) :=
  if q.set && decide (q.next + q.stolen < q.total) then
    (q.tile (q.total - 1 - q.stolen)).map fun t => (t, { q with stolen := q.stolen + 1 })
  else none

/-- `ftileset`. Where several registers break their limits the trap names the first of A, B, C (log 78). -/
def execFtileset (x : ABC) (s : State) : Out' :=
  finish <|
    let a := (s.rs x.a).toNat
    let b := (s.rs x.b).toNat
    let c := (s.rs x.c)
    let h := bits a 32 16
    let ny := bits a 0 32
    if bits a 48 16 != 0 || h = 0 || (if c = 0 then 2 ^ 31 < h * ny else ny != 0) then badPos s 1
    else if b = 0 || 65535 < b then badPos s 2
    else if bits c.toNat 52 12 != 0 || c.toNat % 64 != 0 then badPos s 3
    else
      let put (s : State) (bs : Option (List Nat)) : State :=
        match s.myTask with
        | some t => s.updTask t.id fun t => { t with wq := ⟨true, h, b, ny, bs, 0, 0⟩ }
        | none => s
      if c = 0 then done ((put s none).wait (.data .none))
      else (s.readRecord c).andThen fun (hd, bs, _) s =>
        if recordOk hd bs && decide (field hd 4 4 ≤ 2 ^ 31) then done ((put s (some bs)).wait (.data .none))
        else fail s 0x31 0

/-- Victims of a task in the order of 03 R61. -/
def victims (t n : Nat) : List Nat := (List.range (n - 1)).map fun i => (t + 1 + i) % n
/-- What `ftile` takes: the word, with the state after it. With no grid set up it takes nothing (06 R118). A victim counts whatever its
place, while its PHASE is that of the task (log 62). -/
def State.takeTile (s : State) (t : Task) : W64 × State :=
  let key := (s.myCore.bidx, s.cur.slot)
  let own (s : State) : State := s.updTask t.id fun t => { t with stealing := t.stealing.filter (·.1 != key) }
  if !t.wq.set then (BitVec.allOnes 64, own s) else
  match t.wq.takeNext with
  | some (x, q) => (tileWord x, (own s).updTask t.id fun t => { t with wq := q })
  | none =>
    match s.launchOf t with
    | none => (BitVec.allOnes 64, own s)
    | some l =>
      if !l.repro then (BitVec.allOnes 64, own s)
      else
        match (victims t.id.idx l.tasks).findSome? fun v =>
          (s.task? { t.id with idx := v }).bind fun w =>
            if w.phase = t.phase then w.wq.takeLast.map fun r => (v, r) else none with
        | some (v, x, q) =>
          let s := s.updTask { t.id with idx := v } fun w => { w with wq := q }
          (tileWord x, s.updTask t.id fun t => { t with stealing := assocSet t.stealing key v })
        | none => (BitVec.allOnes 64, own s)
def execFtile (x : DOnly) (s : State) : Out' :=
  finish <|
    match s.myTask with
    | none => done (s.wait (.data { Result.none with s := [(x.d, BitVec.allOnes 64)] }))
    | some t =>
      match s.th.tileDue with
      | some v => done ((s.updTh fun t => { t with tileDue := none }).wait (.data { Result.none with s := [(x.d, v)], owned := some v }))
      | none =>
        let (v, s) := s.takeTile t
        done (s.wait (.data { Result.none with s := [(x.d, v)], owned := some v }))

/-! ## Circular buffers -/

/-- Entry named by position `q` of a ring. -/
def Cb.entry (c : Cb) (q : Nat) : Nat := c.first + q % (c.lenm1 + 1)
/-- The `w` entries from position `q` onward. -/
def Cb.entries (c : Cb) (q w : Nat) : List Nat := (List.range w).map fun i => c.entry (q + i)
/-- The checks of a use of a handle with a count (R120, 08 R158), in this order: the handle, the count, an entry that is not in use (log 78). -/
def State.cbUse (s : State) (c : Cb) (pos w : Nat) (q : Nat) (tiles : Bool) (f : List Nat → Res Unit) : Res Unit :=
  if !c.valid then badPos s pos
  else if w = 0 || c.lenm1 + 1 < w then badPos s 3
  else
    let es := c.entries q w
    if tiles && es.any (fun e => (s.tile e).size == 0) then badPos s pos else f es
def execCbset (x : CSI) (s : State) : Out' :=
  finish <|
    let v := (s.si x.a).toNat
    if v / 256 != 0 || 15 < bits v 0 4 + bits v 4 4 then badPos s 1
    else done (s.wc x.d ⟨true, 0, 0, bits v 4 4, bits v 0 4⟩)
def execCbwaitc (x : CbW) (s : State) : Out' :=
  finish <|
    let c := s.rc x.a
    s.cbUse c 1 x.n.val c.q true fun es =>
      if es.all fun e => s.tileStart s.cur.core e == .ready then done (s.ws x.d (w64 (c.first + c.q))) else .pass s
def execCbwaitp (x : CbW) (s : State) : Out' :=
  finish <|
    let c := s.rc x.a
    s.cbUse c 1 x.n.val c.p true fun es =>
      if es.all fun e => s.tileStart s.cur.core e == .empty then done (s.ws x.d (w64 (c.first + c.p))) else .pass s
def execCbadvc (x : CSI) (s : State) : Out' :=
  finish <|
    let c := s.rc x.d
    let n := (s.si x.a).toNat
    s.cbUse c 0 n c.q true fun es =>
      if es.all fun e => s.tileStart s.cur.core e == .ready then
        let s := es.foldl (fun s e => s.setTile s.cur.core e { s.tile e with st := .empty }) s
        done (s.wc x.d { c with q := (c.q + n) % (c.lenm1 + 1) })
      else badPos s 3
def execCbadvp (x : CSI) (s : State) : Out' :=
  finish <|
    let c := s.rc x.d
    let n := (s.si x.a).toNat
    s.cbUse c 0 n c.p false fun _ => done (s.wc x.d { c with p := (c.p + n) % (c.lenm1 + 1) })

end Sys2Proof.Machine
end

