-- ==== Sys2Proof/Machine/Sync.lean ====
section
/-! DEFINITION. Versioned loads and stores (10 R192, R193, R195), tagged effects (16 R300, R301), atomics and reductions (R303 to R306),
version waits (R308, R309), fences, barriers, phases, inboxes, device-side launch and signal (R310 to R319). -/

namespace Sys2Proof.Machine

/-! ## Tagged effects (R300, R301) -/

/-- Launch and G of a thread. The slot 7 of a core without a task, which serves a spill record, has neither (22 R376); its tag names its core, and
is no launch's (log 80). -/
def State.tagOf (s : State) (t : ThreadId) : Nat × Nat :=
  match (s.core t.core).task with
  | some k => (k.lid, s.gIndex t)
  | none => coreTag t.core
/-- The stored result, if a target has performed the effect with the thread's ESN. -/
def State.effect (s : State) (t : ThreadId) (g : Target) : Option W64 :=
  let k := s.tagOf t
  match assocGet (s.part (s.partOf t.core t.slot)).effects (k.1, k.2, g) with
  | some (e, r) => if e = (s.thr t).esn then some r else none
  | none => none
def State.setEffect (s : State) (t : ThreadId) (g : Target) (r : W64) : State :=
  let k := s.tagOf t
  s.updPart (s.partOf t.core t.slot) fun p => { p with effects := assocSet p.effects (k.1, k.2, g) ((s.thr t).esn, r) }

/-! ## Waits that end at a turn (06 R108) -/

/-- What a turn of a waiting thread comes to. -/
inductive Poll where
  | wait (s : State)
  /-- The wait has ended: the thread issues at this turn. -/
  | go (s : State)
  /-- The turn is used up. -/
  | used (s : State)
/-- The issuing thread's wait ends with a result. -/
def State.endWait (s : State) (t : ThreadId) (r : Result) : State := (s.deliver t r).updThr t fun x => { x with pend := none }
def State.setStage (s : State) (t : ThreadId) (g : Stage) : State :=
  s.updThr t fun x => { x with pend := x.pend.map fun p => { p with stage := g } }
/-- D and the advance of ESN. -/
def Result.tag (d : SReg) (v : W64) : Result := { Result.none with s := [(d, v)], tagged := true }

/-! ## Operations at points of coherence (15 R277 move 7, R288) -/

/-- The operation rules of R304 on w-bit patterns. -/
def atomNew (op : AOp) (ty : IntTy) (old cmp c : Nat) : Nat :=
  let w := tyW ty
  let c := c % 2 ^ w
  match op with
  | .add => (old + c) % 2 ^ w
  | .and => old &&& c
  | .or => old ||| c
  | .xor => old ^^^ c
  | .min => if tyVal ty old ≤ tyVal ty c then old else c
  | .max => if tyVal ty old ≤ tyVal ty c then c else old
  | .swap => c
  | .cas => if old = cmp % 2 ^ w then c else old
  | .fadd => (felem .add fF32 .rne false false old c 0).1
/-- Bytes with their addresses. -/
def cellsAt (pa : Nat) (bs : List Byte) : List Host.Cell := ((List.range bs.length).map (pa + ·)).zip bs

/-- The bytes of a signal carrying the PTP time (R319, 02 R47). -/
def State.signalBytes (s : State) (v : W64) : List Byte := toBytes 4 s.ptpFrac ++ toBytes 6 s.ptpSec ++ toBytes 6 v.toNat
/-- The MSI-X message of a launch's queue, where the queue has interrupts enabled (R318). -/
def State.launchIrq (s : State) (l : Launch) : State :=
  let q := ((s.part l.part).queues.getD l.qid .reset)
  if q.irqen then { s with out := s.out ++ [.msix l.part q.msix] } else s

/-- One operation, performed for a thread: the result it returns. -/
def State.cohPerform (s : State) (t : ThreadId) (o : CohOp) : State × Result :=
  let n := tyW o.ty / 8
  let ln := lineOf o.pa
  let cl := clusterOf t.core
  let s := if o.mside then s else s.l2Touch o.pa o.evict
  let s := s.dropL1 cl [ln]
  let res (s : State) (v : W64) : State × Result :=
    (s.setEffect t (.line ln) v, { Result.none with s := [(o.d, v)], acq := o.acq, tagged := true })
  let put (s : State) (b : Bool) (v : Nat) : State := if b then s.pocWrite (cellsAt o.pa (toBytes n v)) (some cl) o.mside else s
  let old := ofBytes (s.pocBytes o.pa n)
  match o.kind with
  | .ldv track c =>
    let sh := s.shingleFor t
    let bs := (List.range n).map fun i => s.shByte sh (o.va.toNat + i) (o.pa + i)
    let v := s.version ln o.mside
    (s, { Result.none with s := [(o.d, tyPutN o.ty (ofBytes bs)), (c, zext32 v)], track := if track then some (verKey ln o.mside, v) else none,
                           acq := o.acq })
  | .stcv e v =>
    match s.effect t (.line ln) with
    | some r => res s r
    | none =>
      let ok := s.version ln o.mside == e
      let s := put s ok v.toNat
      res s (w64 (bnat ok * 2 ^ 32 + (s.version ln o.mside).toNat))
  | .atomic op cmp v =>
    match s.effect t (.line ln) with
    | some r => res s r
    | none =>
      let w := op != .cas || decide (old = cmp.toNat % 2 ^ tyW o.ty)
      res (put s w (atomNew op o.ty old cmp.toNat v.toNat)) (tyPutN o.ty old)
  | .casv e x v =>
    match s.effect t (.line ln) with
    | some r => res s r
    | none =>
      let vm := s.version ln o.mside == e
      let xm := old == x.toNat % 2 ^ tyW o.ty
      let s := put s (vm && xm) v.toNat
      res s (w64 (bnat xm * 2 ^ 34 + bnat vm * 2 ^ 33 + bnat (vm && xm) * 2 ^ 32 + (s.version ln o.mside).toNat))
  | .signal v irq =>
    match s.effect t (.line ln) with
    | some r => res s r
    | none =>
      let s := s.pocWrite (cellsAt o.pa (s.signalBytes v)) (some cl) o.mside
      let s := match irq, (s.servedOf t).bind fun k => s.launch? k.part k.lid with
        | true, some l => s.launchIrq l
        | _, _ => s
      res s 0
/-- No entry for the line that the thread made or has read from is left in a buffer (15 R279, R288). -/
def State.lineClear (s : State) (t : ThreadId) (ln : Nat) : Bool :=
  let hit (e : Entry) : Bool := (e.thread == some t || e.readers.contains t) && e.dest.isNone && e.cells.any fun c => lineOf c.pa == ln
  !((s.core t.core).sb.any hit || (s.cluster (clusterOf t.core)).bb.any hit)
/-- The release of an operation has reached its level. -/
def State.relOk (s : State) (c : Nat) (rel : Option Nat) : Bool :=
  match rel with
  | some id => !(s.core c).sb.any (·.id = id)
  | none => true

/-- An operation that reads the bytes at its address: `stcv` compares a version, and `dsignal` writes (22 R379). -/
def CohOp.reads (o : CohOp) : Bool :=
  match o.kind with
  | .stcv _ _ | .signal _ _ => false
  | _ => true
/-- COHERENCE_POINT_OPERATION (15 R277 move 7): the operation a thread waits for is performed and its result delivered. -/
def execCoherencePointOperation (t : ThreadId) (s : State) : Out' :=
  match s.stageOf t with
  | some (.coh o rel) =>
    if s.relOk t.core rel && s.lineClear t (lineOf o.pa) then
      let n := tyW o.ty / 8
      let sh := match o.kind with
        | .ldv _ _ => s.shingleFor t
        | _ => none
      let bad := if o.reads && (s.effect t (.line (lineOf o.pa))).isNone then (List.range n).findSome? fun i =>
          (s.poisonOf sh (.mem [⟨o.pa, 1, o.pa, if o.mside then w64 (2 ^ 59) else 0⟩]) (o.va.toNat + i) (o.pa + i)).map (i, ·)
        else none
      match bad with
      | some (i, src) =>
        let s := if o.mside then s else s.l2Touch o.pa o.evict
        .next ((s.errLog 8 (o.va + w64 i) 0 0 0x80 t.core).trapPend t 0x80 (o.va + w64 i) (w64 src))
      | none =>
        let (s, r) := s.cohPerform t o
        .next ((s.endWait t r).updThr t fun x => { x with wake := some s.cycle })
    else .next s
  | _ => .next s

/-- LOAD_DATA_ARRIVAL (06 R110): the data that a thread waits for arrives. -/
def execLoadDataArrival (t : ThreadId) (s : State) : Out' :=
  match s.stageOf t with
  | some (.data r) => .next ((s.endWait t r).updThr t fun x => { x with wake := some s.cycle })
  | some (.cjob d 0 x row) => .next ((s.setStage t (.cjob d 1 x row)).updThr t fun x => { x with wake := some s.cycle })
  | some (.steps k true r st) => .next ((s.setStage t (.steps k false r st)).updThr t fun x => { x with wake := some s.cycle })
  | none =>
    match (s.thr t).sigRead with
    | some (pc, bs, false) => .next (s.updThr t fun x => { x with sigRead := some (pc, bs, true), wake := some s.cycle })
    | _ => .next s
  | _ => .next s

/-! ## Versioned loads and stores (10 R192 to R195) -/

def ordAcq (o : Ord) : Bool := o == .acq || o == .acqrel
def ordRel (o : Ord) : Bool := o == .rel || o == .acqrel
/-- The release part of an operation at a scope: nothing to wait for at CORE scope. -/
def State.cohRelease (s : State) (rel : Bool) (sc : Scope) : Res (Option Nat) :=
  if !rel then .ok none s
  else (s.release sc).andThen fun id s => .ok (if sc == .core then none else some id) s
/-- Issue of an operation at the point of coherence of a checked address, after the posted writes that the thread's acquires wait for. -/
def State.cohIssue (s : State) (p : Place) (a : W64) (k : CohKind) (ty : IntTy) (d : SReg) (acq rel : Bool) (sc : Scope) (ev : Bool) :
    Res Unit :=
  (s.phaseGate true).andThen fun _ s =>
  (s.settleTh.cohRelease rel sc).andThen fun r s =>
  done (s.wait (.coh ⟨k, ty, a, p.at a.toNat a.toNat, p.mside, d, if acq then some sc else none, ev⟩ r))
def execLdv (x : LdvA) (s : State) : Out' :=
  guarded x.h s fun s =>
    let a := s.addr x.m
    let n := tyW x.ty / 8
    (s.accessAligned s.agent a n n .load true).andThen fun p s =>
    s.cohIssue p a (.ldv x.track x.c) x.ty x.d x.acq false x.scope (x.h.hint.val == 1)
def execStcv (x : StcvA) (s : State) : Out' :=
  guarded x.h s fun s =>
    let a := s.addr x.m
    let n := tyW x.ty / 8
    (s.accessAligned s.agent a n n .both true).andThen fun p s =>
    s.cohIssue p a (.stcv ((s.rs x.d).extractLsb' 0 32) (s.rs x.c)) x.ty x.d false x.rel x.scope (x.h.hint.val == 1)

/-! ## Atomics (R303, R304) -/

def State.atomic (s : State) (x : Atom) (op : AOp) : Res Unit :=
  let a := s.addr x.m
  let n := tyW x.ty / 8
  (s.accessAligned s.agent a n n .both true).andThen fun p s =>
  s.cohIssue p a (.atomic op (s.rs x.d) (s.rs x.c)) x.ty x.d (ordAcq x.ord) (ordRel x.ord) x.scope false
def execAadd (x : Atom) (s : State) : Out' := guarded x.h s fun s => s.atomic x .add
def execAand (x : Atom) (s : State) : Out' := guarded x.h s fun s => s.atomic x .and
def execAor (x : Atom) (s : State) : Out' := guarded x.h s fun s => s.atomic x .or
def execAxor (x : Atom) (s : State) : Out' := guarded x.h s fun s => s.atomic x .xor
def execAmin (x : Atom) (s : State) : Out' := guarded x.h s fun s => s.atomic x .min
def execAmax (x : Atom) (s : State) : Out' := guarded x.h s fun s => s.atomic x .max
def execAswap (x : Atom) (s : State) : Out' := guarded x.h s fun s => s.atomic x .swap
def execAcas (x : Atom) (s : State) : Out' := guarded x.h s fun s => s.atomic x .cas
def execAfadd (x : AtomF) (s : State) : Out' :=
  guarded x.h s fun s => s.atomic ⟨x.h, x.ord, x.scope, .n32, x.d, x.m, x.c⟩ .fadd

/-! ## Memory-side reductions (R306) -/

def State.reduce (s : State) (x : MRed) (op : AOp) : Res Unit :=
  let a := s.addr x.m
  let n := tyW x.ty / 8
  (s.access s.agent a n .both true).andThen fun p s =>
  if !p.mside then .trap s 0x11 a 16
  else if a.toNat % n != 0 then .trap s 0x13 a 0
  else
    (s.phaseGate true).andThen fun _ s =>
    let cells := p.cells a.toNat (bytesAt a.toNat (List.replicate n 0))
    let k := s.tagOf s.me
    let tag := ((s.myPart, k.1, k.2), s.th.esn)
    (s.newEntry fun id =>
      { s.entry id none cells x.scope x.rel true false with red := some (op, x.ty, s.rs x.c), tag := some tag, shingle := none }).andThen
      fun _ s => done (s.updTh fun t => { t with esn := t.esn + 1 })
def execMradd (x : MRed) (s : State) : Out' := guarded x.h s fun s => s.reduce x .add
def execMrand (x : MRed) (s : State) : Out' := guarded x.h s fun s => s.reduce x .and
def execMror (x : MRed) (s : State) : Out' := guarded x.h s fun s => s.reduce x .or
def execMrxor (x : MRed) (s : State) : Out' := guarded x.h s fun s => s.reduce x .xor
def execMrmin (x : MRed) (s : State) : Out' := guarded x.h s fun s => s.reduce x .min
def execMrmax (x : MRed) (s : State) : Out' := guarded x.h s fun s => s.reduce x .max
def execMrfadd (x : MRedF) (s : State) : Out' :=
  guarded x.h s fun s => s.reduce ⟨x.h, x.rel, x.scope, .n32, x.m, x.c⟩ .fadd

/-! ## Version-checked swap and wait (R308, R309) -/

def execCasv (x : CasvA) (s : State) : Out' :=
  guarded x.h s fun s =>
    let a := s.rs x.a
    let n := tyW x.ty / 8
    (s.accessAligned s.agent a n n .both true).andThen fun p s =>
    s.cohIssue p a (.casv ((s.rs x.d).extractLsb' 0 32) (s.rs x.b) (s.rs x.c)) x.ty x.d (ordAcq x.ord) (ordRel x.ord) x.scope false
/-- What a turn of `waitv` finds: the result, if the wait ends. `seen` is the version that decides: at issue the present one, at a later
turn that of the cycle's start (06 R108). -/
def State.waitvLook (s : State) (since pa : Nat) (ms : Bool) (seen v : W32) (limit : Nat) (sc : Scope) (d : SReg) : Option Result :=
  let now := s.version (lineOf pa) ms
  if seen != v then some { Result.none with s := [(d, w64 (2 ^ 32 + now.toNat))], acq := some sc }
  else if limit != 0 && decide (since + limit ≤ s.cycle) then some { Result.none with s := [(d, zext32 seen)] }
  else none
def execWaitv (x : WaitvA) (s : State) : Out' :=
  guarded x.h s fun s =>
    let a := s.rs x.a
    (s.access s.agent a 1 .load true).andThen fun p s =>
    (s.phaseGate true).andThen fun _ s =>
    let s := s.settleTh
    let pa := p.at a.toNat a.toNat
    let v := (s.rs x.b).extractLsb' 0 32
    let limit := (s.si x.c).toNat % 2 ^ 32
    let s := s.versionRead (verKey (lineOf pa) p.mside)
    match s.waitvLook s.cycle pa p.mside (s.version (lineOf pa) p.mside) v limit x.scope x.d with
    | some r => done (s.deliver s.me r)
    | none => done (s.wait (.waitv s.cycle a pa p.mside v x.scope limit x.d))
/-- WAITV_TIMEOUT (R309): the timeout of a waiting `waitv` has passed and its line has not moved. -/
def execWaitvTimeout (t : ThreadId) (s : State) : Out' :=
  match s.stageOf t with
  | some (.waitv since _ pa ms v _ limit d) =>
    if limit != 0 && decide (since + limit ≤ s.cycle) && s.version (lineOf pa) ms == v then
      .next ((s.endWait t { Result.none with s := [(d, zext32 v)] }).updThr t fun x => { x with wake := some s.cycle })
    else .next s
  | _ => .next s

/-! ## Fences (R310) -/

def execFence (x : FenceA) (s : State) : Out' :=
  guarded x.h s fun s =>
    match x.kind with
    | .acq => done (s.acquire x.scope)
    | .rel => (s.release x.scope).andThen fun _ s => done s
    | .full =>
      (s.release x.scope).andThen fun id s => if x.scope == .core then done s else done (s.wait (.fence id x.scope))

/-! ## Block barriers (R311 to R313) -/

def State.barrierOf (s : State) (t : ThreadId) (id : Nat) : Barrier := Tab.getD (((s.taskOn t.core).map (·.barriers)).getD []) id .reset
def State.setBarrier (s : State) (t : ThreadId) (id : Nat) (b : Barrier) : State :=
  match s.taskOn t.core with
  | some x => s.updTask x.id fun x => { x with barriers := x.barriers.put id b }
  | none => s
def barId (c : W64) : Nat := bits c.toNat 0 2
def barN (c : W64) : Nat := bits c.toNat 8 6
def barTiles (c : W64) : List Nat := bitList (bits c.toNat 16 16) 16
/-- The checks of a control operand. -/
def State.barCtlOk (s : State) (c : W64) : Bool :=
  bits c.toNat 32 32 == 0 && bits c.toNat 14 2 == 0 && bits c.toNat 2 6 == 0 && decide (1 ≤ barN c) && decide (barN c ≤ 56)
  && (barTiles c).all fun i => (s.tile i).size != 0
def Barrier.differs (b : Barrier) (n : Nat) : Bool := b.need != 0 && b.need != n
def State.barArrive (s : State) (x : BarA) (sync : Bool) : Res Unit :=
  let c := s.si x.a
  if !s.barCtlOk c then badPos s 1
  else
    match s.effect s.me .barriers with
    | some g =>
      if sync then done (s.wait (.barWait (barId c) (g.extractLsb' 0 32) x.scope x.d)) else done (s.deliver s.me (.tag x.d g))
    | none =>
      if (s.barrierOf s.me (barId c)).differs (barN c) then fail s 0x02 0x101
      else (s.release x.scope).andThen fun r s => done (s.wait (.barRel r sync x.scope c x.d))
def execBarsync (x : BarA) (s : State) : Out' := finish (s.barArrive x true)
def execBararv (x : BarA) (s : State) : Out' := finish (s.barArrive x false)
/-- Package core of a block index of a task on its cores. -/
def Task.coreAt (t : Task) (b : Nat) : Option Nat :=
  match t.place with
  | .resident c b0 | .leaving c b0 => some (8 * c + b0 + b)
  | _ => none
/-- GEN as the cycle began. -/
def Barrier.gen0 (b : Barrier) (cycle : Nat) : W32 :=
  match b.last with
  | some (c, g) => if c = cycle then g else b.gen
  | none => b.gen
/-- The generation completes in a cycle. -/
def Barrier.complete (b : Barrier) (cycle : Nat) : Barrier :=
  { gen := b.gen + 1, need := 0, count := 0, pending := [], last := some (cycle, b.gen0 cycle) }
/-- Every arrival is in and every pending tile is READY, as `tile` gives the state of a core's tile. -/
def Barrier.full (b : Barrier) (t : Task) (tile : Nat → Nat → TileSt) : Bool :=
  b.need != 0 && b.count == b.need && b.pending.all fun p => ((t.coreAt p.1).map fun c => tile c p.2 == .ready).getD false
/-- The barriers of a task that are full complete (R312). -/
def Task.completeBarriers (t : Task) (cycle : Nat) (tile : Nat → Nat → TileSt) : Task :=
  { t with barriers := t.barriers.map fun e => (e.1, if e.2.full t tile then e.2.complete cycle else e.2) }
/-- State of a core's tile now. -/
def State.tileNow (s : State) (c t : Nat) : TileSt := ((s.core c).tiles.getD t .reset).st
/-- The arrival is counted once its release has reached its level; it may complete the barrier. -/
def State.pollBarRel (s : State) (r : Nat) (sync : Bool) (sc : Scope) (c : W64) (d : SReg) : Poll :=
  if !s.relDone s.cur.core r sc then .wait s
  else
    let b := s.barrierOf s.me (barId c)
    if b.differs (barN c) then .used (s.trapPend s.me 0x02 0 0x101)
    else
      let g := zext32 b.gen
      let pend := (barTiles c).foldl (fun l i => if l.contains (s.myCore.bidx, i) then l else l ++ [(s.myCore.bidx, i)]) b.pending
      let s := s.setBarrier s.me (barId c) { b with need := barN c, count := b.count + 1, pending := pend }
      let s := (s.setEffect s.me .barriers g)
      let s := match s.myTask with
        | some t => s.updTask t.id fun t => t.completeBarriers s.cycle s.tileStart
        | none => s
      if sync then .used (s.setStage s.me (.barWait (barId c) b.gen sc d)) else .used (s.endWait s.me (.tag d g))
/-- GEN differed as the cycle began (06 R108). -/
def State.genMoved (s : State) (id : Nat) (g : W32) : Bool := (s.barrierOf s.me id).gen0 s.cycle != g
def State.pollBarWait (s : State) (id : Nat) (g : W32) (sc : Scope) (d : SReg) : Poll :=
  if s.genMoved id g then .go (s.endWait s.me { Result.tag d (zext32 g) with acq := some sc }) else .wait s
def execBarwait (x : BarW) (s : State) : Out' :=
  finish <|
    let c := (s.si x.a)
    if c.toNat / 4 != 0 then badPos s 1
    else if s.genMoved (barId c) ((s.si x.b).extractLsb' 0 32) then
      done ((s.ws x.d (zext32 ((s.barrierOf s.me (barId c)).gen0 s.cycle))).acquire x.scope)
    else .pass s
/-- BARRIER_COMPLETE (R312): every arrival is in and every pending tile is READY. The end of each cycle makes the same completion. -/
def execBarrierComplete (t : TaskId) (bar : Fin 4) (s : State) : Out' :=
  match s.task? t with
  | none => .next s
  | some x =>
    let b := x.barriers.getD bar.val .reset
    if b.full x s.tileStart then .next (s.updTask t fun x => { x with barriers := x.barriers.put bar.val (b.complete s.cycle) })
    else .next s

/-! ## Phases (R314, 15 R291) -/

def execPhadv (x : DOnly) (s : State) : Out' :=
  finish <|
    match s.effect s.me .barriers with
    | some g => done (s.wait (.phWait (g.extractLsb' 0 32) x.d))
    | none =>
      if (s.myTask.map (·.phase)).getD 0 == 0xFFFFFFFE then badPos s 0
      else (s.release .device).andThen fun r s => done (s.wait (.phRel r x.d))
def State.pollPhRel (s : State) (r : Nat) (d : SReg) : Poll :=
  if !s.relDone s.cur.core r .device then .wait s
  else
    match s.myTask with
    | none => .wait s
    | some t =>
      let s := s.updTask t.id fun t =>
        { t with arrived := if t.arrived.contains (s.myCore.bidx, s.cur.slot) then t.arrived else t.arrived ++ [(s.myCore.bidx, s.cur.slot)] }
      .used ((s.setEffect s.me .barriers (zext32 t.phase)).setStage s.me (.phWait t.phase d))
/-- Every thread of a resident task has arrived or ended. -/
def State.allArrived (s : State) (t : Task) : Bool :=
  match t.place, s.launchOf t with
  | .resident c b0, some l =>
    (blockCores c b0 l.kernel.block).all fun c =>
      let k := s.core c
      k.threads.all fun e => e.1 == 7 || e.2.status == .empty || e.2.status == .ended || t.arrived.contains (k.bidx, e.1)
  | _, _ => false
/-- PHASE of a task advances; in reproducible mode its share of sub-tiles ends with the phase (06 R118, 07 R141). -/
def State.advance (s : State) (t : Task) : State :=
  let repro := ((s.launchOf t).map (·.repro)).getD false
  s.updTask t.id fun t =>
    { t with phase := t.phase + 1, arrived := [], acqPhase := repro, stealing := [], wq := if repro then .reset else t.wq }
/-- The phase advances of a cycle: of every task whose threads have all arrived or ended (R314). -/
def State.phaseTick (s : State) : State :=
  s.tasks.foldl (fun s t => if !t.arrived.isEmpty && s.allArrived t then s.advance t else s) s
def State.pollPhWait (s : State) (ph : W32) (d : SReg) : Poll :=
  match s.myTask with
  | none => .wait s
  | some t => if t.phase != ph then .go (s.endWait s.me (.tag d (zext32 (ph + 1)))) else .wait s
def execPhwait (x : DSI) (s : State) : Out' :=
  finish <|
    let t := (s.si x.a).extractLsb' 0 32
    let ph := (s.myTask.map (·.phase)).getD 0
    let rg := (s.myLaunch.map (·.ridge)).getD 0
    if ph < t then badPos s 1
    else if (s.myLaunch.map (·.ridge0)).getD 0 < t then .pass (s.updTh fun t => { t with ridgeWait := true })
    else done ((s.ws x.d (zext32 rg)).acquire .device)

/-! ## Core inboxes (R315, R316) -/

def execIbsend (x : IbS) (s : State) : Out' :=
  guarded x.h s fun s =>
    let a := s.rs x.a
    if bits a.toNat 35 29 != 0 then badPos s 1
    else (s.release x.scope).andThen fun r s => done (s.wait (.ibRel r x.scope a (s.si x.b) x.d))
/-- Delivery to the inbox of a member: the status. -/
def State.inboxSend (s : State) (dest v : W64) : State × W64 :=
  let b := bits dest.toNat 32 3
  match s.myLaunch with
  | none => (s, 3)
  | some l =>
    let i := bits dest.toNat 0 32
    let id : TaskId := ⟨l.part, l.lid, i⟩
    if i < l.first || l.last ≤ i || l.kernel.block ≤ b then (s, 3)
    else
      match s.placeOf id with
      | some .retired => (s, 3)
      | some (.resident cl b0) =>
        let c := 8 * cl + b0 + b
        if 32 ≤ (s.core c).inbox.length then (s, 0)
        else (s.updCore c fun k => { k with inbox := k.inbox ++ [(s.cycle, v)] }, 1)
      | _ => (s, 2)
/-- The cluster that holds the receiving core, if the task is resident. -/
def State.inboxCluster (s : State) (dest : W64) : Nat :=
  match s.myLaunch with
  | none => 0
  | some l =>
    match s.placeOf ⟨l.part, l.lid, bits dest.toNat 0 32⟩ with
    | some (.resident cl _) => cl
    | _ => clusterOf s.cur.core
/-- The result of an inbox effect with the thread's ESN, whichever inbox unit performed it: the receiver, or the thread, may have moved to
another cluster since (R301). -/
def State.inboxEffect (s : State) (t : ThreadId) : Option W64 :=
  let k := s.tagOf t
  (s.part (s.partOf t.core t.slot)).effects.findSome? fun e =>
    match e.1 with
    | (l, g, .inbox _) => if l = k.1 && g = k.2 && e.2.1 = (s.thr t).esn then some e.2.2 else none
    | _ => none
def State.pollIbRel (s : State) (r : Nat) (sc : Scope) (dest v : W64) (d : SReg) : Poll :=
  if !s.relDone s.cur.core r sc then .wait s
  else
    let g := Target.inbox (s.inboxCluster dest)
    match s.inboxEffect s.me with
    | some st => .used (s.endWait s.me (.tag d st))
    | none =>
      let (s', st) := s.inboxSend dest v
      .used ((s'.setEffect s.me g st).endWait s.me (.tag d st))
def execIbrecv (x : IbR) (s : State) : Out' :=
  guarded x.h s fun s =>
    let g := Target.inbox (clusterOf s.cur.core)
    match s.inboxEffect s.me with
    | some v => done (s.deliver s.me { Result.tag x.d v with acq := some x.scope })
    | none =>
      match s.myCore.inbox with
      | [] => .pass s
      | (at', v) :: r =>
        if s.cycle ≤ at' then .pass s
        else
          let s := s.updMyCore fun k => { k with inbox := r }
          done ((s.setEffect s.me g v).deliver s.me { Result.tag x.d v with acq := some x.scope })
def execIbpoll (x : DOnly) (s : State) : Out' :=
  guarded x.h s fun s => done (s.ws x.d (w64 ((s.myCore.inbox.filter fun e => decide (e.1 < s.cycle)).length)))

/-! ## Device-side launch and signal (R317 to R319) -/

def execDlaunch (x : DA) (s : State) : Out' :=
  guarded x.h s fun s => (s.release .system).andThen fun r s => done (s.wait (.dlRel r (s.rs x.a) x.d))
/-- The packet that the thread's `dlaunch` has placed and the command processor has not taken: it carries the thread's tag. -/
def DevPacket.isOf (k : DevPacket) (tag : Nat × Nat) (slot : Nat) (e : W32) : Bool := k.tag == tag && k.slot == slot && k.esn == e
/-- The packet that the thread has read enters the queue, or waits for room. -/
def State.pollDlFull (s : State) (w : VWord) (d : SReg) : Poll :=
  let p := s.part s.myPart
  if 64 ≤ p.dq.length then .wait (s.setStage s.me (.dlFull w d))
  else
    let tid := s.servedTask.getD ⟨s.myPart, 0, 0⟩
    let s := s.updPart s.myPart fun p => { p with dq := p.dq ++ [⟨w, tid, s.tagOf s.me, s.cur.slot, s.th.esn⟩] }
    .used (s.setStage s.me (.dlWait d))
def State.pollDlRel (s : State) (r : Nat) (a : W64) (d : SReg) : Poll :=
  if !s.relDone s.cur.core r .system then .wait s
  else
    match s.effect s.me .command with
    | some v => .used (s.endWait s.me (.tag d v))
    | none =>
      if (s.part s.myPart).dq.any fun k => k.isOf (s.tagOf s.me) s.cur.slot s.th.esn then .used (s.setStage s.me (.dlWait d))
      else
        match (s.accessAligned s.agent a 128 64 .load false).andThen fun p s => s.load p a 128 true 0 with
        | .trap s c x i => .used (s.trapPend s.me c x i)
        | .pass s => .wait s
        | .ok (bs, _) s => s.pollDlFull (vOfBytes bs) d
/-- A misaligned A is a failure of 08 R148's check 5, which its checks 1 to 4 precede; B is looked at next, before the checks of an aligned A
(log 76). -/
def execDsignal (x : DSig) (s : State) : Out' :=
  guarded x.h s fun s =>
    let a := s.rs x.a
    if a.toNat % 16 != 0 then (s.accessAligned s.agent a 16 16 .store true).andThen fun _ s => .trap s 0x13 a 0
    else if bits (s.rs x.b).toNat 48 16 != 0 then badPos s 2
    else
      (s.access s.agent a 16 .store true).andThen fun p s =>
      s.cohIssue p a (.signal (s.rs x.b) x.irq) .n64 0 false true .system false

end Sys2Proof.Machine
end

