-- ==== Sys2Proof/Machine/Buffers.lean ====
section
/-! DEFINITION. The moves of the reference machine on its buffers (15 R277, R281, R284): draining a store buffer and a block buffer,
dropping L1 copies, performing posted writes; writes into shingles (15 R292). -/

namespace Sys2Proof.Machine

def overlaps (a b : Entry) : Bool := a.dest == b.dest && a.cells.any fun c => b.cells.any fun d => c.pa == d.pa
def hostCells (e : Entry) : List Host.Cell := e.cells.map fun c => (c.pa, c.b)

/-- Words of an entry that carry poison. -/
def badWords (e : Entry) : List Nat := ((e.cells.filter fun c => c.bad).map fun c => c.pa / 8).eraseDups

/-! ## Performing an entry -/

/-- A line of a shingle with one byte. -/
def ShLine.one (va : Nat) (b : Byte) (bad : Bool) : ShLine :=
  let o := va % 128
  ⟨va / 128, 1#128 <<< o, BitVec.ofNat 1024 (b.toNat * 2 ^ (8 * o)), if bad then 1#128 <<< o else 0⟩
/-- One byte put into a line of a shingle. -/
def ShLine.put (l : ShLine) (va : Nat) (b : Byte) (bad : Bool) : ShLine :=
  let x := ShLine.one va b bad
  ⟨l.line, l.mask ||| x.mask, (l.data &&& ~~~(BitVec.ofNat 1024 (255 * 2 ^ (8 * (va % 128))))) ||| x.data, (l.bad &&& ~~~x.mask) ||| x.bad⟩
/-- One byte put into a shingle's lines, kept in rising line order. -/
def shPut : List ShLine → Nat → Byte → Bool → List ShLine
  | [], va, b, bad => [ShLine.one va b bad]
  | l :: r, va, b, bad =>
    if va / 128 < l.line then ShLine.one va b bad :: l :: r
    else if va / 128 = l.line then l.put va b bad :: r
    else l :: shPut r va b bad
def State.shWrite (s : State) (sh : TaskId × W32) (cells : List WCell) : State :=
  s.updLaunch sh.1.part sh.1.lid fun l =>
    let k := (sh.1.idx, sh.2.toNat)
    { l with shingles := assocSet l.shingles k (cells.foldl (fun ls c => shPut ls c.va c.b c.bad) ((assocGet l.shingles k).getD [])) }
/-- A reduction performed at its LLC (16 R306), unless its tag has been performed. A word that carries poison keeps it: the result is formed
from it, and the thread has gone on (log 44). -/
def State.reducePerform (s : State) (e : Entry) (op : AOp) (ty : IntTy) (v : W64) (cl : Nat) : State :=
  match e.cells, e.tag with
  | c :: _, some ((p, lid, g), esn) =>
    let k := (lid, g, Target.line (lineOf c.pa))
    if (assocGet (s.part p).effects k).map (·.1) = some esn then s
    else
      let n := tyW ty / 8
      let x := atomNew op ty (ofBytes (s.pocBytes c.pa n)) 0 v.toNat
      let bad := s.poison.filter fun w => decide (c.pa / 8 ≤ w) && decide (8 * w < c.pa + n)
      let s := s.pocWrite (cellsAt c.pa (toBytes n x)) (some cl) true
      { s with poison := bad.foldl addNew s.poison }.updPart p fun q => { q with effects := assocSet q.effects k (esn, 0) }
  | _, _ => s
/-- A global entry performed at its point of coherence, or in its shingle. -/
def State.perform (s : State) (e : Entry) (cl : Nat) : State :=
  match e.red with
  | some (op, ty, v) => s.reducePerform e op ty v cl
  | none =>
    match e.shingle with
    | some sh => (s.shWrite sh e.cells).dropL1 cl (linesOf (hostCells e))
    | none =>
      let s := if e.mside then s else (linesOf (hostCells e)).foldl (fun s l => s.l2Touch (128 * l) e.evict) s
      if e.cells.isEmpty then s
      else
        let s := s.pocWrite (hostCells e) (some cl) e.mside
        { s with poison := (badWords e).foldl addNew s.poison }
/-- A window entry written into its scratchpad: over what a job wrote there in this cycle, under what the sampler did (20 R356). -/
def State.performWindow (s : State) (e : Entry) (c : Nat) : State :=
  let s := s.updCore c fun k =>
    { k with sram := e.cells.foldl (fun m x => memSet m x.pa x.b) k.sram,
             late := k.late.filter fun y => y.firm || !e.cells.any fun x => x.pa == y.off }
  let ws := wholeWords (hostCells e)
  { s with sramPoison := s.sramPoison.filter fun x => !(x.1 == c && ws.contains x.2) }

/-! ## Move 3 -/

/-- Before a reduction is performed, every older entry of its thread for the line has drained (15 R288). -/
def State.redClear (s : State) (e : Entry) (cl : Nat) : Bool :=
  match e.red, e.cells, e.thread with
  | some _, c :: _, some t =>
    let older (x : Entry) : Bool :=
      decide (x.id < e.id) && x.thread == some t && x.dest.isNone && x.cells.any fun w => lineOf w.pa == lineOf c.pa
    !((s.core t.core).sb.any older || (s.cluster cl).bb.any older)
  | _, _, _ => true
/-- The captured entries of a release on core `c` have reached the level of its scope (R281). -/
def State.capturedDone (s : State) (c : Nat) (e : Entry) : Bool :=
  let k := s.core c
  let inSb (i : Nat) : Bool := k.sb.any (·.id = i)
  let inBb (i : Nat) : Bool := (s.cluster (clusterOf c)).bb.any (·.id = i)
  match e.scope with
  | .core => true
  | .block => e.captured.all fun i => !inSb i
  | .device | .system => e.captured.all fun i => !inSb i && !inBb i
/-- The sends that a SYSTEM release waits for have left the outbound queue (R284). -/
def State.sendsDone (s : State) (e : Entry) : Bool :=
  match e.thread with
  | some t => e.sends.all fun q => !((s.part e.part).tx.any fun m => m.thread == t && (s.core t.core).task == some m.task && m.seq == q && decide (0 < m.left))
  | none => true
/-- Threads that made an entry or have read from it. -/
def Entry.parties (e : Entry) : List ThreadId := e.thread.toList ++ e.readers
/-- A thread has met both entries of the same bytes: if the younger one went first, it would have read, or would read, a value that lies
earlier in coherence order than one it has met already (15 R279). -/
def sharedBy (x e : Entry) : Bool := overlaps x e && x.parties.any fun t => e.parties.contains t
/-- Older entries that hold an entry back: of the same thread to overlapping bytes, releases of the same thread, and those that R279 keeps
in order. -/
def blockedBy (e : Entry) : List Entry → Bool
  | [] => false
  | x :: r => if x.id = e.id then false else (x.thread == e.thread && x.rel) || sharedBy x e || blockedBy e r
/-- A release goes straight to points of coherence at DEVICE and SYSTEM scope. -/
def straight (e : Entry) : Bool := e.rel && (e.scope == .device || e.scope == .system)
def State.mayDrain (s : State) (c : Nat) (e : Entry) : Bool :=
  !blockedBy e (s.core c).sb && (!e.rel || (s.capturedDone c e && s.sendsDone e))
  && (!straight e || s.redClear e (clusterOf c))
  && (e.dest.isSome || straight e || e.cells.isEmpty || decide ((s.cluster (clusterOf c)).bb.length < 256))
/-- Drains an entry that may drain. -/
def State.drainEntry (s : State) (c : Nat) (e : Entry) : State :=
  let s := s.updCore c fun k => { k with sb := k.sb.filter fun x => x.id != e.id, gone := k.gone ++ [e.id] }
  match e.dest with
  | some d => s.performWindow e d
  | none =>
    if straight e then s.perform e (clusterOf c)
    else if e.cells.isEmpty then s
    else s.updCluster (clusterOf c) fun k => { k with bb := k.bb ++ [e] }
/-- STORE_BUFFER_DRAIN. -/
def execStoreBufferDrain (c : CoreN) (id : Nat) (s : State) : Out' :=
  match (s.core c.val).sb.find? fun e => e.id = id with
  | some e => if s.mayDrain c.val e then .next (s.drainEntry c.val e) else .next s
  | none => .next s

/-! ## Move 4 -/

/-- Where an entry comes from: a core, or a job. -/
def sameSource (a b : Entry) : Bool :=
  match a.job, b.job with
  | some i, some j => i == j
  | none, none => (a.thread.map fun t => t.core) == (b.thread.map fun t => t.core)
  | _, _ => false
/-- An older entry to overlapping bytes, outside `skip`, holds an entry back: from the same source, or where R279 keeps them in order. -/
def heldBack (e : Entry) (skip : List Nat) : List Entry → Bool
  | [] => false
  | x :: r => if x.id = e.id then false else (!skip.contains x.id && ((sameSource x e && overlaps x e) || sharedBy x e)) || heldBack e skip r
/-- The line of an entry that lies in one line. -/
def oneLine (e : Entry) : Option Nat :=
  match linesOf (hostCells e) with
  | [l] => some l
  | _ => none
/-- Entries that may drain as one write: consecutive ones of one line, in order. -/
def mergeable (bb : List Entry) (es : List Entry) : Bool :=
  match es with
  | [] => false
  | [_] => true
  | e :: _ =>
    match oneLine e with
    | none => false
    | some l =>
      es.all (fun x => oneLine x == some l && x.red.isNone && x.shingle == e.shingle && x.mside == e.mside) &&
      (let line := bb.filter fun x => x.cells.any fun c => lineOf c.pa == l
       let from' := line.dropWhile fun x => x.id != e.id
       (from'.take es.length).map (·.id) == es.map (·.id))
/-- BLOCK_BUFFER_DRAIN: an entry, with those that drain with it as one write. Of an entry that lies in several lines one line drains,
and the rest stays (log 21). -/
def execBlockBufferDrain (c : ClusterN) (id : Nat) (merged : List Nat) (s : State) : Out' :=
  let bb := (s.cluster c.val).bb
  let ids := id :: merged
  let es := ids.filterMap fun i => bb.find? fun e => e.id = i
  match es with
  | [] => .next s
  | e :: _ =>
    if es.length = ids.length && mergeable bb es && es.all fun x => !heldBack x ids bb && s.redClear x c.val then
      match linesOf (hostCells e) with
      | l :: m :: r =>
        let (k, f) := pick s.free l (l :: m :: r)
        let s := { s with free := f }
        let s := s.updCluster c.val fun q => { q with bb := q.bb.map fun x =>
          if x.id = id then { x with cells := x.cells.filter fun w => lineOf w.pa != k } else x }
        .next (s.perform { e with cells := e.cells.filter fun w => lineOf w.pa == k } c.val)
      | _ =>
        let s := s.updCluster c.val fun k => { k with bb := k.bb.filter fun x => !ids.contains x.id }
        .next (s.perform { e with cells := es.flatMap (·.cells) } c.val)
    else .next s

/-! ## Moves 6 and 9 -/

/-- L1_COPY_DROP. -/
def execL1CopyDrop (c : CoreN) (line : Nat) (s : State) : Out' :=
  .next (s.updCore c.val fun k => { k with l1 := k.l1.filter fun e => e.line != line })
/-- POSTED_WRITE_PERFORM: the oldest write of the posted queue. -/
def execPostedWritePerform (s : State) : Out' :=
  match s.posted with
  | [] => .next s
  | w :: r => .next ({ s with posted := r }.postedWrite w)

end Sys2Proof.Machine
end

