-- ==== Sys2Proof/Machine/Snapshot.lean ====
section
/-! DEFINITION. Snapshots of shape records through the shape cache (14 R263, R264). -/

namespace Sys2Proof.Machine

/-- Physical lines of the bytes [va, va + n) of an access. -/
def linesIn (p : Place) (first va n : Nat) : List Nat := ((List.range n).map fun i => lineOf (p.at first (va + i))).eraseDups
/-- No store of the issuing thread to the lines is left in a buffer: the lines are read as `ldv` reads (10 R193, 15 R288). -/
def State.linesClear (s : State) (ls : List Nat) : Bool := ls.all fun l => s.lineClear s.me l
/-- Bytes of a record as they stand at points of coherence, or in the task's shingle. -/
def State.pocRead (s : State) (p : Place) (first va n : Nat) : List Byte :=
  let sh := s.myShingle
  (List.range n).map fun i => s.shByte sh (va + i) (p.at first (va + i))
/-- A byte of the record that carries poison. -/
def State.poisonIn (s : State) (p : Place) (first va n : Nat) : Option (Nat × Nat) :=
  (List.range n).findSome? fun i => (s.poisonOf s.myShingle p (va + i) (p.at first (va + i))).map (va + i, ·)

/-- The requests of lines that a snapshot reads; as `ldv` it drops the cluster's copies of them (15 R277 move 7). -/
def State.snapRead (s : State) (p : Place) (ls : List Nat) : State :=
  (ls.foldl (fun s l => s.request p [] (128 * l) false) s).dropL1 (clusterOf s.cur.core) ls
/-- A read of poisoned bytes traps (22 R379). -/
def State.snapClean {α : Type} (s : State) (p : Place) (va n : Nat) (f : State → Res α) : Res α :=
  match s.poisonIn p va va n with
  | some (x, src) => .trap (s.errLog 8 (w64 x) 0 0 0x80 s.cur.core) 0x80 (w64 x) (w64 src)
  | none => f s
/-- Steps 1 to 4 of R263 at one moment: an attempt at the record at `a`, whose address needs no alignment of its own (log 63), with the number
of its attempts so far. The header's lines, which steps 2 and 4 read, are requested once (DESIGN CHOICE, log 83). Where the shape cache holds the table, step 4 is skipped (R264). -/
def State.snapTake (s : State) (a : W64) (sc : Scope) (attempt : Nat) : Res Snap :=
  (s.phaseGate true).andThen fun _ s =>
  (s.access s.agent a 32 .load true).andThen fun p s =>
  let va := a.toNat
  let hl := linesIn p va va 32
  if !s.linesClear hl then .pass s
  else
    let s := (s.acquire sc).settleTh
    (s.snapRead p hl).snapClean p va 32 fun t =>
    let h := t.pocRead p va va 32
    let n := 4 * (field h 0 2 + 1)
    (t.access t.agent (a + 32) n .load true).andThen fun q t =>
    let tl := linesIn q (va + 32) (va + 32) n
    if !s.linesClear tl then .pass s
    else
      let hs := hl.map fun l => (verKey l p.mside, t.version l p.mside)
      let rpa := p.at va va
      match t.myCore.shape.find? fun e => e.rpa == rpa && e.version == t.version (lineOf rpa) p.mside && e.header == h with
      | some e => .ok ⟨hs.take 1, h, e.bounds, va, rpa, attempt⟩ t
      | none =>
        let ls := if q.mside == p.mside then tl.filter fun l => !hl.contains l else tl
        (t.snapRead q ls).snapClean q (va + 32) n fun t =>
        .ok ⟨hs ++ ls.map fun l => (verKey l q.mside, t.version l q.mside), h, words32 (t.pocRead q (va + 32) (va + 32) n) (n / 4), va, rpa, attempt⟩ t
/-- Step 5 of R263. -/
def State.snapHolds (s : State) (x : Snap) : Bool := x.lines.all fun e => s.versionOf e.1 == e.2
/-- The core's shape cache after a snapshot, least recently used entry first: an entry that held it is the latest used, a new one takes the
place of the least recently used (R264). -/
def State.snapKeep (s : State) (x : Snap) : State :=
  let v := ((x.lines.find? fun e => e.1 / 2 = lineOf x.rpa).map (·.2)).getD 0
  let e : ShapeEntry := ⟨x.rpa, v, x.header, x.bounds⟩
  s.updMyCore fun k =>
    { k with shape := (if k.shape.contains e then k.shape.filter (· != e) else if k.shape.length < 8 then k.shape else k.shape.drop 1) ++ [e] }

/-- What a turn of a thread that takes a snapshot comes to. -/
inductive SnapPoll where
  | wait (s : State)
  | again (x : Snap) (s : State)
  | holds (x : Snap) (s : State)
  | trap (s : State) (cause : Byte) (addr info : W64)
/-- Step 6: another attempt, or the trap after the fourth disagreement. -/
def State.snapPoll (s : State) (x : Snap) (a : W64) (sc : Scope) : SnapPoll :=
  let s := s.versionReads (x.lines.map (·.1))
  if s.snapHolds x then .holds x (s.snapKeep x)
  else if 4 ≤ x.attempt then .trap s 0x31 a 256
  else
    match s.snapTake a sc (x.attempt + 1) with
    | .ok y s => .again y s
    | .pass s => .wait s
    | .trap s c x i => .trap s c x i

end Sys2Proof.Machine
end

