-- ==== Sys2Proof/Machine/Tiles.lean ====
section
/-! DEFINITION. Tile instructions (10 R197, R198), submission and status of copy-unit jobs (R199 to R205), retention instructions
(R208), front-port arms (R210). -/

namespace Sys2Proof.Machine

/-! ## Tile instructions -/

def tileStNum (t : TileSt) : Nat :=
  match t with
  | .empty => 0 | .filling => 1 | .ready => 2 | .draining => 3
/-- A fill names the entry with a byte count (08 R160). -/
def Tile.fill (t : Tile) (e : Nat) : Tile := { t with st := .filling, expect := e, arrived := 0 }
/-- A fill of this cycle: a job brings bytes for it from the next cycle on (08 R161). -/
def State.freshFill (s : State) (c t : Nat) : Bool := ((s.core c).tiles.getD t .reset).st == .filling && s.tileStart c t != .filling
/-- The drain of an entry has read its last byte (08 R160). -/
def State.drainEnd (s : State) (c t : Nat) : State :=
  let x := (s.core c).tiles.getD t .reset
  if x.st == .draining then s.setTile c t { x with st := .empty } else s
/-- A preset word that obeys 08 R159 for a scratchpad of `sp` units. -/
def presetOk (w : W64) (sp : Nat) : Bool :=
  let n := w.toNat
  bits n 34 30 == 0 && bits n 27 5 == 0 && bits n 11 5 == 0 && (bits n 32 2 == 0 || bits n 32 2 == 2) && bits n 16 11 != 0
  && decide (bits n 0 11 + bits n 16 11 ≤ 256 * sp)
/-- The entry that a preset word describes. -/
def tileOfPreset (w : W64) : Tile :=
  let n := w.toNat
  let size := bits n 16 11
  if bits n 32 2 = 2 then ⟨bits n 0 11, size, .ready, 256 * size, 256 * size⟩ else ⟨bits n 0 11, size, .empty, 0, 0⟩

def execTfill (x : TSI) (s : State) : Out' :=
  finish <|
    let t := s.tile x.d.val
    let e := (s.siZ x.a).toNat
    if t.size = 0 then badPos s 0
    else if e = 0 || 256 * t.size < e then badPos s 1
    else if s.tileIs s.cur.core x.d.val .empty then done (s.setTile s.cur.core x.d.val (t.fill e))
    else .pass s
def execTrel (x : TOnly) (s : State) : Out' :=
  finish <|
    let t := s.tile x.d.val
    if t.size = 0 then badPos s 0
    else if s.tileIs s.cur.core x.d.val .ready then done (s.setTile s.cur.core x.d.val { t with st := .empty })
    else .pass s
def execTdef (x : TdefA) (s : State) : Out' :=
  finish <|
    let t := s.tile x.d.val
    let a := s.rs x.a
    if t.size != 0 && !s.tileIs s.cur.core x.d.val .empty then badPos s 0
    else if a != 0 && !presetOk a s.myCore.sp then badPos s 1
    else
      done ((s.setTile s.cur.core x.d.val (if a = 0 then .reset else tileOfPreset a)).updMyCore fun k => { k with tdefs := addNew k.tdefs x.d.val })
/-- The word that `tstat` writes. -/
def Tile.word (t : Tile) : W64 :=
  if t.size = 0 then 0 else w64 (t.arrived * 2 ^ 44 + t.expect * 2 ^ 24 + tileStNum t.st * 2 ^ 22 + t.size * 2 ^ 11 + t.base)
def execTstat (x : TstatA) (s : State) : Out' := finish (done (s.ws x.d (s.tile x.a.val).word))

/-! ## Submission of copy jobs (R199 to R201) -/

/-- Room for one more live job: the list without its oldest completed one if it is full, which is the earliest submitted (log 72); `none` if none
had completed before this cycle (06 R108). -/
def liveRoom (js : List LiveJob) (cycle : Nat) : Option (List LiveJob) :=
  if js.length < 16 then some js
  else
    match js.find? fun j => (j.doneBy cycle).isSome with
    | some d => some (js.filter fun j => j.id != d.id)
    | none => none
def dropTile (x : Side) : Option Nat :=
  match x with
  | .tile t => some t
  | .addr _ => none
/-- The conditions of R201 at this turn. -/
def State.submitReady (s : State) (j : CopyJob) : Bool :=
  let c := s.cur.core
  (match dropTile j.src with
   | some t => s.tileIs c t .ready
   | none => true) &&
  (match j.fill && j.kind != 2, dropTile j.dst with
   | true, some t => s.tileIs c t .empty
   | _, _ => true) &&
  decide (((s.cluster (clusterOf c)).copyq.filter fun q => q.st == .queued).length + (s.cluster (clusterOf c)).vacated.1 < 64)
/-- Source bytes and destination bytes of a row (R202, R204). -/
def elemBytes (e n : Nat) : Nat :=
  match e with
  | 0 | 1 | 9 | 10 => n | 2 | 3 | 7 | 8 => 2 * n | 4 | 5 | 6 => 4 * n | 11 | 14 => n / 16 * 8 | 12 => n / 16 * 12 | _ => n / 16 * 18
def CopyJob.srcBytes (j : CopyJob) : Nat := if j.kind = 5 then elemBytes j.elem j.dim0 else j.len
def CopyJob.rowBytes (j : CopyJob) : Nat := if j.kind = 5 then if j.dec then 4 * j.dim0 else elemBytes j.elem j.dim0 else j.len
/-- The identifier of R199. -/
def jobIdent (engine core slot : Nat) (seq : W32) : W64 := w64 (engine * 2 ^ 38 + core % 8 * 2 ^ 35 + slot * 2 ^ 32 + seq.toNat)
/-- The issuing thread as the owner of a job. -/
def State.owner (s : State) (seq : W32) : Owner :=
  { thread := s.me, task := (s.myCore.task).getD ⟨s.myPart, 0, 0⟩, part := s.myPart, super := s.super, seq := seq, mode := s.mode,
    shingle := s.myShingle }
/-- Store-buffer entries of the issuing thread. -/
def State.myEntries (s : State) : List Nat := (s.myCore.sb.filter fun e => e.thread == some s.me).map (·.id)
/-- A submission whose conditions hold, with the code table of this turn for a decode of c4 (DESIGN CHOICE, log 82): tiles change, the job is queued, and it has an identifier. -/
def State.submitCopy (s : State) (j : CopyJob) : Res W64 :=
  if !s.submitReady j then .pass s
  else
    match liveRoom s.th.jobs s.cycle with
    | none => .pass s
    | some live =>
      let c := s.cur.core
      let s := match dropTile j.src with
        | some t => s.setTile c t { s.tile t with st := .draining }
        | none => s
      let s := match j.fill && j.kind != 2, dropTile j.dst with
        | true, some t => s.setTile c t ((s.tile t).fill (j.rows * j.rowBytes))
        | _, _ => s
      let (id, s) := s.fresh
      let seq := s.th.copySeq + 1
      let ident := jobIdent 0 c s.cur.slot seq
      let j := { j with id := id, owner := s.owner seq, before := s.myEntries, ct := s.ctab }
      let s := s.updCluster (clusterOf c) fun k => { k with copyq := k.copyq ++ [j] }
      .ok ident (s.updTh fun t => { t with copySeq := seq, jobs := live ++ [⟨ident, seq, id, none, 0, false⟩] })
/-- A job before its submission. -/
def CopyJob.blank (s : State) (scope : Scope) (acq rel : Bool) (hint : Nat) : CopyJob :=
  { id := 0, owner := s.owner 0, kind := 1, scope := scope, acq := acq, rel := rel, fill := false, evictFirst := hint == 1,
    src := .addr 0, dst := .addr 0, rows := 1, len := 1, sstride := 0, dstride := 0, idx := 0, rxmask := 0, dstOff := 0, srcOff := 0,
    elem := 0, dec := false, row0 := 0, dim0 := 0, base := 0, before := [], st := .queued, claimed := false, claiming := false, posted := false,
    excess := false, doneBytes := 0, code := 0, cause := 0, rxfail := 0, ct := (0, 0) }

def State.side (s : State) (x : TS) : Side :=
  match x with
  | .t r => .tile r.val
  | .s r => .addr (s.rs r)
/-- The checks of a `cpy` side at its position. -/
def State.cpySide (s : State) (x : TS) (pos n : Nat) (f : State → Res Unit) : Res Unit :=
  match x with
  | .s _ => f s
  | .t r =>
    let t := s.tile r.val
    if t.size = 0 then badPos s pos else if 256 * t.size < n then badPos s 3 else f s
def isTile (x : TS) : Bool :=
  match x with
  | .t _ => true
  | .s _ => false
/-- `cpy`: the length is looked at first, then A, then B (DESIGN CHOICE, log 82). -/
def execCpy (x : CpyA) (s : State) : Out' :=
  finish <|
    let n := (s.siZ x.c).toNat
    if n = 0 || 2 ^ 24 < n then badPos s 3
    else
      s.cpySide x.a 1 n fun s =>
      s.cpySide x.b 2 n fun s =>
      if x.fill && !isTile x.a then badPos s 4
      else
        let j := CopyJob.blank s x.scope x.acq x.rel x.h.hint.val
        (s.submitCopy { j with fill := x.fill, src := s.side x.b, dst := s.side x.a, len := n }).andThen fun id s => done (s.ws x.d id)

/-! ## Job descriptors (R202, R203) -/

/-- A job as its descriptor describes it; `tensor`: element type, DIM0, BASE and STRIDE1 of KIND 5. -/
def jobOf (j : CopyJob) (d : List Byte) : CopyJob :=
  let w (lo n : Nat) : Nat := bits (ofBytes d) lo n
  { j with
    kind := w 0 8, fill := bit (ofBytes d) 21, rxmask := w 32 8, rows := w 256 32, len := w 192 32, sstride := w64 (w 320 64),
    dstride := w64 (w 384 64), idx := w64 (w 448 64), dec := bit (ofBytes d) 27, row0 := w 448 32,
    src := if bit (ofBytes d) 26 then .tile (w 22 4) else .addr (w64 (w 128 64)), srcOff := w 128 64,
    dst := if bit (ofBytes d) 20 then .tile (w 16 4) else .addr (w64 (w 64 64)), dstOff := w 64 64 }
def descBad (s : State) (word : Nat) : Res Unit := fail s 0x02 (w64 (1 + 256 * word))
/-- Members of RXMASK: package cores. -/
def State.members (s : State) (mask : Nat) (c : Nat) : List Nat :=
  let bl := s.blockOf c
  (bitList mask 8).filterMap fun b => bl[b]?
/-- The bound of R203 on a tile side: entry in use, rows fit. -/
def tileFits (t : Tile) (off rows stride n : Nat) : Bool := t.size != 0 && decide (off + (rows - 1) * stride + n ≤ 256 * t.size)
/-- The checks of R203 that need the descriptor and the tile tables only, in the order of the rule. -/
def State.descCheck (s : State) (j : CopyJob) (d : List Byte) (row : Nat) (f : State → Res Unit) : Res Unit :=
  let w (lo n : Nat) : Nat := bits (ofBytes d) lo n
  let c := s.cur.core
  let dtv := (dropTile j.dst).isSome
  let stv := (dropTile j.src).isSome
  let block := (s.blockOf c).length
  let dests := if j.kind = 2 then s.members j.rxmask c else [c]
  let dt (m : Nat) : Tile := (s.core m).tiles.getD (w 16 4) .reset
  if w 8 8 != 1 || j.kind = 0 || 5 < j.kind || w 28 4 != 0 || w 40 24 != 0 then descBad s 0
  else if w 224 32 != 0 || (if j.kind = 5 then j.len != 0 else j.len = 0 || 2 ^ 24 < j.len) then descBad s 3
  else if w 288 32 != 0 || j.rows = 0 || 2 ^ 20 < j.rows then descBad s 4
  else if (j.kind ≤ 2 && w 448 64 != 0) || (j.kind = 5 && w 480 32 != 0) then descBad s 7
  else if 2 ^ 31 < j.rows * row then descBad s 4
  else if (j.kind = 2 && !dtv) || (j.kind = 4 && dtv) || (3 ≤ j.kind && stv) || (j.fill && !dtv) then descBad s 0
  else if (j.kind != 2 && j.rxmask != 0) || (bitList j.rxmask 8).any (fun b => decide (block ≤ b)) then descBad s 0
  else if dtv && decide (2 ^ 20 ≤ w 384 64) then descBad s 6
  else if stv && decide (2 ^ 20 ≤ w 320 64) then descBad s 5
  else if dtv && dests.any (fun m => (dt m).size == 0) then descBad s 0
  else if dtv && dests.any (fun m => !tileFits (dt m) j.dstOff j.rows (w 384 64) row) then descBad s 1
  else if dtv && j.fill && dests.any (fun m => decide (256 * (dt m).size < j.rows * row)) then descBad s 4
  else if stv && (s.tile (w 22 4)).size == 0 then descBad s 0
  else if stv && !tileFits (s.tile (w 22 4)) j.srcOff j.rows (w 320 64) row then descBad s 2
  else f s

/-- A tensor descriptor that obeys 01 R24; ELEM 15 and an NDIM outside 1 to 4 name no tensor (log 63). -/
def tensorOk (d : List Byte) : Bool :=
  let n := field d 7 1 % 8
  let ragged := bit (field d 7 1) 3
  let elem := field d 6 1 / 16
  let dim (k : Nat) : Nat := field d (8 + 4 * k) 4
  let stride (k : Nat) : Nat := field d (16 + 8 * k) 8
  let blk := match elem with
    | 11 | 14 => 8 | 12 => 12 | 13 => 18 | _ => 1
  decide (1 ≤ n) && decide (n ≤ 4) && elem != 15
  && (List.range 4).all (fun k => if k < n then dim k != 0 else dim k == 0)
  && [1, 2, 3].all (fun k => if k < n then blk == 1 || stride k % blk == 0 else stride k == 0)
  && (blk == 1 || dim 0 % 16 == 0) && (!ragged || decide (2 ≤ n)) && field d 7 1 / 16 == 0 && field d 54 2 / 16 == 0 && field d 56 8 == 0
  && (ragged || field d 48 8 % 2 ^ 52 == 0)
/-- Segment of a row in a boundary table. -/
def segOf (b : List Nat) (row : Nat) : Nat := ((b.zip (b.drop 1)).findIdx? fun e => decide (e.1 ≤ row) && decide (row < e.2)).getD 0

/-- What the checks of a descriptor come to: a job ready to submit, or a record to read first. -/
inductive Checked where
  | job (j : CopyJob)
  | record (a : W64)
  deriving DecidableEq, Repr
def State.checkedJob (s : State) (x : CjobA) (d : List Byte) (row : Option Snap) : Res Checked :=
  let j := jobOf (CopyJob.blank s x.scope x.acq x.rel x.h.hint.val) d
  let plain (k : CopyJob) (s : State) : Res Checked := (s.descCheck k d k.rowBytes fun s => done s).andThen fun _ s => .ok (.job k) s
  if j.kind != 5 then plain j s
  else
    -- the fields alone are checked first, with the row bytes as LEN would give them
    (s.descCheck j d 0 fun s => done s).andThen fun _ s =>
    let ta := w64 j.srcOff
    (s.accessAligned s.agent ta 64 64 .load false).andThen fun p s =>
    (s.load p ta 64 true 0).andThen fun (td, _) s =>
    if !tensorOk td then .trap s 0x31 ta 0
    else
      let k := { j with elem := field td 6 1 / 16, dim0 := field td 8 4, base := w64 (field td 0 8 % 2 ^ 52),
                        sstride := w64 (field td 24 8) }
      let dim1 := field td 12 4
      let ragged := bit (field td 7 1) 3
      (s.descCheck k d k.rowBytes fun s => done s).andThen fun _ s =>
      if dim1 < k.row0 + k.rows then fail s 0x02 (w64 (1 + 256 * 7))
      else if !ragged then .ok (.job k) s
      else
        match row with
        | none => .ok (.record (w64 (field td 48 8 % 2 ^ 52))) s
        | some r =>
          if !(recordOk r.header r.bounds && field r.header 4 4 == dim1) then .trap s 0x31 (w64 (field td 48 8 % 2 ^ 52)) 0
          else if segOf r.bounds k.row0 != segOf r.bounds (k.row0 + k.rows - 1) then fail s 0x30 0
          else .ok (.job k) s

def execCjob (x : CjobA) (s : State) : Out' :=
  finish <|
    let a := s.rs x.a
    (s.accessAligned s.agent a 64 64 .load false).andThen fun p s =>
    (s.load p a 64 true 0).andThen fun (d, far) s => done (s.wait (.cjob d (if far then 0 else 1) x none))
/-- A turn of a `cjob` whose descriptor has arrived: its checks, then its submission. -/
def State.pollCjob (s : State) (d : List Byte) (step : Nat) (x : CjobA) (row : Option Snap) : Poll :=
  let trap (s : State) (c : Byte) (a i : W64) : Poll := .used (s.trapPend s.me c a i)
  let submit (j : CopyJob) (s : State) : Poll :=
    match s.submitCopy j with
    | .ok id s => .used (s.endWait s.me { Result.none with s := [(x.d, id)] })
    | .pass s => .wait (s.setStage s.me (.cjob d 2 x row))
    | .trap s c a i => trap s c a i
  let check (row : Option Snap) (s : State) : Poll :=
    match s.checkedJob x d row with
    | .ok (.job j) s => submit j s
    | .ok (.record a) s =>
      match s.snapTake a x.scope 1 with
      | .ok r s => .used (s.setStage s.me (.cjob d 1 x (some r)))
      | .pass s => .wait s
      | .trap s c a i => trap s c a i
    | .pass s => .wait s
    | .trap s c a i => trap s c a i
  match step with
  | 0 => .wait s
  | 1 =>
    match row with
    | none => check none s
    | some r =>
      let ta := w64 (bits (ofBytes d) 128 64)
      -- the record's virtual address stands in the tensor descriptor
      match (s.accessAligned s.agent ta 64 64 .load false).andThen fun p s => s.load p ta 64 true 0 with
      | .trap s c a i => trap s c a i
      | .pass s => .wait s
      | .ok (td, _) s =>
        let va := w64 (field td 48 8 % 2 ^ 52)
        match s.snapPoll r va x.scope with
        | .holds r s => check (some r) s
        | .again r s => .used (s.setStage s.me (.cjob d 1 x (some r)))
        | .wait s => .wait s
        | .trap s c a i => trap s c a i
  | _ =>
    match s.checkedJob x d row with
    | .ok (.job j) s => submit j s
    | .ok (.record _) s => .wait s
    | .pass s => .wait s
    | .trap s c a i => trap s c a i

/-! ## Status of copy jobs (R205, 15 R287) -/

/-- The status of an identifier: pending, final, or unknown. -/
def State.copyLook (s : State) (id : W64) : Option LiveJob := s.opTh.jobs.find? fun j => j.ident = id
/-- A pending job's progress. -/
def State.copyPending (s : State) (l : LiveJob) : W64 :=
  match (s.cluster (clusterOf s.cur.core)).copyq.find? fun j => j.id = l.id with
  | some j => copyStatus 0 0 j.rxfail j.doneBytes j.excess
  | none => 0
/-- The report of a job that has stopped: it is live no longer, the core has observed it, and the thread acquires at BLOCK. -/
def State.copyReport (s : State) (l : LiveJob) (d : SReg) (st : W64) : State :=
  let s := s.updTh fun t => { t with jobs := t.jobs.filter fun j => j.id != l.id }
  let s := s.updMyCore fun k => { k with observed := addNew k.observed l.id }
  (s.ws d st).acquire .block
def execCpoll (x : DA) (s : State) : Out' :=
  finish <|
    match s.copyLook (s.rs x.a) with
    | none => done (s.ws x.d 5)
    | some l =>
      match l.done with
      | some st => done (s.copyReport l x.d st)
      | none => done (s.ws x.d (s.copyPending l))
def execCwait (x : DA) (s : State) : Out' :=
  finish <|
    match s.copyLook (s.rs x.a) with
    | none => done (s.ws x.d 5)
    | some l =>
      match l.doneBy s.cycle with
      | some st => done (s.copyReport l x.d st)
      | none => .pass s

/-! ## Retention instructions (R208) -/

def State.retainOf (s : State) (k : Nat) : Retain := s.retain.getD k .reset
/-- A register with the steps of this cycle. -/
def State.retainSoon (s : State) (k : Nat) : Retain :=
  match s.retainSteps.reverse.find? fun x => x.k == k with
  | some x => { s.retainOf k with ratio := x.ratio, ways := x.ways, valid := x.valid, base := x.base, limit := x.limit }
  | none => s.retainOf k
/-- A step on a register, made as the cycle ends (12 R235). -/
def State.retainLater (s : State) (k : Nat) (r : Retain) (clear : Bool) : State :=
  { s with retainSteps := s.retainSteps ++ [⟨k, r.ratio, r.ways, r.valid, r.base, r.limit, clear⟩] }
/-- The one page of a one-byte load. -/
def State.onePage (s : State) (a : W64) : Res (Nat × Nat) :=
  (s.access s.agent a 1 .load true).andThen fun p s =>
  match p with
  | .mem (q :: _) => .ok (q.va, p.at a.toNat a.toNat) s
  | _ => .trap s 0x11 a 0
def execRset (x : ABC) (s : State) : Out' :=
  finish <|
    let a := (s.rs x.a).toNat
    let b := s.rs x.b
    let c := s.rs x.c
    let k := bits a 24 4
    let ratio := bits a 8 5
    let ways := bits a 4 4
    let valid := bit a 0
    let others := sumNat (((List.range 16).filter fun i => i != k && (s.retainSoon i).valid).map fun i => (s.retainSoon i).ways)
    if (s.retainOf k).part != s.myPart then fail s 0x11 0
    else if ratio != 16 && !s.expert then fail s 0x11 0
    else if bits a 28 36 != 0 || bits a 13 11 != 0 || bits a 1 3 != 0 || 16 < ratio then badPos s 1
    else if !valid then
      done ((s.retainLater k { s.retainSoon k with valid := false } true).wait (.data .none))
    else if ways = 0 || 8 < ways || c ≤ b || 12 < others + ways then badPos s 1
    else if b.toNat % 128 != 0 then badPos s 2
    else if c.toNat % 128 != 0 then badPos s 3
    else
      (s.onePage b).andThen fun (pv, pb) s =>
      (s.onePage (c - 1)).andThen fun (qv, pc) s =>
      if pv != qv then .trap s 0x12 b 0
      else
        done ((s.retainLater k { s.retainSoon k with ratio := ratio, ways := ways, valid := true, base := lineOf pb, limit := lineOf pc + 1 }
          true).wait (.data .none))
/-- The register index of `unpin` and `rrd`, and the PART check. -/
def State.retainIdx (s : State) (x : SI) (f : Nat → State → Res Unit) : Res Unit :=
  let k := (s.siZ x).toNat
  if 15 < k then badPos s 1 else if (s.retainOf k).part != s.myPart then fail s 0x11 0 else f k s
def execUnpin (x : SIOnly) (s : State) : Out' :=
  finish (s.retainIdx x.a fun k s => done ((s.retainLater k { s.retainSoon k with valid := false } false).wait (.data .none)))
/-- Word `w` of a retention register; word 3 sums the dies. -/
def Retain.word (r : Retain) (w : Nat) : W64 :=
  match w with
  | 0 => w64 (r.part * 2 ^ 20 + r.ratio * 2 ^ 8 + r.ways * 2 ^ 4 + bnat r.valid)
  | 1 => w64 (r.base * 128)
  | 2 => w64 (r.limit * 128)
  | _ =>
    let sum (t : Tab W32) : Nat := sumNat (t.vals.map (·.toNat)) % 2 ^ 32
    w64 (sum r.fills * 2 ^ 32 + sum r.hits)
def execRrd (x : RrdA) (s : State) : Out' :=
  finish (s.retainIdx x.a fun k s => done (s.wait (.data { Result.none with s := [(x.d, (s.retainOf k).word x.word.val)] })))

/-! ## Front-port arms (R210) -/

def execFrarm (x : TSI) (s : State) : Out' :=
  finish <|
    let l := (s.siZ x.a).toNat
    let k := s.myCore.land.getD l ⟨[], 0⟩
    if 3 < l then badPos s 1
    else if (s.tile x.d.val).size = 0 || 16 ≤ k.arms.length then badPos s 0
    else done (s.updMyCore fun c => { c with land := c.land.put l { k with arms := k.arms ++ [x.d.val] } })

end Sys2Proof.Machine
end

