-- ==== Sys2Proof/Machine/CopyUnit.lean ====
section
/-! DEFINITION. The copy unit of a cluster: jobs start, move rows, claim receivers, complete (10 R199, R204 to R206, 15 R286). -/

namespace Sys2Proof.Machine

def State.updCopy (s : State) (cl id : Nat) (f : CopyJob → CopyJob) : State :=
  s.updCluster cl fun k => { k with copyq := k.copyq.map fun j => if j.id = id then f j else j }
def CopyJob.agent (j : CopyJob) : Agent := ⟨j.owner.thread.core, j.owner.part, j.owner.super⟩
/-- The shingle that a job's writes go to: the owner's, in the phase that its task has reached (15 R292). -/
def State.jobShingle (s : State) (o : Owner) : Option (TaskId × W32) :=
  match o.shingle with
  | none => none
  | some (t, p) => some (t, ((s.task? o.task).map (·.phase)).getD p)
/-- The laying of the phase that the task has left is done (15 R293). -/
def State.jobGate (s : State) (o : Owner) : Bool :=
  match o.shingle, s.launch? o.task.part o.task.lid, s.task? o.task with
  | some _, some l, some t => decide (t.phase.toNat ≤ l.laid)
  | _, _, _ => true
/-- The thread's entries that precede a job have drained (15 R286). -/
def State.beforeDone (s : State) (core : Nat) (before : List Nat) : Bool := !(s.core core).sb.any fun e => before.contains e.id

/-! ## Reads and writes of a job (15 R286) -/

/-- One byte read by a job: block buffer, scratchpad, shingle or point of coherence; whether it carries poison, and the line if it came
from a point of coherence. -/
def State.jobByte (s : State) (cl job : Nat) (sh : Option (TaskId × W32)) (p : Place) (first va : Nat) :
    Res ((Byte × Bool) × Option Nat) :=
  let a := p.at first va
  match p with
  | .cap _ => .ok ((capByte a, false), none) s
  | .sp m _ =>
    let k := s.core m
    .ok ((k.spByte a, ((k.late.reverse.find? fun x => x.off == a).map (·.bad)).getD (s.sramPoison.contains (m, a / 8))), none) s
  | .mem _ =>
    match findYoungest none sh [a] (s.cluster cl).bb.reverse with
    | .all b id bad => .ok ((b.headD 0, bad), none) (s.markRead cl id none (some job))
    | .part => .pass s
    | .none => .ok ((s.shByte sh va a, (s.shBad sh va).getD (s.poison.contains (a / 8))), some (lineOf a)) s
def State.jobBytes (s : State) (cl job : Nat) (sh : Option (TaskId × W32)) (p : Place) (first : Nat) :
    List Nat → Res (List (Byte × Bool) × List Nat)
  | [] => .ok ([], []) s
  | va :: r =>
    (s.jobByte cl job sh p first va).andThen fun b s =>
    (State.jobBytes s cl job sh p first r).andThen fun bs s =>
    .ok (b.1 :: bs.1, (b.2.map (addNew bs.2)).getD bs.2) s
/-- `n` bytes read at a checked place, with the requests of the lines that came from their points of coherence (12 R234). -/
def State.jobRead (s : State) (cl job : Nat) (sh : Option (TaskId × W32)) (p : Place) (va n : Nat) (ev : Bool) : Res (List (Byte × Bool)) :=
  (s.jobBytes cl job sh p va ((List.range n).map (va + ·))).andThen fun bs s =>
  .ok bs.1 (bs.2.reverse.foldl (fun s l => s.request p [] (128 * l) ev) s)
/-- Bytes written to an address: into a scratchpad, where loads find them from the next cycle on, or as an entry of the job in the block
buffer, which may be full. A write for which the shingle has no room stops its job with CODE 2 and CAUSE 0x50 (DESIGN CHOICE, log 82). -/
def State.jobWrite (s : State) (cl job : Nat) (o : Owner) (sc : Scope) (ev : Bool) (p : Place) (va : Nat) (bs : List (Byte × Bool)) :
    Res Unit :=
  match p with
  | .cap _ => done s
  | .sp m off => done (s.spLate m off bs false)
  | .mem _ =>
    let sh := s.jobShingle o
    let cells := ((List.range bs.length).zip bs).map fun x => (⟨p.at va (va + x.1), va + x.1, x.2.1, x.2.2⟩ : WCell)
    if s.shFull sh cells then .trap s 0x50 (w64 va) 1
    else if 256 ≤ (s.cluster cl).bb.length then .pass s
    else
      let (id, s) := s.fresh
      let e : Entry :=
        { id := id, thread := none, job := some job, dest := none, cells := cells, scope := sc, rel := false, captured := [],
          red := none, tag := none, sends := [], mside := p.mside, evict := ev, readers := [], jreaders := [], part := o.part, shingle := sh }
      done (s.updCluster cl fun k => { k with bb := k.bb ++ [e] })
/-- A job's release at a scope has been performed (15 R286): its entries, and those it read from, are at the level of the scope. -/
def State.jobReleased (s : State) (cl job : Nat) (rel : Bool) (sc : Scope) : Bool :=
  !rel || sc == .core || sc == .block || !(s.cluster cl).bb.any fun e => e.job == some job || e.jreaders.contains job

/-! ## Starting, claiming -/

/-- COPY_JOB_START: the oldest queued job, with its acquire. -/
def execCopyJobStart (c : ClusterN) (s : State) : Out' :=
  match (s.cluster c.val).copyq.find? fun j => j.st == .queued with
  | none => .next s
  | some j =>
    let k := if j.acq && j.scope == .system then (s.posted.map fun w => w.id + 1).foldl Nat.max 0 else 0
    .next (((s.settle k).updCopy c.val j.id fun j => { j with st := .running 0 }).updCluster c.val fun k =>
      { k with vacated := (k.vacated.1 + 1, k.vacated.2) })
/-- Receiving entries of a multicast: core and tile. -/
def State.receivers (s : State) (j : CopyJob) : List (Nat × Nat) :=
  match j.dst with
  | .tile t => (s.members j.rxmask j.owner.thread.core).map fun m => (m, t)
  | .addr _ => []
/-- Every receiver of a job may be claimed: its entry was EMPTY as the cycle began. -/
def State.claimable (s : State) (j : CopyJob) : Bool :=
  j.kind = 2 && j.fill && !j.claimed && j.code = 0 && (s.receivers j).all fun r => s.tileStart r.1 r.2 == .empty
/-- MULTICAST_CLAIM: every receiver's entry is EMPTY in this cycle, and becomes FILLING as the cycle ends, unless a slot's own fill takes
one first (08 R161, 10 R206). -/
def execMulticastClaim (c : ClusterN) (id : Nat) (s : State) : Out' :=
  match (s.cluster c.val).copyq.find? fun j => j.id = id with
  | none => .next s
  | some j => if s.claimable j then .next (s.updCopy c.val id fun j => { j with claiming := true }) else .next s
/-- A claim of the cycle finds an entry EMPTY: it was as the cycle began, and no fill of a slot has taken it. -/
def State.claimFree (s : State) (c t : Nat) : Bool :=
  s.tileStart c t == .empty && ((s.core c).tdefs.contains t || ((s.core c).tiles.getD t .reset).st == .empty)
/-- An entry is claimed; a `tdef` of the same cycle comes after the claim, and its entry stands (08 R161). -/
def State.claimTile (s : State) (c t n : Nat) : State :=
  if (s.core c).tdefs.contains t then s else s.setTile c t (((s.core c).tiles.getD t .reset).fill n)
/-- The claim of a job, made or left for a later cycle. -/
def State.claimJob (s : State) (cl : Nat) (j : CopyJob) : State :=
  if !j.claiming then s
  else if j.code = 0 && !j.claimed && (s.receivers j).all fun r => s.claimFree r.1 r.2 then
    let s := (s.receivers j).foldl (fun s r => s.claimTile r.1 r.2 (j.rows * j.len)) s
    s.updCopy cl j.id fun j => { j with claimed := true, claiming := false }
  else s.updCopy cl j.id fun j => { j with claiming := false }
/-- The multicast claims of a cycle. -/
def State.landClaims (s : State) : State := s.clusters.foldl (fun s e => e.2.copyq.foldl (fun s j => s.claimJob e.1 j) s) s

/-! ## Rows (R204) -/

/-- A job stops: code, cause, failed receivers. -/
def CopyJob.stopped (j : CopyJob) (code cause rx : Nat) : CopyJob := { j with code := code, cause := cause, rxfail := rx }
/-- A source entry that was draining is READY again. -/
def State.undrain (s : State) (j : CopyJob) : State :=
  match j.src with
  | .tile t =>
    let x := (s.core j.owner.thread.core).tiles.getD t .reset
    if x.st = .draining then s.setTile j.owner.thread.core t { x with st := .ready } else s
  | .addr _ => s
/-- The core's own issuing slot has changed an entry in this cycle: a definition, a fill, or the drain of a READY entry (08 R160). -/
def State.slotChanged (s : State) (c t : Nat) : Bool :=
  (s.core c).tdefs.contains t || s.freshFill c t
    || (s.tileStart c t == .ready && ((s.core c).tiles.getD t .reset).st == .draining)
/-- Entries return to EMPTY (R205, R206). The change of a core's own slot in the same cycle comes last, and stands (08 R161). -/
def State.emptyTiles (s : State) (l : List (Nat × Nat)) : State :=
  l.foldl (fun s r =>
    if s.slotChanged r.1 r.2 then s
    else s.setTile r.1 r.2 { (s.core r.1).tiles.getD r.2 .reset with st := .empty, arrived := 0 }) s
/-- COPY_JOB_FAULT (R205), and the source fault of a multicast (R206): the log entry, the tiles, the code. -/
def State.copyFault (s : State) (cl : Nat) (j : CopyJob) (cause : Byte) (addr : W64) : State :=
  let s := s.faultLog j.owner.part 2 addr (w32 j.owner.task.lid) j.owner.seq cause j.owner.thread.core
  let s := s.undrain j
  if j.kind = 2 then (s.emptyTiles (s.receivers j)).updCopy cl j.id fun j => { j.stopped 2 cause.toNat j.rxmask with doneBytes := 0 }
  else
    let s := match j.dst with
      | .tile t =>
        if ((s.core j.owner.thread.core).tiles.getD t .reset).st = TileSt.filling then s.emptyTiles [(j.owner.thread.core, t)] else s
      | .addr _ => s
    s.updCopy cl j.id fun j => j.stopped 2 cause.toNat 0
/-- MULTICAST_FAIL by receivers (R206). -/
def State.multicastFail (s : State) (cl : Nat) (j : CopyJob) (failed : List Nat) : State :=
  let mask := (bitList j.rxmask 8).filter fun b => ((s.blockOf j.owner.thread.core)[b]?.map failed.contains).getD false
  let s := (s.undrain j).emptyTiles (s.receivers j)
  s.updCopy cl j.id fun j => { j.stopped 3 0 (sumNat (mask.map (2 ^ ·))) with doneBytes := 0 }

/-- The index of row `i`: itself, or the word of the index list. -/
def State.rowIndex (s : State) (cl : Nat) (j : CopyJob) (i : Nat) : Res Nat :=
  if j.kind = 3 || j.kind = 4 then
    let a := j.idx + w64 (4 * i)
    (s.accessAligned j.agent a 4 4 .load false).andThen fun p s =>
    (s.jobRead cl j.id (s.jobShingle j.owner) p a.toNat 4 j.evictFirst).andThen fun b s => .ok (ofBytes (b.map (·.1))) s
  else .ok i s
/-- Types and FMT of a tensor row (08 R153, 10 R204). -/
def elemFmt (e : Nat) : Nat :=
  match e with
  | 7 => 1 | 8 => 2 | 9 => 3 | 10 => 4 | 11 => 5 | 12 => 6 | 13 => 7 | 14 => 8 | _ => 0
def elemVTy (e : Nat) : VTy :=
  match e with
  | 7 => .f16 | 8 => .bf16 | 9 => .e4m3 | 10 => .e5m2 | 11 => .sx3 | 12 => .sx5 | 13 => .sx8 | 14 => .c4 | _ => .n32
/-- Checks 5 and 6 for a tensor row; whether it is decoded. -/
def State.tensorTyped (s : State) (j : CopyJob) (p : Place) (a : W64) : Res Bool :=
  let f := elemFmt j.elem
  let x := elemVTy j.elem
  if f = 0 then .ok false s
  else if vtyB x != 0 && a.toNat % vtyB x != 0 then .trap s 0x13 a 0
  else if p.fmt = f then
    if 11 ≤ j.elem && !blocksOk p a.toNat (vtyBlock x) (j.dim0 / 16) then .trap s 0x13 a 0 else .ok j.dec s
  else if p.fmt = 0 || j.owner.mode.fmtovr then .ok false s
  else .trap s 0x14 a 0
/-- Elements of a row as f32 values; a lane is poisoned where a byte of its element is. -/
def decodeRow (j : CopyJob) (bs : List (Byte × Bool)) : List (Byte × Bool) :=
  let x := elemVTy j.elem
  let raw := bs.map (·.1)
  let bad := bs.any (·.2)
  (List.range j.dim0).flatMap fun e =>
    let r := if vtyB x = 0 then decodeElem x j.ct (raw.drop (vtyBlock x * (e / 16)) |>.take (vtyBlock x)) (e % 16)
      else decodeElem x j.ct raw e
    (toBytes 4 r.1).map fun b => (b, bad)
/-- The source bytes of row `i` with its source index. -/
def State.rowSource (s : State) (cl : Nat) (j : CopyJob) (si i : Nat) : Res (List (Byte × Bool)) :=
  let sh := s.jobShingle j.owner
  match j.src with
  | .tile t =>
    let x := (s.core j.owner.thread.core).tiles.getD t .reset
    let off := 256 * x.base + j.srcOff + si * j.sstride.toNat
    s.jobRead cl j.id sh (.sp j.owner.thread.core off) off j.len j.evictFirst
  | .addr a =>
    let a := if j.kind = 5 then j.base + w64 (j.row0 + i) * j.sstride else a + w64 si * j.sstride
    let n := j.srcBytes
    (s.access j.agent a n .load false).andThen fun p s =>
    if j.kind != 5 then s.jobRead cl j.id sh p a.toNat n j.evictFirst
    else
      (s.tensorTyped j p a).andThen fun dec s =>
      (s.jobRead cl j.id sh p a.toNat n j.evictFirst).andThen fun bs s => .ok (if dec then decodeRow j bs else bs) s
/-- The bytes of a row reach their destination; whether some tile bytes were not written. -/
def State.rowDest (s : State) (cl : Nat) (j : CopyJob) (di : Nat) (bs : List (Byte × Bool)) : Res Bool :=
  match j.dst with
  | .addr a =>
    let a := a + w64 di * j.dstride
    (s.access j.agent a bs.length .store false).andThen fun p s =>
    (s.jobWrite cl j.id j.owner j.scope j.evictFirst p a.toNat bs).andThen fun _ s => .ok false s
  | .tile t =>
    let off := j.dstOff + di * j.dstride.toNat
    let rx := if j.kind = 2 then s.receivers j else [(j.owner.thread.core, t)]
    let (s, ex) := rx.foldl (fun (s, ex) r => let (s, e) := State.tileArrive s r.1 r.2 off bs; (s, ex || e)) (s, false)
    .ok ex s
/-- Receivers that fail at row `i` of a multicast: not FILLING at the first byte, or redefined so that the row does not fit; the arrival examines
the entry as the cycle began (08 R161). -/
def State.failedRx (s : State) (j : CopyJob) (i : Nat) : List Nat :=
  (s.receivers j).filterMap fun r =>
    let t := (s.core r.1).tiles0.getD r.2 .reset
    if (i = 0 && t.st != TileSt.filling) || 256 * t.size < j.dstOff + i * j.dstride.toNat + j.len then some r.1 else none
/-- What comes of row `i`: receivers that fail as its first byte arrives, or the row written. -/
inductive RowEnd where
  | failed (rx : List Nat)
  | written (excess : Bool)
  deriving DecidableEq, Repr
/-- The source of row `i` is read, then its receivers are looked at, then its bytes are written (R206). -/
def State.rowMoves (s : State) (cl : Nat) (j : CopyJob) (i : Nat) : Res RowEnd :=
  (s.rowIndex cl j i).andThen fun ix s =>
  (s.rowSource cl j (if j.kind = 3 then ix else i) i).andThen fun bs s =>
  let bad := if j.kind = 2 then s.failedRx j i else []
  if !bad.isEmpty then .ok (.failed bad) s
  else (s.rowDest cl j (if j.kind = 4 then ix else i) bs).andThen fun ex s => .ok (.written ex) s
/-- The row moves, once the job may act; a row that has to wait changes nothing. DONE counts a row that has moved, one with excess bytes too
(DESIGN CHOICE, log 82). With its last row the drain of a source entry has read its last
byte (08 R160). -/
def State.copyRow (s : State) (cl : Nat) (j : CopyJob) (i : Nat) : State :=
  match s.rowMoves cl j i with
  | .pass _ => s
  | .trap s c a _ => s.copyFault cl j c a
  | .ok (.failed rx) s => s.multicastFail cl j rx
  | .ok (.written ex) s =>
    let s := match j.src with
      | .tile t => if i + 1 = j.rows then s.drainEnd j.owner.thread.core t else s
      | .addr _ => s
    s.updCopy cl j.id fun j =>
      { j with st := .running (i + 1), posted := true, excess := j.excess || ex, doneBytes := j.doneBytes + j.srcBytes }
/-- COPY_JOB_ROW. -/
def execCopyJobRow (c : ClusterN) (id : Nat) (s : State) : Out' :=
  match (s.cluster c.val).copyq.find? fun j => j.id = id with
  | none => .next s
  | some j =>
    match j.st with
    | .running i =>
      if i < j.rows && j.code = 0 && s.beforeDone j.owner.thread.core j.before && s.jobGate j.owner
          && (!(j.kind = 2 && j.fill) || j.claimed) && !((j.fill && j.kind != 2) && (dropTile j.dst).any (s.freshFill j.owner.thread.core))
      then .next (s.copyRow c.val j i)
      else .next s
    | _ => .next s

/-! ## Completion (R201) -/

/-- COPY_JOB_COMPLETE: all rows done or the job stopped, and its release performed. -/
def execCopyJobComplete (c : ClusterN) (id : Nat) (s : State) : Out' :=
  match (s.cluster c.val).copyq.find? fun j => j.id = id with
  | none => .next s
  | some j =>
    let ended := j.code != 0 || (match j.st with
      | .running i => decide (j.rows ≤ i)
      | _ => false)
    if ended && s.jobReleased c.val id j.rel j.scope then
      let code := if j.code = 0 then 1 else j.code
      let s := s.copyDone j (copyStatus code j.cause j.rxfail j.doneBytes j.excess)
      .next (s.updCluster c.val fun k => { k with copyq := k.copyq.filter fun x => x.id != id })
    else .next s

end Sys2Proof.Machine
end

