-- ==== Sys2Proof/Machine/Links.lean ====
section
/-! DEFINITION. Porkan links (18 R320 to R324): flits, acceptance, acknowledgement, replay, lanes, credits, forwarding. -/

namespace Sys2Proof.Machine

/-! ## Flits (R320) -/

/-- One byte of CRC-64, most significant bit first (log 7). -/
def crcBits (p : W64) : Nat → W64 → W64
  | 0, c => c
  | k + 1, c => crcBits p k (if c.getLsbD 63 then (c <<< 1) ^^^ p else c <<< 1)
def crc64Loop : List Byte → Nat → Nat
  | [], c => c
  | b :: r, c => onNumeral (crcBits 0x42F0E1EBA9EA3693 8 (w64 c ^^^ w64 (b.toNat * 2 ^ 56))).toNat (crc64Loop r)
def crc64 (bs : List Byte) : W64 := ~~~(w64 (crc64Loop bs (2 ^ 64 - 1)))
/-- The link header. -/
structure LHdr where
  seq : Nat
  ack : Nat
  type : Nat
  vc : Nat
  last : Bool
  credvc : Nat
  credits : Nat
  deriving DecidableEq, Repr
def seqMod : Nat := 2 ^ 20
def LHdr.word (h : LHdr) : Nat :=
  h.credits + 2 ^ 8 * h.credvc + 2 ^ 16 * bnat h.last + 2 ^ 17 * h.vc + 2 ^ 20 * h.type + 2 ^ 24 * h.ack + 2 ^ 44 * h.seq
def LHdr.ofWord (n : Nat) : LHdr :=
  ⟨bits n 44 20, bits n 24 20, bits n 20 4, bits n 17 3, bit n 16, bits n 8 8, bits n 0 8⟩
def mkFlit (h : LHdr) (payload : List Byte) : VWord :=
  let b := toBytes 8 h.word ++ (payload ++ toBytes 112 0).take 112
  vOfBytes (b ++ toBytes 8 (crc64 b).toNat)
def hdrOf (f : VWord) : LHdr := LHdr.ofWord (bits f.toNat 0 64)
def payloadOf (f : VWord) : List Byte := ((vBytes f).drop 8).take 112
def flitOk (f : VWord) : Bool := field (vBytes f) 120 8 == (crc64 ((vBytes f).take 120)).toNat

/-! ## Ports -/

def State.port (s : State) (q : Nat) : Port := s.ports.getD q .reset
def State.setPort (s : State) (q : Nat) (x : Port) : State := { s with ports := s.ports.put q x }
def State.updPort (s : State) (q : Nat) (f : Port → Port) : State := s.setPort q (f (s.port q))
/-- Last sequence number accepted in order. -/
def Port.accepted (p : Port) : Nat := (p.expected + seqMod - 1) % seqMod
def Port.lastSent (p : Port) : Nat := (p.nextSeq + seqMod - 1) % seqMod
/-- A channel with credits to return, and how many fit one flit. -/
def Port.credit (p : Port) : Nat × Nat :=
  match p.owed.find? fun e => e.2 != 0 with
  | some (v, n) => (v, Nat.min n 255)
  | none => (0, 0)
/-- A flit put on the wire: its header carries the acknowledgement and the credits owed; a management flit, which is not part of the link's
protocol (24 R394), returns no credits. -/
def Port.emit (p : Port) (type vc : Nat) (last : Bool) (payload : List Byte) : Port :=
  let c := if type = 4 then (0, 0) else p.credit
  let seq := if type = 1 then p.nextSeq else p.lastSent
  let f := mkFlit ⟨seq, p.accepted, type, vc, last, c.1, c.2⟩ payload
  let p := { p with wire := p.wire ++ [f], unreported := 0, owed := if c.2 = 0 then p.owed else p.owed.put c.1 (p.owed.getD c.1 0 - c.2) }
  if type = 1 then { p with nextSeq := (p.nextSeq + 1) % seqMod, replay := p.replay ++ [f] } else p
/-- A replay: every flit after the last acknowledgement, in order. -/
def Port.resend (p : Port) : Port := if p.replay.isEmpty then p else { p with wire := p.wire ++ p.replay, replays := p.replays + 1 }
/-- Flits that an acknowledgement covers leave the replay buffer. -/
def Port.takeAck (p : Port) (ack : Nat) : Port :=
  if p.replay.any fun f => (hdrOf f).seq = ack then
    { p with acked := ack, replay := (p.replay.dropWhile fun f => (hdrOf f).seq != ack).drop 1 }
  else p
def Port.takeCredit (p : Port) (h : LHdr) : Port :=
  if h.credits = 0 then p else { p with credits := p.credits.put h.credvc (p.credits.getD h.credvc 64 + h.credits) }

/-! ## Receiving flits (R321) -/

/-- A negative acknowledgement, once until the replay arrives. -/
def Port.nak (p : Port) : Port := if p.nacked then p else { p.emit 2 0 false [] with nacked := true }
/-- An idle flit reports 32 flits accepted since the last report. -/
def Port.report (p : Port) : Port := if p.unreported < 32 then p else p.emit 0 0 false []
/-- A data flit with a correct CRC, which arrives at PTP time `now`. -/
def Port.data (p : Port) (f : VWord) (h : LHdr) (now : Nat) : Port :=
  if h.seq = p.expected then
    let p := p.takeCredit h
    let p := { p with expected := (p.expected + 1) % seqMod, inbuf := p.inbuf.put h.vc (p.inbuf.getD h.vc [] ++ [(now, f)]),
                      unreported := p.unreported + 1, nacked := false }
    p.report
  else if (h.seq + seqMod - p.expected) % seqMod < seqMod / 2 then p.nak
  else p
/-- A management flit (24 R394); a message of the wrong length has lost a flit and is lost. -/
def Port.management (p : Port) (b : List Byte) (last : Bool) : Port :=
  let m := p.mgmtPart ++ b
  if !last then { p with mgmtPart := m }
  else if m.length = 112 * ceilDiv (24 + field m 16 4) 112 then { p with mgmt := p.mgmt ++ [m], mgmtPart := [] }
  else { p with mgmtPart := [] }
/-- A flit that arrives at PTP time `now`. -/
def Port.receive (p : Port) (f : VWord) (now : Nat) : Port :=
  if !flitOk f then p.nak
  else
    let h := hdrOf f
    match h.type with
    | 0 => (p.takeAck h.ack).takeCredit h
    | 1 => (p.takeAck h.ack).data f h now
    | 2 => ((p.takeAck h.ack).takeCredit h).resend
    | 4 => ((p.takeAck h.ack).takeCredit h).management (payloadOf f) h.last
    | _ => p
/-- PTP time as deadlines count it: nanoseconds, with the low 32 bits of the seconds (R327). -/
def State.ptpMsg (s : State) : Nat := s.ptpSec % 2 ^ 32 * 1000000000 + s.ptpFrac
/-- FLIT_RECEIVE: while a port is down or trains it takes no flit but training ones. -/
def execFlitReceive (q : Fin 12) (f : VWord) (s : State) : Out' :=
  .next (if (s.port q.val).st = .up then s.updPort q.val fun p => p.receive f s.ptpMsg else s)
/-- ACK_IDLE_SEND: 200 ns have passed since the last report: an idle flit with the acknowledgement. -/
def execAckIdleSend (q : Fin 12) (s : State) : Out' :=
  .next (if (s.port q.val).st = .up then s.updPort q.val fun p => p.emit 0 0 false [] else s)
/-- REPLAY_TIMEOUT. -/
def execReplayTimeout (q : Fin 12) (s : State) : Out' :=
  .next (if (s.port q.val).st = .up then s.updPort q.val Port.resend else s)

/-! ## Sending fragments (R324) -/

def flitsOf (n : Nat) : Nat := ceilDiv n 112
/-- One fragment of a send has left its outbound queue, or is lost with its link (R333). -/
def State.fragmentLeft (s : State) (x : Nat × Nat) : State :=
  s.updPart x.1 fun p =>
    let hit := p.tx.any fun m => m.id = x.2 && m.left == 1
    { p with tx := (p.tx.map fun m => if m.id = x.2 then { m with left := m.left - 1 } else m).filter (fun m => !(m.final && m.left == 0)),
             ctr := if hit then { p.ctr with sent := p.ctr.sent + 1 } else p.ctr }
/-- The flit buffer of a forwarded flit is free: its credit is owed to the port it came by. -/
def State.owe (s : State) (x : Option (Nat × Nat)) (n : Nat) : State :=
  match x with
  | some (q, vc) => s.updPort q fun p => { p with owed := p.owed.put vc (p.owed.getD vc 0 + n) }
  | none => s
/-- Flits of the fragment at the head of a channel's queue, while credits and replay room last; `n` bounds them. -/
def State.sendFlits (s : State) (q vc : Nat) (fr : Fragment) : Nat → State
  | 0 => s
  | n + 1 =>
    let p := s.port q
    let k := p.sentFlits.getD vc 0
    let total := flitsOf fr.bytes.length
    let cr := p.credits.getD vc 64
    if total ≤ k || cr = 0 || 8192 ≤ p.replay.length then s
    else
      let p := { p.emit 1 vc (k + 1 == total) ((fr.bytes.drop (112 * k)).take 112) with
        sentFlits := p.sentFlits.put vc (k + 1), credits := p.credits.put vc (cr - 1) }
      State.sendFlits ((s.setPort q p).owe fr.from_ 1) q vc fr n
/-- FRAGMENT_TRANSMIT. -/
def execFragmentTransmit (q : Fin 12) (vc : Fin 8) (s : State) : Out' :=
  let p := s.port q.val
  match p.outq.getD vc.val [] with
  | [] => .next s
  | fr :: r =>
    if p.st != .up || vc = 0 then .next s
    else
      let s := s.sendFlits q.val vc.val fr 37
      if flitsOf fr.bytes.length ≤ (s.port q.val).sentFlits.getD vc.val 0 then
        let s := s.updPort q.val fun p => { p with outq := p.outq.put vc.val r, sentFlits := p.sentFlits.put vc.val 0 }
        .next (match fr.mine with
          | some x => s.fragmentLeft x
          | none => s)
      else .next s

/-! ## Lanes (R322, R323) -/

def widthCode (w : Nat) : Nat :=
  match w with
  | 4 => 1 | 8 => 2 | 16 => 3 | _ => 0
def lanesGood (m : BitVec 16) (lo n : Nat) : Bool := (List.range n).all fun i => m.getLsbD (lo + i)
/-- The widest width whose lanes are all good; 0: none. -/
def widthOf (m : BitVec 16) : Nat :=
  if lanesGood m 0 16 then 16
  else if lanesGood m 0 8 || lanesGood m 8 8 then 8
  else if [0, 4, 8, 12].any fun l => lanesGood m l 4 then 4 else 0
/-- Flits of fragments that are not whole are lost. -/
def wholeFlits (fs : List (Nat × VWord)) : List (Nat × VWord) := (fs.reverse.dropWhile fun f => !(hdrOf f.2).last).reverse
/-- A link goes down: what was carried on it or queued for it is lost. The status keeps LANES, ACKED and REPLAYS; sequence numbers start
anew when the port trains. -/
def State.linkDown (s : State) (q : Nat) : State :=
  let p := s.port q
  let frs := p.outq.flatMap fun e => ((List.range e.2.length).zip e.2).map fun x => (if x.1 = 0 then p.sentFlits.getD e.1 0 else 0, x.2)
  let s := s.setPort q { Port.reset with replays := p.replays, lanes := p.lanes, myLanes := p.myLanes, acked := p.acked, inbuf := p.inbuf.map fun e => (e.1, wholeFlits e.2) }
  let s := frs.foldl (fun (s : State) x =>
    let s := s.owe x.2.from_ (flitsOf x.2.bytes.length - x.1)
    match x.2.mine with
    | some x => s.fragmentLeft x
    | none => s) s
  s.errLog 12 (w64 q) 0 0 0 0
/-- LANE_FAILURE: the port retrains and passes no data flit. -/
def execLaneFailure (q : Fin 12) (lane : Fin 16) (s : State) : Out' :=
  let p := s.port q.val
  .next (if p.st = .up || p.st = .retraining || p.st = .training then
    let bad := ~~~(1#16 <<< lane.val)
    s.setPort q.val { p with myLanes := p.myLanes &&& bad, lanes := p.lanes &&& bad, st := if p.st = .training then .training else .retraining }
  else s)
/-- RETRAIN_COMPLETE: the widest good width, or the link goes down. -/
def execRetrainComplete (q : Fin 12) (peer : BitVec 16) (ok : Bool) (s : State) : Out' :=
  let p := s.port q.val
  if p.st != .retraining && p.st != .training then .next s
  else if !ok then .next (if 3 ≤ p.fails + 1 then s.linkDown q.val else s.setPort q.val { p with fails := p.fails + 1 })
  else
    let good := p.myLanes &&& peer
    let w := widthOf good
    if w = 0 then .next ((s.setPort q.val { p with lanes := good }).linkDown q.val)
    else
      let s := s.setPort q.val { p with st := .up, width := w, lanes := good, fails := 0, nacked := false }.resend
      .next (if w < p.width then s.errLog 13 (w64 (q.val + 16 * widthCode w)) 0 0 0 0 else s)
/-- `LNKSTAT` of a port (R323). -/
def LinkSt.code (x : LinkSt) : Nat :=
  match x with
  | .down => 0 | .training => 1 | .up => 2 | .retraining => 3
def Port.status (p : Port) : W64 :=
  w64 (p.st.code + 4 * widthCode p.width + 2 ^ 8 * p.replays.toNat + 2 ^ 20 * p.acked + 2 ^ 48 * p.lanes.toNat)

/-! ## Fragments that arrive -/

/-- The flits of the first whole fragment of a channel, and the rest. -/
def splitFragment : List (Nat × VWord) → Option (List (Nat × VWord) × List (Nat × VWord))
  | [] => none
  | f :: r => if (hdrOf f.2).last then some ([f], r) else (splitFragment r).map fun x => (f :: x.1, x.2)
/-- A whole fragment: its channel, its number of flits, the time at which its last flit arrived, its bytes. -/
structure Whole where
  vc : Nat
  n : Nat
  time : Nat
  bytes : List Byte
  deriving DecidableEq, Repr
def wholeOf (vc : Nat) (l : List (Nat × VWord)) : Whole := ⟨vc, l.length, ((l.getLast?).map (·.1)).getD 0, l.flatMap fun f => payloadOf f.2⟩
/-- The whole fragment that a port holds, of the lowest channel, and the port without it. -/
def Port.takeFragment (p : Port) : Option (Whole × Port) :=
  p.inbuf.findSome? fun e => (splitFragment e.2).map fun x => (wholeOf e.1 x.1, { p with inbuf := p.inbuf.put e.1 x.2 })
/-- Every whole fragment of a channel; `part` are flits of the one that comes first. -/
def wholesFrom (vc : Nat) (part : List (Nat × VWord)) : List (Nat × VWord) → List Whole
  | [] => []
  | f :: r => if (hdrOf f.2).last then wholeOf vc (part ++ [f]) :: wholesFrom vc [] r else wholesFrom vc (part ++ [f]) r
def Port.wholes (p : Port) : List Whole := p.inbuf.flatMap fun e => wholesFrom e.1 [] e.2
def hopPort (path h : Nat) : Nat := bits path (4 * h) 4
/-- A fragment dropped in forwarding (SRC 11, 22 R381). -/
def State.dropForward (s : State) (b : List Byte) (hop egress : Nat) : State :=
  s.errLog 11 (w64 (field b 32 4 + 2 ^ 32 * hop + 2 ^ 40 * egress)) 0 (w32 (field b 12 4)) 0 0
/-- A fragment with its new hop count queued on the egress port of its next hop, or dropped. -/
def State.forward (s : State) (b : List Byte) (hop : Nat) (src : Nat × Nat) (n : Nat) : State :=
  let e := hopPort (field b 32 4) (hop + 1)
  if 11 < e || 7 < hop + 1 || (s.port e).st == .down then (s.dropForward b hop e).owe (some src) n
  else
    let fr : Fragment := ⟨patch b 36 [byte hop], none, some src⟩
    s.updPort e fun p => { p with outq := p.outq.put (hop + 1) (p.outq.getD (hop + 1) [] ++ [fr]) }

end Sys2Proof.Machine
end

