-- ==== Sys2Proof/Machine/Fragments.lean ====
section
/-! DEFINITION. Fragments of erasure-coded messages (18 R325 to R330, R333): headers, the code, matching, delivery, acknowledgements, and
what has arrived when a message closes. -/

namespace Sys2Proof.Machine

/-! ## GF(2^8) with polynomial 0x11D (R326) -/

/-- `a` times `x`. -/
def gfDouble (a : Byte) : Byte := if a.getLsbD 7 then (a <<< 1) ^^^ 0x1D else a <<< 1
/-- `a` times `b`; `k` bits of `b` remain. -/
def gfMulFrom (a b : Byte) : Nat → Byte
  | 0 => 0
  | k + 1 => (if b.getLsbD 0 then a else 0) ^^^ gfMulFrom (gfDouble a) (b >>> 1) k
def gfMul (a b : Byte) : Byte := gfMulFrom a b 8
/-- The inverse: the 254th power. -/
def gfInv (a : Byte) : Byte := (List.range 7).foldl (fun r _ => let r := gfMul r a; gfMul r r) 1
/-- Coefficient of data fragment `j` in repair fragment `i`. -/
def gfCoef (i j : Nat) : Byte := gfInv (byte i ^^^ byte (0x10 + j))
/-- `a + c * b`, byte by byte. -/
def gfAcc (a : List Byte) (c : Byte) (b : List Byte) : List Byte := (a.zip b).map fun x => x.1 ^^^ gfMul c x.2
/-- Repair fragment `i` of data fragments of `f` bytes. -/
def repairOf (i f : Nat) (ds : List (List Byte)) : List Byte :=
  ((List.range ds.length).zip ds).foldl (fun a x => gfAcc a (gfCoef i x.1) x.2) (toBytes f 0)
/-- Solves linear equations (coefficients, bytes) by elimination; `n` bounds their number. -/
def gfSolve : Nat → List (List Byte × List Byte) → List (List Byte)
  | 0, _ => []
  | _, [] => []
  | n + 1, (cs, b) :: rest =>
    let p := gfInv (cs.headD 0)
    let cs := (cs.drop 1).map (gfMul p)
    let b := b.map (gfMul p)
    let rest := rest.map fun r =>
      let d := r.1.headD 0
      (gfAcc (r.1.drop 1) d cs, gfAcc r.2 d b)
    let xs := gfSolve n rest
    (cs.zip xs).foldl (fun a x => gfAcc a x.1 x.2) b :: xs
/-- The data fragments that are missing, from K distinct fragments. -/
def rebuild (k : Nat) (frags : Tab (List Byte)) : List (Nat × List Byte) :=
  let missing := (List.range k).filter fun j => (frags.get? j).isNone
  let reps := (frags.filter fun e => k ≤ e.1).take missing.length
  let eqs := reps.map fun e =>
    let i := e.1 - k
    (missing.map (gfCoef i), (frags.filter fun d => d.1 < k).foldl (fun a d => gfAcc a (gfCoef i d.1) d.2) e.2)
  missing.zip (gfSolve missing.length eqs)

/-! ## Fragment headers (R327) -/

structure FHdr where
  key : MsgKey
  ackreq : Bool
  fidx : Nat
  k : Nat
  m : Nat
  f : Nat
  len : Nat
  deadline : Nat
  path : Nat
  deriving DecidableEq, Repr
def FHdr.bytes (h : FHdr) : List Byte :=
  toBytes 2 h.key.srank ++ toBytes 2 h.key.drank ++ toBytes 1 h.key.chan ++ toBytes 1 (h.key.part % 16 + 128 * bnat h.ackreq) ++ toBytes 1 h.fidx
    ++ toBytes 1 h.k ++ toBytes 1 h.m ++ toBytes 1 (h.f / 64) ++ toBytes 2 (h.len - 1) ++ toBytes 4 h.key.mseq ++ toBytes 8 h.key.group
    ++ toBytes 4 (h.deadline % 1000000000) ++ toBytes 4 (h.deadline / 1000000000) ++ toBytes 4 h.path ++ toBytes 12 0
def hdrOfBytes (b : List Byte) : FHdr :=
  let x := field b 5 1
  { key := ⟨x % 16, field b 16 8, field b 0 2, field b 2 2, field b 4 1, field b 12 4⟩, ackreq := bit x 7, fidx := field b 6 1, k := field b 7 1,
    m := field b 8 1, f := 64 * field b 9 1, len := field b 10 2 + 1, deadline := field b 28 4 * 1000000000 + field b 24 4, path := field b 32 4 }
/-- A fragment on the outbound queue of the first hop of its path. -/
def State.launchFragment (s : State) (bytes : List Byte) (path : Nat) (mine : Option (Nat × Nat)) : State :=
  s.updPort (hopPort path 1) fun p => { p with outq := p.outq.put 1 (p.outq.getD 1 [] ++ [⟨bytes, mine, none⟩]) }
/-- Paths whose first hop is not down, in order (R324). -/
def State.upPaths (s : State) (ps : List W32) : List W32 := ps.filter fun w => (s.port (hopPort w.toNat 1)).st != .down

/-! ## Handles (R331) -/

def MsgStatus.word (x : MsgStatus) : W64 := w64 (x.code + 2 ^ 16 * x.rebuilt + 2 ^ 24 * x.frags + 2 ^ 32 * x.len)
/-- A change of a thread of a task: where it runs, or in the task's image. -/
def State.onThread (s : State) (t : ThreadId) (task : TaskId) (f : Thread → Thread) : State :=
  match s.task? task with
  | none => s
  | some x =>
    match x.image with
    | none => s.updThr t f
    | some i =>
      let b := t.core - i.base
      match i.cores[b]? with
      | none => s
      | some k =>
        let k := { k with threads := k.threads.put t.slot (f (k.threads.getD t.slot .reset)) }
        s.updTask task fun x => { x with image := some { i with cores := replaceAt i.cores b k } }
def State.setMsg (s : State) (t : ThreadId) (task : TaskId) (seq : W32) (f : MsgStatus → MsgStatus) : State :=
  s.onThread t task fun x => { x with handles := x.handles.map fun h => if h.seq = seq then { h with st := f h.st, doneAt := s.cycle } else h }
/-- A source tile in a state. -/
def State.onTile (s : State) (c n : Nat) (task : TaskId) (st : TileSt) : State :=
  let g (t : Tab Tile) : Tab Tile := t.put n { t.getD n .reset with st := st }
  match s.task? task with
  | none => s
  | some x =>
    match x.image with
    | none => s.updCore c fun k => { k with tiles := g k.tiles }
    | some i =>
      match i.cores[c - i.base]? with
      | none => s
      | some k => s.updTask task fun x => { x with image := some { i with cores := replaceAt i.cores (c - i.base) { k with tiles := g k.tiles } } }
def State.count (s : State) (p : Nat) (f : MsgCtr → MsgCtr) : State := s.updPart p fun x => { x with ctr := f x.ctr }

/-! ## Receiving: matching (R329) -/

/-- The `n`-th number from 1 that a rising list does not hold. -/
def nthFree (n : Nat) (l : List Nat) : Nat := l.foldl (fun c m => if m ≤ c then c + 1 else c) n
def Partition.matchedOf (p : Partition) (k : Nat × Nat × Nat) : List Nat := (assocGet p.matched k).getD []
def Partition.setMatched (p : Partition) (k : Nat × Nat × Nat) (j : Nat) : Partition :=
  { p with matched := assocSet p.matched k ((addNew (p.matchedOf k) j).insertionSort (· ≤ ·)) }
def Post.on (x : Post) (lid srank chan : Nat) : Bool := x.task.lid == lid && x.srank == srank && x.chan == chan
def State.updRx (s : State) (k : MsgKey) (f : RxMsg → RxMsg) : State :=
  s.updPart k.part fun p => { p with rx := p.rx.map fun m => if m.key = k then f m else m }
def State.rx? (s : State) (k : MsgKey) : Option RxMsg := (s.part k.part).rx.find? fun m => m.key = k
/-- A message is closed, and remembered with its DEADLINE (R328). -/
def State.closeRx (s : State) (m : RxMsg) : State :=
  s.updPart m.key.part fun p =>
    { p with rx := p.rx.filter fun x => x.key != m.key, closed := p.closed ++ [(m.key, m.deadline)] }
/-- What a matched post's handle shows of its message. -/
def State.showRx (s : State) (m : RxMsg) (code : Nat) : State :=
  match m.post with
  | some x => s.setMsg x.thread x.task x.seq fun st => { st with code := code, len := m.len, frags := m.frags.length, rebuilt := m.rebuilt }
  | none => s

/-! ## Receiving: delivery (R330) -/

/-- Bytes of a message written through the posted queue; those for the scratchpad of a task that is saved go to its image. -/
def State.deliverBytes (s : State) (m : RxMsg) (x : Post) (off : Nat) (bs : List Byte) : State :=
  let bs := bs.take (m.len - off)
  let va := x.va + off
  let cells := ((List.range bs.length).zip bs).map fun e => (x.place.at x.va (va + e.1), e.2)
  let queue (dest : Option Nat) (s : State) : State :=
    let (id, s) := s.fresh
    let w : Posted := ⟨id, dest, cells, x.place.mside, none⟩
    { s with posted := s.posted ++ [w] }.updRx m.key fun m => { m with writes := m.writes ++ [id] }
  match x.place with
  | .cap _ => s
  | .mem _ => if bs.isEmpty then s else queue none s
  | .sp c _ =>
    match (s.task? x.task).bind fun t => t.image with
    | none => if bs.isEmpty then s else queue (some c) s
    | some i =>
      match i.cores[c - i.base]? with
      | none => s
      | some k =>
        let k := { k with sram := cells.foldl (fun r e => memSet r e.1 e.2) k.sram }
        s.updTask x.task fun t => { t with image := some { i with cores := replaceAt i.cores (c - i.base) k } }
/-- Data fragment `j` of a matched message written. -/
def State.writeData (s : State) (key : MsgKey) (j : Nat) (bs : List Byte) : State :=
  match s.rx? key with
  | none => s
  | some m =>
    match m.post with
    | none => s
    | some x => (s.deliverBytes m x (j * m.f) bs).updRx key fun m => { m with got := addNew m.got j }
/-- Once K distinct fragments are held, every missing data fragment is rebuilt and written. -/
def State.rebuildRx (s : State) (key : MsgKey) : State :=
  match s.rx? key with
  | none => s
  | some m =>
    if m.post.isNone || m.frags.length < m.k then s
    else
      let new := (rebuild m.k m.frags).filter fun e => !m.got.contains e.1
      let s := new.foldl (fun (s : State) e => s.writeData key e.1 e.2) s
      (s.updRx key fun m => { m with rebuilt := m.rebuilt + new.length }).count key.part fun c => { c with rebuilt := c.rebuilt + w32 new.length }
/-- A message meets its post: the length check, then the data fragments that the decode store holds. -/
def State.matchRx (s : State) (m : RxMsg) (x : Post) : State :=
  let s := s.updPart m.key.part fun p => p.setMatched (m.key.srank, m.key.chan, m.lid) m.key.mseq
  let m := { m with post := some x }
  if x.maxlen < m.len then (s.showRx m 6).closeRx m
  else
    let s := s.updRx m.key fun _ => m
    let s := (m.frags.filter fun e => e.1 < m.k).foldl (fun (s : State) e => s.writeData m.key e.1 e.2) s
    let s := s.rebuildRx m.key
    match s.rx? m.key with
    | some m => s.showRx m 0
    | none => s
/-- Fragments of a message that the decode store holds: all of an unexpected one, the repair fragments of a matched one that is not
rebuilt yet. -/
def RxMsg.stored (m : RxMsg) : List (List Byte) :=
  if m.post.isNone then m.frags.vals
  else if m.k ≤ m.frags.length then [] else (m.frags.filter fun e => m.k ≤ e.1).map fun e => e.2
def Partition.decodeRoom (p : Partition) (key : MsgKey) (n : Nat) : Bool :=
  let used := p.rx.filter fun m => !m.stored.isEmpty
  let has := used.any fun m => m.key = key
  (has || decide (used.length < 64)) && decide (sumNat (used.map fun m => sumNat (m.stored.map fun b => b.length)) + n ≤ 2 * 2 ^ 20)
/-- The launch to which a fragment is delivered, closed or not: the lowest LID of those with its GROUPID (R328). -/
def State.launchFor (s : State) (k : MsgKey) : Option Launch :=
  let ls := s.launches.filter fun l => l.part == k.part && (l.group.map fun g => g.id.toNat == k.group).getD false
  match ls with
  | [] => none
  | l :: r => some (r.foldl (fun a b => if b.lid < a.lid then b else a) l)
/-- The pending post that the positions on the channel give a message, if there is one yet (R329). -/
def Partition.postFor (p : Partition) (k : MsgKey) (lid : Nat) : Option Post :=
  let below := (p.matchedOf (k.srank, k.chan, lid)).filter fun j => j < k.mseq
  (p.posts.filter fun x => x.on lid k.srank k.chan)[k.mseq - 1 - below.length]?
/-- A fragment kept by its message: data of a matched message is written. -/
def State.keepFragment (s : State) (key : MsgKey) (fidx : Nat) (bs : List Byte) : State :=
  let s := s.updRx key fun m => { m with frags := m.frags.put fidx bs }
  match s.rx? key with
  | none => s
  | some m =>
    let s := if fidx < m.k then s.writeData key fidx bs else s
    let s := s.rebuildRx key
    match s.rx? key with
    | some m => s.showRx m 0
    | none => s
/-- A fragment of a message at its destination package, whose last flit arrived at PTP time `now`. -/
def State.arriveFragment (s : State) (h : FHdr) (now : Nat) (bs : List Byte) : State :=
  let p := h.key.part
  match s.launchFor h.key with
  | none => s.count p fun c => { c with noMatch := c.noMatch + 1 }
  | some l =>
    if (l.group.map fun g => g.rank) != some h.key.drank || l.state == .closed then s.count p fun c => { c with noMatch := c.noMatch + 1 }
    else if h.deadline < now || (s.part p).closed.any (fun e => e.1 = h.key && decide (now ≤ e.2)) || (s.part p).lost.any (fun e => e.key = h.key) then
      s.count p fun c => { c with late := c.late + 1 }
    else
      match s.rx? h.key with
      | some m =>
        if (m.frags.get? h.fidx).isSome then s.count p fun c => { c with dups := c.dups + 1 }
        else if (m.post.isNone || (m.k ≤ h.fidx && m.frags.length + 1 < m.k)) && !(s.part p).decodeRoom h.key bs.length then
          s.count p fun c => { c with drops := c.drops + 1 }
        else s.keepFragment h.key h.fidx bs
      | none =>
        let m : RxMsg :=
          { key := h.key, lid := l.lid, len := h.len, k := h.k, m := h.m, f := h.f, deadline := h.deadline, ackreq := h.ackreq, frags := [],
            post := none, got := [], writes := [], rebuilt := 0 }
        let add (s : State) : State := s.updPart p fun x => { x with rx := x.rx ++ [m] }
        match (s.part p).postFor h.key l.lid with
        | some x =>
          if h.k ≤ h.fidx && h.len ≤ x.maxlen && !(s.part p).decodeRoom h.key bs.length then s.count p fun c => { c with drops := c.drops + 1 }
          else
            let s := (add s).updPart p fun q => { q with posts := q.posts.filter fun y => !(y.thread = x.thread && y.seq = x.seq) }
            (s.matchRx { m with frags := [(h.fidx, bs)] } x)
        | none =>
          if (s.part p).decodeRoom h.key bs.length then (add s).keepFragment h.key h.fidx bs
          else s.count p fun c => { c with drops := c.drops + 1 }

/-! ## Sends (R333) -/

/-- A send is final: its handle's code, its source tile. -/
def State.finalSend (s : State) (m : TxMsg) (code : Nat) : State :=
  let s := s.setMsg m.thread m.task m.seq fun st => { st with code := code }
  let s := match m.tile with
    | some t => s.onTile m.thread.core t m.task (if code = 3 then .ready else .empty)
    | none => s
  s.updPart m.key.part fun p =>
    let upd (x : TxMsg) : TxMsg := if x.id = m.id then { x with final := true, sent := true, left := if code = 3 then 0 else x.left } else x
    { p with tx := (p.tx.map upd).filter fun x => !(x.final && x.left = 0) }
def State.tx? (s : State) (t : ThreadId) (seq : W32) : Option TxMsg :=
  s.parts.findSome? fun e => e.2.tx.find? fun m => m.thread = t && m.seq = seq && !m.final
/-- The message that an acknowledgement acknowledges. -/
def FHdr.ackOf (h : FHdr) : MsgKey := { h.key with srank := h.key.drank, drank := h.key.srank }
/-- An acknowledgement at the sender, whose last flit arrived at PTP time `now`. -/
def State.arriveAck (s : State) (h : FHdr) (now : Nat) : State :=
  let k := h.ackOf
  let late (s : State) : State := s.count k.part fun c => { c with late := c.late + 1 }
  match (s.part k.part).tx.find? fun m => m.key = k && m.ack && !m.final with
  | some m => if m.ackBy < now then late (s.finalSend m 2) else s.finalSend m 1
  | none => late s
/-- The acknowledgement of a complete message. -/
def State.sendAck (s : State) (m : RxMsg) : State :=
  match (s.launch? m.key.part m.lid).bind fun l => l.group with
  | none => s
  | some g =>
    match g.paths.find? fun e => e.1 = m.key.srank with
    | none => s
    | some (_, ps) =>
      let h (w : W32) : FHdr :=
        { key := { m.key with srank := m.key.drank, drank := m.key.srank }, ackreq := m.ackreq, fidx := 0xFF, k := m.k, m := m.m, f := m.f, len := m.len,
          deadline := m.deadline, path := w.toNat }
      (s.upPaths ps).foldl (fun (s : State) w => s.launchFragment (h w).bytes w.toNat none) s

/-- A fragment is at the last hop of its path. -/
def atLastHop (b : List Byte) : Bool := field b 36 1 + 1 == bits (field b 32 4) 0 4
/-- A port holds a whole fragment at its last hop of which `ok` holds, with the time at which its LAST flit arrived. -/
def State.portsHold (s : State) (ok : FHdr → Nat → Bool) : Bool :=
  s.ports.any fun e => e.2.wholes.any fun x => atLastHop x.bytes && ok (hdrOfBytes x.bytes) x.time
/-- A fragment of a message has arrived in time and FRAGMENT_RECEIVE has not taken it yet. It is judged by its LAST flit (18 R328, 19 R340), so the
message does not close before (log 32). -/
def State.awaits (s : State) (k : MsgKey) : Bool :=
  s.portsHold fun h now => h.fidx != 0xFF && h.key == k && decide (now ≤ h.deadline)
/-- The same of the acknowledgement of a send. -/
def State.awaitsAck (s : State) (m : TxMsg) : Bool :=
  s.portsHold fun h now => h.fidx == 0xFF && h.ackOf == m.key && decide (now ≤ m.ackBy)

/-! ## Fragments that have arrived as a message closes (R328, 19 R340) -/

/-- The whole fragments of a channel of which `ok` holds, and the flits that stay; `part` are flits of the fragment that comes first. -/
def takeWholes (vc : Nat) (ok : Whole → Bool) (part : List (Nat × VWord)) : List (Nat × VWord) → List Whole × List (Nat × VWord)
  | [] => ([], part)
  | f :: r =>
    if (hdrOf f.2).last then
      let w := wholeOf vc (part ++ [f])
      let (ws, rest) := takeWholes vc ok [] r
      if ok w then (w :: ws, rest) else (ws, part ++ [f] ++ rest)
    else takeWholes vc ok (part ++ [f]) r
/-- A whole fragment at the end of its path is judged by the rules of its kind, at the time of its LAST flit. -/
def State.arrive (s : State) (x : Whole) : State :=
  let h := hdrOfBytes x.bytes
  if h.fidx = 0xFF then s.arriveAck h x.time else s.arriveFragment h x.time ((x.bytes.drop 48).take h.f)
/-- Every whole fragment at the end of its path of which `ok` holds leaves the ports' buffers and is judged, in the order in which the LAST flits
arrived: what closes a message, a task or a launch comes after the fragments that are there (log 32). -/
def State.takeArrived (s : State) (ok : FHdr → Nat → Bool) : State :=
  let good (x : Whole) : Bool := atLastHop x.bytes && ok (hdrOfBytes x.bytes) x.time
  let ws := s.ports.flatMap fun e => (e.2.inbuf.flatMap fun b => (takeWholes b.1 good [] b.2).1).map fun x => (e.1, x)
  let s := { s with ports := s.ports.map fun e => (e.1, { e.2 with inbuf := e.2.inbuf.map fun b => (b.1, (takeWholes b.1 good [] b.2).2) }) }
  (ws.insertionSort fun a b => a.2.time ≤ b.2.time).foldl (fun (s : State) x => (s.owe (some (x.1, x.2.vc)) x.2.n).arrive x.2) s
/-- The fragments for a launch that have arrived. -/
def State.takeFor (s : State) (p lid : Nat) : State :=
  s.takeArrived fun h _ => h.key.part == p && ((s.launchFor h.key).map fun l => l.lid) == some lid
/-- The fragments of a message that have arrived in time. -/
def State.takeMessage (s : State) (k : MsgKey) : State := s.takeArrived fun h now => h.fidx != 0xFF && h.key == k && decide (now ≤ h.deadline)

end Sys2Proof.Machine
end

