-- ==== Sys2Proof/Machine/Matrix.lean ====
section
/-! DEFINITION. The cluster matrix engine (13 R236 to R258, 14 R272, R273): claims, submissions, the arbiter, the effect of every job,
checksums, status. -/

namespace Sys2Proof.Machine

/-! ## Names, claims, releases (R236 to R239) -/

/-- The engine is open to the issuing thread's partition: MSHARE is not 0. -/
def State.mtxOpen (s : State) (f : State → Res Unit) : Res Unit :=
  if (s.part s.myPart).desc.mshare = 0 then fail s 0x11 0 else f s
/-- Physical resources that a task maps, by name. -/
def State.onames (s : State) : Tab Nat := ((s.myTask.map fun t => t.onames)).getD []
def State.znames (s : State) : Tab Nat := ((s.myTask.map fun t => t.znames)).getD []
/-- A name that must be mapped, or cause 0x02 at its position. -/
def State.oname (s : State) (o : OReg) (pos : Nat) : Res Nat :=
  match s.onames.get? o.val with
  | some k => .ok k s
  | none => badPos s pos
def State.zname (s : State) (z : ZReg) (pos : Nat) : Res Nat :=
  match s.znames.get? z.val with
  | some k => .ok k s
  | none => badPos s pos
/-- Where a task's engine is, while it holds resources there. -/
def Task.engine (t : Task) : Option Nat :=
  match t.place with
  | .resident c _ => some c
  | .leaving c _ => some c
  | .filling c _ _ => some c
  | _ => none
/-- Operand slots and accumulators that a partition's tasks hold in an engine (R236). -/
def State.held (s : State) (cl p : Nat) : Nat × Nat :=
  let ts := s.tasks.filter fun t => t.id.part == p && t.engine == some cl
  let fs := (s.cluster cl).mtxq.filter fun j => j.owner.part == p
  (sumNat (ts.map fun t => t.onames.length) + sumNat (fs.map fun j => j.freed.1.length),
   sumNat (ts.map fun t => t.znames.length) + sumNat (fs.map fun j => j.freed.2.length))
def olim (mshare : Nat) : Nat := Nat.max 4 (mshare / 4)
def zlim (mshare : Nat) : Nat := Nat.max 1 (mshare / 16)
def State.freeSlots (s : State) (cl : Nat) : List Nat := (List.range 32).filter fun k => ((s.cluster cl).oslots.get? k).isNone
def State.freeAccs (s : State) (cl : Nat) : List Nat := (List.range 8).filter fun k => ((s.cluster cl).accs.get? k).isNone
/-- `n` names from `a` mapped to physical resources. -/
def mapNames (t : Tab Nat) (a : Nat) (ps : List Nat) : Tab Nat := ((List.range ps.length).zip ps).foldl (fun t e => t.put (a + e.1) e.2) t
def namesIn (a n : Nat) : List Nat := (List.range n).map (a + ·)

def execOclaim (x : OClaim) (s : State) : Out' :=
  finish <| s.mtxOpen fun s =>
    let n := (s.siZ x.b).toNat
    let a := x.a.val
    if n = 0 || 32 < a + n then badPos s 2
    else if (namesIn a n).any fun k => (s.onames.get? k).isSome then badPos s 1
    else
      let cl := clusterOf s.cur.core
      let ps := (s.freeSlots cl).take n
      let r (v : W64) (s : State) : Res Unit := done (s.reply true { Result.none with s := [(x.d, v)] })
      match s.myTask with
      | none => r 0 s
      | some t =>
        if ps.length = n && (s.held cl s.myPart).1 + n ≤ olim (s.part s.myPart).desc.mshare then
          let s := s.updTask t.id fun t => { t with onames := mapNames t.onames a ps }
          r 1 (s.updCluster cl fun k =>
            { k with oslots := ps.foldl (fun o p => o.put p []) k.oslots, obad := k.obad.filter fun x => !ps.contains x.1 })
        else r 0 s
def execZclaim (x : ZClaim) (s : State) : Out' :=
  finish <| s.mtxOpen fun s =>
    let n := (s.siZ x.b).toNat
    let a := x.a.val
    if n = 0 || 8 < a + n then badPos s 2
    else if (namesIn a n).any fun k => (s.znames.get? k).isSome then badPos s 1
    else
      let cl := clusterOf s.cur.core
      let ps := (s.freeAccs cl).take n
      let r (v : W64) (s : State) : Res Unit := done (s.reply true { Result.none with s := [(x.d, v)] })
      match s.myTask with
      | none => r 0 s
      | some t =>
        if ps.length = n && (s.held cl s.myPart).2 + n ≤ zlim (s.part s.myPart).desc.mshare then
          let s := s.updTask t.id fun t => { t with znames := mapNames t.znames a ps }
          r 1 (s.updCluster cl fun k => { k with accs := ps.foldl (fun o p => o.put p Acc.reset) k.accs })
        else r 0 s
/-- A job before its submission. -/
def MtxJob.blank (s : State) (op : MtxOp) (scope : Scope) (hint : Nat) : MtxJob :=
  { id := 0, owner := s.owner 0, op := op, scope := scope, evictFirst := hint == 1, before := [], st := .queued, excess := false,
    code := 0, cause := 0, flags := 0, mrow := 0, mcol := 0, nar := 0, nac := 0 }
/-- A release joins the submission order. -/
def State.releaseNames (s : State) (os zs : List Nat) : Res Unit :=
  let j := MtxJob.blank s (.free os zs) .core 0
  let (id, s) := s.fresh
  let s := s.updCluster (clusterOf s.cur.core) fun k =>
    let k := { k with mtxq := k.mtxq ++ [{ j with id := id }] }
    freeHeads k k.mtxq
  done (s.reply true Result.none)
def execOrelease (x : ORel) (s : State) : Out' :=
  finish <| s.mtxOpen fun s =>
    let n := (s.siZ x.b).toNat
    let a := x.a.val
    if n = 0 || 32 < a + n then badPos s 2
    else if (namesIn a n).any fun k => (s.onames.get? k).isNone then badPos s 1
    else
      match s.myTask with
      | none => badPos s 1
      | some t =>
        let ps := (namesIn a n).filterMap t.onames.get?
        (s.updTask t.id fun t => { t with onames := t.onames.filter fun e => !(namesIn a n).contains e.1 }).releaseNames ps []
def execZrelease (x : ZRel) (s : State) : Out' :=
  finish <| s.mtxOpen fun s =>
    let n := (s.siZ x.b).toNat
    let a := x.a.val
    if n = 0 || 8 < a + n then badPos s 2
    else if (namesIn a n).any fun k => (s.znames.get? k).isNone then badPos s 1
    else
      match s.myTask with
      | none => badPos s 1
      | some t =>
        let ps := (namesIn a n).filterMap t.znames.get?
        (s.updTask t.id fun t => { t with znames := t.znames.filter fun e => !(namesIn a n).contains e.1 }).releaseNames [] ps

/-! ## Formats and controls (R243, R244, R249) -/

/-- K and RB of a format. -/
def mfmtK (f : MFmt) : Nat :=
  match f with
  | .f16 | .bf16 => 64 | .e4m3 | .e5m2 | .sx8 | .i8 => 128 | .sx5 | .c4 => 256 | .sx3 => 512
def mfmtRB (f : MFmt) : Nat :=
  match f with
  | .f16 | .bf16 | .e4m3 | .e5m2 | .c4 | .i8 => 128 | .sx3 => 256 | .sx5 => 192 | .sx8 => 144
def mfmtInt (f : MFmt) : Bool := f == .i8 || f == .c4
/-- Row bytes of an OFMT; 0 where the table has no such value. -/
def ofmtBytes (o : Nat) : Nat :=
  match o with
  | 0 => 896 | 1 | 2 | 12 => 256 | 3 | 4 | 13 => 128 | 5 => 64 | 6 => 96 | 7 => 144 | 10 | 11 => 512 | _ => 0
/-- Whether an accumulator's mode suits an OFMT of `zstore`. -/
def ofmtMode (o : Nat) (int : Bool) : Bool := if o = 0 || o = 10 then true else if 11 ≤ o then int else !int
structure ZCtl where
  stride : W32
  rowsm1 : Nat
  first : Nat
  lmode : Bool
  sat : Bool
  rm : Nat
  ofmt : Nat
  deriving DecidableEq, Repr
def zctl (c : W64) : ZCtl :=
  let n := c.toNat
  ⟨w32 (bits n 32 32), bits n 24 7, bits n 16 7, bit n 8, bit n 7, bits n 4 3, bits n 0 4⟩
/-- The zero fields, FIRST + ROWSM1, and the values of LMODE, SAT and OFMT that `zstore` or `zload` accepts, with RM for `zload`, where it is
a zero field. -/
def zctlOk (c : W64) (store int : Bool) : Bool :=
  let z := zctl c
  !bit c.toNat 31 && !bit c.toNat 23 && bits c.toNat 9 7 == 0 && decide (z.first + z.rowsm1 ≤ 127) && ofmtBytes z.ofmt != 0 &&
  (if store then !z.lmode && ofmtMode z.ofmt int
   else !z.sat && z.rm == 0 && (z.ofmt == 0 || z.ofmt == 10 || z.ofmt == 11) && (z.ofmt == 0 || !z.lmode))
/-- The rows of a tile side lie within the entry. -/
def tileRows (t : Tile) (stride : W32) (rows rb : Nat) : Bool :=
  decide (stride.toNat < 2 ^ 20) && decide ((rows - 1) * stride.toNat + rb ≤ 256 * t.size)
def rmOf (n : Nat) : Rm :=
  match n with
  | 0 => .rne | 1 => .rtz | 2 => .rup | 3 => .rdn | _ => .rna

/-! ## Submission (R240) -/

/-- Source and filled destination tiles of a job. -/
def MtxOp.srcTile (o : MtxOp) : Option Nat :=
  match o with
  | .oload _ (.tile t) .. => some t
  | .zload _ (.tile t) .. => some t
  | _ => none
def MtxOp.fillTile (o : MtxOp) : Option (Nat × Nat) :=
  match o with
  | .zstore _ (.tile t) _ rowsm1 _ _ _ ofmt _ fill => if fill then some (t, (rowsm1 + 1) * ofmtBytes ofmt) else none
  | _ => none
/-- A submission: passes until its tiles are ready, a queue entry is free and the thread has room for one more live job. -/
def State.submitMtx (s : State) (j : MtxJob) (d : SReg) : Res Unit :=
  let c := s.cur.core
  let ready := (match j.op.srcTile with
    | some t => s.tileIs c t .ready
    | none => true) && (match j.op.fillTile with
    | some (t, _) => s.tileIs c t .empty
    | none => true) && decide (((s.cluster (clusterOf c)).mtxq.filter fun q => q.st == .queued && !q.isFree).length + (s.cluster (clusterOf c)).vacated.2.1 < 64)
  if !ready then .pass s
  else
    match liveRoom s.th.mjobs s.cycle with
    | none => .pass s
    | some live =>
      let s := match j.op.srcTile with
        | some t => s.setTile c t { s.tile t with st := .draining }
        | none => s
      let s := match j.op.fillTile with
        | some (t, e) => s.setTile c t ((s.tile t).fill e)
        | none => s
      let (id, s) := s.fresh
      let seq := s.th.mtxSeq + 1
      let ident := jobIdent 1 c s.cur.slot seq
      let traps := match j.op with
        | .mcheck _ b => b
        | _ => false
      let s := s.updCluster (clusterOf c) fun k => { k with mtxq := k.mtxq ++ [{ j with id := id, owner := s.owner seq, before := s.myEntries }] }
      done ((s.updTh fun t => { t with mtxSeq := seq, mjobs := live ++ [⟨ident, seq, id, none, 0, traps⟩] }).ws d ident)
def State.acc (s : State) (cl z : Nat) : Acc := (s.cluster cl).accs.getD z .reset
def State.setAcc (s : State) (cl z : Nat) (a : Acc) : State := s.updCluster cl fun k => { k with accs := k.accs.put z a }
/-- The mode that the submissions so far give an accumulator. -/
def State.subMode (s : State) (z : Nat) : Bool := (s.acc (clusterOf s.cur.core) z).smode
def State.setSubMode (s : State) (z : Nat) (m : Bool) : State :=
  s.setAcc (clusterOf s.cur.core) z { s.acc (clusterOf s.cur.core) z with smode := m }

/-- A tile operand must be an entry in use. -/
def State.tileSide (s : State) (x : TS) (pos : Nat) (f : State → Res Unit) : Res Unit :=
  match x with
  | .t r => if (s.tile r.val).size = 0 then badPos s pos else f s
  | .s _ => f s
def execOload (x : OLoad) (s : State) : Out' :=
  finish <| s.mtxOpen fun s =>
    (s.oname x.a 1).andThen fun o s =>
    s.tileSide x.b 2 fun s =>
    let c := (s.rs x.c).toNat
    let stride := w32 (bits c 32 32)
    let rb := bits c 10 10
    let rows := bits c 0 10
    let doff := bits c 20 12
    let fits := match x.b with
      | .t r => tileRows (s.tile r.val) stride rows rb
      | .s _ => true
    if rb % 16 != 0 || rb = 0 || 512 < rb || rows = 0 || 512 < rows || 65536 < 16 * doff + rows * rb || !fits then badPos s 3
    else s.submitMtx (MtxJob.blank s (.oload o (s.side x.b) stride doff rb rows x.acq) x.scope x.h.hint.val) x.d
def execMma (x : MmaA) (s : State) : Out' :=
  finish <| s.mtxOpen fun s =>
    (s.zname x.a 1).andThen fun z s =>
    (s.oname x.b 2).andThen fun a s =>
    (s.oname x.c 3).andThen fun b s =>
    if s.subMode z != mfmtInt x.fmt then badPos s 1
    else s.submitMtx (MtxJob.blank s (.mma z a b x.m32 x.fmt x.q.val x.chk s.ctab.1 s.ctab.2 none) .core x.h.hint.val) x.d
def execRmma (x : RMma) (s : State) : Out' :=
  finish <| s.mtxOpen fun s =>
    let m0 := s.opTh.sm0
    let m1 := s.opTh.sm1
    if !m0.valid || !m1.valid then badPos s 4
    else if m0.rpa != m1.rpa || m0.gen != m1.gen then fail s 0x31 0
    else
      (s.zname x.a 1).andThen fun z s =>
      (s.oname x.b 2).andThen fun a s =>
      (s.oname x.c 3).andThen fun b s =>
      if s.subMode z != mfmtInt x.fmt then badPos s 1
      else s.submitMtx (MtxJob.blank s (.mma z a b x.m32 x.fmt x.q.val x.chk s.ctab.1 s.ctab.2 (some (x.alongK, m0, m1))) .core x.h.hint.val) x.d
def execZclear (x : ZClr) (s : State) : Out' :=
  finish <| s.mtxOpen fun s =>
    (s.zname x.a 1).andThen fun z s =>
    (s.submitMtx (MtxJob.blank s (.zclear z x.int) .core x.h.hint.val) x.d).andThen fun _ s => done (s.setSubMode z x.int)
def execZstore (x : ZSt) (s : State) : Out' :=
  finish <| s.mtxOpen fun s =>
    s.tileSide x.a 1 fun s =>
    (s.zname x.b 2).andThen fun z s =>
    let c := s.rs x.c
    let k := zctl c
    let rb := ofmtBytes k.ofmt
    let fits := match x.a with
      | .t r =>
        let t := s.tile r.val
        tileRows t k.stride (k.rowsm1 + 1) rb && (!x.fill || decide ((k.rowsm1 + 1) * rb ≤ 256 * t.size))
      | .s _ => true
    if !zctlOk c true (s.subMode z) || !fits then badPos s 3
    else if 4 < k.rm then badPos s 4
    else if x.fill && !isTile x.a then badPos s 4
    else s.submitMtx (MtxJob.blank s (.zstore z (s.side x.a) k.stride k.rowsm1 k.first k.sat k.rm k.ofmt x.rel x.fill) x.scope x.h.hint.val) x.d
def execZload (x : ZLd) (s : State) : Out' :=
  finish <| s.mtxOpen fun s =>
    (s.zname x.a 1).andThen fun z s =>
    s.tileSide x.b 2 fun s =>
    let c := s.rs x.c
    let k := zctl c
    let fits := match x.b with
      | .t r => tileRows (s.tile r.val) k.stride (k.rowsm1 + 1) (ofmtBytes k.ofmt)
      | .s _ => true
    if !zctlOk c false false || !fits then badPos s 3
    else
      let m := if k.ofmt = 0 then k.lmode else k.ofmt == 11
      (s.submitMtx (MtxJob.blank s (.zload z (s.side x.b) k.stride k.rowsm1 k.first m k.ofmt x.acq) x.scope x.h.hint.val) x.d).andThen
        fun _ s => done (s.setSubMode z m)
def execMcheck (x : MChk) (s : State) : Out' :=
  finish <| s.mtxOpen fun s =>
    (s.zname x.a 1).andThen fun z s => s.submitMtx (MtxJob.blank s (.mcheck z (!x.notrap)) .core x.h.hint.val) x.d

/-! ## Status (R253, R254, R257) -/

def mtxStatus (j : MtxJob) (code : Nat) : W64 :=
  w64 (code + 256 * bnat j.excess + 2 ^ 16 * j.cause + 2 ^ 24 * j.flags.toNat + 2 ^ 32 * j.nac + 2 ^ 40 * j.nar + 2 ^ 48 * j.mcol + 2 ^ 56 * j.mrow)
/-- The report of a job that is no longer pending; a mismatch of `mcheck.trap` traps after the report, at the next bundle. -/
def State.mtxReport (s : State) (l : LiveJob) (d : SReg) (st : W64) : Res Unit :=
  let s := s.updTh fun t => { t with mjobs := t.mjobs.filter fun j => j.id != l.id }
  let s := s.updMyCore fun k => { k with observed := addNew k.observed l.id }
  let s := ((s.ws d st).orSticky (st.extractLsb' 24 4)).acquire .block
  if bits st.toNat 0 8 = 6 && l.traps then
    let info := w64 (l.seq.toNat + 2 ^ 32 * bits st.toNat 56 8 + 2 ^ 40 * bits st.toNat 48 8)
    let s := s.trapAfter s.me s.cur.link 0x41 0 info
    done { s with cur := { s.cur with fate := .trapped } }
  else done s
def State.mtxLook (s : State) (id : W64) : Option LiveJob := s.opTh.mjobs.find? fun j => j.ident = id
/-- The status word of a job that is pending: its progress. -/
def State.mtxPending (s : State) (l : LiveJob) : W64 :=
  match (s.cluster (clusterOf s.cur.core)).mtxq.find? fun j => j.id = l.id with
  | some j => w64 (256 * bnat j.excess)
  | none => 0
def execMpoll (x : DA) (s : State) : Out' :=
  finish <| s.mtxOpen fun s =>
    match s.mtxLook (s.rs x.a) with
    | none => done (s.ws x.d 5)
    | some l =>
      match l.done with
      | some st => s.mtxReport l x.d st
      | none => done (s.ws x.d (s.mtxPending l))
def execMwait (x : DA) (s : State) : Out' :=
  finish <| s.mtxOpen fun s =>
    match s.mtxLook (s.rs x.a) with
    | none => done (s.ws x.d 5)
    | some l =>
      match l.doneBy s.cycle with
      | some st => s.mtxReport l x.d st
      | none => .pass s
def execMstat (x : DOnly) (s : State) : Out' :=
  finish <| s.mtxOpen fun s =>
    let k := s.cluster (clusterOf s.cur.core)
    let ae := (s.myTask.map fun t => t.ae0).getD 0
    done (s.ws x.d (w64 (bnat k.mtx0.2.2 + 16 * (32 - k.mtx0.1) + 2 ^ 10 * (8 - k.mtx0.2.1) + 2 ^ 32 * Nat.min ae (2 ^ 32 - 1))))

/-! ## Products (R247, R251, R273) -/

/-- Exponent of the exact checksums. -/
def ckExp : Int := -600
def toCk (v : FVal) : Int :=
  match v with
  | .fin n m e => scaled n m e ckExp
  | _ => 0
/-- Elements of an operand row: floating values, or the integers of the integer formats. -/
def opElem (f : MFmt) (ct : W64 × W64) (row : List Byte) (k : Nat) : FVal :=
  let int (z : Int) : FVal := .fin (z < 0) z.natAbs 0
  let blk (n : Nat) : Nat := field row (n * (k / 16)) n
  match f with
  | .f16 => fdec fF16 (field row (2 * k) 2)
  | .bf16 => fdec fBf16 (field row (2 * k) 2)
  | .e4m3 => fdec fE4m3 (field row k 1)
  | .e5m2 => fdec fE5m2 (field row k 1)
  | .sx3 => sxDec 2 (blk 8) (k % 16)
  | .sx5 => sxDec 4 (blk 12) (k % 16)
  | .sx8 => sxDec 7 (blk 18) (k % 16)
  | .c4 => int (ctEntry ct.1 ct.2 (bits (field row (k / 2) 1) (4 * (k % 2)) 4))
  | .i8 => int (toS 8 (field row k 1))
def FVal.isInf : FVal → Bool
  | .inf _ => true
  | _ => false
/-- What one element's update gives: its bits, flags, saturation, whether a product or result is NaN or infinite, the exact sums of
the products and of their absolute values. -/
structure Upd where
  z : BitVec 56
  flags : Nat
  sat : Bool
  na : Bool
  c : Int
  a : Int
  deriving DecidableEq, Repr
/-- One group of products added to an element (R184, R247). -/
def updGroup (int : Bool) (u : Upd) (ps : List (FVal × FVal)) : Upd :=
  let pr := ps.map fun p => fmul p.1 p.2
  let c := pr.foldl (fun (c : Int) p => c + toCk p.1) u.c
  let a := pr.foldl (fun (c : Int) p => c + (toCk p.1).natAbs) u.a
  if int then
    let z := u.z.toInt + pr.foldl (fun (t : Int) p => t + scaled p.1.sign (match p.1 with | .fin _ m _ => m | _ => 0) 0 0) 0
    let lo : Int := -(2 ^ 55 : Nat)
    let hi : Int := (2 ^ 55 : Nat) - 1
    let past := z < lo || hi < z
    ⟨BitVec.ofInt 56 (if hi < z then hi else if z < lo then lo else z), u.flags ||| (if past then flagS else 0), u.sat || past, u.na, c, a⟩
  else
    let opf := nanFlags (ps.flatMap fun p => [p.1, p.2]) ||| pr.foldl (fun f p => f ||| p.2) 0
    let clash := (pr.any fun p => p.1 == .inf false) && (pr.any fun p => p.1 == .inf true)
    let t := pr.foldl (fun (t : Option FVal) p => match t with
      | none => some p.1
      | some t => some (fadd .rne t p.1).1) none
    let z := fdec fA56 u.z.toNat
    let (r, rf) := fadd .rne z (t.getD (.fin false 0 0))
    let (b, bf) := fround fA56 .rne false false r
    let f := opf ||| (if clash then flagI else 0) ||| nanFlags [z] ||| rf ||| bf
    let v := fdec fA56 b
    let bad := (pr.any fun p => p.1.isNan || p.1.isInf) || v.isNan || v.isInf
    ⟨BitVec.ofNat 56 b, u.flags ||| f, u.sat, u.na || bad, c, a⟩
/-- Consecutive chunks of 32. -/
def groups32 {α : Type} (l : List α) : Nat → List (List α)
  | 0 => []
  | n + 1 => l.take 32 :: groups32 (l.drop 32) n
/-- The segment of a local row; `none` outside the map. -/
def SegMap.segAt (m : SegMap) (i : Nat) : Option Nat := (m.rows[i]?).map fun r => r.seg
/-- The groups of products of element (m, n): operand elements paired and, for `rmma`, masked; `none` where the element is excluded. -/
def pairGroups (ragged : Option (Bool × SegMap × SegMap)) (m n : Nat) (a b : List FVal) : List (List (FVal × FVal)) :=
  let all := groups32 (a.zip b) (a.length / 32)
  match ragged with
  | none => all
  | some (alongK, sa, sb) =>
    match sa.segAt m with
    | none => []
    | some g =>
      if !alongK then if sb.segAt n = some g then all else []
      else
        let idx := (List.range a.length).zip (a.zip b)
        ((groups32 idx (a.length / 32)).map fun l => (l.filter fun e => sb.segAt e.1 = some g).map (·.2)).filter fun l => !l.isEmpty
/-- Elements of a slot's rows. -/
def slotRow (f : MFmt) (ct : W64 × W64) (cells : List Host.Cell) (r : Nat) : List FVal :=
  let row := memBytes cells (mfmtRB f * r) (mfmtRB f)
  (List.range (mfmtK f)).map (opElem f ct row)
/-- First row and number of rows of a product. -/
def mmaRows (m32 : Bool) (q : Nat) : Nat × Nat := if m32 then (32 * q, 32) else (0, 128)
/-- Sums of a list of updates by row or column, added to a table. -/
def addTab (t : Tab Int) (l : List (Nat × Int)) : Tab Int := l.foldl (fun t e => if e.2 = 0 then t else t.put e.1 (t.getD e.1 0 + e.2)) t
def sumInt (l : List Int) : Int := l.foldl (· + ·) 0
/-- A product's effect on an accumulator, and its flags. -/
def mmaEffect (z : Acc) (oa ob : List Host.Cell) (m32 : Bool) (f : MFmt) (q : Nat) (chk : Bool) (ct : W64 × W64)
    (ragged : Option (Bool × SegMap × SegMap)) : Acc × Nat :=
  let (r0, nr) := mmaRows m32 q
  let int := mfmtInt f
  let brows := (List.range 128).map (slotRow f ct ob)
  let rows := ((List.range nr).map (r0 + ·)).map fun m =>
    let arow := slotRow f ct oa m
    let old := z.z.filter fun e => e.1 / 128 == m
    (m, ((List.range 128).zip brows).map fun nb =>
      let k := 128 * m + nb.1
      (nb.1, (pairGroups ragged m nb.1 arow nb.2).foldl (updGroup int) ⟨Tab.getD old k 0, 0, false, false, 0, 0⟩))
  let ups : List (Nat × Nat × Upd) := rows.flatMap fun r => r.2.map fun u => (r.1, u.1, u.2)
  let new : Tab (BitVec 56) := ups.filterMap fun u => if u.2.2.z = 0 then none else some (128 * u.1 + u.2.1, u.2.2.z)
  let sat := ups.filterMap fun u => if u.2.2.sat then some (128 * u.1 + u.2.1) else none
  let flags := ups.foldl (fun f u => f ||| u.2.2.flags) 0
  let low : Tab (BitVec 56) := z.z.filter fun e => decide (e.1 < 128 * r0)
  let high : Tab (BitVec 56) := z.z.filter fun e => decide (128 * (r0 + nr) ≤ e.1)
  let z1 : Acc := { z with z := low ++ new ++ high, sat := sat.foldl addNew z.sat }
  if !chk then ({ z1 with chkv := false }, flags)
  else
    let col (g : Upd → Int) : List (Nat × Int) :=
      (List.range 128).map fun n => (n, sumInt (rows.map fun r => ((r.2[n]?).map fun u => g u.2).getD 0))
    let row (g : Upd → Int) : List (Nat × Int) := rows.map fun r => (r.1, sumInt (r.2.map fun u => g u.2))
    let bad := ups.filter fun u => u.2.2.na || u.2.2.sat
    ({ z1 with rc := addTab z.rc (row Upd.c), cc := addTab z.cc (col Upd.c), sr := addTab z.sr (row Upd.a), sc := addTab z.sc (col Upd.a),
               rmark := bad.foldl (fun l (u : Nat × Nat × Upd) => addNew l u.1) z.rmark, cmark := bad.foldl (fun l (u : Nat × Nat × Upd) => addNew l u.2.1) z.cmark,
               kt := z.kt + mfmtK f }, flags)

/-- Poisoned words of an operand slot. -/
def slotBad (obad : List (Nat × Nat)) (slot : Nat) : List Nat := (obad.filter fun x => x.1 == slot).map (·.2)
/-- Rows that hold a poisoned word of a slot. -/
def badRows (ws : List Nat) (rb : Nat) : List Nat := ((ws.filter fun w => decide (8 * w < 128 * rb)).map fun w => 8 * w / rb).eraseDups
/-- First byte in its row and number of bytes of what element `k` is decoded from: its own, or its block of 16. -/
def elemAt (f : MFmt) (k : Nat) : Nat × Nat :=
  match f with
  | .f16 | .bf16 => (2 * k, 2)
  | .e4m3 | .e5m2 | .i8 => (k, 1)
  | .sx3 | .c4 => (k / 16 * 8, 8)
  | .sx5 => (k / 16 * 12, 12)
  | .sx8 => (k / 16 * 18, 18)
/-- Element `k` of row `r` carries poison. -/
def elemBad (f : MFmt) (ws : List Nat) (r k : Nat) : Bool :=
  let a := mfmtRB f * r + (elemAt f k).1
  ws.any fun w => decide (a / 8 ≤ w) && decide (8 * w < a + (elemAt f k).2)
/-- Element (m, n) takes a product in from an A row or a B row with poison: of `rmma`, those of the elements that R273 leaves in. -/
def takesBad (f : MFmt) (wa wb : List Nat) (ragged : Option (Bool × SegMap × SegMap)) (m n : Nat) : Bool :=
  let ks := List.range (mfmtK f)
  let row (k : Nat) : Bool := elemBad f wa m k || elemBad f wb n k
  match ragged with
  | none => ks.any row
  | some (alongK, sa, sb) =>
    match sa.segAt m with
    | none => false
    | some g => if alongK then ks.any fun k => sb.segAt k == some g && row k else sb.segAt n == some g && ks.any row
/-- Elements that a product leaves poisoned (22 R379). -/
def mmaBad (bad : List Nat) (f : MFmt) (wa wb : List Nat) (m32 : Bool) (q : Nat) (ragged : Option (Bool × SegMap × SegMap)) : List Nat :=
  let (r0, nr) := mmaRows m32 q
  let ra := badRows wa (mfmtRB f)
  let rb := badRows wb (mfmtRB f)
  let byA := (ra.filter fun m => decide (r0 ≤ m) && decide (m < r0 + nr)).flatMap fun m => (List.range 128).map fun n => (m, n)
  let byB := rb.flatMap fun n => (List.range nr).map fun m => (r0 + m, n)
  ((byA ++ byB).filter fun e => takesBad f wa wb ragged e.1 e.2).foldl (fun l e => addNew l (128 * e.1 + e.2)) bad

/-! ## Checks (R252) -/

/-- An element as an exact multiple of 2^-600. -/
def accVal (int : Bool) (z : BitVec 56) : Int := if int then z.toInt * 2 ^ 600 else toCk (fdec fA56 z.toNat)
def lineSum (a : Acc) (p : Nat → Bool) : Int := sumInt ((a.z.filter fun e => p e.1).map fun e => accVal a.int e.2)
/-- The sums of a row or column disagree beyond KT * 2^-40 * S. -/
def disagrees (sum ck sabs : Int) (kt : Nat) : Bool := kt * sabs < (sum - ck).natAbs * 2 ^ 40
structure CheckResult where
  row : Option Nat
  col : Option Nat
  nar : Nat
  nac : Nat
  deriving DecidableEq, Repr
def checkAcc (a : Acc) : CheckResult :=
  if !a.chkv then ⟨none, none, 128, 128⟩
  else
    ⟨(List.range 128).find? fun m => !a.rmark.contains m && disagrees (lineSum a fun k => k / 128 == m) (a.rc.getD m 0) (a.sr.getD m 0) a.kt,
     (List.range 128).find? fun n => !a.cmark.contains n && disagrees (lineSum a fun k => k % 128 == n) (a.cc.getD n 0) (a.sc.getD n 0) a.kt,
     a.rmark.length, a.cmark.length⟩

/-! ## Rows of stores and loads (R245, R250) -/

def oFmt (o : Nat) : FFmt :=
  match o with
  | 1 => fF16 | 2 => fBf16 | 3 => fE4m3 | 4 => fE5m2 | _ => fF32
def oInt (o : Nat) : IntTy :=
  match o with
  | 11 => .i32 | 12 => .i16 | _ => .i8
def oVTy (o : Nat) : VTy :=
  match o with
  | 1 => .f16 | 2 => .bf16 | 3 => .e4m3 | 4 => .e5m2 | 5 => .sx3 | 6 => .sx5 | 7 => .sx8 | _ => .n32
/-- Row `r` as the bytes of an OFMT, and the flags. -/
def storeRow (a : Acc) (r ofmt : Nat) (rm : Rm) (sat ns : Bool) : List Byte × Nat :=
  let old := a.z.filter fun e => e.1 / 128 == r
  let zs := (List.range 128).map fun n => Tab.getD old (128 * r + n) (0 : BitVec 56)
  let marked := if (List.range 128).any fun n => a.sat.contains (128 * r + n) then flagS else 0
  let each (b : Nat) (f : BitVec 56 → Nat × Nat) : List Byte × Nat :=
    let rs := zs.map f
    (rs.flatMap fun x => toBytes b x.1, rs.foldl (fun g x => g ||| x.2) marked)
  match ofmt with
  | 0 => each 7 fun z => (z.toNat, 0)
  | 1 | 2 => each 2 fun z => fToF fA56 (oFmt ofmt) rm sat ns z.toNat
  | 3 | 4 => each 1 fun z => fToF fA56 (oFmt ofmt) rm sat ns z.toNat
  | 10 => each 4 fun z => if a.int then intToF fF32 rm z.toInt else fToF fA56 fF32 rm sat ns z.toNat
  | 11 | 12 | 13 =>
    each (tyW (oInt ofmt) / 8) fun z =>
      let s := satTo (oInt ofmt) sat z.toInt
      (ofZ (tyW (oInt ofmt)) s.1, if s.2 then flagS else 0)
  | _ =>
    let p := vtyP (oVTy ofmt)
    let bl := (List.range 8).map fun b => sxEnc rm p (((zs.drop (16 * b)).take 16).map fun z => fdec fA56 z.toNat)
    (bl.flatMap fun x => toBytes (vtyBlock (oVTy ofmt)) x.1, bl.foldl (fun g x => g ||| x.2) marked)
/-- A row loaded: 128 elements, and the flags of the conversion. -/
def loadRow (bs : List Byte) (ofmt : Nat) : List (BitVec 56 × Nat) :=
  (List.range 128).map fun n =>
    match ofmt with
    | 0 => (BitVec.ofNat 56 (field bs (7 * n) 7), 0)
    | 10 =>
      let r := fToF fF32 fA56 .rne false false (field bs (4 * n) 4)
      (BitVec.ofNat 56 r.1, r.2)
    | _ => (BitVec.ofInt 56 (toS 32 (field bs (4 * n) 4)), 0)
/-- Width in bits of an element of an OFMT in a row; that of a block format is a part of its block. -/
def ofmtBits (o : Nat) : Nat := ofmtBytes o * 8 / 128
/-- The bytes of a stored row with their poison: those of poisoned elements, or of their blocks. -/
def rowPoison (a : Acc) (r ofmt : Nat) (bs : List Byte) : List (Byte × Bool) :=
  if a.bad.isEmpty then bs.map fun b => (b, false)
  else
    let per := if 5 ≤ ofmt && ofmt ≤ 7 then 16 else 1
    ((List.range bs.length).zip bs).map fun x =>
      let g := 8 * x.1 / (ofmtBits ofmt * per)
      (x.2, (List.range per).any fun k => a.bad.contains (128 * r + per * g + k))
/-- Elements of a loaded row that carry poison. -/
def rowBad (r ofmt : Nat) (bs : List (Byte × Bool)) : List Nat :=
  let w := ofmtBytes ofmt / 128
  ((List.range 128).filter fun n => ((bs.drop (w * n)).take w).any (·.2)).map (128 * r + ·)
/-- Row `r` of an accumulator replaced, its saturation flags cleared. -/
def putRow (a : Acc) (r : Nat) (l : List (BitVec 56)) : Acc :=
  let new := ((List.range 128).zip l).filterMap fun e => if e.2 = 0 then none else some (128 * r + e.1, e.2)
  { a with z := (a.z.filter fun e => decide (e.1 < 128 * r)) ++ new ++ (a.z.filter fun e => decide (128 * (r + 1) ≤ e.1)),
           sat := a.sat.filter fun k => k / 128 != r }

/-! ## Jobs in the engine -/

def MtxJob.agent (j : MtxJob) : Agent := ⟨j.owner.thread.core, j.owner.part, j.owner.super⟩
def State.updMtx (s : State) (cl id : Nat) (f : MtxJob → MtxJob) : State :=
  s.updCluster cl fun k => { k with mtxq := k.mtxq.map fun j => if j.id = id then f j else j }
def MtxOp.rows (o : MtxOp) : Nat :=
  match o with
  | .oload _ _ _ _ _ rows _ => rows
  | .zstore _ _ _ rowsm1 .. => rowsm1 + 1
  | .zload _ _ _ rowsm1 .. => rowsm1 + 1
  | .free .. => 0
  | _ => 1
def MtxOp.acquires (o : MtxOp) : Bool :=
  match o with
  | .oload _ _ _ _ _ _ acq => acq
  | .zload _ _ _ _ _ _ _ acq => acq
  | _ => false
def MtxOp.releases (o : MtxOp) : Bool :=
  match o with
  | .zstore _ _ _ _ _ _ _ _ rel _ => rel
  | _ => false
/-- Address and place of row `i` of a side. -/
def sideAddr (a : W64) (stride : W32) (i : Nat) : W64 := a + w64 i * stride.signExtend 64
/-- The bytes of row `i` of a source with their poison; `ev`: the evict-first hint. -/
def State.mtxRead (s : State) (cl : Nat) (j : MtxJob) (src : Side) (stride : W32) (i n : Nat) (ev : Bool) : Res (List (Byte × Bool)) :=
  let sh := s.jobShingle j.owner
  match src with
  | .tile t =>
    let x := (s.core j.owner.thread.core).tiles.getD t .reset
    let off := 256 * x.base + i * stride.toNat
    (s.jobBytes cl j.id sh (.sp j.owner.thread.core off) off ((List.range n).map (off + ·))).andThen fun b s => .ok b.1 s
  | .addr a =>
    let a := sideAddr a stride i
    (s.access j.agent a n .load false).andThen fun p s =>
    s.jobRead cl j.id sh p a.toNat n ev
/-- Checks 5 and 6 for a typed row of `zstore`. -/
def State.mtxTyped (s : State) (j : MtxJob) (p : Place) (a : W64) (ofmt : Nat) : Res Unit :=
  let x := oVTy ofmt
  let f := vtyFmt x
  let dec := f != 0 && p.fmt == f
  let aligned := f == 0 || (if vtyB x = 0 then !dec || blocksOk p a.toNat (vtyBlock x) 8 else a.toNat % vtyB x == 0)
  if !aligned then .trap s 0x13 a 0
  else if f != 0 && p.fmt != 0 && p.fmt != f && !j.owner.mode.fmtovr then .trap s 0x14 a 0
  else done s
/-- A job's fault (R241, R245, R250): log entry, tiles, code. -/
def State.mtxFault (s : State) (cl : Nat) (j : MtxJob) (cause : Byte) (addr : W64) : State :=
  let c := j.owner.thread.core
  let s := s.faultLog j.owner.part 3 addr (w32 j.owner.task.lid) j.owner.seq cause c
  let s := match j.op.srcTile with
    | some t =>
      let x := (s.core c).tiles.getD t .reset
      if x.st = TileSt.draining then s.setTile c t { x with st := .ready } else s
    | none => s
  let s := match j.op with
    | .zstore _ (.tile t) .. =>
      if ((s.core c).tiles.getD t .reset).st = TileSt.filling then s.emptyTiles [(c, t)] else s
    | _ => s
  s.updMtx cl j.id fun j => { j with code := 2, cause := cause.toNat }
/-- Bytes and poison of a row put into an operand slot; rows are whole 8-byte words. -/
def Cluster.slotPut (k : Cluster) (o off : Nat) (bs : List (Byte × Bool)) : Cluster :=
  let bad := (((List.range bs.length).zip bs).filter (·.2.2)).map fun x => (o, (off + x.1) / 8)
  { k with
      oslots := k.oslots.put o (memWrite (k.oslots.getD o []) off (bs.map (·.1))),
      obad := (k.obad.filter fun x => !(x.1 == o && decide (off / 8 ≤ x.2) && decide (8 * x.2 < off + bs.length))) ++ bad.eraseDups }
/-- What a step of a job gives: flags, and whether tile bytes were not written. -/
def State.mtxStep (s : State) (cl : Nat) (j : MtxJob) (i : Nat) : Res (Nat × Bool) :=
  match j.op with
  | .oload o src stride doff rb _ _ =>
    (s.mtxRead cl j src stride i rb j.evictFirst).andThen fun bs s =>
    .ok (0, false) (s.updCluster cl fun k => k.slotPut o (16 * doff + i * rb) bs)
  | .mma z a b m32 f q chk lo hi rg =>
    let k := s.cluster cl
    let (acc, fl) := mmaEffect (s.acc cl z) (k.oslots.getD a []) (k.oslots.getD b []) m32 f q chk (lo, hi) rg
    let bad := mmaBad acc.bad f (slotBad k.obad a) (slotBad k.obad b) m32 q rg
    .ok (fl, false) (s.setAcc cl z { acc with bad := bad })
  | .zclear z int => .ok (0, false) (s.setAcc cl z { Acc.reset with int := int, smode := (s.acc cl z).smode })
  | .zstore z dst stride _ first sat rm ofmt _ _ =>
    let (bs, fl) := storeRow (s.acc cl z) (first + i) ofmt (rmOf rm) sat j.owner.mode.fp8ns
    let bb := rowPoison (s.acc cl z) (first + i) ofmt bs
    match dst with
    | .tile t =>
      let (s, ex) := State.tileArrive s j.owner.thread.core t (i * stride.toNat) bb
      .ok (fl, ex) s
    | .addr a =>
      let a := sideAddr a stride i
      (s.access j.agent a bs.length .store false).andThen fun p s =>
      (s.mtxTyped j p a ofmt).andThen fun _ s =>
      (s.jobWrite cl j.id j.owner j.scope false p a.toNat bb).andThen fun _ s => .ok (fl, false) s
  | .zload z src stride _ first m ofmt _ =>
    let s := s.setAcc cl z { s.acc cl z with int := m, chkv := false }
    (s.mtxRead cl j src stride i (ofmtBytes ofmt) false).andThen fun bs s =>
    let l := loadRow (bs.map (·.1)) ofmt
    let acc := putRow (s.acc cl z) (first + i) (l.map (·.1))
    let acc := { acc with bad := (acc.bad.filter fun k => k / 128 != first + i) ++ rowBad (first + i) ofmt bs }
    .ok (l.foldl (fun f e => f ||| e.2) 0, false) (s.setAcc cl z acc)
  | .mcheck .. => .ok (0, false) s
  | .free .. => .ok (0, false) s

/-! ## The arbiter (R255, R256) -/

/-- Bytes an operand's rows supply, in slot order. -/
def slotBytes (cells : List Host.Cell) (f : MFmt) (r0 n : Nat) : List Byte := memBytes cells (mfmtRB f * r0) (mfmtRB f * n)
/-- Every 64th byte of a stream. -/
def every64 (l : List Byte) (n : Nat) : List Byte := (List.range n).map fun i => (l[64 * i]?).getD 0
/-- Sum of the bit changes from byte to byte. -/
def bitChanges : Byte → List Byte → Nat
  | _, [] => 0
  | p, b :: r => popcount (b ^^^ p).toNat 8 + bitChanges b r
def State.units (s : State) (cl : Nat) (j : MtxJob) : Nat :=
  match j.op with
  | .mma _ a b m32 f q _ _ _ _ =>
    let k := s.cluster cl
    let (r0, nr) := mmaRows m32 q
    let st := slotBytes (k.oslots.getD a []) f r0 nr ++ slotBytes (k.oslots.getD b []) f 0 128
    (if m32 then 64 else 256) + bitChanges 0 (every64 st (st.length / 64))
  | _ => 16
/-- Jobs that may start: no earlier job of their task is left (R242). -/
def readyJobs : List TaskId → List MtxJob → List MtxJob
  | _, [] => []
  | seen, j :: r =>
    if j.isFree then readyJobs seen r
    else if seen.contains j.owner.task then readyJobs seen r
    else if j.st = .queued then j :: readyJobs (seen ++ [j.owner.task]) r
    else readyJobs (seen ++ [j.owner.task]) r
/-- The one of lowest key; the first on ties. -/
def lowest {α : Type} (key : α → Nat) : List α → Option α
  | [] => none
  | a :: r => some (r.foldl (fun b x => if key x < key b then x else b) a)
/-- Die of a cluster: 32 clusters per die (00 R1). -/
def dieOfCluster (cl : Nat) : Nat := cl / 32
/-- MATRIX_JOB_START. -/
def execMatrixJobStart (c : ClusterN) (s : State) : Out' :=
  let cl := c.val
  let k := s.cluster cl
  if s.mgmt.trip.contains (dieOfCluster cl) then .next s
  else
    let ready := readyJobs [] k.mtxq
    let ready := if k.winTotal < k.budget then ready
      else ready.filter fun j => decide (128 * k.winCharge.getD j.owner.part 0 < (s.part j.owner.part).desc.mshare * k.budget)
    match lowest (fun (j : MtxJob) => ((s.task? j.owner.task).map fun t => t.ae).getD 0) ready with
    | none => .next s
    | some j =>
      let u := s.units cl j
      let s := if j.op.acquires && j.scope == .system then s.settle ((s.posted.map fun w => w.id + 1).foldl Nat.max 0) else s
      let s := s.updTask j.owner.task fun t => { t with ae := t.ae + u }
      let s := s.updCluster cl fun k =>
        { k with vacated := (k.vacated.1, k.vacated.2.1 + 1, k.vacated.2.2), winTotal := k.winTotal + u, winCharge := k.winCharge.put j.owner.part (k.winCharge.getD j.owner.part 0 + u) }
      .next (s.updMtx cl j.id fun j => { j with st := .running 0 })
/-- The cycle is a multiple of the window length, and the window that begins in it has not begun yet. -/
def State.winDue (s : State) (cl : Nat) : Bool :=
  let k := s.cluster cl
  s.cycle % 2 ^ k.winlog == 0 && k.winAt != s.cycle
/-- A window boundary: the totals return to 0, and the estimates of the engine's tasks are halved. -/
def State.winBegin (s : State) (cl : Nat) : State :=
  if s.winDue cl then
    let s := s.updCluster cl fun k => { k with winTotal := 0, winCharge := [], winAt := s.cycle }
    { s with tasks := s.tasks.map fun t => if t.engine = some cl then { t with ae := t.ae / 2 } else t }
  else s
/-- ARBITER_WINDOW_BOUNDARY: at a boundary; at the latest as its cycle ends. -/
def execArbiterWindowBoundary (c : ClusterN) (s : State) : Out' := .next (s.winBegin c.val)
/-- The boundaries of a cycle that have not been made. -/
def State.winTick (s : State) : State := s.clusters.foldl (fun s e => s.winBegin e.1) s

/-! ## Steps and completion -/

/-- The end of a job: status to its thread, releases behind it. -/
def State.mtxFinish (s : State) (cl : Nat) (j : MtxJob) : State :=
  let chk := match j.op with
    | .mcheck z _ => if j.code = 0 then some (checkAcc (s.acc cl z)) else none
    | _ => none
  let j := match chk with
    | some r => { j with mrow := r.row.getD 0xFF, mcol := r.col.getD 0xFF, nar := r.nar, nac := r.nac,
                         code := if r.row.isSome || r.col.isSome then 6 else 1 }
    | none => { j with code := if j.code = 0 then 1 else j.code }
  let s := s.updThr j.owner.thread fun t => { t with mjobs := setDone t.mjobs j.id (mtxStatus j j.code) s.cycle }
  s.updCluster cl fun k => freeHeads k (k.mtxq.filter fun x => x.id != j.id)
/-- MATRIX_JOB_COMPLETE: the next row of a running job; after its last, its release and its completion (log 22). -/
def execMatrixJobComplete (c : ClusterN) (id : Nat) (s : State) : Out' :=
  let cl := c.val
  match (s.cluster cl).mtxq.find? fun j => j.id = id with
  | none => .next s
  | some j =>
    match j.st with
    | .running i =>
      if i < j.op.rows && j.code = 0 then
        if s.beforeDone j.owner.thread.core j.before && s.jobGate j.owner && !(j.op.fillTile.any fun t => s.freshFill j.owner.thread.core t.1) then
          match s.mtxStep cl j i with
          | .ok (fl, ex) s =>
            let s := match j.op.srcTile with
              | some t => if i + 1 = j.op.rows then s.drainEnd j.owner.thread.core t else s
              | none => s
            .next (s.updMtx cl id fun j => { j with st := .running (i + 1), flags := j.flags ||| stickyOf fl, excess := j.excess || ex })
          | .pass s => .next s
          | .trap s cause a _ => .next (s.mtxFault cl j cause a)
        else .next s
      else if s.jobReleased cl id j.op.releases j.scope then .next (s.mtxFinish cl j)
      else .next s
    | _ => .next s

end Sys2Proof.Machine
end

