-- ==== Sys2Proof/Machine/Special.lean ====
section
/-! DEFINITION. Division, square root and the special functions of 11 R224 to R226. `vsqrt`, `vdiv` and `vexp2` are correctly
rounded; each other function gives a fixed value of its input that the spec bounds and does not state (log 6). -/

namespace Sys2Proof.Machine

/-! ## Correctly rounded quotients and roots -/

/-- A magnitude with a sticky bit below it. -/
def withSticky (neg : Bool) (n : Nat) (rest : Bool) (e : Int) : FVal := .fin neg (2 * n + bnat rest) (e - 1)
def fdiv (a b : FVal) : FVal × Nat :=
  match a, b with
  | .nan _, _ => (.nan false, 0)
  | _, .nan _ => (.nan false, 0)
  | .inf _, .inf _ => (.nan false, flagI)
  | .inf n, .fin k _ _ => (.inf (n != k), 0)
  | .fin n _ _, .inf k => (.fin (n != k) 0 0, 0)
  | .fin n m e, .fin k p d =>
    if p = 0 then if m = 0 then (.nan false, flagI) else (.inf (n != k), 0)
    else
      let sh := 64 + bitLen p
      let x := m * 2 ^ sh
      (withSticky (n != k) (x / p) (x % p != 0) (e - d - sh), 0)
/-- Integer square root of numbers below 4^k. -/
def isqrtFrom : Nat → Nat → Nat → Nat
  | 0, r, _ => r
  | k + 1, r, n => if (r + 2 ^ k) * (r + 2 ^ k) ≤ n then isqrtFrom k (r + 2 ^ k) n else isqrtFrom k r n
def isqrt (n : Nat) : Nat := isqrtFrom (bitLen n / 2 + 1) 0 n
def fsqrt (a : FVal) : FVal × Nat :=
  match a with
  | .nan _ => (.nan false, 0)
  | .inf n => if n then (.nan false, flagI) else (.inf false, 0)
  | .fin n m e =>
    if m = 0 then (.fin n 0 0, 0)
    else if n then (.nan false, flagI)
    else
      let odd := e % 2 != 0
      let x := m * 2 ^ (128 + bnat odd)
      let r := isqrt x
      (withSticky false r (r * r != x) ((e - bnat odd - 128) / 2), 0)

/-! ## Fixed point at 2^-160 -/

def fxOne : Nat := 2 ^ 160
def fxLn2 : Nat := 1013035739299659071135698605846798551586536899366
def fxPi : Nat := 4591442807048218921384805199743311128454155024418
def fxLog2e : Nat := 2108501164428393954197770173035669514763056903505
/-- Sum of t^n / n! from term `n` on. -/
def expSeries (t : Nat) : Nat → Nat → Nat → Nat
  | 0, _, _ => 0
  | k + 1, n, term => term + expSeries t k (n + 1) (term * t / fxOne / (n + 1))
/-- 2^f for a fraction f of 2^160. -/
def fxExp2 (f : Nat) : Nat := expSeries (f * fxLn2 / fxOne) 45 0 fxOne
/-- Alternating series of sine. -/
def sinSeries (x2 : Nat) : Nat → Nat → Nat → Int
  | 0, _, _ => 0
  | k + 1, n, term => (term : Int) - sinSeries x2 k (n + 2) (term * x2 / fxOne / ((n + 1) * (n + 2)))
/-- sin(pi r) for r in [0, 2) at 2^-160. -/
def fxSinPi (r : Nat) : Int :=
  let neg := fxOne ≤ r
  let r := if neg then r - fxOne else r
  let r := if fxOne / 2 < r then fxOne - r else r
  let x := r * fxPi / fxOne
  let s := sinSeries (x * x / fxOne) 30 1 x
  if neg then -s else s
/-- Fraction bits of the base-2 logarithm of x in [1, 2): `k` bits. -/
def fxLog2 : Nat → Nat → Nat
  | 0, _ => 0
  | k + 1, x =>
    let y := x * x / fxOne
    if 2 * fxOne ≤ y then 2 ^ k + fxLog2 k (y / 2) else fxLog2 k y

/-- The magnitude of a finite value at 2^-160, modulo 2 (for sine and cosine). -/
def fxMod2 (m : Nat) (e : Int) : Nat := (m * 2 ^ (160 + e).toNat) % (2 * fxOne)
def ofInt (z : Int) (e : Int) : FVal := .fin (z < 0) z.natAbs e

/-! ## 2^a (11 R225, 20 R348) -/

/-- 2^a correctly rounded to f32 under RNE. -/
def fexp2 (a : FVal) : Nat × Nat :=
  match a with
  | .nan s => (fF32.qnan, if s then flagI else 0)
  | .inf n => (if n then 0 else fF32.infBits, 0)
  | .fin n m e =>
    if m = 0 then fround fF32 .rne false false (.fin false 1 0)
    else if fle (.fin false 128 0) a then (fF32.infBits, flagO ||| flagX)
    else if fle a (.fin true 1000 0) then (0, flagX)
    else
      let z := scaled n m e (-160)
      let k := z / (fxOne : Int)
      let f := (z % (fxOne : Int)).toNat
      if f = 0 then fround fF32 .rne false false (.fin false 1 k)
      else fround fF32 .rne false false (.fin false (fxExp2 f) (k - 160))

/-! ## Functions inside a bound -/

def fabs (a : FVal) : FVal :=
  match a with
  | .fin _ m e => .fin false m e
  | .inf _ => .inf false
  | x => x
/-- Sum, difference and product of finite values, exact. -/
def xadd (a b : FVal) : FVal := (fadd .rne a b).1
def xsub (a b : FVal) : FVal := (fadd .rne a b.neg).1
def xmul (a b : FVal) : FVal := (fmul a b).1
def fOne : FVal := .fin false 1 0
/-- Distance from the exact value at most `bound`: from the reference, which is within 2^-90 of it, at most `bound` less 2^-90. -/
def within (a ref bound : FVal) : Bool := fle (fabs (xsub a ref)) (xsub bound (.fin false 1 (-90)))
/-- `c` lies within `u` of 1/`a`. -/
def rcpWithin (a c u : FVal) : Bool := fle (fabs (xsub (xmul c a) fOne)) (xmul u (fabs a))
/-- A positive `c` lies within `u` of 1/sqrt(`a`). -/
def rsqrtWithin (a c u : FVal) : Bool :=
  let lo := xsub c u
  let hi := xadd c u
  fle (.fin false 0 0) c && (fle lo (.fin false 0 0) || fle (xmul (xmul lo lo) a) fOne) && fle fOne (xmul (xmul hi hi) a)
/-- One ulp of f32 at a value, subnormals kept. -/
def ulp32 (v : FVal) : FVal :=
  let t := topExp v - 23
  .fin false 1 (if t < -149 then -149 else t)
def twice (v : FVal) : FVal :=
  match v with
  | .fin n m e => .fin n m (e + 1)
  | x => x
/-- The function's value: the free one where it is finite and `ok` says that it lies in the bound, else the reference rounded; inexact is
raised. -/
def approxIf (n : Nat) (x : Nat) (ref : FVal) (ok : FVal → Bool) : Nat × Nat :=
  let c := (Config.approx n (w32 x)).toNat
  let (r, _) := fround fF32 .rne false false ref
  (match fdec fF32 c with
   | .fin k m e => if ok (.fin k m e) then c else r
   | _ => r, flagX)
def approxIn (n : Nat) (x : Nat) (ref bound : FVal) : Nat × Nat := approxIf n x ref fun c => within c ref bound

/-- Where a magnitude is a power of two: its exponent. -/
def pow2Exp (m : Nat) (e : Int) : Option Int := if m = 2 ^ (bitLen m - 1) then some (e + bitLen m - 1) else none

/-- 1/a; a quotient beyond f32's largest finite value overflows (09 R172, R173). -/
def fnRcp (x : Nat) : Nat × Nat :=
  let v := fdec fF32 x
  match v with
  | .nan s => (fF32.qnan, if s then flagI else 0)
  | .inf n => (fF32.signBit n, 0)
  | .fin n m e =>
    if m = 0 then (fF32.signBit n + fF32.infBits, 0)
    else
      let q := (fdiv (.fin false 1 0) v).1
      match pow2Exp m e with
      | some k =>
        if -126 ≤ -k then fround fF32 .rne false false (.fin n 1 (-k)) else approxIf 0 x q fun c => rcpWithin v c (ulp32 q)
      | none =>
        if 128 ≤ topExp q then fround fF32 .rne false false q else approxIf 0 x q fun c => rcpWithin v c (ulp32 q)
def fnRsqrt (x : Nat) : Nat × Nat :=
  let v := fdec fF32 x
  match v with
  | .nan s => (fF32.qnan, if s then flagI else 0)
  | .inf n => if n then (fF32.qnan, flagI) else (0, 0)
  | .fin n m e =>
    if m = 0 then (fF32.signBit n + fF32.infBits, 0)
    else if n then (fF32.qnan, flagI)
    else
      let q := (fdiv (.fin false 1 0) (fsqrt v).1).1
      match pow2Exp m e with
      | some k => if k % 2 = 0 then fround fF32 .rne false false (.fin false 1 (-(k / 2))) else approxIf 1 x q fun c => rsqrtWithin v c (ulp32 q)
      | none => approxIf 1 x q fun c => rsqrtWithin v c (ulp32 q)
def fnSqrt (rm : Rm) (x : Nat) : Nat × Nat :=
  let v := fdec fF32 x
  let (q, i) := fsqrt v
  let (b, f) := fround fF32 rm false false q
  (b, f ||| i ||| nanFlags [v])
def fnDiv (rm : Rm) (x y : Nat) : Nat × Nat :=
  let a := fdec fF32 x
  let b := fdec fF32 y
  let (q, i) := fdiv a b
  let (r, f) := fround fF32 rm false false q
  (r, f ||| i ||| nanFlags [a, b])
def fnExp2 (x : Nat) : Nat × Nat := fexp2 (fdec fF32 x)
def fnLog2 (x : Nat) : Nat × Nat :=
  let v := fdec fF32 x
  match v with
  | .nan s => (fF32.qnan, if s then flagI else 0)
  | .inf n => if n then (fF32.qnan, flagI) else (fF32.infBits, 0)
  | .fin n m e =>
    if m = 0 then (fF32.signBit true + fF32.infBits, 0)
    else if n then (fF32.qnan, flagI)
    else
      match pow2Exp m e with
      | some k => intToF fF32 .rne k
      | none =>
        let t := topExp v
        let fr := fxLog2 100 (m * 2 ^ (161 - bitLen m))
        let ref := ofInt (t * (2 ^ 100 : Nat) + fr) (-100)
        approxIn 5 x ref (if -1 ≤ t && t < 1 then .fin false 1 (-22) else twice (ulp32 ref))
def fnSinPi (x : Nat) : Nat × Nat :=
  let v := fdec fF32 x
  match v with
  | .nan s => (fF32.qnan, if s then flagI else 0)
  | .inf _ => (fF32.qnan, flagI)
  | .fin n m e =>
    let r := fxMod2 m e
    if r % fxOne = 0 then (fF32.signBit n, 0)
    else
      let z := fxSinPi r
      approxIn 6 x (ofInt (if n then -z else z) (-160)) (.fin false 1 (-22))
def fnCosPi (x : Nat) : Nat × Nat :=
  let v := fdec fF32 x
  match v with
  | .nan s => (fF32.qnan, if s then flagI else 0)
  | .inf _ => (fF32.qnan, flagI)
  | .fin _ m e =>
    let r := fxMod2 m e
    if r = 0 then intToF fF32 .rne 1
    else if r = fxOne then intToF fF32 .rne (-1)
    else if r % fxOne = fxOne / 2 then (0, 0)
    else approxIn 7 x (ofInt (fxSinPi ((r + fxOne / 2) % (2 * fxOne))) (-160)) (.fin false 1 (-22))
def fnTanh (x : Nat) : Nat × Nat :=
  let v := fdec fF32 x
  match v with
  | .nan s => (fF32.qnan, if s then flagI else 0)
  | .inf n => intToF fF32 .rne (if n then -1 else 1)
  | .fin n m e =>
    if m = 0 then (fF32.signBit n, 0)
    else if fle (.fin false 9 0) (.fin false m e) then intToF fF32 .rne (if n then -1 else 1)
    else
      let y := m * 2 ^ (160 + e).toNat * 2 * fxLog2e / fxOne
      let ex := fxExp2 (y % fxOne) * 2 ^ (y / fxOne)
      let t := (ex - fxOne) * fxOne / (ex + fxOne)
      approxIn 8 x (.fin n t (-160)) (.fin false 1 (-22))

end Sys2Proof.Machine
end

