-- ==== Sys2Proof/Machine/Vector.lean ====
section
/-! DEFINITION. The vector instructions (11 R213 to R231): sticky flags, floating and integer arithmetic, compares, conversions, moves,
reductions, special functions, the code table, the gang-wide forms. -/

namespace Sys2Proof.Machine

/-! ## Writes (R213, 06 R109) -/

/-- A register that the second instruction of a pair writes is not written again by the first one's reply: the vector value stands. -/
def Result.dropV (n : VReg) (r : Result) : Result := { r with v := r.v.filter fun e => e.1 != n }
def Result.dropS (n : SReg) (r : Result) : Result := { r with s := r.s.filter fun e => e.1 != n }
def Stage.dropV (n : VReg) (g : Stage) : Stage :=
  match g with
  | .data r => .data (r.dropV n)
  | .steps l far r st => .steps l far (r.dropV n) st
  | g => g
/-- `d` unless it is the register that is not written again. -/
def unlessS (n d : SReg) : SReg := if d = n then 0 else d
def CohOp.dropS (n : SReg) (o : CohOp) : CohOp :=
  match o.kind with
  | .ldv t c => { o with d := unlessS n o.d, kind := .ldv t (unlessS n c) }
  | _ => { o with d := unlessS n o.d }
def Stage.dropS (n : SReg) (g : Stage) : Stage :=
  match g with
  | .data r => .data (r.dropS n)
  | .steps l far r st => .steps l far (r.dropS n) st
  | .coh o rel => .coh (o.dropS n) rel
  | .barRel rel y sc ctl d => .barRel rel y sc ctl (unlessS n d)
  | .barWait b g sc d => .barWait b g sc (unlessS n d)
  | .phRel rel d => .phRel rel (unlessS n d)
  | .phWait p d => .phWait p (unlessS n d)
  | .ibRel rel sc dest v d => .ibRel rel sc dest v (unlessS n d)
  | .dlRel rel a d => .dlRel rel a (unlessS n d)
  | .dlFull w d => .dlFull w (unlessS n d)
  | .dlWait d => .dlWait (unlessS n d)
  | .waitv since va pa ms v sc lim d => .waitv since va pa ms v sc lim (unlessS n d)
  | .rbind sn va m sc o c d => .rbind sn va m sc o c (unlessS n d)
  | g => g
def State.dropPend (s : State) (f : Stage → Stage) : State :=
  s.updTh fun t => { t with pend := t.pend.map fun p => { p with stage := f p.stage } }
/-- A vector destination of which the bytes in the lanes of `m` alone are written. -/
def State.wvOnly (s : State) (d : VReg) (m : W32) (v : VWord) : State := (s.wvPart d m v).dropPend (Stage.dropV d)
/-- Vector destination of an instruction whose active lanes are `g`: with none it writes nothing. -/
def State.wvG (s : State) (g : W32) (d : VReg) (v : VWord) : State :=
  if g = 0 then s else (s.wv d v).dropPend (Stage.dropV d)
def State.wsV (s : State) (d : SReg) (v : W64) : State := (s.ws d v).dropPend (Stage.dropS d)

/-- Flags that trap under MODE.ARITH: invalid, overflow, saturation (R214). -/
def State.vflags (s : State) (f : Nat) (k : State → Res Unit) : Res Unit :=
  if s.mode.arith && (bit f 0 || bit f 1 || bit f 3) then fail s 0x40 (w64 (arithInfo f)) else (k s).andThen fun _ s => done (s.orSticky (stickyOf f))
/-- Lanes or elements written with their flags. -/
def State.putV (s : State) (g : W32) (d : VReg) (r : VWord × Nat) : Res Unit := s.vflags r.2 fun s => done (s.wvG g d r.1)

/-! ## Sticky flags (R215) -/

def execVflgrd (x : DOnly) (s : State) : Out' := finish (done (s.wsV x.d (w64 s.opTh.sticky.toNat)))
/-- The flags of a pair's first instruction are added after the bundle. -/
def execVflgclr (x : DOnly) (s : State) : Out' :=
  finish (done ((s.wsV x.d (w64 s.opTh.sticky.toNat)).updTh fun t => { t with sticky := s.cur.flags1 }))

/-! ## Floating arithmetic (R217) -/

/-- MODE.FP8NS acts on e4m3 results only. -/
def vfloat (o : FOp) (h : Hdr) (ft : FTy) (rm : Rm) (sat : Bool) (d : VReg) (a : VReg) (b : Res VB) (c : VReg) : Res Unit :=
  b.andThen fun b s =>
  let f := fmtOf ft
  let w := f.width
  s.putV (s.guard h) d (vecElems (s.guard h) (s.rv d) w fun e =>
    felem o f rm sat s.mode.fp8ns (elem w (s.rv a) e) (b.at w e) (elem w (s.rv c) e))
def State.vflt (s : State) (o : FOp) (x : VFlt) : Out' := finish (vfloat o x.h x.ft x.rm x.sat x.d x.a (s.vsrc x.b) x.a)
def State.vfmaOp (s : State) (o : FOp) (x : VFma) : Out' := finish (vfloat o x.h x.ft x.rm x.sat x.d x.a (s.vsrc x.b) x.c)
def State.vfmm (s : State) (o : FOp) (x : VFMM) : Out' := finish (vfloat o x.h x.ft .rne false x.d x.a (s.vsrc x.b) x.a)
def State.vfu (s : State) (o : FOp) (x : VFU) : Out' := finish (vfloat o x.h x.ft .rne false x.d x.a (.ok (.splat 0) s) x.a)
def execVadd (x : VFlt) (s : State) : Out' := s.vflt .add x
def execVsub (x : VFlt) (s : State) : Out' := s.vflt .sub x
def execVmul (x : VFlt) (s : State) : Out' := s.vflt .mul x
def execVfma (x : VFma) (s : State) : Out' := s.vfmaOp .fma x
def execVfnma (x : VFma) (s : State) : Out' := s.vfmaOp .fnma x
def execVmin (x : VFMM) (s : State) : Out' := s.vfmm .min x
def execVmax (x : VFMM) (s : State) : Out' := s.vfmm .max x
def execVabs (x : VFU) (s : State) : Out' := s.vfu .abs x
def execVneg (x : VFU) (s : State) : Out' := s.vfu .neg x

/-! ## Integer arithmetic (R218) -/

/-- One element: its pattern, and S where it saturated. -/
def ielem (o : IOp) (t : IntTy) (sat : Bool) (a b : Nat) : Nat × Nat :=
  let r := satTo t sat (iop o t a b b)
  (ofZ (tyW t) r.1, if r.2 then flagS else 0)
def vint (o : IOp) (h : Hdr) (t : IntTy) (sat : Bool) (d : VReg) (a : VReg) (b : Res VB) : Res Unit :=
  b.andThen fun b s =>
  let w := tyW t
  s.putV (s.guard h) d (vecElems (s.guard h) (s.rv d) w fun e => ielem o t sat (elem w (s.rv a) e) (b.at w e))
def State.vintA (s : State) (o : IOp) (x : VInt) : Out' := finish (vint o x.h x.ty x.sat x.d x.a (s.vsrc x.b))
def State.vintSh (s : State) (o : IOp) (x : VIntSh) : Out' := finish (vint o x.h x.ty x.sat x.d x.a (.ok (s.vsi x.b) s))
def execVaddInt (x : VInt) (s : State) : Out' := s.vintA .add x
def execVsubInt (x : VInt) (s : State) : Out' := s.vintA .sub x
def execVmulInt (x : VInt) (s : State) : Out' := s.vintA .mul x
def execVmulh (x : VInt) (s : State) : Out' := s.vintA .mulh x
def execVand (x : VInt) (s : State) : Out' := s.vintA .and x
def execVor (x : VInt) (s : State) : Out' := s.vintA .or x
def execVxor (x : VInt) (s : State) : Out' := s.vintA .xor x
def execVandn (x : VInt) (s : State) : Out' := s.vintA .andn x
def execVshl (x : VIntSh) (s : State) : Out' := s.vintSh .shl x
def execVshr (x : VIntSh) (s : State) : Out' := s.vintSh .shr x
def execVrotl (x : VIntSh) (s : State) : Out' := s.vintSh .rotl x
def execVminInt (x : VInt) (s : State) : Out' := s.vintA .min x
def execVmaxInt (x : VInt) (s : State) : Out' := s.vintA .max x

/-! ## Compares (R219) -/

inductive Rel where
  | eq | ne | lt | le | gt | ge | un
  deriving DecidableEq, Repr
def Rel.onF (r : Rel) (a b : FVal) : Bool :=
  let nan := a.isNan || b.isNan
  match r with
  | .eq => feq a b
  | .ne => nan || !feq a b
  | .lt => flt a b
  | .le => flt a b || feq a b
  | .gt => flt b a
  | .ge => flt b a || feq a b
  | .un => nan
def Rel.onZ (r : Rel) (a b : Int) : Bool :=
  match r with
  | .eq => decide (a = b) | .ne => decide (a ≠ b) | .lt => decide (a < b) | .le => decide (a ≤ b) | .gt => decide (b < a)
  | .ge => decide (b ≤ a) | .un => false
/-- The relation between two lanes, and the flags. -/
def laneRel (r : Rel) (t : LaneTy) (a b : Nat) : Bool × Nat :=
  match t with
  | .f32 => (r.onF (fdec fF32 a) (fdec fF32 b), nanFlags [fdec fF32 a, fdec fF32 b])
  | .i32 => (r.onZ (tyVal .i32 a) (tyVal .i32 b), 0)
  | .n32 => (r.onZ (tyVal .n32 a) (tyVal .n32 b), 0)
def State.vcompare (s : State) (r : Rel) (x : VCmp) : Out' :=
  finish <| (s.vsrc x.b).andThen fun b s =>
    let g := s.guard x.h
    let c (j : Nat) := laneRel r x.ty (lane (s.rv x.a) j).toNat (b.at 32 j)
    let f := (bitList g.toNat 32).foldl (fun f j => f ||| (c j).2) 0
    s.vflags f fun s =>
      if g = 0 then done s else done (s.wp x.d (mkMask fun j => if bit g.toNat j then (c j).1 else bit (s.rp x.d).toNat j))
def execVcmpeq (x : VCmp) (s : State) : Out' := s.vcompare .eq x
def execVcmpne (x : VCmp) (s : State) : Out' := s.vcompare .ne x
def execVcmplt (x : VCmp) (s : State) : Out' := s.vcompare .lt x
def execVcmple (x : VCmp) (s : State) : Out' := s.vcompare .le x
def execVcmpgt (x : VCmp) (s : State) : Out' := s.vcompare .gt x
def execVcmpge (x : VCmp) (s : State) : Out' := s.vcompare .ge x
def execVcmpun (x : VCmp) (s : State) : Out' := s.vcompare .un x

/-! ## Conversions (R220, R221) -/

def cvtFmt (t : CvtTy) : Option FFmt :=
  match t with
  | .f32 => some fF32 | .f16 => some fF16 | .bf16 => some fBf16 | .e4m3 => some fE4m3 | .e5m2 => some fE5m2 | _ => none
def cvtInt (t : CvtTy) : IntTy :=
  match t with
  | .i32 => .i32 | _ => .n32
def cvtWidth (t : CvtTy) : Nat :=
  match cvtFmt t with
  | some f => f.width
  | none => 32
def convert (src dst : CvtTy) (rm : Rm) (sat ns : Bool) (x : Nat) : Nat × Nat :=
  match cvtFmt src, cvtFmt dst with
  | some a, some b => fToF a b rm sat ns x
  | some a, none => fToInt rm (cvtInt dst) (fdec a x)
  | none, some b => intToF b rm (tyVal (cvtInt src) x)
  | none, none => (x, 0)
/-- A register whose elements of width `w` are `f` of their numbers. -/
def mkElems (w : Nat) (f : Nat → Nat) : VWord := BitVec.ofNat 1024 (packElems w ((List.range (1024 / w)).map f))
def execVcvt (x : VCvt) (s : State) : Out' :=
  finish <|
    let g := s.guard x.h
    let cv := convert x.src x.dst x.rm x.sat s.mode.fp8ns
    let q := x.part.val
    let a := s.rv x.a
    let old := s.rv x.d
    let act := bitList g.toNat 32
    if x.dst = .f32 then
      let w := cvtWidth x.src
      let r (j : Nat) := cv (elem w a (32 * q + j))
      s.putV g x.d (guardLanes g old fun j => w32 (r j).1, act.foldl (fun f j => f ||| (r j).2) 0)
    else
      let w := cvtWidth x.dst
      let r (j : Nat) := cv (lane a j).toNat
      s.putV g x.d (mkElems w fun e => if 32 * q ≤ e && e < 32 * q + 32 && bit g.toNat (e - 32 * q) then (r (e - 32 * q)).1 else elem w old e,
        act.foldl (fun f j => f ||| (r j).2) 0)

/-! ## Moves and permutes (R222) -/

def State.moveV (s : State) (h : Hdr) (d : VReg) (f : Nat → W32) : Res Unit :=
  done (s.wvG (s.guard h) d (guardLanes (s.guard h) (s.rv d) f))
def execVmov (x : VV) (s : State) : Out' := finish (s.moveV x.h x.d (lane (s.rv x.a)))
def execVperm (x : VVV) (s : State) : Out' :=
  finish (s.moveV x.h x.d fun j => lane (s.rv x.a) ((lane (s.rv x.b) j).toNat % 32))
def execVsel (x : VSel) (s : State) : Out' :=
  finish <| (s.vsrc x.b).andThen fun b s =>
    s.moveV x.h x.d fun j => if bit (s.rp x.c).toNat j then lane (s.rv x.a) j else w32 (b.at 32 j)
def execVbcast (x : VBc) (s : State) : Out' :=
  finish <| (s.src false x.a).andThen fun a s => s.moveV x.h x.d fun _ => w32 a.toNat
def execVslide (x : VSl) (s : State) : Out' :=
  finish <|
    let n := (s.siZ x.c).toNat
    if 32 ≤ n then badPos s 3
    else s.moveV x.h x.d fun j => if j + n < 32 then lane (s.rv x.a) (j + n) else lane (s.rv x.b) (j + n - 32)
def execVgetl (x : VGet) (s : State) : Out' :=
  finish <|
    let n := (s.siZ x.b).toNat
    if 32 ≤ n then badPos s 2 else done (s.wsV x.d (zext32 (lane (s.rv x.a) n)))
def execVsetl (x : VSet) (s : State) : Out' :=
  finish <| (s.src false x.a).andThen fun a s =>
    let n := (s.siZ x.b).toNat
    if 32 ≤ n then badPos s 2
    else done (s.wvOnly x.d (w32 (2 ^ n)) (mkLanes fun j => if j = n then w32 a.toNat else lane (s.rv x.d) j))

/-! ## Lane reductions (R223, 09 R183) -/

inductive RedOp where
  | sum | max | min
  deriving DecidableEq, Repr
/-- The identity an inactive lane contributes. -/
def redIdent (o : RedOp) (t : Red) : Nat :=
  match t, o with
  | .f32 _, .sum => 0x80000000
  | .f32 _, .max => 0xFF800000
  | .f32 _, .min => 0x7F800000
  | _, .sum => 0
  | .i32 _, .max => 0x80000000
  | .i32 _, .min => 0x7FFFFFFF
  | .n32 _, .max => 0
  | .n32 _, .min => 0xFFFFFFFF
/-- One combination: pattern and flags. -/
def redComb (o : RedOp) (t : Red) (x y : Nat × Nat) : Nat × Nat :=
  let int (ty : IntTy) (sat : Bool) : Nat × Nat :=
    match o with
    | .sum => ielem .add ty sat x.1 y.1
    | .max => ielem .max ty false x.1 y.1
    | .min => ielem .min ty false x.1 y.1
  let r := match t with
    | .f32 rm => felem (match o with | .sum => .add | .max => .max | .min => .min) fF32 rm false false x.1 y.1 0
    | .i32 sat => int .i32 sat
    | .n32 sat => int .n32 sat
  (r.1, x.2 ||| y.2 ||| r.2)
/-- The tree over a list of at most 32 values. -/
def redTree (o : RedOp) (t : Red) (l : List (Nat × Nat)) : Nat × Nat := (tree (redComb o t) 5 l).headD (redIdent o t, 0)
def redLanes (o : RedOp) (t : Red) (g : W32) (v : VWord) : Nat × Nat :=
  redTree o t ((List.range 32).map fun j => (if bit g.toNat j then (lane v j).toNat else redIdent o t, 0))
def redExt (t : Red) (n : Nat) : W64 :=
  match t with
  | .f32 _ | .n32 _ => w64 n
  | .i32 _ => tyPutN .i32 n
def State.vreduce (s : State) (o : RedOp) (x : VRed) : Out' :=
  finish <|
    let r := redLanes o x.ty (s.guard x.h) (s.rv x.a)
    s.vflags r.2 fun s => done (s.wsV x.d (redExt x.ty r.1))
def execVrsum (x : VRed) (s : State) : Out' := s.vreduce .sum x
def execVrmax (x : VRed) (s : State) : Out' := s.vreduce .max x
def execVrmin (x : VRed) (s : State) : Out' := s.vreduce .min x

/-! ## Special functions (R224 to R226) -/

def State.vspecial (s : State) (x : VV) (f : Nat → Nat × Nat) : Out' :=
  finish (s.putV (s.guard x.h) x.d (vecElems (s.guard x.h) (s.rv x.d) 32 fun e => f (elem 32 (s.rv x.a) e)))
def execVrcp (x : VV) (s : State) : Out' := s.vspecial x fnRcp
def execVrsqrt (x : VV) (s : State) : Out' := s.vspecial x fnRsqrt
def execVsqrt (x : VSqrt) (s : State) : Out' := s.vspecial ⟨x.h, x.d, x.a⟩ (fnSqrt x.rm)
def execVdiv (x : VDivA) (s : State) : Out' :=
  finish <| (s.vsrc x.b).andThen fun b s =>
    s.putV (s.guard x.h) x.d (vecElems (s.guard x.h) (s.rv x.d) 32 fun e => fnDiv x.rm (elem 32 (s.rv x.a) e) (b.at 32 e))
def execVexp2 (x : VV) (s : State) : Out' := s.vspecial x fnExp2
def execVlog2 (x : VV) (s : State) : Out' := s.vspecial x fnLog2
def execVsinpi (x : VV) (s : State) : Out' := s.vspecial x fnSinPi
def execVcospi (x : VV) (s : State) : Out' := s.vspecial x fnCosPi
def execVtanh (x : VV) (s : State) : Out' := s.vspecial x fnTanh

/-! ## The code table (R227, R228) -/

def execCtload (x : MOnly) (s : State) : Out' :=
  finish <|
    let a := s.addr x.m
    (s.accessAligned s.agent a 16 16 .load false).andThen fun p s =>
    (s.load p a 16 true x.h.hint.val).andThen fun (bs, far) s =>
    done (s.reply far { Result.none with ctab := some (w64 (field bs 0 8), w64 (field bs 8 8)) })
def execVctdec (x : VCtd) (s : State) : Out' :=
  finish <|
    let a := s.rv x.a
    let c (j : Nat) := ctEntry s.ctab.1 s.ctab.2 (elem 4 a (32 * x.part.val + j))
    s.moveV x.h x.d fun j => if x.f32 then w32 (intToF fF32 .rne (c j)).1 else w32 (ofZ 32 (c j))
def execVctenc (x : VCte) (s : State) : Out' :=
  finish <|
    let q := x.part.val
    let r (j : Nat) : Nat × Nat :=
      let v := fdec fF32 (lane (s.rv x.a) j).toNat
      let e := ctEnc s.ctab.1 s.ctab.2 v
      (e.1, e.2 ||| nanFlags [v])
    let v := mkElems 4 fun e => if 32 * q ≤ e && e < 32 * q + 32 then (r (e - 32 * q)).1 else elem 4 (s.rv x.d) e
    s.vflags ((List.range 32).foldl (fun f j => f ||| (r j).2) 0) fun s => done (s.wvOnly x.d (w32 (15 * 2 ^ (4 * q))) v)

/-! ## Gang-wide forms (R229 to R231) -/

/-- Operands a member captured: A, B, the scalar B, the guard. -/
abbrev Cap := VWord × VWord × W64 × W32
def Cap.a (c : Cap) : VWord := c.1
def Cap.b (c : Cap) : VWord := c.2.1
def Cap.n (c : Cap) : W64 := c.2.2.1
def Cap.g (c : Cap) : W32 := c.2.2.2
def capOf (t : Thread) : Option Cap := t.gang.bind fun g => g.cap
/-- A member captures its operands; the last to capture writes every member's result (R230). `write` takes the members that it writes, with
their captures, and the captures of all. A member that issues the form again after a pre-emption has its own result anew (22 R372). -/
def State.gangWide (s : State) (c : Cap) (write : List (ThreadId × Cap) → List Cap → State → State) : Res Unit :=
  match s.th.gang with
  | none => done (write [(s.me, c)] [c] s)
  | some g =>
    if g.redo && g.prev.length == g.size then done (write [(s.me, c)] g.prev s)
    else
      let s := s.updTh fun t => { t with gang := some { g with cap := some c } }
      let ms := (gangCores s.cur.core g.idx g.size).map fun k => (⟨k, s.cur.slot⟩ : ThreadId)
      let cs := ms.filterMap fun m => (capOf (s.thr m)).map fun c => (m, c)
      if cs.length = g.size then
        let all := cs.map (·.2)
        let s := ms.foldl (fun (s : State) m => s.updThr m fun t => { t with gang := t.gang.map fun g => { g with cap := none, prev := all } }) s
        done (write cs all s)
      else done s
/-- Lane `g` of the members' captured A as one vector. -/
def gangLane (cs : List Cap) (g : Nat) : W32 := lane (((cs[g / 32]?).map fun m => m.a).getD 0) (g % 32)
def State.gangReduce (s : State) (o : RedOp) (x : VRed) : Out' :=
  finish <| s.gangWide (s.rv x.a, 0, 0, s.guard x.h) fun cs all s =>
    let r := redTree o x.ty (all.map fun m => redLanes o x.ty m.g m.a)
    cs.foldl (fun (s : State) m => s.updThr m.1 fun t =>
      { t with regs := wrS t.regs x.d (redExt x.ty r.1), sticky := t.sticky ||| stickyOf r.2, pend := t.pend.map fun p => { p with stage := p.stage.dropS x.d } }) s
def execVgsum (x : VRed) (s : State) : Out' := s.gangReduce .sum x
def execVgmax (x : VRed) (s : State) : Out' := s.gangReduce .max x
def execVgmin (x : VRed) (s : State) : Out' := s.gangReduce .min x
/-- Every member's destination lanes. -/
def State.gangPut (s : State) (d : VReg) (cs : List (ThreadId × Cap)) (f : Cap → Nat → W32) : State :=
  cs.foldl (fun (s : State) m => s.updThr m.1 fun t =>
    if m.2.g = 0 then t
    else { t with regs := wrV t.regs d (guardLanes m.2.g (rdV t.regs d) (f m.2)), pend := t.pend.map fun p => { p with stage := p.stage.dropV d } }) s
def execVgperm (x : VVV) (s : State) : Out' :=
  finish <| s.gangWide (s.rv x.a, s.rv x.b, 0, s.guard x.h) fun cs all s =>
    s.gangPut x.d cs fun c j => gangLane all ((lane c.b j).toNat % (32 * all.length))
def execVgbcast (x : VGb) (s : State) : Out' :=
  finish <|
    let b := s.siZ x.b
    let n := ((s.th.gang).map fun g => g.size).getD 1
    if n ≤ b.toNat then badPos s 2
    else s.gangWide (s.rv x.a, 0, b, s.guard x.h) fun cs all s =>
      s.gangPut x.d cs fun c j => gangLane all (32 * c.n.toNat + j)

end Sys2Proof.Machine
end

