-- ==== Sys2Proof/Machine/Ragged.lean ====
section
/-! DEFINITION. Ragged tensors (14 R260 to R271): binding and reading segment maps, loads, segmented reductions and normalisations.
`rmma` stands with the matrix engine. -/

namespace Sys2Proof.Machine

/-! ## Maps (R260, R262) -/

/-- The map of a record's rows `origin .. origin + n - 1`. -/
def mapOf (x : Snap) (origin n : Nat) : SegMap :=
  { valid := true, gen := w32 (field x.header 8 4), rpa := x.rpa, origin := origin,
    rows := (List.range n).map fun i =>
      let g := segOf x.bounds (origin + i)
      ⟨g, (x.bounds[g]?).getD 0, (x.bounds[g + 1]?).getD 0⟩ }
def SegMap.nrow (m : SegMap) : Nat := m.rows.length
def SegMap.isFirst (m : SegMap) (i : Nat) : Bool := ((m.rows[i]?).map fun r => m.origin + i == r.start).getD false
def SegMap.isLast (m : SegMap) (i : Nat) : Bool := ((m.rows[i]?).map fun r => m.origin + i + 1 == r.fin).getD false
/-- The snapshot is taken: the checks of R262 after it, then the map and D. An ORIGIN with bits [63:32] set is one past ROWS, looked at after the
count (DESIGN CHOICE, log 84). -/
def State.bindMap (s : State) (x : Snap) (sel : Bool) (origin count : W64) (d : SReg) : Res Result :=
  let rows := field x.header 4 4
  let c := count.toNat
  if !recordOk x.header x.bounds then fail s 0x31 0
  else if c = 0 || 128 < c then badPos s 3
  else if rows ≤ origin.toNat then badPos s 2
  else if rows < origin.toNat + c then badPos s 3
  else
    .ok { Result.none with map := some (sel, mapOf x origin.toNat c), s := [(d, w64 (field x.header 0 2 * 2 ^ 32 + field x.header 8 4))] } s
/-- Every trap of `rbind` reports A. -/
def trapAddrA {α : Type} (a : W64) (r : Res α) : Res α :=
  match r with
  | .trap s c _ i => .trap s c a i
  | r => r
def execRbind (x : RBind) (s : State) : Out' :=
  finish <|
    let a := s.rs x.a
    trapAddrA a <|
      if devBase ≤ a.toNat && a.toNat < 2 ^ 52 then fail s 0x11 0
      else if a.toNat % 64 != 0 then fail s 0x13 0
      else (s.snapTake a x.scope 1).andThen fun sn s => done (s.wait (.rbind sn a x.map x.scope (s.siZ x.b) (s.siZ x.c) x.d))
/-- A turn of a waiting `rbind` (R263): another attempt, a trap, or the map bound. -/
def State.pollRbind (s : State) (sn : Snap) (a : W64) (sel : Bool) (sc : Scope) (o c : W64) (d : SReg) : Poll :=
  match s.snapPoll sn a sc with
  | .wait s => .wait s
  | .again y s => .used (s.setStage s.me (.rbind y a sel sc o c d))
  | .trap s cause _ i => .used (s.trapPend s.me cause a i)
  | .holds y s =>
    match s.bindMap y sel o c d with
    | .ok r s => .used (s.endWait s.me r)
    | .pass s => .wait s
    | .trap s cause _ i => .used (s.trapPend s.me cause a i)

/-- The selected map, which must be valid (R261). -/
def State.segMap (s : State) (sel : Bool) (f : SegMap → State → Res Unit) : Res Unit :=
  let m := if sel then s.opTh.sm1 else s.opTh.sm0
  if m.valid then f m s else badPos s 4

/-! ## Reading the map (R266) -/

def execRrow (x : RRow) (s : State) : Out' :=
  guarded x.h s fun s => s.segMap x.map fun m s =>
    let i := (s.siZ x.a).toNat
    match m.rows[i]? with
    | none => done (s.ws x.d (BitVec.allOnes 64))
    | some r =>
      done (s.ws x.d (w64 ((if x.fin then r.fin else r.start) + 2 ^ 32 * r.seg + 2 ^ 62 * bnat (m.isFirst i) + 2 ^ 63 * bnat (m.isLast i))))
def execRvseg (x : RVseg) (s : State) : Out' :=
  finish <| s.segMap x.map fun m s =>
    let h := (s.siZ x.a).toNat
    s.moveV x.h x.d fun j =>
      match m.segAt (h + j) with
      | some g => w32 g
      | none => BitVec.allOnes 32
def execRpseg (x : RPseg) (s : State) : Out' :=
  finish <| s.segMap x.map fun m s =>
    let h := (s.siZ x.a).toNat
    let g := (s.guard x.h).toNat
    let same (j : Nat) : Bool := (m.segAt h).isSome && m.segAt (h + j) == m.segAt h
    if g = 0 then done s else done (s.wp x.d (mkMask fun j => if bit g j then same j else bit (s.rp x.d).toNat j))

/-! ## Loads (R267, R268) -/

/-- The boundary-crossing trap of lane `j`. -/
def crossing (s : State) (m : SegMap) (h j : Nat) (addr : W64) : Res Unit :=
  .trap s 0x30 addr (w64 (j + 2 ^ 16 * (m.segAt (h + j)).getD 0xFFF))
/-- A lane's address and place. -/
def State.laneAccess (s : State) (a b : W64) : List Nat → Res (List (Nat × W64 × Place))
  | [] => .ok [] s
  | j :: r =>
    let x := a + w64 j * b
    (s.accessAligned s.agent x 4 4 .load false).andThen fun p s =>
    (State.laneAccess s a b r).andThen fun l s => .ok ((j, x, p) :: l) s
/-- The lanes' words, and whether a load left the core. Each lane is an access with a request of its own, where `vld` makes one for each line
(DESIGN CHOICE, log 83). -/
def State.laneLoad (s : State) (hint : Nat) : List (Nat × W64 × Place) → Res (List (Nat × W32) × Bool)
  | [] => .ok ([], false) s
  | (j, x, p) :: r =>
    (s.load p x 4 false hint).andThen fun b s =>
    (State.laneLoad s hint r).andThen fun l s => .ok ((j, w32 (ofBytes b.1)) :: l.1, b.2 || l.2) s
/-- The lanes' words, all at one turn: where a lane has to wait, none has been read. -/
def State.lanesLoad (s : State) (hint : Nat) (l : List (Nat × W64 × Place)) : Res (List (Nat × W32) × Bool) :=
  match s.laneLoad hint l with
  | .pass t => .pass (s.updTh fun x => { x with ridgeWait := t.th.ridgeWait })
  | r => r
def execRvld (x : RVld) (s : State) : Out' :=
  finish <| s.segMap x.map fun m s =>
    let h := (s.siZ x.c).toNat
    if 127 < h || m.nrow ≤ h then badPos s 3
    else
      let act := bitList (s.guard x.h).toNat 32
      let within (j : Nat) : Bool := (m.segAt (h + j)).isSome && m.segAt (h + j) == m.segAt h
      match (if x.strict then act.find? fun j => !within j else none) with
      | some j => crossing s m h j (s.rs x.a + w64 j * s.rs x.b)
      | none =>
        let rd := act.filter within
        (s.laneAccess (s.rs x.a) (s.rs x.b) rd).andThen fun l s =>
        (s.lanesLoad x.h.hint.val l).andThen fun (ws, far) s =>
        if rd.isEmpty then done s
        else
          let old := s.rv x.d
          done (s.reply far { Result.none with v := [(x.d, mkLanes fun j => (assocGet ws j).getD (lane old j))] })

/-! ## Segmented reductions and normalisation (R269 to R271) -/

/-- Lanes of an instruction that act: those of the guard whose row lies in the map. -/
def actRows (m : SegMap) (g : W32) (h : Nat) : List Nat := (bitList g.toNat 32).filter fun j => decide (h + j < m.nrow)
/-- Segments of the acting lanes. -/
def segsOf (m : SegMap) (h : Nat) (act : List Nat) : List Nat := (act.filterMap fun j => m.segAt (h + j)).eraseDups
/-- The tree over the acting lanes of a segment. -/
def segTree (o : RedOp) (t : Red) (m : SegMap) (h : Nat) (act : List Nat) (v : VWord) (seg : Nat) : Nat × Nat :=
  redTree o t ((List.range 32).map fun j => (if act.contains j && m.segAt (h + j) == some seg then (lane v j).toNat else redIdent o t, 0))
def State.rreduce (s : State) (o : RedOp) (x : RVRed) : Out' :=
  finish <| s.segMap x.map fun m s =>
    let h := (s.siZ x.b).toNat
    if 127 < h then badPos s 2
    else
      let carry := (s.si x.c).toNat % 2 ^ 32
      let act := actRows m (s.guard x.h) h
      let v := s.rv x.a
      let rs := (segsOf m h act).map fun g =>
        let t := segTree o x.ty m h act v g
        (g, if m.segAt h = some g && !m.isFirst h then redComb o x.ty (carry, 0) t else t)
      let f := rs.foldl (fun f r => f ||| r.2.2) 0
      s.vflags f fun s =>
        if act.isEmpty then done s
        else
          done (s.wv x.d (mkLanes fun j =>
            if act.contains j then w32 (((m.segAt (h + j)).bind fun g => assocGet rs g).getD (0, 0)).1 else lane (s.rv x.d) j))
def execRvsum (x : RVRed) (s : State) : Out' := s.rreduce .sum x
def execRvmax (x : RVRed) (s : State) : Out' := s.rreduce .max x
def execRvmin (x : RVRed) (s : State) : Out' := s.rreduce .min x
/-- A segment begins and ends inside the vector. -/
def wholeSeg (m : SegMap) (h seg : Nat) : Bool :=
  let l := (List.range 32).filter fun j => m.segAt (h + j) == some seg
  l.any (fun j => m.isFirst (h + j)) && l.any fun j => m.isLast (h + j)
def execRvnorm (x : RVnorm) (s : State) : Out' :=
  finish <| s.segMap x.map fun m s =>
    let h := (s.siZ x.b).toNat
    if 127 < h then badPos s 2
    else
      let act := actRows m (s.guard x.h) h
      let whole (j : Nat) : Bool := ((m.segAt (h + j)).map (wholeSeg m h)).getD false
      match (if x.strict then act.find? fun j => !whole j else none) with
      | some j => crossing s m h j 0
      | none =>
        let v := s.rv x.a
        let sums := (segsOf m h (act.filter whole)).map fun g => (g, segTree .sum (.f32 x.rm) m h act v g)
        let q (j : Nat) : Nat × Nat := fnDiv x.rm (lane v j).toNat (((m.segAt (h + j)).bind fun g => assocGet sums g).getD (0, 0)).1
        let w := act.filter whole
        let f := w.foldl (fun f j => f ||| (q j).2) (sums.foldl (fun f r => f ||| r.2.2) 0)
        s.vflags f fun s =>
          if w.isEmpty then done s
          else done (s.wv x.d (mkLanes fun j => if w.contains j then w32 (q j).1 else lane (s.rv x.d) j))

end Sys2Proof.Machine
end

