-- ==== Sys2Proof/Machine/System.lean ====
section
/-! DEFINITION. System and trap instructions (22 R367, R368), W7 expansions (R370), words that are not instructions (04 R85), fetch
faults (04 R70), taking a record (R364), translation invalidation (R373), soft errors (R379). -/

namespace Sys2Proof.Machine

/-- An instruction of SUPERVISOR level: at USER it traps with cause 0x11 (R367). -/
def State.superOnly (s : State) (f : State → Res Unit) : Out' := finish (if s.super then f s else fail s 0x11 0)
/-- A spill record (R376). -/
def TrapRec.isSpill (r : TrapRec) : Bool := r.slot == 7
/-- The record of a worker in bank 0, or cause 0x02 at a position. -/
def State.workerRec (s : State) (pos : Nat) (f : TrapRec → State → Res Unit) : Res Unit :=
  match s.myCore.bank0 with
  | some r => if r.isSpill then badPos s pos else f r s
  | none => badPos s pos

/-! ## exit, rgn, tctx -/

/-- Bank 0 is resolved by ending its thread, which faults its task (`tkill`). -/
def State.killParked (s : State) (r : TrapRec) : State :=
  let s := s.endThread ⟨s.cur.core, r.slot⟩
  match s.myCore.task with
  | some t => s.faultTask t r.cause
  | none => s
def execExit (_x : HOnly) (s : State) : Out' :=
  finish <|
    if !s.super then done (s.updTh endThr)
    else
      let s := match s.myCore.bank0 with
        | some r => if r.isSpill then s else s.killParked r
        | none => s
      done (s.idle7 s.cur.core)
def execRgn (_x : HOnly) (s : State) : Out' :=
  finish (done (s.updTh fun t => { t with region := { t.region with inside := false } }))
def execTctx (x : DOnly) (s : State) : Out' :=
  s.superOnly fun s =>
    let k := s.myCore
    done (s.ws x.d (w64 (((k.bank0.map fun r => r.slot).getD 0) + 8 * bnat k.bank0.isSome + 16 * bnat k.bank1.isSome + 256 * k.queue.length)))

/-! ## xrd, xwr -/

/-- The state word of a circular-buffer handle (06 R119). -/
def Cb.word (c : Cb) : Nat := c.first + 16 * c.lenm1 + 2 ^ 8 * c.p + 2 ^ 12 * c.q + 2 ^ 16 * bnat c.valid
def Cb.ofWord (n : Nat) : Cb := ⟨bit n 16, bits n 12 4, bits n 8 4, bits n 4 4, bits n 0 4⟩
/-- The value a selector reads; `none` for any other selector. -/
def xsel (t : Thread) (r : TrapRec) (sel : Nat) : Option W64 :=
  let k := bits sel 0 8
  let n := bits sel 8 5
  let w (x : W96) (i : Nat) : W64 := w64 (bits x.toNat (32 * i) 32)
  if bits sel 13 19 != 0 then none
  else if 0x40 ≤ k && k < 0x60 then some (zext32 (lane (t.regs.v.getD (k - 0x40) 0) n))
  else if n != 0 then none
  else if k < 0x40 then some (if k = 0 then 0 else t.regs.s.getD k 0)
  else if k < 0x70 then some (w64 (t.regs.c.getD (k - 0x60) Cb.reset).word)
  else if k < 0x78 then some (if k = 0x70 then w64 0xFFFFFFFF else zext32 (t.regs.p.getD (k - 0x70) 0))
  else
    match k with
    | 0xF0 => some (w r.word 0) | 0xF1 => some (w r.word 1) | 0xF2 => some (w r.word 2)
    | 0xF3 => some (w64 t.sticky.toNat) | 0xF4 => some t.mode.word | 0xF5 => some (w64 t.ctr) | 0xF6 => some (zext32 t.esn)
    | 0xF7 => some t.region.pc
    | 0xF8 => some (w r.other 0) | 0xF9 => some (w r.other 1) | 0xFA => some (w r.other 2)
    | _ => none
/-- The register and word that a selector names. -/
def selReg (sel : Nat) : Option (RegFile × Nat × Nat) :=
  let k := bits sel 0 8
  if k < 0x40 then some (.s, k, 0)
  else if k < 0x60 then some (.v, k - 0x40, bits sel 8 5 / 2)
  else if k < 0x70 then some (.c, k - 0x60, 0)
  else if k < 0x78 then some (.p, k - 0x70, 0) else none
/-- The selected word of a register is poisoned (R379). -/
def selBad (r : Regs) (sel : Nat) : Bool := ((selReg sel).map r.bad.contains).getD false
def execXrd (x : DSI) (s : State) : Out' :=
  s.superOnly fun s => s.workerRec 1 fun r s =>
    let sel := (s.si x.a).toNat % 2 ^ 32
    let t := s.thr ⟨s.cur.core, r.slot⟩
    match xsel t r sel with
    | some v => if selBad t.regs sel then fail (s.errLog 8 0 0 0 0x80 s.cur.core) 0x80 1 else done (s.ws x.d v)
    | none => badPos s 1
/-- The lane of a vector register replaced. -/
def setLane (v : VWord) (n : Nat) (x : W32) : VWord := mkLanes fun j => if j = n then x else lane v j
/-- A write of selected state, of whole words but for a lane, which leaves the poison of its word: the thread after it, or a cause with its TRAPINFO. -/
def xput (s : State) (t : Thread) (sel : Nat) (v : W64) : Thread ⊕ (Byte × W64) :=
  let k := bits sel 0 8
  let n := bits sel 8 5
  let r := t.regs
  if bits sel 13 19 != 0 then .inr (0x02, 1)
  else if 0x40 ≤ k && k < 0x60 then .inl { t with regs := { r with v := r.v.put (k - 0x40) (setLane (r.v.getD (k - 0x40) 0) n (w32 v.toNat)) } }
  else if n != 0 then .inr (0x02, 1)
  else if k < 0x40 then .inl (if k = 0 then t else { t with regs := { r.clean .s k with s := r.s.put k v } })
  else if k < 0x70 then
    let c := Cb.ofWord v.toNat
    if 15 < c.first + c.lenm1 then .inr (0x02, 2) else .inl { t with regs := { r.clean .c (k - 0x60) with c := r.c.put (k - 0x60) c } }
  else if k < 0x78 then .inl (if k = 0x70 then t else { t with regs := { r.clean .p (k - 0x70) with p := r.p.put (k - 0x70) (w32 v.toNat) } })
  else if k = 0xF3 then .inl { t with sticky := v.extractLsb' 0 4 }
  else if k = 0xF4 then
    let d := v ^^^ t.mode.word
    if d.getLsbD 0 || bits d.toNat 5 59 != 0 || (bits d.toNat 3 2 != 0 && !s.expert) then .inr (0x11, 0)
    else .inl { t with mode := t.mode.ofWord v }
  else .inr (0x02, 1)
def execXwr (x : XwrA) (s : State) : Out' :=
  s.superOnly fun s => s.workerRec 1 fun r s =>
    let t : ThreadId := ⟨s.cur.core, r.slot⟩
    match xput s (s.thr t) ((s.si x.a).toNat % 2 ^ 32) (s.rs x.b) with
    | .inl y => done (s.setThr t y)
    | .inr (c, i) => fail s c i

/-! ## tresume, tkill, tret -/

/-- The image of a line for the issuing core: from its L0, else from memory where the line translates, with no request that a slice counts (DESIGN
CHOICE, log 83). -/
def State.lineImage (s : State) (line : Nat) : Option (BitVec 512) × State :=
  match l0Get s.myCore line with
  | some (i, _) => (some i, s)
  | none =>
    match s.fetchPage line with
    | (.inl pg, s) => (some (s.lineAt (pg.pa + (64 * line - pg.va))), s)
    | (.inr _, s) => (none, s)
/-- The PC after the bundle at a PC; a line without an image counts as holding single bundles. -/
def State.pcAfterBundle (s : State) (pc : W64) : W64 × State :=
  let (img, s) := s.lineImage (pcLine pc)
  let (a, n) := bundleAt ((img.map lineTmpl).getD 0) (pcSlot pc)
  (pcAfter (pcLine pc) a n, s)
def execTresume (x : TresA) (s : State) : Out' :=
  s.superOnly fun s => s.workerRec 0 fun r s =>
    let (target, s) := if x.next then s.pcAfterBundle r.pc else (r.pc, s)
    done ((s.unpark ⟨s.cur.core, r.slot⟩ target).idle7 s.cur.core)
def execTkill (_x : HOnly) (s : State) : Out' :=
  s.superOnly fun s => s.workerRec 0 fun r s => done ((s.killParked r).idle7 s.cur.core)
def execTret (_x : HOnly) (s : State) : Out' :=
  s.superOnly fun s =>
    match s.myCore.bank1 with
    | none => fail s 0x11 0
    | some r =>
      let s := s.updMyCore fun k => { k with bank1 := none }
      let s := s.updTh fun t => { t with arrive := .resume, line := none, pref := none, region := { t.region with inside := false } }
      done { s with cur := { s.cur with npc := r.pc, taken := true } }

/-! ## SUPERVISOR_TAKE_RECORD (R364) -/

/-- Slot 7 of a core is idle. -/
def State.idleSup (s : State) (c : Nat) : Bool := (s.core c).bank0.isNone
/-- Slot 7 takes the oldest record if it was appended in an earlier cycle: bank 0, vector 0. -/
def State.takeRecord (s : State) (c : Nat) : State :=
  match (s.core c).queue with
  | [] => s
  | r :: q =>
    if s.idleSup c && decide (r.cycle < s.cycle) then
      let s := s.updCore c fun k => { k with bank0 := some r, queue := q }
      let repro := (((s.taskOn c).bind s.launchOf).map fun l => l.repro).getD false
      s.updThr ⟨c, 7⟩ fun t =>
        { t with status := .running, pc := (s.part r.part).scb.vec, arrive := .vector, line := none, pref := none, pend := none, skip := 0,
                 mode := { t.mode with repro := repro }, region := { t.region with inside := false } }
    else s
def execSupervisorTakeRecord (c : CoreN) (s : State) : Out' := .next (s.takeRecord c.val)

/-! ## Invalidation (R373) -/

def execXlinv (x : XlA) (s : State) : Out' :=
  s.superOnly fun s =>
    let a := x.a.map fun r => (s.rs r).toNat
    done ((s.updPart s.myPart fun p => { p with xl := p.xl ++ [(some s.me, a)] }).wait .xlinv)
/-- A host write of XLADDR (R362). -/
def execHostXlinv (p : PartN) (v : W64) (s : State) : Out' :=
  let va := bits v.toNat 0 52
  .next (if (s.part p.val).resetting then s else s.updPart p.val fun x =>
    { x with scb := { x.scb with xladdr := w64 va, xlbusy := true }, xl := x.xl ++ [(none, if va = 2 ^ 52 - 1 then none else some va)] })
/-- A cached translation that an invalidation drops. -/
def TlbEntry.drops (t : TlbEntry) (p : Nat) (a : Option Nat) : Bool :=
  t.part == p && (match a with
    | none => true
    | some v => decide (t.base ≤ v) && decide (v < t.base + t.size))
/-- Virtual addresses at which an instruction that waits has still an access to perform with the translation it made. -/
def Stage.vas (g : Stage) : List Nat :=
  let rec' (x : Snap) : List Nat := (List.range (x.lines.length + 1)).map fun i => x.va + 128 * i
  match g with
  | .coh o _ => [o.va.toNat]
  | .waitv _ va _ _ _ _ _ _ => [va.toNat]
  | .rbind x .. => rec' x
  | .cjob _ _ _ (some r) => rec' r
  | .steps _ _ _ (some (_, a, _, _)) => [a.toNat]
  | _ => []
/-- Pages of sources, translated in a cluster, that sends have still to read. -/
def State.sendPages (s : State) (cl p : Nat) : List Nat :=
  (s.part p).tx.flatMap fun x =>
    if x.sent || x.final || x.home != cl then []
    else match x.place with
      | .mem pgs => pgs.map (·.va)
      | _ => []
/-- Virtual addresses of a cluster's accesses of a partition that are not performed yet: fetches, buffered writes, sources of sends and
instructions that wait. -/
def State.unperformed (s : State) (cl p : Nat) : List Nat :=
  let ent (es : List Entry) : List Nat := (es.filter fun e => e.part == p && e.dest.isNone).flatMap fun e => e.cells.map fun c => c.va
  let mine := s.cores.filter fun e => clusterOf e.1 == cl
  let fetches := (s.cluster cl).fmb.flatMap fun e => e.reqs.filterMap fun r => if s.partOf r.1 0 = p || s.partOf r.1 7 = p then some (64 * r.2) else none
  fetches ++ s.sendPages cl p ++ ent (s.cluster cl).bb ++ mine.flatMap fun e =>
    ent e.2.sb ++ e.2.threads.flatMap fun t => if s.partOf e.1 t.1 = p then ((s.stageOf ⟨e.1, t.1⟩).map Stage.vas).getD [] else []
/-- No access that used a translation to be dropped remains unperformed. -/
def State.xlClear (s : State) (p : Nat) (a : Option Nat) : Bool :=
  s.clusters.all fun e =>
    let dropped := e.2.tlb.filter fun t => t.drops p a
    !(s.unperformed e.1 p).any fun v => dropped.any fun t => decide (t.base ≤ v) && decide (v < t.base + t.size)
/-- Stretches of virtual addresses whose translations an invalidation of `a` drops; `none`: all. -/
def State.xlRange (s : State) (p : Nat) (a : Option Nat) : Option (List (Nat × Nat)) :=
  a.map fun v => (v / 2 ^ 18 * 2 ^ 18, 2 ^ 18) :: (s.clusters.flatMap fun e => e.2.tlb.filter fun t => t.drops p a).map fun t => (t.base, t.size)
def inRange (r : Option (List (Nat × Nat))) (line : Nat) : Bool :=
  (r.map fun l => l.any fun x => decide (x.1 ≤ 64 * line) && decide (64 * line < x.1 + x.2)).getD true
/-- Fetched lines in a range, and cached constants, that came by way of the dropped translations go with them. -/
def Core.dropCode (r : Option (List (Nat × Nat))) (k : Core) : Core :=
  let th (t : Thread) : Thread :=
    { t with line := t.line.filter fun l => !inRange r l.1, pref := t.pref.filter fun l => !inRange r l }
  { k with l0 := k.l0.filter fun l => !inRange r l.1, cc := [], threads := k.threads.map fun e => (e.1, th e.2) }
/-- One invalidation performed: every cluster drops, the waiting thread or the host learns of it. -/
def State.xlPerform (s : State) (p : Nat) (o : Option ThreadId × Option Nat) : State :=
  let r := s.xlRange p o.2
  let s : State := { s with cores := s.cores.map fun e => if s.partOf e.1 0 = p || s.partOf e.1 7 = p then (e.1, e.2.dropCode r) else e }
  let s : State := { s with clusters := s.clusters.map fun e => (e.1, { e.2 with tlb := e.2.tlb.filter fun t => !t.drops p o.2 }) }
  match o.1 with
  | some t => if s.stageOf t == some .xlinv then (s.endWait t .none).updThr t fun x => { x with wake := some s.cycle } else s
  | none => s
/-- XLINV_COMPLETE. -/
def execXlinvComplete (p : PartN) (s : State) : Out' :=
  let ops := (s.part p.val).xl
  if ops.all fun o => s.xlClear p.val o.2 then
    let s := ops.foldl (fun s o => s.xlPerform p.val o) s
    .next (s.updPart p.val fun x => { x with xl := [], scb := { x.scb with xlbusy := false } })
  else .next s

/-! ## Spill status (R375, R376) -/

def Spill.word (x : Spill) : W64 := w64 (x.state + 256 * x.cause.toNat + 2 ^ 16 * x.frame + 2 ^ 32 * x.offset)
def execSpstat (x : DOnly) (s : State) : Out' := s.superOnly fun s => done (s.ws x.d s.myCore.spill.word)
/-- The control block as a core reads it when a pre-emption begins (R362). -/
def Spill.latch (x : Spill) (b : Scb) : Spill := { x with savebase := b.savebase, nframe := b.nframe, framemb := b.framemb }
/-- Virtual address of a byte of a frame. -/
def Spill.frameAddr (x : Spill) (f off : Nat) : Nat := x.savebase.toNat + f * x.framemb * 2 ^ 20 + off
/-- Lowest frame that a partition has free. -/
def Spill.freeFrame (x : Spill) (p : Partition) : Option Nat := (List.range x.nframe).find? fun f => !p.frames.contains f
/-- The spill record of a stop, appended for the partition of the task being saved. -/
def State.spillRecord (s : State) (c : Nat) (sp : Spill) (addr : W64) : State :=
  let p := ((sp.task).map fun t => t.part).getD 0
  s.appendRec c { cause := sp.cause, pc := 0, addr := addr, info := w64 (sp.offset + 2 ^ 32 * sp.frame), slot := 7, ganged := false,
                  cycle := s.cycle, part := p, task := sp.task, word := 0, other := 0 }
/-- Bytes of the image of the task that a core is saving. -/
def State.imageBytes (s : State) (sp : Spill) : Nat :=
  ((sp.task.bind s.task?).bind fun t => t.image.map fun i => i.bytes).getD 0
/-- A stopped spill resumes: after 0x90 in its frame, after 0x91 in a new frame under the control block as it now stands, from offset 0, or it
stops again. -/
def State.spillGo (s : State) (c : Nat) : State :=
  let sp := (s.core c).spill
  if sp.state != 2 then s
  else if sp.cause = 0x90 then s.setSpill sp.task { sp with state := 1, cause := 0 }
  else
    let p := (sp.task.map fun t => t.part).getD 0
    let sp := sp.latch (s.part p).scb
    match sp.freeFrame (s.part p) with
    | some f =>
      if s.imageBytes sp ≤ sp.framemb * 2 ^ 20 then
        let s := (s.updPart p fun x => { x with frames := addNew x.frames f }).setSpill sp.task { sp with state := 1, cause := 0, frame := f, offset := 0 }
        match sp.task with
        | some t => s.updTask t fun x => { x with image := x.image.map fun i => { i with va := sp.frameAddr f 0 } }
        | none => s
      else s.spillRecord c sp 0
    | none => s.spillRecord c sp 0
def execSpillgo (x : DOnly) (s : State) : Out' :=
  s.superOnly fun s =>
    let s := s.spillGo s.cur.core
    done (s.ws x.d s.myCore.spill.word)

/-! ## W7 expansions (R370)

The turn at which an expansion issues makes its checks and reads; the thread then waits in it up to its final step, which writes. -/

/-- A trap at step `k` of an expansion. -/
def atStep {α : Type} (k : Nat) (r : Res α) : Res α :=
  match r with
  | .trap s c a i => .trap s c a (i ||| w64 (k * 2 ^ 56))
  | r => r
def execLdpi (x : LdpiA) (s : State) : Out' :=
  finish <|
    if x.d = x.a then badPos s 0
    else
      let a := s.rs x.a
      let n := tyW x.ty / 8
      (s.accessAligned s.agent a n n .load false).andThen fun p s =>
      (s.load p a n false x.h.hint.val).andThen fun (bs, far) s =>
      done (s.wait (.steps 1 far { Result.none with s := [(x.d, tyPutN x.ty (ofBytes bs)), (x.a, a + sext32 x.i)] } none))
def execStpi (x : StpiA) (s : State) : Out' :=
  finish <|
    let a := s.rs x.d
    let n := tyW x.ty / 8
    (s.accessAligned s.agent a n n .store false).andThen fun p s =>
    (s.phaseGate p.isMem).andThen fun _ s =>
    let bs := toBytes n (s.rs x.c).toNat
    if p.isMem && s.shFull s.myShingle (p.cells a.toNat (bytesAt a.toNat bs)) then .trap s 0x50 0 1
    else done (s.wait (.steps 1 false { Result.none with s := [(x.d, a + sext32 x.i)] } (some (p, a, bs, x.h.hint.val == 1))))
def execVldpi (x : VldpiA) (s : State) : Out' :=
  finish <|
    let a := s.rs x.a
    (s.accessAligned s.agent a 128 4 .load false).andThen fun p s =>
    (s.load p a 128 true x.h.hint.val).andThen fun (bs, far) s =>
    done (s.wait (.steps 1 far { Result.none with v := [(x.d, vOfBytes bs)], s := [(x.a, a + 128)] } none))
def execVdot (x : VdotA) (s : State) : Out' :=
  finish <|
    let a := s.rv x.a
    let b := s.rv x.b
    let q := (List.range 32).map fun j => felem .mul fF32 .rne false false (lane a j).toNat (lane b j).toNat 0
    let f0 := q.foldl (fun f e => f ||| e.2) 0
    let t := redTree .sum (.f32 x.rm) (q.map fun e => (e.1, 0))
    (atStep 0 (s.arithTrap f0 done)).andThen fun _ s =>
    (atStep 1 (s.arithTrap t.2 done)).andThen fun _ s =>
    done (s.wait (.steps 2 false { Result.none with s := [(x.d, w64 t.1)], sticky := stickyOf (f0 ||| t.2) } none))

/-! ## Words that are not instructions, fetch faults -/

def execUndefinedOpcode (op fn : Byte) (s : State) : Out' := .next (s.takeTrap 0x01 0 (opcodeInfo op fn))
/-- The fault of a fetch: of a resume (R368) it reports the target, of a fall-through the line's address, of a line that is not whole no
address. -/
def execInstructionFetchFault (cause : Byte) (line : Nat) (info : W64) (s : State) : Out' :=
  let addr := if cause = 0x04 then 0 else if s.th.arrive = .resume then s.cur.ipc else w64 (64 * line)
  .next (s.takeTrap cause addr info)

/-! ## Soft errors (R378, R379) -/

/-- A trap of a thread that is not issuing: at its waiting instruction, or at its next bundle. -/
def State.trapNow (s : State) (t : ThreadId) (cause : Byte) (addr info : W64) : State :=
  if (s.thr t).pend.isSome then s.trapPend t cause addr info
  else
    s.trapAfter t (s.thr t).pc cause addr info
/-- A transient error (R379): the region restarts, but for an instruction that lies in no region and the fourth restart of one region. -/
def State.transientError (s : State) (t : ThreadId) : State :=
  let x := s.thr t
  if x.region.inside && decide (x.region.restarts < 3) then ((s.errLog 6 0 0 0 0x80 t.core).disbandGang t).updThr t restartRegion
  else (s.errLog 8 0 0 0 0x80 t.core).trapNow t 0x80 0 5
/-- A poisoned word of a register. -/
def Regs.poison (r : Regs) (x : RegFile × Nat × Nat) : Regs := { r with bad := if r.bad.contains x then r.bad else r.bad ++ [x] }
/-- An error in a register word: transient where the region has written the register, else the word is poisoned. -/
def State.registerError (s : State) (t : ThreadId) (f : RegFile) (n w : Nat) : State :=
  if (s.thr t).region.wrote f n && (s.thr t).status = .running then s.transientError t
  else
    (s.errLog 7 0 0 0 0x80 t.core).updThr t fun x =>
      { x with regs := x.regs.poison (f, n, w), pend := x.pend.map fun p => { p with regs := p.regs.poison (f, n, w) } }
def execSoftErrorDetected (e : SoftErr) (s : State) : Out' :=
  match e with
  | .memory pa => .next ({ s with poison := addNew s.poison (pa / 8) }.errLog 7 (w64 (pa / 8 * 8)) 0 0 0x80 0)
  | .sram c off =>
    .next ({ s with sramPoison := if s.sramPoison.contains (c, off / 8) then s.sramPoison else s.sramPoison ++ [(c, off / 8)] }.errLog 7
      (w64 (devBase + off / 8 * 8)) 0 0 0x80 c)
  | .register t r w =>
    match regOf r, (s.thr t).status with
    | some (f, n), .running | some (f, n), .parked => .next (if (f == .s || f == .p) && n = 0 then s else s.registerError t f n w)
    | _, _ => .next s
  | .transient t => .next (if (s.thr t).status = .running then s.transientError t else s)

end Sys2Proof.Machine
end

