-- ==== Sys2Proof/Machine/Launches.lean ====
section
/-! DEFINITION. Partitions and queues, acceptance, the launch record, dependences, teardown (02), the checks of kernel descriptors and
process-group tables (01), the slot table, dispatch and virtual time (03), retirement and closing (03 R51, 24 R385). -/

namespace Sys2Proof.Machine

/-! ## Accesses of the command processor -/

/-- A walk of the tables as they stand, whose reads are requests at their slices (12 R234). -/
def State.cpWalk (s : State) (p va : Nat) : Walk × State :=
  let w := walk s.mem (s.part p).desc.ptroot va
  let reads := match w with
    | .leaf _ _ r => r
    | .fault _ r => r
  (w, reads.foldl (fun s a => s.l2Touch a false) s)
/-- Translates the pages of [va, fin) against the tables as they stand; the level is not USER, so U is not asked for (log 24). -/
def State.cpPages (s : State) (p : Nat) (k : Kind) (user : Bool) (fin : Nat) : Nat → Nat → List Pg → (List Pg ⊕ Byte) × State
  | 0, _, acc => (.inl acc, s)
  | n + 1, va, acc =>
    if fin ≤ va then (.inl acc, s)
    else
      match s.cpWalk p va with
      | (.fault _ _, s) => (.inr 0x10, s)
      | (.leaf e sz _, s) =>
        match leafFail e k (!user) with
        | some _ => (.inr 0x11, s)
        | none => State.cpPages s p k user fin n (va / sz * sz + sz) (acc ++ [mkPg va sz e])
/-- The pages of an access, or the cause that it would trap with; an access of no byte touches none. -/
def State.cpAccess (s : State) (p : Nat) (k : Kind) (user : Bool) (a n : Nat) : (List Pg ⊕ Byte) × State :=
  if n = 0 then (.inl [], s)
  else if devBase < a + n then (.inr 0x12, s) else s.cpPages p k user (a + n) (n / 2 ^ 18 + 2) a []
def State.cpTouch (s : State) (pgs : List Pg) (a n : Nat) : State :=
  if Place.mside (.mem pgs) then s
  else (((List.range n).map fun i => lineOf (paOf pgs (a + i))).eraseDups).foldl (fun s l => s.l2Touch (128 * l) false) s
/-- Bytes of the partition's memory, `none` where they cannot be read. -/
def State.cpRead (s : State) (p a n : Nat) : Option (List Byte) × State :=
  match s.cpAccess p .load false a n with
  | (.inl pgs, s) => (some ((List.range n).map fun i => memByte s.mem (paOf pgs (a + i))), s.cpTouch pgs a n)
  | (.inr _, s) => (none, s)
/-- A read that goes on only where the one before it could be made. -/
def cpThen {α β : Type} (r : Option α × State) (f : α → State → Option β × State) : Option β × State :=
  match r with
  | (some a, s) => f a s
  | (none, s) => (none, s)
/-- One write of the partition's memory, or the cause of its failure. -/
def State.cpWrite (s : State) (p a : Nat) (bs : List Byte) : State × Option Byte :=
  match s.cpAccess p .store false a bs.length with
  | (.inl pgs, s) =>
    ((s.cpTouch pgs a bs.length).pocWrite (((List.range bs.length).zip bs).map fun e => (paOf pgs (a + e.1), e.2)) none (Place.mside (.mem pgs)), none)
  | (.inr c, s) => (s, some c)

/-! ## The launch record (02 R43) -/

def LState.code (x : LState) : Nat :=
  match x with
  | .accepted => 1 | .running => 2 | .closed => 3
/-- The 128 bytes of a record. -/
def Launch.bytes (l : Launch) : List Byte :=
  let flags := l.level + 4 * bnat l.repro + 8 * bnat l.bounded + 16 * bnat l.reuse + 32 * bnat l.devside + 64 * bnat l.tolran
  toBytes 4 l.lid ++ toBytes 1 (l.qid + 64 * l.state.code) ++ toBytes 1 l.reason ++ toBytes 2 l.status ++ toBytes 4 l.tasks
    ++ toBytes 4 l.tag.toNat ++ toBytes 8 flags ++ toBytes 8 l.kdesc.toNat ++ toBytes 8 l.seed.toNat ++ toBytes 8 l.cbase.toNat
    ++ toBytes 8 l.cext.toNat ++ toBytes 10 l.atime.toNat ++ toBytes 10 l.ctime.toNat ++ toBytes 4 0 ++ toBytes 8 l.digest.toNat
    ++ toBytes 4 l.ftask.toNat ++ toBytes 1 l.fcause.toNat ++ toBytes 35 0
def Partition.recAddr (p : Partition) (lid : Nat) : Nat := p.desc.ringbase.toNat + 128 * (lid % 2 ^ p.desc.ringlog)
/-- The record of a launch written to the ring; a write that fails is dropped and logged. -/
def State.writeRecord (s : State) (l : Launch) : State :=
  let a := (s.part l.part).recAddr l.lid
  match s.cpWrite l.part a l.bytes with
  | (s, none) => s
  | (s, some c) => s.faultLog l.part 14 (w64 a) (w32 l.lid) 0 c 0
def State.recordOf (s : State) (p lid : Nat) : State :=
  match s.launch? p lid with
  | some l => s.writeRecord l
  | none => s

/-! ## The slot table (03 R52 to R54, R58, R62) -/

/-- A bind record by its fields. -/
structure Bind where
  pmask : Nat
  cores : Nat
  priomin : Nat
  sp : Nat
  cls : Nat
  valid : Bool
  deriving DecidableEq, Repr
def bindOf (v : W64) : Bind := ⟨bits v.toNat 48 16, bits v.toNat 32 8, bits v.toNat 16 2, bits v.toNat 12 3, bits v.toNat 9 2, bit v.toNat 8⟩
def State.entryAt (s : State) (c e : Nat) : W64 := s.slotTable.getD (8 * c + e) 0
def State.bindAt (s : State) (c e : Nat) : Bind := bindOf (s.entryAt c e)
/-- Values that govern or will govern the entries of a cluster other than `e`. -/
def State.others (s : State) (c e : Nat) : List Bind :=
  ((List.range 8).filter (· != e)).flatMap fun k =>
    s.bindAt c k :: ((s.mgmt.deferred.filter fun d => d.entry = 8 * c + k).map fun d => bindOf d.val)
/-- Cores that a record binds as a valid BOUNDED entry of a partition. -/
def Bind.boundedFor (b : Bind) (p : Nat) : Nat := if b.valid && b.cls == 1 && b.pmask == 2 ^ p then popcount b.cores 8 else 0
/-- Cores bound by the valid BOUNDED entries of a partition, leaving out entry `k`; an entry with a deferred value counts the value of the
two that binds more (log 26). -/
def State.boundedCores (s : State) (p k : Nat) : Nat :=
  sumNat (s.slotTable.map fun e =>
    let later := (s.mgmt.deferred.find? fun d => d.entry = e.1).map fun d => (bindOf d.val).boundedFor p
    if e.1 = k then 0 else Nat.max ((bindOf e.2).boundedFor p) (later.getD 0))
/-- First failing check of R53; 0: the write passes. -/
def State.bindCheck (s : State) (c e : Nat) (v : W64) : Nat :=
  let b := bindOf v
  let p := log2 16 b.pmask
  if !b.valid then 0
  else if bits v.toNat 0 8 != 1 || 1 < b.cls || bits v.toNat 40 8 != 0 || bits v.toNat 18 14 != 0 || bit v.toNat 15 || bit v.toNat 11 then 1
  else if b.cores = 0 || b.pmask = 0 then 2
  else if b.sp < 2 then 3
  else if b.cls = 1 && popcount b.pmask 16 != 1 then 4
  else if (s.others c e).any fun o => o.valid && (o.cores &&& b.cores) != 0 then 5
  else if b.cls = 1 && (s.part p).desc.bslots < 7 * (s.boundedCores p (8 * c + e) + popcount b.cores 8) then 6
  else 0
/-- Core `i` of a cluster is bound for a launch of a partition and class with a scratchpad size. -/
def Bind.binds (b : Bind) (i p : Nat) (bounded : Bool) (sp : Nat) : Bool :=
  b.valid && bit b.cores i && bit b.pmask p && (b.cls == 1) == bounded && b.sp == sp
/-- Scratchpad size of a launch's tasks, in 64 KiB units (R55). -/
def State.spOf (s : State) (l : Launch) : Nat := if l.kernel.spsize = 0 then (s.part l.part).desc.defsp else l.kernel.spsize
def State.blockOfTask (s : State) (t : Task) : List Nat :=
  match t.place, s.launchOf t with
  | .resident cl b0, some l | .leaving cl b0, some l | .filling cl b0 _, some l => blockCores cl b0 l.kernel.block
  | _, _ => []
/-- Task of a core: the resident one, or the one whose fill is under way there. -/
def Core.holds (k : Core) : Option TaskId := if k.spill.state = 3 then k.spill.task else k.task
/-- Tasks of BOUNDED launches on the cores of an entry, with those that a resume is bringing there (log 71). -/
def State.boundedOn (s : State) (c cores : Nat) : List TaskId :=
  ((bitList cores 8).filterMap fun i =>
    match (s.core (8 * c + i)).holds.bind s.task? with
    | some t => if ((s.launchOf t).map fun l => l.bounded).getD false then some t.id else none
    | none => none).eraseDups
/-- Every core of a task's block is bound for it as a SHARED task. -/
def State.stillBound (s : State) (t : Task) (l : Launch) : Bool :=
  (s.blockOfTask t).all fun k => (List.range 8).any fun e => (s.bindAt (clusterOf k) e).binds (k % 8) t.id.part false (s.spOf l)
/-- A SHARED task that has lost a core of its block is to be pre-empted (R62); one whose fill is under way, when the fill has ended (R63). -/
def State.markLost (s : State) (c : Nat) : State :=
  { s with tasks := s.tasks.map fun t =>
      match t.place, s.launchOf t with
      | .resident cl _, some l | .filling cl _ _, some l =>
        if cl = c && !l.bounded && !s.stillBound t l then { t with mustGo := true } else t
      | _, _ => t }
/-- A cluster leaves power gating: its in-field test may fail, and it is fenced then (24 R396). -/
def State.wake (s : State) (c : Nat) (pass : Bool) : State :=
  let m := s.mgmt
  { s with mgmt := { m with gated := m.gated.filter (· != c), fenced := if pass then m.fenced else addNew m.fenced c } }
/-- A new value of an entry. Cores that a BOUNDED entry binds are not gated: their cluster wakes, and whether it passes its test is a free
value (24 R395, R396, log 5). -/
def State.putEntry (s : State) (c e : Nat) (v : W64) : State :=
  let s := { s with slotTable := s.slotTable.put (8 * c + e) v }.markLost c
  let b := bindOf v
  if b.valid && b.cls == 1 && b.cores != 0 && s.mgmt.gated.contains c then
    let (pass, s) := s.flip
    s.wake c pass
  else s
/-- SLOT_TABLE_WRITE. -/
def execSlotTableWrite (c : ClusterN) (e : Fin 8) (v : W64) (s : State) : Out' :=
  let k := 8 * c.val + e.val
  match s.bindCheck c.val e.val v with
  | 0 =>
    let old := s.bindAt c.val e.val
    let s := { s with mgmt := { s.mgmt with deferred := s.mgmt.deferred.filter fun d => d.entry != k } }
    let ts := if old.valid && old.cls = 1 then s.boundedOn c.val old.cores else []
    if !ts.isEmpty then
      .next (if s.entryAt c.val e.val = v then s else { s with mgmt := { s.mgmt with deferred := s.mgmt.deferred ++ [⟨k, v, ts⟩] } })
    else .next (s.putEntry c.val e.val v)
  | code => .next { s with mgmt := { s.mgmt with sltErr := true, sltEntry := k, sltEcode := code } }
/-- SLTSTAT_CLEAR: a write of 1 to ERR clears it. -/
def execSltstatClear (v : W32) (s : State) : Out' :=
  .next (if v.getLsbD 31 then { s with mgmt := { s.mgmt with sltErr := false } } else s)
/-- A task that has retired, or gone with its launch. -/
def State.retired (s : State) (t : TaskId) : Bool := ((s.task? t).map fun x => x.place == .retired).getD true
/-- Deferred values whose BOUNDED tasks have all retired take effect (R58). -/
def State.applyDeferred (s : State) : State :=
  s.mgmt.deferred.foldl (fun (s : State) d =>
    if !d.tasks.all s.retired then s
    else { s with mgmt := { s.mgmt with deferred := s.mgmt.deferred.filter fun x => x.entry != d.entry } }.putEntry (d.entry / 8) (d.entry % 8) d.val) s

/-! ## Closing (02 R47, 24 R385) -/

/-- The completion signal (02 R47). -/
def Launch.signal (l : Launch) : List Byte := toBytes 10 l.ctime.toNat ++ toBytes 2 l.status ++ toBytes 4 l.lid
def State.writeSignal (s : State) (l : Launch) : State :=
  if l.sigaddr = 0 || l.sigaddr.toNat % 16 != 0 then s
  else
    match s.cpWrite l.part l.sigaddr.toNat l.signal with
    | (s, none) => s
    | (s, some c) => s.faultLog l.part 1 l.sigaddr (w32 l.lid) 0 c 0
/-- Signal and interrupt of a closed launch. -/
def State.announce (s : State) (l : Launch) : State :=
  let s := s.writeSignal l
  if l.irq then s.launchIrq l else s
/-- Every launch accepted from a queue is CLOSED. -/
def State.queueClear (s : State) (p q : Nat) : Bool := s.launches.all fun l => l.part != p || l.qid != q || l.state == .closed
def Partition.queue (p : Partition) (q : Nat) : Queue := p.queues.getD q .reset
def State.updQueue (s : State) (p q : Nat) (f : Queue → Queue) : State :=
  s.updPart p fun x => { x with queues := x.queues.put q (f (x.queue q)) }
/-- The end of a teardown (02 R48, R49). -/
def State.endTeardown (s : State) (p q : Nat) : State :=
  let k := (s.part p).queue q
  if (k.st == .draining || k.st == .aborting) && s.queueClear p q then
    let s := s.updQueue p q fun k => { k with enable := false, tear := 0, st := .disabled }
    if k.irqen then { s with out := s.out ++ [.msix p k.msix] } else s
  else s
/-- Expert fields return to their reset values once EXPERT is clear and no launch accepted under it remains (00 R6). A register whose RATIO is
16 already keeps its lines and counters (log 72). A step of `rset` or `unpin` that this cycle has still to make leaves RATIO 16. -/
def State.expertReturn (s : State) (p : Nat) : State :=
  if (s.part p).desc.expert || s.launches.any (fun l => l.part == p && l.expert && l.state != .closed) then s
  else
    let s := s.updPart p fun x => { x with lastwin := false }
    let mine (k : Nat) : Bool := (s.retain.getD k .reset).part == p
    let s : State := { s with retainSteps := s.retainSteps.map fun (x : RetainStep) => if mine x.k then { x with ratio := 16 } else x }
    (s.retain.filter fun e => e.2.part == p && e.2.ratio != 16).foldl (fun (s : State) e =>
      { s.unretain e.1 with retain := s.retain.put e.1 { s.retain.getD e.1 .reset with ratio := 16, fills := [], hits := [] } }) s
/-- Messages that a launch has not received when it closes are closed (18 R328). -/
def State.closeMessages (s : State) (l : Launch) : State :=
  s.updPart l.part fun p =>
    { p with closed := p.closed ++ (p.rx.filter fun m => m.lid = l.lid).map fun m => (m.key, m.deadline), rx := p.rx.filter fun m => m.lid != l.lid,
             posts := p.posts.filter fun x => x.task.lid != l.lid, matched := p.matched.filter fun e => e.1.2.2 != l.lid,
             lost := p.lost.filter fun k => k.lid != l.lid }
/-- CTIME of a launch that was not refused: later than its ATIME (24 R385). In the nanosecond of its acceptance it is the next one (log 65). -/
def State.closeTime (s : State) (l : Launch) : BitVec 80 :=
  if s.ptp80 = l.atime then { s with ptp := s.ptp + ptpUnit }.ptp80 else s.ptp80
/-- A launch closes, after the fragments for it that have arrived: record, signal, interrupt, and the teardown that waits for it. -/
def State.close (s : State) (p lid status : Nat) : State :=
  let s := (s.takeFor p lid).updLaunch p lid fun l => { l with state := .closed, status := status, ctime := s.closeTime l, digest := if l.repro then l.dig else 0 }
  match s.launch? p lid with
  | none => s
  | some l =>
    let s := ((s.writeRecord l).announce l).closeMessages l
    let s := { s with tasks := s.tasks.filter fun t => !(t.id.part == p && t.id.lid == lid) }
    ((s.endTeardown p l.qid).expertReturn p).applyDeferred

/-! ## Eligible launches and virtual time (03 R55, R57, R60, R62) -/

/-- Effective priority of a launch's queue. -/
def State.prioOf (s : State) (l : Launch) : Nat := Nat.min ((s.part l.part).queue l.qid).prio (s.part l.part).desc.priocap
def State.depStatus (s : State) (l : Launch) (d : Dep) : Option Nat :=
  match s.launch? l.part d.lid with
  | some x => if x.state = .closed then some x.status else none
  | none => none
def State.depsClosed (s : State) (l : Launch) : Bool := l.deps.all fun d => (s.depStatus l d).isSome
/-- A dependence without TOL has resolved not OK. -/
def State.depsFail (s : State) (l : Launch) : Bool :=
  l.deps.any fun d => !d.tol && (match s.depStatus l d with
    | some st => st != 1
    | none => false)
def State.depsTolerated (s : State) (l : Launch) : Bool :=
  l.deps.any fun d => d.tol && (match s.depStatus l d with
    | some st => st != 1
    | none => false)
def leastOf : List Nat → Option Nat
  | [] => none
  | a :: r => some (r.foldl Nat.min a)
/-- A task of a reproducible launch that has passed the published RIDGE. -/
def State.aheadOfRidge (s : State) (l : Launch) (i : Nat) : Bool :=
  l.repro && ((s.task? ⟨l.part, l.lid, i⟩).map fun t => decide (l.ridge < t.phase)).getD false
/-- A slot-table write has pre-empted a task (R62). -/
def State.displaced (s : State) (l : Launch) (i : Nat) : Bool := ((s.task? ⟨l.part, l.lid, i⟩).map fun t => t.mustGo).getD false
/-- The next task of a launch. While tasks are undispatched: the least pre-empted one, but for a task that dispatch has pre-empted while it
waited for RIDGE, then the next undispatched one (R60, R62); after that, the pre-empted ones in increasing index (R60). -/
def State.nextTask (s : State) (l : Launch) : Option Nat :=
  if l.next < l.last then
    some ((leastOf (l.preempted.filter fun i => !s.aheadOfRidge l i || s.displaced l i)).getD l.next)
  else leastOf l.preempted
/-- The task for which dispatch pre-empts one that waits for RIDGE (R60): the lowest undispatched one; where all are dispatched, the lowest
pre-empted one that RIDGE waits for (log 67). -/
def State.needy (s : State) (l : Launch) : Option Nat :=
  if l.next < l.last then some l.next else leastOf (l.preempted.filter fun i => !s.aheadOfRidge l i)
def State.eligible (s : State) (l : Launch) : Bool :=
  !l.marker && (s.nextTask l).isSome && !(s.part l.part).resetting && (l.state == .running || (l.state == .accepted && s.depsClosed l && !s.depsFail l))
/-- Cores that hold tasks of a partition at a priority; a core whose task has gone to its shadow bank, and one whose fill has not ended, holds
none (log 73). -/
def State.coresAt (s : State) (p prio : Nat) : Nat :=
  (s.cores.filter fun e =>
    match e.2.task with
    | some t => t.part == p && (match s.launch? t.part t.lid with
        | some l => s.prioOf l == prio
        | none => false)
    | none => false).length
abbrev Frac := Nat × Nat
def Frac.le (a b : Frac) : Bool := a.1 * b.2 ≤ b.1 * a.2
def Frac.add (a b : Frac) : Frac :=
  let n := a.1 * b.2 + b.1 * a.2
  let d := a.2 * b.2
  let g := Nat.gcd n d
  (n / g, d / g)
def State.vtOf (s : State) (p prio : Nat) : Frac := (s.part p).vt.getD prio (0, 1)
/-- A partition that becomes eligible at a priority, where it held no cores and had no eligible launch, starts no lower than those that hold
cores there (R57). -/
def State.vtJoin (s : State) : State :=
  s.parts.foldl (fun (s : State) e =>
    (List.range 4).foldl (fun (s : State) q =>
      let elig := s.launches.any fun l => l.part == e.1 && s.prioOf l == q && s.eligible l
      let now := s.coresAt e.1 q != 0 || elig
      let was := (s.part e.1).vtActive.contains q
      if elig && !was then
        let hs := s.parts.filter fun x => x.1 != e.1 && s.coresAt x.1 q != 0
        let low := match hs.map fun x => s.vtOf x.1 q with
          | [] => s.vtOf e.1 q
          | a :: r => r.foldl (fun m x => if Frac.le x m then x else m) a
        let v := if Frac.le (s.vtOf e.1 q) low then low else s.vtOf e.1 q
        s.updPart e.1 fun x => { x with vt := x.vt.put q v, vtActive := x.vtActive ++ [q] }
      else if now && !was then s.updPart e.1 fun x => { x with vtActive := x.vtActive ++ [q] }
      else if was && !now then s.updPart e.1 fun x => { x with vtActive := x.vtActive.filter (· != q) }
      else s) s) s

/-! ## Queues (02 R34, R35, R48, R49) -/

def Partition.hasQueue (p : Partition) (q : Nat) : Bool := p.desc.valid && decide (q < p.desc.nqueue)
/-- A drain request: an ACTIVE queue becomes DRAINING, and DISABLED once its launches are closed. -/
def State.drain (s : State) (p q : Nat) : State :=
  if ((s.part p).queue q).st == .active then (s.updQueue p q fun k => { k with tear := 1, st := .draining }).endTeardown p q else s
/-- A queue stops on an error: ERR, ECODE, then as after a drain request. -/
def State.queueErr (s : State) (p q code : Nat) : State := (s.updQueue p q fun k => { k with err := true, ecode := code }).drain p q
/-- A core is cleared: what the targets keep for its slot 7 without a task, which is a new thread each time (16 R301), and its `xlinv` go. -/
def Partition.forget (p : Partition) (c : Nat) : Partition :=
  { p.dropXl c with effects := p.effects.filter fun e => (e.1.1, e.1.2.1) != coreTag c }
/-- What the posted queue holds for the scratchpad of a core is there: it belongs to the task that leaves the core (15 R276, 18 R336). -/
def State.landPosted (s : State) (c : Nat) : State :=
  let mine (w : Posted) : Bool := w.dest == some c && w.land.isNone
  (s.posted.filter mine).foldl (fun s w => s.postedWrite w) { s with posted := s.posted.filter fun w => !mine w }
/-- The threads of a resident task go, with its entries in the store buffers, its effects not performed, and its jobs (02 R49, 15 R290,
16 R302). -/
def State.clearCore (s : State) (c p : Nat) : State :=
  let s := s.landPosted c
  let s : State := { s with parts := s.parts.map fun (e : Nat × Partition) => (e.1, e.2.forget c) }
  s.updCore c fun k =>
    { k with threads := [], task := none, lastPart := some p, tiles := [], tiles0 := [], inbox := [], land := [], queue := [], bank0 := none,
             bank1 := none, observed := [] }
/-- The physical operand slots and accumulators of a task's names become free. -/
def State.freeNames (s : State) (t : Task) (cl : Nat) : State :=
  s.updCluster cl fun k => k.release (t.onames.map (·.2)) (t.znames.map (·.2))
/-- What a task's threads have asked of the message unit ends with it (18 R336): posts, the messages matched to them, and sends that
have not been given to ports; fragments given to ports travel on. -/
def State.dropMessages (s : State) (t : TaskId) : State :=
  s.updPart t.part fun p =>
    let mine (m : RxMsg) : Bool := (m.post.map fun x => x.task == t).getD false
    { p with posts := p.posts.filter fun x => x.task != t, closed := p.closed ++ (p.rx.filter mine).map fun m => (m.key, m.deadline),
             rx := p.rx.filter fun m => !mine m,
             tx := (p.tx.filter fun x => x.task != t || (x.sent && decide (0 < x.left))).map fun x => if x.task = t then { x with final := true } else x }
/-- Entries of a block buffer, oldest first, that drain when those of `mine` do: with them the older ones that hold them back (15 R277). -/
def drainSet (mine : Entry → Bool) (bb : List Entry) : List Entry :=
  bb.foldr (fun x l => if mine x || l.any (fun e => (sameSource x e && overlaps x e) || sharedBy x e) then x :: l else l) []
/-- An entry that a task has in its block buffer. -/
def Entry.ofTask (e : Entry) (p : Nat) (cs : List Nat) : Bool := e.part == p && (e.job.isSome || (e.thread.map fun x => cs.contains x.core).getD false)
/-- A reduction that has not reached its LLC is never performed by 16 R302, and drains by 15 R290: a free bit says which (log 77). -/
def State.freeRed (s : State) (cl : Nat) (e : Entry) : State :=
  let (lost, s) := s.flip
  if lost then s.updCluster cl fun k => { k with bb := k.bb.filter fun x => x.id != e.id } else s
/-- What a task has in its block buffer is performed, in order (02 R46, 15 R290), its reductions where they are (log 77). -/
def State.drainTask (s : State) (p cl : Nat) (cs : List Nat) : State :=
  let s := ((s.cluster cl).bb.filter fun e => e.red.isSome && e.ofTask p cs).foldl (fun (s : State) e => s.freeRed cl e) s
  let es := drainSet (fun e => e.ofTask p cs) (s.cluster cl).bb
  es.foldl (fun (s : State) e => s.perform e cl) (s.updCluster cl fun k => { k with bb := k.bb.filter fun e => !es.any fun x => x.id = e.id })
/-- A frame that a task's image holds is free. -/
def State.freeFrame (s : State) (t : TaskId) (f : Nat) : State := s.updPart t.part fun p => { p with frames := p.frames.filter (· != f) }
/-- A task of a launch that is torn down (02 R49): what its threads have in their store buffers goes, and what stands in the block buffer is
performed before the launch closes (02 R46, 15 R290). -/
def State.discardTask (s : State) (t : Task) : State :=
  let cs := s.blockOfTask t
  let s := s.takeFor t.id.part t.id.lid
  let s := match t.place with
    | .resident cl _ => ((s.freeNames t cl).stopJobs t.id cl).drainTask t.id.part cl cs
    | .leaving cl b0 =>
      let sp := (s.core (8 * cl + b0)).spill
      let s := if sp.state = 0 || sp.cause = 0x91 then s else s.freeFrame t.id sp.frame
      ((if t.image.isSome then s else s.freeNames t cl).stopJobs t.id cl).drainTask t.id.part cl cs
    | .saved f => s.freeFrame t.id f
    | .filling _ _ f => s.freeFrame t.id f
    | .retired => s
  let s := cs.foldl (fun (s : State) c => (s.updCore c fun k => { k with sb := k.sb.filter fun e => e.thread.isNone || e.part != t.id.part, spill := .reset }).clearCore c t.id.part) s
  let s := s.dropMessages t.id
  { s with tasks := s.tasks.filter fun x => x.id != t.id,
           parts := s.parts.map fun e => if e.1 = t.id.part then (e.1, { e.2 with dq := e.2.dq.filter fun k => k.task != t.id }) else e }
/-- Abort of every launch of a queue that is not CLOSED, in increasing LID order. -/
def State.abortLaunches (s : State) (p q : Nat) : State :=
  let ls := ((s.launches.filter fun l => l.part == p && l.qid == q && l.state != .closed).map fun l => l.lid).insertionSort (· ≤ ·)
  ls.foldl (fun (s : State) lid =>
    let ts := s.tasks.filter fun t => t.id.part == p && t.id.lid == lid
    (ts.foldl (fun (s : State) t => s.discardTask t) s).close p lid 3) s
def State.abort (s : State) (p q : Nat) : State :=
  let k := (s.part p).queue q
  if k.st == .active || k.st == .draining then
    ((s.updQueue p q fun k => { k with tear := 2, st := .aborting }).abortLaunches p q).endTeardown p q
  else s
def State.enableQueue (s : State) (p q : Nat) : State :=
  let k := (s.part p).queue q
  if k.qbase.toNat % 4096 = 0 && (k.loc || bits k.qbase.toNat 52 12 = 0) && decide (k.qlog ≤ 12) then
    s.updQueue p q fun k => { k with enable := true, qrd := k.qwr, err := false, ecode := 0, st := .active }
  else s.updQueue p q fun k => { k with err := true, ecode := 3 }
def Queue.slots (k : Queue) : Nat := 2 ^ (k.qlog + 4)
/-- The indices of a queue are further apart than its ring has slots: the queue stops (R35). -/
def State.overrun (s : State) (p q : Nat) : State :=
  let k := (s.part p).queue q
  if decide (k.slots < (k.qwr - k.qrd).toNat) then s.queueErr p q 1 else s
/-- A host write of QCTL. R34 and R35 give the writes that change ENABLE and TEAR; any other write of them leaves them as they are: TEAR 0
to a DRAINING queue, TEAR 1 or 2 to a DISABLED one, ENABLE 0 to a DRAINING one (log 26). -/
def State.writeQctl (s : State) (p q : Nat) (v : W64) : State :=
  let k := (s.part p).queue q
  let n := v.toNat
  let s := s.updQueue p q fun k =>
    let k := { k with prio := bits n 3 2, irqen := bit n 2 }
    if k.st == .disabled then { k with loc := bit n 1, qlog := bits n 8 4, msix := bits n 16 11 } else k
  let s := if bit n 0 && k.st == .disabled then s.enableQueue p q
    else if !bit n 0 && k.st == .active then s.drain p q else s
  if k.st == .disabled then (if bit n 0 then s else s.overrun p q)
  else if bits n 12 2 = 1 then s.drain p q
  else if bits n 12 2 = 2 then (s.abort p q).vtJoin else s.vtJoin
/-- A host write of a queue register that exists. -/
def State.onQueue (s : State) (p q : Nat) (f : State → State) : Out' := .next (if (s.part p).hasQueue q && !(s.part p).resetting then f s else s)
/-- QUEUE_ENABLE (R35). -/
def execQueueEnable (p : PartN) (q : Fin 64) (v : W64) (s : State) : Out' :=
  s.onQueue p.val q.val fun s => if v.getLsbD 0 && ((s.part p.val).queue q.val).st == .disabled then s.writeQctl p.val q.val v else s
/-- QUEUE_DISABLE (R35). -/
def execQueueDisable (p : PartN) (q : Fin 64) (v : W64) (s : State) : Out' :=
  s.onQueue p.val q.val fun s => if !v.getLsbD 0 && ((s.part p.val).queue q.val).st == .active then s.writeQctl p.val q.val v else s
/-- QUEUE_DRAIN (R48). -/
def execQueueDrain (p : PartN) (q : Fin 64) (v : W64) (s : State) : Out' :=
  s.onQueue p.val q.val fun s => if bits v.toNat 12 2 = 1 then s.writeQctl p.val q.val v else s
/-- QUEUE_ABORT (R49). -/
def execQueueAbort (p : PartN) (q : Fin 64) (v : W64) (s : State) : Out' :=
  s.onQueue p.val q.val fun s => if bits v.toNat 12 2 = 2 then s.writeQctl p.val q.val v else s
/-- QWR_WRITE (R34, R35): bits [63:32] are zero. It acts at once, whatever writes of the host are still posted (log 72). -/
def execQwrWrite (p : PartN) (q : Fin 64) (v : W64) (s : State) : Out' :=
  s.onQueue p.val q.val fun s => (s.updQueue p.val q.val fun k => { k with qwr := v.extractLsb' 0 32 }).overrun p.val q.val

/-! ## Kernel descriptors (01 R15 to R19, 08 R159) -/

def gangSize (n : Nat) : Nat := if n = 0 then 1 else 2 ^ n
/-- Entry field of a level: 1 scalar, 2 loop, 3 tile. -/
def entryField (d : List Byte) (level : Nat) : Nat := field d (4 + 4 * level) 4
def windowOf (d : List Byte) (n : Nat) : Nat × Nat := (field d (32 + 12 * n) 8, field d (32 + 12 * n + 8) 4)
def kernelOf (d : List Byte) (addr : W64) (level : Nat) (presets : Tab W64) : Kernel :=
  { addr := addr, tileset := w32 (field d 28 4), sigoff := w32 (field d 20 4), tilemask := BitVec.ofNat 16 (field d 24 2),
    cbmask := BitVec.ofNat 16 (field d 26 2), entry := kdist addr (w32 (entryField d level)), argsize := field d 4 2, drawn := bit (field d 3 1) 7,
    slots := bits (field d 3 1) 2 3, gang := gangSize (bits (field d 3 1) 0 2), block := bits (field d 2 1) 4 4, spsize := bits (field d 2 1) 0 4,
    windows := (List.range 8).map fun n => (w64 (windowOf d n).1, (windowOf d n).2), presets := presets }
/-- The line at KDESC plus an entry translates and may be executed at USER level. -/
def State.entryOk (s : State) (p : Nat) (addr : W64) (e : Nat) : Bool :=
  e % 64 == 0 && (match (s.cpAccess p .fetch true (kdist addr (w32 e)).toNat 64).1 with
    | .inl _ => true
    | .inr _ => false)
/-- The walks of the entry checks of R19, whose reads are requests at their slices (12 R234). -/
def State.entryWalks (s : State) (p : Nat) (d : List Byte) (addr : W64) : State :=
  [1, 2, 3].foldl (fun (s : State) k =>
    if bit (field d 1 1) (k - 1) && entryField d k % 64 == 0 then (s.cpAccess p .fetch true (kdist addr (w32 (entryField d k))).toNat 64).2 else s) s
def windowOk (w : Nat × Nat) : Bool := bits w.1 52 12 == 0 && w.1 % 64 == 0 && w.2 % 4 == 0 && decide (w.2 ≤ 524288)
/-- The checks of R19, but for the presets. -/
def State.kernelOk (s : State) (p : Nat) (d : List Byte) (addr : W64) (repro : Bool) : Bool :=
  let lv := field d 1 1
  let b3 := field d 3 1
  let blk := bits (field d 2 1) 4 4
  let sp := bits (field d 2 1) 0 4
  field d 0 1 == 1 && lv != 0 && decide (lv < 8)
  && ([1, 2, 3].all fun k => if bit lv (k - 1) then s.entryOk p addr (entryField d k) else entryField d k == 0)
  && sp != 1 && decide (sp ≤ 7) && blk != 0 && decide (blk ≤ 8) && blk % gangSize (bits b3 0 2) == 0 && bits b3 2 3 != 0
  && field d 4 2 % 8 == 0 && decide (field d 4 2 ≤ 4096) && (field d 4 2 == 0 || (windowOf d 7).2 == 0)
  && ((List.range 8).all fun n => windowOk (windowOf d n)) && field d 6 2 == 0 && (!repro || bit b3 5)
/-- Presets of the entries of TILEMASK; `none`: one cannot be read. -/
def State.readPresets (s : State) (p : Nat) (d : List Byte) (addr : W64) : Option (Tab W64) × State :=
  let base := (kdist addr (w32 (field d 28 4))).toNat
  match bitList (field d 24 2) 16 with
  | [] => (some [], s)
  | i :: r =>
    if field d 28 4 = 0 then (some ((i :: r).map fun k => (k, 0)), s)
    else
      cpThen (s.cpRead p (base + 8 * i) (8 * ((i :: r).getLastD i - i + 1))) fun b s =>
        (some ((i :: r).map fun k => (k, w64 (field b (8 * (k - i)) 8))), s)
/-- Level under R15, from the packet's LEVEL, LEVELS, and whether the partition holds a matrix share; `none`: refused. R15 takes the scalar
level where the partition holds neither of the others; a kernel that does not have it is refused (log 66). -/
def levelOf (want lv : Nat) (share repro : Bool) : Option Nat :=
  if want != 0 then if bit lv (want - 1) then some want else none
  else if repro then none
  else if bit lv 2 && share then some 3
  else if bit lv 1 then some 2
  else if bit lv 0 then some 1 else none

/-! ## Process-group tables and profiles (01 R27 to R30, 18 R325) -/

/-- The bytes of a table: header, member entries, path sets. -/
structure GroupTable where
  head : List Byte
  members : List (Nat × Nat)
  zeros : Bool
  sets : List (List Byte)
  deriving DecidableEq, Repr
def State.readGroup (s : State) (p a : Nat) : Option GroupTable × State :=
  cpThen (s.cpRead p a 64) fun h s =>
  let n := Nat.min (field h 0 2) 512
  let k := Nat.min (field h 2 1) 64
  cpThen (s.cpRead p (a + 64) (8 * n)) fun m s =>
  let at' := a + 64 + ceilDiv (8 * n) 64 * 64
  cpThen (s.cpRead p at' (64 * k)) fun t s =>
  (some ⟨h, (List.range n).map fun i => (field m (8 * i) 4, field m (8 * i + 4) 2), (List.range n).all fun i => field m (8 * i + 6) 2 == 0,
    (List.range k).map fun i => (t.drop (64 * i)).take 64⟩, s)
def pathWord (b : List Byte) (j : Nat) : Nat := field b (8 + 4 * j) 4
def npaths (b : List Byte) : Nat := bits (field b 2 1) 0 4
def hops (w : Nat) : List Nat := (List.range (bits w 0 4)).map fun h => bits w (4 * h + 4) 4
def pathOk (w : Nat) : Bool :=
  let n := bits w 0 4
  decide (1 ≤ n) && decide (n ≤ 7) && ((hops w).all fun x => decide (x ≤ 11)) && w / 2 ^ (4 * n + 4) == 0
def distinct (l : List Nat) : Bool := l.eraseDups.length == l.length
def pathSetOk (b : List Byte) (nrank : Nat) : Bool :=
  let n := npaths b
  let ps := (List.range n).map (pathWord b)
  decide (1 ≤ n) && decide (n ≤ 8) && decide (field b 0 2 < nrank) && ps.all pathOk && distinct (ps.map fun w => bits w 4 4)
  && field b 2 6 / 16 == 0 && ((List.range 8).all fun j => decide (j < n) || pathWord b j == 0) && field b 40 24 == 0
/-- The rules of R30; a table with more path sets than the 64 of R27 is refused with them (log 66). -/
def GroupTable.ok (g : GroupTable) (pkg : W32) : Bool :=
  let n := field g.head 0 2
  let topo := bits (field g.head 3 1) 4 4
  let dx := field g.head 4 2
  let dy := field g.head 6 2
  decide (1 ≤ n) && decide (n ≤ 512) && decide (topo ≤ 2) && (if topo = 1 then dx * dy == n else dx == 0 && dy == 0)
  && (g.members.filter fun m => m.1 = pkg.toNat).length == 1 && (g.members.any fun m => m.2 != 0)
  && (g.sets.all fun b => pathSetOk b n) && bits (field g.head 3 1) 0 4 == 0 && field g.head 16 48 == 0 && g.zeros
  && decide (field g.head 2 1 ≤ 64)
def neighboursOf (topo n dx dy r : Nat) : List Nat :=
  let l := match topo with
    | 0 => [(r + n - 1) % n, (r + 1) % n]
    | 1 =>
      let x := r % dx
      let y := r / dx
      let at' (x y : Nat) : Nat := y % dy * dx + x % dx
      [at' (x + dx - 1) y, at' (x + 1) y, at' x (y + dy - 1), at' x (y + 1)]
    | _ => List.range n
  l.eraseDups.filter (· != r)
def GroupTable.rank (g : GroupTable) (pkg : W32) : Nat := (g.members.findIdx? fun m => m.1 = pkg.toNat).getD 0
def GroupTable.group (g : GroupTable) (pkg : W32) : Group :=
  let r := g.rank pkg
  let n := field g.head 0 2
  { id := w64 (field g.head 8 8), nrank := n, rank := r,
    neighbours := neighboursOf (bits (field g.head 3 1) 4 4) n (field g.head 4 2) (field g.head 6 2) r,
    paths := g.sets.map fun b => (field b 0 2, (List.range (npaths b)).map fun j => w32 (pathWord b j)) }
/-- First and one past the last task of the package's share (R28). -/
def GroupTable.share (g : GroupTable) (pkg : W32) (t : Nat) : Nat × Nat :=
  let r := g.rank pkg
  let w := sumNat (g.members.map fun m => m.2)
  let p := sumNat ((g.members.take r).map fun m => m.2)
  let q := ((g.members[r]?).map fun m => m.2).getD 0
  (t * p / w, t * (p + q) / w)
/-- A profile (18 R325); `nset`: NPATHSET of the launch's table. -/
def profileOf (b : List Byte) (nset : Nat) : Profile :=
  let k := field b 0 1
  let m := field b 1 1
  let f := field b 2 1
  let ps := field b 5 1
  let dl := field b 6 2
  { valid := [2, 4, 8, 12, 16].contains k && [0, 1, 2, 4].contains m && decide (1 ≤ f) && decide (f ≤ 64) && field b 3 2 == 0
      && decide (ps ≤ nset) && decide (1 ≤ dl) && field b 8 24 == 0,
    deadline := dl, psel := ps, fsize := f, m := m, k := k }
def State.readProfiles (s : State) (p nset : Nat) : List Profile × State :=
  match s.cpRead p (s.part p).desc.profbase.toNat 256 with
  | (some b, s) => ((List.range 8).map fun n => profileOf ((b.drop (32 * n)).take 32) nset, s)
  | (none, s) => ([], s)

/-! ## The packet and its checks (02 R38 to R42) -/

/-- A launch packet by its fields. -/
structure Packet where
  b : List Byte
def Packet.f (p : Packet) (off n : Nat) : Nat := field p.b off n
def Packet.type (p : Packet) : Nat := p.f 1 1
def Packet.level (p : Packet) : Nat := bits (p.f 2 1) 0 2
def Packet.repro (p : Packet) : Bool := bit (p.f 2 1) 2
def Packet.bounded (p : Packet) : Bool := bit (p.f 2 1) 3
def Packet.irq (p : Packet) : Bool := bit (p.f 2 1) 4
def Packet.reuseref (p : Packet) : Bool := bit (p.f 2 1) 5
def Packet.tasks (p : Packet) : Nat := p.f 4 4
def Packet.kdesc (p : Packet) : Nat := p.f 8 8
def Packet.args (p : Packet) : Nat := p.f 16 8
def Packet.pgt (p : Packet) : Nat := p.f 24 8
def Packet.sigaddr (p : Packet) : Nat := p.f 32 8
def Packet.seed (p : Packet) : Nat := p.f 40 8
def Packet.cbase (p : Packet) : Nat := p.f 48 8
def Packet.cext (p : Packet) : Nat := p.f 56 8
def Packet.dep (p : Packet) (j : Nat) : Nat := p.f (64 + 8 * j) 8
def Packet.tag (p : Packet) : Nat := p.f 96 4
def Packet.deps (p : Packet) : List Dep :=
  ((List.range 4).map p.dep).filterMap fun d => if bit d 33 then some ⟨d % 2 ^ 32, bit d 32⟩ else none
/-- REASON 1. -/
def Packet.shapeOk (p : Packet) : Bool :=
  let adr (a al : Nat) : Bool := a < 2 ^ 52 && a % al == 0
  p.f 0 1 == 1 && (p.type == 1 || p.type == 2) && p.f 2 1 / 64 == 0 && p.f 3 1 == 0 && p.f 100 28 == 0
  && ((List.range 4).all fun j => if bit (p.dep j) 33 then p.dep j / 2 ^ 34 == 0 else p.dep j == 0)
  && (p.type != 2 || (p.level == 0 && !p.repro && !p.bounded && !p.reuseref && p.tasks == 0 && p.kdesc == 0 && p.args == 0 && p.pgt == 0
        && p.seed == 0 && p.cbase == 0 && p.cext == 0))
  && (p.type != 1 || decide (1 ≤ p.tasks)) && adr p.kdesc 64 && adr p.pgt 64 && adr p.args 8 && adr p.sigaddr 16
/-- What acceptance has read for a kernel launch. -/
structure Reads where
  d : List Byte
  presets : Tab W64
  args : List Byte
  table : Option GroupTable
  profiles : List Profile
/-- REASON 3: everything is readable. -/
def State.readAll (s : State) (p : Nat) (k : Packet) : Option Reads × State :=
  cpThen (s.cpRead p k.kdesc 128) fun d s =>
  cpThen (s.readPresets p d (w64 k.kdesc)) fun pre s =>
  cpThen (s.cpRead p k.args (Nat.min (field d 4 2) 4096)) fun a s =>
  if k.pgt = 0 then
    let (pr, s) := s.readProfiles p 0
    (some ⟨d, pre, a, none, pr⟩, s)
  else
    cpThen (s.readGroup p k.pgt) fun g s =>
      let (pr, s) := s.readProfiles p (field g.head 2 1)
      (some ⟨d, pre, a, some g, pr⟩, s)
/-- Two launches draw from a common stream (R42). -/
def reuses (a : W64 × W64 × W64) (seed cbase cext : Nat) : Bool :=
  a.1.toNat == seed && decide (cbase < a.2.1.toNat + a.2.2.toNat) && decide (a.2.1.toNat < cbase + cext)
/-- A launch record as acceptance begins it. -/
def Launch.new (p lid qid : Nat) (k : Packet) (dev : Bool) (time : BitVec 80) : Launch :=
  { part := p, lid := lid, qid := qid, state := .accepted, reason := 0, status := 0, tasks := k.tasks, tag := w32 k.tag, level := 0,
    repro := k.repro, bounded := k.bounded, reuse := false, devside := dev, tolran := false, marker := k.type == 2, kdesc := w64 (k.kdesc % 2 ^ 52),
    seed := w64 k.seed, cbase := w64 k.cbase, cext := w64 k.cext, atime := time, ctime := 0, digest := 0, ftask := 0, fcause := 0, faulted := false,
    deps := k.deps, sigaddr := w64 (k.sigaddr % 2 ^ 52), irq := k.irq, kernel := kernelOf [] 0 1 [], args := [], group := none, profiles := [],
    expert := false, lastwin := false, first := 0, last := 0, next := 0, ridge := 0, ridge0 := 0, laid := 0, dig := 0, shingles := [],
    preempted := [], kept := [], stalled := false, mseq := [] }
/-- REASON 9, for a dependence of launch `lid` (the ring holds 2^`ringlog` records). -/
def depOk (d : Dep) (lid ringlog : Nat) : Bool := decide (1 ≤ d.lid) && decide (d.lid < lid) && decide (lid - d.lid ≤ 2 ^ ringlog)
/-- The first failing check of a kernel launch from REASON 4 on, or the launch. -/
def State.judge (s : State) (p : Nat) (k : Packet) (r : Reads) (l : Launch) : Launch ⊕ Nat :=
  let desc := (s.part p).desc
  let sp := if bits (field r.d 2 1) 0 4 = 0 then desc.defsp else bits (field r.d 2 1) 0 4
  let level := levelOf k.level (field r.d 1 1) (desc.mshare != 0) k.repro
  let kern := kernelOf r.d (w64 k.kdesc) (level.getD 1) r.presets
  let share := match r.table with
    | some g => g.share s.pkg k.tasks
    | none => (0, k.tasks)
  let past := k.cext != 0 && ((s.part p).recent.take 256).any fun a => reuses a k.seed k.cbase k.cext
  if !s.kernelOk p r.d (w64 k.kdesc) k.repro || r.presets.any (fun e => !presetOk e.2 sp) then .inr 4
  else if level.isNone then .inr 5
  else if !(r.table.map fun g => g.ok s.pkg).getD true then .inr 6
  else if k.cext != 0 && (k.cext < k.tasks * kern.block * 8 || 2 ^ 64 < k.cbase + k.cext) then .inr 7
  else if k.bounded && desc.bslots = 0 then .inr 8
  else if k.deps.any fun d => !depOk d l.lid desc.ringlog then .inr 9
  else if past && k.reuseref then .inr 10
  else .inl { l with level := level.getD 0, reuse := past, kernel := kern, args := r.args, group := r.table.map fun g => g.group s.pkg,
                     profiles := r.profiles, expert := desc.expert, lastwin := (s.part p).lastwin, first := share.1, last := share.2, next := share.1,
                     ridge := if share.1 = share.2 then 0xFFFFFFFF else 0, ridge0 := if share.1 = share.2 then 0xFFFFFFFF else 0 }
/-- Checks of a packet: the launch, or the first failing REASON. -/
def State.examine (s : State) (p : Nat) (k : Packet) (l : Launch) : (Launch ⊕ Nat) × State :=
  if !k.shapeOk then (.inr 1, s)
  else if k.reuseref && !(s.part p).desc.expert then (.inr 2, s)
  else if k.type = 2 then
    (if k.deps.any fun d => !depOk d l.lid (s.part p).desc.ringlog then .inr 9 else .inl { l with ridge := 0xFFFFFFFF, ridge0 := 0xFFFFFFFF }, s)
  else
    match s.readAll p k with
    | (none, s) => (.inr 3, s)
    | (some r, s) => (s.judge p k r l, s.entryWalks p r.d (w64 k.kdesc))
/-- Steps 2 to 6 of acceptance: LID, time, checks, record. A launch refused for a REASON other than 10 has REUSE 0, whatever its range
(log 72). -/
def State.accept (s : State) (p qid : Nat) (k : Packet) (dev : Bool) : Launch × State :=
  let lid := (s.part p).nextLid
  let s := s.updPart p fun x => { x with nextLid := x.nextLid + 1 }
  let l := Launch.new p lid qid k dev s.ptp80
  match s.examine p k l with
  | (.inl l, s) =>
    let s := if l.cext = 0 then s else s.updPart p fun x => { x with recent := ((l.seed, l.cbase, l.cext) :: x.recent).take 256 }
    (l, { s with launches := s.launches ++ [l] }.writeRecord l)
  | (.inr r, s) =>
    let past := k.cext != 0 && r == 10
    let l := { l with state := .closed, reason := r, status := 2, ctime := l.atime, reuse := past }
    (l, ({ s with launches := s.launches ++ [l] }.writeRecord l).announce l)

/-! ## ACCEPT_PACKET (02 R37, R40) -/

/-- The next record position of the ring holds a launch that is not CLOSED. -/
def State.stalled (s : State) (p : Nat) : Bool :=
  let x := s.part p
  s.launches.any fun l => l.part == p && l.lid + 2 ^ x.desc.ringlog == x.nextLid && l.state != .closed
/-- A position of the round robin holds an unread packet; 64 is the device-side queue. -/
def Partition.holds (p : Partition) (q : Nat) : Bool :=
  if q = 64 then !p.dq.isEmpty
  else
    let k := p.queue q
    p.hasQueue q && k.st == .active && !k.err && k.qrd != k.qwr
def ringFrom (k n : Nat) : List Nat := (List.range n).map fun i => (k + i) % n
def State.nextSource (s : State) : Option (Nat × Nat) :=
  (ringFrom s.rrPart 16).findSome? fun p =>
    let x := s.part p
    if !x.desc.valid || x.resetting || s.stalled p then none
    else ((ringFrom x.rrQueue 65).find? x.holds).map fun q => (p, q)
/-- The queue that a device-side launch counts as accepted from (16 R318). -/
def State.parentQueue (s : State) (t : TaskId) : Nat := ((s.launch? t.part t.lid).map fun l => l.qid).getD 0
/-- The thread of a partition that waits in its `dlaunch` for the answer to a packet, with its D; a task under pre-emption still has its threads on
its cores (16 R302). -/
def State.dlWaiter (s : State) (p : Nat) (k : DevPacket) : Option (ThreadId × SReg) :=
  s.cores.findSome? fun e =>
    let th : ThreadId := ⟨e.1, k.slot⟩
    match s.stageOf th with
    | some (.dlWait d) => if s.partOf e.1 k.slot = p && s.tagOf th = k.tag && (s.thr th).esn = k.esn then some (th, d) else none
    | _ => none
/-- The command processor keeps REASON and LID for the packet's tag, and the thread that waits learns them (16 R301, R318). -/
def State.dlReply (s : State) (p : Nat) (k : DevPacket) (l : Launch) : State :=
  let v := w64 (l.reason * 2 ^ 32 + l.lid)
  let s := s.updPart p fun x => { x with effects := assocSet x.effects (k.tag.1, k.tag.2, .command) (k.esn, v) }
  match s.dlWaiter p k with
  | some (th, d) => (s.endWait th (.tag d v)).updThr th fun x => { x with wake := some s.cycle }
  | none => s
/-- The command processor accepts one packet; `host`: what a ring in host memory gives, `none` a PCIe fault. -/
def execAcceptPacket (host : Option VWord) (s : State) : Out' :=
  let s := s.vtJoin
  match s.nextSource with
  | none => .next s
  | some (p, q) =>
    let s := { s with rrPart := (p + 1) % 16 }.updPart p fun x => { x with rrQueue := (q + 1) % 65 }
    if q = 64 then
      match (s.part p).dq with
      | [] => .next s
      | k :: r =>
        let s := s.updPart p fun x => { x with dq := r }
        let (l, s) := s.accept p (s.parentQueue k.task) ⟨vBytes k.words⟩ true
        .next (s.dlReply p k l)
    else
      let k := (s.part p).queue q
      let bytes := if k.loc then (host.map vBytes, s) else s.cpRead p (k.qbase.toNat + 128 * (k.qrd.toNat % k.slots)) 128
      match bytes with
      | (none, s) => .next (s.queueErr p q 2)
      | (some b, s) =>
        let (l, s) := s.accept p q ⟨b⟩ false
        .next (s.updQueue p q fun k => { k with qrd := k.qrd + 1, lastlid := w32 l.lid })

/-! ## Dispatch (03 R55 to R60) -/

/-- A core holds no task, no swap or spill is under way on it, and its slot 7 runs nothing (R51, R55, log 68). -/
def State.quiet (s : State) (c : Nat) : Bool :=
  (s.core c).task.isNone && (s.core c).spill.state == 0 && (s.core c).bank0.isNone && (s.core c).queue.isEmpty
/-- A quiet core of a cluster that is neither gated nor fenced. -/
def State.idle (s : State) (c : Nat) : Bool := s.quiet c && !s.mgmt.gated.contains (clusterOf c) && !s.mgmt.fenced.contains (clusterOf c)
/-- A core is bound for task `i` of a launch. Under an entry with a deferred value only a task that the value waits for is placed (R58). -/
def State.boundFor (s : State) (l : Launch) (i c : Nat) : Bool :=
  (List.range 8).any fun e =>
    let b := s.bindAt (c / 8) e
    b.binds (c % 8) l.part l.bounded (s.spOf l) && decide (b.priomin ≤ s.prioOf l)
    && s.mgmt.deferred.all fun d => d.entry != 8 * (c / 8) + e || d.tasks.contains ⟨l.part, l.lid, i⟩
/-- Runs that a launch still keeps for the task that needs them: those that are bound for it (R60). -/
def State.keptRuns (s : State) (l : Launch) : List Nat :=
  match l.state, s.needy l with
  | .running, some i => l.kept.filter fun b => (blockCores 0 b l.kernel.block).all (s.boundFor l i)
  | _, _ => []
/-- No other launch keeps a core. -/
def State.notKept (s : State) (l : Launch) (c : Nat) : Bool :=
  s.launches.all fun x => (x.part == l.part && x.lid == l.lid) || x.kept.isEmpty
    || (s.keptRuns x).all fun b => c < b || b + x.kernel.block ≤ c
/-- A placement of task `i` of a launch (R55). -/
def State.fits (s : State) (l : Launch) (i cl b0 : Nat) : Bool :=
  decide (b0 + l.kernel.block ≤ 8) && b0 % l.kernel.gang == 0
  && (blockCores cl b0 l.kernel.block).all fun c => s.idle c && s.boundFor l i c && s.notKept l c
/-- Clusters with an entry. -/
def State.tableClusters (s : State) : List Nat := (s.slotTable.map fun e => e.1 / 8).eraseDups
/-- Operand slots and accumulators that an image needs are free in an engine. -/
def State.freeFor (s : State) (i : Image) (cl : Nat) : Bool :=
  let k := s.cluster cl
  decide (i.oslots.length + k.oslots.length ≤ 32) && decide (i.accs.length + k.accs.length ≤ 8)
/-- Operand slots and accumulators that a saved task needs again: they are free, and within the limits of its partition (13 R236, R258). -/
def State.roomFor (s : State) (t : Task) (cl : Nat) : Bool :=
  let h := s.held cl t.id.part
  let m := (s.part t.id.part).desc.mshare
  match t.image with
  | some i =>
    let o := i.oslots.length
    let z := i.accs.length
    s.freeFor i cl && (o == 0 || decide (o + h.1 ≤ olim m)) && (z == 0 || decide (z + h.2 ≤ zlim m))
  | none => true
/-- The task that a launch would place at a run: on a run it keeps, the one that needs it; elsewhere its next task, but for that one while a run is kept for it. -/
def State.nextAt (s : State) (l : Launch) (cl b0 : Nat) : Option Nat :=
  match s.keptRuns l with
  | [] => s.nextTask l
  | ks =>
    if ks.contains (8 * cl + b0) then s.needy l
    else (s.nextTask l).filter fun i => s.needy l != some i && ks.all fun b => b + l.kernel.block ≤ 8 * cl + b0 || 8 * cl + b0 + l.kernel.block ≤ b
def State.fitsNext (s : State) (l : Launch) (cl b0 : Nat) : Bool :=
  match s.nextAt l cl b0 with
  | none => false
  | some i => s.fits l i cl b0 && ((s.task? ⟨l.part, l.lid, i⟩).map fun t => s.roomFor t cl).getD true
def State.placeable (s : State) (l : Launch) : Bool := s.tableClusters.any fun cl => (List.range 8).any fun b0 => s.fitsNext l cl b0
/-- One cycle of virtual time: H / WEIGHT. -/
def State.vtTick (s : State) : State :=
  let s := s.vtJoin
  s.parts.foldl (fun (s : State) e =>
    (List.range 4).foldl (fun (s : State) q =>
      let h := s.coresAt e.1 q
      let w := (s.part e.1).fairw
      if h = 0 || w = 0 then s else s.updPart e.1 fun x => { x with vt := x.vt.put q (Frac.add (s.vtOf e.1 q) (h, w)) }) s) s
/-- A launch comes before another in dispatch (R56). -/
def State.before (s : State) (a b : Launch) : Bool :=
  let pa := s.prioOf a
  let pb := s.prioOf b
  if pa != pb then decide (pb < pa)
  else if a.part = b.part then decide (a.lid < b.lid)
  else
    let za := (s.part a.part).fairw == 0
    let zb := (s.part b.part).fairw == 0
    if za != zb then zb
    else
      let va := s.vtOf a.part pa
      let vb := s.vtOf b.part pb
      if Frac.le va vb && Frac.le vb va then decide (a.part < b.part) else Frac.le va vb
/-- The launch that dispatch places next. -/
def State.chosen (s : State) : Option Launch :=
  (s.launches.filter fun l => s.eligible l && s.placeable l).foldl (fun m l =>
    match m with
    | none => some l
    | some x => if s.before l x then some l else some x) none

/-- A thread of a task before its first issue; registers that nothing has set hold 0 (log 3). -/
def startThread (l : Launch) : Thread := { Thread.reset with pc := l.kernel.entry, status := .running, mode := { Mode.reset with repro := l.repro } }
/-- Number after the posted writes that the queue holds: an acquire at SYSTEM scope waits for those below it (15 R282). -/
def State.postedEnd (s : State) : Nat := (s.posted.map fun w => w.id + 1).foldl Nat.max 0
def startTiles (k : Kernel) : Tab Tile := k.presets.map fun e => (e.1, tileOfPreset e.2)
/-- A core of a block as a task comes to it: split, clearing (08 R145), caches emptied (04 R74, R79, 08 R146, 14 R264). -/
def freshFor (sp p b : Nat) (t : TaskId) (k : Core) : Core :=
  { k with
      task := some t, bidx := b, sram := if k.sp != sp || k.lastPart != some p then [] else k.sram, sp := sp,
      l0 := [], l1 := [], cc := [], shape := [], observed := [], ctab := 0, ctabhi := 0, ctabNew := none, ctabW := (none, none), inbox := [], land := [],
      late := [], gone := [] }
/-- Fetches that cores have asked for before a task comes to them are not theirs any more (04 R74). -/
def State.dropFetch (s : State) (cl : Nat) (cs : List Nat) : State :=
  s.updCluster cl fun k => { k with fmb := k.fmb.map fun e => { e with reqs := e.reqs.filter fun r => !cs.contains r.1 } }
/-- A task placed for the first time; its dispatch is an acquire at SYSTEM scope (02 R46, 15 R284). What engines wrote in the cycle to a core's
scratchpad has landed there, where the scratchpad keeps its bytes (08 R145). -/
def State.placeNew (s : State) (l : Launch) (cl b0 : Nat) (i : Nat) : State :=
  let id : TaskId := ⟨l.part, l.lid, i⟩
  let sp := s.spOf l
  let s := s.dropFetch cl (blockCores cl b0 l.kernel.block)
  let s := ((List.range l.kernel.block).zip (blockCores cl b0 l.kernel.block)).foldl (fun (s : State) e =>
    let s := s.landLateAt e.2
    let s := if (s.core e.2).sp != sp || (s.core e.2).lastPart != some l.part then { s with sramPoison := s.sramPoison.filter (·.1 != e.2) } else s
    s.updCore e.2 fun k =>
      let k := freshFor sp l.part e.1 id k
      let tl := startTiles l.kernel
      { k with threads := (List.range l.kernel.slots).map fun j => (j, { startThread l with settle := s.postedEnd }), tiles := tl, tiles0 := tl }) s
  { s with tasks := s.tasks ++ [{ id := id, place := .resident cl b0, phase := 0, barriers := [], wq := .reset, arrived := [], onames := [], znames := [],
                                  ae := 0, ae0 := 0, faulted := false, image := none, held := ([], []), acqPhase := false, mustGo := false, stealing := [] }] }
/-- The launch is RUNNING from its first dispatch on; TOLRAN (R45). -/
def State.setRunning (s : State) (l : Launch) : State :=
  if l.state = .running then s
  else
    let tol := s.depsTolerated l
    (s.updLaunch l.part l.lid fun x => { x with state := .running, tolran := tol }).recordOf l.part l.lid
/-- Some valid entries could hold the next task of a launch, were their cores idle (R63). -/
def State.couldFit (s : State) (l : Launch) : Bool :=
  s.tableClusters.any fun cl => !s.mgmt.fenced.contains cl && (List.range 8).any fun b0 =>
    decide (b0 + l.kernel.block ≤ 8) && b0 % l.kernel.gang == 0 && (blockCores cl b0 l.kernel.block).all fun c =>
      (List.range 8).any fun e => (s.bindAt cl e).binds (c % 8) l.part l.bounded (s.spOf l)
/-- A launch's next task fits no entries there could be (R63). -/
def State.stuck (s : State) (l : Launch) : Bool := s.eligible l && !s.couldFit l
/-- The placement-stall events of launches whose next task no entries could hold: one for each such wait (R63). -/
def State.postStalls (s : State) : State :=
  let ls := s.launches.filter fun l => s.stuck l && !l.stalled
  { s with out := s.out ++ ls.map fun l => .stall l.part l.lid, launches := s.launches.map fun l => { l with stalled := s.stuck l } }
/-- A run that a launch kept is taken. -/
def Launch.take (l : Launch) (cl b0 : Nat) : Launch := { l with kept := l.kept.filter (· != 8 * cl + b0) }
/-- DISPATCH_TASK: the task that comes first under R56 takes the placement at core `b0` of a cluster. -/
def execDispatchTask (c : ClusterN) (b0 : Fin 8) (s : State) : Out' :=
  let s := s.vtJoin.postStalls
  match s.chosen with
  | none => .next s
  | some l =>
    if s.nextAt l c.val b0.val != some l.next || !(l.next < l.last) || !s.fitsNext l c.val b0.val then .next s
    else
      let s := s.setRunning l
      let s := s.placeNew l c.val b0.val l.next
      .next (s.updLaunch l.part l.lid fun x => { x.take c.val b0.val with next := x.next + 1 })

/-! ## Retirement (03 R51) -/

/-- Every thread of a core's worker slots has ended. -/
def Core.allEnded (k : Core) : Bool := k.threads.all fun e => e.1 == 7 || e.2.status == .ended || e.2.status == .empty
/-- Jobs of a task in its cluster. -/
def Cluster.hasJobs (k : Cluster) (t : TaskId) : Bool := k.copyq.any (fun j => j.owner.task == t) || k.mtxq.any (fun j => j.owner.task == t)
/-- No write of a task is left in a buffer (15 R290). -/
def State.drained (s : State) (t : Task) (cs : List Nat) (cl : Nat) : Bool :=
  cs.all (fun c => (s.core c).sb.all fun e => e.thread.isNone) &&
  !(s.cluster cl).bb.any fun e => e.ofTask t.id.part cs
/-- No fill or drain of the core is under way. -/
def Core.tilesStill (k : Core) : Bool := k.tiles.all fun e => e.2.st != .filling && e.2.st != .draining
/-- Every send handle of the core's threads is final. -/
def State.handlesFinal (s : State) (c : Nat) : Bool := (s.core c).threads.all fun e => e.2.handles.all fun h => h.recv || h.st.code != 0
def State.mayRetire (s : State) (t : Task) (cl : Nat) : Bool :=
  let cs := s.blockOfTask t
  cs.all (fun c => (s.core c).allEnded && (s.core c).tilesStill && s.handlesFinal c && (s.core c).queue.isEmpty && (s.core c).bank0.isNone)
  && !(s.cluster cl).hasJobs t.id && s.drained t cs cl
/-- TASK_RETIRE, after the fragments for its launch that have arrived. -/
def execTaskRetire (t : TaskId) (s : State) : Out' :=
  match s.task? t with
  | some x =>
    match x.place with
    | .resident cl _ =>
      if s.mayRetire x cl then
        let cs := s.blockOfTask x
        let s := (s.takeFor t.part t.lid).freeNames x cl
        let s := cs.foldl (fun (s : State) c => s.clearCore c t.part) s
        let s := (s.dropMessages t).updTask t fun x => { x with place := .retired, onames := [], znames := [] }
        .next s.applyDeferred.vtJoin
      else .next s
    | _ => .next s
  | none => .next s

/-! ## Closing a launch (02 R44, 24 R385) -/

def Launch.allDispatched (l : Launch) : Bool := l.next == l.last && l.preempted.isEmpty
/-- Every task of the share has retired. -/
def State.allRetired (s : State) (l : Launch) : Bool :=
  l.allDispatched && s.tasks.all fun t => t.id.part != l.part || t.id.lid != l.lid || t.place == .retired
/-- Every send of the launch's tasks is final, those of a task among them that retired with its image lost (24 R385, 18 R336). -/
def State.sendsFinal (s : State) (l : Launch) : Bool :=
  (s.part l.part).tx.all fun x => x.task.part != l.part || x.task.lid != l.lid || x.final
/-- Every `dlaunch` that the launch's tasks have issued has been taken (24 R385, 16 R302). -/
def State.packetsTaken (s : State) (l : Launch) : Bool :=
  (s.part l.part).dq.all fun k => k.task.part != l.part || k.task.lid != l.lid
/-- Phases that some task of the launch has reached. -/
def State.reached (s : State) (l : Launch) : Nat :=
  (s.tasks.filter fun t => t.id.part == l.part && t.id.lid == l.lid).foldl (fun m t => Nat.max m (t.phase.toNat + 1)) 0
/-- The status a launch closes with now, if it may close. -/
def State.closeStatus (s : State) (l : Launch) : Option Nat :=
  match l.state with
  | .closed => none
  | .accepted =>
    if s.depsFail l then some 3
    else if s.depsClosed l && (l.marker || l.first == l.last) then some 1 else none
  | .running =>
    if s.allRetired l && s.sendsFinal l && s.packetsTaken l && (!l.repro || s.reached l ≤ l.laid) then some (if l.faulted then 4 else 1) else none
/-- CLOSE_LAUNCH. A launch whose share on the package is empty has its TOLRAN set as one that runs, and a marker has not (log 66). -/
def execCloseLaunch (p : PartN) (lid : Nat) (s : State) : Out' :=
  match s.launch? p.val lid with
  | none => .next s
  | some l =>
    match s.closeStatus l with
    | some st =>
      let tol := l.state == .accepted && st == 1 && s.depsTolerated l && !l.marker
      .next ((s.updLaunch p.val lid fun x => { x with tolran := x.tolran || tol }).close p.val lid st).vtJoin
    | none => .next s

/-! ## Partitions (00 R6, 02 R33) -/

/-- A descriptor by its fields. -/
def descOf (v : BitVec 512) (n : Nat) : Descriptor :=
  let b := toBytes 64 v.toNat
  { pdver := field b 0 1, valid := bit (field b 1 1) 0, expert := bit (field b 1 1) 1, part := n, defsp := bits (field b 2 1) 4 4,
    nqueue := bits (field b 3 1) 0 7, pext := BitVec.ofNat 16 n, mshare := field b 6 1, priocap := bits (field b 7 1) 0 2, tokhi := field b 8 1,
    bslots := field b 10 2, ringbase := w64 (bits (field b 16 8) 0 52), ringlog := field b 24 1, ptroot := bits (field b 32 6) 0 48,
    profbase := w64 (bits (field b 40 8) 0 52) }
/-- The fields of a new descriptor lie within their values. -/
def Descriptor.ok (d : Descriptor) : Bool :=
  d.pdver == 1 && d.valid && decide (2 ≤ d.defsp) && decide (d.defsp ≤ 7) && decide (1 ≤ d.nqueue) && decide (d.nqueue ≤ 64) && decide (8 ≤ d.ringlog)
  && decide (d.ringlog ≤ 16) && d.ringbase.toNat % 4096 == 0
/-- With a partition VALID the forward step of boot is allowed no more (24 R386). -/
def State.valid (s : State) (v : Bool) : State := { s with mgmt := { s.mgmt with stepped := s.mgmt.stepped || v } }
/-- PARTITION_CREATE: the management core writes the descriptor of a partition that does not exist; one outside the limits of R33 is no
descriptor, and nothing is written (log 72). -/
def execPartitionCreate (p : PartN) (v : BitVec 512) (s : State) : Out' :=
  let d := descOf v p.val
  .next (if (s.part p.val).desc.valid || !d.ok then s else (s.valid true).updPart p.val fun x => { x with desc := d })
/-- EXPERT_CHANGE (R6); of a partition that does not exist yet nothing changes (DESIGN CHOICE, log 81). -/
def execExpertChange (p : PartN) (b : Bool) (s : State) : Out' :=
  .next (if (s.part p.val).desc.valid then
    (s.updPart p.val fun x => { x with desc := { x.desc with expert := b } }).expertReturn p.val else s)

end Sys2Proof.Machine
end

