-- ==== Sys2Proof/Machine/Preempt.lean ====
section
/-! DEFINITION. Pre-emption, spilling and resuming (22 R372, R374 to R377, 03 R60, R62), publishing RIDGE and laying phases (15 R291 to
R296). -/

namespace Sys2Proof.Machine

/-! ## RIDGE (15 R291) -/

/-- The smallest PHASE over the tasks of a launch's share. -/
def State.trueRidge (s : State) (l : Launch) : W32 :=
  if l.next < l.last then 0
  else
    let ts := s.tasks.filter fun t => t.id.part == l.part && t.id.lid == l.lid && t.place != .retired
    match ts with
    | [] => 0xFFFFFFFF
    | t :: r => r.foldl (fun m x => if x.phase < m then x.phase else m) t.phase
/-- RIDGE_PUBLISH. -/
def execRidgePublish (p : PartN) (lid : Nat) (s : State) : Out' :=
  match s.launch? p.val lid with
  | some l =>
    let r := s.trueRidge l
    .next (if l.state = .running && decide (l.ridge < r) then s.updLaunch p.val lid fun l => { l with ridge := r } else s)
  | none => .next s

/-! ## Laying a phase (15 R293 to R296) -/

/-- Shingles of a phase, by increasing task index. -/
def Launch.layers (l : Launch) (ph : Nat) : List (Nat × List ShLine) :=
  ((l.shingles.filter fun e => e.1.2 = ph).map fun e => (e.1.1, e.2)).insertionSort fun a b => a.1 ≤ b.1
/-- The bytes that a line of a shingle holds: (virtual address, byte). -/
def ShLine.bytes (l : ShLine) : List (Nat × Byte) :=
  ((List.range 128).filter fun i => l.mask.getLsbD i).map fun i => (128 * l.line + i, l.data.extractLsb' (8 * i) 8)
/-- One line in the digest (R296). -/
def digestLine (h : W64) (l : ShLine) : W64 :=
  (List.range 16).foldl (fun h j =>
    let m := bits l.mask.toNat (8 * j) 8
    if m = 0 then h
    else
      let w := packBytes ((List.range 8).map fun i => if bit m i then l.data.extractLsb' (8 * (8 * j + i)) 8 else 0)
      mix (mix h (w64 (256 * j + m))) w) (mix h (w64 (128 * l.line)))
where
  packBytes (bs : List Byte) : W64 := w64 (ofBytes bs)
/-- The first byte in laying order that stands in the masks of two tasks: address, lower task, higher task (R294). -/
def conflictOf (ls : List (Nat × List ShLine)) : Option (Nat × Nat × Nat) :=
  ls.findSome? fun a =>
    a.2.findSome? fun l =>
      let os := ls.filterMap fun b =>
        if b.1 ≤ a.1 then none else (b.2.find? fun x => x.line = l.line).map fun x => (b.1, x.mask &&& l.mask)
      (List.range 128).findSome? fun i =>
        (os.find? fun o => o.2.getLsbD i).map fun o => (128 * l.line + i, a.1, o.1)
/-- The bytes a line ends with, and whether they carry poison: the last shingle's value stands. -/
def laidBytes (ls : List (Nat × List ShLine)) (line : Nat) : List (Nat × Byte × Bool) :=
  (List.range 128).filterMap fun i =>
    ls.reverse.findSome? fun a =>
      (a.2.find? fun l => l.line = line && l.mask.getLsbD i).map fun l => (128 * line + i, l.data.extractLsb' (8 * i) 8, l.bad.getLsbD i)
/-- One line written once at its point of coherence; a line that no longer translates is not written. -/
def State.layLine (s : State) (p : Nat) (ls : List (Nat × List ShLine)) (line : Nat) : State :=
  match s.cpWalk p (128 * line) with
  | (.fault _ _, s) => s
  | (.leaf e sz _, s) =>
    let pg := mkPg (128 * line) sz e
    let cs := (laidBytes ls line).map fun b => (pg.pa + (b.1 - pg.va), b.2)
    let s := (if pg.mside then s else s.l2Touch (pg.pa + (128 * line - pg.va)) false).pocWrite (cs.map fun c => (c.1, c.2.1)) none pg.mside
    { s with poison := ((cs.filter (·.2.2)).map (·.1 / 8)).foldl addNew s.poison }
/-- Every thread of a launch that is not retired is to park with cause 0x50 at its next turn (R294). -/
def conflThr (x : W64 × W64) (e : Nat × Thread) : Nat × Thread :=
  if e.1 == 7 || e.2.status == .ended || e.2.status == .empty then e else (e.1, { e.2 with confl := some x })
def State.setConfl (s : State) (l : Launch) (x : W64 × W64) : State :=
  { s with
      cores := s.cores.map fun e =>
        match e.2.task with
        | some t => if t.part == l.part && t.lid == l.lid then (e.1, { e.2 with threads := e.2.threads.map (conflThr x) }) else e
        | none => e,
      tasks := s.tasks.map fun t =>
        if t.id.part == l.part && t.id.lid == l.lid then
          { t with image := t.image.map fun i => { i with cores := i.cores.map fun k => { k with threads := k.threads.map (conflThr x) } } }
        else t }
/-- No write of the phase is left in a buffer. -/
def State.phaseOut (s : State) (l : Launch) (ph : Nat) : Bool :=
  let mine (e : Entry) : Bool := (e.shingle.map fun k => k.1.part == l.part && k.1.lid == l.lid && k.2.toNat == ph).getD false
  !((s.cores.any fun c => c.2.sb.any mine) || s.clusters.any fun c => c.2.bb.any mine)
/-- LAY_PHASE: the next phase is laid. -/
def execLayPhase (p : PartN) (lid : Nat) (s : State) : Out' :=
  match s.launch? p.val lid with
  | none => .next s
  | some l =>
    let ph := l.laid
    if !l.repro || l.state != .running || l.ridge.toNat ≤ ph || s.reached l ≤ ph || !s.phaseOut l ph then .next s
    else
      let ls := l.layers ph
      let dig := ls.foldl (fun h a => a.2.foldl digestLine h) (mix l.dig (w64 ph))
      let lines := ((ls.flatMap fun a => a.2.map (·.line)).eraseDups).insertionSort (· ≤ ·)
      let s := lines.foldl (fun s n => s.layLine p.val ls n) s
      let s := s.updLaunch p.val lid fun l => { l with laid := ph + 1, dig := dig, shingles := l.shingles.filter fun e => e.1.2 != ph }
      match (if l.lastwin then none else conflictOf ls) with
      | none => .next s
      | some (a, t1, t2) =>
        if s.allRetired l then
          .next (s.updLaunch p.val lid fun l => if l.faulted then l else { l with fcause := 0x50, ftask := w32 t2, faulted := true })
        else .next (s.setConfl l (w64 a, w64 (t1 + 2 ^ 32 * t2)))

/-! ## Pre-empting a task (22 R372, 03 R60, R62) -/

/-- A thread of a task passes its turns until RIDGE moves (R60). -/
def State.waitsRidge (s : State) (t : Task) : Bool :=
  (s.blockOfTask t).any fun c => (s.core c).threads.any fun e => e.1 != 7 && e.2.status == .running && e.2.ridgeWait
/-- A resident task that waits for RIDGE, on cores that task `i` of its launch could take. -/
def State.canYield (s : State) (l : Launch) (i : Nat) (t : Task) : Bool :=
  t.id.part == l.part && t.id.lid == l.lid && s.aheadOfRidge l t.id.idx && s.waitsRidge t &&
  (match t.place with
    | .resident cl b0 => (blockCores cl b0 l.kernel.block).all (s.boundFor l i)
    | _ => false)
/-- A task of a launch is being pre-empted under R60, or a run is kept for the task that needs one. -/
def State.yielding (s : State) (l : Launch) : Bool :=
  !(s.keptRuns l).isEmpty || s.tasks.any fun t => t.id.part == l.part && t.id.lid == l.lid && !t.mustGo &&
    (match t.place with
      | .leaving _ _ => true
      | _ => false)
/-- The task that a reproducible launch without a placement for the task that needs one gives up: the highest one that waits for RIDGE (R60). -/
def State.stallVictim (s : State) (l : Launch) : Option Nat :=
  match s.needy l with
  | none => none
  | some i =>
    if !l.repro || !s.eligible l || s.yielding l || s.tableClusters.any (fun cl => (List.range 8).any fun b0 =>
        s.fits l i cl b0 && ((s.task? ⟨l.part, l.lid, i⟩).map fun t => s.roomFor t cl).getD true) then none
    else
      match (s.tasks.filter (s.canYield l i)).map fun t => t.id.idx with
      | [] => none
      | a :: r => some (r.foldl Nat.max a)
/-- A job that has neither claimed a tile nor read a byte (10 R207). -/
def CopyJob.withdraws (j : CopyJob) : Bool :=
  (j.st == .queued || j.st == .running 0) && !j.claimed && !j.claiming && (dropTile j.src).isNone && !(j.fill && j.kind != 2 && (dropTile j.dst).isSome)
/-- A matrix job that has to run before its task is saved: it has started, or it holds a tile (13 R258). -/
def MtxJob.mustRun (j : MtxJob) : Bool :=
  !j.isFree && (j.st != .queued || j.op.srcTile.isSome ||
    (match j.op with
      | .zstore _ dst _ _ _ _ _ _ _ fill => fill && (dropTile dst).isSome
      | _ => false))
/-- The jobs of a task that are withdrawn: those after the last one that has to run, so that the order of R242 stands (log 69); releases
that they do not hold back stay. -/
def withdrawnOf (js : List MtxJob) : List MtxJob := (js.reverse.takeWhile fun j => !j.mustRun).reverse.dropWhile (·.isFree)
/-- A task on the cores from `b0` of a cluster is pre-empted: the halt tree stops every slot; the cores read the control block (R362); jobs
that have not begun are withdrawn. -/
def State.preempt (s : State) (x : Task) (cl b0 : Nat) : State :=
  let k := s.cluster cl
  let cj := k.copyq.filter fun j => j.owner.task = x.id && j.withdraws
  let mj := withdrawnOf (k.mtxq.filter fun j => j.owner.task = x.id)
  let k := { k with copyq := k.copyq.filter fun j => !(cj.any fun a => a.id = j.id) }
  let s := s.setCluster cl (freeHeads k (k.mtxq.filter fun j => !(mj.any fun a => a.id = j.id)))
  let s := (s.blockOfTask x).foldl (fun (s : State) c => s.updCore c fun k => { k with spill := k.spill.latch (s.part x.id.part).scb }) s
  s.updTask x.id fun x => { x with place := .leaving cl b0, held := (cj.map fun j => { j with st := .queued }, mj) }
/-- PREEMPT_TASK. -/
def execPreemptTask (t : TaskId) (s : State) : Out' :=
  match s.task? t with
  | none => .next s
  | some x =>
    match x.place, s.launchOf x with
    | .resident cl b0, some l => if x.mustGo || s.stallVictim l == some t.idx then .next (s.preempt x cl b0) else .next s
    | _, _ => .next s

/-! ## The image (22 R374) -/

/-- A stage that leaves nothing under way that must reach its target before the context is saved (16 R302, 20 R357). -/
def Stage.still (g : Stage) : Bool :=
  match g with
  | .coh o _ => match o.kind with
    | .ldv _ _ => true
    | _ => false
  | .dlWait _ | .dlRel _ _ _ | .dlFull _ _ | .ibRel _ _ _ _ _ | .barRel _ _ _ _ _ | .phRel _ _ | .sampler _ | .second => false
  | _ => true
def Thread.still (t : Thread) : Bool :=
  t.parkDue.isNone && (t.gang.map fun g => g.queue.isEmpty).getD true && (t.pend.map fun p => p.stage.still).getD true
/-- The spill engine may begin: drains, jobs, effects and requests are done. -/
def State.settled (s : State) (x : Task) (cl : Nat) : Bool :=
  let cs := s.blockOfTask x
  cs.all (fun c => (s.core c).threads.all fun e => e.2.still) && !(s.cluster cl).hasJobs x.id && s.drained x cs cl
  && !(s.cluster cl).smpq.any fun r => cs.contains r.thread.core
/-- A gang member whose instruction waits: it has been counted, and a follower will be given it once more (R372). -/
def Gang.back (g : Gang) : Gang := { g with queue := g.last.toList ++ g.queue, last := none }
/-- A thread's context as it is saved: one that waits goes back to its instruction (R372). -/
def saveThr (t : Thread) : Thread :=
  let x := t.dropPend
  let t : Thread := match t.pend with
    | some p =>
      { x with pc := p.ipc, regs := p.regs, sticky := p.sticky, mode := p.mode, arrive := .again,
               gang := x.gang.map fun (g : Gang) => { (if g.idx = 0 then g else g.back) with redo := true } }
    | none => x
  { t with
      skip := 0, arrive := if t.arrive = .restart then .plain else t.arrive, line := none, refetch := none, pref := none, wake := none,
      ridgeWait := false, sigRead := none, sig := { t.sig with valid := false }, region := { t.region with inside := false } }
def State.ctxOf (s : State) (c : Nat) : CoreCtx :=
  let k := s.core c
  { threads := k.threads.map fun e => (e.1, saveThr e.2), tiles := k.tiles, inbox := k.inbox, ctab := k.ctab, ctabhi := k.ctabhi, queue := k.queue,
    bank0 := k.bank0, bank1 := k.bank1, sram := k.sram, observed := k.observed, land := k.land,
    poison := (s.sramPoison.filter fun e => e.1 == c).map fun e => e.2 }
def imageSize (cores sp on zn : Nat) : Nat := 4096 + cores * (65536 + 4096 + sp * 65536) + 4096 + 65536 * on + 131072 * zn
def freeByte (k i : Nat) : Byte := byte (packBits ((List.range 8).map fun b => Config.freeBit (k + 8 * i + b)))
/-- The contexts go to the shadow banks: the active banks are cleared, the engine's resources become free. -/
def State.saveTask (s : State) (x : Task) (cl b0 va : Nat) : State :=
  let cs := s.blockOfTask x
  let s := { s with sramPoison := cs.foldl (fun l c => latePoison c (s.core c) l) s.sramPoison }
  let s := cs.foldl (fun (s : State) c => s.updCore c fun k => k.landLate.landCtab) s
  let s := s.settle (((s.posted.filter fun w => (w.dest.map cs.contains).getD false).map fun w => w.id + 1).foldl Nat.max 0)
  let k := s.cluster cl
  let os := x.onames.map (·.2) ++ x.held.2.flatMap fun j => j.freed.1
  let zs := x.znames.map (·.2) ++ x.held.2.flatMap fun j => j.freed.2
  let n := imageSize cs.length (s.core (8 * cl + b0)).sp x.onames.length x.znames.length
  let img : Image :=
    { base := 8 * cl + b0, va := va, stamp := s.free, obad := k.obad.filter fun e => os.contains e.1, cores := cs.map s.ctxOf, oslots := os.map fun o => (o, k.oslots.getD o []),
      accs := zs.map fun z => (z, k.accs.getD z .reset), copyJobs := x.held.1, mtxJobs := x.held.2, bytes := n }
  let s := s.setCluster cl { k with oslots := os.foldl (fun o e => o.del e) k.oslots, obad := k.obad.filter fun e => !os.contains e.1, accs := zs.foldl (fun o e => o.del e) k.accs }
  let s := { s with free := s.free + 8 * n, sramPoison := s.sramPoison.filter fun e => !cs.contains e.1 }
  let s := cs.foldl (fun (s : State) c => s.clearCore c x.id.part) s
  s.updTask x.id fun x => { x with image := some img, held := ([], []) }
/-- Every core of a task being saved shows its spill. -/
def State.beginSpill (s : State) (cs : List Nat) (x : Spill) : State := cs.foldl (fun (s : State) c => s.updCore c fun k => { k with spill := x }) s
/-- The control block as the first core of a task read it. -/
def State.spillAt (s : State) (cl b0 : Nat) : Spill := (s.core (8 * cl + b0)).spill
/-- The image fits a free frame of its partition. -/
def State.frameFor (s : State) (x : Task) (cl b0 : Nat) : Option Nat :=
  let sp := s.spillAt cl b0
  let n := imageSize (s.blockOfTask x).length (s.core (8 * cl + b0)).sp x.onames.length x.znames.length
  if n ≤ sp.framemb * 2 ^ 20 then sp.freeFrame (s.part x.id.part) else none
/-- SPILL_START. -/
def execSpillStart (t : TaskId) (s : State) : Out' :=
  match s.task? t with
  | none => .next s
  | some x =>
    match x.place, x.image with
    | .leaving cl b0, none =>
      if !s.settled x cl then .next s
      else
        match s.frameFor x cl b0 with
        | none => .next s
        | some f =>
          let cs := s.blockOfTask x
          let sp := s.spillAt cl b0
          let s := (s.saveTask x cl b0 (sp.frameAddr f 0)).updPart t.part fun p => { p with frames := addNew p.frames f }
          .next (s.beginSpill cs { sp with state := 1, cause := 0, frame := f, offset := 0, task := some t }).vtJoin
    | _, _ => .next s
/-- The first 4 KiB part from `off` on that the spill engine may not write. -/
def State.badPart (s : State) (p va off bytes : Nat) : Option Nat :=
  ((List.range ((bytes - off) / 4096)).map fun j => off + 4096 * j).find? fun o =>
    match (s.cpAccess p .store false (va + o) 4096).1 with
    | .inl _ => false
    | .inr _ => true
/-- The parts from `off` to `fin` written. -/
def State.writeParts (s : State) (p va stamp off fin : Nat) : State :=
  ((List.range ((fin - off) / 4096)).map fun j => off + 4096 * j).foldl (fun (s : State) o =>
    (s.cpWrite p (va + o) ((List.range 4096).map fun i => freeByte stamp (o + i))).1) s
/-- The spill under way of a task: first core, status, image. -/
def State.spillOf (s : State) (t : TaskId) : Option (Task × Nat × Spill × Image) :=
  (s.task? t).bind fun x =>
    match x.place, x.image with
    | .leaving cl b0, some i => some (x, 8 * cl + b0, s.spillAt cl b0, i)
    | _, _ => none
/-- SPILL_STOP: at the first part that may not be written, or for want of a frame. -/
def execSpillStop (t : TaskId) (s : State) : Out' :=
  match s.spillOf t with
  | some (_, c, sp, i) =>
    if sp.state != 1 then .next s
    else
      match s.badPart t.part i.va sp.offset i.bytes with
      | none => .next s
      | some o =>
        let s := s.writeParts t.part i.va i.stamp sp.offset o
        let s := (s.cpAccess t.part .store false (i.va + o) 4096).2
        let x : Spill := { sp with state := 2, cause := 0x90, offset := o }
        .next ((s.setSpill (some t) x).spillRecord c x (w64 (i.va + o))).applyDeferred
  | none =>
    match s.task? t with
    | none => .next s
    | some x =>
      match x.place, x.image with
      | .leaving cl b0, none =>
        if s.settled x cl && (s.frameFor x cl b0).isNone then
          let cs := s.blockOfTask x
          let sp : Spill := { s.spillAt cl b0 with state := 2, cause := 0x91, frame := 0, offset := 0, task := some t }
          .next (((s.saveTask x cl b0 0).beginSpill cs sp).spillRecord (8 * cl + b0) sp 0).applyDeferred.vtJoin
        else .next s
      | _, _ => .next s
/-- SPILL_END: the whole image is written; the cores are idle and the task waits for a placement. A run that R60 has freed is kept. -/
def execSpillEnd (t : TaskId) (s : State) : Out' :=
  match s.spillOf t with
  | none => .next s
  | some (x, c, sp, i) =>
    if sp.state != 1 || (s.badPart t.part i.va sp.offset i.bytes).isSome then .next s
    else
      let s := (s.writeParts t.part i.va i.stamp sp.offset i.bytes).setSpill (some t) .reset
      let s := s.updTask t fun x => { x with place := .saved sp.frame }
      .next (s.updLaunch t.part t.lid fun l =>
        { l with preempted := addNew l.preempted t.idx, kept := if x.mustGo then l.kept else addNew l.kept c }).vtJoin

/-! ## Resuming (22 R377) -/

/-- The cause with which the fill of an image faults its task: a failed read, or a broken check. -/
def State.fillFault (s : State) (p : Nat) (i : Image) : Option Byte :=
  match (s.cpAccess p .load false i.va i.bytes).1 with
  | .inr c => some c
  | .inl pgs => if (List.range i.bytes).all fun o => memByte s.mem (paOf pgs (i.va + o)) == freeByte i.stamp o then none else some 0x80
/-- A number renamed from an old one to a new one. -/
def renum (m : List (Nat × Nat)) (n : Nat) : Nat := (assocGet m n).getD n
def MtxOp.rename (os zs : List (Nat × Nat)) (op : MtxOp) : MtxOp :=
  match op with
  | .oload o src st d rb r a => .oload (renum os o) src st d rb r a
  | .mma z a b m f q c ct ch rg => .mma (renum zs z) (renum os a) (renum os b) m f q c ct ch rg
  | .zclear z i => .zclear (renum zs z) i
  | .zstore z d st r f sat rm ft rel fi => .zstore (renum zs z) d st r f sat rm ft rel fi
  | .zload z src st r f l ft a => .zload (renum zs z) src st r f l ft a
  | .mcheck z t => .mcheck (renum zs z) t
  | .free o z => .free (o.map (renum os)) (z.map (renum zs))
/-- An owner whose thread now sits on another core. -/
def Owner.moved (base dst : Nat) (o : Owner) : Owner := { o with thread := ⟨dst + (o.thread.core - base), o.thread.slot⟩ }
/-- What the message unit keeps for the threads of a task moves with them. -/
def State.moveMessages (s : State) (t : TaskId) (base dst : Nat) : State :=
  let mv (x : ThreadId) : ThreadId := ⟨dst + (x.core - base), x.slot⟩
  let pl (x : Place) : Place :=
    match x with
    | .sp c o => .sp (dst + (c - base)) o
    | x => x
  let ps (x : Post) : Post := if x.task = t then { x with thread := mv x.thread, place := pl x.place } else x
  s.updPart t.part fun p =>
    { p with posts := p.posts.map ps, rx := p.rx.map fun m => { m with post := m.post.map ps },
             tx := p.tx.map fun x => if x.task = t then { x with thread := mv x.thread, place := pl x.place } else x }
/-- A core takes over a saved context. -/
def restoreCore (sp p b : Nat) (t : TaskId) (x : CoreCtx) (k : Core) : Core :=
  { freshFor sp p b t k with
      threads := x.threads, tiles := x.tiles, tiles0 := x.tiles, inbox := x.inbox, ctab := x.ctab, ctabhi := x.ctabhi, queue := x.queue,
      bank0 := x.bank0, bank1 := x.bank1, sram := x.sram, observed := x.observed, land := x.land }
def State.restoreTask (s : State) (l : Launch) (x : Task) (i : Image) (cl b0 : Nat) : State :=
  let dst := 8 * cl + b0
  let os := i.oslots.map (·.1) |>.zip (s.freeSlots cl)
  let zs := i.accs.map (·.1) |>.zip (s.freeAccs cl)
  let s := s.dropFetch cl (blockCores cl b0 i.cores.length)
  let s := ((List.range i.cores.length).zip i.cores).foldl (fun (s : State) e =>
    { s with sramPoison := s.sramPoison.filter (fun (y : Nat × Nat) => y.1 != dst + e.1) ++ e.2.poison.map fun w => (dst + e.1, w) }.updCore (dst + e.1)
      (restoreCore (s.spOf l) l.part e.1 x.id e.2)) s
  let s := s.updCluster cl fun k =>
    { k with
        oslots := i.oslots.foldl (fun o e => o.put (renum os e.1) e.2) k.oslots, obad := k.obad ++ i.obad.map (fun e => (renum os e.1, e.2)), accs := i.accs.foldl (fun o e => o.put (renum zs e.1) e.2) k.accs,
        copyq := k.copyq ++ i.copyJobs.map fun j => { j with owner := j.owner.moved i.base dst, before := [] },
        mtxq := k.mtxq ++ i.mtxJobs.map fun j => { j with owner := j.owner.moved i.base dst, before := [], op := j.op.rename os zs } }
  let s := s.moveMessages x.id i.base dst
  s.updTask x.id fun x =>
    { x with place := .resident cl b0, image := none, onames := x.onames.map fun e => (e.1, renum os e.2),
             znames := x.znames.map fun e => (e.1, renum zs e.2) }
/-- The fill of a task's image is complete: its frame is free, and the cores go on with the task, or it faults. A task that a slot-table write
has unbound meanwhile is pre-empted at once (03 R62, R63). -/
def State.endFill (s : State) (l : Launch) (x : Task) (i : Image) (cl b0 f : Nat) : State :=
  let s := (s.cpRead x.id.part i.va i.bytes).2
  let bad := s.fillFault x.id.part i
  let s := (s.freeFrame x.id f).setSpill (some x.id) .reset
  match bad with
  | some cause => (s.faultTask x.id cause).updTask x.id fun x => { x with place := .retired, image := none, onames := [], znames := [] }
  | none =>
    let s := s.restoreTask l x i cl b0
    match s.task? x.id with
    | some x => if x.mustGo then s.preempt x cl b0 else s
    | none => s
/-- RESUME_FILL: the task that dispatch places on the cores from `b0` of a cluster begins its fill there, STATE 3; at the next such event,
once the slots and accumulators of its image are free, its fill completes. -/
def execResumeFill (t : TaskId) (c : ClusterN) (b0 : Fin 8) (s : State) : Out' :=
  let s := s.vtJoin
  match s.task? t, s.launch? t.part t.lid with
  | some x, some l =>
    match x.place, x.image with
    | .saved f, some i =>
      if (s.chosen.map fun a => (a.part, a.lid)) != some (t.part, t.lid) || s.nextAt l c.val b0.val != some t.idx || !s.fitsNext l c.val b0.val then .next s
      else
        let sp : Spill := { (Spill.reset.latch (s.part t.part).scb) with state := 3, frame := f, task := some t }
        let s := s.beginSpill (blockCores c.val b0.val i.cores.length) sp
        let s := s.updLaunch t.part t.lid fun l => { l.take c.val b0.val with preempted := l.preempted.filter (· != t.idx) }
        .next (s.updTask t fun x => { x with place := .filling c.val b0.val f, mustGo := false })
    | .filling cl k f, some i =>
      .next (if cl = c.val && k = b0.val && s.freeFor i cl then (s.endFill l x i cl k f).applyDeferred.vtJoin else s)
    | _, _ => .next s
  | _, _ => .next s

end Sys2Proof.Machine
end

