-- ==== Sys2Proof/Machine/Messages.lean ====
section
/-! DEFINITION. Erasure-coded messages (18 R325 to R337): the message instructions and the events of the message units. -/

namespace Sys2Proof.Machine

/-! ## Events of the receiving unit (R328 to R330) -/

/-- FRAGMENT_RECEIVE: a whole fragment leaves a port's buffers: forwarded, or delivered. -/
def execFragmentReceive (q : Fin 12) (s : State) : Out' :=
  match (s.port q.val).takeFragment with
  | none => .next s
  | some (x, p) =>
    let s := s.setPort q.val p
    let b := x.bytes
    if !atLastHop b then .next (s.forward b (field b 36 1 + 1) (q.val, x.vc) x.n)
    else
      let s := s.owe (some (q.val, x.vc)) x.n
      .next (s.arrive x)
/-- The deadline of a message has passed with fewer than K fragments (R330). -/
def State.tooLate (s : State) (m : RxMsg) : Bool := decide (m.deadline < s.ptpMsg) && decide (m.frags.length < m.k)
/-- MESSAGE_COMPLETE: every byte of a matched message is performed. -/
def execMessageComplete (k : MsgKey) (s : State) : Out' :=
  match s.rx? k with
  | none => .next s
  | some m =>
    let all := (List.range m.k).all fun j => decide (m.len ≤ j * m.f) || m.got.contains j
    if m.post.isSome && all && !s.tooLate m && !s.awaits k && m.writes.all fun w => !s.posted.any fun x => x.id = w then
      let s := ((s.showRx m 1).closeRx m).count k.part fun c => { c with received := c.received + 1 }
      .next (if m.ackreq then s.sendAck m else s)
    else .next s
def State.countLost (s : State) (p : Nat) : State := s.count p fun c => { c with lost := c.lost + 1 }
/-- MESSAGE_DEADLINE_EXPIRY. -/
def execMessageDeadlineExpiry (k : MsgKey) (s : State) : Out' :=
  match s.rx? k with
  | none => .next s
  | some m =>
    if s.ptpMsg ≤ m.deadline || s.awaits k then .next s
    else
      match m.post with
      | some _ => .next (if s.tooLate m then ((s.showRx m 2).closeRx m).countLost k.part else s)
      | none => .next (((s.closeRx m).updPart k.part fun p => { p with lost := p.lost ++ [⟨k, m.lid, m.len, m.frags.length⟩] }).countLost k.part)
/-- SEND_FRAGMENTS_DEPARTED. -/
def execSendFragmentsDeparted (t : ThreadId) (seq : W32) (s : State) : Out' :=
  match s.tx? t seq with
  | some m => .next (if !m.ack && m.sent && m.left = 0 then s.finalSend m 1 else s)
  | none => .next s
/-- SEND_ACK_TIMEOUT. -/
def execSendAckTimeout (t : ThreadId) (seq : W32) (s : State) : Out' :=
  match s.tx? t seq with
  | some m => .next (if m.ack && decide (m.ackBy < s.ptpMsg) && !s.awaitsAck m then s.finalSend m 2 else s)
  | none => .next s

/-! ## FABRIC_SEND_DEPART (15 R277 move 9) -/

/-- The source bytes of a send: from a saved task's image where its scratchpad stands there. -/
def State.sendSource (s : State) (m : TxMsg) : Res (List Byte) :=
  let saved := (s.task? m.task).bind fun t => t.image
  match m.place, saved with
  | .sp c o, some i => .ok (memBytes (((i.cores[c - i.base]?).map fun k => k.sram).getD []) o m.len) s
  | _, _ =>
    let sh : Option (TaskId × W32) := m.shingle.map fun x => (x.1, ((s.task? m.task).map fun t => t.phase).getD x.2)
    (s.jobRead (clusterOf m.thread.core) m.id sh m.place m.va m.len false).andThen fun bs s => .ok (bs.map (·.1)) s
/-- The laying of the phase that the task has left is done (15 R293). -/
def State.sendGate (s : State) (m : TxMsg) : Bool :=
  match m.shingle, s.launch? m.task.part m.task.lid, s.task? m.task with
  | some _, some l, some t => decide (t.phase.toNat ≤ l.laid)
  | _, _, _ => true
/-- Fragments of a message: data, then repair. -/
def fragmentsOf (m : TxMsg) (src : List Byte) : List (List Byte) :=
  let pad := src ++ toBytes (m.k * m.f - src.length) 0
  let ds := (List.range m.k).map fun j => (pad.drop (j * m.f)).take m.f
  ds ++ (List.range m.m).map fun i => repairOf i m.f ds
/-- The oldest send whose fragments have not been formed. -/
def State.oldestSend (s : State) : Option TxMsg :=
  match s.parts.flatMap fun e => e.2.tx.filter fun m => !m.sent with
  | [] => none
  | m :: r => some (r.foldl (fun a b => if b.id < a.id then b else a) m)
def State.depart (s : State) (m : TxMsg) (up : List W32) (src : List Byte) : State :=
  let h (i : Nat) (w : W32) : FHdr :=
    { key := m.key, ackreq := m.ack, fidx := i, k := m.k, m := m.m, f := m.f, len := m.len, deadline := m.deadline, path := w.toNat }
  let fs := fragmentsOf m src
  let s := ((List.range fs.length).zip fs).foldl (fun (s : State) x =>
    let w := (up[x.1 % up.length]?).getD 0
    s.launchFragment ((h x.1 w).bytes ++ x.2) w.toNat (some (m.key.part, m.id))) s
  s.updPart m.key.part fun p => { p with tx := p.tx.map fun x => if x.id = m.id then { x with sent := true } else x }
/-- FABRIC_SEND_DEPART: the oldest send forms its fragments and queues them on its paths. -/
def execFabricSendDepart (s : State) : Out' :=
  match s.oldestSend with
  | none => .next s
  | some m =>
    if !s.beforeDone m.thread.core m.before || !s.sendGate m then .next s
    else
      let up := s.upPaths m.paths
      if up.isEmpty then .next (s.finalSend m 3)
      else
        match s.sendSource m with
        | .ok src t => .next (t.depart m up src)
        | _ => .next s

/-! ## The message instructions (R331 to R334) -/

structure MsgCtl where
  len : Nat
  prof : Nat
  chan : Nat
  peer : Nat
  zero : Bool
  deriving DecidableEq, Repr
def msgCtl (c : W64) : MsgCtl :=
  let n := c.toNat
  ⟨bits n 32 32, bits n 24 3, bits n 16 8, bits n 0 9, bits n 27 5 == 0 && bits n 9 7 == 0⟩
def badMsg {α : Type} (s : State) (reason : Nat) : Res α := fail s 0x02 (w64 (2 + 256 * reason))
/-- Handles still readable after one more submission, or none while 16 are pending; one that became final in this cycle still counts (06 R108). -/
def roomForHandle (hs : List Handle) (seq : W32) (cycle : Nat) : Option (List Handle) :=
  if 16 ≤ (hs.filter fun h => h.st.code = 0 || decide (cycle ≤ h.doneAt)).length then none
  else some (hs.filter fun h => h.st.code = 0 || decide ((seq - h.seq).toNat < 16))
/-- A submission takes effect: a new handle, D, ESN, the stored result. -/
def State.newHandle (s : State) (hs : List Handle) (seq : W32) (recv : Bool) (st : MsgStatus) (d : SReg) : State :=
  let ident := jobIdent (bnat recv) s.cur.core s.cur.slot seq
  let s := s.updTh fun t => { t with msgSeq := seq, handles := hs ++ [⟨ident, seq, recv, st, 0⟩] }
  (s.setEffect s.me .fabric ident).deliver s.me (.tag d ident)
/-- The paths of the set that a profile names for a destination. -/
def Group.pathsFor (g : Group) (psel peer : Nat) : Option (List W32) :=
  match (if psel = 0 then g.paths.find? fun e => e.1 = peer else g.paths[psel - 1]?) with
  | some (d, ps) => if d = peer then some ps else none
  | none => none
/-- The next MSEQ of a launch for a destination and channel. -/
def Launch.nextMseq (l : Launch) (peer chan : Nat) : Nat := ((assocGet l.mseq (peer, chan)).getD 0 + 1) % 2 ^ 32
/-- A send enters the outbound unit. -/
def State.submitSend (s : State) (l : Launch) (g : Group) (f : Profile) (ps : List W32) (c : MsgCtl) (ack : Bool) (tile : Option Nat) (p : Place)
    (va : Nat) (d : SReg) : Res Unit :=
  let seq := s.th.msgSeq + 1
  match roomForHandle s.th.handles seq s.cycle with
  | none => .pass s
  | some hs =>
    let n := l.nextMseq c.peer c.chan
    let due := s.ptpMsg + 1000 * f.deadline
    let (id, s) := s.fresh
    let m : TxMsg :=
      { id := id, thread := s.me, task := (s.myCore.task).getD ⟨s.myPart, 0, 0⟩, seq := seq,
        key := ⟨s.myPart, g.id.toNat, g.rank, c.peer, c.chan, n⟩, ack := ack, len := c.len, k := f.k, m := f.m, f := 64 * f.fsize, paths := ps,
        deadline := due, ackBy := due + 1000 * f.deadline, tile := tile, va := va, home := clusterOf s.cur.core, place := p, shingle := s.myShingle, before := s.myEntries,
        sent := false, left := f.k + f.m, final := false }
    let s := match tile with
      | some t => s.setTile s.cur.core t { s.tile t with st := .draining }
      | none => s
    let s := s.updLaunch l.part l.lid fun l => { l with mseq := assocSet l.mseq (c.peer, c.chan) n }
    let s := s.updPart s.myPart fun q => { q with tx := q.tx ++ [m] }
    done (s.newHandle hs seq false ⟨0, c.len, 0, 0, if tile.isSome then 0 else w64 va⟩ d)
def execMsgsend (x : MSend) (s : State) : Out' :=
  guarded x.h s fun s =>
    match s.effect s.me .fabric with
    | some v => done (s.deliver s.me (.tag x.d v))
    | none =>
      let c := msgCtl (s.rs x.b)
      if !c.zero then badMsg s 5
      else
        match s.myLaunch.bind fun l => l.group.map fun g => (l, g) with
        | none => badMsg s 2
        | some (l, g) =>
          if g.nrank ≤ c.peer || c.peer = g.rank then badMsg s 2
          else
            match l.profiles[c.prof]? with
            | none => badMsg s 1
            | some f =>
              if !f.valid then badMsg s 1
              else
                match g.pathsFor f.psel c.peer with
                | none => badMsg s 3
                | some ps =>
                  if c.len = 0 || 65536 < c.len || f.k * 64 * f.fsize < c.len then badMsg s 4
                  else
                    match x.a with
                    | .t r =>
                      let t := s.tile r.val
                      if t.size = 0 || 256 * t.size < c.len then badPos s 1
                      else if !s.tileIs s.cur.core r.val .ready then .pass s
                      else s.submitSend l g f ps c x.ack (some r.val) (.sp s.cur.core (256 * t.base)) (256 * t.base) x.d
                    | .s r =>
                      let a := s.rs r
                      (s.access s.agent a c.len .load false).andThen fun p s => s.submitSend l g f ps c x.ack none p a.toNat x.d
/-- A post whose message is lost completes at once, with what is known of it (R329, R334). -/
def State.postLost (s : State) (x : Post) (len frags : Nat) : State :=
  s.setMsg x.thread x.task x.seq fun st => { st with code := 2, len := len, frags := frags }
/-- A post reaches the inbound unit: its position may already have a message, or a lost one; an unexpected message whose deadline has passed is
lost (R329). Before the post closes a message, the fragments of it that have arrived in time are taken (log 32). -/
def State.enterPost (s : State) (l : Launch) (x : Post) : State :=
  let p := s.part s.myPart
  let key := (x.srank, x.chan, l.lid)
  let ahead := (p.posts.filter fun y => y.on l.lid x.srank x.chan).length
  let j := nthFree (ahead + 1) (p.matchedOf key)
  let g := (l.group.map fun g => g.id.toNat).getD 0
  let k : MsgKey := ⟨s.myPart, g, x.srank, (l.group.map fun g => g.rank).getD 0, x.chan, j⟩
  match p.lost.find? fun e => e.key = k && e.lid = l.lid with
  | some e => (s.updPart s.myPart fun p => { p.setMatched key j with lost := p.lost.filter fun y => !(y.key = k && y.lid = l.lid) }).postLost x e.len e.frags
  | none =>
    let here (s : State) : Option RxMsg := (s.part s.myPart).rx.find? fun m => m.key = k && m.lid = l.lid && m.post.isNone
    match here s with
    | some m =>
      if m.deadline < s.ptpMsg || x.maxlen < m.len then
        let s := s.takeMessage k
        let m := (here s).getD m
        if m.deadline < s.ptpMsg then
          (((s.closeRx m).updPart s.myPart fun p => p.setMatched key j).countLost s.myPart).postLost x m.len m.frags.length
        else s.matchRx m x
      else s.matchRx m x
    | none => s.updPart s.myPart fun p => { p with posts := p.posts ++ [x] }
def execMsgpost (x : DAB) (s : State) : Out' :=
  guarded x.h s fun s =>
    match s.effect s.me .fabric with
    | some v => done (s.deliver s.me (.tag x.d v))
    | none =>
      let c := msgCtl (s.rs x.b)
      if !c.zero || c.prof != 0 then badMsg s 5
      else
        match s.myLaunch.bind fun l => l.group.map fun g => (l, g) with
        | none => badMsg s 2
        | some (l, g) =>
          if g.nrank ≤ c.peer || c.peer = g.rank then badMsg s 2
          else if c.len = 0 || 65536 < c.len then badMsg s 4
          else
            let a := s.rs x.a
            (s.access s.agent a c.len .store false).andThen fun p s =>
            let seq := s.th.msgSeq + 1
            match roomForHandle s.th.handles seq s.cycle with
            | none => .pass s
            | some hs =>
              let post : Post := ⟨s.me, (s.myCore.task).getD ⟨s.myPart, 0, 0⟩, seq, c.peer, c.chan, c.len, a.toNat, p⟩
              done ((s.newHandle hs seq true ⟨0, 0, 0, 0, a⟩ x.d).enterPost l post)
def State.handleOf (s : State) (id : W64) : Option Handle := s.th.handles.find? fun h => h.ident = id
/-- The status that a report gives, with its acquire. -/
def Handle.acq (h : Handle) : Option Scope := if h.recv && h.st.code = 1 then some .system else none
def execMsgtest (x : DA) (s : State) : Out' :=
  finish <|
    match s.handleOf (s.rs x.a) with
    | none => done (s.ws x.d 5)
    | some h => done (s.deliver s.me { Result.none with s := [(x.d, h.st.word)], acq := h.acq })
def execMsgwait (x : DA) (s : State) : Out' :=
  finish <|
    match s.handleOf (s.rs x.a) with
    | none => done (s.ws x.d 5)
    | some h =>
      if h.st.code = 0 || decide (s.cycle ≤ h.doneAt) then .pass s
      else
        let s := s.deliver s.me { Result.none with s := [(x.d, h.st.word)], acq := h.acq }
        if h.st.code = 2 then
          let s := s.trapAfter s.me s.cur.link 0x60 h.st.addr (w64 (h.seq.toNat + 2 ^ 32 * h.st.frags))
          done { s with cur := { s.cur with fate := .trapped } }
        else done s
/-- The post of a handle that is not matched yet goes. -/
def State.cancel (s : State) (h : Handle) : State :=
  let p := s.part s.myPart
  if h.recv && h.st.code = 0 && p.posts.any fun y => y.thread = s.me && y.seq = h.seq then
    let s := s.setPart s.myPart { p with posts := p.posts.filter fun y => !(y.thread = s.me && y.seq = h.seq) }
    s.updTh fun t => { t with handles := t.handles.map fun k => if k.ident = h.ident then { k with st := { k.st with code := 7 } } else k }
  else s
def execMsgcancel (x : DA) (s : State) : Out' :=
  finish <|
    match s.effect s.me .fabric with
    | some v => done (s.deliver s.me (.tag x.d v))
    | none =>
      let id := s.rs x.a
      let s := match s.handleOf id with
        | some h => s.cancel h
        | none => s
      let v := ((s.handleOf id).map fun h => h.st.word).getD 5
      done ((s.setEffect s.me .fabric v).deliver s.me { Result.tag x.d v with acq := (s.handleOf id).bind fun h => h.acq })

end Sys2Proof.Machine
end

