-- ==== Sys2Proof/Machine/Registers.lean ====
section
/-! DEFINITION. Fetch fills (04 R73), host and firmware register writes (00 R4, 02 R34, 03 R57, 10 R209, 13 R256, 15 R295, 18 R337, 22 R362),
front-port frames (10 R209 to R211), tenant reset (24 R387, R388). -/

namespace Sys2Proof.Machine

/-- FETCH_FILL: the line at a physical address goes into the L0 of every requester, and its entry is freed; a line that was asked for through a
memory-side page does not pass through L2 (08 R157). -/
def execFetchFill (c : ClusterN) (line : Nat) (s : State) : Out' :=
  match (s.cluster c.val).fmb.find? fun e => e.pa = line with
  | none => .next s
  | some e =>
    let img := s.lineAt e.pa
    let s := if e.mside then s else s.l2Touch e.pa false
    let s := s.updCluster c.val fun k => { k with fmb := k.fmb.filter fun x => x.pa != e.pa }
    .next (e.reqs.foldl (fun (s : State) r => s.updCore r.1 fun k => { k with l0 := l0Put k.l0 r.2 img s.cycle }) s)

/-! ## Register writes -/

/-- A host write of a register of a partition's function; while the partition is being reset it is discarded (24 R387). -/
def State.hostWrite (s : State) (p : Nat) (f : Partition → Partition) : State := if (s.part p).resetting then s else s.updPart p f
/-- A word of the supervisor control block. -/
def Scb.write (x : Scb) (word : Nat) (v : W64) : Scb :=
  let n := v.toNat
  match word with
  | 0 => { x with savebase := w64 (bits n 12 40 * 4096), en := bit n 6 }
  | 1 => { x with nframe := bits n 16 16, framemb := bits n 32 16 }
  | 4 => { x with vec := w64 (bits n 6 46 * 64) }
  | _ => x
/-- A host write of 8 aligned bytes of device memory enters the posted queue (15 R276). -/
def State.hostStore (s : State) (pa : Nat) (ms : Bool) (v : W64) : State :=
  if pa % 8 != 0 || hbmEnd ≤ pa then s
  else
    let (id, s) := s.fresh
    { s with posted := s.posted ++ [⟨id, none, cellsAt pa (toBytes 8 v.toNat), ms, none⟩] }
/-- REGISTER_WRITE. -/
def execRegisterWrite (r : RegTarget) (v : W64) (s : State) : Out' :=
  let n := v.toNat
  match r with
  | .qbase p q => s.onQueue p.val q.val fun s => if ((s.part p.val).queue q.val).st = .disabled then s.updQueue p.val q.val fun k => { k with qbase := v } else s
  | .qctl p q => s.onQueue p.val q.val fun s => s.writeQctl p.val q.val v
  | .fairw p => .next (s.updPart p.val fun x => { x with fairw := bits n 0 16 })
  | .mxbud c => .next (s.updCluster c.val fun k => { k with winlog := bits n 40 4, budget := bits n 0 32 })
  | .station p i => .next (s.updPart p.val fun x => { x with stations := x.stations.put i.val (v.extractLsb' 0 48) })
  | .scb p w =>
    if w = 2 then execHostXlinv p v s else .next (s.hostWrite p.val fun x => { x with scb := x.scb.write w.val v })
  | .retainPart k => .next { s.unretain k.val with retain := s.retain.put k.val { s.retain.getD k.val .reset with part := bits n 20 4 } }
  | .power => .next { s with mgmt := { s.mgmt with power := v.extractLsb' 48 16, temp := v.extractLsb' 40 8 } }
  | .memory pa ms => .next (s.hostStore pa ms v)
  | .ptpServo =>
    let z := toS 64 n
    .next (if -200 ≤ z ∧ z ≤ 200 then { s with mgmt := { s.mgmt with ppm := z } } else s)
  | .ptpStep =>
    .next (if s.mgmt.stepped || s.parts.any fun e => e.2.desc.valid then s
      else { s with ptp := s.ptp + n * ptpUnit, mgmt := { s.mgmt with stepped := true } })
/-- RPCTL_WRITE (15 R295, 00 R5). -/
def execRpctlWrite (p : PartN) (v : W64) (s : State) : Out' :=
  .next (if v.getLsbD 0 && !(s.part p.val).desc.expert then s else s.hostWrite p.val fun x => { x with lastwin := v.getLsbD 0 })
/-- A word of a flow rule. -/
def FlowRule.write (r : FlowRule) (word : Nat) (v : W64) : FlowRule :=
  let n := v.toNat
  match word with
  | 0 => { r with cluster := bits n 25 7, core := bits n 22 3, lslot := bits n 20 2, ports := BitVec.ofNat 2 (bits n 16 2), en := bit n 0,
                  hits := 0, drops := 0 }
  | 1 => r
  | 2 => { r with hits := 0, drops := 0 }
  | _ => { r with etype := bits n 48 16, uport := bits n 32 16, vid := bits n 20 12, vlanen := bit n 19, hits := 0, drops := 0 }
/-- FLOW_RULE_WRITE (10 R209). -/
def execFlowRuleWrite (p : PartN) (r : Fin 32) (word : Fin 4) (v : W64) (s : State) : Out' :=
  .next (s.hostWrite p.val fun x => { x with flow := x.flow.put r.val ((x.flow.getD r.val .reset).write word.val v) })
/-- MSG_COUNTERS_CLEAR (18 R337). -/
def execMsgCountersClear (p : PartN) (s : State) : Out' := .next (s.hostWrite p.val fun x => { x with ctr := .reset })

/-! ## Front-port frames (10 R209 to R211) -/

/-- CRC-32 of IEEE 802.3, least significant bit first. -/
def crc32Bits : Nat → W32 → W32
  | 0, c => c
  | k + 1, c => crc32Bits k (if c.getLsbD 0 then (c >>> 1) ^^^ 0xEDB88320 else c >>> 1)
def crc32Loop : List Byte → Nat → Nat
  | [], c => c
  | b :: r, c => onNumeral (crc32Bits 8 (w32 c ^^^ b.zeroExtend 32)).toNat (crc32Loop r)
def crc32 (bs : List Byte) : W32 := ~~~(w32 (crc32Loop bs (2 ^ 32 - 1)))
/-- A big-endian number in a frame. -/
def beField (bs : List Byte) (off n : Nat) : Nat := ofBytes ((bs.drop off).take n).reverse
/-- What the flow rules look at. -/
structure FrameInfo where
  dst : BitVec 48
  tagged : Bool
  vid : Nat
  etype : Nat
  uport : Option Nat
  deriving DecidableEq, Repr
def frameInfo (f : List Byte) : FrameInfo :=
  let tagged := beField f 12 2 == 0x8100
  let o := if tagged then 18 else 14
  let et := beField f (o - 2) 2
  let up :=
    if et = 0x0800 && beField f (o + 9) 1 = 17 && beField f (o + 6) 2 % 8192 = 0 then some (beField f (o + 4 * (beField f o 1 % 16) + 2) 2)
    else if et = 0x86DD && beField f (o + 6) 1 = 17 then some (beField f (o + 42) 2) else none
  ⟨BitVec.ofNat 48 (beField f 0 6), tagged, if tagged then beField f 14 2 % 4096 else 0, et, up⟩
def FlowRule.matches (r : FlowRule) (port : Nat) (i : FrameInfo) : Bool :=
  r.en && r.ports.getLsbD port && (!r.vlanen || (i.tagged && i.vid == r.vid)) && (r.etype == 0 || r.etype == i.etype)
  && (r.uport == 0 || i.uport == some r.uport)
/-- The armed entries behind the first EMPTY one, with that one: the entries before it are discarded. -/
def firstEmpty (tiles : Tab Tile) : List Nat → Option (Nat × List Nat)
  | [] => none
  | t :: r =>
    let x := tiles.getD t .reset
    if x.size != 0 && x.st == .empty then some (t, r) else firstEmpty tiles r
/-- The landing header (R211). -/
def landingHeader (port rule flen seq : Nat) (tagged trunc : Bool) (ns : Nat) : List Byte :=
  toBytes 4 (port + 4 * bnat tagged + 8 * bnat trunc + 2 ^ 16 * (flen % 65536)) ++ toBytes 12 rule ++ toBytes 4 seq ++ toBytes 2 0
    ++ toBytes 4 (ns % 1000000000) ++ toBytes 6 (ns / 1000000000)
/-- The core of a rule holds a task of the partition that is not pre-empted. -/
def State.landable (s : State) (p c : Nat) : Bool :=
  match s.taskOn c with
  | some t => t.id.part == p && (match t.place with
      | .resident _ _ => true
      | _ => false)
  | none => false
/-- A frame fills entry `t` of its core, where a `tdef` of the cycle has not redefined it, and its bytes enter the posted queue (R210, 15 R276);
SIZE and BASE are those that the entry had as the cycle began. -/
def State.fillFrame (s : State) (f : RxFrame) (k : TaskId) (t : Nat) : State :=
  let l := (s.core f.core).land.getD f.lslot ⟨[], 0⟩
  let x := (s.core f.core).tiles0.getD t .reset
  let n := Nat.min f.bytes.length (256 * x.size - 32)
  let h := landingHeader f.port f.rule f.bytes.length ((l.seq + 1).toNat) f.tagged (decide (n < f.bytes.length)) f.ns
  let s := (s.updCore f.core fun k => { k with land := k.land.put f.lslot { l with seq := l.seq + 1 } }).claimTile f.core t (32 + n)
  let (id, s) := s.fresh
  { s with posted := s.posted ++ [⟨id, some f.core, cellsAt (256 * x.base) (h ++ f.bytes.take n), false, some ⟨k, t, f.part, f.rule⟩⟩] }
def State.dropFrame (s : State) (f : RxFrame) : State :=
  s.updPart f.part fun x =>
    let r := x.flow.getD f.rule .reset
    { x with flow := x.flow.put f.rule { r with drops := r.drops + 1 } }
/-- A frame as the cycle ends: it takes the first armed entry that was EMPTY as the cycle began. One that a slot's fill or a claim has taken in
the cycle it waits for (08 R161). -/
def State.landFrame (s : State) (f : RxFrame) : State :=
  let k := s.core f.core
  match (if s.landable f.part f.core then k.task else none) with
  | none => s.dropFrame f
  | some i =>
    let try' (t : Nat) (s : State) : State :=
      if s.claimFree f.core t then s.fillFrame f i t else { s with frames := s.frames ++ [{ f with tile := some (i, t) }] }
    match f.tile with
    | some (i', t) => if i' = i then try' t s else s.dropFrame f
    | none =>
      let l := k.land.getD f.lslot ⟨[], 0⟩
      match firstEmpty k.tiles0 l.arms with
      | none => (s.updCore f.core fun k => { k with land := k.land.put f.lslot { l with arms := [] } }).dropFrame f
      | some (t, rest) => try' t (s.updCore f.core fun k => { k with land := k.land.put f.lslot { l with arms := rest } })
/-- Every frame that has been taken, in the order of arrival. -/
def State.landFrames (s : State) : State := s.frames.foldl State.landFrame { s with frames := [] }
/-- FRAME_RECEIVE: the bytes run from the destination address to the FCS. A frame without room for its addresses, EtherType and FCS is dropped,
a shorter one than Ethernet's least length is received (log 74), and one longer than the 9216 bytes of R212 is not. -/
def execFrameReceive (port : Fin 2) (bytes : List Byte) (s : State) : Out' :=
  let f := bytes.take (bytes.length - 4)
  if bytes.length < 18 || 9216 < f.length || field bytes (bytes.length - 4) 4 != (crc32 f).toNat then .next s
  else
    let i := frameInfo f
    if (f.headD 0).getLsbD 0 then .next s
    else
      match s.parts.find? fun e => e.2.stations.any fun a => a.2 == i.dst with
      | none => .next s
      | some (p, x) =>
        match x.flow.find? fun e => e.2.matches port.val i with
        | none => .next s
        | some (k, r) =>
          let x : RxFrame := ⟨p, k, port.val, 8 * r.cluster + r.core, r.lslot, f, i.tagged, s.ptpNs - Config.stampNs port.val, none⟩
          .next { s with frames := s.frames ++ [x] }

/-! ## Tenant reset (24 R387, R388) -/

/-- A request for a partition; one whose reset is in progress already satisfies it. -/
def State.requestReset (s : State) (p : Nat) : State :=
  if (s.part p).resetting then s
  else { s with mgmt := { s.mgmt with resets := s.mgmt.resets ++ [p] } }.updPart p fun x => { x with resetting := true }
/-- TRST_GO: a host write of TRST. -/
def execTrstGo (v : W64) (s : State) : Out' :=
  let p := bits v.toNat 16 4
  let s := { s with mgmt := { s.mgmt with trstPart := p } }
  .next (if v.getLsbD 0 then s.requestReset p else s)
/-- `TRST` as the host reads it: BUSY from a request until its reset has ended. -/
def State.trst (s : State) : W64 := w64 (2 ^ 16 * s.mgmt.trstPart + 2 ^ 63 * bnat (!s.mgmt.resets.isEmpty))
def QState.code (x : QState) : Nat :=
  match x with
  | .disabled => 0 | .active => 1 | .draining => 2 | .aborting => 3
/-- A word of a queue's register block as the host reads it (02 R34); zero for a queue that does not exist (02 R33); STATE reads DISABLED while
the partition is being reset (R388). -/
def State.queueWord (s : State) (p q off : Nat) : W64 :=
  let k := (s.part p).queue q
  if !(s.part p).hasQueue q then 0
  else
    match off with
    | 0x00 => k.qbase
    | 0x08 => w64 (bnat k.enable + 2 * bnat k.loc + 4 * bnat k.irqen + 8 * k.prio + 2 ^ 8 * k.qlog + 2 ^ 12 * k.tear + 2 ^ 16 * k.msix)
    | 0x10 => zext32 k.qwr
    | 0x18 => zext32 k.qrd
    | 0x20 => w64 ((if (s.part p).resetting then 0 else k.st.code) + 4 * bnat k.err + 2 ^ 8 * k.ecode + 2 ^ 16 * k.lastlid.toNat)
    | _ => 0
/-- Step 5: the launch-record ring is zeroed; records that no longer translate are not written. -/
def State.zeroRing (s : State) (p : Nat) : State :=
  (List.range (2 ^ (s.part p).desc.ringlog)).foldl (fun (s : State) i =>
    (s.cpWrite p ((s.part p).recAddr i) (toBytes 128 0)).1) s
/-- Steps 2 and 3: the queues, the device-side queue, the posts and the decode store. -/
def State.resetWork (s : State) (p : Nat) : State :=
  let s := (List.range 64).foldl (fun (s : State) q => s.abort p q) s
  s.updPart p fun x => { x with dq := [], posts := [], rx := [], lost := [], matched := [], tx := x.tx.filter fun m => m.sent && decide (0 < m.left) }
/-- Step 4: registers return to their reset values; what the cycle has still to bring to them, steps of `rset` and `unpin` and frames that wait to
land or to be written, goes with them. -/
def State.resetRegisters (s : State) (p : Nat) : State :=
  let s := s.updPart p fun x =>
    { x with flow := [], lastwin := false, ctr := .reset, faultLog := [], faultCount := 0, scb := .reset, xl := [], fairw := 1, vt := [], vtActive := [] }
  let mine (k : Nat) : Bool := (s.retain.getD k .reset).part == p
  let s := { s with retainSteps := s.retainSteps.filter fun x => !mine x.k, frames := s.frames.filter fun f => f.part != p,
                    posted := s.posted.filter fun w => !w.land.any fun (l : Landed) => l.part == p }
  (s.retain.filter fun e => e.2.part == p).foldl (fun (s : State) e =>
    { s.unretain e.1 with retain := s.retain.put e.1 { Retain.reset with part := p } }) s
/-- Step 6: cores that last ran a task of the partition have run no partition. -/
def State.forgetCores (s : State) (p : Nat) : State :=
  { s with cores := s.cores.map fun e => if e.2.lastPart = some p then (e.1, { e.2 with lastPart := none }) else e }
/-- TENANT_RESET_PERFORM: the oldest request, with the descriptor that the management core writes; one with VALID = 0 leaves no partition. -/
def execTenantResetPerform (v : BitVec 512) (s : State) : Out' :=
  match s.mgmt.resets with
  | [] => .next s
  | p :: r =>
    if (descOf v p).valid && !(descOf v p).ok then .next s
    else
      let s := ((((s.resetWork p).resetRegisters p).zeroRing p).forgetCores p)
      let s := { s with launches := s.launches.filter fun l => l.part != p, mgmt := { s.mgmt with resets := r } }
      let s := s.valid (descOf v p).valid
      .next (s.updPart p fun x => { x with desc := descOf v p, nextLid := 1, recent := [], effects := [], resetting := false })

end Sys2Proof.Machine
end

