-- ==== Sys2Proof/Machine/Sampler.lean ====
section
/-! DEFINITION. Random streams, the sampler and drawn instructions (20 R342 to R357). -/

namespace Sys2Proof.Machine

/-! ## Random streams (R342, R343) -/

/-- One of the eight rounds of a draw. -/
def drawRound (x : W64 × W64 × W64) : W64 × W64 × W64 :=
  let x0 := x.1 + (x.2.1 ^^^ x.2.2)
  let x0 := x0.rotateLeft 23 * 0x9E6F2B8D4C31A5E7
  let x1 := (x.2.1 ^^^ (x0 >>> 29)) * 0xD6B17A930F4EC25B
  (x0, x1, x.2.2 + 0xB5C38E216D9F4A71)
def drawRounds : Nat → W64 × W64 × W64 → W64 × W64 × W64
  | 0, x => x
  | k + 1, x => drawRounds k (drawRound x)
/-- The fixed function of (PEXT, CTR, stream, SEED). -/
def drawOf (pext : BitVec 16) (ctr : Nat) (stream seed : W64) : W64 :=
  let x := drawRounds 8 (w64 (pext.toNat * 2 ^ 48 + ctr), stream, seed)
  x.1 ^^^ x.2.1.rotateLeft 32
/-- `draw()` for a thread whose counter stands at `ctr`: the value and the counter after it; `none` for trap 0x20. -/
def State.drawAt (s : State) (t : ThreadId) (ctr : Nat) : Option (W64 × Nat) :=
  match (s.taskOn t.core).bind s.launchOf with
  | none => none
  | some l =>
    if l.cext = 0 then none
    else if 2 ^ 48 ≤ ctr && !(s.thr t).mode.rngrep then none
    else
      let c := if 2 ^ 48 ≤ ctr then 0 else ctr
      some (drawOf (s.part (s.partOf t.core t.slot)).desc.pext c (l.cbase + w64 (s.gIndex t)) l.seed, c + 1)
def execRand (x : DOnly) (s : State) : Out' :=
  guarded x.h s fun s =>
    match s.drawAt s.me s.th.ctr with
    | some (y, c) => done ((s.updTh fun t => { t with ctr := c }).ws x.d y)
    | none => fail s 0x20 0
/-- `k` draws in order. -/
def State.draws (s : State) (t : ThreadId) : Nat → Nat → Option (List W64 × Nat)
  | 0, c => some ([], c)
  | k + 1, c =>
    match s.drawAt t c with
    | none => none
    | some (y, c) => (State.draws s t k c).map fun r => (y :: r.1, r.2)
/-- The f32 value of the high 24 bits of a draw. -/
def drawF32 (y : W64) : W32 := w32 (fround fF32 .rne false false (.fin false (bits y.toNat 40 24) (-24))).1
def execVrand (x : VRnd) (s : State) : Out' :=
  finish <|
    let c := s.th.ctr
    if 2 ^ 48 - 32 < c && !s.mode.rngrep then fail s 0x20 0
    else
      match s.draws s.me 32 c with
      | none => fail s 0x20 0
      | some (ys, c) =>
        let v (j : Nat) : W32 := let y := (ys[j]?).getD 0; if x.f32 then drawF32 y else w32 y.toNat
        done ((s.updTh fun t => { t with ctr := c }).wv x.d (guardLanes (s.guard x.h) (s.rv x.d) v))
def execRtell (x : DOnly) (s : State) : Out' := finish (done (s.ws x.d (w64 s.th.ctr)))
def execRseek (x : DSI) (s : State) : Out' :=
  finish <|
    let v := (s.siZ x.a).toNat
    if 2 ^ 48 ≤ v then badPos s 1
    else done ((s.ws x.d (w64 s.th.ctr)).updTh fun t => { t with ctr := v })

/-! ## The sequence record (R345, R346) -/

/-- The record as a 2048-bit number, its fields, and its fields replaced. -/
abbrev SeqRec := BitVec 2048
def SeqRec.f (r : SeqRec) (lo w : Nat) : Nat := bits r.toNat lo w
def SeqRec.put (r : SeqRec) (lo w v : Nat) : SeqRec :=
  (r &&& ~~~(BitVec.ofNat 2048 ((2 ^ w - 1) * 2 ^ lo))) ||| BitVec.ofNat 2048 (v % 2 ^ w * 2 ^ lo)
def SeqRec.q (r : SeqRec) (n : Nat) : Nat := r.f (64 * n) 64
def SeqRec.la (r : SeqRec) : Nat := r.f 1024 64
def SeqRec.chunks (r : SeqRec) : Nat := r.f 1088 8
def SeqRec.flags (r : SeqRec) : Nat := r.f 1096 8
def SeqRec.wbase (r : SeqRec) : Nat := r.f 1152 32
def SeqRec.wsize (r : SeqRec) : Nat := r.f 1184 32
def SeqRec.en (r : SeqRec) : Bool := bit r.toNat 1216
def SeqRec.park (r : SeqRec) : Bool := bit r.toNat 1217
def SeqRec.caps (r : SeqRec) : Nat := r.f 1224 7
def SeqRec.obase (r : SeqRec) : Nat := r.f 1280 32
def SeqRec.osize (r : SeqRec) : Nat := r.f 1312 16
def SeqRec.ohead (r : SeqRec) : Nat := r.f 1344 32
def SeqRec.otail (r : SeqRec) : Nat := r.f 1376 32
def SeqRec.idbase (r : SeqRec) : Nat := r.f 1408 20
def SeqRec.bf16 (r : SeqRec) : Bool := bit r.toNat 1428
def SeqRec.ntm1 (r : SeqRec) : Nat := r.f 1432 4
def SeqRec.k (r : SeqRec) : Nat := r.f 1440 9
def SeqRec.v (r : SeqRec) : Nat := r.f 1472 32
def SeqRec.p (r : SeqRec) : Nat := r.f 1536 32
def SeqRec.rt (r : SeqRec) : Nat := r.f 1568 32
/-- Tokens in the output buffer. -/
def SeqRec.held (r : SeqRec) : Nat := (r.ohead + 2 ^ 32 - r.otail) % 2 ^ 32
/-- Zero fields: lowest bit and width. -/
def recZero : List (Nat × Nat) :=
  [(1104, 48), (1218, 6), (1231, 49), (1328, 16), (1429, 3), (1436, 4), (1449, 23), (1504, 32), (1664, 384)]
/-- The lowest word of a nonzero zero field. -/
def recZeroWord (r : SeqRec) : Option Nat :=
  recZero.findSome? fun z => ((List.range z.2).find? fun i => bit r.toNat (z.1 + i)).map fun i => (z.1 + i) / 64
def rangesMeet (a n b m : Nat) : Bool := 0 < n && 0 < m && decide (a < b + m) && decide (b < a + n)
/-- A finite positive f32 of at most a bound. -/
def f32Within (x hi : Nat) : Bool := 0 < x && x ≤ hi
/-- The bytes of the logits per token. -/
def SeqRec.lbytes (r : SeqRec) : Nat := if r.bf16 then 2 else 4
/-- The word that the first failing check of a record in place names. -/
def recBad (r : SeqRec) (off size : Nat) (tiles : Option (Nat × Tab Tile)) : Option Nat :=
  match recZeroWord r with
  | some w => some w
  | none =>
    if 7 < r.chunks || bits r.flags 4 3 != 0 then some 17
    else if r.wbase % 8 != 0 || r.wsize % 8 != 0 || 65536 < r.wsize || size < r.wbase + r.wsize then some 18
    else if r.obase % 4 != 0 || r.osize < 16 || 16384 < r.osize || size < r.obase + 4 * r.osize then some 20
    else if r.osize < r.held then some 21
    else if rangesMeet r.wbase r.wsize off 256 || rangesMeet r.wbase r.wsize r.obase (4 * r.osize) then some 18
    else if rangesMeet r.obase (4 * r.osize) off 256 then some 20
    else
      match tiles with
      | none => none
      | some (a, tt) =>
        let ts := (List.range (r.ntm1 + 1)).map fun i => tt.getD (a + i) Tile.reset
        if r.v = 0 || 2 ^ 20 < r.idbase + r.v then some 23
        else if 15 < a + r.ntm1 || ts.any (fun t => t.size == 0) then some 22
        else if sumNat (ts.map fun t => 256 * t.size) < r.v * r.lbytes then some 23
        else if r.k = 0 || 256 < r.k then some 22
        else if !f32Within r.p 0x3F800000 then some 24
        else if 1 < r.k && !f32Within r.rt 0x7F7FFFFF then some 24
        else none
/-- The record at an offset of a core's scratchpad, checked: its TRAPINFO where a check fails, the address of a poisoned byte. -/
def State.readRec (s : State) (c off : Nat) (tile : Option Nat) : SeqRec ⊕ W64 :=
  let size := (s.core c).spLen
  if off % 256 != 0 || size < off + 256 then .inr (w64 (2 + 2 ^ 13))
  else
    let r : SeqRec := BitVec.ofNat 2048 (ofBytes (s.spBytes c off 256))
    match recBad r off size (tile.map fun t => (t, (s.core c).tiles)) with
    | some w => .inr (w64 (2 + 256 * w))
    | none => .inl r

/-! ## Submission (R347, R355, R356) -/

/-- A request whose checks hold at this turn: a replayed one returns its stored D; a full queue holds the thread. -/
def State.submitSmp (s : State) (tile : Option Nat) (token off : Nat) (d : SReg) : Res Unit :=
  let c := s.cur.core
  match s.effect s.me .sampler with
  | some v => done (s.wait (.data (Result.tag d v)))
  | none =>
    if s.myCore.sb.any fun e => e.thread == some s.me && e.dest.isSome then .pass s
    else
      match s.readRec c off tile with
      | .inr i => fail s 0x02 i
      | .inl r =>
        let ready := match tile with
          | some t => (List.range (r.ntm1 + 1)).all fun i => s.tileIs c (t + i) .ready
          | none => true
        if !ready || 16 ≤ (s.cluster (clusterOf c)).smpq.length + (s.cluster (clusterOf c)).vacated.2.2 then .pass s
        else
          let (id, s) := s.fresh
          let q : SmpReq := ⟨id, s.me, tile, token, off, d⟩
          done ((s.updCluster (clusterOf c) fun k => { k with smpq := k.smpq ++ [q] }).wait (.sampler id))
def execSmpl (x : SmplA) (s : State) : Out' := finish (s.submitSmp (some x.a.val) 0 (s.rs x.b).toNat x.d)
def execTokexec (x : DAB) (s : State) : Out' :=
  finish <|
    let a := (s.rs x.a).toNat
    if 2 ^ 20 ≤ a then badPos s 1 else s.submitSmp none a (s.rs x.b).toNat x.d

/-! ## Choosing a token (R348) -/

/-- Order of logits: -0 and +0 are equal, -infinity is lowest. -/
def logitKey (b : Nat) : Int := if bit b 31 then -(bits b 0 31 : Int) else bits b 0 31
def negInf : Nat := 0xFF800000
/-- Logit `i` of the tiles' bytes as f32 bits; a NaN counts as -infinity. -/
def logit (raw : List Byte) (n i : Nat) : Nat :=
  let b := field raw (n * i) n * (if n = 2 then 65536 else 1)
  if 0x7F800000 < bits b 0 31 then negInf else b
/-- A candidate put into a list in decreasing order, later ones behind equals. -/
def insertCand (x : Nat × Nat) : List (Nat × Nat) → List (Nat × Nat)
  | [] => [x]
  | y :: r => if logitKey y.2 < logitKey x.2 then x :: y :: r else y :: insertCand x r
/-- The first `k` candidates of the order: (index, logit). -/
def candidates (ls : List (Nat × Nat)) (k : Nat) : List (Nat × Nat) :=
  ls.foldl (fun c x => if x.2 = negInf then c else (insertCand x c).take k) []
/-- floor(E(u) * 2^32). -/
def weight (u : Nat) : Nat :=
  match fdec fF32 (fexp2 (fdec fF32 u)).1 with
  | .fin _ m e => if 0 ≤ e + 32 then m * 2 ^ (e + 32).toNat else m / 2 ^ (-(e + 32)).toNat
  | _ => 0
def candWeight (m rt l : Nat) : Nat :=
  let d := if m = 0x7F800000 then if l = m then 0 else negInf else (felem .sub fF32 .rne false false l m 0).1
  weight (felem .mul fF32 .rne false false d rt 0).1
/-- Running sums. -/
def sums : Nat → List Nat → List Nat
  | _, [] => []
  | a, w :: r => (a + w) :: sums (a + w) r
/-- ceil(P * S). -/
def topP (p s : Nat) : Nat :=
  match fdec fF32 p with
  | .fin _ m e => if 0 ≤ e then m * s * 2 ^ e.toNat else ceilDiv (m * s) (2 ^ (-e).toNat)
  | _ => 0
/-- What `smpl` draws among weighted candidates: the number of the candidate. -/
def pickCand (ws : List Nat) (p : Nat) (y : W64) : Nat :=
  let cs := sums 0 ws
  let h := (cs.findIdx? fun c => decide (topP p (sumNat ws) ≤ c)).getD (cs.length - 1)
  let x := y.toNat * (cs[h]?).getD 0 / 2 ^ 64
  (cs.findIdx? fun c => decide (x < c)).getD h
inductive Drawn where
  | none
  | token (t : Nat) (ctr : Nat)
  | exhausted
  deriving DecidableEq, Repr
def State.chooseToken (s : State) (t : ThreadId) (r : SeqRec) (tile : Nat) (ctr : Nat) : Drawn :=
  let tt := (s.core t.core).tiles
  let raw := (List.range (r.ntm1 + 1)).flatMap fun i =>
    let x := tt.getD (tile + i) Tile.reset
    s.spBytes t.core (256 * x.base) (256 * x.size)
  let cs := candidates ((List.range r.v).map fun i => (i, logit raw r.lbytes i)) r.k
  match cs with
  | [] => .none
  | (i0, m) :: _ =>
    if r.k = 1 then .token (r.idbase + i0) ctr
    else
      match s.drawAt t ctr with
      | none => .exhausted
      | some (y, c) => .token (r.idbase + ((cs[pickCand (cs.map fun e => candWeight m r.rt e.2) r.p y]?).getD (i0, m)).1) c

/-! ## Drawn instructions (R350 to R353) -/

/-- What executing a token comes to: status, cause, QIDX, CALLNO, the record, offsets appended after the token, window writes,
the counter. -/
structure DrawnEff where
  status : Nat
  cause : Nat
  qidx : Nat
  callno : Nat
  rcd : SeqRec
  tail : List Nat
  writes : List (Nat × List Byte)
  ctr : Nat
  /-- LA as the operation found it. -/
  la : Nat
  deriving DecidableEq, Repr
/-- The fewest 10-bit chunks of a value, most significant first. -/
def chunksFrom : Nat → Nat → List Nat
  | 0, z => [z % 1024]
  | k + 1, z => if z < 1024 then [z] else chunksFrom k (z / 1024) ++ [z % 1024]
def chunksOf (z : Nat) : List Nat := chunksFrom 6 z
def SeqRec.clearLit (r : SeqRec) : SeqRec := (r.put 1024 64 0).put 1088 8 0
def SeqRec.bump (r : SeqRec) (lo : Nat) : SeqRec := r.put lo 32 (r.f lo 32 + 1)
def drawnTrap (r : SeqRec) (cause qidx ctr : Nat) : DrawnEff :=
  let mark := match cause with
    | 0x70 => 0x782 | 0x71 => 0x783 | 0x72 => 0x784 | _ => 0x785
  ⟨2, cause, qidx, 0, (r.clearLit).bump 1600, [mark, cause, 0x781], [], ctr, r.la⟩
/-- Class of an operation: bit of CAPS; `none` for no class (R352). -/
def opClass (i : Nat) : Option Nat :=
  if 1 ≤ i && i ≤ 13 then some 0
  else
    match i with
    | 15 | 17 => some 1 | 16 | 18 => some 2 | 19 => some 3 | 22 => some 4 | 20 => some 5 | 21 => some 6 | _ => none
/-- Result of operations 0 to 14 on q*n* and LA: the value, FLAGS. -/
def qArith (i a b fl : Nat) : Nat × Nat :=
  let sa := toS 64 a
  let sb := toS 64 b
  let ov (z : Int) : Nat := if z < -(2 ^ 63 : Nat) || ((2 ^ 63 : Nat) : Int) ≤ z then fl ||| 8 else fl
  match i with
  | 0 => (b, fl)
  | 1 => (ofZ 64 (sa + sb), ov (sa + sb))
  | 2 => (ofZ 64 (sa - sb), ov (sa - sb))
  | 3 => (ofZ 64 (sa * sb), ov (sa * sb))
  | 4 => if b = 0 then (2 ^ 64 - 1, fl ||| 8) else (a / b, fl)
  | 5 => if b = 0 then (a, fl ||| 8) else (a % b, fl)
  | 6 => (a &&& b, fl)
  | 7 => (a ||| b, fl)
  | 8 => (a ^^^ b, fl)
  | 9 => (if 64 ≤ b then 0 else a * 2 ^ b % 2 ^ 64, fl)
  | 10 => (if 64 ≤ b then 0 else a / 2 ^ b, fl)
  | 11 => (if sa ≤ sb then a else b, fl)
  | 12 => (if sa ≤ sb then b else a, fl)
  | 13 => (a, (fl / 8 * 8) + bnat (a == b) + 2 * bnat (decide (sa < sb)) + 4 * bnat (decide (a < b)))
  | _ => (0, fl / 16 * 16)
/-- Executes offset `o` on a record. -/
def State.drawnExec (s : State) (t : ThreadId) (r : SeqRec) (o ctr : Nat) : DrawnEff :=
  let r := r.bump 1632
  let la := r.la
  if o < 0x400 then
    if r.chunks = 7 || (r.chunks = 6 && 2 ^ 54 ≤ la) then drawnTrap r 0x70 0 ctr
    else ⟨1, 0, 0, 0, (r.put 1024 64 (la * 1024 + o)).put 1088 8 (r.chunks + 1), [], [], ctr, la⟩
  else if 0x780 ≤ o then drawnTrap r 0x70 0 ctr
  else
    let i := (o - 0x400) / 16
    let n := o % 16
    let a := r.q n
    let ok (v fl : Nat) (st call : Nat) (tail : List Nat) (ws : List (Nat × List Byte)) (c : Nat) : DrawnEff :=
      ⟨st, 0, n, call, ((r.put (64 * n) 64 v).put 1096 8 fl).clearLit, tail, ws, c, la⟩
    let std (v fl : Nat) : DrawnEff := ok v fl 1 0 [0x780] [] ctr
    if 23 < i then drawnTrap r 0x70 n ctr
    else if ((opClass i).map fun b => !bit r.caps b).getD false then drawnTrap r 0x72 n ctr
    else if (i = 15 || i = 16) && (la % 8 != 0 || r.wsize < la + 8) then drawnTrap r 0x71 n ctr
    else if (i = 17 || i = 18) && r.wsize ≤ la then drawnTrap r 0x71 n ctr
    else
      let x := r.wbase + la
      match i with
      | 15 => std (ofBytes (s.spBytes t.core x 8)) r.flags
      | 16 => ok a r.flags 1 0 [0x780] [(x, toBytes 8 a)] ctr
      | 17 => std (ofBytes (s.spBytes t.core x 1)) r.flags
      | 18 => ok a r.flags 1 0 [0x780] [(x, toBytes 1 a)] ctr
      | 19 => ok a r.flags 1 0 ([0x780] ++ chunksOf a ++ [0x781]) [] ctr
      | 20 => std ((s.ptpSec * 10 ^ 9 + s.ptpFrac) % 2 ^ 64) r.flags
      | 21 =>
        match s.drawAt t ctr with
        | some (y, c) => ok y.toNat r.flags 1 0 [0x780] [] c
        | none => drawnTrap r 0x20 n ctr
      | 22 => ok a r.flags 3 (la % 65536) [0x786] [] ctr
      | 23 => ok a (r.flags ||| 128) 4 0 [0x787] [] ctr
      | _ => let v := qArith i a la r.flags; std v.1 v.2

/-! ## SAMPLER_REQUEST_SERVE (R348, R349, R354, R355) -/

def statusD (e : DrawnEff) (napp tk : Nat) : W64 :=
  w64 (tk + 2 ^ 24 * e.status + 2 ^ 32 * e.qidx + 2 ^ 36 * napp + 2 ^ 40 * e.cause + 2 ^ 48 * e.callno)
/-- D, ESN and the stored result of a request that is performed. -/
def State.smpDone (s : State) (q : SmpReq) (v : W64) : State :=
  let s := s.setEffect q.thread .sampler v
  (s.endWait q.thread (Result.tag q.d v)).updThr q.thread fun x => { x with wake := some s.cycle }
/-- Bytes that a request writes in its completion cycle: loads find them from the next cycle on, and a store of software that drains in the
same cycle does not replace them (R355, R356). -/
def State.smpPut (s : State) (c off : Nat) (bs : List Byte) : State := s.spLate c off (bs.map fun b => (b, false)) true
/-- The tokens of a request in its output buffer, the k-th at entry (OHEAD + k) mod OSIZE (R345). -/
def State.appendTokens (s : State) (c : Nat) (r : SeqRec) : Nat → List Nat → State
  | _, [] => s
  | k, t :: l => State.appendTokens (s.smpPut c (r.obase + 4 * ((r.ohead + k) % r.osize)) (toBytes 4 t)) c r (k + 1) l
/-- First byte and length of the record fields that a request writes: Q, LA, CHUNKS and FLAGS, OHEAD, TRAPS and EXEC (R355). -/
def recWrites : List (Nat × Nat) := [(0, 138), (168, 4), (200, 8)]
/-- A trap of a request: it takes no effect. -/
def State.smpTrap (s : State) (q : SmpReq) (cause : Byte) (addr info : W64) : State := s.trapPend q.thread cause addr info
/-- A request that meets a poisoned scratchpad byte (22 R379). -/
def State.smpBad (s : State) (q : SmpReq) (a : Nat) : State :=
  (s.errLog 8 (w64 (devBase + a)) 0 0 0x80 q.thread.core).smpTrap q 0x80 (w64 (devBase + a)) 2
/-- The window bytes that an executed QLD or QLDB reads: first byte and number (R352). -/
def drawnReads (r : SeqRec) (o : Nat) (e : DrawnEff) : Option (Nat × Nat) :=
  if o < 0x400 || 0x780 ≤ o || e.status != 1 then none
  else
    match (o - 0x400) / 16 with
    | 15 => some (r.wbase + r.la, 8)
    | 17 => some (r.wbase + r.la, 1)
    | _ => none
/-- A token appended and, where it is executed, its effect. A drawn trap with PARK = 1 parks the thread after this cycle (R354, 21 R359). -/
def State.smpToken (s : State) (q : SmpReq) (r : SeqRec) (tk ctr : Nat) : State :=
  let t := q.thread
  let c := t.core
  let hi := (s.part (s.partOf c t.slot)).desc.tokhi
  let res := hi != 0 && decide (4096 * hi ≤ tk) && decide (tk < 4096 * hi + 4096)
  let runs := res && (((s.taskOn c).bind s.launchOf).map fun l => l.kernel.drawn).getD false && r.en && !bit r.flags 7
  let e : DrawnEff := if runs then s.drawnExec t r (tk - 4096 * hi) ctr else ⟨if res then 5 else 0, 0, 0, 0, r, [], [], ctr, 0⟩
  match (if runs then drawnReads r (tk - 4096 * hi) e else none).bind fun w => s.spPoison c w.1 w.2 with
  | some a => s.smpBad q a
  | none =>
  let toks := tk :: e.tail.map (4096 * hi + ·)
  let s := s.appendTokens c r 0 toks
  let s := e.writes.foldl (fun s w => s.smpPut c w.1 w.2) s
  let rb := toBytes 256 (e.rcd.put 1344 32 (r.ohead + toks.length)).toNat
  let s := recWrites.foldl (fun s w => s.smpPut c (q.recOff + w.1) ((rb.drop w.1).take w.2)) s
  let s := s.updThr t fun x => { x with ctr := e.ctr }
  let npc := ((s.thr t).pend.map fun p => p.npc).getD 0
  let s := s.smpDone q (statusD e toks.length tk)
  if e.status = 2 && r.park then
    s.updThr t fun x =>
      { x with parkDue := some (npc, byte e.cause, if e.cause = 0x71 then w64 e.la else 0, w64 (tk - 4096 * hi + 2 ^ 32 * q.recOff)) }
  else s
/-- Poison among the bytes that a request reads: its record and, for `smpl`, its logit tiles. -/
def State.smpPoison (s : State) (q : SmpReq) (r : SeqRec) : Option Nat :=
  let c := q.thread.core
  match s.spPoison c q.recOff 256 with
  | some a => some a
  | none =>
    match q.tile with
    | none => none
    | some t =>
      (List.range (r.ntm1 + 1)).findSome? fun i =>
        let x := (s.core c).tiles.getD (t + i) Tile.reset
        s.spPoison c (256 * x.base) (256 * x.size)
def State.smpServe (s : State) (q : SmpReq) : State :=
  let t := q.thread
  match s.readRec t.core q.recOff q.tile with
  | .inr i => s.smpTrap q 0x02 0 i
  | .inl r =>
    match s.smpPoison q r with
    | some a => s.smpBad q a
    | none =>
      if r.osize - r.held < 10 then s.smpDone q (w64 (7 * 2 ^ 24 + 0xFFFFF))
      else
        match q.tile with
        | none => s.smpToken q r q.token (s.thr t).ctr
        | some a =>
          match s.chooseToken t r a (s.thr t).ctr with
          | .none => s.smpDone q (w64 (6 * 2 ^ 24 + 0xFFFFF))
          | .exhausted => s.smpTrap q 0x20 0 0
          | .token tk ctr => s.smpToken q r tk ctr
/-- Threads whose parking is due park, and their gangs disband (21 R359, 06 R115). -/
def State.parkDues (s : State) : State :=
  s.cores.foldl (fun s e => e.2.threads.foldl (fun (s : State) x =>
    match x.2.parkDue with
    | some (pc, cause, addr, info) =>
      let t : ThreadId := ⟨e.1, x.1⟩
      let s := s.updThr t fun x => { x with parkDue := none }
      if (s.thr t).status == .running then s.trapAfter t pc cause addr info else s
    | none => s) s) s
/-- The request is the one that its thread waits for; a thread that trapped, or whose region restarted, waits for it no more (R357). -/
def State.smpLive (s : State) (q : SmpReq) : Bool := s.stageOf q.thread == some (.sampler q.id)
/-- SAMPLER_REQUEST_SERVE: the oldest request of a cluster's sampler; one that no thread waits for any more is not performed. -/
def execSamplerRequestServe (c : ClusterN) (s : State) : Out' :=
  match (s.cluster c.val).smpq with
  | [] => .next s
  | q :: r =>
    let s := s.updCluster c.val fun k => { k with smpq := r, vacated := (k.vacated.1, k.vacated.2.1, k.vacated.2.2 + 1) }
    .next (if s.smpLive q then s.smpServe q else s)

end Sys2Proof.Machine
end

