-- ==== Sys2Proof/Machine/Crypto.lean ====
section
/-! DEFINITION. SHA-256 and the check of an ECDSA P-256 signature, the standards that 24 R390 to R393 name. -/

namespace Sys2Proof.Machine

/-! ## SHA-256 -/

/-- Fractional parts of the cube roots of the first 64 primes. -/
def shaK : List W32 :=
  [0x428A2F98, 0x71374491, 0xB5C0FBCF, 0xE9B5DBA5, 0x3956C25B, 0x59F111F1, 0x923F82A4, 0xAB1C5ED5,
   0xD807AA98, 0x12835B01, 0x243185BE, 0x550C7DC3, 0x72BE5D74, 0x80DEB1FE, 0x9BDC06A7, 0xC19BF174,
   0xE49B69C1, 0xEFBE4786, 0x0FC19DC6, 0x240CA1CC, 0x2DE92C6F, 0x4A7484AA, 0x5CB0A9DC, 0x76F988DA,
   0x983E5152, 0xA831C66D, 0xB00327C8, 0xBF597FC7, 0xC6E00BF3, 0xD5A79147, 0x06CA6351, 0x14292967,
   0x27B70A85, 0x2E1B2138, 0x4D2C6DFC, 0x53380D13, 0x650A7354, 0x766A0ABB, 0x81C2C92E, 0x92722C85,
   0xA2BFE8A1, 0xA81A664B, 0xC24B8B70, 0xC76C51A3, 0xD192E819, 0xD6990624, 0xF40E3585, 0x106AA070,
   0x19A4C116, 0x1E376C08, 0x2748774C, 0x34B0BCB5, 0x391C0CB3, 0x4ED8AA4A, 0x5B9CCA4F, 0x682E6FF3,
   0x748F82EE, 0x78A5636F, 0x84C87814, 0x8CC70208, 0x90BEFFFA, 0xA4506CEB, 0xBEF9A3F7, 0xC67178F2]
def shaInit : List W32 :=
  [0x6A09E667, 0xBB67AE85, 0x3C6EF372, 0xA54FF53A, 0x510E527F, 0x9B05688C, 0x1F83D9AB, 0x5BE0CD19]
/-- A number as `n` bytes, most significant first. -/
def beBytes (n x : Nat) : List Byte := (toBytes n x).reverse
def ofBe (bs : List Byte) : Nat := ofBytes bs.reverse
def shaPad (bs : List Byte) : List Byte :=
  let z := (119 - bs.length % 64) % 64
  bs ++ [0x80] ++ toBytes z 0 ++ beBytes 8 (8 * bs.length)
def sg0 (x : W32) : W32 := x.rotateRight 7 ^^^ x.rotateRight 18 ^^^ (x >>> 3)
def sg1 (x : W32) : W32 := x.rotateRight 17 ^^^ x.rotateRight 19 ^^^ (x >>> 10)
/-- The message schedule: the last 16 words, and how many are still to come. -/
def shaSchedule : Nat → List W32 → List W32
  | 0, w => w
  | n + 1, w =>
    let g (i : Nat) : W32 := (w[i]?).getD 0
    (w.headD 0) :: onNumeral (sg1 (g 14) + g 9 + sg0 (g 1) + g 0).toNat fun x => shaSchedule n (w.drop 1 ++ [w32 x])
/-- Working variables a to h. -/
structure Sha where
  a : W32
  b : W32
  c : W32
  d : W32
  e : W32
  f : W32
  g : W32
  h : W32
  deriving DecidableEq, Repr
def Sha.ofList (l : List W32) : Sha :=
  let x (i : Nat) : W32 := (l[i]?).getD 0
  ⟨x 0, x 1, x 2, x 3, x 4, x 5, x 6, x 7⟩
def Sha.list (x : Sha) : List W32 := [x.a, x.b, x.c, x.d, x.e, x.f, x.g, x.h]
def Sha.round (x : Sha) (k w : W32) : Sha :=
  let s1 := x.e.rotateRight 6 ^^^ x.e.rotateRight 11 ^^^ x.e.rotateRight 25
  let t1 := x.h + s1 + ((x.e &&& x.f) ^^^ (~~~x.e &&& x.g)) + k + w
  let s0 := x.a.rotateRight 2 ^^^ x.a.rotateRight 13 ^^^ x.a.rotateRight 22
  let t2 := s0 + ((x.a &&& x.b) ^^^ (x.a &&& x.c) ^^^ (x.b &&& x.c))
  onNumeral (t1 + t2).toNat fun a => onNumeral (x.d + t1).toNat fun e => ⟨w32 a, x.a, x.b, x.c, w32 e, x.e, x.f, x.g⟩
def shaBlock (h : List W32) (b : List Byte) : List W32 :=
  let w := shaSchedule 48 ((List.range 16).map fun i => w32 (ofBe ((b.drop (4 * i)).take 4)))
  let r := (shaK.zip w).foldl (fun (x : Sha) e => x.round e.1 e.2) (Sha.ofList h)
  (h.zip r.list).map fun e => e.1 + e.2
def shaBlocks : Nat → List W32 → List Byte → List W32
  | 0, h, _ => h
  | n + 1, h, b => shaBlocks n (shaBlock h (b.take 64)) (b.drop 64)
def sha256 (bs : List Byte) : List Byte :=
  let p := shaPad bs
  (shaBlocks (p.length / 64) shaInit p).flatMap fun w => beBytes 4 w.toNat

/-! ## ECDSA on P-256 -/

def p256P : Nat := 0xFFFFFFFF00000001000000000000000000000000FFFFFFFFFFFFFFFFFFFFFFFF
def p256N : Nat := 0xFFFFFFFF00000000FFFFFFFFFFFFFFFFBCE6FAADA7179E84F3B9CAC2FC632551
def p256B : Nat := 0x5AC635D8AA3A93E7B3EBBD55769886BC651D06B0CC53B0F63BCE3C3E27D2604B
def p256G : Nat × Nat :=
  (0x6B17D1F2E12C4247F8BCE6E563A440F277037D812DEB33A0F4A13945D898C296, 0x4FE342E2FE1A7F9B8EE7EB4A7C0F9E162BCE33576B315ECECBB6406837BF51F5)
/-- A power modulo `m`; `k` bits of the exponent remain, lowest first. -/
def powMod (m : Nat) : Nat → Nat → Nat → Nat → Nat
  | 0, _, _, acc => acc
  | k + 1, a, e, acc => onNumeral (a * a % m) fun b => onNumeral (e / 2) fun f => onNumeral (if e % 2 = 1 then acc * a % m else acc) fun c => powMod m k b f c
/-- The inverse modulo a prime. -/
def invMod (m a : Nat) : Nat := powMod m 256 (a % m) (m - 2) 1
/-- The line through two points of slope `l` meets the curve a third time; its mirror image. -/
def ecThird (l : Nat) (a b : Nat × Nat) : Nat × Nat :=
  onNumeral l fun l => onNumeral ((l * l + 2 * p256P - a.1 - b.1) % p256P) fun x => onNumeral ((l * (a.1 + p256P - x) + p256P - a.2) % p256P) fun y => (x, y)
/-- The sum of two points; `none` is the point at infinity. -/
def ecAdd (a b : Option (Nat × Nat)) : Option (Nat × Nat) :=
  match a, b with
  | none, x => x
  | x, none => x
  | some a, some b =>
    if a.1 = b.1 then
      if (a.2 + b.2) % p256P = 0 then none
      else some (ecThird ((3 * a.1 * a.1 + p256P - 3) * invMod p256P (2 * a.2) % p256P) a b)
    else some (ecThird ((b.2 + p256P - a.2) * invMod p256P (b.1 + p256P - a.1) % p256P) a b)
/-- A multiple of a point; `k` bits remain. -/
def ecMul : Nat → Nat → Option (Nat × Nat) → Option (Nat × Nat) → Option (Nat × Nat)
  | 0, _, _, acc => acc
  | k + 1, n, p, acc => ecMul k (n / 2) (ecAdd p p) (if n % 2 = 1 then ecAdd acc p else acc)
def ecOn (q : Nat × Nat) : Bool :=
  q.1 < p256P && q.2 < p256P && (q.2 * q.2) % p256P == (q.1 * q.1 * q.1 + (p256P - 3) * q.1 + p256B) % p256P
/-- The signature with private key `d` of a hash `z` that a number `k` gives, if it gives one. -/
def signWith (d z k : Nat) : Option (List Byte) :=
  match ecMul 256 k (some p256G) none with
  | none => none
  | some x =>
    let r := x.1 % p256N
    let s := invMod p256N k * ((z + r * d) % p256N) % p256N
    if r = 0 || s = 0 then none else some (beBytes 32 r ++ beBytes 32 s)
/-- A signature of the SHA-256 of a message, from the first of the drawn numbers that gives one. -/
def ecdsaSign (d : Nat) (draw : Nat → Nat) (msg : List Byte) : List Byte :=
  ((List.range 16).findSome? fun i => signWith d (ofBe (sha256 msg)) (1 + draw i % (p256N - 1))).getD (toBytes 64 0)
/-- The public key of a private one. -/
def publicKey (d : Nat) : Nat × Nat := (ecMul 256 d (some p256G) none).getD (0, 0)
/-- A signature, r then s big-endian, of the SHA-256 of a message under a public key. -/
def ecdsaOk (key : Nat × Nat) (msg sig : List Byte) : Bool :=
  let r := ofBe (sig.take 32)
  let s := ofBe (sig.drop 32)
  if sig.length != 64 || !ecOn key || r = 0 || p256N ≤ r || s = 0 || p256N ≤ s then false
  else
    let w := invMod p256N s
    let u1 := ofBe (sha256 msg) * w % p256N
    let u2 := r * w % p256N
    match ecAdd (ecMul 256 u1 (some p256G) none) (ecMul 256 u2 (some key) none) with
    | some x => x.1 % p256N == r
    | none => false

end Sys2Proof.Machine
end

