-- ==== Sys2Proof/Machine/Service.lean ====
section
/-! DEFINITION. The management core (24 R389 to R397): boot and images, the side-band protocol, gating and in-field test, thermal trips. -/

namespace Sys2Proof.Machine

def State.updMgmt (s : State) (f : Mgmt → Mgmt) : State := { s with mgmt := f s.mgmt }

/-! ## Firmware images (R390, R391) -/

def imageMax : Nat := 128 + 2 ^ 26
def imageSvn (b : List Byte) : Nat := field b 8 4
/-- The checks of R390 against a fused minimum. -/
def imageOk (b : List Byte) (fuse : Nat) : Bool :=
  let n := field b 12 4
  field b 0 4 == 0x4D574649 && field b 4 4 == 1 && decide (1 ≤ n) && decide (n ≤ 2 ^ 26) && b.length == 128 + n && field b 112 16 == 0
  && (sha256 (b.drop 128) == (b.drop 16).take 32) && ecdsaOk (Config.romKeyX, Config.romKeyY) (b.take 48) ((b.drop 48).take 64)
  && decide (fuse ≤ imageSvn b)
/-- Chunks joined in rising order of offset, up to the first gap. -/
def joinChunks (cs : Tab (List Byte)) : List Byte :=
  cs.foldl (fun acc e => if e.1 ≤ acc.length then acc.take e.1 ++ e.2 ++ acc.drop (e.1 + e.2.length) else acc) []

/-! ## Side-band messages (R393) -/

/-- A message: header, body. -/
def sbMessage (op : Byte) (req : W32) (counter : W64) (status : Nat) (body : List Byte) : List Byte :=
  toBytes 2 0x414C ++ [1, op] ++ toBytes 4 req.toNat ++ toBytes 8 counter.toNat ++ toBytes 4 body.length ++ toBytes 1 status ++ toBytes 3 0 ++ body
/-- What a signature covers. -/
def datagramBytes (d : Datagram) : List Byte := sbMessage d.op d.reqId d.counter 0 d.body
def State.answer (s : State) (d : Datagram) (status : Nat) (body : List Byte) : State := { s with out := s.out ++ [.reply d.op d.reqId status body] }
def Mgmt.up (m : Mgmt) : Bool := m.boot == .running
/-- An unsigned request of one opcode, answered while the firmware runs: status and body. -/
def State.unsigned (s : State) (d : Datagram) (op : Byte) (f : Nat × List Byte) : Out' :=
  .next (if s.mgmt.up && d.op = op then s.answer d f.1 f.2 else s)
/-- A signed request: the key is loaded, the counter is greater than every one accepted since power-on, the signature verifies. -/
def State.signedOk (s : State) (d : Datagram) : Bool :=
  match s.mgmt.opKey with
  | some k => (s.mgmt.counter.map fun c => decide (c < d.counter)).getD true && ecdsaOk k (datagramBytes d) d.sig
  | none => false
def State.signedRequest (s : State) (d : Datagram) (op : Byte) (f : State → State × Nat) : Out' :=
  if !s.mgmt.up || d.op != op then .next s
  else if !s.signedOk d then .next (s.answer d 2 [])
  else
    let (s, st) := f (s.updMgmt fun m => { m with counter := some d.counter })
    .next (s.answer d st [])

/-- OPERATOR_KEY_LOAD: once after power-on. -/
def execOperatorKeyLoad (x y : BitVec 256) (s : State) : Out' :=
  .next (if s.mgmt.opKey.isSome then s else s.updMgmt fun m => { m with opKey := some (x.toNat, y.toNat) })
/-- The private key of the device, derived from its fused secret (R392). -/
def identityPrivate : Nat := 1 + Config.identitySecret % (p256N - 1)
/-- The public key as x then y, each big-endian. -/
def identityKey : List Byte := beBytes 32 (publicKey identityPrivate).1 ++ beBytes 32 (publicKey identityPrivate).2
def execIdentity (dg : Datagram) (s : State) : Out' := s.unsigned dg 0x01 (0, toBytes 16 Config.serial.toNat ++ identityKey ++ Config.certificate)

/-! ## Attestation (R392) -/

/-- The 64 bytes of a partition descriptor (02 R33). -/
def Descriptor.bytes (d : Descriptor) : List Byte :=
  toBytes 1 d.pdver ++ toBytes 1 (bnat d.valid + 2 * bnat d.expert) ++ toBytes 1 (d.part % 16 + 16 * d.defsp) ++ toBytes 1 d.nqueue
    ++ toBytes 2 d.pext.toNat ++ toBytes 1 d.mshare ++ toBytes 1 d.priocap ++ toBytes 2 d.tokhi ++ toBytes 2 d.bslots ++ toBytes 4 0
    ++ toBytes 8 d.ringbase.toNat ++ toBytes 8 d.ringlog ++ toBytes 8 d.ptroot ++ toBytes 8 d.profbase.toNat ++ toBytes 16 0
def State.tablesBytes (s : State) : List Byte :=
  ((List.range 16).flatMap fun p => (s.part p).desc.bytes) ++ (List.range 1024).flatMap fun k => toBytes 8 (s.slotTable.getD k 0).toNat
def State.attestation (s : State) (nonce : List Byte) : List Byte :=
  let r := toBytes 4 0x41545354 ++ toBytes 4 1 ++ nonce ++ sha256 s.mgmt.image ++ toBytes 4 (imageSvn s.mgmt.image) ++ toBytes 4 s.mgmt.fuse
    ++ sha256 s.tablesBytes ++ toBytes 4 s.ptpFrac ++ toBytes 6 s.ptpSec ++ toBytes 6 0
  r ++ ecdsaSign identityPrivate Config.signNonce r
def execAttest (dg : Datagram) (s : State) : Out' :=
  s.unsigned dg 0x02 (if dg.body.length = 32 then (0, s.attestation dg.body) else (3, []))

/-! ## Requests for the package's records -/

def execCrashRead (dg : Datagram) (s : State) : Out' :=
  let c := ofBytes dg.body
  s.unsigned dg 0x04 (if dg.body.isEmpty || 1024 ≤ c then (3, []) else (0, memBytes s.mem (crashAddr c) 256))
/-- The 32 bytes of a log entry (22 R381). -/
def LogEntry.bytes (e : LogEntry) : List Byte :=
  toBytes 10 e.time.toNat ++ toBytes 2 e.core ++ toBytes 1 e.src ++ toBytes 1 e.cause.toNat ++ toBytes 2 0 ++ toBytes 4 e.id.toNat
    ++ toBytes 4 e.lid.toNat ++ toBytes 8 e.addr.toNat
def logBytes (e : Option LogEntry) : List Byte :=
  match e with
  | some e => e.bytes
  | none => toBytes 32 0
/-- ERRLOG_READ: first entry and count, four bytes each. -/
def execErrlogRead (dg : Datagram) (s : State) : Out' :=
  let k := field dg.body 0 4
  let n := field dg.body 4 4
  s.unsigned dg 0x05 (if dg.body.length != 8 || n = 0 || 32 < n || 1024 < k + n then (3, [])
    else (0, (List.range n).flatMap fun i => logBytes (s.mgmt.errLog.get? (k + i))))

/-! ## Signed requests -/

def execTenantReset (dg : Datagram) (s : State) : Out' :=
  s.signedRequest dg 0x03 fun s =>
    let p := ofBytes dg.body
    if dg.body.isEmpty || 16 ≤ p then (s, 3) else (s.requestReset p, 0)
def execFwStage (dg : Datagram) (s : State) : Out' :=
  s.signedRequest dg 0x06 fun s =>
    let off := field dg.body 0 4
    let b := dg.body.drop 4
    if dg.body.length < 5 || 1024 < b.length || imageMax < off + b.length then (s, 3)
    else (s.updMgmt fun m => { m with staged := m.staged.put off b }, 0)
/-- FW_COMMIT: a staged image that verifies becomes the running one; flag bit 0 raises the fused minimum. -/
def execFwCommit (dg : Datagram) (s : State) : Out' :=
  s.signedRequest dg 0x07 fun s =>
    let img := joinChunks s.mgmt.staged
    if !imageOk img s.mgmt.fuse then (s, 3)
    else
      let fuse := if bit (ofBytes dg.body) 0 then Nat.min 64 (Nat.max s.mgmt.fuse (imageSvn img)) else s.mgmt.fuse
      (s.updMgmt fun m => { m with image := img, staged := [], fuse := fuse }, 0)
/-- A port that trains: its lanes are tried anew. -/
def Port.train (p : Port) : Port := { Port.reset with st := .training, myLanes := BitVec.allOnes 16, replays := p.replays, inbuf := p.inbuf }
def execLinkRetrain (dg : Datagram) (s : State) : Out' :=
  s.signedRequest dg 0x08 fun s =>
    let q := ofBytes dg.body
    if dg.body.isEmpty || 12 ≤ q || (s.port q).st != .down then (s, 3) else (s.updPort q Port.train, 0)
def execSidebandUnknownOpcode (dg : Datagram) (s : State) : Out' :=
  .next (if s.mgmt.up && (dg.op = 0 || 9 < dg.op.toNat) then s.answer dg 1 [] else s)

/-! ## IMAGE_GET (R394) -/

/-- A message as management flits of port 0. -/
def flitParts : Nat → List Byte → List (List Byte)
  | 0, _ => []
  | n + 1, b => if b.length ≤ 112 then [b] else b.take 112 :: flitParts n (b.drop 112)
def State.mgmtSend (s : State) (b : List Byte) : State :=
  if (s.port 0).st != .up then s else
  let ps := flitParts (b.length / 112 + 1) b
  let s := { s with out := s.out ++ [.mgmt b] }
  ((List.range ps.length).zip ps).foldl (fun (s : State) e => s.updPort 0 fun p => p.emit 4 0 (e.1 + 1 == ps.length) e.2) s
/-- A message that has come over port 0 is taken. -/
def State.takeMgmt (s : State) (ok : List Byte → Bool) : Option State :=
  match (s.port 0).mgmt.find? ok with
  | none => none
  | some m => some (s.updPort 0 fun p => { p with mgmt := p.mgmt.erase m })
/-- The answer of a running device: status, body. -/
def State.imageAnswer (s : State) (body : List Byte) : Nat × List Byte :=
  let off := field body 0 4
  let n := s.mgmt.image.length
  if body.length != 8 || off % 1024 != 0 || field body 4 4 != 0 || n ≤ off then (3, toBytes 4 n ++ toBytes 4 off)
  else (0, toBytes 4 n ++ toBytes 4 off ++ (s.mgmt.image.drop off).take 1024)
/-- IMAGE_GET, over the side band or as management flits of port 0. -/
def execImageGet (dg : Datagram) (port0 : Bool) (s : State) : Out' :=
  if !s.mgmt.up || dg.op != 0x09 then .next s
  else
    let a := s.imageAnswer dg.body
    if !port0 then .next (s.answer dg a.1 a.2)
    else
      match s.takeMgmt fun m => m.take (24 + dg.body.length) == datagramBytes dg with
      | some s => .next (s.mgmtSend (sbMessage 0x09 dg.reqId 0 a.1 a.2))
      | none => .next s

/-! ## Boot (R389) -/

/-- Limited broadcast and all-nodes addresses, and the addresses that the ROM sends from (R394). -/
def v4Broadcast : IpAddr := .v4 0xFFFFFFFF
def v6AllNodes : IpAddr := .v6 0xFF020000000000000000000000000001
def v6LinkLocal : IpAddr := .v6 (0xFE80000000000000#64 ++ Config.linkId)
/-- The ROM asks for the image bytes at an offset: from port 4417 to port 4417 of both addresses, or over port 0. -/
def State.askImage (s : State) (port0 : Bool) (off : Nat) : State :=
  let m := sbMessage 0x09 (w32 (off / 1024)) 0 0 (toBytes 4 off ++ toBytes 4 0)
  if port0 then s.mgmtSend m
  else { s with out := s.out ++ [.udp (.v4 0) v4Broadcast 4417 4417 m, .udp v6LinkLocal v6AllNodes 4417 4417 m] }
/-- POWER_ON: HBM, the side band and port 0, the first request. -/
def execPowerOn (s : State) : Out' :=
  if s.mgmt.boot != .off then .next s
  else
    let s := { s with mem := [], vers := [], mvers := [], poison := [] }.updPort 0 Port.train
    .next ((s.updMgmt fun m => { m with boot := .fetching false none 0 [] }).askImage false 0)
/-- The ROM turns to its next source. -/
def State.nextParty (s : State) (port0 : Bool) : State :=
  (s.updMgmt fun m => { m with boot := .fetching (!port0) none 0 [] }).askImage (!port0) 0
/-- Requests that follow the `n`-th chunk: 16 after the first, then one for each, so that up to 16 are outstanding. -/
def State.askMore (s : State) (port0 : Bool) (n total : Nat) : State :=
  let ks := if n = 1 then (List.range 16).map (1 + ·) else [n + 15]
  (ks.filter fun k => 1024 * k < total).foldl (fun (s : State) k => s.askImage port0 (1024 * k)) s
/-- In-field test of every cluster at boot: whether a cluster fails it, and is fenced, is a free value (R389, R396, log 35). -/
def State.bootTest (s : State) : State :=
  { s.updMgmt fun m => { m with fenced := (List.range 128).filter fun c => Config.freeBit (s.free + c) } with free := s.free + 128 }
/-- A chunk of the party that the ROM keeps to; a complete image is checked, and accepted or discarded whole. -/
def State.takeChunk (s : State) (port0 : Bool) (src : BitVec 128) (total : Nat) (chunks : Tab (List Byte)) (off : Nat) (bytes : List Byte) : State :=
  if off % 1024 != 0 || total ≤ off || bytes.length != Nat.min 1024 (total - off) || (chunks.get? off).isSome then s
  else
    let cs := chunks.put off bytes
    if cs.length = ceilDiv total 1024 then
      let img := joinChunks cs
      if imageOk img s.mgmt.fuse then s.bootTest.updMgmt fun m => { m with boot := .running, image := img } else s.nextParty port0
    else (s.updMgmt fun m => { m with boot := .fetching port0 (some src) total cs }).askMore port0 cs.length total
/-- IMAGE_REPLY_RECEIVE. -/
def execImageReplyReceive (src : BitVec 128) (status : Byte) (total off : W32) (bytes : List Byte) (s : State) : Out' :=
  match s.mgmt.boot with
  | .fetching port0 party n cs =>
    let body := toBytes 4 total.toNat ++ toBytes 4 off.toNat ++ bytes
    let is (m : List Byte) : Bool := field m 3 1 == 9 && field m 20 1 == status.toNat && field m 16 4 == body.length && (m.drop 24).take body.length == body
    let come := if port0 then s.takeMgmt is else some s
    match come with
    | none => .next s
    | some s =>
      if status != 0 then .next s
      else
        match party with
        | none => .next (s.takeChunk port0 src total.toNat [] off.toNat bytes)
        | some p =>
          if src != p then .next s
          else if total.toNat != n then .next (s.nextParty port0)
          else .next (s.takeChunk port0 src n cs off.toNat bytes)
  | _ => .next s
/-- An offset that the ROM has asked for and has no bytes of. -/
def imagePending (party : Option (BitVec 128)) (total : Nat) (cs : Tab (List Byte)) (off : Nat) : Bool :=
  off % 1024 == 0 && (cs.get? off).isNone && (if party.isNone then off == 0 else decide (off < total) && decide (off / 1024 < cs.length + 16))
/-- IMAGE_REQUEST_RESEND. -/
def execImageRequestResend (off : W32) (s : State) : Out' :=
  match s.mgmt.boot with
  | .fetching port0 party n cs => .next (if imagePending party n cs off.toNat then s.askImage port0 off.toNat else s)
  | _ => .next s
/-- IMAGE_PARTY_ABANDON. -/
def execImagePartyAbandon (s : State) : Out' :=
  match s.mgmt.boot with
  | .fetching port0 _ _ _ => .next (s.nextParty port0)
  | _ => .next s

/-! ## Gating and in-field test (R395, R396) -/

/-- A valid BOUNDED entry binds a core of the cluster. -/
def State.boundedCluster (s : State) (cl : Nat) : Bool :=
  (List.range 8).any fun e =>
    let b := s.bindAt cl e
    b.valid && b.cls == 1 && b.cores != 0
/-- CLUSTER_GATE: every core is idle, and none is bound by a BOUNDED entry. -/
def execClusterGate (c : ClusterN) (s : State) : Out' :=
  .next (if (blockCores c.val 0 8).all (fun k => s.quiet k) && !s.boundedCluster c.val then s.updMgmt fun m => { m with gated := addNew m.gated c.val } else s)
/-- CLUSTER_WAKE: dispatch finds a placement in a gated cluster; one that fails its test is fenced. -/
def execClusterWake (c : ClusterN) (pass : Bool) (s : State) : Out' :=
  if !s.mgmt.gated.contains c.val then .next s
  else
    let t := s.wake c.val true
    let ls := t.launches.filter fun l => t.eligible l && (List.range 8).any fun b0 => t.fitsNext l c.val b0
    if ls.isEmpty then .next s
    else if pass then .next t
    else
      let t := s.wake c.val false
      let hit (l : Launch) : Bool := ls.any fun x => x.part == l.part && x.lid == l.lid
      .next { t with out := t.out ++ ls.map fun l => .stall l.part l.lid,
                     launches := t.launches.map fun l => if hit l then { l with stalled := true } else l }
/-- A W7 scan package may run: it verifies as an image does, an operator's signed request asks for it, and the cluster is fenced or gated. R393
gives such a request no opcode, so that no event carries one, and its run changes no state that the spec names (log 70). -/
def State.scanRuns (s : State) (d : Datagram) (pkg : List Byte) (c : Nat) : Bool :=
  s.mgmt.up && s.signedOk d && imageOk pkg s.mgmt.fuse && (s.mgmt.fenced.contains c || s.mgmt.gated.contains c)

/-! ## Power and thermal limits (R397) -/

/-- `PWRSTAT`; FENCED and GATED count clusters (log 57). -/
def State.pwrstat (s : State) : W64 :=
  let m := s.mgmt
  let throt := s.clusters.any fun e => decide (e.2.budget < Cluster.reset.budget)
  w64 (m.gated.length + 2 ^ 16 * m.fenced.length + 2 ^ 32 * bnat throt + 2 ^ 33 * bnat (!m.trip.isEmpty) + 2 ^ 40 * m.temp.toNat + 2 ^ 48 * m.power.toNat)

def execThermalTrip (die : Fin 4) (s : State) : Out' := .next (s.updMgmt fun m => { m with trip := addNew m.trip die.val })
def execThermalTripRelease (die : Fin 4) (s : State) : Out' := .next (s.updMgmt fun m => { m with trip := m.trip.filter (· != die.val) })

end Sys2Proof.Machine
end

