-- ==== Sys2Proof/Machine/Dispatch.lean ====
section
/-! DEFINITION. The one dispatch from an instruction or event to its meaning. -/

namespace Sys2Proof.Machine

def exec (i : Instr) (s : State) : Host.Outcome State Fault Refusal :=
  match i with
  | .add x => Sys2Proof.Machine.execAdd x s
  | .sub x => Sys2Proof.Machine.execSub x s
  | .mul x => Sys2Proof.Machine.execMul x s
  | .mulh x => Sys2Proof.Machine.execMulh x s
  | .and x => Sys2Proof.Machine.execAnd x s
  | .or x => Sys2Proof.Machine.execOr x s
  | .xor x => Sys2Proof.Machine.execXor x s
  | .andn x => Sys2Proof.Machine.execAndn x s
  | .shl x => Sys2Proof.Machine.execShl x s
  | .shr x => Sys2Proof.Machine.execShr x s
  | .rotl x => Sys2Proof.Machine.execRotl x s
  | .min x => Sys2Proof.Machine.execMin x s
  | .max x => Sys2Proof.Machine.execMax x s
  | .div x => Sys2Proof.Machine.execDiv x s
  | .rem x => Sys2Proof.Machine.execRem x s
  | .ext x => Sys2Proof.Machine.execExt x s
  | .ins x => Sys2Proof.Machine.execIns x s
  | .clz x => Sys2Proof.Machine.execClz x s
  | .ctz x => Sys2Proof.Machine.execCtz x s
  | .popc x => Sys2Proof.Machine.execPopc x s
  | .brev x => Sys2Proof.Machine.execBrev x s
  | .bswap x => Sys2Proof.Machine.execBswap x s
  | .cmpeq x => Sys2Proof.Machine.execCmpeq x s
  | .cmpne x => Sys2Proof.Machine.execCmpne x s
  | .cmplt x => Sys2Proof.Machine.execCmplt x s
  | .cmple x => Sys2Proof.Machine.execCmple x s
  | .cmpgt x => Sys2Proof.Machine.execCmpgt x s
  | .cmpge x => Sys2Proof.Machine.execCmpge x s
  | .sel x => Sys2Proof.Machine.execSel x s
  | .mov x => Sys2Proof.Machine.execMov x s
  | .lih x => Sys2Proof.Machine.execLih x s
  | .lea x => Sys2Proof.Machine.execLea x s
  | .nop x => Sys2Proof.Machine.execNop x s
  | .pand x => Sys2Proof.Machine.execPand x s
  | .por x => Sys2Proof.Machine.execPor x s
  | .pxor x => Sys2Proof.Machine.execPxor x s
  | .pandn x => Sys2Proof.Machine.execPandn x s
  | .pnot x => Sys2Proof.Machine.execPnot x s
  | .pset x => Sys2Proof.Machine.execPset x s
  | .pread x => Sys2Proof.Machine.execPread x s
  | .pwrite x => Sys2Proof.Machine.execPwrite x s
  | .pcnt x => Sys2Proof.Machine.execPcnt x s
  | .srd x => Sys2Proof.Machine.execSrd x s
  | .swr x => Sys2Proof.Machine.execSwr x s
  | .br x => Sys2Proof.Machine.execBr x s
  | .brz x => Sys2Proof.Machine.execBrz x s
  | .brnz x => Sys2Proof.Machine.execBrnz x s
  | .brdec x => Sys2Proof.Machine.execBrdec x s
  | .call x => Sys2Proof.Machine.execCall x s
  | .callr x => Sys2Proof.Machine.execCallr x s
  | .jr x => Sys2Proof.Machine.execJr x s
  | .ret x => Sys2Proof.Machine.execRet x s
  | .gang x => Sys2Proof.Machine.execGang x s
  | .disband x => Sys2Proof.Machine.execDisband x s
  | .part x => Sys2Proof.Machine.execPart x s
  | .ftileset x => Sys2Proof.Machine.execFtileset x s
  | .ftile x => Sys2Proof.Machine.execFtile x s
  | .cbset x => Sys2Proof.Machine.execCbset x s
  | .cbwaitc x => Sys2Proof.Machine.execCbwaitc x s
  | .cbwaitp x => Sys2Proof.Machine.execCbwaitp x s
  | .cbadvc x => Sys2Proof.Machine.execCbadvc x s
  | .cbadvp x => Sys2Proof.Machine.execCbadvp x s
  | .ld x => Sys2Proof.Machine.execLd x s
  | .st x => Sys2Proof.Machine.execSt x s
  | .vld x => Sys2Proof.Machine.execVld x s
  | .vst x => Sys2Proof.Machine.execVst x s
  | .ldv x => Sys2Proof.Machine.execLdv x s
  | .stcv x => Sys2Proof.Machine.execStcv x s
  | .valchk x => Sys2Proof.Machine.execValchk x s
  | .valclr x => Sys2Proof.Machine.execValclr x s
  | .pref x => Sys2Proof.Machine.execPref x s
  | .tfill x => Sys2Proof.Machine.execTfill x s
  | .trel x => Sys2Proof.Machine.execTrel x s
  | .tdef x => Sys2Proof.Machine.execTdef x s
  | .tstat x => Sys2Proof.Machine.execTstat x s
  | .cpy x => Sys2Proof.Machine.execCpy x s
  | .cjob x => Sys2Proof.Machine.execCjob x s
  | .cpoll x => Sys2Proof.Machine.execCpoll x s
  | .cwait x => Sys2Proof.Machine.execCwait x s
  | .rset x => Sys2Proof.Machine.execRset x s
  | .unpin x => Sys2Proof.Machine.execUnpin x s
  | .rrd x => Sys2Proof.Machine.execRrd x s
  | .frarm x => Sys2Proof.Machine.execFrarm x s
  | .vflgrd x => Sys2Proof.Machine.execVflgrd x s
  | .vflgclr x => Sys2Proof.Machine.execVflgclr x s
  | .vadd x => Sys2Proof.Machine.execVadd x s
  | .vsub x => Sys2Proof.Machine.execVsub x s
  | .vmul x => Sys2Proof.Machine.execVmul x s
  | .vfma x => Sys2Proof.Machine.execVfma x s
  | .vfnma x => Sys2Proof.Machine.execVfnma x s
  | .vmin x => Sys2Proof.Machine.execVmin x s
  | .vmax x => Sys2Proof.Machine.execVmax x s
  | .vabs x => Sys2Proof.Machine.execVabs x s
  | .vneg x => Sys2Proof.Machine.execVneg x s
  | .vaddInt x => Sys2Proof.Machine.execVaddInt x s
  | .vsubInt x => Sys2Proof.Machine.execVsubInt x s
  | .vmulInt x => Sys2Proof.Machine.execVmulInt x s
  | .vmulh x => Sys2Proof.Machine.execVmulh x s
  | .vand x => Sys2Proof.Machine.execVand x s
  | .vor x => Sys2Proof.Machine.execVor x s
  | .vxor x => Sys2Proof.Machine.execVxor x s
  | .vandn x => Sys2Proof.Machine.execVandn x s
  | .vshl x => Sys2Proof.Machine.execVshl x s
  | .vshr x => Sys2Proof.Machine.execVshr x s
  | .vrotl x => Sys2Proof.Machine.execVrotl x s
  | .vminInt x => Sys2Proof.Machine.execVminInt x s
  | .vmaxInt x => Sys2Proof.Machine.execVmaxInt x s
  | .vcmpeq x => Sys2Proof.Machine.execVcmpeq x s
  | .vcmpne x => Sys2Proof.Machine.execVcmpne x s
  | .vcmplt x => Sys2Proof.Machine.execVcmplt x s
  | .vcmple x => Sys2Proof.Machine.execVcmple x s
  | .vcmpgt x => Sys2Proof.Machine.execVcmpgt x s
  | .vcmpge x => Sys2Proof.Machine.execVcmpge x s
  | .vcmpun x => Sys2Proof.Machine.execVcmpun x s
  | .vcvt x => Sys2Proof.Machine.execVcvt x s
  | .vmov x => Sys2Proof.Machine.execVmov x s
  | .vperm x => Sys2Proof.Machine.execVperm x s
  | .vsel x => Sys2Proof.Machine.execVsel x s
  | .vbcast x => Sys2Proof.Machine.execVbcast x s
  | .vslide x => Sys2Proof.Machine.execVslide x s
  | .vgetl x => Sys2Proof.Machine.execVgetl x s
  | .vsetl x => Sys2Proof.Machine.execVsetl x s
  | .vrsum x => Sys2Proof.Machine.execVrsum x s
  | .vrmax x => Sys2Proof.Machine.execVrmax x s
  | .vrmin x => Sys2Proof.Machine.execVrmin x s
  | .vrcp x => Sys2Proof.Machine.execVrcp x s
  | .vrsqrt x => Sys2Proof.Machine.execVrsqrt x s
  | .vsqrt x => Sys2Proof.Machine.execVsqrt x s
  | .vdiv x => Sys2Proof.Machine.execVdiv x s
  | .vexp2 x => Sys2Proof.Machine.execVexp2 x s
  | .vlog2 x => Sys2Proof.Machine.execVlog2 x s
  | .vsinpi x => Sys2Proof.Machine.execVsinpi x s
  | .vcospi x => Sys2Proof.Machine.execVcospi x s
  | .vtanh x => Sys2Proof.Machine.execVtanh x s
  | .ctload x => Sys2Proof.Machine.execCtload x s
  | .vctdec x => Sys2Proof.Machine.execVctdec x s
  | .vctenc x => Sys2Proof.Machine.execVctenc x s
  | .vgsum x => Sys2Proof.Machine.execVgsum x s
  | .vgmax x => Sys2Proof.Machine.execVgmax x s
  | .vgmin x => Sys2Proof.Machine.execVgmin x s
  | .vgperm x => Sys2Proof.Machine.execVgperm x s
  | .vgbcast x => Sys2Proof.Machine.execVgbcast x s
  | .oclaim x => Sys2Proof.Machine.execOclaim x s
  | .orelease x => Sys2Proof.Machine.execOrelease x s
  | .zclaim x => Sys2Proof.Machine.execZclaim x s
  | .zrelease x => Sys2Proof.Machine.execZrelease x s
  | .oload x => Sys2Proof.Machine.execOload x s
  | .mma x => Sys2Proof.Machine.execMma x s
  | .zclear x => Sys2Proof.Machine.execZclear x s
  | .zstore x => Sys2Proof.Machine.execZstore x s
  | .zload x => Sys2Proof.Machine.execZload x s
  | .mcheck x => Sys2Proof.Machine.execMcheck x s
  | .mpoll x => Sys2Proof.Machine.execMpoll x s
  | .mwait x => Sys2Proof.Machine.execMwait x s
  | .mstat x => Sys2Proof.Machine.execMstat x s
  | .rbind x => Sys2Proof.Machine.execRbind x s
  | .rrow x => Sys2Proof.Machine.execRrow x s
  | .rvseg x => Sys2Proof.Machine.execRvseg x s
  | .rpseg x => Sys2Proof.Machine.execRpseg x s
  | .rvld x => Sys2Proof.Machine.execRvld x s
  | .rvsum x => Sys2Proof.Machine.execRvsum x s
  | .rvmax x => Sys2Proof.Machine.execRvmax x s
  | .rvmin x => Sys2Proof.Machine.execRvmin x s
  | .rvnorm x => Sys2Proof.Machine.execRvnorm x s
  | .rmma x => Sys2Proof.Machine.execRmma x s
  | .aadd x => Sys2Proof.Machine.execAadd x s
  | .aand x => Sys2Proof.Machine.execAand x s
  | .aor x => Sys2Proof.Machine.execAor x s
  | .axor x => Sys2Proof.Machine.execAxor x s
  | .amin x => Sys2Proof.Machine.execAmin x s
  | .amax x => Sys2Proof.Machine.execAmax x s
  | .aswap x => Sys2Proof.Machine.execAswap x s
  | .acas x => Sys2Proof.Machine.execAcas x s
  | .afadd x => Sys2Proof.Machine.execAfadd x s
  | .mradd x => Sys2Proof.Machine.execMradd x s
  | .mrand x => Sys2Proof.Machine.execMrand x s
  | .mror x => Sys2Proof.Machine.execMror x s
  | .mrxor x => Sys2Proof.Machine.execMrxor x s
  | .mrmin x => Sys2Proof.Machine.execMrmin x s
  | .mrmax x => Sys2Proof.Machine.execMrmax x s
  | .mrfadd x => Sys2Proof.Machine.execMrfadd x s
  | .casv x => Sys2Proof.Machine.execCasv x s
  | .waitv x => Sys2Proof.Machine.execWaitv x s
  | .fence x => Sys2Proof.Machine.execFence x s
  | .barsync x => Sys2Proof.Machine.execBarsync x s
  | .bararv x => Sys2Proof.Machine.execBararv x s
  | .barwait x => Sys2Proof.Machine.execBarwait x s
  | .phadv x => Sys2Proof.Machine.execPhadv x s
  | .phwait x => Sys2Proof.Machine.execPhwait x s
  | .ibsend x => Sys2Proof.Machine.execIbsend x s
  | .ibrecv x => Sys2Proof.Machine.execIbrecv x s
  | .ibpoll x => Sys2Proof.Machine.execIbpoll x s
  | .dlaunch x => Sys2Proof.Machine.execDlaunch x s
  | .dsignal x => Sys2Proof.Machine.execDsignal x s
  | .msgsend x => Sys2Proof.Machine.execMsgsend x s
  | .msgpost x => Sys2Proof.Machine.execMsgpost x s
  | .msgtest x => Sys2Proof.Machine.execMsgtest x s
  | .msgwait x => Sys2Proof.Machine.execMsgwait x s
  | .msgcancel x => Sys2Proof.Machine.execMsgcancel x s
  | .rand x => Sys2Proof.Machine.execRand x s
  | .vrand x => Sys2Proof.Machine.execVrand x s
  | .rtell x => Sys2Proof.Machine.execRtell x s
  | .rseek x => Sys2Proof.Machine.execRseek x s
  | .smpl x => Sys2Proof.Machine.execSmpl x s
  | .tokexec x => Sys2Proof.Machine.execTokexec x s
  | .exit x => Sys2Proof.Machine.execExit x s
  | .rgn x => Sys2Proof.Machine.execRgn x s
  | .tctx x => Sys2Proof.Machine.execTctx x s
  | .xrd x => Sys2Proof.Machine.execXrd x s
  | .xwr x => Sys2Proof.Machine.execXwr x s
  | .tresume x => Sys2Proof.Machine.execTresume x s
  | .tkill x => Sys2Proof.Machine.execTkill x s
  | .tret x => Sys2Proof.Machine.execTret x s
  | .spillgo x => Sys2Proof.Machine.execSpillgo x s
  | .spstat x => Sys2Proof.Machine.execSpstat x s
  | .xlinv x => Sys2Proof.Machine.execXlinv x s
  | .ldpi x => Sys2Proof.Machine.execLdpi x s
  | .stpi x => Sys2Proof.Machine.execStpi x s
  | .vldpi x => Sys2Proof.Machine.execVldpi x s
  | .vdot x => Sys2Proof.Machine.execVdot x s
  | .undefinedOpcode op fn => Sys2Proof.Machine.execUndefinedOpcode op fn s
  | .instructionFetchFault cause line info => Sys2Proof.Machine.execInstructionFetchFault cause line info s
  | .queueEnable p q v => Sys2Proof.Machine.execQueueEnable p q v s
  | .qwrWrite p q v => Sys2Proof.Machine.execQwrWrite p q v s
  | .acceptPacket host => Sys2Proof.Machine.execAcceptPacket host s
  | .dispatchTask c b0 => Sys2Proof.Machine.execDispatchTask c b0 s
  | .partitionCreate p v => Sys2Proof.Machine.execPartitionCreate p v s
  | .slotTableWrite c e v => Sys2Proof.Machine.execSlotTableWrite c e v s
  | .fetchFill c line => Sys2Proof.Machine.execFetchFill c line s
  | .loadDataArrival t => Sys2Proof.Machine.execLoadDataArrival t s
  | .storeBufferDrain c id => Sys2Proof.Machine.execStoreBufferDrain c id s
  | .blockBufferDrain c id merged => Sys2Proof.Machine.execBlockBufferDrain c id merged s
  | .coherencePointOperation t => Sys2Proof.Machine.execCoherencePointOperation t s
  | .copyJobStart c => Sys2Proof.Machine.execCopyJobStart c s
  | .copyJobRow c id => Sys2Proof.Machine.execCopyJobRow c id s
  | .copyJobComplete c id => Sys2Proof.Machine.execCopyJobComplete c id s
  | .barrierComplete t bar => Sys2Proof.Machine.execBarrierComplete t bar s
  | .registerWrite r v => Sys2Proof.Machine.execRegisterWrite r v s
  | .queueDisable p q v => Sys2Proof.Machine.execQueueDisable p q v s
  | .queueDrain p q v => Sys2Proof.Machine.execQueueDrain p q v s
  | .queueAbort p q v => Sys2Proof.Machine.execQueueAbort p q v s
  | .taskRetire t => Sys2Proof.Machine.execTaskRetire t s
  | .closeLaunch p lid => Sys2Proof.Machine.execCloseLaunch p lid s
  | .expertChange p b => Sys2Proof.Machine.execExpertChange p b s
  | .sltstatClear v => Sys2Proof.Machine.execSltstatClear v s
  | .preemptTask t => Sys2Proof.Machine.execPreemptTask t s
  | .spillStart t => Sys2Proof.Machine.execSpillStart t s
  | .spillStop t => Sys2Proof.Machine.execSpillStop t s
  | .spillEnd t => Sys2Proof.Machine.execSpillEnd t s
  | .resumeFill t c b0 => Sys2Proof.Machine.execResumeFill t c b0 s
  | .l1CopyDrop c line => Sys2Proof.Machine.execL1CopyDrop c line s
  | .postedWritePerform => Sys2Proof.Machine.execPostedWritePerform s
  | .fabricSendDepart => Sys2Proof.Machine.execFabricSendDepart s
  | .multicastClaim c id => Sys2Proof.Machine.execMulticastClaim c id s
  | .matrixJobStart c => Sys2Proof.Machine.execMatrixJobStart c s
  | .matrixJobComplete c id => Sys2Proof.Machine.execMatrixJobComplete c id s
  | .arbiterWindowBoundary c => Sys2Proof.Machine.execArbiterWindowBoundary c s
  | .ridgePublish p lid => Sys2Proof.Machine.execRidgePublish p lid s
  | .layPhase p lid => Sys2Proof.Machine.execLayPhase p lid s
  | .waitvTimeout t => Sys2Proof.Machine.execWaitvTimeout t s
  | .samplerRequestServe c => Sys2Proof.Machine.execSamplerRequestServe c s
  | .rpctlWrite p v => Sys2Proof.Machine.execRpctlWrite p v s
  | .flowRuleWrite p r word v => Sys2Proof.Machine.execFlowRuleWrite p r word v s
  | .msgCountersClear p => Sys2Proof.Machine.execMsgCountersClear p s
  | .hostXlinv p v => Sys2Proof.Machine.execHostXlinv p v s
  | .xlinvComplete p => Sys2Proof.Machine.execXlinvComplete p s
  | .trstGo v => Sys2Proof.Machine.execTrstGo v s
  | .tenantResetPerform v => Sys2Proof.Machine.execTenantResetPerform v s
  | .operatorKeyLoad x y => Sys2Proof.Machine.execOperatorKeyLoad x y s
  | .frameReceive port bytes => Sys2Proof.Machine.execFrameReceive port bytes s
  | .flitReceive port flit => Sys2Proof.Machine.execFlitReceive port flit s
  | .ackIdleSend port => Sys2Proof.Machine.execAckIdleSend port s
  | .replayTimeout port => Sys2Proof.Machine.execReplayTimeout port s
  | .fragmentTransmit port vc => Sys2Proof.Machine.execFragmentTransmit port vc s
  | .laneFailure port lane => Sys2Proof.Machine.execLaneFailure port lane s
  | .retrainComplete port peer ok => Sys2Proof.Machine.execRetrainComplete port peer ok s
  | .fragmentReceive port => Sys2Proof.Machine.execFragmentReceive port s
  | .messageComplete k => Sys2Proof.Machine.execMessageComplete k s
  | .messageDeadlineExpiry k => Sys2Proof.Machine.execMessageDeadlineExpiry k s
  | .sendFragmentsDeparted t seq => Sys2Proof.Machine.execSendFragmentsDeparted t seq s
  | .sendAckTimeout t seq => Sys2Proof.Machine.execSendAckTimeout t seq s
  | .softErrorDetected e => Sys2Proof.Machine.execSoftErrorDetected e s
  | .supervisorTakeRecord c => Sys2Proof.Machine.execSupervisorTakeRecord c s
  | .powerOn => Sys2Proof.Machine.execPowerOn s
  | .imageReplyReceive src status total off bytes => Sys2Proof.Machine.execImageReplyReceive src status total off bytes s
  | .imageRequestResend off => Sys2Proof.Machine.execImageRequestResend off s
  | .imagePartyAbandon => Sys2Proof.Machine.execImagePartyAbandon s
  | .identity dg => Sys2Proof.Machine.execIdentity dg s
  | .attest dg => Sys2Proof.Machine.execAttest dg s
  | .tenantReset dg => Sys2Proof.Machine.execTenantReset dg s
  | .crashRead dg => Sys2Proof.Machine.execCrashRead dg s
  | .errlogRead dg => Sys2Proof.Machine.execErrlogRead dg s
  | .fwStage dg => Sys2Proof.Machine.execFwStage dg s
  | .fwCommit dg => Sys2Proof.Machine.execFwCommit dg s
  | .linkRetrain dg => Sys2Proof.Machine.execLinkRetrain dg s
  | .imageGet dg port0 => Sys2Proof.Machine.execImageGet dg port0 s
  | .clusterGate c => Sys2Proof.Machine.execClusterGate c s
  | .clusterWake c pass => Sys2Proof.Machine.execClusterWake c pass s
  | .thermalTrip die => Sys2Proof.Machine.execThermalTrip die s
  | .thermalTripRelease die => Sys2Proof.Machine.execThermalTripRelease die s
  | .sidebandUnknownOpcode dg => Sys2Proof.Machine.execSidebandUnknownOpcode dg s

end Sys2Proof.Machine
end

