-- ==== Sys2Proof/Machine/Turn.lean ====
section
/-! DEFINITION. A slot's turn (06 R107, R108): the wait it looks at, the fetch, the bundle it issues, the pair (R109), gangs (R112 to
R115), and the end of a cycle. -/

namespace Sys2Proof.Machine

/-! ## Running a bundle -/

/-- The state after an instruction; the meaning of every instruction answers a next state. -/
def runInstr (i : Instr) (s : State) : State :=
  match exec i s with
  | .next t => t
  | _ => s
/-- A bundle about to issue: its instructions with their words and PCs, the PC after it, and for a follower the leader's outcome. -/
structure Issue where
  i1 : Instr
  i2 : Option Instr
  w1 : W96
  w2 : W96
  ipc : W64
  ipc2 : W64
  link : W64
  npc : W64
  taken : Bool
  follow : Bool
  deriving DecidableEq, Repr
def Issue.cur1 (b : Issue) (c slot : Nat) : Cur := ⟨c, slot, b.ipc, b.link, b.npc, b.taken, .go, none, none, 0, b.follow, b.w1, b.w2⟩
def Issue.cur2 (b : Issue) (c slot : Nat) : Cur := ⟨c, slot, b.ipc2, b.link, b.npc, b.taken, .go, none, none, 0, b.follow, b.w2, b.w1⟩

/-- Two replies of one bundle that come together: the vector instruction's value stands. -/
def Result.merge (a b : Result) : Result :=
  { b with s := a.s ++ b.s, v := a.v ++ b.v, p := a.p ++ b.p, sticky := a.sticky ||| b.sticky, ctab := b.ctab.or a.ctab,
           map := a.map, track := a.track, acq := a.acq, tagged := a.tagged, owned := a.owned.or b.owned }
/-- Both instructions of a pair wait: one wait for both (06 R109). A second instruction that does not wait leaves the first one's wait as
it stands. -/
def State.joinPend (s : State) (first : Option Pend) : State :=
  match first, s.th.pend with
  | some p, some q =>
    if q.ipc = p.ipc then s
    else match p.stage, q.stage with
    | .data r, .data r' => s.updTh fun t => { t with pend := some { q with stage := .data (r.merge r'), ipc := p.ipc } }
    | _, .data r' => (s.deliver s.me r').updTh fun t => { t with pend := some p }
    | _, _ => s.updTh fun t => { t with pend := some p }
  | _, _ => s
/-- Flags that an instruction raises. -/
def State.flagsOf (s : State) (i : Instr) : BitVec 4 := (runInstr i (s.updTh fun t => { t with sticky := 0 })).th.sticky
/-- The thread waits with the second instruction of its pair until the first one's store has drained. -/
def State.waitSecond (s : State) (o : Thread) (b : Issue) : State :=
  s.updTh fun t => { t with pend := some ⟨b.ipc2, s.cur.npc, o.regs, o.sticky, o.mode, b.w2, b.w1, .second⟩ }
/-- A state with the translations, the requests and the free values that another one has seen: what translates there translates alike here. -/
def State.seeing (s x : State) : State :=
  let cl := clusterOf s.cur.core
  { s with free := x.free, l2 := x.l2, retain := x.retain }.updCluster cl fun k => { k with tlb := (x.cluster cl).tlb }
/-- A bundle run (06 R109): both instructions of a pair read before either writes, and neither takes effect unless both can. The second one is
tried with the translations of the first, so that it finds the same pages when it runs. -/
def State.runBundle (s : State) (b : Issue) : State :=
  let a := { s with cur := b.cur1 s.cur.core s.cur.slot }
  let x := runInstr b.i1 a
  match b.i2 with
  | none => x
  | some j =>
    if x.cur.fate != .go then x
    else
      let y := runInstr j { s.seeing x with cur := b.cur2 s.cur.core s.cur.slot }
      if y.cur.fate != .go then y
      else
        let f := match j with
          | .vflgclr _ => a.flagsOf b.i1
          | _ => 0
        let c := { b.cur2 s.cur.core s.cur.slot with
          npc := x.cur.npc, taken := x.cur.taken, pre := some s.th, preCtab := some (s.myCore.ctab, s.myCore.ctabhi), flags1 := f }
        let z := runInstr j { x with cur := c }
        if z.cur.fate == .passed then { x with cur := c }.waitSecond s.th b else z.joinPend x.th.pend

/-! ## Turns that an issued bundle keeps its thread from issuing -/

/-- Long instructions (06 R111). -/
def longInstr : Instr → Bool
  | .div _ | .rem _ | .vrcp _ | .vrsqrt _ | .vsqrt _ | .vdiv _ | .vexp2 _ | .vlog2 _ | .vsinpi _ | .vcospi _ | .vtanh _ | .rvnorm _ => true
  | _ => false
/-- Gang-wide forms, long for the leader (11 R230). -/
def gangForm : Instr → Bool
  | .vgsum _ | .vgmax _ | .vgmin _ | .vgperm _ | .vgbcast _ => true
  | _ => false
def Issue.instrs (b : Issue) : List Instr := b.i1 :: b.i2.toList
/-- Turns to pass after the bundle. -/
def Issue.skips (b : Issue) (leader : Bool) : Nat :=
  bnat (b.instrs.any fun i => longInstr i || (leader && gangForm i))

/-! ## Regions and signatures of a bundle (22 R378, R380) -/

def Issue.dests (b : Issue) : Dests :=
  let d := destsOf b.i1 b.w1
  match b.i2 with
  | some j => d.join (destsOf j b.w2)
  | none => d
/-- The thread as its bundle issues: its region at the bundle. -/
def State.enterBundle (s : State) (b : Issue) : State :=
  s.updTh fun t =>
    { t with region := regionBefore t b.ipc (b.instrs.any taggedEffect) (b.instrs.any endsRegion) b.dests, arrive := .plain, ridgeWait := false }
def Issue.sig (b : Issue) (g : Sig) : Sig :=
  let g := sigWord g b.w1
  if b.i2.isSome then sigWord g b.w2 else g

/-! ## Issue -/

/-- What an issued bundle leaves in its thread: PC, signature, turns to pass, bundles counted. A transfer enters its target's line anew. -/
def commitThr (b : Issue) (npc : W64) (taken leader member : Bool) (t : Thread) : Thread :=
  let g := b.sig t.sig
  { t with
      pc := npc, line := if taken || b.follow then none else t.line, pref := if taken then none else t.pref,
      sig := { g with valid := g.valid && !taken && !b.follow },
      skip := b.skips leader,
      gang := t.gang.map fun g => { g with gcnt := g.gcnt + bnat member, redo := false } }
/-- The bundle given to the followers of a gang, one rotation later (06 R113). -/
def State.giveFollowers (s : State) (g : Gang) (b : Issue) : State :=
  let f : FollowBundle := ⟨b.ipc, b.ipc2, b.i1, b.i2, b.w1, b.w2, b.link, s.cur.npc, s.cur.taken, s.cycle⟩
  ((gangCores s.cur.core g.idx g.size).drop 1).foldl (fun (s : State) c =>
    s.updThr ⟨c, s.cur.slot⟩ fun t => { t with gang := t.gang.map fun g => { g with queue := g.queue ++ [f] } }) s
/-- A bundle whose instruction consumes a poisoned register word traps (22 R379). -/
def State.trapBad (s : State) (b : Issue) : Option State :=
  let c :=
    if consumesBad s.th.regs b.i1 b.w1 then some (b.cur1 s.cur.core s.cur.slot)
    else if (b.i2.map fun j => consumesBad s.th.regs j b.w2).getD false then some (b.cur2 s.cur.core s.cur.slot) else none
  c.map fun c => { s.errLog 8 0 0 0 0x80 s.cur.core with cur := c }.takeTrap 0x80 0 1
/-- A bundle issued, or the turn passed. A bundle that a member issues again after a pre-emption was counted, and given to the followers, at
its first issue (22 R372). -/
def State.issue (s : State) (b : Issue) : State :=
  let before := s.th
  let again := before.arrive == .again
  let x := s.enterBundle b
  let x := (x.trapBad b).getD (x.runBundle b)
  match x.cur.fate with
  | .passed => x.setTh { before with line := x.th.line, ridgeWait := x.th.ridgeWait }
  | .trapped => x
  | .go =>
    let lead := match before.gang with
      | some g => if g.idx = 0 && !b.follow && !again then some g else none
      | none => none
    let x := x.updTh (commitThr b x.cur.npc x.cur.taken lead.isSome (before.gang.isSome && !again))
    match lead with
    | some g => x.giveFollowers g b
    | none => x

/-- A failed word check (04 R84, R85), at the failing instruction's PC. -/
def State.badBundle (s : State) (b : Bundle) (e : BadWord) : State :=
  let line := pcLine s.th.pc
  let k := b.slot + bnat e.second
  let s := { s with cur := { s.cur with ipc := mkPc line k, word := if e.second then b.w2 else b.w1,
                                        other := if e.second then b.w1 else b.w2 } }
  match e.opcode with
  | some (op, fn) => runInstr (.undefinedOpcode op fn) s
  | none => s.takeTrap e.cause 0 e.info

/-! ## Waiting -/

/-- A thread of a gang that waits to form: it traps if a member can no longer come (06 R112). -/
def State.pollGang (s : State) (n : Nat) : Poll :=
  let lost (c : Nat) : Bool :=
    let t := s.thr ⟨c, s.cur.slot⟩
    t.status != .running || t.gang.isSome
  if (groupOf s.cur.core s.myCore.bidx n).any lost then .used (s.trapGang s.me 8) else .wait s
/-- A step of a W7 expansion (22 R370): the final one writes memory, registers and flags, and a full store buffer holds it. Where the data
of its load came late, the thread has passed its turns by then and issues at this one (06 R110). -/
def State.pollSteps (s : State) (left : Nat) (far : Bool) (r : Result) (st : Option (Place × W64 × List Byte × Bool)) : Poll :=
  if far || decide (1 < left) then .wait (s.setStage s.me (.steps (left - 1) far r st))
  else
    let x := match st with
      | none => done s
      | some (p, a, bs, ev) => s.storeNow p (p.cells a.toNat (bytesAt a.toNat bs)) .core false ev
    match x with
    | .ok _ s => if left = 0 then .go (s.endWait s.me r) else .used (s.endWait s.me r)
    | _ => .wait s
/-- The second instruction of a pair is looked at again. -/
def State.pollSecond (s : State) : Poll :=
  match s.th.pend with
  | none => .go s
  | some p =>
    match decode p.word with
    | .error _ => .go s
    | .ok i =>
      let c := { Cur.reset with core := s.cur.core, slot := s.cur.slot, ipc := p.ipc, link := p.npc, npc := p.npc, word := p.word, other := p.other }
      let x := runInstr i { s.updTh fun t => { t with pend := none } with cur := c }
      if x.cur.fate == .passed then .wait s
      else if x.cur.fate == .trapped then .used x
      else if x.th.pend.isSome then .wait x else .go { x with cur := s.cur }
/-- What the turn of a thread in an issued instruction comes to. -/
def State.pollStage (s : State) (g : Stage) : Poll :=
  match g with
  | .data _ | .coh _ _ | .dlWait _ | .sampler _ | .xlinv => .wait s
  | .fence r sc => if s.relDone s.cur.core r sc then .go ((s.acquire sc).endWait s.me .none) else .wait s
  | .barRel r y sc c d => s.pollBarRel r y sc c d
  | .barWait b g sc d => s.pollBarWait b g sc d
  | .phRel r d => s.pollPhRel r d
  | .phWait p d => s.pollPhWait p d
  | .ibRel r sc a v d => s.pollIbRel r sc a v d
  | .dlRel r a d => s.pollDlRel r a d
  | .dlFull w d => s.pollDlFull w d
  | .waitv since _ pa ms v sc lim d =>
    let s := s.versionRead (verKey (lineOf pa) ms)
    match s.waitvLook since pa ms (s.versionStart (lineOf pa) ms) v lim sc d with
    | some r => .go (s.endWait s.me r)
    | none => .wait s
  | .steps left far r st => s.pollSteps left far r st
  | .second => s.pollSecond
  | .rbind sn a m sc o c d => s.pollRbind sn a m sc o c d
  | .cjob d 0 x row => let _ := (d, x, row); .wait s
  | .cjob d k x row => s.pollCjob d k x row
  | .gang n => s.pollGang n
/-- The conditions of R108 that do not depend on the next bundle. -/
def State.pollThread (s : State) : Poll :=
  match s.th.pend with
  | none => .go s
  | some p => s.pollStage p.stage

/-! ## Gang members -/

def FollowBundle.issue (f : FollowBundle) : Issue := ⟨f.i1, f.i2, f.w1, f.w2, f.ipc, f.ipc2, f.link, f.npc, f.taken, true⟩
/-- The bundle of the leader that a follower issues in this cycle. -/
def dueBundle (cycle : Nat) (g : Gang) : Option FollowBundle := g.queue.find? fun f => decide (f.cycle < cycle)
def State.at (s : State) (t : ThreadId) : State := { s with cur := { Cur.reset with core := t.core, slot := t.slot } }
/-- A member could issue the leader's next bundle one rotation later (06 R114): it does not wait and passes no turn; the bundle of the
leader that it has still to issue goes in this cycle and does not make it wait; and the new one finds no condition of R108. A constant line
that the member misses is filled, as at a turn of its own (04 R79). -/
def State.memberReady (s : State) (m : ThreadId) (b : Issue) : Bool × State :=
  let h := s.at m
  let q := (h.th.gang.map (·.queue)).getD []
  if h.th.status != .running || h.th.wake == some s.cycle || h.th.skip != 0 || decide (1 < q.length) then (false, s)
  else
    match h.pollThread with
    | .wait _ | .used _ => (false, s)
    | .go x =>
      let b := { b with follow := true }
      match q with
      | [] =>
        let x := ((x.at m).trapBad b).getD ((x.at m).runBundle b)
        if x.cur.fate != .passed then (true, s)
        else (false, if h.th.pend.isNone then { x with cur := s.cur } else s)
      | f :: _ =>
        let x := x.issue f.issue
        if x.cur.fate == .passed || x.th.pend.isSome || x.th.skip != 0 then (false, s)
        else (((x.at m).runBundle b).cur.fate != .passed, s)
/-- Every follower of a gang is ready; constant lines that they miss are filled. -/
def State.gangReady (s : State) (g : Gang) (b : Issue) : Bool × State :=
  ((gangCores s.cur.core g.idx g.size).drop 1).foldl (fun (a : Bool × State) c => if a.1 then a.2.memberReady ⟨c, s.cur.slot⟩ b else a) (true, s)
/-- A follower's turn. -/
def State.followTurn (s : State) (g : Gang) : State :=
  match dueBundle s.cycle g with
  | none => s
  | some f =>
    let x := (s.updTh fun t => { t with gang := t.gang.map fun g => { g with queue := g.queue.filter (· != f) } }).issue f.issue
    if x.cur.fate == .passed then x.updTh fun t => { t with gang := some g }
    else x.updTh fun t => { t with gang := t.gang.bind fun g => if g.leaving && g.queue.isEmpty then none else some { g with last := some f } }

/-! ## The turn -/

/-- The bundle at the thread's PC. -/
def issueOf (line : Nat) (b : Bundle) (i : Instr) (j : Option Instr) : Issue :=
  let n := pcAfter line b.slot b.n
  ⟨i, j, b.w1, b.w2, mkPc line b.slot, mkPc line (b.slot + 1), n, n, false, false⟩
/-- A fetched line: the checks of the bundle, then its issue. -/
def State.issueFrom (s : State) (img : BitVec 512) : State :=
  let line := pcLine s.th.pc
  let b := bundleOf img (pcSlot s.th.pc)
  match b.check with
  | .error e => s.badBundle b e
  | .ok (i, j) =>
    let x := issueOf line b i j
    let s := { s with cur := x.cur1 s.cur.core s.cur.slot }
    match s.checkSig x.ipc with
    | .pass s => s
    | .trap s c a i => s.takeTrap c a i
    | .ok _ s =>
      match s.th.gang with
      | some g =>
        if g.idx = 0 && s.th.arrive != .again then
          let r := s.gangReady g x
          if r.1 then s.issue x else r.2
        else s.issue x
      | none => s.issue x
/-- The thread fetches its next bundle and issues it. -/
def State.fetchTurn (s : State) : State :=
  let pc := s.th.pc
  let s := { s with cur := { s.cur with ipc := pc } }
  if s.th.arrive = .resume && (4 < pcSlot pc || bits pc.toNat 3 3 != 0 || bits pc.toNat 52 12 != 0) then s.takeTrap 0x05 pc 0
  else
    match s.fetch with
    | .wait s => s
    | .fault cause info img s =>
      let s := match img with
        | some i =>
          let b := bundleOf i (pcSlot pc)
          { s with cur := { s.cur with word := lineWord i (pcSlot pc), other := if b.n = 2 then (if pcSlot pc = b.slot then b.w2 else b.w1) else 0 } }
        | none => s
      runInstr (.instructionFetchFault cause (pcLine pc) info) s
    | .line img s => s.issueFrom img
/-- A thread that nothing holds. A leader whose gang-wide form has not been combined waits for its result (11 R230). -/
def State.readyTurn (s : State) : State :=
  match s.th.gang with
  | some g =>
    if g.leaving && g.queue.isEmpty then (s.updTh fun t => { t with gang := none }).fetchTurn
    else if g.idx != 0 || g.leaving then s.followTurn g
    else if g.cap.isSome then s
    else s.fetchTurn
  | none => s.fetchTurn
/-- The task of a core is being stopped by the halt tree (22 R372). -/
def State.halting (s : State) (c : Nat) : Bool :=
  match (s.core c).task.bind s.placeOf with
  | some (.leaving _ _) => true
  | _ => false
/-- An expansion, which the halt tree abandons (22 R372). -/
def Stage.isSteps (g : Stage) : Bool :=
  match g with
  | .steps _ _ _ _ => true
  | _ => false
/-- A `waitv`, whose wait the halt tree abandons, unless a follower has still to issue what its leader has (16 R309, 22 R372). -/
def Stage.isWaitv (g : Stage) : Bool :=
  match g with
  | .waitv _ _ _ _ _ _ _ _ => true
  | _ => false
/-- The second instruction of a pair whose first has stored: the thread stops after its bundle (22 R372). -/
def Stage.isSecond (g : Stage) : Bool :=
  match g with
  | .second => true
  | _ => false
/-- A turn that the thread passes: one fewer of those that a long instruction or an expansion has still to pass (06 R111, 22 R370), whether or not
data came in the same cycle (06 R108). -/
def Thread.passTurn (t : Thread) : Thread :=
  { t with
      skip := t.skip - 1,
      pend := t.pend.map fun p => match p.stage with
        | .steps n far r st => { p with stage := .steps (n - 1) far r st }
        | _ => p }
/-- A turn under the halt tree: a follower still issues what its leader has issued, and an effect that has issued reaches its target. -/
def State.haltTurn (s : State) : State :=
  let t := s.th
  let due := ((t.gang.map fun g => !g.queue.isEmpty).getD false)
  if t.status != .running then s
  else if t.wake == some s.cycle || t.skip != 0 then s.updTh Thread.passTurn
  else
    match t.pend with
    | none =>
      match t.gang with
      | some g => if due then s.followTurn g else s
      | none => s
    | some p =>
      if p.stage.isSteps || (p.stage.isWaitv && !due) then s
      else if p.stage.isSecond then
        match s.pollStage p.stage with
        | .wait x => x
        | .used x => x
        | .go x => x
      else
        match s.pollStage p.stage with
        | .wait s => s
        | .used s => s
        | .go x => if due then x else s
/-- One slot's turn (06 R107): at most one bundle, or the turn passes. -/
def State.slotTurn (s : State) (c slot : Nat) : State :=
  let s := s.at ⟨c, slot⟩
  if s.halting c then s.haltTurn else
  let s := if slot = 7 then s.takeRecord c else s
  let t := s.th
  if t.status != .running then s
  else if t.wake == some s.cycle then s.updTh Thread.passTurn
  else
    match (if slot < 7 then t.confl else none) with
    | some (a, i) =>
      let w := s.wordsAt s.me t.pc
      let s := s.updTh fun t => { t with confl := none }
      if t.pend.isSome then s.trapPend s.me 0x50 a i
      else { s with cur := { s.cur with ipc := t.pc, word := w.1, other := w.2 } }.takeTrap 0x50 a i
    | none =>
      if t.skip != 0 then s.updTh Thread.passTurn
      else
        match s.pollThread with
        | .wait s => s
        | .used s => s
        | .go s => s.readyTurn
/-- The slot whose turn it is on a core (06 R107). -/
def slotAt (cycle cycle0 : Nat) : Nat := (cycle - cycle0) % 8
def State.coreTurn (s : State) (c : Nat) : State := s.slotTurn c (slotAt s.cycle (s.core c).cycle0)

/-! ## The end of a cycle -/

/-- A core as a cycle begins: the code tables that arrived stand, and issue checks see what the cycle before has left. -/
def freshCore (k : Core) : Core := { k.landCtab with tiles0 := k.tiles, tdefs := [], gone := [] }
def freshCluster (k : Cluster) : Cluster :=
  { k with mtx0 := (k.oslots.length, k.accs.length, decide (k.budget ≤ k.winTotal)), vacated := (0, 0, 0) }
/-- What takes place as a cycle ends: deferred slot-table values whose tasks have retired (03 R58); claims and landings, after the slots' own fills (08 R161); barriers and phases that are full (16 R312,
R314); retention steps, after the cycle's requests (12 R235); engine writes, which loads see from the next cycle on (15 R286, 20 R355); threads that a drawn trap parks (21
R359). -/
def State.endCycle (s : State) : State :=
  let s := s.landClaims.landFrames.applyDeferred
  let s := { s with tasks := s.tasks.map fun t => Task.completeBarriers t s.cycle s.tileNow }
  s.phaseTick.winTick.landRetain.landLate.parkDues
/-- The next cycle: clocks (24 R386), virtual times (03 R57), the tables as the cycle starts. -/
def State.nextCycle (s : State) : State :=
  let s := s.endCycle.vtTick
  { s with
      cycle := s.cycle + 1, nextCore := 0, ptp := (s.ptp + 1000000 + s.mgmt.ppm).toNat, vers0 := [],
      cores := s.cores.map fun e => (e.1, freshCore e.2),
      clusters := s.clusters.map fun e => (e.1, freshCluster e.2),
      tasks := s.tasks.map fun t => { t with ae0 := t.ae },
      launches := s.launches.map fun l => { l with ridge0 := l.ridge } }
/-- The next core in this cycle, or the next cycle. -/
def State.turn (s : State) : State :=
  match s.cores.find? fun e => decide (s.nextCore ≤ e.1) with
  | some (c, _) => { s.coreTurn c with nextCore := c + 1 }
  | none => s.nextCycle

end Sys2Proof.Machine
end

