-- ==== Sys2Proof/Machine/Step.lean ====
section
/-! DEFINITION. One step of the package (log 1), and how a program's word comes to be the next one fetched (log 11). -/

namespace Sys2Proof.Machine

/-- What may stand in an agenda: the events of the table that no thread's bundle is. -/
def isEvent : Instr → Bool
  | .queueEnable _ _ _ | .qwrWrite _ _ _ | .acceptPacket _ | .dispatchTask _ _ | .partitionCreate _ _ | .slotTableWrite _ _ _
  | .fetchFill _ _ | .loadDataArrival _ | .storeBufferDrain _ _ | .blockBufferDrain _ _ _ | .coherencePointOperation _
  | .copyJobStart _ | .copyJobRow _ _ | .copyJobComplete _ _ | .barrierComplete _ _ | .registerWrite _ _ | .queueDisable _ _ _
  | .queueDrain _ _ _ | .queueAbort _ _ _ | .taskRetire _ | .closeLaunch _ _ | .expertChange _ _ | .sltstatClear _
  | .preemptTask _ | .spillStart _ | .spillStop _ | .spillEnd _ | .resumeFill _ _ _ | .l1CopyDrop _ _ | .postedWritePerform
  | .fabricSendDepart | .multicastClaim _ _ | .matrixJobStart _ | .matrixJobComplete _ _ | .arbiterWindowBoundary _
  | .ridgePublish _ _ | .layPhase _ _ | .waitvTimeout _ | .samplerRequestServe _ | .rpctlWrite _ _ | .flowRuleWrite _ _ _ _
  | .msgCountersClear _ | .hostXlinv _ _ | .xlinvComplete _ | .trstGo _ | .tenantResetPerform _ | .operatorKeyLoad _ _
  | .frameReceive _ _ | .flitReceive _ _ | .ackIdleSend _ | .replayTimeout _ | .fragmentTransmit _ _ | .laneFailure _ _
  | .retrainComplete _ _ _ | .fragmentReceive _ | .messageComplete _ | .messageDeadlineExpiry _ | .sendFragmentsDeparted _ _
  | .sendAckTimeout _ _ | .softErrorDetected _ | .supervisorTakeRecord _ | .powerOn | .imageReplyReceive _ _ _ _ _
  | .imageRequestResend _ | .imagePartyAbandon | .identity _ | .attest _ | .tenantReset _ | .crashRead _ | .errlogRead _
  | .fwStage _ | .fwCommit _ | .linkRetrain _ | .imageGet _ _ | .clusterGate _ | .clusterWake _ _ | .thermalTrip _
  | .thermalTripRelease _ | .sidebandUnknownOpcode _ => true
  | _ => false

/-- One step: the next event of the agenda, or with none the next turn. -/
def step (s : State) : Host.Outcome State Fault Refusal :=
  match s.agenda with
  | [] => .next s.turn
  | i :: r => if isEvent i then exec i { s with agenda := r } else .fault .agendaEntry

/-- A line of single bundles with a word in slot 0. -/
def lineOfWord (w : W96) : BitVec 512 := w.zeroExtend 512
/-- A thread about to issue from a line that it has entered. -/
def readyThread (t : Thread) (line : Nat) (img : BitVec 512) : Thread :=
  { t with
      pc := mkPc line 0, status := .running, line := some (line, img), refetch := none, pref := some line, confl := none, skip := 0, pend := none,
      gang := none, arrive := .plain, wake := none }
/-- The word as the next bundle of slot 0 of core 0, in a line filled one cycle ago. -/
def State.withFetchWord (s : State) (_nbits w : Nat) : State :=
  let k := s.core 0
  let t := k.threads.getD 0 .reset
  let line := pcLine t.pc
  let img := lineOfWord (BitVec.ofNat 96 w)
  let k := { k with threads := k.threads.put 0 (readyThread t line img), l0 := l0Put k.l0 line img s.cycle, cycle0 := s.cycle + 1 }
  { s with agenda := [], nextCore := 0, cycle := s.cycle + 1, cores := s.cores.put 0 k }

end Sys2Proof.Machine
end

