-- ==== Sys2Proof/Safety.lean ====
section
/-! DEFINITION. What counts as a safe run, and the terms in which the statements about the model are made: the invariant every step
keeps, narrowing and values of the integer types written with bit-vector operations alone, and what an instruction leaves as it was. -/

namespace Sys2Proof.Machine

/-- Device memory is in canonical form. -/
def State.memOk (s : State) : Bool := Memory.wf s.mem
/-- Every entry of the agenda is an event. -/
def State.agendaOk (s : State) : Bool := s.agenda.all isEvent
/-- A step that stops on no fault and no refusal. -/
def SafeStep (s : State) : Prop := ∃ t, step s = .next t

end Sys2Proof.Machine

namespace Sys2Proof.Claims

open Sys2Proof Sys2Proof.Machine

/-! ## Integers of a type (07 R122, R123), with bit-vector operations only -/

/-- The low w bits of a 64-bit value, extended again by the sign of the type. -/
def narrow (t : IntTy) (x : W64) : W64 :=
  match t with
  | .i64 | .n64 => x
  | .i32 => (x.setWidth 32).signExtend 64
  | .n32 => (x.setWidth 32).setWidth 64
  | .i16 => (x.setWidth 16).signExtend 64
  | .n16 => (x.setWidth 16).setWidth 64
  | .i8 => (x.setWidth 8).signExtend 64
  | .n8 => (x.setWidth 8).setWidth 64
def width (t : IntTy) : Nat :=
  match t with
  | .i64 | .n64 => 64
  | .i32 | .n32 => 32
  | .i16 | .n16 => 16
  | .i8 | .n8 => 8
def signed (t : IntTy) : Bool :=
  match t with
  | .i64 | .i32 | .i16 | .i8 => true
  | _ => false
/-- The value a type reads in a register. -/
def value (t : IntTy) (x : W64) : Int := if signed t then (narrow t x).toInt else ((narrow t x).toNat : Int)
/-- Smallest and largest value of a type. -/
def least (t : IntTy) : Int := if signed t then -(2 ^ (width t - 1)) else 0
def most (t : IntTy) : Int := if signed t then 2 ^ (width t - 1) - 1 else 2 ^ width t - 1
/-- A value brought into the range of a type. -/
def clamp (t : IntTy) (x : Int) : Int := max (least t) (min (most t) x)
/-- A pattern rotated left within the width of a type. -/
def rotated (t : IntTy) (x : W64) (n : Nat) : W64 :=
  narrow t (match width t with
    | 64 => x.rotateLeft n
    | 32 => ((x.setWidth 32).rotateLeft n).setWidth 64
    | 16 => ((x.setWidth 16).rotateLeft n).setWidth 64
    | _ => ((x.setWidth 8).rotateLeft n).setWidth 64)
/-- A right shift: arithmetic for the signed types, logical for the others. -/
def shifted (t : IntTy) (x : W64) (n : Nat) : W64 := if signed t then (narrow t x).sshiftRight n else narrow t x >>> n

/-! ## What an instruction leaves as it was -/

/-- Every register of the issuing thread but those listed. -/
def KeepsRegs (s t : State) (ds : List SReg) (vs : List VReg) (ps : List PReg) (cs : List CReg) : Prop :=
  (∀ n, n ∉ ds → rdS t.th.regs n = rdS s.th.regs n) ∧ (∀ n, n ∉ vs → rdV t.th.regs n = rdV s.th.regs n)
    ∧ (∀ n, n ∉ ps → rdP t.th.regs n = rdP s.th.regs n) ∧ (∀ n, n ∉ cs → rdC t.th.regs n = rdC s.th.regs n)
/-- Every byte of device memory and of every scratchpad. -/
def KeepsMem (s t : State) : Prop :=
  (∀ a, memByte t.mem a = memByte s.mem a) ∧ ∀ c a, memByte (t.core c).sram a = memByte (s.core c).sram a
/-- The status registers of the issuing thread other than its flags: mode, drawing counter, sequence numbers, validation set, segment
maps and the upper half of the clock. -/
def KeepsStatus (s t : State) : Prop :=
  t.th.mode = s.th.mode ∧ t.th.ctr = s.th.ctr ∧ t.th.esn = s.th.esn ∧ t.th.copySeq = s.th.copySeq ∧ t.th.mtxSeq = s.th.mtxSeq
    ∧ t.th.msgSeq = s.th.msgSeq ∧ t.th.valset = s.th.valset ∧ t.th.sm0 = s.th.sm0 ∧ t.th.sm1 = s.th.sm1 ∧ t.th.timehi = s.th.timehi
/-- The sticky flags. -/
def KeepsFlags (s t : State) : Prop := t.th.sticky = s.th.sticky
/-- The registers a trap is saved in, and the code table, of every core; and the PC of the issuing thread, which the machine moves
after the instruction. -/
def KeepsCore (s t : State) : Prop :=
  (∀ c, (t.core c).bank0 = (s.core c).bank0 ∧ (t.core c).bank1 = (s.core c).bank1 ∧ (t.core c).queue = (s.core c).queue
    ∧ (t.core c).ctab = (s.core c).ctab ∧ (t.core c).ctabhi = (s.core c).ctabhi) ∧ t.th.pc = s.th.pc
/-- Every thread but the issuing one. -/
def KeepsOthers (s t : State) : Prop := ∀ u, u ≠ s.me → t.thr u = s.thr u
/-- Matrix accumulators, operand slots and tiles. -/
def KeepsUnits (s t : State) : Prop :=
  (∀ c, (t.cluster c).accs = (s.cluster c).accs ∧ (t.cluster c).oslots = (s.cluster c).oslots) ∧
    ∀ c, (t.core c).tiles = (s.core c).tiles
/-- All but the registers listed. -/
def OnlyRegs (s t : State) (ds : List SReg) (vs : List VReg) (ps : List PReg) : Prop :=
  KeepsRegs s t ds vs ps [] ∧ KeepsMem s t ∧ KeepsStatus s t ∧ KeepsCore s t ∧ KeepsOthers s t ∧ KeepsUnits s t
/-- The issuing thread's registers written, and nothing else; the counter of free values may have moved. -/
def Wrote (s t : State) (f : Regs → Regs) : Prop := ∃ k, t = { s.updRegs f with free := k }
/-- A passed turn that changed caches: constant lines, translations, where lines stand in L2 and what retention counts. -/
def OnlyCaches (s t : State) : Prop :=
  t = { s with cur := t.cur, free := t.free, l2 := t.l2, retain := t.retain, cores := t.cores, clusters := t.clusters } ∧
  t.cur = { s.cur with fate := .passed } ∧ (∀ c, t.core c = { s.core c with cc := (t.core c).cc }) ∧
  ∀ c, t.cluster c = { s.cluster c with tlb := (t.cluster c).tlb }

/-! ## Operations at points of coherence (15 R288, 16 R302 to R308) -/

/-- An instruction hands an operation `o` on the `n` bytes at `a` to the point of coherence: the checks of the address first, the alignment last, then the
posted writes that an acquire of the thread waits for; where its order releases, a release entry goes into the store buffer ahead of it. -/
def HandsOver (i : Instr) (s : State) (a : W64) (n : Nat) (kd : Kind) (rel : Bool) (sc : Scope) (o : State → Place → CohOp) : Prop :=
  (∀ (s' : State) (e : Byte) (b k : W64), s.access s.agent a n kd true = .trap s' e b k → exec i s = .next (s'.takeTrap e b k)) ∧
  ∀ (s' : State) (p : Place), s.access s.agent a n kd true = .ok p s' →
    (a.toNat % n ≠ 0 → exec i s = .next (s'.takeTrap 0x13 a 0)) ∧
    (a.toNat % n = 0 → ∀ g : State, s'.phaseGate true = .ok () g →
      let u := g.settleTh
      (rel = false → exec i s = .next (u.wait (.coh (o s' p) none))) ∧
      (rel = true → 32 ≤ u.myCore.sb.length → exec i s = .next { u with cur := { u.cur with fate := .passed } }) ∧
      (rel = true → u.myCore.sb.length < 32 →
        ∃ (t : State) (e : Entry), exec i s = .next t ∧ (t.core u.cur.core).sb = u.myCore.sb ++ [e] ∧ e.rel = true ∧ e.scope = sc ∧ e.cells = [] ∧
          t.stageOf u.me = some (.coh (o s' p) (if sc = .core then none else some e.id)) ∧ KeepsMem u t ∧ t.th.regs = u.th.regs))

/-! ## Guards (04 R76) -/

/-- The guard of an instruction that takes effect under bit 0 of its predicate (04 R76): the instructions that act on no lanes and accept a
guard. -/
def guardOf (i : Instr) : Option Hdr :=
  match i with
  | .add x | .sub x | .mul x | .mulh x | .and x | .or x | .xor x | .andn x | .min x | .max x | .div x | .rem x => some x.h
  | .shl x | .shr x | .rotl x | .ext x => some x.h
  | .ins x => some x.h
  | .clz x | .ctz x | .popc x | .brev x | .bswap x => some x.h
  | .cmpeq x | .cmpne x | .cmplt x | .cmple x | .cmpgt x | .cmpge x => some x.h
  | .sel x => some x.h
  | .mov x => some x.h
  | .lih x => some x.h
  | .lea x => some x.h
  | .nop x | .ret x | .valclr x => some x.h
  | .pand x | .por x | .pxor x | .pandn x => some x.h
  | .pnot x => some x.h
  | .pset x => some x.h
  | .pread x | .pcnt x => some x.h
  | .pwrite x => some x.h
  | .srd x => some x.h
  | .swr x => some x.h
  | .br x | .call x => some x.h
  | .brz x | .brnz x | .brdec x => some x.h
  | .callr x | .jr x => some x.h
  | .part x => some x.h
  | .ld x => some x.h
  | .st x => some x.h
  | .ldv x => some x.h
  | .stcv x => some x.h
  | .valchk x | .ibpoll x | .rand x => some x.h
  | .pref x => some x.h
  | .rrow x => some x.h
  | .aadd x | .aand x | .aor x | .axor x | .amin x | .amax x | .aswap x | .acas x => some x.h
  | .afadd x => some x.h
  | .mradd x | .mrand x | .mror x | .mrxor x | .mrmin x | .mrmax x => some x.h
  | .mrfadd x => some x.h
  | .casv x => some x.h
  | .waitv x => some x.h
  | .fence x => some x.h
  | .ibsend x => some x.h
  | .ibrecv x => some x.h
  | .dlaunch x => some x.h
  | .dsignal x => some x.h
  | .msgsend x => some x.h
  | .msgpost x => some x.h
  | _ => none

/-! ## Vector results (11 R213, R214) -/

/-- Elements of width `w` of the vector register `d` after an instruction: `f` where the guard bit of their lane is 1, else as before. -/
def Elements (s t : State) (g : W32) (d : VReg) (w : Nat) (f : Nat → Nat) : Prop :=
  ∀ e, e < 1024 / w → elem w (rdV t.th.regs d) e = if g.getLsbD (e / (32 / w)) then f e % 2 ^ w else elem w (s.rv d) e
/-- Element `e` is active and raises flag `k`. -/
def Raises (g : W32) (w : Nat) (f : Nat → Nat × Nat) (k : Nat) : Prop :=
  ∃ e, e < 1024 / w ∧ g.getLsbD (e / (32 / w)) = true ∧ (f e).2.testBit k = true
/-- An elementwise vector instruction with results and flags `f`: D, the sticky flags and nothing else; with an active invalid, overflow or
saturation under MODE.ARITH = 1, the trap of cause 0x40 that names them. -/
def ElementwiseDone (o : Host.Outcome State Fault Refusal) (s : State) (g : W32) (d : VReg) (w : Nat) (f : Nat → Nat × Nat) : Prop :=
  let traps := s.mode.arith = true ∧ (Raises g w f 0 ∨ Raises g w f 1 ∨ Raises g w f 3)
  (¬ traps → ∃ t, o = .next t ∧ OnlyRegs s t [] [d] [] ∧ (g = 0 → t.th.regs = s.th.regs) ∧
    (g ≠ 0 → Elements s t g d w fun e => (f e).1) ∧
    (∀ k, k < 4 → (t.th.sticky.getLsbD k = true ↔ s.th.sticky.getLsbD k = true ∨ Raises g w f k))) ∧
  (traps → ∃ i, o = .next (s.takeTrap 0x40 0 i) ∧ (i.getLsbD 1 = true ↔ Raises g w f 3) ∧ (i.getLsbD 2 = true ↔ Raises g w f 0) ∧
    (i.getLsbD 3 = true ↔ Raises g w f 1))
/-- Lanes moved without flags. -/
def LanesDone (o : Host.Outcome State Fault Refusal) (s : State) (g : W32) (d : VReg) (f : Nat → W32) : Prop :=
  ∃ t, o = .next t ∧ OnlyRegs s t [] [d] [] ∧ KeepsFlags s t ∧ (g = 0 → t.th.regs = s.th.regs) ∧
    (g ≠ 0 → ∀ j, j < 32 → lane (rdV t.th.regs d) j = if g.getLsbD j then f j else lane (s.rv d) j)
/-- An integer element of the exact value `r`: wrapped, or under `.sat` clamped with flag S. -/
def intElement (t : IntTy) (sat : Bool) (r : Int) : Nat × Nat :=
  if sat then ((BitVec.ofInt 64 (clamp t r)).toNat, if clamp t r = r then 0 else 8) else ((BitVec.ofInt 64 r).toNat, 0)
/-- TRAPINFO of the trap that flags take under MODE.ARITH (09 R173): saturated, invalid, overflow. -/
def arithWord (f : Nat) : W64 :=
  BitVec.ofNat 64 ((if f.testBit 3 then 2 else 0) + (if f.testBit 0 then 4 else 0) + (if f.testBit 1 then 8 else 0))
/-- The binary tree of 09 R183 over 2^k values: neighbours first. -/
def treeOf {α : Type} (c : α → α → α) : Nat → (Nat → α) → Nat → α
  | 0, f, i => f i
  | k + 1, f, i => c (treeOf c k f (2 * i)) (treeOf c k f (2 * i + 1))

/-! ## Exact values and single rounding (09 R171 to R173) -/

/-- The number that a finite value stands for. -/
def rat (v : FVal) : ℚ :=
  match v with
  | .fin n m e => (if n then -1 else 1) * (m : ℚ) * (2 : ℚ) ^ e
  | _ => 0
def finite (v : FVal) : Prop := ∃ n m e, v = .fin n m e
/-- `p` is the pattern of a format's value that a rounding mode gives for `q`, which lies within the format's range. -/
def Rounds (f : FFmt) (rm : Rm) (q : ℚ) (p : Nat) : Prop :=
  let v := rat (fdec f p)
  let held := fun w : ℚ => ∃ y, y < 2 ^ f.width ∧ finite (fdec f y) ∧ w = rat (fdec f y)
  p < 2 ^ f.width ∧ finite (fdec f p) ∧
  match rm with
  | .rtz => |v| ≤ |q| ∧ 0 ≤ v * q ∧ ∀ w, held w → |w| ≤ |q| → |w| ≤ |v|
  | .rup => q ≤ v ∧ ∀ w, held w → q ≤ w → v ≤ w
  | .rdn => v ≤ q ∧ ∀ w, held w → w ≤ q → w ≤ v
  | .rne => ∀ w, held w → |v - q| ≤ |w - q| ∧ (|v - q| = |w - q| → w = v ∨ p % 2 = 0)
  | .rna => ∀ w, held w → |v - q| ≤ |w - q| ∧ (|v - q| = |w - q| → |w| ≤ |v|)
/-- Largest finite number of a format, and the step to the next one if the exponent went on. -/
def largest (f : FFmt) : ℚ := rat (fdec f f.maxBits)
def lastStep (f : FFmt) : ℚ := rat (fdec f f.maxBits) - rat (fdec f (f.maxBits - 1))
/-- A number beyond the largest finite one rounds past it. -/
def Overflows (f : FFmt) (rm : Rm) (q : ℚ) : Prop :=
  match rm with
  | .rtz => largest f + lastStep f ≤ |q|
  | .rup => if 0 < q then largest f < q else largest f + lastStep f ≤ -q
  | .rdn => if q < 0 then largest f < -q else largest f + lastStep f ≤ q
  | .rne => largest f + lastStep f / 2 < |q| ∨ (|q| = largest f + lastStep f / 2 ∧ f.maxBits % 2 = 1)
  | .rna => largest f + lastStep f / 2 ≤ |q|
/-- What an overflow gives, by the table of R172. -/
def overflowGives (f : FFmt) (rm : Rm) (sat ns neg : Bool) : Nat :=
  let signed := fun p : Nat => if neg then 2 ^ (f.width - 1) + p else p
  if f = fE4m3 then if ns then 0x7F else signed 0x7E
  else if sat then signed f.maxBits
  else match rm, neg with
    | .rne, _ | .rna, _ | .rup, false | .rdn, true => signed (f.maxBits + 1)
    | .rtz, _ | .rup, true | .rdn, false => signed f.maxBits

/-- A finite number `q` with sign `n` rounded once to a format: pattern and flags. -/
def RoundedTo (f : FFmt) (rm : Rm) (sat ns n : Bool) (q : ℚ) (r : Nat × Nat) : Prop :=
  (|q| ≤ largest f → Rounds f rm q r.1 ∧ (r.2 = if rat (fdec f r.1) = q then 0 else 4) ∧ r.1.testBit (f.width - 1) = n) ∧
  (largest f < |q| → Overflows f rm q → r = (overflowGives f rm sat ns n, 6)) ∧
  (largest f < |q| → ¬ Overflows f rm q → r = ((if n then 2 ^ (f.width - 1) + f.maxBits else f.maxBits), 4))
/-- `z` is the integer that a rounding mode gives for `q` (09 R171, R174). -/
def RoundsInt (rm : Rm) (q : ℚ) (z : Int) : Prop :=
  match rm with
  | .rtz => |(z : ℚ)| ≤ |q| ∧ 0 ≤ (z : ℚ) * q ∧ |q| < |(z : ℚ)| + 1
  | .rup => q ≤ z ∧ (z : ℚ) < q + 1
  | .rdn => (z : ℚ) ≤ q ∧ q < z + 1
  | .rne => |q - z| ≤ 1 / 2 ∧ (|q - z| = 1 / 2 → z % 2 = 0)
  | .rna => |q - z| ≤ 1 / 2 ∧ (|q - z| = 1 / 2 → |q| ≤ |(z : ℚ)|)
/-- `p` is the f32 pattern of the square root of a positive number, correctly rounded (11 R225). -/
def RoundsRoot (rm : Rm) (q : ℚ) (p : Nat) : Prop :=
  let v : ℝ := (rat (fdec fF32 p) : ℝ)
  let r := Real.sqrt (q : ℝ)
  let held := fun w : ℝ => ∃ y, y < 2 ^ 32 ∧ finite (fdec fF32 y) ∧ w = (rat (fdec fF32 y) : ℝ)
  p < 2 ^ 31 ∧ finite (fdec fF32 p) ∧
  match rm with
  | .rtz | .rdn => v ≤ r ∧ ∀ w, held w → w ≤ r → w ≤ v
  | .rup => r ≤ v ∧ ∀ w, held w → r ≤ w → v ≤ w
  | .rne => ∀ w, held w → |v - r| ≤ |w - r| ∧ (|v - r| = |w - r| → w = v ∨ p % 2 = 0)
  | .rna => ∀ w, held w → |v - r| ≤ |w - r| ∧ (|v - r| = |w - r| → |w| ≤ |v|)

/-! ## Sampling and drawn instructions (20 R348 to R353) -/

/-- `cs` are the first `k` of `n` logits in decreasing order of value, equal values by increasing index, those of -infinity left out. -/
def FirstOf (l : Nat → Nat) (n k : Nat) (cs : List Nat) : Prop :=
  let lt := fun i j => logitKey (l j) < logitKey (l i) ∨ (logitKey (l i) = logitKey (l j) ∧ i < j)
  (∀ i ∈ cs, i < n ∧ l i ≠ 0xFF800000) ∧ cs.Pairwise lt ∧ cs.length ≤ k ∧
    ∀ i, i < n → l i ≠ 0xFF800000 → i ∉ cs → cs.length = k ∧ ∀ j ∈ cs, lt j i
/-- The weight of a logit under the largest one: floor(E(u) * 2^32). -/
def weightOf (m rt l : Nat) : Nat :=
  let d := if m = 0x7F800000 then (if l = m then 0 else 0xFF800000) else (felem .sub fF32 .rne false false l m 0).1
  let u := (felem .mul fF32 .rne false false d rt 0).1
  (⌊rat (fdec fF32 (fexp2 (fdec fF32 u)).1) * 2 ^ 32⌋).toNat
/-- The record `r'` is `r` with these q registers, LA, CHUNKS, FLAGS and TRAPS, one more instruction counted in EXEC, and the rest as it was. -/
def DrawnRec (r r' : SeqRec) (q : Nat → Nat) (la chunks flags traps : Nat) : Prop :=
  (∀ k, k < 16 → r'.q k = q k) ∧ r'.la = la ∧ r'.chunks = chunks ∧ r'.flags = flags ∧ r'.f 1600 32 = traps ∧
    r'.f 1632 32 = (r.f 1632 32 + 1) % 2 ^ 32 ∧ ∀ i, 1104 ≤ i → i < 2048 → (i < 1600 ∨ 1664 ≤ i) → r'.getLsbD i = r.getLsbD i
/-- A drawn trap: LA and CHUNKS are 0, TRAPS counts it, and the tokens of its cause follow. -/
def DrawnTraps (e : DrawnEff) (r : SeqRec) (cause qidx ctr : Nat) : Prop :=
  let mark := if cause = 0x70 then 0x782 else if cause = 0x71 then 0x783 else if cause = 0x72 then 0x784 else 0x785
  e.status = 2 ∧ e.cause = cause ∧ e.qidx = qidx ∧ e.callno = 0 ∧ e.tail = [mark, cause, 0x781] ∧ e.writes = [] ∧ e.ctr = ctr ∧ e.la = r.la ∧
    DrawnRec r e.rcd r.q 0 0 r.flags ((r.f 1600 32 + 1) % 2 ^ 32)
/-- An operation on q`n` that succeeds: its value and flags, LA and CHUNKS 0. -/
def DrawnDone (e : DrawnEff) (r : SeqRec) (n value flags status : Nat) (tail : List Nat) (writes : List (Nat × List Byte)) (ctr : Nat) : Prop :=
  e.status = status ∧ e.cause = 0 ∧ e.qidx = n ∧ e.callno = (if status = 3 then r.la % 65536 else 0) ∧ e.tail = tail ∧ e.writes = writes ∧ e.ctr = ctr ∧
    DrawnRec r e.rcd (fun k => if k = n then value else r.q k) 0 0 flags (r.f 1600 32)

/-! ## Job descriptors (10 R202, R203) -/

/-- Word `w` of a job descriptor holds a field that fails a check of R203, for rows of `row` bytes. -/
def DescFails (s : State) (d : List Byte) (row w : Nat) : Prop :=
  let f := fun lo n : Nat => ofBytes d / 2 ^ lo % 2 ^ n
  let c := s.cur.core
  let kind := f 0 8
  let rows := f 256 32
  let len := f 192 32
  let dtv := f 20 1 = 1
  let stv := f 26 1 = 1
  let fill := f 21 1 = 1
  let goes := fun m => if kind = 2 then ∃ b, b < 8 ∧ f (32 + b) 1 = 1 ∧ (s.blockOf c)[b]? = some m else m = c
  let dt := fun m => (s.core m).tiles.getD (f 16 4) .reset
  let st := s.tile (f 22 4)
  match w with
  | 0 => f 8 8 ≠ 1 ∨ kind = 0 ∨ 5 < kind ∨ f 28 4 ≠ 0 ∨ f 40 24 ≠ 0 ∨ (kind = 2 ∧ ¬ dtv) ∨ (kind = 4 ∧ dtv) ∨ (3 ≤ kind ∧ stv) ∨
      (fill ∧ ¬ dtv) ∨ (kind ≠ 2 ∧ f 32 8 ≠ 0) ∨ (∃ b, b < 8 ∧ f (32 + b) 1 = 1 ∧ (s.blockOf c).length ≤ b) ∨
      (dtv ∧ ∃ m, goes m ∧ (dt m).size = 0) ∨ (stv ∧ st.size = 0)
  | 1 => dtv ∧ ∃ m, goes m ∧ 256 * (dt m).size < f 64 64 + (rows - 1) * f 384 64 + row
  | 2 => stv ∧ 256 * st.size < f 128 64 + (rows - 1) * f 320 64 + row
  | 3 => f 224 32 ≠ 0 ∨ if kind = 5 then len ≠ 0 else len = 0 ∨ 2 ^ 24 < len
  | 4 => f 288 32 ≠ 0 ∨ rows = 0 ∨ 2 ^ 20 < rows ∨ 2 ^ 31 < rows * row ∨ (dtv ∧ fill ∧ ∃ m, goes m ∧ 256 * (dt m).size < rows * row)
  | 5 => stv ∧ 2 ^ 20 ≤ f 320 64
  | 6 => dtv ∧ 2 ^ 20 ≤ f 384 64
  | 7 => (kind ≤ 2 ∧ f 448 64 ≠ 0) ∨ (kind = 5 ∧ f 480 32 ≠ 0)
  | _ => False

/-! ## Matrix jobs (13 R240) -/

/-- A matrix job is submitted: queued at the end of its engine's queue with the identifier that D receives; memory keeps its bytes. -/
def Submitted (o : Host.Outcome State Fault Refusal) (s : State) (op : MtxOp) (d : SReg) : Prop :=
  let c := s.cur.core
  ∃ t j, o = .next t ∧ (t.cluster (c / 8)).mtxq = (s.cluster (c / 8)).mtxq ++ [j] ∧ j.op = op ∧ j.st = .queued ∧ j.owner.thread = s.me ∧
    t.th.mtxSeq = s.th.mtxSeq + 1 ∧ KeepsMem s t ∧ KeepsFlags s t ∧ KeepsRegs s t [d] [] [] [] ∧
    (d ≠ 0 → rdS t.th.regs d = BitVec.ofNat 64 (2 ^ 38 + c % 8 * 2 ^ 35 + s.cur.slot * 2 ^ 32 + (s.th.mtxSeq + 1).toNat))
/-- The engine and the thread have room for one more job; a place that became free in this cycle is none yet (06 R108). -/
def MatrixRoom (s : State) : Prop :=
  ((s.cluster (s.cur.core / 8)).mtxq.filter fun q => q.st == .queued && !q.isFree).length + (s.cluster (s.cur.core / 8)).vacated.2.1 < 64 ∧ s.th.mjobs.length < 16
/-- A matrix job has to wait: 64 jobs were queued as the cycle began, or the thread's 16 live jobs were all pending. -/
def MatrixFull (s : State) : Prop :=
  64 ≤ ((s.cluster (s.cur.core / 8)).mtxq.filter fun q => q.st == .queued && !q.isFree).length + (s.cluster (s.cur.core / 8)).vacated.2.1 ∨
    (16 ≤ s.th.mjobs.length ∧ ∀ l ∈ s.th.mjobs, l.done = none ∨ s.cycle ≤ l.doneAt)
/-- The instruction passes its turn and changes nothing else. -/
def Waits (o : Host.Outcome State Fault Refusal) (s : State) : Prop := o = .next { s with cur := { s.cur with fate := .passed } }
/-- A tile operand is an entry in use. -/
def SideUsed (s : State) (x : TS) : Prop := ∀ r, x = .t r → (s.tile r.val).size ≠ 0
/-- Rows of a job lie within a tile operand: the stride is below 2^20, the last row ends in the entry. -/
def SideFits (s : State) (x : TS) (stride rows rb : Nat) : Prop :=
  ∀ r, x = .t r → stride < 2 ^ 20 ∧ (rows - 1) * stride + rb ≤ 256 * (s.tile r.val).size
/-- A tile operand was in a state as the cycle began, and is. -/
def SideIs (s : State) (x : TS) (k : TileSt) : Prop := ∀ r, x = .t r → s.tileIs s.cur.core r.val k = true
/-- A submission takes its tile operand: the entry becomes `k` of what it was. -/
def SideTaken (o : Host.Outcome State Fault Refusal) (s : State) (x : TS) (k : Tile → Tile) : Prop :=
  ∀ t r, o = .next t → x = .t r → t.tile r.val = k (s.tile r.val)

end Sys2Proof.Claims
end

