-- ==== Sys2Proof/Certificates/Slice0/Obligations.lean ====
section
/-! DEFINITION. The statements for the provers. Each docstring names the rules of spec/ it formalises. `exec i s` is the meaning of one
instruction at the turn of the thread `s.cur` names; the machine moves the program counter afterwards. -/

open Sys2Proof Sys2Proof.Machine Sys2Proof.Claims

/-- 07 R125, R131, R135, 10 R198, 11 R218, 13 R247: words printed in the spec decode to the instructions they stand for. -/
def Obligations.DecodeWords : Prop :=
  decodeTableWord 96 0x1000070881FF006F000000C8 = some (.add ⟨⟨3, 0, 0⟩, .n8, true, 7, 8, .i 200⟩) ∧
  decodeTableWord 96 0x1700FFFFFFFF000000000000 = some (.nop ⟨⟨0, 0, 0⟩⟩) ∧
  decodeTableWord 96 0x300307FFFFFF0300FFFFFFFB = some (.brdec ⟨⟨0, 3, 0⟩, 7, 0xFFFFFFFB⟩) ∧
  decodeTableWord 96 0x44009281FFFF000000000300 = some (.tfill ⟨⟨0, 0, 0⟩, 2, .i 768⟩) ∧
  decodeTableWord 96 0x8800424381FF000A00000001 = some (.vaddInt ⟨⟨0, 0, 0⟩, .i16, true, 2, 3, .i 1⟩) ∧
  decodeTableWord 96 0xB2020978A0A1000000000000 = some (.mma ⟨⟨0, 0, 0⟩, false, .bf16, 0, false, 9, 0, 0, 1⟩)

/-- 04 R75 to R84: no bit of an encoding is dropped. Every well-formed thread instruction has a word, and that word decodes to it, every operand and modifier as it was. -/
def Obligations.EncodeThenDecode : Prop :=
  (∀ (i : Instr) (w : W96), i.wf = true → encode i = some w → decode w = .ok i) ∧
  (∀ i : Instr, i.wf = true → i.isEvent = false → (∀ op fn, i ≠ .undefinedOpcode op fn) → (∀ c l x, i ≠ .instructionFetchFault c l x) →
    (encode i).isSome = true)

/-- 00 R4, 02 R33 to R40, 03 R53, R57, 08 R155, R162, 13 R256, 22 R362: what reset leaves. The values of MODE, a queue's state and ERR, RPCTL, VEC, FAIRW, MXBUD, RATIO and the slot table
are the spec's; no thread running, no partition valid, an empty memory, the queue registers (QWR 0 among them) and CYCLE 0 are the model's choice (logs 2, 3, 4). -/
def Obligations.ResetState : Prop :=
  (∀ t, State.reset.thr t = .reset) ∧ Thread.reset.status = .empty ∧ Thread.reset.mode = ⟨false, false, false, false, false⟩ ∧
  (∀ p q, ((State.reset.part p).queue q).st = .disabled ∧ ((State.reset.part p).queue q).err = false ∧ ((State.reset.part p).queue q).qwr = 0) ∧
  (∀ p, (State.reset.part p).desc.valid = false ∧ (State.reset.part p).nextLid = 1 ∧ (State.reset.part p).lastwin = false ∧
    (State.reset.part p).scb.vec = 0 ∧ (State.reset.part p).scb.en = false ∧ (State.reset.part p).faultCount = 0 ∧ (State.reset.part p).fairw = 1) ∧
  (∀ c, (State.reset.cluster c).winlog = 12 ∧ (State.reset.cluster c).budget = 0x42000) ∧
  (State.reset.retain.getD 0 .reset).ratio = 16 ∧ (∀ k, State.reset.slotTable.getD k 0 = 0) ∧ (∀ q, (State.reset.port q).st = .down) ∧
  State.reset.cycle = 0 ∧ State.reset.agenda = [] ∧ (∀ a, memByte State.reset.mem a = 0) ∧ (∀ l m, State.reset.version l m = 0) ∧
  Memory.wf State.reset.mem = true

/-- 04 R66, R84, 06 R107, R108, R109, R113: a step takes the head of the agenda, an event, and runs it; with no agenda it is the turn of the next core. A thread that
waits looks at what it waits for; one that nothing holds runs the instructions that the words at its PC decode to (both of a pair, which read before either writes), then the
machine moves the PC, unless an instruction trapped or the turn passed. A leader issues only with its followers ready and gives them the bundle, which they issue a rotation
later; slot 7 first takes a trap record. That one step is one event or one turn is the model's choice (log 1), and so is when a leader finds a follower
ready (logs 46 and 64). A leader whose gang-wide form has not been combined waits (11 R230). -/
def Obligations.StepRunsTheDecodedInstruction : Prop :=
  (∀ (s : State) (i : Instr) (r : List Instr), s.agenda = i :: r → isEvent i = true → step s = exec i { s with agenda := r }) ∧
  (∀ (b : Bundle) (i : Instr), b.n = 1 → decode b.w1 = .ok i → b.check = .ok (i, none)) ∧
  (∀ (b : Bundle) (i j : Instr), b.n = 2 → pairFirstOk b.w1 = true → pairSecondOk b.w2 = true → decode b.w1 = .ok i → decode b.w2 = .ok j →
    b.check = .ok (i, some j)) ∧
  -- the turn of a core's slot
  (∀ (s : State) (c : Nat) (k : Core),
    let slot := slotAt s.cycle (s.core c).cycle0
    let a := if slot = 7 then (s.at ⟨c, slot⟩).takeRecord c else s.at ⟨c, slot⟩
    let after := fun t : State => { t with nextCore := c + 1 }
    s.agenda = [] → s.cores.find? (fun e => decide (s.nextCore ≤ e.1)) = some (c, k) → s.halting c = false →
    (a.th.status ≠ .running → step s = .next (after a)) ∧
    (a.th.status = .running → a.th.wake = some s.cycle → step s = .next (after (a.updTh Thread.passTurn))) ∧
    (a.th.status = .running → a.th.wake ≠ some s.cycle → (slot = 7 ∨ a.th.confl = none) →
      (a.th.skip ≠ 0 → step s = .next (after (a.updTh Thread.passTurn))) ∧
      (a.th.skip = 0 →
        (∀ p, a.th.pend = some p → a.pollThread = a.pollStage p.stage) ∧ (a.th.pend = none → a.pollThread = .go a) ∧
        (∀ x, a.pollThread = .wait x ∨ a.pollThread = .used x → step s = .next (after x)) ∧
        (∀ y, a.pollThread = .go y →
          (y.th.gang = none → step s = .next (after y.fetchTurn)) ∧
          (∀ g, y.th.gang = some g → g.idx = 0 → g.leaving = false → g.cap ≠ none → step s = .next (after y)) ∧
          (∀ g, y.th.gang = some g → g.idx = 0 → g.leaving = false → g.cap = none → step s = .next (after y.fetchTurn)) ∧
          (∀ g, y.th.gang = some g → g.idx ≠ 0 → g.leaving = false → step s = .next (after (y.followTurn g))))))) ∧
  -- a turn that passes: a long instruction or an expansion has one turn fewer to pass, and nothing else changes
  (∀ t : Thread, t.passTurn.skip = t.skip - 1 ∧ t.passTurn.pc = t.pc ∧ t.passTurn.regs = t.regs ∧ (t.pend = none → t.passTurn = { t with skip := t.skip - 1 }) ∧
    (∀ p, t.pend = some p → ∃ q, t.passTurn.pend = some q ∧
      (∀ n far r st, p.stage = .steps n far r st → q.stage = .steps (n - 1) far r st) ∧ ((∀ n far r st, p.stage ≠ .steps n far r st) → q = p))) ∧
  -- from the fetched line to the issue
  (∀ (y u v : State) (img : BitVec 512) (i : Instr) (j : Option Instr) (w : Unit),
    let x := issueOf (pcLine u.th.pc) (bundleOf img (pcSlot u.th.pc)) i j
    y.th.arrive ≠ .resume → ({ y with cur := { y.cur with ipc := y.th.pc } } : State).fetch = .line img u →
    (bundleOf img (pcSlot u.th.pc)).check = .ok (i, j) →
    ({ u with cur := x.cur1 u.cur.core u.cur.slot } : State).checkSig x.ipc = .ok w v →
    (v.th.gang = none → y.fetchTurn = v.issue x) ∧
    (∀ g, v.th.gang = some g → g.idx = 0 → v.th.arrive ≠ .again →
      y.fetchTurn = if (v.gangReady g x).1 = true then v.issue x else (v.gangReady g x).2)) ∧
  -- one instruction
  (∀ (v t : State) (x : Issue),
    let e := v.enterBundle x
    x.i2 = none → e.trapBad x = none → exec x.i1 { e with cur := x.cur1 e.cur.core e.cur.slot } = .next t →
    (t.cur.fate = .trapped → v.issue x = t) ∧
    (t.cur.fate = .passed → v.issue x = t.setTh { v.th with line := t.th.line, ridgeWait := t.th.ridgeWait }) ∧
    (t.cur.fate = .go →
      (v.th.gang = none → v.issue x = t.updTh (commitThr x t.cur.npc t.cur.taken false false)) ∧
      (∀ g, v.th.gang = some g → v.th.arrive ≠ .again → (g.idx ≠ 0 ∨ x.follow = true) →
        v.issue x = t.updTh (commitThr x t.cur.npc t.cur.taken false true)) ∧
      (∀ g, v.th.gang = some g → v.th.arrive ≠ .again → g.idx = 0 → x.follow = false →
        v.issue x = (t.updTh (commitThr x t.cur.npc t.cur.taken true true)).giveFollowers g x))) ∧
  -- a pair: either instruction alone can trap or pass for both; else the second runs on the operands from before the first
  (∀ (v a b z : State) (x : Issue) (j : Instr),
    let e := v.enterBundle x
    let here := fun c : Cur => ({ e with cur := c } : State)
    let c2 := x.cur2 e.cur.core e.cur.slot
    let held := fun t : State => if t.cur.fate = .trapped then t else t.setTh { v.th with line := t.th.line, ridgeWait := t.th.ridgeWait }
    -- the second is tried with the pages, the lines and the free values that the first has seen
    let cl := e.cur.core / 8
    let saw := ({ e with free := a.free, l2 := a.l2, retain := a.retain } : State).updCluster cl fun k => { k with tlb := (a.cluster cl).tlb }
    x.i2 = some j → e.trapBad x = none → exec x.i1 (here (x.cur1 e.cur.core e.cur.slot)) = .next a → exec j { saw with cur := c2 } = .next b →
    (a.cur.fate ≠ .go → v.issue x = held a) ∧
    (a.cur.fate = .go → b.cur.fate ≠ .go → v.issue x = held b) ∧
    (a.cur.fate = .go → b.cur.fate = .go → (∀ d, j ≠ .vflgclr d) →
      exec j { a with cur := { c2 with npc := a.cur.npc, taken := a.cur.taken, pre := some e.th, preCtab := some (e.myCore.ctab, e.myCore.ctabhi), flags1 := 0 } }
        = .next z → z.cur.fate = .go → v.th.gang = none →
      let y := z.joinPend a.th.pend
      y.cur.fate = .go → v.issue x = y.updTh (commitThr x y.cur.npc y.cur.taken false false))) ∧
  -- a follower issues what its leader issued in an earlier cycle
  (∀ (y : State) (g : Gang) (f : FollowBundle), dueBundle y.cycle g = some f →
    let x := (y.updTh fun t => { t with gang := t.gang.map fun g => { g with queue := g.queue.filter (· != f) } }).issue f.issue
    x.cur.fate = .passed → y.followTurn g = x.updTh fun t => { t with gang := some g }) ∧
  (∀ (y : State) (g : Gang), dueBundle y.cycle g = none → y.followTurn g = y) ∧
  (∀ s : State, s.agenda = [] → (∀ e ∈ s.cores, e.1 < s.nextCore) → step s = .next s.nextCycle)

/-- 06 R107, 22 R361: nothing stops the machine. Every instruction and every event answers a next state in every state (a trap is taken, and a wait passes the turn), and a step fails
only on an agenda that lists something that is no event (the agenda is the model's, log 1). -/
def Obligations.NoInstructionStopsTheMachine : Prop :=
  (∀ (i : Instr) (s : State), ∃ t : State, exec i s = .next t) ∧
  (∀ s : State, s.agendaOk = true → ∃ t, step s = .next t) ∧
  (∀ (s : State) (i : Instr) (r : List Instr), s.agenda = i :: r → isEvent i = false → step s = .fault .agendaEntry)

/-- 08 R155, 15 R277: every step keeps device memory in its canonical form, addresses rising and no zero byte listed, so that equal memories are equal data. That an unlisted byte reads 0 is the model's choice (log 2). -/
def Obligations.StepKeepsMemoryCanonical : Prop :=
  ∀ s t : State, Memory.wf s.mem = true → step s = .next t → Memory.wf t.mem = true

/-- 07 R125: results of the integer group under `.wrap`, every operand form. B is read first (a constant word may be fetched);
`s'` is the state after that read. -/
def Obligations.ScalarArithmetic : Prop :=
  (∀ (x : IntA) (s s' : State) (b : W64), s.guardOn x.h = true → x.sat = false → s.src (tySigned x.ty) x.b = .ok b s' →
    let a := s'.rs x.a
    exec (.add x) s = .next (s'.ws x.d (narrow x.ty (a + b))) ∧
    exec (.sub x) s = .next (s'.ws x.d (narrow x.ty (a - b))) ∧
    exec (.mul x) s = .next (s'.ws x.d (narrow x.ty (a * b))) ∧
    exec (.mulh x) s = .next (s'.ws x.d (BitVec.ofInt 64 (value x.ty a * value x.ty b / 2 ^ width x.ty))) ∧
    exec (.and x) s = .next (s'.ws x.d (narrow x.ty (a &&& b))) ∧
    exec (.or x) s = .next (s'.ws x.d (narrow x.ty (a ||| b))) ∧
    exec (.xor x) s = .next (s'.ws x.d (narrow x.ty (a ^^^ b))) ∧
    exec (.andn x) s = .next (s'.ws x.d (narrow x.ty (a &&& ~~~b))) ∧
    exec (.min x) s = .next (s'.ws x.d (BitVec.ofInt 64 (min (value x.ty a) (value x.ty b)))) ∧
    exec (.max x) s = .next (s'.ws x.d (BitVec.ofInt 64 (max (value x.ty a) (value x.ty b))))) ∧
  (∀ (x : IntSh) (s : State), s.guardOn x.h = true → x.sat = false →
    let a := s.rs x.a
    let n := (s.siZ x.b).toNat
    exec (.shl x) s = .next (s.ws x.d (narrow x.ty (a <<< n))) ∧
    exec (.shr x) s = .next (s.ws x.d (shifted x.ty a n)) ∧
    exec (.rotl x) s = .next (s.ws x.d (rotated x.ty a n)))

/-- 07 R125: `.sat` clamps an out-of-range result to the type; with MODE.ARITH = 1 it traps with cause 0x40 and TRAPINFO 2 instead. -/
def Obligations.ScalarSaturation : Prop :=
  (∀ (x : IntA) (s s' : State) (b : W64), s.guardOn x.h = true → x.sat = true → s.src (tySigned x.ty) x.b = .ok b s' →
    let out := fun r : Int =>
      if clamp x.ty r ≠ r ∧ s'.mode.arith = true then Host.Outcome.next (s'.takeTrap 0x40 0 2)
      else Host.Outcome.next (s'.ws x.d (BitVec.ofInt 64 (clamp x.ty r)))
    exec (.add x) s = out (value x.ty (s'.rs x.a) + value x.ty b) ∧
    exec (.sub x) s = out (value x.ty (s'.rs x.a) - value x.ty b) ∧
    exec (.mul x) s = out (value x.ty (s'.rs x.a) * value x.ty b)) ∧
  (∀ (x : IntSh) (s : State), s.guardOn x.h = true → x.sat = true →
    let r := value x.ty (s.rs x.a) * 2 ^ (min (s.siZ x.b).toNat (width x.ty))
    exec (.shl x) s =
      if clamp x.ty r ≠ r ∧ s.mode.arith = true then .next (s.takeTrap 0x40 0 2)
      else .next (s.ws x.d (BitVec.ofInt 64 (clamp x.ty r))))

/-- 07 R126: quotient and remainder toward zero; division by zero gives all ones and the dividend, or traps with cause 0x40 and
TRAPINFO 1 under MODE.ARITH = 1; a saturated quotient clamps, or traps with TRAPINFO 2. -/
def Obligations.ScalarDivision : Prop :=
  ∀ (x : IntA) (s s' : State) (b : W64), s.guardOn x.h = true → s.src (tySigned x.ty) x.b = .ok b s' →
    let va := value x.ty (s'.rs x.a)
    let vb := value x.ty b
    (vb = 0 → s'.mode.arith = false →
      exec (.div x) s = .next (s'.ws x.d (narrow x.ty (-1))) ∧
      exec (.rem x) s = .next (s'.ws x.d (narrow x.ty (s'.rs x.a)))) ∧
    (vb = 0 → s'.mode.arith = true →
      exec (.div x) s = .next (s'.takeTrap 0x40 0 1) ∧ exec (.rem x) s = .next (s'.takeTrap 0x40 0 1)) ∧
    (vb ≠ 0 →
      exec (.rem x) s = .next (s'.ws x.d (BitVec.ofInt 64 (va.tmod vb))) ∧
      (x.sat = false → exec (.div x) s = .next (s'.ws x.d (narrow x.ty (BitVec.ofInt 64 (va.tdiv vb))))) ∧
      (x.sat = true → va.tdiv vb ≤ most x.ty → exec (.div x) s = .next (s'.ws x.d (BitVec.ofInt 64 (va.tdiv vb)))) ∧
      (x.sat = true → most x.ty < va.tdiv vb → s'.mode.arith = false →
        exec (.div x) s = .next (s'.ws x.d (BitVec.ofInt 64 (most x.ty)))) ∧
      (x.sat = true → most x.ty < va.tdiv vb → s'.mode.arith = true → exec (.div x) s = .next (s'.takeTrap 0x40 0 2)))

/-- 07 R127: bit fields (a control with a bit outside POS and LENM1, or one that runs past bit 63, traps at its position), leading and
trailing zeros, ones, bit and byte reversal. -/
def Obligations.ScalarFields : Prop :=
  (∀ (x : IntSh) (s : State), s.guardOn x.h = true →
    let c := (s.si x.b).toNat
    let p := c % 64
    let n := c / 256 % 64 + 1
    let f := (s.rs x.a >>> p) &&& (BitVec.ofNat 64 (2 ^ n - 1))
    (c = p + 256 * (n - 1) → p + n ≤ 64 →
      exec (.ext x) s = .next (s.ws x.d (if tySigned x.ty = true then (f <<< (64 - n)).sshiftRight (64 - n) else f))) ∧
    (¬ (c = p + 256 * (n - 1) ∧ p + n ≤ 64) → exec (.ext x) s = .next (s.takeTrap 0x02 0 2))) ∧
  (∀ (x : Ins) (s : State), s.guardOn x.h = true →
    let c := (s.si x.c).toNat
    let p := c % 64
    let n := c / 256 % 64 + 1
    let m := BitVec.ofNat 64 (2 ^ n - 1) <<< p
    (c = p + 256 * (n - 1) → p + n ≤ 64 →
      exec (.ins x) s = .next (s.ws x.d ((s.rs x.b &&& ~~~m) ||| ((s.rs x.a <<< p) &&& m)))) ∧
    (¬ (c = p + 256 * (n - 1) ∧ p + n ≤ 64) → exec (.ins x) s = .next (s.takeTrap 0x02 0 3))) ∧
  (∀ (x : IntU) (s : State), s.guardOn x.h = true →
    let w := width x.ty
    let a := s.rs x.a
    (∃ n : Nat, exec (.clz x) s = .next (s.ws x.d (BitVec.ofNat 64 n)) ∧ n ≤ w ∧ (∀ j, j < n → a.getLsbD (w - 1 - j) = false) ∧
      (n < w → a.getLsbD (w - 1 - n) = true)) ∧
    (∃ n : Nat, exec (.ctz x) s = .next (s.ws x.d (BitVec.ofNat 64 n)) ∧ n ≤ w ∧ (∀ j, j < n → a.getLsbD j = false) ∧
      (n < w → a.getLsbD n = true)) ∧
    exec (.popc x) s = .next (s.ws x.d (BitVec.ofNat 64 ((List.range w).countP fun j => a.getLsbD j))) ∧
    (∃ r : W64, exec (.brev x) s = .next (s.ws x.d (narrow x.ty r)) ∧ ∀ j, j < w → r.getLsbD (w - 1 - j) = a.getLsbD j) ∧
    (∃ r : W64, exec (.bswap x) s = .next (s.ws x.d (narrow x.ty r)) ∧
      ∀ j k, j < w / 8 → k < 8 → r.getLsbD (8 * (w / 8 - 1 - j) + k) = a.getLsbD (8 * j + k)))

/-- 07 R128: a compare writes 0 or 1 to an s register, all 32 lanes to a predicate. -/
def Obligations.ScalarCompare : Prop :=
  ∀ (x : Cmp) (s s' : State) (b : W64), s.guardOn x.h = true → s.src (tySigned x.ty) x.b = .ok b s' →
    let va := value x.ty (s'.rs x.a)
    let vb := value x.ty b
    let out := fun c : Bool => Host.Outcome.next (match x.d with
      | .s d => s'.ws d (if c then 1 else 0)
      | .p d => s'.wp d (if c then 0xFFFFFFFF else 0))
    exec (.cmpeq x) s = out (va = vb) ∧ exec (.cmpne x) s = out (va ≠ vb) ∧ exec (.cmplt x) s = out (va < vb) ∧
    exec (.cmple x) s = out (va ≤ vb) ∧ exec (.cmpgt x) s = out (va > vb) ∧ exec (.cmpge x) s = out (va ≥ vb)

/-- 07 R129 to R132: select, move, load high, address arithmetic, no-op and the predicate instructions. -/
def Obligations.MovesAndPredicates : Prop :=
  (∀ (x : Sel) (s s' : State) (a : W64), s.guardOn x.h = true → s.src true x.a = .ok a s' →
    exec (.sel x) s = .next (s'.ws x.d (if (s'.rp x.c).getLsbD 0 then a else s'.rs x.b))) ∧
  (∀ (x : Mov) (s s' : State) (a : W64), s.guardOn x.h = true → s.src (tySigned x.ty) x.a = .ok a s' →
    exec (.mov x) s = .next (s'.ws x.d (narrow x.ty a))) ∧
  (∀ (x : Lih) (s : State), s.guardOn x.h = true →
    exec (.lih x) s = .next (s.ws x.d (x.i.setWidth 64 <<< 32 ||| (s.rs x.a &&& 0xFFFFFFFF)))) ∧
  (∀ (x : Lea) (s : State), s.guardOn x.h = true →
    exec (.lea x) s = .next (s.ws x.d (s.rs x.a + (match x.b with
      | .s r => s.rs r * BitVec.ofNat 64 (2 ^ x.scale.val)
      | .i v => v.signExtend 64)))) ∧
  (∀ (x : HOnly) (s : State), exec (.nop x) s = .next s) ∧
  (∀ (x : PPP) (s : State), s.guardOn x.h = true →
    exec (.pand x) s = .next (s.wp x.d (s.rp x.a &&& s.rp x.b)) ∧ exec (.por x) s = .next (s.wp x.d (s.rp x.a ||| s.rp x.b)) ∧
    exec (.pxor x) s = .next (s.wp x.d (s.rp x.a ^^^ s.rp x.b)) ∧ exec (.pandn x) s = .next (s.wp x.d (s.rp x.a &&& ~~~(s.rp x.b)))) ∧
  (∀ (x : PP) (s : State), s.guardOn x.h = true → exec (.pnot x) s = .next (s.wp x.d (s.rp x.a ^^^ 0xFFFFFFFF))) ∧
  (∀ (x : PI) (s : State), s.guardOn x.h = true → exec (.pset x) s = .next (s.wp x.d x.i)) ∧
  (∀ (x : SPr) (s : State), s.guardOn x.h = true →
    exec (.pread x) s = .next (s.ws x.d (BitVec.ofNat 64 (s.rp x.a).toNat)) ∧
    exec (.pcnt x) s = .next (s.ws x.d (BitVec.ofNat 64 ((List.range 32).countP fun j => (s.rp x.a).getLsbD j)))) ∧
  (∀ (x : PS) (s : State), s.guardOn x.h = true → exec (.pwrite x) s = .next (s.wp x.d ((s.rs x.a).setWidth 32)))

/-- 04 R76, R79, 07 R125 to R132: an instruction that acts on no lanes and whose guard bit 0 is 0 changes nothing; and what the scalar and predicate groups leave as it was when
they complete: every register but D, flags, status, memory, traps, the other threads. Beside D only the counter moves that free values come from (log 5), where a cached
constant word differs from what stands behind it; a turn passed for a constant line changes caches alone. -/
def Obligations.ScalarFrame : Prop :=
  (∀ (i : Instr) (s : State) (h : Hdr), guardOf i = some h → s.guardOn h = false → exec i s = .next s) ∧
  (∀ (i : Instr) (s t : State), s.cur.fate = .go → exec i s = .next t →
    let toS := fun (h : Hdr) (d : SReg) => (t.cur.fate = .go → OnlyRegs s t [d] [] [] ∧ KeepsFlags s t ∧ (s.guardOn h = true → ∃ v, Wrote s t fun r => wrS r d v)) ∧
      (t.cur.fate = .passed → OnlyCaches s t)
    let toP := fun (h : Hdr) (d : PReg) => (t.cur.fate = .go → OnlyRegs s t [] [] [d] ∧ KeepsFlags s t ∧ (s.guardOn h = true → ∃ v, Wrote s t fun r => wrP r d v)) ∧
      (t.cur.fate = .passed → OnlyCaches s t)
    (∀ (x : IntA), i = .add x ∨ i = .sub x ∨ i = .mul x ∨ i = .mulh x ∨ i = .and x ∨ i = .or x ∨ i = .xor x ∨ i = .andn x ∨
        i = .min x ∨ i = .max x ∨ i = .div x ∨ i = .rem x → toS x.h x.d) ∧
    (∀ (x : IntSh), i = .shl x ∨ i = .shr x ∨ i = .rotl x ∨ i = .ext x → toS x.h x.d) ∧
    (∀ (x : IntU), i = .clz x ∨ i = .ctz x ∨ i = .popc x ∨ i = .brev x ∨ i = .bswap x → toS x.h x.d) ∧
    (∀ (x : Cmp), i = .cmpeq x ∨ i = .cmpne x ∨ i = .cmplt x ∨ i = .cmple x ∨ i = .cmpgt x ∨ i = .cmpge x →
      match x.d with | .s d => toS x.h d | .p d => toP x.h d) ∧
    (∀ (x : PPP), i = .pand x ∨ i = .por x ∨ i = .pxor x ∨ i = .pandn x → toP x.h x.d) ∧
    (∀ (x : Ins), i = .ins x → toS x.h x.d) ∧ (∀ (x : Sel), i = .sel x → toS x.h x.d) ∧ (∀ (x : Mov), i = .mov x → toS x.h x.d) ∧
    (∀ (x : Lih), i = .lih x → toS x.h x.d) ∧ (∀ (x : Lea), i = .lea x → toS x.h x.d) ∧ (∀ (x : PP), i = .pnot x → toP x.h x.d) ∧
    (∀ (x : PI), i = .pset x → toP x.h x.d) ∧ (∀ (x : SPr), i = .pread x ∨ i = .pcnt x → toS x.h x.d) ∧
    (∀ (x : PS), i = .pwrite x → toP x.h x.d))

/-- 07 R133, 04 R86, 00 R7: `srd` writes the register's value, which is stated for every number; the trap registers are closed to USER (cause 0x11) and
reserved numbers fail position 5. `swr` writes MODE, the code table and, at SUPERVISOR, the registers of the trap bank and REGIONPC; a register with no RW
field, a RO field of MODE that would change and an Expert field without EXPERT trap with cause 0x11 and write nothing. That a TRAPCAUSE above 255 traps
with cause 0x11 and that REGIONPC of slot 7 is slot 7's own are the model's reading (log 45). -/
def Obligations.StatusRegisters : Prop :=
  (∀ (x : SrdA) (s : State) (v : W64), s.guardOn x.h = true → s.status x.n.val = some v → x.n.val ≠ 0x0E →
    (¬ (0x15 ≤ x.n.val ∧ x.n.val ≤ 0x18 ∧ s.cur.slot ≠ 7) → exec (.srd x) s = .next (s.ws x.d v)) ∧
    (0x15 ≤ x.n.val ∧ x.n.val ≤ 0x18 ∧ s.cur.slot ≠ 7 → exec (.srd x) s = .next (s.takeTrap 0x11 0 0))) ∧
  (∀ (s : State) (n : Nat), (s.status n).isSome = true ↔ n ≤ 0x1D) ∧
  -- the values: the thread's place, its task and its launch
  (∀ (s : State) (t : Task) (l : Launch), s.myTask = some t → s.myLaunch = some l →
    let c := s.cur.core
    let b := (s.core c).bidx
    let is := fun n x : Nat => s.status n = some (BitVec.ofNat 64 x)
    is 0x00 ((t.id.idx * l.kernel.block + b) * 8 + s.cur.slot) ∧ is 0x01 (c % 8 + 16 * b) ∧ is 0x02 (c / 8 % 32) ∧ is 0x03 (c / 256) ∧
    is 0x04 s.pkg.toNat ∧ is 0x05 (match l.group with | some g => g.rank | none => 0) ∧ is 0x06 t.id.idx ∧ is 0x07 l.lid ∧ is 0x08 t.phase.toNat ∧
    is 0x09 l.ridge.toNat ∧ s.status 0x0A = some l.seed ∧ s.status 0x0B = some l.cbase ∧ s.status 0x0C = some l.cext) ∧
  -- its own state, the device's constants, the core's and the partition's registers
  (∀ s : State,
    let m := s.opTh.mode
    let one := fun b : Bool => if b then 1 else 0
    let is := fun n x : Nat => s.status n = some (BitVec.ofNat 64 x)
    is 0x0D (one m.repro + 2 * one m.fp8ns + 4 * one m.arith + 8 * one m.fmtovr + 16 * one m.rngrep) ∧ is 0x11 0x0302 ∧ is 0x12 0xFFFF200000000 ∧
    is 0x13 (match s.opTh.gang with | some g => g.size | none => 1) ∧ is 0x14 (match s.opTh.gang with | some g => g.idx | none => 0) ∧
    s.status 0x19 = some s.opTh.region.pc ∧ s.status 0x1A = some s.ctab.1 ∧ s.status 0x1B = some s.ctab.2 ∧ is 0x1C s.myCore.sp ∧
    is 0x1D ((s.part s.myPart).desc.tokhi * 4096) ∧
    (∀ r : TrapRec, (s.myCore.bank1 = some r ∨ s.myCore.bank1 = none ∧ s.myCore.bank0 = some r) →
      is 0x15 r.cause.toNat ∧ s.status 0x16 = some r.pc ∧ s.status 0x17 = some r.addr ∧ s.status 0x18 = some r.info)) ∧
  (∀ (x : SrdA) (y : SwrA) (s : State), 0x1D < x.n.val → 0x1D < y.n.val → s.guardOn x.h = true → s.guardOn y.h = true →
    exec (.srd x) s = .next (s.takeTrap 0x02 0 5) ∧ exec (.swr y) s = .next (s.takeTrap 0x02 0 5)) ∧
  (∀ (x : SwrA) (s : State), s.guardOn x.h = true →
    let v := s.rs x.a
    let m := s.opTh.mode
    (x.n.val = 0x0D → v.getLsbD 0 = m.repro → v >>> 5 = 0 →
      (v.getLsbD 3 = m.fmtovr ∧ v.getLsbD 4 = m.rngrep) ∨ s.expert = true →
      exec (.swr x) s = .next (s.updTh fun t => { t with mode := ⟨t.mode.repro, v.getLsbD 1, v.getLsbD 2, v.getLsbD 3, v.getLsbD 4⟩ })) ∧
    (x.n.val = 0x0D → (v.getLsbD 0 ≠ m.repro ∨ v >>> 5 ≠ 0) → exec (.swr x) s = .next (s.takeTrap 0x11 0 0)) ∧
    (x.n.val = 0x0D → s.expert = false → (v.getLsbD 3 ≠ m.fmtovr ∨ v.getLsbD 4 ≠ m.rngrep) →
      exec (.swr x) s = .next (s.takeTrap 0x11 0 0)) ∧
    (x.n.val = 0x1A → exec (.swr x) s = .next (s.updMyCore fun k => { k with ctab := v, ctabW := (some v, k.ctabW.2) })) ∧
    (x.n.val = 0x1B → exec (.swr x) s = .next (s.updMyCore fun k => { k with ctabhi := v, ctabW := (k.ctabW.1, some v) })) ∧
    (x.n.val ∈ [0x15, 0x16, 0x17, 0x18, 0x19] → s.cur.slot ≠ 7 → exec (.swr x) s = .next (s.takeTrap 0x11 0 0)) ∧
    (s.cur.slot = 7 →
      (∀ (r : TrapRec), (s.myCore.bank1 = some r ∨ s.myCore.bank1 = none ∧ s.myCore.bank0 = some r) →
        let put := fun q : TrapRec => Host.Outcome.next (s.updMyCore fun k =>
          if s.myCore.bank1.isSome then { k with bank1 := some q } else { k with bank0 := some q })
        (x.n.val = 0x15 → v.toNat < 256 → exec (.swr x) s = put { r with cause := v.setWidth 8 }) ∧
        (x.n.val = 0x16 → exec (.swr x) s = put { r with pc := v }) ∧ (x.n.val = 0x17 → exec (.swr x) s = put { r with addr := v }) ∧
        (x.n.val = 0x18 → exec (.swr x) s = put { r with info := v })) ∧
      (x.n.val = 0x15 → 256 ≤ v.toNat → exec (.swr x) s = .next (s.takeTrap 0x11 0 0)) ∧
      (x.n.val = 0x19 → exec (.swr x) s = .next (s.updTh fun t => { t with region := { t.region with pc := v } }))) ∧
    (x.n.val ≤ 0x1D → x.n.val ∉ [0x0D, 0x15, 0x16, 0x17, 0x18, 0x19, 0x1A, 0x1B] → exec (.swr x) s = .next (s.takeTrap 0x11 0 0)))

/-- 04 R88: `srd` of TIME reads seconds [31:0] and nanoseconds and latches seconds [47:32], which `srd` of TIMEHI returns whatever the clock
is then; before the first read of TIME it reads zero; CYCLE is one 64-bit value, counted from the core's reset. -/
def Obligations.TimeIsLatched : Prop :=
  (∀ (x : SrdA) (s : State), x.n.val = 0x0E → s.guardOn x.h = true →
    exec (.srd x) s = .next
      ((s.updTh fun t => { t with timehi := BitVec.ofNat 16 (s.ptpSec / 2 ^ 32) }).ws x.d
        (BitVec.ofNat 64 (s.ptpSec % 2 ^ 32 * 2 ^ 32 + s.ptpNs % 1000000000)))) ∧
  (∀ (x : SrdA) (s : State), x.n.val = 0x0F → s.guardOn x.h = true → exec (.srd x) s = .next (s.ws x.d (s.opTh.timehi.setWidth 64))) ∧
  (∀ (x : SrdA) (s : State), x.n.val = 0x10 → s.guardOn x.h = true →
    exec (.srd x) s = .next (s.ws x.d (BitVec.ofNat 64 (s.cycle - (s.core s.cur.core).cycle0)))) ∧
  Thread.reset.timehi = 0 ∧ ∀ t, (State.reset.thr t).timehi = 0

/-- 04 R69: the target of an offset is the branch's line plus the signed offset I[31:3], slot I[2:0]. That a line number wraps modulo 2^46 is the model's reading (log 40). -/
def Obligations.OffsetTarget : Prop :=
  ∀ (line slot : Nat) (off : W32), line < 2 ^ 46 → slot < 8 →
    let t := offTarget (mkPc line slot) off
    (pcLine t : Int) = ((line : Int) + (off.sshiftRight 3).toInt) % 2 ^ 46 ∧ pcSlot t = (off &&& 7).toNat

/-- 07 R135, R136, R137, 04 R70, 08 R150: a taken branch, call or return checks its target (its form, its page, X and U of the page, its TGT bit) and makes it the
next PC; a failing check traps and leaves D and the link as they were (the check itself touches translations and L2 alone); one not taken goes on; a follower of a gang keeps its leader's path. The TGT bit is that of the core's L0
image, else of memory, which is the model's reading (log 40). -/
def Obligations.ControlTransfers : Prop :=
  (∀ (x : BrO) (s s' : State), s.guardOn x.h = true → s.cur.follow = false →
    s.checkTarget (offTarget s.cur.ipc x.off) true = .ok () s' →
    exec (.br x) s = .next (s'.jump (offTarget s.cur.ipc x.off)) ∧
    exec (.call x) s = .next ((s'.ws 63 s'.cur.link).jump (offTarget s.cur.ipc x.off))) ∧
  (∀ (x : BrO) (s s' : State) (c : Byte) (a i : W64), s.guardOn x.h = true → s.cur.follow = false →
    s.checkTarget (offTarget s.cur.ipc x.off) true = .trap s' c a i →
    exec (.br x) s = .next (s'.takeTrap c a i) ∧ exec (.call x) s = .next (s'.takeTrap c a i)) ∧
  (∀ (x : BrR) (s s' : State), s.guardOn x.h = true → s.cur.follow = false →
    s.checkTarget (offTarget s.cur.ipc x.off) true = .ok () s' →
    exec (.brz x) s = .next (if s.rs x.r = 0 then s'.jump (offTarget s.cur.ipc x.off) else s) ∧
    exec (.brnz x) s = .next (if s.rs x.r = 0 then s else s'.jump (offTarget s.cur.ipc x.off)) ∧
    exec (.brdec x) s = .next (if s.rs x.r = 1 then s.ws x.r 0
      else (s'.ws x.r (s.rs x.r - 1)).jump (offTarget s.cur.ipc x.off))) ∧
  (∀ (x : BrR) (s s' : State) (c : Byte) (a i : W64), s.guardOn x.h = true → s.cur.follow = false →
    s.checkTarget (offTarget s.cur.ipc x.off) true = .trap s' c a i →
    exec (.brz x) s = .next (if s.rs x.r = 0 then s'.takeTrap c a i else s) ∧
    exec (.brnz x) s = .next (if s.rs x.r = 0 then s else s'.takeTrap c a i) ∧
    exec (.brdec x) s = .next (if s.rs x.r = 1 then s.ws x.r 0 else s'.takeTrap c a i)) ∧
  (∀ (x : AOnly) (s s' : State), s.guardOn x.h = true → s.cur.follow = false → s.checkTarget (s.rs x.a) true = .ok () s' →
    exec (.jr x) s = .next (s'.jump (s.rs x.a)) ∧ exec (.callr x) s = .next ((s'.ws 63 s'.cur.link).jump (s.rs x.a))) ∧
  (∀ (x : AOnly) (s s' : State) (c : Byte) (a i : W64), s.guardOn x.h = true → s.cur.follow = false →
    s.checkTarget (s.rs x.a) true = .trap s' c a i →
    exec (.jr x) s = .next (s'.takeTrap c a i) ∧ exec (.callr x) s = .next (s'.takeTrap c a i)) ∧
  (∀ (x : HOnly) (s s' : State), s.guardOn x.h = true → s.cur.follow = false → s.checkTarget (s.rs 63) true = .ok () s' →
    exec (.ret x) s = .next (s'.jump (s.rs 63))) ∧
  (∀ (x : HOnly) (s s' : State) (c : Byte) (a i : W64), s.guardOn x.h = true → s.cur.follow = false →
    s.checkTarget (s.rs 63) true = .trap s' c a i → exec (.ret x) s = .next (s'.takeTrap c a i)) ∧
  (∀ (s s' : State) (t : W64) (c : Byte) (a i : W64), s.checkTarget t true = .ok () s' ∨ s.checkTarget t true = .trap s' c a i →
    s' = { s with free := s'.free, l2 := s'.l2, retain := s'.retain, clusters := s'.clusters }) ∧
  (∀ (x : BrO) (y : BrR) (z : AOnly) (s : State), s.guardOn x.h = true → s.guardOn y.h = true → s.guardOn z.h = true →
    s.cur.follow = true →
    exec (.br x) s = .next s ∧ exec (.brz y) s = .next s ∧ exec (.brnz y) s = .next s ∧ exec (.jr z) s = .next s ∧
    exec (.brdec y) s = .next (s.ws y.r (s.rs y.r - 1)) ∧ (∀ r : HOnly, s.guardOn r.h = true → exec (.ret r) s = .next s) ∧ exec (.call x) s = .next (s.ws 63 s.cur.link) ∧
    exec (.callr z) s = .next (s.ws 63 s.cur.link)) ∧
  (∀ (s : State) (t : W64), (t &&& 0xFFF0000000000038 ≠ 0 ∨ 4 < (t &&& 7).toNat) → s.checkTarget t true = .trap s 0x05 t 0) ∧
  -- the page of the target line, then its TGT bit
  (∀ (s : State) (t : W64), t &&& 0xFFF0000000000038 = 0 → (t &&& 7).toNat ≤ 4 →
    let va := 64 * (t >>> 6).toNat
    (0xFFFF000000000 ≤ va → s.checkTarget t true = .trap s 0x11 t 4) ∧
    (va < 0xFFFF000000000 →
      (∀ i u, s.lookup (s.cur.core / 8) s.myPart va = (.inr i, u) → s.checkTarget t true = .trap u 0x10 t i) ∧
      (∀ pg u, s.lookup (s.cur.core / 8) s.myPart va = (.inl pg, u) →
        let noUser := s.cur.slot ≠ 7 ∧ pg.leaf.getLsbD 2 = false
        let img := match l0Get u.myCore (t >>> 6).toNat with
          | some e => e.1
          | none => u.lineAt (pg.pa + (va - pg.va))
        ((pg.leaf.getLsbD 5 = false ∨ noUser) → s.checkTarget t true = .trap u 0x11 t (if s.cur.slot ≠ 7 ∧ pg.leaf.getLsbD 2 = false then 12 else 4)) ∧
        (pg.leaf.getLsbD 5 = true → ¬ noUser → img.getLsbD (480 + (t &&& 7).toNat) = false → s.checkTarget t true = .trap u 0x05 t 0) ∧
        (pg.leaf.getLsbD 5 = true → ¬ noUser → img.getLsbD (480 + (t &&& 7).toNat) = true → s.checkTarget t true = .ok () u))))

/-- 07 R138, 06 R112, R115: forming a gang, its traps, and `disband`. Where two threads of a block name gangs of different sizes that meet, the issuing one and every
thread that waits in either group trap with INFO 4; a waiting thread whose member can no longer come traps with INFO 8. `b` is the block index, `n` the size. -/
def Obligations.GangFormation : Prop :=
  (∀ (x : GangA) (s : State) (l : Launch), s.myLaunch = some l →
    let n := gsizeN x.size
    let c := s.cur.core
    let b := (s.core c).bidx
    let slot := s.cur.slot
    (l.kernel.block < b / n * n + n ∨ l.kernel.gang < n → exec (.gang x) s = .next (s.takeTrap 0xA0 0 1)) ∧
    (b / n * n + n ≤ l.kernel.block → n ≤ l.kernel.gang → s.th.gang.isSome = true → exec (.gang x) s = .next (s.takeTrap 0xA0 0 2)) ∧
    (b / n * n + n ≤ l.kernel.block → n ≤ l.kernel.gang → s.th.gang = none →
      (∀ o ∈ s.blockOf c, gangWait (s.thr ⟨o, slot⟩) = none ∨ gangWait (s.thr ⟨o, slot⟩) = some n) →
      ((∃ o ∈ gangCores c (b % n) n, o ≠ c ∧ gangWait (s.thr ⟨o, slot⟩) ≠ some n) → exec (.gang x) s = .next (s.wait (.gang n))) ∧
      ((∀ o ∈ gangCores c (b % n) n, o ≠ c → gangWait (s.thr ⟨o, slot⟩) = some n) →
        ∃ t : State, exec (.gang x) s = .next t ∧
          ∀ j, j < n → (t.thr ⟨c - b % n + j, slot⟩).pend = none ∧ (t.thr ⟨c - b % n + j, slot⟩).gang = some ⟨n, j, 0, [], none, [], false, false, none⟩))) ∧
  (∀ (x : GangA) (s : State) (l : Launch) (o m : Nat), s.myLaunch = some l →
    let n := gsizeN x.size
    let c := s.cur.core
    let b := (s.core c).bidx
    b / n * n + n ≤ l.kernel.block → n ≤ l.kernel.gang → s.th.gang = none → o ∈ s.blockOf c → gangWait (s.thr ⟨o, s.cur.slot⟩) = some m → m ≠ n →
      (o ∈ gangCores c (b % n) n ∨ c ∈ gangCores o ((s.core o).bidx % m) m) →
      (∃ t : State, exec (.gang x) s = .next (t.takeTrap 0xA0 0 4)) ∧
      (s.cur.slot < 7 → (s.part s.myPart).scb.en = true → ∃ (t : State) (o' m' : Nat), exec (.gang x) s = .next t ∧ t.th.status = .parked ∧
        o' ∈ s.blockOf c ∧ gangWait (s.thr ⟨o', s.cur.slot⟩) = some m' ∧ m' ≠ n ∧
        ∀ k, (k ∈ gangCores c (b % n) n ∨ k ∈ gangCores o' ((s.core o').bidx % m') m') → k ≠ c → (gangWait (s.thr ⟨k, s.cur.slot⟩)).isSome = true →
          (s.thr ⟨k, s.cur.slot⟩).gang = none → (s.core k).task = s.myCore.task →
          ∃ p r, (s.thr ⟨k, s.cur.slot⟩).pend = some p ∧ (t.thr ⟨k, s.cur.slot⟩).status = .parked ∧ (t.thr ⟨k, s.cur.slot⟩).regs = p.regs ∧
            (t.thr ⟨k, s.cur.slot⟩).pc = p.ipc ∧ (t.core k).queue = (s.core k).queue ++ [r] ∧ r.cause = 0xA0 ∧ r.info = 4 ∧ r.pc = p.ipc ∧ r.slot = s.cur.slot)) ∧
  -- a thread that waits for its gang, at its next turn
  (∀ (s : State) (p : Pend) (n : Nat), s.th.pend = some p → p.stage = .gang n → s.cur.slot < 7 →
    let cs := gangCores s.cur.core (s.myCore.bidx % n) n
    let gone := fun k : Nat => (s.thr ⟨k, s.cur.slot⟩).status ≠ .running ∨ (s.thr ⟨k, s.cur.slot⟩).gang.isSome = true
    ((∀ k ∈ cs, ¬ gone k) → s.pollThread = .wait s) ∧
    ((∃ k ∈ cs, gone k) → (s.part s.myPart).scb.en = true → s.th.gang = none → ∃ (t : State) (r : TrapRec), s.pollThread = .used t ∧
      t.th.status = .parked ∧ t.th.regs = p.regs ∧ t.th.pc = p.ipc ∧ t.myCore.queue = s.myCore.queue ++ [r] ∧ r.cause = 0xA0 ∧ r.info = 8 ∧ r.pc = p.ipc)) ∧
  (∀ (x : HOnly) (s : State), exec (.disband x) s = .next (s.updTh fun t => { t with gang := none }))

/-- 06 R116, 07 R138: `part` writes (hi << 32) | lo for the member's row or column of the mesh; a granule that is no power of two up to
65,536 fails position 2. -/
def Obligations.SubTileBounds : Prop :=
  (∀ (x : PartA) (s : State), s.guardOn x.h = true →
     let e := (s.si x.a).toNat % 2 ^ 32
     let g := (s.si x.b).toNat
     let size := match s.opTh.gang with | some k => k.size | none => 1
     let idx := match s.opTh.gang with | some k => k.idx | none => 0
     let cols := if size = 2 then 2 else if size = 4 then 2 else if size = 8 then 4 else 1
     let rows := if size = 4 then 2 else if size = 8 then 2 else 1
     let i := if x.row then idx / cols else idx % cols
     let p := if x.row then rows else cols
     let u := (e + g - 1) / g
     ((∃ k, k ≤ 16 ∧ g = 2 ^ k) →
       exec (.part x) s = .next (s.ws x.d
         (BitVec.ofNat 64 (min e (g * (u * (i + 1) / p)) * 2 ^ 32 + min e (g * (u * i / p)))))) ∧
     ((∀ k, k ≤ 16 → g ≠ 2 ^ k) → exec (.part x) s = .next (s.takeTrap 0x02 0 2))) ∧
  (∀ e k p : Nat, p = 1 ∨ p = 2 ∨ p = 4 →
    let g := 2 ^ k
    let lo := fun i => min e (g * ((e + g - 1) / g * i / p))
    lo 0 = 0 ∧ lo p = e ∧ ∀ i, lo i ≤ lo (i + 1))

/-- 07 R139, R140, 06 R117, R118, 03 R61: `ftileset` without a record installs the task's grid, with a record a copy of its boundaries; `ftile` hands out the
next sub-tile of the task (segment by segment, the last of a segment short), in reproducible mode the last one left to the next task of the same PHASE, all ones when none is
left or no grid is set up. Both wait for the queue's answer. The model's choices: of several registers that break their limits the first of A, B, C is named, so that an H outside 1 to 65535 reports
position 1 whatever B and C hold (log 78); the share counted over each task's own grid (log 27); that a task is a victim whatever its place (log 62). -/
def Obligations.WorkQueueGrid : Prop :=
  (∀ (x : ABC) (s : State) (t : Task), s.myTask = some t →
    let a := (s.rs x.a).toNat
    let ny := a % 2 ^ 32
    let h := a / 2 ^ 32
    let nx := (s.rs x.b).toNat
    (1 ≤ h → h < 65536 → h * ny ≤ 2 ^ 31 → 1 ≤ nx → nx < 65536 → s.rs x.c = 0 →
      exec (.ftileset x) s =
        .next ((s.updTask t.id fun u => { u with wq := ⟨true, h, nx, ny, none, 0, 0⟩ }).wait (.data .none))) ∧
    (1 ≤ h → h < 65536 → ny = 0 → 1 ≤ nx → nx < 65536 → s.rs x.c ≠ 0 → (s.rs x.c).toNat < 2 ^ 52 → (s.rs x.c).toNat % 64 = 0 →
      ∀ hd bs m s', s.readRecord (s.rs x.c) = .ok (hd, bs, m) s' → s'.myTask = some t →
        (recordOk hd bs = true → field hd 4 4 ≤ 2 ^ 31 → exec (.ftileset x) s =
          .next ((s'.updTask t.id fun u => { u with wq := ⟨true, h, nx, 0, some bs, 0, 0⟩ }).wait (.data .none))) ∧
        (recordOk hd bs = false ∨ 2 ^ 31 < field hd 4 4 → exec (.ftileset x) s = .next (s'.takeTrap 0x31 0 0))) ∧
    ((h = 0 ∨ 65536 ≤ h) → exec (.ftileset x) s = .next (s.takeTrap 0x02 0 1)) ∧
    (1 ≤ h → h < 65536 → s.rs x.c = 0 → 2 ^ 31 < h * ny → exec (.ftileset x) s = .next (s.takeTrap 0x02 0 1)) ∧
    (1 ≤ h → h < 65536 → h * ny ≤ 2 ^ 31 → s.rs x.c = 0 → (nx = 0 ∨ 65536 ≤ nx) → exec (.ftileset x) s = .next (s.takeTrap 0x02 0 2))) ∧
  (∀ (x : DOnly) (s : State) (t : Task) (l : Launch), s.myTask = some t → s.launchOf t = some l → s.th.tileDue = none →
    let word := fun row0 rows col : Nat => BitVec.ofNat 64 (col * 2 ^ 48 + rows * 2 ^ 32 + row0)
    let gives := fun (v : W64) (u : State) =>
      exec (.ftile x) s = .next u ∧ u.stageOf s.me = some (.data { Result.none with s := [(x.d, v)], owned := some v })
    let none' := t.wq.set = false ∨ t.wq.total ≤ t.wq.next + t.wq.stolen
    (∀ h nx ny j st, t.wq = ⟨true, h, nx, ny, none, j, st⟩ → j + st < ny * nx →
      ∃ u : State, gives (word (h * (j / nx)) h (j % nx)) u ∧ (u.task? t.id).map (fun v => v.wq) = some ⟨true, h, nx, ny, none, j + 1, st⟩) ∧
    (∀ h nx bs j st g y c,
      let rows := fun i => bs.getD (i + 1) 0 - bs.getD i 0
      let upTo := fun n => ((List.range n).map fun i => (rows i + h - 1) / h).sum
      t.wq = ⟨true, h, nx, 0, some bs, j, st⟩ → 1 ≤ h → g + 1 < bs.length → y < (rows g + h - 1) / h → c < nx → j = nx * (upTo g + y) + c →
      j + st < nx * upTo (bs.length - 1) →
      ∃ u : State, gives (word (bs.getD g 0 + h * y) (min h (rows g - h * y)) c) u ∧
        (u.task? t.id).map (fun v => v.wq) = some ⟨true, h, nx, 0, some bs, j + 1, st⟩) ∧
    (t.wq.set = false → ∃ u : State, gives 0xFFFFFFFFFFFFFFFF u) ∧
    (l.repro = false → none' → ∃ u : State, gives 0xFFFFFFFFFFFFFFFF u) ∧
    (l.repro = true → t.wq.set = true → t.wq.total ≤ t.wq.next + t.wq.stolen →
      let other := fun k => ({ t.id with idx := (t.id.idx + k) % l.tasks } : TaskId)
      let dry := fun k => ∀ w : Task, s.task? (other k) = some w → w.phase ≠ t.phase ∨ w.wq.set = false ∨ w.wq.total ≤ w.wq.next + w.wq.stolen
      ((∀ k, 1 ≤ k → k < l.tasks → dry k) → ∃ u : State, gives 0xFFFFFFFFFFFFFFFF u) ∧
      (∀ k (w : Task) h nx ny j st, 1 ≤ k → k < l.tasks → (∀ i, 1 ≤ i → i < k → dry i) → s.task? (other k) = some w → w.phase = t.phase →
        w.wq = ⟨true, h, nx, ny, none, j, st⟩ → j + st < ny * nx →
        let n := ny * nx - 1 - st
        ∃ u : State, gives (word (h * (n / nx)) h (n % nx)) u ∧
          (u.task? (other k)).map (fun v => v.wq) = some ⟨true, h, nx, ny, none, j, st + 1⟩ ∧
          (u.task? t.id).map (fun v => assocGet v.stealing (s.myCore.bidx, s.cur.slot)) = some (some (other k).idx)))) ∧
  (∀ (x : DOnly) (s : State) (t : Task) (v : W64), s.myTask = some t → s.th.tileDue = some v →
    exec (.ftile x) s = .next ((s.updTh fun t => { t with tileDue := none }).wait (.data { Result.none with s := [(x.d, v)], owned := some v })))

/-- 07 R142, R143, 06 R119, R120: circular buffers. Tile states are those at the start of the cycle. An invalid handle fails the position that
names it, a count outside 1 to LENM1 + 1 position 3; a wait whose entries are not in the state it needs passes the turn. That the handle is looked at before the count, and the count before the
entries, is the model's choice (log 78). -/
def Obligations.CircularBuffers : Prop :=
  (∀ (x : CSI) (s : State),
    let v := (s.si x.a).toNat
    (v < 256 → v % 16 + v / 16 ≤ 15 → exec (.cbset x) s = .next (s.wc x.d ⟨true, 0, 0, v / 16, v % 16⟩)) ∧
    (256 ≤ v ∨ 15 < v % 16 + v / 16 → exec (.cbset x) s = .next (s.takeTrap 0x02 0 1))) ∧
  (∀ (x : CbW) (s : State),
    let c := s.rc x.a
    (c.valid = true → 1 ≤ x.n.val → x.n.val ≤ c.lenm1 + 1 →
      ((∀ i, i < x.n.val → (s.tile (c.first + (c.q + i) % (c.lenm1 + 1))).size ≠ 0) →
        ((∀ i, i < x.n.val → s.tileStart s.cur.core (c.first + (c.q + i) % (c.lenm1 + 1)) = .ready) →
          exec (.cbwaitc x) s = .next (s.ws x.d (BitVec.ofNat 64 (c.first + c.q)))) ∧
        ((∃ i, i < x.n.val ∧ s.tileStart s.cur.core (c.first + (c.q + i) % (c.lenm1 + 1)) ≠ .ready) →
          exec (.cbwaitc x) s = .next { s with cur := { s.cur with fate := .passed } })) ∧
      ((∀ i, i < x.n.val → (s.tile (c.first + (c.p + i) % (c.lenm1 + 1))).size ≠ 0) →
        ((∀ i, i < x.n.val → s.tileStart s.cur.core (c.first + (c.p + i) % (c.lenm1 + 1)) = .empty) →
          exec (.cbwaitp x) s = .next (s.ws x.d (BitVec.ofNat 64 (c.first + c.p)))) ∧
        ((∃ i, i < x.n.val ∧ s.tileStart s.cur.core (c.first + (c.p + i) % (c.lenm1 + 1)) ≠ .empty) →
          exec (.cbwaitp x) s = .next { s with cur := { s.cur with fate := .passed } }))) ∧
    (c.valid = false → exec (.cbwaitc x) s = .next (s.takeTrap 0x02 0 1) ∧ exec (.cbwaitp x) s = .next (s.takeTrap 0x02 0 1)) ∧
    (c.valid = true → x.n.val = 0 ∨ c.lenm1 + 1 < x.n.val →
      exec (.cbwaitc x) s = .next (s.takeTrap 0x02 0 3) ∧ exec (.cbwaitp x) s = .next (s.takeTrap 0x02 0 3))) ∧
  (∀ (x : CSI) (s : State),
    let c := s.rc x.d
    let n := (s.si x.a).toNat
    (c.valid = true → 1 ≤ n → n ≤ c.lenm1 + 1 →
      exec (.cbadvp x) s = .next (s.wc x.d { c with p := (c.p + n) % (c.lenm1 + 1) }) ∧
      ((∀ i, i < n → (s.tile (c.first + (c.q + i) % (c.lenm1 + 1))).size ≠ 0) →
        ((∀ i, i < n → s.tileStart s.cur.core (c.first + (c.q + i) % (c.lenm1 + 1)) = .ready) →
          ∃ t : State, exec (.cbadvc x) s = .next t ∧ rdC t.th.regs x.d = { c with q := (c.q + n) % (c.lenm1 + 1) } ∧
            (∀ i, i < n → (t.tile (c.first + (c.q + i) % (c.lenm1 + 1))) =
              { s.tile (c.first + (c.q + i) % (c.lenm1 + 1)) with st := .empty }) ∧
            (∀ e, (∀ i, i < n → e ≠ c.first + (c.q + i) % (c.lenm1 + 1)) → t.tile e = s.tile e)) ∧
        ((∃ i, i < n ∧ s.tileStart s.cur.core (c.first + (c.q + i) % (c.lenm1 + 1)) ≠ .ready) →
          exec (.cbadvc x) s = .next (s.takeTrap 0x02 0 3)))) ∧
    (c.valid = false → exec (.cbadvc x) s = .next (s.takeTrap 0x02 0 0) ∧ exec (.cbadvp x) s = .next (s.takeTrap 0x02 0 0)) ∧
    (c.valid = true → n = 0 ∨ c.lenm1 + 1 < n →
      exec (.cbadvc x) s = .next (s.takeTrap 0x02 0 3) ∧ exec (.cbadvp x) s = .next (s.takeTrap 0x02 0 3)))

/-- What branches, calls, returns, `srd`, `part` and the circular-buffer waits leave as it was: registers (but D, the link of a
call, the counter of `brdec`), memory, flags, status (but the latch of TIME), traps, other threads, tiles. -/
def Obligations.ControlFrame : Prop :=
  ∀ (i : Instr) (s t : State), s.cur.fate = .go → exec i s = .next t → t.cur.fate = .go →
    (∀ x : BrO, i = .br x → OnlyRegs s t [] [] [] ∧ KeepsFlags s t) ∧
    (∀ x : BrR, i = .brz x ∨ i = .brnz x → OnlyRegs s t [] [] [] ∧ KeepsFlags s t) ∧
    (∀ x : BrR, i = .brdec x → OnlyRegs s t [x.r] [] [] ∧ KeepsFlags s t) ∧
    (∀ x : BrO, i = .call x → OnlyRegs s t [63] [] [] ∧ KeepsFlags s t) ∧
    (∀ x : AOnly, i = .callr x → OnlyRegs s t [63] [] [] ∧ KeepsFlags s t) ∧
    (∀ x : AOnly, i = .jr x → OnlyRegs s t [] [] [] ∧ KeepsFlags s t) ∧
    (∀ x : HOnly, i = .ret x → OnlyRegs s t [] [] [] ∧ KeepsFlags s t) ∧
    (∀ x : PartA, i = .part x → OnlyRegs s t [x.d] [] [] ∧ KeepsFlags s t) ∧
    (∀ x : CbW, i = .cbwaitc x ∨ i = .cbwaitp x → OnlyRegs s t [x.d] [] [] ∧ KeepsFlags s t) ∧
    (∀ x : SrdA, i = .srd x → KeepsRegs s t [x.d] [] [] [] ∧ KeepsMem s t ∧ KeepsCore s t ∧ KeepsOthers s t ∧ KeepsUnits s t ∧
      KeepsFlags s t ∧ t.th.mode = s.th.mode ∧ t.th.esn = s.th.esn ∧ t.th.ctr = s.th.ctr) ∧
    (∀ x : CSI, i = .cbset x ∨ i = .cbadvp x → KeepsRegs s t [] [] [] [x.d] ∧ KeepsMem s t ∧ KeepsStatus s t ∧ KeepsCore s t ∧
      KeepsOthers s t ∧ KeepsUnits s t ∧ KeepsFlags s t)

/-- 10 R187 to R189, R196, 06 R110, 08 R147 to R151, R153, 15 R278: translation, the checks of an access, and scalar loads. A walk goes down the levels to the first entry that is
not valid (INFO its level), malformed (plus 4) or a leaf; an access may use a cached translation or the tables. An access is checked for its range and the device region's windows
(cause 0x12; 0x11 where the form may not use the region or writes the capability list), page by page (0x10 and 0x11, the page's first byte as address), for one
FMT and MSIDE (0x12), and a form for its alignment (0x13) and its type (0x14). A scalar load of the local window gives the little-endian bytes there, extended; one of global memory gives the
bytes of the youngest store-buffer entry that covers them, else of the youngest block-buffer entry, else of the core's L1 copy, else of the point of coherence; it waits where the
line is not in L1, and passes its turn where an entry covers only a part. A prefetch changes no register and no byte. The INFO of a form that may not use
the region and of a store to the capability list are the model's reading (log 39). -/
def Obligations.LoadsAndPrefetch : Prop :=
  -- the walk: `base l` is the table of level `l`, and the levels before `k` hold pointers
  (∀ (m : List Host.Cell) (root va k : Nat) (base : Nat → Nat), base 0 = root → k ≤ 3 →
    let idx := fun l => if l = 0 then va / 2 ^ 39 % 2 ^ 13 else if l = 1 then va / 2 ^ 30 % 2 ^ 9 else if l = 2 then va / 2 ^ 24 % 2 ^ 6 else va / 2 ^ 18 % 2 ^ 6
    let ent := fun l => ofBytes (memBytes m (base l + 8 * idx l) 8)
    let addr := fun l => ent l / 2 ^ 12 % 2 ^ 36 * 4096
    let size := fun l : Nat => if l = 1 then 2 ^ 30 else if l = 2 then 2 ^ 24 else 2 ^ 18
    let valid := fun l => ent l % 2 = 1
    let leaf := fun l => ent l / 2 % 2 = 1
    let bad := fun l => ent l / 2 ^ 48 % 2 ^ 11 ≠ 0 ∨ ent l / 2 ^ 6 % 2 ^ 6 ≠ 0 ∨
      (leaf l ∧ (l = 0 ∨ addr l % size l ≠ 0 ∨ 0xA000000000 ≤ addr l ∨ 9 ≤ ent l / 2 ^ 60)) ∨ (¬ leaf l ∧ (l = 3 ∨ ent l / 2 ^ 59 ≠ 0 ∨ ent l / 4 % 2 ^ 4 ≠ 0))
    (∀ l, l < k → valid l ∧ ¬ bad l ∧ ¬ leaf l ∧ base (l + 1) = addr l) →
    (¬ valid k → ∃ r, walk m root va = .fault (BitVec.ofNat 64 k) r) ∧
    (valid k → bad k → ∃ r, walk m root va = .fault (BitVec.ofNat 64 (k + 4)) r) ∧
    (valid k → ¬ bad k → leaf k → ∃ r, walk m root va = .leaf (BitVec.ofNat 64 (ent k)) (size k) r)) ∧
  -- the translation of a cluster
  (∀ (s : State) (cl p va : Nat),
    let page := fun (e : W64) (n : Nat) => (⟨va / n * n, n, e.toNat / 2 ^ 12 % 2 ^ 36 * 4096, e⟩ : Pg)
    let tables := match walk s.mem (s.part p).desc.ptroot va with
      | .leaf e n _ => Sum.inl (page e n)
      | .fault i _ => Sum.inr i
    let covers := fun t : TlbEntry => t.part = p ∧ t.base ≤ va ∧ va < t.base + t.size
    ((s.lookup cl p va).1 = tables ∨ ∃ t ∈ (s.cluster cl).tlb, covers t ∧ (s.lookup cl p va).1 = .inl (page t.leaf t.size)) ∧
    (∀ t ∈ ((s.lookup cl p va).2.cluster cl).tlb, t ∈ (s.cluster cl).tlb ∨ (covers t ∧ tables = .inl (page t.leaf t.size))) ∧
    (s.lookup cl p va).2.mem = s.mem ∧ (s.lookup cl p va).2.cores = s.cores) ∧
  -- checks 1 and 2
  (∀ (s : State) (x : Agent) (a : W64) (n : Nat) (kd : Kind) (noDev : Bool), 1 ≤ n →
    let va := a.toNat
    let fin := va + n
    let sp := 65536 * (s.core x.core).sp
    let local' := fun o => va = 0xFFFF000000000 + o ∧ o < 2 ^ 32 ∧ o + n ≤ sp
    let block := fun b o m => va = 0xFFFF100000000 + b * 2 ^ 20 + o ∧ o < 2 ^ 20 ∧ b < 8 ∧ (s.blockOf x.core)[b]? = some m ∧ o + n ≤ sp
    let cap := 0xFFFF200000000 ≤ va ∧ fin ≤ 0xFFFF200001000
    ((2 ^ 52 ≤ va ∨ 2 ^ 52 < fin) → s.access x a n kd noDev = .trap s 0x12 a 0) ∧
    (fin ≤ 2 ^ 52 → 0xFFFF000000000 < fin →
      ((∀ o, ¬ local' o) → (∀ b o m, ¬ block b o m) → (s.blockOf x.core).length ≤ 8 → ¬ cap → s.access x a n kd noDev = .trap s 0x12 a 0) ∧
      (noDev = true → ((∃ o, local' o) ∨ (∃ b o m, block b o m) ∨ cap) → s.access x a n kd noDev = .trap s 0x11 a 0) ∧
      (noDev = false → (∀ o, local' o → s.access x a n kd noDev = .ok (.sp x.core o) s) ∧
        (∀ b o m, block b o m → s.access x a n kd noDev = .ok (.sp m o) s) ∧
        (cap → s.access x a n kd noDev =
          if kd.wr = true then .trap s 0x11 a (BitVec.ofNat 64 ((if kd.rd then 1 else 0) + 2 + (if kd.fx then 4 else 0))) else .ok (.cap (va - 0xFFFF200000000)) s)))) ∧
  -- checks 3 and 4, of an access in one page or in two
  (∀ (s u : State) (x : Agent) (a : W64) (n : Nat) (kd : Kind) (noDev : Bool) (r : Pg ⊕ W64), 1 ≤ n → a.toNat + n ≤ 0xFFFF000000000 →
    let look := fun (s : State) (va : Nat) => s.lookup (x.core / 8) x.part va
    let noUser := fun pg : Pg => x.super = false ∧ pg.leaf.getLsbD 2 = false
    let refuses := fun pg : Pg => (kd.rd = true ∧ pg.leaf.getLsbD 3 = false) ∨ (kd.wr = true ∧ pg.leaf.getLsbD 4 = false) ∨
      (kd.fx = true ∧ pg.leaf.getLsbD 5 = false) ∨ noUser pg
    let info := fun pg : Pg => BitVec.ofNat 64 ((if kd.rd then 1 else 0) + (if kd.wr then 2 else 0) + (if kd.fx then 4 else 0) +
      (if x.super = false ∧ pg.leaf.getLsbD 2 = false then 8 else 0))
    look s a.toNat = (r, u) →
    (∀ i, r = .inr i → s.access x a n kd noDev = .trap u 0x10 a i) ∧
    (∀ pg, r = .inl pg →
      (refuses pg → s.access x a n kd noDev = .trap u 0x11 a (info pg)) ∧
      (¬ refuses pg → a.toNat + n ≤ pg.va + pg.size → s.access x a n kd noDev = .ok (.mem [pg]) u) ∧
      (¬ refuses pg → pg.va + pg.size < a.toNat + n → ∀ r' v, look u (pg.va + pg.size) = (r', v) →
        let b := BitVec.ofNat 64 (pg.va + pg.size)
        (∀ i, r' = .inr i → s.access x a n kd noDev = .trap v 0x10 b i) ∧
        (∀ q, r' = .inl q →
          (refuses q → s.access x a n kd noDev = .trap v 0x11 b (info q)) ∧
          (¬ refuses q → a.toNat + n ≤ q.va + q.size → s.access x a n kd noDev =
            if q.leaf.toNat / 2 ^ 60 = pg.leaf.toNat / 2 ^ 60 ∧ q.leaf.getLsbD 59 = pg.leaf.getLsbD 59 then .ok (.mem [pg, q]) v else .trap v 0x12 a 0))))) ∧
  -- checks 5 and 6
  (∀ (s u : State) (x : Agent) (a : W64) (n k : Nat) (kd : Kind) (noDev : Bool),
    (∀ p, s.access x a n kd noDev = .ok p u → s.accessAligned x a n k kd noDev = if a.toNat % k = 0 then .ok p u else .trap u 0x13 a 0) ∧
    (∀ c b i, s.access x a n kd noDev = .trap u c b i → s.accessAligned x a n k kd noDev = .trap u c b i)) ∧
  (∀ (s : State) (p : Place) (a : W64) (x : VTy),
    let f := vtyFmt x
    (vtyB x ≠ 0 → a.toNat % vtyB x ≠ 0 → s.typed p a x = .trap s 0x13 a 0) ∧
    ((vtyB x ≠ 0 ∧ a.toNat % vtyB x = 0) ∨ (vtyB x = 0 ∧ p.fmt ≠ f) →
      (f = 0 ∨ p.fmt = 0 → s.typed p a x = .ok false s) ∧
      (f ≠ 0 → p.fmt = f → s.typed p a x = .ok true s) ∧
      (f ≠ 0 → p.fmt ≠ 0 → p.fmt ≠ f → s.typed p a x = if s.mode.fmtovr = true then .ok false s else .trap s 0x14 a 0)) ∧
    (∀ q : Pg, p = .mem [q] → vtyB x = 0 → p.fmt = f → q.va ≤ a.toNat →
      s.typed p a x = if (a.toNat - q.va) % vtyBlock x = 0 ∧ a.toNat + 2 * vtyBlock x ≤ q.va + q.size then .ok true s else .trap s 0x13 a 0)) ∧
  ((∀ (x : LdA) (s : State) (o : Nat), s.guardOn x.h = true →
     let a := s.addr x.m
     let n := width x.ty / 8
     let c := s.cur.core
     a.toNat = 0xFFFF000000000 + o → o < 2 ^ 32 → o + n ≤ 65536 * (s.core c).sp → o % n = 0 → (s.core c).sb = [] → s.posted = [] →
     (∀ k, k < n → (c, (o + k) / 8) ∉ s.sramPoison) →
     ∃ t : State, exec (.ld x) s = .next t ∧ t.cur.fate = s.cur.fate ∧ t.mem = s.mem ∧ (t.core c).sram = (s.core c).sram ∧
       KeepsRegs s t [x.d] [] [] [] ∧
       (x.d ≠ 0 → rdS t.th.regs x.d = narrow x.ty (BitVec.ofNat 64 (ofBytes (memBytes (s.core c).sram o n))))) ∧
   (∀ (x : LdA) (s s' : State) (p : Place), s.guardOn x.h = true →
     let a := s.addr x.m
     let n := width x.ty / 8
     (s.access s.agent a n .load false = .ok p s' → a.toNat % n ≠ 0 → exec (.ld x) s = .next (s'.takeTrap 0x13 a 0)) ∧
     (∀ (e : Byte) (b i : W64), s.access s.agent a n .load false = .trap s' e b i → exec (.ld x) s = .next (s'.takeTrap e b i)))) ∧
  (∀ (x : LdA) (s s' : State) (pgs : List Pg), s.guardOn x.h = true →
     let a := s.addr x.m
     let n := width x.ty / 8
     let c := s'.cur.core
     s.accessAligned s.agent a n n .load false = .ok (.mem pgs) s' → s'.phaseGate true = .ok () s' → s'.myShingle = none →
     s'.posted = [] → (s'.core c).sb = [] → (s'.core c).l1 = [] → (s'.cluster (c / 8)).bb = [] →
     (∀ i, i < n → paOf pgs (a.toNat + i) / 8 ∉ s'.poison) →
     ∃ t : State, exec (.ld x) s = .next t ∧ t.mem = s'.mem ∧ t.th.regs = s'.th.regs ∧
       t.stageOf s'.me = some (.data { Result.none with
         s := [(x.d, narrow x.ty (BitVec.ofNat 64 (ofBytes ((List.range n).map fun i => memByte s'.mem (paOf pgs (a.toNat + i))))))],
         acq := if x.acq then some x.scope else none })) ∧
  -- a load whose bytes are in a buffer of the core or its cluster, or in the core's L1
  (∀ (x : LdA) (s s' : State) (pgs : List Pg), s.guardOn x.h = true →
     let a := s.addr x.m
     let n := width x.ty / 8
     let c := s'.cur.core
     let pa := fun i => paOf pgs (a.toNat + i)
     let covers := fun e : Entry => e.dest = none ∧ e.shingle = none ∧ e.red = none ∧ ∀ i, i < n → ∃ z ∈ e.cells, z.pa = pa i
     let apart := fun e : Entry => e.dest = none → ∀ z ∈ e.cells, ∀ i, i < n → z.pa ≠ pa i
     let value := fun bs : List Byte => narrow x.ty (BitVec.ofNat 64 (ofBytes bs))
     let held := fun e : Entry => value ((List.range n).map fun i => (cellOf e (pa i)).getD 0)
     let inL1 := ∃ o ∈ (s'.core c).l1, o.line = pa 0 / 128 ∧ o.sh = none
     let answers := fun v : W64 => ∃ t : State, exec (.ld x) s = .next t ∧ t.mem = s'.mem ∧
       (inL1 → t.cur.fate = s'.cur.fate ∧ (x.d ≠ 0 → rdS t.th.regs x.d = v)) ∧
       (¬ inL1 → t.stageOf s'.me = some (.data { Result.none with s := [(x.d, v)], acq := if x.acq then some x.scope else none }) ∧ t.th.regs = s'.th.regs)
     s.accessAligned s.agent a n n .load false = .ok (.mem pgs) s' → s'.phaseGate true = .ok () s' → s'.myShingle = none → s'.posted = [] →
     (∀ i, i < n → pa i = pa 0 + i ∧ pa i / 128 = pa 0 / 128) →
     (∀ l e r, (s'.core c).sb = l ++ e :: r → (∀ y ∈ r, apart y) →
       (covers e → answers (held e)) ∧
       (e.dest = none → e.shingle = none → (∃ z ∈ e.cells, ∃ i, i < n ∧ z.pa = pa i) → (e.red ≠ none ∨ ∃ i, i < n ∧ ∀ z ∈ e.cells, z.pa ≠ pa i) →
         ∃ t : State, exec (.ld x) s = .next t ∧ t.cur.fate = .passed ∧ t.mem = s'.mem ∧ t.th.regs = s'.th.regs ∧ (t.core c).sb = (s'.core c).sb)) ∧
     ((∀ y ∈ (s'.core c).sb, apart y) →
       (∀ l e r, (s'.cluster (c / 8)).bb = l ++ e :: r → (∀ y ∈ r, apart y) → covers e → (∀ z ∈ e.cells, z.bad = false) → answers (held e)) ∧
       ((∀ y ∈ (s'.cluster (c / 8)).bb, apart y) → (Place.mem pgs).mside = false → (∀ i, i < n → pa i / 8 ∉ s'.poison) →
         ∀ o, (s'.core c).l1.find? (fun e => e.line == pa 0 / 128 && e.sh == none) = some o →
           ∃ t : State, exec (.ld x) s = .next t ∧ t.mem = s'.mem ∧ t.cur.fate = s'.cur.fate ∧
             (x.d ≠ 0 → rdS t.th.regs x.d = value ((List.range n).map fun i => (o.data >>> (8 * (pa i % 128))).setWidth 8))))) ∧
  (∀ (x : PrefA) (s : State), ∃ t : State, exec (.pref x) s = .next t ∧ t.cur = s.cur ∧ OnlyRegs s t [] [] [] ∧ KeepsFlags s t)

/-- 10 R188, 15 R277, R292: a scalar store puts one entry with the register's low bytes, at the addresses the access translates to, at the end of
its core's store buffer; no byte of memory changes yet. A full buffer holds the thread. In reproducible mode the entry is bound for the shingle of its task and phase, and one
that would add a line beyond 2^16 traps with cause 0x50. -/
def Obligations.StoreEntersBuffer : Prop :=
  ∀ (x : StA) (s s' : State) (p : Place), s.guardOn x.h = true →
    let a := s.addr x.m
    let n := width x.ty / 8
    let c := s'.cur.core
    let cells : List WCell := (List.range n).map fun i => ⟨p.at a.toNat (a.toNat + i), a.toNat + i, (s'.rs x.c >>> (8 * i)).setWidth 8, false⟩
    let full := p.isMem = true ∧ s'.shFull s'.myShingle cells = true
    s.accessAligned s.agent a n n .store false = .ok p s' → s'.phaseGate p.isMem = .ok () s' →
    (full → exec (.st x) s = .next (s'.takeTrap 0x50 0 1)) ∧
    (¬ full → (s'.core c).sb.length < 32 →
      ∃ (t : State) (e : Entry), exec (.st x) s = .next t ∧ (t.core c).sb = (s'.core c).sb ++ [e] ∧ e.dest = p.dest ∧ e.rel = x.rel ∧ e.scope = x.scope ∧
        e.thread = some s'.me ∧ e.shingle = (if p.dest = none then s'.myShingle else none) ∧ e.cells = cells ∧
        KeepsMem s' t ∧ KeepsRegs s' t [] [] [] [] ∧ KeepsStatus s' t ∧ KeepsFlags s' t ∧ KeepsOthers s' t) ∧
    (¬ full → 32 ≤ (s'.core c).sb.length → exec (.st x) s = .next { s' with cur := { s'.cur with fate := .passed } })

/-- 10 R190, R191, 09 R174, R176 to R179: vector accesses. Lanes whose guard bit is 0 take no part; a raw load of the local window fills the others, a raw store
puts their bytes into one store-buffer entry; a typed access of a page of its format reads the bytes of active lanes alone and decodes each element, and traps with cause
0x40 where MODE.ARITH is 1 and a lane raises invalid or overflow; an undecoded one, and a raw one of a translated page, moves the bytes of active lanes, and a load without a
guard clears the rest of the register. The value of an element of each format, and the bytes, the shared exponent and the quad shifts that a vector encodes to, are those of 09 R167 to R170 and R176 to R179. -/
def Obligations.VectorAccesses : Prop :=
  (∀ (x : VldA) (y : VstA) (s : State), vtyB x.x ≠ 0 → vtyB y.x ≠ 0 → s.guard x.h = 0 → s.guard y.h = 0 →
    exec (.vld x) s = .next s ∧ exec (.vst y) s = .next s) ∧
  (∀ (x : VldA) (s : State) (o : Nat),
    let a := s.addr x.m
    let c := s.cur.core
    vtyFmt x.x = 0 → s.guard x.h ≠ 0 → a.toNat = 0xFFFF000000000 + o → o < 2 ^ 32 → o + 128 ≤ 65536 * (s.core c).sp → o % 4 = 0 →
    (s.core c).sb = [] → s.posted = [] → (∀ k, k < 128 → (c, (o + k) / 8) ∉ s.sramPoison) →
    ∃ t : State, exec (.vld x) s = .next t ∧ t.cur.fate = s.cur.fate ∧ KeepsRegs s t [] [x.d] [] [] ∧ KeepsFlags s t ∧ t.mem = s.mem ∧
      ∀ j, j < 32 → lane (rdV t.th.regs x.d) j =
        if (s.guard x.h).getLsbD j then BitVec.ofNat 32 (ofBytes (memBytes (s.core c).sram (o + 4 * j) 4)) else lane (s.rv x.d) j) ∧
  (∀ (x : VstA) (s : State) (o : Nat),
    let a := s.addr x.m
    let c := s.cur.core
    vtyFmt x.x = 0 → s.guard x.h ≠ 0 → a.toNat = 0xFFFF000000000 + o → o < 2 ^ 32 → o + 128 ≤ 65536 * (s.core c).sp → o % 4 = 0 →
    (s.core c).sb.length < 32 →
    ∃ (t : State) (e : Entry), exec (.vst x) s = .next t ∧ (t.core c).sb = (s.core c).sb ++ [e] ∧ e.dest = some c ∧
      e.cells = (((List.range 128).filter fun i => (s.guard x.h).getLsbD (i / 4)).map fun i =>
        ⟨o + i, a.toNat + i, (s.rv x.c >>> (8 * i)).setWidth 8, false⟩) ∧
      KeepsMem s t ∧ KeepsRegs s t [] [] [] [] ∧ KeepsFlags s t) ∧
  (∀ (x : VldA) (s s1 s2 s3 : State) (p : Place) (got : List Byte) (far : Bool),
    let act := s.actLanes x.h x.x
    let lo := (spanLanes x.x act).1
    let hi := (spanLanes x.x act).2
    let off := (spanBytes x.x lo hi).1
    let n := (spanBytes x.x lo hi).2
    let a := s.addr x.m + BitVec.ofNat 64 off
    let vas := ((List.range n).filter fun i => vtyB x.x = 0 || act.contains ((off + i) / vtyB x.x)).map (a.toNat + ·)
    let bs := (List.range n).map fun i => (assocGet (vas.zip got) (a.toNat + i)).getD 0
    act ≠ [] → s.access s.agent a n .load false = .ok p s1 →
    (∀ dec, s1.typed p a x.x = .ok dec s2 → s2.loadAt p a vas true x.h.hint.val = .ok (got, far) s3 →
      let f := act.foldl (fun f j => f ||| (decodeElem x.x s3.ctab (List.replicate off 0 ++ bs) j).2) 0
      let traps := s3.mode.arith = true ∧ (f.testBit 0 = true ∨ f.testBit 1 = true)
      (dec = true → traps → exec (.vld x) s = .next (s3.takeTrap 0x40 0 (arithWord f))) ∧
      (dec = true → ¬ traps → exec (.vld x) s = .next (s3.reply far { Result.none with
        v := [(x.d, mkLanes fun j => if act.contains j then
          BitVec.ofNat 32 (decodeElem x.x s3.ctab (List.replicate off 0 ++ bs) j).1 else lane (s3.rv x.d) j)],
        sticky := BitVec.ofNat 4 f })) ∧
      (dec = false → ∃ w : VWord, exec (.vld x) s = .next (s3.reply far { Result.none with v := [(x.d, w)] }) ∧
        ∀ i, i < 128 → (w >>> (8 * i)).setWidth 8 =
          if i < vtyN x.x ∧ (vtyB x.x = 0 ∨ i / vtyB x.x ∈ act) then bs.getD (i - off) 0
          else if vtyN x.x ≤ i ∧ x.h.pred = 0 then 0 else (s3.rv x.d >>> (8 * i)).setWidth 8))) ∧
  -- an undecoded load of a translated page whose bytes no buffer and no copy holds
  (∀ (x : VldA) (s s1 s2 : State) (pgs : List Pg),
    let act := s.actLanes x.h x.x
    let lo := (spanLanes x.x act).1
    let hi := (spanLanes x.x act).2
    let off := (spanBytes x.x lo hi).1
    let n := (spanBytes x.x lo hi).2
    let a := s.addr x.m + BitVec.ofNat 64 off
    let c := s2.cur.core
    act ≠ [] → s.access s.agent a n .load false = .ok (.mem pgs) s1 → s1.typed (.mem pgs) a x.x = .ok false s2 → s2.phaseGate true = .ok () s2 →
    s2.myShingle = none → s2.posted = [] → (s2.core c).sb = [] → (s2.core c).l1 = [] → (s2.cluster (c / 8)).bb = [] →
    (∀ i, i < n → paOf pgs (a.toNat + i) / 8 ∉ s2.poison) →
    ∃ (t : State) (w : VWord), exec (.vld x) s = .next t ∧ t.mem = s2.mem ∧ t.th.regs = s2.th.regs ∧
      t.stageOf s2.me = some (.data { Result.none with v := [(x.d, w)] }) ∧
      ∀ i, i < 128 → (w >>> (8 * i)).setWidth 8 =
        if i < vtyN x.x ∧ (vtyB x.x = 0 ∨ i / vtyB x.x ∈ act) then memByte s2.mem (paOf pgs (a.toNat + (i - off)))
        else if vtyN x.x ≤ i ∧ x.h.pred = 0 then 0 else (s2.rv x.d >>> (8 * i)).setWidth 8) ∧
  (∀ (x : VstA) (s s1 s2 : State) (p : Place),
    let act := s.actLanes x.h x.x
    let lo := (spanLanes x.x act).1
    let hi := (spanLanes x.x act).2
    let off := (spanBytes x.x lo hi).1
    let n := (spanBytes x.x lo hi).2
    let a := s.addr x.m + BitVec.ofNat 64 off
    let enc := encodeElems x.x s2.ctab x.rm x.sat s2.mode.fp8ns (s2.rv x.c) act lo hi
    let traps := s2.mode.arith = true ∧ (enc.2.testBit 0 = true ∨ enc.2.testBit 1 = true)
    let enters := fun (cells : List (Nat × Byte)) (f : Nat) =>
      ∃ (t : State) (e : Entry), exec (.vst x) s = .next t ∧ (t.core s2.cur.core).sb = (s2.core s2.cur.core).sb ++ [e] ∧ KeepsMem s2 t ∧
        KeepsRegs s2 t [] [] [] [] ∧ t.th.sticky = s2.th.sticky ||| BitVec.ofNat 4 f ∧ e.dest = p.dest ∧ e.scope = x.scope ∧
        e.cells.map (fun c => (c.va, c.b)) = cells ∧ ∀ c ∈ e.cells, c.pa = p.at a.toNat c.va
    act ≠ [] → s.access s.agent a n .store false = .ok p s1 →
    (s1.typed p a x.x = .ok true s2 → traps → exec (.vst x) s = .next (s2.takeTrap 0x40 0 (arithWord enc.2))) ∧
    (s2.phaseGate p.isMem = .ok () s2 → s2.myShingle = none → (s2.core s2.cur.core).sb.length < 32 →
      (s1.typed p a x.x = .ok true s2 → ¬ traps → enters ((bytesAt a.toNat enc.1).filter
          fun c => vtyB x.x = 0 || act.contains ((c.1 - a.toNat + off) / vtyB x.x)) enc.2) ∧
      (s1.typed p a x.x = .ok false s2 → enters (((List.range n).filter fun i => vtyB x.x = 0 || act.contains ((off + i) / vtyB x.x)).map fun i =>
          (a.toNat + i, (s2.rv x.c >>> (8 * (off + i))).setWidth 8)) 0))) ∧
  -- the value of an element
  (∀ (x : VTy) (f : FFmt) (k : Nat) (ct : W64 × W64) (bs : List Byte) (j : Nat),
    (x, f, k) ∈ [(VTy.f16, fF16, 2), (.bf16, fBf16, 2), (.e4m3, fE4m3, 1), (.e5m2, fE5m2, 1)] →
    let v := fdec f (field bs (k * j) k)
    let r := decodeElem x ct bs j
    (finite v → rat (fdec fF32 r.1) = rat v ∧ r.2 = 0 ∧ r.1.testBit 31 = v.sign) ∧ (v.isNan = true → r = (0x7FC00000, nanFlags [v])) ∧
    (∀ n, v = .inf n → r = ((if n then 0x80000000 else 0) + 0x7F800000, 0))) ∧
  (∀ (x : VTy) (ct : W64 × W64) (bs : List Byte) (j : Nat), x ∈ [VTy.n32, .i32, .f32] → decodeElem x ct bs j = (field bs (4 * j) 4, 0)) ∧
  (∀ (x : VTy) (p : Nat) (ct : W64 × W64) (bs : List Byte) (j : Nat), (x, p) ∈ [(VTy.sx3, 2), (.sx5, 4), (.sx8, 7)] →
    let n := 2 + 2 * (1 + p)
    let blk := field bs (n * (j / 16)) n
    let i := j % 16
    let e := blk % 256
    let shift := blk / 2 ^ (8 + 2 * (i / 4)) % 4
    let fld := blk / 2 ^ (16 + (1 + p) * i) % 2 ^ (1 + p)
    let m := fld % 2 ^ p
    let r := decodeElem x ct bs j
    (e = 255 → r = (0x7FC00000, 1)) ∧
    (e ≠ 255 → r.2 = 0 ∧ (m = 0 → r.1 = 0) ∧
      rat (fdec fF32 r.1) = (if fld / 2 ^ p = 1 then -1 else 1) * (m : ℚ) * (2 : ℚ) ^ ((e : ℤ) - 127 - ((p : ℤ) - 1) - shift))) ∧
  (∀ (ct : W64 × W64) (bs : List Byte) (j : Nat),
    let c := field bs (8 * (j / 16)) 8 / 2 ^ (4 * (j % 16)) % 16
    let r := decodeElem .c4 ct bs j
    rat (fdec fF32 r.1) = ctEntry ct.1 ct.2 c ∧ r.2 = 0) ∧
  -- the bytes of an element; what fToF and ctEnc give is stated with the conversions and the code table
  (∀ (x : VTy) (f : FFmt) (k : Nat) (ct : W64 × W64) (rm : Rm) (sat ns : Bool) (v : VWord) (act : List Nat) (lo hi : Nat),
    (x, f, k) ∈ [(VTy.f16, fF16, 2), (.bf16, fBf16, 2), (.e4m3, fE4m3, 1), (.e5m2, fE5m2, 1)] → hi ≤ 32 →
    let r := encodeElems x ct rm sat ns v act lo hi
    let one := fun j => fToF fF32 f rm sat ns (lane v j).toNat
    r.1.length = k * (hi - lo) ∧ (∀ j, lo ≤ j → j < hi → j ∈ act → field r.1 (k * (j - lo)) k = (one j).1) ∧
    (∀ b, r.2.testBit b = true ↔ ∃ j, lo ≤ j ∧ j < hi ∧ j ∈ act ∧ (one j).2.testBit b = true)) ∧
  (∀ (x : VTy) (ct : W64 × W64) (rm : Rm) (sat ns : Bool) (v : VWord) (act : List Nat) (lo hi : Nat), x ∈ [VTy.n32, .i32, .f32] → hi ≤ 32 →
    let r := encodeElems x ct rm sat ns v act lo hi
    r.2 = 0 ∧ ∀ j, lo ≤ j → j < hi → field r.1 (4 * (j - lo)) 4 = (lane v j).toNat) ∧
  (∀ (x : VTy) (p : Nat) (ct : W64 × W64) (rm : Rm) (sat ns : Bool) (v : VWord) (act : List Nat) (lo hi : Nat), (x, p) ∈ [(VTy.sx3, 2), (.sx5, 4), (.sx8, 7)] →
    let r := encodeElems x ct rm sat ns v act lo hi
    let blk := fun b => sxEnc rm p ((List.range 16).map fun i => fdec fF32 (lane v (16 * b + i)).toNat)
    let n := 2 + 2 * (1 + p)
    field r.1 0 n = (blk 0).1 ∧ field r.1 n n = (blk 1).1 ∧ r.2 = (blk 0).2 ||| (blk 1).2) ∧
  (∀ (ct : W64 × W64) (rm : Rm) (sat ns : Bool) (v : VWord) (act : List Nat) (lo hi j : Nat), j < 32 →
    let r := encodeElems .c4 ct rm sat ns v act lo hi
    field r.1 (8 * (j / 16)) 8 / 2 ^ (4 * (j % 16)) % 16 = (ctEnc ct.1 ct.2 (fdec fF32 (lane v j).toNat)).1) ∧
  -- a block of sixteen values
  (∀ (rm : Rm) (p : Nat) (xs : List FVal), p ∈ [2, 4, 7] → xs.length = 16 →
    let r := sxEnc rm p xs
    let x := fun j => xs.getD j (.fin false 0 0)
    let e := r.1 % 256
    let sg := fun g => r.1 / 2 ^ (8 + 2 * g) % 4
    let fld := fun j => r.1 / 2 ^ (16 + (1 + p) * j) % 2 ^ (1 + p)
    let at' := fun (j e t : Nat) => rat (x j) / (2 : ℚ) ^ ((e : ℤ) - 127 - ((p : ℤ) - 1) - t)
    ((∃ v ∈ xs, v.isNan = true) → r = (0xFF, 1)) ∧
    ((∀ v ∈ xs, v.isNan = false) → ∀ j n, j < 16 → x j = .inf n →
      e = 0xFE ∧ sg (j / 4) = 0 ∧ fld j = (if n then 2 ^ p else 0) + (2 ^ p - 1) ∧ r.2.testBit 1 = true) ∧
    (∀ z : Nat → Nat → Nat → Int, (∀ v ∈ xs, finite v) → (∀ j e t, RoundsInt rm (at' j e t) (z j e t)) →
      let mag := fun j e t => (z j e t).natAbs
      let quad := fun (g t : Nat) => ∀ j, 4 * g ≤ j → j < 4 * g + 4 → mag j e t ≤ 2 ^ p - 1
      ((∀ j, j < 16 → rat (x j) = 0) → e = 0) ∧
      (∀ l : ℤ, (∃ j, j < 16 ∧ (2 : ℚ) ^ l ≤ |rat (x j)|) → (∀ j, j < 16 → |rat (x j)| < (2 : ℚ) ^ (l + 1)) →
        let e0 := if l + 127 < 0 then 0 else if 254 < l + 127 then 254 else (l + 127).toNat
        ((e0 < 254 ∧ ∃ j, j < 16 ∧ 2 ^ p ≤ mag j e0 0) → e = e0 + 1) ∧ (¬ (e0 < 254 ∧ ∃ j, j < 16 ∧ 2 ^ p ≤ mag j e0 0) → e = e0)) ∧
      (∀ g, g < 4 → (∀ t, t ≤ 3 → quad g t → t ≤ sg g) ∧ (sg g = 0 ∨ quad g (sg g))) ∧
      (∀ j, j < 16 →
        let m := min (mag j e (sg (j / 4))) (2 ^ p - 1)
        fld j = if m = 0 then 0 else (if rat (x j) < 0 then 2 ^ p else 0) + m) ∧
      r.2.testBit 0 = false ∧ (r.2.testBit 1 = true ↔ ∃ j, j < 16 ∧ 2 ^ p - 1 < mag j e (sg (j / 4))) ∧
      (r.2.testBit 2 = true ↔ ∃ j, j < 16 ∧ (2 ^ p - 1 < mag j e (sg (j / 4)) ∨ (z j e (sg (j / 4)) : ℚ) ≠ at' j e (sg (j / 4))))))

/-- 10 R192 to R195: a versioned load or store waits at its point of coherence, a `stcv` that releases behind its release entry; `valchk` reports which lines of the validation set have moved, with bit
16 for a set that overflowed, once the thread's writes have been performed; `valclr` empties the set. -/
def Obligations.ValidatedAccesses : Prop :=
  (∀ (x : LdvA) (s s' : State) (p : Place), s.guardOn x.h = true →
    let a := s.addr x.m
    let n := width x.ty / 8
    s.accessAligned s.agent a n n .load true = .ok p s' → s'.phaseGate true = .ok () s' →
    exec (.ldv x) s = .next (s'.settleTh.wait (.coh ⟨.ldv x.track x.c, x.ty, a, p.at a.toNat a.toNat, p.mside, x.d,
      if x.acq then some x.scope else none, x.h.hint.val == 1⟩ none))) ∧
  (∀ (x : StcvA) (s : State), s.guardOn x.h = true →
    HandsOver (.stcv x) s (s.addr x.m) (width x.ty / 8) .both x.rel x.scope fun s' p =>
      let a := s.addr x.m
      ⟨.stcv ((s'.rs x.d).setWidth 32) (s'.rs x.c), x.ty, a, p.at a.toNat a.toNat, p.mside, x.d, none, x.h.hint.val == 1⟩) ∧
  (∀ (x : DOnly) (s : State), s.guardOn x.h = true →
    (s.openWrites s.me = false → s.opTh.valset.entries.length ≤ 16 →
      ∃ v : W64, exec (.valchk x) s = .next ((s.versionReads (s.opTh.valset.entries.map Prod.fst)).ws x.d v) ∧ v.getLsbD 16 = s.opTh.valset.ovf ∧
        (∀ i, i < s.opTh.valset.entries.length →
          let e := s.opTh.valset.entries.getD i (0, 0)
          (v.getLsbD i = true ↔ s.version (e.1 / 2) (decide (e.1 % 2 = 1)) ≠ e.2)) ∧
        (∀ i, s.opTh.valset.entries.length ≤ i → i ≠ 16 → v.getLsbD i = false)) ∧
    (s.openWrites s.me = true → exec (.valchk x) s = .next { s with cur := { s.cur with fate := .passed } })) ∧
  (∀ (x : HOnly) (s : State), s.guardOn x.h = true →
    exec (.valclr x) s = .next (s.updTh fun t => { t with valset := ⟨[], false⟩ }))

/-- 10 R197, R198, R210, 07 R143, 08 R159 to R161: tile instructions. A fill or a release waits for its state, seen at the start of the cycle; a tile
of size 0 fails position 0 and a byte count outside 1 to the tile's bytes position 1; `tdef` takes a preset word or 0; `tstat` reads the entry; `frarm` adds a tile to the arm list of a landing slot, of at most 16. That the state now must
allow the use too, and that value checks come before waits, are the model's reading (log 16, 17). -/
def Obligations.TileInstructions : Prop :=
  (∀ (x : TSI) (s : State),
    let c := s.cur.core
    let t := s.tile x.d.val
    let e := (s.siZ x.a).toNat
    (t.size ≠ 0 → 1 ≤ e → e ≤ 256 * t.size →
      (s.tileStart c x.d.val = .empty → t.st = .empty →
        exec (.tfill x) s = .next (s.setTile c x.d.val ⟨t.base, t.size, .filling, e, 0⟩)) ∧
      (¬ (s.tileStart c x.d.val = .empty ∧ t.st = .empty) →
        exec (.tfill x) s = .next { s with cur := { s.cur with fate := .passed } })) ∧
    (t.size = 0 → exec (.tfill x) s = .next (s.takeTrap 0x02 0 0)) ∧
    (t.size ≠ 0 → (e = 0 ∨ 256 * t.size < e) → exec (.tfill x) s = .next (s.takeTrap 0x02 0 1))) ∧
  (∀ (x : TOnly) (s : State),
    let c := s.cur.core
    let t := s.tile x.d.val
    (t.size ≠ 0 → s.tileStart c x.d.val = .ready → t.st = .ready →
      exec (.trel x) s = .next (s.setTile c x.d.val { t with st := .empty })) ∧
    (t.size ≠ 0 → ¬ (s.tileStart c x.d.val = .ready ∧ t.st = .ready) →
      exec (.trel x) s = .next { s with cur := { s.cur with fate := .passed } }) ∧
    (t.size = 0 → exec (.trel x) s = .next (s.takeTrap 0x02 0 0))) ∧
  (∀ (x : TdefA) (s : State),
    let c := s.cur.core
    let t := s.tile x.d.val
    let n := (s.rs x.a).toNat
    let base := n % 2 ^ 11
    let size := n / 2 ^ 16 % 2 ^ 11
    -- the entry, and a note of its definition for the claims of this cycle
    let put := fun e : Tile => (s.setTile c x.d.val e).updMyCore fun k => { k with tdefs := addNew k.tdefs x.d.val }
    ((t.size = 0 ∨ (s.tileStart c x.d.val = .empty ∧ t.st = .empty)) →
      (n = 0 → exec (.tdef x) s = .next (put ⟨0, 0, .empty, 0, 0⟩)) ∧
      (n = base + size * 2 ^ 16 → size ≠ 0 → base + size ≤ 256 * (s.core c).sp →
        exec (.tdef x) s = .next (put ⟨base, size, .empty, 0, 0⟩)) ∧
      (n = base + size * 2 ^ 16 + 2 * 2 ^ 32 → size ≠ 0 → base + size ≤ 256 * (s.core c).sp →
        exec (.tdef x) s = .next (put ⟨base, size, .ready, 256 * size, 256 * size⟩)) ∧
      (n ≠ 0 → (size = 0 ∨ 256 * (s.core c).sp < base + size ∨
          (n ≠ base + size * 2 ^ 16 ∧ n ≠ base + size * 2 ^ 16 + 2 * 2 ^ 32)) → exec (.tdef x) s = .next (s.takeTrap 0x02 0 1))) ∧
    (t.size ≠ 0 → ¬ (s.tileStart c x.d.val = .empty ∧ t.st = .empty) → exec (.tdef x) s = .next (s.takeTrap 0x02 0 0))) ∧
  (∀ (x : TstatA) (s : State),
    let t := s.tile x.a.val
    (t.size = 0 → exec (.tstat x) s = .next (s.ws x.d 0)) ∧
    (t.size ≠ 0 → exec (.tstat x) s = .next (s.ws x.d (BitVec.ofNat 64
      (t.base + t.size * 2 ^ 11 + (match t.st with | .empty => 0 | .filling => 1 | .ready => 2 | .draining => 3) * 2 ^ 22
        + t.expect * 2 ^ 24 + t.arrived * 2 ^ 44))))) ∧
  (∀ (x : TSI) (s : State),
    let l := (s.siZ x.a).toNat
    let k := (s.core s.cur.core).land.getD l ⟨[], 0⟩
    (l ≤ 3 → (s.tile x.d.val).size ≠ 0 → k.arms.length < 16 →
      exec (.frarm x) s = .next (s.updMyCore fun c => { c with land := c.land.put l { k with arms := k.arms ++ [x.d.val] } })) ∧
    (3 < l → exec (.frarm x) s = .next (s.takeTrap 0x02 0 1)) ∧
    (l ≤ 3 → ((s.tile x.d.val).size = 0 ∨ 16 ≤ k.arms.length) → exec (.frarm x) s = .next (s.takeTrap 0x02 0 0)))

/-- 10 R199 to R203, R205, 01 R24: submission of copy jobs and their status. `cpy` queues a linear job of LEN bytes and writes its identifier; `cjob` fetches
its descriptor and checks it: a failing field traps with the index of its word, an invalid tensor or record with cause 0x31, rows of two segments with cause 0x30. That a product of ROWS and row bytes that is
too large names word 4 is the model's reading (log 54), that
operand checks come before the wait for a tile is the model's reading (log 16), and that ELEM 15 and an NDIM outside 1 to 4 name no tensor (log 63) are too; a status query of an unknown identifier gives 5; a report of a stopped job ends its life and acquires at BLOCK; `cwait`
passes while the job is pending, and in the cycle in which it stops (06 R108). -/
def Obligations.CopySubmission : Prop :=
  (∀ (x : CpyA) (s : State),
    let n := (s.siZ x.c).toNat
    let c := s.cur.core
    let j := { CopyJob.blank s x.scope x.acq x.rel x.h.hint.val with fill := x.fill, src := s.side x.b, dst := s.side x.a, len := n }
    (1 ≤ n → n ≤ 2 ^ 24 → (∀ r, x.a = .t r → (s.tile r.val).size ≠ 0 ∧ n ≤ 256 * (s.tile r.val).size) →
      (∀ r, x.b = .t r → (s.tile r.val).size ≠ 0 ∧ n ≤ 256 * (s.tile r.val).size) → (x.fill = true → ∃ r, x.a = .t r) →
      (s.submitReady j = true → s.th.jobs.length < 16 →
        ∃ (t : State) (k : CopyJob), exec (.cpy x) s = .next t ∧ KeepsMem s t ∧ KeepsFlags s t ∧
          (x.d ≠ 0 → rdS t.th.regs x.d = BitVec.ofNat 64 (c % 8 * 2 ^ 35 + s.cur.slot * 2 ^ 32 + (s.th.copySeq + 1).toNat)) ∧
          t.th.copySeq = s.th.copySeq + 1 ∧ (t.cluster (c / 8)).copyq = (s.cluster (c / 8)).copyq ++ [k] ∧
          k.kind = 1 ∧ k.rows = 1 ∧ k.len = n ∧ k.src = j.src ∧ k.dst = j.dst ∧ k.st = .queued ∧ k.fill = x.fill ∧ k.acq = x.acq ∧
          k.rel = x.rel ∧ k.scope = x.scope ∧
          (∀ r, x.b = .t r → x.a ≠ .t r → (t.tile r.val).st = .draining) ∧
          (∀ r, x.a = .t r → x.fill = true → (t.tile r.val).st = .filling ∧ (t.tile r.val).expect = n ∧ (t.tile r.val).arrived = 0)) ∧
      (s.submitReady j = false → exec (.cpy x) s = .next { s with cur := { s.cur with fate := .passed } })) ∧
    (n = 0 ∨ 2 ^ 24 < n → exec (.cpy x) s = .next (s.takeTrap 0x02 0 3)) ∧
    (1 ≤ n → n ≤ 2 ^ 24 →
      let fits := fun y : TS => ∀ r, y = .t r → (s.tile r.val).size ≠ 0 ∧ n ≤ 256 * (s.tile r.val).size
      (∀ r, x.a = .t r → (s.tile r.val).size = 0 → exec (.cpy x) s = .next (s.takeTrap 0x02 0 1)) ∧
      (∀ r, fits x.a → x.b = .t r → (s.tile r.val).size = 0 → exec (.cpy x) s = .next (s.takeTrap 0x02 0 2)) ∧
      (∀ r y, (y = x.a ∨ (y = x.b ∧ fits x.a)) → y = .t r → (s.tile r.val).size ≠ 0 → 256 * (s.tile r.val).size < n →
        exec (.cpy x) s = .next (s.takeTrap 0x02 0 3)) ∧
      (fits x.a → fits x.b → x.fill = true → (∀ r, x.a ≠ .t r) → exec (.cpy x) s = .next (s.takeTrap 0x02 0 4)))) ∧
  (∀ (x : CjobA) (s s1 s2 : State) (p : Place) (d : List Byte) (far : Bool),
    s.accessAligned s.agent (s.rs x.a) 64 64 .load false = .ok p s1 → s1.load p (s.rs x.a) 64 true 0 = .ok (d, far) s2 →
    exec (.cjob x) s = .next (s2.wait (.cjob d (if far then 0 else 1) x none))) ∧
  -- the checks of the descriptor that arrived
  (∀ (x : CjobA) (s : State) (d : List Byte) (row : Option Snap),
    let f := fun lo n : Nat => ofBytes d / 2 ^ lo % 2 ^ n
    let stops := fun (u : State) (rb : Nat) => ∃ w, DescFails u d rb w ∧ s.checkedJob x d row = .trap u 0x02 0 (BitVec.ofNat 64 (1 + 256 * w))
    let job := fun k : CopyJob => k.kind = f 0 8 ∧ k.rows = f 256 32 ∧ k.dstride.toNat = f 384 64 ∧ k.fill = decide (f 21 1 = 1) ∧ k.rxmask = f 32 8 ∧
      k.scope = x.scope ∧ k.acq = x.acq ∧ k.rel = x.rel ∧
      k.dst = (if f 20 1 = 1 then .tile (f 16 4) else .addr (BitVec.ofNat 64 (f 64 64))) ∧ k.dstOff = f 64 64
    (f 0 8 ≠ 5 → (∃ w, DescFails s d (f 192 32) w) → stops s (f 192 32)) ∧
    (f 0 8 ≠ 5 → (∀ w, ¬ DescFails s d (f 192 32) w) → ∃ k, s.checkedJob x d row = .ok (.job k) s ∧ job k ∧ k.len = f 192 32 ∧
      k.sstride.toNat = f 320 64 ∧ k.idx.toNat = f 448 64 ∧ k.srcOff = f 128 64 ∧
      k.src = (if f 26 1 = 1 then .tile (f 22 4) else .addr (BitVec.ofNat 64 (f 128 64)))) ∧
    (f 0 8 = 5 → (∃ w, DescFails s d 0 w) → stops s 0) ∧
    (f 0 8 = 5 → (∀ w, ¬ DescFails s d 0 w) →
      let ta := BitVec.ofNat 64 (f 128 64)
      (∀ (t : State) (e : Byte) (a i : W64), s.accessAligned s.agent ta 64 64 .load false = .trap t e a i → s.checkedJob x d row = .trap t e a i) ∧
      ∀ (p : Place) (t u : State) (td : List Byte) (far : Bool), s.accessAligned s.agent ta 64 64 .load false = .ok p t →
        t.load p ta 64 true 0 = .ok (td, far) u →
        let rb := if f 27 1 = 1 then 4 * field td 8 4 else elemBytes (field td 6 1 / 16) (field td 8 4)
        let ragged := field td 7 1 / 8 % 2 = 1
        let va := BitVec.ofNat 64 (field td 48 8 % 2 ^ 52)
        let first := f 448 32
        let fin := first + f 256 32
        let gives := ∃ k, s.checkedJob x d row = .ok (.job k) u ∧ job k ∧ k.elem = field td 6 1 / 16 ∧ k.dim0 = field td 8 4 ∧ k.dec = decide (f 27 1 = 1) ∧
          k.row0 = first ∧ k.base = BitVec.ofNat 64 (field td 0 8 % 2 ^ 52) ∧ k.sstride = BitVec.ofNat 64 (field td 24 8)
        (tensorOk td = false → s.checkedJob x d row = .trap u 0x31 ta 0) ∧
        (tensorOk td = true → (∃ w, DescFails u d rb w) → stops u rb) ∧
        (tensorOk td = true → (∀ w, ¬ DescFails u d rb w) →
          (field td 12 4 < fin → s.checkedJob x d row = .trap u 0x02 0 (BitVec.ofNat 64 (1 + 256 * 7))) ∧
          (fin ≤ field td 12 4 → ¬ ragged → gives) ∧
          (fin ≤ field td 12 4 → ragged → row = none → s.checkedJob x d row = .ok (.record va) u) ∧
          (∀ r, fin ≤ field td 12 4 → ragged → row = some r →
            let good := recordOk r.header r.bounds = true ∧ field r.header 4 4 = field td 12 4
            let one := ∃ g, r.bounds.getD g 0 ≤ first ∧ fin ≤ r.bounds.getD (g + 1) 0
            (¬ good → s.checkedJob x d row = .trap u 0x31 va 0) ∧ (good → ¬ one → s.checkedJob x d row = .trap u 0x30 0 0) ∧ (good → one → gives))))) ∧
  (∀ (x : CjobA) (s : State) (d : List Byte), s.stageOf s.me = some (.cjob d 1 x none) →
    (∀ (t : State) (e : Byte) (a i : W64), s.checkedJob x d none = .trap t e a i → s.pollThread = .used (t.trapPend t.me e a i)) ∧
    ∀ (t : State) (j : CopyJob), s.checkedJob x d none = .ok (.job j) t →
      let c := t.cur.core
      (t.submitReady j = true → t.th.jobs.length < 16 →
        ∃ (u : State) (k : CopyJob), s.pollThread = .used u ∧ u.stageOf t.me = none ∧ u.th.copySeq = t.th.copySeq + 1 ∧
          (x.d ≠ 0 → rdS u.th.regs x.d = BitVec.ofNat 64 (c % 8 * 2 ^ 35 + t.cur.slot * 2 ^ 32 + (t.th.copySeq + 1).toNat)) ∧
          (u.cluster (c / 8)).copyq = (t.cluster (c / 8)).copyq ++ [k] ∧ k.st = .queued ∧ k.kind = j.kind ∧ k.rows = j.rows ∧ k.len = j.len ∧
          k.src = j.src ∧ k.dst = j.dst ∧ k.fill = j.fill ∧ k.sstride = j.sstride ∧ k.dstride = j.dstride) ∧
      (t.submitReady j = false → s.pollThread = .wait (t.setStage t.me (.cjob d 2 x none)))) ∧
  (∀ td : List Byte,
    let n := field td 7 1 % 8
    let ragged := field td 7 1 / 8 % 2 = 1
    let elem := field td 6 1 / 16
    let blk := if elem = 12 then 12 else if elem = 13 then 18 else 8
    tensorOk td = true ↔ (1 ≤ n ∧ n ≤ 4 ∧ elem ≠ 15 ∧
      (∀ k, k < 4 → (k < n → 1 ≤ field td (8 + 4 * k) 4) ∧ (n ≤ k → field td (8 + 4 * k) 4 = 0)) ∧
      (∀ k, 1 ≤ k → k < 4 → (n ≤ k → field td (16 + 8 * k) 8 = 0) ∧ (k < n → 11 ≤ elem → field td (16 + 8 * k) 8 % blk = 0)) ∧
      (11 ≤ elem → field td 8 4 % 16 = 0) ∧ (ragged → 2 ≤ n) ∧
      field td 7 1 / 16 = 0 ∧ field td 54 2 / 16 = 0 ∧ field td 56 8 = 0 ∧ (¬ ragged → field td 48 8 % 2 ^ 52 = 0))) ∧
  (∀ (x : DA) (s : State),
    ((∀ j ∈ s.opTh.jobs, j.ident ≠ s.rs x.a) →
      exec (.cpoll x) s = .next (s.ws x.d 5) ∧ exec (.cwait x) s = .next (s.ws x.d 5)) ∧
    (∀ l st, s.copyLook (s.rs x.a) = some l → l.done = some st →
      ∃ t : State, exec (.cpoll x) s = .next t ∧
        exec (.cwait x) s = .next (if l.doneAt < s.cycle then t else { s with cur := { s.cur with fate := .passed } }) ∧ (x.d ≠ 0 → rdS t.th.regs x.d = st) ∧
        (∀ j ∈ t.th.jobs, j.id ≠ l.id) ∧ (t.core s.cur.core).l1 = [] ∧ l.id ∈ (t.core s.cur.core).observed ∧ KeepsMem s t) ∧
    (∀ l, s.copyLook (s.rs x.a) = some l → l.done = none →
      exec (.cpoll x) s = .next (s.ws x.d (s.copyPending l)) ∧
      exec (.cwait x) s = .next { s with cur := { s.cur with fate := .passed } }))

/-- 10 R202, R204, R205, R206, 08 R160, R161, 15 R277, R282, R286: the copy unit. A start takes the oldest queued job, and an acquiring one at SYSTEM first performs the posted writes; a row
from tile to tile moves LEN bytes, counts them and makes the tile READY when its count is reached; with the last row a DRAINING source has been read and is EMPTY. A row
of KIND 3 or 4 takes its source or destination row from the index list, one of KIND 5 reads a row of the tensor and gives the f32 value of each element where it decodes; a row for memory becomes one
entry of the job in the block buffer, one for a window stands in the scratchpad for the loads of later cycles. A row that fails a check stops the job with CODE 2. A multicast claims all its receivers in one cycle, as the
cycle ends, and a `tdef` of that cycle comes after the claim (log 17); a receiver that was not FILLING as the cycle of the first byte began, or that a row does not fit, fails it with CODE 3, and then each
receiver that its own slot has not changed in the cycle (log 17) is EMPTY; a job whose rows are done completes with CODE 1. DONE counts a row with excess (log 82). -/
def Obligations.CopyUnitMoves : Prop :=
  (∀ (c : ClusterN) (s : State) (j : CopyJob), (s.cluster c.val).copyq.find? (fun j => j.st == .queued) = some j → j.acq = true →
    let started := fun u : State => (u.updCopy c.val j.id fun j => { j with st := .running 0 }).updCluster c.val fun k =>
      { k with vacated := (k.vacated.1 + 1, k.vacated.2) }
    (j.scope ≠ .system → exec (.copyJobStart c) s = .next (started s)) ∧
    (j.scope = .system → exec (.copyJobStart c) s =
      .next (started { s.posted.foldl (fun (s : State) w => s.postedWrite w) s with posted := [] }))) ∧
  -- the index of a row
  (∀ (c i : Nat) (s : State) (j : CopyJob),
    let a := j.idx + BitVec.ofNat 64 (4 * i)
    (j.kind ≠ 3 → j.kind ≠ 4 → s.rowIndex c j i = .ok i s) ∧
    (j.kind = 3 ∨ j.kind = 4 →
      (∀ (t : State) (e : Byte) (b k : W64), s.accessAligned j.agent a 4 4 .load false = .trap t e b k → s.rowIndex c j i = .trap t e b k) ∧
      (∀ (t u : State) (p : Place) (bs : List (Byte × Bool)), s.accessAligned j.agent a 4 4 .load false = .ok p t →
        t.jobRead c j.id (t.jobShingle j.owner) p a.toNat 4 j.evictFirst = .ok bs u → s.rowIndex c j i = .ok (ofBytes (bs.map (·.1))) u))) ∧
  -- the bytes of a row
  (∀ (c k i : Nat) (s : State) (j : CopyJob),
    let core := j.owner.thread.core
    let sh := s.jobShingle j.owner
    (∀ n, j.src = .tile n →
      let off := 256 * ((s.core core).tiles.getD n .reset).base + j.srcOff + k * j.sstride.toNat
      ∃ bs : List (Byte × Bool), s.rowSource c j k i = .ok bs s ∧ bs.map (·.1) = s.spBytes core off j.len) ∧
    (∀ a0, j.src = .addr a0 →
      let a := if j.kind = 5 then j.base + BitVec.ofNat 64 (j.row0 + i) * j.sstride else a0 + BitVec.ofNat 64 k * j.sstride
      let n := if j.kind = 5 then elemBytes j.elem j.dim0 else j.len
      (∀ (t : State) (e : Byte) (b m : W64), s.access j.agent a n .load false = .trap t e b m → s.rowSource c j k i = .trap t e b m) ∧
      (∀ (t : State) (p : Place), s.access j.agent a n .load false = .ok p t →
        (j.kind ≠ 5 → s.rowSource c j k i = t.jobRead c j.id sh p a.toNat n j.evictFirst) ∧
        (j.kind = 5 →
          (∀ (u : State) (e : Byte) (b m : W64), t.tensorTyped j p a = .trap u e b m → s.rowSource c j k i = .trap u e b m) ∧
          ∀ (u v : State) (dec : Bool) (bs : List (Byte × Bool)), t.tensorTyped j p a = .ok dec u → u.jobRead c j.id sh p a.toNat n j.evictFirst = .ok bs v →
            (dec = false → s.rowSource c j k i = .ok bs v) ∧
            (dec = true → ∃ out : List (Byte × Bool), s.rowSource c j k i = .ok out v ∧ out.length = 4 * j.dim0 ∧
              ∀ e, e < j.dim0 → field (out.map (·.1)) (4 * e) 4 = (decodeElem (elemVTy j.elem) j.ct (bs.map (·.1)) e).1 % 2 ^ 32))))) ∧
  (∀ (s : State) (j : CopyJob) (p : Place) (a : W64),
    (j.elem < 7 → s.tensorTyped j p a = .ok false s) ∧
    (j.elem = 7 ∨ j.elem = 8 → a.toNat % 2 = 1 → s.tensorTyped j p a = .trap s 0x13 a 0) ∧
    (7 ≤ j.elem → j.elem ≤ 14 → (j.elem ≤ 8 → a.toNat % 2 = 0) →
      (j.elem ≤ 10 → p.fmt = j.elem - 6 → s.tensorTyped j p a = .ok j.dec s) ∧
      (11 ≤ j.elem → p.fmt = j.elem - 6 → s.tensorTyped j p a =
        if blocksOk p a.toNat (vtyBlock (elemVTy j.elem)) (j.dim0 / 16) = true then .ok j.dec s else .trap s 0x13 a 0) ∧
      (p.fmt ≠ j.elem - 6 → s.tensorTyped j p a = if p.fmt = 0 ∨ j.owner.mode.fmtovr = true then .ok false s else .trap s 0x14 a 0))) ∧
  (∀ (c id va n : Nat) (s : State) (pgs : List Pg) (ev : Bool), (s.cluster c).bb = [] → (∀ i, i < n → paOf pgs (va + i) / 8 ∉ s.poison) →
    ∃ u : State, s.jobRead c id none (.mem pgs) va n ev = .ok ((List.range n).map fun i => (memByte s.mem (paOf pgs (va + i)), false)) u ∧
      u.mem = s.mem ∧ u.cores = s.cores ∧ u.clusters = s.clusters) ∧
  -- where they go
  (∀ (c k : Nat) (s : State) (j : CopyJob) (bs : List (Byte × Bool)) (a0 : W64), j.dst = .addr a0 →
    let a := a0 + BitVec.ofNat 64 k * j.dstride
    (∀ (t : State) (e : Byte) (b m : W64), s.access j.agent a bs.length .store false = .trap t e b m → s.rowDest c j k bs = .trap t e b m) ∧
    (∀ (t : State) (pgs : List Pg), s.access j.agent a bs.length .store false = .ok (.mem pgs) t → t.jobShingle j.owner = none →
      (256 ≤ (t.cluster c).bb.length → s.rowDest c j k bs = .pass t) ∧
      ((t.cluster c).bb.length < 256 → ∃ (u : State) (e : Entry), s.rowDest c j k bs = .ok false u ∧ u.mem = t.mem ∧ u.cores = t.cores ∧
        (u.cluster c).bb = (t.cluster c).bb ++ [e] ∧ e.job = some j.id ∧ e.thread = none ∧ e.scope = j.scope ∧
        e.cells = (List.range bs.length).map fun i =>
          ⟨paOf pgs (a.toNat + i), a.toNat + i, (bs.getD i (0, false)).1, (bs.getD i (0, false)).2⟩)) ∧
    (∀ (t : State) (m off : Nat), s.access j.agent a bs.length .store false = .ok (.sp m off) t →
      ∃ u : State, s.rowDest c j k bs = .ok false u ∧ u.mem = t.mem ∧ (u.core m).sram = (t.core m).sram ∧
        u.spBytes m off bs.length = bs.map (·.1) ∧ ∀ y, y < off ∨ off + bs.length ≤ y → (u.core m).spByte y = (t.core m).spByte y)) ∧
  (∀ (c k n : Nat) (s : State) (j : CopyJob) (bs : List (Byte × Bool)), j.dst = .tile n →
    let off := j.dstOff + k * j.dstride.toNat
    let rx := if j.kind = 2 then s.receivers j else [(j.owner.thread.core, n)]
    let all := rx.foldl (fun (x : State × Bool) r => ((State.tileArrive x.1 r.1 r.2 off bs).1, x.2 || (State.tileArrive x.1 r.1 r.2 off bs).2)) (s, false)
    s.rowDest c j k bs = .ok all.2 all.1) ∧
  (∀ (c n off : Nat) (s : State) (bs : List (Byte × Bool)),
    let x := (s.core c).tiles.getD n .reset
    let m := min bs.length (x.expect - x.arrived)
    let t := (State.tileArrive s c n off bs).1
    (x.st ≠ .filling ∨ s.tileStart c n ≠ .filling → State.tileArrive s c n off bs = (s, !bs.isEmpty)) ∧
    (x.st = .filling → s.tileStart c n = .filling → (State.tileArrive s c n off bs).2 = decide (m < bs.length) ∧ t.mem = s.mem ∧
      (t.core c).tiles.getD n .reset = { x with arrived := x.arrived + m, st := if x.expect ≤ x.arrived + m then .ready else .filling } ∧
      memBytes (t.core c).sram (256 * x.base + off) m = (bs.take m).map (·.1) ∧
      ∀ y, y < 256 * x.base + off ∨ 256 * x.base + off + m ≤ y → memByte (t.core c).sram y = memByte (s.core c).sram y)) ∧
  -- a row, or what stops it
  (∀ (c : ClusterN) (id i : Nat) (s : State) (j : CopyJob),
    (s.cluster c.val).copyq.find? (fun j => j.id = id) = some j → j.st = .running i → i < j.rows → j.code = 0 →
    s.beforeDone j.owner.thread.core j.before = true → s.jobGate j.owner = true → (j.kind = 2 → j.fill = true → j.claimed = true) →
    (∀ n, j.fill = true → j.kind ≠ 2 → j.dst = .tile n →
      ((s.core j.owner.thread.core).tiles.getD n .reset).st ≠ .filling ∨ s.tileStart j.owner.thread.core n = .filling) →
    (∀ (t : State) (e : Byte) (a k : W64), s.rowIndex c.val j i = .trap t e a k → exec (.copyJobRow c id) s = .next (t.copyFault c.val j e a)) ∧
    (∀ (ix : Nat) (u : State), s.rowIndex c.val j i = .ok ix u →
      let src := u.rowSource c.val j (if j.kind = 3 then ix else i) i
      (∀ (t : State) (e : Byte) (a k : W64), src = .trap t e a k → exec (.copyJobRow c id) s = .next (t.copyFault c.val j e a)) ∧
      (∀ t, src = .pass t → exec (.copyJobRow c id) s = .next s) ∧
      (∀ (bs : List (Byte × Bool)) (v : State), src = .ok bs v →
        (j.kind = 2 → v.failedRx j i ≠ [] → exec (.copyJobRow c id) s = .next (v.multicastFail c.val j (v.failedRx j i))) ∧
        ((j.kind = 2 → v.failedRx j i = []) →
          let out := v.rowDest c.val j (if j.kind = 4 then ix else i) bs
          (∀ (t : State) (e : Byte) (a k : W64), out = .trap t e a k → exec (.copyJobRow c id) s = .next (t.copyFault c.val j e a)) ∧
          (∀ t, out = .pass t → exec (.copyJobRow c id) s = .next s) ∧
          (∀ (ex : Bool) (w : State), out = .ok ex w →
            let y := match j.src with
              | .tile n => if i + 1 = j.rows then w.drainEnd j.owner.thread.core n else w
              | .addr _ => w
            exec (.copyJobRow c id) s = .next (y.updCopy c.val id fun q =>
              { q with st := .running (i + 1), posted := true, excess := q.excess || ex, doneBytes := q.doneBytes + q.srcBytes })))))) ∧
  (∀ (s : State) (j : CopyJob) (i c : Nat), c ∈ s.failedRx j i ↔ ∃ n, (c, n) ∈ s.receivers j ∧
    let x := (s.core c).tiles0.getD n .reset
    (i = 0 ∧ x.st ≠ .filling) ∨ 256 * x.size < j.dstOff + i * j.dstride.toNat + j.len) ∧
  (∀ (c : Nat) (s : State) (j : CopyJob) (failed : List Nat),
    let core := j.owner.thread.core
    let t := s.multicastFail c j failed
    let own := fun r : Nat × Nat => r.2 ∈ (s.core r.1).tdefs ∨ (((s.core r.1).tiles.getD r.2 .reset).st = .filling ∧ s.tileStart r.1 r.2 ≠ .filling) ∨
      (((s.core r.1).tiles.getD r.2 .reset).st = .draining ∧ s.tileStart r.1 r.2 = .ready)
    (∀ r ∈ s.receivers j, j.src ≠ .tile r.2 →
      (own r → (t.core r.1).tiles.getD r.2 .reset = (s.core r.1).tiles.getD r.2 .reset) ∧
      (¬ own r → (t.core r.1).tiles.getD r.2 .reset = { (s.core r.1).tiles.getD r.2 .reset with st := .empty, arrived := 0 })) ∧
    t.mem = s.mem ∧ (t.cluster c).copyq.map (fun q => q.id) = (s.cluster c).copyq.map (fun q => q.id) ∧
    ∀ q ∈ (t.cluster c).copyq, q.id = j.id → q.code = 3 ∧ q.cause = 0 ∧ q.doneBytes = 0 ∧
      ∀ b, b < 8 → (q.rxfail.testBit b = true ↔ j.rxmask.testBit b = true ∧ ∃ k, (s.blockOf core)[b]? = some k ∧ k ∈ failed)) ∧
  (∀ (c : Nat) (s : State) (j : CopyJob) (e : Byte) (a : W64),
    let core := j.owner.thread.core
    let t := s.copyFault c j e a
    let was := fun n => (s.core core).tiles.getD n .reset
    let now := fun n => (t.core core).tiles.getD n .reset
    t.mem = s.mem ∧
    (∀ q ∈ (t.cluster c).copyq, q.id = j.id → q.code = 2 ∧ q.cause = e.toNat ∧ (j.kind = 2 → q.doneBytes = 0 ∧ q.rxfail = q.rxmask) ∧ (j.kind ≠ 2 → q.rxfail = 0)) ∧
    (j.kind ≠ 2 → ∀ n, j.src = .tile n → j.dst ≠ .tile n → (was n).st = .draining → now n = { was n with st := .ready }) ∧
    (j.kind ≠ 2 → ∀ n, j.dst = .tile n → j.src ≠ .tile n → (was n).st = .filling → s.tileStart core n = .filling → n ∉ (s.core core).tdefs →
      now n = { was n with st := .empty, arrived := 0 })) ∧
  (∀ (c : ClusterN) (s : State) (j : CopyJob), (s.cluster c.val).copyq.find? (fun j => j.st == .queued) = some j → j.acq = false →
    exec (.copyJobStart c) s = .next ((s.updCopy c.val j.id fun j => { j with st := .running 0 }).updCluster c.val fun k =>
      { k with vacated := (k.vacated.1 + 1, k.vacated.2) })) ∧
  (∀ (c : ClusterN) (id : Nat) (s : State) (j : CopyJob) (i a b : Nat),
    let core := j.owner.thread.core
    let ta := (s.core core).tiles.getD a .reset
    let tb := (s.core core).tiles.getD b .reset
    let so := 256 * ta.base + j.srcOff + i * j.sstride.toNat
    let d := 256 * tb.base + j.dstOff + i * j.dstride.toNat
    (s.cluster c.val).copyq.find? (fun j => j.id = id) = some j → j.st = .running i → i < j.rows → j.code = 0 → j.kind = 1 →
    j.src = .tile a → j.dst = .tile b → a ≠ b → s.beforeDone core j.before = true → s.jobGate j.owner = true →
    tb.st = .filling → s.tileStart core b = .filling → tb.arrived + j.len ≤ tb.expect →
    ∃ t : State, exec (.copyJobRow c id) s = .next t ∧ t.mem = s.mem ∧
      memBytes (t.core core).sram d j.len = s.spBytes core so j.len ∧
      (∀ y, y < d ∨ d + j.len ≤ y → memByte (t.core core).sram y = memByte (s.core core).sram y) ∧
      ((t.core core).tiles.getD b .reset).arrived = tb.arrived + j.len ∧
      (((t.core core).tiles.getD a .reset).st = if i + 1 = j.rows ∧ ta.st = .draining then .empty else ta.st) ∧
      (((t.core core).tiles.getD b .reset).st = if tb.expect ≤ tb.arrived + j.len then .ready else .filling) ∧
      (t.cluster c.val).copyq = (s.cluster c.val).copyq.map fun q => if q.id = id then
        { q with st := .running (i + 1), posted := true, excess := q.excess, doneBytes := q.doneBytes + q.srcBytes } else q) ∧
  (∀ (c : ClusterN) (id : Nat) (s : State) (j : CopyJob),
    (s.cluster c.val).copyq.find? (fun j => j.id = id) = some j → j.kind = 2 → j.fill = true → j.claimed = false → j.code = 0 →
    ((∀ r ∈ s.receivers j, s.tileStart r.1 r.2 = .empty) →
      exec (.multicastClaim c id) s = .next (s.updCopy c.val id fun j => { j with claiming := true })) ∧
    ((∃ r ∈ s.receivers j, s.tileStart r.1 r.2 ≠ .empty) → exec (.multicastClaim c id) s = .next s)) ∧
  (∀ (c : Nat) (s : State) (j : CopyJob),
    let was := fun r : Nat × Nat => (s.core r.1).tiles.getD r.2 .reset
    let now := fun r : Nat × Nat => ((s.claimJob c j).core r.1).tiles.getD r.2 .reset
    let defined := fun r : Nat × Nat => r.2 ∈ (s.core r.1).tdefs
    let free := fun r : Nat × Nat => s.tileStart r.1 r.2 = .empty ∧ (defined r ∨ (was r).st = .empty)
    j.kind = 2 → j.fill = true → j.claimed = false → j.code = 0 → j.claiming = true →
    ((∀ r ∈ s.receivers j, free r) →
      (∀ r ∈ s.receivers j, (defined r → now r = was r) ∧
        (¬ defined r → now r = { was r with st := .filling, expect := j.rows * j.len, arrived := 0 })) ∧
      ((s.claimJob c j).cluster c).copyq = (s.cluster c).copyq.map fun q => if q.id = j.id then { q with claimed := true, claiming := false } else q) ∧
    ((∃ r ∈ s.receivers j, ¬ free r) → s.claimJob c j = s.updCopy c j.id fun j => { j with claiming := false })) ∧
  (∀ (c : ClusterN) (id : Nat) (s : State) (j : CopyJob) (i : Nat),
    (s.cluster c.val).copyq.find? (fun j => j.id = id) = some j → j.st = .running i → j.rows ≤ i → j.code = 0 →
    s.jobReleased c.val id j.rel j.scope = true →
    exec (.copyJobComplete c id) s = .next
      ((s.copyDone j (copyStatus 1 j.cause j.rxfail j.doneBytes j.excess)).updCluster c.val fun k =>
        { k with copyq := k.copyq.filter fun x => x.id != id }))

/-- 10 R208, 08 R164, 12 R233, R235: `rset` and `unpin` need the register of the thread's partition (else cause 0x11) and step it as the cycle ends, when
they first make its retained lines ordinary, least recently used; `rrd` reads a word. All three wait for the answer. That a step unpins every retained line, that `rrd` only
reads and that a range with VALID 0 clears FILLS and HITS are the model's reading (log 41). -/
def Obligations.RetentionRegisters : Prop :=
  (∀ (x : ABC) (s : State),
    let a := (s.rs x.a).toNat
    let k := a / 2 ^ 24 % 16
    let ratio := a / 2 ^ 8 % 32
    let ways := a / 2 ^ 4 % 16
    let b := s.rs x.b
    let c := s.rs x.c
    let others := (((List.range 16).filter fun i => i != k && (s.retainSoon i).valid).map fun i => (s.retainSoon i).ways).sum
    let later := fun (t : State) (r : RetainStep) => ({ t with retainSteps := t.retainSteps ++ [r] } : State).wait (.data .none)
    ((s.retainOf k).part ≠ s.myPart → exec (.rset x) s = .next (s.takeTrap 0x11 0 0)) ∧
    ((s.retainOf k).part = s.myPart → ratio ≠ 16 → s.expert = false → exec (.rset x) s = .next (s.takeTrap 0x11 0 0)) ∧
    ((s.retainOf k).part = s.myPart → (ratio = 16 ∨ s.expert = true) → a = k * 2 ^ 24 + ratio * 2 ^ 8 + ways * 2 ^ 4 → ratio ≤ 16 →
      let r := s.retainSoon k
      exec (.rset x) s = .next (later s ⟨k, r.ratio, r.ways, false, r.base, r.limit, true⟩)) ∧
    ((s.retainOf k).part = s.myPart → (ratio = 16 ∨ s.expert = true) → a = k * 2 ^ 24 + ratio * 2 ^ 8 + ways * 2 ^ 4 + 1 → ratio ≤ 16 →
      1 ≤ ways → ways ≤ 8 → b < c → others + ways ≤ 12 → b.toNat % 128 = 0 → c.toNat % 128 = 0 →
      ∀ pv pb qv pc s1 s2, s.onePage b = .ok (pv, pb) s1 → s1.onePage (c - 1) = .ok (qv, pc) s2 →
        (pv ≠ qv → exec (.rset x) s = .next (s2.takeTrap 0x12 b 0)) ∧
        (pv = qv → exec (.rset x) s = .next (later s2 ⟨k, ratio, ways, true, pb / 128, pc / 128 + 1, true⟩)))) ∧
  (∀ (x : SIOnly) (s : State),
    let k := (s.siZ x.a).toNat
    let r := s.retainSoon k
    (15 < k → exec (.unpin x) s = .next (s.takeTrap 0x02 0 1)) ∧
    (k ≤ 15 → (s.retainOf k).part ≠ s.myPart → exec (.unpin x) s = .next (s.takeTrap 0x11 0 0)) ∧
    (k ≤ 15 → (s.retainOf k).part = s.myPart →
      exec (.unpin x) s = .next
        (({ s with retainSteps := s.retainSteps ++ [⟨k, r.ratio, r.ways, false, r.base, r.limit, false⟩] } : State).wait (.data .none)))) ∧
  (∀ (s : State) (k : Nat), (∀ x ∈ s.retainSteps, x.k ≠ k) → s.retainSoon k = s.retainOf k) ∧
  -- the step as the cycle ends
  (∀ (s : State) (x : RetainStep), s.retainSteps = [x] →
    let t := s.landRetain
    let r := s.retainOf x.k
    t.retainSteps = [] ∧
    t.retainOf x.k = { r with ratio := x.ratio, ways := x.ways, valid := x.valid, base := x.base, limit := x.limit,
                              fills := if x.clear then [] else r.fills, hits := if x.clear then [] else r.hits } ∧
    (∀ k, k ≠ x.k → t.retainOf k = s.retainOf k) ∧
    (∀ n, (t.l2.getD n []).map (fun w => w.line) =
      (((s.l2.getD n []).filter fun w => w.cls ≠ some x.k) ++ ((s.l2.getD n []).filter fun w => w.cls = some x.k)).map fun w => w.line) ∧
    (∀ n w, w ∈ t.l2.getD n [] → w.cls ≠ some x.k)) ∧
  (∀ (x : RrdA) (s : State),
    let k := (s.siZ x.a).toNat
    let r := s.retainOf k
    let sum := fun t : Tab W32 => ((t.map fun e => e.2.toNat).sum) % 2 ^ 32
    (k ≤ 15 → r.part = s.myPart →
      (x.word.val = 0 → exec (.rrd x) s = .next (s.wait (.data { Result.none with
        s := [(x.d, BitVec.ofNat 64 (r.part * 2 ^ 20 + r.ratio * 2 ^ 8 + r.ways * 2 ^ 4 + (if r.valid then 1 else 0)))] }))) ∧
      (x.word.val = 1 → exec (.rrd x) s = .next (s.wait (.data { Result.none with s := [(x.d, BitVec.ofNat 64 (r.base * 128))] }))) ∧
      (x.word.val = 2 → exec (.rrd x) s = .next (s.wait (.data { Result.none with s := [(x.d, BitVec.ofNat 64 (r.limit * 128))] }))) ∧
      (3 ≤ x.word.val → exec (.rrd x) s = .next (s.wait (.data { Result.none with
        s := [(x.d, BitVec.ofNat 64 (sum r.fills * 2 ^ 32 + sum r.hits))] })))) ∧
    (15 < k → exec (.rrd x) s = .next (s.takeTrap 0x02 0 1)) ∧
    (k ≤ 15 → r.part ≠ s.myPart → exec (.rrd x) s = .next (s.takeTrap 0x11 0 0)))

/-- 11 R213, R214, R218: integer vector arithmetic, element by element, for every operand form; `ea`, `eb` are the elements read. -/
def Obligations.VectorIntegers : Prop :=
  (∀ (x : VInt) (s s' : State) (b : VB), x.ty.vec = true → s.vsrc x.b = .ok b s' →
    let w := width x.ty
    let ea := fun e => BitVec.ofNat 64 (elem w (s'.rv x.a) e)
    let eb := fun e => BitVec.ofNat 64 (b.at w e)
    let done := fun o f => ElementwiseDone o s' (s'.guard x.h) x.d w f
    done (exec (.vaddInt x) s) (fun e => intElement x.ty x.sat (value x.ty (ea e) + value x.ty (eb e))) ∧
    done (exec (.vsubInt x) s) (fun e => intElement x.ty x.sat (value x.ty (ea e) - value x.ty (eb e))) ∧
    done (exec (.vmulInt x) s) (fun e => intElement x.ty x.sat (value x.ty (ea e) * value x.ty (eb e))) ∧
    (x.sat = false →
      done (exec (.vmulh x) s) (fun e => intElement x.ty false (value x.ty (ea e) * value x.ty (eb e) / 2 ^ w)) ∧
      done (exec (.vand x) s) (fun e => ((ea e &&& eb e).toNat, 0)) ∧
      done (exec (.vor x) s) (fun e => ((ea e ||| eb e).toNat, 0)) ∧
      done (exec (.vxor x) s) (fun e => ((ea e ^^^ eb e).toNat, 0)) ∧
      done (exec (.vandn x) s) (fun e => ((ea e &&& ~~~(eb e)).toNat, 0)) ∧
      done (exec (.vminInt x) s) (fun e => intElement x.ty false (min (value x.ty (ea e)) (value x.ty (eb e)))) ∧
      done (exec (.vmaxInt x) s) (fun e => intElement x.ty false (max (value x.ty (ea e)) (value x.ty (eb e)))))) ∧
  (∀ (x : VIntSh) (s : State), x.ty.vec = true →
    let w := width x.ty
    let ea := fun e => BitVec.ofNat 64 (elem w (s.rv x.a) e)
    let n := fun e => (s.vsi x.b).at w e
    let done := fun o f => ElementwiseDone o s (s.guard x.h) x.d w f
    done (exec (.vshl x) s) (fun e => intElement x.ty x.sat (value x.ty (ea e) * 2 ^ (min (n e) w))) ∧
    (x.sat = false →
      done (exec (.vshr x) s) (fun e => ((shifted x.ty (ea e) (n e)).toNat, 0)) ∧
      done (exec (.vrotl x) s) (fun e => ((rotated x.ty (ea e) (n e)).toNat, 0))))

/-- 11 R216, R217, 09 R168, R170 to R173, R182: floating vector arithmetic in the five element types. An element of finite operands is the exact result rounded once under RM;
one whose rounding passes the largest finite number is what R172 gives, with O and X; X is raised when the result differs from the exact one; a NaN operand gives the canonical
NaN; only e4m3 overflow looks at MODE.FP8NS. -/
def Obligations.VectorFloats : Prop :=
  (∀ (x : VFlt) (s s' : State) (b : VB), s.vsrc x.b = .ok b s' →
    let f := fmtOf x.ft
    let ea := fun e => elem f.width (s'.rv x.a) e
    let eb := fun e => b.at f.width e
    let done := fun o g => ElementwiseDone o s' (s'.guard x.h) x.d f.width g
    done (exec (.vadd x) s) (fun e => felem .add f x.rm x.sat s'.mode.fp8ns (ea e) (eb e) 0) ∧
    done (exec (.vsub x) s) (fun e => felem .sub f x.rm x.sat s'.mode.fp8ns (ea e) (eb e) 0) ∧
    done (exec (.vmul x) s) (fun e => felem .mul f x.rm x.sat s'.mode.fp8ns (ea e) (eb e) 0)) ∧
  (∀ (x : VFma) (s s' : State) (b : VB), s.vsrc x.b = .ok b s' →
    let f := fmtOf x.ft
    let ea := fun e => elem f.width (s'.rv x.a) e
    let eb := fun e => b.at f.width e
    let ec := fun e => elem f.width (s'.rv x.c) e
    let done := fun o g => ElementwiseDone o s' (s'.guard x.h) x.d f.width g
    done (exec (.vfma x) s) (fun e => felem .fma f x.rm x.sat s'.mode.fp8ns (ea e) (eb e) (ec e)) ∧
    done (exec (.vfnma x) s) (fun e => felem .fnma f x.rm x.sat s'.mode.fp8ns (ea e) (eb e) (ec e))) ∧
  (∀ (x : VFMM) (s s' : State) (b : VB), s.vsrc x.b = .ok b s' →
    let f := fmtOf x.ft
    let ea := fun e => elem f.width (s'.rv x.a) e
    let eb := fun e => b.at f.width e
    let done := fun o g => ElementwiseDone o s' (s'.guard x.h) x.d f.width g
    done (exec (.vmin x) s) (fun e => felem .min f .rne false false (ea e) (eb e) 0) ∧
    done (exec (.vmax x) s) (fun e => felem .max f .rne false false (ea e) (eb e) 0)) ∧
  (∀ (x : VFU) (s : State),
    let f := fmtOf x.ft
    let ea := fun e => elem f.width (s.rv x.a) e
    let top := 2 ^ (f.width - 1)
    let done := fun o g => ElementwiseDone o s (s.guard x.h) x.d f.width g
    let nan := fun e => (f.qnan, nanFlags [fdec f (ea e)])
    done (exec (.vabs x) s) (fun e => if (fdec f (ea e)).isNan then nan e else (ea e % top, 0)) ∧
    done (exec (.vneg x) s) (fun e => if (fdec f (ea e)).isNan then nan e else ((ea e + top) % (2 * top), 0))) ∧
  (∀ (f : FFmt) (rm : Rm) (sat ns : Bool) (a b c : Nat), f ∈ [fF32, fF16, fBf16, fE4m3, fE5m2] → finite (fdec f a) → finite (fdec f b) →
    let va := fdec f a
    let vb := fdec f b
    -- a sum that is exactly zero: the sign of two like zeros, else plus, under .rdn minus
    let zero := fun (n x y : Bool) (like : Bool) => n = if like && x == y then x else rm == .rdn
    (∃ n m e, felem .add f rm sat ns a b 0 = fround f rm sat ns (.fin n m e) ∧ rat (.fin n m e) = rat va + rat vb ∧
      (m = 0 → zero n va.sign vb.sign (va.isZero && vb.isZero))) ∧
    (∃ n m e, felem .sub f rm sat ns a b 0 = fround f rm sat ns (.fin n m e) ∧ rat (.fin n m e) = rat va - rat vb ∧
      (m = 0 → zero n va.sign (!vb.sign) (va.isZero && vb.isZero))) ∧
    (∃ n m e, felem .mul f rm sat ns a b 0 = fround f rm sat ns (.fin n m e) ∧ rat (.fin n m e) = rat va * rat vb ∧ n = (va.sign != vb.sign)) ∧
    (finite (fdec f c) →
      let vc := fdec f c
      let pz := va.isZero || vb.isZero
      (∃ n m e, felem .fma f rm sat ns a b c = fround f rm sat ns (.fin n m e) ∧ rat (.fin n m e) = rat va * rat vb + rat vc ∧
        (m = 0 → zero n (va.sign != vb.sign) vc.sign (pz && vc.isZero))) ∧
      (∃ n m e, felem .fnma f rm sat ns a b c = fround f rm sat ns (.fin n m e) ∧ rat (.fin n m e) = rat vc - rat va * rat vb ∧
        (m = 0 → zero n (va.sign == vb.sign) vc.sign (pz && vc.isZero)))) ∧
    (rat va < rat vb → felem .min f .rne false false a b 0 = (a, 0) ∧ felem .max f .rne false false a b 0 = (b, 0))) ∧
  (∀ (f : FFmt) (rm : Rm) (sat ns n : Bool) (m : Nat) (e : Int), f ∈ [fF32, fF16, fBf16, fE4m3, fE5m2] →
    let q := rat (.fin n m e)
    let r := fround f rm sat ns (.fin n m e)
    (|q| ≤ largest f → Rounds f rm q r.1 ∧ (r.2 = if rat (fdec f r.1) = q then 0 else 4) ∧ r.1.testBit (f.width - 1) = n) ∧
    (largest f < |q| → Overflows f rm q → r = (overflowGives f rm sat ns n, 6)) ∧
    (largest f < |q| → ¬ Overflows f rm q → r = ((if n then 2 ^ (f.width - 1) + f.maxBits else f.maxBits), 4))) ∧
  (∀ (o : FOp) (f : FFmt) (rm : Rm) (sat ns : Bool) (a b c : Nat),
    ((fdec f a).isNan = true ∨ (o ≠ .abs ∧ o ≠ .neg ∧ (fdec f b).isNan = true) ∨ ((o = .fma ∨ o = .fnma) ∧ (fdec f c).isNan = true) →
      (felem o f rm sat ns a b c).1 = f.qnan) ∧
    (f.e4 = false → felem o f rm sat true a b c = felem o f rm sat false a b c))

/-- 09 R167 to R173, R181: a value that a format holds is rounded to its own pattern, exactly and without flags, in every rounding mode; a
NaN pattern gives the canonical NaN. -/
def Obligations.RoundingKeepsValues : Prop :=
  ∀ (f : FFmt) (rm : Rm) (sat ns : Bool) (x : Nat), f ∈ [fF32, fF16, fBf16, fE4m3, fE5m2, fA56] → x < 2 ^ f.width →
    ((fdec f x).isNan = false → fround f rm sat ns (fdec f x) = (x, 0)) ∧
    ((fdec f x).isNan = true → fround f rm sat ns (fdec f x) = (f.qnan, 0))

/-- 11 R219: compares write the lanes of a predicate whose guard bit is 1 and keep the others; numbers and infinities compare by their values; with a NaN only `ne`
and `un` hold; zeros of either sign are equal; only a signalling NaN raises I; a write of p0 is discarded. -/
def Obligations.VectorCompares : Prop :=
  (∀ (x : VCmp) (s s' : State) (b : VB) (r : Rel) (i : Instr), s.vsrc x.b = .ok b s' →
    (r, i) ∈ [(Rel.eq, Instr.vcmpeq x), (.ne, .vcmpne x), (.lt, .vcmplt x), (.le, .vcmple x), (.gt, .vcmpgt x), (.ge, .vcmpge x), (.un, .vcmpun x)] →
    let g := s'.guard x.h
    let c := fun j => laneRel r x.ty (lane (s'.rv x.a) j).toNat (b.at 32 j)
    (s'.mode.arith = false ∨ (∀ j, j < 32 → g.getLsbD j = true → (c j).2 = 0) →
      ∃ t : State, exec i s = .next t ∧ OnlyRegs s' t [] [] [x.d] ∧ (g = 0 ∨ x.d = 0 → t.th.regs = s'.th.regs) ∧
        (g ≠ 0 → x.d ≠ 0 → ∀ j, j < 32 → (rdP t.th.regs x.d).getLsbD j = if g.getLsbD j then (c j).1 else (s'.rp x.d).getLsbD j) ∧
        (∀ k, k < 4 → (t.th.sticky.getLsbD k = true ↔ s'.th.sticky.getLsbD k = true ∨ Raises g 32 (fun j => (0, (c j).2)) k))) ∧
    (s'.mode.arith = true → (∃ j, j < 32 ∧ g.getLsbD j = true ∧ (c j).2 ≠ 0) → exec i s = .next (s'.takeTrap 0x40 0 4))) ∧
  (∀ (r : Rel) (a b : Nat), ((fdec fF32 a).isNan = true ∨ (fdec fF32 b).isNan = true) →
    (laneRel r .f32 a b).1 = (r == .ne || r == .un)) ∧
  (∀ (r : Rel) (a b : W32),
    let signalling := fun x : W32 => x.extractLsb' 23 8 = 0xFF ∧ x.getLsbD 22 = false ∧ x.extractLsb' 0 22 ≠ 0
    (laneRel r .f32 a.toNat b.toNat).2 = if signalling a ∨ signalling b then 1 else 0) ∧
  (∀ (r : Rel) (a b : W32), laneRel r .i32 a.toNat b.toNat = (r.onZ a.toInt b.toInt, 0) ∧
    laneRel r .n32 a.toNat b.toNat = (r.onZ a.toNat b.toNat, 0)) ∧
  (∀ (a b : W32), (fdec fF32 a.toNat).isNan = false → (fdec fF32 b.toNat).isNan = false → (a &&& 0x7FFFFFFF) = 0 → (b &&& 0x7FFFFFFF) = 0 →
    laneRel .eq .f32 a.toNat b.toNat = (true, 0) ∧ laneRel .lt .f32 a.toNat b.toNat = (false, 0)) ∧
  (∀ a b : Nat, finite (fdec fF32 a) → finite (fdec fF32 b) →
    let x := rat (fdec fF32 a)
    let y := rat (fdec fF32 b)
    laneRel .eq .f32 a b = (decide (x = y), 0) ∧ laneRel .ne .f32 a b = (decide (x ≠ y), 0) ∧ laneRel .lt .f32 a b = (decide (x < y), 0) ∧
    laneRel .le .f32 a b = (decide (x ≤ y), 0) ∧ laneRel .gt .f32 a b = (decide (y < x), 0) ∧ laneRel .ge .f32 a b = (decide (y ≤ x), 0) ∧
    laneRel .un .f32 a b = (false, 0)) ∧
  (∀ (a b : Nat) (n : Bool), fdec fF32 a = .inf n →
    (finite (fdec fF32 b) → laneRel .lt .f32 a b = (n, 0) ∧ laneRel .le .f32 a b = (n, 0) ∧ laneRel .gt .f32 a b = (!n, 0) ∧ laneRel .ge .f32 a b = (!n, 0) ∧
      laneRel .lt .f32 b a = (!n, 0) ∧ laneRel .le .f32 b a = (!n, 0) ∧ laneRel .gt .f32 b a = (n, 0) ∧ laneRel .ge .f32 b a = (n, 0) ∧
      laneRel .eq .f32 a b = (false, 0) ∧ laneRel .ne .f32 a b = (true, 0) ∧ laneRel .eq .f32 b a = (false, 0) ∧ laneRel .ne .f32 b a = (true, 0)) ∧
    (∀ k, fdec fF32 b = .inf k → laneRel .eq .f32 a b = (n == k, 0) ∧ laneRel .ne .f32 a b = (n != k, 0) ∧ laneRel .lt .f32 a b = (n && !k, 0) ∧
      laneRel .le .f32 a b = (n || !k, 0) ∧ laneRel .gt .f32 a b = (!n && k, 0) ∧ laneRel .ge .f32 a b = (!n || k, 0) ∧ laneRel .un .f32 a b = (false, 0)))

/-- 11 R220, R221, 09 R171 to R174: `vcvt` widens elements 32 PART + j into lane j, or narrows lane j into that element and keeps every other. A floating value is rounded once to its
destination, exactly where the destination is wider; an integer likewise; a floating value to an integer is rounded and, out of range, becomes the nearest limit with I alone
(log 79 for a value that is no integer), a NaN 0 with I. -/
def Obligations.VectorConversions : Prop :=
  -- one value to another floating format, of which RoundedTo says the pattern and the flags
  (∀ (src dst : CvtTy) (a b : FFmt) (rm : Rm) (sat ns : Bool) (x : Nat), cvtFmt src = some a → cvtFmt dst = some b → x < 2 ^ a.width →
    let r := convert src dst rm sat ns x
    r = fToF a b rm sat ns x ∧
    (finite (fdec a x) → RoundedTo b rm sat ns (fdec a x).sign (rat (fdec a x)) r) ∧
    ((fdec a x).isNan = true → r = (b.qnan, nanFlags [fdec a x])) ∧
    (∀ n, fdec a x = .inf n → r = if b = fE4m3 then (overflowGives b rm sat ns n, 6) else ((if n then 2 ^ (b.width - 1) else 0) + b.infBits, 0)) ∧
    (finite (fdec a x) → b = fF32 → rat (fdec b r.1) = rat (fdec a x) ∧ r.2 = 0)) ∧
  (∀ (src : CvtTy) (rm : Rm) (sat ns : Bool) (x : W32), src = .i32 ∨ src = .n32 →
    let z := if src = .i32 then x.toInt else (x.toNat : Int)
    RoundedTo fF32 rm false false (decide (z < 0)) z (convert src .f32 rm sat ns x.toNat)) ∧
  (∀ (src dst : CvtTy) (f : FFmt) (rm : Rm) (sat ns : Bool) (x : Nat), cvtFmt src = some f → dst = .i32 ∨ dst = .n32 →
    let lo : Int := if dst = .i32 then -(2 ^ 31) else 0
    let hi : Int := if dst = .i32 then 2 ^ 31 - 1 else 2 ^ 32 - 1
    let word := fun z : Int => (BitVec.ofInt 32 z).toNat
    let r := convert src dst rm sat ns x
    (finite (fdec f x) → ∃ z, RoundsInt rm (rat (fdec f x)) z ∧ (z < lo → r = (word lo, 1)) ∧ (hi < z → r = (word hi, 1)) ∧
      (lo ≤ z → z ≤ hi → r = (word z, if (z : ℚ) = rat (fdec f x) then 0 else 4))) ∧
    ((fdec f x).isNan = true → r = (0, 1)) ∧ (∀ n, fdec f x = .inf n → r = (word (if n then lo else hi), 1))) ∧
  ∀ (x : VCvt) (s : State), vcvtPair x.dst x.src = true → x.part.val < 32 / cvtWidth (if x.dst = .f32 then x.src else x.dst) →
    let g := s.guard x.h
    let q := x.part.val
    let w := cvtWidth (if x.dst = .f32 then x.src else x.dst)
    let cv := convert x.src x.dst x.rm x.sat s.mode.fp8ns
    let r := fun j => if x.dst = .f32 then cv (elem w (s.rv x.a) (32 * q + j)) else cv (lane (s.rv x.a) j).toNat
    let traps := s.mode.arith = true ∧ (Raises g 32 r 0 ∨ Raises g 32 r 1)
    (traps → ∃ i, exec (.vcvt x) s = .next (s.takeTrap 0x40 0 i)) ∧
    (¬ traps → ∃ t : State, exec (.vcvt x) s = .next t ∧ OnlyRegs s t [] [x.d] [] ∧ (g = 0 → t.th.regs = s.th.regs) ∧
      (∀ k, k < 3 → (t.th.sticky.getLsbD k = true ↔ s.th.sticky.getLsbD k = true ∨ Raises g 32 r k)) ∧
      (g ≠ 0 → x.dst = .f32 → ∀ j, j < 32 →
        lane (rdV t.th.regs x.d) j = if g.getLsbD j then BitVec.ofNat 32 (r j).1 else lane (s.rv x.d) j) ∧
      (g ≠ 0 → x.dst ≠ .f32 → ∀ e, e < 1024 / w → elem w (rdV t.th.regs x.d) e =
        if 32 * q ≤ e ∧ e < 32 * q + 32 ∧ g.getLsbD (e - 32 * q) = true then (r (e - 32 * q)).1 % 2 ^ w else elem w (s.rv x.d) e))

/-- 11 R222: moves and permutes copy lanes as bits; a lane number outside 0 to 31 fails the position that holds it. -/
def Obligations.VectorMoves : Prop :=
  (∀ (x : VV) (s : State), LanesDone (exec (.vmov x) s) s (s.guard x.h) x.d (lane (s.rv x.a))) ∧
  (∀ (x : VVV) (s : State),
    LanesDone (exec (.vperm x) s) s (s.guard x.h) x.d (fun j => lane (s.rv x.a) ((lane (s.rv x.b) j) &&& 31).toNat)) ∧
  (∀ (x : VSel) (s s' : State) (b : VB), s.vsrc x.b = .ok b s' →
    LanesDone (exec (.vsel x) s) s' (s'.guard x.h) x.d
      (fun j => if (s'.rp x.c).getLsbD j then lane (s'.rv x.a) j else BitVec.ofNat 32 (b.at 32 j))) ∧
  (∀ (x : VBc) (s s' : State) (a : W64), s.src false x.a = .ok a s' →
    LanesDone (exec (.vbcast x) s) s' (s'.guard x.h) x.d (fun _ => a.setWidth 32)) ∧
  (∀ (x : VSl) (s : State),
    let n := (s.siZ x.c).toNat
    (n < 32 → LanesDone (exec (.vslide x) s) s (s.guard x.h) x.d
      (fun j => if j + n < 32 then lane (s.rv x.a) (j + n) else lane (s.rv x.b) (j + n - 32))) ∧
    (32 ≤ n → exec (.vslide x) s = .next (s.takeTrap 0x02 0 3))) ∧
  (∀ (x : VGet) (s : State),
    let n := (s.siZ x.b).toNat
    (n < 32 → ∃ t : State, exec (.vgetl x) s = .next t ∧ OnlyRegs s t [x.d] [] [] ∧ KeepsFlags s t ∧
      (x.d ≠ 0 → rdS t.th.regs x.d = (lane (s.rv x.a) n).setWidth 64)) ∧
    (32 ≤ n → exec (.vgetl x) s = .next (s.takeTrap 0x02 0 2))) ∧
  (∀ (x : VSet) (s s' : State) (a : W64), s.src false x.a = .ok a s' →
    let n := (s'.siZ x.b).toNat
    (n < 32 → ∃ t : State, exec (.vsetl x) s = .next t ∧ OnlyRegs s' t [] [x.d] [] ∧ KeepsFlags s' t ∧
      ∀ j, j < 32 → lane (rdV t.th.regs x.d) j = if j = n then a.setWidth 32 else lane (s'.rv x.d) j) ∧
    (32 ≤ n → exec (.vsetl x) s = .next (s'.takeTrap 0x02 0 2)))

/-- 09 R183, R172, 11 R223, R229, R230: a lane reduction combines its active lanes in the binary tree, and each combination is rounded or narrowed to the type; an inactive lane
gives -0, an infinity, 0 or an end of the type's range. The gang-wide forms outside a gang act on the thread's own register; in a gang
a member captures its operands, and the last to capture writes every member's result (here for a gang of two), never trapping on arithmetic. -/
def Obligations.Reductions : Prop :=
  -- what an inactive lane contributes
  (∀ (rm : Rm) (sat : Bool),
    (fdec fF32 (redIdent .sum (.f32 rm)) = .fin true 0 (-149) ∧ fdec fF32 (redIdent .max (.f32 rm)) = .inf true ∧
      fdec fF32 (redIdent .min (.f32 rm)) = .inf false) ∧
    ∀ t ∈ [(IntTy.i32, Red.i32 sat), (.n32, .n32 sat)],
      redIdent .sum t.2 = 0 ∧ value t.1 (BitVec.ofNat 64 (redIdent .max t.2)) = least t.1 ∧
        value t.1 (BitVec.ofNat 64 (redIdent .min t.2)) = most t.1) ∧
  -- one combination: of numbers, of others, of integers
  (∀ (o : RedOp) (rm : Rm) (a b : Nat × Nat), a.1 < 2 ^ 32 → b.1 < 2 ^ 32 →
    let c := redComb o (.f32 rm) a b
    let va := fdec fF32 a.1
    let vb := fdec fF32 b.1
    let q := rat va + rat vb
    (finite va → finite vb →
      (o = .sum → ∃ (n : Bool) (k : Nat), RoundedTo fF32 rm false false n q (c.1, k) ∧ c.2 = a.2 ||| b.2 ||| k ∧ (q < 0 → n = true) ∧
        (0 < q → n = false) ∧ (q = 0 → n = if va.isZero && vb.isZero && va.sign == vb.sign then va.sign else rm == .rdn)) ∧
      (rat va < rat vb → (o = .max → c = (b.1, a.2 ||| b.2)) ∧ (o = .min → c = (a.1, a.2 ||| b.2))) ∧
      (rat vb < rat va → (o = .max → c = (a.1, a.2 ||| b.2)) ∧ (o = .min → c = (b.1, a.2 ||| b.2)))) ∧
    (va.isNan = true ∨ vb.isNan = true → c.1 = fF32.qnan) ∧
    (∀ n, va = .inf n → finite vb → (o = .sum → c.1 = a.1) ∧ (o = .max → c.1 = if n then b.1 else a.1) ∧ (o = .min → c.1 = if n then a.1 else b.1)) ∧
    (∀ n, vb = .inf n → finite va → (o = .sum → c.1 = b.1) ∧ (o = .max → c.1 = if n then a.1 else b.1) ∧ (o = .min → c.1 = if n then b.1 else a.1)) ∧
    (∀ n m, va = .inf n → vb = .inf m → (o = .sum → if n = m then c.1 = a.1 else c = (fF32.qnan, a.2 ||| b.2 ||| 1)) ∧
      (o = .max → c.1 = if n then b.1 else a.1) ∧ (o = .min → c.1 = if n then a.1 else b.1))) ∧
  (∀ (o : RedOp) (sat : Bool) (a b : Nat × Nat), ∀ t ∈ [(IntTy.i32, Red.i32 sat), (.n32, .n32 sat)],
    let x := value t.1 (BitVec.ofNat 64 a.1)
    let y := value t.1 (BitVec.ofNat 64 b.1)
    let r := match o with | .sum => intElement t.1 sat (x + y) | .max => intElement t.1 false (max x y) | .min => intElement t.1 false (min x y)
    redComb o t.2 a b = (r.1 % 2 ^ 32, a.2 ||| b.2 ||| r.2)) ∧
  (∀ (x : VRed) (s : State) (o : RedOp) (i : Instr), (o, i) ∈ [(RedOp.sum, Instr.vrsum x), (.max, .vrmax x), (.min, .vrmin x)] →
     let g := s.guard x.h
     let r := treeOf (redComb o x.ty) 5 (fun j => (if g.getLsbD j then (lane (s.rv x.a) j).toNat else redIdent o x.ty, 0)) 0
     let d := match x.ty with | .i32 _ => (BitVec.ofNat 32 r.1).signExtend 64 | _ => BitVec.ofNat 64 r.1
     let traps := s.mode.arith = true ∧ (r.2.testBit 0 = true ∨ r.2.testBit 1 = true ∨ r.2.testBit 3 = true)
     (¬ traps → ∃ t : State, exec i s = .next t ∧ OnlyRegs s t [x.d] [] [] ∧ (x.d ≠ 0 → rdS t.th.regs x.d = d) ∧
       t.th.sticky = s.th.sticky ||| BitVec.ofNat 4 r.2) ∧
     (traps → ∃ k, exec i s = .next (s.takeTrap 0x40 0 k))) ∧
  ((∀ (x : VRed) (s : State) (o : RedOp) (i : Instr), (o, i) ∈ [(RedOp.sum, Instr.vgsum x), (.max, .vgmax x), (.min, .vgmin x)] →
     (s.th.gang = none →
       let r := redLanes o x.ty (s.guard x.h) (s.rv x.a)
       ∃ t : State, exec i s = .next t ∧ (x.d ≠ 0 → rdS t.th.regs x.d = redExt x.ty r.1) ∧ KeepsRegs s t [x.d] [] [] [] ∧ KeepsMem s t ∧
         t.th.sticky = s.th.sticky ||| BitVec.ofNat 4 r.2) ∧
     (∀ g c0, s.th.gang = some g → g.idx = 1 → g.size = 2 → 1 ≤ s.cur.core → capOf (s.thr ⟨s.cur.core - 1, s.cur.slot⟩) = some c0 →
       let r0 := redLanes o x.ty (Cap.g c0) (Cap.a c0)
       let r1 := redLanes o x.ty (s.guard x.h) (s.rv x.a)
       let r := redComb o x.ty r0 r1
       ∃ t : State, exec i s = .next t ∧
         (x.d ≠ 0 → rdS (t.thr ⟨s.cur.core - 1, s.cur.slot⟩).regs x.d = redExt x.ty r.1 ∧ rdS t.th.regs x.d = redExt x.ty r.1) ∧
         t.th.sticky = s.th.sticky ||| BitVec.ofNat 4 r.2) ∧
     (∀ g, s.th.gang = some g → g.idx = 0 → g.size = 2 → capOf (s.thr ⟨s.cur.core + 1, s.cur.slot⟩) = none →
       exec i s = .next (s.updTh fun t => { t with gang := some { g with cap := some (s.rv x.a, 0, 0, s.guard x.h) } }))) ∧
   (∀ (x : VVV) (s : State), s.th.gang = none →
     ∃ t : State, exec (.vgperm x) s = .next t ∧ KeepsMem s t ∧ KeepsFlags s t ∧ KeepsRegs s t [] [x.d] [] [] ∧
       (s.guard x.h ≠ 0 → ∀ j, j < 32 → lane (rdV t.th.regs x.d) j = if (s.guard x.h).getLsbD j
         then lane (s.rv x.a) ((lane (s.rv x.b) j).toNat % 32) else lane (rdV s.th.regs x.d) j)) ∧
   (∀ (x : VGb) (s : State), s.th.gang = none →
     ((s.siZ x.b).toNat = 0 → ∃ t : State, exec (.vgbcast x) s = .next t ∧ KeepsMem s t ∧ KeepsFlags s t ∧ KeepsRegs s t [] [x.d] [] [] ∧
       (s.guard x.h ≠ 0 → ∀ j, j < 32 → lane (rdV t.th.regs x.d) j = if (s.guard x.h).getLsbD j
         then lane (s.rv x.a) j else lane (rdV s.th.regs x.d) j)) ∧
     (1 ≤ (s.siZ x.b).toNat → exec (.vgbcast x) s = .next (s.takeTrap 0x02 0 2))))

/-- 11 R224 to R226, 09 R172, R173: the special functions act lane by lane; their values on special operands are those of the table of R226; a square root and a
quotient are correctly rounded, 2^n is exact for an integer n from -149 to 127, and a reciprocal beyond f32's largest finite number overflows. Inside the bounds of R225 the value is a free one (log 6), of which nothing is said here. -/
def Obligations.SpecialFunctions : Prop :=
  (∀ (x : VV) (s : State) (i : Instr) (f : Nat → Nat × Nat),
    (i, f) ∈ [(Instr.vrcp x, fnRcp), (.vrsqrt x, fnRsqrt), (.vexp2 x, fnExp2), (.vlog2 x, fnLog2), (.vsinpi x, fnSinPi),
      (.vcospi x, fnCosPi), (.vtanh x, fnTanh)] →
    ElementwiseDone (exec i s) s (s.guard x.h) x.d 32 (fun e => f (elem 32 (s.rv x.a) e))) ∧
  (∀ (x : VSqrt) (s : State),
    ElementwiseDone (exec (.vsqrt x) s) s (s.guard x.h) x.d 32 (fun e => fnSqrt x.rm (elem 32 (s.rv x.a) e))) ∧
  (∀ (x : VDivA) (s s' : State) (b : VB), s.vsrc x.b = .ok b s' →
    ElementwiseDone (exec (.vdiv x) s) s' (s'.guard x.h) x.d 32 (fun e => fnDiv x.rm (elem 32 (s'.rv x.a) e) (b.at 32 e))) ∧
  (∀ (rm : Rm) (x : Nat), x < 2 ^ 32 → finite (fdec fF32 x) →
    let q := rat (fdec fF32 x)
    let r := fnSqrt rm x
    (0 < q → RoundsRoot rm q r.1 ∧ r.2 = if rat (fdec fF32 r.1) * rat (fdec fF32 r.1) = q then 0 else 4) ∧ (q < 0 → r = (0x7FC00000, 1))) ∧
  (∀ (rm : Rm) (x y : Nat), x < 2 ^ 32 → y < 2 ^ 32 →
    let a := fdec fF32 x
    let b := fdec fF32 y
    let r := fnDiv rm x y
    let n := a.sign != b.sign
    let sign := if n then 0x80000000 else 0
    (finite a → finite b → rat b ≠ 0 → RoundedTo fF32 rm false false n (rat a / rat b) r) ∧
    (finite a → finite b → rat b = 0 → r = if rat a = 0 then (0x7FC00000, 1) else (sign + 0x7F800000, 0)) ∧
    (∀ k, a = .inf k → finite b → r = (sign + 0x7F800000, 0)) ∧ (∀ k, finite a → b = .inf k → r = (sign, 0)) ∧
    (∀ j k, a = .inf j → b = .inf k → r = (0x7FC00000, 1)) ∧ (a.isNan = true ∨ b.isNan = true → r = (0x7FC00000, nanFlags [a, b]))) ∧
  (∀ (x : Nat) (k : ℤ), x < 2 ^ 32 → finite (fdec fF32 x) → rat (fdec fF32 x) = k →
    (-149 ≤ k → k ≤ 127 → (fnExp2 x).2 = 0 ∧ rat (fdec fF32 (fnExp2 x).1) = 2 ^ k) ∧ (128 ≤ k → fnExp2 x = (0x7F800000, 6)) ∧ (k ≤ -150 → fnExp2 x = (0, 4))) ∧
  (∀ x, x < 2 ^ 32 → finite (fdec fF32 x) → rat (fdec fF32 x) ≠ 0 → |rat (fdec fF32 x)| ≤ 2 ^ (-128 : ℤ) →
    fnRcp x = ((fdec fF32 x).sign.toNat * 2 ^ 31 + 0x7F800000, 6)) ∧
  (fnRcp 0xFF800000 = (0x80000000, 0) ∧ fnRcp 0x80000000 = (0xFF800000, 0) ∧ fnRcp 0 = (0x7F800000, 0) ∧ fnRcp 0x7F800000 = (0, 0)) ∧
  (fnRsqrt 0xFF800000 = (0x7FC00000, 1) ∧ fnRsqrt 0x80000000 = (0xFF800000, 0) ∧ fnRsqrt 0 = (0x7F800000, 0) ∧
    fnRsqrt 0x7F800000 = (0, 0) ∧ fnRsqrt 0xBF800000 = (0x7FC00000, 1)) ∧
  (∀ rm, fnSqrt rm 0xFF800000 = (0x7FC00000, 1) ∧ fnSqrt rm 0x80000000 = (0x80000000, 0) ∧ fnSqrt rm 0 = (0, 0) ∧
    fnSqrt rm 0x7F800000 = (0x7F800000, 0) ∧ fnSqrt rm 0xBF800000 = (0x7FC00000, 1)) ∧
  (fnExp2 0xFF800000 = (0, 0) ∧ fnExp2 0x80000000 = (0x3F800000, 0) ∧ fnExp2 0 = (0x3F800000, 0) ∧ fnExp2 0x7F800000 = (0x7F800000, 0)) ∧
  (fnLog2 0xFF800000 = (0x7FC00000, 1) ∧ fnLog2 0x80000000 = (0xFF800000, 0) ∧ fnLog2 0 = (0xFF800000, 0) ∧
    fnLog2 0x7F800000 = (0x7F800000, 0)) ∧
  (fnSinPi 0x80000000 = (0x80000000, 0) ∧ fnSinPi 0 = (0, 0) ∧ fnSinPi 0x7F800000 = (0x7FC00000, 1) ∧ fnCosPi 0 = (0x3F800000, 0) ∧
    fnCosPi 0x80000000 = (0x3F800000, 0) ∧ fnCosPi 0xFF800000 = (0x7FC00000, 1)) ∧
  (fnTanh 0x80000000 = (0x80000000, 0) ∧ fnTanh 0 = (0, 0) ∧ fnTanh 0xFF800000 = (0xBF800000, 0) ∧ fnTanh 0x7F800000 = (0x3F800000, 0)) ∧
  (∀ f, f ∈ [fnRcp, fnRsqrt, fnSqrt .rne, fnExp2, fnLog2, fnSinPi, fnCosPi, fnTanh] →
    f 0x7FC00000 = (0x7FC00000, 0) ∧ f 0x7F800001 = (0x7FC00000, 1))

/-- 09 R179, 11 R215, R227, R228: the sticky flags read and cleared, the code table loaded (a table that arrived, and a word that `swr` gives in its cycle,
stand from the next cycle on), codes decoded and encoded: a number gets the code of the nearest entry, the lowest on a tie. -/
def Obligations.FlagsAndCodeTable : Prop :=
  (∀ (x : DOnly) (s : State),
    (∃ t : State, exec (.vflgrd x) s = .next t ∧ OnlyRegs s t [x.d] [] [] ∧ KeepsFlags s t ∧
      (x.d ≠ 0 → rdS t.th.regs x.d = s.opTh.sticky.setWidth 64)) ∧
    (∃ t : State, exec (.vflgclr x) s = .next t ∧ OnlyRegs s t [x.d] [] [] ∧ t.th.sticky = s.cur.flags1 ∧
      (x.d ≠ 0 → rdS t.th.regs x.d = s.opTh.sticky.setWidth 64))) ∧
  (∀ (x : MOnly) (s s1 s2 : State) (p : Place) (bs : List Byte) (far : Bool),
    s.accessAligned s.agent (s.addr x.m) 16 16 .load false = .ok p s1 → s1.load p (s.addr x.m) 16 true x.h.hint.val = .ok (bs, far) s2 →
    exec (.ctload x) s =
      .next (s2.reply far { Result.none with ctab := some (BitVec.ofNat 64 (field bs 0 8), BitVec.ofNat 64 (field bs 8 8)) })) ∧
  (∀ (s : State) (c : Nat) (k : Core), s.endCycle.vtTick.cores.get? c = some k →
    (s.nextCycle.core c).ctab = k.ctabW.1.getD ((k.ctabNew.map (·.1)).getD k.ctab) ∧
    (s.nextCycle.core c).ctabhi = k.ctabW.2.getD ((k.ctabNew.map (·.2)).getD k.ctabhi)) ∧
  (∀ (x : VCtd) (s : State),
    let c := fun j => ctEntry s.ctab.1 s.ctab.2 (elem 4 (s.rv x.a) (32 * x.part.val + j))
    (x.f32 = false → LanesDone (exec (.vctdec x) s) s (s.guard x.h) x.d (fun j => BitVec.ofInt 32 (c j))) ∧
    (x.f32 = true → LanesDone (exec (.vctdec x) s) s (s.guard x.h) x.d (fun j => BitVec.ofNat 32 (intToF fF32 .rne (c j)).1))) ∧
  (∀ (lo hi : W64) (c : Nat), c < 16 → ctEntry lo hi c = (BitVec.setWidth 8 (if c < 8 then lo >>> (8 * c) else hi >>> (8 * (c - 8)))).toInt) ∧
  (∀ (lo hi : W64) (v : FVal),
    let z := fun c => (ctEntry lo hi c : ℚ)
    let r := ctEnc lo hi v
    (finite v → r.1 < 16 ∧ (∀ d, d < 16 → |rat v - z r.1| ≤ |rat v - z d|) ∧ (∀ d, d < r.1 → |rat v - z r.1| < |rat v - z d|) ∧
      r.2 = if rat v = z r.1 then 0 else 4) ∧
    (∀ n, v = .inf n → r.1 < 16 ∧ (∀ d, d < 16 → if n then z r.1 ≤ z d else z d ≤ z r.1) ∧ (∀ d, d < r.1 → z d ≠ z r.1) ∧ r.2 = 6) ∧
    (v.isNan = true → r = (0, 1))) ∧
  (∀ (x : VCte) (s : State), s.mode.arith = false →
    ∃ t : State, exec (.vctenc x) s = .next t ∧ OnlyRegs s t [] [x.d] [] ∧
      ∀ e, e < 256 → elem 4 (rdV t.th.regs x.d) e = if 32 * x.part.val ≤ e ∧ e < 32 * x.part.val + 32
        then (ctEnc s.ctab.1 s.ctab.2 (fdec fF32 (lane (s.rv x.a) (e - 32 * x.part.val)).toNat)).1 % 16 else elem 4 (s.rv x.d) e)

/-- 13 R236 to R239: a claim maps the lowest free resources to its names and returns 1, or returns 0 and changes nothing where the partition's limit or the
engine leaves no room; a release unmaps names. MSHARE = 0 closes the engine with cause 0x11, before an operand is looked at (the model's
choice, log 43). -/
def Obligations.MatrixResources : Prop :=
  (∀ (x : OClaim) (s : State) (t : Task), s.myTask = some t → (s.part s.myPart).desc.mshare ≠ 0 →
    let n := (s.siZ x.b).toNat
    let a := x.a.val
    let cl := s.cur.core / 8
    let ps := ((List.range 32).filter fun k => ((s.cluster cl).oslots.get? k).isNone).take n
    let room := ps.length = n ∧ (s.held cl s.myPart).1 + n ≤ max 4 ((s.part s.myPart).desc.mshare / 4)
    (n = 0 ∨ 32 < a + n → exec (.oclaim x) s = .next (s.takeTrap 0x02 0 2)) ∧
    (1 ≤ n → a + n ≤ 32 → (∃ k, a ≤ k ∧ k < a + n ∧ (t.onames.get? k).isSome = true) → exec (.oclaim x) s = .next (s.takeTrap 0x02 0 1)) ∧
    (1 ≤ n → a + n ≤ 32 → (∀ k, a ≤ k → k < a + n → t.onames.get? k = none) →
      (¬ room → exec (.oclaim x) s = .next (s.wait (.data { Result.none with s := [(x.d, 0)] }))) ∧
      (room → ∃ u : State, exec (.oclaim x) s = .next u ∧ u.stageOf s.me = some (.data { Result.none with s := [(x.d, 1)] }) ∧
        (∀ i, i < n → ((u.task? t.id).bind fun v => v.onames.get? (a + i)) = ps[i]?) ∧
        (∀ p ∈ ps, (u.cluster cl).oslots.get? p = some [])))) ∧
  (∀ (x : ZClaim) (s : State) (t : Task), s.myTask = some t → (s.part s.myPart).desc.mshare ≠ 0 →
    let n := (s.siZ x.b).toNat
    let a := x.a.val
    let cl := s.cur.core / 8
    let ps := ((List.range 8).filter fun k => ((s.cluster cl).accs.get? k).isNone).take n
    let room := ps.length = n ∧ (s.held cl s.myPart).2 + n ≤ max 1 ((s.part s.myPart).desc.mshare / 16)
    (n = 0 ∨ 8 < a + n → exec (.zclaim x) s = .next (s.takeTrap 0x02 0 2)) ∧
    (1 ≤ n → a + n ≤ 8 → (∀ k, a ≤ k → k < a + n → t.znames.get? k = none) →
      (¬ room → exec (.zclaim x) s = .next (s.wait (.data { Result.none with s := [(x.d, 0)] }))) ∧
      (room → ∃ u : State, exec (.zclaim x) s = .next u ∧ u.stageOf s.me = some (.data { Result.none with s := [(x.d, 1)] }) ∧
        (∀ i, i < n → ((u.task? t.id).bind fun v => v.znames.get? (a + i)) = ps[i]?) ∧
        (∀ p ∈ ps, (u.cluster cl).accs.get? p = some Acc.reset)))) ∧
  (∀ (x : ORel) (y : ZRel) (s : State) (t : Task), s.myTask = some t → (s.part s.myPart).desc.mshare ≠ 0 →
    let n := (s.siZ x.b).toNat
    let m := (s.siZ y.b).toNat
    (1 ≤ n → x.a.val + n ≤ 32 → (∀ k, x.a.val ≤ k → k < x.a.val + n → (t.onames.get? k).isSome = true) →
      ∃ u : State, exec (.orelease x) s = .next u ∧ u.stageOf s.me = some (.data Result.none) ∧
        ∀ v, u.task? t.id = some v → (∀ k, x.a.val ≤ k → k < x.a.val + n → v.onames.get? k = none) ∧
          (∀ k, ¬ (x.a.val ≤ k ∧ k < x.a.val + n) → v.onames.get? k = t.onames.get? k)) ∧
    (1 ≤ m → y.a.val + m ≤ 8 → (∀ k, y.a.val ≤ k → k < y.a.val + m → (t.znames.get? k).isSome = true) →
      ∃ u : State, exec (.zrelease y) s = .next u ∧ u.stageOf s.me = some (.data Result.none) ∧
        ∀ v, u.task? t.id = some v → (∀ k, y.a.val ≤ k → k < y.a.val + m → v.znames.get? k = none) ∧
          (∀ k, ¬ (y.a.val ≤ k ∧ k < y.a.val + m) → v.znames.get? k = t.znames.get? k))) ∧
  (∀ (x : OClaim) (y : ORel) (z : MmaA) (s : State), (s.part s.myPart).desc.mshare = 0 →
    exec (.oclaim x) s = .next (s.takeTrap 0x11 0 0) ∧ exec (.orelease y) s = .next (s.takeTrap 0x11 0 0) ∧
    exec (.mma z) s = .next (s.takeTrap 0x11 0 0))

/-- 13 R240 to R252, 14 R272: submission of matrix jobs. Names must be mapped and the fields in their ranges (else their position fails), the accumulator's mode must
suit the format; the submission waits for its tiles, for the queue and for room among the thread's live jobs; then the job joins the queue, its tile becomes DRAINING
or FILLING, an accumulator takes the mode its job will give it, and D receives the job's identifier. That operand checks come before the waits (log 16), and that
`zstore` looks at its rounding code, of position 4, after the fields of position 3 (logs 16, 64), is the model's reading; a place of the queue that a job frees is room from
the next cycle on (log 17). -/
def Obligations.MatrixSubmission : Prop :=
  (∀ (x : OLoad) (s : State), (s.part s.myPart).desc.mshare ≠ 0 →
    let c := (s.rs x.c).toNat
    let rows := c % 2 ^ 10
    let rb := c / 2 ^ 10 % 2 ^ 10
    let doff := c / 2 ^ 20 % 2 ^ 12
    let ok := rb % 16 = 0 ∧ 16 ≤ rb ∧ rb ≤ 512 ∧ 1 ≤ rows ∧ rows ≤ 512 ∧ 16 * doff + rows * rb ≤ 65536 ∧ SideFits s x.b (c / 2 ^ 32) rows rb
    (s.onames.get? x.a.val = none → exec (.oload x) s = .next (s.takeTrap 0x02 0 1)) ∧
    ∀ o, s.onames.get? x.a.val = some o →
      (¬ SideUsed s x.b → exec (.oload x) s = .next (s.takeTrap 0x02 0 2)) ∧
      (SideUsed s x.b → ¬ ok → exec (.oload x) s = .next (s.takeTrap 0x02 0 3)) ∧
      (SideUsed s x.b → ok → ¬ SideIs s x.b .ready ∨ MatrixFull s → Waits (exec (.oload x) s) s) ∧
      (SideUsed s x.b → ok → SideIs s x.b .ready → MatrixRoom s →
        Submitted (exec (.oload x) s) s (.oload o (s.side x.b) ((s.rs x.c).extractLsb' 32 32) doff rb rows x.acq) x.d ∧
        SideTaken (exec (.oload x) s) s x.b fun e => { e with st := .draining })) ∧
  (∀ (x : MmaA) (s : State), (s.part s.myPart).desc.mshare ≠ 0 →
    (s.znames.get? x.a.val = none → exec (.mma x) s = .next (s.takeTrap 0x02 0 1)) ∧
    (∀ z, s.znames.get? x.a.val = some z →
      (s.onames.get? x.b.val = none → exec (.mma x) s = .next (s.takeTrap 0x02 0 2)) ∧
      (∀ a, s.onames.get? x.b.val = some a →
        (s.onames.get? x.c.val = none → exec (.mma x) s = .next (s.takeTrap 0x02 0 3)) ∧
        (∀ b, s.onames.get? x.c.val = some b →
          (s.subMode z ≠ mfmtInt x.fmt → exec (.mma x) s = .next (s.takeTrap 0x02 0 1)) ∧
          (s.subMode z = mfmtInt x.fmt → MatrixFull s → Waits (exec (.mma x) s) s) ∧
          (s.subMode z = mfmtInt x.fmt → MatrixRoom s →
            Submitted (exec (.mma x) s) s (.mma z a b x.m32 x.fmt x.q.val x.chk s.ctab.1 s.ctab.2 none) x.d))))) ∧
  (∀ (x : RMma) (s : State), (s.part s.myPart).desc.mshare ≠ 0 →
    let m0 := s.opTh.sm0
    let m1 := s.opTh.sm1
    (m0.valid = false ∨ m1.valid = false → exec (.rmma x) s = .next (s.takeTrap 0x02 0 4)) ∧
    (m0.valid = true → m1.valid = true → (m0.rpa ≠ m1.rpa ∨ m0.gen ≠ m1.gen) → exec (.rmma x) s = .next (s.takeTrap 0x31 0 0)) ∧
    (m0.valid = true → m1.valid = true → m0.rpa = m1.rpa → m0.gen = m1.gen →
      (s.znames.get? x.a.val = none → exec (.rmma x) s = .next (s.takeTrap 0x02 0 1)) ∧
      (∀ z, s.znames.get? x.a.val = some z →
        (s.onames.get? x.b.val = none → exec (.rmma x) s = .next (s.takeTrap 0x02 0 2)) ∧
        (∀ a, s.onames.get? x.b.val = some a →
          (s.onames.get? x.c.val = none → exec (.rmma x) s = .next (s.takeTrap 0x02 0 3)) ∧
          (∀ b, s.onames.get? x.c.val = some b →
            (s.subMode z ≠ mfmtInt x.fmt → exec (.rmma x) s = .next (s.takeTrap 0x02 0 1)) ∧
            (s.subMode z = mfmtInt x.fmt → MatrixFull s → Waits (exec (.rmma x) s) s) ∧
            (s.subMode z = mfmtInt x.fmt → MatrixRoom s →
              Submitted (exec (.rmma x) s) s (.mma z a b x.m32 x.fmt x.q.val x.chk s.ctab.1 s.ctab.2 (some (x.alongK, m0, m1))) x.d)))))) ∧
  (∀ (x : ZClr) (s : State), (s.part s.myPart).desc.mshare ≠ 0 →
    (s.znames.get? x.a.val = none → exec (.zclear x) s = .next (s.takeTrap 0x02 0 1)) ∧
    (∀ z, s.znames.get? x.a.val = some z →
      (MatrixFull s → Waits (exec (.zclear x) s) s) ∧
      (MatrixRoom s → Submitted (exec (.zclear x) s) s (.zclear z x.int) x.d ∧ ∀ t, exec (.zclear x) s = .next t → t.subMode z = x.int))) ∧
  (∀ (x : ZSt) (s : State), (s.part s.myPart).desc.mshare ≠ 0 →
    let k := zctl (s.rs x.c)
    let rows := k.rowsm1 + 1
    let rb := ofmtBytes k.ofmt
    (¬ SideUsed s x.a → exec (.zstore x) s = .next (s.takeTrap 0x02 0 1)) ∧
    (SideUsed s x.a → s.znames.get? x.b.val = none → exec (.zstore x) s = .next (s.takeTrap 0x02 0 2)) ∧
    (∀ z, SideUsed s x.a → s.znames.get? x.b.val = some z →
      let ok := zctlOk (s.rs x.c) true (s.subMode z) = true ∧ SideFits s x.a k.stride.toNat rows rb ∧
        (x.fill = true → ∀ r, x.a = .t r → rows * rb ≤ 256 * (s.tile r.val).size)
      let four := 4 < k.rm ∨ (x.fill = true ∧ ∀ r, x.a ≠ .t r)
      (¬ ok → exec (.zstore x) s = .next (s.takeTrap 0x02 0 3)) ∧
      (ok → four → exec (.zstore x) s = .next (s.takeTrap 0x02 0 4)) ∧
      (ok → ¬ four → (x.fill = true ∧ ¬ SideIs s x.a .empty) ∨ MatrixFull s → Waits (exec (.zstore x) s) s) ∧
      (ok → ¬ four → (x.fill = true → SideIs s x.a .empty) → MatrixRoom s →
        Submitted (exec (.zstore x) s) s (.zstore z (s.side x.a) k.stride k.rowsm1 k.first k.sat k.rm k.ofmt x.rel x.fill) x.d ∧
        SideTaken (exec (.zstore x) s) s x.a fun e => if x.fill then { e with st := .filling, expect := rows * rb, arrived := 0 } else e))) ∧
  (∀ (x : ZLd) (s : State), (s.part s.myPart).desc.mshare ≠ 0 →
    let k := zctl (s.rs x.c)
    let m := if k.ofmt = 0 then k.lmode else k.ofmt == 11
    (s.znames.get? x.a.val = none → exec (.zload x) s = .next (s.takeTrap 0x02 0 1)) ∧
    (∀ z, s.znames.get? x.a.val = some z →
      let ok := zctlOk (s.rs x.c) false false = true ∧ SideFits s x.b k.stride.toNat (k.rowsm1 + 1) (ofmtBytes k.ofmt)
      (¬ SideUsed s x.b → exec (.zload x) s = .next (s.takeTrap 0x02 0 2)) ∧
      (SideUsed s x.b → ¬ ok → exec (.zload x) s = .next (s.takeTrap 0x02 0 3)) ∧
      (SideUsed s x.b → ok → ¬ SideIs s x.b .ready ∨ MatrixFull s → Waits (exec (.zload x) s) s) ∧
      (SideUsed s x.b → ok → SideIs s x.b .ready → MatrixRoom s →
        Submitted (exec (.zload x) s) s (.zload z (s.side x.b) k.stride k.rowsm1 k.first m k.ofmt x.acq) x.d ∧
        SideTaken (exec (.zload x) s) s x.b (fun e => { e with st := .draining }) ∧ ∀ t, exec (.zload x) s = .next t → t.subMode z = m))) ∧
  (∀ (x : MChk) (s : State), (s.part s.myPart).desc.mshare ≠ 0 →
    (s.znames.get? x.a.val = none → exec (.mcheck x) s = .next (s.takeTrap 0x02 0 1)) ∧
    (∀ z, s.znames.get? x.a.val = some z →
      (MatrixFull s → Waits (exec (.mcheck x) s) s) ∧
      (MatrixRoom s → Submitted (exec (.mcheck x) s) s (.mcheck z (!x.notrap)) x.d)))

/-- 13 R253, R254, R257: status of matrix jobs. An unknown identifier gives 5; a report ends the job's life and adds its flags, and traps afterwards, with cause 0x41 at the next
bundle, where it reports CODE 6 of an `mcheck.trap`: SEQ, MROW and MCOL are its detail; `mwait` sees a job that ended before the cycle, and passes until then; `mstat` counts what the
engine had free as the cycle began. -/
def Obligations.MatrixStatus : Prop :=
  (∀ (x : DA) (s : State), (s.part s.myPart).desc.mshare ≠ 0 →
    (s.mtxLook (s.rs x.a) = none → exec (.mpoll x) s = .next (s.ws x.d 5) ∧ exec (.mwait x) s = .next (s.ws x.d 5)) ∧
    (∀ l st, s.mtxLook (s.rs x.a) = some l → l.done = some st → (l.traps = false ∨ (st &&& 0xFF) ≠ 6) →
      ∃ t : State, exec (.mpoll x) s = .next t ∧ (l.doneAt < s.cycle → exec (.mwait x) s = .next t) ∧ t.cur.fate = s.cur.fate ∧ (x.d ≠ 0 → rdS t.th.regs x.d = st) ∧
        t.th.sticky = s.th.sticky ||| st.extractLsb' 24 4 ∧ (∀ j ∈ t.th.mjobs, j.id ≠ l.id) ∧ KeepsMem s t) ∧
    (∀ l st, s.mtxLook (s.rs x.a) = some l → l.done = some st → l.traps = true → (st &&& 0xFF) = 6 →
      ∃ t : State, exec (.mpoll x) s = .next t ∧ (l.doneAt < s.cycle → exec (.mwait x) s = .next t) ∧ t.cur.fate = .trapped ∧
        (s.cur.slot < 7 → (s.part s.myPart).scb.en = true → ∃ r : TrapRec, (t.core s.cur.core).queue = (s.core s.cur.core).queue ++ [r] ∧
          r.cause = 0x41 ∧ r.pc = s.cur.link ∧ r.addr = 0 ∧
          r.info = BitVec.ofNat 64 (l.seq.toNat + 2 ^ 32 * (st.toNat / 2 ^ 56) + 2 ^ 40 * (st.toNat / 2 ^ 48 % 2 ^ 8)) ∧
          (x.d ≠ 0 → rdS t.th.regs x.d = st) ∧ t.th.sticky = s.th.sticky ||| st.extractLsb' 24 4 ∧ (∀ j ∈ t.th.mjobs, j.id ≠ l.id) ∧ KeepsMem s t)) ∧
    (∀ l, s.mtxLook (s.rs x.a) = some l → l.done = none →
      (∃ v, exec (.mpoll x) s = .next (s.ws x.d v) ∧ v &&& 0xFF = 0) ∧ Waits (exec (.mwait x) s) s) ∧
    (∀ l, s.mtxLook (s.rs x.a) = some l → s.cycle ≤ l.doneAt → Waits (exec (.mwait x) s) s)) ∧
  (∀ (x : DOnly) (s : State), (s.part s.myPart).desc.mshare ≠ 0 →
    let m := (s.cluster (s.cur.core / 8)).mtx0
    exec (.mstat x) s = .next (s.ws x.d (BitVec.ofNat 64 ((if m.2.2 then 1 else 0) + 16 * (32 - m.1) + 2 ^ 10 * (8 - m.2.1)
      + 2 ^ 32 * min ((s.myTask.map fun t => t.ae0).getD 0) (2 ^ 32 - 1)))))

/-- 09 R180, R184, 13 R241, R242, R247, R253, R255, R256: a product gives each element of its rows its sum with the products of A row m and B row n, group by group of 32: of an
integer format brought into 56 bits, of a floating one rounded once to A56 (a NaN operand gives NaN); the other rows keep their elements. Among the jobs that may start (no earlier job of their task is left; within
the budget, or their partition within its share of it) the engine starts the one of the task with the least accumulated energy, the earlier on ties, and charges it; it starts none while its die is tripped; at a
multiple of the window length a boundary clears the charges and halves the energies of the tasks on the engine; a job whose rows are done completes with CODE 1. That one event takes one row of a
job, and a product whole, is the model's choice (log 22). -/
def Obligations.MatrixEngine : Prop :=
  (∀ (c : ClusterN) (id : Nat) (s : State) (j : MtxJob) (z a b q : Nat) (m32 : Bool) (f : MFmt) (lo hi : W64),
     (s.cluster c.val).mtxq.find? (fun j => j.id = id) = some j → j.op = .mma z a b m32 f q false lo hi none → q < 4 → j.st = .running 0 →
     j.code = 0 → s.beforeDone j.owner.thread.core j.before = true → s.jobGate j.owner = true →
     let oa := (s.cluster c.val).oslots.getD a []
     let ob := (s.cluster c.val).oslots.getD b []
     let mine := fun m => if m32 then 32 * q ≤ m ∧ m < 32 * q + 32 else m < 128
     let old := fun m n => (s.acc c.val z).z.getD (128 * m + n) 0
     ∃ t : State, exec (.matrixJobComplete c id) s = .next t ∧ t.mem = s.mem ∧
       let new := fun m n => (t.acc c.val z).z.getD (128 * m + n) 0
       (∀ m n, m < 128 → n < 128 → ¬ mine m → new m n = old m n) ∧
       -- integer formats: K, and the number that element `k` of a row stands for
       (∀ (nk : Nat) (el : List Host.Cell → Nat → Nat → Int),
         (f = .i8 ∧ nk = 128 ∧ ∀ o m k, el o m k = (memByte o (128 * m + k)).toInt) ∨
           (f = .c4 ∧ nk = 256 ∧ ∀ o m k, el o m k = ctEntry lo hi ((memByte o (128 * m + k / 2)).toNat / 16 ^ (k % 2) % 16)) →
         ∀ m n, mine m → n < 128 → ∃ acc : Nat → Int, acc 0 = (old m n).toInt ∧ (new m n).toInt = acc (nk / 32) ∧ ∀ g, g < nk / 32 →
           acc (g + 1) = max (-(2 ^ 55)) (min (2 ^ 55 - 1)
             (acc g + ((List.range 32).map fun k => el oa m (32 * g + k) * el ob n (32 * g + k)).sum))) ∧
       -- floating formats
       (∀ (nk : Nat) (el : List Host.Cell → Nat → Nat → FVal),
         let two := fun (w : FFmt) => nk = 64 ∧ ∀ o m k, el o m k = fdec w (ofBytes (memBytes o (128 * m + 2 * k) 2))
         let one := fun (w : FFmt) => nk = 128 ∧ ∀ o m k, el o m k = fdec w (ofBytes (memBytes o (128 * m + k) 1))
         let blk := fun p rb n : Nat => nk = rb / n * 16 ∧ ∀ o m k, el o m k = sxDec p (ofBytes (memBytes o (rb * m + n * (k / 16)) n)) (k % 16)
         (f = .f16 ∧ two fF16) ∨ (f = .bf16 ∧ two fBf16) ∨ (f = .e4m3 ∧ one fE4m3) ∨ (f = .e5m2 ∧ one fE5m2) ∨
           (f = .sx3 ∧ blk 2 256 8) ∨ (f = .sx5 ∧ blk 4 192 12) ∨ (f = .sx8 ∧ blk 7 144 18) →
         ∀ m n, mine m → n < 128 →
           let x := el oa m
           let y := el ob n
           ((∃ k, k < nk ∧ ((x k).isNan = true ∨ (y k).isNan = true)) → (new m n).toNat = fA56.qnan) ∧
           ((∀ k, k < nk → finite (x k) ∧ finite (y k)) →
             ∃ acc : Nat → Nat, acc 0 = (old m n).toNat ∧ (new m n).toNat = acc (nk / 32) ∧ ∀ g, g < nk / 32 →
               let v := fdec fA56 (acc g)
               let sum := rat v + ((List.range 32).map fun k => rat (x (32 * g + k)) * rat (y (32 * g + k))).sum
               finite v → ∃ (neg : Bool) (fl : Nat), RoundedTo fA56 .rne false false neg sum (acc (g + 1), fl) ∧
                 (sum < 0 → neg = true) ∧ (0 < sum → neg = false) ∧
                 (sum = 0 → (neg = true ↔ v.isZero = true ∧ v.sign = true ∧ ∀ k, k < 32 → ((x (32 * g + k)).isZero = true ∨ (y (32 * g + k)).isZero = true) ∧
                   (x (32 * g + k)).sign ≠ (y (32 * g + k)).sign))))) ∧
  ((∀ (c : ClusterN) (s : State), s.mgmt.trip.contains (c.val / 32) = true → exec (.matrixJobStart c) s = .next s) ∧
   (∀ (c : ClusterN) (s : State) (pre post : List MtxJob) (j : MtxJob), s.mgmt.trip.contains (c.val / 32) = false →
     let k := s.cluster c.val
     let ae := fun j : MtxJob => ((s.task? j.owner.task).map fun t => t.ae).getD 0
     let may := fun (pre : List MtxJob) (j : MtxJob) => j.isFree = false ∧ j.st = .queued ∧
       (∀ i ∈ pre, i.isFree = false → i.owner.task ≠ j.owner.task) ∧
       (k.winTotal < k.budget ∨ 128 * k.winCharge.getD j.owner.part 0 < (s.part j.owner.part).desc.mshare * k.budget)
     k.mtxq = pre ++ j :: post → may pre j →
     (∀ pre' post' i, k.mtxq = pre' ++ i :: post' → may pre' i → ae j < ae i ∨ (ae j = ae i ∧ pre.length ≤ pre'.length)) →
     let u := s.units c.val j
     let s1 := if j.op.acquires && j.scope == .system then s.settle ((s.posted.map fun w => w.id + 1).foldl Nat.max 0) else s
     exec (.matrixJobStart c) s = .next (((s1.updTask j.owner.task fun t => { t with ae := t.ae + u }).updCluster c.val fun k =>
       { k with vacated := (k.vacated.1, k.vacated.2.1 + 1, k.vacated.2.2), winTotal := k.winTotal + u, winCharge := k.winCharge.put j.owner.part (k.winCharge.getD j.owner.part 0 + u) }).updMtx c.val j.id
         fun j => { j with st := .running 0 })) ∧
   (∀ (c : ClusterN) (s : State),
     (s.cycle % 2 ^ (s.cluster c.val).winlog = 0 → (s.cluster c.val).winAt ≠ s.cycle →
       ∃ t : State, exec (.arbiterWindowBoundary c) s = .next t ∧ (t.cluster c.val).winTotal = 0 ∧
         (t.cluster c.val).winCharge = [] ∧ (t.cluster c.val).winAt = s.cycle ∧ t.mem = s.mem ∧
         t.tasks = s.tasks.map fun k => if k.engine = some c.val then { k with ae := k.ae / 2 } else k) ∧
     (s.cycle % 2 ^ (s.cluster c.val).winlog ≠ 0 ∨ (s.cluster c.val).winAt = s.cycle → exec (.arbiterWindowBoundary c) s = .next s)) ∧
   (∀ (c : ClusterN) (id : Nat) (s : State) (j : MtxJob) (i z : Nat) (int : Bool),
     (s.cluster c.val).mtxq.find? (fun j => j.id = id) = some j → j.op = .zclear z int → j.st = .running i → 1 ≤ i → j.code = 0 →
     exec (.matrixJobComplete c id) s = .next ((s.updThr j.owner.thread fun t =>
       { t with mjobs := setDone t.mjobs id (mtxStatus { j with code := 1 } 1) s.cycle }).updCluster c.val fun k =>
         freeHeads k (k.mtxq.filter fun x => x.id != id))))

/-- 14 R260 to R266: binding and reading a segment map. The snapshot of a record that keeps its rules gives each local row the one segment whose boundaries hold
it; `rrow`, `rvseg` and `rpseg` read the map, which must be valid (else position 4), and touch no memory. The model's choices: INFO 0 of the trap of a record in the
device region (log 39), and a base past the map, from which every lane lies outside it (log 49). -/
def Obligations.RaggedMaps : Prop :=
  (∀ (x : RBind) (s s' : State) (sn : Snap),
    let a := s.rs x.a
    (a.toNat < 0xFFFF000000000 ∨ 2 ^ 52 ≤ a.toNat → a.toNat % 64 = 0 → s.snapTake a x.scope 1 = .ok sn s' →
      exec (.rbind x) s = .next (s'.wait (.rbind sn a x.map x.scope (s'.siZ x.b) (s'.siZ x.c) x.d))) ∧
    (0xFFFF000000000 ≤ a.toNat → a.toNat < 2 ^ 52 → exec (.rbind x) s = .next (s.takeTrap 0x11 a 0)) ∧
    (a.toNat < 0xFFFF000000000 ∨ 2 ^ 52 ≤ a.toNat → a.toNat % 64 ≠ 0 → exec (.rbind x) s = .next (s.takeTrap 0x13 a 0))) ∧
  (∀ (x : Snap) (sel : Bool) (o c : W64) (d : SReg) (s : State), recordOk x.header x.bounds = true → 1 ≤ c.toNat → c.toNat ≤ 128 →
    o.toNat + c.toNat ≤ field x.header 4 4 →
    ∃ m, s.bindMap x sel o c d = .ok { Result.none with
        map := some (sel, m)
        s := [(d, BitVec.ofNat 64 (field x.header 0 2 * 2 ^ 32 + field x.header 8 4))] } s ∧
      m.valid = true ∧ m.gen = BitVec.ofNat 32 (field x.header 8 4) ∧ m.rpa = x.rpa ∧ m.origin = o.toNat ∧ m.rows.length = c.toNat ∧
      ∀ i, i < c.toNat → ∃ g, m.rows[i]? = some ⟨g, x.bounds.getD g 0, x.bounds.getD (g + 1) 0⟩ ∧ g < field x.header 0 2 ∧
        x.bounds.getD g 0 ≤ o.toNat + i ∧ o.toNat + i < x.bounds.getD (g + 1) 0) ∧
  (∀ (x : RRow) (s : State), s.guardOn x.h = true →
    let m := if x.map then s.opTh.sm1 else s.opTh.sm0
    let i := (s.siZ x.a).toNat
    (m.valid = false → exec (.rrow x) s = .next (s.takeTrap 0x02 0 4)) ∧
    (m.valid = true → m.rows.length ≤ i → exec (.rrow x) s = .next (s.ws x.d (BitVec.allOnes 64))) ∧
    (∀ r, m.valid = true → m.rows[i]? = some r → exec (.rrow x) s = .next (s.ws x.d (BitVec.ofNat 64
      ((if x.fin then r.fin else r.start) + r.seg * 2 ^ 32 + (if m.origin + i = r.start then 2 ^ 62 else 0)
        + (if m.origin + i + 1 = r.fin then 2 ^ 63 else 0))))) ∧
    ∀ t, exec (.rrow x) s = .next t → t.cur.fate = s.cur.fate → OnlyRegs s t [x.d] [] [] ∧ KeepsFlags s t) ∧
  (∀ (x : RVseg) (s : State),
    let m := if x.map then s.opTh.sm1 else s.opTh.sm0
    let h := (s.siZ x.a).toNat
    (m.valid = false → exec (.rvseg x) s = .next (s.takeTrap 0x02 0 4)) ∧
    (m.valid = true → LanesDone (exec (.rvseg x) s) s (s.guard x.h) x.d fun j =>
      match m.rows[h + j]? with
      | some r => BitVec.ofNat 32 r.seg
      | none => BitVec.allOnes 32)) ∧
  (∀ (x : RPseg) (s : State),
    let m := if x.map then s.opTh.sm1 else s.opTh.sm0
    let h := (s.siZ x.a).toNat
    (m.valid = false → exec (.rpseg x) s = .next (s.takeTrap 0x02 0 4)) ∧
    (m.valid = true → ∃ t : State, exec (.rpseg x) s = .next t ∧ OnlyRegs s t [] [] [x.d] ∧ KeepsFlags s t ∧
      (s.guard x.h = 0 → t.th.regs = s.th.regs) ∧
      (x.d ≠ 0 → s.guard x.h ≠ 0 → ∀ j, j < 32 → (rdP t.th.regs x.d).getLsbD j =
        if (s.guard x.h).getLsbD j then decide (h + j < m.rows.length ∧ h < m.rows.length ∧ m.segAt (h + j) = m.segAt h)
        else (s.rp x.d).getLsbD j)))

/-- 14 R267 to R271: lane j of a ragged form stands for local row h + j. `rvld` loads the lanes of the segment of row h and leaves the others; a segmented reduction
writes each segment's tree, with the carry where the segment began before, into the segment's lanes alone; `rvnorm` divides by the sum of a segment
that lies whole in the vector; a strict form that crosses a boundary traps with cause 0x30, its lane and its segment; an invalid map fails position 4, a base
above 127 its own position. -/
def Obligations.RaggedForms : Prop :=
  (∀ (x : RVld) (s : State) (o : Nat → Nat),
    let m := if x.map then s.opTh.sm1 else s.opTh.sm0
    let h := (s.siZ x.c).toNat
    let c := s.cur.core
    let inn := fun j => h + j < m.rows.length ∧ m.segAt (h + j) = m.segAt h
    let act := fun j => (s.guard x.h).getLsbD j = true
    (m.valid = false → exec (.rvld x) s = .next (s.takeTrap 0x02 0 4)) ∧
    (m.valid = true →
    (127 < h ∨ m.rows.length ≤ h → exec (.rvld x) s = .next (s.takeTrap 0x02 0 3)) ∧
    (h ≤ 127 → h < m.rows.length → (x.strict = false ∨ ∀ j, j < 32 → act j → inn j) → (s.core c).sb = [] → s.posted = [] →
      (∀ j, j < 32 → act j → inn j → (s.rs x.a + BitVec.ofNat 64 j * s.rs x.b).toNat = 0xFFFF000000000 + o j ∧ o j < 2 ^ 32 ∧
        o j + 4 ≤ 65536 * (s.core c).sp ∧ o j % 4 = 0 ∧ (c, o j / 8) ∉ s.sramPoison) →
      ∃ t : State, exec (.rvld x) s = .next t ∧ t.cur.fate = s.cur.fate ∧ t.mem = s.mem ∧ KeepsFlags s t ∧ KeepsRegs s t [] [x.d] [] [] ∧
        ∀ j, j < 32 → (act j → inn j → lane (rdV t.th.regs x.d) j = BitVec.ofNat 32 (ofBytes (memBytes (s.core c).sram (o j) 4))) ∧
          (¬ (act j ∧ inn j) → (∃ i, i < 32 ∧ act i ∧ inn i) → lane (rdV t.th.regs x.d) j = lane (s.rv x.d) j)) ∧
    (∀ j, h ≤ 127 → h < m.rows.length → x.strict = true → j < 32 → act j → ¬ inn j → (∀ i, i < j → act i → inn i) →
      exec (.rvld x) s = .next (s.takeTrap 0x30 (s.rs x.a + BitVec.ofNat 64 j * s.rs x.b)
        (BitVec.ofNat 64 (j + 65536 * (m.segAt (h + j)).getD 0xFFF)))))) ∧
  (∀ (x : RVRed) (s : State) (o : RedOp) (i : Instr) (w : W32), (o, i) ∈ [(RedOp.sum, Instr.rvsum x), (.max, .rvmax x), (.min, .rvmin x)] →
    let m := if x.map then s.opTh.sm1 else s.opTh.sm0
    let h := (s.siZ x.b).toNat
    let carry := (s.si x.c).toNat % 2 ^ 32
    (m.valid = false → exec i s = .next (s.takeTrap 0x02 0 4)) ∧
    (m.valid = true → 127 < h → exec i s = .next (s.takeTrap 0x02 0 2)) ∧
    (m.valid = true → h ≤ 127 → (∀ j, j < 32 → (w.getLsbD j = true ↔ (s.guard x.h).getLsbD j = true ∧ h + j < m.rows.length)) →
      ElementwiseDone (exec i s) s w x.d 32 fun e =>
        let t := treeOf (redComb o x.ty) 5
          (fun j => (if w.getLsbD j = true ∧ m.segAt (h + j) = m.segAt (h + e) then (lane (s.rv x.a) j).toNat else redIdent o x.ty, 0)) 0
        if m.segAt h = m.segAt (h + e) ∧ m.isFirst h = false then redComb o x.ty (carry, 0) t else t)) ∧
  (∀ (x : RVnorm) (s : State) (act w : W32),
    let m := if x.map then s.opTh.sm1 else s.opTh.sm0
    let h := (s.siZ x.b).toNat
    let whole := fun e => (∃ j, j < 32 ∧ m.segAt (h + j) = m.segAt (h + e) ∧ m.isFirst (h + j) = true) ∧
      ∃ j, j < 32 ∧ m.segAt (h + j) = m.segAt (h + e) ∧ m.isLast (h + j) = true
    (m.valid = false → exec (.rvnorm x) s = .next (s.takeTrap 0x02 0 4)) ∧
    (m.valid = true → 127 < h → exec (.rvnorm x) s = .next (s.takeTrap 0x02 0 2)) ∧
    (m.valid = true → h ≤ 127 → (∀ j, j < 32 → (act.getLsbD j = true ↔ (s.guard x.h).getLsbD j = true ∧ h + j < m.rows.length)) →
    (∀ j, j < 32 → (w.getLsbD j = true ↔ act.getLsbD j = true ∧ whole j)) →
    (x.strict = false ∨ w = act →
      ElementwiseDone (exec (.rvnorm x) s) s w x.d 32 fun e =>
        let t := treeOf (redComb .sum (.f32 x.rm)) 5
          (fun j => (if act.getLsbD j = true ∧ m.segAt (h + j) = m.segAt (h + e) then (lane (s.rv x.a) j).toNat else 0x80000000, 0)) 0
        let q := fnDiv x.rm (lane (s.rv x.a) e).toNat t.1
        (q.1, t.2 ||| q.2)) ∧
    (∀ j, x.strict = true → j < 32 → act.getLsbD j = true → w.getLsbD j = false → (∀ i, i < j → act.getLsbD i = true → w.getLsbD i = true) →
      exec (.rvnorm x) s = .next (s.takeTrap 0x30 0 (BitVec.ofNat 64 (j + 65536 * (m.segAt (h + j)).getD 0xFFF))))))

/-- 16 R303, R306, R308, R319, 15 R281, 08 R148: issue of atomics, `casv`, `dsignal` and memory-side reductions. A checked operation waits for its point of coherence, behind a release entry
where its order releases, and after the posted writes that an acquire of its thread waits for; a reduction needs a memory-side page (else cause 0x11, TRAPINFO 16; the
model's choice, log 42: read and write permission), puts one entry with its tag into the store buffer, advances ESN and goes on. A misaligned address traps with cause
0x13; `dsignal` looks at a misaligned A, then at B, then at its page (the model's order, log 76); guarded off, none has an effect. -/
def Obligations.AtomicsIssue : Prop :=
  (∀ (x : Atom) (s : State) (op : AOp) (i : Instr), s.guardOn x.h = true →
    (op, i) ∈ [(AOp.add, Instr.aadd x), (.and, .aand x), (.or, .aor x), (.xor, .axor x), (.min, .amin x), (.max, .amax x),
      (.swap, .aswap x), (.cas, .acas x)] →
    HandsOver i s (s.addr x.m) (width x.ty / 8) .both (x.ord == .rel || x.ord == .acqrel) x.scope fun s' p =>
      let a := s.addr x.m
      ⟨.atomic op (s'.rs x.d) (s'.rs x.c), x.ty, a, p.at a.toNat a.toNat, p.mside, x.d,
        if x.ord = .acq ∨ x.ord = .acqrel then some x.scope else none, false⟩) ∧
  (∀ (x : AtomF) (s : State), s.guardOn x.h = true →
    HandsOver (.afadd x) s (s.addr x.m) 4 .both (x.ord == .rel || x.ord == .acqrel) x.scope fun s' p =>
      let a := s.addr x.m
      ⟨.atomic .fadd (s'.rs x.d) (s'.rs x.c), .n32, a, p.at a.toNat a.toNat, p.mside, x.d,
        if x.ord = .acq ∨ x.ord = .acqrel then some x.scope else none, false⟩) ∧
  (∀ (x : CasvA) (s : State), s.guardOn x.h = true →
    HandsOver (.casv x) s (s.rs x.a) (width x.ty / 8) .both (x.ord == .rel || x.ord == .acqrel) x.scope fun s' p =>
      let a := s.rs x.a
      ⟨.casv ((s'.rs x.d).setWidth 32) (s'.rs x.b) (s'.rs x.c), x.ty, a, p.at a.toNat a.toNat, p.mside, x.d,
        if x.ord = .acq ∨ x.ord = .acqrel then some x.scope else none, false⟩) ∧
  (∀ (x : DSig) (s : State), s.guardOn x.h = true →
    let a := s.rs x.a
    (∀ (s' : State) (e : Byte) (b i : W64), s.access s.agent a 16 .store true = .trap s' e b i → a.toNat % 16 ≠ 0 ∨ (s.rs x.b).toNat < 2 ^ 48 →
      exec (.dsignal x) s = .next (s'.takeTrap e b i)) ∧
    (∀ (s' : State) (p : Place), s.access s.agent a 16 .store true = .ok p s' → a.toNat % 16 ≠ 0 → exec (.dsignal x) s = .next (s'.takeTrap 0x13 a 0)) ∧
    (a.toNat % 16 = 0 → 2 ^ 48 ≤ (s.rs x.b).toNat → exec (.dsignal x) s = .next (s.takeTrap 0x02 0 2)) ∧
    (a.toNat % 16 = 0 → (s.rs x.b).toNat < 2 ^ 48 →
      ∀ (s' g : State) (p : Place), s.access s.agent a 16 .store true = .ok p s' → s'.phaseGate true = .ok () g →
        let u := g.settleTh
        u.myCore.sb.length < 32 →
        ∃ (t : State) (e : Entry), exec (.dsignal x) s = .next t ∧ (t.core u.cur.core).sb = u.myCore.sb ++ [e] ∧ e.rel = true ∧ e.scope = .system ∧
          t.stageOf u.me = some (.coh ⟨.signal (s'.rs x.b) x.irq, .n64, a, p.at a.toNat a.toNat, p.mside, 0, none, false⟩ (some e.id)))) ∧
  (∀ (x : MRed) (s s' : State) (p : Place) (op : AOp) (i : Instr), s.guardOn x.h = true →
    (op, i) ∈ [(AOp.add, Instr.mradd x), (.and, .mrand x), (.or, .mror x), (.xor, .mrxor x), (.min, .mrmin x), (.max, .mrmax x)] →
    let a := s.addr x.m
    let n := width x.ty / 8
    s.access s.agent a n .both true = .ok p s' →
    (p.mside = false → exec i s = .next (s'.takeTrap 0x11 a 16)) ∧
    (p.mside = true → a.toNat % n ≠ 0 → exec i s = .next (s'.takeTrap 0x13 a 0)) ∧
    (p.mside = true → a.toNat % n = 0 → s'.phaseGate true = .ok () s' → s'.myCore.sb.length < 32 →
      ∃ (t : State) (e : Entry), exec i s = .next t ∧ (t.core s'.cur.core).sb = s'.myCore.sb ++ [e] ∧ e.red = some (op, x.ty, s'.rs x.c) ∧ e.mside = true ∧
        e.rel = x.rel ∧ e.scope = x.scope ∧ e.tag = some ((s'.myPart, (s'.tagOf s'.me).1, (s'.tagOf s'.me).2), s'.th.esn) ∧
        e.cells.map (fun c => c.pa) = (List.range n).map (fun k => p.at a.toNat (a.toNat + k)) ∧
        t.th.esn = s'.th.esn + 1 ∧ t.th.pend = s'.th.pend ∧ t.th.regs = s'.th.regs ∧ KeepsMem s' t ∧ KeepsFlags s' t)) ∧
  (∀ (x : MRedF) (s s' : State) (p : Place), s.guardOn x.h = true →
    let a := s.addr x.m
    s.access s.agent a 4 .both true = .ok p s' → p.mside = true → a.toNat % 4 = 0 → s'.phaseGate true = .ok () s' →
    s'.myCore.sb.length < 32 →
    ∃ (t : State) (e : Entry), exec (.mrfadd x) s = .next t ∧ (t.core s'.cur.core).sb = s'.myCore.sb ++ [e] ∧ e.red = some (.fadd, .n32, s'.rs x.c) ∧
      t.th.esn = s'.th.esn + 1 ∧ t.th.regs = s'.th.regs) ∧
  (∀ (x : Atom) (y : AtomF) (z : MRed) (r : MRedF) (c : CasvA) (g : DSig) (s : State), s.guardOn x.h = false → s.guardOn y.h = false →
    s.guardOn z.h = false → s.guardOn r.h = false → s.guardOn c.h = false → s.guardOn g.h = false → ∀ i, i ∈ [Instr.aadd x, .aand x, .aor x, .axor x, .amin x, .amax x, .aswap x, .acas x, .afadd y, .mradd z, .mrand z,
      .mror z, .mrxor z, .mrmin z, .mrmax z, .mrfadd r, .casv c, .dsignal g] → exec i s = .next s)

/-- 16 R300 to R304, R308, R319, 10 R193, 15 R277, 22 R379: what an operation does at its point of coherence, in one move: it reads the bytes there, writes its result (a compare that does
not match writes nothing), counts the line's version once for a write, gives its destination its value, advances ESN, and drops the L1 copies of the
cluster. A tag performed before is not performed again: the stored result returns and no byte changes. A `stcv` and a
`dsignal` read no byte, and a poisoned word does not stop them (22 R379). A signal is the nanoseconds and the seconds of PTP time at that moment, then B[47:0], in 16 bytes; with IRQ its queue's
message follows where the queue has interrupts enabled. -/
def Obligations.PointOfCoherence : Prop :=
  ∀ (t : ThreadId) (s : State) (o : CohOp) (rel : Option Nat), s.stageOf t = some (.coh o rel) →
    let n := match o.kind with | .signal _ _ => 16 | _ => width o.ty / 8
    let ln := o.pa / 128
    let old := ofBytes (memBytes s.mem o.pa n)
    let r0 := narrow o.ty (BitVec.ofNat 64 old)
    let ver := s.version ln o.mside
    let reads := match o.kind with | .signal _ _ | .stcv _ _ => false | _ => true
    o.pa % n = 0 → o.pa + n ≤ 0x9FFFF00000 → s.shingleFor t = none → (reads = true → ∀ k, k < n → (o.pa + k) / 8 ∉ s.poison) →
    s.lineClear t ln = true → (∀ id, rel = some id → ∀ e ∈ (s.core t.core).sb, e.id ≠ id) →
    ∃ u : State, exec (.coherencePointOperation t) s = .next u ∧ u.stageOf t = none ∧ (u.thr t).wake = some s.cycle ∧
      (∀ a, a < o.pa ∨ o.pa + n ≤ a → memByte u.mem a = memByte s.mem a) ∧ (∀ l m, ¬ (l = ln ∧ m = o.mside) → u.version l m = s.version l m) ∧
      (∀ c, c / 8 = t.core / 8 → ∀ e ∈ (u.core c).l1, e.line ≠ ln) ∧
      let wrote := fun v : Nat => ofBytes (memBytes u.mem o.pa n) = v ∧ u.version ln o.mside = ver + 1
      let kept := u.mem = s.mem ∧ u.version ln o.mside = ver
      let gives := fun v : W64 => (o.d ≠ 0 → rdS (u.thr t).regs o.d = v) ∧ (u.thr t).esn = (s.thr t).esn + 1 ∧
        ∀ r, r ≠ o.d → rdS (u.thr t).regs r = rdS (s.thr t).regs r
      match o.kind with
      | .ldv track c => kept ∧ (u.thr t).esn = (s.thr t).esn ∧ (c ≠ o.d → o.d ≠ 0 → rdS (u.thr t).regs o.d = r0) ∧
          (c ≠ 0 → rdS (u.thr t).regs c = ver.setWidth 64) ∧
          (track = true → (∃ e ∈ (u.thr t).valset.entries, e.1 = verKey ln o.mside) ∨ (u.thr t).valset.ovf = true)
      | .stcv e v =>
          (∀ r, s.effect t (.line ln) = some r → kept ∧ gives r) ∧
          (s.effect t (.line ln) = none →
            (ver = e → wrote (v.toNat % 2 ^ width o.ty) ∧ gives (BitVec.ofNat 64 (2 ^ 32 + (ver + 1).toNat))) ∧
            (ver ≠ e → kept ∧ gives (ver.setWidth 64)))
      | .atomic op cmp v =>
          (∀ r, s.effect t (.line ln) = some r → kept ∧ gives r) ∧
          (s.effect t (.line ln) = none → gives r0 ∧
            match op with
            | .add => wrote ((old + v.toNat) % 2 ^ width o.ty)
            | .and => wrote ((old &&& v.toNat) % 2 ^ width o.ty)
            | .or => wrote ((old ||| v.toNat) % 2 ^ width o.ty)
            | .xor => wrote ((old ^^^ v.toNat) % 2 ^ width o.ty)
            | .min => wrote (if value o.ty r0 ≤ value o.ty v then old else v.toNat % 2 ^ width o.ty)
            | .max => wrote (if value o.ty r0 ≤ value o.ty v then v.toNat % 2 ^ width o.ty else old)
            | .swap => wrote (v.toNat % 2 ^ width o.ty)
            | .cas => (old = cmp.toNat % 2 ^ width o.ty → wrote (v.toNat % 2 ^ width o.ty)) ∧ (old ≠ cmp.toNat % 2 ^ width o.ty → kept)
            | .fadd => o.ty = .n32 → wrote ((felem .add fF32 .rne false false old (v.toNat % 2 ^ 32) 0).1 % 2 ^ 32))
      | .casv e x v =>
        (∀ r, s.effect t (.line ln) = some r → kept ∧ gives r) ∧
        (s.effect t (.line ln) = none →
          let vm := ver = e
          let xm := old = x.toNat % 2 ^ width o.ty
          (vm → xm → wrote (v.toNat % 2 ^ width o.ty) ∧ gives (BitVec.ofNat 64 (7 * 2 ^ 32 + (ver + 1).toNat))) ∧
          (vm → ¬ xm → kept ∧ gives (BitVec.ofNat 64 (2 * 2 ^ 32 + ver.toNat))) ∧
          (¬ vm → xm → kept ∧ gives (BitVec.ofNat 64 (4 * 2 ^ 32 + ver.toNat))) ∧
          (¬ vm → ¬ xm → kept ∧ gives (ver.setWidth 64)))
      | .signal v irq =>
        (∀ r, s.effect t (.line ln) = some r → kept ∧ u.out = s.out ∧ (u.thr t).esn = (s.thr t).esn + 1) ∧
        (s.effect t (.line ln) = none →
          ofBytes (memBytes u.mem o.pa 4) = s.ptp / ptpUnit % 10 ^ 9 ∧ ofBytes (memBytes u.mem (o.pa + 4) 6) = s.ptp / ptpUnit / 10 ^ 9 % 2 ^ 48 ∧
            ofBytes (memBytes u.mem (o.pa + 10) 6) = v.toNat % 2 ^ 48 ∧ u.version ln o.mside = ver + 1 ∧ (u.thr t).esn = (s.thr t).esn + 1 ∧
            (irq = false → u.out = s.out) ∧
            ∀ l : Launch, irq = true → ((s.servedOf t).bind fun k => s.launch? k.part k.lid) = some l →
              u.out = s.out ++ if ((s.part l.part).queue l.qid).irqen then [.msix l.part ((s.part l.part).queue l.qid).msix] else [])

/-- 16 R309, R310, 15 R281, R282, 06 R110: `waitv` ends at once where the line's version differs from B (bit 32 set) and else waits; its timeout gives the version
with bit 32 clear. `fence.acq` drops the L1 copies its scope needs; `fence.rel` and `fence.full` put a release entry into the store buffer, and `fence.full` waits
for it. Data that arrives is written into its register and ends the wait. -/
def Obligations.WaitsAndFences : Prop :=
  (∀ (x : WaitvA) (s s' : State) (p : Place), s.guardOn x.h = true →
    let a := s.rs x.a
    let pa := p.at a.toNat a.toNat
    s.access s.agent a 1 .load true = .ok p s' → s'.phaseGate true = .ok () s' →
    let u := s'.settleTh
    let v := (s'.rs x.b).setWidth 32
    let limit := (s'.si x.c).toNat % 2 ^ 32
    (u.version (pa / 128) p.mside ≠ v →
      ∃ t : State, exec (.waitv x) s = .next t ∧ (x.d ≠ 0 → rdS t.th.regs x.d = BitVec.ofNat 64 (2 ^ 32 + (u.version (pa / 128) p.mside).toNat)) ∧
        KeepsRegs u t [x.d] [] [] [] ∧ KeepsMem u t ∧ t.stageOf u.me = u.stageOf u.me ∧ (x.scope ≠ .core → (t.core u.cur.core).l1 = [])) ∧
    (u.version (pa / 128) p.mside = v → exec (.waitv x) s = .next ((u.versionRead (verKey (pa / 128) p.mside)).wait (.waitv u.cycle a pa p.mside v x.scope limit x.d)))) ∧
  (∀ (t : ThreadId) (s : State) (since pa limit : Nat) (a : W64) (ms : Bool) (v : W32) (sc : Scope) (d : SReg),
    s.stageOf t = some (.waitv since a pa ms v sc limit d) →
    (1 ≤ limit → since + limit ≤ s.cycle → s.version (pa / 128) ms = v →
      ∃ u : State, exec (.waitvTimeout t) s = .next u ∧ u.stageOf t = none ∧ (d ≠ 0 → rdS (u.thr t).regs d = v.setWidth 64) ∧ u.mem = s.mem) ∧
    (limit = 0 ∨ s.cycle < since + limit → exec (.waitvTimeout t) s = .next s)) ∧
  (∀ (s : State) (since pa limit : Nat) (a : W64) (ms : Bool) (v : W32) (sc : Scope) (d : SReg),
    s.stageOf s.me = some (.waitv since a pa ms v sc limit d) →
    let seen := s.versionStart (pa / 128) ms
    (seen = v → limit = 0 ∨ s.cycle < since + limit → s.pollThread = .wait (s.versionRead (verKey (pa / 128) ms))) ∧
    (seen = v → 1 ≤ limit → since + limit ≤ s.cycle → ∃ u : State, s.pollThread = .go u ∧ u.stageOf s.me = none ∧ (d ≠ 0 → rdS u.th.regs d = v.setWidth 64)) ∧
    (seen ≠ v → ∃ u : State, s.pollThread = .go u ∧ u.stageOf s.me = none ∧
      (d ≠ 0 → rdS u.th.regs d = BitVec.ofNat 64 (2 ^ 32 + (s.version (pa / 128) ms).toNat)) ∧ (sc ≠ .core → (u.core s.cur.core).l1 = []))) ∧
  (∀ (x : FenceA) (s : State), s.guardOn x.h = true →
    (x.kind = .acq → ∃ t : State, exec (.fence x) s = .next t ∧ t.th.regs = s.th.regs ∧ KeepsMem s t ∧ t.th.pend = s.th.pend ∧
      (x.scope ≠ .core → (t.core s.cur.core).l1 = [])) ∧
    (x.kind ≠ .acq → s.myCore.sb.length < 32 →
      ∃ (t : State) (e : Entry), exec (.fence x) s = .next t ∧ (t.core s.cur.core).sb = s.myCore.sb ++ [e] ∧ e.rel = true ∧ e.cells = [] ∧ e.scope = x.scope ∧
        (∀ y ∈ s.myCore.sb, y.id ∈ e.captured) ∧ t.th.regs = s.th.regs ∧ KeepsMem s t ∧
        (t.stageOf s.me = if x.kind = .full ∧ x.scope ≠ .core then some (.fence e.id x.scope) else s.stageOf s.me)) ∧
    (x.kind ≠ .acq → 32 ≤ s.myCore.sb.length → exec (.fence x) s = .next { s with cur := { s.cur with fate := .passed } })) ∧
  (∀ (t : ThreadId) (s : State) (r : Result) (d : SReg) (v : W64), s.stageOf t = some (.data r) → r.s = [(d, v)] → r.v = [] → r.p = [] →
    ∃ u : State, exec (.loadDataArrival t) s = .next u ∧ u.stageOf t = none ∧ (u.thr t).wake = some s.cycle ∧ (d ≠ 0 → rdS (u.thr t).regs d = v) ∧
      (∀ n, n ≠ d → rdS (u.thr t).regs n = rdS (s.thr t).regs n) ∧ (u.thr t).sticky = (s.thr t).sticky ||| r.sticky ∧ u.mem = s.mem ∧
      ∀ w, w ≠ t → (u.thr w).regs = (s.thr w).regs) ∧
  (∀ (x : WaitvA) (y : FenceA) (s : State), s.guardOn x.h = false → s.guardOn y.h = false →
    exec (.waitv x) s = .next s ∧ exec (.fence y) s = .next s)

/-- 16 R311 to R318: barriers, phases, inboxes and device-side launch. An arrival checks its control word (position 1) and a count against the one waited for (TRAPINFO
0x101), releases, then counts; the barrier completes when every arrival and every pending tile is in; `bararv` gives D the GEN of the arrival at once; `barwait` passes
until GEN has moved in an earlier cycle, and acquires. `phadv` arrives once its release has reached DEVICE, PHASE advances by one when every thread of the task has arrived or ended,
and D is the new PHASE; it fails at the last phase, `phwait` passes while RIDGE was below its threshold as the cycle began. `ibsend` refuses bits [63:35] and appends to the inbox of the member that bits [34:32] name
of the task that bits [31:0] name, with status 1, or delivers nothing: 0 full, 2 not resident, 3 no such member or retired; `ibrecv` takes the oldest value that
arrived in an earlier cycle and acquires, `ibpoll` counts them. `dlaunch` releases at SYSTEM, and then checks and reads its packet before the queue is asked for room; the thread that waits
gets REASON and LID as the packet is accepted. The model's
choices: the D and the ESN of `barsync` as its wait ends, not in the cycle that counts it (log 85); a cycle's turns come one after another (log 17); a replayed `ibsend` finds the status that the first one got (log 48). -/
def Obligations.BarriersAndInboxes : Prop :=
  let acquired := fun (s t : State) (sc : Scope) => (sc ≠ .core → (t.core s.cur.core).l1 = []) ∧ (sc = .system → ∀ w ∈ s.posted, w.id < t.th.settle)
  (∀ (x : BarA) (s : State) (sync : Bool) (i : Instr), (sync, i) ∈ [(true, Instr.barsync x), (false, .bararv x)] →
    let c := s.si x.a
    let id := c.toNat % 4
    let n := c.toNat / 2 ^ 8 % 64
    let ok := c.toNat % 2 ^ 8 / 4 = 0 ∧ c.toNat / 2 ^ 14 % 4 = 0 ∧ c.toNat / 2 ^ 32 = 0 ∧ 1 ≤ n ∧ n ≤ 56 ∧
      ∀ k, k < 16 → c.getLsbD (16 + k) = true → (s.tile k).size ≠ 0
    let b := s.barrierOf s.me id
    (¬ ok → exec i s = .next (s.takeTrap 0x02 0 1)) ∧
    (ok → s.effect s.me .barriers = none → b.need ≠ 0 → b.need ≠ n → exec i s = .next (s.takeTrap 0x02 0 0x101)) ∧
    (ok → s.effect s.me .barriers = none → (b.need = 0 ∨ b.need = n) → s.myCore.sb.length < 32 →
      ∃ (t : State) (e : Entry), exec i s = .next t ∧ (t.core s.cur.core).sb = s.myCore.sb ++ [e] ∧ e.rel = true ∧ e.scope = x.scope ∧
        t.stageOf s.me = some (.barRel e.id sync x.scope c x.d) ∧ t.th.regs = s.th.regs) ∧
    (∀ r, ok → s.stageOf s.me = some (.barRel r sync x.scope c x.d) → s.relDone s.cur.core r x.scope = false → s.pollThread = .wait s) ∧
    (∀ r, ok → (b.need = 0 ∨ b.need = n) → (s.myTask).isSome = true → s.stageOf s.me = some (.barRel r sync x.scope c x.d) →
      s.relDone s.cur.core r x.scope = true →
      ∃ (t : State) (b' : Barrier), s.pollThread = .used t ∧ b' = ⟨b.gen, n, b.count + 1, b'.pending, b.last⟩ ∧
        (sync = true → t.stageOf s.me = some (.barWait id b.gen x.scope x.d) ∧ t.th = { s.th with pend := t.th.pend }) ∧
        (sync = false → t.stageOf s.me = none ∧ (x.d ≠ 0 → rdS t.th.regs x.d = b.gen.setWidth 64) ∧ t.th.esn = s.th.esn + 1) ∧
        (∀ k, k < 16 → c.getLsbD (16 + k) = true → (s.myCore.bidx, k) ∈ b'.pending) ∧ (∀ e ∈ b.pending, e ∈ b'.pending) ∧
        ∀ y, s.myTask = some y → t.barrierOf s.me id = if b'.full y s.tileStart then b'.complete s.cycle else b')) ∧
  (∀ (s : State) (id : Nat) (g : W32) (sc : Scope) (d : SReg), s.stageOf s.me = some (.barWait id g sc d) →
    let b := s.barrierOf s.me id
    let g0 := match b.last with | some (k, old) => if k = s.cycle then old else b.gen | none => b.gen
    (g0 = g → s.pollThread = .wait s) ∧
    (g0 ≠ g → ∃ t : State, s.pollThread = .go t ∧ t.stageOf s.me = none ∧ (d ≠ 0 → rdS t.th.regs d = g.setWidth 64) ∧ t.th.esn = s.th.esn + 1 ∧
      (sc ≠ .core → (t.core s.cur.core).l1 = []))) ∧
  (∀ (x : BarW) (s : State),
    let c := (s.si x.a).toNat
    let g := (s.si x.b).setWidth 32
    let b := s.barrierOf s.me c
    (4 ≤ c → exec (.barwait x) s = .next (s.takeTrap 0x02 0 1)) ∧
    let g0 := match b.last with | some (k, old) => if k = s.cycle then old else b.gen | none => b.gen
    (c < 4 → g0 ≠ g → ∃ t : State, exec (.barwait x) s = .next t ∧ (x.d ≠ 0 → rdS t.th.regs x.d = g0.setWidth 64) ∧
      KeepsRegs s t [x.d] [] [] [] ∧ KeepsMem s t ∧ KeepsFlags s t ∧ acquired s t x.scope) ∧
    (c < 4 → g0 = g → Waits (exec (.barwait x) s) s)) ∧
  (∀ (k : TaskId) (bar : Fin 4) (s : State) (x : Task), s.task? k = some x →
    let b := x.barriers.getD bar.val .reset
    (b.need ≠ 0 → b.count = b.need → (∀ p ∈ b.pending, ∃ c, x.coreAt p.1 = some c ∧ s.tileStart c p.2 = .ready) →
      ∃ t : State, exec (.barrierComplete k bar) s = .next t ∧ t.mem = s.mem ∧ t.cores = s.cores ∧
        ((t.task? k).map fun y => y.barriers.getD bar.val .reset) = some ⟨b.gen + 1, 0, 0, [], some (s.cycle, b.gen0 s.cycle)⟩) ∧
    (b.need = 0 ∨ b.count ≠ b.need → exec (.barrierComplete k bar) s = .next s)) ∧
  (∀ (x : DOnly) (y : DSI) (s : State) (t : Task) (l : Launch), s.myTask = some t → s.launchOf t = some l →
    let w := (s.si y.a).setWidth 32
    (t.phase = 0xFFFFFFFE → exec (.phadv x) s = .next (s.takeTrap 0x02 0 0)) ∧
    (t.phase ≠ 0xFFFFFFFE → s.effect s.me .barriers = none → s.myCore.sb.length < 32 →
      ∃ (u : State) (e : Entry), exec (.phadv x) s = .next u ∧ (u.core s.cur.core).sb = s.myCore.sb ++ [e] ∧ e.rel = true ∧ e.scope = .device ∧
        u.stageOf s.me = some (.phRel e.id x.d)) ∧
    (t.phase < w → exec (.phwait y) s = .next (s.takeTrap 0x02 0 1)) ∧
    (w ≤ t.phase → w ≤ l.ridge0 → ∃ u : State, exec (.phwait y) s = .next u ∧ (y.d ≠ 0 → rdS u.th.regs y.d = l.ridge.setWidth 64) ∧
      KeepsRegs s u [y.d] [] [] [] ∧ KeepsMem s u ∧ (u.core s.cur.core).l1 = []) ∧
    (w ≤ t.phase → l.ridge0 < w → Waits (exec (.phwait y) s) (s.updTh fun k => { k with ridgeWait := true }))) ∧
  (∀ (s : State) (t : Task) (r : Nat) (d : SReg), s.myTask = some t → s.stageOf s.me = some (.phRel r d) →
    (s.relDone s.cur.core r .device = false → s.pollThread = .wait s) ∧
    (s.relDone s.cur.core r .device = true →
      ∃ (u : State) (t' : Task), s.pollThread = .used u ∧ u.stageOf s.me = some (.phWait t.phase d) ∧ u.myTask = some t' ∧ t'.phase = t.phase ∧
        (s.myCore.bidx, s.cur.slot) ∈ t'.arrived ∧ ∀ e ∈ t.arrived, e ∈ t'.arrived)) ∧
  (∀ (s : State) (t : Task), s.allArrived t = true ↔ ∃ cl b0 l, t.place = .resident cl b0 ∧ s.launchOf t = some l ∧
    ∀ b, b < l.kernel.block → ∀ e ∈ (s.core (8 * cl + b0 + b)).threads,
      e.1 = 7 ∨ e.2.status = .empty ∨ e.2.status = .ended ∨ ((s.core (8 * cl + b0 + b)).bidx, e.1) ∈ t.arrived) ∧
  (∀ (s : State) (t : Task), s.tasks.Pairwise (fun x y => x.id ≠ y.id) → t ∈ s.tasks →
    (t.arrived ≠ [] → s.allArrived t = true → ((s.phaseTick).task? t.id).map (fun x => (x.phase, x.arrived)) = some (t.phase + 1, [])) ∧
    (t.arrived = [] ∨ s.allArrived t = false → (s.phaseTick).task? t.id = some t)) ∧
  (∀ (s : State) (t : Task) (ph : W32) (d : SReg), s.myTask = some t → s.stageOf s.me = some (.phWait ph d) →
    (t.phase = ph → s.pollThread = .wait s) ∧
    (t.phase ≠ ph → ∃ u : State, s.pollThread = .go u ∧ u.stageOf s.me = none ∧ (d ≠ 0 → rdS u.th.regs d = (ph + 1).setWidth 64) ∧
      u.th.esn = s.th.esn + 1)) ∧
  (∀ (x : IbS) (s : State), s.guardOn x.h = true →
    (2 ^ 35 ≤ (s.rs x.a).toNat → exec (.ibsend x) s = .next (s.takeTrap 0x02 0 1)) ∧
    ((s.rs x.a).toNat < 2 ^ 35 → s.myCore.sb.length < 32 →
      ∃ (t : State) (e : Entry), exec (.ibsend x) s = .next t ∧ (t.core s.cur.core).sb = s.myCore.sb ++ [e] ∧ e.rel = true ∧ e.scope = x.scope ∧
        t.stageOf s.me = some (.ibRel e.id x.scope (s.rs x.a) (s.si x.b) x.d))) ∧
  (∀ (s : State) (dest v : W64) (l : Launch), s.myLaunch = some l →
    let b := dest.toNat / 2 ^ 32 % 8
    let i := dest.toNat % 2 ^ 32
    let id : TaskId := ⟨l.part, l.lid, i⟩
    let known := l.first ≤ i ∧ i < l.last ∧ b < l.kernel.block
    (¬ known ∨ s.placeOf id = some .retired → s.inboxSend dest v = (s, 3)) ∧
    (known → s.placeOf id ≠ some .retired → (∀ cl b0, s.placeOf id ≠ some (.resident cl b0)) → s.inboxSend dest v = (s, 2)) ∧
    (∀ cl b0, known → s.placeOf id = some (.resident cl b0) →
      let c := 8 * cl + b0 + b
      (32 ≤ (s.core c).inbox.length → s.inboxSend dest v = (s, 0)) ∧
      ((s.core c).inbox.length < 32 → ∃ s' : State, s.inboxSend dest v = (s', 1) ∧ (s'.core c).inbox = (s.core c).inbox ++ [(s.cycle, v)] ∧
        (∀ k, k ≠ c → s'.core k = s.core k) ∧ s'.mem = s.mem ∧ s'.tasks = s.tasks))) ∧
  (∀ (s : State) (dest v : W64), s.myLaunch = none → s.inboxSend dest v = (s, 3)) ∧
  (∀ (s : State) (r : Nat) (sc : Scope) (dest v : W64) (d : SReg), s.stageOf s.me = some (.ibRel r sc dest v d) →
    (s.relDone s.cur.core r sc = false → s.pollThread = .wait s) ∧
    (s.relDone s.cur.core r sc = true → s.inboxEffect s.me = none →
      let x := s.inboxSend dest v
      ∃ t : State, s.pollThread = .used t ∧ t.stageOf s.me = none ∧ (d ≠ 0 → rdS t.th.regs d = x.2) ∧ t.th.esn = s.th.esn + 1 ∧
        (∀ c, (t.core c).inbox = (x.1.core c).inbox)) ∧
    (∀ st, s.relDone s.cur.core r sc = true → s.inboxEffect s.me = some st →
      ∃ t : State, s.pollThread = .used t ∧ t.stageOf s.me = none ∧ (d ≠ 0 → rdS t.th.regs d = st) ∧ t.th.esn = s.th.esn + 1 ∧
        (∀ c, (t.core c).inbox = (s.core c).inbox))) ∧
  (∀ (x : IbR) (s : State), s.guardOn x.h = true → s.inboxEffect s.me = none →
    (∀ k v r, s.myCore.inbox = (k, v) :: r → k < s.cycle →
      ∃ t : State, exec (.ibrecv x) s = .next t ∧ (x.d ≠ 0 → rdS t.th.regs x.d = v) ∧ (t.core s.cur.core).inbox = r ∧
        t.th.esn = s.th.esn + 1 ∧ KeepsRegs s t [x.d] [] [] [] ∧ KeepsMem s t ∧ acquired s t x.scope) ∧
    ((∀ e ∈ s.myCore.inbox, s.cycle ≤ e.1) → exec (.ibrecv x) s = .next { s with cur := { s.cur with fate := .passed } })) ∧
  (∀ (x : DOnly) (s : State), s.guardOn x.h = true →
    exec (.ibpoll x) s = .next (s.ws x.d (BitVec.ofNat 64 (s.myCore.inbox.countP fun e => e.1 < s.cycle)))) ∧
  (∀ (x : DA) (s : State), s.guardOn x.h = true → s.myCore.sb.length < 32 →
    ∃ (t : State) (e : Entry), exec (.dlaunch x) s = .next t ∧ (t.core s.cur.core).sb = s.myCore.sb ++ [e] ∧ e.rel = true ∧ e.scope = .system ∧
      t.stageOf s.me = some (.dlRel e.id (s.rs x.a) x.d)) ∧
  (∀ (s s' : State) (r : Nat) (a x i : W64) (e : Byte) (d : SReg), s.relDone s.cur.core r .system = true → s.effect s.me .command = none →
    (∀ k ∈ (s.part s.myPart).dq, k.isOf (s.tagOf s.me) s.cur.slot s.th.esn = false) →
    s.accessAligned s.agent a 128 64 .load false = .trap s' e x i → s.pollDlRel r a d = .used (s'.trapPend s'.me e x i)) ∧
  (∀ (s : State) (w : VWord) (d : SReg), (s.stageOf s.me).isSome = true →
    let q := (s.part s.myPart).dq
    (64 ≤ q.length → s.pollDlFull w d = .wait (s.setStage s.me (.dlFull w d))) ∧
    (q.length < 64 → ∃ t : State, s.pollDlFull w d = .used t ∧ t.stageOf s.me = some (.dlWait d) ∧
      (t.part s.myPart).dq = q ++ [⟨w, s.servedTask.getD ⟨s.myPart, 0, 0⟩, s.tagOf s.me, s.cur.slot, s.th.esn⟩])) ∧
  (∀ (h : Option VWord) (s : State) (p : Nat) (k : DevPacket) (r : List DevPacket), s.nextSource = some (p, 64) → (s.part p).dq = k :: r →
    let asks := fun w : ThreadId => w.slot = k.slot ∧ s.partOf w.core w.slot = p ∧ s.tagOf w = k.tag ∧ (s.thr w).esn = k.esn ∧
      ∃ d, s.stageOf w = some (.dlWait d)
    ∃ (t : State) (l : Launch), exec (.acceptPacket h) s = .next t ∧ l ∈ t.launches ∧ l.part = p ∧ l.lid = (s.part p).nextLid ∧ (t.part p).dq = r ∧
      (∀ (w : ThreadId) (d : SReg), asks w → (∀ v, asks v → v = w) → s.stageOf w = some (.dlWait d) →
        t.stageOf w = none ∧ (d ≠ 0 → rdS (t.thr w).regs d = BitVec.ofNat 64 (l.reason * 2 ^ 32 + l.lid)) ∧ (t.thr w).esn = (s.thr w).esn + 1) ∧
      ((∀ w, ¬ asks w) → ∀ w, (t.thr w).regs = (s.thr w).regs))

/-- 18 R331 to R334: the message instructions. A control word with bits outside its fields, a peer outside the group, a profile that is not valid and a length out of range trap with
their reason. A send takes a handle and the next MSEQ of its destination and channel and enters the outbound unit, its source tile DRAINING; a post takes a handle and waits to be
matched; `msgtest` and `msgwait` (in a cycle after the end) report a handle's status, 5 for one not readable, and `msgwait` traps after it has reported CODE 2; `msgcancel`
takes an unmatched post back. The reason of a length of 0 is the model's choice (log 33). -/
def Obligations.MessageInstructions : Prop :=
  (∀ (x : MSend) (s : State) (l : Launch) (g : Group), s.guardOn x.h = true → s.effect s.me .fabric = none → s.myLaunch = some l →
    l.group = some g →
    let c := (s.rs x.b).toNat
    let peer := c % 2 ^ 9
    let chan := c / 2 ^ 16 % 2 ^ 8
    let len := c / 2 ^ 32
    let zero := c / 2 ^ 27 % 32 = 0 ∧ c / 2 ^ 9 % 128 = 0
    let seq := s.th.msgSeq + 1
    -- handles that count against the 16: pending, or final in this cycle
    let full := fun u : State => 16 ≤ u.th.handles.countP fun h => decide (h.st.code = 0 ∨ u.cycle ≤ h.doneAt)
    -- a send of `u` on profile `f` enters the outbound unit
    let sends := fun (u t : State) (m : TxMsg) (f : Profile) (ps : List W32) =>
      (t.part u.myPart).tx = (u.part u.myPart).tx ++ [m] ∧ m.thread = u.me ∧ m.seq = seq ∧ m.len = len ∧ m.key.drank = peer ∧ m.key.srank = g.rank ∧
        m.key.chan = chan ∧ m.key.mseq = l.nextMseq peer chan ∧ m.k = f.k ∧ m.m = f.m ∧ m.f = 64 * f.fsize ∧ m.ack = x.ack ∧
        m.deadline = u.ptpMsg + 1000 * f.deadline ∧ m.ackBy = m.deadline + 1000 * f.deadline ∧ m.paths = ps ∧ m.before = u.myEntries ∧
        (∃ y : Launch, t.myLaunch = some y ∧ y.nextMseq peer chan = (l.nextMseq peer chan + 1) % 2 ^ 32 ∧
          ∀ k, k ≠ (peer, chan) → y.nextMseq k.1 k.2 = l.nextMseq k.1 k.2) ∧
        t.th.msgSeq = seq ∧ t.th.esn = u.th.esn + 1 ∧
        (x.d ≠ 0 → rdS t.th.regs x.d = BitVec.ofNat 64 (u.cur.core % 8 * 2 ^ 35 + u.cur.slot * 2 ^ 32 + seq.toNat)) ∧
        KeepsRegs u t [x.d] [] [] [] ∧ KeepsMem u t ∧ KeepsFlags u t
    (¬ zero → exec (.msgsend x) s = .next (s.takeTrap 0x02 0 (2 + 256 * 5))) ∧
    (zero → (g.nrank ≤ peer ∨ peer = g.rank) → exec (.msgsend x) s = .next (s.takeTrap 0x02 0 (2 + 256 * 2))) ∧
    (zero → peer < g.nrank → peer ≠ g.rank → (∀ f : Profile, l.profiles[c / 2 ^ 24 % 8]? = some f → f.valid = false) →
      exec (.msgsend x) s = .next (s.takeTrap 0x02 0 (2 + 256 * 1))) ∧
    (∀ f : Profile, zero → peer < g.nrank → peer ≠ g.rank → l.profiles[c / 2 ^ 24 % 8]? = some f → f.valid = true →
      (g.pathsFor f.psel peer = none → exec (.msgsend x) s = .next (s.takeTrap 0x02 0 (2 + 256 * 3))) ∧
      (∀ ps : List W32, g.pathsFor f.psel peer = some ps →
        (len = 0 ∨ 65536 < len ∨ f.k * (64 * f.fsize) < len → exec (.msgsend x) s = .next (s.takeTrap 0x02 0 (2 + 256 * 4))) ∧
        (∀ r : TReg, 1 ≤ len → len ≤ 65536 → len ≤ f.k * (64 * f.fsize) → x.a = .t r →
          ((s.tile r.val).size = 0 ∨ 256 * (s.tile r.val).size < len → exec (.msgsend x) s = .next (s.takeTrap 0x02 0 1)) ∧
          ((s.tile r.val).size ≠ 0 → len ≤ 256 * (s.tile r.val).size → s.tileIs s.cur.core r.val .ready = true →
            (full s → exec (.msgsend x) s = .next { s with cur := { s.cur with fate := .passed } }) ∧
            (¬ full s → ∃ (t : State) (m : TxMsg), exec (.msgsend x) s = .next t ∧ sends s t m f ps ∧ m.tile = some r.val ∧
              m.place = .sp s.cur.core (256 * (s.tile r.val).base) ∧ (t.tile r.val).st = .draining)) ∧
          ((s.tile r.val).size ≠ 0 → len ≤ 256 * (s.tile r.val).size → s.tileIs s.cur.core r.val .ready = false →
            exec (.msgsend x) s = .next { s with cur := { s.cur with fate := .passed } })) ∧
        -- a source in memory, checked as a raw load of its length
        (∀ r : SReg, 1 ≤ len → len ≤ 65536 → len ≤ f.k * (64 * f.fsize) → x.a = .s r →
          (∀ (s' : State) (e : Byte) (b i : W64), s.access s.agent (s.rs r) len .load false = .trap s' e b i →
            exec (.msgsend x) s = .next (s'.takeTrap e b i)) ∧
          ∀ (s' : State) (p : Place), s.access s.agent (s.rs r) len .load false = .ok p s' →
            (full s' → exec (.msgsend x) s = .next { s' with cur := { s'.cur with fate := .passed } }) ∧
            (¬ full s' → ∃ (t : State) (m : TxMsg), exec (.msgsend x) s = .next t ∧ sends s' t m f ps ∧ m.tile = none ∧ m.place = p ∧
              m.va = (s.rs r).toNat ∧ m.home = s.cur.core / 8))))) ∧
  (∀ (x : DAB) (s s' : State) (l : Launch) (g : Group) (p : Place), s.guardOn x.h = true → s.effect s.me .fabric = none →
    s.myLaunch = some l → l.group = some g →
    let c := (s.rs x.b).toNat
    let peer := c % 2 ^ 9
    let chan := c / 2 ^ 16 % 2 ^ 8
    let len := c / 2 ^ 32
    let zero := c / 2 ^ 24 % 256 = 0 ∧ c / 2 ^ 9 % 128 = 0
    let a := s.rs x.a
    (∀ (u : State) (e : Byte) (b i : W64), zero → peer < g.nrank → peer ≠ g.rank → 1 ≤ len → len ≤ 65536 → s.access s.agent a len .store false = .trap u e b i →
      exec (.msgpost x) s = .next (u.takeTrap e b i)) ∧
    (¬ zero → exec (.msgpost x) s = .next (s.takeTrap 0x02 0 (2 + 256 * 5))) ∧
    (zero → (g.nrank ≤ peer ∨ peer = g.rank) → exec (.msgpost x) s = .next (s.takeTrap 0x02 0 (2 + 256 * 2))) ∧
    (zero → peer < g.nrank → peer ≠ g.rank → (len = 0 ∨ 65536 < len) → exec (.msgpost x) s = .next (s.takeTrap 0x02 0 (2 + 256 * 4))) ∧
    (zero → peer < g.nrank → peer ≠ g.rank → 1 ≤ len → len ≤ 65536 → s.access s.agent a len .store false = .ok p s' →
      s'.th.handles.countP (fun h => decide (h.st.code = 0 ∨ s'.cycle ≤ h.doneAt)) < 16 → (s'.part s'.myPart).lost = [] → (s'.part s'.myPart).rx = [] →
      let seq := s'.th.msgSeq + 1
      ∃ (t : State) (y : Post), exec (.msgpost x) s = .next t ∧ (t.part s'.myPart).posts = (s'.part s'.myPart).posts ++ [y] ∧ y.thread = s'.me ∧ y.seq = seq ∧
        y.srank = peer ∧ y.chan = chan ∧ y.maxlen = len ∧ y.va = a.toNat ∧ y.place = p ∧ t.th.msgSeq = seq ∧ t.th.esn = s'.th.esn + 1 ∧
        (x.d ≠ 0 → rdS t.th.regs x.d =
          BitVec.ofNat 64 (2 ^ 38 + s'.cur.core % 8 * 2 ^ 35 + s'.cur.slot * 2 ^ 32 + seq.toNat)) ∧
        KeepsRegs s' t [x.d] [] [] [] ∧ KeepsMem s' t)) ∧
  (∀ (x : DA) (s : State),
    (s.handleOf (s.rs x.a) = none → exec (.msgtest x) s = .next (s.ws x.d 5) ∧ exec (.msgwait x) s = .next (s.ws x.d 5)) ∧
    (∀ h : Handle, s.handleOf (s.rs x.a) = some h →
      let w := BitVec.ofNat 64 (h.st.code + h.st.rebuilt * 2 ^ 16 + h.st.frags * 2 ^ 24 + h.st.len * 2 ^ 32)
      (∃ t : State, exec (.msgtest x) s = .next t ∧ t.cur.fate = s.cur.fate ∧ (x.d ≠ 0 → rdS t.th.regs x.d = w) ∧ KeepsRegs s t [x.d] [] [] [] ∧
        KeepsMem s t ∧ KeepsFlags s t ∧ (h.recv = true → h.st.code = 1 → (t.core s.cur.core).l1 = [])) ∧
      (h.st.code = 0 ∨ s.cycle ≤ h.doneAt → Waits (exec (.msgwait x) s) s) ∧
      (h.st.code ≠ 0 → h.doneAt < s.cycle → h.st.code ≠ 2 → ∃ t : State, exec (.msgwait x) s = .next t ∧ t.cur.fate = s.cur.fate ∧ (x.d ≠ 0 → rdS t.th.regs x.d = w) ∧
        KeepsRegs s t [x.d] [] [] [] ∧ KeepsMem s t) ∧
      (h.st.code = 2 → h.doneAt < s.cycle → s.cur.slot < 7 → (s.part s.myPart).scb.en = true →
        ∃ (t : State) (r : TrapRec), exec (.msgwait x) s = .next t ∧ t.cur.fate = .trapped ∧ (t.core s.cur.core).queue = (s.core s.cur.core).queue ++ [r] ∧
          r.cause = 0x60 ∧ r.pc = s.cur.link ∧ r.addr = h.st.addr ∧ r.info = BitVec.ofNat 64 (h.seq.toNat + h.st.frags * 2 ^ 32) ∧
          (x.d ≠ 0 → rdS t.th.regs x.d = w)))) ∧
  (∀ (x : DA) (s : State) (h : Handle), s.effect s.me .fabric = none → s.handleOf (s.rs x.a) = some h →
    (h.recv = true → h.st.code = 0 → (∃ y ∈ (s.part s.myPart).posts, y.thread = s.me ∧ y.seq = h.seq) →
      ∃ t : State, exec (.msgcancel x) s = .next t ∧ (∀ y ∈ (t.part s.myPart).posts, ¬ (y.thread = s.me ∧ y.seq = h.seq)) ∧
        (x.d ≠ 0 → rdS t.th.regs x.d = BitVec.ofNat 64 (7 + h.st.rebuilt * 2 ^ 16 + h.st.frags * 2 ^ 24 + h.st.len * 2 ^ 32)) ∧
        t.th.esn = s.th.esn + 1 ∧ KeepsRegs s t [x.d] [] [] [] ∧ KeepsMem s t) ∧
    (h.recv = false ∨ h.st.code ≠ 0 →
      ∃ t : State, exec (.msgcancel x) s = .next t ∧ (t.part s.myPart).posts = (s.part s.myPart).posts ∧ t.th.handles = s.th.handles ∧
        (x.d ≠ 0 → rdS t.th.regs x.d =
          BitVec.ofNat 64 (h.st.code + h.st.rebuilt * 2 ^ 16 + h.st.frags * 2 ^ 24 + h.st.len * 2 ^ 32)) ∧ t.th.esn = s.th.esn + 1))

/-- 20 R342, R343, R345 to R355: random streams and the sampler. A draw is the fixed function of PEXT, CTR, the stream CBASE + G and SEED, in eight rounds, and advances CTR by one; without an extent, or at CTR = 2^48
outside RNGREP, it traps with cause 0x20; `vrand` draws for every lane. `smpl` and `tokexec` submit a request; with K = 1 the token is the lowest index of the largest logit, with K > 1 it is drawn
from the weights of the first K candidates up to the threshold P; an executed token of the reserved range has the effect of its offset on the record and its window,
appends its tokens, and where it traps with PARK = 1 parks its thread after the cycle; an ordinary token is appended and D holds it; no candidate gives status 6, an exhausted draw traps with cause 0x20; fewer than 10 free entries give status 7 and nothing else; a request that its thread waits for no more is not performed. Its
checks and their words, and that they precede the wait for a tile, are the model's reading (log 51, log 16). -/
def Obligations.RandomStreamsAndSampler : Prop :=
  -- the eight rounds
  (∀ (pext : BitVec 16) (ctr : Nat) (stream seed : W64), ∃ x0 x1 k : Nat → W64,
    x0 0 = BitVec.ofNat 64 (pext.toNat * 2 ^ 48 + ctr) ∧ x1 0 = stream ∧ k 0 = seed ∧
      (∀ i, i < 8 → x0 (i + 1) = (x0 i + (x1 i ^^^ k i)).rotateLeft 23 * 0x9E6F2B8D4C31A5E7 ∧
        x1 (i + 1) = (x1 i ^^^ (x0 (i + 1) >>> 29)) * 0xD6B17A930F4EC25B ∧ k (i + 1) = k i + 0xB5C38E216D9F4A71) ∧
      drawOf pext ctr stream seed = x0 8 ^^^ (x1 8).rotateLeft 32) ∧
  (∀ (x : DOnly) (y : VRnd) (s : State) (l : Launch), s.myLaunch = some l →
    let draw := fun c => drawOf (s.part s.myPart).desc.pext c (l.cbase + BitVec.ofNat 64 (s.gIndex s.me)) l.seed
    (s.guardOn x.h = true → l.cext ≠ 0 → s.th.ctr < 2 ^ 48 →
      exec (.rand x) s = .next ((s.updTh fun t => { t with ctr := s.th.ctr + 1 }).ws x.d (draw s.th.ctr))) ∧
    (s.guardOn x.h = true → l.cext ≠ 0 → 2 ^ 48 ≤ s.th.ctr → s.th.mode.rngrep = true →
      exec (.rand x) s = .next ((s.updTh fun t => { t with ctr := 1 }).ws x.d (draw 0))) ∧
    (s.guardOn x.h = true → (l.cext = 0 ∨ (2 ^ 48 ≤ s.th.ctr ∧ s.th.mode.rngrep = false)) → exec (.rand x) s = .next (s.takeTrap 0x20 0 0)) ∧
    (s.guardOn x.h = false → exec (.rand x) s = .next s) ∧
    (l.cext ≠ 0 → s.th.ctr ≤ 2 ^ 48 - 32 →
      ∃ t : State, exec (.vrand y) s = .next t ∧ t.th.ctr = s.th.ctr + 32 ∧ KeepsRegs s t [] [y.d] [] [] ∧ KeepsFlags s t ∧ KeepsMem s t ∧
        ∀ j, j < 32 → lane (rdV t.th.regs y.d) j = if (s.guard y.h).getLsbD j then
          (if y.f32 then BitVec.ofNat 32
              (fround fF32 .rne false false (.fin false ((draw (s.th.ctr + j)).toNat / 2 ^ 40) (-24))).1
            else (draw (s.th.ctr + j)).setWidth 32) else lane (s.rv y.d) j) ∧
    (l.cext ≠ 0 → 2 ^ 48 - 32 < s.th.ctr → s.mode.rngrep = false → exec (.vrand y) s = .next (s.takeTrap 0x20 0 0))) ∧
  (∀ (x : DOnly) (y : DSI) (s : State),
    exec (.rtell x) s = .next (s.ws x.d (BitVec.ofNat 64 s.th.ctr)) ∧
    ((s.siZ y.a).toNat < 2 ^ 48 →
      exec (.rseek y) s = .next ((s.ws y.d (BitVec.ofNat 64 s.th.ctr)).updTh fun t => { t with ctr := (s.siZ y.a).toNat })) ∧
    (2 ^ 48 ≤ (s.siZ y.a).toNat → exec (.rseek y) s = .next (s.takeTrap 0x02 0 1))) ∧
  (∀ (x : SmplA) (y : DAB) (s : State), s.effect s.me .sampler = none → s.myCore.sb = [] →
    let c := s.cur.core
    let f := s.fresh
    let room := (s.cluster (c / 8)).smpq.length + (s.cluster (c / 8)).vacated.2.2 < 16
    (∀ r, s.readRec c (s.rs x.b).toNat (some x.a.val) = .inl r → ¬ room → Waits (exec (.smpl x) s) s) ∧
    (∀ r, s.readRec c (s.rs x.b).toNat (some x.a.val) = .inl r → room →
      ((∀ i, i ≤ r.ntm1 → s.tileIs c (x.a.val + i) .ready = true) → exec (.smpl x) s =
        .next ((f.2.updCluster (c / 8) fun k => { k with smpq := k.smpq ++ [⟨f.1, s.me, some x.a.val, 0, (s.rs x.b).toNat, x.d⟩] }).wait (.sampler f.1))) ∧
      ((∃ i, i ≤ r.ntm1 ∧ s.tileIs c (x.a.val + i) .ready = false) →
        Waits (exec (.smpl x) s) s)) ∧
    (∀ i, s.readRec c (s.rs x.b).toNat (some x.a.val) = .inr i → exec (.smpl x) s = .next (s.takeTrap 0x02 0 i)) ∧
    (∀ r, (s.rs y.a).toNat < 2 ^ 20 → s.readRec c (s.rs y.b).toNat none = .inl r → room → exec (.tokexec y) s =
        .next ((f.2.updCluster (c / 8) fun k =>
          { k with smpq := k.smpq ++ [⟨f.1, s.me, none, (s.rs y.a).toNat, (s.rs y.b).toNat, y.d⟩] }).wait (.sampler f.1))) ∧
    (2 ^ 20 ≤ (s.rs y.a).toNat → exec (.tokexec y) s = .next (s.takeTrap 0x02 0 1))) ∧
  (∀ (s : State) (t : ThreadId) (r : SeqRec) (a c tk k : Nat), r.k = 1 → s.chooseToken t r a c = .token tk k →
    let ts := (s.core t.core).tiles
    let raw := (List.range (r.ntm1 + 1)).flatMap fun i =>
      s.spBytes t.core (256 * (ts.getD (a + i) Tile.reset).base) (256 * (ts.getD (a + i) Tile.reset).size)
    k = c ∧ ∃ i, i < r.v ∧ tk = r.idbase + i ∧
      (∀ j, j < r.v → logitKey (logit raw r.lbytes j) ≤ logitKey (logit raw r.lbytes i)) ∧
      ∀ j, j < i → logitKey (logit raw r.lbytes j) < logitKey (logit raw r.lbytes i)) ∧
  -- sampling among several candidates
  (∀ (s : State) (t : ThreadId) (r : SeqRec) (a c : Nat), 2 ≤ r.k → 0 < r.p → r.p ≤ 0x3F800000 → 0 < r.rt → r.rt ≤ 0x7F7FFFFF →
    let ts := (s.core t.core).tiles
    let raw := (List.range (r.ntm1 + 1)).flatMap fun i =>
      s.spBytes t.core (256 * (ts.getD (a + i) Tile.reset).base) (256 * (ts.getD (a + i) Tile.reset).size)
    let l := logit raw r.lbytes
    ((∀ i, i < r.v → l i = 0xFF800000) → s.chooseToken t r a c = .none) ∧
    ((∃ i, i < r.v ∧ l i ≠ 0xFF800000) →
      (s.drawAt t c = none → s.chooseToken t r a c = .exhausted) ∧
      ∃ cs : List Nat, FirstOf l r.v r.k cs ∧ cs ≠ [] ∧
        let w := fun j => weightOf (l (cs.getD 0 0)) r.rt (l (cs.getD j 0))
        let sum := fun j => ((List.range (j + 1)).map w).sum
        ∀ (y : W64) (c' : Nat), s.drawAt t c = some (y, c') → ∃ h j, h < cs.length ∧ j ≤ h ∧
          s.chooseToken t r a c = .token (r.idbase + cs.getD j 0) c' ∧
          (∀ i, i < h → (sum i : ℚ) < rat (fdec fF32 r.p) * sum (cs.length - 1)) ∧ rat (fdec fF32 r.p) * sum (cs.length - 1) ≤ sum h ∧
          (∀ i, i < j → sum i ≤ y.toNat * sum h / 2 ^ 64) ∧ y.toNat * sum h / 2 ^ 64 < sum j)) ∧
  -- drawn instructions
  (∀ (s : State) (t : ThreadId) (r : SeqRec) (o ctr : Nat), o < 4096 →
    let e := s.drawnExec t r o ctr
    let i := (o - 0x400) / 16
    let n := o % 16
    let a := r.q n
    let b := r.la
    let sa := (BitVec.ofNat 64 a).toInt
    let sb := (BitVec.ofNat 64 b).toInt
    let mod := fun z : Int => (BitVec.ofInt 64 z).toNat
    let ov := fun z : Int => if -(2 ^ 63) ≤ z ∧ z < 2 ^ 63 then r.flags else r.flags ||| 8
    let cls := fun k => 1 ≤ i ∧ i ≤ 13 ∧ k = 0 ∨ (i = 15 ∨ i = 17) ∧ k = 1 ∨ (i = 16 ∨ i = 18) ∧ k = 2 ∨ i = 19 ∧ k = 3 ∨ i = 22 ∧ k = 4 ∨
      i = 20 ∧ k = 5 ∨ i = 21 ∧ k = 6
    let win := ((i = 15 ∨ i = 16) → b % 8 = 0 ∧ b + 8 ≤ r.wsize) ∧ ((i = 17 ∨ i = 18) → b < r.wsize)
    let op := 0x400 ≤ o ∧ o < 0x780
    let runs := i ≤ 23 ∧ (∀ k, cls k → r.caps.testBit k = true) ∧ win
    let x := r.wbase + b
    let std := fun v f => DrawnDone e r n v f 1 [0x780] [] ctr
    let full := r.chunks = 7 ∨ (r.chunks = 6 ∧ 2 ^ 54 ≤ b)
    (o < 0x400 → full → DrawnTraps e r 0x70 0 ctr) ∧
    (o < 0x400 → ¬ full → e.status = 1 ∧ e.cause = 0 ∧ e.qidx = 0 ∧ e.callno = 0 ∧ e.tail = [] ∧ e.writes = [] ∧ e.ctr = ctr ∧
      DrawnRec r e.rcd r.q ((b * 1024 + o) % 2 ^ 64) ((r.chunks + 1) % 256) r.flags (r.f 1600 32)) ∧
    (0x780 ≤ o → DrawnTraps e r 0x70 0 ctr) ∧
    (op → 23 < i → DrawnTraps e r 0x70 n ctr) ∧
    (op → i ≤ 23 → (∃ k, cls k ∧ r.caps.testBit k = false) → DrawnTraps e r 0x72 n ctr) ∧
    (op → i ≤ 23 → (∀ k, cls k → r.caps.testBit k = true) → ¬ win → DrawnTraps e r 0x71 n ctr) ∧
    (op → runs →
      (i = 0 → std b r.flags) ∧ (i = 1 → std (mod (sa + sb)) (ov (sa + sb))) ∧ (i = 2 → std (mod (sa - sb)) (ov (sa - sb))) ∧
      (i = 3 → std (mod (sa * sb)) (ov (sa * sb))) ∧
      (i = 4 → if b = 0 then std (2 ^ 64 - 1) (r.flags ||| 8) else std (a / b) r.flags) ∧
      (i = 5 → if b = 0 then std a (r.flags ||| 8) else std (a % b) r.flags) ∧
      (i = 6 → std (a &&& b) r.flags) ∧ (i = 7 → std (a ||| b) r.flags) ∧ (i = 8 → std (a ^^^ b) r.flags) ∧
      (i = 9 → std (if 64 ≤ b then 0 else a * 2 ^ b % 2 ^ 64) r.flags) ∧ (i = 10 → std (if 64 ≤ b then 0 else a / 2 ^ b) r.flags) ∧
      (i = 11 → std (mod (min sa sb)) r.flags) ∧ (i = 12 → std (mod (max sa sb)) r.flags) ∧
      (i = 13 → ∃ f, std a f ∧ f / 8 = r.flags / 8 ∧ (f.testBit 0 = true ↔ a = b) ∧ (f.testBit 1 = true ↔ sa < sb) ∧ (f.testBit 2 = true ↔ a < b)) ∧
      (i = 14 → std 0 (r.flags / 16 * 16)) ∧
      (i = 15 → std (ofBytes (s.spBytes t.core x 8)) r.flags) ∧ (i = 16 → DrawnDone e r n a r.flags 1 [0x780] [(x, toBytes 8 a)] ctr) ∧
      (i = 17 → std ((s.core t.core).spByte x).toNat r.flags) ∧ (i = 18 → DrawnDone e r n a r.flags 1 [0x780] [(x, toBytes 1 a)] ctr) ∧
      (i = 19 → ∃ cs : List Nat, DrawnDone e r n a r.flags 1 ([0x780] ++ cs ++ [0x781]) [] ctr ∧ 1 ≤ cs.length ∧ cs.length ≤ 7 ∧ (∀ k ∈ cs, k < 1024) ∧
        cs.foldl (fun v k => v * 1024 + k) 0 = a ∧ (cs.length = 1 ∨ 1024 ^ (cs.length - 1) ≤ a)) ∧
      (i = 20 → std ((s.ptpSec * 10 ^ 9 + s.ptpFrac) % 2 ^ 64) r.flags) ∧
      (i = 21 → (s.drawAt t ctr = none → DrawnTraps e r 0x20 n ctr) ∧
        ∀ y c, s.drawAt t ctr = some (y, c) → DrawnDone e r n y.toNat r.flags 1 [0x780] [] c) ∧
      (i = 22 → DrawnDone e r n a r.flags 3 [0x786] [] ctr) ∧ (i = 23 → DrawnDone e r n a (r.flags ||| 128) 4 [0x787] [] ctr))) ∧
  (∀ (c : ClusterN) (s : State) (q : SmpReq) (rest : List SmpReq), (s.cluster c.val).smpq = q :: rest → s.stageOf q.thread ≠ some (.sampler q.id) →
    exec (.samplerRequestServe c) s = .next (s.updCluster c.val fun k => { k with smpq := rest, vacated := (k.vacated.1, k.vacated.2.1, k.vacated.2.2 + 1) })) ∧
  -- a request of `tokexec` brings its token; that of `smpl` chooses one, from the thread's counter on
  (∀ (c : ClusterN) (s : State) (q : SmpReq) (rest : List SmpReq), (s.cluster c.val).smpq = q :: rest → s.stageOf q.thread = some (.sampler q.id) →
    let t := q.thread
    let v := s.updCluster c.val fun k => { k with smpq := rest, vacated := (k.vacated.1, k.vacated.2.1, k.vacated.2.2 + 1) }
    (∀ i, s.readRec t.core q.recOff q.tile = .inr i → exec (.samplerRequestServe c) s = .next (v.trapPend t 0x02 0 i)) ∧
    ∀ r : SeqRec, s.readRec t.core q.recOff q.tile = .inl r → s.sramPoison = [] → 10 ≤ r.osize - r.held → ∀ a, q.tile = some a →
      (s.chooseToken t r a (s.thr t).ctr = .exhausted → exec (.samplerRequestServe c) s = .next (v.trapPend t 0x20 0 0)) ∧
      (s.chooseToken t r a (s.thr t).ctr = .none →
        ∃ u : State, exec (.samplerRequestServe c) s = .next u ∧ (u.cluster c.val).smpq = rest ∧ (u.core t.core).sram = (s.core t.core).sram ∧
          (u.core t.core).late = (s.core t.core).late ∧ (u.thr t).pend = none ∧ (u.thr t).ctr = (s.thr t).ctr ∧ (u.thr t).esn = (s.thr t).esn + 1 ∧
          (q.d ≠ 0 → rdS (u.thr t).regs q.d = BitVec.ofNat 64 (6 * 2 ^ 24 + 0xFFFFF)))) ∧
  (∀ (c : ClusterN) (s : State) (q : SmpReq) (rest : List SmpReq) (r : SeqRec) (tk ctr : Nat), (s.cluster c.val).smpq = q :: rest →
    let t := q.thread
    (q.tile = none ∧ tk = q.token ∧ ctr = (s.thr t).ctr) ∨ (∃ a, q.tile = some a ∧ s.chooseToken t r a (s.thr t).ctr = .token tk ctr) →
    s.readRec t.core q.recOff q.tile = .inl r → s.sramPoison = [] → s.stageOf t = some (.sampler q.id) →
    (r.osize - r.held < 10 →
      ∃ u : State, exec (.samplerRequestServe c) s = .next u ∧ (u.cluster c.val).smpq = rest ∧ (u.core t.core).sram = (s.core t.core).sram ∧ (u.core t.core).late = (s.core t.core).late ∧
        (u.thr t).pend = none ∧ (q.d ≠ 0 → rdS (u.thr t).regs q.d = BitVec.ofNat 64 (7 * 2 ^ 24 + 0xFFFFF)) ∧
        (u.thr t).esn = (s.thr t).esn + 1) ∧
    (10 ≤ r.osize - r.held → (let hi := (s.part (s.partOf t.core t.slot)).desc.tokhi; hi = 0 ∨ tk < 4096 * hi ∨ 4096 * hi + 4096 ≤ tk) → tk < 2 ^ 20 →
      ∃ u : State, exec (.samplerRequestServe c) s = .next u ∧ (u.cluster c.val).smpq = rest ∧ (u.thr t).pend = none ∧
        u.spBytes t.core (r.obase + 4 * (r.ohead % r.osize)) 4 = toBytes 4 tk ∧
        u.spBytes t.core (q.recOff + 168) 4 = toBytes 4 (r.ohead + 1) ∧
        (q.d ≠ 0 → rdS (u.thr t).regs q.d = BitVec.ofNat 64 (tk + 2 ^ 36)) ∧ (u.thr t).esn = (s.thr t).esn + 1 ∧
        (u.thr t).ctr = ctr ∧ u.mem = s.mem) ∧
    -- a token of the reserved range: appended with status 5, or executed
    (∀ l : Launch, (s.taskOn t.core).bind s.launchOf = some l → 10 ≤ r.osize - r.held →
      let hi := (s.part (s.partOf t.core t.slot)).desc.tokhi
      let drawn := l.kernel.drawn = true ∧ r.en = true ∧ r.flags.testBit 7 = false
      hi ≠ 0 → 4096 * hi ≤ tk → tk < 4096 * hi + 4096 → tk < 2 ^ 20 →
      let e := s.drawnExec t r (tk - 4096 * hi) ctr
      let rcd := toBytes 256 e.rcd.toNat
      ∃ u : State, exec (.samplerRequestServe c) s = .next u ∧ (u.cluster c.val).smpq = rest ∧ (u.thr t).pend = none ∧ (u.thr t).esn = (s.thr t).esn + 1 ∧
        u.mem = s.mem ∧ u.spBytes t.core (r.obase + 4 * (r.ohead % r.osize)) 4 = toBytes 4 tk ∧
        (¬ drawn → u.spBytes t.core (q.recOff + 168) 4 = toBytes 4 (r.ohead + 1) ∧ (u.thr t).ctr = ctr ∧
          (q.d ≠ 0 → rdS (u.thr t).regs q.d = BitVec.ofNat 64 (tk + 5 * 2 ^ 24 + 2 ^ 36))) ∧
        (drawn → u.spBytes t.core q.recOff 138 = rcd.take 138 ∧ u.spBytes t.core (q.recOff + 200) 8 = (rcd.drop 200).take 8 ∧
          u.spBytes t.core (q.recOff + 168) 4 = toBytes 4 (r.ohead + 1 + e.tail.length) ∧ (u.thr t).ctr = e.ctr ∧
          (∀ k, k < e.tail.length →
            u.spBytes t.core (r.obase + 4 * ((r.ohead + 1 + k) % r.osize)) 4 = toBytes 4 (4096 * hi + e.tail.getD k 0)) ∧
          (∀ w ∈ e.writes, u.spBytes t.core w.1 w.2.length = w.2) ∧
          (q.d ≠ 0 → rdS (u.thr t).regs q.d = BitVec.ofNat 64 (tk + 2 ^ 24 * e.status + 2 ^ 32 * e.qidx + 2 ^ 36 * (1 + e.tail.length)
            + 2 ^ 40 * e.cause + 2 ^ 48 * e.callno)) ∧
          (e.status = 2 → r.park = true → ∃ k, (u.thr t).parkDue = some k ∧ k.2.1 = BitVec.ofNat 8 e.cause ∧
            k.2.2.1 = (if e.cause = 0x71 then BitVec.ofNat 64 r.la else 0) ∧ k.2.2.2 = BitVec.ofNat 64 (tk - 4096 * hi + 2 ^ 32 * q.recOff)) ∧
          (e.status ≠ 2 ∨ r.park = false → (u.thr t).parkDue = (s.thr t).parkDue))))

/-- 22 R361 to R366, R368, 04 R67, R70, R84, R85: taking a trap and returning. At USER level the thread parks with its registers as they were and its record, with cause, PC, address and detail, goes to the end of
its core's queue; with EN = 0 it ends and faults its task. A trap of slot 7 goes to bank 1 and vector 1; one with bank 1 in use resets the core and leaves its crash record in memory.
`tresume` lets the parked thread go on at the record's PC, or after its bundle, `tret` lets slot 7 go on at bank 1's. An opcode or a
function that no row of 04 R85 has traps with cause 0x01, and the refusal of a fetched line with its own cause and the line's address. The model's readings: a PC counts lines
modulo 2^46, and TRAPADDR is 0 for cause 0x04 (log 40); the third level's crash record and the fault of the core's task (log 55). -/
def Obligations.TrapsAndReturns : Prop :=
  (∀ (s : State) (cause : Byte) (a i : W64), s.cur.slot < 7 → (s.part s.myPart).scb.en = true → s.th.gang = none →
    let t := s.takeTrap cause a i
    t.cur.fate = .trapped ∧ t.th.status = .parked ∧ t.th.pc = s.cur.ipc ∧ t.th.regs = s.th.regs ∧ KeepsStatus s t ∧ KeepsFlags s t ∧
      KeepsMem s t ∧ KeepsOthers s t ∧ KeepsUnits s t ∧ ∃ r, t.myCore.queue = s.myCore.queue ++ [r] ∧ r.cause = cause ∧ r.pc = s.cur.ipc ∧
        r.addr = a ∧ r.info = i ∧ r.slot = s.cur.slot ∧ r.ganged = false ∧ r.part = s.myPart ∧ r.word = s.cur.word) ∧
  (∀ (s : State) (cause : Byte) (a i : W64) (k : Task) (l : Launch), s.cur.slot < 7 → (s.part s.myPart).scb.en = false → s.th.gang = none →
    s.myTask = some k → s.launch? k.id.part k.id.lid = some l → 1 ≤ l.tasks → l.faulted = false →
    let t := s.takeTrap cause a i
    t.th.status = .ended ∧ t.myCore.queue = s.myCore.queue ∧ KeepsMem s t ∧ ((t.task? k.id).map fun y => y.faulted) = some true ∧
      ((t.launch? k.id.part k.id.lid).map fun y => (y.fcause, y.ftask)) = some (cause, BitVec.ofNat 32 k.id.idx)) ∧
  (∀ (s : State) (cause : Byte) (a i : W64), s.cur.slot = 7 → s.myCore.bank1 = none →
    let t := s.takeTrap cause a i
    t.th.pc = (s.part s.myPart).scb.vec + 64 ∧ t.th.arrive = .vector ∧ t.th.regs = s.th.regs ∧ t.myCore.bank0 = s.myCore.bank0 ∧ KeepsMem s t ∧
      KeepsOthers s t ∧ ∃ r, t.myCore.bank1 = some r ∧ r.cause = cause ∧ r.pc = s.cur.ipc ∧ r.addr = a ∧ r.info = i) ∧
  (∀ (s : State) (cause : Byte) (a i : W64), s.cur.slot = 7 → s.myCore.bank1.isSome = true →
    let t := s.takeTrap cause a i
    t.myCore.crashes = s.myCore.crashes + 1 ∧ t.myCore.bank0 = none ∧ t.myCore.bank1 = none ∧ t.myCore.queue = [] ∧ t.myCore.sram = [] ∧ t.th.status = .empty ∧
      memBytes t.mem (0x9FFFF00000 + 256 * s.cur.core) 4 = [0x48, 0x53, 0x52, 0x43] ∧
      ∀ x, x < 0x9FFFF00000 + 256 * s.cur.core ∨ 0x9FFFF00000 + 256 * s.cur.core + 256 ≤ x → memByte t.mem x = memByte s.mem x) ∧
  (∀ (x : TresA) (s : State) (r : TrapRec), s.cur.slot = 7 → s.myCore.bank0 = some r → r.slot < 7 →
    let u : ThreadId := ⟨s.cur.core, r.slot⟩
    ∃ t : State, exec (.tresume x) s = .next t ∧ (t.thr u).status = .running ∧
      (t.thr u).pc = (if x.next then (s.pcAfterBundle r.pc).1 else r.pc) ∧
      (t.thr u).arrive = .resume ∧ (t.thr u).regs = (s.thr u).regs ∧
      t.myCore.bank0 = none ∧ t.myCore.bank1 = none ∧ t.th.status = .empty ∧ KeepsMem s t) ∧
  (∀ (x : HOnly) (s : State), s.cur.slot = 7 →
    (∀ r, s.myCore.bank1 = some r → ∃ t : State, exec (.tret x) s = .next t ∧ t.myCore.bank1 = none ∧ t.myCore.bank0 = s.myCore.bank0 ∧ t.cur.npc = r.pc ∧
      t.cur.taken = true ∧ t.th.arrive = .resume ∧ t.th.regs = s.th.regs ∧ KeepsMem s t ∧ KeepsOthers s t) ∧
    (s.myCore.bank1 = none → exec (.tret x) s = .next (s.takeTrap 0x11 0 0))) ∧
  (∀ (op fn : Byte) (s : State), exec (.undefinedOpcode op fn) s = .next (s.takeTrap 0x01 0 (opcodeInfo op fn))) ∧
  (∀ (cause : Byte) (line : Nat) (info : W64) (s : State),
    (cause ≠ 0x04 → s.th.arrive ≠ .resume →
      exec (.instructionFetchFault cause line info) s = .next (s.takeTrap cause (BitVec.ofNat 64 (64 * line)) info)) ∧
    (cause ≠ 0x04 → s.th.arrive = .resume → exec (.instructionFetchFault cause line info) s = .next (s.takeTrap cause s.cur.ipc info)) ∧
    (cause = 0x04 → exec (.instructionFetchFault cause line info) s = .next (s.takeTrap cause 0 info)))

/-- 22 R364, R367 to R379: the system instructions, all but `exit` and `rgn` closed to USER level (cause 0x11), the moves of slot 7 and of translation invalidation, soft errors, and
the W7 expansions, which trap at the step that fails (TRAPINFO [59:56]), pass the turns of their steps and write in the last. The model's choices: a register write has that
register's own effect (log 38); where an error lies decides between a restart, poison and a trap (log 50); when an invalidation is complete (log 52);
an expansion's checks are made at its issue turn (log 64). -/
def Obligations.SystemInstructions : Prop :=
  (∀ (x : HOnly) (d : DOnly) (y : DSI) (w : XwrA) (z : TresA) (k : XlA) (s : State), s.cur.slot ≠ 7 →
    ∀ i, i ∈ [Instr.tctx d, .xrd y, .xwr w, .tresume z, .tkill x, .tret x, .spillgo d, .spstat d, .xlinv k] →
      exec i s = .next (s.takeTrap 0x11 0 0)) ∧
  (∀ (x : HOnly) (s : State),
    (s.cur.slot ≠ 7 → ∃ t : State, exec (.exit x) s = .next t ∧ t.th.status = .ended ∧ t.th.regs = s.th.regs ∧ KeepsMem s t ∧ KeepsOthers s t) ∧
    (s.cur.slot = 7 → s.myCore.bank0 = none →
      ∃ t : State, exec (.exit x) s = .next t ∧ t.th.status = .empty ∧ t.myCore.bank1 = none ∧ KeepsMem s t) ∧
    exec (.rgn x) s = .next (s.updTh fun t => { t with region := { t.region with inside := false } }) ∧
    (∀ r i, i ∈ [Instr.tkill x, .exit x] → s.cur.slot = 7 → s.myCore.bank0 = some r → r.slot < 7 →
      ∃ t : State, exec i s = .next t ∧ (t.thr ⟨s.cur.core, r.slot⟩).status = .ended ∧ t.myCore.bank0 = none ∧ t.myCore.bank1 = none ∧
        t.th.status = .empty ∧ (∀ k, s.myTask = some k → ((t.task? k.id).map fun y => y.faulted) = some true) ∧ KeepsMem s t)) ∧
  (∀ (x : DOnly) (s : State), s.cur.slot = 7 →
    exec (.tctx x) s = .next (s.ws x.d (BitVec.ofNat 64 ((match s.myCore.bank0 with | some r => r.slot + 8 | none => 0)
      + (if s.myCore.bank1.isSome then 16 else 0) + s.myCore.queue.length * 256))) ∧
    exec (.spstat x) s = .next (s.ws x.d s.myCore.spill.word) ∧
    (s.myCore.spill.state ≠ 2 → exec (.spillgo x) s = .next (s.ws x.d s.myCore.spill.word)) ∧
    (s.myCore.spill.state = 2 → s.myCore.spill.cause = 0x90 → ∃ t : State, exec (.spillgo x) s = .next t ∧ t.myCore.spill.state = 1 ∧
      t.myCore.spill.frame = s.myCore.spill.frame ∧ t.myCore.spill.offset = s.myCore.spill.offset ∧ t.mem = s.mem) ∧
    (∀ f k, s.myCore.spill.state = 2 → s.myCore.spill.cause ≠ 0x90 → s.myCore.spill.task = some k →
      let sp := s.myCore.spill.latch (s.part k.part).scb
      sp.freeFrame (s.part k.part) = some f → s.imageBytes sp ≤ sp.framemb * 2 ^ 20 →
      ∃ t : State, exec (.spillgo x) s = .next t ∧ t.myCore.spill.state = 1 ∧ t.myCore.spill.frame = f ∧ t.myCore.spill.offset = 0 ∧ t.mem = s.mem)) ∧
  (∀ (x : DSI) (s : State) (r : TrapRec), s.cur.slot = 7 → s.myCore.bank0 = some r → r.slot < 7 →
    let t := s.thr ⟨s.cur.core, r.slot⟩
    let sel := (s.si x.a).toNat % 2 ^ 32
    (xsel t r sel).isSome = true → selBad t.regs sel = true →
      exec (.xrd x) s = .next ((s.errLog 8 0 0 0 0x80 s.cur.core).takeTrap 0x80 0 1)) ∧
  (∀ (x : DSI) (y : XwrA) (s : State) (r : TrapRec), s.cur.slot = 7 → s.myCore.bank0 = some r → r.slot < 7 →
    let u : ThreadId := ⟨s.cur.core, r.slot⟩
    (s.thr u).regs.bad = [] →
    let sel := s.si x.a
    let k := sel.setWidth 32
    (∀ n, n < 64 → k = BitVec.ofNat 32 n → exec (.xrd x) s = .next (s.ws x.d (if n = 0 then 0 else (s.thr u).regs.s.getD n 0))) ∧
    (∀ n j, n < 32 → j < 32 → k = BitVec.ofNat 32 (0x40 + n + j * 256) →
      exec (.xrd x) s = .next (s.ws x.d ((lane ((s.thr u).regs.v.getD n 0) j).setWidth 64))) ∧
    (k = 0xF3 → exec (.xrd x) s = .next (s.ws x.d ((s.thr u).sticky.setWidth 64))) ∧
    (k = 0xF6 → exec (.xrd x) s = .next (s.ws x.d ((s.thr u).esn.setWidth 64))) ∧
    (k = 0xF0 → exec (.xrd x) s = .next (s.ws x.d ((r.word.extractLsb' 0 32).setWidth 64))) ∧
    (8192 ≤ k.toNat → exec (.xrd x) s = .next (s.takeTrap 0x02 0 1)) ∧
    (∀ n, 1 ≤ n → n < 64 → (s.si y.a).setWidth 32 = BitVec.ofNat 32 n →
      ∃ t : State, exec (.xwr y) s = .next t ∧ (t.thr u).regs.s.getD n 0 = s.rs y.b ∧
        (∀ m, m ≠ n → (t.thr u).regs.s.getD m 0 = (s.thr u).regs.s.getD m 0) ∧ (t.thr u).regs.v = (s.thr u).regs.v ∧
        (∀ w, w ≠ u → t.thr w = s.thr w) ∧ KeepsMem s t) ∧
    ((s.si y.a).setWidth 32 ∈ [0xF0#32, 0xF1, 0xF2, 0xF5, 0xF6, 0xF7] → exec (.xwr y) s = .next (s.takeTrap 0x02 0 1))) ∧
  (∀ (x : XlA) (s : State), s.cur.slot = 7 → ∃ t : State, exec (.xlinv x) s = .next t ∧ t.stageOf s.me = some .xlinv ∧
    (t.part s.myPart).xl = (s.part s.myPart).xl ++ [(some s.me, x.a.map fun r => (s.rs r).toNat)] ∧ t.th.regs = s.th.regs ∧ KeepsMem s t) ∧
  (∀ (c : CoreN) (s : State),
    (∀ r q, (s.core c.val).queue = r :: q → (s.core c.val).bank0 = none → r.cycle < s.cycle →
      ∃ t : State, exec (.supervisorTakeRecord c) s = .next t ∧ (t.core c.val).bank0 = some r ∧ (t.core c.val).queue = q ∧
        (t.thr ⟨c.val, 7⟩).status = .running ∧ (t.thr ⟨c.val, 7⟩).pc = (s.part r.part).scb.vec ∧ (t.thr ⟨c.val, 7⟩).arrive = .vector ∧
        (t.thr ⟨c.val, 7⟩).regs = (s.thr ⟨c.val, 7⟩).regs ∧ t.mem = s.mem) ∧
    ((s.core c.val).queue = [] ∨ (s.core c.val).bank0.isSome = true → exec (.supervisorTakeRecord c) s = .next s)) ∧
  (∀ (p : PartN) (v : W64) (s : State), (s.part p.val).resetting = false → v.toNat < 2 ^ 52 - 1 →
    exec (.hostXlinv p v) s = .next (s.updPart p.val fun x =>
      { x with scb := { x.scb with xladdr := v, xlbusy := true }, xl := x.xl ++ [(none, some v.toNat)] })) ∧
  (∀ (p : PartN) (s : State), (∀ o ∈ (s.part p.val).xl, o = (none, none)) → (s.part p.val).xl ≠ [] → s.xlClear p.val none = true →
    ∃ t : State, exec (.xlinvComplete p) s = .next t ∧ (t.part p.val).scb.xlbusy = false ∧ (t.part p.val).xl = [] ∧
      (∀ c, ∀ e ∈ (t.cluster c).tlb, e.part ≠ p.val) ∧ t.mem = s.mem ∧ (∀ u, (t.thr u).regs = (s.thr u).regs) ∧
      ∀ c, s.partOf c 0 = p.val ∨ s.partOf c 7 = p.val → (t.core c).l0 = [] ∧ (t.core c).cc = []) ∧
  (∀ (pa : Nat) (s : State), ∃ t : State, exec (.softErrorDetected (.memory pa)) s = .next t ∧ t.mem = s.mem ∧ t.cores = s.cores ∧
    (∀ w, w ∈ t.poison ↔ w ∈ s.poison ∨ w = pa / 8) ∧ t.mgmt.errCount = s.mgmt.errCount + 1) ∧
  (∀ (c off : Nat) (s : State), ∃ t : State, exec (.softErrorDetected (.sram c off)) s = .next t ∧ t.mem = s.mem ∧ t.cores = s.cores ∧
    (∀ w, w ∈ t.sramPoison ↔ w ∈ s.sramPoison ∨ w = (c, off / 8)) ∧ t.mgmt.errCount = s.mgmt.errCount + 1) ∧
  (∀ (t : ThreadId) (r : Byte) (w : Nat) (s : State),
    ((regOf r = none ∨ ((s.thr t).status ≠ .running ∧ (s.thr t).status ≠ .parked)) → exec (.softErrorDetected (.register t r w)) s = .next s) ∧
    (∀ f n, regOf r = some (f, n) → (s.thr t).status = .running ∨ (s.thr t).status = .parked → ¬ ((f = .s ∨ f = .p) ∧ n = 0) →
      ((s.thr t).region.wrote f n = true ∧ (s.thr t).status = .running →
        exec (.softErrorDetected (.register t r w)) s = exec (.softErrorDetected (.transient t)) s) ∧
      (¬ ((s.thr t).region.wrote f n = true ∧ (s.thr t).status = .running) →
        ∃ u : State, exec (.softErrorDetected (.register t r w)) s = .next u ∧ u.mem = s.mem ∧ (u.thr t).status = (s.thr t).status ∧
          (u.thr t).regs.s = (s.thr t).regs.s ∧ (u.thr t).regs.v = (s.thr t).regs.v ∧ u.mgmt.errCount = s.mgmt.errCount + 1 ∧
          ∀ e, e ∈ (u.thr t).regs.bad ↔ e ∈ (s.thr t).regs.bad ∨ e = (f, n, w)))) ∧
  (∀ (t : ThreadId) (s : State),
    ((s.thr t).status ≠ .running → exec (.softErrorDetected (.transient t)) s = .next s) ∧
    ((s.thr t).status = .running → (s.thr t).gang = none → (s.thr t).region.inside = true → (s.thr t).region.restarts < 3 →
      ∃ u : State, exec (.softErrorDetected (.transient t)) s = .next u ∧ u.thr t = restartRegion (s.thr t) ∧ u.mem = s.mem) ∧
    ((s.thr t).status = .running → (s.thr t).gang = none → (s.thr t).region.inside = false ∨ 3 ≤ (s.thr t).region.restarts → t.slot < 7 →
      (s.part (s.partOf t.core t.slot)).scb.en = true →
      ∃ (u : State) (e : TrapRec), exec (.softErrorDetected (.transient t)) s = .next u ∧ (u.thr t).status = .parked ∧ u.mem = s.mem ∧
        (u.core t.core).queue = (s.core t.core).queue ++ [e] ∧ e.cause = 0x80 ∧ e.info = 5 ∧ e.slot = t.slot ∧
        e.pc = (((s.thr t).pend.map fun p => p.ipc).getD (s.thr t).pc))) ∧
  (∀ (x : LdpiA) (s : State) (o : Nat),
    let a := s.rs x.a
    let n := width x.ty / 8
    let c := s.cur.core
    (x.d = x.a → exec (.ldpi x) s = .next (s.takeTrap 0x02 0 0)) ∧
    (∀ (s' : State) (e : Byte) (b i : W64), x.d ≠ x.a → s.accessAligned s.agent a n n .load false = .trap s' e b i →
      exec (.ldpi x) s = .next (s'.takeTrap e b i)) ∧
    (x.d ≠ x.a → a.toNat = 0xFFFF000000000 + o → o < 2 ^ 32 → o + n ≤ 65536 * (s.core c).sp → o % n = 0 → (s.core c).sb = [] → s.posted = [] →
      (∀ k, k < n → (c, (o + k) / 8) ∉ s.sramPoison) →
      ∃ t : State, exec (.ldpi x) s = .next t ∧ t.cur.fate = s.cur.fate ∧ t.th.regs = s.th.regs ∧ KeepsMem s t ∧
        t.stageOf s.me = some (.steps 1 false { Result.none with
          s := [(x.d, narrow x.ty (BitVec.ofNat 64 (ofBytes (memBytes (s.core c).sram o n)))), (x.a, a + x.i.signExtend 64)] } none))) ∧
  (∀ (x : StpiA) (s : State),
    let a := s.rs x.d
    let n := width x.ty / 8
    (∀ (s' : State) (e : Byte) (b i : W64), s.accessAligned s.agent a n n .store false = .trap s' e b i →
      exec (.stpi x) s = .next (s'.takeTrap e b i)) ∧
    (∀ (s' : State) (p : Place), s.accessAligned s.agent a n n .store false = .ok p s' → s'.phaseGate p.isMem = .ok () s' → s'.myShingle = none →
      exec (.stpi x) s = .next (s'.wait (.steps 1 false { Result.none with s := [(x.d, a + x.i.signExtend 64)] }
        (some (p, a, (List.range n).map (fun i => (s'.rs x.c >>> (8 * i)).setWidth 8), decide (x.h.hint.val = 1))))))) ∧
  (∀ (x : VldpiA) (s : State) (o : Nat),
    let a := s.rs x.a
    let c := s.cur.core
    (∀ (s' : State) (e : Byte) (b i : W64), s.accessAligned s.agent a 128 4 .load false = .trap s' e b i →
      exec (.vldpi x) s = .next (s'.takeTrap e b i)) ∧
    (a.toNat = 0xFFFF000000000 + o → o < 2 ^ 32 → o + 128 ≤ 65536 * (s.core c).sp → o % 4 = 0 → (s.core c).sb = [] → s.posted = [] →
      (∀ k, k < 128 → (c, (o + k) / 8) ∉ s.sramPoison) →
      ∃ (t : State) (v : VWord), exec (.vldpi x) s = .next t ∧ t.th.regs = s.th.regs ∧ t.mem = s.mem ∧
        t.stageOf s.me = some (.steps 1 false { Result.none with v := [(x.d, v)], s := [(x.a, a + 128)] } none) ∧
        ∀ j, j < 32 → lane v j = BitVec.ofNat 32 (ofBytes (memBytes (s.core c).sram (o + 4 * j) 4)))) ∧
  (∀ (x : VdotA) (s : State),
    let q := fun j => felem .mul fF32 .rne false false (lane (s.rv x.a) j).toNat (lane (s.rv x.b) j).toNat 0
    let t := treeOf (redComb .sum (.f32 x.rm)) 5 (fun j => ((q j).1, 0)) 0
    let bad := fun f : Nat => f.testBit 0 = true ∨ f.testBit 1 = true
    (s.mode.arith = false ∨ ((∀ j, j < 32 → ¬ bad (q j).2) ∧ ¬ bad t.2) →
      ∃ (u : State) (k : BitVec 4), exec (.vdot x) s = .next u ∧ u.th.regs = s.th.regs ∧ KeepsMem s u ∧
        u.stageOf s.me = some (.steps 2 false { Result.none with s := [(x.d, BitVec.ofNat 64 t.1)], sticky := k } none) ∧
        ∀ i, i < 4 → (k.getLsbD i = true ↔ (∃ j, j < 32 ∧ (q j).2.testBit i = true) ∨ t.2.testBit i = true)) ∧
    (s.mode.arith = true → (∃ j, j < 32 ∧ bad (q j).2) → ∃ i, exec (.vdot x) s = .next (s.takeTrap 0x40 0 i) ∧ i.toNat / 2 ^ 56 = 0) ∧
    (s.mode.arith = true → (∀ j, j < 32 → ¬ bad (q j).2) → bad t.2 →
      ∃ i, exec (.vdot x) s = .next (s.takeTrap 0x40 0 i) ∧ i.toNat / 2 ^ 56 = 1)) ∧
  (∀ (s : State) (left : Nat) (far : Bool) (r : Result) (st : Option (Place × W64 × List Byte × Bool)) (g : Stage), s.stageOf s.me = some g →
    far = true ∨ 1 < left → ∃ t, s.pollSteps left far r st = .wait t ∧ t.stageOf s.me = some (.steps (left - 1) far r st) ∧
      t.th.regs = s.th.regs ∧ KeepsMem s t) ∧
  (∀ (s : State) (d : SReg) (v : W64),
    let r := { Result.none with s := [(d, v)] }
    (∃ t, s.pollSteps 1 false r none = .used t ∧ (d ≠ 0 → rdS t.th.regs d = v) ∧ t.stageOf s.me = none ∧ KeepsMem s t) ∧
    (∃ t, s.pollSteps 0 false r none = .go t ∧ (d ≠ 0 → rdS t.th.regs d = v) ∧ t.stageOf s.me = none ∧ KeepsMem s t) ∧
    ∀ (p : Place) (a : W64) (bs : List Byte) (ev : Bool), s.myShingle = none →
      (s.myCore.sb.length < 32 → ∃ (t : State) (e : Entry), s.pollSteps 1 false r (some (p, a, bs, ev)) = .used t ∧ (d ≠ 0 → rdS t.th.regs d = v) ∧
        t.myCore.sb = s.myCore.sb ++ [e] ∧ e.dest = p.dest ∧ e.evict = ev ∧ KeepsMem s t ∧
        e.cells.map (fun w => (w.va, w.b)) = ((List.range bs.length).zip bs).map fun x => (a.toNat + x.1, x.2)) ∧
      (32 ≤ s.myCore.sb.length → s.pollSteps 1 false r (some (p, a, bs, ev)) = .wait s))

/-- 00 R6, 02 R33 to R49, 03 R52 to R58, R62, R63, 24 R385, R386: what the host's queue registers, the acceptance of a packet, the closing of a launch, the creation of a partition and the slot table
do. A slot-table write takes effect at once, unless its old entry binds cores that BOUNDED tasks hold or are being brought to, and marks the SHARED tasks it unbinds.
The model's choices: a write of ENABLE or TEAR that the queue's state gives no effect, the bind checks over deferred values, and the tasks of a closed launch, which are
dropped (log 26); that tasks being brought to the cores hold back the change of a BOUNDED entry, and a SHARED one under a fill is marked (log 71); a packet of a host-resident ring that comes with its event (log 24); QWR acts at once, whatever the host posted before, and a descriptor outside the limits of R33 is
ignored (log 72); the forward step of boot ends with the first VALID partition (log 4). -/
def Obligations.QueuesAndLaunches : Prop :=
  (∀ (p : PartN) (q : Fin 64) (v : W64) (s : State), (s.part p.val).hasQueue q.val = true → (s.part p.val).resetting = false →
    let k := (s.part p.val).queue q.val
    let loc := v.getLsbD 1
    let qlog := v.toNat / 2 ^ 8 % 16
    let good := k.qbase.toNat % 4096 = 0 ∧ (loc = true ∨ k.qbase.toNat < 2 ^ 52) ∧ qlog ≤ 12
    (k.st = .disabled → v.getLsbD 0 = true → good → ∃ t : State, exec (.queueEnable p q v) s = .next t ∧ t.mem = s.mem ∧
      (t.part p.val).queue q.val = { k with
        prio := v.toNat / 2 ^ 3 % 4, irqen := v.getLsbD 2, loc := loc, qlog := qlog, msix := v.toNat / 2 ^ 16 % 2 ^ 11
        enable := true, qrd := k.qwr, err := false, ecode := 0, st := .active }) ∧
    (k.st = .disabled → v.getLsbD 0 = true → ¬ good → ∃ t : State, exec (.queueEnable p q v) s = .next t ∧
      ((t.part p.val).queue q.val).st = .disabled ∧ ((t.part p.val).queue q.val).err = true ∧ ((t.part p.val).queue q.val).ecode = 3) ∧
    (k.st = .active → v.getLsbD 0 = false → v.toNat / 2 ^ 12 % 4 = 0 → ∃ t : State, exec (.queueDisable p q v) s = .next t ∧ t.mem = s.mem ∧
      ((t.part p.val).queue q.val).st = if s.queueClear p.val q.val then .disabled else .draining) ∧
    (k.st = .active → v.getLsbD 0 = true → v.toNat / 2 ^ 12 % 4 = 1 → ∃ t : State, exec (.queueDrain p q v) s = .next t ∧ t.mem = s.mem ∧
      ((t.part p.val).queue q.val).st = if s.queueClear p.val q.val then .disabled else .draining) ∧
    (k.st = .active ∨ k.st = .draining → v.getLsbD 0 = true → v.toNat / 2 ^ 12 % 4 = 2 → ∃ t : State, exec (.queueAbort p q v) s = .next t ∧
      ((t.part p.val).queue q.val).st = .disabled ∧ ∀ l ∈ t.launches, l.part = p.val → l.qid = q.val → l.state = .closed) ∧
    (((v.setWidth 32 : W32) - k.qrd).toNat ≤ 2 ^ (k.qlog + 4) →
      exec (.qwrWrite p q v) s = .next (s.updQueue p.val q.val fun k => { k with qwr := v.setWidth 32 })) ∧
    (2 ^ (k.qlog + 4) < ((v.setWidth 32 : W32) - k.qrd).toNat → ∃ t : State, exec (.qwrWrite p q v) s = .next t ∧
      ((t.part p.val).queue q.val).err = true ∧ ((t.part p.val).queue q.val).ecode = 1 ∧ ((t.part p.val).queue q.val).st ≠ .active)) ∧
  (∀ (v : VWord) (s : State) (p q : Nat), s.nextSource = some (p, q) → q ≠ 64 → ((s.part p).queue q).loc = true →
    let k : Packet := ⟨vBytes v⟩
    (k.shapeOk = false ∨ (k.shapeOk = true ∧ k.type = 2 ∧ k.deps = []) →
      ∃ (t : State) (l : Launch), exec (.acceptPacket (some v)) s = .next t ∧ t.launches = s.launches ++ [l] ∧ l.part = p ∧ l.qid = q ∧ l.lid = (s.part p).nextLid ∧
        (if k.shapeOk then l.state = .accepted ∧ l.marker = true ∧ l.reason = 0 else l.state = .closed ∧ l.reason = 1 ∧ l.status = 2) ∧
        (t.part p).nextLid = (s.part p).nextLid + 1 ∧ ((t.part p).queue q).qrd = ((s.part p).queue q).qrd + 1 ∧
        ((t.part p).queue q).lastlid = BitVec.ofNat 32 l.lid) ∧
    (∃ t : State, exec (.acceptPacket none) s = .next t ∧ ((t.part p).queue q).err = true ∧ ((t.part p).queue q).ecode = 2 ∧ t.launches = s.launches)) ∧
  (∀ (h : Option VWord) (s : State), s.nextSource = none → exec (.acceptPacket h) s = .next s.vtJoin) ∧
  (∀ (p : PartN) (lid : Nat) (s : State) (l : Launch), s.launch? p.val lid = some l →
    (∀ st, s.closeStatus l = some st → ∃ t : State, exec (.closeLaunch p lid) s = .next t ∧
      ((t.launch? p.val lid).map fun l => (l.state, l.status)) = some (.closed, st) ∧
      ∀ k ∈ t.tasks, ¬ (k.id.part = p.val ∧ k.id.lid = lid)) ∧
    (s.closeStatus l = none → exec (.closeLaunch p lid) s = .next s) ∧
    (l.state = .running → l.next = l.last → l.preempted = [] → (∀ k ∈ s.tasks, k.id.part = l.part → k.id.lid = l.lid → k.place = .retired) →
      l.repro = false → (∀ x ∈ (s.part l.part).tx, x.task.part = l.part → x.task.lid = l.lid → x.final = true) →
      (∀ x ∈ (s.part l.part).dq, ¬ (x.task.part = l.part ∧ x.task.lid = l.lid)) →
      s.closeStatus l = some (if l.faulted then 4 else 1)) ∧
    (l.state = .running → (∃ x ∈ (s.part l.part).tx, x.task.part = l.part ∧ x.task.lid = l.lid ∧ x.final = false) → s.closeStatus l = none) ∧
    (l.state = .running → (∃ x ∈ (s.part l.part).dq, x.task.part = l.part ∧ x.task.lid = l.lid) → s.closeStatus l = none)) ∧
  (∀ (p : PartN) (v : BitVec 512) (s : State),
    ((s.part p.val).desc.valid = false → (descOf v p.val).ok = true →
      exec (.partitionCreate p v) s = .next (({ s with mgmt := { s.mgmt with stepped := true } } : State).updPart p.val fun x => { x with desc := descOf v p.val })) ∧
    ((s.part p.val).desc.valid = true ∨ (descOf v p.val).ok = false → exec (.partitionCreate p v) s = .next s)) ∧
  (∀ (p : PartN) (b : Bool) (s : State), (s.part p.val).desc.valid = true → ∃ t : State, exec (.expertChange p b) s = .next t ∧
    (t.part p.val).desc = { (s.part p.val).desc with expert := b } ∧ t.mem = s.mem ∧ t.cores = s.cores) ∧
  (∀ (c : ClusterN) (e : Fin 8) (v : W64) (s : State),
    let k := 8 * c.val + e.val
    let held := s.boundedOn c.val (s.bindAt c.val e.val).cores
    (s.bindCheck c.val e.val v = 0 → ((s.bindAt c.val e.val).valid = false ∨ (s.bindAt c.val e.val).cls ≠ 1 ∨ held = []) →
      ∃ t : State, exec (.slotTableWrite c e v) s = .next t ∧ t.slotTable.getD k 0 = v ∧ (∀ j, j ≠ k → t.slotTable.getD j 0 = s.slotTable.getD j 0) ∧
        t.mem = s.mem ∧ t.cores = s.cores ∧
        -- a SHARED task that has lost a core, or whose fill is under way on one it has lost, is to be pre-empted
        ∀ (i : TaskId) (x : Task) (l : Launch) (b0 f : Nat), s.task? i = some x → x.place = .resident c.val b0 ∨ x.place = .filling c.val b0 f →
          s.launchOf x = some l → l.bounded = false →
          (∃ m ∈ s.blockOfTask x, ∀ j, j < 8 → (t.bindAt (m / 8) j).binds (m % 8) i.part false (s.spOf l) = false) →
          ((t.task? i).map fun y => y.mustGo) = some true) ∧
    (∀ i, i ∈ held ↔ ∃ m x l, m < 8 ∧ (s.bindAt c.val e.val).cores.testBit m = true ∧ (s.core (8 * c.val + m)).holds = some x.id ∧ s.task? x.id = some x ∧
      s.launchOf x = some l ∧ l.bounded = true ∧ i = x.id) ∧
    (s.bindCheck c.val e.val v = 0 → (s.bindAt c.val e.val).valid = true → (s.bindAt c.val e.val).cls = 1 → s.entryAt c.val e.val ≠ v →
      held ≠ [] → ∃ t : State, exec (.slotTableWrite c e v) s = .next t ∧ t.slotTable = s.slotTable ∧ ⟨k, v, held⟩ ∈ t.mgmt.deferred) ∧
    (s.bindCheck c.val e.val v ≠ 0 → ∃ t : State, exec (.slotTableWrite c e v) s = .next t ∧ t.slotTable = s.slotTable ∧ t.mgmt.sltErr = true ∧
      t.mgmt.sltEntry = k ∧ t.mgmt.sltEcode = s.bindCheck c.val e.val v)) ∧
  (∀ (v : W32) (s : State), exec (.sltstatClear v) s =
    .next (if v.getLsbD 31 then { s with mgmt := { s.mgmt with sltErr := false } } else s))

/-- 03 R51, R55, R60, 22 R362, R372 to R377: dispatch gives each core of the block the launch's threads at its entry; retirement clears the block; pre-emption stops a task, its spill
takes a frame, may stop and ends with the task saved; a resume begins to fill it (STATE 3) and brings it back, pre-empts it again where it has been unbound meanwhile, or faults it. While tasks are undispatched, a pre-empted one comes first that
RIDGE waits for or that was displaced; when all are dispatched, pre-empted ones go on in increasing index. The model's choices: registers that the spec gives no
value hold 0 (log 3); the order of pre-empted and undispatched tasks (log 27); the bytes of an image (log 28); a spill that stops with
EN = 0 (log 60); a task that has been unbound meanwhile is pre-empted as its fill ends (log 71); a core whose slot 7 still serves takes no task (log 68). -/
def Obligations.TasksComeAndGo : Prop :=
  (∀ (c : ClusterN) (b0 : Fin 8) (s : State) (l : Launch),
    let u := s.vtJoin.postStalls
    u.chosen = some l → u.nextAt l c.val b0.val = some l.next → l.next < l.last → u.fitsNext l c.val b0.val = true → u.task? ⟨l.part, l.lid, l.next⟩ = none →
    ∃ t : State, exec (.dispatchTask c b0) s = .next t ∧ (l.state = .running → t.mem = s.mem) ∧
      (l.state = .accepted → ∀ x ∈ t.launches, x.part = l.part → x.lid = l.lid → x.state = .running) ∧
      ((t.task? ⟨l.part, l.lid, l.next⟩).map fun k => k.place) = some (.resident c.val b0.val) ∧
      (∀ b, b < l.kernel.block → (t.core (8 * c.val + b0.val + b)).task = some ⟨l.part, l.lid, l.next⟩ ∧
        (t.core (8 * c.val + b0.val + b)).bidx = b ∧ (t.core (8 * c.val + b0.val + b)).ctab = 0 ∧
        ∀ j, j < l.kernel.slots → t.thr ⟨8 * c.val + b0.val + b, j⟩ =
          { Thread.reset with pc := l.kernel.entry, status := .running, mode := { Mode.reset with repro := l.repro }, settle := u.postedEnd })) ∧
  (∀ (c : ClusterN) (b0 : Fin 8) (s : State), s.vtJoin.postStalls.chosen = none → exec (.dispatchTask c b0) s = .next s.vtJoin.postStalls) ∧
  -- the order of a launch's tasks
  (∀ (s : State) (l : Launch),
    let must := fun i => ((s.task? ⟨l.part, l.lid, i⟩).map fun t => t.mustGo) = some true
    let first := fun i => i ∈ l.preempted ∧ (s.aheadOfRidge l i = false ∨ must i)
    (l.last ≤ l.next → (l.preempted = [] → s.nextTask l = none) ∧ ∀ i, i ∈ l.preempted → (∀ j ∈ l.preempted, i ≤ j) → s.nextTask l = some i) ∧
    (l.next < l.last → (∀ i, first i → (∀ j, first j → i ≤ j) → s.nextTask l = some i) ∧ ((∀ i, ¬ first i) → s.nextTask l = some l.next))) ∧
  (∀ (k : TaskId) (s : State) (x : Task) (cl b : Nat), s.task? k = some x → x.place = .resident cl b →
    (s.mayRetire x cl = true → s.mgmt.deferred = [] → ∃ t : State, exec (.taskRetire k) s = .next t ∧ ((t.task? k).map fun y => y.place) = some .retired ∧
      (∀ c ∈ s.blockOfTask x, (t.core c).task = none ∧ (t.core c).threads = []) ∧ t.mem = s.mem) ∧
    (s.mayRetire x cl = false → exec (.taskRetire k) s = .next s)) ∧
  (∀ (k : TaskId) (s : State) (x : Task) (l : Launch) (cl b : Nat), s.task? k = some x → x.place = .resident cl b → s.launchOf x = some l →
    (x.mustGo = true → ∃ t : State, exec (.preemptTask k) s = .next t ∧ ((t.task? k).map fun y => y.place) = some (.leaving cl b) ∧ t.mem = s.mem ∧
      (∀ c, (t.core c).threads = (s.core c).threads) ∧
      ∀ c ∈ s.blockOfTask x, (t.core c).spill = (s.core c).spill.latch (s.part k.part).scb) ∧
    (x.mustGo = false → l.repro = false → exec (.preemptTask k) s = .next s)) ∧
  (∀ (k : TaskId) (s : State) (x : Task) (cl b f : Nat), s.task? k = some x → x.place = .leaving cl b → x.image = none →
    (s.settled x cl = true → s.frameFor x cl b = some f → s.posted = [] → (8 * cl + b) ∈ s.blockOfTask x →
      ∃ t : State, exec (.spillStart k) s = .next t ∧ ((t.task? k).map fun y => y.image.isSome) = some true ∧ f ∈ (t.part k.part).frames ∧
        (t.core (8 * cl + b)).spill = { (s.core (8 * cl + b)).spill with state := 1, cause := 0, frame := f, offset := 0, task := some k } ∧
        (t.core (8 * cl + b)).threads = [] ∧ t.mem = s.mem) ∧
    (s.settled x cl = false → exec (.spillStart k) s = .next s)) ∧
  (∀ (k : TaskId) (s : State) (x : Task) (c : Nat) (sp : Spill) (i : Image), s.spillOf k = some (x, c, sp, i) → sp.task = some k →
    (∀ o, sp.state = 1 → s.badPart k.part i.va sp.offset i.bytes = some o →
      ((s.part k.part).scb.en = true → ∃ t : State, exec (.spillStop k) s = .next t ∧
        (t.core c).spill = { sp with state := 2, cause := 0x90, offset := o }) ∧
      ((s.part k.part).scb.en = false → ∃ t : State, exec (.spillStop k) s = .next t ∧
        ((t.task? k).map fun y => (y.place, y.faulted)) = some (.retired, true))) ∧
    (sp.state ≠ 1 → exec (.spillStop k) s = .next s ∧ exec (.spillEnd k) s = .next s) ∧
    (sp.state = 1 → s.badPart k.part i.va sp.offset i.bytes = none →
      ∃ t : State, exec (.spillEnd k) s = .next t ∧ ((t.task? k).map fun y => y.place) = some (.saved sp.frame) ∧
        ∀ l, t.launch? k.part k.lid = some l → k.idx ∈ l.preempted)) ∧
  (∀ (k : TaskId) (c : ClusterN) (b0 : Fin 8) (s : State) (l : Launch) (x : Task) (i : Image) (f : Nat),
    let u := s.vtJoin
    u.task? k = some x → x.image = some i → u.launch? k.part k.lid = some l → i.cores ≠ [] →
    (x.place = .saved f → u.chosen = some l → u.nextAt l c.val b0.val = some k.idx → u.fitsNext l c.val b0.val = true →
      ∃ t : State, exec (.resumeFill k c b0) s = .next t ∧ ((t.task? k).map fun y => (y.place, y.image)) = some (.filling c.val b0.val f, some i) ∧
        (t.core (8 * c.val + b0.val)).spill.state = 3 ∧ (t.core (8 * c.val + b0.val)).spill.frame = f ∧ t.mem = s.mem) ∧
    (x.place = .filling c.val b0.val f → s.mgmt.deferred = [] → u.freeFor i c.val = true →
      (u.fillFault k.part i = none → x.mustGo = true →
        ∃ t : State, exec (.resumeFill k c b0) s = .next t ∧ ((t.task? k).map fun y => y.place) = some (.leaving c.val b0.val) ∧ t.mem = s.mem) ∧
      (u.fillFault k.part i = none → x.mustGo = false →
        ∃ t : State, exec (.resumeFill k c b0) s = .next t ∧ ((t.task? k).map fun y => (y.place, y.image)) = some (.resident c.val b0.val, none) ∧
          f ∉ (t.part k.part).frames ∧ t.mem = s.mem ∧
          ∀ (b : Nat) (z : CoreCtx), i.cores[b]? = some z → (t.core (8 * c.val + b0.val + b)).threads = z.threads ∧
            (t.core (8 * c.val + b0.val + b)).sram = z.sram ∧ (t.core (8 * c.val + b0.val + b)).tiles = z.tiles) ∧
      (∀ e, u.fillFault k.part i = some e →
        ∃ t : State, exec (.resumeFill k c b0) s = .next t ∧ ((t.task? k).map fun y => (y.place, y.faulted)) = some (.retired, true) ∧ t.mem = s.mem)))

/-- 03 R61, 04 R73, 15 R277, R281, R284, R291 to R294, R296: the machine's own moves on its buffers. An entry of a store buffer that may drain goes to its scratchpad or to the block buffer; an entry of a
block buffer is performed once, with one version step; posted writes are performed oldest first; L1 copies may go at any time; a fetched line reaches those that asked; RIDGE rises;
in reproducible mode a task's bytes go to the shingle of its phase, and a phase is laid once: each line in one write with the bytes of the last shingle, its digest mixed in
laying order, a conflict of two tasks reported at its first byte. A reduction waits for the older entries of its thread for the line. The model's choices: the oldest line leaves a full instruction cache (log 14);
entries drain line by line (log 21); when a phase is laid, and what a conflict names (log 56). -/
def Obligations.BufferMoves : Prop :=
  (∀ (c : CoreN) (id : Nat) (s : State) (e : Entry), (s.core c.val).sb.find? (fun e => e.id = id) = some e →
    (s.mayDrain c.val e = false → exec (.storeBufferDrain c id) s = .next s) ∧
    (s.mayDrain c.val e = true → ∃ t : State, exec (.storeBufferDrain c id) s = .next t ∧ (t.core c.val).sb = (s.core c.val).sb.filter (fun x => x.id != e.id) ∧
      (∀ d, e.dest = some d → t.mem = s.mem ∧ (t.core d).sram = e.cells.foldl (fun m x => memSet m x.pa x.b) (s.core d).sram ∧
        ∀ k, k ≠ d → (t.core k).sram = (s.core k).sram) ∧
      (e.dest = none → straight e = false → t.mem = s.mem ∧
        (t.cluster (c.val / 8)).bb = (s.cluster (c.val / 8)).bb ++ if e.cells.isEmpty then [] else [e]) ∧
      -- a release of DEVICE or SYSTEM scope goes straight to its point of coherence
      (e.dest = none → straight e = true → e.red = none → e.shingle = none → (t.cluster (c.val / 8)).bb = (s.cluster (c.val / 8)).bb ∧
        (e.cells = [] → t.mem = s.mem ∧ ∀ k m, t.version k m = s.version k m) ∧
        (∀ l, linesOf (hostCells e) = [l] → (∀ x ∈ e.cells, x.pa < 0x9FFFF00000) →
          (∀ a, memByte t.mem a = memByte (e.cells.foldl (fun m x => memSet m x.pa x.b) s.mem) a) ∧ t.version l e.mside = s.version l e.mside + 1 ∧
          ∀ k m, ¬ (k = l ∧ m = e.mside) → t.version k m = s.version k m)))) ∧
  (∀ e : Entry, straight e = true ↔ e.rel = true ∧ (e.scope = .device ∨ e.scope = .system)) ∧
  (∀ (c : ClusterN) (id : Nat) (s : State) (e : Entry) (l : Nat), (s.cluster c.val).bb.find? (fun e => e.id = id) = some e → linesOf (hostCells e) = [l] →
    heldBack e [id] (s.cluster c.val).bb = false →
    -- in reproducible mode the bytes go to the shingle of the writing task and phase, and to no other
    (∀ (sh : TaskId × W32) (q : Launch), e.red = none → e.shingle = some sh → s.launch? sh.1.part sh.1.lid = some q →
      ∃ t : State, exec (.blockBufferDrain c id []) s = .next t ∧ t.mem = s.mem ∧ (∀ k m, t.version k m = s.version k m) ∧
        (∀ va pa, t.shByte (some sh) va pa = ((e.cells.reverse.find? fun w => w.va == va).map fun w => w.b).getD (s.shByte (some sh) va pa)) ∧
        (∀ k va pa, k ≠ sh → t.shByte (some k) va pa = s.shByte (some k) va pa) ∧
        (t.cluster c.val).bb = (s.cluster c.val).bb.filter (fun x => !([id].contains x.id))) ∧
    (e.shingle = none → e.red = none → (∀ x ∈ e.cells, x.pa < 0x9FFFF00000) → ∃ t : State, exec (.blockBufferDrain c id []) s = .next t ∧
      (∀ a, memByte t.mem a = memByte (e.cells.foldl (fun m x => memSet m x.pa x.b) s.mem) a) ∧ t.version l e.mside = s.version l e.mside + 1 ∧
      (∀ k m, ¬ (k = l ∧ m = e.mside) → t.version k m = s.version k m) ∧ (t.cluster c.val).bb = (s.cluster c.val).bb.filter (fun x => !([id].contains x.id))) ∧
    (e.red.isSome = true → s.redClear e c.val = false → exec (.blockBufferDrain c id []) s = .next s) ∧
    (∀ (v : W64) (x : WCell) (p lid g : Nat) (n : W32), e.shingle = none → e.red = some (.add, .i64, v) → e.cells.head? = some x → x.pa % 8 = 0 → x.pa + 8 ≤ 0x9FFFF00000 →
      e.tag = some ((p, lid, g), n) → s.redClear e c.val = true →
      (∀ r, assocGet (s.part p).effects (lid, g, Target.line l) = some (n, r) → ∃ t : State, exec (.blockBufferDrain c id []) s = .next t ∧ t.mem = s.mem) ∧
      (assocGet (s.part p).effects (lid, g, Target.line l) = none → ∃ t : State, exec (.blockBufferDrain c id []) s = .next t ∧
        ofBytes (memBytes t.mem x.pa 8) = (ofBytes (memBytes s.mem x.pa 8) + v.toNat) % 2 ^ 64 ∧
        (assocGet (t.part p).effects (lid, g, Target.line l)).map (·.1) = some n))) ∧
  (∀ (c : CoreN) (line : Nat) (s : State),
    exec (.l1CopyDrop c line) s = .next (s.updCore c.val fun k => { k with l1 := k.l1.filter fun e => e.line != line })) ∧
  (∀ (s : State), (s.posted = [] → exec .postedWritePerform s = .next s) ∧
    ∀ w r, s.posted = w :: r → ∃ t : State, exec .postedWritePerform s = .next t ∧ t.posted = r ∧
      (∀ k, w.dest = some k → w.land = none → t.mem = s.mem ∧ ∀ a, memByte (t.core k).sram a = memByte (w.cells.foldl (fun m x => memSet m x.1 x.2) (s.core k).sram) a) ∧
      (w.dest = none → (∀ x ∈ w.cells, x.1 < 0x9FFFF00000) →
        (∀ a, memByte t.mem a = memByte (w.cells.foldl (fun m x => memSet m x.1 x.2) s.mem) a) ∧ ∀ k, (t.core k).sram = (s.core k).sram)) ∧
  (∀ (c : ClusterN) (line : Nat) (s : State),
    ((∀ e ∈ (s.cluster c.val).fmb, e.pa ≠ line) → exec (.fetchFill c line) s = .next s) ∧
    ∀ e, (s.cluster c.val).fmb.find? (fun e => e.pa = line) = some e → e.reqs.Pairwise (fun x y => x.1 ≠ y.1) → ∃ t : State, exec (.fetchFill c line) s = .next t ∧
      (t.cluster c.val).fmb = (s.cluster c.val).fmb.filter (fun x => x.pa != e.pa) ∧ t.mem = s.mem ∧
      (∀ k v, (k, v) ∈ e.reqs → (t.core k).l0 = l0Put (s.core k).l0 v (s.lineAt line) s.cycle) ∧
      ∀ k, (∀ v, (k, v) ∉ e.reqs) → (t.core k).l0 = (s.core k).l0) ∧
  (∀ (p : PartN) (lid : Nat) (s : State) (l : Launch), s.launch? p.val lid = some l → l.state = .running → ∃ t : State, exec (.ridgePublish p lid) s = .next t ∧
    t.mem = s.mem ∧ t.tasks = s.tasks ∧ (t.launch? p.val lid).map (fun x => x.ridge) = some (if l.ridge < s.trueRidge l then s.trueRidge l else l.ridge)) ∧
  (∀ (p : PartN) (lid : Nat) (s : State) (l : Launch), s.launch? p.val lid = some l →
    (l.repro = false ∨ l.state ≠ .running ∨ l.ridge.toNat ≤ l.laid ∨ s.phaseOut l l.laid = false → exec (.layPhase p lid) s = .next s) ∧
    (s.reached l ≤ l.laid → exec (.layPhase p lid) s = .next s) ∧
    (l.repro = true → l.state = .running → l.laid < l.ridge.toNat → l.laid < s.reached l → s.phaseOut l l.laid = true →
      let ls := l.layers l.laid
      ∃ (t : State) (ns : List Nat), exec (.layPhase p lid) s = .next t ∧ ns.Pairwise (fun a b => a < b) ∧
        (∀ n, n ∈ ns ↔ ∃ a ∈ ls, ∃ x ∈ a.2, x.line = n) ∧
        let m := ns.foldl (fun (u : State) n => u.layLine p.val ls n) s
        t.mem = m.mem ∧ (∀ k b, t.version k b = m.version k b) ∧ (∀ c, (t.core c).sram = (s.core c).sram) ∧
        ((t.launch? p.val lid).map fun x => (x.laid, x.dig, x.shingles)) = some (l.laid + 1,
          ls.foldl (fun h a => a.2.foldl digestLine h) (mix l.dig (BitVec.ofNat 64 l.laid)), l.shingles.filter fun e => e.1.2 != l.laid) ∧
        (l.lastwin = true ∨ conflictOf ls = none → t.tasks = s.tasks ∧ ∀ u, t.thr u = s.thr u) ∧
        ∀ a t1 t2, l.lastwin = false → conflictOf ls = some (a, t1, t2) →
          (s.allRetired l = true → l.faulted = false →
            ((t.launch? p.val lid).map fun x => (x.faulted, x.fcause, x.ftask)) = some (true, 0x50, BitVec.ofNat 32 t2)) ∧
          (s.allRetired l = false → ∀ c k i, (s.core c).task = some k → k.part = p.val → k.lid = lid → i ≠ 7 →
            (s.thr ⟨c, i⟩).status ≠ .ended → (s.thr ⟨c, i⟩).status ≠ .empty →
            (t.thr ⟨c, i⟩).confl = some (BitVec.ofNat 64 a, BitVec.ofNat 64 (t1 + 2 ^ 32 * t2))))) ∧
  (∀ (l : Launch) (ph : Nat), (l.layers ph).Pairwise (fun a b => a.1 ≤ b.1) ∧ ∀ i x, (i, x) ∈ l.layers ph ↔ ((i, ph), x) ∈ l.shingles) ∧
  -- one line: the last shingle's value stands, in one write
  (∀ (s : State) (p n : Nat) (ls : List (Nat × List ShLine)),
    let u := s.layLine p ls n
    let w := walk s.mem (s.part p).desc.ptroot (128 * n)
    let bare := fun (as : List (Nat × List ShLine)) i => ∀ a ∈ as, ∀ y ∈ a.2, y.line = n → y.mask.getLsbD i = false
    (∀ i r, w = .fault i r → u.mem = s.mem ∧ ∀ k m, u.version k m = s.version k m) ∧
    ∀ e sz r, w = .leaf e sz r →
      let pg := mkPg (128 * n) sz e
      let base := pg.pa + (128 * n - pg.va)
      base % 128 = 0 → base + 128 ≤ 0x9FFFF00000 → (∃ i, i < 128 ∧ ¬ bare ls i) →
        (∀ pre a post x i, i < 128 → ls = pre ++ a :: post → a.2.find? (fun y => y.line == n && y.mask.getLsbD i) = some x → bare post i →
          memByte u.mem (base + i) = x.data.extractLsb' (8 * i) 8) ∧
        (∀ i, i < 128 → bare ls i → memByte u.mem (base + i) = memByte s.mem (base + i)) ∧
        (∀ a, a < base ∨ base + 128 ≤ a → memByte u.mem a = memByte s.mem a) ∧
        u.version (base / 128) pg.mside = s.version (base / 128) pg.mside + 1 ∧
        ∀ k m, ¬ (k = base / 128 ∧ m = pg.mside) → u.version k m = s.version k m) ∧
  -- the first byte in laying order that two tasks wrote
  (∀ ls : List (Nat × List ShLine), ls.Pairwise (fun a b => a.1 < b.1) → (∀ a ∈ ls, a.2.Pairwise (fun x y => x.line < y.line)) →
    let holds := fun (a : Nat × List ShLine) ad => ∃ x ∈ a.2, x.line = ad / 128 ∧ x.mask.getLsbD (ad % 128) = true
    let meets := fun i j ad => i < j ∧ (∃ a ∈ ls, a.1 = i ∧ holds a ad) ∧ ∃ b ∈ ls, b.1 = j ∧ holds b ad
    (conflictOf ls = none ↔ ∀ i j ad, ¬ meets i j ad) ∧
    ∀ ad t1 t2, conflictOf ls = some (ad, t1, t2) → meets t1 t2 ad ∧
      ∀ i j b, meets i j b → t1 < i ∨ (t1 = i ∧ (ad < b ∨ (ad = b ∧ t2 ≤ j)))) ∧
  -- the digest
  (∀ (h : W64) (x : ShLine), ∃ word : Nat → W64,
    (∀ j i, j < 16 → i < 8 → (word j).extractLsb' (8 * i) 8 =
      if x.mask.getLsbD (8 * j + i) then x.data.extractLsb' (8 * (8 * j + i)) 8 else (0 : Byte)) ∧
    digestLine h x = (List.range 16).foldl (fun h j =>
      let m : Byte := x.mask.extractLsb' (8 * j) 8
      if m = 0 then h else mix (mix h (BitVec.ofNat 64 (256 * j + m.toNat))) (word j)) (mix h (BitVec.ofNat 64 (128 * x.line)))) ∧
  (∀ h w : W64, mix h w =
    let x := (h ^^^ w).rotateLeft 23 * 0x9E6F2B8D4C31A5E7
    x ^^^ (x >>> 29)) ∧
  -- an access of a task that has entered a phase before the last one is laid
  (∀ (s : State) (t : Task) (l : Launch), s.myTask = some t → s.launchOf t = some l →
    s.phaseGate false = .ok () s ∧ (l.repro = false → s.phaseGate true = .ok () s) ∧
    (l.repro = true → l.laid < t.phase.toNat → s.phaseGate true = .pass (s.updTh fun t => { t with ridgeWait := true })) ∧
    (l.repro = true → t.phase.toNat ≤ l.laid → t.acqPhase = false → s.phaseGate true = .ok () s) ∧
    (l.repro = true → t.phase.toNat ≤ l.laid → t.acqPhase = true → s.cur.core ∈ s.blockOf s.cur.core →
      ∃ u : State, s.phaseGate true = .ok () u ∧ u.mem = s.mem ∧ (u.core s.cur.core).l1 = [] ∧ (u.myTask.map fun t => t.acqPhase) = some false)) ∧
  (∀ (s : State) (t : Task) (l : Launch), s.myTask = some t → s.launchOf t = some l →
    (l.repro = false → s.myShingle = none) ∧
    (l.repro = true → assocGet t.stealing (s.myCore.bidx, s.cur.slot) = none → s.myShingle = some (t.id, t.phase)) ∧
    ∀ v, l.repro = true → assocGet t.stealing (s.myCore.bidx, s.cur.slot) = some v → s.myShingle = some (⟨t.id.part, t.id.lid, v⟩, t.phase))

/-- 18 R320 to R324: a data flit in order is taken once and acknowledged later, at the latest with the 32nd; one with a broken CRC asks for a replay; idle flits carry what is owed; a replay sends every flit not
acknowledged; fragments leave as flits of 112 bytes against credits, as many as those last; a lost lane makes the link train, and it comes back at the widest good width or goes down. The model's choices: the bit order of the
CRC (log 7); a flit behind the expected one is dropped silently (log 29). -/
def Obligations.LinkMoves : Prop :=
  (∀ (q : Fin 12) (f : VWord) (s : State),
    let p := s.port q.val
    let h := hdrOf f
    (p.st ≠ .up → exec (.flitReceive q f) s = .next s) ∧
    (p.st = .up → flitOk f = false → ∃ t : State, exec (.flitReceive q f) s = .next t ∧ t.mem = s.mem ∧ (t.port q.val).inbuf = p.inbuf ∧
      (t.port q.val).expected = p.expected ∧ (t.port q.val).nacked = true ∧ (p.nacked = true → (t.port q.val).wire = p.wire) ∧
      (p.nacked = false → (t.port q.val).wire = p.wire ++ [mkFlit ⟨p.lastSent, p.accepted, 2, 0, false, p.credit.1, p.credit.2⟩ []])) ∧
    (p.st = .up → flitOk f = true → h.type = 1 → h.seq = p.expected → ∃ t : State, exec (.flitReceive q f) s = .next t ∧ t.mem = s.mem ∧
      (t.port q.val).inbuf.getD h.vc [] = p.inbuf.getD h.vc [] ++ [(s.ptpMsg, f)] ∧ (t.port q.val).expected = (p.expected + 1) % 2 ^ 20 ∧
      (p.unreported < 31 → (t.port q.val).unreported = p.unreported + 1 ∧ (t.port q.val).wire = p.wire) ∧
      (31 ≤ p.unreported → (t.port q.val).unreported = 0 ∧ (t.port q.val).wire = p.wire ++
        [mkFlit ⟨p.lastSent, ((p.expected + 1) % 2 ^ 20 + 2 ^ 20 - 1) % 2 ^ 20, 0, 0, false, p.credit.1, p.credit.2⟩ []])) ∧
    (p.st = .up → flitOk f = true → h.type = 1 → h.seq ≠ p.expected → ∃ t : State, exec (.flitReceive q f) s = .next t ∧ t.mem = s.mem ∧
      (t.port q.val).inbuf = p.inbuf ∧ (t.port q.val).expected = p.expected)) ∧
  (∀ (q : Fin 12) (s : State),
    let p := s.port q.val
    (p.st ≠ .up → exec (.ackIdleSend q) s = .next s) ∧
    (p.st = .up → ∃ t : State, exec (.ackIdleSend q) s = .next t ∧ t.mem = s.mem ∧ (t.port q.val).unreported = 0 ∧
      (t.port q.val).wire = p.wire ++ [mkFlit ⟨p.lastSent, p.accepted, 0, 0, false, p.credit.1, p.credit.2⟩ []] ∧ (t.port q.val).replay = p.replay) ∧
    (p.st = .up → p.replay ≠ [] → exec (.replayTimeout q) s =
      .next (s.updPort q.val fun p => { p with wire := p.wire ++ p.replay, replays := p.replays + 1 })) ∧
    (p.st ≠ .up ∨ p.replay = [] → ∃ t : State, exec (.replayTimeout q) s = .next t ∧ t.port q.val = p ∧ t.mem = s.mem)) ∧
  (∀ (q : Fin 12) (vc : Fin 8) (s : State) (fr : Fragment) (r : List Fragment),
    let p := s.port q.val
    (p.st ≠ .up ∨ vc.val = 0 → exec (.fragmentTransmit q vc) s = .next s) ∧
    (p.st = .up → vc.val ≠ 0 → p.outq.getD vc.val [] = fr :: r → 1 ≤ fr.bytes.length → fr.bytes.length ≤ 112 → p.sentFlits.getD vc.val 0 = 0 →
      fr.mine = none → fr.from_ = none →
      (p.credits.getD vc.val 64 = 0 → ∃ t : State, exec (.fragmentTransmit q vc) s = .next t ∧ (t.port q.val).wire = p.wire ∧ (t.port q.val).outq = p.outq) ∧
      (p.credits.getD vc.val 64 ≠ 0 → p.replay.length < 8192 → ∃ t : State, exec (.fragmentTransmit q vc) s = .next t ∧ t.mem = s.mem ∧
        let f := mkFlit ⟨p.nextSeq, p.accepted, 1, vc.val, true, p.credit.1, p.credit.2⟩ fr.bytes
        (t.port q.val).wire = p.wire ++ [f] ∧ (t.port q.val).replay = p.replay ++ [f] ∧ (t.port q.val).nextSeq = (p.nextSeq + 1) % 2 ^ 20 ∧
        (t.port q.val).credits.getD vc.val 64 = p.credits.getD vc.val 64 - 1 ∧ (t.port q.val).outq.getD vc.val [] = r))) ∧
  -- a fragment of any number of flits, from the first that has not left on
  (∀ (q : Fin 12) (vc : Fin 8) (s : State) (fr : Fragment) (r : List Fragment),
    let p := s.port q.val
    let n := (fr.bytes.length + 111) / 112
    let k := p.sentFlits.getD vc.val 0
    let m := min (n - k) (min (p.credits.getD vc.val 64) (8192 - p.replay.length))
    p.st = .up → vc.val ≠ 0 → p.outq.getD vc.val [] = fr :: r → n ≤ 37 → k < n →
      ∃ (t : State) (fs : List VWord), exec (.fragmentTransmit q vc) s = .next t ∧ t.mem = s.mem ∧ fs.length = m ∧
        (t.port q.val).wire = p.wire ++ fs ∧ (t.port q.val).replay = p.replay ++ fs ∧
        (t.port q.val).credits.getD vc.val 64 = p.credits.getD vc.val 64 - m ∧
        (∀ i, i < m → ∃ cv cn, fs[i]? = some (mkFlit ⟨(p.nextSeq + i) % 2 ^ 20, p.accepted, 1, vc.val, decide (k + i + 1 = n), cv, cn⟩
          ((fr.bytes.drop (112 * (k + i))).take 112))) ∧
        (k + m = n → (t.port q.val).outq.getD vc.val [] = r ∧ (t.port q.val).sentFlits.getD vc.val 0 = 0) ∧
        (k + m < n → (t.port q.val).outq.getD vc.val [] = fr :: r ∧ (t.port q.val).sentFlits.getD vc.val 0 = k + m)) ∧
  -- the widest width whose lanes are all good
  (∀ m : BitVec 16,
    let good := fun lo n : Nat => ∀ i, i < n → m.getLsbD (lo + i) = true
    let four := ∃ lo ∈ [0, 4, 8, 12], good lo 4
    (widthOf m = 16 ↔ good 0 16) ∧ (widthOf m = 8 ↔ ¬ good 0 16 ∧ (good 0 8 ∨ good 8 8)) ∧
      (widthOf m = 4 ↔ ¬ good 0 8 ∧ ¬ good 8 8 ∧ four) ∧ (widthOf m = 0 ↔ ¬ four)) ∧
  (∀ (q : Fin 12) (lane : Fin 16) (s : State), (s.port q.val).st = .up → ∃ t : State, exec (.laneFailure q lane) s = .next t ∧ t.mem = s.mem ∧
    (t.port q.val).st = .retraining ∧ (t.port q.val).myLanes.getLsbD lane.val = false ∧ (t.port q.val).lanes.getLsbD lane.val = false ∧
    ∀ k, k < 16 → k ≠ lane.val → (t.port q.val).myLanes.getLsbD k = (s.port q.val).myLanes.getLsbD k) ∧
  (∀ (q : Fin 12) (m : BitVec 16) (ok : Bool) (s : State),
    let p := s.port q.val
    (p.st = .up ∨ p.st = .down → exec (.retrainComplete q m ok) s = .next s) ∧
    (p.st = .retraining ∨ p.st = .training →
      (ok = true → widthOf (p.myLanes &&& m) ≠ 0 → ∃ t : State, exec (.retrainComplete q m ok) s = .next t ∧ t.mem = s.mem ∧ (t.port q.val).st = .up ∧
        (t.port q.val).width = widthOf (p.myLanes &&& m) ∧ (t.port q.val).lanes = p.myLanes &&& m ∧ (t.port q.val).wire = p.wire ++ p.replay) ∧
      ((ok = false ∧ 2 ≤ p.fails) ∨ (ok = true ∧ widthOf (p.myLanes &&& m) = 0) → p.outq = [] →
        ∃ t : State, exec (.retrainComplete q m ok) s = .next t ∧ t.mem = s.mem ∧ (t.port q.val).st = .down) ∧
      (ok = false → p.fails < 2 → exec (.retrainComplete q m ok) s = .next (s.setPort q.val { p with fails := p.fails + 1 }))))

/-- 10 R209 to R212, 18 R328 to R337: whole fragments are forwarded or delivered; a complete message gives its receive handle CODE 1, one past its deadline CODE 2, or waits as a lost
one for its post; sends become final; the oldest send forms its fragments; counters clear; a frame of at most 9216 bytes is taken by the rule it matches, claims, as the cycle ends, the
first armed entry that was EMPTY as it began, and its bytes come to the entry through the posted queue. The model's choices: the launch of a group (log 30), positions of messages and
posts (log 31), lateness, and that a message or a send with an acknowledgement does not close while a port holds a fragment of it that came in time, and that what closes one takes those first (log 32), CODE 3 found at the
departure (log 33), the formats of Ethernet, the claim and HITS of a frame (log 36), that a claim looks at the entries as the cycle began and a `tdef` of the cycle comes after it (log 17), short frames (log 74); a fragment carries no poison (log 44). -/
def Obligations.MessageAndFrameMoves : Prop :=
  (∀ (q : Fin 12) (s : State), (s.port q.val).takeFragment = none → exec (.fragmentReceive q) s = .next s) ∧
  (∀ (q : Fin 12) (s : State) (x : Whole) (p : Port), (s.port q.val).takeFragment = some (x, p) →
    let u := s.setPort q.val p
    let b := x.bytes
    let h := hdrOfBytes b
    let hop := field b 36 1 + 1
    let path := field b 32 4
    let e := path / 2 ^ (4 * (hop + 1)) % 16
    (hop ≠ path % 16 → exec (.fragmentReceive q) s = .next (u.forward b hop (q.val, x.vc) x.n)) ∧
    (hop ≠ path % 16 → e ≤ 11 → hop ≤ 6 → (u.port e).st ≠ .down → ∃ t : State, exec (.fragmentReceive q) s = .next t ∧ t.mem = s.mem ∧
      (t.port e).outq.getD (hop + 1) [] = (u.port e).outq.getD (hop + 1) [] ++ [⟨patch b 36 [BitVec.ofNat 8 hop], none, some (q.val, x.vc)⟩]) ∧
    (hop = path % 16 → h.fidx = 0xFF → exec (.fragmentReceive q) s = .next ((u.owe (some (q.val, x.vc)) x.n).arriveAck h x.time)) ∧
    (hop = path % 16 → h.fidx ≠ 0xFF →
      exec (.fragmentReceive q) s = .next ((u.owe (some (q.val, x.vc)) x.n).arriveFragment h x.time ((b.drop 48).take h.f))) ∧
    (hop = path % 16 → h.fidx ≠ 0xFF → s.launchFor h.key = none →
      ∃ t : State, exec (.fragmentReceive q) s = .next t ∧ t.mem = s.mem ∧ (t.port q.val).inbuf = p.inbuf ∧
        (t.port q.val).owed.getD x.vc 0 = p.owed.getD x.vc 0 + x.n ∧ (t.part h.key.part).ctr.noMatch = (s.part h.key.part).ctr.noMatch + 1)) ∧
  (∀ (s : State) (h : FHdr) (now : Nat) (bs : List Byte) (l : Launch) (g : Group), s.launchFor h.key = some l → l.group = some g →
    let p := h.key.part
    let t := s.arriveFragment h now bs
    (g.rank ≠ h.key.drank ∨ l.state = .closed → (t.part p).ctr.noMatch = (s.part p).ctr.noMatch + 1 ∧ (t.part p).rx = (s.part p).rx) ∧
    (g.rank = h.key.drank → l.state ≠ .closed →
      (h.deadline < now → (t.part p).ctr.late = (s.part p).ctr.late + 1 ∧ (t.part p).rx = (s.part p).rx) ∧
      (now ≤ h.deadline → (∀ e ∈ (s.part p).closed, ¬ (e.1 = h.key ∧ now ≤ e.2)) → (∀ e ∈ (s.part p).lost, e.key ≠ h.key) →
        (∀ m, s.rx? h.key = some m → (m.frags.get? h.fidx).isSome = true → (t.part p).ctr.dups = (s.part p).ctr.dups + 1) ∧
        (s.rx? h.key = none → (s.part p).postFor h.key l.lid = none → (s.part p).decodeRoom h.key bs.length = true →
          ((t.rx? h.key).map fun m => (m.frags, m.len, m.deadline, m.post)) = some ([(h.fidx, bs)], h.len, h.deadline, none)) ∧
        (s.rx? h.key = none → (s.part p).postFor h.key l.lid = none → (s.part p).decodeRoom h.key bs.length = false →
          (t.part p).ctr.drops = (s.part p).ctr.drops + 1)))) ∧
  (∀ (k : MsgKey) (s : State), s.awaits k = true ↔ ∃ e ∈ s.ports, ∃ x ∈ e.2.wholes,
    field x.bytes 36 1 + 1 = field x.bytes 32 4 % 16 ∧ (hdrOfBytes x.bytes).fidx ≠ 0xFF ∧ (hdrOfBytes x.bytes).key = k ∧ x.time ≤ (hdrOfBytes x.bytes).deadline) ∧
  (∀ (m : TxMsg) (s : State), s.awaitsAck m = true ↔ ∃ e ∈ s.ports, ∃ x ∈ e.2.wholes,
    field x.bytes 36 1 + 1 = field x.bytes 32 4 % 16 ∧ (hdrOfBytes x.bytes).fidx = 0xFF ∧ (hdrOfBytes x.bytes).ackOf = m.key ∧ x.time ≤ m.ackBy) ∧
  (∀ (k : MsgKey) (s : State) (m : RxMsg), s.rx? k = some m →
    let shows := fun (t : State) (code : Nat) => ∀ y z, m.post = some y → s.task? y.task = some z → z.image = none →
      (t.thr y.thread).handles = (s.thr y.thread).handles.map fun h => if h.seq = y.seq then
        { h with st := { h.st with code := code, len := m.len, frags := m.frags.length, rebuilt := m.rebuilt }, doneAt := s.cycle } else h
    (s.awaits k = true → exec (.messageComplete k) s = .next s ∧ exec (.messageDeadlineExpiry k) s = .next s) ∧
    (m.post.isSome = true → m.ackreq = false → m.writes = [] → s.awaits k = false → s.ptpMsg ≤ m.deadline ∨ m.k ≤ m.frags.length → (∀ j, j < m.k → j * m.f < m.len → j ∈ m.got) → ∃ t : State, exec (.messageComplete k) s = .next t ∧
      t.mem = s.mem ∧ t.rx? k = none ∧ (t.part k.part).ctr.received = (s.part k.part).ctr.received + 1 ∧ shows t 1) ∧
    ((∃ j, j < m.k ∧ j * m.f < m.len ∧ j ∉ m.got) ∨ (m.deadline < s.ptpMsg ∧ m.frags.length < m.k) → exec (.messageComplete k) s = .next s) ∧
    (s.ptpMsg ≤ m.deadline → exec (.messageDeadlineExpiry k) s = .next s) ∧
    (m.deadline < s.ptpMsg → m.frags.length < m.k → s.awaits k = false → ∃ t : State, exec (.messageDeadlineExpiry k) s = .next t ∧ t.mem = s.mem ∧ t.rx? k = none ∧
      (t.part k.part).ctr.lost = (s.part k.part).ctr.lost + 1 ∧ shows t 2 ∧
      (m.post = none → (t.part k.part).lost = (s.part k.part).lost ++ [⟨k, m.lid, m.len, m.frags.length⟩]))) ∧
  (∀ (h : ThreadId) (seq : W32) (s : State) (m : TxMsg), s.tx? h seq = some m →
    (m.ack = false → m.sent = true → m.left = 0 → exec (.sendFragmentsDeparted h seq) s = .next (s.finalSend m 1)) ∧
    (m.ack = true ∨ m.sent = false ∨ m.left ≠ 0 → exec (.sendFragmentsDeparted h seq) s = .next s) ∧
    (m.ack = true → m.ackBy < s.ptpMsg → s.awaitsAck m = false → exec (.sendAckTimeout h seq) s = .next (s.finalSend m 2)) ∧
    (m.ack = false ∨ s.ptpMsg ≤ m.ackBy ∨ s.awaitsAck m = true → exec (.sendAckTimeout h seq) s = .next s)) ∧
  (∀ (s : State) (m : TxMsg) (code : Nat) (x : Task) (v : Handle), s.task? m.task = some x → x.image = none → m.tile = none →
    (s.thr m.thread).handles = [v] → v.seq = m.seq → ((s.finalSend m code).thr m.thread).handles = [{ v with st := { v.st with code := code }, doneAt := s.cycle }]) ∧
  (∀ (s : State) (m : TxMsg), s.oldestSend = some m → s.beforeDone m.thread.core m.before = true → s.sendGate m = true →
    (s.upPaths m.paths = [] → exec .fabricSendDepart s = .next (s.finalSend m 3)) ∧
    (∀ w src t, s.upPaths m.paths = [w] → s.sendSource m = .ok src t → ∃ u : State, exec .fabricSendDepart s = .next u ∧ u.mem = t.mem ∧
      ((u.port (hopPort w.toNat 1)).outq.getD 1 []).length = ((t.port (hopPort w.toNat 1)).outq.getD 1 []).length + m.k + m.m)) ∧
  (∀ (p : PartN) (s : State), (s.part p.val).resetting = false → exec (.msgCountersClear p) s = .next (s.updPart p.val fun x => { x with ctr := .reset })) ∧
  (∀ (p : PartN) (r : Fin 32) (w : Fin 4) (v : W64) (s : State), (s.part p.val).resetting = false → ∃ t : State, exec (.flowRuleWrite p r w v) s = .next t ∧
    t.mem = s.mem ∧ (∀ k, k ≠ r.val → (t.part p.val).flow.get? k = (s.part p.val).flow.get? k) ∧
    let f := (t.part p.val).flow.getD r.val .reset
    (w = 0 → f.en = v.getLsbD 0 ∧ f.ports = v.extractLsb' 16 2 ∧ f.lslot = v.toNat / 2 ^ 20 % 4 ∧ f.core = v.toNat / 2 ^ 22 % 8 ∧
      f.cluster = v.toNat / 2 ^ 25 % 2 ^ 7 ∧ f.hits = 0 ∧ f.drops = 0) ∧
    (w = 3 → f.vlanen = v.getLsbD 19 ∧ f.vid = v.toNat / 2 ^ 20 % 2 ^ 12 ∧ f.uport = v.toNat / 2 ^ 32 % 2 ^ 16 ∧ f.etype = v.toNat / 2 ^ 48)) ∧
  (∀ (port : Fin 2) (f : List Byte) (s : State),
    (f.length < 18 ∨ 9216 < f.length - 4 ∨ field f (f.length - 4) 4 ≠ (crc32 (f.take (f.length - 4))).toNat → exec (.frameReceive port f) s = .next s) ∧
    (∀ (p i : Nat) (x : Partition) (r : FlowRule), 18 ≤ f.length → f.length - 4 ≤ 9216 →
      field f (f.length - 4) 4 = (crc32 (f.take (f.length - 4))).toNat → (f.headD 0).getLsbD 0 = false →
      let b := f.take (f.length - 4)
      s.parts = [(p, x)] → x.stations = [(0, (frameInfo b).dst)] → x.flow = [(i, r)] → r.matches port.val (frameInfo b) = true →
      exec (.frameReceive port f) s = .next { s with frames := s.frames ++
        [⟨p, i, port.val, 8 * r.cluster + r.core, r.lslot, b, (frameInfo b).tagged, s.ptpNs - Config.stampNs port.val, none⟩] })) ∧
  (∀ (s : State) (f : RxFrame),
    let t := s.landFrame f
    let k := s.core f.core
    let w := k.land.getD f.lslot ⟨[], 0⟩
    let hits := fun s : State => ((s.part f.part).flow.getD f.rule .reset).hits
    let drops := fun s : State => ((s.part f.part).flow.getD f.rule .reset).drops
    (s.landable f.part f.core = false → drops t = drops s + 1 ∧ t.cores = s.cores) ∧
    (s.landable f.part f.core = true → f.tile = none → firstEmpty k.tiles0 w.arms = none →
      drops t = drops s + 1 ∧ (t.core f.core).land.getD f.lslot ⟨[], 0⟩ = ⟨[], w.seq⟩) ∧
    (∀ i tl rest, s.landable f.part f.core = true → k.task = some i → f.tile = none → firstEmpty k.tiles0 w.arms = some (tl, rest) →
      (s.claimFree f.core tl = false → t.frames = s.frames ++ [{ f with tile := some (i, tl) }] ∧ t.posted = s.posted ∧
        (t.core f.core).land.getD f.lslot ⟨[], 0⟩ = ⟨rest, w.seq⟩) ∧
      (s.claimFree f.core tl = true → t.mem = s.mem ∧ hits t = hits s ∧ t.frames = s.frames ∧
        (t.core f.core).land.getD f.lslot ⟨[], 0⟩ = ⟨rest, w.seq + 1⟩ ∧
        let x := k.tiles0.getD tl .reset
        let n := min f.bytes.length (256 * x.size - 32)
        (∃ id, t.posted = s.posted ++ [⟨id, some f.core, cellsAt (256 * x.base)
          (landingHeader f.port f.rule f.bytes.length (w.seq + 1).toNat f.tagged (decide (n < f.bytes.length)) f.ns ++ f.bytes.take n), false,
          some ⟨i, tl, f.part, f.rule⟩⟩]) ∧
        (tl ∈ k.tdefs → (t.core f.core).tiles = k.tiles) ∧
        (tl ∉ k.tdefs → (t.core f.core).tiles.getD tl .reset = { k.tiles.getD tl .reset with st := .filling, expect := 32 + n, arrived := 0 }))) ∧
    (∀ i tl, s.landable f.part f.core = true → k.task = some i → f.tile = some (i, tl) → s.claimFree f.core tl = false →
      t.frames = s.frames ++ [f] ∧ t.cores = s.cores)) ∧
  (∀ (s : State) (w : Posted) (r : List Posted) (c : Nat) (l : Landed), s.posted = w :: r → w.dest = some c → w.land = some l →
    let k := s.core c
    let x := k.tiles.getD l.tile .reset
    let hits := fun s : State => ((s.part l.part).flow.getD l.rule .reset).hits
    ∃ t : State, exec .postedWritePerform s = .next t ∧ t.posted = r ∧ t.mem = s.mem ∧
      (k.task ≠ some l.task ∨ s.tileIs c l.tile .filling = false → t.cores = s.cores ∧ hits t = hits s) ∧
      (k.task = some l.task → s.tileIs c l.tile .filling = true → x.arrived = 0 → x.expect = w.cells.length → hits t = hits s + 1 ∧
        (t.core c).tiles.getD l.tile .reset = { x with st := .ready, arrived := x.expect } ∧
        ∀ a, memByte (t.core c).sram a = memByte (memWrite k.sram (256 * x.base) (w.cells.map Prod.snd)) a)) ∧
  (∀ (s : State) (l : Launch) (x : Post) (e : LostMsg),
    let p := s.part s.myPart
    let j := nthFree ((p.posts.filter fun y => y.on l.lid x.srank x.chan).length + 1) (p.matchedOf (x.srank, x.chan, l.lid))
    let k : MsgKey := ⟨s.myPart, (l.group.map fun g => g.id.toNat).getD 0, x.srank, (l.group.map fun g => g.rank).getD 0, x.chan, j⟩
    let t := s.enterPost l x
    let shows := fun len frags => ∀ z, s.task? x.task = some z → z.image = none →
      (t.thr x.thread).handles = (s.thr x.thread).handles.map fun h => if h.seq = x.seq then
        { h with st := { h.st with code := 2, len := len, frags := frags }, doneAt := s.cycle } else h
    (p.lost = [e] → e.key = k →
      (e.lid ≠ l.lid → (t.part s.myPart).lost = p.lost) ∧ (e.lid = l.lid → (t.part s.myPart).lost = [] ∧ shows e.len e.frags)) ∧
    -- a message past its deadline closes as its post comes, after the fragments of it that have arrived in time
    ∀ m : RxMsg, p.lost = [] → p.rx = [m] → m.key = k → m.lid = l.lid → m.post = none → m.deadline < s.ptpMsg →
      t.awaits k = false ∧ t.rx? k = none ∧ (t.part s.myPart).ctr.lost = p.ctr.lost + 1 ∧ (s.awaits k = false → shows m.len m.frags.length))

/-- 00 R4, R5, 02 R34, 03 R57, 10 R209, 13 R255, 15 R295, 22 R362, 24 R386 to R388: what register writes change, those of the PTP servo, the
one PTP step, retention and device memory among them, and a tenant reset: its request (of any partition, R387) and its performance (logs 37 and 38);
a descriptor that is VALID and not well-formed leaves the reset waiting. The model's choices: the servo's rate is a whole number of parts per million, and
the one step is allowed until it has been made or a partition has been made VALID, which `Mgmt.stepped` keeps (log 4). -/
def Obligations.RegistersAndTenantReset : Prop :=
  (∀ (p : PartN) (q : Fin 64) (v : W64) (s : State), (s.part p.val).hasQueue q.val = true → (s.part p.val).resetting = false →
    exec (.registerWrite (.qbase p q) v) s =
      .next (if ((s.part p.val).queue q.val).st = .disabled then s.updQueue p.val q.val fun k => { k with qbase := v } else s)) ∧
  (∀ (p : PartN) (v : W64) (s : State), exec (.registerWrite (.fairw p) v) s = .next (s.updPart p.val fun x => { x with fairw := v.toNat % 2 ^ 16 })) ∧
  (∀ (c : ClusterN) (v : W64) (s : State), exec (.registerWrite (.mxbud c) v) s =
    .next (s.updCluster c.val fun k => { k with winlog := v.toNat / 2 ^ 40 % 16, budget := v.toNat % 2 ^ 32 })) ∧
  (∀ (v : W64) (s : State),
    (-200 ≤ v.toInt ∧ v.toInt ≤ 200 → exec (.registerWrite .ptpServo v) s = .next { s with mgmt := { s.mgmt with ppm := v.toInt } }) ∧
    (v.toInt < -200 ∨ 200 < v.toInt → exec (.registerWrite .ptpServo v) s = .next s)) ∧
  (∀ (v : W64) (s : State),
    (s.mgmt.stepped = true ∨ (∃ e ∈ s.parts, e.2.desc.valid = true) → exec (.registerWrite .ptpStep v) s = .next s) ∧
    (s.mgmt.stepped = false → (∀ e ∈ s.parts, e.2.desc.valid = false) →
      exec (.registerWrite .ptpStep v) s = .next { s with ptp := s.ptp + v.toNat * ptpUnit, mgmt := { s.mgmt with stepped := true } })) ∧
  (∀ (k : Fin 16) (v : W64) (s : State), ∃ t : State, exec (.registerWrite (.retainPart k) v) s = .next t ∧ t.mem = s.mem ∧
    t.retain.getD k.val .reset = { s.retain.getD k.val .reset with part := v.toNat / 2 ^ 20 % 16 }) ∧
  (∀ (pa : Nat) (ms : Bool) (v : W64) (s : State),
    (pa % 8 ≠ 0 ∨ hbmEnd ≤ pa → exec (.registerWrite (.memory pa ms) v) s = .next s) ∧
    (pa % 8 = 0 → pa < hbmEnd → ∃ t : State, exec (.registerWrite (.memory pa ms) v) s = .next t ∧ t.mem = s.mem ∧
      ∃ i, t.posted = s.posted ++ [⟨i, none, cellsAt pa (toBytes 8 v.toNat), ms, none⟩])) ∧
  (∀ (p : PartN) (i : Fin 4) (v : W64) (s : State), exec (.registerWrite (.station p i) v) s =
    .next (s.updPart p.val fun x => { x with stations := x.stations.put i.val (v.setWidth 48) })) ∧
  (∀ (p : PartN) (v : W64) (s : State), (s.part p.val).resetting = false → ∃ t : State, exec (.registerWrite (.scb p 4) v) s = .next t ∧
    (t.part p.val).scb.vec = BitVec.ofNat 64 (v.toNat / 64 % 2 ^ 46 * 64) ∧ t.mem = s.mem) ∧
  (∀ (p : PartN) (v : W64) (s : State), (s.part p.val).resetting = false →
    (v.getLsbD 0 = true → (s.part p.val).desc.expert = false → exec (.rpctlWrite p v) s = .next s) ∧
    (v.getLsbD 0 = false ∨ (s.part p.val).desc.expert = true →
      exec (.rpctlWrite p v) s = .next (s.updPart p.val fun x => { x with lastwin := v.getLsbD 0 }))) ∧
  (∀ (v : W64) (s : State),
    let p := v.toNat / 2 ^ 16 % 16
    (v.getLsbD 0 = false → exec (.trstGo v) s = .next { s with mgmt := { s.mgmt with trstPart := p } }) ∧
    (v.getLsbD 0 = true → (s.part p).resetting = true → exec (.trstGo v) s = .next { s with mgmt := { s.mgmt with trstPart := p } }) ∧
    (v.getLsbD 0 = true → (s.part p).resetting = false → ∃ t : State, exec (.trstGo v) s = .next t ∧ t.mem = s.mem ∧
      t.mgmt.resets = s.mgmt.resets ++ [p] ∧ (t.part p).resetting = true)) ∧
  (∀ (v : BitVec 512) (s : State), (s.mgmt.resets = [] → exec (.tenantResetPerform v) s = .next s) ∧
    ∀ p r, s.mgmt.resets = p :: r → ((descOf v p).valid = true → (descOf v p).ok = false → exec (.tenantResetPerform v) s = .next s) ∧
      ((descOf v p).valid = false ∨ (descOf v p).ok = true → ∃ t : State, exec (.tenantResetPerform v) s = .next t ∧ t.mgmt.resets = r ∧
      (∀ l ∈ t.launches, l.part ≠ p) ∧ (t.part p).desc = descOf v p ∧ (t.part p).nextLid = 1 ∧ (t.part p).resetting = false ∧
      (t.part p).faultLog = [] ∧ (t.part p).flow = [] ∧ (t.part p).scb = .reset ∧ (t.part p).fairw = 1 ∧ (∀ c, (t.core c).lastPart ≠ some p) ∧
      (∀ f ∈ t.frames, f.part ≠ p) ∧ (∀ w ∈ t.posted, ∀ l, w.land = some l → l.part ≠ p) ∧
      (∀ x ∈ t.retainSteps, (s.retain.getD x.k .reset).part ≠ p) ∧ t.mgmt.stepped = (s.mgmt.stepped || (descOf v p).valid)))

/-- 24 R389 to R397: power-on, the ROM's requests from UDP port 4417 to port 4417 of both multicast addresses, and replies (log 35), the answers to side-band requests (a signed one only with the operator key loaded, a counter above every one accepted since power-on, the first one aside, and a valid signature of all the bytes before it; log 34), gating and waking
of clusters (one that fails its test at a wake is fenced, and the launches that could have gone there post a stall), thermal trips. The model's choice: what a core does that keeps its cluster from being gated (log 68). -/
def Obligations.ManagementService : Prop :=
  (∀ (s : State), (s.mgmt.boot ≠ .off → exec .powerOn s = .next s) ∧
    (s.mgmt.boot = .off → ∃ t : State, exec .powerOn s = .next t ∧ t.mem = [] ∧ t.mgmt.boot = .fetching false none 0 [] ∧ (t.port 0).st = .training ∧
      t.out = (s.askImage false 0).out)) ∧
  (∀ (off : Nat) (s : State),
    let m := sbMessage 0x09 (w32 (off / 1024)) 0 0 (toBytes 4 off ++ toBytes 4 0)
    s.askImage false off = { s with out := s.out ++ [.udp (.v4 0) v4Broadcast 4417 4417 m, .udp v6LinkLocal v6AllNodes 4417 4417 m] }) ∧
  (∀ (x y : BitVec 256) (s : State), exec (.operatorKeyLoad x y) s =
    .next (if s.mgmt.opKey = none then { s with mgmt := { s.mgmt with opKey := some (x.toNat, y.toNat) } } else s)) ∧
  (∀ (src : BitVec 128) (st : Byte) (n off : W32) (b : List Byte) (s : State),
    (s.mgmt.boot = .off ∨ s.mgmt.boot = .running → exec (.imageReplyReceive src st n off b) s = .next s) ∧
    (s.mgmt.boot = .fetching false none 0 [] → st = 0 → 1024 < n.toNat → off = 0 → b.length = 1024 →
      ∃ t : State, exec (.imageReplyReceive src st n off b) s = .next t ∧ t.mgmt.boot = .fetching false (some src) n.toNat [(0, b)] ∧
        t.out = ((((List.range 16).map (1 + ·)).filter fun k => 1024 * k < n.toNat).foldl (fun (u : State) k => u.askImage false (1024 * k)) s).out) ∧
    (∀ p m cs, s.mgmt.boot = .fetching false (some p) m cs → st = 0 → src ≠ p → exec (.imageReplyReceive src st n off b) s = .next s)) ∧
  (∀ (s : State) (p : Option (BitVec 128)) (n : Nat) (cs : Tab (List Byte)), s.mgmt.boot = .fetching false p n cs →
    (∀ off : W32, imagePending p n cs off.toNat = true → exec (.imageRequestResend off) s = .next (s.askImage false off.toNat)) ∧
    (∀ off : W32, imagePending p n cs off.toNat = false → exec (.imageRequestResend off) s = .next s) ∧
    (∃ t : State, exec .imagePartyAbandon s = .next t ∧ t.mgmt.boot = .fetching true none 0 [] ∧ t.mem = s.mem)) ∧
  -- a signed request
  (∀ (d : Datagram) (s : State),
    (s.signedOk d = true ↔ ∃ key, s.mgmt.opKey = some key ∧ (∀ n, s.mgmt.counter = some n → n.toNat < d.counter.toNat) ∧
      ecdsaOk key (datagramBytes d) d.sig = true) ∧
    datagramBytes d = [0x4C, 0x41, 1, d.op] ++ toBytes 4 d.reqId.toNat ++ toBytes 8 d.counter.toNat ++ toBytes 4 d.body.length ++ [0, 0, 0, 0] ++ d.body ∧
    ∀ key, ecdsaOk key (datagramBytes d) d.sig = true → d.sig.length = 64 ∧
      ∀ x ∈ [ofBe (d.sig.take 32), ofBe (d.sig.drop 32)], 0 < x ∧ x < 0xFFFFFFFF00000000FFFFFFFFFFFFFFFFBCE6FAADA7179E84F3B9CAC2FC632551) ∧
  (∀ (d : Datagram) (s : State),
    let reply := fun st b => { s with out := s.out ++ [Out.reply d.op d.reqId st b] }
    (s.mgmt.boot ≠ .running → exec (.identity d) s = .next s ∧ exec (.attest d) s = .next s ∧ exec (.crashRead d) s = .next s ∧
      exec (.errlogRead d) s = .next s ∧ exec (.tenantReset d) s = .next s ∧ exec (.fwStage d) s = .next s ∧ exec (.fwCommit d) s = .next s ∧
      exec (.linkRetrain d) s = .next s ∧ exec (.imageGet d false) s = .next s ∧ exec (.sidebandUnknownOpcode d) s = .next s) ∧
    (s.mgmt.boot = .running →
      (d.op = 1 → exec (.identity d) s = .next (reply 0 (toBytes 16 Config.serial.toNat ++ identityKey ++ Config.certificate))) ∧
      (d.op = 2 → d.body.length = 32 → exec (.attest d) s = .next (reply 0 (s.attestation d.body))) ∧
      (d.op = 2 → d.body.length ≠ 32 → exec (.attest d) s = .next (reply 3 [])) ∧
      (d.op = 4 → d.body ≠ [] → ofBytes d.body < 1024 → exec (.crashRead d) s = .next (reply 0 (memBytes s.mem (crashAddr (ofBytes d.body)) 256))) ∧
      (d.op = 5 → d.body.length = 8 → 1 ≤ field d.body 4 4 → field d.body 4 4 ≤ 32 → field d.body 0 4 + field d.body 4 4 ≤ 1024 →
        exec (.errlogRead d) s = .next (reply 0 ((List.range (field d.body 4 4)).flatMap fun i => logBytes (s.mgmt.errLog.get? (field d.body 0 4 + i))))) ∧
      (d.op = 9 → d.body.length = 8 → field d.body 0 4 % 1024 = 0 → field d.body 4 4 = 0 → field d.body 0 4 < s.mgmt.image.length →
        exec (.imageGet d false) s = .next (reply 0 (toBytes 4 s.mgmt.image.length ++ toBytes 4 (field d.body 0 4)
          ++ (s.mgmt.image.drop (field d.body 0 4)).take 1024))) ∧
      (d.op = 0 ∨ 10 ≤ d.op.toNat → exec (.sidebandUnknownOpcode d) s = .next (reply 1 [])) ∧
      (s.signedOk d = false → (d.op = 3 → exec (.tenantReset d) s = .next (reply 2 [])) ∧ (d.op = 6 → exec (.fwStage d) s = .next (reply 2 [])) ∧
        (d.op = 7 → exec (.fwCommit d) s = .next (reply 2 [])) ∧ (d.op = 8 → exec (.linkRetrain d) s = .next (reply 2 []))) ∧
      (s.signedOk d = true →
        (d.op = 3 → d.body ≠ [] → ofBytes d.body < 16 → (s.part (ofBytes d.body)).resetting = false →
          ∃ t : State, exec (.tenantReset d) s = .next t ∧ t.mgmt.counter = some d.counter ∧ t.mgmt.resets = s.mgmt.resets ++ [ofBytes d.body] ∧
            t.out = s.out ++ [.reply d.op d.reqId 0 []]) ∧
        (d.op = 6 → 5 ≤ d.body.length → d.body.length ≤ 1028 → field d.body 0 4 + d.body.length ≤ 132 + 2 ^ 26 → exec (.fwStage d) s =
          .next { s with mgmt := { s.mgmt with counter := some d.counter, staged := s.mgmt.staged.put (field d.body 0 4) (d.body.drop 4) },
                         out := s.out ++ [.reply d.op d.reqId 0 []] }) ∧
        (d.op = 7 → ∃ t : State, exec (.fwCommit d) s = .next t ∧ t.mgmt.counter = some d.counter ∧
          if imageOk (joinChunks s.mgmt.staged) s.mgmt.fuse then
            t.mgmt.image = joinChunks s.mgmt.staged ∧ t.mgmt.staged = [] ∧ (s.mgmt.fuse ≤ 64 → s.mgmt.fuse ≤ t.mgmt.fuse) ∧
              t.out = s.out ++ [.reply d.op d.reqId 0 []]
          else t.mgmt.image = s.mgmt.image ∧ t.mgmt.fuse = s.mgmt.fuse ∧ t.out = s.out ++ [.reply d.op d.reqId 3 []]) ∧
        (d.op = 8 → d.body ≠ [] → ofBytes d.body < 12 → (s.port (ofBytes d.body)).st = .down → ∃ t : State, exec (.linkRetrain d) s = .next t ∧
          (t.port (ofBytes d.body)).st = .training ∧ t.mgmt.counter = some d.counter)))) ∧
  (∀ (c : ClusterN) (s : State),
    ((∀ b, b < 8 → s.quiet (8 * c.val + b) = true) → s.boundedCluster c.val = false →
      exec (.clusterGate c) s = .next { s with mgmt := { s.mgmt with gated := addNew s.mgmt.gated c.val } }) ∧
    ((∃ b, b < 8 ∧ s.quiet (8 * c.val + b) = false) ∨ s.boundedCluster c.val = true → exec (.clusterGate c) s = .next s) ∧
    (∀ pass, c.val ∉ s.mgmt.gated → exec (.clusterWake c pass) s = .next s) ∧
    (c.val ∈ s.mgmt.gated →
      let t : State := { s with mgmt := { s.mgmt with gated := s.mgmt.gated.filter (· != c.val) } }
      (∃ l ∈ s.launches, t.eligible l = true ∧ ∃ b, b < 8 ∧ t.fitsNext l c.val b = true) → exec (.clusterWake c true) s = .next t ∧
        ∃ u : State, exec (.clusterWake c false) s = .next u ∧ c.val ∉ u.mgmt.gated ∧ c.val ∈ u.mgmt.fenced ∧
          ∀ l ∈ s.launches, t.eligible l = true → (∃ b, b < 8 ∧ t.fitsNext l c.val b = true) → Out.stall l.part l.lid ∈ u.out)) ∧
  (∀ (d : Fin 4) (s : State), exec (.thermalTrip d) s = .next { s with mgmt := { s.mgmt with trip := addNew s.mgmt.trip d.val } } ∧
    exec (.thermalTripRelease d) s = .next { s with mgmt := { s.mgmt with trip := s.mgmt.trip.filter (· != d.val) } })
end

