-- ==== Sys2Proof/Laws/Decode.lean ====
section
/-! SUPPORT. The fields of a word are read back; the codes of modifier groups and of specifiers are read back as they were written. -/

namespace Sys2Proof

/-! ## Words and fields -/

/-- A slice of the upper part of a concatenation. -/
theorem extract_append_hi {m n : Nat} (a : BitVec m) (b : BitVec n) (lo w : Nat) (h : n ≤ lo) :
    (a ++ b).extractLsb' lo w = a.extractLsb' (lo - n) w := by
  ext i hi
  rw [BitVec.getElem_extractLsb', BitVec.getElem_extractLsb', BitVec.getLsbD_append, if_neg (by omega)]
  congr 1; omega
/-- A slice of the lower part of a concatenation. -/
theorem extract_append_lo {m n : Nat} (a : BitVec m) (b : BitVec n) (lo w : Nat) (h : lo + w ≤ n) :
    (a ++ b).extractLsb' lo w = b.extractLsb' lo w := by
  ext i hi
  rw [BitVec.getElem_extractLsb', BitVec.getElem_extractLsb', BitVec.getLsbD_append, if_pos (by omega)]
theorem extract_all {n : Nat} (b : BitVec n) : b.extractLsb' 0 n = b := by simp

/-- The fields of the word of some fields are those fields. -/
theorem Fields.ofWord_word (f : Fields) : Fields.ofWord f.word = f := by
  cases f
  simp only [Fields.ofWord, Fields.word, Fields.mk.injEq]
  refine ⟨?_, ?_, ?_, ?_, ?_, ?_, ?_, ?_, ?_, ?_, ?_⟩ <;>
    simp (disch := omega) only [extract_append_hi, extract_append_lo, Nat.reduceSub, Nat.sub_self, extract_all]
/-- Decoding an encoded instruction is decoding its fields. -/
theorem decode_encode (i : Instr) (f : Fields) (h : encodeFields i = some f) (w : W96) (hw : encode i = some w) : decode w = decodeFields f := by
  simp only [encode, h, Option.map_some, Option.some.injEq] at hw
  rw [← hw, decode, Fields.ofWord_word]

/-! ## Specifiers -/

@[simp] theorem clsOf_s : ∀ r : SReg, clsOf (Enc.s r) = some .s := by decide
@[simp] theorem clsOf_v : ∀ r : VReg, clsOf (Enc.v r) = some .v := by decide
@[simp] theorem clsOf_c : ∀ r : CReg, clsOf (Enc.c r) = some .c := by decide
@[simp] theorem clsOf_p : ∀ r : PReg, clsOf (Enc.p r) = some .p := by decide
@[simp] theorem clsOf_z : ∀ r : ZReg, clsOf (Enc.z r) = some .z := by decide
@[simp] theorem clsOf_t : ∀ r : TReg, clsOf (Enc.t r) = some .t := by decide
@[simp] theorem clsOf_o : ∀ r : OReg, clsOf (Enc.o r) = some .o := by decide
@[simp] theorem clsOf_k : clsOf 0x80 = some .k := by decide
@[simp] theorem clsOf_i : clsOf 0x81 = some .i := by decide
@[simp] theorem clsOf_none : clsOf 0xFF = none := by decide
@[simp] theorem regS_s : ∀ r : SReg, regS (Enc.s r) = r := by decide
@[simp] theorem regV_v : ∀ r : VReg, regV (Enc.v r) = r := by decide
@[simp] theorem regC_c : ∀ r : CReg, regC (Enc.c r) = r := by decide
@[simp] theorem regP_p : ∀ r : PReg, regP (Enc.p r) = r := by decide
@[simp] theorem regZ_z : ∀ r : ZReg, regZ (Enc.z r) = r := by decide
@[simp] theorem regT_t : ∀ r : TReg, regT (Enc.t r) = r := by decide
@[simp] theorem regO_o : ∀ r : OReg, regO (Enc.o r) = r := by decide

/-! ## Codes -/

@[simp] theorem intTy_code : ∀ t : IntTy, intTy t.code = t := by intro t; cases t <;> rfl
@[simp] theorem scopeOf_code : ∀ s : Scope, scopeOf s.code = s := by intro s; cases s <;> rfl
@[simp] theorem rmOf_code : ∀ r : Rm, rmOf r.code = r := by intro r; cases r <;> rfl
@[simp] theorem ordOf_code : ∀ o : Ord, ordOf o.code = o := by intro o; cases o <;> rfl
@[simp] theorem fty_code : ∀ t : FTy, fty t.code = t := by intro t; cases t <;> rfl
@[simp] theorem vty_code : ∀ t : VTy, vty t.code = t := by intro t; cases t <;> rfl
@[simp] theorem cvtTy_code : ∀ t : CvtTy, cvtTy t.code = t := by intro t; cases t <;> rfl
@[simp] theorem mfmt_code : ∀ f : MFmt, mfmt f.code = f := by intro f; cases f <;> rfl
@[simp] theorem gsize_code : ∀ g : GSize, gsize g.code = g := by intro g; cases g <;> rfl
@[simp] theorem plevel_code : ∀ l : PLevel, plevel l.code = l := by intro l; cases l <;> rfl
@[simp] theorem laneTy_code : ∀ t : LaneTy, laneTy t.code = t := by intro t; cases t <;> rfl

/-- The modifiers of a header are read back. -/
@[simp] theorem hdr_base (op fn : Nat) (h : Hdr) : (Enc.base op fn h).hdr = h := by
  rcases h with ⟨⟨a, _⟩, ⟨b, _⟩, ⟨c, _⟩⟩
  simp [Enc.base, Fields.hdr]; omega
/-- A constant operand's window and word are read back from I, and its low bits are 0. -/
@[simp] theorem kWindow_iOf (w : Fin 8) (n : Fin 131072) : kWindow (Enc.iOf w n) = w := by
  simp [kWindow, Enc.iOf]; ext; simp; omega
@[simp] theorem kWord_iOf (w : Fin 8) (n : Fin 131072) : kWord (Enc.iOf w n) = n := by
  simp [kWord, Enc.iOf]; ext; simp; omega
theorem iOf_low (w : Fin 8) (n : Fin 131072) : (Enc.iOf w n).toNat % 4096 = 0 := by
  simp [Enc.iOf]; omega

end Sys2Proof
end

