-- ==== Sys2Proof/Laws/Tab.lean ====
section
/-! SUPPORT. What tables, association lists and byte memories answer after a write, and that every write of a memory keeps its canonical
form. -/

namespace Sys2Proof.Machine

/-! ## Tables -/

theorem Tab.get?_put_self {α : Type} (t : Tab α) (k : Nat) (a : α) : (t.put k a).get? k = some a := by
  induction t with
  | nil => simp [Tab.put, Tab.get?]
  | cons e r ih =>
    obtain ⟨j, b⟩ := e
    simp only [Tab.put]
    split
    · simp [Tab.get?]
    · split
      · simp [Tab.get?]
      · rename_i h; simp [Tab.get?, Ne.symm h, ih]

theorem Tab.get?_put_ne {α : Type} (t : Tab α) {k j : Nat} (a : α) (h : j ≠ k) : (t.put k a).get? j = t.get? j := by
  induction t with
  | nil => simp [Tab.put, Tab.get?, Ne.symm h]
  | cons e r ih =>
    obtain ⟨i, b⟩ := e
    simp only [Tab.put]
    split
    · simp [Tab.get?, Ne.symm h]
    · split
      · rename_i e; subst e; simp [Tab.get?, Ne.symm h]
      · simp [Tab.get?, ih]

@[simp] theorem Tab.getD_put_self {α : Type} (t : Tab α) (k : Nat) (a d : α) : (t.put k a).getD k d = a := by
  simp [Tab.getD, Tab.get?_put_self]

theorem Tab.getD_put_ne {α : Type} (t : Tab α) {k j : Nat} (a d : α) (h : j ≠ k) : (t.put k a).getD j d = t.getD j d := by
  simp [Tab.getD, Tab.get?_put_ne t a h]

theorem Tab.getD_put {α : Type} (t : Tab α) (k j : Nat) (a d : α) : (t.put k a).getD j d = if j = k then a else t.getD j d := by
  split
  · rename_i h; subst h; simp
  · rename_i h; exact Tab.getD_put_ne t a d h

theorem Tab.get?_filter_keys {α : Type} (t : Tab α) (p : Nat → Bool) (k : Nat) :
    Tab.get? (List.filter (fun e => p e.1) t) k = if p k then t.get? k else none := by
  induction t with
  | nil => simp [Tab.get?]
  | cons e r ih =>
    obtain ⟨j, b⟩ := e
    by_cases hk : j = k
    · subst hk; by_cases hp : p j <;> simp [hp, Tab.get?, ih]
    · by_cases hp : p j <;> by_cases hq : p k <;> simp_all [Tab.get?]

theorem Tab.get?_del_self {α : Type} (t : Tab α) (k : Nat) : (t.del k).get? k = none := by
  simp [Tab.del, Tab.get?_filter_keys t (fun j => j != k)]

theorem Tab.get?_del_ne {α : Type} (t : Tab α) {k j : Nat} (h : j ≠ k) : (t.del k).get? j = t.get? j := by
  simp [Tab.del, Tab.get?_filter_keys t (fun j => j != k), h]

/-! ## Association lists -/

theorem assocGet_map_set {κ ν : Type} [DecidableEq κ] (l : List (κ × ν)) (k : κ) (v : ν) (h : (l.any fun e => e.1 = k) = true) :
    assocGet (l.map fun e => if e.1 = k then (k, v) else e) k = some v := by
  induction l with
  | nil => simp at h
  | cons e r ih =>
    obtain ⟨j, b⟩ := e
    by_cases hk : j = k
    · simp [assocGet, hk]
    · simp only [List.any_cons, hk, decide_false, Bool.false_or] at h
      simp [assocGet, hk, ih h]

theorem assocGet_append_none {κ ν : Type} [DecidableEq κ] (l : List (κ × ν)) (k : κ) (v : ν) (h : (l.any fun e => e.1 = k) = false) :
    assocGet (l ++ [(k, v)]) k = some v := by
  induction l with
  | nil => simp [assocGet]
  | cons e r ih =>
    obtain ⟨j, b⟩ := e
    simp only [List.any_cons, Bool.or_eq_false_iff, decide_eq_false_iff_not] at h
    simp [assocGet, h.1, ih h.2]

theorem assocGet_assocSet_self {κ ν : Type} [DecidableEq κ] (l : List (κ × ν)) (k : κ) (v : ν) :
    assocGet (assocSet l k v) k = some v := by
  unfold assocSet
  split
  · rename_i h; exact assocGet_map_set l k v h
  · rename_i h; exact assocGet_append_none l k v (Bool.not_eq_true _ ▸ h)

/-! ## Bytes of a memory -/

theorem memByte_memPut (m : List Host.Cell) (a x : Nat) (b : Byte) : memByte (memPut m a b) x = if x = a then b else memByte m x := by
  induction m with
  | nil => simp [memPut, memByte, eq_comm]
  | cons e r ih =>
    obtain ⟨j, c⟩ := e
    simp only [memPut]
    split
    · by_cases h : x = a
      · simp [memByte, h]
      · simp [memByte, h, Ne.symm h]
    · split
      · rename_i e; subst e
        by_cases h : x = a
        · simp [memByte, h]
        · simp [memByte, h, Ne.symm h]
      · rename_i h1 h2
        by_cases h : j = x
        · subst h; simp [memByte, Ne.symm h2]
        · simp [memByte, h, ih]

theorem memByte_filter (m : List Host.Cell) (a x : Nat) :
    memByte (m.filter fun e => e.1 != a) x = if x = a then 0 else memByte m x := by
  induction m with
  | nil => simp [memByte]
  | cons e r ih =>
    obtain ⟨j, c⟩ := e
    by_cases h : j = a <;> by_cases hx : x = a <;> by_cases hj : j = x <;> simp_all [memByte]

/-- A byte reads as it was written last. -/
theorem memByte_memSet (m : List Host.Cell) (a x : Nat) (b : Byte) : memByte (memSet m a b) x = if x = a then b else memByte m x := by
  unfold memSet
  split
  · rename_i h; subst h; exact memByte_filter m a x
  · exact memByte_memPut m a x b

@[simp] theorem memByte_memSet_self (m : List Host.Cell) (a : Nat) (b : Byte) : memByte (memSet m a b) a = b := by
  simp [memByte_memSet]

theorem memByte_memSet_ne (m : List Host.Cell) {a x : Nat} (b : Byte) (h : x ≠ a) : memByte (memSet m a b) x = memByte m x := by
  simp [memByte_memSet, h]

/-- Bytes outside those written read as before. -/
theorem memByte_memWrite_out (bs : List Byte) : ∀ (m : List Host.Cell) (a x : Nat), x < a ∨ a + bs.length ≤ x →
    memByte (memWrite m a bs) x = memByte m x := by
  induction bs with
  | nil => intro m a x _; rfl
  | cons b r ih =>
    intro m a x h
    simp only [List.length_cons] at h
    rw [memWrite, ih _ _ _ (by omega), memByte_memSet_ne _ _ (by omega)]

/-- The bytes written are read back. -/
theorem memByte_memWrite_in (bs : List Byte) : ∀ (m : List Host.Cell) (a i : Nat) (h : i < bs.length),
    memByte (memWrite m a bs) (a + i) = bs[i] := by
  induction bs with
  | nil => intro m a i h; simp at h
  | cons b r ih =>
    intro m a i h
    cases i with
    | zero => rw [memWrite, memByte_memWrite_out r _ _ _ (by omega)]; simp
    | succ n =>
      have := ih (memSet m a b) (a + 1) n (by simpa using h)
      simp only [memWrite, List.getElem_cons_succ]
      rw [← this]; congr 1; omega

@[simp] theorem memBytes_length (m : List Host.Cell) (a n : Nat) : (memBytes m a n).length = n := by
  induction n generalizing a with
  | zero => rfl
  | succ k ih => simp [memBytes, ih]

/-! ## The canonical form -/

/-- The canonical form, by what it says of the tail. -/
theorem Memory.wf_cons (a : Nat) (b : Byte) (r : List Host.Cell) :
    Memory.wf ((a, b) :: r) = true ↔ b ≠ 0 ∧ Memory.wf r = true ∧ ∀ e ∈ r, a < e.1 := by
  induction r generalizing a b with
  | nil => simp [Memory.wf]
  | cons e r ih =>
    obtain ⟨a', b'⟩ := e
    simp only [Memory.wf, Bool.and_eq_true, bne_iff_ne, ne_eq, decide_eq_true_eq, List.mem_cons, forall_eq_or_imp]
    constructor
    · rintro ⟨⟨h1, h2⟩, h3⟩
      exact ⟨h2, h3, h1, fun e he => Nat.lt_trans h1 (((ih a' b').1 h3).2.2 e he)⟩
    · rintro ⟨h2, h3, h1, _⟩
      exact ⟨⟨h1, h2⟩, h3⟩

theorem Memory.wf_filter (p : Host.Cell → Bool) (m : List Host.Cell) (h : Memory.wf m = true) : Memory.wf (m.filter p) = true := by
  induction m with
  | nil => rfl
  | cons e r ih =>
    obtain ⟨a, b⟩ := e
    rw [Memory.wf_cons] at h
    rw [List.filter_cons]
    split
    · rw [Memory.wf_cons]
      exact ⟨h.1, ih h.2.1, fun e he => h.2.2 e (List.mem_of_mem_filter he)⟩
    · exact ih h.2.1

theorem memPut_keys (m : List Host.Cell) (a : Nat) (b : Byte) : ∀ e ∈ memPut m a b, e.1 = a ∨ ∃ f ∈ m, f.1 = e.1 := by
  induction m with
  | nil => intro e he; simp only [memPut, List.mem_singleton] at he; left; rw [he]
  | cons f r ih =>
    obtain ⟨j, c⟩ := f
    intro e he
    simp only [memPut] at he
    split at he
    · rcases List.mem_cons.1 he with h | h
      · left; rw [h]
      · right; exact ⟨e, h, rfl⟩
    · split at he
      · rcases List.mem_cons.1 he with h | h
        · left; rw [h]
        · right; exact ⟨e, List.mem_cons_of_mem _ h, rfl⟩
      · rcases List.mem_cons.1 he with h | h
        · right; exact ⟨(j, c), List.mem_cons_self, by rw [h]⟩
        · rcases ih e h with h | ⟨f, hf, h⟩
          · left; exact h
          · right; exact ⟨f, List.mem_cons_of_mem _ hf, h⟩

theorem Memory.wf_memPut (m : List Host.Cell) (a : Nat) (b : Byte) (hb : b ≠ 0) (h : Memory.wf m = true) :
    Memory.wf (memPut m a b) = true := by
  induction m with
  | nil => simpa [memPut, Memory.wf] using hb
  | cons e r ih =>
    obtain ⟨j, c⟩ := e
    have h' := h
    rw [Memory.wf_cons] at h'
    simp only [memPut]
    split
    · rename_i hl
      rw [Memory.wf_cons]
      refine ⟨hb, h, fun e he => ?_⟩
      rcases List.mem_cons.1 he with q | q
      · rw [q]; exact hl
      · exact Nat.lt_trans hl (h'.2.2 e q)
    · split
      · rename_i q; subst q
        rw [Memory.wf_cons]
        exact ⟨hb, h'.2.1, h'.2.2⟩
      · rw [Memory.wf_cons]
        refine ⟨h'.1, ih h'.2.1, fun e he => ?_⟩
        rcases memPut_keys r a b e he with q | ⟨f, hf, q⟩
        · omega
        · rw [← q]; exact h'.2.2 f hf

/-- Writing a byte keeps the canonical form. -/
theorem Memory.wf_memSet (m : List Host.Cell) (a : Nat) (b : Byte) (h : Memory.wf m = true) : Memory.wf (memSet m a b) = true := by
  unfold memSet
  split
  · exact Memory.wf_filter _ m h
  · rename_i hb; exact Memory.wf_memPut m a b hb h

/-- Writing bytes keeps the canonical form. -/
theorem Memory.wf_memWrite (bs : List Byte) : ∀ (m : List Host.Cell) (a : Nat), Memory.wf m = true → Memory.wf (memWrite m a bs) = true := by
  induction bs with
  | nil => intro m a h; exact h
  | cons b r ih => intro m a h; exact ih _ _ (Memory.wf_memSet m a b h)

/-- Writing cells one after another keeps the canonical form. -/
theorem Memory.wf_foldl {α : Type} (f : α → Nat) (g : α → Byte) (cs : List α) : ∀ m : List Host.Cell, Memory.wf m = true →
    Memory.wf (cs.foldl (fun m c => memSet m (f c) (g c)) m) = true := by
  induction cs with
  | nil => intro m h; exact h
  | cons c r ih => intro m h; exact ih _ (Memory.wf_memSet m _ _ h)

/-- Two memories in canonical form that read the same are the same. -/
theorem Memory.ext (m n : List Host.Cell) (hm : Memory.wf m = true) (hn : Memory.wf n = true) (h : ∀ a, memByte m a = memByte n a) : m = n := by
  have low : ∀ (r : List Host.Cell) (a : Nat), (∀ e ∈ r, a < e.1) → memByte r a = 0 := by
    intro r
    induction r with
    | nil => intro a _; rfl
    | cons e r ih =>
      intro a h
      have h1 := h e List.mem_cons_self
      simp only [memByte]
      rw [if_neg (by omega)]
      exact ih a fun x hx => h x (List.mem_cons_of_mem _ hx)
  induction m generalizing n with
  | nil =>
    cases n with
    | nil => rfl
    | cons e r =>
      obtain ⟨a, b⟩ := e
      have := h a
      simp only [memByte, if_true] at this
      exact absurd this.symm ((Memory.wf_cons a b r).1 hn).1
  | cons e r ih =>
    obtain ⟨a, b⟩ := e
    have hm' := (Memory.wf_cons a b r).1 hm
    cases n with
    | nil =>
      have := h a
      simp only [memByte, if_true] at this
      exact absurd this hm'.1
    | cons e' r' =>
      obtain ⟨a', b'⟩ := e'
      have hn' := (Memory.wf_cons a' b' r').1 hn
      have hk : a = a' := by
        rcases Nat.lt_trichotomy a a' with q | q | q
        · have := h a
          rw [low ((a', b') :: r') a (by
            intro e he
            rcases List.mem_cons.1 he with w | w
            · rw [w]; exact q
            · exact Nat.lt_trans q (hn'.2.2 e w))] at this
          simp only [memByte, if_true] at this
          exact absurd this hm'.1
        · exact q
        · have := h a'
          rw [low ((a, b) :: r) a' (by
            intro e he
            rcases List.mem_cons.1 he with w | w
            · rw [w]; exact q
            · exact Nat.lt_trans q (hm'.2.2 e w))] at this
          simp only [memByte, if_true] at this
          exact absurd this.symm hn'.1
      subst hk
      have hb : b = b' := by simpa [memByte] using h a
      subst hb
      congr 1
      refine ih r' hm'.2.1 hn'.2.1 fun x => ?_
      by_cases hx : a = x
      · subst hx; rw [low r a hm'.2.2, low r' a hn'.2.2]
      · have := h x
        simpa [memByte, hx] using this

end Sys2Proof.Machine
end

