-- ==== Sys2Proof/Laws/State.lean ====
section
/-! SUPPORT. Every update of the state by number: the fields it leaves, and what the part it writes reads afterwards. -/

namespace Sys2Proof.Machine

/-! ## Fields that an update leaves -/

@[simp] theorem State.setCore_agenda (s : State) (c : Nat) (k : Core) : (s.setCore c k).agenda = s.agenda := rfl
@[simp] theorem State.setCore_nextCore (s : State) (c : Nat) (k : Core) : (s.setCore c k).nextCore = s.nextCore := rfl
@[simp] theorem State.setCore_cur (s : State) (c : Nat) (k : Core) : (s.setCore c k).cur = s.cur := rfl
@[simp] theorem State.setCore_free (s : State) (c : Nat) (k : Core) : (s.setCore c k).free = s.free := rfl
@[simp] theorem State.setCore_nextId (s : State) (c : Nat) (k : Core) : (s.setCore c k).nextId = s.nextId := rfl
@[simp] theorem State.setCore_out (s : State) (c : Nat) (k : Core) : (s.setCore c k).out = s.out := rfl
@[simp] theorem State.setCore_cycle (s : State) (c : Nat) (k : Core) : (s.setCore c k).cycle = s.cycle := rfl
@[simp] theorem State.setCore_ptp (s : State) (c : Nat) (k : Core) : (s.setCore c k).ptp = s.ptp := rfl
@[simp] theorem State.setCore_pkg (s : State) (c : Nat) (k : Core) : (s.setCore c k).pkg = s.pkg := rfl
@[simp] theorem State.setCore_mem (s : State) (c : Nat) (k : Core) : (s.setCore c k).mem = s.mem := rfl
@[simp] theorem State.setCore_vers (s : State) (c : Nat) (k : Core) : (s.setCore c k).vers = s.vers := rfl
@[simp] theorem State.setCore_mvers (s : State) (c : Nat) (k : Core) : (s.setCore c k).mvers = s.mvers := rfl
@[simp] theorem State.setCore_vers0 (s : State) (c : Nat) (k : Core) : (s.setCore c k).vers0 = s.vers0 := rfl
@[simp] theorem State.setCore_poison (s : State) (c : Nat) (k : Core) : (s.setCore c k).poison = s.poison := rfl
@[simp] theorem State.setCore_sramPoison (s : State) (c : Nat) (k : Core) : (s.setCore c k).sramPoison = s.sramPoison := rfl
@[simp] theorem State.setCore_l2 (s : State) (c : Nat) (k : Core) : (s.setCore c k).l2 = s.l2 := rfl
@[simp] theorem State.setCore_retain (s : State) (c : Nat) (k : Core) : (s.setCore c k).retain = s.retain := rfl
@[simp] theorem State.setCore_retainSteps (s : State) (c : Nat) (k : Core) : (s.setCore c k).retainSteps = s.retainSteps := rfl
@[simp] theorem State.setCore_slotTable (s : State) (c : Nat) (k : Core) : (s.setCore c k).slotTable = s.slotTable := rfl
@[simp] theorem State.setCore_posted (s : State) (c : Nat) (k : Core) : (s.setCore c k).posted = s.posted := rfl
@[simp] theorem State.setCore_frames (s : State) (c : Nat) (k : Core) : (s.setCore c k).frames = s.frames := rfl
@[simp] theorem State.setCore_rrPart (s : State) (c : Nat) (k : Core) : (s.setCore c k).rrPart = s.rrPart := rfl
@[simp] theorem State.setCore_parts (s : State) (c : Nat) (k : Core) : (s.setCore c k).parts = s.parts := rfl
@[simp] theorem State.setCore_clusters (s : State) (c : Nat) (k : Core) : (s.setCore c k).clusters = s.clusters := rfl
@[simp] theorem State.setCore_tasks (s : State) (c : Nat) (k : Core) : (s.setCore c k).tasks = s.tasks := rfl
@[simp] theorem State.setCore_launches (s : State) (c : Nat) (k : Core) : (s.setCore c k).launches = s.launches := rfl
@[simp] theorem State.setCore_ports (s : State) (c : Nat) (k : Core) : (s.setCore c k).ports = s.ports := rfl
@[simp] theorem State.setCore_mgmt (s : State) (c : Nat) (k : Core) : (s.setCore c k).mgmt = s.mgmt := rfl
@[simp] theorem State.updCore_agenda (s : State) (c : Nat) (f : Core → Core) : (s.updCore c f).agenda = s.agenda := rfl
@[simp] theorem State.updCore_nextCore (s : State) (c : Nat) (f : Core → Core) : (s.updCore c f).nextCore = s.nextCore := rfl
@[simp] theorem State.updCore_cur (s : State) (c : Nat) (f : Core → Core) : (s.updCore c f).cur = s.cur := rfl
@[simp] theorem State.updCore_free (s : State) (c : Nat) (f : Core → Core) : (s.updCore c f).free = s.free := rfl
@[simp] theorem State.updCore_nextId (s : State) (c : Nat) (f : Core → Core) : (s.updCore c f).nextId = s.nextId := rfl
@[simp] theorem State.updCore_out (s : State) (c : Nat) (f : Core → Core) : (s.updCore c f).out = s.out := rfl
@[simp] theorem State.updCore_cycle (s : State) (c : Nat) (f : Core → Core) : (s.updCore c f).cycle = s.cycle := rfl
@[simp] theorem State.updCore_ptp (s : State) (c : Nat) (f : Core → Core) : (s.updCore c f).ptp = s.ptp := rfl
@[simp] theorem State.updCore_pkg (s : State) (c : Nat) (f : Core → Core) : (s.updCore c f).pkg = s.pkg := rfl
@[simp] theorem State.updCore_mem (s : State) (c : Nat) (f : Core → Core) : (s.updCore c f).mem = s.mem := rfl
@[simp] theorem State.updCore_vers (s : State) (c : Nat) (f : Core → Core) : (s.updCore c f).vers = s.vers := rfl
@[simp] theorem State.updCore_mvers (s : State) (c : Nat) (f : Core → Core) : (s.updCore c f).mvers = s.mvers := rfl
@[simp] theorem State.updCore_vers0 (s : State) (c : Nat) (f : Core → Core) : (s.updCore c f).vers0 = s.vers0 := rfl
@[simp] theorem State.updCore_poison (s : State) (c : Nat) (f : Core → Core) : (s.updCore c f).poison = s.poison := rfl
@[simp] theorem State.updCore_sramPoison (s : State) (c : Nat) (f : Core → Core) : (s.updCore c f).sramPoison = s.sramPoison := rfl
@[simp] theorem State.updCore_l2 (s : State) (c : Nat) (f : Core → Core) : (s.updCore c f).l2 = s.l2 := rfl
@[simp] theorem State.updCore_retain (s : State) (c : Nat) (f : Core → Core) : (s.updCore c f).retain = s.retain := rfl
@[simp] theorem State.updCore_retainSteps (s : State) (c : Nat) (f : Core → Core) : (s.updCore c f).retainSteps = s.retainSteps := rfl
@[simp] theorem State.updCore_slotTable (s : State) (c : Nat) (f : Core → Core) : (s.updCore c f).slotTable = s.slotTable := rfl
@[simp] theorem State.updCore_posted (s : State) (c : Nat) (f : Core → Core) : (s.updCore c f).posted = s.posted := rfl
@[simp] theorem State.updCore_frames (s : State) (c : Nat) (f : Core → Core) : (s.updCore c f).frames = s.frames := rfl
@[simp] theorem State.updCore_rrPart (s : State) (c : Nat) (f : Core → Core) : (s.updCore c f).rrPart = s.rrPart := rfl
@[simp] theorem State.updCore_parts (s : State) (c : Nat) (f : Core → Core) : (s.updCore c f).parts = s.parts := rfl
@[simp] theorem State.updCore_clusters (s : State) (c : Nat) (f : Core → Core) : (s.updCore c f).clusters = s.clusters := rfl
@[simp] theorem State.updCore_tasks (s : State) (c : Nat) (f : Core → Core) : (s.updCore c f).tasks = s.tasks := rfl
@[simp] theorem State.updCore_launches (s : State) (c : Nat) (f : Core → Core) : (s.updCore c f).launches = s.launches := rfl
@[simp] theorem State.updCore_ports (s : State) (c : Nat) (f : Core → Core) : (s.updCore c f).ports = s.ports := rfl
@[simp] theorem State.updCore_mgmt (s : State) (c : Nat) (f : Core → Core) : (s.updCore c f).mgmt = s.mgmt := rfl
@[simp] theorem State.setThr_agenda (s : State) (t : ThreadId) (x : Thread) : (s.setThr t x).agenda = s.agenda := rfl
@[simp] theorem State.setThr_nextCore (s : State) (t : ThreadId) (x : Thread) : (s.setThr t x).nextCore = s.nextCore := rfl
@[simp] theorem State.setThr_cur (s : State) (t : ThreadId) (x : Thread) : (s.setThr t x).cur = s.cur := rfl
@[simp] theorem State.setThr_free (s : State) (t : ThreadId) (x : Thread) : (s.setThr t x).free = s.free := rfl
@[simp] theorem State.setThr_nextId (s : State) (t : ThreadId) (x : Thread) : (s.setThr t x).nextId = s.nextId := rfl
@[simp] theorem State.setThr_out (s : State) (t : ThreadId) (x : Thread) : (s.setThr t x).out = s.out := rfl
@[simp] theorem State.setThr_cycle (s : State) (t : ThreadId) (x : Thread) : (s.setThr t x).cycle = s.cycle := rfl
@[simp] theorem State.setThr_ptp (s : State) (t : ThreadId) (x : Thread) : (s.setThr t x).ptp = s.ptp := rfl
@[simp] theorem State.setThr_pkg (s : State) (t : ThreadId) (x : Thread) : (s.setThr t x).pkg = s.pkg := rfl
@[simp] theorem State.setThr_mem (s : State) (t : ThreadId) (x : Thread) : (s.setThr t x).mem = s.mem := rfl
@[simp] theorem State.setThr_vers (s : State) (t : ThreadId) (x : Thread) : (s.setThr t x).vers = s.vers := rfl
@[simp] theorem State.setThr_mvers (s : State) (t : ThreadId) (x : Thread) : (s.setThr t x).mvers = s.mvers := rfl
@[simp] theorem State.setThr_vers0 (s : State) (t : ThreadId) (x : Thread) : (s.setThr t x).vers0 = s.vers0 := rfl
@[simp] theorem State.setThr_poison (s : State) (t : ThreadId) (x : Thread) : (s.setThr t x).poison = s.poison := rfl
@[simp] theorem State.setThr_sramPoison (s : State) (t : ThreadId) (x : Thread) : (s.setThr t x).sramPoison = s.sramPoison := rfl
@[simp] theorem State.setThr_l2 (s : State) (t : ThreadId) (x : Thread) : (s.setThr t x).l2 = s.l2 := rfl
@[simp] theorem State.setThr_retain (s : State) (t : ThreadId) (x : Thread) : (s.setThr t x).retain = s.retain := rfl
@[simp] theorem State.setThr_retainSteps (s : State) (t : ThreadId) (x : Thread) : (s.setThr t x).retainSteps = s.retainSteps := rfl
@[simp] theorem State.setThr_slotTable (s : State) (t : ThreadId) (x : Thread) : (s.setThr t x).slotTable = s.slotTable := rfl
@[simp] theorem State.setThr_posted (s : State) (t : ThreadId) (x : Thread) : (s.setThr t x).posted = s.posted := rfl
@[simp] theorem State.setThr_frames (s : State) (t : ThreadId) (x : Thread) : (s.setThr t x).frames = s.frames := rfl
@[simp] theorem State.setThr_rrPart (s : State) (t : ThreadId) (x : Thread) : (s.setThr t x).rrPart = s.rrPart := rfl
@[simp] theorem State.setThr_parts (s : State) (t : ThreadId) (x : Thread) : (s.setThr t x).parts = s.parts := rfl
@[simp] theorem State.setThr_clusters (s : State) (t : ThreadId) (x : Thread) : (s.setThr t x).clusters = s.clusters := rfl
@[simp] theorem State.setThr_tasks (s : State) (t : ThreadId) (x : Thread) : (s.setThr t x).tasks = s.tasks := rfl
@[simp] theorem State.setThr_launches (s : State) (t : ThreadId) (x : Thread) : (s.setThr t x).launches = s.launches := rfl
@[simp] theorem State.setThr_ports (s : State) (t : ThreadId) (x : Thread) : (s.setThr t x).ports = s.ports := rfl
@[simp] theorem State.setThr_mgmt (s : State) (t : ThreadId) (x : Thread) : (s.setThr t x).mgmt = s.mgmt := rfl
@[simp] theorem State.updThr_agenda (s : State) (t : ThreadId) (f : Thread → Thread) : (s.updThr t f).agenda = s.agenda := rfl
@[simp] theorem State.updThr_nextCore (s : State) (t : ThreadId) (f : Thread → Thread) : (s.updThr t f).nextCore = s.nextCore := rfl
@[simp] theorem State.updThr_cur (s : State) (t : ThreadId) (f : Thread → Thread) : (s.updThr t f).cur = s.cur := rfl
@[simp] theorem State.updThr_free (s : State) (t : ThreadId) (f : Thread → Thread) : (s.updThr t f).free = s.free := rfl
@[simp] theorem State.updThr_nextId (s : State) (t : ThreadId) (f : Thread → Thread) : (s.updThr t f).nextId = s.nextId := rfl
@[simp] theorem State.updThr_out (s : State) (t : ThreadId) (f : Thread → Thread) : (s.updThr t f).out = s.out := rfl
@[simp] theorem State.updThr_cycle (s : State) (t : ThreadId) (f : Thread → Thread) : (s.updThr t f).cycle = s.cycle := rfl
@[simp] theorem State.updThr_ptp (s : State) (t : ThreadId) (f : Thread → Thread) : (s.updThr t f).ptp = s.ptp := rfl
@[simp] theorem State.updThr_pkg (s : State) (t : ThreadId) (f : Thread → Thread) : (s.updThr t f).pkg = s.pkg := rfl
@[simp] theorem State.updThr_mem (s : State) (t : ThreadId) (f : Thread → Thread) : (s.updThr t f).mem = s.mem := rfl
@[simp] theorem State.updThr_vers (s : State) (t : ThreadId) (f : Thread → Thread) : (s.updThr t f).vers = s.vers := rfl
@[simp] theorem State.updThr_mvers (s : State) (t : ThreadId) (f : Thread → Thread) : (s.updThr t f).mvers = s.mvers := rfl
@[simp] theorem State.updThr_vers0 (s : State) (t : ThreadId) (f : Thread → Thread) : (s.updThr t f).vers0 = s.vers0 := rfl
@[simp] theorem State.updThr_poison (s : State) (t : ThreadId) (f : Thread → Thread) : (s.updThr t f).poison = s.poison := rfl
@[simp] theorem State.updThr_sramPoison (s : State) (t : ThreadId) (f : Thread → Thread) : (s.updThr t f).sramPoison = s.sramPoison := rfl
@[simp] theorem State.updThr_l2 (s : State) (t : ThreadId) (f : Thread → Thread) : (s.updThr t f).l2 = s.l2 := rfl
@[simp] theorem State.updThr_retain (s : State) (t : ThreadId) (f : Thread → Thread) : (s.updThr t f).retain = s.retain := rfl
@[simp] theorem State.updThr_retainSteps (s : State) (t : ThreadId) (f : Thread → Thread) : (s.updThr t f).retainSteps = s.retainSteps := rfl
@[simp] theorem State.updThr_slotTable (s : State) (t : ThreadId) (f : Thread → Thread) : (s.updThr t f).slotTable = s.slotTable := rfl
@[simp] theorem State.updThr_posted (s : State) (t : ThreadId) (f : Thread → Thread) : (s.updThr t f).posted = s.posted := rfl
@[simp] theorem State.updThr_frames (s : State) (t : ThreadId) (f : Thread → Thread) : (s.updThr t f).frames = s.frames := rfl
@[simp] theorem State.updThr_rrPart (s : State) (t : ThreadId) (f : Thread → Thread) : (s.updThr t f).rrPart = s.rrPart := rfl
@[simp] theorem State.updThr_parts (s : State) (t : ThreadId) (f : Thread → Thread) : (s.updThr t f).parts = s.parts := rfl
@[simp] theorem State.updThr_clusters (s : State) (t : ThreadId) (f : Thread → Thread) : (s.updThr t f).clusters = s.clusters := rfl
@[simp] theorem State.updThr_tasks (s : State) (t : ThreadId) (f : Thread → Thread) : (s.updThr t f).tasks = s.tasks := rfl
@[simp] theorem State.updThr_launches (s : State) (t : ThreadId) (f : Thread → Thread) : (s.updThr t f).launches = s.launches := rfl
@[simp] theorem State.updThr_ports (s : State) (t : ThreadId) (f : Thread → Thread) : (s.updThr t f).ports = s.ports := rfl
@[simp] theorem State.updThr_mgmt (s : State) (t : ThreadId) (f : Thread → Thread) : (s.updThr t f).mgmt = s.mgmt := rfl
@[simp] theorem State.setTh_agenda (s : State) (x : Thread) : (s.setTh x).agenda = s.agenda := rfl
@[simp] theorem State.setTh_nextCore (s : State) (x : Thread) : (s.setTh x).nextCore = s.nextCore := rfl
@[simp] theorem State.setTh_cur (s : State) (x : Thread) : (s.setTh x).cur = s.cur := rfl
@[simp] theorem State.setTh_free (s : State) (x : Thread) : (s.setTh x).free = s.free := rfl
@[simp] theorem State.setTh_nextId (s : State) (x : Thread) : (s.setTh x).nextId = s.nextId := rfl
@[simp] theorem State.setTh_out (s : State) (x : Thread) : (s.setTh x).out = s.out := rfl
@[simp] theorem State.setTh_cycle (s : State) (x : Thread) : (s.setTh x).cycle = s.cycle := rfl
@[simp] theorem State.setTh_ptp (s : State) (x : Thread) : (s.setTh x).ptp = s.ptp := rfl
@[simp] theorem State.setTh_pkg (s : State) (x : Thread) : (s.setTh x).pkg = s.pkg := rfl
@[simp] theorem State.setTh_mem (s : State) (x : Thread) : (s.setTh x).mem = s.mem := rfl
@[simp] theorem State.setTh_vers (s : State) (x : Thread) : (s.setTh x).vers = s.vers := rfl
@[simp] theorem State.setTh_mvers (s : State) (x : Thread) : (s.setTh x).mvers = s.mvers := rfl
@[simp] theorem State.setTh_vers0 (s : State) (x : Thread) : (s.setTh x).vers0 = s.vers0 := rfl
@[simp] theorem State.setTh_poison (s : State) (x : Thread) : (s.setTh x).poison = s.poison := rfl
@[simp] theorem State.setTh_sramPoison (s : State) (x : Thread) : (s.setTh x).sramPoison = s.sramPoison := rfl
@[simp] theorem State.setTh_l2 (s : State) (x : Thread) : (s.setTh x).l2 = s.l2 := rfl
@[simp] theorem State.setTh_retain (s : State) (x : Thread) : (s.setTh x).retain = s.retain := rfl
@[simp] theorem State.setTh_retainSteps (s : State) (x : Thread) : (s.setTh x).retainSteps = s.retainSteps := rfl
@[simp] theorem State.setTh_slotTable (s : State) (x : Thread) : (s.setTh x).slotTable = s.slotTable := rfl
@[simp] theorem State.setTh_posted (s : State) (x : Thread) : (s.setTh x).posted = s.posted := rfl
@[simp] theorem State.setTh_frames (s : State) (x : Thread) : (s.setTh x).frames = s.frames := rfl
@[simp] theorem State.setTh_rrPart (s : State) (x : Thread) : (s.setTh x).rrPart = s.rrPart := rfl
@[simp] theorem State.setTh_parts (s : State) (x : Thread) : (s.setTh x).parts = s.parts := rfl
@[simp] theorem State.setTh_clusters (s : State) (x : Thread) : (s.setTh x).clusters = s.clusters := rfl
@[simp] theorem State.setTh_tasks (s : State) (x : Thread) : (s.setTh x).tasks = s.tasks := rfl
@[simp] theorem State.setTh_launches (s : State) (x : Thread) : (s.setTh x).launches = s.launches := rfl
@[simp] theorem State.setTh_ports (s : State) (x : Thread) : (s.setTh x).ports = s.ports := rfl
@[simp] theorem State.setTh_mgmt (s : State) (x : Thread) : (s.setTh x).mgmt = s.mgmt := rfl
@[simp] theorem State.updTh_agenda (s : State) (f : Thread → Thread) : (s.updTh f).agenda = s.agenda := rfl
@[simp] theorem State.updTh_nextCore (s : State) (f : Thread → Thread) : (s.updTh f).nextCore = s.nextCore := rfl
@[simp] theorem State.updTh_cur (s : State) (f : Thread → Thread) : (s.updTh f).cur = s.cur := rfl
@[simp] theorem State.updTh_free (s : State) (f : Thread → Thread) : (s.updTh f).free = s.free := rfl
@[simp] theorem State.updTh_nextId (s : State) (f : Thread → Thread) : (s.updTh f).nextId = s.nextId := rfl
@[simp] theorem State.updTh_out (s : State) (f : Thread → Thread) : (s.updTh f).out = s.out := rfl
@[simp] theorem State.updTh_cycle (s : State) (f : Thread → Thread) : (s.updTh f).cycle = s.cycle := rfl
@[simp] theorem State.updTh_ptp (s : State) (f : Thread → Thread) : (s.updTh f).ptp = s.ptp := rfl
@[simp] theorem State.updTh_pkg (s : State) (f : Thread → Thread) : (s.updTh f).pkg = s.pkg := rfl
@[simp] theorem State.updTh_mem (s : State) (f : Thread → Thread) : (s.updTh f).mem = s.mem := rfl
@[simp] theorem State.updTh_vers (s : State) (f : Thread → Thread) : (s.updTh f).vers = s.vers := rfl
@[simp] theorem State.updTh_mvers (s : State) (f : Thread → Thread) : (s.updTh f).mvers = s.mvers := rfl
@[simp] theorem State.updTh_vers0 (s : State) (f : Thread → Thread) : (s.updTh f).vers0 = s.vers0 := rfl
@[simp] theorem State.updTh_poison (s : State) (f : Thread → Thread) : (s.updTh f).poison = s.poison := rfl
@[simp] theorem State.updTh_sramPoison (s : State) (f : Thread → Thread) : (s.updTh f).sramPoison = s.sramPoison := rfl
@[simp] theorem State.updTh_l2 (s : State) (f : Thread → Thread) : (s.updTh f).l2 = s.l2 := rfl
@[simp] theorem State.updTh_retain (s : State) (f : Thread → Thread) : (s.updTh f).retain = s.retain := rfl
@[simp] theorem State.updTh_retainSteps (s : State) (f : Thread → Thread) : (s.updTh f).retainSteps = s.retainSteps := rfl
@[simp] theorem State.updTh_slotTable (s : State) (f : Thread → Thread) : (s.updTh f).slotTable = s.slotTable := rfl
@[simp] theorem State.updTh_posted (s : State) (f : Thread → Thread) : (s.updTh f).posted = s.posted := rfl
@[simp] theorem State.updTh_frames (s : State) (f : Thread → Thread) : (s.updTh f).frames = s.frames := rfl
@[simp] theorem State.updTh_rrPart (s : State) (f : Thread → Thread) : (s.updTh f).rrPart = s.rrPart := rfl
@[simp] theorem State.updTh_parts (s : State) (f : Thread → Thread) : (s.updTh f).parts = s.parts := rfl
@[simp] theorem State.updTh_clusters (s : State) (f : Thread → Thread) : (s.updTh f).clusters = s.clusters := rfl
@[simp] theorem State.updTh_tasks (s : State) (f : Thread → Thread) : (s.updTh f).tasks = s.tasks := rfl
@[simp] theorem State.updTh_launches (s : State) (f : Thread → Thread) : (s.updTh f).launches = s.launches := rfl
@[simp] theorem State.updTh_ports (s : State) (f : Thread → Thread) : (s.updTh f).ports = s.ports := rfl
@[simp] theorem State.updTh_mgmt (s : State) (f : Thread → Thread) : (s.updTh f).mgmt = s.mgmt := rfl
@[simp] theorem State.updRegs_agenda (s : State) (f : Regs → Regs) : (s.updRegs f).agenda = s.agenda := rfl
@[simp] theorem State.updRegs_nextCore (s : State) (f : Regs → Regs) : (s.updRegs f).nextCore = s.nextCore := rfl
@[simp] theorem State.updRegs_cur (s : State) (f : Regs → Regs) : (s.updRegs f).cur = s.cur := rfl
@[simp] theorem State.updRegs_free (s : State) (f : Regs → Regs) : (s.updRegs f).free = s.free := rfl
@[simp] theorem State.updRegs_nextId (s : State) (f : Regs → Regs) : (s.updRegs f).nextId = s.nextId := rfl
@[simp] theorem State.updRegs_out (s : State) (f : Regs → Regs) : (s.updRegs f).out = s.out := rfl
@[simp] theorem State.updRegs_cycle (s : State) (f : Regs → Regs) : (s.updRegs f).cycle = s.cycle := rfl
@[simp] theorem State.updRegs_ptp (s : State) (f : Regs → Regs) : (s.updRegs f).ptp = s.ptp := rfl
@[simp] theorem State.updRegs_pkg (s : State) (f : Regs → Regs) : (s.updRegs f).pkg = s.pkg := rfl
@[simp] theorem State.updRegs_mem (s : State) (f : Regs → Regs) : (s.updRegs f).mem = s.mem := rfl
@[simp] theorem State.updRegs_vers (s : State) (f : Regs → Regs) : (s.updRegs f).vers = s.vers := rfl
@[simp] theorem State.updRegs_mvers (s : State) (f : Regs → Regs) : (s.updRegs f).mvers = s.mvers := rfl
@[simp] theorem State.updRegs_vers0 (s : State) (f : Regs → Regs) : (s.updRegs f).vers0 = s.vers0 := rfl
@[simp] theorem State.updRegs_poison (s : State) (f : Regs → Regs) : (s.updRegs f).poison = s.poison := rfl
@[simp] theorem State.updRegs_sramPoison (s : State) (f : Regs → Regs) : (s.updRegs f).sramPoison = s.sramPoison := rfl
@[simp] theorem State.updRegs_l2 (s : State) (f : Regs → Regs) : (s.updRegs f).l2 = s.l2 := rfl
@[simp] theorem State.updRegs_retain (s : State) (f : Regs → Regs) : (s.updRegs f).retain = s.retain := rfl
@[simp] theorem State.updRegs_retainSteps (s : State) (f : Regs → Regs) : (s.updRegs f).retainSteps = s.retainSteps := rfl
@[simp] theorem State.updRegs_slotTable (s : State) (f : Regs → Regs) : (s.updRegs f).slotTable = s.slotTable := rfl
@[simp] theorem State.updRegs_posted (s : State) (f : Regs → Regs) : (s.updRegs f).posted = s.posted := rfl
@[simp] theorem State.updRegs_frames (s : State) (f : Regs → Regs) : (s.updRegs f).frames = s.frames := rfl
@[simp] theorem State.updRegs_rrPart (s : State) (f : Regs → Regs) : (s.updRegs f).rrPart = s.rrPart := rfl
@[simp] theorem State.updRegs_parts (s : State) (f : Regs → Regs) : (s.updRegs f).parts = s.parts := rfl
@[simp] theorem State.updRegs_clusters (s : State) (f : Regs → Regs) : (s.updRegs f).clusters = s.clusters := rfl
@[simp] theorem State.updRegs_tasks (s : State) (f : Regs → Regs) : (s.updRegs f).tasks = s.tasks := rfl
@[simp] theorem State.updRegs_launches (s : State) (f : Regs → Regs) : (s.updRegs f).launches = s.launches := rfl
@[simp] theorem State.updRegs_ports (s : State) (f : Regs → Regs) : (s.updRegs f).ports = s.ports := rfl
@[simp] theorem State.updRegs_mgmt (s : State) (f : Regs → Regs) : (s.updRegs f).mgmt = s.mgmt := rfl
@[simp] theorem State.ws_agenda (s : State) (n : SReg) (v : W64) : (s.ws n v).agenda = s.agenda := rfl
@[simp] theorem State.ws_nextCore (s : State) (n : SReg) (v : W64) : (s.ws n v).nextCore = s.nextCore := rfl
@[simp] theorem State.ws_cur (s : State) (n : SReg) (v : W64) : (s.ws n v).cur = s.cur := rfl
@[simp] theorem State.ws_free (s : State) (n : SReg) (v : W64) : (s.ws n v).free = s.free := rfl
@[simp] theorem State.ws_nextId (s : State) (n : SReg) (v : W64) : (s.ws n v).nextId = s.nextId := rfl
@[simp] theorem State.ws_out (s : State) (n : SReg) (v : W64) : (s.ws n v).out = s.out := rfl
@[simp] theorem State.ws_cycle (s : State) (n : SReg) (v : W64) : (s.ws n v).cycle = s.cycle := rfl
@[simp] theorem State.ws_ptp (s : State) (n : SReg) (v : W64) : (s.ws n v).ptp = s.ptp := rfl
@[simp] theorem State.ws_pkg (s : State) (n : SReg) (v : W64) : (s.ws n v).pkg = s.pkg := rfl
@[simp] theorem State.ws_mem (s : State) (n : SReg) (v : W64) : (s.ws n v).mem = s.mem := rfl
@[simp] theorem State.ws_vers (s : State) (n : SReg) (v : W64) : (s.ws n v).vers = s.vers := rfl
@[simp] theorem State.ws_mvers (s : State) (n : SReg) (v : W64) : (s.ws n v).mvers = s.mvers := rfl
@[simp] theorem State.ws_vers0 (s : State) (n : SReg) (v : W64) : (s.ws n v).vers0 = s.vers0 := rfl
@[simp] theorem State.ws_poison (s : State) (n : SReg) (v : W64) : (s.ws n v).poison = s.poison := rfl
@[simp] theorem State.ws_sramPoison (s : State) (n : SReg) (v : W64) : (s.ws n v).sramPoison = s.sramPoison := rfl
@[simp] theorem State.ws_l2 (s : State) (n : SReg) (v : W64) : (s.ws n v).l2 = s.l2 := rfl
@[simp] theorem State.ws_retain (s : State) (n : SReg) (v : W64) : (s.ws n v).retain = s.retain := rfl
@[simp] theorem State.ws_retainSteps (s : State) (n : SReg) (v : W64) : (s.ws n v).retainSteps = s.retainSteps := rfl
@[simp] theorem State.ws_slotTable (s : State) (n : SReg) (v : W64) : (s.ws n v).slotTable = s.slotTable := rfl
@[simp] theorem State.ws_posted (s : State) (n : SReg) (v : W64) : (s.ws n v).posted = s.posted := rfl
@[simp] theorem State.ws_frames (s : State) (n : SReg) (v : W64) : (s.ws n v).frames = s.frames := rfl
@[simp] theorem State.ws_rrPart (s : State) (n : SReg) (v : W64) : (s.ws n v).rrPart = s.rrPart := rfl
@[simp] theorem State.ws_parts (s : State) (n : SReg) (v : W64) : (s.ws n v).parts = s.parts := rfl
@[simp] theorem State.ws_clusters (s : State) (n : SReg) (v : W64) : (s.ws n v).clusters = s.clusters := rfl
@[simp] theorem State.ws_tasks (s : State) (n : SReg) (v : W64) : (s.ws n v).tasks = s.tasks := rfl
@[simp] theorem State.ws_launches (s : State) (n : SReg) (v : W64) : (s.ws n v).launches = s.launches := rfl
@[simp] theorem State.ws_ports (s : State) (n : SReg) (v : W64) : (s.ws n v).ports = s.ports := rfl
@[simp] theorem State.ws_mgmt (s : State) (n : SReg) (v : W64) : (s.ws n v).mgmt = s.mgmt := rfl
@[simp] theorem State.wv_agenda (s : State) (n : VReg) (v : VWord) : (s.wv n v).agenda = s.agenda := rfl
@[simp] theorem State.wv_nextCore (s : State) (n : VReg) (v : VWord) : (s.wv n v).nextCore = s.nextCore := rfl
@[simp] theorem State.wv_cur (s : State) (n : VReg) (v : VWord) : (s.wv n v).cur = s.cur := rfl
@[simp] theorem State.wv_free (s : State) (n : VReg) (v : VWord) : (s.wv n v).free = s.free := rfl
@[simp] theorem State.wv_nextId (s : State) (n : VReg) (v : VWord) : (s.wv n v).nextId = s.nextId := rfl
@[simp] theorem State.wv_out (s : State) (n : VReg) (v : VWord) : (s.wv n v).out = s.out := rfl
@[simp] theorem State.wv_cycle (s : State) (n : VReg) (v : VWord) : (s.wv n v).cycle = s.cycle := rfl
@[simp] theorem State.wv_ptp (s : State) (n : VReg) (v : VWord) : (s.wv n v).ptp = s.ptp := rfl
@[simp] theorem State.wv_pkg (s : State) (n : VReg) (v : VWord) : (s.wv n v).pkg = s.pkg := rfl
@[simp] theorem State.wv_mem (s : State) (n : VReg) (v : VWord) : (s.wv n v).mem = s.mem := rfl
@[simp] theorem State.wv_vers (s : State) (n : VReg) (v : VWord) : (s.wv n v).vers = s.vers := rfl
@[simp] theorem State.wv_mvers (s : State) (n : VReg) (v : VWord) : (s.wv n v).mvers = s.mvers := rfl
@[simp] theorem State.wv_vers0 (s : State) (n : VReg) (v : VWord) : (s.wv n v).vers0 = s.vers0 := rfl
@[simp] theorem State.wv_poison (s : State) (n : VReg) (v : VWord) : (s.wv n v).poison = s.poison := rfl
@[simp] theorem State.wv_sramPoison (s : State) (n : VReg) (v : VWord) : (s.wv n v).sramPoison = s.sramPoison := rfl
@[simp] theorem State.wv_l2 (s : State) (n : VReg) (v : VWord) : (s.wv n v).l2 = s.l2 := rfl
@[simp] theorem State.wv_retain (s : State) (n : VReg) (v : VWord) : (s.wv n v).retain = s.retain := rfl
@[simp] theorem State.wv_retainSteps (s : State) (n : VReg) (v : VWord) : (s.wv n v).retainSteps = s.retainSteps := rfl
@[simp] theorem State.wv_slotTable (s : State) (n : VReg) (v : VWord) : (s.wv n v).slotTable = s.slotTable := rfl
@[simp] theorem State.wv_posted (s : State) (n : VReg) (v : VWord) : (s.wv n v).posted = s.posted := rfl
@[simp] theorem State.wv_frames (s : State) (n : VReg) (v : VWord) : (s.wv n v).frames = s.frames := rfl
@[simp] theorem State.wv_rrPart (s : State) (n : VReg) (v : VWord) : (s.wv n v).rrPart = s.rrPart := rfl
@[simp] theorem State.wv_parts (s : State) (n : VReg) (v : VWord) : (s.wv n v).parts = s.parts := rfl
@[simp] theorem State.wv_clusters (s : State) (n : VReg) (v : VWord) : (s.wv n v).clusters = s.clusters := rfl
@[simp] theorem State.wv_tasks (s : State) (n : VReg) (v : VWord) : (s.wv n v).tasks = s.tasks := rfl
@[simp] theorem State.wv_launches (s : State) (n : VReg) (v : VWord) : (s.wv n v).launches = s.launches := rfl
@[simp] theorem State.wv_ports (s : State) (n : VReg) (v : VWord) : (s.wv n v).ports = s.ports := rfl
@[simp] theorem State.wv_mgmt (s : State) (n : VReg) (v : VWord) : (s.wv n v).mgmt = s.mgmt := rfl
@[simp] theorem State.wp_agenda (s : State) (n : PReg) (v : W32) : (s.wp n v).agenda = s.agenda := rfl
@[simp] theorem State.wp_nextCore (s : State) (n : PReg) (v : W32) : (s.wp n v).nextCore = s.nextCore := rfl
@[simp] theorem State.wp_cur (s : State) (n : PReg) (v : W32) : (s.wp n v).cur = s.cur := rfl
@[simp] theorem State.wp_free (s : State) (n : PReg) (v : W32) : (s.wp n v).free = s.free := rfl
@[simp] theorem State.wp_nextId (s : State) (n : PReg) (v : W32) : (s.wp n v).nextId = s.nextId := rfl
@[simp] theorem State.wp_out (s : State) (n : PReg) (v : W32) : (s.wp n v).out = s.out := rfl
@[simp] theorem State.wp_cycle (s : State) (n : PReg) (v : W32) : (s.wp n v).cycle = s.cycle := rfl
@[simp] theorem State.wp_ptp (s : State) (n : PReg) (v : W32) : (s.wp n v).ptp = s.ptp := rfl
@[simp] theorem State.wp_pkg (s : State) (n : PReg) (v : W32) : (s.wp n v).pkg = s.pkg := rfl
@[simp] theorem State.wp_mem (s : State) (n : PReg) (v : W32) : (s.wp n v).mem = s.mem := rfl
@[simp] theorem State.wp_vers (s : State) (n : PReg) (v : W32) : (s.wp n v).vers = s.vers := rfl
@[simp] theorem State.wp_mvers (s : State) (n : PReg) (v : W32) : (s.wp n v).mvers = s.mvers := rfl
@[simp] theorem State.wp_vers0 (s : State) (n : PReg) (v : W32) : (s.wp n v).vers0 = s.vers0 := rfl
@[simp] theorem State.wp_poison (s : State) (n : PReg) (v : W32) : (s.wp n v).poison = s.poison := rfl
@[simp] theorem State.wp_sramPoison (s : State) (n : PReg) (v : W32) : (s.wp n v).sramPoison = s.sramPoison := rfl
@[simp] theorem State.wp_l2 (s : State) (n : PReg) (v : W32) : (s.wp n v).l2 = s.l2 := rfl
@[simp] theorem State.wp_retain (s : State) (n : PReg) (v : W32) : (s.wp n v).retain = s.retain := rfl
@[simp] theorem State.wp_retainSteps (s : State) (n : PReg) (v : W32) : (s.wp n v).retainSteps = s.retainSteps := rfl
@[simp] theorem State.wp_slotTable (s : State) (n : PReg) (v : W32) : (s.wp n v).slotTable = s.slotTable := rfl
@[simp] theorem State.wp_posted (s : State) (n : PReg) (v : W32) : (s.wp n v).posted = s.posted := rfl
@[simp] theorem State.wp_frames (s : State) (n : PReg) (v : W32) : (s.wp n v).frames = s.frames := rfl
@[simp] theorem State.wp_rrPart (s : State) (n : PReg) (v : W32) : (s.wp n v).rrPart = s.rrPart := rfl
@[simp] theorem State.wp_parts (s : State) (n : PReg) (v : W32) : (s.wp n v).parts = s.parts := rfl
@[simp] theorem State.wp_clusters (s : State) (n : PReg) (v : W32) : (s.wp n v).clusters = s.clusters := rfl
@[simp] theorem State.wp_tasks (s : State) (n : PReg) (v : W32) : (s.wp n v).tasks = s.tasks := rfl
@[simp] theorem State.wp_launches (s : State) (n : PReg) (v : W32) : (s.wp n v).launches = s.launches := rfl
@[simp] theorem State.wp_ports (s : State) (n : PReg) (v : W32) : (s.wp n v).ports = s.ports := rfl
@[simp] theorem State.wp_mgmt (s : State) (n : PReg) (v : W32) : (s.wp n v).mgmt = s.mgmt := rfl
@[simp] theorem State.wc_agenda (s : State) (n : CReg) (v : Cb) : (s.wc n v).agenda = s.agenda := rfl
@[simp] theorem State.wc_nextCore (s : State) (n : CReg) (v : Cb) : (s.wc n v).nextCore = s.nextCore := rfl
@[simp] theorem State.wc_cur (s : State) (n : CReg) (v : Cb) : (s.wc n v).cur = s.cur := rfl
@[simp] theorem State.wc_free (s : State) (n : CReg) (v : Cb) : (s.wc n v).free = s.free := rfl
@[simp] theorem State.wc_nextId (s : State) (n : CReg) (v : Cb) : (s.wc n v).nextId = s.nextId := rfl
@[simp] theorem State.wc_out (s : State) (n : CReg) (v : Cb) : (s.wc n v).out = s.out := rfl
@[simp] theorem State.wc_cycle (s : State) (n : CReg) (v : Cb) : (s.wc n v).cycle = s.cycle := rfl
@[simp] theorem State.wc_ptp (s : State) (n : CReg) (v : Cb) : (s.wc n v).ptp = s.ptp := rfl
@[simp] theorem State.wc_pkg (s : State) (n : CReg) (v : Cb) : (s.wc n v).pkg = s.pkg := rfl
@[simp] theorem State.wc_mem (s : State) (n : CReg) (v : Cb) : (s.wc n v).mem = s.mem := rfl
@[simp] theorem State.wc_vers (s : State) (n : CReg) (v : Cb) : (s.wc n v).vers = s.vers := rfl
@[simp] theorem State.wc_mvers (s : State) (n : CReg) (v : Cb) : (s.wc n v).mvers = s.mvers := rfl
@[simp] theorem State.wc_vers0 (s : State) (n : CReg) (v : Cb) : (s.wc n v).vers0 = s.vers0 := rfl
@[simp] theorem State.wc_poison (s : State) (n : CReg) (v : Cb) : (s.wc n v).poison = s.poison := rfl
@[simp] theorem State.wc_sramPoison (s : State) (n : CReg) (v : Cb) : (s.wc n v).sramPoison = s.sramPoison := rfl
@[simp] theorem State.wc_l2 (s : State) (n : CReg) (v : Cb) : (s.wc n v).l2 = s.l2 := rfl
@[simp] theorem State.wc_retain (s : State) (n : CReg) (v : Cb) : (s.wc n v).retain = s.retain := rfl
@[simp] theorem State.wc_retainSteps (s : State) (n : CReg) (v : Cb) : (s.wc n v).retainSteps = s.retainSteps := rfl
@[simp] theorem State.wc_slotTable (s : State) (n : CReg) (v : Cb) : (s.wc n v).slotTable = s.slotTable := rfl
@[simp] theorem State.wc_posted (s : State) (n : CReg) (v : Cb) : (s.wc n v).posted = s.posted := rfl
@[simp] theorem State.wc_frames (s : State) (n : CReg) (v : Cb) : (s.wc n v).frames = s.frames := rfl
@[simp] theorem State.wc_rrPart (s : State) (n : CReg) (v : Cb) : (s.wc n v).rrPart = s.rrPart := rfl
@[simp] theorem State.wc_parts (s : State) (n : CReg) (v : Cb) : (s.wc n v).parts = s.parts := rfl
@[simp] theorem State.wc_clusters (s : State) (n : CReg) (v : Cb) : (s.wc n v).clusters = s.clusters := rfl
@[simp] theorem State.wc_tasks (s : State) (n : CReg) (v : Cb) : (s.wc n v).tasks = s.tasks := rfl
@[simp] theorem State.wc_launches (s : State) (n : CReg) (v : Cb) : (s.wc n v).launches = s.launches := rfl
@[simp] theorem State.wc_ports (s : State) (n : CReg) (v : Cb) : (s.wc n v).ports = s.ports := rfl
@[simp] theorem State.wc_mgmt (s : State) (n : CReg) (v : Cb) : (s.wc n v).mgmt = s.mgmt := rfl
@[simp] theorem State.orSticky_agenda (s : State) (f : BitVec 4) : (s.orSticky f).agenda = s.agenda := rfl
@[simp] theorem State.orSticky_nextCore (s : State) (f : BitVec 4) : (s.orSticky f).nextCore = s.nextCore := rfl
@[simp] theorem State.orSticky_cur (s : State) (f : BitVec 4) : (s.orSticky f).cur = s.cur := rfl
@[simp] theorem State.orSticky_free (s : State) (f : BitVec 4) : (s.orSticky f).free = s.free := rfl
@[simp] theorem State.orSticky_nextId (s : State) (f : BitVec 4) : (s.orSticky f).nextId = s.nextId := rfl
@[simp] theorem State.orSticky_out (s : State) (f : BitVec 4) : (s.orSticky f).out = s.out := rfl
@[simp] theorem State.orSticky_cycle (s : State) (f : BitVec 4) : (s.orSticky f).cycle = s.cycle := rfl
@[simp] theorem State.orSticky_ptp (s : State) (f : BitVec 4) : (s.orSticky f).ptp = s.ptp := rfl
@[simp] theorem State.orSticky_pkg (s : State) (f : BitVec 4) : (s.orSticky f).pkg = s.pkg := rfl
@[simp] theorem State.orSticky_mem (s : State) (f : BitVec 4) : (s.orSticky f).mem = s.mem := rfl
@[simp] theorem State.orSticky_vers (s : State) (f : BitVec 4) : (s.orSticky f).vers = s.vers := rfl
@[simp] theorem State.orSticky_mvers (s : State) (f : BitVec 4) : (s.orSticky f).mvers = s.mvers := rfl
@[simp] theorem State.orSticky_vers0 (s : State) (f : BitVec 4) : (s.orSticky f).vers0 = s.vers0 := rfl
@[simp] theorem State.orSticky_poison (s : State) (f : BitVec 4) : (s.orSticky f).poison = s.poison := rfl
@[simp] theorem State.orSticky_sramPoison (s : State) (f : BitVec 4) : (s.orSticky f).sramPoison = s.sramPoison := rfl
@[simp] theorem State.orSticky_l2 (s : State) (f : BitVec 4) : (s.orSticky f).l2 = s.l2 := rfl
@[simp] theorem State.orSticky_retain (s : State) (f : BitVec 4) : (s.orSticky f).retain = s.retain := rfl
@[simp] theorem State.orSticky_retainSteps (s : State) (f : BitVec 4) : (s.orSticky f).retainSteps = s.retainSteps := rfl
@[simp] theorem State.orSticky_slotTable (s : State) (f : BitVec 4) : (s.orSticky f).slotTable = s.slotTable := rfl
@[simp] theorem State.orSticky_posted (s : State) (f : BitVec 4) : (s.orSticky f).posted = s.posted := rfl
@[simp] theorem State.orSticky_frames (s : State) (f : BitVec 4) : (s.orSticky f).frames = s.frames := rfl
@[simp] theorem State.orSticky_rrPart (s : State) (f : BitVec 4) : (s.orSticky f).rrPart = s.rrPart := rfl
@[simp] theorem State.orSticky_parts (s : State) (f : BitVec 4) : (s.orSticky f).parts = s.parts := rfl
@[simp] theorem State.orSticky_clusters (s : State) (f : BitVec 4) : (s.orSticky f).clusters = s.clusters := rfl
@[simp] theorem State.orSticky_tasks (s : State) (f : BitVec 4) : (s.orSticky f).tasks = s.tasks := rfl
@[simp] theorem State.orSticky_launches (s : State) (f : BitVec 4) : (s.orSticky f).launches = s.launches := rfl
@[simp] theorem State.orSticky_ports (s : State) (f : BitVec 4) : (s.orSticky f).ports = s.ports := rfl
@[simp] theorem State.orSticky_mgmt (s : State) (f : BitVec 4) : (s.orSticky f).mgmt = s.mgmt := rfl
@[simp] theorem State.wait_agenda (s : State) (g : Stage) : (s.wait g).agenda = s.agenda := rfl
@[simp] theorem State.wait_nextCore (s : State) (g : Stage) : (s.wait g).nextCore = s.nextCore := rfl
@[simp] theorem State.wait_cur (s : State) (g : Stage) : (s.wait g).cur = s.cur := rfl
@[simp] theorem State.wait_free (s : State) (g : Stage) : (s.wait g).free = s.free := rfl
@[simp] theorem State.wait_nextId (s : State) (g : Stage) : (s.wait g).nextId = s.nextId := rfl
@[simp] theorem State.wait_out (s : State) (g : Stage) : (s.wait g).out = s.out := rfl
@[simp] theorem State.wait_cycle (s : State) (g : Stage) : (s.wait g).cycle = s.cycle := rfl
@[simp] theorem State.wait_ptp (s : State) (g : Stage) : (s.wait g).ptp = s.ptp := rfl
@[simp] theorem State.wait_pkg (s : State) (g : Stage) : (s.wait g).pkg = s.pkg := rfl
@[simp] theorem State.wait_mem (s : State) (g : Stage) : (s.wait g).mem = s.mem := rfl
@[simp] theorem State.wait_vers (s : State) (g : Stage) : (s.wait g).vers = s.vers := rfl
@[simp] theorem State.wait_mvers (s : State) (g : Stage) : (s.wait g).mvers = s.mvers := rfl
@[simp] theorem State.wait_vers0 (s : State) (g : Stage) : (s.wait g).vers0 = s.vers0 := rfl
@[simp] theorem State.wait_poison (s : State) (g : Stage) : (s.wait g).poison = s.poison := rfl
@[simp] theorem State.wait_sramPoison (s : State) (g : Stage) : (s.wait g).sramPoison = s.sramPoison := rfl
@[simp] theorem State.wait_l2 (s : State) (g : Stage) : (s.wait g).l2 = s.l2 := rfl
@[simp] theorem State.wait_retain (s : State) (g : Stage) : (s.wait g).retain = s.retain := rfl
@[simp] theorem State.wait_retainSteps (s : State) (g : Stage) : (s.wait g).retainSteps = s.retainSteps := rfl
@[simp] theorem State.wait_slotTable (s : State) (g : Stage) : (s.wait g).slotTable = s.slotTable := rfl
@[simp] theorem State.wait_posted (s : State) (g : Stage) : (s.wait g).posted = s.posted := rfl
@[simp] theorem State.wait_frames (s : State) (g : Stage) : (s.wait g).frames = s.frames := rfl
@[simp] theorem State.wait_rrPart (s : State) (g : Stage) : (s.wait g).rrPart = s.rrPart := rfl
@[simp] theorem State.wait_parts (s : State) (g : Stage) : (s.wait g).parts = s.parts := rfl
@[simp] theorem State.wait_clusters (s : State) (g : Stage) : (s.wait g).clusters = s.clusters := rfl
@[simp] theorem State.wait_tasks (s : State) (g : Stage) : (s.wait g).tasks = s.tasks := rfl
@[simp] theorem State.wait_launches (s : State) (g : Stage) : (s.wait g).launches = s.launches := rfl
@[simp] theorem State.wait_ports (s : State) (g : Stage) : (s.wait g).ports = s.ports := rfl
@[simp] theorem State.wait_mgmt (s : State) (g : Stage) : (s.wait g).mgmt = s.mgmt := rfl
@[simp] theorem State.setCluster_agenda (s : State) (c : Nat) (k : Cluster) : (s.setCluster c k).agenda = s.agenda := rfl
@[simp] theorem State.setCluster_nextCore (s : State) (c : Nat) (k : Cluster) : (s.setCluster c k).nextCore = s.nextCore := rfl
@[simp] theorem State.setCluster_cur (s : State) (c : Nat) (k : Cluster) : (s.setCluster c k).cur = s.cur := rfl
@[simp] theorem State.setCluster_free (s : State) (c : Nat) (k : Cluster) : (s.setCluster c k).free = s.free := rfl
@[simp] theorem State.setCluster_nextId (s : State) (c : Nat) (k : Cluster) : (s.setCluster c k).nextId = s.nextId := rfl
@[simp] theorem State.setCluster_out (s : State) (c : Nat) (k : Cluster) : (s.setCluster c k).out = s.out := rfl
@[simp] theorem State.setCluster_cycle (s : State) (c : Nat) (k : Cluster) : (s.setCluster c k).cycle = s.cycle := rfl
@[simp] theorem State.setCluster_ptp (s : State) (c : Nat) (k : Cluster) : (s.setCluster c k).ptp = s.ptp := rfl
@[simp] theorem State.setCluster_pkg (s : State) (c : Nat) (k : Cluster) : (s.setCluster c k).pkg = s.pkg := rfl
@[simp] theorem State.setCluster_mem (s : State) (c : Nat) (k : Cluster) : (s.setCluster c k).mem = s.mem := rfl
@[simp] theorem State.setCluster_vers (s : State) (c : Nat) (k : Cluster) : (s.setCluster c k).vers = s.vers := rfl
@[simp] theorem State.setCluster_mvers (s : State) (c : Nat) (k : Cluster) : (s.setCluster c k).mvers = s.mvers := rfl
@[simp] theorem State.setCluster_vers0 (s : State) (c : Nat) (k : Cluster) : (s.setCluster c k).vers0 = s.vers0 := rfl
@[simp] theorem State.setCluster_poison (s : State) (c : Nat) (k : Cluster) : (s.setCluster c k).poison = s.poison := rfl
@[simp] theorem State.setCluster_sramPoison (s : State) (c : Nat) (k : Cluster) : (s.setCluster c k).sramPoison = s.sramPoison := rfl
@[simp] theorem State.setCluster_l2 (s : State) (c : Nat) (k : Cluster) : (s.setCluster c k).l2 = s.l2 := rfl
@[simp] theorem State.setCluster_retain (s : State) (c : Nat) (k : Cluster) : (s.setCluster c k).retain = s.retain := rfl
@[simp] theorem State.setCluster_retainSteps (s : State) (c : Nat) (k : Cluster) : (s.setCluster c k).retainSteps = s.retainSteps := rfl
@[simp] theorem State.setCluster_slotTable (s : State) (c : Nat) (k : Cluster) : (s.setCluster c k).slotTable = s.slotTable := rfl
@[simp] theorem State.setCluster_posted (s : State) (c : Nat) (k : Cluster) : (s.setCluster c k).posted = s.posted := rfl
@[simp] theorem State.setCluster_frames (s : State) (c : Nat) (k : Cluster) : (s.setCluster c k).frames = s.frames := rfl
@[simp] theorem State.setCluster_rrPart (s : State) (c : Nat) (k : Cluster) : (s.setCluster c k).rrPart = s.rrPart := rfl
@[simp] theorem State.setCluster_parts (s : State) (c : Nat) (k : Cluster) : (s.setCluster c k).parts = s.parts := rfl
@[simp] theorem State.setCluster_cores (s : State) (c : Nat) (k : Cluster) : (s.setCluster c k).cores = s.cores := rfl
@[simp] theorem State.setCluster_tasks (s : State) (c : Nat) (k : Cluster) : (s.setCluster c k).tasks = s.tasks := rfl
@[simp] theorem State.setCluster_launches (s : State) (c : Nat) (k : Cluster) : (s.setCluster c k).launches = s.launches := rfl
@[simp] theorem State.setCluster_ports (s : State) (c : Nat) (k : Cluster) : (s.setCluster c k).ports = s.ports := rfl
@[simp] theorem State.setCluster_mgmt (s : State) (c : Nat) (k : Cluster) : (s.setCluster c k).mgmt = s.mgmt := rfl
@[simp] theorem State.updCluster_agenda (s : State) (c : Nat) (f : Cluster → Cluster) : (s.updCluster c f).agenda = s.agenda := rfl
@[simp] theorem State.updCluster_nextCore (s : State) (c : Nat) (f : Cluster → Cluster) : (s.updCluster c f).nextCore = s.nextCore := rfl
@[simp] theorem State.updCluster_cur (s : State) (c : Nat) (f : Cluster → Cluster) : (s.updCluster c f).cur = s.cur := rfl
@[simp] theorem State.updCluster_free (s : State) (c : Nat) (f : Cluster → Cluster) : (s.updCluster c f).free = s.free := rfl
@[simp] theorem State.updCluster_nextId (s : State) (c : Nat) (f : Cluster → Cluster) : (s.updCluster c f).nextId = s.nextId := rfl
@[simp] theorem State.updCluster_out (s : State) (c : Nat) (f : Cluster → Cluster) : (s.updCluster c f).out = s.out := rfl
@[simp] theorem State.updCluster_cycle (s : State) (c : Nat) (f : Cluster → Cluster) : (s.updCluster c f).cycle = s.cycle := rfl
@[simp] theorem State.updCluster_ptp (s : State) (c : Nat) (f : Cluster → Cluster) : (s.updCluster c f).ptp = s.ptp := rfl
@[simp] theorem State.updCluster_pkg (s : State) (c : Nat) (f : Cluster → Cluster) : (s.updCluster c f).pkg = s.pkg := rfl
@[simp] theorem State.updCluster_mem (s : State) (c : Nat) (f : Cluster → Cluster) : (s.updCluster c f).mem = s.mem := rfl
@[simp] theorem State.updCluster_vers (s : State) (c : Nat) (f : Cluster → Cluster) : (s.updCluster c f).vers = s.vers := rfl
@[simp] theorem State.updCluster_mvers (s : State) (c : Nat) (f : Cluster → Cluster) : (s.updCluster c f).mvers = s.mvers := rfl
@[simp] theorem State.updCluster_vers0 (s : State) (c : Nat) (f : Cluster → Cluster) : (s.updCluster c f).vers0 = s.vers0 := rfl
@[simp] theorem State.updCluster_poison (s : State) (c : Nat) (f : Cluster → Cluster) : (s.updCluster c f).poison = s.poison := rfl
@[simp] theorem State.updCluster_sramPoison (s : State) (c : Nat) (f : Cluster → Cluster) : (s.updCluster c f).sramPoison = s.sramPoison := rfl
@[simp] theorem State.updCluster_l2 (s : State) (c : Nat) (f : Cluster → Cluster) : (s.updCluster c f).l2 = s.l2 := rfl
@[simp] theorem State.updCluster_retain (s : State) (c : Nat) (f : Cluster → Cluster) : (s.updCluster c f).retain = s.retain := rfl
@[simp] theorem State.updCluster_retainSteps (s : State) (c : Nat) (f : Cluster → Cluster) : (s.updCluster c f).retainSteps = s.retainSteps := rfl
@[simp] theorem State.updCluster_slotTable (s : State) (c : Nat) (f : Cluster → Cluster) : (s.updCluster c f).slotTable = s.slotTable := rfl
@[simp] theorem State.updCluster_posted (s : State) (c : Nat) (f : Cluster → Cluster) : (s.updCluster c f).posted = s.posted := rfl
@[simp] theorem State.updCluster_frames (s : State) (c : Nat) (f : Cluster → Cluster) : (s.updCluster c f).frames = s.frames := rfl
@[simp] theorem State.updCluster_rrPart (s : State) (c : Nat) (f : Cluster → Cluster) : (s.updCluster c f).rrPart = s.rrPart := rfl
@[simp] theorem State.updCluster_parts (s : State) (c : Nat) (f : Cluster → Cluster) : (s.updCluster c f).parts = s.parts := rfl
@[simp] theorem State.updCluster_cores (s : State) (c : Nat) (f : Cluster → Cluster) : (s.updCluster c f).cores = s.cores := rfl
@[simp] theorem State.updCluster_tasks (s : State) (c : Nat) (f : Cluster → Cluster) : (s.updCluster c f).tasks = s.tasks := rfl
@[simp] theorem State.updCluster_launches (s : State) (c : Nat) (f : Cluster → Cluster) : (s.updCluster c f).launches = s.launches := rfl
@[simp] theorem State.updCluster_ports (s : State) (c : Nat) (f : Cluster → Cluster) : (s.updCluster c f).ports = s.ports := rfl
@[simp] theorem State.updCluster_mgmt (s : State) (c : Nat) (f : Cluster → Cluster) : (s.updCluster c f).mgmt = s.mgmt := rfl
@[simp] theorem State.setPart_agenda (s : State) (p : Nat) (x : Partition) : (s.setPart p x).agenda = s.agenda := rfl
@[simp] theorem State.setPart_nextCore (s : State) (p : Nat) (x : Partition) : (s.setPart p x).nextCore = s.nextCore := rfl
@[simp] theorem State.setPart_cur (s : State) (p : Nat) (x : Partition) : (s.setPart p x).cur = s.cur := rfl
@[simp] theorem State.setPart_free (s : State) (p : Nat) (x : Partition) : (s.setPart p x).free = s.free := rfl
@[simp] theorem State.setPart_nextId (s : State) (p : Nat) (x : Partition) : (s.setPart p x).nextId = s.nextId := rfl
@[simp] theorem State.setPart_out (s : State) (p : Nat) (x : Partition) : (s.setPart p x).out = s.out := rfl
@[simp] theorem State.setPart_cycle (s : State) (p : Nat) (x : Partition) : (s.setPart p x).cycle = s.cycle := rfl
@[simp] theorem State.setPart_ptp (s : State) (p : Nat) (x : Partition) : (s.setPart p x).ptp = s.ptp := rfl
@[simp] theorem State.setPart_pkg (s : State) (p : Nat) (x : Partition) : (s.setPart p x).pkg = s.pkg := rfl
@[simp] theorem State.setPart_mem (s : State) (p : Nat) (x : Partition) : (s.setPart p x).mem = s.mem := rfl
@[simp] theorem State.setPart_vers (s : State) (p : Nat) (x : Partition) : (s.setPart p x).vers = s.vers := rfl
@[simp] theorem State.setPart_mvers (s : State) (p : Nat) (x : Partition) : (s.setPart p x).mvers = s.mvers := rfl
@[simp] theorem State.setPart_vers0 (s : State) (p : Nat) (x : Partition) : (s.setPart p x).vers0 = s.vers0 := rfl
@[simp] theorem State.setPart_poison (s : State) (p : Nat) (x : Partition) : (s.setPart p x).poison = s.poison := rfl
@[simp] theorem State.setPart_sramPoison (s : State) (p : Nat) (x : Partition) : (s.setPart p x).sramPoison = s.sramPoison := rfl
@[simp] theorem State.setPart_l2 (s : State) (p : Nat) (x : Partition) : (s.setPart p x).l2 = s.l2 := rfl
@[simp] theorem State.setPart_retain (s : State) (p : Nat) (x : Partition) : (s.setPart p x).retain = s.retain := rfl
@[simp] theorem State.setPart_retainSteps (s : State) (p : Nat) (x : Partition) : (s.setPart p x).retainSteps = s.retainSteps := rfl
@[simp] theorem State.setPart_slotTable (s : State) (p : Nat) (x : Partition) : (s.setPart p x).slotTable = s.slotTable := rfl
@[simp] theorem State.setPart_posted (s : State) (p : Nat) (x : Partition) : (s.setPart p x).posted = s.posted := rfl
@[simp] theorem State.setPart_frames (s : State) (p : Nat) (x : Partition) : (s.setPart p x).frames = s.frames := rfl
@[simp] theorem State.setPart_rrPart (s : State) (p : Nat) (x : Partition) : (s.setPart p x).rrPart = s.rrPart := rfl
@[simp] theorem State.setPart_cores (s : State) (p : Nat) (x : Partition) : (s.setPart p x).cores = s.cores := rfl
@[simp] theorem State.setPart_clusters (s : State) (p : Nat) (x : Partition) : (s.setPart p x).clusters = s.clusters := rfl
@[simp] theorem State.setPart_tasks (s : State) (p : Nat) (x : Partition) : (s.setPart p x).tasks = s.tasks := rfl
@[simp] theorem State.setPart_launches (s : State) (p : Nat) (x : Partition) : (s.setPart p x).launches = s.launches := rfl
@[simp] theorem State.setPart_ports (s : State) (p : Nat) (x : Partition) : (s.setPart p x).ports = s.ports := rfl
@[simp] theorem State.setPart_mgmt (s : State) (p : Nat) (x : Partition) : (s.setPart p x).mgmt = s.mgmt := rfl
@[simp] theorem State.updPart_agenda (s : State) (p : Nat) (f : Partition → Partition) : (s.updPart p f).agenda = s.agenda := rfl
@[simp] theorem State.updPart_nextCore (s : State) (p : Nat) (f : Partition → Partition) : (s.updPart p f).nextCore = s.nextCore := rfl
@[simp] theorem State.updPart_cur (s : State) (p : Nat) (f : Partition → Partition) : (s.updPart p f).cur = s.cur := rfl
@[simp] theorem State.updPart_free (s : State) (p : Nat) (f : Partition → Partition) : (s.updPart p f).free = s.free := rfl
@[simp] theorem State.updPart_nextId (s : State) (p : Nat) (f : Partition → Partition) : (s.updPart p f).nextId = s.nextId := rfl
@[simp] theorem State.updPart_out (s : State) (p : Nat) (f : Partition → Partition) : (s.updPart p f).out = s.out := rfl
@[simp] theorem State.updPart_cycle (s : State) (p : Nat) (f : Partition → Partition) : (s.updPart p f).cycle = s.cycle := rfl
@[simp] theorem State.updPart_ptp (s : State) (p : Nat) (f : Partition → Partition) : (s.updPart p f).ptp = s.ptp := rfl
@[simp] theorem State.updPart_pkg (s : State) (p : Nat) (f : Partition → Partition) : (s.updPart p f).pkg = s.pkg := rfl
@[simp] theorem State.updPart_mem (s : State) (p : Nat) (f : Partition → Partition) : (s.updPart p f).mem = s.mem := rfl
@[simp] theorem State.updPart_vers (s : State) (p : Nat) (f : Partition → Partition) : (s.updPart p f).vers = s.vers := rfl
@[simp] theorem State.updPart_mvers (s : State) (p : Nat) (f : Partition → Partition) : (s.updPart p f).mvers = s.mvers := rfl
@[simp] theorem State.updPart_vers0 (s : State) (p : Nat) (f : Partition → Partition) : (s.updPart p f).vers0 = s.vers0 := rfl
@[simp] theorem State.updPart_poison (s : State) (p : Nat) (f : Partition → Partition) : (s.updPart p f).poison = s.poison := rfl
@[simp] theorem State.updPart_sramPoison (s : State) (p : Nat) (f : Partition → Partition) : (s.updPart p f).sramPoison = s.sramPoison := rfl
@[simp] theorem State.updPart_l2 (s : State) (p : Nat) (f : Partition → Partition) : (s.updPart p f).l2 = s.l2 := rfl
@[simp] theorem State.updPart_retain (s : State) (p : Nat) (f : Partition → Partition) : (s.updPart p f).retain = s.retain := rfl
@[simp] theorem State.updPart_retainSteps (s : State) (p : Nat) (f : Partition → Partition) : (s.updPart p f).retainSteps = s.retainSteps := rfl
@[simp] theorem State.updPart_slotTable (s : State) (p : Nat) (f : Partition → Partition) : (s.updPart p f).slotTable = s.slotTable := rfl
@[simp] theorem State.updPart_posted (s : State) (p : Nat) (f : Partition → Partition) : (s.updPart p f).posted = s.posted := rfl
@[simp] theorem State.updPart_frames (s : State) (p : Nat) (f : Partition → Partition) : (s.updPart p f).frames = s.frames := rfl
@[simp] theorem State.updPart_rrPart (s : State) (p : Nat) (f : Partition → Partition) : (s.updPart p f).rrPart = s.rrPart := rfl
@[simp] theorem State.updPart_cores (s : State) (p : Nat) (f : Partition → Partition) : (s.updPart p f).cores = s.cores := rfl
@[simp] theorem State.updPart_clusters (s : State) (p : Nat) (f : Partition → Partition) : (s.updPart p f).clusters = s.clusters := rfl
@[simp] theorem State.updPart_tasks (s : State) (p : Nat) (f : Partition → Partition) : (s.updPart p f).tasks = s.tasks := rfl
@[simp] theorem State.updPart_launches (s : State) (p : Nat) (f : Partition → Partition) : (s.updPart p f).launches = s.launches := rfl
@[simp] theorem State.updPart_ports (s : State) (p : Nat) (f : Partition → Partition) : (s.updPart p f).ports = s.ports := rfl
@[simp] theorem State.updPart_mgmt (s : State) (p : Nat) (f : Partition → Partition) : (s.updPart p f).mgmt = s.mgmt := rfl
@[simp] theorem State.updTask_agenda (s : State) (t : TaskId) (f : Task → Task) : (s.updTask t f).agenda = s.agenda := rfl
@[simp] theorem State.updTask_nextCore (s : State) (t : TaskId) (f : Task → Task) : (s.updTask t f).nextCore = s.nextCore := rfl
@[simp] theorem State.updTask_cur (s : State) (t : TaskId) (f : Task → Task) : (s.updTask t f).cur = s.cur := rfl
@[simp] theorem State.updTask_free (s : State) (t : TaskId) (f : Task → Task) : (s.updTask t f).free = s.free := rfl
@[simp] theorem State.updTask_nextId (s : State) (t : TaskId) (f : Task → Task) : (s.updTask t f).nextId = s.nextId := rfl
@[simp] theorem State.updTask_out (s : State) (t : TaskId) (f : Task → Task) : (s.updTask t f).out = s.out := rfl
@[simp] theorem State.updTask_cycle (s : State) (t : TaskId) (f : Task → Task) : (s.updTask t f).cycle = s.cycle := rfl
@[simp] theorem State.updTask_ptp (s : State) (t : TaskId) (f : Task → Task) : (s.updTask t f).ptp = s.ptp := rfl
@[simp] theorem State.updTask_pkg (s : State) (t : TaskId) (f : Task → Task) : (s.updTask t f).pkg = s.pkg := rfl
@[simp] theorem State.updTask_mem (s : State) (t : TaskId) (f : Task → Task) : (s.updTask t f).mem = s.mem := rfl
@[simp] theorem State.updTask_vers (s : State) (t : TaskId) (f : Task → Task) : (s.updTask t f).vers = s.vers := rfl
@[simp] theorem State.updTask_mvers (s : State) (t : TaskId) (f : Task → Task) : (s.updTask t f).mvers = s.mvers := rfl
@[simp] theorem State.updTask_vers0 (s : State) (t : TaskId) (f : Task → Task) : (s.updTask t f).vers0 = s.vers0 := rfl
@[simp] theorem State.updTask_poison (s : State) (t : TaskId) (f : Task → Task) : (s.updTask t f).poison = s.poison := rfl
@[simp] theorem State.updTask_sramPoison (s : State) (t : TaskId) (f : Task → Task) : (s.updTask t f).sramPoison = s.sramPoison := rfl
@[simp] theorem State.updTask_l2 (s : State) (t : TaskId) (f : Task → Task) : (s.updTask t f).l2 = s.l2 := rfl
@[simp] theorem State.updTask_retain (s : State) (t : TaskId) (f : Task → Task) : (s.updTask t f).retain = s.retain := rfl
@[simp] theorem State.updTask_retainSteps (s : State) (t : TaskId) (f : Task → Task) : (s.updTask t f).retainSteps = s.retainSteps := rfl
@[simp] theorem State.updTask_slotTable (s : State) (t : TaskId) (f : Task → Task) : (s.updTask t f).slotTable = s.slotTable := rfl
@[simp] theorem State.updTask_posted (s : State) (t : TaskId) (f : Task → Task) : (s.updTask t f).posted = s.posted := rfl
@[simp] theorem State.updTask_frames (s : State) (t : TaskId) (f : Task → Task) : (s.updTask t f).frames = s.frames := rfl
@[simp] theorem State.updTask_rrPart (s : State) (t : TaskId) (f : Task → Task) : (s.updTask t f).rrPart = s.rrPart := rfl
@[simp] theorem State.updTask_parts (s : State) (t : TaskId) (f : Task → Task) : (s.updTask t f).parts = s.parts := rfl
@[simp] theorem State.updTask_cores (s : State) (t : TaskId) (f : Task → Task) : (s.updTask t f).cores = s.cores := rfl
@[simp] theorem State.updTask_clusters (s : State) (t : TaskId) (f : Task → Task) : (s.updTask t f).clusters = s.clusters := rfl
@[simp] theorem State.updTask_launches (s : State) (t : TaskId) (f : Task → Task) : (s.updTask t f).launches = s.launches := rfl
@[simp] theorem State.updTask_ports (s : State) (t : TaskId) (f : Task → Task) : (s.updTask t f).ports = s.ports := rfl
@[simp] theorem State.updTask_mgmt (s : State) (t : TaskId) (f : Task → Task) : (s.updTask t f).mgmt = s.mgmt := rfl
@[simp] theorem State.updLaunch_agenda (s : State) (p lid : Nat) (f : Launch → Launch) : (s.updLaunch p lid f).agenda = s.agenda := rfl
@[simp] theorem State.updLaunch_nextCore (s : State) (p lid : Nat) (f : Launch → Launch) : (s.updLaunch p lid f).nextCore = s.nextCore := rfl
@[simp] theorem State.updLaunch_cur (s : State) (p lid : Nat) (f : Launch → Launch) : (s.updLaunch p lid f).cur = s.cur := rfl
@[simp] theorem State.updLaunch_free (s : State) (p lid : Nat) (f : Launch → Launch) : (s.updLaunch p lid f).free = s.free := rfl
@[simp] theorem State.updLaunch_nextId (s : State) (p lid : Nat) (f : Launch → Launch) : (s.updLaunch p lid f).nextId = s.nextId := rfl
@[simp] theorem State.updLaunch_out (s : State) (p lid : Nat) (f : Launch → Launch) : (s.updLaunch p lid f).out = s.out := rfl
@[simp] theorem State.updLaunch_cycle (s : State) (p lid : Nat) (f : Launch → Launch) : (s.updLaunch p lid f).cycle = s.cycle := rfl
@[simp] theorem State.updLaunch_ptp (s : State) (p lid : Nat) (f : Launch → Launch) : (s.updLaunch p lid f).ptp = s.ptp := rfl
@[simp] theorem State.updLaunch_pkg (s : State) (p lid : Nat) (f : Launch → Launch) : (s.updLaunch p lid f).pkg = s.pkg := rfl
@[simp] theorem State.updLaunch_mem (s : State) (p lid : Nat) (f : Launch → Launch) : (s.updLaunch p lid f).mem = s.mem := rfl
@[simp] theorem State.updLaunch_vers (s : State) (p lid : Nat) (f : Launch → Launch) : (s.updLaunch p lid f).vers = s.vers := rfl
@[simp] theorem State.updLaunch_mvers (s : State) (p lid : Nat) (f : Launch → Launch) : (s.updLaunch p lid f).mvers = s.mvers := rfl
@[simp] theorem State.updLaunch_vers0 (s : State) (p lid : Nat) (f : Launch → Launch) : (s.updLaunch p lid f).vers0 = s.vers0 := rfl
@[simp] theorem State.updLaunch_poison (s : State) (p lid : Nat) (f : Launch → Launch) : (s.updLaunch p lid f).poison = s.poison := rfl
@[simp] theorem State.updLaunch_sramPoison (s : State) (p lid : Nat) (f : Launch → Launch) : (s.updLaunch p lid f).sramPoison = s.sramPoison := rfl
@[simp] theorem State.updLaunch_l2 (s : State) (p lid : Nat) (f : Launch → Launch) : (s.updLaunch p lid f).l2 = s.l2 := rfl
@[simp] theorem State.updLaunch_retain (s : State) (p lid : Nat) (f : Launch → Launch) : (s.updLaunch p lid f).retain = s.retain := rfl
@[simp] theorem State.updLaunch_retainSteps (s : State) (p lid : Nat) (f : Launch → Launch) : (s.updLaunch p lid f).retainSteps = s.retainSteps := rfl
@[simp] theorem State.updLaunch_slotTable (s : State) (p lid : Nat) (f : Launch → Launch) : (s.updLaunch p lid f).slotTable = s.slotTable := rfl
@[simp] theorem State.updLaunch_posted (s : State) (p lid : Nat) (f : Launch → Launch) : (s.updLaunch p lid f).posted = s.posted := rfl
@[simp] theorem State.updLaunch_frames (s : State) (p lid : Nat) (f : Launch → Launch) : (s.updLaunch p lid f).frames = s.frames := rfl
@[simp] theorem State.updLaunch_rrPart (s : State) (p lid : Nat) (f : Launch → Launch) : (s.updLaunch p lid f).rrPart = s.rrPart := rfl
@[simp] theorem State.updLaunch_parts (s : State) (p lid : Nat) (f : Launch → Launch) : (s.updLaunch p lid f).parts = s.parts := rfl
@[simp] theorem State.updLaunch_cores (s : State) (p lid : Nat) (f : Launch → Launch) : (s.updLaunch p lid f).cores = s.cores := rfl
@[simp] theorem State.updLaunch_clusters (s : State) (p lid : Nat) (f : Launch → Launch) : (s.updLaunch p lid f).clusters = s.clusters := rfl
@[simp] theorem State.updLaunch_tasks (s : State) (p lid : Nat) (f : Launch → Launch) : (s.updLaunch p lid f).tasks = s.tasks := rfl
@[simp] theorem State.updLaunch_ports (s : State) (p lid : Nat) (f : Launch → Launch) : (s.updLaunch p lid f).ports = s.ports := rfl
@[simp] theorem State.updLaunch_mgmt (s : State) (p lid : Nat) (f : Launch → Launch) : (s.updLaunch p lid f).mgmt = s.mgmt := rfl
@[simp] theorem State.setPort_agenda (s : State) (q : Nat) (x : Port) : (s.setPort q x).agenda = s.agenda := rfl
@[simp] theorem State.setPort_nextCore (s : State) (q : Nat) (x : Port) : (s.setPort q x).nextCore = s.nextCore := rfl
@[simp] theorem State.setPort_cur (s : State) (q : Nat) (x : Port) : (s.setPort q x).cur = s.cur := rfl
@[simp] theorem State.setPort_free (s : State) (q : Nat) (x : Port) : (s.setPort q x).free = s.free := rfl
@[simp] theorem State.setPort_nextId (s : State) (q : Nat) (x : Port) : (s.setPort q x).nextId = s.nextId := rfl
@[simp] theorem State.setPort_out (s : State) (q : Nat) (x : Port) : (s.setPort q x).out = s.out := rfl
@[simp] theorem State.setPort_cycle (s : State) (q : Nat) (x : Port) : (s.setPort q x).cycle = s.cycle := rfl
@[simp] theorem State.setPort_ptp (s : State) (q : Nat) (x : Port) : (s.setPort q x).ptp = s.ptp := rfl
@[simp] theorem State.setPort_pkg (s : State) (q : Nat) (x : Port) : (s.setPort q x).pkg = s.pkg := rfl
@[simp] theorem State.setPort_mem (s : State) (q : Nat) (x : Port) : (s.setPort q x).mem = s.mem := rfl
@[simp] theorem State.setPort_vers (s : State) (q : Nat) (x : Port) : (s.setPort q x).vers = s.vers := rfl
@[simp] theorem State.setPort_mvers (s : State) (q : Nat) (x : Port) : (s.setPort q x).mvers = s.mvers := rfl
@[simp] theorem State.setPort_vers0 (s : State) (q : Nat) (x : Port) : (s.setPort q x).vers0 = s.vers0 := rfl
@[simp] theorem State.setPort_poison (s : State) (q : Nat) (x : Port) : (s.setPort q x).poison = s.poison := rfl
@[simp] theorem State.setPort_sramPoison (s : State) (q : Nat) (x : Port) : (s.setPort q x).sramPoison = s.sramPoison := rfl
@[simp] theorem State.setPort_l2 (s : State) (q : Nat) (x : Port) : (s.setPort q x).l2 = s.l2 := rfl
@[simp] theorem State.setPort_retain (s : State) (q : Nat) (x : Port) : (s.setPort q x).retain = s.retain := rfl
@[simp] theorem State.setPort_retainSteps (s : State) (q : Nat) (x : Port) : (s.setPort q x).retainSteps = s.retainSteps := rfl
@[simp] theorem State.setPort_slotTable (s : State) (q : Nat) (x : Port) : (s.setPort q x).slotTable = s.slotTable := rfl
@[simp] theorem State.setPort_posted (s : State) (q : Nat) (x : Port) : (s.setPort q x).posted = s.posted := rfl
@[simp] theorem State.setPort_frames (s : State) (q : Nat) (x : Port) : (s.setPort q x).frames = s.frames := rfl
@[simp] theorem State.setPort_rrPart (s : State) (q : Nat) (x : Port) : (s.setPort q x).rrPart = s.rrPart := rfl
@[simp] theorem State.setPort_parts (s : State) (q : Nat) (x : Port) : (s.setPort q x).parts = s.parts := rfl
@[simp] theorem State.setPort_cores (s : State) (q : Nat) (x : Port) : (s.setPort q x).cores = s.cores := rfl
@[simp] theorem State.setPort_clusters (s : State) (q : Nat) (x : Port) : (s.setPort q x).clusters = s.clusters := rfl
@[simp] theorem State.setPort_tasks (s : State) (q : Nat) (x : Port) : (s.setPort q x).tasks = s.tasks := rfl
@[simp] theorem State.setPort_launches (s : State) (q : Nat) (x : Port) : (s.setPort q x).launches = s.launches := rfl
@[simp] theorem State.setPort_mgmt (s : State) (q : Nat) (x : Port) : (s.setPort q x).mgmt = s.mgmt := rfl
@[simp] theorem State.updPort_agenda (s : State) (q : Nat) (f : Port → Port) : (s.updPort q f).agenda = s.agenda := rfl
@[simp] theorem State.updPort_nextCore (s : State) (q : Nat) (f : Port → Port) : (s.updPort q f).nextCore = s.nextCore := rfl
@[simp] theorem State.updPort_cur (s : State) (q : Nat) (f : Port → Port) : (s.updPort q f).cur = s.cur := rfl
@[simp] theorem State.updPort_free (s : State) (q : Nat) (f : Port → Port) : (s.updPort q f).free = s.free := rfl
@[simp] theorem State.updPort_nextId (s : State) (q : Nat) (f : Port → Port) : (s.updPort q f).nextId = s.nextId := rfl
@[simp] theorem State.updPort_out (s : State) (q : Nat) (f : Port → Port) : (s.updPort q f).out = s.out := rfl
@[simp] theorem State.updPort_cycle (s : State) (q : Nat) (f : Port → Port) : (s.updPort q f).cycle = s.cycle := rfl
@[simp] theorem State.updPort_ptp (s : State) (q : Nat) (f : Port → Port) : (s.updPort q f).ptp = s.ptp := rfl
@[simp] theorem State.updPort_pkg (s : State) (q : Nat) (f : Port → Port) : (s.updPort q f).pkg = s.pkg := rfl
@[simp] theorem State.updPort_mem (s : State) (q : Nat) (f : Port → Port) : (s.updPort q f).mem = s.mem := rfl
@[simp] theorem State.updPort_vers (s : State) (q : Nat) (f : Port → Port) : (s.updPort q f).vers = s.vers := rfl
@[simp] theorem State.updPort_mvers (s : State) (q : Nat) (f : Port → Port) : (s.updPort q f).mvers = s.mvers := rfl
@[simp] theorem State.updPort_vers0 (s : State) (q : Nat) (f : Port → Port) : (s.updPort q f).vers0 = s.vers0 := rfl
@[simp] theorem State.updPort_poison (s : State) (q : Nat) (f : Port → Port) : (s.updPort q f).poison = s.poison := rfl
@[simp] theorem State.updPort_sramPoison (s : State) (q : Nat) (f : Port → Port) : (s.updPort q f).sramPoison = s.sramPoison := rfl
@[simp] theorem State.updPort_l2 (s : State) (q : Nat) (f : Port → Port) : (s.updPort q f).l2 = s.l2 := rfl
@[simp] theorem State.updPort_retain (s : State) (q : Nat) (f : Port → Port) : (s.updPort q f).retain = s.retain := rfl
@[simp] theorem State.updPort_retainSteps (s : State) (q : Nat) (f : Port → Port) : (s.updPort q f).retainSteps = s.retainSteps := rfl
@[simp] theorem State.updPort_slotTable (s : State) (q : Nat) (f : Port → Port) : (s.updPort q f).slotTable = s.slotTable := rfl
@[simp] theorem State.updPort_posted (s : State) (q : Nat) (f : Port → Port) : (s.updPort q f).posted = s.posted := rfl
@[simp] theorem State.updPort_frames (s : State) (q : Nat) (f : Port → Port) : (s.updPort q f).frames = s.frames := rfl
@[simp] theorem State.updPort_rrPart (s : State) (q : Nat) (f : Port → Port) : (s.updPort q f).rrPart = s.rrPart := rfl
@[simp] theorem State.updPort_parts (s : State) (q : Nat) (f : Port → Port) : (s.updPort q f).parts = s.parts := rfl
@[simp] theorem State.updPort_cores (s : State) (q : Nat) (f : Port → Port) : (s.updPort q f).cores = s.cores := rfl
@[simp] theorem State.updPort_clusters (s : State) (q : Nat) (f : Port → Port) : (s.updPort q f).clusters = s.clusters := rfl
@[simp] theorem State.updPort_tasks (s : State) (q : Nat) (f : Port → Port) : (s.updPort q f).tasks = s.tasks := rfl
@[simp] theorem State.updPort_launches (s : State) (q : Nat) (f : Port → Port) : (s.updPort q f).launches = s.launches := rfl
@[simp] theorem State.updPort_mgmt (s : State) (q : Nat) (f : Port → Port) : (s.updPort q f).mgmt = s.mgmt := rfl

/-! ## Parts that an update writes -/

@[simp] theorem State.core_setCore (s : State) (c : Nat) (k : Core) : (s.setCore c k).core c = k := by simp [State.core, State.setCore]
theorem State.core_setCore_ne (s : State) {c d : Nat} (k : Core) (h : d ≠ c) : (s.setCore c k).core d = s.core d := by
  simp [State.core, State.setCore, Tab.getD_put_ne _ _ _ h]
@[simp] theorem State.core_updCore (s : State) (c : Nat) (f : Core → Core) : (s.updCore c f).core c = f (s.core c) := by
  simp [State.updCore]
theorem State.core_updCore_ne (s : State) {c d : Nat} (f : Core → Core) (h : d ≠ c) : (s.updCore c f).core d = s.core d := by
  simp [State.updCore, State.core_setCore_ne _ _ h]
@[simp] theorem State.thr_setThr (s : State) (t : ThreadId) (x : Thread) : (s.setThr t x).thr t = x := by
  simp [State.thr, State.setThr]
/-- A write of one thread leaves every other thread. -/
theorem State.thr_setThr_ne (s : State) {t u : ThreadId} (x : Thread) (h : u ≠ t) : (s.setThr t x).thr u = s.thr u := by
  unfold State.thr State.setThr
  by_cases hc : u.core = t.core
  · have hs : u.slot ≠ t.slot := by
      intro hs; apply h; cases u; cases t; simp_all
    rw [hc, State.core_setCore, Tab.getD_put_ne _ _ _ hs]
  · rw [State.core_setCore_ne _ _ hc]
@[simp] theorem State.thr_updThr (s : State) (t : ThreadId) (f : Thread → Thread) : (s.updThr t f).thr t = f (s.thr t) := by
  simp [State.updThr]
theorem State.thr_updThr_ne (s : State) {t u : ThreadId} (f : Thread → Thread) (h : u ≠ t) : (s.updThr t f).thr u = s.thr u := by
  simp [State.updThr, State.thr_setThr_ne _ _ h]
@[simp] theorem State.me_setTh (s : State) (x : Thread) : (s.setTh x).me = s.me := rfl
@[simp] theorem State.me_updTh (s : State) (f : Thread → Thread) : (s.updTh f).me = s.me := rfl
@[simp] theorem State.th_setTh (s : State) (x : Thread) : (s.setTh x).th = x := by simp [State.th, State.setTh, State.me]
@[simp] theorem State.th_updTh (s : State) (f : Thread → Thread) : (s.updTh f).th = f s.th := by simp [State.updTh]
theorem State.thr_updTh_ne (s : State) {u : ThreadId} (f : Thread → Thread) (h : u ≠ s.me) : (s.updTh f).thr u = s.thr u :=
  State.thr_setThr_ne s _ h
/-- What a write of a thread leaves of every core: all but its threads. -/
theorem State.core_setThr (s : State) (t : ThreadId) (x : Thread) (c : Nat) :
    (s.setThr t x).core c = { s.core c with threads := ((s.setThr t x).core c).threads } := by
  unfold State.setThr
  by_cases h : c = t.core
  · subst h; simp
  · rw [State.core_setCore_ne _ _ h]
@[simp] theorem State.th_updRegs (s : State) (f : Regs → Regs) : (s.updRegs f).th = { s.th with regs := f s.th.regs } := by
  simp [State.updRegs]
@[simp] theorem State.cluster_setCluster (s : State) (c : Nat) (k : Cluster) : (s.setCluster c k).cluster c = k := by
  simp [State.cluster, State.setCluster]
theorem State.cluster_setCluster_ne (s : State) {c d : Nat} (k : Cluster) (h : d ≠ c) : (s.setCluster c k).cluster d = s.cluster d := by
  simp [State.cluster, State.setCluster, Tab.getD_put_ne _ _ _ h]
@[simp] theorem State.cluster_updCluster (s : State) (c : Nat) (f : Cluster → Cluster) : (s.updCluster c f).cluster c = f (s.cluster c) := by
  simp [State.updCluster]
theorem State.cluster_updCluster_ne (s : State) {c d : Nat} (f : Cluster → Cluster) (h : d ≠ c) :
    (s.updCluster c f).cluster d = s.cluster d := by
  simp [State.updCluster, State.cluster_setCluster_ne _ _ h]
@[simp] theorem State.part_setPart (s : State) (p : Nat) (x : Partition) : (s.setPart p x).part p = x := by simp [State.part, State.setPart]
theorem State.part_setPart_ne (s : State) {p q : Nat} (x : Partition) (h : q ≠ p) : (s.setPart p x).part q = s.part q := by
  simp [State.part, State.setPart, Tab.getD_put_ne _ _ _ h]
@[simp] theorem State.part_updPart (s : State) (p : Nat) (f : Partition → Partition) : (s.updPart p f).part p = f (s.part p) := by
  simp [State.updPart]
theorem State.part_updPart_ne (s : State) {p q : Nat} (f : Partition → Partition) (h : q ≠ p) : (s.updPart p f).part q = s.part q := by
  simp [State.updPart, State.part_setPart_ne _ _ h]
@[simp] theorem State.port_setPort (s : State) (q : Nat) (x : Port) : (s.setPort q x).port q = x := by simp [State.port, State.setPort]
theorem State.port_setPort_ne (s : State) {q r : Nat} (x : Port) (h : r ≠ q) : (s.setPort q x).port r = s.port r := by
  simp [State.port, State.setPort, Tab.getD_put_ne _ _ _ h]
@[simp] theorem State.port_updPort (s : State) (q : Nat) (f : Port → Port) : (s.updPort q f).port q = f (s.port q) := by
  simp [State.updPort]

/-- A task found again after an update of it that keeps its name. -/
theorem State.task?_updTask (s : State) (t : TaskId) (f : Task → Task) (h : ∀ x, (f x).id = x.id) :
    (s.updTask t f).task? t = (s.task? t).map f := by
  unfold State.task? State.updTask
  simp only
  induction s.tasks with
  | nil => rfl
  | cons x r ih =>
    by_cases hx : x.id = t
    · simp [hx, h]
    · simp [hx, ih]
/-- A launch found again after an update of it that keeps its name. -/
theorem State.launch?_updLaunch (s : State) (p lid : Nat) (f : Launch → Launch) (h : ∀ x, (f x).part = x.part ∧ (f x).lid = x.lid) :
    (s.updLaunch p lid f).launch? p lid = (s.launch? p lid).map f := by
  unfold State.launch? State.updLaunch
  simp only
  induction s.launches with
  | nil => rfl
  | cons x r ih =>
    rw [List.map_cons, List.find?_cons, List.find?_cons]
    by_cases hx : x.part = p ∧ x.lid = lid
    · simp [hx, h]
    · simp only [hx, if_false, decide_false]; exact ih

/-! ## Registers -/

@[simp] theorem rdS_zero (r : Regs) : rdS r 0 = 0 := rfl
@[simp] theorem rdP_zero (r : Regs) : rdP r 0 = BitVec.allOnes 32 := rfl
theorem rdS_wrS (r : Regs) (n m : SReg) (v : W64) : rdS (wrS r n v) m = if m = n ∧ n ≠ 0 then v else rdS r m := by
  unfold rdS wrS
  by_cases hn : n = 0
  · simp [hn]
  · by_cases hm : m = n
    · subst hm; simp [hn]
    · have : m.val ≠ n.val := fun h => hm (Fin.ext h)
      simp [hn, hm, Tab.getD_put_ne _ _ _ this]
theorem rdV_wrV (r : Regs) (n m : VReg) (v : VWord) : rdV (wrV r n v) m = if m = n then v else rdV r m := by
  unfold rdV wrV
  by_cases hm : m = n
  · subst hm; simp
  · have : m.val ≠ n.val := fun h => hm (Fin.ext h)
    simp [hm, Tab.getD_put_ne _ _ _ this]
theorem rdP_wrP (r : Regs) (n m : PReg) (v : W32) : rdP (wrP r n v) m = if m = n ∧ n ≠ 0 then v else rdP r m := by
  unfold rdP wrP
  by_cases hn : n = 0
  · simp [hn]
  · by_cases hm : m = n
    · subst hm; simp [hn]
    · have : m.val ≠ n.val := fun h => hm (Fin.ext h)
      simp [hn, hm, Tab.getD_put_ne _ _ _ this]
theorem rdC_wrC (r : Regs) (n m : CReg) (v : Cb) : rdC (wrC r n v) m = if m = n then v else rdC r m := by
  unfold rdC wrC
  by_cases hm : m = n
  · subst hm; simp
  · have : m.val ≠ n.val := fun h => hm (Fin.ext h)
    simp [hm, Tab.getD_put_ne _ _ _ this]
/-- A write of one register file leaves the others. -/
@[simp] theorem rdV_wrS (r : Regs) (n : SReg) (v : W64) (m : VReg) : rdV (wrS r n v) m = rdV r m := by unfold rdV wrS; split <;> rfl
@[simp] theorem rdP_wrS (r : Regs) (n : SReg) (v : W64) (m : PReg) : rdP (wrS r n v) m = rdP r m := by by_cases h : n = 0 <;> simp [rdP, wrS, h, Regs.clean]
@[simp] theorem rdC_wrS (r : Regs) (n : SReg) (v : W64) (m : CReg) : rdC (wrS r n v) m = rdC r m := by unfold rdC wrS; split <;> rfl
@[simp] theorem rdS_wrV (r : Regs) (n : VReg) (v : VWord) (m : SReg) : rdS (wrV r n v) m = rdS r m := rfl
@[simp] theorem rdP_wrV (r : Regs) (n : VReg) (v : VWord) (m : PReg) : rdP (wrV r n v) m = rdP r m := rfl
@[simp] theorem rdC_wrV (r : Regs) (n : VReg) (v : VWord) (m : CReg) : rdC (wrV r n v) m = rdC r m := rfl
@[simp] theorem rdS_wrP (r : Regs) (n : PReg) (v : W32) (m : SReg) : rdS (wrP r n v) m = rdS r m := by by_cases h : n = 0 <;> simp [rdS, wrP, h, Regs.clean]
@[simp] theorem rdV_wrP (r : Regs) (n : PReg) (v : W32) (m : VReg) : rdV (wrP r n v) m = rdV r m := by unfold rdV wrP; split <;> rfl
@[simp] theorem rdC_wrP (r : Regs) (n : PReg) (v : W32) (m : CReg) : rdC (wrP r n v) m = rdC r m := by unfold rdC wrP; split <;> rfl
@[simp] theorem rdS_wrC (r : Regs) (n : CReg) (v : Cb) (m : SReg) : rdS (wrC r n v) m = rdS r m := rfl
@[simp] theorem rdV_wrC (r : Regs) (n : CReg) (v : Cb) (m : VReg) : rdV (wrC r n v) m = rdV r m := rfl
@[simp] theorem rdP_wrC (r : Regs) (n : CReg) (v : Cb) (m : PReg) : rdP (wrC r n v) m = rdP r m := rfl

/-! ## Poison of registers -/

@[simp] theorem Regs.clean_s (r : Regs) (f : RegFile) (n : Nat) : (r.clean f n).s = r.s := rfl
@[simp] theorem Regs.clean_v (r : Regs) (f : RegFile) (n : Nat) : (r.clean f n).v = r.v := rfl
@[simp] theorem Regs.clean_p (r : Regs) (f : RegFile) (n : Nat) : (r.clean f n).p = r.p := rfl
@[simp] theorem Regs.clean_c (r : Regs) (f : RegFile) (n : Nat) : (r.clean f n).c = r.c := rfl
/-- What keeps the poison of unwritten lanes leaves every value. -/
@[simp] theorem rdS_keepBad (w : W32) (o : Regs) (n : VReg) (r : Regs) (m : SReg) : rdS (keepBad w o n r) m = rdS r m := rfl
@[simp] theorem rdV_keepBad (w : W32) (o : Regs) (n : VReg) (r : Regs) (m : VReg) : rdV (keepBad w o n r) m = rdV r m := rfl
@[simp] theorem rdP_keepBad (w : W32) (o : Regs) (n : VReg) (r : Regs) (m : PReg) : rdP (keepBad w o n r) m = rdP r m := rfl
@[simp] theorem rdC_keepBad (w : W32) (o : Regs) (n : VReg) (r : Regs) (m : CReg) : rdC (keepBad w o n r) m = rdC r m := rfl

end Sys2Proof.Machine
end

