-- ==== Sys2Proof/Laws/Ops.lean ====
section
/-! SUPPORT. What the shared operations can do: outcomes of an instruction, writes at points of coherence and of scratchpads, waits. -/

namespace Sys2Proof.Machine

/-! ## Outcomes of an instruction -/

/-- An instruction ends in a next state, whatever comes of its parts. -/
theorem finish_next (r : Res Unit) : ∃ t, finish r = .next t := by
  cases r with
  | ok a s => exact ⟨_, rfl⟩
  | pass s => exact ⟨_, rfl⟩
  | trap s c a i => exact ⟨_, rfl⟩
theorem guarded_next (h : Hdr) (s : State) (f : State → Res Unit) : ∃ t, guarded h s f = .next t := by
  unfold guarded
  split
  · exact finish_next _
  · exact ⟨s, rfl⟩
@[simp] theorem finish_done (s : State) : finish (done s) = .next s := rfl
@[simp] theorem finish_ok (u : Unit) (s : State) : finish (.ok u s) = .next s := rfl
@[simp] theorem finish_pass (s : State) : finish (.pass s) = .next { s with cur := { s.cur with fate := .passed } } := rfl
@[simp] theorem finish_trap (s : State) (c : Byte) (a i : W64) : finish (.trap s c a i) = .next (s.takeTrap c a i) := rfl
@[simp] theorem finish_fail (s : State) (c : Byte) (i : W64) : finish (fail s c i) = .next (s.takeTrap c 0 i) := rfl
@[simp] theorem finish_badPos (s : State) (n : Nat) : finish (badPos s n) = .next (s.takeTrap 0x02 0 (w64 n)) := rfl
@[simp] theorem andThen_ok {α β : Type} (a : α) (s : State) (f : α → State → Res β) : (Res.ok a s).andThen f = f a s := rfl
@[simp] theorem andThen_pass {α β : Type} (s : State) (f : α → State → Res β) : (Res.pass s).andThen f = .pass s := rfl
@[simp] theorem andThen_trap {α β : Type} (s : State) (c : Byte) (x i : W64) (f : α → State → Res β) :
    (Res.trap s c x i).andThen f = .trap s c x i := rfl
@[simp] theorem andThen_fail {α β : Type} (s : State) (c : Byte) (i : W64) (f : α → State → Res β) :
    (fail s c i : Res α).andThen f = fail s c i := rfl
@[simp] theorem andThen_badPos {α β : Type} (s : State) (n : Nat) (f : α → State → Res β) :
    (badPos s n : Res α).andThen f = badPos s n := rfl
theorem guarded_on (h : Hdr) (s : State) (f : State → Res Unit) (g : s.guardOn h = true) : guarded h s f = finish (f s) := by
  simp [guarded, g]
theorem guarded_off (h : Hdr) (s : State) (f : State → Res Unit) (g : s.guardOn h = false) : guarded h s f = .next s := by
  simp [guarded, g]

/-! ## Waits -/

/-- A thread that begins to wait keeps its registers, and the stage is the one named. -/
@[simp] theorem State.stageOf_wait (s : State) (g : Stage) : (s.wait g).stageOf s.me = some g := by
  unfold State.stageOf State.wait
  have := State.th_updTh s fun t => { t with pend := some ⟨s.cur.ipc, s.cur.npc, s.opTh.regs, s.opTh.sticky, s.opTh.mode, s.cur.word, s.cur.other, g⟩ }
  simp only [State.th, State.me_updTh] at this
  rw [this]; rfl
@[simp] theorem State.regs_wait (s : State) (g : Stage) : (s.wait g).th.regs = s.th.regs := by
  simp [State.wait]

/-! ## Register writes of the issuing thread -/

@[simp] theorem State.th_ws (s : State) (n : SReg) (v : W64) : (s.ws n v).th = { s.th with regs := wrS s.th.regs n v } := State.th_updTh s _
@[simp] theorem State.th_wv (s : State) (n : VReg) (v : VWord) : 
    (s.wv n v).th = { s.th with regs := keepBad (lanesOn s.cur.word s.opTh.regs) s.th.regs n (wrV s.th.regs n v) } := State.th_updTh s _
@[simp] theorem State.th_wp (s : State) (n : PReg) (v : W32) : (s.wp n v).th = { s.th with regs := wrP s.th.regs n v } := State.th_updTh s _
@[simp] theorem State.th_wc (s : State) (n : CReg) (v : Cb) : (s.wc n v).th = { s.th with regs := wrC s.th.regs n v } := State.th_updTh s _
@[simp] theorem State.th_orSticky (s : State) (f : BitVec 4) : (s.orSticky f).th = { s.th with sticky := s.th.sticky ||| f } := by
  simp [State.orSticky]
/-- Every thread but the issuing one keeps what it is under an update of the issuing thread. -/
theorem State.thr_updRegs_ne (s : State) (f : Regs → Regs) {u : ThreadId} (h : u ≠ s.me) : (s.updRegs f).thr u = s.thr u :=
  State.thr_updTh_ne s _ h
/-- An update of a thread leaves every field of every core but its threads. -/
theorem State.core_updTh (s : State) (f : Thread → Thread) (c : Nat) :
    (s.updTh f).core c = { s.core c with threads := ((s.updTh f).core c).threads } := State.core_setThr s s.me _ c

/-! ## Writes of device memory -/

@[simp] theorem State.rawWrite_mem (s : State) (cs : List Host.Cell) :
    (s.rawWrite cs).mem = cs.foldl (fun m c => memSet m c.1 c.2) s.mem := rfl
theorem State.dropL1_mem (s : State) (c : Nat) (ls : List Nat) : (s.dropL1 c ls).mem = s.mem := rfl
/-- A write at points of coherence writes the bytes named, those of the crash records apart. -/
@[simp] theorem State.pocWrite_mem (s : State) (cs : List Host.Cell) (cl : Option Nat) (ms : Bool) :
    (s.pocWrite cs cl ms).mem = (cs.filter fun c => !crashMB c.1).foldl (fun m c => memSet m c.1 c.2) s.mem := by
  unfold State.pocWrite
  cases cl <;> rfl
/-- Every write of device memory keeps the canonical form. -/
theorem State.rawWrite_wf (s : State) (cs : List Host.Cell) (h : Memory.wf s.mem = true) : Memory.wf (s.rawWrite cs).mem = true :=
  Memory.wf_foldl _ _ cs s.mem h
theorem State.pocWrite_wf (s : State) (cs : List Host.Cell) (cl : Option Nat) (ms : Bool) (h : Memory.wf s.mem = true) :
    Memory.wf (s.pocWrite cs cl ms).mem = true := by
  rw [State.pocWrite_mem]; exact Memory.wf_foldl _ _ _ s.mem h
theorem State.reset_wf : Memory.wf State.reset.mem = true := rfl
/-- A version steps once for each write of its line. -/
theorem bumpVersions_get (ls : List Nat) : ∀ (v : Tab W32) (k : Nat), k ∉ ls → (bumpVersions v ls).getD k 0 = v.getD k 0 := by
  induction ls with
  | nil => intro v k _; rfl
  | cons l r ih =>
    intro v k h
    simp only [List.mem_cons, not_or] at h
    rw [bumpVersions, ih _ _ h.2, Tab.getD_put_ne _ _ _ h.1]

/-! ## Writes of a scratchpad -/

/-- Every core but the one written stands as it stood, and of that one the bytes and those the cycle still owes. -/
theorem State.spWrite_core (s : State) (c off : Nat) (bs : List Byte) (d : Nat) :
    (s.spWrite c off bs).core d = (s.updCore c fun k => { k with
      sram := memWrite k.sram off bs, late := k.late.filter fun x => !(decide (off ≤ x.off) && decide (x.off < off + bs.length)) }).core d := rfl
@[simp] theorem State.spWrite_sram (s : State) (c off : Nat) (bs : List Byte) :
    ((s.spWrite c off bs).core c).sram = memWrite (s.core c).sram off bs := by
  rw [State.spWrite_core, State.core_updCore]
theorem State.spWrite_core_ne (s : State) {c d : Nat} (off : Nat) (bs : List Byte) (h : d ≠ c) : (s.spWrite c off bs).core d = s.core d := by
  rw [State.spWrite_core, State.core_updCore_ne _ _ h]
@[simp] theorem State.spWrite_mem (s : State) (c off : Nat) (bs : List Byte) : (s.spWrite c off bs).mem = s.mem := rfl
/-- A write of a scratchpad keeps its canonical form. -/
theorem State.spWrite_wf (s : State) (c off : Nat) (bs : List Byte) (h : Memory.wf (s.core c).sram = true) :
    Memory.wf ((s.spWrite c off bs).core c).sram = true := by
  rw [State.spWrite_sram]; exact Memory.wf_memWrite _ _ _ h

/-! ## L2 -/

/-- An access served by L2 changes where lines stand and what the retention counters hold, and nothing else. -/
theorem State.l2Touch_frame (s : State) (pa : Nat) (e : Bool) : s.l2Touch pa e = { s with l2 := (s.l2Touch pa e).l2, retain := (s.l2Touch pa e).retain } := by
  unfold State.l2Touch
  simp only
  split <;> rfl
@[simp] theorem State.l2Touch_mem (s : State) (pa : Nat) (e : Bool) : (s.l2Touch pa e).mem = s.mem := by rw [State.l2Touch_frame]
@[simp] theorem State.l2Touch_cores (s : State) (pa : Nat) (e : Bool) : (s.l2Touch pa e).cores = s.cores := by rw [State.l2Touch_frame]

end Sys2Proof.Machine
end

