-- ==== Sys2Proof/Laws/PerInstr.lean ====
section
/-! SUPPORT. Family Code: the word of a well-formed instruction names a row of the encoding tables, so that check 2 of 04 R84 never turns
it away for its OP and FN. -/

namespace Sys2Proof.Laws.Code

/-- The row of the encoding tables exists for every word that the encoder gives. -/
def Statement (i : Instr) : Prop := ∀ f, i.wf = true → encodeFields i = some f → (form f).isSome = true

/-- The row that an OP, an FN and MOD bit 0 select. -/
def rowOf (op fn : Nat) (b : Bool) : Option Form :=
  if op < 0x10 then formSystem op fn b else if op < 0x30 then formScalar op fn else if op < 0x40 then formControl op fn
  else if op < 0x60 then formMemory op fn else if op < 0x70 then formSync op fn else if op < 0x80 then formFabric op fn
  else if op < 0x85 then formFloat (fty (op - 0x80)) fn else if op < 0xB0 then formVector op fn
  else if op < 0xC0 then formMatrix op fn else if op < 0xC8 then formRagged op fn else formSystem op fn false

/-- The row of a word depends on its OP, FN and MOD bit 0 alone. -/
theorem form_eq (f : Fields) : form f = rowOf f.op.toNat f.fn.toNat (f.bit 0) := rfl

theorem form_isSome (f : Fields) (op fn : Nat) (ho : f.op.toNat = op) (hf : f.fn.toNat = fn)
    (h : ∀ b, (rowOf op fn b).isSome = true) : (form f).isSome = true := by
  subst ho hf; exact h _

theorem row_mma (m32 : Bool) (y : MFmt) : ∀ b, (rowOf 0xB2 (BitVec.ofNat 8 (m32.toNat * 16 + y.code)).toNat b).isSome = true := by
  cases m32 <;> cases y <;> decide
theorem row_vst (y : VTy) (sat : Bool) (h : y.raw = true → sat = false) :
    ∀ b, (rowOf 0x42 (BitVec.ofNat 8 (16 + sat.toNat * 16 + y.code)).toNat b).isSome = true := by
  cases y <;> (first | (cases h rfl; decide) | (cases sat <;> decide))

theorem row_atom (n : Fin 9) (y : Ord) : ∀ b, (rowOf 0x60 (BitVec.ofNat 8 (y.code * 16 + n.val)).toNat b).isSome = true := by
  cases y <;> revert n <;> decide
theorem row_mred (n : Fin 7) (y : Bool) : ∀ b, (rowOf 0x61 (BitVec.ofNat 8 (y.toNat * 32 + n.val)).toNat b).isSome = true := by
  cases y <;> revert n <;> decide
theorem row_vcvt (sat : Bool) (src dst : CvtTy) (h : vcvtPair dst src = true) (hs : sat = true → dst != .f32 && !dst.intTy) :
    ∀ b, (rowOf 0x86 (BitVec.ofNat 8 (sat.toNat * 128 + src.code * 16 + dst.code)).toNat b).isSome = true := by
  revert h hs; cases sat <;> cases src <;> cases dst <;> decide
theorem row_rmma (k m32 : Bool) (y : MFmt) (h : k = true → y.mkOk = true) :
    ∀ b, (rowOf 0xC4 (BitVec.ofNat 8 (k.toNat * 32 + m32.toNat * 16 + y.code)).toNat b).isSome = true := by
  revert h; cases k <;> cases m32 <;> cases y <;> decide

theorem add (x : IntA) : Statement (.add x) := by rintro f - ⟨⟩; rfl
theorem sub (x : IntA) : Statement (.sub x) := by rintro f - ⟨⟩; rfl
theorem mul (x : IntA) : Statement (.mul x) := by rintro f - ⟨⟩; rfl
theorem mulh (x : IntA) : Statement (.mulh x) := by rintro f - ⟨⟩; rfl
theorem and (x : IntA) : Statement (.and x) := by rintro f - ⟨⟩; rfl
theorem or (x : IntA) : Statement (.or x) := by rintro f - ⟨⟩; rfl
theorem xor (x : IntA) : Statement (.xor x) := by rintro f - ⟨⟩; rfl
theorem andn (x : IntA) : Statement (.andn x) := by rintro f - ⟨⟩; rfl
theorem shl (x : IntSh) : Statement (.shl x) := by rintro f - ⟨⟩; rfl
theorem shr (x : IntSh) : Statement (.shr x) := by rintro f - ⟨⟩; rfl
theorem rotl (x : IntSh) : Statement (.rotl x) := by rintro f - ⟨⟩; rfl
theorem min (x : IntA) : Statement (.min x) := by rintro f - ⟨⟩; rfl
theorem max (x : IntA) : Statement (.max x) := by rintro f - ⟨⟩; rfl
theorem div (x : IntA) : Statement (.div x) := by rintro f - ⟨⟩; rfl
theorem rem (x : IntA) : Statement (.rem x) := by rintro f - ⟨⟩; rfl
theorem ext (x : IntSh) : Statement (.ext x) := by rintro f - ⟨⟩; rfl
theorem ins (x : Ins) : Statement (.ins x) := by rintro f - ⟨⟩; rfl
theorem clz (x : IntU) : Statement (.clz x) := by rintro f - ⟨⟩; rfl
theorem ctz (x : IntU) : Statement (.ctz x) := by rintro f - ⟨⟩; rfl
theorem popc (x : IntU) : Statement (.popc x) := by rintro f - ⟨⟩; rfl
theorem brev (x : IntU) : Statement (.brev x) := by rintro f - ⟨⟩; rfl
theorem bswap (x : IntU) : Statement (.bswap x) := by rintro f - ⟨⟩; rfl
theorem cmpeq (x : Cmp) : Statement (.cmpeq x) := by rintro f - ⟨⟩; rfl
theorem cmpne (x : Cmp) : Statement (.cmpne x) := by rintro f - ⟨⟩; rfl
theorem cmplt (x : Cmp) : Statement (.cmplt x) := by rintro f - ⟨⟩; rfl
theorem cmple (x : Cmp) : Statement (.cmple x) := by rintro f - ⟨⟩; rfl
theorem cmpgt (x : Cmp) : Statement (.cmpgt x) := by rintro f - ⟨⟩; rfl
theorem cmpge (x : Cmp) : Statement (.cmpge x) := by rintro f - ⟨⟩; rfl
theorem sel (x : Sel) : Statement (.sel x) := by rintro f - ⟨⟩; rfl
theorem mov (x : Mov) : Statement (.mov x) := by rintro f - ⟨⟩; rfl
theorem lih (x : Lih) : Statement (.lih x) := by rintro f - ⟨⟩; rfl
theorem lea (x : Lea) : Statement (.lea x) := by rintro f - ⟨⟩; rfl
theorem nop (x : HOnly) : Statement (.nop x) := by rintro f - ⟨⟩; rfl
theorem pand (x : PPP) : Statement (.pand x) := by rintro f - ⟨⟩; rfl
theorem por (x : PPP) : Statement (.por x) := by rintro f - ⟨⟩; rfl
theorem pxor (x : PPP) : Statement (.pxor x) := by rintro f - ⟨⟩; rfl
theorem pandn (x : PPP) : Statement (.pandn x) := by rintro f - ⟨⟩; rfl
theorem pnot (x : PP) : Statement (.pnot x) := by rintro f - ⟨⟩; rfl
theorem pset (x : PI) : Statement (.pset x) := by rintro f - ⟨⟩; rfl
theorem pread (x : SPr) : Statement (.pread x) := by rintro f - ⟨⟩; rfl
theorem pwrite (x : PS) : Statement (.pwrite x) := by rintro f - ⟨⟩; rfl
theorem pcnt (x : SPr) : Statement (.pcnt x) := by rintro f - ⟨⟩; rfl
theorem srd (x : SrdA) : Statement (.srd x) := by rintro f - ⟨⟩; rfl
theorem swr (x : SwrA) : Statement (.swr x) := by rintro f - ⟨⟩; rfl
theorem br (x : BrO) : Statement (.br x) := by rintro f - ⟨⟩; rfl
theorem brz (x : BrR) : Statement (.brz x) := by rintro f - ⟨⟩; rfl
theorem brnz (x : BrR) : Statement (.brnz x) := by rintro f - ⟨⟩; rfl
theorem brdec (x : BrR) : Statement (.brdec x) := by rintro f - ⟨⟩; rfl
theorem call (x : BrO) : Statement (.call x) := by rintro f - ⟨⟩; rfl
theorem callr (x : AOnly) : Statement (.callr x) := by rintro f - ⟨⟩; rfl
theorem jr (x : AOnly) : Statement (.jr x) := by rintro f - ⟨⟩; rfl
theorem ret (x : HOnly) : Statement (.ret x) := by rintro f - ⟨⟩; rfl
theorem gang (x : GangA) : Statement (.gang x) := by rintro f - ⟨⟩; rfl
theorem disband (x : HOnly) : Statement (.disband x) := by rintro f - ⟨⟩; rfl
theorem part (x : PartA) : Statement (.part x) := by rintro f - ⟨⟩; rfl
theorem ftileset (x : ABC) : Statement (.ftileset x) := by rintro f - ⟨⟩; rfl
theorem ftile (x : DOnly) : Statement (.ftile x) := by rintro f - ⟨⟩; rfl
theorem cbset (x : CSI) : Statement (.cbset x) := by rintro f - ⟨⟩; rfl
theorem cbwaitc (x : CbW) : Statement (.cbwaitc x) := by rintro f - ⟨⟩; rfl
theorem cbwaitp (x : CbW) : Statement (.cbwaitp x) := by rintro f - ⟨⟩; rfl
theorem cbadvc (x : CSI) : Statement (.cbadvc x) := by rintro f - ⟨⟩; rfl
theorem cbadvp (x : CSI) : Statement (.cbadvp x) := by rintro f - ⟨⟩; rfl
theorem ld (x : LdA) : Statement (.ld x) := by
  rcases x with ⟨_, y_acq, _, _, _, _⟩
  rintro f - ⟨⟩
  cases y_acq <;> rfl
theorem st (x : StA) : Statement (.st x) := by
  rcases x with ⟨_, y_rel, _, _, _, _⟩
  rintro f - ⟨⟩
  cases y_rel <;> rfl
theorem vld (x : VldA) : Statement (.vld x) := by
  rcases x with ⟨_, y_x, _, _, _⟩
  rintro f - ⟨⟩
  cases y_x <;> rfl
theorem vst (x : VstA) : Statement (.vst x) := by
  rcases x with ⟨h, y_x, y_sat, y_rm, _, _, _⟩
  rintro f hw ⟨⟩
  have hw : ((if y_x.guarded then h.any else h.unguarded) && (!y_x.raw || (y_rm == .rne && !y_sat))) = true := hw
  refine form_isSome _ 0x42 _ rfl rfl (row_vst y_x y_sat fun h => ?_)
  simp_all
theorem ldv (x : LdvA) : Statement (.ldv x) := by
  rcases x with ⟨_, y_acq, y_track, _, _, _, _, _⟩
  rintro f - ⟨⟩
  cases y_acq <;> cases y_track <;> rfl
theorem stcv (x : StcvA) : Statement (.stcv x) := by
  rcases x with ⟨_, y_rel, _, _, _, _, _⟩
  rintro f - ⟨⟩
  cases y_rel <;> rfl
theorem valchk (x : DOnly) : Statement (.valchk x) := by rintro f - ⟨⟩; rfl
theorem valclr (x : HOnly) : Statement (.valclr x) := by rintro f - ⟨⟩; rfl
theorem pref (x : PrefA) : Statement (.pref x) := by rintro f - ⟨⟩; rfl
theorem tfill (x : TSI) : Statement (.tfill x) := by rintro f - ⟨⟩; rfl
theorem trel (x : TOnly) : Statement (.trel x) := by rintro f - ⟨⟩; rfl
theorem tdef (x : TdefA) : Statement (.tdef x) := by rintro f - ⟨⟩; rfl
theorem tstat (x : TstatA) : Statement (.tstat x) := by rintro f - ⟨⟩; rfl
theorem cpy (x : CpyA) : Statement (.cpy x) := by rintro f - ⟨⟩; rfl
theorem cjob (x : CjobA) : Statement (.cjob x) := by rintro f - ⟨⟩; rfl
theorem cpoll (x : DA) : Statement (.cpoll x) := by rintro f - ⟨⟩; rfl
theorem cwait (x : DA) : Statement (.cwait x) := by rintro f - ⟨⟩; rfl
theorem rset (x : ABC) : Statement (.rset x) := by rintro f - ⟨⟩; rfl
theorem unpin (x : SIOnly) : Statement (.unpin x) := by rintro f - ⟨⟩; rfl
theorem rrd (x : RrdA) : Statement (.rrd x) := by rintro f - ⟨⟩; rfl
theorem frarm (x : TSI) : Statement (.frarm x) := by rintro f - ⟨⟩; rfl
theorem vflgrd (x : DOnly) : Statement (.vflgrd x) := by rintro f - ⟨⟩; rfl
theorem vflgclr (x : DOnly) : Statement (.vflgclr x) := by rintro f - ⟨⟩; rfl
theorem vadd (x : VFlt) : Statement (.vadd x) := by
  rcases x with ⟨_, y_ft, _, _, _, _, _⟩
  rintro f - ⟨⟩
  cases y_ft <;> rfl
theorem vsub (x : VFlt) : Statement (.vsub x) := by
  rcases x with ⟨_, y_ft, _, _, _, _, _⟩
  rintro f - ⟨⟩
  cases y_ft <;> rfl
theorem vmul (x : VFlt) : Statement (.vmul x) := by
  rcases x with ⟨_, y_ft, _, _, _, _, _⟩
  rintro f - ⟨⟩
  cases y_ft <;> rfl
theorem vfma (x : VFma) : Statement (.vfma x) := by
  rcases x with ⟨_, y_ft, _, _, _, _, _, _⟩
  rintro f - ⟨⟩
  cases y_ft <;> rfl
theorem vfnma (x : VFma) : Statement (.vfnma x) := by
  rcases x with ⟨_, y_ft, _, _, _, _, _, _⟩
  rintro f - ⟨⟩
  cases y_ft <;> rfl
theorem vmin (x : VFMM) : Statement (.vmin x) := by
  rcases x with ⟨_, y_ft, _, _, _⟩
  rintro f - ⟨⟩
  cases y_ft <;> rfl
theorem vmax (x : VFMM) : Statement (.vmax x) := by
  rcases x with ⟨_, y_ft, _, _, _⟩
  rintro f - ⟨⟩
  cases y_ft <;> rfl
theorem vabs (x : VFU) : Statement (.vabs x) := by
  rcases x with ⟨_, y_ft, _, _⟩
  rintro f - ⟨⟩
  cases y_ft <;> rfl
theorem vneg (x : VFU) : Statement (.vneg x) := by
  rcases x with ⟨_, y_ft, _, _⟩
  rintro f - ⟨⟩
  cases y_ft <;> rfl
theorem vaddInt (x : VInt) : Statement (.vaddInt x) := by rintro f - ⟨⟩; rfl
theorem vsubInt (x : VInt) : Statement (.vsubInt x) := by rintro f - ⟨⟩; rfl
theorem vmulInt (x : VInt) : Statement (.vmulInt x) := by rintro f - ⟨⟩; rfl
theorem vmulh (x : VInt) : Statement (.vmulh x) := by rintro f - ⟨⟩; rfl
theorem vand (x : VInt) : Statement (.vand x) := by rintro f - ⟨⟩; rfl
theorem vor (x : VInt) : Statement (.vor x) := by rintro f - ⟨⟩; rfl
theorem vxor (x : VInt) : Statement (.vxor x) := by rintro f - ⟨⟩; rfl
theorem vandn (x : VInt) : Statement (.vandn x) := by rintro f - ⟨⟩; rfl
theorem vshl (x : VIntSh) : Statement (.vshl x) := by rintro f - ⟨⟩; rfl
theorem vshr (x : VIntSh) : Statement (.vshr x) := by rintro f - ⟨⟩; rfl
theorem vrotl (x : VIntSh) : Statement (.vrotl x) := by rintro f - ⟨⟩; rfl
theorem vminInt (x : VInt) : Statement (.vminInt x) := by rintro f - ⟨⟩; rfl
theorem vmaxInt (x : VInt) : Statement (.vmaxInt x) := by rintro f - ⟨⟩; rfl
theorem vcmpeq (x : VCmp) : Statement (.vcmpeq x) := by
  rcases x with ⟨_, y_ty, _, _, _⟩
  rintro f - ⟨⟩
  cases y_ty <;> rfl
theorem vcmpne (x : VCmp) : Statement (.vcmpne x) := by
  rcases x with ⟨_, y_ty, _, _, _⟩
  rintro f - ⟨⟩
  cases y_ty <;> rfl
theorem vcmplt (x : VCmp) : Statement (.vcmplt x) := by
  rcases x with ⟨_, y_ty, _, _, _⟩
  rintro f - ⟨⟩
  cases y_ty <;> rfl
theorem vcmple (x : VCmp) : Statement (.vcmple x) := by
  rcases x with ⟨_, y_ty, _, _, _⟩
  rintro f - ⟨⟩
  cases y_ty <;> rfl
theorem vcmpgt (x : VCmp) : Statement (.vcmpgt x) := by
  rcases x with ⟨_, y_ty, _, _, _⟩
  rintro f - ⟨⟩
  cases y_ty <;> rfl
theorem vcmpge (x : VCmp) : Statement (.vcmpge x) := by
  rcases x with ⟨_, y_ty, _, _, _⟩
  rintro f - ⟨⟩
  cases y_ty <;> rfl
theorem vcmpun (x : VCmp) : Statement (.vcmpun x) := by
  rcases x with ⟨h, y_ty, _, _, _⟩
  rintro f hw ⟨⟩
  have hw : (h.any && y_ty == .f32) = true := hw
  cases y_ty <;> first | rfl | simp at hw
theorem vcvt (x : VCvt) : Statement (.vcvt x) := by
  rcases x with ⟨h, dst, src, rm, sat, part, d, a⟩
  rintro f hw ⟨⟩
  have hw : ((if (if dst == .f32 then src else dst).intTy then h.any else h.unguarded) && vcvtPair dst src
      && (!sat || (dst != .f32 && !dst.intTy)) && decide (part.val < 32 / (if dst == .f32 then src else dst).width)) = true := hw
  refine form_isSome _ 0x86 _ rfl rfl (row_vcvt sat src dst ?_ fun h => ?_) <;> simp_all
theorem vmov (x : VV) : Statement (.vmov x) := by rintro f - ⟨⟩; rfl
theorem vperm (x : VVV) : Statement (.vperm x) := by rintro f - ⟨⟩; rfl
theorem vsel (x : VSel) : Statement (.vsel x) := by rintro f - ⟨⟩; rfl
theorem vbcast (x : VBc) : Statement (.vbcast x) := by rintro f - ⟨⟩; rfl
theorem vslide (x : VSl) : Statement (.vslide x) := by rintro f - ⟨⟩; rfl
theorem vgetl (x : VGet) : Statement (.vgetl x) := by rintro f - ⟨⟩; rfl
theorem vsetl (x : VSet) : Statement (.vsetl x) := by rintro f - ⟨⟩; rfl
theorem vrsum (x : VRed) : Statement (.vrsum x) := by
  rcases x with ⟨_, y_ty, _, _⟩
  rintro f - ⟨⟩
  cases y_ty <;> rfl
theorem vrmax (x : VRed) : Statement (.vrmax x) := by
  rcases x with ⟨_, y_ty, _, _⟩
  rintro f - ⟨⟩
  cases y_ty <;> rfl
theorem vrmin (x : VRed) : Statement (.vrmin x) := by
  rcases x with ⟨_, y_ty, _, _⟩
  rintro f - ⟨⟩
  cases y_ty <;> rfl
theorem vrcp (x : VV) : Statement (.vrcp x) := by rintro f - ⟨⟩; rfl
theorem vrsqrt (x : VV) : Statement (.vrsqrt x) := by rintro f - ⟨⟩; rfl
theorem vsqrt (x : VSqrt) : Statement (.vsqrt x) := by rintro f - ⟨⟩; rfl
theorem vdiv (x : VDivA) : Statement (.vdiv x) := by rintro f - ⟨⟩; rfl
theorem vexp2 (x : VV) : Statement (.vexp2 x) := by rintro f - ⟨⟩; rfl
theorem vlog2 (x : VV) : Statement (.vlog2 x) := by rintro f - ⟨⟩; rfl
theorem vsinpi (x : VV) : Statement (.vsinpi x) := by rintro f - ⟨⟩; rfl
theorem vcospi (x : VV) : Statement (.vcospi x) := by rintro f - ⟨⟩; rfl
theorem vtanh (x : VV) : Statement (.vtanh x) := by rintro f - ⟨⟩; rfl
theorem ctload (x : MOnly) : Statement (.ctload x) := by rintro f - ⟨⟩; rfl
theorem vctdec (x : VCtd) : Statement (.vctdec x) := by
  rcases x with ⟨_, y_f32, _, _, _⟩
  rintro f - ⟨⟩
  cases y_f32 <;> rfl
theorem vctenc (x : VCte) : Statement (.vctenc x) := by rintro f - ⟨⟩; rfl
theorem vgsum (x : VRed) : Statement (.vgsum x) := by
  rcases x with ⟨_, y_ty, _, _⟩
  rintro f - ⟨⟩
  cases y_ty <;> rfl
theorem vgmax (x : VRed) : Statement (.vgmax x) := by
  rcases x with ⟨_, y_ty, _, _⟩
  rintro f - ⟨⟩
  cases y_ty <;> rfl
theorem vgmin (x : VRed) : Statement (.vgmin x) := by
  rcases x with ⟨_, y_ty, _, _⟩
  rintro f - ⟨⟩
  cases y_ty <;> rfl
theorem vgperm (x : VVV) : Statement (.vgperm x) := by rintro f - ⟨⟩; rfl
theorem vgbcast (x : VGb) : Statement (.vgbcast x) := by rintro f - ⟨⟩; rfl
theorem oclaim (x : OClaim) : Statement (.oclaim x) := by rintro f - ⟨⟩; rfl
theorem orelease (x : ORel) : Statement (.orelease x) := by rintro f - ⟨⟩; rfl
theorem zclaim (x : ZClaim) : Statement (.zclaim x) := by rintro f - ⟨⟩; rfl
theorem zrelease (x : ZRel) : Statement (.zrelease x) := by rintro f - ⟨⟩; rfl
theorem oload (x : OLoad) : Statement (.oload x) := by rintro f - ⟨⟩; rfl
theorem mma (x : MmaA) : Statement (.mma x) := by
  rcases x with ⟨_, y_m32, y_fmt, _, _, _, _, _, _⟩
  rintro f - ⟨⟩
  exact form_isSome _ 0xB2 _ rfl rfl (row_mma y_m32 y_fmt)
theorem zclear (x : ZClr) : Statement (.zclear x) := by rintro f - ⟨⟩; rfl
theorem zstore (x : ZSt) : Statement (.zstore x) := by rintro f - ⟨⟩; rfl
theorem zload (x : ZLd) : Statement (.zload x) := by rintro f - ⟨⟩; rfl
theorem mcheck (x : MChk) : Statement (.mcheck x) := by rintro f - ⟨⟩; rfl
theorem mpoll (x : DA) : Statement (.mpoll x) := by rintro f - ⟨⟩; rfl
theorem mwait (x : DA) : Statement (.mwait x) := by rintro f - ⟨⟩; rfl
theorem mstat (x : DOnly) : Statement (.mstat x) := by rintro f - ⟨⟩; rfl
theorem rbind (x : RBind) : Statement (.rbind x) := by rintro f - ⟨⟩; rfl
theorem rrow (x : RRow) : Statement (.rrow x) := by rintro f - ⟨⟩; rfl
theorem rvseg (x : RVseg) : Statement (.rvseg x) := by rintro f - ⟨⟩; rfl
theorem rpseg (x : RPseg) : Statement (.rpseg x) := by rintro f - ⟨⟩; rfl
theorem rvld (x : RVld) : Statement (.rvld x) := by rintro f - ⟨⟩; rfl
theorem rvsum (x : RVRed) : Statement (.rvsum x) := by
  rcases x with ⟨_, _, y_ty, _, _, _, _⟩
  rintro f - ⟨⟩
  cases y_ty <;> rfl
theorem rvmax (x : RVRed) : Statement (.rvmax x) := by
  rcases x with ⟨_, _, y_ty, _, _, _, _⟩
  rintro f - ⟨⟩
  cases y_ty <;> rfl
theorem rvmin (x : RVRed) : Statement (.rvmin x) := by
  rcases x with ⟨_, _, y_ty, _, _, _, _⟩
  rintro f - ⟨⟩
  cases y_ty <;> rfl
theorem rvnorm (x : RVnorm) : Statement (.rvnorm x) := by rintro f - ⟨⟩; rfl
theorem rmma (x : RMma) : Statement (.rmma x) := by
  rcases x with ⟨h, k, m32, y, q, chk, d, a, b, c⟩
  rintro f hw ⟨⟩
  have hw : (h.unguarded && (m32 || q.val == 0) && (!k || y.mkOk)) = true := hw
  refine form_isSome _ 0xC4 _ rfl rfl (row_rmma k m32 y fun h => ?_)
  simp_all
theorem aadd (x : Atom) : Statement (.aadd x) := by
  rintro f - ⟨⟩
  exact form_isSome _ 0x60 _ rfl rfl (row_atom 0 x.ord)
theorem aand (x : Atom) : Statement (.aand x) := by
  rintro f - ⟨⟩
  exact form_isSome _ 0x60 _ rfl rfl (row_atom 1 x.ord)
theorem aor (x : Atom) : Statement (.aor x) := by
  rintro f - ⟨⟩
  exact form_isSome _ 0x60 _ rfl rfl (row_atom 2 x.ord)
theorem axor (x : Atom) : Statement (.axor x) := by
  rintro f - ⟨⟩
  exact form_isSome _ 0x60 _ rfl rfl (row_atom 3 x.ord)
theorem amin (x : Atom) : Statement (.amin x) := by
  rintro f - ⟨⟩
  exact form_isSome _ 0x60 _ rfl rfl (row_atom 4 x.ord)
theorem amax (x : Atom) : Statement (.amax x) := by
  rintro f - ⟨⟩
  exact form_isSome _ 0x60 _ rfl rfl (row_atom 5 x.ord)
theorem aswap (x : Atom) : Statement (.aswap x) := by
  rintro f - ⟨⟩
  exact form_isSome _ 0x60 _ rfl rfl (row_atom 6 x.ord)
theorem acas (x : Atom) : Statement (.acas x) := by
  rintro f - ⟨⟩
  exact form_isSome _ 0x60 _ rfl rfl (row_atom 7 x.ord)
theorem afadd (x : AtomF) : Statement (.afadd x) := by
  rintro f - ⟨⟩
  exact form_isSome _ 0x60 _ rfl rfl (row_atom 8 x.ord)
theorem mradd (x : MRed) : Statement (.mradd x) := by
  rintro f - ⟨⟩
  exact form_isSome _ 0x61 _ rfl rfl (row_mred 0 x.rel)
theorem mrand (x : MRed) : Statement (.mrand x) := by
  rintro f - ⟨⟩
  exact form_isSome _ 0x61 _ rfl rfl (row_mred 1 x.rel)
theorem mror (x : MRed) : Statement (.mror x) := by
  rintro f - ⟨⟩
  exact form_isSome _ 0x61 _ rfl rfl (row_mred 2 x.rel)
theorem mrxor (x : MRed) : Statement (.mrxor x) := by
  rintro f - ⟨⟩
  exact form_isSome _ 0x61 _ rfl rfl (row_mred 3 x.rel)
theorem mrmin (x : MRed) : Statement (.mrmin x) := by
  rintro f - ⟨⟩
  exact form_isSome _ 0x61 _ rfl rfl (row_mred 4 x.rel)
theorem mrmax (x : MRed) : Statement (.mrmax x) := by
  rintro f - ⟨⟩
  exact form_isSome _ 0x61 _ rfl rfl (row_mred 5 x.rel)
theorem mrfadd (x : MRedF) : Statement (.mrfadd x) := by
  rintro f - ⟨⟩
  exact form_isSome _ 0x61 _ rfl rfl (row_mred 6 x.rel)
theorem casv (x : CasvA) : Statement (.casv x) := by
  rcases x with ⟨_, y_ord, _, _, _, _, _, _⟩
  rintro f - ⟨⟩
  cases y_ord <;> rfl
theorem waitv (x : WaitvA) : Statement (.waitv x) := by rintro f - ⟨⟩; rfl
theorem fence (x : FenceA) : Statement (.fence x) := by
  rcases x with ⟨_, y_kind, _⟩
  rintro f - ⟨⟩
  cases y_kind <;> rfl
theorem barsync (x : BarA) : Statement (.barsync x) := by rintro f - ⟨⟩; rfl
theorem bararv (x : BarA) : Statement (.bararv x) := by rintro f - ⟨⟩; rfl
theorem barwait (x : BarW) : Statement (.barwait x) := by rintro f - ⟨⟩; rfl
theorem phadv (x : DOnly) : Statement (.phadv x) := by rintro f - ⟨⟩; rfl
theorem phwait (x : DSI) : Statement (.phwait x) := by rintro f - ⟨⟩; rfl
theorem ibsend (x : IbS) : Statement (.ibsend x) := by rintro f - ⟨⟩; rfl
theorem ibrecv (x : IbR) : Statement (.ibrecv x) := by rintro f - ⟨⟩; rfl
theorem ibpoll (x : DOnly) : Statement (.ibpoll x) := by rintro f - ⟨⟩; rfl
theorem dlaunch (x : DA) : Statement (.dlaunch x) := by rintro f - ⟨⟩; rfl
theorem dsignal (x : DSig) : Statement (.dsignal x) := by rintro f - ⟨⟩; rfl
theorem msgsend (x : MSend) : Statement (.msgsend x) := by
  rcases x with ⟨_, y_ack, _, _, _⟩
  rintro f - ⟨⟩
  cases y_ack <;> rfl
theorem msgpost (x : DAB) : Statement (.msgpost x) := by rintro f - ⟨⟩; rfl
theorem msgtest (x : DA) : Statement (.msgtest x) := by rintro f - ⟨⟩; rfl
theorem msgwait (x : DA) : Statement (.msgwait x) := by rintro f - ⟨⟩; rfl
theorem msgcancel (x : DA) : Statement (.msgcancel x) := by rintro f - ⟨⟩; rfl
theorem rand (x : DOnly) : Statement (.rand x) := by rintro f - ⟨⟩; rfl
theorem vrand (x : VRnd) : Statement (.vrand x) := by
  rcases x with ⟨_, y_f32, _⟩
  rintro f - ⟨⟩
  cases y_f32 <;> rfl
theorem rtell (x : DOnly) : Statement (.rtell x) := by rintro f - ⟨⟩; rfl
theorem rseek (x : DSI) : Statement (.rseek x) := by rintro f - ⟨⟩; rfl
theorem smpl (x : SmplA) : Statement (.smpl x) := by rintro f - ⟨⟩; rfl
theorem tokexec (x : DAB) : Statement (.tokexec x) := by rintro f - ⟨⟩; rfl
theorem exit (x : HOnly) : Statement (.exit x) := by rintro f - ⟨⟩; rfl
theorem rgn (x : HOnly) : Statement (.rgn x) := by rintro f - ⟨⟩; rfl
theorem tctx (x : DOnly) : Statement (.tctx x) := by rintro f - ⟨⟩; rfl
theorem xrd (x : DSI) : Statement (.xrd x) := by rintro f - ⟨⟩; rfl
theorem xwr (x : XwrA) : Statement (.xwr x) := by rintro f - ⟨⟩; rfl
theorem tresume (x : TresA) : Statement (.tresume x) := by rintro f - ⟨⟩; rfl
theorem tkill (x : HOnly) : Statement (.tkill x) := by rintro f - ⟨⟩; rfl
theorem tret (x : HOnly) : Statement (.tret x) := by rintro f - ⟨⟩; rfl
theorem spillgo (x : DOnly) : Statement (.spillgo x) := by rintro f - ⟨⟩; rfl
theorem spstat (x : DOnly) : Statement (.spstat x) := by rintro f - ⟨⟩; rfl
theorem xlinv (x : XlA) : Statement (.xlinv x) := by
  rcases x with ⟨_, _ | y⟩ <;> rintro f - ⟨⟩ <;> exact form_isSome _ 6 0 rfl rfl (by decide)
theorem ldpi (x : LdpiA) : Statement (.ldpi x) := by rintro f - ⟨⟩; rfl
theorem stpi (x : StpiA) : Statement (.stpi x) := by rintro f - ⟨⟩; rfl
theorem vldpi (x : VldpiA) : Statement (.vldpi x) := by rintro f - ⟨⟩; rfl
theorem vdot (x : VdotA) : Statement (.vdot x) := by rintro f - ⟨⟩; rfl
theorem undefinedOpcode (op fn : Byte) : Statement (.undefinedOpcode op fn) := by rintro f - ⟨⟩
theorem instructionFetchFault (cause : Byte) (line : Nat) (info : W64) : Statement (.instructionFetchFault cause line info) := by rintro f - ⟨⟩
theorem queueEnable (p : PartN) (q : Fin 64) (v : W64) : Statement (.queueEnable p q v) := by rintro f - ⟨⟩
theorem qwrWrite (p : PartN) (q : Fin 64) (v : W64) : Statement (.qwrWrite p q v) := by rintro f - ⟨⟩
theorem acceptPacket (host : Option VWord) : Statement (.acceptPacket host) := by rintro f - ⟨⟩
theorem dispatchTask (c : ClusterN) (b0 : Fin 8) : Statement (.dispatchTask c b0) := by rintro f - ⟨⟩
theorem partitionCreate (p : PartN) (v : BitVec 512) : Statement (.partitionCreate p v) := by rintro f - ⟨⟩
theorem slotTableWrite (c : ClusterN) (e : Fin 8) (v : W64) : Statement (.slotTableWrite c e v) := by rintro f - ⟨⟩
theorem fetchFill (c : ClusterN) (line : Nat) : Statement (.fetchFill c line) := by rintro f - ⟨⟩
theorem loadDataArrival (t : ThreadId) : Statement (.loadDataArrival t) := by rintro f - ⟨⟩
theorem storeBufferDrain (c : CoreN) (id : Nat) : Statement (.storeBufferDrain c id) := by rintro f - ⟨⟩
theorem blockBufferDrain (c : ClusterN) (id : Nat) (merged : List Nat) : Statement (.blockBufferDrain c id merged) := by rintro f - ⟨⟩
theorem coherencePointOperation (t : ThreadId) : Statement (.coherencePointOperation t) := by rintro f - ⟨⟩
theorem copyJobStart (c : ClusterN) : Statement (.copyJobStart c) := by rintro f - ⟨⟩
theorem copyJobRow (c : ClusterN) (id : Nat) : Statement (.copyJobRow c id) := by rintro f - ⟨⟩
theorem copyJobComplete (c : ClusterN) (id : Nat) : Statement (.copyJobComplete c id) := by rintro f - ⟨⟩
theorem barrierComplete (t : TaskId) (bar : Fin 4) : Statement (.barrierComplete t bar) := by rintro f - ⟨⟩
theorem registerWrite (r : RegTarget) (v : W64) : Statement (.registerWrite r v) := by rintro f - ⟨⟩
theorem queueDisable (p : PartN) (q : Fin 64) (v : W64) : Statement (.queueDisable p q v) := by rintro f - ⟨⟩
theorem queueDrain (p : PartN) (q : Fin 64) (v : W64) : Statement (.queueDrain p q v) := by rintro f - ⟨⟩
theorem queueAbort (p : PartN) (q : Fin 64) (v : W64) : Statement (.queueAbort p q v) := by rintro f - ⟨⟩
theorem taskRetire (t : TaskId) : Statement (.taskRetire t) := by rintro f - ⟨⟩
theorem closeLaunch (p : PartN) (lid : Nat) : Statement (.closeLaunch p lid) := by rintro f - ⟨⟩
theorem expertChange (p : PartN) (b : Bool) : Statement (.expertChange p b) := by rintro f - ⟨⟩
theorem sltstatClear (v : W32) : Statement (.sltstatClear v) := by rintro f - ⟨⟩
theorem preemptTask (t : TaskId) : Statement (.preemptTask t) := by rintro f - ⟨⟩
theorem spillStart (t : TaskId) : Statement (.spillStart t) := by rintro f - ⟨⟩
theorem spillStop (t : TaskId) : Statement (.spillStop t) := by rintro f - ⟨⟩
theorem spillEnd (t : TaskId) : Statement (.spillEnd t) := by rintro f - ⟨⟩
theorem resumeFill (t : TaskId) (c : ClusterN) (b0 : Fin 8) : Statement (.resumeFill t c b0) := by rintro f - ⟨⟩
theorem l1CopyDrop (c : CoreN) (line : Nat) : Statement (.l1CopyDrop c line) := by rintro f - ⟨⟩
theorem postedWritePerform  : Statement (.postedWritePerform ) := by rintro f - ⟨⟩
theorem fabricSendDepart  : Statement (.fabricSendDepart ) := by rintro f - ⟨⟩
theorem multicastClaim (c : ClusterN) (id : Nat) : Statement (.multicastClaim c id) := by rintro f - ⟨⟩
theorem matrixJobStart (c : ClusterN) : Statement (.matrixJobStart c) := by rintro f - ⟨⟩
theorem matrixJobComplete (c : ClusterN) (id : Nat) : Statement (.matrixJobComplete c id) := by rintro f - ⟨⟩
theorem arbiterWindowBoundary (c : ClusterN) : Statement (.arbiterWindowBoundary c) := by rintro f - ⟨⟩
theorem ridgePublish (p : PartN) (lid : Nat) : Statement (.ridgePublish p lid) := by rintro f - ⟨⟩
theorem layPhase (p : PartN) (lid : Nat) : Statement (.layPhase p lid) := by rintro f - ⟨⟩
theorem waitvTimeout (t : ThreadId) : Statement (.waitvTimeout t) := by rintro f - ⟨⟩
theorem samplerRequestServe (c : ClusterN) : Statement (.samplerRequestServe c) := by rintro f - ⟨⟩
theorem rpctlWrite (p : PartN) (v : W64) : Statement (.rpctlWrite p v) := by rintro f - ⟨⟩
theorem flowRuleWrite (p : PartN) (r : Fin 32) (word : Fin 4) (v : W64) : Statement (.flowRuleWrite p r word v) := by rintro f - ⟨⟩
theorem msgCountersClear (p : PartN) : Statement (.msgCountersClear p) := by rintro f - ⟨⟩
theorem hostXlinv (p : PartN) (v : W64) : Statement (.hostXlinv p v) := by rintro f - ⟨⟩
theorem xlinvComplete (p : PartN) : Statement (.xlinvComplete p) := by rintro f - ⟨⟩
theorem trstGo (v : W64) : Statement (.trstGo v) := by rintro f - ⟨⟩
theorem tenantResetPerform (v : BitVec 512) : Statement (.tenantResetPerform v) := by rintro f - ⟨⟩
theorem operatorKeyLoad (x y : BitVec 256) : Statement (.operatorKeyLoad x y) := by rintro f - ⟨⟩
theorem frameReceive (port : Fin 2) (bytes : List Byte) : Statement (.frameReceive port bytes) := by rintro f - ⟨⟩
theorem flitReceive (port : Fin 12) (flit : VWord) : Statement (.flitReceive port flit) := by rintro f - ⟨⟩
theorem ackIdleSend (port : Fin 12) : Statement (.ackIdleSend port) := by rintro f - ⟨⟩
theorem replayTimeout (port : Fin 12) : Statement (.replayTimeout port) := by rintro f - ⟨⟩
theorem fragmentTransmit (port : Fin 12) (vc : Fin 8) : Statement (.fragmentTransmit port vc) := by rintro f - ⟨⟩
theorem laneFailure (port : Fin 12) (lane : Fin 16) : Statement (.laneFailure port lane) := by rintro f - ⟨⟩
theorem retrainComplete (port : Fin 12) (peer : BitVec 16) (ok : Bool) : Statement (.retrainComplete port peer ok) := by rintro f - ⟨⟩
theorem fragmentReceive (port : Fin 12) : Statement (.fragmentReceive port) := by rintro f - ⟨⟩
theorem messageComplete (k : MsgKey) : Statement (.messageComplete k) := by rintro f - ⟨⟩
theorem messageDeadlineExpiry (k : MsgKey) : Statement (.messageDeadlineExpiry k) := by rintro f - ⟨⟩
theorem sendFragmentsDeparted (t : ThreadId) (seq : W32) : Statement (.sendFragmentsDeparted t seq) := by rintro f - ⟨⟩
theorem sendAckTimeout (t : ThreadId) (seq : W32) : Statement (.sendAckTimeout t seq) := by rintro f - ⟨⟩
theorem softErrorDetected (e : SoftErr) : Statement (.softErrorDetected e) := by rintro f - ⟨⟩
theorem supervisorTakeRecord (c : CoreN) : Statement (.supervisorTakeRecord c) := by rintro f - ⟨⟩
theorem powerOn  : Statement (.powerOn ) := by rintro f - ⟨⟩
theorem imageReplyReceive (src : BitVec 128) (status : Byte) (total off : W32) (bytes : List Byte) : Statement (.imageReplyReceive src status total off bytes) := by rintro f - ⟨⟩
theorem imageRequestResend (off : W32) : Statement (.imageRequestResend off) := by rintro f - ⟨⟩
theorem imagePartyAbandon  : Statement (.imagePartyAbandon ) := by rintro f - ⟨⟩
theorem identity (dg : Datagram) : Statement (.identity dg) := by rintro f - ⟨⟩
theorem attest (dg : Datagram) : Statement (.attest dg) := by rintro f - ⟨⟩
theorem tenantReset (dg : Datagram) : Statement (.tenantReset dg) := by rintro f - ⟨⟩
theorem crashRead (dg : Datagram) : Statement (.crashRead dg) := by rintro f - ⟨⟩
theorem errlogRead (dg : Datagram) : Statement (.errlogRead dg) := by rintro f - ⟨⟩
theorem fwStage (dg : Datagram) : Statement (.fwStage dg) := by rintro f - ⟨⟩
theorem fwCommit (dg : Datagram) : Statement (.fwCommit dg) := by rintro f - ⟨⟩
theorem linkRetrain (dg : Datagram) : Statement (.linkRetrain dg) := by rintro f - ⟨⟩
theorem imageGet (dg : Datagram) (port0 : Bool) : Statement (.imageGet dg port0) := by rintro f - ⟨⟩
theorem clusterGate (c : ClusterN) : Statement (.clusterGate c) := by rintro f - ⟨⟩
theorem clusterWake (c : ClusterN) (pass : Bool) : Statement (.clusterWake c pass) := by rintro f - ⟨⟩
theorem thermalTrip (die : Fin 4) : Statement (.thermalTrip die) := by rintro f - ⟨⟩
theorem thermalTripRelease (die : Fin 4) : Statement (.thermalTripRelease die) := by rintro f - ⟨⟩
theorem sidebandUnknownOpcode (dg : Datagram) : Statement (.sidebandUnknownOpcode dg) := by rintro f - ⟨⟩

end Sys2Proof.Laws.Code
end

