-- ==== Sys2Proof/Tests/Slice0.lean ====
section
/-! SUPPORT. Tests: ill-formed terms that the checks refuse, words printed in the spec, single instructions on small states (expected values from
the spec's examples or by hand from its rules), and for every obligation with hypotheses states and operands that meet them. -/

open Sys2Proof Sys2Proof.Machine Sys2Proof.Claims

namespace Sys2Proof.Tests

set_option Elab.async false

/-! ## A small state -/

def hdr : Hdr := ⟨0, 0, 0⟩
def kern : Kernel := ⟨0x10000000, 0, 0, 0, 0, 0x08000000, 0, true, 7, 8, 8, 4, [], []⟩
def lnch : Launch :=
  { part := 0, lid := 1, qid := 0, state := .running, reason := 0, status := 0, tasks := 4, tag := 0, level := 0, repro := false, bounded := false, reuse := false, devside := false, tolran := false, marker := false, kdesc := 0x10000000, seed := 7, cbase := 0, cext := 100, atime := 0, ctime := 0, digest := 0, ftask := 0, fcause := 0, faulted := false, deps := [], sigaddr := 0, irq := false, kernel := kern, args := [], group := some ⟨5, 4, 0, [1, 2, 3], [(1, [1])]⟩, profiles := [⟨true, 100, 0, 2, 1, 4⟩], expert := false, lastwin := false, first := 0, last := 4, next := 1, ridge := 3, ridge0 := 3, laid := 0, dig := 0, shingles := [], preempted := [], kept := [], stalled := false, mseq := [] }
def task : Task :=
  { id := ⟨0, 1, 0⟩, place := .resident 0 0, phase := 1, barriers := [], wq := .reset, arrived := [], onames := [], znames := [], ae := 0, ae0 := 0, faulted := false, image := none, held := ([], []), acqPhase := false, mustGo := false, stealing := [] }
/-- s4 = 0xFF..0B (-245), s5 = 7, s6 an address of plain memory, s7 one of a memory-side page, s8 one of the local window, s9 = 2. -/
def regs : Regs := ⟨[(4, 0xFFFFFFFFFFFFFF0B), (5, 7), (6, 0x10000100), (7, 0x40000100), (8, 0xFFFF000000200), (9, 2)], [(2, 0x3F8000003F800000), (3, 5)], [(1, 0xFFFFFFFF), (2, 0)], [(1, ⟨true, 0, 0, 1, 4⟩)], []⟩
def thread : Thread := { Thread.reset with regs := regs, pc := 0x08000000, status := .running }
def cell (a n v : Nat) : List Host.Cell := (List.range n).map fun i => (a + i, BitVec.ofNat 8 (v / 256 ^ i))
/-- Task 0 of launch 1 in partition 0 on the eight cores of cluster 0; the current thread is slot 0 of core 0. -/
def base : State :=
  { State.reset with
    cur := { Cur.reset with ipc := 0x08000000, link := 0x08000008, npc := 0x08000001 }
    mem := [(0x1010000100, 0x21), (0x1010000101, 0x43)] ++ (cell 0x2000000000 8 0x2000001001 ++ cell 0x2000001000 8 0x100000003F ++
      cell 0x2000001008 8 0x80000110000001F).filter fun c => c.2 != 0
    parts := [(0, { Partition.reset 0 with desc := { Descriptor.reset 0 with valid := true, mshare := 128, ptroot := 0x2000000000 }, nextLid := 2, scb := { Scb.reset with en := true, vec := 0x08000100 } })]
    cores := [(0, { Core.reset with threads := [(0, thread)], task := some ⟨0, 1, 0⟩, sram := [(0x200, 0x11), (0x201, 0x22)], tiles := [(4, ⟨0, 2, .ready, 512, 512⟩), (5, ⟨2, 2, .empty, 0, 0⟩)], tiles0 := [(4, ⟨0, 2, .ready, 512, 512⟩), (5, ⟨2, 2, .empty, 0, 0⟩)] })] ++
      (List.range 7).map fun i => (i + 1, { Core.reset with threads := [(0, thread)], task := some ⟨0, 1, 0⟩, bidx := i + 1 })
    clusters := [(0, { Cluster.reset with tlb := [⟨0, 0, 2 ^ 30, 0x100000003F⟩, ⟨0, 2 ^ 30, 2 ^ 30, 0x80000110000001F⟩] })]
    tasks := [task]
    launches := [lnch] }
/-- The state an instruction leads to, under a test. -/
def leads (i : Instr) (s : State) (p : State → Bool) : Bool :=
  match exec i s with
  | .next t => p t
  | _ => false
def gives {α : Type} (r : Res α) (p : α → State → Bool) : Bool :=
  match r with
  | .ok a s => p a s
  | _ => false
def trapsAs {α : Type} (r : Res α) (c : Byte) : Bool :=
  match r with
  | .trap _ e _ _ => e == c
  | _ => false

/-! ## Ill-formed terms are refused: one for each check -/

theorem test_wf_feat : (Instr.nop ⟨⟨0, 0, 9⟩⟩).wf = false ∧ (Instr.nop ⟨⟨0, 0, 8⟩⟩).wf = true := by decide
theorem test_wf_guard : (Instr.exit ⟨⟨1, 0, 0⟩⟩).wf = false ∧ (Instr.exit ⟨⟨0, 0, 0⟩⟩).wf = true := by decide
theorem test_wf_sat : (Instr.mulh ⟨hdr, .i32, true, 1, 2, .s 3⟩).wf = false ∧ (Instr.mul ⟨hdr, .i32, true, 1, 2, .s 3⟩).wf = true ∧
    (Instr.shr ⟨hdr, .i32, true, 1, 2, .s 3⟩).wf = false := by decide
theorem test_wf_types : (Instr.ext ⟨hdr, .i32, false, 1, 2, .s 3⟩).wf = false ∧ (Instr.bswap ⟨hdr, .i8, 1, 2⟩).wf = false ∧
    (Instr.vaddInt ⟨hdr, .i64, false, 1, 2, .v 3⟩).wf = false ∧ (Instr.aadd ⟨hdr, .rlx, .core, .i16, 1, ⟨2, .i 0⟩, 3⟩).wf = false ∧
    (Instr.vcmpun ⟨hdr, .i32, 1, 2, .v 3⟩).wf = false := by decide
theorem test_wf_one_constant : (Instr.part ⟨hdr, true, 1, .i 4, .i 4⟩).wf = false ∧ (Instr.part ⟨hdr, true, 1, .s 4, .i 4⟩).wf = true ∧
    (Instr.vsetl ⟨hdr, 1, .i 4, .i 4⟩).wf = false ∧ (Instr.rbind ⟨hdr, false, .core, 1, 2, .i 0, .i 1⟩).wf = false ∧
    (Instr.rvsum ⟨hdr, false, .f32 .rne, 1, 2, .i 0, .i 1⟩).wf = false ∧ (Instr.barwait ⟨hdr, .core, 1, .i 0, .i 1⟩).wf = false := by decide
theorem test_wf_scaled_constant : (Instr.lea ⟨hdr, 1, 1, 2, .i 4⟩).wf = false ∧ (Instr.lea ⟨hdr, 0, 1, 2, .i 4⟩).wf = true := by decide
theorem test_wf_status_register : (Instr.srd ⟨hdr, 1, 0x1E⟩).wf = false ∧ (Instr.srd ⟨hdr, 1, 0x1D⟩).wf = true := by decide
theorem test_wf_rounding : (Instr.vadd ⟨hdr, .f32, .rna, false, 1, 2, .v 3⟩).wf = false ∧ (Instr.vrsum ⟨hdr, .f32 .rna, 1, 2⟩).wf = false ∧
    (Instr.vrmax ⟨hdr, .f32 .rtz, 1, 2⟩).wf = false ∧ (Instr.vdot ⟨hdr, .rna, 1, 2, 3⟩).wf = false := by decide
theorem test_wf_vector_memory : (Instr.vld ⟨⟨1, 0, 0⟩, .sx8, .core, 1, ⟨2, .i 0⟩⟩).wf = false ∧
    (Instr.vst ⟨hdr, .n32, true, .rne, .core, ⟨2, .i 0⟩, 1⟩).wf = false := by decide
theorem test_wf_conversion : (Instr.vcvt ⟨hdr, .f16, .bf16, .rne, false, 0, 1, 2⟩).wf = false ∧ (Instr.vcvt ⟨hdr, .f32, .f16, .rne, true, 0, 1, 2⟩).wf = false ∧
    (Instr.vcvt ⟨hdr, .f16, .f32, .rne, true, 2, 1, 2⟩).wf = false ∧ (Instr.vcvt ⟨hdr, .f16, .f32, .rne, true, 1, 1, 2⟩).wf = true := by decide
theorem test_wf_fill_needs_tile : (Instr.cpy ⟨hdr, .core, false, false, true, 1, .s 2, .s 3, .i 4⟩).wf = false ∧
    (Instr.zstore ⟨hdr, .core, false, true, 1, .s 2, 0, 3⟩).wf = false := by decide
theorem test_wf_matrix : (Instr.mma ⟨hdr, false, .bf16, 1, false, 1, 0, 0, 1⟩).wf = false ∧ (Instr.rmma ⟨hdr, true, false, .c4, 0, false, 1, 0, 0, 1⟩).wf = false := by
  decide

/-! ## Words that the spec prints -/

/-- 07 R125 to R143. -/
theorem test_decode_scalar :
    decodeTableWord 96 0x1000070881FF006F000000C8 = some (.add ⟨⟨3, 0, 0⟩, .n8, true, 7, 8, .i 200⟩) ∧
    decodeTableWord 96 0x1302710481FF000000000010 = some (.cmplt ⟨hdr, .i64, .p 1, 4, .i 16⟩) ∧
    decodeTableWord 96 0x1402140081FF0000000FFFF0 = some (.lih ⟨hdr, 20, 0, 0x000FFFF0⟩) ∧
    decodeTableWord 96 0x1600_04FF_FFFF_0000_0000_000E = some (.srd ⟨hdr, 4, 0x0E⟩) ∧
    decodeTableWord 96 0x3003_07FF_FFFF_0300_FFFF_FFFB = some (.brdec ⟨⟨0, 3, 0⟩, 7, 0xFFFFFFFB⟩) ∧
    decodeTableWord 96 0x3000_FFFF_FFFF_0000_FFFF_FFFB = some (.br ⟨hdr, 0xFFFFFFFB⟩) ∧
    decodeTableWord 96 0x3200_FFFF_FFFF_0002_0000_0000 = some (.gang ⟨hdr, .g4⟩) ∧
    decodeTableWord 96 0x3401_0962_FF02_0000_0000_0000 = some (.cbwaitc ⟨hdr, 9, 2, 2⟩) := by decide +kernel
/-- 10 R188 to R211. -/
theorem test_decode_memory :
    decodeTableWord 96 0x4000_0405_81FF_0000_0000_0040 = some (.ld ⟨hdr, false, .core, .i64, 4, ⟨5, .i 0x40⟩⟩) ∧
    decodeTableWord 96 0x4002_FF05_8104_0000_0000_0008 = some (.st ⟨hdr, false, .core, .i64, ⟨5, .i 8⟩, 4⟩) ∧
    decodeTableWord 96 0x4001_0405_81FF_0015_0000_0040 = some (.ld ⟨hdr, true, .device, .n32, 4, ⟨5, .i 0x40⟩⟩) ∧
    decodeTableWord 96 0x4203_4305_81FF_0000_0000_0000 = some (.vld ⟨hdr, .f16, .core, 3, ⟨5, .i 0⟩⟩) ∧
    decodeTableWord 96 0x4225_FF09_8142_0000_0000_0020 = some (.vst ⟨hdr, .e4m3, true, .rne, .core, ⟨9, .i 0x20⟩, 2⟩) ∧
    decodeTableWord 96 0x4102_0406_8105_0000_0000_0010 = some (.ldv ⟨hdr, false, true, .core, .i64, 4, ⟨6, .i 0x10⟩, 5⟩) ∧
    decodeTableWord 96 0x4104_0706_8108_0000_0000_0010 = some (.stcv ⟨hdr, false, .core, .i64, 7, ⟨6, .i 0x10⟩, 8⟩) ∧
    decodeTableWord 96 0x4400_9281_FFFF_0000_0000_0300 = some (.tfill ⟨hdr, 2, .i 768⟩) ∧
    decodeTableWord 96 0x4500_0892_0581_0001_0000_0200 = some (.cpy ⟨hdr, .core, false, false, true, 8, .t 2, .s 5, .i 512⟩) ∧
    decodeTableWord 96 0x4503_0908_FFFF_0000_0000_0000 = some (.cwait ⟨hdr, 9, 8⟩) ∧
    decodeTableWord 96 0x4600_FF07_0106_0000_0000_0000 = some (.rset ⟨hdr, 7, 1, 6⟩) ∧
    decodeTableWord 96 0x4602_0D81_FFFF_0003_0000_0002 = some (.rrd ⟨hdr, 3, 13, .i 2⟩) ∧
    decodeTableWord 96 0x4601_FF81_FFFF_0000_0000_0002 = some (.unpin ⟨hdr, .i 2⟩) ∧
    decodeTableWord 96 0x4000_0A01_09FF_0200_0000_0000 = some (.ld ⟨⟨0, 2, 0⟩, false, .core, .i64, 10, ⟨1, .s 9⟩⟩) := by decide +kernel
/-- 11 R213 to R231. -/
theorem test_decode_vector :
    decodeTableWord 96 0x8E01_09FF_FFFF_0000_0000_0000 = some (.vflgclr ⟨hdr, 9⟩) ∧
    decodeTableWord 96 0x8000_4341_42FF_7041_0000_0000 = some (.vadd ⟨⟨2, 0, 7⟩, .f32, .rtz, false, 3, 1, .v 2⟩) ∧
    decodeTableWord 96 0x8003_4441_4243_0000_0000_0000 = some (.vfma ⟨hdr, .f32, .rne, false, 4, 1, .v 2, 3⟩) ∧
    decodeTableWord 96 0x8300_4546_47FF_0000_0000_0000 = some (.vadd ⟨hdr, .e4m3, .rne, false, 5, 6, .v 7⟩) ∧
    decodeTableWord 96 0x8002_4241_81FF_0000_3F00_0000 = some (.vmul ⟨hdr, .f32, .rne, false, 2, 1, .i 0x3F000000⟩) ∧
    decodeTableWord 96 0x8800424381FF000A00000001 = some (.vaddInt ⟨hdr, .i16, true, 2, 3, .i 1⟩) ∧
    decodeTableWord 96 0x8502_7142_43FF_0000_0000_0000 = some (.vcmplt ⟨hdr, .f32, 1, 2, .v 3⟩) ∧
    decodeTableWord 96 0x8683_4542_FFFF_0010_0000_0000 = some (.vcvt ⟨hdr, .e4m3, .f32, .rne, true, 2, 5, 2⟩) ∧
    decodeTableWord 96 0x8701_4641_42FF_0000_0000_0000 = some (.vperm ⟨hdr, 6, 1, 2⟩) ∧
    decodeTableWord 96 0x8A00_0442_FFFF_0000_0000_0000 = some (.vrsum ⟨hdr, .f32 .rne, 4, 2⟩) ∧
    decodeTableWord 96 0x8B04_4241_FFFF_0000_0000_0000 = some (.vexp2 ⟨hdr, 2, 1⟩) ∧
    decodeTableWord 96 0x8C00_FF05_81FF_0000_0000_0000 = some (.ctload ⟨hdr, ⟨5, .i 0⟩⟩) ∧
    decodeTableWord 96 0x8D00_0442_FFFF_0000_0000_0000 = some (.vgsum ⟨hdr, .f32 .rne, 4, 2⟩) := by decide +kernel
/-- 13 R236 to R256. -/
theorem test_decode_matrix :
    decodeTableWord 96 0xB000_04A0_81FF_0000_0000_0004 = some (.oclaim ⟨hdr, 4, 0, .i 4⟩) ∧
    decodeTableWord 96 0xB001_FFA0_81FF_0000_0000_0004 = some (.orelease ⟨hdr, 0, .i 4⟩) ∧
    decodeTableWord 96 0xB002_0578_81FF_0000_0000_0001 = some (.zclaim ⟨hdr, 5, 0, .i 1⟩) ∧
    decodeTableWord 96 0xB100_08A1_0A06_0014_0000_0000 = some (.oload ⟨hdr, .device, true, 8, 1, .s 10, 6⟩) ∧
    decodeTableWord 96 0xB213_0979_A2A3_0012_0000_0000 = some (.mma ⟨hdr, true, .e4m3, 2, true, 9, 1, 2, 3⟩) ∧
    decodeTableWord 96 0xB300_0978_FFFF_0000_0000_0000 = some (.zclear ⟨hdr, false, 9, 0⟩) ∧
    decodeTableWord 96 0xB301_0995_7807_001A_0000_0000 = some (.zstore ⟨hdr, .block, true, true, 9, .t 5, 0, 7⟩) ∧
    decodeTableWord 96 0xB302_097A_0A0B_0000_0000_0000 = some (.zload ⟨hdr, .core, false, 9, 2, .s 10, 11⟩) ∧
    decodeTableWord 96 0xB400_0978_FFFF_0000_0000_0000 = some (.mcheck ⟨hdr, false, 9, 0⟩) ∧
    decodeTableWord 96 0xB501_0C09_FFFF_0000_0000_0000 = some (.mwait ⟨hdr, 12, 9⟩) ∧
    decodeTableWord 96 0xB502_0DFF_FFFF_0000_0000_0000 = some (.mstat ⟨hdr, 13⟩) := by decide +kernel
/-- 14 R260 to R272. -/
theorem test_decode_ragged :
    decodeTableWord 96 0xC000_0904_0581_0014_0000_0020 = some (.rbind ⟨hdr, true, .device, 9, 4, .s 5, .i 32⟩) ∧
    decodeTableWord 96 0xC001_0A81_FFFF_0001_0000_0007 = some (.rrow ⟨hdr, false, true, 10, .i 7⟩) ∧
    decodeTableWord 96 0xC003_7281_FFFF_0000_0000_0000 = some (.rpseg ⟨hdr, false, 2, .i 0⟩) ∧
    decodeTableWord 96 0xC100_4305_0681_0008_0000_0003 = some (.rvld ⟨hdr, false, true, .core, 3, 5, 6, .i 3⟩) ∧
    decodeTableWord 96 0xC300_4544_81FF_0008_0000_0000 = some (.rvnorm ⟨hdr, false, true, .rne, 5, 4, .i 0⟩) ∧
    decodeTableWord 96 0xC200_4442_8100_0000_0000_0000 = some (.rvsum ⟨hdr, false, .f32 .rne, 4, 2, .i 0, .s 0⟩) ∧
    decodeTableWord 96 0xC402_0978_A0A1_0000_0000_0000 = some (.rmma ⟨hdr, false, false, .bf16, 0, false, 9, 0, 0, 1⟩) ∧
    decodeTableWord 96 0xC433_0979_A2A3_0001_0000_0000 = some (.rmma ⟨hdr, true, true, .e4m3, 1, false, 9, 1, 2, 3⟩) := by decide +kernel
/-- 16 R299 to R319. -/
theorem test_decode_sync :
    decodeTableWord 96 0x6000_0405_8106_0010_0000_0000 = some (.aadd ⟨hdr, .rlx, .device, .i64, 4, ⟨5, .i 0⟩, 6⟩) ∧
    decodeTableWord 96 0x6037_0706_8108_000D_0000_0010 = some (.acas ⟨hdr, .acqrel, .block, .n32, 7, ⟨6, .i 0x10⟩, 8⟩) ∧
    decodeTableWord 96 0x6028_0405_8106_0010_0000_0008 = some (.afadd ⟨hdr, .rel, .device, 4, ⟨5, .i 8⟩, 6⟩) ∧
    decodeTableWord 96 0x6106_FF05_8106_0010_0000_0040 = some (.mrfadd ⟨hdr, false, .device, ⟨5, .i 0x40⟩, 6⟩) ∧
    decodeTableWord 96 0x6603_0706_0809_0010_0000_0000 = some (.casv ⟨hdr, .acqrel, .device, .i64, 7, 6, 8, 9⟩) ∧
    decodeTableWord 96 0x6604_0A06_0B81_0010_0000_1000 = some (.waitv ⟨hdr, .device, 10, 6, 11, .i 4096⟩) ∧
    decodeTableWord 96 0x6202_FFFF_FFFF_0010_0000_0000 = some (.fence ⟨hdr, .full, .device⟩) ∧
    decodeTableWord 96 0x6300_0981_FFFF_0008_0010_0200 = some (.barsync ⟨hdr, .block, 9, .i 0x00100200⟩) ∧
    decodeTableWord 96 0x6400_09FF_FFFF_0000_0000_0000 = some (.phadv ⟨hdr, 9⟩) ∧
    decodeTableWord 96 0x6401_0A09_FFFF_0000_0000_0000 = some (.phwait ⟨hdr, 10, .s 9⟩) ∧
    decodeTableWord 96 0x6500_0904_05FF_0010_0000_0000 = some (.ibsend ⟨hdr, .device, 9, 4, .s 5⟩) ∧
    decodeTableWord 96 0x6700_0904_FFFF_0000_0000_0000 = some (.dlaunch ⟨hdr, 9, 4⟩) ∧
    decodeTableWord 96 0x6701_FF04_05FF_0001_0000_0000 = some (.dsignal ⟨hdr, true, 4, 5⟩) := by decide +kernel
/-- 18 R331 to R334, 20 R342 to R355. -/
theorem test_decode_messages_streams :
    decodeTableWord 96 0x7000_0805_06FF_0000_0000_0000 = some (.msgsend ⟨hdr, false, 8, .s 5, 6⟩) ∧
    decodeTableWord 96 0x7001_0892_06FF_0000_0000_0000 = some (.msgsend ⟨hdr, true, 8, .t 2, 6⟩) ∧
    decodeTableWord 96 0x7100_0904_07FF_0000_0000_0000 = some (.msgpost ⟨hdr, 9, 4, 7⟩) ∧
    decodeTableWord 96 0x7201_0A09_FFFF_0000_0000_0000 = some (.msgwait ⟨hdr, 10, 9⟩) ∧
    decodeTableWord 96 0x7300_0A09_FFFF_0000_0000_0000 = some (.msgcancel ⟨hdr, 10, 9⟩) ∧
    decodeTableWord 96 0x7800_04FF_FFFF_0000_0000_0000 = some (.rand ⟨hdr, 4⟩) ∧
    decodeTableWord 96 0x7802_45FF_FFFF_0000_0000_0000 = some (.vrand ⟨hdr, true, 5⟩) ∧
    decodeTableWord 96 0x7803_06FF_FFFF_0000_0000_0000 = some (.rtell ⟨hdr, 6⟩) ∧
    decodeTableWord 96 0x7804_0607_FFFF_0000_0000_0000 = some (.rseek ⟨hdr, 6, .s 7⟩) ∧
    decodeTableWord 96 0x7C00_0990_04FF_0000_0000_0000 = some (.smpl ⟨hdr, 9, 0, 4⟩) ∧
    decodeTableWord 96 0x7C01_0905_04FF_0000_0000_0000 = some (.tokexec ⟨hdr, 9, 5, 4⟩) := by decide +kernel
/-- 22 R367, R369, R370. -/
theorem test_decode_system :
    decodeTableWord 96 0x0100_FFFF_FFFF_0000_0000_0000 = some (.exit ⟨hdr⟩) ∧
    decodeTableWord 96 0x0101_FFFF_FFFF_0000_0000_0000 = some (.rgn ⟨hdr⟩) ∧
    decodeTableWord 96 0x0200_04FF_FFFF_0000_0000_0000 = some (.tctx ⟨hdr, 4⟩) ∧
    decodeTableWord 96 0x0300_0581_FFFF_0000_0000_0144 = some (.xrd ⟨hdr, 5, .i 0x144⟩) ∧
    decodeTableWord 96 0x0301_FF81_06FF_0000_0000_0144 = some (.xwr ⟨hdr, .i 0x144, 6⟩) ∧
    decodeTableWord 96 0x0400_FFFF_FFFF_0001_0000_0000 = some (.tresume ⟨hdr, true⟩) ∧
    decodeTableWord 96 0x0401_FFFF_FFFF_0000_0000_0000 = some (.tkill ⟨hdr⟩) ∧
    decodeTableWord 96 0x0402_FFFF_FFFF_0000_0000_0000 = some (.tret ⟨hdr⟩) ∧
    decodeTableWord 96 0x0500_04FF_FFFF_0000_0000_0000 = some (.spillgo ⟨hdr, 4⟩) ∧
    decodeTableWord 96 0x0501_04FF_FFFF_0000_0000_0000 = some (.spstat ⟨hdr, 4⟩) ∧
    decodeTableWord 96 0x0600_FF05_FFFF_0000_0000_0000 = some (.xlinv ⟨hdr, some 5⟩) ∧
    decodeTableWord 96 0xD000_0405_81FF_0000_0000_0008 = some (.ldpi ⟨hdr, .i64, 4, 5, 8⟩) := by decide +kernel

/-! ## States and operands that meet the hypotheses of the statements

Each theorem is named after its obligation. It shows the hypotheses met together, one clause after the other, at the edges of a range where there is one; where the
state after the instruction is short to say, it is shown as well. -/

def trapped (c : Byte) (a i : W64) (t : State) : Bool :=
  t.cur.fate == .trapped && (t.myCore.queue.getLast?.map fun r => (r.cause, r.addr, r.info)) == some (c, a, i)
def passes (t : State) : Bool := t.cur.fate == .passed
/-- The base state with s registers given. -/
def withS (l : List (Nat × W64)) : State := base.updTh fun t => { t with regs := { t.regs with s := l } }
def arithOn (s : State) : State := s.updTh fun t => { t with mode := { t.mode with arith := true } }
/-- Predicate p2 is 0. -/
def off : Hdr := ⟨2, 0, 0⟩
/-- The word of `nop`, placed where the next step fetches. -/
def ready : State := State.reset.withFetchWord 96 0x1700FFFFFFFF000000000000

theorem witness_EncodeThenDecode : (Instr.add ⟨⟨3, 0, 0⟩, .n8, true, 7, 8, .i 200⟩).wf = true ∧
    (encode (.add ⟨⟨3, 0, 0⟩, .n8, true, 7, 8, .i 200⟩)) = some 0x1000070881FF006F000000C8 ∧
    (Instr.add ⟨⟨3, 0, 0⟩, .n8, true, 7, 8, .i 200⟩).isEvent = false := by decide +kernel
theorem witness_StepRunsTheDecodedInstruction :
    (ready.agenda = [] ∧ (ready.cores.find? fun e => decide (ready.nextCore ≤ e.1)).isSome = true ∧
      ∃ c : Nat, c = ((ready.cores.find? fun e => decide (ready.nextCore ≤ e.1)).map (·.1)).getD 99 ∧ slotAt ready.cycle (ready.core c).cycle0 < 7 ∧
        ready.halting c = false ∧
        let a := ready.at ⟨c, slotAt ready.cycle (ready.core c).cycle0⟩
        a.th.status = .running ∧ a.th.wake ≠ some ready.cycle ∧ a.th.confl = none ∧ a.th.skip = 0 ∧ a.th.pend = none ∧ a.th.gang = none ∧
        a.th.arrive ≠ .resume ∧
        (match ({ a with cur := { a.cur with ipc := a.th.pc } } : State).fetch with
          | .line img u => (bundleOf img (pcSlot u.th.pc)).check == .ok (.nop ⟨⟨0, 0, 0⟩⟩, none) &&
              gives (({ u with cur := (issueOf (pcLine u.th.pc) (bundleOf img (pcSlot u.th.pc)) (.nop ⟨⟨0, 0, 0⟩⟩) none).cur1 u.cur.core u.cur.slot } : State).checkSig
                (issueOf (pcLine u.th.pc) (bundleOf img (pcSlot u.th.pc)) (.nop ⟨⟨0, 0, 0⟩⟩) none).ipc) (fun _ v => v.th.gang == none)
          | _ => false) = true) ∧
    (match step ready with | .next t => (t.core 0).threads != (ready.core 0).threads | _ => false) = true ∧
    ({ State.reset with agenda := [.arbiterWindowBoundary ⟨0, by decide⟩] } : State).agenda = [.arbiterWindowBoundary ⟨0, by decide⟩] ∧
    isEvent (.arbiterWindowBoundary ⟨0, by decide⟩) = true ∧ (State.reset.agenda = [] ∧ ∀ e ∈ State.reset.cores, e.1 < State.reset.nextCore) :=
  ⟨⟨by decide +kernel, by decide +kernel, _, rfl, by decide +kernel⟩, by decide +kernel⟩
theorem witness_NoInstructionStopsTheMachine : base.agendaOk = true ∧ isEvent (.nop ⟨hdr⟩) = false := by decide +kernel
theorem witness_StepKeepsMemoryCanonical : Memory.wf base.mem = true ∧ base.mem ≠ [] ∧ (match step base with | .next _ => true | _ => false) = true := by
  decide +kernel

theorem witness_ScalarArithmetic : base.guardOn hdr = true ∧
    gives (base.src (tySigned .i8) (.i 200)) (fun b s => b == 200 && leads (.add ⟨hdr, .i8, false, 10, 4, .i 200⟩) base fun t => t.rs 10 == narrow .i8 (s.rs 4 + b)) = true ∧
    gives (base.src (tySigned .n64) (.s 5)) (fun _ _ => leads (.mulh ⟨hdr, .n64, false, 10, 4, .s 5⟩) base fun t => t.rs 10 == 6) = true ∧
    leads (.rotl ⟨hdr, .n8, false, 10, 4, .i 9⟩) base (fun t => t.rs 10 == 0x16) = true := by decide +kernel
theorem witness_ScalarSaturation : gives (base.src (tySigned .i8) (.i 0xFFFFFFC8)) (fun _ _ => leads (.sub ⟨hdr, .i8, true, 10, 5, .i 0xFFFFFFC8⟩) base fun t => t.rs 10 == 63) = true ∧
    gives ((arithOn base).src (tySigned .i8) (.i 100)) (fun _ s => s.mode.arith && leads (.mul ⟨hdr, .i8, true, 10, 5, .i 100⟩) (arithOn base) (trapped 0x40 0 2)) = true ∧
    leads (.mul ⟨hdr, .i8, true, 10, 5, .i 100⟩) base (fun t => t.rs 10 == 127) = true ∧
    leads (.shl ⟨hdr, .i8, true, 10, 5, .i 5⟩) (arithOn base) (trapped 0x40 0 2) = true := by decide +kernel
theorem witness_ScalarDivision :
    (gives (base.src true (.s 0)) (fun b s => value .i64 b == 0 && !s.mode.arith && leads (.div ⟨hdr, .i64, false, 10, 5, .s 0⟩) base fun t => t.rs 10 == 0xFFFFFFFFFFFFFFFF) = true) ∧
    gives ((arithOn base).src true (.s 0)) (fun b s => value .i64 b == 0 && s.mode.arith && leads (.rem ⟨hdr, .i64, false, 10, 5, .s 0⟩) (arithOn base) (trapped 0x40 0 1)) = true ∧
    gives (base.src true (.i 2)) (fun b s => value .i64 b != 0 && decide ((value .i64 (s.rs 4)).tdiv (value .i64 b) ≤ most .i64) &&
      leads (.div ⟨hdr, .i64, true, 10, 4, .i 2⟩) base fun t => t.rs 10 == BitVec.ofInt 64 (-122)) = true ∧
    (let s := withS [(4, 0x80)]
     gives (s.src true (.i 0xFFFFFFFF)) (fun b u => decide (most .i8 < (value .i8 (u.rs 4)).tdiv (value .i8 b)) && !u.mode.arith &&
       leads (.div ⟨hdr, .i8, true, 10, 4, .i 0xFFFFFFFF⟩) s (fun t => t.rs 10 == 127) && leads (.div ⟨hdr, .i8, true, 10, 4, .i 0xFFFFFFFF⟩) (arithOn s) (trapped 0x40 0 2))) = true := by
  decide +kernel
/-- A field that ends at bit 63 and one that runs past it; a control with a bit outside POS and LENM1. -/
theorem witness_ScalarFields :
    (let c := 60 + 256 * 3
     c = c % 64 + 256 * (c / 256 % 64) ∧ c % 64 + (c / 256 % 64 + 1) ≤ 64 ∧ leads (.ext ⟨hdr, .i64, false, 10, 4, .i 0x33C⟩) base (fun t => t.rs 10 == 0xFFFFFFFFFFFFFFFF) = true) ∧
    leads (.ext ⟨hdr, .i64, false, 10, 4, .i 0x33D⟩) base (trapped 0x02 0 2) = true ∧ leads (.ext ⟨hdr, .i64, false, 10, 4, .i 0x40⟩) base (trapped 0x02 0 2) = true ∧
    leads (.ins ⟨hdr, 10, 5, 0, .i 0x0204⟩) base (fun t => t.rs 10 == 0x70) = true ∧ leads (.ins ⟨hdr, 10, 5, 0, .i 0x4000⟩) base (trapped 0x02 0 3) = true ∧
    leads (.clz ⟨hdr, .n8, 10, 5⟩) base (fun t => t.rs 10 == 5) = true ∧ leads (.ctz ⟨hdr, .n8, 10, 0⟩) base (fun t => t.rs 10 == 8) = true := by decide +kernel
theorem witness_ScalarCompare : gives (base.src true (.i 0xFFFFFF0B)) (fun b s => value .i64 (s.rs 4) == value .i64 b &&
    leads (.cmple ⟨hdr, .i64, .p 3, 4, .i 0xFFFFFF0B⟩) base (fun t => t.rp 3 == 0xFFFFFFFF) && leads (.cmplt ⟨hdr, .i64, .s 10, 4, .i 0xFFFFFF0B⟩) base (fun t => t.rs 10 == 0)) = true := by
  decide +kernel
theorem witness_MovesAndPredicates : gives (base.src true (.i 0xFFFFFFFF)) (fun a _ => a == 0xFFFFFFFFFFFFFFFF && leads (.sel ⟨hdr, 10, .i 0xFFFFFFFF, 5, 2⟩) base fun t => t.rs 10 == 7) = true ∧
    gives (base.src (tySigned .n8) (.s 4)) (fun a _ => leads (.mov ⟨hdr, .n8, 10, .s 4⟩) base fun t => t.rs 10 == narrow .n8 a) = true := by decide +kernel
theorem witness_ScalarFrame : base.cur.fate = .go ∧ leads (.add ⟨hdr, .n8, false, 10, 4, .i 200⟩) base (fun t => t.cur.fate == .go && t.rs 4 == base.rs 4) = true ∧
    base.guardOn off = false ∧ leads (.add ⟨off, .n8, false, 10, 4, .i 200⟩) base (fun t => t == base) = true := by decide +kernel
theorem witness_TimeIsLatched : base.guardOn hdr = true ∧ leads (.srd ⟨hdr, 10, 0x0E⟩) { base with ptp := 2 ^ 33 * 3000000 * 1000000000 }
    (fun t => t.rs 10 == 0 && leads (.srd ⟨hdr, 11, 0x0F⟩) { t with ptp := 0 } fun u => u.rs 11 == 2) = true := by decide +kernel
/-- The last line and the last slot. -/
theorem witness_OffsetTarget : (2 ^ 46 - 1 < 2 ^ 46 ∧ (7 : Nat) < 8) ∧ pcLine (offTarget (mkPc (2 ^ 46 - 1) 7) 8) = 0 ∧ pcSlot (offTarget (mkPc (2 ^ 46 - 1) 7) 8) = 0 := by
  decide +kernel

theorem witness_StatusRegisters : base.status 0x0D = some 0 ∧ base.status 0x15 ≠ none ∧ base.cur.slot ≠ 7 ∧
    leads (.srd ⟨hdr, 10, 0x15⟩) base (trapped 0x11 0 0) = true ∧ leads (.srd ⟨hdr, 10, 0x1E⟩) base (trapped 0x02 0 5) = true ∧
    leads (.swr ⟨hdr, 10, 0x0D⟩) (withS [(10, 6)]) (fun t => t.th.mode == ⟨false, true, true, false, false⟩) = true ∧
    leads (.swr ⟨hdr, 10, 0x0D⟩) (withS [(10, 1)]) (trapped 0x11 0 0) = true ∧ leads (.swr ⟨hdr, 10, 0x0D⟩) (withS [(10, 32)]) (trapped 0x11 0 0) = true ∧
    base.expert = false ∧ leads (.swr ⟨hdr, 10, 0x0D⟩) (withS [(10, 16)]) (trapped 0x11 0 0) = true ∧
    leads (.swr ⟨hdr, 5, 0x1A⟩) base (fun t => t.myCore.ctab == 7) = true ∧ leads (.swr ⟨hdr, 5, 0x00⟩) base (trapped 0x11 0 0) = true := by decide +kernel
/-- Slot 7 with a record in bank 0. -/
def recd : TrapRec := ⟨0x40, 0x08000002, 0, 2, 0, false, 0, 0, some ⟨0, 1, 0⟩, 0x1000070881FF006F000000C8, 0⟩
def sup : State := ({ base with cur := { base.cur with slot := 7 } } : State).updMyCore fun k =>
  { k with bank0 := some recd, threads := k.threads.put 7 { thread with pc := 0x08000100 } }
theorem witness_StatusRegisters_supervisor : sup.cur.slot = 7 ∧ sup.myCore.bank1 = none ∧ sup.myCore.bank0 = some recd ∧
    leads (.swr ⟨hdr, 5, 0x16⟩) sup (fun t => t.myCore.bank0 == some { recd with pc := 7 }) = true := by decide +kernel

/-- The base state with a line in L0 whose slots are all marked as targets. -/
def marked : State := base.updMyCore fun k => { k with l0 := [(0x200000, BitVec.ofNat 512 (0x1F * 2 ^ 480), 0)] }
theorem witness_ControlTransfers : marked.guardOn hdr = true ∧ marked.cur.follow = false ∧ offTarget marked.cur.ipc 4 = 0x08000004 ∧
    gives (marked.checkTarget 0x08000004 true) (fun _ _ => true) = true ∧
    leads (.call ⟨hdr, 4⟩) marked (fun t => t.cur.npc == 0x08000004 && t.rs 63 == 0x08000008) = true ∧
    leads (.brdec ⟨hdr, 5, 4⟩) marked (fun t => t.cur.npc == 0x08000004 && t.rs 5 == 6) = true ∧ leads (.brnz ⟨hdr, 0, 4⟩) marked (fun t => t == marked) = true ∧
    trapsAs (marked.checkTarget (offTarget marked.cur.ipc 5) true) 0x05 = true ∧ leads (.br ⟨hdr, 5⟩) marked (trapped 0x05 0x08000005 0) = true ∧
    trapsAs (marked.checkTarget (marked.rs 5) true) 0x05 = true ∧ leads (.jr ⟨hdr, 5⟩) marked (trapped 0x05 7 0) = true ∧
    (let s := marked.ws 63 0x08000003
     gives (s.checkTarget (s.rs 63) true) (fun _ _ => true) && gives (s.checkTarget (s.rs 63) true) (fun _ _ => leads (.ret ⟨hdr⟩) s fun t => t.cur.npc == 0x08000003)) = true ∧
    (let s : State := { marked with cur := { marked.cur with follow := true } }
     s.cur.follow && leads (.brdec ⟨hdr, 5, 4⟩) s (fun t => t.rs 5 == 6 && t.cur.npc == s.cur.npc)) = true ∧
    ((0x38 : W64) &&& 0xFFF0000000000038 ≠ 0) ∧ 4 < ((5 : W64) &&& 7).toNat := by decide +kernel
/-- Core 1 waits in `gang.2`; core 0 completes the gang. A kernel block of 8 ends at its last group; one of 7 does not hold it. -/
def gangWaits : State := base.updThr ⟨1, 0⟩ fun t => { t with pend := some ⟨0, 0, regs, 0, .reset, 0, 0, .gang 2⟩ }
theorem witness_GangFormation : (base.myLaunch.map fun l => l.kernel.block) = some 8 ∧ (base.core 0).bidx = 0 ∧
    leads (.gang ⟨hdr, .g8⟩) { base with launches := [{ lnch with kernel := { kern with block := 7 } }] } (trapped 0xA0 0 1) = true ∧
    leads (.gang ⟨hdr, .g8⟩) base (fun t => t.stageOf t.me == some (.gang 8)) = true ∧
    leads (.gang ⟨hdr, .g2⟩) (base.updTh fun t => { t with gang := some ⟨2, 0, 0, [], none, [], false, false, none⟩ }) (trapped 0xA0 0 2) = true ∧
    (∀ o ∈ gangWaits.blockOf 0, gangWait (gangWaits.thr ⟨o, 0⟩) = none ∨ gangWait (gangWaits.thr ⟨o, 0⟩) = some 2) ∧
    (∀ o ∈ gangCores 0 0 2, o ≠ 0 → gangWait (gangWaits.thr ⟨o, 0⟩) = some 2) ∧
    leads (.gang ⟨hdr, .g2⟩) gangWaits (fun t => (t.thr ⟨1, 0⟩).gang == some ⟨2, 1, 0, [], none, [], false, false, none⟩ && (t.thr ⟨1, 0⟩).pend == none) = true := by decide +kernel
/-- A granule of 65,536 is the largest. -/
theorem witness_SubTileBounds : base.guardOn hdr = true ∧ (∃ k, k ≤ 16 ∧ 65536 = 2 ^ k) ∧ (∀ k, k ≤ 16 → 131072 ≠ 2 ^ k) ∧
    leads (.part ⟨hdr, true, 10, .i 100, .s 9⟩) ((withS [(9, 16)]).updTh fun t => { t with gang := some ⟨4, 3, 0, [], none, [], false, false, none⟩ })
      (fun t => t.rs 10 == BitVec.ofNat 64 (100 * 2 ^ 32 + 48)) = true ∧
    leads (.part ⟨hdr, true, 10, .i 100, .s 9⟩) (withS [(9, 131072)]) (trapped 0x02 0 2) = true := by
  refine ⟨by decide +kernel, ⟨16, by decide, by decide⟩, by decide +kernel, by decide +kernel, by decide +kernel⟩
def grid (h ny nx rec : Nat) : State := withS [(4, BitVec.ofNat 64 (h * 2 ^ 32 + ny)), (5, BitVec.ofNat 64 nx), (6, BitVec.ofNat 64 rec)]
def tiled (w : WorkQueue) : State := { base with tasks := [{ task with wq := w }] }
/-- H and NX at 65,535 and 65,536; H * NY at 2^31 and above. A record of one segment with 3 rows, in the scratchpad. -/
def rec1 : State := (grid 2 0 1 0).updMyCore fun k => { k with sram := [(0, 1), (2, 1), (4, 3), (12, 3), (36, 3)] }
theorem witness_WorkQueueGrid : base.myTask = some task ∧
    leads (.ftileset ⟨hdr, 4, 5, 6⟩) (grid 65535 1 65535 0) (fun t => (t.task? task.id).map (·.wq) == some ⟨true, 65535, 65535, 1, none, 0, 0⟩) = true ∧
    leads (.ftileset ⟨hdr, 4, 5, 6⟩) (grid 32768 65536 1 0) (fun t => (t.stageOf t.me).isSome) = true ∧
    leads (.ftileset ⟨hdr, 4, 5, 6⟩) (grid 32768 65537 1 0) (trapped 0x02 0 1) = true ∧
    leads (.ftileset ⟨hdr, 4, 5, 6⟩) (grid 65536 1 1 0) (trapped 0x02 0 1) = true ∧ leads (.ftileset ⟨hdr, 4, 5, 6⟩) (grid 1 1 65536 0) (trapped 0x02 0 2) = true ∧
    (let s := rec1.ws 6 0xFFFF000000000
     gives (s.readRecord (s.rs 6)) (fun (h, b, _) u => recordOk h b && decide (field h 4 4 ≤ 2 ^ 31) && u.myTask == some task) &&
       leads (.ftileset ⟨hdr, 4, 5, 6⟩) s (fun t => (t.task? task.id).map (·.wq) == some ⟨true, 2, 1, 0, some [0, 3], 0, 0⟩)) = true ∧
    (let s := (rec1.ws 6 0xFFFF000000000).updMyCore fun k => { k with sram := [(0, 1), (2, 1), (4, 3), (12, 3), (36, 4)] }
     gives (s.readRecord (s.rs 6)) (fun (h, b, _) _ => !recordOk h b) && leads (.ftileset ⟨hdr, 4, 5, 6⟩) s (trapped 0x31 0 0)) = true ∧
    (base.launchOf task).isSome = true ∧ lnch.repro = false ∧
    leads (.ftile ⟨hdr, 10⟩) (tiled ⟨true, 4, 2, 3, none, 5, 0⟩)
      (fun t => (t.stageOf t.me).map (fun g => match g with | .data r => r.s | _ => []) == some [(10, BitVec.ofNat 64 (2 ^ 48 + 4 * 2 ^ 32 + 8))]) = true ∧
    leads (.ftile ⟨hdr, 10⟩) (tiled ⟨true, 4, 2, 3, none, 6, 0⟩)
      (fun t => (t.stageOf t.me).map (fun g => match g with | .data r => r.s | _ => []) == some [(10, 0xFFFFFFFFFFFFFFFF)]) = true ∧
    leads (.ftile ⟨hdr, 10⟩) base (fun t => (t.stageOf t.me).map (fun g => match g with | .data r => r.s | _ => []) == some [(10, 0xFFFFFFFFFFFFFFFF)]) = true := by
  decide +kernel
/-- Handle c1 covers tiles 4 (READY) and 5 (EMPTY). -/
def producer : State := base.updTh fun t => { t with regs := { t.regs with c := [(1, ⟨true, 1, 1, 1, 4⟩)] } }
theorem witness_CircularBuffers :
    leads (.cbset ⟨hdr, 1, .i 0xFF⟩) base (trapped 0x02 0 1) = true ∧ leads (.cbset ⟨hdr, 1, .i 0xF0⟩) base (fun t => t.rc 1 == ⟨true, 0, 0, 15, 0⟩) = true ∧
    leads (.cbset ⟨hdr, 1, .i 0x100⟩) base (trapped 0x02 0 1) = true ∧
    (base.rc 1).valid = true ∧ (base.rc 1).lenm1 = 1 ∧ (base.tile 4).size ≠ 0 ∧ (base.tile 5).size ≠ 0 ∧
    base.tileStart 0 4 = .ready ∧ base.tileStart 0 5 = .empty ∧ (base.rc 2).valid = false ∧
    leads (.cbwaitc ⟨hdr, 10, 1, 1⟩) base (fun t => t.rs 10 == 4) = true ∧ leads (.cbwaitc ⟨hdr, 10, 1, 2⟩) base passes = true ∧
    leads (.cbwaitp ⟨hdr, 10, 1, 1⟩) producer (fun t => t.rs 10 == 5) = true ∧ leads (.cbwaitp ⟨hdr, 10, 1, 1⟩) base passes = true ∧
    leads (.cbwaitc ⟨hdr, 10, 2, 1⟩) base (trapped 0x02 0 1) = true ∧ leads (.cbwaitc ⟨hdr, 10, 1, 0⟩) base (trapped 0x02 0 3) = true ∧
    leads (.cbwaitp ⟨hdr, 10, 1, 3⟩) base (trapped 0x02 0 3) = true ∧
    leads (.cbadvc ⟨hdr, 1, .i 1⟩) base (fun t => (t.tile 4).st == .empty && (t.rc 1).q == 1) = true ∧ leads (.cbadvc ⟨hdr, 1, .i 2⟩) base (trapped 0x02 0 3) = true ∧
    leads (.cbadvp ⟨hdr, 1, .i 2⟩) base (fun t => t.rc 1 == ⟨true, 0, 0, 1, 4⟩) = true ∧ leads (.cbadvp ⟨hdr, 1, .i 3⟩) base (trapped 0x02 0 3) = true ∧
    leads (.cbadvp ⟨hdr, 2, .i 1⟩) base (trapped 0x02 0 0) = true := by decide +kernel
theorem witness_ControlFrame : base.cur.fate = .go ∧ leads (.cbwaitc ⟨hdr, 10, 1, 1⟩) base (fun t => t.cur.fate == .go && t.rs 4 == base.rs 4 && t.mem == base.mem) = true := by
  decide +kernel

/-- The data that a reply brings to s registers. -/
def reply (t : State) : Option (List (SReg × W64)) := (t.stageOf t.me).bind fun g => match g with | .data r => some r.s | _ => none
def sbOf (t : State) : List (Nat × Byte) := t.myCore.sb.flatMap fun e => e.cells.map fun c => (c.pa, c.b)
/-- Core 0 with 32 entries in its store buffer. -/
def someEntry : Entry := { id := 7, thread := none, job := none, dest := none, cells := [], scope := .core, rel := false, captured := [], red := none, tag := none, sends := [], mside := false, evict := false, readers := [], jreaders := [], part := 0, shingle := none }
def fullSb (s : State) : State := s.updMyCore fun k => { k with sb := (List.range 32).map fun i => { someEntry with id := 100 + i } }

/-- The last word of the scratchpad of 4 units; a misaligned address; one past the split; an access of device memory. -/
theorem witness_LoadsAndPrefetch :
    (let s := (withS [(8, 0xFFFF00003FFF8)]).updMyCore fun k => { k with sram := [(0x3FFF8, 0x9A), (0x3FFFF, 0x80)] }
     (s.addr ⟨8, .i 0⟩).toNat = 0xFFFF000000000 + 0x3FFF8 ∧ 0x3FFF8 + 8 ≤ 65536 * (s.core 0).sp ∧ (s.core 0).sb = [] ∧ s.posted = [] ∧ s.sramPoison = [] ∧
       leads (.ld ⟨hdr, false, .core, .i64, 10, ⟨8, .i 0⟩⟩) s (fun t => t.rs 10 == 0x800000000000009A) = true ∧
       trapsAs (s.access s.agent (s.addr ⟨8, .i 1⟩) 8 .load false) 0x12 = true ∧
       leads (.ld ⟨hdr, false, .core, .i64, 10, ⟨8, .i 1⟩⟩) s (trapped 0x12 0xFFFF00003FFF9 0) = true ∧
       gives (s.access s.agent (s.addr ⟨8, .i 0xFFFFFFFF⟩) 8 .load false) (fun _ _ => true) = true ∧
       leads (.ld ⟨hdr, false, .core, .i64, 10, ⟨8, .i 0xFFFFFFFF⟩⟩) s (trapped 0x13 0xFFFF00003FFF7 0) = true) ∧
    gives (base.accessAligned base.agent (base.addr ⟨6, .i 0⟩) 8 8 .load false) (fun p s =>
      (match p with | .mem pgs => s.poison.isEmpty && paOf pgs 0x10000100 == 0x1010000100 | _ => false) && gives (s.phaseGate true) (fun _ s => s.myShingle == none &&
        s.posted.isEmpty && (s.core 0).sb.isEmpty && (s.core 0).l1.isEmpty && (s.cluster 0).bb.isEmpty)) = true ∧
    leads (.ld ⟨hdr, false, .core, .n64, 10, ⟨6, .i 0⟩⟩) base (fun t => reply t == some [(10, 0x4321)]) = true ∧
    leads (.pref ⟨hdr, .l2, ⟨6, .i 0⟩⟩) base (fun t => t.rs 6 == base.rs 6 && t.mem == base.mem) = true := by decide +kernel
theorem witness_StoreEntersBuffer :
    gives (base.accessAligned base.agent (base.addr ⟨6, .i 8⟩) 2 2 .store false) (fun p s => gives (s.phaseGate p.isMem) fun _ s => s.myShingle == none && decide ((s.core 0).sb.length < 32)) = true ∧
    leads (.st ⟨hdr, true, .device, .i16, ⟨6, .i 8⟩, 4⟩) base (fun t => sbOf t == [(0x1010000108, 0x0B), (0x1010000109, 0xFF)] && t.mem == base.mem) = true ∧
    (fullSb base).myCore.sb.length = 32 ∧ leads (.st ⟨hdr, true, .device, .i16, ⟨6, .i 8⟩, 4⟩) (fullSb base) passes = true := by decide +kernel
/-- p1 selects all lanes, p3 lanes 0 and 31, p2 none. A page of e4m3 elements at 0x80000000. -/
def vbase : State :=
  (({ base with
    parts := base.parts.map fun e => (e.1, { e.2 with desc := { e.2.desc with ptroot := 0x3000000000 } })
    mem := [(0x1100000100, 0x38), (0x1100000101, 0xC0)] ++ (cell 0x3000000000 8 0x3000001001 ++ cell 0x3000001010 8 0x300000110000001F).filter fun c => c.2 != 0
    clusters := [(0, { Cluster.reset with tlb := [⟨0, 2 ^ 31, 2 ^ 30, 0x300000110000001F⟩] })] } : State).updTh fun t =>
      { t with regs := { t.regs with p := [(1, 0xFFFFFFFF), (2, 0), (3, 0x80000001)], s := t.regs.s ++ [(10, 0x80000100)] } }).updMyCore fun k =>
        { k with sram := [(0x200, 0x11), (0x27C, 0x22)] }
theorem witness_VectorAccesses : vtyB .n32 ≠ 0 ∧ vtyFmt .n32 = 0 ∧ vbase.guard off = 0 ∧ leads (.vld ⟨off, .n32, .core, 5, ⟨8, .i 0⟩⟩) vbase (fun t => t == vbase) = true ∧
    vbase.guard ⟨3, 0, 0⟩ ≠ 0 ∧ (vbase.addr ⟨8, .i 0⟩).toNat = 0xFFFF000000000 + 0x200 ∧ 0x200 + 128 ≤ 65536 * (vbase.core 0).sp ∧ vbase.myCore.sb = [] ∧
    vbase.posted = [] ∧ vbase.sramPoison = [] ∧
    leads (.vld ⟨⟨3, 0, 0⟩, .n32, .core, 2, ⟨8, .i 0⟩⟩) vbase (fun t => lane (t.rv 2) 0 == 0x11 && lane (t.rv 2) 1 == 0x3F800000 && lane (t.rv 2) 31 == 0x22) = true ∧
    leads (.vst ⟨⟨3, 0, 0⟩, .n32, false, .rne, .core, ⟨8, .i 0⟩, 2⟩) vbase (fun t => (sbOf t).map (·.1) == [0x200, 0x201, 0x202, 0x203, 0x27C, 0x27D, 0x27E, 0x27F]) = true ∧
    vbase.actLanes ⟨0, 0, 0⟩ .e4m3 ≠ [] ∧ vbase.mode.arith = false ∧
    gives (vbase.access vbase.agent (vbase.addr ⟨10, .i 0⟩) 32 .load false) (fun p s => gives (s.typed p (s.addr ⟨10, .i 0⟩) .e4m3) fun b s => b &&
      gives (s.load p (s.addr ⟨10, .i 0⟩) 32 true 0) fun _ s => !s.mode.arith) = true ∧
    leads (.vld ⟨hdr, .e4m3, .core, 5, ⟨10, .i 0⟩⟩) vbase (fun t => (t.stageOf t.me).map (fun g => match g with | .data r => r.v.map fun e => (lane e.2 0, lane e.2 1) | _ => []) ==
      some [(0x3F800000, 0xC0000000)]) = true ∧
    gives (vbase.access vbase.agent (vbase.addr ⟨10, .i 0⟩) 32 .store false) (fun p s => gives (s.typed p (s.addr ⟨10, .i 0⟩) .e4m3) fun b s => b &&
      gives (s.phaseGate p.isMem) fun _ s => s.myShingle == none && s.myCore.sb.isEmpty) = true ∧
    leads (.vst ⟨hdr, .e4m3, false, .rne, .core, ⟨10, .i 0⟩, 2⟩) vbase (fun t => (sbOf t).take 3 == [(0x1100000100, 0x38), (0x1100000101, 0x38), (0x1100000102, 0)]) = true := by
  decide +kernel
theorem witness_ValidatedAccesses :
    gives (base.accessAligned base.agent (base.addr ⟨6, .i 0⟩) 8 8 .load true) (fun p s => gives (s.phaseGate true) fun _ s => (s.stageOf s.me).isNone && p.mside == false) = true ∧
    leads (.ldv ⟨hdr, false, true, .core, .i64, 10, ⟨6, .i 0⟩, 11⟩) base (fun t => match t.stageOf t.me with | some (.coh o none) => o.pa == 0x1010000100 | _ => false) = true ∧
    gives (base.accessAligned base.agent (base.addr ⟨6, .i 0⟩) 8 8 .both true) (fun _ s => gives (s.phaseGate true) fun _ _ => true) = true ∧
    base.openWrites base.me = false ∧
    (let s := base.updTh fun t => { t with valset := ⟨[(1, 0), (2, 5)], true⟩ }
     s.opTh.valset.entries.length ≤ 16 ∧ leads (.valchk ⟨hdr, 10⟩) s (fun t => t.rs 10 == 0x10002) = true) ∧
    (let s := base.updMyCore fun k => { k with sb := [{ someEntry with thread := some base.me, cells := [⟨0x1010000100, 0x10000100, 1, false⟩] }] }
     s.openWrites s.me = true ∧ leads (.valchk ⟨hdr, 10⟩) s passes = true) := by decide +kernel
/-- Tile 5 has 512 bytes, tile 4 is READY, tile 9 is unused; base + size at the last unit of the split. -/
theorem witness_TileInstructions : (base.tile 5).size = 2 ∧ base.tileStart 0 5 = .empty ∧ (base.tile 5).st = .empty ∧ (base.tile 9).size = 0 ∧
    leads (.tfill ⟨hdr, 5, .i 512⟩) base (fun t => t.tile 5 == ⟨2, 2, .filling, 512, 0⟩) = true ∧ leads (.tfill ⟨hdr, 5, .i 513⟩) base (trapped 0x02 0 1) = true ∧
    leads (.tfill ⟨hdr, 5, .i 0⟩) base (trapped 0x02 0 1) = true ∧ leads (.tfill ⟨hdr, 9, .i 1⟩) base (trapped 0x02 0 0) = true ∧ leads (.tfill ⟨hdr, 4, .i 1⟩) base passes = true ∧
    leads (.trel ⟨hdr, 4⟩) base (fun t => (t.tile 4).st == .empty) = true ∧ leads (.trel ⟨hdr, 5⟩) base passes = true ∧ leads (.trel ⟨hdr, 9⟩) base (trapped 0x02 0 0) = true ∧
    leads (.tdef ⟨hdr, 5, 10⟩) (withS [(10, 0x000103FF)]) (fun t => t.tile 5 == ⟨1023, 1, .empty, 0, 0⟩) = true ∧
    leads (.tdef ⟨hdr, 5, 10⟩) (withS [(10, 0x00010400)]) (trapped 0x02 0 1) = true ∧ leads (.tdef ⟨hdr, 5, 10⟩) (withS [(10, 0)]) (fun t => (t.tile 5).size == 0) = true ∧
    leads (.tdef ⟨hdr, 9, 10⟩) (withS [(10, 0x200020000)]) (fun t => t.tile 9 == ⟨0, 2, .ready, 512, 512⟩) = true ∧
    leads (.tdef ⟨hdr, 9, 10⟩) (withS [(10, 0x100020000)]) (trapped 0x02 0 1) = true ∧ leads (.tdef ⟨hdr, 4, 10⟩) (withS [(10, 0)]) (trapped 0x02 0 0) = true ∧
    leads (.tstat ⟨hdr, 10, 4⟩) base (fun t => t.rs 10 == 0x0020000200801000) = true ∧ leads (.tstat ⟨hdr, 10, 9⟩) base (fun t => t.rs 10 == 0) = true ∧
    leads (.frarm ⟨hdr, 5, .i 3⟩) base (fun t => t.myCore.land == [(3, ⟨[5], 0⟩)]) = true ∧ leads (.frarm ⟨hdr, 5, .i 4⟩) base (trapped 0x02 0 1) = true ∧
    (let s := base.updMyCore fun k => { k with land := [(3, ⟨List.replicate 16 5, 0⟩)] }
     leads (.frarm ⟨hdr, 5, .i 3⟩) s (trapped 0x02 0 0) && leads (.frarm ⟨hdr, 9, .i 0⟩) s (trapped 0x02 0 0)) = true := by decide +kernel

def after (i : Instr) (s : State) : State :=
  match exec i s with
  | .next t => t
  | _ => s
/-- `cpy.fill t5, t4, 512` submitted. -/
def copying : State := (after (.cpy ⟨hdr, .core, false, false, true, 10, .t 5, .t 4, .i 512⟩) base).updMyCore fun k => { k with sram := [(0, 0xAA), (511, 0xBB)] }
def jobOf (s : State) : CopyJob := ((s.cluster 0).copyq.head?).getD (CopyJob.blank s .core false false 0)
/-- LEN at 2^24 and above, a tile that is too small for it, a tile that is not READY. -/
theorem witness_CopySubmission :
    base.submitReady { CopyJob.blank base .core false false 0 with src := .tile 4, dst := .tile 5, fill := true, len := 512 } = true ∧ base.th.jobs.length < 16 ∧
    (jobOf copying).len = 512 ∧ (jobOf copying).st = .queued ∧ (copying.tile 4).st = .draining ∧ copying.tile 5 = ⟨2, 2, .filling, 512, 0⟩ ∧ copying.rs 10 = 1 ∧
    leads (.cpy ⟨hdr, .core, false, false, false, 10, .s 6, .s 7, .i 0x1000000⟩) base (fun t => (jobOf t).len == 2 ^ 24) = true ∧
    leads (.cpy ⟨hdr, .core, false, false, false, 10, .s 6, .s 7, .i 0x1000001⟩) base (trapped 0x02 0 3) = true ∧
    leads (.cpy ⟨hdr, .core, false, false, false, 10, .s 6, .s 7, .i 0⟩) base (trapped 0x02 0 3) = true ∧
    base.submitReady { CopyJob.blank base .core false false 0 with src := .tile 5, dst := .addr 0, len := 1 } = false ∧
    leads (.cpy ⟨hdr, .core, false, false, false, 10, .s 6, .t 5, .i 1⟩) base passes = true ∧
    gives (base.accessAligned base.agent (base.rs 6) 64 64 .load false) (fun p s => gives (s.load p (s.rs 6) 64 true 0) fun d _ => d.1.length == 64 && d.2) = true ∧
    leads (.cjob ⟨hdr, .core, false, false, 10, 6⟩) base (fun t => match t.stageOf t.me with | some (.cjob d 0 _ none) => d.length == 64 | _ => false) = true ∧
    (∀ j ∈ base.opTh.jobs, j.ident ≠ base.rs 5) ∧ leads (.cwait ⟨hdr, 10, 5⟩) base (fun t => t.rs 10 == 5) = true ∧
    (copying.copyLook (copying.rs 10)).isSome = true ∧ ((copying.copyLook (copying.rs 10)).bind (·.done)) = none ∧ leads (.cwait ⟨hdr, 11, 10⟩) copying passes = true ∧
    (let s := copying.updTh fun t => { t with jobs := t.jobs.map fun j => { j with done := some 0x20001 } }
     ((s.copyLook (s.rs 10)).bind (·.done)) = some 0x20001 ∧ leads (.cpoll ⟨hdr, 11, 10⟩) s (fun t => t.rs 11 == 0x20001 && t.th.jobs.isEmpty) = true ∧
       leads (.cwait ⟨hdr, 11, 10⟩) s passes = true ∧ leads (.cwait ⟨hdr, 11, 10⟩) { s with cycle := 1 } (fun t => t.rs 11 == 0x20001) = true) := by decide +kernel
/-- The job running, its one row done, a multicast to two cores whose tiles 5 are EMPTY. -/
def running (n : Nat) : State := copying.updCluster 0 fun k => { k with copyq := k.copyq.map fun j => { j with st := .running n } }
def casting : State :=
  ((base.updCore 1 fun k => { k with tiles := [(5, ⟨2, 2, .empty, 0, 0⟩)], tiles0 := [(5, ⟨2, 2, .empty, 0, 0⟩)] })).updCluster 0 fun k =>
    { k with copyq := [{ CopyJob.blank base .core false false 0 with id := 3, kind := 2, fill := true, src := .addr 0x10000100, dst := .tile 5, len := 256, rxmask := 3 }] }
theorem witness_CopyUnitMoves :
    (((copying.cluster 0).copyq.find? fun j => j.st == .queued).map (·.acq)) = some false ∧
    leads (.copyJobStart ⟨0, by decide⟩) copying (fun t => (jobOf t).st == .running 0) = true ∧
    (let s := (running 0).updMyCore fun k => { k with tiles0 := k.tiles }
     let j := jobOf s
     (s.cluster 0).copyq.find? (fun x => x.id = j.id) = some j ∧ 0 < j.rows ∧ j.code = 0 ∧ j.kind = 1 ∧ j.src = .tile 4 ∧ j.dst = .tile 5 ∧ s.beforeDone 0 j.before = true ∧
       s.jobGate j.owner = true ∧ (s.tile 5).st = .filling ∧ s.tileStart 0 5 = .filling ∧ (s.tile 5).arrived + j.len ≤ (s.tile 5).expect ∧ s.sramPoison = [] ∧
       leads (.copyJobRow ⟨0, by decide⟩ j.id) s (fun t => memByte t.myCore.sram 512 == 0xAA && memByte t.myCore.sram 1023 == 0xBB && (t.tile 5).st == .ready && (t.tile 4).st == .empty) = true) ∧
    (let j := jobOf casting
     (casting.cluster 0).copyq.find? (fun x => x.id = 3) = some j ∧ j.kind = 2 ∧ j.fill = true ∧ j.claimed = false ∧ j.code = 0 ∧ j.dst = .tile 5 ∧
       casting.receivers j = [(0, 5), (1, 5)] ∧ (∀ r ∈ casting.receivers j, casting.tileStart r.1 r.2 = .empty) ∧
       leads (.multicastClaim ⟨0, by decide⟩ 3) casting (fun t => (jobOf t).claiming && (t.core 1) == casting.core 1 && ((t.landClaims.core 1).tiles.getD 5 .reset) == ⟨2, 2, .filling, 256, 0⟩ && (jobOf t.landClaims).claimed) = true ∧
       (let s := casting.updCore 1 fun k => { k with tiles := [(5, ⟨2, 2, .ready, 0, 0⟩)], tiles0 := [(5, ⟨2, 2, .ready, 0, 0⟩)] }
        (∃ r ∈ s.receivers (jobOf s), s.tileStart r.1 r.2 ≠ .empty) ∧ leads (.multicastClaim ⟨0, by decide⟩ 3) s (fun t => t == s) = true ∧
          ((s.claimJob 0 { jobOf s with claiming := true }).core 0).tiles = (s.core 0).tiles) ∧
       (let s := casting.updCore 1 fun k => { k with tdefs := [5] }
        5 ∈ (s.core 1).tdefs ∧ ((s.claimJob 0 { j with claiming := true }).core 1).tiles = (s.core 1).tiles ∧
          (((s.claimJob 0 { j with claiming := true }).core 0).tiles.getD 5 .reset).st = .filling)) ∧
    (let s := (after (.cpy ⟨hdr, .core, false, false, false, 10, .s 6, .s 7, .i 16⟩) base).updCluster 0 fun k => { k with copyq := k.copyq.map fun j => { j with st := .running 1 } }
     let j := jobOf s
     j.rows ≤ 1 ∧ j.code = 0 ∧ j.src = .addr 0x40000100 ∧ s.jobReleased 0 j.id j.rel j.scope = true ∧
       leads (.copyJobComplete ⟨0, by decide⟩ j.id) s (fun t => (t.cluster 0).copyq.isEmpty && (t.th.jobs.map (·.done)) == [some 0x1]) = true) := by decide +kernel
/-- RATIO at 16, WAYS at 8; a register of another partition; words 0 and 2. -/
def pinned : State := { base with retain := [(3, ⟨1, 16, 0, false, 0, 0, [], []⟩)] }
theorem witness_RetentionRegisters : (pinned.retainOf 3).part ≠ pinned.myPart ∧ leads (.rset ⟨hdr, 10, 6, 7⟩) (pinned.ws 10 0x3001081) (trapped 0x11 0 0) = true ∧
    (base.retainOf 2).part = base.myPart ∧ base.expert = false ∧ leads (.rset ⟨hdr, 10, 6, 7⟩) (base.ws 10 0x2000F81) (trapped 0x11 0 0) = true ∧
    (0x2001080 : Nat) = 2 * 2 ^ 24 + 16 * 2 ^ 8 + 8 * 2 ^ 4 ∧ leads (.rset ⟨hdr, 10, 6, 7⟩) (base.ws 10 0x2001080) (fun t => (t.stageOf t.me).isSome) = true ∧
    (let s := (base.ws 10 0x2001081).ws 11 0x10000180
     gives (s.onePage (s.rs 6)) (fun a u => gives (u.onePage (s.rs 11 - 1)) fun b _ => a.1 == b.1 && a.2 % 128 == 0) &&
       leads (.rset ⟨hdr, 10, 6, 11⟩) s (fun t => t.retainSteps == [⟨2, 16, 8, true, 0x1010000100 / 128, 0x1010000180 / 128, true⟩] && (t.landRetain.retainOf 2).valid)) = true ∧
    (let s := (base.ws 10 0x2001081).ws 11 0x40000080
     gives (s.onePage (s.rs 6)) (fun a u => gives (u.onePage (s.rs 11 - 1)) fun b _ => a.1 != b.1) && leads (.rset ⟨hdr, 10, 6, 11⟩) s (trapped 0x12 0x10000100 0)) = true ∧
    leads (.unpin ⟨hdr, .i 16⟩) base (trapped 0x02 0 1) = true ∧ leads (.unpin ⟨hdr, .i 3⟩) pinned (trapped 0x11 0 0) = true ∧
    leads (.unpin ⟨hdr, .i 15⟩) base (fun t => t.retainSteps == [⟨15, 16, 0, false, 0, 0, false⟩]) = true ∧ leads (.rrd ⟨hdr, 0, 10, .i 15⟩) base (fun t => reply t == some [(10, 0x1000)]) = true ∧
    leads (.rrd ⟨hdr, 2, 10, .i 3⟩) pinned (trapped 0x11 0 0) = true ∧
    (let s := { base with l2 := [(4, [⟨4, some 2⟩, ⟨260, none⟩])], retainSteps := [⟨2, 16, 8, true, 2, 3, true⟩] }
     s.landRetain.l2.getD 4 [] = [⟨260, none⟩, ⟨4, none⟩] ∧ s.landRetain.retainSteps = []) := by decide +kernel

/-- Lanes of v2 (1.0 twice, then zero), v3 and v4; lane 31 of v4 is a signalling NaN. -/
def vst0 : State := base.updTh fun t => { t with regs := { t.regs with v := [(2, 0x3F8000003F800000), (3, 5), (4, 0x7F800001 * 2 ^ 992 + 0x80000000)] } }
def v0 (t : State) (n : VReg) : W32 := lane (t.rv n) 0
theorem witness_VectorIntegers : IntTy.vec .i8 = true ∧ gives (vst0.vsrc (.i 0xFFFFFF80)) (fun b _ => b.at 8 127 == 0x80) = true ∧
    leads (.vaddInt ⟨hdr, .i8, true, 10, 3, .i 0xFFFFFF80⟩) vst0 (fun t => t.rv 10 == BitVec.ofNat 1024 (0x80 * (2 ^ 1024 / 255) - 0x80 + 0x85)) = true ∧
    leads (.vmulh ⟨hdr, .n32, false, 10, 2, .v 2⟩) vst0 (fun t => v0 t 10 == 0x0FC04000) = true ∧
    leads (.vshl ⟨hdr, .i32, true, 10, 3, .i 40⟩) vst0 (fun t => v0 t 10 == 0x7FFFFFFF) = true ∧
    leads (.vrotl ⟨hdr, .n16, false, 10, 3, .i 15⟩) vst0 (fun t => v0 t 10 == 0x8002) = true := by decide +kernel
theorem witness_VectorFloats : gives (vst0.vsrc (.i 0x3F800000)) (fun b _ => b.at 32 31 == 0x3F800000) = true ∧
    leads (.vfma ⟨hdr, .f32, .rne, false, 10, 2, .i 0x40000000, 2⟩) vst0 (fun t => v0 t 10 == 0x40400000) = true ∧
    leads (.vneg ⟨hdr, .f32, 10, 4⟩) vst0 (fun t => v0 t 10 == 0 && lane (t.rv 10) 31 == 0x7FC00000 && t.th.sticky == 1) = true := by decide +kernel
/-- The least subnormal, the largest number and a NaN of e4m3; infinity of f16. -/
theorem witness_RoundingKeepsValues : fE4m3 ∈ [fF32, fF16, fBf16, fE4m3, fE5m2, fA56] ∧ fF16 ∈ [fF32, fF16, fBf16, fE4m3, fE5m2, fA56] ∧
    (fdec fE4m3 1).isNan = false ∧ fround fE4m3 .rup false false (fdec fE4m3 1) = (1, 0) ∧ fround fE4m3 .rdn false true (fdec fE4m3 0x7E) = (0x7E, 0) ∧
    (fdec fE4m3 0xFF).isNan = true ∧ 0xFF < 2 ^ fE4m3.width ∧ fround fE4m3 .rne false false (fdec fE4m3 0xFF) = (fE4m3.qnan, 0) ∧
    fround fF16 .rtz true false (fdec fF16 0xFC00) = (0xFC00, 0) := by decide +kernel
theorem witness_VectorCompares : gives (vst0.vsrc (.v 4)) (fun b _ => b.at 32 31 == 0x7F800001) = true ∧ vst0.mode.arith = false ∧ vst0.guard hdr ≠ 0 ∧
    (Rel.lt, Instr.vcmplt ⟨hdr, .f32, 3, 4, .v 2⟩) ∈ [(Rel.eq, Instr.vcmpeq ⟨hdr, .f32, 3, 4, .v 2⟩), (.ne, .vcmpne ⟨hdr, .f32, 3, 4, .v 2⟩), (.lt, .vcmplt ⟨hdr, .f32, 3, 4, .v 2⟩)] ∧
    leads (.vcmplt ⟨hdr, .f32, 3, 4, .v 2⟩) vst0 (fun t => t.rp 3 == 3 && t.th.sticky == 1) = true ∧
    leads (.vcmplt ⟨hdr, .f32, 3, 4, .v 2⟩) (arithOn vst0) (trapped 0x40 0 4) = true ∧ (laneRel .lt .f32 0x7F800001 0).2 ≠ 0 ∧
    leads (.vcmpeq ⟨hdr, .f32, 3, 4, .i 0⟩) vst0 (fun t => t.rp 3 == 0x7FFFFFFF) = true ∧ (fdec fF32 0x7FC00000).isNan = true ∧
    (fdec fF32 0x80000000).isNan = false ∧ ((0x80000000 : W32) &&& 0x7FFFFFFF) = 0 := by decide +kernel
/-- PART at 3 for an element of 8 bits. -/
theorem witness_VectorConversions : vcvtPair .e4m3 .f32 = true ∧ (3 : Fin 4).val < 32 / cvtWidth .e4m3 ∧ vcvtPair .f32 .f16 = true ∧ (1 : Fin 4).val < 32 / cvtWidth .f16 ∧
    vst0.guard hdr ≠ 0 ∧ vst0.guard off = 0 ∧ leads (.vcvt ⟨hdr, .e4m3, .f32, .rne, false, 3, 3, 2⟩) vst0 (fun t => elem 8 (t.rv 3) 96 == 0x38 && elem 8 (t.rv 3) 0 == 5) = true ∧
    leads (.vcvt ⟨hdr, .f32, .f16, .rne, false, 0, 10, 2⟩) vst0 (fun t => v0 t 10 == 0 && lane (t.rv 10) 1 == 0x3FF00000) = true ∧
    (arithOn vst0).mode.arith = true ∧ (convert .f32 .f16 .rne false false 0x47FFE000).2 = 6 ∧
    (let s := arithOn (base.updTh fun t => { t with regs := { t.regs with v := [(2, 0x47FFE000)] } })
     leads (.vcvt ⟨hdr, .f16, .f32, .rne, false, 0, 10, 2⟩) s (fun t => t.cur.fate == .trapped)) = true := by decide +kernel
theorem witness_VectorMoves : gives (vst0.vsrc (.v 3)) (fun b _ => b.at 32 0 == 5) = true ∧ gives (vst0.src false (.i 0xFFFFFFFF)) (fun a _ => a.setWidth 32 == 0xFFFFFFFF#32) = true ∧
    (base.siZ (.i 31)).toNat < 32 ∧ leads (.vslide ⟨hdr, 10, 2, 3, .i 31⟩) vst0 (fun t => v0 t 10 == 0 && lane (t.rv 10) 1 == 5) = true ∧
    leads (.vslide ⟨hdr, 10, 2, 3, .i 32⟩) vst0 (trapped 0x02 0 3) = true ∧ leads (.vgetl ⟨hdr, 10, 4, .i 31⟩) vst0 (fun t => t.rs 10 == 0x7F800001) = true ∧
    leads (.vgetl ⟨hdr, 10, 4, .i 32⟩) vst0 (trapped 0x02 0 2) = true ∧ leads (.vsetl ⟨hdr, 2, .s 5, .i 31⟩) vst0 (fun t => lane (t.rv 2) 31 == 7 && v0 t 2 == 0x3F800000) = true ∧
    leads (.vsetl ⟨hdr, 2, .s 5, .i 32⟩) vst0 (trapped 0x02 0 2) = true ∧ leads (.vperm ⟨hdr, 10, 3, 4⟩) vst0 (fun t => v0 t 10 == 5 && lane (t.rv 10) 30 == 5) = true := by
  decide +kernel
/-- A gang of cores 0 and 1: member 1 reduces after member 0 has captured its operand. -/
def ganged (i : Nat) (cap : Option (VWord × VWord × W64 × W32)) : State :=
  (({ vst0 with cur := { vst0.cur with core := i } } : State).updThr ⟨0, 0⟩ fun t => { t with gang := some ⟨2, 0, 0, [], cap, [], false, false, none⟩ }).updThr ⟨1, 0⟩ fun t =>
    { t with regs := { t.regs with v := [(2, 0x40000000)] }, gang := some ⟨2, 1, 0, [], none, [], false, false, none⟩ }
theorem witness_Reductions :
    (RedOp.sum, Instr.vrsum ⟨hdr, .f32 .rne, 10, 2⟩) ∈ [(RedOp.sum, Instr.vrsum ⟨hdr, .f32 .rne, 10, 2⟩), (.max, .vrmax ⟨hdr, .f32 .rne, 10, 2⟩), (.min, .vrmin ⟨hdr, .f32 .rne, 10, 2⟩)] ∧
    vst0.mode.arith = false ∧ leads (.vrsum ⟨hdr, .f32 .rne, 10, 2⟩) vst0 (fun t => t.rs 10 == 0x40000000) = true ∧
    leads (.vrmin ⟨hdr, .i32 false, 10, 4⟩) vst0 (fun t => t.rs 10 == 0xFFFFFFFF80000000) = true ∧
    leads (.vrsum ⟨hdr, .f32 .rne, 10, 4⟩) (arithOn vst0) (fun t => t.cur.fate == .trapped) = true ∧
    vst0.th.gang = none ∧ leads (.vgsum ⟨hdr, .f32 .rne, 10, 2⟩) vst0 (fun t => t.rs 10 == 0x40000000) = true ∧
    (let s := ganged 1 (some (vst0.rv 2, 0, 0, 0xFFFFFFFF))
     (s.th.gang.map fun g => (g.idx, g.size)) = some (1, 2) ∧ 1 ≤ s.cur.core ∧ (capOf (s.thr ⟨0, 0⟩)).isSome = true ∧
       leads (.vgsum ⟨hdr, .f32 .rne, 10, 2⟩) s (fun t => rdS (t.thr ⟨0, 0⟩).regs 10 == 0x40800000 && t.rs 10 == 0x40800000) = true) ∧
    (let s := ganged 0 none
     (s.th.gang.map fun g => (g.idx, g.size)) = some (0, 2) ∧ capOf (s.thr ⟨1, 0⟩) = none ∧
       leads (.vgsum ⟨hdr, .f32 .rne, 10, 2⟩) s (fun t => (capOf t.th).isSome && t.rs 10 == 0) = true) ∧
    leads (.vgperm ⟨hdr, 10, 3, 4⟩) vst0 (fun t => v0 t 10 == 5) = true ∧ leads (.vgbcast ⟨hdr, 10, 3, .i 0⟩) vst0 (fun t => v0 t 10 == 5) = true ∧
    leads (.vgbcast ⟨hdr, 10, 3, .i 1⟩) vst0 (trapped 0x02 0 2) = true := by decide +kernel
theorem witness_SpecialFunctions : gives (vst0.vsrc (.i 0x40000000)) (fun b _ => b.at 32 0 == 0x40000000) = true ∧
    leads (.vdiv ⟨hdr, .rne, 10, 2, .i 0x40000000⟩) vst0 (fun t => v0 t 10 == 0x3F000000) = true ∧
    leads (.vsqrt ⟨hdr, .rne, 10, 4⟩) vst0 (fun t => v0 t 10 == 0x80000000 && lane (t.rv 10) 31 == 0x7FC00000) = true := by decide +kernel
theorem witness_FlagsAndCodeTable :
    (let s := vst0.updTh fun t => { t with sticky := 5 }
     leads (.vflgclr ⟨hdr, 10⟩) s (fun t => t.rs 10 == 5 && t.th.sticky == 0)) = true ∧
    (let s := base.updMyCore fun k => { k with sram := [(0x200, 0x10), (0x207, 0x20), (0x20F, 0x30)] }
     gives (s.accessAligned s.agent (s.addr ⟨8, .i 0⟩) 16 16 .load false) (fun p u => gives (u.load p (s.rs 8) 16 true 0) fun d _ => !d.2) &&
       leads (.ctload ⟨hdr, ⟨8, .i 0⟩⟩) s (fun t => t.myCore.ctabNew == some (0x2000000000000010, 0x3000000000000000) && t.myCore.ctab == 0)) = true ∧
    (let s := vst0.updMyCore fun k => { k with ctab := 0xFF0001FF7F02 }
     leads (.vctdec ⟨hdr, false, 0, 10, 3⟩) s (fun t => v0 t 10 == 0xFFFFFFFF) = true ∧ leads (.vctdec ⟨hdr, true, 0, 10, 3⟩) s (fun t => v0 t 10 == 0xBF800000) = true ∧
       s.mode.arith = false ∧ leads (.vctenc ⟨hdr, 7, 10, 2⟩) s (fun t => elem 4 (t.rv 10) 224 == 3 && elem 4 (t.rv 10) 223 == 0) = true) := by decide +kernel

/-! ### Turns, gangs, supervisor registers, records -/

def stepsTo (s : State) (p : State → Bool) : Bool :=
  match step s with
  | .next t => p t
  | _ => false
/-- `ready` with a change of the thread whose turn it is; the other slots' turns are not looked at. -/
def rt (f : Thread → Thread) : State := ready.updThr ⟨0, 0⟩ f
def rtAt (s : State) : State := s.at ⟨0, 0⟩
def pendOf (g : Stage) : Thread → Thread := fun t => { t with pend := some ⟨0, 0, t.regs, 0, .reset, 0, 0, g⟩ }
def issueAs (i : Instr) (j : Option Instr) : Issue :=
  ⟨i, j, (encode i).getD 0, (j.bind encode).getD 0, 0x08000000, 0x08000001, 0x08000002, 0x08000002, false, false⟩
def waitsIn (p : Poll) : Bool := match p with | .wait _ => true | _ => false
def goesIn (p : Poll) (f : State → Bool) : Bool := match p with | .go x => f x | _ => false
def usedIn (p : Poll) : Bool := match p with | .used _ => true | _ => false
def gang2 (i : Nat) (q : List FollowBundle) : Gang := ⟨2, i, 0, q, none, [], false, false, none⟩
def nopBundle (c : Nat) : FollowBundle := ⟨0x08000000, 0x08000001, .nop ⟨hdr⟩, none, (encode (.nop ⟨hdr⟩)).getD 0, 0, 0x08000001, 0x08000001, false, c⟩
theorem witness_StepRunsTheDecodedInstruction_turns :
    (ready.agenda = [] ∧ ready.cores.find? (fun e => decide (ready.nextCore ≤ e.1)) = some (0, ready.core 0) ∧ slotAt ready.cycle (ready.core 0).cycle0 = 0 ∧
      ready.halting 0 = false) ∧
    (let s := rt fun t => { t with status := .empty }
     (rtAt s).th.status ≠ .running ∧ stepsTo s (fun t => t == { rtAt s with nextCore := 1 }) = true) ∧
    (let s := rt fun t => { t with wake := some 1 }
     (rtAt s).th.wake = some s.cycle ∧ stepsTo s (fun t => t == { rtAt s with nextCore := 1 }) = true) ∧
    (let s := rt fun t => { t with skip := 2 }
     (rtAt s).th.skip ≠ 0 ∧ stepsTo s (fun t => (t.thr ⟨0, 0⟩).skip == 1) = true) ∧
    (let s := rt (pendOf (.data .none))
     waitsIn (rtAt s).pollThread = true ∧ stepsTo s (fun t => t == { rtAt s with nextCore := 1 }) = true) ∧
    (let s := rt (pendOf (.gang 2))
     usedIn (rtAt s).pollThread = true ∧ stepsTo s (fun t => (t.thr ⟨0, 0⟩).status != .running) = true) ∧
    (let s := rt (pendOf (.fence 0 .core))
     goesIn (rtAt s).pollThread (fun y => y.th.gang == none && y.th.pend == none) = true ∧ stepsTo s (fun t => (t.thr ⟨0, 0⟩).pc == 0x1) = true) ∧
    (let s := (rt fun t => { t with gang := some (gang2 0 []) }).updThr ⟨1, 0⟩ fun t => { t with status := .running, gang := some (gang2 1 []) }
     goesIn (rtAt s).pollThread (fun y => (y.th.gang.map (·.idx)) == some 0) = true ∧
       stepsTo s (fun t => (t.thr ⟨0, 0⟩).pc == 0x1 && ((t.thr ⟨1, 0⟩).gang.map fun g => g.queue.length) == some 1) = true) ∧
    (let s := rt fun t => { t with gang := some (gang2 1 [nopBundle 0]) }
     goesIn (rtAt s).pollThread (fun y => (y.th.gang.map (·.idx)) == some 1) = true ∧ stepsTo s (fun t => (t.thr ⟨0, 0⟩).pc == 0x08000001) = true ∧
       dueBundle s.cycle (gang2 1 [nopBundle 0]) = some (nopBundle 0) ∧ dueBundle s.cycle (gang2 1 [nopBundle 1]) = none) := by decide +kernel
/-- A passed bundle of a follower; slot 7 takes a record. -/
theorem witness_StepRunsTheDecodedInstruction_slots :
    (let f := { nopBundle 0 with i1 := .cbwaitc ⟨hdr, 10, 1, 2⟩ }
     let g := gang2 1 [f]
     let y := base.updTh fun t => { t with gang := some g }
     dueBundle 1 g = some f ∧ ((y.updTh fun t => { t with gang := t.gang.map fun g => { g with queue := g.queue.filter (· != f) } }).issue f.issue).cur.fate = .passed ∧
       ({ y with cycle := 1 }.followTurn g).th.gang = some g) ∧
    (let s := { ready with cycle := 8 }.updCore 0 fun k => { k with queue := [⟨0x40, 0x08000002, 0, 2, 0, false, 0, 0, none, 0, 0⟩] }
     slotAt s.cycle (s.core 0).cycle0 = 7 ∧ ((s.at ⟨0, 7⟩).takeRecord 0).th.status = .running ∧
       stepsTo s (fun t => (t.core 0).bank0.isSome && (t.core 0).queue.isEmpty) = true) := by decide +kernel
/-- One bundle: trapped, passed, gone on with, of a follower, of a leader. A pair: the first traps or passes, the second, both go. -/
theorem witness_StepRunsTheDecodedInstruction_bundles :
    (let x := issueAs (.add ⟨hdr, .n8, false, 10, 4, .i 200⟩) none
     (base.enterBundle x).trapBad x = none ∧ x.i2 = none ∧ (base.issue x).th.pc = 0x08000002 ∧ (base.issue x).rs 10 = 0xD3 ∧
       ((base.updTh fun t => { t with gang := some (gang2 1 []) }).issue { x with follow := true }).th.gang = some ⟨2, 1, 1, [], none, [], false, false, none⟩ ∧
       (((base.updTh fun t => { t with gang := some (gang2 0 []) }).updThr ⟨1, 0⟩ fun t => { t with gang := some (gang2 1 []) }).issue x).th.gang = some ⟨2, 0, 1, [], none, [], false, false, none⟩) ∧
    (let x := issueAs (.ins ⟨hdr, 10, 5, 0, .i 0x4000⟩) none
     ((base.enterBundle x).trapBad x).isNone = true ∧ trapped 0x02 0 3 (base.issue x) = true) ∧
    (let x := issueAs (.cbwaitc ⟨hdr, 10, 1, 2⟩) none
     passes (base.issue x) = true ∧ (base.issue x).th = base.th) ∧
    (let x := issueAs (.add ⟨hdr, .n8, false, 10, 4, .i 200⟩) (some (.vsetl ⟨hdr, 2, .s 10, .i 31⟩))
     rdS ((vst0.ws 10 9).issue x).th.regs 10 = 0xD3 ∧ lane (rdV ((vst0.ws 10 9).issue x).th.regs 2) 31 = 9) ∧
    (let x := issueAs (.ins ⟨hdr, 10, 5, 0, .i 0x4000⟩) (some (.vsetl ⟨hdr, 2, .s 10, .i 31⟩))
     trapped 0x02 0 3 (vst0.issue x) = true ∧ rdV (vst0.issue x).th.regs 2 = vst0.rv 2) ∧
    (let x := issueAs (.add ⟨hdr, .n8, false, 10, 4, .i 200⟩) (some (.vsetl ⟨hdr, 2, .s 10, .i 32⟩))
     trapped 0x02 0 2 (vst0.issue x) = true ∧ rdS (vst0.issue x).th.regs 10 = 0) := by decide +kernel
/-- `out` of a fetched line, and a leader whose follower is not ready. -/
theorem witness_StepRunsTheDecodedInstruction_leader :
    (let y := rtAt (rt fun t => { t with gang := some (gang2 0 []) })
     let x := issueOf 0 (bundleOf (lineOfWord 0x1700FFFFFFFF000000000000) 0) (.nop ⟨hdr⟩) none
     (match ({ y with cur := { y.cur with ipc := y.th.pc } } : State).fetch with
       | .line img u => gives (({ u with cur := x.cur1 u.cur.core u.cur.slot } : State).checkSig x.ipc) fun _ v =>
           img == lineOfWord 0x1700FFFFFFFF000000000000 && !(v.gangReady (gang2 0 []) x).1 && (v.th.gang.map (·.idx)) == some 0
       | _ => false) = true ∧ (y.fetchTurn.thr ⟨0, 0⟩).pc = 0) := by decide +kernel

theorem witness_ScalarFrame_const :
    guardOf (.ld ⟨off, false, .core, .n64, 10, ⟨6, .i 0⟩⟩) = some off ∧ base.guardOn off = false ∧
    leads (.ld ⟨off, false, .core, .n64, 10, ⟨6, .i 0⟩⟩) base (fun t => t == base) = true := by decide +kernel

/-- Bank 1 in use; each register of the bank. -/
def sup2 : State := sup.updMyCore fun k => { k with bank1 := some { recd with cause := 0x42 } }
theorem witness_StatusRegisters_banks : sup2.cur.slot = 7 ∧ sup2.myCore.bank1 = some { recd with cause := 0x42 } ∧
    leads (.swr ⟨hdr, 5, 0x15⟩) sup2 (fun t => t.myCore.bank1 == some { recd with cause := 7 } && t.myCore.bank0 == some recd) = true ∧
    leads (.swr ⟨hdr, 10, 0x15⟩) (sup.ws 10 256) (fun t => t.cur.fate == .trapped) = true ∧ leads (.swr ⟨hdr, 10, 0x15⟩) (sup.ws 10 255) (fun t => (t.myCore.bank0.map (·.cause)) == some 0xFF) = true ∧
    leads (.swr ⟨hdr, 5, 0x17⟩) sup (fun t => t.myCore.bank0 == some { recd with addr := 7 }) = true ∧ leads (.swr ⟨hdr, 5, 0x18⟩) sup (fun t => t.myCore.bank0 == some { recd with info := 7 }) = true ∧
    leads (.swr ⟨hdr, 5, 0x19⟩) sup (fun t => t.th.region.pc == 7) = true ∧ leads (.swr ⟨hdr, 5, 0x19⟩) base (trapped 0x11 0 0) = true ∧
    leads (.swr ⟨hdr, 5, 0x1B⟩) base (fun t => t.myCore.ctabhi == 7 && t.myCore.ctabW == (none, some 7)) = true := by decide +kernel

/-- Failing targets, with the register deciding; a follower's `ret`. -/
theorem witness_ControlTransfers_fail :
    trapsAs (marked.checkTarget (offTarget marked.cur.ipc 5) true) 0x05 = true ∧ leads (.brz ⟨hdr, 0, 5⟩) marked (trapped 0x05 0x08000005 0) = true ∧
    leads (.brz ⟨hdr, 5, 5⟩) marked (fun t => t == marked) = true ∧ leads (.brnz ⟨hdr, 5, 5⟩) marked (trapped 0x05 0x08000005 0) = true ∧
    leads (.brdec ⟨hdr, 5, 5⟩) marked (fun t => trapped 0x05 0x08000005 0 t && t.rs 5 == 7) = true ∧ leads (.brdec ⟨hdr, 10, 5⟩) (marked.ws 10 1) (fun t => t.rs 10 == 0 && t.cur.fate == .go) = true ∧
    (let s := marked.ws 63 7
     trapsAs (s.checkTarget (s.rs 63) true) 0x05 = true ∧ leads (.ret ⟨hdr⟩) s (trapped 0x05 7 0) = true) ∧
    (let s : State := { marked with cur := { marked.cur with follow := true } }
     leads (.ret ⟨hdr⟩) s (fun t => t == s) = true ∧ leads (.call ⟨hdr, 5⟩) s (fun t => t.rs 63 == 0x08000008 && t.cur.fate == .go) = true) := by decide +kernel

/-- Core 1 waits in `gang.4`; core 0 asks for two. -/
theorem witness_GangFormation_mixed :
    (let s := base.updThr ⟨1, 0⟩ fun t => { t with pend := some ⟨0, 0, regs, 0, .reset, 0, 0, .gang 4⟩ }
     1 ∈ s.blockOf 0 ∧ gangWait (s.thr ⟨1, 0⟩) = some 4 ∧ 1 ∈ gangCores 0 0 2 ∧ leads (.gang ⟨hdr, .g2⟩) s (fun t => t.cur.fate == .trapped) = true) ∧
    lnch.kernel.gang = 8 ∧ leads (.gang ⟨hdr, .g8⟩) { base with launches := [{ lnch with kernel := { kern with gang := 4 } }] } (trapped 0xA0 0 1) = true := by decide +kernel

/-- A grid over a record of segments of 3, 0 and 5 rows, two rows to a sub-tile: sub-tiles 3 rows 2 to 2, 5 rows 7 to 7. -/
def segs (j st : Nat) : WorkQueue := ⟨true, 2, 1, 0, some [0, 3, 3, 8], j, st⟩
def tileWord (t : State) : Option (List (SReg × W64)) := (t.stageOf t.me).map fun g => match g with | .data r => r.s | _ => []
/-- Task 1 of the launch in reproducible mode; task 2 runs at the same PHASE with a grid of 6 sub-tiles, 2 handed out, 1 stolen. -/
def stealer : State :=
  { base with
    launches := [{ lnch with repro := true }]
    tasks := [{ task with wq := ⟨true, 4, 2, 3, none, 6, 0⟩ }, { task with id := ⟨0, 1, 1⟩, phase := 2, wq := ⟨true, 4, 2, 3, none, 0, 0⟩ },
      { task with id := ⟨0, 1, 2⟩, wq := ⟨true, 4, 2, 3, none, 2, 1⟩ }] }
theorem witness_WorkQueueGrid_records :
    ((3 - 0 + 2 - 1) / 2 : Nat) = 2 ∧ leads (.ftile ⟨hdr, 10⟩) (tiled (segs 1 0)) (fun t => tileWord t == some [(10, 0x100000002)]) = true ∧
    leads (.ftile ⟨hdr, 10⟩) (tiled (segs 2 0)) (fun t => tileWord t == some [(10, 0x200000003)]) = true ∧
    leads (.ftile ⟨hdr, 10⟩) (tiled (segs 4 0)) (fun t => tileWord t == some [(10, 0x100000007)] && (t.task? task.id).map (·.wq) == some (segs 5 0)) = true ∧
    leads (.ftile ⟨hdr, 10⟩) (tiled (segs 5 0)) (fun t => tileWord t == some [(10, 0xFFFFFFFFFFFFFFFF)]) = true ∧
    (base.launchOf task).isSome = true ∧ base.th.tileDue = none ∧
    (stealer.myTask.map (·.id)) = some task.id ∧ (segs 5 0).total ≤ (segs 5 0).next + (segs 5 0).stolen ∧
    leads (.ftile ⟨hdr, 10⟩) stealer (fun t => tileWord t == some [(10, BitVec.ofNat 64 (4 * 2 ^ 32 + 8))] && ((t.task? ⟨0, 1, 2⟩).map (·.wq)) == some ⟨true, 4, 2, 3, none, 2, 2⟩ &&
      ((t.task? task.id).map fun v => assocGet v.stealing (0, 0)) == some (some 2)) = true ∧
    leads (.ftile ⟨hdr, 10⟩) { stealer with tasks := stealer.tasks.take 2 } (fun t => tileWord t == some [(10, 0xFFFFFFFFFFFFFFFF)]) = true ∧
    (let s := base.updTh fun t => { t with tileDue := some 5 }
     s.th.tileDue = some 5 ∧ leads (.ftile ⟨hdr, 10⟩) s (fun t => tileWord t == some [(10, 5)] && t.th.tileDue == none) = true) ∧
    leads (.ftileset ⟨hdr, 4, 5, 6⟩) (grid 65535 32769 1 0) (trapped 0x02 0 1) = true := by decide +kernel

/-! ### Exact values -/

theorem fdec_one : fdec fF32 0x3F800000 = .fin false 8388608 (-23) := by decide +kernel
theorem fdec_two : fdec fF32 0x40000000 = .fin false 8388608 (-22) := by decide +kernel
theorem fdec_least : fdec fF32 0x1 = .fin false 1 (-149) := by decide +kernel
theorem fdec_448 : fdec fE4m3 0x7E = .fin false 14 5 := by decide +kernel
theorem fdec_416 : fdec fE4m3 0x7D = .fin false 13 5 := by decide +kernel
/-- 1 < 2, both finite; 448 is the largest e4m3 value: 448 lies in the range, 449 does not and overflows under `.rup` alone. -/
theorem witness_VectorFloats_exact : finite (fdec fF32 0x3F800000) ∧ finite (fdec fF32 0x40000000) ∧ rat (fdec fF32 0x3F800000) < rat (fdec fF32 0x40000000) ∧
    |rat (.fin true 448 0)| ≤ largest fE4m3 ∧ largest fE4m3 < |rat (.fin false 449 0)| ∧ Overflows fE4m3 .rup (rat (.fin false 449 0)) ∧
    ¬ Overflows fE4m3 .rtz (rat (.fin false 449 0)) ∧ fround fE4m3 .rup false true (.fin false 449 0) = (0x7F, 6) ∧
    fround fE4m3 .rtz false true (.fin false 449 0) = (0x7E, 4) ∧ (fdec fF32 0x7FC00001).isNan = true ∧
    felem .add fF32 .rne false false 0x7FC00001 0x3F800000 0 = (0x7FC00000, 0) := by
  have e : fE4m3.maxBits = 0x7E := by decide
  have l : largest fE4m3 = 448 := by rw [largest, e, fdec_448]; norm_num [rat]
  have st : lastStep fE4m3 = 32 := by rw [lastStep, e, fdec_448, fdec_416]; norm_num [rat]
  refine ⟨⟨_, _, _, fdec_one⟩, ⟨_, _, _, fdec_two⟩, ?_, ?_, ?_, ?_, ?_, by decide +kernel, by decide +kernel, by decide +kernel, by decide +kernel⟩
  · rw [fdec_one, fdec_two]; norm_num [rat]
  · rw [l]; norm_num [rat]
  · rw [l]; norm_num [rat]
  · simp only [Overflows, l]; norm_num [rat]
  · simp only [Overflows, l, st]; norm_num [rat]
/-- The least subnormal: its reciprocal is past the largest number. -/
theorem witness_SpecialFunctions_rcp : (1 : Nat) < 2 ^ 32 ∧ finite (fdec fF32 1) ∧ rat (fdec fF32 1) ≠ 0 ∧ |rat (fdec fF32 1)| ≤ 2 ^ (-128 : ℤ) ∧
    fnRcp 1 = (0x7F800000, 6) := by
  refine ⟨by decide, ⟨_, _, _, fdec_least⟩, ?_, ?_, by decide +kernel⟩
  · rw [fdec_least]; norm_num [rat]
  · rw [fdec_least, show rat (.fin false 1 (-149)) = (2 : ℚ) ^ (-149 : ℤ) by norm_num [rat], abs_of_pos (by positivity)]
    exact zpow_le_zpow_right₀ (by norm_num) (by norm_num)
/-- D = p0; under MODE.ARITH with no signalling NaN in an active lane. -/
theorem witness_VectorCompares_flags :
    leads (.vcmplt ⟨hdr, .f32, 0, 4, .v 2⟩) vst0 (fun t => t.th.regs == vst0.th.regs && t.th.sticky == 1) = true ∧
    (∀ j, j < 32 → (vst0.guard hdr).getLsbD j = true → (laneRel .lt .f32 (lane ((arithOn vst0).rv 2) j).toNat (lane (vst0.rv 3) j).toNat).2 = 0) ∧
    leads (.vcmplt ⟨hdr, .f32, 3, 2, .v 3⟩) (arithOn vst0) (fun t => t.cur.fate == .go) = true ∧
    vst0.guard off = 0 ∧ leads (.vcmplt ⟨off, .f32, 3, 4, .v 2⟩) vst0 (fun t => t.th.regs == vst0.th.regs) = true := by decide +kernel
/-- The code table loaded in a cycle stands from the next one on; a word that `swr` gave in that cycle stays. -/
theorem witness_FlagsAndCodeTable_landing :
    (let s := base.updMyCore fun k => { k with ctabNew := some (5, 6), ctabW := (none, some 9) }
     (s.endCycle.vtTick.cores.get? 0).isSome = true ∧ (s.nextCycle.core 0).ctab = 5 ∧ (s.nextCycle.core 0).ctabhi = 9) := by decide +kernel

/-- Operand names o0, o1 stand for slots 0, 1, accumulator name z0 for accumulator 0. -/
def mtx : State :=
  { base with
    tasks := [{ task with onames := [(0, 0), (1, 1)], znames := [(0, 0)] }]
    clusters := base.clusters.map fun e => (e.1, { e.2 with oslots := [(0, []), (1, [])], accs := [(0, .reset)] }) }
def share (n : Nat) : State := { base with parts := base.parts.map fun e => (e.1, { e.2 with desc := { e.2.desc with mshare := n } }) }
/-- Names that end at o31 and z7; a share of 16 leaves room for 4 slots and 1 accumulator. -/
theorem witness_MatrixResources : base.myTask = some task ∧ (base.part base.myPart).desc.mshare ≠ 0 ∧
    leads (.oclaim ⟨hdr, 10, 28, .i 4⟩) base (fun t => reply t == some [(10, 1)] && ((t.task? task.id).map (·.onames)) == some [(28, 0), (29, 1), (30, 2), (31, 3)]) = true ∧
    leads (.oclaim ⟨hdr, 10, 28, .i 5⟩) base (trapped 0x02 0 2) = true ∧ leads (.oclaim ⟨hdr, 10, 28, .i 0⟩) base (trapped 0x02 0 2) = true ∧
    leads (.oclaim ⟨hdr, 10, 0, .i 2⟩) mtx (trapped 0x02 0 1) = true ∧
    leads (.oclaim ⟨hdr, 10, 0, .i 4⟩) (share 16) (fun t => reply t == some [(10, 1)]) = true ∧ leads (.oclaim ⟨hdr, 10, 0, .i 5⟩) (share 16) (fun t => reply t == some [(10, 0)]) = true ∧
    leads (.zclaim ⟨hdr, 10, 7, .i 1⟩) base (fun t => reply t == some [(10, 1)] && ((t.task? task.id).map (·.znames)) == some [(7, 0)]) = true ∧
    leads (.zclaim ⟨hdr, 10, 7, .i 2⟩) base (trapped 0x02 0 2) = true ∧ leads (.zclaim ⟨hdr, 10, 0, .i 2⟩) (share 16) (fun t => reply t == some [(10, 0)]) = true ∧
    leads (.orelease ⟨hdr, 0, .i 2⟩) mtx (fun t => ((t.task? task.id).map (·.onames)) == some []) = true ∧
    leads (.zrelease ⟨hdr, 0, .i 1⟩) mtx (fun t => ((t.task? task.id).map (·.znames)) == some []) = true ∧
    ((share 0).part (share 0).myPart).desc.mshare = 0 ∧ leads (.orelease ⟨hdr, 0, .i 2⟩) (share 0) (trapped 0x11 0 0) = true := by decide +kernel
def lastJob (t : State) : Option MtxOp := ((t.cluster 0).mtxq.getLast?).map (·.op)
/-- Two bound maps of one record, the second of another generation. -/
def map1 : SegMap := ⟨true, 5, 0x1010000100, 0, [⟨0, 0, 2⟩, ⟨0, 0, 2⟩, ⟨1, 2, 4⟩]⟩
def mapped (m0 m1 : SegMap) (s : State) : State := s.updTh fun t => { t with sm0 := m0, sm1 := m1 }
theorem witness_MatrixSubmission : mtx.onames.get? 0 = some 0 ∧ mtx.onames.get? 1 = some 1 ∧ mtx.znames.get? 0 = some 0 ∧ mtx.znames.get? 1 = none ∧ mtx.th.mjobs.length < 16 ∧
    (mtx.cluster 0).mtxq = [] ∧ mtx.subMode 0 = mfmtInt .bf16 ∧ mtx.subMode 0 ≠ mfmtInt .i8 ∧
    leads (.oload ⟨hdr, .core, false, 10, 0, .s 6, 11⟩) (mtx.ws 11 0x20000020080) (fun t => lastJob t == some (.oload 0 (.addr 0x10000100) 0x200 0 128 128 false)) = true ∧
    leads (.mma ⟨hdr, false, .bf16, 0, false, 10, 0, 0, 1⟩) mtx (fun t => lastJob t == some (.mma 0 0 1 false .bf16 0 false 0 0 none) && t.rs 10 == 0x4000000001) = true ∧
    leads (.mma ⟨hdr, false, .i8, 0, false, 10, 0, 0, 1⟩) mtx (trapped 0x02 0 1) = true ∧ leads (.mma ⟨hdr, false, .bf16, 0, false, 10, 1, 0, 1⟩) mtx (trapped 0x02 0 1) = true ∧
    leads (.rmma ⟨hdr, false, false, .bf16, 0, false, 10, 0, 0, 1⟩) mtx (trapped 0x02 0 4) = true ∧
    leads (.rmma ⟨hdr, false, false, .bf16, 0, false, 10, 0, 0, 1⟩) (mapped map1 { map1 with gen := 6 } mtx) (trapped 0x31 0 0) = true ∧
    leads (.rmma ⟨hdr, false, false, .bf16, 0, false, 10, 0, 0, 1⟩) (mapped map1 map1 mtx)
      (fun t => lastJob t == some (.mma 0 0 1 false .bf16 0 false 0 0 (some (false, map1, map1)))) = true ∧
    leads (.zclear ⟨hdr, true, 10, 0⟩) mtx (fun t => lastJob t == some (.zclear 0 true) && t.subMode 0) = true ∧
    zctlOk 0x7F0000 true false = true ∧ leads (.zstore ⟨hdr, .core, false, false, 10, .s 6, 0, 11⟩) (mtx.ws 11 0x7F0000)
      (fun t => lastJob t == some (.zstore 0 (.addr 0x10000100) 0 0 127 false 0 0 false false)) = true ∧
    zctlOk 0x7F000100 false false = true ∧ leads (.zload ⟨hdr, .core, false, 10, 0, .s 6, 11⟩) (mtx.ws 11 0x7F000100)
      (fun t => lastJob t == some (.zload 0 (.addr 0x10000100) 0 127 0 true 0 false)) = true ∧
    leads (.mcheck ⟨hdr, true, 10, 0⟩) mtx (fun t => lastJob t == some (.mcheck 0 false)) = true := by decide +kernel
def jobDone (traps : Bool) (st : Option W64) : State := mtx.updTh fun t => { t with mjobs := [⟨7, 1, 9, st, 0, traps⟩] }
theorem witness_MatrixStatus : mtx.mtxLook (mtx.rs 5) = none ∧ leads (.mpoll ⟨hdr, 10, 5⟩) mtx (fun t => t.rs 10 == 5) = true ∧
    (jobDone false (some 0x1000001)).mtxLook ((jobDone false (some 0x1000001)).rs 5) = some ⟨7, 1, 9, some 0x1000001, 0, false⟩ ∧
    leads (.mwait ⟨hdr, 10, 5⟩) (jobDone false (some 0x1000001)) passes = true ∧ leads (.mwait ⟨hdr, 10, 5⟩) { jobDone false (some 0x1000001) with cycle := 1 } (fun t => t.rs 10 == 0x1000001 && t.th.sticky == 1 && t.th.mjobs.isEmpty) = true ∧
    (6 : W64) &&& 0xFF = 6 ∧ leads (.mwait ⟨hdr, 10, 5⟩) { jobDone true (some 6) with cycle := 1 } (fun t => t.cur.fate == .trapped) = true ∧
    leads (.mpoll ⟨hdr, 10, 5⟩) (jobDone true none) (fun t => t.rs 10 &&& 0xFF == 0) = true ∧ leads (.mwait ⟨hdr, 10, 5⟩) (jobDone true none) passes = true ∧
    leads (.mstat ⟨hdr, 10⟩) mtx (fun t => t.rs 10 == 0x2200) = true := by decide +kernel
/-- One int8 job at row 0; one queued; one `zclear` whose rows are done; a tripped die. -/
def job1 (op : MtxOp) (st : JobSt) : MtxJob := { MtxJob.blank mtx op .core 0 with id := 3, st := st }
def engine (op : MtxOp) (st : JobSt) : State := mtx.updCluster 0 fun k => { k with mtxq := [job1 op st] }
theorem witness_MatrixEngine :
    (let s := engine (.mma 0 0 1 false .i8 0 false 0 0 none) (.running 0)
     (s.cluster 0).mtxq.find? (fun j => j.id = 3) = some (job1 (.mma 0 0 1 false .i8 0 false 0 0 none) (.running 0)) ∧ (job1 (.zclear 0 false) .queued).code = 0 ∧
       s.beforeDone 0 [] = true ∧ s.jobGate (job1 (.zclear 0 false) .queued).owner = true) ∧
    (let s : State := { mtx with mgmt := { mtx.mgmt with trip := [0] } }
     s.mgmt.trip.contains 0 = true ∧ leads (.matrixJobStart ⟨31, by decide⟩) s (fun t => t == s) = true) ∧
    (let s := engine (.zclear 0 false) .queued
     s.mgmt.trip.contains 0 = false ∧ (s.cluster 0).mtxq = [job1 (.zclear 0 false) .queued] ∧ (job1 (.zclear 0 false) .queued).isFree = false ∧
       (MtxOp.zclear 0 false).acquires = false ∧ (s.cluster 0).winTotal < (s.cluster 0).budget ∧
       leads (.matrixJobStart ⟨0, by decide⟩) s (fun t => ((t.cluster 0).mtxq.map (·.st)) == [.running 0]) = true) ∧
    (let s := (engine (.zclear 0 false) (.running 1)).updTh fun t => { t with mjobs := [⟨7, 1, 3, none, 0, false⟩] }
     leads (.matrixJobComplete ⟨0, by decide⟩ 3) s (fun t => (t.cluster 0).mtxq.isEmpty && (t.th.mjobs.map (·.done)) == [some 1])) = true := by decide +kernel

/-! ### Operands of matrix jobs, choice among jobs -/

def ctl (v : W64) (s : State) : State := s.ws 11 v
/-- Tiles 4 (READY, 512 bytes) and 5 (EMPTY, 512 bytes); tile 9 is unused. -/
theorem witness_MatrixSubmission_positions :
    leads (.oload ⟨hdr, .core, false, 10, 5, .s 6, 11⟩) (ctl 0x20000020080 mtx) (trapped 0x02 0 1) = true ∧
    (¬ SideUsed mtx (.t 9)) ∧ leads (.oload ⟨hdr, .core, false, 10, 0, .t 9, 11⟩) (ctl 0x1000004001 mtx) (trapped 0x02 0 2) = true ∧
    SideUsed mtx (.t 4) ∧ leads (.oload ⟨hdr, .core, false, 10, 0, .s 6, 11⟩) (ctl 0x2001 mtx) (trapped 0x02 0 3) = true ∧
    leads (.oload ⟨hdr, .core, false, 10, 0, .t 4, 11⟩) (ctl 0x1000001002 mtx) (fun t => t.cur.fate == .trapped) = true ∧
    leads (.mma ⟨hdr, false, .bf16, 0, false, 10, 0, 5, 1⟩) mtx (trapped 0x02 0 2) = true ∧ leads (.mma ⟨hdr, false, .bf16, 0, false, 10, 0, 0, 5⟩) mtx (trapped 0x02 0 3) = true ∧
    leads (.rmma ⟨hdr, false, false, .bf16, 0, false, 10, 1, 0, 1⟩) (mapped map1 map1 mtx) (trapped 0x02 0 1) = true ∧
    leads (.rmma ⟨hdr, false, false, .bf16, 0, false, 10, 0, 5, 1⟩) (mapped map1 map1 mtx) (trapped 0x02 0 2) = true ∧
    leads (.rmma ⟨hdr, false, false, .bf16, 0, false, 10, 0, 0, 5⟩) (mapped map1 map1 mtx) (trapped 0x02 0 3) = true ∧
    leads (.rmma ⟨hdr, false, false, .i8, 0, false, 10, 0, 0, 1⟩) (mapped map1 map1 mtx) (trapped 0x02 0 1) = true ∧
    leads (.zclear ⟨hdr, true, 10, 1⟩) mtx (trapped 0x02 0 1) = true ∧ leads (.mcheck ⟨hdr, true, 10, 1⟩) mtx (trapped 0x02 0 1) = true ∧
    leads (.zstore ⟨hdr, .core, false, false, 10, .t 9, 0, 11⟩) (ctl 0x7F0000 mtx) (trapped 0x02 0 1) = true ∧
    leads (.zstore ⟨hdr, .core, false, false, 10, .s 6, 1, 11⟩) (ctl 0x7F0000 mtx) (trapped 0x02 0 2) = true ∧
    leads (.zload ⟨hdr, .core, false, 10, 1, .s 6, 11⟩) (ctl 0x7F000100 mtx) (trapped 0x02 0 1) = true ∧
    leads (.zload ⟨hdr, .core, false, 10, 0, .t 9, 11⟩) (ctl 0x7F000100 mtx) (trapped 0x02 0 2) = true := by
  refine ⟨by decide +kernel, fun h => absurd (h 9 rfl) (by decide +kernel), by decide +kernel, fun r h => ?_, by decide +kernel⟩
  cases h; decide +kernel
theorem witness_MatrixSubmission_stores :
    zctlOk 0x80000000 true false = false ∧ leads (.zstore ⟨hdr, .core, false, false, 10, .s 6, 0, 11⟩) (ctl 0x80000000 mtx) (trapped 0x02 0 3) = true ∧
    leads (.zstore ⟨hdr, .core, false, true, 10, .s 6, 0, 11⟩) (ctl 0x7F0000 mtx) (trapped 0x02 0 4) = true ∧
    mtx.tileIs 0 4 .empty = false ∧ leads (.zstore ⟨hdr, .core, false, true, 10, .t 4, 0, 11⟩) (ctl 10 mtx) passes = true ∧
    mtx.tileIs 0 5 .empty = true ∧ leads (.zstore ⟨hdr, .core, false, true, 10, .t 5, 0, 11⟩) (ctl 10 mtx) (fun t => t.tile 5 == ⟨2, 2, .filling, 512, 0⟩) = true ∧
    zctlOk 0x80000000 false false = false ∧ leads (.zload ⟨hdr, .core, false, 10, 0, .s 6, 11⟩) (ctl 0x80000000 mtx) (trapped 0x02 0 3) = true ∧
    leads (.zload ⟨hdr, .core, false, 10, 0, .t 5, 11⟩) (ctl 10 mtx) passes = true ∧
    leads (.zload ⟨hdr, .core, false, 10, 0, .t 4, 11⟩) (ctl 10 mtx) (fun t => (t.tile 4).st == .draining && !t.subMode 0) = true := by decide +kernel
/-- The engine full, the thread's 16 jobs pending; tiles in other states than a form needs; a fill of tile 5. -/
def mtxFull : State := mtx.updCluster 0 fun k => { k with mtxq := (List.range 64).map fun i => { MtxJob.blank mtx (.zclear 0 false) .core 0 with id := 100 + i } }
theorem witness_MatrixSubmission_waits :
    MatrixFull mtxFull ∧ MatrixFull (mtx.updTh fun t => { t with mjobs := (List.range 16).map fun i => ⟨BitVec.ofNat 64 i, 0, i, none, 0, false⟩ }) ∧ MatrixRoom mtx ∧
    leads (.zclear ⟨hdr, true, 10, 0⟩) mtxFull passes = true ∧ leads (.mcheck ⟨hdr, true, 10, 0⟩) mtxFull passes = true ∧
    leads (.mma ⟨hdr, false, .bf16, 0, false, 10, 0, 0, 1⟩) mtxFull passes = true ∧
    leads (.rmma ⟨hdr, false, false, .bf16, 0, false, 10, 0, 0, 1⟩) (mapped map1 map1 mtxFull) passes = true ∧
    leads (.oload ⟨hdr, .core, false, 10, 0, .s 6, 11⟩) (ctl 0x20000020080 mtxFull) passes = true ∧
    leads (.zstore ⟨hdr, .core, false, false, 10, .s 6, 0, 11⟩) (ctl 0x7F0000 mtxFull) passes = true ∧
    leads (.zload ⟨hdr, .core, false, 10, 0, .s 6, 11⟩) (ctl 0x7F000100 mtxFull) passes = true ∧
    (mtx.tileIs 0 5 .ready = false ∧ leads (.oload ⟨hdr, .core, false, 10, 0, .t 5, 11⟩) (ctl 0x1000004001 mtx) passes = true) ∧
    (mtx.tileIs 0 4 .ready = true ∧ leads (.oload ⟨hdr, .core, false, 10, 0, .t 4, 11⟩) (ctl 0x1000004001 mtx) (fun t => (t.tile 4).st == .draining) = true) := by
  refine ⟨Or.inl (by decide +kernel), Or.inr ⟨by decide +kernel, ?_⟩, ⟨by decide +kernel, by decide +kernel⟩, by decide +kernel⟩
  decide +kernel
/-- Tasks 0 and 1 with energies 5 and 3 and one job each: task 1's job starts first. A boundary at cycle 4096. -/
def twoJobs : State :=
  { (engine (.zclear 0 false) .queued) with
    tasks := [{ task with onames := [(0, 0), (1, 1)], znames := [(0, 0)], ae := 5 }, { task with id := ⟨0, 1, 1⟩, ae := 3 }] }.updCluster 0 fun k =>
      { k with mtxq := [job1 (.zclear 0 false) .queued, { job1 (.zclear 0 false) .queued with id := 4, owner := { (job1 (.zclear 0 false) .queued).owner with task := ⟨0, 1, 1⟩ } }] }
theorem witness_MatrixEngine_choice :
    ((twoJobs.cluster 0).mtxq.map fun j => ((twoJobs.task? j.owner.task).map fun t => t.ae).getD 0) = [5, 3] ∧ (twoJobs.cluster 0).winTotal < (twoJobs.cluster 0).budget ∧
    ((twoJobs.cluster 0).mtxq.map fun j => (j.isFree, j.st)) = [(false, .queued), (false, .queued)] ∧
    leads (.matrixJobStart ⟨0, by decide⟩) twoJobs (fun t => ((t.cluster 0).mtxq.map (·.st)) == [.queued, .running 0]) = true ∧
    (let s := { twoJobs with cycle := 4096 }
     s.cycle % 2 ^ (s.cluster 0).winlog = 0 ∧ (s.cluster 0).winAt ≠ s.cycle ∧
       leads (.arbiterWindowBoundary ⟨0, by decide⟩) s (fun t => (t.cluster 0).winAt == 4096 && (t.tasks.map (·.ae)) == [2, 1]) = true ∧
       (s.tasks.map fun k => k.engine) = [some 0, some 0]) ∧
    (let s := { twoJobs with cycle := 4095 }
     s.cycle % 2 ^ (s.cluster 0).winlog ≠ 0 ∧ leads (.arbiterWindowBoundary ⟨0, by decide⟩) s (fun t => t == s) = true) := by decide +kernel

/-- A shape record of 2 segments, rows 0 to 1 and 2 to 3, generation 5, at 0x10000100. -/
def recMem : List Host.Cell := [(0x1010000100, 2), (0x1010000102, 1), (0x1010000104, 4), (0x1010000108, 5), (0x101000010C, 2), (0x1010000124, 2), (0x1010000128, 4)]
def shaped : State := { base with mem := recMem ++ base.mem.drop 2 }
def snap1 : Snap := ⟨[], (List.range 32).map fun i => memByte recMem (0x1010000100 + i), [0, 2, 4], 0x10000100, 0x1010000100, 1⟩
/-- Rows 1 to 3 of the record in map 0, bound with ORIGIN 1 and COUNT 3. -/
def bound : State := mapped ⟨true, 5, 0x1010000100, 1, [⟨0, 0, 2⟩, ⟨1, 2, 4⟩, ⟨1, 2, 4⟩]⟩ .reset vst0
theorem witness_RaggedMaps : Memory.wf shaped.mem = true ∧ (shaped.rs 6).toNat < 0xFFFF000000000 ∧ (shaped.rs 6).toNat % 64 = 0 ∧
    gives (shaped.snapTake (shaped.rs 6) .device 1) (fun sn s => sn.bounds == [0, 2, 4] && leads (.rbind ⟨hdr, false, .device, 10, 6, .i 1, .s 9⟩) shaped
      fun t => t.stageOf t.me == some (.rbind sn 0x10000100 false .device 1 2 10) && s.rs 9 == 2) = true ∧
    leads (.rbind ⟨hdr, false, .device, 10, 8, .i 1, .s 9⟩) shaped (trapped 0x11 0xFFFF000000200 0) = true ∧
    leads (.rbind ⟨hdr, false, .device, 10, 6, .i 1, .s 9⟩) (shaped.ws 6 0x10000120) (trapped 0x13 0x10000120 0) = true ∧
    recordOk snap1.header snap1.bounds = true ∧ 1 ≤ (3 : W64).toNat ∧ (1 : W64).toNat + (3 : W64).toNat ≤ field snap1.header 4 4 ∧
    gives (shaped.bindMap snap1 false 1 3 10) (fun r _ => r.map == some (false, ⟨true, 5, 0x1010000100, 1, [⟨0, 0, 2⟩, ⟨1, 2, 4⟩, ⟨1, 2, 4⟩]⟩) && r.s == [(10, 0x200000005)]) = true ∧
    bound.guardOn hdr = true ∧ bound.th.sm1.valid = false ∧ leads (.rrow ⟨hdr, true, false, 10, .i 0⟩) bound (trapped 0x02 0 4) = true ∧
    leads (.rrow ⟨hdr, false, false, 10, .i 3⟩) bound (fun t => t.rs 10 == 0xFFFFFFFFFFFFFFFF) = true ∧
    leads (.rrow ⟨hdr, false, true, 10, .i 2⟩) bound (fun t => t.rs 10 == 0x8000000100000004) = true ∧
    leads (.rvseg ⟨hdr, false, 10, .i 0⟩) bound (fun t => v0 t 10 == 0 && lane (t.rv 10) 2 == 1 && lane (t.rv 10) 3 == 0xFFFFFFFF) = true ∧
    bound.guard hdr ≠ 0 ∧ leads (.rpseg ⟨hdr, false, 3, .i 1⟩) bound (fun t => t.rp 3 == 3) = true := by decide +kernel
/-- Row 3 is past the map; row 127 is the last a form may name; lanes 0 and 1 of `rvld` lie in the scratchpad. -/
def sized (n : Nat) : State := mapped ⟨true, 5, 0x1010000100, 0, (List.range n).map fun i => ⟨i / 2, i / 2 * 2, i / 2 * 2 + 2⟩⟩ .reset
  ((vst0.updMyCore fun k => { k with sram := [(0x200, 9), (0x204, 8)] }).updTh fun t => { t with regs := { t.regs with p := [(1, 0xFFFFFFFF), (2, 0), (3, 3), (4, 7)] } })
theorem witness_RaggedForms :
    leads (.rvld ⟨hdr, false, false, .core, 10, 8, 9, .i 3⟩) bound (trapped 0x02 0 3) = true ∧
    (let s := (sized 128).ws 9 4
     s.myCore.sb = [] ∧ s.posted = [] ∧ s.sramPoison = [] ∧ (s.rs 8 + 1 * s.rs 9).toNat = 0xFFFF000000000 + 0x204 ∧ 0 + 0 < s.th.sm0.rows.length ∧
       leads (.rvld ⟨⟨3, 0, 0⟩, false, true, .core, 10, 8, 9, .i 0⟩) s (fun t => v0 t 10 == 9 && lane (t.rv 10) 1 == 8 && lane (t.rv 10) 2 == 0) = true ∧
       leads (.rvld ⟨⟨3, 0, 0⟩, false, false, .core, 10, 8, 9, .i 127⟩) s (fun t => v0 t 10 == 9 && lane (t.rv 10) 1 == 0) = true ∧
       leads (.rvld ⟨⟨4, 0, 0⟩, false, true, .core, 10, 8, 9, .i 0⟩) s (trapped 0x30 0xFFFF000000208 0x10002) = true) ∧
    leads (.rvsum ⟨hdr, false, .i32 false, 10, 2, .i 128, .s 0⟩) bound (trapped 0x02 0 2) = true ∧
    (let s := sized 4
     (∀ j, j < 32 → ((0xF : W32).getLsbD j = true ↔ (s.guard hdr).getLsbD j = true ∧ 0 + j < s.th.sm0.rows.length)) ∧
       leads (.rvsum ⟨hdr, false, .f32 .rne, 10, 2, .i 0, .s 0⟩) s (fun t => v0 t 10 == 0x40000000 && lane (t.rv 10) 1 == 0x40000000 && lane (t.rv 10) 2 == 0) = true ∧
       (∀ j, j < 32 → ((0x7 : W32).getLsbD j = true ↔ (s.guard hdr).getLsbD j = true ∧ 1 + j < s.th.sm0.rows.length)) ∧ s.th.sm0.isFirst 1 = false ∧
       leads (.rvmax ⟨hdr, false, .i32 false, 10, 3, .i 1, .s 5⟩) s (fun t => v0 t 10 == 7 && lane (t.rv 10) 1 == 0) = true) ∧
    (let s := sized 2
     (∀ j, j < 32 → ((0x3 : W32).getLsbD j = true ↔ (s.guard hdr).getLsbD j = true ∧ 0 + j < s.th.sm0.rows.length)) ∧ s.th.sm0.isFirst 0 = true ∧ s.th.sm0.isLast 1 = true ∧
       leads (.rvnorm ⟨hdr, false, true, .rne, 10, 2, .i 0⟩) s (fun t => v0 t 10 == 0x3F000000 && lane (t.rv 10) 1 == 0x3F000000) = true ∧
       leads (.rvnorm ⟨hdr, false, true, .rne, 10, 2, .i 1⟩) s (trapped 0x30 0 0) = true) := by decide +kernel

def sbLast (t : State) (p : Entry → Bool) : Bool := (t.myCore.sb.getLast?.map p).getD false
/-- s7 lies in a memory-side page. Guarded off, off its natural alignment, a plain page for a reduction, bit 48 for `dsignal`. -/
theorem witness_AtomicsIssue : base.guardOn hdr = true ∧
    (AOp.add, Instr.aadd ⟨hdr, .rlx, .device, .i64, 10, ⟨6, .i 0⟩, 5⟩) ∈ [(AOp.add, Instr.aadd ⟨hdr, .rlx, .device, .i64, 10, ⟨6, .i 0⟩, 5⟩)] ∧
    gives (base.access base.agent (base.addr ⟨6, .i 0⟩) 8 .both true) (fun _ s => gives (s.phaseGate true) fun _ u => u.myCore.sb.isEmpty) = true ∧
    leads (.aadd ⟨hdr, .rlx, .device, .i64, 10, ⟨6, .i 0⟩, 5⟩) base (fun t => match t.stageOf t.me with | some (.coh o none) => o.pa == 0x1010000100 && o.acq == none | _ => false) = true ∧
    leads (.acas ⟨hdr, .acqrel, .device, .i64, 10, ⟨6, .i 0⟩, 5⟩) base (fun t => sbLast t (fun e => e.rel && e.cells.isEmpty) &&
      (match t.stageOf t.me with | some (.coh o (some _)) => o.acq == some .device | _ => false)) = true ∧
    gives (base.access base.agent (base.addr ⟨6, .i 4⟩) 8 .both true) (fun _ _ => true) = true ∧ leads (.aadd ⟨hdr, .rlx, .device, .i64, 10, ⟨6, .i 4⟩, 5⟩) base (trapped 0x13 0x10000104 0) = true ∧
    gives (base.access base.agent (base.addr ⟨6, .i 0⟩) 4 .both true) (fun _ _ => true) = true ∧ leads (.afadd ⟨hdr, .rlx, .device, 10, ⟨6, .i 0⟩, 5⟩) base (fun t => (t.stageOf t.me).isSome) = true ∧
    leads (.casv ⟨hdr, .rlx, .device, .i64, 10, 6, 5, 9⟩) base (fun t => (t.stageOf t.me).isSome) = true ∧
    gives (base.access base.agent (base.rs 6) 16 .store true) (fun _ s => decide ((s.rs 5).toNat < 2 ^ 48)) = true ∧
    leads (.dsignal ⟨hdr, true, 6, 5⟩) base (fun t => sbLast t (fun e => e.rel && e.scope == .system)) = true ∧
    leads (.dsignal ⟨hdr, true, 6, 10⟩) (base.ws 10 0x1000000000000) (trapped 0x02 0 2) = true ∧ leads (.dsignal ⟨hdr, true, 6, 10⟩) (base.ws 10 0xFFFFFFFFFFFF) (fun t => (t.stageOf t.me).isSome) = true ∧
    gives (base.access base.agent (base.addr ⟨7, .i 0⟩) 8 .both true) (fun p s => p.mside && gives (s.phaseGate true) fun _ _ => true) = true ∧
    leads (.mradd ⟨hdr, false, .device, .i64, ⟨7, .i 0⟩, 5⟩) base (fun t => t.th.esn == 2 && sbLast t (fun e => e.red == some (.add, .i64, 7) && e.tag == some ((0, 1, 0), 1))) = true ∧
    leads (.mradd ⟨hdr, false, .device, .i64, ⟨6, .i 0⟩, 5⟩) base (trapped 0x11 0x10000100 16) = true ∧
    leads (.mradd ⟨hdr, false, .device, .i64, ⟨7, .i 4⟩, 5⟩) base (trapped 0x13 0x40000104 0) = true ∧
    gives (base.access base.agent (base.addr ⟨7, .i 0⟩) 4 .both true) (fun p _ => p.mside) = true ∧ leads (.mrfadd ⟨hdr, false, .device, ⟨7, .i 0⟩, 5⟩) base (fun t => t.th.esn == 2) = true ∧
    base.guardOn off = false ∧ leads (.mrmax ⟨off, false, .device, .i64, ⟨7, .i 0⟩, 5⟩) base (fun t => t == base) = true := by decide +kernel
/-- A word at 0x1010000100 of value 0x4321 and an operation that waits for it. -/
def coh (k : CohKind) (ty : IntTy) : State :=
  base.updTh fun t => { t with pend := some ⟨0, 0, t.regs, 0, .reset, 0, 0, .coh ⟨k, ty, 0x10000100, 0x1010000100, false, 10, none, false⟩ none⟩ }
def word (t : State) : Nat := ofBytes (memBytes t.mem 0x1010000100 8)
def line0 : Nat := 0x1010000100 / 128
theorem witness_PointOfCoherence :
    (coh (.atomic .add 0 7) .i64).stageOf ⟨0, 0⟩ = some (.coh ⟨.atomic .add 0 7, .i64, 0x10000100, 0x1010000100, false, 10, none, false⟩ none) ∧
    0x1010000100 % 16 = 0 ∧ 0x1010000100 + 16 ≤ 0x9FFFF00000 ∧ base.shingleFor ⟨0, 0⟩ = none ∧ base.poison = [] ∧ base.lineClear ⟨0, 0⟩ line0 = true ∧
    base.effect ⟨0, 0⟩ (.line line0) = none ∧
    leads (.coherencePointOperation ⟨0, 0⟩) (coh (.atomic .add 0 7) .i64) (fun t => word t == 0x4328 && t.rs 10 == 0x4321 && t.version line0 false == 1 && t.th.esn == 2 && t.th.pend == none) = true ∧
    leads (.coherencePointOperation ⟨0, 0⟩) (coh (.atomic .min 0 0xFFFFFFFFFFFFFFFF) .i64) (fun t => word t == 0xFFFFFFFFFFFFFFFF) = true ∧
    leads (.coherencePointOperation ⟨0, 0⟩) (coh (.atomic .min 0 0xFFFFFFFFFFFFFFFF) .n64) (fun t => word t == 0x4321 && t.version line0 false == 1) = true ∧
    leads (.coherencePointOperation ⟨0, 0⟩) (coh (.atomic .cas 0x4320 9) .i64) (fun t => t.mem == base.mem && t.version line0 false == 0 && t.th.esn == 2) = true ∧
    leads (.coherencePointOperation ⟨0, 0⟩) (coh (.ldv true 11) .i64) (fun t => t.rs 10 == 0x4321 && t.th.valset.entries == [(2 * line0, 0)] && t.th.esn == 1) = true ∧
    leads (.coherencePointOperation ⟨0, 0⟩) (coh (.stcv 0 9) .i64) (fun t => word t == 9 && t.rs 10 == 0x100000001) = true ∧
    leads (.coherencePointOperation ⟨0, 0⟩) (coh (.stcv 1 9) .i64) (fun t => word t == 0x4321 && t.rs 10 == 0) = true ∧
    leads (.coherencePointOperation ⟨0, 0⟩) (coh (.casv 0 0x4321 9) .i64) (fun t => word t == 9 && t.rs 10 == 0x700000001) = true ∧
    leads (.coherencePointOperation ⟨0, 0⟩) (coh (.casv 1 0x4321 9) .i64) (fun t => word t == 0x4321 && t.rs 10 == 0x400000000) = true ∧
    leads (.coherencePointOperation ⟨0, 0⟩) (coh (.signal 9 false) .n64) (fun t => memBytes t.mem 0x101000010A 6 == [9, 0, 0, 0, 0, 0] && t.version line0 false == 1) = true ∧
    (let s := (coh (.atomic .add 0 7) .i64).setEffect ⟨0, 0⟩ (.line line0) 5
     s.effect ⟨0, 0⟩ (.line line0) = some 5 ∧ leads (.coherencePointOperation ⟨0, 0⟩) s (fun t => t.mem == base.mem && t.rs 10 == 5) = true) := by decide +kernel
def stage (g : Stage) (s : State) : State := s.updTh fun t => { t with pend := some ⟨0, 0, t.regs, 0, .reset, 0, 0, g⟩ }
/-- A timeout of 8 cycles at its last cycle and one before. -/
theorem witness_WaitsAndFences :
    gives (base.access base.agent (base.rs 6) 1 .load true) (fun p s => p.at 0x10000100 0x10000100 == 0x1010000100 && gives (s.phaseGate true) fun _ u => u.version line0 false == 0) = true ∧
    leads (.waitv ⟨hdr, .device, 10, 6, 5, .i 8⟩) base (fun t => t.rs 10 == 0x100000000) = true ∧
    leads (.waitv ⟨hdr, .device, 10, 6, 0, .i 8⟩) base (fun t => t.stageOf t.me == some (.waitv 0 0x10000100 0x1010000100 false 0 .device 8 10)) = true ∧
    (let s := stage (.waitv 0 0x10000100 0x1010000100 false 0 .device 8 10) base
     leads (.waitvTimeout ⟨0, 0⟩) { s with cycle := 8 } (fun t => t.th.pend == none && t.rs 10 == 0) = true ∧ leads (.waitvTimeout ⟨0, 0⟩) { s with cycle := 7 } (fun t => t == { s with cycle := 7 }) = true) ∧
    leads (.fence ⟨hdr, .acq, .device⟩) (base.updMyCore fun k => { k with l1 := [⟨1, none, 0⟩] }) (fun t => t.myCore.l1.isEmpty) = true ∧ base.myCore.sb.length < 32 ∧
    leads (.fence ⟨hdr, .full, .device⟩) base (fun t => match t.stageOf t.me with | some (.fence _ .device) => sbLast t (·.rel) | _ => false) = true ∧
    leads (.fence ⟨hdr, .rel, .device⟩) base (fun t => (t.stageOf t.me).isNone && sbLast t (·.rel)) = true ∧ leads (.fence ⟨hdr, .rel, .device⟩) (fullSb base) passes = true ∧
    leads (.loadDataArrival ⟨0, 0⟩) (stage (.data { Result.none with s := [(10, 9)], sticky := 2 }) base) (fun t => t.rs 10 == 9 && t.th.sticky == 2 && t.th.pend == none) = true ∧
    base.guardOn off = false ∧ leads (.waitv ⟨off, .device, 10, 6, 5, .i 8⟩) base (fun t => t == base) = true := by decide +kernel
def bar (b : Barrier) : State := { base with tasks := [{ task with barriers := [(1, b)] }] }
def phased (w : W32) : State := { base with tasks := [{ task with phase := w }] }
/-- N at 56 and 57; barrier 1 waits for 2 arrivals and tile 4; the last phase; bit 35; a value that arrived in this cycle. -/
theorem witness_BarriersAndInboxes :
    (true, Instr.barsync ⟨hdr, .block, 10, .i 0x3800⟩) ∈ [(true, Instr.barsync ⟨hdr, .block, 10, .i 0x3800⟩), (false, .bararv ⟨hdr, .block, 10, .i 0x3800⟩)] ∧
    base.effect base.me .barriers = none ∧ (base.barrierOf base.me 1).need = 0 ∧
    leads (.barsync ⟨hdr, .block, 10, .i 0x3801⟩) base (fun t => match t.stageOf t.me with | some (.barRel _ true .block 0x3801 10) => sbLast t (·.rel) | _ => false) = true ∧
    leads (.barsync ⟨hdr, .block, 10, .i 0x3901⟩) base (trapped 0x02 0 1) = true ∧ leads (.bararv ⟨hdr, .block, 10, .i 0x2000201⟩) base (trapped 0x02 0 1) = true ∧
    ((bar ⟨0, 2, 1, [], none⟩).barrierOf base.me 1).need = 2 ∧ leads (.bararv ⟨hdr, .block, 10, .i 0x301⟩) (bar ⟨0, 2, 1, [], none⟩) (trapped 0x02 0 0x101) = true ∧
    leads (.bararv ⟨hdr, .block, 10, .i 0x201⟩) (bar ⟨0, 2, 1, [], none⟩) (fun t => (t.stageOf t.me).isSome) = true ∧ base.relDone 0 99 .block = true ∧
    (match base.pollBarRel 99 false .block 0x100201 10 with | .used t => t.barrierOf t.me 1 == ⟨0, 2, 1, [(0, 4)], none⟩ | _ => false) = true ∧
    leads (.barwait ⟨hdr, .block, 10, .i 4, .s 0⟩) base (trapped 0x02 0 1) = true ∧ leads (.barwait ⟨hdr, .block, 10, .i 3, .s 0⟩) base passes = true ∧
    leads (.barwait ⟨hdr, .block, 10, .i 1, .s 0⟩) (bar ⟨1, 0, 0, [], none⟩) (fun t => t.rs 10 == 1) = true ∧
    (let s := bar ⟨0xFFFFFFFF, 2, 2, [(0, 4)], none⟩
     s.tileStart 0 4 = .ready ∧ leads (.barrierComplete ⟨0, 1, 0⟩ 1) s (fun t => t.barrierOf t.me 1 == ⟨0, 0, 0, [], some (0, 0xFFFFFFFF)⟩) = true) ∧
    leads (.barrierComplete ⟨0, 1, 0⟩ 1) (bar ⟨0, 2, 1, [], none⟩) (fun t => t == bar ⟨0, 2, 1, [], none⟩) = true ∧
    leads (.phadv ⟨hdr, 10⟩) (phased 0xFFFFFFFE) (trapped 0x02 0 0) = true ∧ leads (.phadv ⟨hdr, 10⟩) (phased 0xFFFFFFFD) (fun t => (t.stageOf t.me).isSome) = true ∧
    leads (.phwait ⟨hdr, 10, .i 2⟩) base (trapped 0x02 0 1) = true ∧ leads (.phwait ⟨hdr, 10, .i 3⟩) (phased 4) (fun t => t.rs 10 == 3) = true ∧
    leads (.phwait ⟨hdr, 10, .i 4⟩) (phased 4) passes = true ∧ (base.launchOf task).isSome = true ∧
    leads (.ibsend ⟨hdr, .device, 10, 11, .s 5⟩) (base.ws 11 0x800000000) (trapped 0x02 0 1) = true ∧
    leads (.ibsend ⟨hdr, .device, 10, 11, .s 5⟩) (base.ws 11 0x7FFFFFFFF) (fun t => (t.stageOf t.me).isSome) = true ∧
    (base.inboxSend 0 9).2 = 1 ∧ (base.inboxSend 0x7FFFFFFFF 9).2 ≠ 1 ∧
    base.effect base.me (.inbox 0) = none ∧ (let s := { base.updMyCore fun k => { k with inbox := [(3, 9), (4, 8)] } with cycle := 4 }
     leads (.ibrecv ⟨hdr, .core, 10⟩) s (fun t => t.rs 10 == 9 && t.th.esn == 2) = true ∧ leads (.ibpoll ⟨hdr, 10⟩) s (fun t => t.rs 10 == 1) = true ∧
       leads (.ibrecv ⟨hdr, .core, 10⟩) { s with cycle := 3 } passes = true) ∧
    leads (.dlaunch ⟨hdr, 10, 6⟩) base (fun t => sbLast t (fun e => e.rel && e.scope == .system)) = true := by decide +kernel

/-! ### Guards, waits that end in the cycle of their end -/

theorem witness_AtomicsIssue_more :
    base.guardOn off = false ∧ leads (.dsignal ⟨off, true, 6, 5⟩) base (fun t => t == base) = true ∧ leads (.mrfadd ⟨off, false, .device, ⟨7, .i 0⟩, 5⟩) base (fun t => t == base) = true ∧
    (base.ws 6 0x10000108).rs 6 % 16 ≠ 0 ∧ leads (.dsignal ⟨hdr, true, 6, 5⟩) (base.ws 6 0x10000108) (trapped 0x13 0x10000108 0) = true ∧
    trapsAs (base.access base.agent 0xFFFF000000000 16 .store true) 0x11 = true ∧ leads (.dsignal ⟨hdr, true, 6, 5⟩) (base.ws 6 0xFFFF000000000) (fun t => t.cur.fate == .trapped) = true := by
  decide +kernel
/-- A barrier of two whose second member arrives with its tile READY completes at once; GEN as the cycle began holds for the cycle. -/
theorem witness_BarriersAndInboxes_more :
    (match (bar ⟨0, 2, 1, [(0, 4)], none⟩).pollBarRel 99 false .block 0x100201 10 with
      | .used t => t.barrierOf t.me 1 == ⟨1, 0, 0, [], some (0, 0)⟩
      | _ => false) = true ∧
    leads (.barwait ⟨hdr, .block, 10, .i 1, .s 0⟩) (bar ⟨1, 0, 0, [], some (0, 0)⟩) passes = true ∧
    leads (.barwait ⟨hdr, .block, 10, .i 1, .s 0⟩) { bar ⟨1, 0, 0, [], some (0, 0)⟩ with cycle := 1 } (fun t => t.rs 10 == 1) = true ∧
    leads (.phwait ⟨hdr, 10, .i 4⟩) (phased 4) (fun t => t.th.ridgeWait) = true ∧ lnch.ridge0 < 4 ∧
    base.inboxEffect base.me = none ∧ (base.part base.myPart).dq = [] ∧ trapsAs (base.accessAligned base.agent 0x10000120 128 64 .load false) 0x13 = true ∧
    (match (stage (.dlRel 99 0x10000120 10) base).pollDlRel 99 0x10000120 10 with
      | .used t => t.myCore.queue.map (·.cause) == [0x13]
      | _ => false) = true := by decide +kernel

/-- A send to rank 1 on channel 3 with profile 0: K = 4, M = 1, F = 128. -/
def mctl (peer chan prof len : Nat) : W64 := BitVec.ofNat 64 (peer + chan * 2 ^ 16 + prof * 2 ^ 24 + len * 2 ^ 32)
def sends (i : W64) : State := base.ws 11 i
def lost2 : Handle := ⟨7, 3, true, ⟨2, 100, 2, 0, 0x10000200⟩, 0⟩
def handled (h : Handle) (s : State) : State := s.updTh fun t => { t with handles := [h] }
theorem witness_MessageInstructions : base.guardOn hdr = true ∧ base.effect base.me .fabric = none ∧ (base.myLaunch.bind (·.group)) = some ⟨5, 4, 0, [1, 2, 3], [(1, [1])]⟩ ∧
    leads (.msgsend ⟨hdr, false, 10, .t 4, 11⟩) (sends (mctl 1 3 0 512 + 0x200)) (trapped 0x02 0 0x502) = true ∧
    leads (.msgsend ⟨hdr, false, 10, .t 4, 11⟩) (sends (mctl 4 3 0 512)) (trapped 0x02 0 0x202) = true ∧ leads (.msgsend ⟨hdr, false, 10, .t 4, 11⟩) (sends (mctl 0 3 0 512)) (trapped 0x02 0 0x202) = true ∧
    leads (.msgsend ⟨hdr, false, 10, .t 4, 11⟩) (sends (mctl 1 3 1 512)) (trapped 0x02 0 0x102) = true ∧
    leads (.msgsend ⟨hdr, false, 10, .t 4, 11⟩) (sends (mctl 3 3 0 512)) (trapped 0x02 0 0x302) = true ∧
    leads (.msgsend ⟨hdr, false, 10, .t 4, 11⟩) (sends (mctl 1 3 0 513)) (trapped 0x02 0 0x402) = true ∧ leads (.msgsend ⟨hdr, false, 10, .t 4, 11⟩) (sends (mctl 1 3 0 0)) (trapped 0x02 0 0x402) = true ∧
    leads (.msgsend ⟨hdr, false, 10, .t 9, 11⟩) (sends (mctl 1 3 0 512)) (trapped 0x02 0 1) = true ∧
    leads (.msgsend ⟨hdr, true, 10, .t 4, 11⟩) (sends (mctl 1 3 0 512)) (fun t => (t.part 0).tx.map (fun m => (m.len, m.key.drank, m.key.chan, m.key.mseq, m.k, m.m, m.f)) == [(512, 1, 3, 1, 4, 1, 128)] &&
      (t.tile 4).st == .draining && t.rs 10 == 1 && t.th.esn == 2) = true ∧
    leads (.msgsend ⟨hdr, true, 10, .t 5, 11⟩) (sends (mctl 1 3 0 512)) passes = true ∧
    gives ((sends (mctl 1 3 0 65536)).access (sends 0).agent (base.rs 6) 65536 .store false) (fun _ s => s.th.handles.isEmpty && (s.part 0).lost.isEmpty && (s.part 0).rx.isEmpty) = true ∧
    leads (.msgpost ⟨hdr, 10, 6, 11⟩) (sends (mctl 1 3 0 65536)) (fun t => (t.part 0).posts.map (fun y => (y.srank, y.chan, y.maxlen)) == [(1, 3, 65536)] && t.rs 10 == 0x4000000001) = true ∧
    leads (.msgpost ⟨hdr, 10, 6, 11⟩) (sends (mctl 1 3 0 65537)) (trapped 0x02 0 0x402) = true ∧ leads (.msgpost ⟨hdr, 10, 6, 11⟩) (sends (mctl 1 3 1 65536)) (trapped 0x02 0 0x502) = true ∧
    leads (.msgpost ⟨hdr, 10, 6, 11⟩) (sends (mctl 0 3 0 1)) (trapped 0x02 0 0x202) = true ∧
    base.handleOf (base.rs 5) = none ∧ leads (.msgtest ⟨hdr, 10, 5⟩) base (fun t => t.rs 10 == 5) = true ∧
    (handled lost2 base).handleOf ((handled lost2 base).rs 5) = some lost2 ∧ base.cur.slot < 7 ∧ (base.part base.myPart).scb.en = true ∧
    leads (.msgwait ⟨hdr, 10, 5⟩) (handled lost2 base) passes = true ∧ leads (.msgwait ⟨hdr, 10, 5⟩) { handled lost2 base with cycle := 1 } (fun t => t.rs 10 == 0x6402000002 && trapped 0x60 0x10000200 0x200000003 t) = true ∧
    leads (.msgwait ⟨hdr, 10, 5⟩) (handled { lost2 with st := ⟨0, 100, 2, 0, 0⟩ } base) passes = true ∧
    leads (.msgwait ⟨hdr, 10, 5⟩) { handled { lost2 with st := ⟨1, 100, 2, 0, 0⟩ } base with cycle := 1 } (fun t => t.rs 10 == 0x6402000001) = true ∧
    (let h : Handle := { lost2 with seq := 1, st := ⟨0, 100, 0, 0, 0⟩ }
     let y : Post := ⟨⟨0, 0⟩, ⟨0, 1, 0⟩, 1, 1, 3, 100, 0x10000200, .mem []⟩
     let s := (handled h base).updPart 0 fun p => { p with posts := [y] }
     s.handleOf (s.rs 5) = some h ∧ (∃ y ∈ (s.part 0).posts, y.thread = s.me ∧ y.seq = h.seq) ∧
       leads (.msgcancel ⟨hdr, 10, 5⟩) s (fun t => (t.part 0).posts.isEmpty && t.rs 10 == 0x6400000007) = true) ∧
    leads (.msgcancel ⟨hdr, 10, 5⟩) (handled lost2 base) (fun t => t.rs 10 == 0x6402000002 && t.th.handles == [lost2]) = true := by decide +kernel
/-- A sequence record at 0x400 for two f32 logits in tile 4, K = 1; its output buffer has 16 entries at 0x800. -/
def seqMem : List Host.Cell := [(2, 0x80), (3, 0x3F), (7, 0x40), (0x4A1, 8), (0x4A4, 16), (0x4B4, 1), (0x4B8, 2), (0x4C2, 0x80), (0x4C3, 0x3F)]
def sampling (more : List Host.Cell) : State := (withS [(5, 99), (11, 0x400)]).updMyCore fun k => { k with sram := seqMem ++ more }
def recOf (s : State) (tile : Option Nat) : SeqRec := match s.readRec 0 0x400 tile with | .inl r => r | .inr _ => 0
def ctrAt (n : Nat) (s : State) : State := s.updTh fun t => { t with ctr := n }
def served (more : List Host.Cell) : State :=
  ((sampling more).updCluster 0 fun k => { k with smpq := [⟨8, ⟨0, 0⟩, none, 99, 0x400, 10⟩] }).updTh fun t => { t with pend := some ⟨0, 0, regs, 0, .reset, 0, 0, .sampler 8⟩ }
/-- CTR at 2^48 and one below; 32 draws up to it; 6 and 7 entries in the output buffer. -/
theorem witness_RandomStreamsAndSampler : base.myLaunch = some lnch ∧ lnch.cext ≠ 0 ∧ base.guardOn hdr = true ∧ base.guardOn off = false ∧
    leads (.rand ⟨hdr, 10⟩) (ctrAt (2 ^ 48 - 1) base) (fun t => t.th.ctr == 2 ^ 48) = true ∧ leads (.rand ⟨hdr, 10⟩) (ctrAt (2 ^ 48) base) (trapped 0x20 0 0) = true ∧
    leads (.rand ⟨hdr, 10⟩) ((ctrAt (2 ^ 48) base).updTh fun t => { t with mode := { t.mode with rngrep := true } }) (fun t => t.th.ctr == 1) = true ∧
    leads (.rand ⟨hdr, 10⟩) { base with launches := [{ lnch with cext := 0 }] } (trapped 0x20 0 0) = true ∧ leads (.rand ⟨off, 10⟩) base (fun t => t == base) = true ∧
    leads (.vrand ⟨hdr, true, 10⟩) (ctrAt (2 ^ 48 - 32) base) (fun t => t.th.ctr == 2 ^ 48) = true ∧ leads (.vrand ⟨hdr, true, 10⟩) (ctrAt (2 ^ 48 - 31) base) (trapped 0x20 0 0) = true ∧
    leads (.rseek ⟨hdr, 10, .s 11⟩) (base.ws 11 0xFFFFFFFFFFFF) (fun t => t.th.ctr == 2 ^ 48 - 1 && t.rs 10 == 0) = true ∧
    leads (.rseek ⟨hdr, 10, .s 11⟩) (base.ws 11 0x1000000000000) (trapped 0x02 0 1) = true ∧
    (let s := sampling []
     s.effect s.me .sampler = none ∧ s.myCore.sb = [] ∧ s.readRec 0 0x400 (some 4) = .inl (recOf s (some 4)) ∧ (recOf s (some 4)).ntm1 = 0 ∧ s.tileIs 0 4 .ready = true ∧
       leads (.smpl ⟨hdr, 10, 4, 11⟩) s (fun t => (t.cluster 0).smpq == [⟨s.fresh.1, ⟨0, 0⟩, some 4, 0, 0x400, 10⟩] && t.stageOf t.me == some (.sampler s.fresh.1)) = true ∧ s.tileIs 0 5 .ready = false ∧
       leads (.smpl ⟨hdr, 10, 5, 11⟩) s passes = true ∧ leads (.smpl ⟨hdr, 10, 9, 11⟩) s (trapped 0x02 0 0x1602) = true ∧
       s.readRec 0 0x400 none = .inl (recOf s none) ∧ leads (.tokexec ⟨hdr, 10, 5, 11⟩) s (fun t => (t.cluster 0).smpq == [⟨s.fresh.1, ⟨0, 0⟩, none, 99, 0x400, 10⟩]) = true ∧
       leads (.tokexec ⟨hdr, 10, 5, 11⟩) (s.ws 5 0x100000) (trapped 0x02 0 1) = true ∧
       (recOf s (some 4)).k = 1 ∧ s.chooseToken ⟨0, 0⟩ (recOf s (some 4)) 4 0 = .token 1 0) ∧
    (let s := served []
     s.sramPoison = [] ∧ (s.thr ⟨0, 0⟩).pend.isSome = true ∧ 10 ≤ (recOf s none).osize - (recOf s none).held ∧ (s.part 0).desc.tokhi = 0 ∧
       leads (.samplerRequestServe ⟨0, by decide⟩) s (fun t => t.spBytes 0 0x800 4 == [99, 0, 0, 0] && memBytes t.myCore.sram 0x800 4 == [0, 0, 0, 0] && t.rs 10 == 0x1000000063 && (t.cluster 0).smpq.isEmpty) = true) ∧
    (let s : State := (served []).updMyCore fun k => { k with sram := (k.sram.filter fun c => c.1 < 0x4A8) ++ [(0x4A8, 7), (0x4B4, 1), (0x4B8, 2), (0x4C2, 0x80), (0x4C3, 0x3F)] }
     (recOf s none).osize - (recOf s none).held = 9 ∧ leads (.samplerRequestServe ⟨0, by decide⟩) s (fun t => t.rs 10 == 0x70FFFFF && memByte t.myCore.sram 0x800 == 0) = true) := by
  decide +kernel
/-- A request whose thread no longer waits for it is dropped. -/
theorem witness_RandomStreamsAndSampler_stale :
    (let s := (served []).updTh fun t => { t with pend := none }
     (s.cluster 0).smpq = [⟨8, ⟨0, 0⟩, none, 99, 0x400, 10⟩] ∧ s.stageOf ⟨0, 0⟩ ≠ some (.sampler 8) ∧
       leads (.samplerRequestServe ⟨0, by decide⟩) s (fun t => t.myCore.sram == s.myCore.sram && (t.cluster 0).smpq.isEmpty && t.rs 10 == 0) = true) := by decide +kernel

def disabled (s : State) : State := s.updPart 0 fun p => { p with scb := { p.scb with en := false } }
/-- Core 0 with slot 0 parked on the record in bank 0, slot 7 serving it. -/
def served7 : State := sup.updThr ⟨0, 0⟩ fun t => { t with status := .parked }
def twice : State := served7.updMyCore fun k => { k with bank1 := some { recd with slot := 7, pc := 0x08000102 } }
theorem witness_TrapsAndReturns : base.cur.slot < 7 ∧ (base.part base.myPart).scb.en = true ∧ base.th.gang = none ∧ trapped 0x40 9 2 (base.takeTrap 0x40 9 2) = true ∧
    ((disabled base).part 0).scb.en = false ∧ (disabled base).myTask = some task ∧ (disabled base).launch? 0 1 = some lnch ∧ 1 ≤ lnch.tasks ∧ lnch.faulted = false ∧
    (((disabled base).takeTrap 0x40 9 2).task? ⟨0, 1, 0⟩).map (·.faulted) = some true ∧
    served7.cur.slot = 7 ∧ served7.myCore.bank1 = none ∧ (served7.takeTrap 0x40 9 2).th.pc = 0x08000140 ∧
    twice.myCore.bank1.isSome = true ∧ memBytes (twice.takeTrap 0x40 9 2).mem 0x9FFFF00000 4 = [0x48, 0x53, 0x52, 0x43] ∧
    served7.myCore.bank0 = some recd ∧ recd.slot < 7 ∧
    leads (.tresume ⟨hdr, false⟩) served7 (fun t => (t.thr ⟨0, 0⟩).status == .running && (t.thr ⟨0, 0⟩).pc == 0x08000002 && t.th.status == .empty) = true ∧
    leads (.tret ⟨hdr⟩) twice (fun t => t.cur.npc == 0x08000102 && t.myCore.bank1 == none) = true ∧
    leads (.tret ⟨hdr⟩) served7 (fun t => (t.myCore.bank1.map (·.cause)) == some 0x11) = true ∧
    base.th.arrive ≠ .resume ∧ leads (.instructionFetchFault 0x10 0x200001 3) base (trapped 0x10 0x08000040 3) = true ∧
    leads (.instructionFetchFault 0x04 0x200001 1) base (trapped 0x04 0 1) = true ∧ leads (.undefinedOpcode 0xE0 0) base (trapped 0x01 0 0xE001) = true := by decide +kernel
theorem witness_SystemInstructions : base.cur.slot ≠ 7 ∧ leads (.tkill ⟨hdr⟩) base (trapped 0x11 0 0) = true ∧ leads (.exit ⟨hdr⟩) base (fun t => t.th.status == .ended) = true ∧
    (let s := served7.updMyCore fun k => { k with bank0 := none }
     s.cur.slot = 7 ∧ s.myCore.bank0 = none ∧ leads (.exit ⟨hdr⟩) s (fun t => t.th.status == .empty) = true) ∧
    leads (.tkill ⟨hdr⟩) served7 (fun t => (t.thr ⟨0, 0⟩).status == .ended && ((t.task? ⟨0, 1, 0⟩).map (·.faulted)) == some true) = true ∧
    leads (.tctx ⟨hdr, 10⟩) twice (fun t => t.rs 10 == 24) = true ∧
    (let s := served7.updMyCore fun k => { k with spill := ⟨2, 0x90, 1, 64, some ⟨0, 1, 0⟩, 0, 0, 0⟩ }
     s.myCore.spill.state = 2 ∧ s.myCore.spill.cause = 0x90 ∧ leads (.spillgo ⟨hdr, 10⟩) s (fun t => t.myCore.spill.state == 1 && t.myCore.spill.offset == 64) = true) ∧
    served7.myCore.spill.state ≠ 2 ∧ leads (.spillgo ⟨hdr, 10⟩) served7 (fun t => t.rs 10 == t.myCore.spill.word) = true ∧
    leads (.xrd ⟨hdr, 10, .i 4⟩) served7 (fun t => t.rs 10 == 0xFFFFFFFFFFFFFF0B) = true ∧ leads (.xrd ⟨hdr, 10, .i 0x1F42⟩) served7 (fun t => t.rs 10 == 0) = true ∧
    leads (.xrd ⟨hdr, 10, .i 0xF0⟩) served7 (fun t => t.rs 10 == 0x000000C8) = true ∧ leads (.xrd ⟨hdr, 10, .i 0x2000⟩) served7 (fun t => (t.myCore.bank1.map (·.cause)) == some 0x02) = true ∧
    leads (.xwr ⟨hdr, .i 63, 5⟩) served7 (fun t => rdS (t.thr ⟨0, 0⟩).regs 63 == 7) = true ∧ leads (.xwr ⟨hdr, .i 0xF1, 5⟩) served7 (fun t => (t.myCore.bank1.map (·.cause)) == some 0x02) = true ∧
    leads (.xlinv ⟨hdr, some 6⟩) served7 (fun t => t.stageOf t.me == some .xlinv && (t.part 0).xl == [(some ⟨0, 7⟩, some 0x10000100)]) = true ∧
    (let s := { base.updMyCore fun k => { k with queue := [recd] } with cycle := 1 }
     (s.core 0).queue = [recd] ∧ (s.core 0).bank0 = none ∧ recd.cycle < s.cycle ∧
       leads (.supervisorTakeRecord ⟨0, by decide⟩) s (fun t => (t.core 0).bank0 == some recd && (t.thr ⟨0, 7⟩).pc == 0x08000100 && (t.thr ⟨0, 7⟩).status == .running) = true) ∧
    (base.core 0).queue = [] ∧ (base.part 0).resetting = false ∧ (0xFFFFFFFFFFFFE : W64).toNat < 2 ^ 52 - 1 ∧
    leads (.hostXlinv ⟨0, by decide⟩ 0xFFFFFFFFFFFFE) base (fun t => (t.part 0).scb.xlbusy) = true ∧
    (let s := base.updPart 0 fun p => { p with xl := [(none, none)], scb := { p.scb with xlbusy := true } }
     (∀ o ∈ (s.part 0).xl, o = (none, none)) ∧ (s.part 0).xl ≠ [] ∧ s.xlClear 0 none = true ∧
       leads (.xlinvComplete ⟨0, by decide⟩) s (fun t => !(t.part 0).scb.xlbusy && (t.cluster 0).tlb.isEmpty) = true) := by decide +kernel
/-- Another cause of a stopped spill allocates a frame; a poisoned register read; soft errors of every kind. -/
def spilled : State := (served7.updMyCore fun k => { k with spill := ⟨2, 0x91, 1, 64, some ⟨0, 1, 0⟩, 0, 0, 0⟩ }).updPart 0 fun p => { p with scb := { p.scb with nframe := 4, framemb := 64 } }
def inRegion (n : Nat) : State := base.updTh fun t => { t with region := { (Region.start t 0x08000000) with restarts := n, ws := [10] } }
theorem witness_SystemInstructions_errors :
    (let sp := spilled.myCore.spill.latch (spilled.part 0).scb
     spilled.myCore.spill.state = 2 ∧ spilled.myCore.spill.cause ≠ 0x90 ∧ spilled.myCore.spill.task = some ⟨0, 1, 0⟩ ∧ sp.freeFrame (spilled.part 0) = some 0 ∧
       spilled.imageBytes sp ≤ sp.framemb * 2 ^ 20 ∧ leads (.spillgo ⟨hdr, 10⟩) spilled (fun t => t.myCore.spill.state == 1 && t.myCore.spill.frame == 0 && t.myCore.spill.offset == 0) = true) ∧
    (let s := served7.updThr ⟨0, 0⟩ fun t => { t with regs := { t.regs with bad := [(.s, 4, 0)] } }
     (xsel (s.thr ⟨0, 0⟩) recd 4).isSome = true ∧ selBad (s.thr ⟨0, 0⟩).regs 4 = true ∧ leads (.xrd ⟨hdr, 10, .i 4⟩) s (fun t => (t.myCore.bank1.map (·.cause)) == some 0x80) = true) ∧
    (served7.thr ⟨0, 0⟩).regs.bad = [] ∧
    leads (.softErrorDetected (.memory 0x1010000107)) base (fun t => t.poison == [0x1010000107 / 8] && t.mgmt.errCount == 1) = true ∧
    leads (.softErrorDetected (.sram 3 0x207)) base (fun t => t.sramPoison == [(3, 0x40)]) = true ∧
    regOf 0x0A = some (.s, 10) ∧ regOf 0x04 = some (.s, 4) ∧ regOf 0xFF = none ∧ regOf 0x00 = some (.s, 0) := by decide +kernel
/-- The expansions: D is A, the last word of the scratchpad, a store to device memory, a product of infinity and zero, a sum of two infinities. -/
def dots (a b : Nat) : State := base.updTh fun t => { t with regs := { t.regs with v := [(2, BitVec.ofNat 1024 a), (3, BitVec.ofNat 1024 b)] } }
theorem witness_SystemInstructions_expansions : leads (.ldpi ⟨hdr, .i64, 8, 8, 8⟩) base (trapped 0x02 0 0) = true ∧
    (base.rs 8).toNat = 0xFFFF000000000 + 0x200 ∧ base.myCore.sb = [] ∧ base.posted = [] ∧ base.sramPoison = [] ∧ 0x200 + 128 ≤ 65536 * (base.core 0).sp ∧
    leads (.ldpi ⟨hdr, .n16, 10, 8, 0xFFFFFFFE⟩) base (fun t => t.rs 8 == base.rs 8 && t.stageOf t.me == some (.steps 1 false { Result.none with s := [(10, 0x2211), (8, 0xFFFF0000001FE)] } none)) = true ∧
    gives (base.accessAligned base.agent (base.rs 6) 4 4 .store false) (fun p s => gives (s.phaseGate p.isMem) fun _ u => u.myShingle == none && u.myCore.sb.isEmpty) = true ∧
    leads (.stpi ⟨hdr, .n32, 6, 4, 5⟩) base (fun t => t.myCore.sb.isEmpty && (match t.stageOf t.me with | some (.steps 1 false r (some (_, a, bs, ev))) => r.s == [(6, 0x10000104)] && a == 0x10000100 && bs == [7, 0, 0, 0] && !ev | _ => false)) = true ∧
    leads (.vldpi ⟨hdr, 10, 8⟩) base (fun t => match t.stageOf t.me with | some (.steps 1 false r none) => r.s == [(8, 0xFFFF000000280)] && (r.v.map fun e => lane e.2 0) == [0x2211] | _ => false) = true ∧ base.mode.arith = false ∧
    leads (.vdot ⟨hdr, .rne, 10, 2, 3⟩) (dots 0x400000003F800000 0x4080000040400000) (fun t => t.stageOf t.me == some (.steps 2 false { Result.none with s := [(10, 0x41300000)] } none)) = true ∧
    leads (.vdot ⟨hdr, .rne, 10, 2, 3⟩) (arithOn (dots 0x7F800000 0)) (fun t => (t.myCore.queue.map fun r => r.info.toNat / 2 ^ 56) == [0]) = true ∧
    leads (.vdot ⟨hdr, .rne, 10, 2, 3⟩) (arithOn (dots 0xFF8000007F800000 0x3F8000003F800000)) (fun t => (t.myCore.queue.map fun r => r.info.toNat / 2 ^ 56) == [1]) = true := by
  decide +kernel
/-- Failing first steps; the passing turns; the final step with a store, and with a full buffer. -/
theorem witness_SystemInstructions_steps :
    trapsAs (base.accessAligned base.agent 0x10000101 8 8 .load false) 0x13 = true ∧ leads (.ldpi ⟨hdr, .i64, 10, 11, 8⟩) (base.ws 11 0x10000101) (trapped 0x13 0x10000101 0) = true ∧
    leads (.stpi ⟨hdr, .n32, 11, 4, 5⟩) (base.ws 11 0x10000101) (trapped 0x13 0x10000101 0) = true ∧
    leads (.vldpi ⟨hdr, 10, 11⟩) (base.ws 11 0x10000101) (trapped 0x13 0x10000101 0) = true ∧
    (stage (.steps 2 false .none none) base).stageOf base.me = some (.steps 2 false .none none) ∧
    waitsIn ((stage (.steps 2 false .none none) base).pollSteps 2 false .none none) = true ∧ waitsIn ((stage (.steps 1 true .none none) base).pollSteps 1 true .none none) = true ∧
    (match (stage (.steps 1 false .none none) base).pollSteps 1 false { Result.none with s := [(10, 9)] } none with
      | .used t => t.rs 10 == 9 && t.th.pend.isNone
      | _ => false) = true ∧ base.myShingle = none ∧ base.myCore.sb.length < 32 ∧ (fullSb base).myShingle = none ∧ 32 ≤ (fullSb base).myCore.sb.length ∧
    (match base.pollSteps 1 false { Result.none with s := [(10, 9)] } (some (.sp 0 0x200, 0xFFFF000000200, [7, 8], false)) with
      | .used t => t.rs 10 == 9 && sbOf t == [(0x200, 7), (0x201, 8)]
      | _ => false) = true ∧
    waitsIn ((fullSb base).pollSteps 1 false { Result.none with s := [(10, 9)] } (some (.sp 0 0x200, 0xFFFF000000200, [7, 8], false))) = true := by decide +kernel
theorem witness_SystemInstructions_transient :
    base.th.status = .running ∧ base.th.gang = none ∧ (inRegion 0).th.region.inside = true ∧ (inRegion 2).th.region.restarts < 3 ∧
    leads (.softErrorDetected (.transient ⟨0, 0⟩)) (inRegion 2) (fun t => t.th == restartRegion (inRegion 2).th) = true ∧
    3 ≤ (inRegion 3).th.region.restarts ∧ leads (.softErrorDetected (.transient ⟨0, 0⟩)) (inRegion 3) (fun t => t.th.status == .parked && (t.myCore.queue.map fun r => (r.cause, r.info, r.pc)) == [(0x80, 5, 0x08000000)]) = true ∧
    (inRegion 0).th.region.wrote .s 10 = true ∧ leads (.softErrorDetected (.register ⟨0, 0⟩ 0x0A 0)) (inRegion 0) (fun t => t.th.region.restarts == 1) = true ∧
    (inRegion 0).th.region.wrote .s 4 = false ∧ leads (.softErrorDetected (.register ⟨0, 0⟩ 0x04 0)) (inRegion 0) (fun t => t.th.regs.bad == [(.s, 4, 0)]) = true ∧
    leads (.softErrorDetected (.register ⟨0, 0⟩ 0xFF 0)) base (fun t => t == base) = true ∧
    (let s := base.updTh fun t => { t with status := .ended }
     leads (.softErrorDetected (.transient ⟨0, 0⟩)) s (fun t => t == s) = true) := by decide +kernel
/-- A resumed thread goes on at the bundle after its record's; its fetch fault names the PC. -/
theorem witness_TrapsAndReturns_resume :
    leads (.tresume ⟨hdr, true⟩) served7 (fun t => (t.thr ⟨0, 0⟩).pc == (served7.pcAfterBundle 0x08000002).1 && (t.thr ⟨0, 0⟩).arrive == .resume) = true ∧
    (let s : State := base.updTh fun t => { t with arrive := .resume }
     s.th.arrive = .resume ∧ leads (.instructionFetchFault 0x10 0x200001 3) s (trapped 0x10 0x08000000 3) = true) := by decide +kernel

def qd (k : Queue) : State := base.updPart 0 fun p => { p with queues := [(0, k)] }
def q0 : Queue := { Queue.reset with qbase := 0x10000000, qwr := 5, qrd := 3 }
def active : Queue := { q0 with st := .active, loc := true }
/-- Entry 0 of cluster 1 binds its eight cores to partition 0. -/
def placed : State := { base with slotTable := [(8, 0x000100FF00004101)] }
def stopped (s : State) : State := { s with cores := s.cores.map fun e => (e.1, { e.2 with threads := [(0, { thread with status := .ended })], tiles := [] }) }
def leaving (i : Option Image) : State := { base with tasks := [{ task with place := .leaving 0 0, image := i }] }
def spilling (f : Nat) (s : State) : State := (s.updPart 0 fun p => { p with scb := { p.scb with savebase := BitVec.ofNat 64 f, nframe := 2, framemb := 4 }, frames := [0] }).updCore 0 fun k => { k with spill := ⟨1, 0, 0, 0, some ⟨0, 1, 0⟩, BitVec.ofNat 64 f, 2, 4⟩ }
def img (n va : Nat) : Image := ⟨0, va, 0, [], [], [], [], [], [], n⟩
def qst (t : State) : QState := ((t.part 0).queue 0).st
/-- QLOG 0: sixteen slots, so QWR may run 16 ahead of QRD. -/
theorem witness_QueuesAndLaunches : (base.part 0).hasQueue 0 = true ∧ (base.part 0).resetting = false ∧
    leads (.queueEnable ⟨0, by decide⟩ 0 0x1050F) (qd q0) (fun t => (t.part 0).queue 0 == { q0 with prio := 1, irqen := true, loc := true, qlog := 5, msix := 1, enable := true, qrd := 5, st := .active }) = true ∧
    leads (.queueEnable ⟨0, by decide⟩ 0 0xD01) (qd q0) (fun t => ((t.part 0).queue 0).ecode == 3 && qst t == .disabled) = true ∧
    leads (.queueDisable ⟨0, by decide⟩ 0 0) (qd active) (fun t => qst t == .draining) = true ∧ leads (.queueDrain ⟨0, by decide⟩ 0 0x1001) (qd active) (fun t => qst t == .draining) = true ∧
    leads (.queueAbort ⟨0, by decide⟩ 0 0x2001) (qd active) (fun t => qst t == .disabled && t.launches.map (·.state) == [.closed]) = true ∧
    leads (.qwrWrite ⟨0, by decide⟩ 0 19) (qd active) (fun t => ((t.part 0).queue 0).qwr == 19) = true ∧
    leads (.qwrWrite ⟨0, by decide⟩ 0 20) (qd active) (fun t => ((t.part 0).queue 0).ecode == 1) = true ∧
    (qd active).nextSource = some (0, 0) ∧ (((qd active).part 0).queue 0).loc = true ∧
    leads (.acceptPacket (some 0x0201)) (qd active) (fun t => t.launches.map (fun l => (l.lid, l.state)) == [(1, .running), (2, .accepted)]) = true ∧
    (Packet.mk (vBytes 0x0201)).deps = [] ∧ (Packet.mk (vBytes 0x0200)).shapeOk = false ∧
    leads (.acceptPacket (some 0x0200)) (qd active) (fun t => t.launches.map (fun l => (l.lid, l.reason)) == [(1, 0), (2, 1)]) = true ∧
    leads (.acceptPacket none) (qd active) (fun t => ((t.part 0).queue 0).ecode == 2) = true ∧ base.nextSource = none ∧
    base.launch? 0 1 = some lnch ∧ base.closeStatus lnch = none ∧
    (let l := { lnch with next := 4 }
     let s : State := { base with launches := [l], tasks := [{ task with place := .retired }] }
     s.launch? 0 1 = some l ∧ (∀ k ∈ s.tasks, k.place = .retired) ∧ s.closeStatus l = some 1 ∧
       leads (.closeLaunch ⟨0, by decide⟩ 1) s (fun t => t.launches.map (fun l => (l.state, l.status)) == [(.closed, 1)] && t.tasks.isEmpty) = true) ∧
    (descOf (0x8 * 2 ^ 192 + 0x01400101) 3).ok = true ∧ (base.part 3).desc.valid = false ∧ (descOf 0 3).ok = false ∧
    leads (.partitionCreate ⟨3, by decide⟩ (0x8 * 2 ^ 192 + 0x01400101)) base (fun t => (t.part 3).desc.defsp == 4 && (t.part 3).hasQueue 0) = true ∧
    leads (.expertChange ⟨0, by decide⟩ true) base (fun t => (t.part 0).desc.expert) = true ∧
    base.bindCheck 1 0 0x000100FF00004101 = 0 ∧ (base.bindAt 1 0).valid = false ∧ base.bindCheck 1 0 0x000100FF00001101 = 3 ∧
    leads (.slotTableWrite ⟨1, by decide⟩ 0 0x000100FF00001101) base (fun t => t.mgmt.sltErr && t.mgmt.sltEntry == 8 && t.mgmt.sltEcode == 3) = true ∧
    leads (.slotTableWrite ⟨1, by decide⟩ 0 0x000100FF00004101) base (fun t => t.slotTable == placed.slotTable) = true := by decide +kernel
theorem witness_TasksComeAndGo :
    (let u := placed.vtJoin.postStalls
     u.chosen = some lnch ∧ u.nextAt lnch 1 0 = some lnch.next ∧ lnch.next < lnch.last ∧ u.fitsNext lnch 1 0 = true ∧ u.task? ⟨0, 1, 1⟩ = none) ∧
    leads (.dispatchTask ⟨1, by decide⟩ 0) placed (fun t => (t.thr ⟨15, 6⟩).status == .running && (t.core 15).task == some ⟨0, 1, 1⟩) = true ∧ base.vtJoin.postStalls.chosen = none ∧ leads (.dispatchTask ⟨1, by decide⟩ 0) base (fun t => t.out.length == 1 && (t.core 8).task == none) = true ∧
    (stopped base).task? ⟨0, 1, 0⟩ = some task ∧ (stopped base).mayRetire task 0 = true ∧ (stopped base).mgmt.deferred = [] ∧ base.mayRetire task 0 = false ∧
    leads (.taskRetire ⟨0, 1, 0⟩) (stopped base) (fun t => (t.task? ⟨0, 1, 0⟩).map (·.place) == some .retired) = true ∧
    base.launchOf task = some lnch ∧
    (let x := { task with mustGo := true }
     let s := { base with tasks := [x] }
     s.task? ⟨0, 1, 0⟩ = some x ∧ leads (.preemptTask ⟨0, 1, 0⟩) s (fun t => (t.task? ⟨0, 1, 0⟩).map (·.place) == some (.leaving 0 0)) = true) := by decide +kernel
theorem witness_TasksComeAndGo_spill :
    (let x := { task with place := .leaving 0 0 }
     let s := (leaving none).updCore 0 fun k => { k with spill := ⟨0, 0, 0, 0, none, 0x10000000, 1, 3⟩ }
     s.task? ⟨0, 1, 0⟩ = some x ∧ s.settled x 0 = true ∧ s.frameFor x 0 0 = some 0 ∧ s.posted = [] ∧ 0 ∈ s.blockOfTask x ∧
       leads (.spillStart ⟨0, 1, 0⟩) s (fun t => (t.core 0).spill == ⟨1, 0, 0, 0, some ⟨0, 1, 0⟩, 0x10000000, 1, 3⟩) = true ∧
       ((s.updThr ⟨3, 0⟩ fun t => { t with pend := some ⟨0, 0, regs, 0, .reset, 0, 0, .sampler 8⟩ }).settled x 0) = false) ∧
    (let x := { task with place := .leaving 0 0, image := some (img 8192 0x10000000) }
     let y := { task with place := .leaving 0 0, image := some (img 8192 0x80000000) }
     let s := spilling 0x10000000 (leaving x.image)
     let u := spilling 0x80000000 (leaving y.image)
     s.spillOf ⟨0, 1, 0⟩ = some (x, 0, ⟨1, 0, 0, 0, some ⟨0, 1, 0⟩, 0x10000000, 2, 4⟩, img 8192 0x10000000) ∧ s.badPart 0 0x10000000 0 8192 = none ∧
       u.spillOf ⟨0, 1, 0⟩ = some (y, 0, ⟨1, 0, 0, 0, some ⟨0, 1, 0⟩, 0x80000000, 2, 4⟩, img 8192 0x80000000) ∧
       u.badPart 0 0x80000000 0 8192 = some 0 ∧ (u.part 0).scb.en = true ∧ leads (.spillStop ⟨0, 1, 0⟩) u (fun t => (t.core 0).spill.state == 2 && (t.core 0).spill.offset == 0) = true ∧
       (let v := disabled u
        (v.part 0).scb.en = false ∧ leads (.spillStop ⟨0, 1, 0⟩) v (fun t => ((t.task? ⟨0, 1, 0⟩).map fun k => (k.place, k.faulted)) == some (.retired, true)) = true) ∧
       leads (.spillStop ⟨0, 1, 0⟩) s (fun t => t == s) = true) ∧
    (let s := spilling 0x10000000 (leaving (some (img 0 0x10000000)))
     s.badPart 0 0x10000000 0 0 = none ∧ leads (.spillEnd ⟨0, 1, 0⟩) s (fun t => ((t.task? ⟨0, 1, 0⟩).map (·.place) == some (.saved 0)) && t.launches.map (·.preempted) == [[0]]) = true) ∧
    (let s := (spilling 0x10000000 (leaving (some (img 0 0x10000000)))).updCore 0 fun k => { k with spill := { k.spill with state := 2 } }
     leads (.spillEnd ⟨0, 1, 0⟩) s (fun t => t == s) = true) := by decide +kernel
/-- A saved task with one core chooses its run and is filled there, or its frame does not translate. -/
def ctx : CoreCtx := ⟨[(0, { thread with status := .parked })], [], [], 3, 0, [], none, none, [(9, 8)], [], [], []⟩
def savedAt (p : TaskPlace) (va : Nat) : State :=
  { spilling 0x10000000 placed with launches := [{ lnch with preempted := [0] }], tasks := [{ task with place := p, image := some { img (if va = 0 then 0 else 4096) va with cores := [ctx] } }] }
theorem witness_TasksComeAndGo_resume :
    (let s := savedAt (.saved 0) 0
     let l := { lnch with preempted := [0] }
     s.vtJoin.chosen = some l ∧ (s.vtJoin.task? ⟨0, 1, 0⟩).isSome = true ∧ s.vtJoin.launch? 0 1 = some l ∧ s.vtJoin.nextAt l 1 0 = some 0 ∧ s.vtJoin.fitsNext l 1 0 = true ∧
       leads (.resumeFill ⟨0, 1, 0⟩ ⟨1, by decide⟩ 0) s (fun t => ((t.task? ⟨0, 1, 0⟩).map (·.place) == some (.filling 1 0 0)) && (t.core 8).spill.state == 3) = true) ∧
    (let s := savedAt (.filling 1 0 0) 0
     s.mgmt.deferred = [] ∧ s.vtJoin.freeFor { img 0 0 with cores := [ctx] } 1 = true ∧ s.vtJoin.fillFault 0 { img 0 0 with cores := [ctx] } = none ∧
       leads (.resumeFill ⟨0, 1, 0⟩ ⟨1, by decide⟩ 0) s (fun t => ((t.task? ⟨0, 1, 0⟩).map (·.place) == some (.resident 1 0)) && memByte (t.core 8).sram 9 == 8) = true) ∧
    (let s := savedAt (.filling 1 0 0) 0x80000000
     (s.vtJoin.fillFault 0 { img 4096 0x80000000 with cores := [ctx] }).isSome = true ∧
       leads (.resumeFill ⟨0, 1, 0⟩ ⟨1, by decide⟩ 0) s (fun t => (t.task? ⟨0, 1, 0⟩).map (fun k => (k.place, k.faulted)) == some (.retired, true)) = true) := by decide +kernel
/-- A BOUNDED entry with a task on its cores: the new value waits. An overrun of a queue that is not ACTIVE. -/
def boundState : State := { base with slotTable := [(0, 0x000100FF00004301)], launches := [{ lnch with bounded := true }] }
theorem witness_QueuesAndLaunches_deferred :
    (boundState.bindAt 0 0).valid = true ∧ (boundState.bindAt 0 0).cls = 1 ∧ boundState.bindCheck 0 0 0 = 0 ∧
    boundState.entryAt 0 0 ≠ 0 ∧ boundState.boundedOn 0 (boundState.bindAt 0 0).cores ≠ [] ∧
    leads (.slotTableWrite ⟨0, by decide⟩ 0 0) boundState (fun t => t.slotTable == boundState.slotTable && t.mgmt.deferred.length == 1) = true ∧
    leads (.qwrWrite ⟨0, by decide⟩ 0 20) (qd q0) (fun t => ((t.part 0).queue 0).ecode == 1 && qst t == .disabled) = true ∧
    (let l := { lnch with next := 4, faulted := true }
     let s : State := { base with launches := [l], tasks := [{ task with place := .retired }] }
     s.closeStatus l = some 4) := by decide +kernel

def ent (l : List (Nat × Byte)) : Entry := { someEntry with cells := l.map fun c => ⟨c.1, c.1, c.2, false⟩ }
def inSb (e : Entry) : State := base.updCore 0 fun k => { k with sb := [e] }
def inBb (e : Entry) : State := base.updCluster 0 fun k => { k with bb := [e] }
def plain : Entry := ent [(0x1010000100, 9), (0x101000017F, 8)]
/-- A reduction of 7 on the word at 0x1010000100 (0x4321), tagged with G 0, ESN 5, before and after it took effect. -/
def redn : Entry := { ent ((List.range 8).map fun i => (0x1010000100 + i, 0)) with red := some (.add, .i64, 7), tag := some ((0, 1, 0), 5) }
def repro (l : Launch) : State := { base with launches := [{ l with repro := true }] }
theorem witness_BufferMoves :
    ((inSb plain).core 0).sb.find? (fun e => e.id = 7) = some plain ∧ (inSb plain).mayDrain 0 plain = true ∧ plain.dest = none ∧ straight plain = false ∧
    leads (.storeBufferDrain ⟨0, by decide⟩ 7) (inSb plain) (fun t => (t.cluster 0).bb == [plain] && (t.core 0).sb.isEmpty) = true ∧
    (inSb { plain with rel := true, captured := [8] }).mayDrain 0 { plain with rel := true, captured := [8] } = true ∧
    (let e := { ent [(0, 9), (0x3FFFF, 8)] with dest := some 3 }
     (inSb e).mayDrain 0 e = true ∧ leads (.storeBufferDrain ⟨0, by decide⟩ 7) (inSb e) (fun t => (t.core 3).sram == [(0, 9), (0x3FFFF, 8)]) = true) ∧
    (let s := (inSb plain).updCluster 0 fun k => { k with bb := (List.range 256).map fun i => { someEntry with id := 100 + i } }
     s.mayDrain 0 plain = false ∧ leads (.storeBufferDrain ⟨0, by decide⟩ 7) s (fun t => t == s) = true) ∧
    ((inBb plain).cluster 0).bb.find? (fun e => e.id = 7) = some plain ∧ linesOf (hostCells plain) = [line0] ∧ heldBack plain [7] [plain] = false ∧ plain.shingle = none ∧ plain.red = none ∧
    leads (.blockBufferDrain ⟨0, by decide⟩ 7 []) (inBb plain) (fun t => memByte t.mem 0x1010000100 == 9 && memByte t.mem 0x101000017F == 8 && t.version line0 false == 1 && (t.cluster 0).bb.isEmpty) = true ∧
    linesOf (hostCells redn) = [line0] ∧ assocGet ((inBb redn).part 0).effects (1, 0, .line line0) = none ∧
    leads (.blockBufferDrain ⟨0, by decide⟩ 7 []) (inBb redn) (fun t => ofBytes (memBytes t.mem 0x1010000100 8) == 0x4328) = true ∧
    leads (.blockBufferDrain ⟨0, by decide⟩ 7 []) ((inBb redn).updPart 0 fun p => { p with effects := [((1, 0, .line line0), 5, 0)] }) (fun t => t.mem == base.mem) = true ∧
    (let e := { redn with thread := some ⟨0, 0⟩ }
     let s := (inBb e).updCore 0 fun k => { k with sb := [{ plain with id := 3, thread := some ⟨0, 0⟩ }] }
     heldBack e [7] (s.cluster 0).bb = false ∧ s.redClear e 0 = false ∧ leads (.blockBufferDrain ⟨0, by decide⟩ 7 []) s (fun t => t == s) = true) ∧
    leads (.l1CopyDrop ⟨0, by decide⟩ line0) base (fun t => (t.core 0).l1.isEmpty) = true ∧
    (let w : Posted := ⟨1, none, [(0x9FFFEFFFFF, 9)], false, none⟩
     let v : Posted := ⟨2, some 0, [(0x3FFFF, 9)], false, none⟩
     (∀ x ∈ w.cells, x.1 < 0x9FFFF00000) ∧ leads .postedWritePerform { base with posted := [w, v] } (fun t => memByte t.mem 0x9FFFEFFFFF == 9 && t.posted == [v]) = true ∧
       leads .postedWritePerform { base with posted := [v, w] } (fun t => memByte (t.core 0).sram 0x3FFFF == 9 && t.mem == base.mem) = true) ∧ base.posted = [] ∧
    (base.cluster 0).fmb = [] ∧
    leads (.fetchFill ⟨0, by decide⟩ 0x200000) (base.updCluster 0 fun k => { k with fmb := [⟨0x200000, false, [(3, 0x200001)]⟩] }) (fun t => (t.core 3).l0.map (·.1) == [0x200001] && (t.cluster 0).fmb.isEmpty) = true := by decide +kernel
theorem witness_BufferMoves_phases :
    base.launch? 0 1 = some lnch ∧ lnch.state = .running ∧
    (let l := { lnch with next := 4, ridge := 0 }
     let s : State := { base with launches := [l] }
     s.trueRidge l = 1 ∧ leads (.ridgePublish ⟨0, by decide⟩ 1) s (fun t => t.launches.map (·.ridge) == [1]) = true) ∧
    leads (.layPhase ⟨0, by decide⟩ 1) base (fun t => t == base) = true ∧
    (let l := { lnch with repro := true }
     (repro lnch).launch? 0 1 = some l ∧ l.laid < l.ridge.toNat ∧ l.laid < (repro lnch).reached l ∧ (repro lnch).phaseOut l l.laid = true ∧ (∀ e ∈ l.shingles, e.1.2 ≠ l.laid) ∧
       leads (.layPhase ⟨0, by decide⟩ 1) (repro lnch) (fun t => t.launches.map (·.laid) == [1]) = true) ∧
    (let e := { plain with shingle := some (⟨0, 1, 0⟩, 0) }
     let s := (repro lnch).updCluster 0 fun k => { k with bb := [e] }
     s.phaseOut lnch 0 = false ∧ leads (.layPhase ⟨0, by decide⟩ 1) s (fun t => t == s) = true) := by decide +kernel

def link (p : Port) : State := base.setPort 2 p
def up : Port := { Port.reset with st := .up, width := 16, lanes := 0xFFFF, myLanes := 0xFFFF }
/-- A single data flit of channel 1 with sequence number n, made by hand: payload 0xAB. -/
def flit (n : Nat) : VWord := mkFlit ⟨n, 0, 1, 1, true, 0, 0⟩ [0xAB]
def frag (n : Nat) : Fragment := ⟨List.replicate n 0x5A, none, none⟩
def q2 : Fin 12 := ⟨2, by decide⟩
theorem witness_LinkMoves : (link up).port 2 = up ∧ flitOk (flit 1) = true ∧ flitOk (flit 1 ^^^ 1) = false ∧ (hdrOf (flit 1)).type = 1 ∧ (hdrOf (flit 1)).seq = 1 ∧ (hdrOf (flit 0xFFFFF)).seq = 0xFFFFF ∧
    leads (.flitReceive q2 (flit 1)) (link up) (fun t => (t.port 2).inbuf == [(1, [(base.ptpMsg, flit 1)])] && (t.port 2).expected == 2 && (t.port 2).unreported == 1 && (t.port 2).wire.isEmpty) = true ∧
    leads (.flitReceive q2 (flit 1)) (link { up with unreported := 31 }) (fun t => (t.port 2).unreported == 0 && (t.port 2).wire.map (fun f => (hdrOf f).type) == [0]) = true ∧
    leads (.flitReceive q2 (flit 0xFFFFF)) (link { up with expected := 0xFFFFF }) (fun t => (t.port 2).expected == 0) = true ∧
    leads (.flitReceive q2 (flit 2)) (link up) (fun t => (t.port 2).inbuf.isEmpty && (t.port 2).expected == 1) = true ∧
    leads (.flitReceive q2 (flit 1 ^^^ 1)) (link up) (fun t => (t.port 2).nacked && (t.port 2).wire.length == 1) = true ∧
    leads (.flitReceive q2 (flit 1 ^^^ 1)) (link { up with nacked := true }) (fun t => (t.port 2).wire.isEmpty) = true ∧
    leads (.flitReceive q2 (flit 1)) base (fun t => t == base) = true ∧ (base.port 2).st = .down ∧
    leads (.ackIdleSend q2) (link { up with unreported := 1, expected := 2 }) (fun t => (t.port 2).unreported == 0 && (t.port 2).wire.map (fun f => (hdrOf f).type) == [0]) = true ∧
    leads (.ackIdleSend q2) (link up) (fun t => (t.port 2).wire.length == 1) = true ∧ leads (.ackIdleSend q2) base (fun t => t == base) = true ∧
    leads (.replayTimeout q2) (link { up with replay := [flit 1], wire := [flit 1] }) (fun t => (t.port 2).wire == [flit 1, flit 1] && (t.port 2).replays == 1) = true ∧
    leads (.replayTimeout q2) (link up) (fun t => t.port 2 == up) = true ∧
    leads (.fragmentTransmit q2 1) (link { up with outq := [(1, [frag 112, frag 1])] }) (fun t => (t.port 2).outq == [(1, [frag 1])] && (t.port 2).nextSeq == 2 && (t.port 2).credits.getD 1 64 == 63) = true ∧
    leads (.fragmentTransmit q2 1) (link { up with outq := [(1, [frag 1])], credits := [(1, 0)] }) (fun t => (t.port 2).wire.isEmpty) = true ∧
    leads (.fragmentTransmit q2 0) (link up) (fun t => t == link up) = true ∧ leads (.fragmentTransmit q2 1) base (fun t => t == base) = true ∧
    leads (.laneFailure q2 15) (link up) (fun t => (t.port 2).st == .retraining && (t.port 2).myLanes == 0x7FFF && (t.port 2).lanes == 0x7FFF) = true ∧
    widthOf ((0xFFFF : BitVec 16) &&& 0xFFFF) ≠ 0 ∧ widthOf ((0xFFFF : BitVec 16) &&& 0) = 0 ∧
    leads (.retrainComplete q2 0xFFFF true) (link { up with st := .retraining, replay := [flit 1] }) (fun t => (t.port 2).st == .up && (t.port 2).wire == [flit 1]) = true ∧
    leads (.retrainComplete q2 0 true) (link { up with st := .retraining }) (fun t => (t.port 2).st == .down) = true ∧
    leads (.retrainComplete q2 0xFFFF false) (link { up with st := .training, fails := 2 }) (fun t => (t.port 2).st == .down) = true ∧
    leads (.retrainComplete q2 0xFFFF false) (link { up with st := .training, fails := 1 }) (fun t => (t.port 2).fails == 2) = true ∧
    leads (.retrainComplete q2 0 true) (link up) (fun t => t == link up) = true := by decide +kernel

/-- A fragment of 112 bytes on its last hop (path 0x01), of a message of no group here. -/
def lastHop : List Byte := List.replicate 32 0 ++ [1] ++ List.replicate 79 0
def key : MsgKey := ⟨0, 5, 0, 1, 3, 1⟩
def rxm (m : RxMsg) : State := base.updPart 0 fun p => { p with rx := [m] }
def msg : RxMsg := ⟨key, 1, 65, 2, 0, 64, 50, false, [(0, List.replicate 64 0), (1, List.replicate 64 0)], some ⟨⟨0, 0⟩, ⟨0, 1, 0⟩, 7, 1, 3, 100, 0x10000200, .mem []⟩, [0, 1], [], 0⟩
/-- A send of the two bytes 0x11, 0x22 of the scratchpad through port 2, as one fragment. -/
def txm : TxMsg := { id := 1, thread := ⟨0, 0⟩, task := ⟨0, 1, 0⟩, seq := 7, key := key, ack := false, len := 2, k := 1, m := 1, f := 64, paths := [0x21], deadline := 50, ackBy := 9, tile := none, va := 0xFFFF000000200, home := 0, place := .sp 0 0x200, shingle := none, before := [], sent := true, left := 0, final := false }
def txs (m : TxMsg) : State := (link up).updPart 0 fun p => { p with tx := [m] }
def rule : FlowRule := { FlowRule.reset with etype := 0x88B5, ports := 1, en := true, lslot := 1 }
/-- An Ethernet frame of 18 bytes; its check sequence is 0x2E5E2F7A. -/
def frame : List Byte := [2, 0, 0, 0, 0, 1, 2, 0, 0, 0, 0, 2, 0x88, 0xB5, 0x7A, 0x2F, 0x5E, 0x2E]
def armed : State := (base.updPart 0 fun p => { p with stations := [(0, 0x020000000001)], flow := [(0, rule)] }).updCore 0 fun k => { k with land := [(1, ⟨[4, 5], 6⟩)] }
/-- The header of fragment 1 of the message, and a partition whose group has rank 1. -/
def fhd : FHdr := { key := key, ackreq := false, fidx := 1, k := 2, m := 0, f := 64, len := 65, deadline := 50, path := 1 }
def ranked (f : Partition → Partition) : State :=
  { base with launches := [{ lnch with group := some ⟨5, 4, 1, [1, 2], [(1, [0x21])]⟩ }] }.updPart 0 f
theorem witness_MessageAndFrameMoves : (base.port 2).takeFragment = none ∧
    (let p := { up with inbuf := [(1, [(9, mkFlit ⟨1, 0, 1, 1, true, 0, 0⟩ lastHop)])] }
     ((link p).port 2).takeFragment = some (⟨1, 1, 9, lastHop⟩, { up with inbuf := [(1, [])] }) ∧
     field lastHop 36 1 + 1 = field lastHop 32 4 % 16 ∧ (hdrOfBytes lastHop).fidx ≠ 0xFF ∧ (link p).launchFor (hdrOfBytes lastHop).key = none ∧
       leads (.fragmentReceive q2) (link p) (fun t => (t.part 0).ctr.noMatch == 1 && (t.port 2).owed.getD 1 0 == 1) = true) ∧
    (let b := patch (patch lastHop 32 [0x12, 2]) 6 [0xFF]
     let p := { up with inbuf := [(1, [(9, mkFlit ⟨1, 0, 1, 1, true, 0, 0⟩ b)])] }
     ((link p).port 2).takeFragment = some (⟨1, 1, 9, b⟩, { up with inbuf := [(1, [])] }) ∧ field b 36 1 + 1 ≠ field b 32 4 % 16 ∧
       field b 32 4 / 2 ^ (4 * (field b 36 1 + 1 + 1)) % 16 = 2 ∧ leads (.fragmentReceive q2) (link p) (fun t => ((t.port 2).outq.getD 2 []).map (fun f => field f.bytes 36 1) == [1]) = true) ∧
    (let b := patch lastHop 6 [0xFF]
     let p := { up with inbuf := [(1, [(9, mkFlit ⟨1, 0, 1, 1, true, 0, 0⟩ b)])] }
     ((link p).port 2).takeFragment = some (⟨1, 1, 9, b⟩, { up with inbuf := [(1, [])] }) ∧ (hdrOfBytes b).fidx = 0xFF ∧
       leads (.fragmentReceive q2) (link p) (fun t => (t.part 0).ctr.late == 1) = true) ∧
    key.part = 0 ∧ (rxm msg).rx? key = some msg ∧ (∀ j, j < msg.k → j * msg.f < msg.len → j ∈ msg.got) ∧
    leads (.messageComplete key) (handled ⟨7, 7, true, ⟨0, 0, 0, 0, 0⟩, 0⟩ (rxm msg)) (fun t => (t.part 0).ctr.received == 1 && t.th.handles.map (·.st.code) == [1]) = true ∧
    1 < msg.k ∧ 1 * msg.f < msg.len ∧ 1 ∉ [0] ∧
    leads (.messageComplete key) (rxm { msg with got := [0] }) (fun t => t == rxm { msg with got := [0] }) = true ∧
    (rxm msg).ptpMsg ≤ msg.deadline ∧ leads (.messageDeadlineExpiry key) (rxm msg) (fun t => t == rxm msg) = true ∧
    (let m := { msg with frags := [(0, List.replicate 64 0)], got := [0] }
     let s := { rxm m with ptp := 51 * ptpUnit }
     s.rx? key = some m ∧ m.deadline < s.ptpMsg ∧ m.frags.length < m.k ∧ leads (.messageDeadlineExpiry key) s (fun t => (t.part 0).ctr.lost == 1 && (t.part 0).rx.isEmpty) = true ∧
       (let m := { m with got := [0, 1] }
        let s := { rxm m with ptp := 51 * ptpUnit }
        m.deadline < s.ptpMsg ∧ leads (.messageComplete key) s (fun t => t == s) = true)) := by decide +kernel
theorem witness_MessageAndFrameMoves_fragments :
    (let s := ranked id
     (s.launchFor key).isSome = true ∧ ((s.launchFor key).bind (·.group)).map (·.rank) = some 1 ∧ ((s.launchFor key).map (·.state)) = some .running ∧ fhd.key.drank = 1 ∧
       s.rx? key = none ∧ (s.part 0).postFor key 1 = none ∧ (s.part 0).decodeRoom key 64 = true ∧ (s.part 0).closed = [] ∧ (s.part 0).lost = [] ∧
       (((s.arriveFragment fhd 50 [7]).rx? key).map (·.frags)) = some [(1, [7])] ∧ ((s.arriveFragment fhd 51 [7]).part 0).ctr.late = 1 ∧
       ((s.arriveFragment { fhd with key := { key with drank := 2 } } 50 [7]).part 0).ctr.noMatch = 1) ∧
    (let s := ranked fun p => { p with rx := [{ msg with post := none, frags := [(1, [9])] }] }
     ((s.arriveFragment fhd 50 [7]).part 0).ctr.dups = 1) ∧
    (let s := ranked fun p => { p with rx := (List.range 64).map fun i => { msg with key := { key with mseq := 2 + i }, post := none } }
     s.rx? key = none ∧ (s.part 0).decodeRoom key 1 = false ∧ ((s.arriveFragment fhd 50 [7]).part 0).ctr.drops = 1) := by decide +kernel
theorem witness_MessageAndFrameMoves_sends : (txs txm).tx? ⟨0, 0⟩ 7 = some txm ∧ (txs { txm with ack := true }).tx? ⟨0, 0⟩ 7 = some { txm with ack := true } ∧
    leads (.sendFragmentsDeparted ⟨0, 0⟩ 7) (txs txm) (fun t => t == (txs txm).finalSend txm 1) = true ∧
    leads (.sendFragmentsDeparted ⟨0, 0⟩ 7) (txs { txm with left := 1 }) (fun t => t == txs { txm with left := 1 }) = true ∧
    leads (.sendAckTimeout ⟨0, 0⟩ 7) { txs { txm with ack := true } with ptp := 10 * ptpUnit } (fun t => (t.part 0).tx.all (·.final)) = true ∧
    leads (.sendAckTimeout ⟨0, 0⟩ 7) { txs { txm with ack := true } with ptp := 9 * ptpUnit } (fun t => t == { txs { txm with ack := true } with ptp := 9 * ptpUnit }) = true ∧
    (let v : Handle := ⟨7, 7, false, ⟨0, 0, 0, 0, 0⟩, 0⟩
     let s := handled v (txs txm)
     s.task? txm.task = some task ∧ task.image = none ∧ (s.thr txm.thread).handles = [v] ∧ v.seq = txm.seq ∧ ((s.finalSend txm 1).thr ⟨0, 0⟩).handles.map (·.st.code) = [1]) := by decide +kernel
theorem witness_MessageAndFrameMoves_departures :
    (let m := { txm with sent := false }
     let s := txs m
     s.oldestSend = some m ∧ s.beforeDone 0 [] = true ∧ s.sendGate m = true ∧ s.upPaths m.paths = [0x21] ∧ gives (s.sendSource m) (fun b _ => b == [0x11, 0x22]) = true ∧
       leads .fabricSendDepart s (fun t => ((t.port 2).outq.getD 1 []).length == 2) = true ∧
       (txs { m with paths := [0x31] }).upPaths [0x31] = [] ∧ (txs { m with paths := [0x31] }).oldestSend = some { m with paths := [0x31] }) ∧
    (base.part 0).resetting = false ∧ leads (.msgCountersClear ⟨0, by decide⟩) base (fun t => (t.part 0).ctr == .reset) = true ∧
    leads (.flowRuleWrite ⟨0, by decide⟩ 31 0 0xFFFFFFFFFFFFFFFF) base (fun t => (t.part 0).flow.getD 31 .reset == ⟨0, 0, 0, false, 0, 0, 127, 7, 3, 3, true⟩) = true ∧
    leads (.frameReceive 0 (frame.take 17)) armed (fun t => t == armed) = true ∧ leads (.frameReceive 0 (frame.take 17 ++ [0x2F])) armed (fun t => t == armed) = true ∧
    (frame.take 17).length < 18 ∧ field (frame.take 17 ++ [0x2F]) 14 4 ≠ (crc32 (frame.take 14)).toNat ∧
    18 ≤ frame.length ∧ field frame 14 4 = (crc32 (frame.take 14)).toNat ∧ (frame.headD 0).getLsbD 0 = false ∧
    armed.parts.map (·.1) = [0] ∧ (armed.part 0).stations = [(0, (frameInfo (frame.take 14)).dst)] ∧ (armed.part 0).flow = [(0, rule)] ∧ rule.matches 0 (frameInfo (frame.take 14)) = true ∧
    leads (.frameReceive 0 frame) armed (fun t => t.frames.map (fun f => (f.core, f.lslot, f.bytes, f.tile)) == [(0, 1, frame.take 14, none)]) = true := by decide +kernel
/-- A frame for tile 5, which is EMPTY: claimed, its bytes posted, then performed there, or the tile is gone; no armed entry; a core that takes none. -/
def rxf : RxFrame := ⟨0, 0, 0, 0, 1, frame.take 14, false, 5, none⟩
theorem witness_MessageAndFrameMoves_landing :
    armed.landable 0 0 = true ∧ firstEmpty (armed.core 0).tiles0 [4, 5] = some (5, []) ∧ armed.tileIs 0 5 .empty = true ∧ armed.landable 0 8 = false ∧
     (let t := armed.landFrame rxf
      armed.claimFree 0 5 = true ∧ (t.core 0).tiles.getD 5 .reset = ⟨2, 2, .filling, 46, 0⟩ ∧ ((t.part 0).flow.getD 0 .reset).hits = 0 ∧ (t.core 0).land = [(1, ⟨[], 7⟩)] ∧
        t.posted.map (fun w => (w.dest, w.land, w.cells.length, (w.cells.headD (0, 0)).1)) = [(some 0, some ⟨⟨0, 1, 0⟩, 5, 0, 0⟩, 46, 512)] ∧
        (let u := t.updCore 0 fun k => { k with tiles0 := k.tiles }
         u.tileIs 0 5 .filling = true ∧ leads .postedWritePerform u (fun v => (v.core 0).tiles.getD 5 .reset == ⟨2, 2, .ready, 46, 46⟩ && ((v.part 0).flow.getD 0 .reset).hits == 1 &&
           memByte (v.core 0).sram 544 == 2 && v.posted.isEmpty) = true) ∧
        (let u := t.updCore 0 fun k => { k with task := none }
         leads .postedWritePerform u (fun v => v.cores == u.cores && ((v.part 0).flow.getD 0 .reset).hits == 0 && v.posted.isEmpty) = true)) ∧
     (let s := armed.updCore 0 fun k => { k with land := [(1, ⟨[4], 6⟩)] }
      firstEmpty (s.core 0).tiles0 [4] = none ∧ (((s.landFrame rxf).part 0).flow.getD 0 .reset).drops = 1) ∧
     (((armed.landFrame { rxf with core := 8 }).part 0).flow.getD 0 .reset).drops = 1 := by decide +kernel
/-- A partition descriptor: PDVER 1, VALID, DEFSP 4, one queue, ring of 2^8. -/
def dsc : BitVec 512 := 0x8 * 2 ^ 192 + 0x01400101
def up0 (v : Nat) (e : Bool) : State := base.updPart 0 fun p => { p with desc := { p.desc with expert := e, ringlog := 0 }, queues := [(0, { Queue.reset with qlog := v, st := if e then .active else .disabled })] }
theorem witness_RegistersAndTenantReset : (base.part 0).hasQueue 0 = true ∧ (base.part 0).resetting = false ∧ (base.part 0).desc.expert = false ∧
    leads (.registerWrite (.qbase ⟨0, by decide⟩ 0) 0x1000) (up0 4 false) (fun t => ((t.part 0).queue 0).qbase == 0x1000) = true ∧
    leads (.registerWrite (.qbase ⟨0, by decide⟩ 0) 0x1000) (up0 4 true) (fun t => t == up0 4 true) = true ∧
    leads (.registerWrite (.scb ⟨0, by decide⟩ 4) 0xFFFFFFFFFFFFFFFF) base (fun t => (t.part 0).scb.vec == 0x000FFFFFFFFFFFC0) = true ∧
    leads (.rpctlWrite ⟨0, by decide⟩ 1) base (fun t => t == base) = true ∧ leads (.rpctlWrite ⟨0, by decide⟩ 1) (up0 4 true) (fun t => (t.part 0).lastwin) = true ∧
    leads (.trstGo 0xF0000) base (fun t => t.mgmt.trstPart == 15 && t.mgmt.resets.isEmpty) = true ∧ leads (.trstGo 1) base (fun t => t.mgmt.resets == [0] && (t.part 0).resetting) = true ∧
    leads (.trstGo 0xF0001) base (fun t => t.mgmt.resets == [15]) = true ∧
    (let s := base.updPart 0 fun p => { p with resetting := true }
     leads (.trstGo 1) s (fun t => t == s) = true) ∧
    leads (.registerWrite .ptpServo 200) base (fun t => t.mgmt.ppm == 200) = true ∧ leads (.registerWrite .ptpServo (-200)) base (fun t => t.mgmt.ppm == -200) = true ∧
    leads (.registerWrite .ptpServo 201) base (fun t => t == base) = true ∧ leads (.registerWrite .ptpServo (-201)) base (fun t => t == base) = true ∧
    leads (.registerWrite .ptpStep 5) base (fun t => t == base) = true ∧ (∃ e ∈ base.parts, e.2.desc.valid = true) ∧ base.mgmt.stepped = false ∧ State.reset.mgmt.stepped = false ∧
    (∀ e ∈ State.reset.parts, e.2.desc.valid = false) ∧ leads (.registerWrite .ptpStep 5) State.reset (fun t => t.ptp == 5 * ptpUnit && t.mgmt.stepped) = true ∧
    leads (.registerWrite (.retainPart 15) 0xF00000) base (fun t => (t.retain.getD 15 .reset).part == 15) = true ∧
    leads (.registerWrite (.memory (hbmEnd - 8) false) 0x102) base (fun t => t.posted.map (fun w => w.cells.take 2) == [[(hbmEnd - 8, 2), (hbmEnd - 7, 1)]]) = true ∧ (hbmEnd - 8) % 8 = 0 ∧
    leads (.registerWrite (.memory hbmEnd false) 1) base (fun t => t == base) = true ∧ leads (.registerWrite (.memory 4 false) 1) base (fun t => t == base) = true ∧
    base.mgmt.resets = [] ∧ (descOf dsc 0).ok = true := by decide +kernel
theorem witness_RegistersAndTenantReset_perform :
    ((up0 4 true).updMgmt fun m => { m with resets := [0] }).mgmt.resets = [0] ∧
    leads (.tenantResetPerform dsc) ((up0 4 true).updMgmt fun m => { m with resets := [0] }) (fun t => t.launches.isEmpty && (t.part 0).nextLid == 1 && (t.core 0).task == none) = true ∧
    (let s := (up0 4 true).updMgmt fun m => { m with resets := [0] }
     (descOf 0 0).valid = false ∧ leads (.tenantResetPerform 0) s (fun t => t.mgmt.resets.isEmpty) = true ∧
     (descOf 0x00400101 0).valid = true ∧ (descOf 0x00400101 0).ok = false ∧ leads (.tenantResetPerform 0x00400101) s (fun t => t == s) = true) := by decide +kernel


def dgram (op : Byte) (req : W32) (body : List Byte) (sig : Nat) : Datagram := ⟨op, req, 1, body, beBytes 32 sig ++ beBytes 32 sig⟩
/-- The firmware runs; the operator key of one request is loaded. -/
def firm (x y : Nat) : State := base.updMgmt fun m => { m with boot := .running, opKey := some (x, y), image := List.replicate 1025 0x5A }
def loading (p : Option (BitVec 128)) (n : Nat) (cs : Tab (List Byte)) : State := base.updMgmt fun m => { m with boot := .fetching false p n cs }
/-- Status of the last answer. -/
def answered (t : State) (st : Nat) (n : Nat) : Bool :=
  match t.out.getLast? with
  | some (.reply _ _ c b) => c == st && b.length == n
  | _ => false
theorem witness_ManagementService : State.reset.mgmt.boot = .off ∧ leads .powerOn State.reset (fun t => t.mem.isEmpty && (t.port 0).st == .training) = true ∧
    ((State.reset.askImage false 0).out.length = 2) ∧ (firm 0 0).mgmt.boot = .running ∧ leads .powerOn (firm 0 0) (fun t => t == firm 0 0) = true ∧ base.mgmt.opKey = none ∧
    leads (.operatorKeyLoad 3 4) base (fun t => t.mgmt.opKey == some (3, 4)) = true ∧ leads (.operatorKeyLoad 3 4) (firm 0 0) (fun t => t == firm 0 0) = true ∧
    leads (.imageReplyReceive 9 0 1025 0 (List.replicate 1024 1)) (loading none 0 []) (fun t => t.out.length == 2) = true ∧
    leads (.imageReplyReceive 8 0 1025 1024 [1]) (loading (some 9) 1025 []) (fun t => t == loading (some 9) 1025 []) = true ∧
    imagePending (some 9) 1025 [] 1024 = true ∧ imagePending (some 9) 1025 [] 2048 = false ∧ imagePending none 0 [] 0 = true ∧
    leads (.imageRequestResend 1024) (loading (some 9) 1025 []) (fun t => t.out.length == 2) = true ∧
    leads .imagePartyAbandon (loading (some 9) 1025 []) (fun t => t.mgmt.boot == .fetching true none 0 []) = true := by decide +kernel
theorem witness_ManagementService_requests :
    leads (.identity (dgram 1 0 [] 0)) (firm 0 0) (fun t => t.out.length == 1) = true ∧ leads (.attest (dgram 2 0 [] 0)) (firm 0 0) (fun t => answered t 3 0) = true ∧
    leads (.attest (dgram 2 0 (List.replicate 32 0) 0)) (firm 0 0) (fun t => t.out.length == 1) = true ∧
    leads (.identity (dgram 1 0 [] 0)) base (fun t => t.out.isEmpty) = true ∧
    leads (.crashRead (dgram 4 0 [0xFF, 3] 0)) (firm 0 0) (fun t => answered t 0 256) = true ∧ ofBytes [(0xFF : Byte), 3] = 1023 ∧
    leads (.errlogRead (dgram 5 0 [0xE0, 3, 0, 0, 32, 0, 0, 0] 0)) (firm 0 0) (fun t => answered t 0 1024) = true ∧
    leads (.imageGet (dgram 9 0 [0, 4, 0, 0, 0, 0, 0, 0] 0) false) (firm 0 0) (fun t => answered t 0 9) = true ∧
    leads (.sidebandUnknownOpcode (dgram 0 0 [] 0)) (firm 0 0) (fun t => answered t 1 0) = true ∧ leads (.sidebandUnknownOpcode (dgram 10 0 [] 0)) (firm 0 0) (fun t => answered t 1 0) = true ∧
    (firm 0 0).signedOk (dgram 3 0 [] 0) = false ∧ leads (.fwCommit (dgram 7 0 [] 0)) (firm 0 0) (fun t => answered t 2 0) = true := by decide +kernel
/-- Signatures made by hand under a key made for each: r and s are the hash, and the key is (r's point) - G. -/
theorem witness_ManagementService_signed :
    (let d := dgram 3 2 [0] 0x36beccf291ad3379370fd7af2f0021aabe8932b328187e725038ff8d1464e3e
     let s := firm 0x1173bf7d87fe4c8ef969935d091119fc2d93949041fddf3f912fd0dec1366d05 0x36731db38c1757e226f10946a6b9b27cfcd70374e5f4d132b97c3d6dea0a2087
     s.signedOk d = true ∧ (s.part 0).desc.valid = true ∧ (s.part 0).resetting = false ∧ leads (.tenantReset d) s (fun t => t.mgmt.resets == [0] && t.mgmt.counter == some 1 && answered t 0 0) = true) ∧
    (let d := dgram 6 2 [0, 0, 0, 0, 9] 0x6b2fb14581d0c0d2a1eb682fe04ffc04971913d59546deacdbb16eb0c5ac3cb4
     let s := firm 0x2caad84dae24fcaa796c1c842d6b8d3e24af103c451e4ae4346f0b5d4fbcc824 0x37b92a69e93c87c73a6cf50b2dbc22f78503569f6fc77cc937944db02583d7c0
     s.signedOk d = true ∧ leads (.fwStage d) s (fun t => t.mgmt.staged == [(0, [9])] && answered t 0 0) = true) ∧
    (let d := dgram 7 3 [0] 0xbbaa1f1aa5107fb72e975ea559bc69bfa11c91608e36aeb6fcfdb0b83b9c6eed
     let s := firm 0xdc6300263dc824e940c08fc6cb90ec4e1fd60e1627ab8bf52cc5a96b30562a4c 0xa29d80d01fd118c0a64118c800725e8e10992a157415f40c48bda0840e6bddf2
     s.signedOk d = true ∧ leads (.fwCommit d) s (fun t => t.mgmt.counter == some 1 && answered t 3 0) = true) ∧
    (let d := dgram 8 1 [2] 0x45665439c5ef2514ce83d6ec3ebac81baf7825997c20c6902c2b2c8d380e8d80
     let s := firm 0xd1d283268dee2d202d76a4c730ba986eaee88b46e3d97354da99858b119fbe90 0x298bfdd40d83c2bcb9bf3fd90edf90f697ea46616225f94f57252ec511c5a528
     s.signedOk d = true ∧ (s.port 2).st = .down ∧ leads (.linkRetrain d) s (fun t => (t.port 2).st == .training) = true) := by decide +kernel
theorem witness_ManagementService_clusters :
    (∀ b, b < 8 → base.quiet (8 + b) = true) ∧ base.boundedCluster 1 = false ∧ base.quiet 0 = false ∧ leads (.clusterGate ⟨1, by decide⟩) base (fun t => t.mgmt.gated == [1]) = true ∧
    leads (.clusterGate ⟨0, by decide⟩) base (fun t => t == base) = true ∧ leads (.clusterWake ⟨1, by decide⟩ true) base (fun t => t == base) = true ∧
    (let s := placed.updMgmt fun m => { m with gated := [1] }
     1 ∈ s.mgmt.gated ∧ (∃ l ∈ s.launches, placed.eligible l = true ∧ ∃ b, b < 8 ∧ placed.fitsNext l 1 b = true) ∧
       leads (.clusterWake ⟨1, by decide⟩ true) s (fun t => t == placed) = true ∧ leads (.clusterWake ⟨1, by decide⟩ false) s (fun t => t.mgmt.fenced == [1] && t.out == [.stall 0 1]) = true) ∧
    leads (.thermalTrip 3) base (fun t => t.mgmt.trip == [3]) = true := by decide +kernel

/-! ### Status values, checks of targets and accesses, buffers -/

def okIs {α : Type} [BEq α] (r : Res α) (x : α) (s : State) : Bool :=
  match r with
  | .ok y t => y == x && t == s
  | _ => false
def trapIs {α : Type} (r : Res α) (s : State) (c : Byte) (a i : W64) : Bool :=
  match r with
  | .trap t e b k => t == s && e == c && b == a && k == i
  | _ => false
def trapAt {α : Type} (r : Res α) (c : Byte) (a i : W64) : Bool :=
  match r with
  | .trap _ e b k => e == c && b == a && k == i
  | _ => false

theorem witness_StatusRegisters_values : base.myTask = some task ∧ base.myLaunch = some lnch ∧ base.status 0x09 = some 3 ∧ base.status 0x0A = some 7 ∧
    (base.at ⟨1, 0⟩).status 0x00 = some 8 ∧ (base.at ⟨1, 0⟩).status 0x01 = some 17 ∧ base.status 0x11 = some 0x0302 ∧ base.status 0x13 = some 1 ∧
    sup.myCore.bank1 = none ∧ sup.myCore.bank0 = some recd ∧ sup.status 0x15 = some 0x40 ∧ sup.status 0x16 = some 0x08000002 ∧ sup2.status 0x15 = some 0x42 := by
  decide +kernel
/-- The device region; an unmapped line; a page without X; TGT bits of slots 4 and 3 of a line in memory; a page closed to USER. -/
def noUser : State := { base with clusters := [(0, { Cluster.reset with tlb := [⟨0, 0, 2 ^ 30, 0x100000003B⟩] })], mem := base.mem.filter fun c => decide (0x2000001000 < c.1 ∨ c.1 < 0x2000001000) }
theorem witness_ControlTransfers_checks :
    ((0xFFFF000000000 : W64) &&& 0xFFF0000000000038 = 0 ∧ ((0xFFFF000000000 : W64) &&& 7).toNat ≤ 4 ∧ trapsAs (base.checkTarget 0xFFFF000000000 true) 0x11 = true) ∧
    ((base.lookup 0 0 0x8000000000).1 = .inr 0 ∧ trapsAs (base.checkTarget 0x8000000000 true) 0x10 = true) ∧
    ((base.lookup 0 0 0x40000000).1.isLeft = true ∧ (0x080000110000001F : W64).getLsbD 5 = false ∧ trapsAs (base.checkTarget 0x40000000 true) 0x11 = true) ∧
    (let s : State := { base with mem := [(0x101000003C, 0x10)] ++ base.mem }
     (0x100000003F : W64).getLsbD 5 = true ∧ (0x100000003F : W64).getLsbD 2 = true ∧ l0Get s.myCore 0x400000 = none ∧
       gives (s.checkTarget 0x10000004 true) (fun _ _ => true) = true ∧ trapsAs (s.checkTarget 0x10000003 true) 0x05 = true) ∧
    (noUser.cur.slot ≠ 7 ∧ (0x100000003B : W64).getLsbD 2 = false) ∧ okIs (marked.checkTarget 0x08000001 true) () marked = true := by decide +kernel

/-- Core 1 waits in `gang.4` when core 0 asks for two; core 1 waits for core 0, whose thread has ended. -/
theorem witness_GangFormation_infos :
    (let s := base.updThr ⟨1, 0⟩ fun t => { t with pend := some ⟨0, 0, regs, 0, .reset, 0, 0, .gang 4⟩ }
     s.cur.slot < 7 ∧ (s.part s.myPart).scb.en = true ∧ (1 ∈ gangCores 0 0 2 ∨ 0 ∈ gangCores 1 1 4) ∧ (s.thr ⟨1, 0⟩).gang = none ∧ (s.core 1).task = s.myCore.task ∧
       leads (.gang ⟨hdr, .g2⟩) s (fun t => (t.thr ⟨1, 0⟩).status == .parked && ((t.core 1).queue.map fun r => (r.cause, r.info)) == [(0xA0, 4)] && t.th.status == .parked) = true) ∧
    (let s := ((base.updThr ⟨1, 0⟩ fun t => { t with pend := some ⟨0, 0, regs, 0, .reset, 0, 0, .gang 2⟩ }).updThr ⟨0, 0⟩ fun t => { t with status := .ended }).at ⟨1, 0⟩
     (s.th.pend.map (·.stage)) = some (.gang 2) ∧ s.cur.slot < 7 ∧ (∃ k ∈ gangCores 1 (s.myCore.bidx % 2) 2, (s.thr ⟨k, s.cur.slot⟩).status ≠ .running) ∧
       (s.part s.myPart).scb.en = true ∧ s.th.gang = none ∧
       (match s.pollThread with | .used t => t.th.status == .parked && (t.myCore.queue.map fun r => (r.cause, r.info)) == [(0xA0, 8)] | _ => false) = true) ∧
    waitsIn ((base.updThr ⟨0, 0⟩ fun t => { t with pend := some ⟨0, 0, regs, 0, .reset, 0, 0, .gang 2⟩ }).pollThread) = true := by decide +kernel

/-- Levels 0 and 1: a pointer, then a leaf; entries that are not valid; a leaf at level 0; a pointer with a page bit. -/
theorem witness_LoadsAndPrefetch_walk :
    (0x10000100 / 2 ^ 39 % 2 ^ 13 = 0 ∧ 0x10000100 / 2 ^ 30 % 2 ^ 9 = 0 ∧ ofBytes (memBytes base.mem 0x2000000000 8) = 0x2000001001 ∧
      ofBytes (memBytes base.mem 0x2000001000 8) = 0x100000003F ∧ (match walk base.mem 0x2000000000 0x10000100 with | .leaf e n _ => e == 0x100000003F && n == 2 ^ 30 | _ => false) = true) ∧
    (match walk base.mem 0x2000000000 (2 ^ 39) with | .fault i _ => i == 0 | _ => false) = true ∧
    (match walk base.mem 0x2000000000 (2 ^ 31) with | .fault i _ => i == 1 | _ => false) = true ∧
    (match walk (cell 0x2000000000 8 0x1003) 0x2000000000 0 with | .fault i _ => i == 4 | _ => false) = true ∧
    (match walk ((cell 0x2000000000 8 0x2000001001 ++ cell 0x2000001000 8 0x2000002005).filter fun c => c.2 != 0) 0x2000000000 0 with | .fault i _ => i == 5 | _ => false) = true ∧
    (base.lookup 0 0 0x10000100).1 = .inl ⟨0, 2 ^ 30, 0x1000000000, 0x100000003F⟩ ∧ ((base.lookup 0 0 0x10000100).2.cluster 0).tlb = (base.cluster 0).tlb := by decide +kernel
/-- The end of the address space; the last byte of a split, and one past it; a block window; the capability list. -/
theorem witness_LoadsAndPrefetch_windows :
    2 ^ 52 < (2 ^ 52 - 4) + 8 ∧ trapsAs (base.access base.agent (0xFFFFFFFFFFFFC) 8 .load false) 0x12 = true ∧
    (0xFFFF000000000 + 0x3FFFF : Nat) + 1 ≤ 2 ^ 52 ∧ 0x3FFFF + 1 ≤ 65536 * (base.core 0).sp ∧ (base.blockOf 0).length ≤ 8 ∧
    okIs (base.access base.agent 0xFFFF00003FFFF 1 .load false) (.sp 0 0x3FFFF) base = true ∧ trapIs (base.access base.agent 0xFFFF000040000 1 .load false) base 0x12 0xFFFF000040000 0 = true ∧
    trapIs (base.access base.agent 0xFFFF00003FFFF 1 .load true) base 0x11 0xFFFF00003FFFF 0 = true ∧
    (base.blockOf 0)[7]? = some 7 ∧ okIs (base.access base.agent 0xFFFF100700010 4 .store false) (.sp 7 0x10) base = true ∧
    okIs (base.access base.agent 0xFFFF200000FF8 8 .load false) (.cap 0xFF8) base = true ∧ trapIs (base.access base.agent 0xFFFF200000FF8 8 .both false) base 0x11 0xFFFF200000FF8 3 = true := by
  decide +kernel
/-- One page, two pages of different kinds, a page that is not mapped; alignment; the type of a page. -/
theorem witness_LoadsAndPrefetch_pages :
    (0x3FFFFFFC : W64).toNat + 8 ≤ 0xFFFF000000000 ∧ (base.lookup 0 0 0x3FFFFFFC).1.isLeft = true ∧ (base.lookup 0 0 0x40000000).1.isLeft = true ∧
    trapsAs (base.access base.agent 0x3FFFFFFC 8 .load false) 0x12 = true ∧ gives (base.access base.agent 0x3FFFFFFC 4 .load false) (fun p _ => p.isMem) = true ∧
    (base.lookup 0 0 0x80000000).1 = .inr 1 ∧ trapAt (base.access base.agent 0x7FFFFFFC 8 .load false) 0x10 0x80000000 1 = true ∧
    trapAt (base.access base.agent 0x80000000 8 .load false) 0x10 0x80000000 1 = true ∧
    trapIs (base.access base.agent 0x40000000 8 .fetch false) base 0x11 0x40000000 4 = true ∧
    okIs (base.accessAligned base.agent 0x10000104 4 4 .load false) (.mem [⟨0, 2 ^ 30, 0x1000000000, 0x100000003F⟩]) base = true ∧
    trapIs (base.accessAligned base.agent 0x10000102 4 4 .load false) base 0x13 0x10000102 0 = true ∧
    (let p := Place.mem [⟨0x80000000, 2 ^ 30, 0x1100000000, 0x300000110000001F⟩]
     vtyB .f16 = 2 ∧ trapIs (base.typed p 0x80000101 .f16) base 0x13 0x80000101 0 = true ∧ vtyFmt .e4m3 = 3 ∧ p.fmt = 3 ∧ okIs (base.typed p 0x80000101 .e4m3) true base = true ∧
       vtyFmt .e5m2 ≠ 3 ∧ trapIs (base.typed p 0x80000100 .e5m2) base 0x14 0x80000100 0 = true ∧
       (let s := base.updTh fun t => { t with mode := { t.mode with fmtovr := true } }
        okIs (s.typed p 0x80000100 .e5m2) false s = true) ∧ okIs (base.typed p 0x80000100 .n32) false base = true) := by decide +kernel

/-- Two bytes of the youngest store-buffer entry; of the block buffer; of the L1 copy; an entry that covers one of them. -/
def heldEntry (n : Nat) : Entry := { someEntry with id := 3, cells := (List.range n).map fun i => ⟨0x1010000100 + i, 0x10000100 + i, BitVec.ofNat 8 (0x60 + i), false⟩ }
def ldHalf : Instr := .ld ⟨hdr, false, .core, .n16, 10, ⟨6, .i 0⟩⟩
theorem witness_LoadsAndPrefetch_buffers :
    gives (base.accessAligned base.agent (base.addr ⟨6, .i 0⟩) 2 2 .load false) (fun p s => p == .mem [⟨0, 2 ^ 30, 0x1000000000, 0x100000003F⟩] && gives (s.phaseGate true) fun _ u =>
      u == base && u.myShingle == none && u.posted.isEmpty) = true ∧
    (∀ i, i < 2 → paOf [⟨0, 2 ^ 30, 0x1000000000, 0x100000003F⟩] (0x10000100 + i) = 0x1010000100 + i ∧ (0x1010000100 + i) / 128 = 0x1010000100 / 128) ∧
    leads ldHalf (base.updMyCore fun k => { k with sb := [heldEntry 2] }) (fun t => reply t == some [(10, 0x6160)]) = true ∧
    leads ldHalf (base.updMyCore fun k => { k with sb := [heldEntry 1] }) (fun t => passes t && t.myCore.sb == [heldEntry 1]) = true ∧
    leads ldHalf (base.updCluster 0 fun k => { k with bb := [heldEntry 2] }) (fun t => reply t == some [(10, 0x6160)]) = true ∧
    (let s := base.updMyCore fun k => { k with l1 := [⟨0x20200002, none, 0x7778⟩] }
     s.myCore.l1.find? (fun e => e.line == 0x1010000100 / 128 && e.sh == none) = some ⟨0x20200002, none, 0x7778⟩ ∧ leads ldHalf s (fun t => t.rs 10 == 0x7778) = true ∧
       leads ldHalf (s.updMyCore fun k => { k with sb := [heldEntry 2] }) (fun t => t.rs 10 == 0x6160) = true) := by decide +kernel

/-! ### Values of elements -/

theorem fdec_minus : fdec fF32 0xBF800000 = .fin true 8388608 (-23) := by decide +kernel
/-- 1.0, a signalling NaN and -infinity as f16; a block of SX3 with shared exponent 255, and one of 128 whose element 1 is 1; codes of a table with -128. -/
theorem witness_VectorAccesses_values :
    (VTy.f16, fF16, 2) ∈ [(VTy.f16, fF16, 2), (.bf16, fBf16, 2), (.e4m3, fE4m3, 1), (.e5m2, fE5m2, 1)] ∧
    finite (fdec fF16 (field [0x00, 0x3C, 0x01, 0x7C, 0, 0xFC] 0 2)) ∧ (fdec fF16 (field [0x00, 0x3C, 0x01, 0x7C, 0, 0xFC] 2 2)).isNan = true ∧
    fdec fF16 (field [0x00, 0x3C, 0x01, 0x7C, 0, 0xFC] 4 2) = .inf true ∧
    decodeElem .f16 (0, 0) [0x00, 0x3C, 0x01, 0x7C, 0, 0xFC] 0 = (0x3F800000, 0) ∧ decodeElem .f16 (0, 0) [0x00, 0x3C, 0x01, 0x7C, 0, 0xFC] 1 = (0x7FC00000, 1) ∧
    decodeElem .f16 (0, 0) [0x00, 0x3C, 0x01, 0x7C, 0, 0xFC] 2 = (0xFF800000, 0) ∧
    (VTy.sx3, 2) ∈ [(VTy.sx3, 2), (.sx5, 4), (.sx8, 7)] ∧ decodeElem .sx3 (0, 0) [0xFF, 0, 0, 0, 0, 0, 0, 0] 3 = (0x7FC00000, 1) ∧
    decodeElem .sx3 (0, 0) [0x80, 0, 0x2A, 0, 0, 0, 0, 0] 0 = (0x40000000, 0) ∧ decodeElem .sx3 (0, 0) [0x80, 0, 0x2A, 0, 0, 0, 0, 0] 1 = (0xBF800000, 0) ∧
    decodeElem .c4 (0x8001, 0) [0x10, 0, 0, 0, 0, 0, 0, 0] 1 = (0xC3000000, 0) ∧
    VTy.i32 ∈ [VTy.n32, .i32, .f32] ∧ (encodeElems .i32 (0, 0) .rne false false 7 [0] 0 32).1.take 5 = [7, 0, 0, 0, 0] ∧
    (encodeElems .f16 (0, 0) .rne false false 0x3F800000 [0] 0 32).1.take 2 = [0x00, 0x3C] := by
  refine ⟨by decide, ⟨false, 1024, -10, by decide +kernel⟩, ?_⟩; decide +kernel
/-- Sixteen values of which one is a NaN, of which one is -infinity, and of which one is 1 and the others 0. -/
def ones (v : FVal) : List FVal := v :: List.replicate 15 (.fin false 0 0)
theorem witness_VectorAccesses_blocks :
    (∃ v ∈ ones (.nan true), v.isNan = true) ∧ ((∀ v ∈ ones (.inf true), v.isNan = false) ∧ (ones (.inf true)).getD 0 (.fin false 0 0) = .inf true) ∧
    (∀ v ∈ ones (.fin false 1 0), finite v) ∧
    (∃ z : Nat → Nat → Nat → Int, ∀ j e t : Nat, RoundsInt .rdn (rat ((ones (.fin false 1 0)).getD j (.fin false 0 0)) / (2 : ℚ) ^ ((e : ℤ) - 127 - ((2 : ℤ) - 1) - t)) (z j e t)) ∧
    (∃ j, j < 16 ∧ (2 : ℚ) ^ (0 : ℤ) ≤ |rat ((ones (.fin false 1 0)).getD j (.fin false 0 0))|) ∧
    (∀ j, j < 16 → |rat ((ones (.fin false 1 0)).getD j (.fin false 0 0))| < (2 : ℚ) ^ ((0 : ℤ) + 1)) ∧
    (∀ j, j < 16 → rat ((List.replicate 16 (FVal.fin false 0 0)).getD j (.fin false 0 0)) = 0) ∧ (sxEnc .rne 2 (ones (.nan true))).1 = 0xFF := by
  refine ⟨by decide +kernel, by decide +kernel, ?_, ?_, ⟨0, by decide, ?_⟩, ?_, ?_, by decide +kernel⟩
  · intro v h; rcases List.mem_cons.mp h with rfl | h
    · exact ⟨_, _, _, rfl⟩
    · rw [List.eq_of_mem_replicate h]; exact ⟨_, _, _, rfl⟩
  · exact ⟨fun _ _ _ => ⌊_⌋, fun _ _ _ => ⟨Int.floor_le _, Int.lt_floor_add_one _⟩⟩
  · norm_num [ones, rat]
  · intro j h; interval_cases j <;> norm_num [ones, rat]
  · intro j h; interval_cases j <;> norm_num [rat]
/-- 1 < 2; -infinity and a number; two infinities. -/
theorem witness_VectorCompares_order :
    finite (fdec fF32 0x3F800000) ∧ finite (fdec fF32 0x40000000) ∧ rat (fdec fF32 0x3F800000) < rat (fdec fF32 0x40000000) ∧
    laneRel .lt .f32 0x3F800000 0x40000000 = (true, 0) ∧ laneRel .ge .f32 0x3F800000 0x40000000 = (false, 0) ∧
    fdec fF32 0xFF800000 = .inf true ∧ laneRel .lt .f32 0xFF800000 0x3F800000 = (true, 0) ∧ fdec fF32 0x7F800000 = .inf false ∧
    laneRel .gt .f32 0x7F800000 0xFF800000 = (true, 0) := by
  refine ⟨⟨_, _, _, fdec_one⟩, ⟨_, _, _, fdec_two⟩, ?_, by decide +kernel⟩
  rw [fdec_one, fdec_two]; norm_num [rat]
/-- 2^31 and -1 are out of range, 1.5 rounds to 2; a NaN; infinities; f32 to f16. -/
theorem witness_VectorConversions_values :
    cvtFmt .f32 = some fF32 ∧ cvtFmt .f16 = some fF16 ∧ 0x3F800000 < 2 ^ fF32.width ∧ finite (fdec fF32 0x3F800000) ∧ convert .f32 .f16 .rne false false 0x3F800000 = (0x3C00, 0) ∧
    (fdec fF32 0x7FC00000).isNan = true ∧ convert .f32 .f16 .rne false false 0x7FC00000 = (0x7E00, 0) ∧ fdec fF32 0xFF800000 = .inf true ∧
    convert .f32 .e4m3 .rne false false 0xFF800000 = (0xFE, 6) ∧ convert .f32 .f16 .rne false false 0xFF800000 = (0xFC00, 0) ∧
    convert .i32 .f32 .rne false false 0xFFFFFFFF = (0xBF800000, 0) ∧
    (finite (fdec fF32 0xBF800000) ∧ RoundsInt .rne (rat (fdec fF32 0xBF800000)) (-1) ∧ (-1 : Int) < 0 ∧ convert .f32 .n32 .rne false false 0xBF800000 = (0, 1)) ∧
    convert .f32 .i32 .rne false false 0x4F000000 = (0x7FFFFFFF, 1) ∧ convert .f32 .n32 .rne false false 0x3FC00000 = (2, 4) ∧
    convert .f32 .i32 .rne false false 0x7FC00000 = (0, 1) ∧ convert .f32 .i32 .rne false false 0xFF800000 = (0x80000000, 1) := by
  refine ⟨by decide +kernel, by decide +kernel, by decide +kernel, ⟨_, _, _, fdec_one⟩, by decide +kernel, by decide +kernel, by decide +kernel, by decide +kernel, by decide +kernel,
    by decide +kernel, by decide +kernel, ⟨⟨_, _, _, fdec_minus⟩, ?_, by decide, by decide +kernel⟩, by decide +kernel⟩
  rw [fdec_minus]; norm_num [RoundsInt, rat]
/-- The roots of 4 and of -1; 1/3, 1/0, 0/0; 2^1, 2^128 and 2^-150. -/
theorem witness_SpecialFunctions_exact :
    (finite (fdec fF32 0x40800000) ∧ 0 < rat (fdec fF32 0x40800000) ∧ fnSqrt .rne 0x40800000 = (0x40000000, 0)) ∧
    (finite (fdec fF32 0xBF800000) ∧ rat (fdec fF32 0xBF800000) < 0 ∧ fnSqrt .rne 0xBF800000 = (0x7FC00000, 1)) ∧
    (finite (fdec fF32 0x3F800000) ∧ rat (fdec fF32 0x3F800000) ≠ 0 ∧ fnDiv .rne 0x3F800000 0x40400000 = (0x3EAAAAAB, 4)) ∧
    (finite (fdec fF32 0) ∧ rat (fdec fF32 0) = 0 ∧ fnDiv .rne 0x3F800000 0 = (0x7F800000, 0) ∧ fnDiv .rne 0 0 = (0x7FC00000, 1)) ∧
    (rat (fdec fF32 0x40000000) = (2 : ℤ) ∧ (-149 : ℤ) ≤ 2 ∧ (2 : ℤ) ≤ 127 ∧ fnExp2 0x40000000 = (0x40800000, 0)) ∧
    (rat (fdec fF32 0x43000000) = (128 : ℤ) ∧ fnExp2 0x43000000 = (0x7F800000, 6)) ∧ (rat (fdec fF32 0xC3160000) = (-150 : ℤ) ∧ fnExp2 0xC3160000 = (0, 4)) := by
  have a : fdec fF32 0x40800000 = .fin false 8388608 (-21) := by decide +kernel
  have z : fdec fF32 0 = .fin false 0 (-149) := by decide +kernel
  have b : fdec fF32 0x43000000 = .fin false 8388608 (-16) := by decide +kernel
  have c : fdec fF32 0xC3160000 = .fin true 9830400 (-16) := by decide +kernel
  rw [a, z, b, c, fdec_one, fdec_two, fdec_minus]
  refine ⟨⟨⟨_, _, _, rfl⟩, by norm_num [rat], by decide +kernel⟩, ⟨⟨_, _, _, rfl⟩, by norm_num [rat], by decide +kernel⟩, ⟨⟨_, _, _, rfl⟩, by norm_num [rat], by decide +kernel⟩,
    ⟨⟨_, _, _, rfl⟩, by norm_num [rat], by decide +kernel⟩, ⟨by norm_num [rat], by decide, by decide, by decide +kernel⟩, ⟨by norm_num [rat], by decide +kernel⟩,
    ⟨by norm_num [rat], by decide +kernel⟩⟩
/-- Entries 0, 1, 2 and 4: 3 lies between two of them and takes the lower code; -infinity the least, by the lowest code. -/
theorem witness_FlagsAndCodeTable_codes : finite (fdec fF32 0x3F800000) ∧ ctEnc 0x04020100 0 (fdec fF32 0x3F800000) = (1, 0) ∧
    ctEnc 0x04020100 0 (fdec fF32 0x40400000) = (2, 4) ∧ ctEnc 0x04020100 0 (.inf true) = (0, 6) ∧ (fdec fF32 0x7FC00000).isNan = true ∧
    ctEnc 0x04020100 0 (fdec fF32 0x7FC00000) = (0, 1) := by
  refine ⟨⟨_, _, _, fdec_one⟩, by decide +kernel⟩

/-! ### Shingles, orders, polls -/

theorem eraseDups_nodup : ∀ l : List Nat, l.Nodup → l.eraseDups = l
  | [], _ => rfl
  | a :: r, h => by
    rw [List.eraseDups_cons, List.filter_eq_self.mpr, eraseDups_nodup r (List.nodup_cons.mp h).2]
    intro b hb
    have : b ≠ a := fun e => (List.nodup_cons.mp h).1 (e ▸ hb)
    simpa using this
/-- A launch in reproducible mode whose task has `n` lines in its shingle of phase 1. -/
def shingled (n : Nat) : State := { base with launches := [{ lnch with repro := true, laid := 1, shingles := [((0, 1), (List.range n).map fun i => ⟨i, 0, 0, 0⟩)] }] }
theorem shingled_lines (n : Nat) : (shingled n).pendingLines (⟨0, 1, 0⟩, 1) = List.range n := by
  let own (es : List Entry) : List Nat := (es.filter fun e => e.shingle = some (⟨0, 1, 0⟩, 1)).flatMap fun e => e.cells.map fun c => c.va / 128
  show (((List.range n).map fun i => (⟨i, 0, 0, 0⟩ : ShLine)).map (·.line) ++ (base.cores.flatMap fun c => own c.2.sb) ++ (base.clusters.flatMap fun c => own c.2.bb)).eraseDups = _
  have h : (base.cores.flatMap fun c => own c.2.sb) = [] ∧ (base.clusters.flatMap fun c => own c.2.bb) = [] := by decide +kernel
  rw [h.1, h.2, List.append_nil, List.append_nil, List.map_map, show (fun x : ShLine => x.line) ∘ (fun i => (⟨i, 0, 0, 0⟩ : ShLine)) = id from rfl, List.map_id]
  exact eraseDups_nodup _ List.nodup_range
theorem witness_StoreEntersBuffer_shingles :
    (shingled 0).myShingle = some (⟨0, 1, 0⟩, 1) ∧ gives ((shingled 0).accessAligned base.agent (base.addr ⟨6, .i 8⟩) 2 2 .store false) (fun p s => p.isMem && s == shingled 0 &&
      gives (s.phaseGate p.isMem) (fun _ u => u == shingled 0) && !(s.shFull s.myShingle [⟨0x1010000108, 0x10000108, 1, false⟩])) = true ∧
    leads (.st ⟨hdr, false, .device, .i16, ⟨6, .i 8⟩, 4⟩) (shingled 0) (fun t => (t.myCore.sb.map (·.shingle)) == [some (⟨0, 1, 0⟩, 1)]) = true ∧
    (shingled 65536).shFull (some (⟨0, 1, 0⟩, 1)) [⟨0x1010000108, 0x10000108, 1, false⟩] = true := by
  refine ⟨by decide +kernel, by decide +kernel, by decide +kernel, ?_⟩
  simp only [State.shFull, shingled_lines]
  simp [List.eraseDups_cons]

/-- The device region; off the natural alignment; no order, a release with room, and into a full store buffer. -/
theorem witness_AtomicsIssue_orders :
    trapsAs (base.access base.agent 0xFFFF000000000 4 .both true) 0x11 = true ∧ leads (.afadd ⟨hdr, .acqrel, .device, 10, ⟨11, .i 0⟩, 5⟩) (base.ws 11 0xFFFF000000000) (trapped 0x11 0xFFFF000000000 0) = true ∧
    leads (.casv ⟨hdr, .rel, .device, .i64, 10, 11, 5, 9⟩) (base.ws 11 0x10000104) (trapped 0x13 0x10000104 0) = true ∧
    gives (base.phaseGate true) (fun _ g => g.settleTh.myCore.sb.isEmpty && g == base) = true ∧
    leads (.casv ⟨hdr, .acqrel, .device, .i64, 10, 6, 5, 9⟩) base (fun t => sbLast t (fun e => e.rel && e.scope == .device) &&
      (match t.stageOf t.me with | some (.coh o (some _)) => o.acq == some .device | _ => false)) = true ∧
    leads (.afadd ⟨hdr, .rel, .core, 10, ⟨6, .i 0⟩, 5⟩) base (fun t => sbLast t (·.rel) && (match t.stageOf t.me with | some (.coh o none) => o.acq == none | _ => false)) = true ∧
    32 ≤ (fullSb base).settleTh.myCore.sb.length ∧ leads (.casv ⟨hdr, .rel, .device, .i64, 10, 6, 5, 9⟩) (fullSb base) passes = true ∧
    trapsAs (base.access base.agent 0xFFFF000000004 16 .store true) 0x11 = true ∧ leads (.dsignal ⟨hdr, true, 6, 5⟩) (base.ws 6 0xFFFF000000004) (trapped 0x11 0xFFFF000000004 0) = true := by
  decide +kernel
theorem witness_ValidatedAccesses_release :
    gives (base.access base.agent (base.addr ⟨6, .i 0⟩) 8 .both true) (fun _ s => gives (s.phaseGate true) fun _ _ => true) = true ∧
    leads (.stcv ⟨hdr, true, .device, .i64, 5, ⟨6, .i 0⟩, 9⟩) base (fun t => sbLast t (·.rel) && (match t.stageOf t.me with | some (.coh _ (some _)) => true | _ => false)) = true ∧
    leads (.stcv ⟨hdr, true, .device, .i64, 5, ⟨6, .i 0⟩, 9⟩) (fullSb base) passes = true ∧
    leads (.stcv ⟨hdr, false, .device, .i64, 5, ⟨6, .i 4⟩, 9⟩) base (trapped 0x13 0x10000104 0) = true ∧ base.poison = [] := by decide +kernel

/-- A poisoned word under a `stcv`. -/
theorem witness_PointOfCoherence_poison :
    (let s := { coh (.stcv 0 9) .i64 with poison := [0x1010000100 / 8] }
     leads (.coherencePointOperation ⟨0, 0⟩) s (fun t => word t == 9 && t.poison.isEmpty) = true) := by decide +kernel

/-- The last cycle before a timeout of 8 and the timeout; a version that has moved, in an earlier cycle and in this one. -/
theorem witness_WaitsAndFences_polls :
    (let s := stage (.waitv 0 0x10000100 0x1010000100 false 0 .device 8 10) base
     s.versionStart line0 false = 0 ∧ waitsIn ({ s with cycle := 7 } : State).pollThread = true ∧ goesIn ({ s with cycle := 8 } : State).pollThread (fun u => u.rs 10 == 0 && u.th.pend == none) = true ∧
       goesIn ({ s with vers := [(line0, 2)] } : State).pollThread (fun u => u.rs 10 == 0x100000002) = true ∧
       waitsIn ({ s with vers := [(line0, 2)], vers0 := [(2 * line0, 0)] } : State).pollThread = true) := by decide +kernel

/-! ### Barriers, phases, inboxes, device-side launches -/

/-- Task 0 of the launch with N threads of its block as core `c`'s slot 0; the others have ended. -/
def alone : State := { base with cores := base.cores.map fun e => if e.1 = 0 then e else (e.1, { e.2 with threads := [(0, { thread with status := .ended })] }) }
theorem witness_BarriersAndInboxes_polls :
    (let s := (stage (.barRel 7 true .block 0x201 10) base).updMyCore fun k => { k with sb := [someEntry] }
     s.relDone 0 7 .block = false ∧ waitsIn s.pollThread = true) ∧
    (let s := stage (.barRel 99 true .block 0x201 10) base
     s.relDone 0 99 .block = true ∧ (base.barrierOf base.me 1).need = 0 ∧ base.myTask.isSome = true ∧
       (match s.pollThread with | .used t => t.stageOf t.me == some (.barWait 1 0 .block 10) && t.barrierOf t.me 1 == ⟨0, 2, 1, [], none⟩ | _ => false) = true) ∧
    (match (stage (.barRel 99 false .block 0x201 10) (bar ⟨5, 2, 1, [], none⟩)).pollThread with | .used t => t.rs 10 == 5 && t.th.esn == 2 && t.th.pend == none | _ => false) = true ∧
    waitsIn (stage (.barWait 1 0 .block 10) base).pollThread = true ∧ waitsIn (stage (.barWait 1 0 .block 10) (bar ⟨1, 0, 0, [], some (0, 0)⟩)).pollThread = true ∧
    goesIn (stage (.barWait 1 0 .block 10) (bar ⟨1, 0, 0, [], none⟩)).pollThread (fun t => t.rs 10 == 0 && t.th.esn == 2) = true := by decide +kernel
theorem witness_BarriersAndInboxes_phases :
    (let s := (stage (.phRel 7 10) base).updMyCore fun k => { k with sb := [someEntry] }
     s.relDone 0 7 .device = false ∧ waitsIn s.pollThread = true) ∧
    (let s := stage (.phRel 99 10) base
     s.relDone 0 99 .device = true ∧ (match s.pollThread with | .used t => t.stageOf t.me == some (.phWait 1 10) && (t.myTask.map (·.arrived)) == some [(0, 0)] | _ => false) = true) ∧
    (let t : Task := { task with arrived := [(0, 0)] }
     let s : State := { alone with tasks := [t] }
     s.allArrived t = true ∧ (s.phaseTick.task? t.id).map (fun x => (x.phase, x.arrived)) = some (2, []) ∧ base.allArrived t = false ∧ alone.phaseTick.task? task.id = some task) ∧
    waitsIn (stage (.phWait 1 10) base).pollThread = true ∧ goesIn (stage (.phWait 1 10) (phased 2)).pollThread (fun t => t.rs 10 == 2 && t.th.esn == 2) = true := by decide +kernel
/-- Member 7 of task 0; member 1 of task 3, which is not placed; task 4, of which the launch has none; a full inbox. -/
theorem witness_BarriersAndInboxes_inboxes :
    base.placeOf ⟨0, 1, 0⟩ = some (.resident 0 0) ∧ (base.inboxSend 0x700000000 9).2 = 1 ∧ ((base.inboxSend 0x700000000 9).1.core 7).inbox = [(0, 9)] ∧
    base.placeOf ⟨0, 1, 3⟩ ≠ some .retired ∧ (∀ cl b0, base.placeOf ⟨0, 1, 3⟩ ≠ some (.resident cl b0)) ∧ base.inboxSend 0x100000003 9 = (base, 2) ∧ base.inboxSend 4 9 = (base, 3) ∧
    (let s : State := { base with tasks := [task, { task with id := ⟨0, 1, 1⟩, place := .retired }] }
     s.placeOf ⟨0, 1, 1⟩ = some .retired ∧ s.inboxSend 1 9 = (s, 3)) ∧
    (let s := base.updCore 7 fun k => { k with inbox := List.replicate 32 (0, 1) }
     32 ≤ (s.core 7).inbox.length ∧ s.inboxSend 0x700000000 9 = (s, 0)) ∧
    ({ base with launches := [] } : State).myLaunch = none ∧
    (let s := (stage (.ibRel 7 .device 0 9 10) base).updMyCore fun k => { k with sb := [someEntry] }
     s.relDone 0 7 .device = false ∧ waitsIn s.pollThread = true) ∧
    (let s := stage (.ibRel 99 .device 0 9 10) base
     s.relDone 0 99 .device = true ∧ s.inboxEffect s.me = none ∧ (match s.pollThread with | .used t => t.rs 10 == 1 && t.myCore.inbox == [(0, 9)] && t.th.esn == 2 | _ => false) = true) ∧
    (let s := (stage (.ibRel 99 .device 0 9 10) base).setEffect base.me (.inbox 0) 2
     s.inboxEffect s.me = some 2 ∧ (match s.pollThread with | .used t => t.rs 10 == 2 && t.myCore.inbox.isEmpty && t.th.esn == 2 | _ => false) = true) := by
  refine ⟨by decide +kernel, by decide +kernel, by decide +kernel, by decide +kernel, ?_, by decide +kernel⟩
  rw [show base.placeOf ⟨0, 1, 3⟩ = none by decide +kernel]; exact fun _ _ => nofun
theorem witness_BarriersAndInboxes_launches :
    (let s := stage (.dlFull 5 10) base
     (s.stageOf s.me).isSome = true ∧ (s.part s.myPart).dq = [] ∧
       (match s.pollDlFull 5 10 with | .used t => t.stageOf t.me == some (.dlWait 10) && (t.part 0).dq.length == 1 | _ => false) = true) ∧
    (let s := (stage (.dlFull 5 10) base).updPart 0 fun p => { p with dq := List.replicate 64 ⟨0, ⟨0, 1, 0⟩, 0, 1, 1⟩ }
     64 ≤ (s.part s.myPart).dq.length ∧ waitsIn (s.pollDlFull 5 10) = true) := by decide +kernel

/-! ### Descriptors of copy jobs -/

/-- A descriptor: KIND, the rest of word 0, then words 1 to 7. -/
def jd (kind w0 dst src len rows ss ds idx : Nat) : List Byte :=
  (List.range 64).map fun i => BitVec.ofNat 8 ((kind + 256 + w0 + dst * 2 ^ 64 + src * 2 ^ 128 + len * 2 ^ 192 + rows * 2 ^ 256 + ss * 2 ^ 320 + ds * 2 ^ 384 + idx * 2 ^ 448) / 256 ^ i)
def cj : CjobA := ⟨hdr, .core, false, false, 10, 6⟩
theorem desc_fine : ∀ w, ¬ DescFails base (jd 1 0 0x10000200 0x10000100 64 1 0 0 0) 64 w := by
  have e : ofBytes (jd 1 0 0x10000200 0x10000100 64 1 0 0 0) / 2 ^ 20 % 2 ^ 1 = 0 := by decide +kernel
  intro w
  match w with
  | 0 | 1 | 2 | 3 | 4 | 5 | 6 | 7 => simp only [DescFails, e, show ¬ ((0 : Nat) = 1) by decide, false_and, or_false] <;> decide +kernel
  | n + 8 => exact id
theorem desc_bad : DescFails base (jd 1 0 0x10000200 0x10000100 (2 ^ 24 + 1) 1 0 0 0) (2 ^ 24 + 1) 3 := by
  show _ ∨ _
  exact Or.inr (by decide +kernel)
theorem desc_tile : DescFails base (jd 1 0x190000 0 0x10000100 64 1 0 0 0) 64 0 := by
  have e : ofBytes (jd 1 0x190000 0 0x10000100 64 1 0 0 0) % 256 ≠ 2 := by decide +kernel
  iterate 11 right
  exact Or.inl ⟨by decide +kernel, 0, by decide +kernel, by decide +kernel⟩
/-- A tensor of bytes, 64 by 4, ragged over the record at 0x10000180 or not. -/
def tens (ragged : Bool) (n : Nat) : List Byte :=
  (List.range 64).map fun i => BitVec.ofNat 8 ((0x10000300 + 2 ^ 56 * (n + if ragged then 8 else 0) + 64 * 2 ^ 64 + 4 * 2 ^ 96 + 64 * 2 ^ 192 + (if ragged then 0x10000180 * 2 ^ 384 else 0)) / 256 ^ i)
def tensAt (td : List Byte) : State := { base with mem := memWrite base.mem 0x1010000100 td }
def d5 (first rows : Nat) : List Byte := jd 5 0 0x10000200 0x10000100 0 rows 0 64 first
def bnds (n : Byte) (b : List Nat) : Snap := ⟨[], [2, 0, 1, 0, 4, 0, 0, 0, 0, 0, 0, 0, n], b, 0x10000180, 0x1010000180, 0⟩
def jobIs (r : Res Checked) (p : CopyJob → Bool) : Bool :=
  match r with
  | .ok (.job k) _ => p k
  | _ => false
def trapsWith {α : Type} (r : Res α) (c : Byte) (a i : W64) : Bool :=
  match r with
  | .trap _ e b k => e == c && b == a && k == i
  | _ => false
theorem desc_fine5 : ∀ w, ¬ DescFails base (d5 1 2) 0 w := by
  have e : ofBytes (d5 1 2) / 2 ^ 20 % 2 ^ 1 = 0 := by decide +kernel
  intro w
  match w with
  | 0 | 1 | 2 | 3 | 4 | 5 | 6 | 7 => simp only [DescFails, e, show ¬ ((0 : Nat) = 1) by decide, false_and, or_false] <;> decide +kernel
  | n + 8 => exact id
/-- The tensor's rows 1 and 2 of 4, rows 3 and 4; one record whose segments split rows 1 and 2, one that does not, one of another row count. -/
theorem witness_CopySubmission_descriptors :
    jobIs (base.checkedJob cj (jd 1 0 0x10000200 0x10000100 64 1 0 0 0) none) (fun k => k.len == 64 && k.rows == 1 && k.src == .addr 0x10000100 && k.dst == .addr 0x10000200) = true ∧
    trapsWith (base.checkedJob cj (jd 1 0 0x10000200 0x10000100 (2 ^ 24 + 1) 1 0 0 0) none) 0x02 0 0x301 = true ∧
    trapsWith (base.checkedJob cj (jd 1 0x190000 0 0x10000100 64 1 0 0 0) none) 0x02 0 1 = true ∧
    tensorOk (tens false 2) = true ∧ tensorOk (tens true 2) = true ∧ tensorOk (tens false 5) = false ∧ field (tens false 2) 12 4 = 4 ∧
    gives ((tensAt (tens false 2)).accessAligned base.agent 0x10000100 64 64 .load false) (fun p s => gives (s.load p 0x10000100 64 true 0) fun d _ => d.1 == tens false 2) = true ∧
    jobIs ((tensAt (tens false 2)).checkedJob cj (d5 1 2) none) (fun k => k.elem == 0 && k.dim0 == 64 && k.row0 == 1 && k.base == 0x10000300 && k.sstride == 64) = true ∧
    trapsWith ((tensAt (tens false 2)).checkedJob cj (d5 3 2) none) 0x02 0 0x701 = true ∧
    trapsWith ((tensAt (tens false 5)).checkedJob cj (d5 1 2) none) 0x31 0x10000100 0 = true ∧
    gives ((tensAt (tens true 2)).checkedJob cj (d5 1 2) none) (fun r _ => r == .record 0x10000180) = true ∧
    recordOk (bnds 3 [0, 3, 4]).header (bnds 3 [0, 3, 4]).bounds = true ∧ recordOk (bnds 2 [0, 2, 4]).header (bnds 2 [0, 2, 4]).bounds = true ∧
    jobIs ((tensAt (tens true 2)).checkedJob cj (d5 1 2) (some (bnds 3 [0, 3, 4]))) (fun k => k.row0 == 1) = true ∧
    trapsWith ((tensAt (tens true 2)).checkedJob cj (d5 1 2) (some (bnds 2 [0, 2, 4]))) 0x30 0 0 = true ∧
    trapsWith ((tensAt (tens true 2)).checkedJob cj (d5 1 2) (some (bnds 3 [0, 3, 5]))) 0x31 0x10000180 0 = true := by decide +kernel
/-- A turn of the descriptor that is right, with a failing field, and with a tile that is not READY. -/
theorem witness_CopySubmission_polls :
    (let s := stage (.cjob (jd 1 0 0x10000200 0x10000100 64 1 0 0 0) 1 cj none) base
     s.stageOf s.me = some (.cjob (jd 1 0 0x10000200 0x10000100 64 1 0 0 0) 1 cj none) ∧
       (match s.pollThread with | .used u => u.rs 10 == 1 && (jobOf u).len == 64 && (jobOf u).st == .queued && (u.stageOf u.me).isNone | _ => false) = true) ∧
    (let s := stage (.cjob (jd 1 0 0x10000200 0x10000100 0 1 0 0 0) 1 cj none) base
     (match s.pollThread with | .used u => (u.myCore.queue.map fun r => (r.cause, r.addr, r.info)) == [(0x02, 0, 0x301)] | _ => false) = true) ∧
    (let s := stage (.cjob (jd 1 0x05400000 0x10000200 0 64 1 0 0 0) 1 cj none) base
     jobIs (s.checkedJob cj (jd 1 0x05400000 0x10000200 0 64 1 0 0 0) none) (fun j => j.src == .tile 5 && !s.submitReady j) = true ∧
       (match s.pollThread with | .wait t => t == s.setStage s.me (.cjob (jd 1 0x05400000 0x10000200 0 64 1 0 0 0) 2 cj none) | _ => false) = true) ∧
    leads (.cpy ⟨hdr, .core, false, false, false, 10, .t 9, .s 7, .i 1⟩) base (trapped 0x02 0 1) = true ∧ leads (.cpy ⟨hdr, .core, false, false, false, 10, .t 4, .t 9, .i 1⟩) base (trapped 0x02 0 2) = true ∧
    leads (.cpy ⟨hdr, .core, false, false, false, 10, .t 4, .s 7, .i 513⟩) base (trapped 0x02 0 3) = true ∧ leads (.cpy ⟨hdr, .core, false, false, true, 10, .s 6, .t 4, .i 1⟩) base (trapped 0x02 0 4) = true := by
  decide +kernel

/-! ### Sampling among several candidates, drawn instructions -/

/-- `seqMem` with K = 2 and RT = 1.0; the logits are 1.0 and 2.0, or both -infinity. -/
def seq2 (logits : List Host.Cell) : State :=
  (withS [(5, 99), (11, 0x400)]).updMyCore fun k => { k with sram := logits ++ [(0x4A1, 8), (0x4A4, 16), (0x4B4, 2), (0x4B8, 2), (0x4C2, 0x80), (0x4C3, 0x3F), (0x4C6, 0x80), (0x4C7, 0x3F)] }
def twoLogits : State := seq2 [(2, 0x80), (3, 0x3F), (7, 0x40)]
def queued (n m : Nat) : State := (sampling []).updCluster 0 fun k => { k with smpq := List.replicate n ⟨8, ⟨0, 1⟩, none, 99, 0x400, 10⟩, vacated := (0, 0, m) }
theorem witness_RandomStreamsAndSampler_candidates :
    (recOf twoLogits (some 4)).k = 2 ∧ (recOf twoLogits (some 4)).p = 0x3F800000 ∧ (recOf twoLogits (some 4)).rt = 0x3F800000 ∧ (recOf twoLogits (some 4)).v = 2 ∧
    (twoLogits.drawAt ⟨0, 0⟩ 0).isSome = true ∧
    (match twoLogits.chooseToken ⟨0, 0⟩ (recOf twoLogits (some 4)) 4 0 with | .token k c => decide (k < 2) && c == 1 | _ => false) = true ∧
    (let s : State := { twoLogits with launches := [{ lnch with cext := 0 }] }
     s.drawAt ⟨0, 0⟩ 0 = none ∧ s.chooseToken ⟨0, 0⟩ (recOf s (some 4)) 4 0 = .exhausted) ∧
    (let s := seq2 [(2, 0x80), (3, 0xFF), (6, 0x80), (7, 0xFF)]
     s.chooseToken ⟨0, 0⟩ (recOf s (some 4)) 4 0 = .none) ∧
    leads (.tokexec ⟨hdr, 10, 5, 11⟩) (queued 15 1) passes = true ∧ leads (.tokexec ⟨hdr, 10, 5, 11⟩) (queued 15 0) (fun t => (t.cluster 0).smpq.length == 16) = true ∧
    leads (.smpl ⟨hdr, 10, 4, 11⟩) (queued 16 0) passes = true := by decide +kernel
/-- A record with q0, LA, CHUNKS, FLAGS, WSIZE and CAPS. -/
def sr (q la chunks flags wsize caps : Nat) : SeqRec := BitVec.ofNat 2048 (q + la * 2 ^ 1024 + chunks * 2 ^ 1088 + flags * 2 ^ 1096 + wsize * 2 ^ 1184 + caps * 2 ^ 1224)
def drawn (r : SeqRec) (o : Nat) (f : DrawnEff → Bool) : Bool := f (base.drawnExec ⟨0, 0⟩ r o 0)
theorem witness_RandomStreamsAndSampler_operations :
    drawn (sr 0 (2 ^ 54 - 1) 6 0 0 0) 0x3FF (fun e => e.status == 1 && e.rcd.la == 2 ^ 64 - 1 && e.rcd.chunks == 7 && e.tail.isEmpty) = true ∧
    drawn (sr 0 (2 ^ 54) 6 0 0 0) 0 (fun e => e.status == 2 && e.cause == 0x70 && e.rcd.la == 0) = true ∧ drawn (sr 0 1 7 0 0 0) 0 (fun e => e.cause == 0x70 && e.tail == [0x782, 0x70, 0x781]) = true ∧
    drawn (sr 0 0 0 0 0 0x7F) 0x780 (fun e => e.cause == 0x70 && e.qidx == 0) = true ∧ drawn (sr 0 0 0 0 0 0x7F) 0x77F (fun e => e.cause == 0x70 && e.qidx == 15) = true ∧
    drawn (sr 1 2 1 0 0 0) 0x410 (fun e => e.cause == 0x72) = true ∧ drawn (sr 1 2 1 0 0 1) 0x410 (fun e => e.status == 1 && e.rcd.q 0 == 3 && e.rcd.la == 0 && e.tail == [0x780]) = true ∧
    drawn (sr 1 4 1 0 16 2) 0x4F0 (fun e => e.cause == 0x71) = true ∧ drawn (sr 1 8 1 0 8 2) 0x4F0 (fun e => e.cause == 0x71 && e.la == 8) = true ∧
    drawn (sr 1 8 1 0 16 2) 0x4F0 (fun e => e.status == 1) = true ∧ drawn (sr 1 8 1 0 8 2) 0x510 (fun e => e.cause == 0x71) = true ∧
    drawn (sr 0x201 8 1 0 16 4) 0x520 (fun e => e.writes == [(8, [1])]) = true ∧ drawn (sr 1024 0 0 0 0 8) 0x530 (fun e => e.tail == [0x780, 1, 0, 0x781]) = true ∧
    base.drawAt ⟨0, 0⟩ 0 ≠ none ∧ drawn (sr 0 0 0 0 0 64) 0x550 (fun e => e.status == 1 && e.ctr == 1) = true ∧ ({ base with launches := [{ lnch with cext := 0 }] } : State).drawAt ⟨0, 0⟩ 0 = none ∧
    drawn (sr 1 0x10009 0 0 0 16) 0x560 (fun e => e.status == 3 && e.callno == 9 && e.tail == [0x786]) = true ∧ drawn (sr 1 0 0 1 0 0) 0x570 (fun e => e.status == 4 && e.rcd.flags == 129 && e.tail == [0x787]) = true := by
  decide +kernel
/-- TOKHI 1; a served request whose token is `tk`, of a record with these bytes of EN, PARK and CAPS, in a kernel that may draw. -/
def reserved (tk : Nat) (en : Byte) : State :=
  let s := ((withS [(5, 99), (11, 0x400)]).updMyCore fun k => { k with sram := [(0x498, en), (0x499, 0x7F), (0x4A1, 8), (0x4A4, 16)] }).updCluster 0 fun k => { k with smpq := [⟨8, ⟨0, 0⟩, none, tk, 0x400, 10⟩] }
  let s := (s.updTh fun t => { t with pend := some ⟨0, 0, regs, 0, .reset, 0, 0, .sampler 8⟩ }).updPart 0 fun p => { p with desc := { p.desc with tokhi := 1 } }
  { s with launches := [{ lnch with kernel := { kern with drawn := true } }] }
theorem witness_RandomStreamsAndSampler_reserved :
    ((reserved 0x1001 1).taskOn 0).bind (reserved 0x1001 1).launchOf = some { lnch with kernel := { kern with drawn := true } } ∧ ((reserved 0x1001 1).part 0).desc.tokhi = 1 ∧
    (reserved 0x1001 1).readRec 0 0x400 none = .inl (recOf (reserved 0x1001 1) none) ∧ 10 ≤ (recOf (reserved 0x1001 1) none).osize - (recOf (reserved 0x1001 1) none).held ∧
    (recOf (reserved 0x1001 1) none).en = true ∧ (recOf (reserved 0x1001 0) none).en = false ∧ (recOf (reserved 0x1001 3) none).park = true ∧
    -- drawn: a literal; an addition with its mark appended; a trap, parked or not
    leads (.samplerRequestServe ⟨0, by decide⟩) (reserved 0x1001 1) (fun t => t.rs 10 == 0x1001001001 && t.spBytes 0 0x480 1 == [1] && t.spBytes 0 0x800 4 == [1, 0x10, 0, 0]) = true ∧
    leads (.samplerRequestServe ⟨0, by decide⟩) (reserved 0x1410 1) (fun t => t.rs 10 == 0x2001001410 && t.spBytes 0 0x804 4 == [0x80, 0x17, 0, 0] && t.spBytes 0 0x4A8 4 == [2, 0, 0, 0]) = true ∧
    leads (.samplerRequestServe ⟨0, by decide⟩) (reserved 0x1FFF 1) (fun t => t.rs 10 == 0x704002001FFF && t.th.parkDue == none) = true ∧
    leads (.samplerRequestServe ⟨0, by decide⟩) (reserved 0x1FFF 3) (fun t => t.rs 10 == 0x704002001FFF && t.th.parkDue == some (0, 0x70, 0, 0x40000000FFF)) = true ∧
    -- not drawn
    leads (.samplerRequestServe ⟨0, by decide⟩) (reserved 0x1001 0) (fun t => t.rs 10 == 0x1005001001 && t.spBytes 0 0x480 1 == [0] && t.spBytes 0 0x4A8 4 == [1, 0, 0, 0]) = true := by decide +kernel

/-! ### The last step of an expansion; queues, tasks and buffers -/

theorem witness_SystemInstructions_last :
    (match base.pollSteps 0 false { Result.none with s := [(10, 9)] } none with
      | .go t => t.rs 10 == 9 && (t.stageOf t.me).isNone
      | _ => false) = true ∧
    (match base.pollSteps 1 false { Result.none with s := [(10, 9)] } (some (.sp 0 0x200, 0xFFFF000000200, [7, 8], true)) with
      | .used t => sbLast t (·.evict)
      | _ => false) = true ∧
    leads (.stpi ⟨⟨0, 1, 0⟩, .n32, 6, 4, 5⟩) base (fun t => match t.stageOf t.me with | some (.steps 1 false _ (some (_, _, _, ev))) => ev | _ => false) = true := by decide +kernel
/-- Entry 0 of cluster 0 binds the cores that task 0 holds, for SHARED tasks; its launch holds them, or a fill of it is under way there. -/
def onShared (p : TaskPlace) : State := { base with slotTable := [(0, 0x000100FF00004101)], tasks := [{ task with place := p }] }
theorem witness_QueuesAndLaunches_more :
    (let l := { lnch with next := 4 }
     let s : State := { base with launches := [l], tasks := [{ task with place := .retired }] }
     let open1 := s.updPart 0 fun p => { p with tx := [{ txm with final := false }] }
     (∃ x ∈ (open1.part 0).tx, x.task.part = l.part ∧ x.task.lid = l.lid ∧ x.final = false) ∧ open1.closeStatus l = none ∧
       (s.updPart 0 fun p => { p with tx := [{ txm with final := true }] }).closeStatus l = some 1) ∧
    (let s := onShared (.resident 0 0)
     s.bindCheck 0 0 0 = 0 ∧ s.boundedOn 0 (s.bindAt 0 0).cores = [] ∧ leads (.slotTableWrite ⟨0, by decide⟩ 0 0) s (fun t => t.tasks.map (·.mustGo) == [true] && t.slotTable.getD 0 1 == 0) = true ∧
       leads (.slotTableWrite ⟨0, by decide⟩ 0 0x000100FF00004101) s (fun t => t.tasks.map (·.mustGo) == [false]) = true) ∧
    (let s := (onShared (.filling 0 0 0)).updTask ⟨0, 1, 0⟩ fun t => { t with image := some { img 0 0 with cores := [ctx] } }
     leads (.slotTableWrite ⟨0, by decide⟩ 0 0) s (fun t => t.tasks.map (·.mustGo) == [true]) = true) ∧
    leads (.partitionCreate ⟨3, by decide⟩ (0x8 * 2 ^ 192 + 0x01400101)) base (fun t => t.mgmt.stepped) = true ∧
    leads (.partitionCreate ⟨3, by decide⟩ 0) base (fun t => t == base) = true := by decide +kernel
/-- Tasks 0 and 3 pre-empted, with all or not all dispatched; task 0 ahead of RIDGE, then displaced too. -/
def going (n : Nat) (x : Task) : State × Launch :=
  let l := { lnch with repro := true, next := n, preempted := [3, 0] }
  ({ base with launches := [l], tasks := [x, { task with id := ⟨0, 1, 3⟩ }] }, l)
theorem witness_TasksComeAndGo_order :
    (going 4 task).1.nextTask (going 4 task).2 = some 0 ∧ (going 4 { task with phase := 4 }).1.nextTask (going 4 task).2 = some 0 ∧ base.nextTask { lnch with next := 4 } = none ∧
    (going 1 task).1.aheadOfRidge (going 1 task).2 0 = false ∧ (going 1 task).1.nextTask (going 1 task).2 = some 0 ∧
    (going 1 { task with phase := 4 }).1.aheadOfRidge (going 1 task).2 0 = true ∧ (going 1 { task with phase := 4 }).1.nextTask (going 1 task).2 = some 3 ∧
    (going 1 { task with phase := 4, mustGo := true }).1.nextTask (going 1 task).2 = some 0 ∧ base.nextTask lnch = some 1 ∧
    (let s := (savedAt (.filling 1 0 0) 0).updTask ⟨0, 1, 0⟩ fun t => { t with mustGo := true }
     leads (.resumeFill ⟨0, 1, 0⟩ ⟨1, by decide⟩ 0) s (fun t => (t.task? ⟨0, 1, 0⟩).map (·.place) == some (.leaving 1 0)) = true) := by decide +kernel
def sh1 : TaskId × W32 := (⟨0, 1, 0⟩, 1)
theorem witness_BufferMoves_more :
    (let e := { plain with rel := true, scope := .device }
     straight e = true ∧ (inSb e).mayDrain 0 e = true ∧ e.red = none ∧ e.shingle = none ∧ linesOf (hostCells e) = [line0] ∧
       leads (.storeBufferDrain ⟨0, by decide⟩ 7) (inSb e) (fun t => memByte t.mem 0x101000017F == 8 && t.version line0 false == 1 && (t.cluster 0).bb.isEmpty) = true ∧
       leads (.storeBufferDrain ⟨0, by decide⟩ 7) (inSb { e with cells := [] }) (fun t => t.mem == base.mem && t.version line0 false == 0 && (t.cluster 0).bb.isEmpty) = true) ∧
    straight { plain with rel := true, scope := .block } = false ∧
    (let e := { plain with shingle := some sh1 }
     let s := (repro lnch).updCluster 0 fun k => { k with bb := [e] }
     (s.launch? 0 1).isSome = true ∧ leads (.blockBufferDrain ⟨0, by decide⟩ 7 []) s (fun t => t.mem == base.mem && t.version line0 false == 0 &&
       t.shByte (some sh1) 0x1010000100 0x1010000100 == 9 && t.shByte (some (sh1.1, 2)) 0x1010000100 0x1010000100 == 0x21) = true) ∧
    (let f : FetchEntry := ⟨0x200000, false, [(3, 0x200001), (5, 0x200002)]⟩
     f.reqs.Pairwise (fun x y => x.1 ≠ y.1) ∧ leads (.fetchFill ⟨0, by decide⟩ 0x200000) (base.updCluster 0 fun k => { k with fmb := [f] })
       (fun t => (t.core 3).l0.map (·.1) == [0x200001] && (t.core 5).l0.map (·.1) == [0x200002] && (t.core 4).l0.isEmpty) = true) := by decide +kernel
/-- Shingles of phase 0: task 0 has byte 0 of line 0x200002, task 2 byte 0 or 1 of it. -/
def twoShingles (m : BitVec 128) : Launch :=
  { lnch with repro := true, shingles := [((2, 0), [⟨0x200002, m, 0x8877, 0⟩]), ((0, 0), [⟨0x200002, 1, 0x66, 0⟩])] }
def laying (l : Launch) (p : TaskPlace) : State := { base with launches := [l], tasks := [{ task with place := p }] }
theorem witness_BufferMoves_shingles :
    (let l := twoShingles 2
     let s := laying l (.resident 0 0)
     s.launch? 0 1 = some l ∧ l.laid < s.reached l ∧ s.phaseOut l l.laid = true ∧ l.lastwin = false ∧ conflictOf (l.layers 0) = none ∧ (l.layers 0).map (·.1) = [0, 2] ∧
       leads (.layPhase ⟨0, by decide⟩ 1) s (fun t => memBytes t.mem 0x1010000100 2 == [0x66, 0x88] && t.version line0 false == 1 && t.launches.map (fun x => (x.laid, x.shingles)) == [(1, [])] &&
         t.th.confl == none) = true) ∧
    (let l := twoShingles 3
     let s := laying l (.resident 0 0)
     conflictOf (l.layers 0) = some (0x10000100, 0, 2) ∧ s.allRetired l = false ∧ (s.core 0).task = some ⟨0, 1, 0⟩ ∧ (s.thr ⟨0, 0⟩).status = .running ∧
       leads (.layPhase ⟨0, by decide⟩ 1) s (fun t => memBytes t.mem 0x1010000100 2 == [0x77, 0x88] && t.th.confl == some (0x10000100, 0x200000000)) = true) ∧
    (let l := { twoShingles 3 with next := 4 }
     let s := laying l .retired
     s.allRetired l = true ∧ leads (.layPhase ⟨0, by decide⟩ 1) s (fun t => t.launches.map (fun x => (x.faulted, x.fcause, x.ftask)) == [(true, 0x50, 2)]) = true) ∧
    (match walk base.mem (base.part 0).desc.ptroot 0x10000100 with | .leaf _ _ _ => true | _ => false) = true ∧ (match walk base.mem (base.part 0).desc.ptroot 0x80000000 with | .leaf _ _ _ => true | _ => false) = false ∧
    (base.layLine 0 [(0, [⟨0x1000000, 1, 0x66, 0⟩])] 0x1000000).mem = base.mem := by decide +kernel
theorem witness_BufferMoves_gates :
    base.myTask = some task ∧ base.launchOf task = some lnch ∧ (repro lnch).launchOf task = some { lnch with repro := true } ∧
    (match (repro lnch).phaseGate true with | .pass t => t.th.ridgeWait | _ => false) = true ∧
    (let s := laying { lnch with repro := true, laid := 1 } (.resident 0 0)
     gives (s.phaseGate true) (fun _ u => u == s) = true) ∧
    (let s : State := { repro { lnch with laid := 1 } with tasks := [{ task with acqPhase := true }] }
     s.cur.core ∈ s.blockOf s.cur.core ∧ gives ((s.updMyCore fun k => { k with l1 := [⟨line0, none, 0⟩] }).phaseGate true) (fun _ u => u.myCore.l1.isEmpty && u.myTask.map (·.acqPhase) == some false) = true) ∧
    base.myShingle = none ∧ (repro lnch).myShingle = some sh1 ∧ assocGet task.stealing (0, 0) = none ∧
    ({ repro lnch with tasks := [{ task with stealing := [((0, 0), 3)] }] } : State).myShingle = some (⟨0, 1, 3⟩, 1) := by decide +kernel

/-! ### Messages, frames and tenants -/

/-- Port 2 of a state holds, whole, a data fragment for the message of key `hkey`, or the acknowledgement of one. -/
def inPort (b : List Byte) (s : State) : State := s.setPort 2 { up with inbuf := [(1, [(0, mkFlit ⟨1, 0, 1, 1, true, 0, 0⟩ b)])] }
def hkey : MsgKey := (hdrOfBytes lastHop).key
def ackb : List Byte := patch lastHop 6 [0xFF]
theorem witness_MessageAndFrameMoves_awaited :
    (let m := { msg with key := hkey }
     let s := inPort lastHop (rxm m)
     s.rx? hkey = some m ∧ s.awaits hkey = true ∧ base.awaits hkey = false ∧ leads (.messageComplete hkey) s (fun t => t == s) = true ∧
       (let u : State := { inPort lastHop (rxm { m with frags := [(0, [])], got := [0] }) with ptp := 51 * ptpUnit }
        leads (.messageDeadlineExpiry hkey) u (fun t => t == u) = true) ∧
       -- a fragment that came after its deadline is not awaited
       (let late := s.setPort 2 { up with inbuf := [(1, [(1, mkFlit ⟨1, 0, 1, 1, true, 0, 0⟩ lastHop)])] }
        late.awaits hkey = false)) ∧
    (let m := { txm with ack := true, key := hkey }
     let s : State := { inPort ackb (txs m) with ptp := 10 * ptpUnit }
     s.tx? ⟨0, 0⟩ 7 = some m ∧ s.awaitsAck m = true ∧ m.ackBy < s.ptpMsg ∧ leads (.sendAckTimeout ⟨0, 0⟩ 7) s (fun t => t == s) = true ∧ (txs m).awaitsAck m = false) ∧
    (let m := { msg with frags := [(0, List.replicate 64 0)], got := [0], post := none }
     let s : State := { rxm m with ptp := 51 * ptpUnit }
     s.rx? key = some m ∧ leads (.messageDeadlineExpiry key) s (fun t => (t.part 0).lost == [⟨key, m.lid, 65, 1⟩]) = true) ∧
    (let m := { msg with frags := [(0, List.replicate 64 0)], got := [0] }
     let s : State := { handled ⟨7, 7, true, ⟨0, 0, 0, 0, 0⟩, 0⟩ (rxm m) with ptp := 51 * ptpUnit }
     s.rx? key = some m ∧ leads (.messageDeadlineExpiry key) s (fun t => t.th.handles.map (fun h => (h.st.code, h.st.len, h.st.frags)) == [(2, 65, 1)]) = true) := by decide +kernel
/-- A frame too long; an entry that a slot's fill took in the cycle; the claim of an earlier cycle. -/
theorem witness_MessageAndFrameMoves_frames :
    9216 < (List.replicate 9221 (0 : Byte)).length - 4 ∧ leads (.frameReceive 0 (List.replicate 9221 0)) armed (fun t => t.frames.isEmpty) = true ∧
    (let s := armed.updCore 0 fun k => { k with tiles := k.tiles.put 5 ⟨2, 2, .filling, 512, 0⟩ }
     s.landable 0 0 = true ∧ firstEmpty (s.core 0).tiles0 [4, 5] = some (5, []) ∧ s.claimFree 0 5 = false ∧ (s.landFrame rxf).frames = [{ rxf with tile := some (⟨0, 1, 0⟩, 5) }] ∧
       (s.landFrame { rxf with tile := some (⟨0, 1, 0⟩, 5) }).frames = [{ rxf with tile := some (⟨0, 1, 0⟩, 5) }] ∧ (s.landFrame rxf).posted = []) ∧
    (let s := armed.updCore 0 fun k => { k with tdefs := [5] }
     5 ∈ (s.core 0).tdefs ∧ s.claimFree 0 5 = true ∧ ((s.landFrame rxf).core 0).tiles = (s.core 0).tiles) := by decide +kernel
/-- The message of a post that comes later: lost by this launch or by another one. -/
theorem witness_MessageAndFrameMoves_lost :
    (let k : MsgKey := ⟨0, 5, 1, 0, 3, 1⟩
     let y : Post := ⟨⟨0, 0⟩, ⟨0, 1, 0⟩, 7, 1, 3, 100, 0x10000200, .mem []⟩
     let s := fun lid => (handled ⟨7, 7, true, ⟨0, 0, 0, 0, 0⟩, 0⟩ base).updPart 0 fun p => { p with lost := [⟨k, lid, 65, 1⟩] }
     nthFree ((((s 1).part 0).posts.filter fun y => y.on 1 1 3).length + 1) (((s 1).part 0).matchedOf (1, 3, 1)) = 1 ∧ lnch.lid = 1 ∧ base.myPart = 0 ∧
       ((s 1).enterPost lnch y).th.handles.map (fun h => (h.st.code, h.st.len)) = [(2, 65)] ∧ (((s 1).enterPost lnch y).part 0).lost = [] ∧
       (((s 2).enterPost lnch y).part 0).lost = [⟨k, 2, 65, 1⟩] ∧ ((s 2).enterPost lnch y).th.handles.map (·.st.code) = [0]) := by decide +kernel
/-- Frames, posted bytes of a frame, and a retention step of the tenant that is reset. -/
theorem witness_RegistersAndTenantReset_waiting :
    (let s := (up0 4 true).updMgmt fun m => { m with resets := [0] }
     let w : Posted := ⟨1, some 0, [(512, 1)], false, some ⟨⟨0, 1, 0⟩, 5, 0, 0⟩⟩
     let v : Posted := ⟨2, none, [(512, 1)], false, none⟩
     let u : State := { s with frames := [rxf, { rxf with part := 1 }], posted := [w, v], retain := [(3, { Retain.reset with part := 0 }), (4, { Retain.reset with part := 1 })], retainSteps := [⟨3, 1, 0, true, 0, 0, false⟩, ⟨4, 1, 0, true, 0, 0, false⟩] }
     u.mgmt.resets = [0] ∧ leads (.tenantResetPerform dsc) u (fun t => t.frames == [{ rxf with part := 1 }] && t.posted.map (·.land) == [none] && t.retainSteps.map (·.k) == [4] &&
       t.mgmt.stepped) = true) := by decide +kernel

/-! ### Raw and undecoded vector accesses, combinations, floating products -/

/-- `vbase` with MODE.ARITH set; a NaN of e4m3 in memory, or a number too large for e4m3 in v2 lane 0. -/
def vnan : State := arithOn { vbase with mem := [(0x1100000100, 0x7F)] ++ vbase.mem.drop 2 }
def vbig : State := (arithOn vbase).updTh fun t => { t with regs := { t.regs with v := [(2, 0x7F000000)] } }
def vldE : VldA := ⟨hdr, .e4m3, .core, 5, ⟨10, .i 0⟩⟩
def vstE : VstA := ⟨hdr, .e4m3, false, .rne, .core, ⟨10, .i 0⟩, 2⟩
/-- The page of a state; a typed access of it that decodes or not. -/
def e4Page : Place := .mem [⟨2 ^ 31, 2 ^ 30, 0x1100000000, 0x300000110000001F⟩]
def ovr (s : State) : State := s.updTh fun t => { t with mode := { t.mode with fmtovr := true } }
theorem witness_VectorAccesses_flags :
    okIs (vnan.access vnan.agent 0x80000100 32 .load false) e4Page vnan = true ∧ okIs (vnan.typed e4Page 0x80000100 .e4m3) true vnan = true ∧ vnan.mode.arith = true ∧
      gives (vnan.loadAt e4Page 0x80000100 ((List.range 32).map (0x80000100 + ·)) true 0) (fun g _ => g.1.headD 0 == 0x7F) = true ∧ (decodeElem .e4m3 (0, 0) [0x7F] 0).2.testBit 0 = true ∧
      leads (.vld vldE) vnan (trapped 0x40 0 (arithWord 1)) = true ∧
    vbig.mode.arith = true ∧ (encodeElems .e4m3 (0, 0) .rne false false 0x7F000000 (List.range 32) 0 32).2 = 6 ∧
      okIs (vbig.access vbig.agent 0x80000100 32 .store false) e4Page vbig = true ∧ leads (.vst vstE) vbig (trapped 0x40 0 (arithWord 6)) = true := by decide +kernel
/-- MODE.FMTOVR: the bytes themselves; a raw form of a page without a format, with and without a guard. -/
theorem witness_VectorAccesses_undecoded :
    okIs ((ovr vbase).typed e4Page 0x80000100 .e5m2) false (ovr vbase) = true ∧
      leads (.vld { vldE with x := .e5m2 }) (ovr vbase) (fun t => (t.stageOf t.me).map (fun g => match g with | .data r => r.v.map fun e => (lane e.2 0, lane e.2 8) | _ => []) ==
        some [(0xC038, 0)]) = true ∧
      leads (.vst { vstE with x := .e5m2 }) (ovr vbase) (fun t => (sbOf t).take 5 == [(0x1100000100, 0), (0x1100000101, 0), (0x1100000102, 0x80), (0x1100000103, 0x3F), (0x1100000104, 0)] &&
        (sbOf t).length == 32) = true ∧
    (let s := base.updTh fun t => { t with regs := { t.regs with p := [(1, 0xFFFFFFFF), (3, 0x80000001)] } }
     gives (s.access s.agent (s.addr ⟨6, .i 0⟩) 128 .load false) (fun p u => p.isMem && okIs (u.typed p (s.addr ⟨6, .i 0⟩) .n32) false u && okIs (u.phaseGate true) () u && u.myShingle == none &&
       u.posted.isEmpty && u.myCore.sb.isEmpty && u.myCore.l1.isEmpty && (u.cluster 0).bb.isEmpty && u.poison.isEmpty) = true ∧
     s.actLanes ⟨3, 0, 0⟩ .n32 = [0, 31] ∧
     leads (.vld ⟨⟨3, 0, 0⟩, .n32, .core, 2, ⟨6, .i 0⟩⟩) s (fun t => (t.stageOf t.me).map (fun g => match g with | .data r => r.v.map fun e => (lane e.2 0, lane e.2 1, lane e.2 31) | _ => []) ==
       some [(0x4321, 0x3F800000, 0)]) = true ∧
     leads (.vst ⟨⟨3, 0, 0⟩, .n32, false, .rne, .core, ⟨6, .i 0⟩, 2⟩) s (fun t => (sbOf t).map (·.1) == [0x1010000100, 0x1010000101, 0x1010000102, 0x1010000103,
       0x101000017C, 0x101000017D, 0x101000017E, 0x101000017F] && t.th.sticky == 0) = true) := by decide +kernel
/-- 1 and 2, -0 and -0, 1 and -1 under `.rdn`; a NaN; infinities of one and of both signs; integers past the end. -/
theorem witness_Reductions_combinations :
    (0x3F800000 < 2 ^ 32 ∧ finite (fdec fF32 0x3F800000) ∧ finite (fdec fF32 0x40000000) ∧ rat (fdec fF32 0x3F800000) < rat (fdec fF32 0x40000000)) ∧
    redComb .sum (.f32 .rne) (0x3F800000, 0) (0x40000000, 0) = (0x40400000, 0) ∧ redComb .max (.f32 .rne) (0x3F800000, 1) (0x40000000, 0) = (0x40000000, 1) ∧
    redComb .min (.f32 .rne) (0x40000000, 0) (0x3F800000, 0) = (0x3F800000, 0) ∧ redComb .sum (.f32 .rne) (0x80000000, 0) (0x80000000, 0) = (0x80000000, 0) ∧
    redComb .sum (.f32 .rdn) (0x3F800000, 0) (0xBF800000, 0) = (0x80000000, 0) ∧ redComb .sum (.f32 .rne) (0x3F800000, 0) (0xBF800000, 0) = (0, 0) ∧
    ((fdec fF32 0x7FC00000).isNan = true ∧ (redComb .sum (.f32 .rne) (0x7FC00000, 0) (0x3F800000, 0)).1 = fF32.qnan) ∧
    (fdec fF32 0xFF800000 = .inf true ∧ (redComb .sum (.f32 .rne) (0xFF800000, 0) (0x3F800000, 0)).1 = 0xFF800000 ∧ (redComb .max (.f32 .rne) (0xFF800000, 0) (0x3F800000, 0)).1 = 0x3F800000 ∧
      (redComb .min (.f32 .rne) (0x3F800000, 0) (0xFF800000, 0)).1 = 0xFF800000) ∧
    (fdec fF32 0x7F800000 = .inf false ∧ redComb .sum (.f32 .rne) (0x7F800000, 2) (0xFF800000, 0) = (fF32.qnan, 3) ∧ (redComb .max (.f32 .rne) (0xFF800000, 0) (0x7F800000, 0)).1 = 0x7F800000) ∧
    redComb .sum (.i32 true) (0x7FFFFFFF, 0) (1, 0) = (0x7FFFFFFF, (redComb .sum (.i32 true) (0x7FFFFFFF, 0) (1, 0)).2) ∧ redComb .sum (.i32 false) (0x7FFFFFFF, 0) (1, 0) = (0x80000000, 0) ∧
    redComb .min (.n32 false) (0xFFFFFFFF, 0) (1, 4) = (1, 4) ∧ redComb .max (.i32 false) (0xFFFFFFFF, 0) (1, 0) = (1, 0) := by
  refine ⟨⟨by decide, ⟨_, _, _, fdec_one⟩, ⟨_, _, _, fdec_two⟩, ?_⟩, by decide +kernel⟩
  rw [fdec_one, fdec_two]; norm_num [rat]
/-- CODE 6 of an `mcheck.trap`: row 3, column 2, sequence number 1. -/
theorem witness_MatrixStatus_traps :
    (let s : State := { jobDone true (some 0x0203000001000006) with cycle := 1 }
     s.mtxLook (s.rs 5) = some ⟨7, 1, 9, some 0x0203000001000006, 0, true⟩ ∧ ((0x0203000001000006 : W64) &&& 0xFF) = 6 ∧ s.cur.slot < 7 ∧ (s.part s.myPart).scb.en = true ∧
       leads (.mwait ⟨hdr, 10, 5⟩) s (fun t => (t.myCore.queue.map fun r => (r.cause, r.pc, r.addr, r.info)) == [(0x41, s.cur.link, 0, 0x30200000001)] && t.rs 10 == 0x0203000001000006 &&
         t.th.sticky == 1 && t.th.mjobs.isEmpty) = true) := by decide +kernel
/-- Products of f16 and c4 numbers: zeros, or a NaN in element 0; the rows of `.m32` with Q 3. -/
theorem witness_MatrixEngine_products :
    (∀ (f : MFmt) (m32 : Bool) (q : Nat), q < 4 →
      let s := engine (.mma 0 0 1 m32 f q false 0 0 none) (.running 0)
      (s.cluster 0).mtxq.find? (fun j => j.id = 3) = some (job1 (.mma 0 0 1 m32 f q false 0 0 none) (.running 0))) ∧
    (job1 (.mma 0 0 1 true .f16 3 false 0 0 none) (.running 0)).code = 0 ∧ (mtx.cluster 0).oslots.getD 0 [] = [] ∧
    fdec fF16 (ofBytes (memBytes [] 0 2)) = .fin false 0 (-24) ∧ (fdec fF16 (ofBytes (memBytes [(0, 1), (1, 0x7C)] 0 2))).isNan = true ∧
    ¬ (32 * 3 ≤ 95 ∧ 95 < 32 * 3 + 32) ∧ (32 * 3 ≤ 127 ∧ 127 < 32 * 3 + 32) ∧ fdec fA56 0 = .fin false 0 (fdec fA56 0 |> fun v => match v with | .fin _ _ e => e | _ => 0) ∧
    (sxDec 2 (ofBytes (memBytes [] 0 8)) 0).isZero = true := by
  refine ⟨fun f m32 q h => ?_, by decide +kernel⟩
  rfl

/-! ### The copy unit: acquires, index lists, tensors, destinations, stops -/

/-- A running job of two bytes from memory to memory, alone in the copy unit of cluster 0. -/
def mj : CopyJob := { CopyJob.blank base .core false false 0 with id := 3, src := .addr 0x10000100, dst := .addr 0x10000200, len := 2, st := .running 0 }
def unit (j : CopyJob) : State := base.updCluster 0 fun k => { k with copyq := [j] }
def fullBb (s : State) : State := s.updCluster 0 fun k => { k with bb := (List.range 256).map fun i => { someEntry with id := 100 + i } }
/-- A posted write of 7. -/
def post7 (s : State) : State := { s with posted := [⟨1, none, [(0x1010000300, 7)], false, none⟩] }
def bytesIs (r : Res (List (Byte × Bool))) (l : List Byte) : Bool := gives r fun b _ => b.map (·.1) == l
theorem witness_CopyUnitMoves_acquires :
    (let s := post7 (unit { mj with st := .queued, acq := true, scope := .system })
     (s.cluster 0).copyq.find? (fun j => j.st == .queued) = some { mj with st := .queued, acq := true, scope := .system } ∧
       leads (.copyJobStart ⟨0, by decide⟩) s (fun t => (jobOf t).st == .running 0 && memByte t.mem 0x1010000300 == 7 && t.posted.isEmpty) = true) ∧
    (let s := post7 (unit { mj with st := .queued, acq := true, scope := .device })
     leads (.copyJobStart ⟨0, by decide⟩) s (fun t => (jobOf t).st == .running 0 && t.posted.length == 1) = true) := by decide +kernel
/-- An index list at 0x10000100, whose first word is 0x4321; one off its alignment. -/
theorem witness_CopyUnitMoves_sources :
    (let j := { mj with kind := 3, idx := 0x10000100 }
     gives ((unit j).accessAligned j.agent j.idx 4 4 .load false) (fun p t => p.isMem && bytesIs (t.jobRead 0 3 (t.jobShingle j.owner) p 0x10000100 4 false) [0x21, 0x43, 0, 0]) = true ∧
       gives ((unit j).rowIndex 0 j 0) (fun n _ => n == 0x4321) = true ∧ trapsWith ((unit j).rowIndex 0 { j with idx := 0x10000102 } 0) 0x13 0x10000102 0 = true) ∧
    gives ((unit mj).rowIndex 0 mj 5) (fun n _ => n == 5) = true ∧
    (let j := { mj with src := .tile 4, srcOff := 0x200 }
     bytesIs ((unit j).rowSource 0 j 0 0) [0x11, 0x22] = true ∧ ((unit j).tile 4).base = 0) ∧
    gives ((unit mj).access mj.agent 0x10000100 2 .load false) (fun p t => p.isMem && bytesIs (t.jobRead 0 3 none p 0x10000100 2 false) [0x21, 0x43] && t.poison.isEmpty && (t.cluster 0).bb.isEmpty) = true ∧
    bytesIs ((unit mj).rowSource 0 mj 0 0) [0x21, 0x43] = true ∧ trapsWith ((unit mj).rowSource 0 { mj with src := .addr 0x80000000 } 0 0) 0x10 0x80000000 1 = true := by decide +kernel
/-- Rows of a tensor of e4m3 numbers, 1.0 and -2.0; a page of another format, of SX3 and of none. -/
def rowJob (e : Nat) (dec : Bool) : CopyJob := { mj with kind := 5, base := 0x80000100, elem := e, dec := dec, dim0 := 2, sstride := 64 }
def sxPage : Place := .mem [⟨0x80000000, 2 ^ 30, 0x1100000000, 0x500000110000001F⟩]
def byPage : Place := .mem [⟨0, 2 ^ 30, 0x1000000000, 0x100000003F⟩]
theorem witness_CopyUnitMoves_tensors :
    okIs (vbase.tensorTyped (rowJob 0 true) byPage 0x80000101) false vbase = true ∧ trapsWith (vbase.tensorTyped (rowJob 7 true) byPage 0x80000101) 0x13 0x80000101 0 = true ∧
    (9 = 9 ∧ e4Page.fmt = 9 - 6 ∧ okIs (vbase.tensorTyped (rowJob 9 true) e4Page 0x80000100) true vbase = true) ∧
    (sxPage.fmt = 11 - 6 ∧ blocksOk sxPage 0x80000100 (vtyBlock (elemVTy 11)) (32 / 16) = true ∧ blocksOk sxPage 0x80000104 (vtyBlock (elemVTy 11)) (32 / 16) = false ∧
      okIs (vbase.tensorTyped { rowJob 11 true with dim0 := 32 } sxPage 0x80000100) true vbase = true ∧ trapsWith (vbase.tensorTyped { rowJob 11 true with dim0 := 32 } sxPage 0x80000104) 0x13 0x80000104 0 = true) ∧
    (byPage.fmt = 0 ∧ okIs (vbase.tensorTyped (rowJob 9 true) byPage 0x80000100) false vbase = true) ∧ trapsWith (vbase.tensorTyped (rowJob 10 true) e4Page 0x80000100) 0x14 0x80000100 0 = true ∧
    okIs (vbase.access (rowJob 9 true).agent 0x80000100 2 .load false) e4Page vbase = true ∧ elemBytes 9 2 = 2 ∧
    bytesIs (vbase.rowSource 0 (rowJob 9 true) 0 0) [0, 0, 0x80, 0x3F, 0, 0, 0, 0xC0] = true ∧ bytesIs (vbase.rowSource 0 (rowJob 9 false) 0 0) [0x38, 0xC0] = true ∧
    trapsWith (vbase.rowSource 0 (rowJob 10 true) 0 0) 0x14 0x80000100 0 = true := by decide +kernel
def twoBytes : List (Byte × Bool) := [(0x5A, false), (0x5B, false)]
theorem witness_CopyUnitMoves_destinations :
    okIs ((unit mj).access mj.agent 0x10000200 2 .store false) byPage (unit mj) = true ∧ (unit mj).jobShingle mj.owner = none ∧
    gives ((unit mj).rowDest 0 mj 0 twoBytes) (fun ex t => !ex && ((t.cluster 0).bb.map fun e => (e.job, e.thread, e.cells)) ==
      [(some 3, none, [⟨0x1010000200, 0x10000200, 0x5A, false⟩, ⟨0x1010000201, 0x10000201, 0x5B, false⟩])]) = true ∧
    (256 ≤ ((fullBb (unit mj)).cluster 0).bb.length ∧ (match (fullBb (unit mj)).rowDest 0 mj 0 twoBytes with | .pass t => t == fullBb (unit mj) | _ => false) = true) ∧
    trapsWith ((unit mj).rowDest 0 { mj with dst := .addr 0x80000000 } 0 twoBytes) 0x10 0x80000000 1 = true ∧
    (let j := { mj with dst := .addr 0xFFFF000000300 }
     okIs ((unit j).access j.agent 0xFFFF000000300 2 .store false) (.sp 0 0x300) (unit j) = true ∧
       gives ((unit j).rowDest 0 j 0 twoBytes) (fun _ t => t.spBytes 0 0x300 2 == [0x5A, 0x5B] && t.spBytes 0 0x200 2 == [0x11, 0x22] && t.myCore.sram == base.myCore.sram) = true) ∧
    (let s := (unit mj).updMyCore fun k => { k with tiles := [(5, ⟨2, 2, .filling, 3, 2⟩)], tiles0 := [(5, ⟨2, 2, .filling, 3, 2⟩)] }
     (s.tile 5).st = .filling ∧ s.tileStart 0 5 = .filling ∧ gives (s.rowDest 0 { mj with dst := .tile 5 } 0 twoBytes) (fun ex t => ex && t.tile 5 == ⟨2, 2, .ready, 3, 3⟩ &&
       memBytes t.myCore.sram 512 2 == [0x5A, 0x22]) = true ∧
       (match State.tileArrive base 0 5 0 twoBytes with | (t, b) => t == base && b) = true) := by decide +kernel
/-- A job whose row, index list or source fails; a full block buffer; a row of KIND 4. -/
theorem witness_CopyUnitMoves_stops :
    ((unit mj).cluster 0).copyq.find? (fun j => j.id = 3) = some mj ∧ 0 < mj.rows ∧ (unit mj).beforeDone 0 mj.before = true ∧ (unit mj).jobGate mj.owner = true ∧
    leads (.copyJobRow ⟨0, by decide⟩ 3) (unit mj) (fun t => (jobOf t).st == .running 1 && (jobOf t).doneBytes == 2 && (t.cluster 0).bb.length == 1) = true ∧
    leads (.copyJobRow ⟨0, by decide⟩ 3) (fullBb (unit mj)) (fun t => t == fullBb (unit mj)) = true ∧
    leads (.copyJobRow ⟨0, by decide⟩ 3) (unit { mj with src := .addr 0x80000000 }) (fun t => (jobOf t).code == 2 && (jobOf t).cause == 0x10 && (t.part 0).faultCount == 1) = true ∧
    leads (.copyJobRow ⟨0, by decide⟩ 3) (unit { mj with dst := .addr 0x80000000 }) (fun t => (jobOf t).code == 2 && (jobOf t).cause == 0x10) = true ∧
    leads (.copyJobRow ⟨0, by decide⟩ 3) (unit { mj with kind := 4, idx := 0x10000102 }) (fun t => (jobOf t).code == 2 && (jobOf t).cause == 0x13) = true ∧
    leads (.copyJobRow ⟨0, by decide⟩ 3) (unit { mj with kind := 4, idx := 0x10000104, dstride := 64 }) (fun t => (t.cluster 0).bb.map (fun e => e.cells.map (·.va)) == [[0x10000200, 0x10000201]]) = true := by decide +kernel
/-- A receiver that is not FILLING, and one for which the row is too long; a receiver that its slot's fill took in the cycle, and one under a `tdef`. -/
def fillTile (c : Nat) (x x0 : Tile) (s : State) : State := s.updCore c fun k => { k with tiles := [(5, x)], tiles0 := [(5, x0)] }
def mc : CopyJob := { mj with kind := 2, fill := true, claimed := true, dst := .tile 5, rxmask := 3, len := 256 }
theorem witness_CopyUnitMoves_multicast :
    (let f : Tile := ⟨2, 2, .filling, 256, 0⟩
     let r : Tile := ⟨2, 2, .ready, 256, 256⟩
     let s := fillTile 0 f f (fillTile 1 r r (unit mc))
     s.receivers mc = [(0, 5), (1, 5)] ∧ s.failedRx mc 0 = [1] ∧ mc.src ≠ .tile 5 ∧ s.failedRx { mc with len := 513 } 1 = [0, 1] ∧
       leads (.copyJobRow ⟨0, by decide⟩ 3) s (fun t => (jobOf t).code == 3 && (jobOf t).rxfail == 2 && (t.tile 5).st == .empty && ((t.core 1).tiles.getD 5 .reset).st == .empty) = true ∧
       -- a fill of the cycle, which the arrival does not see yet, stands
       (let u := fillTile 1 f ⟨2, 2, .empty, 0, 0⟩ s
        u.failedRx mc 0 = [1] ∧ ((u.core 1).tiles.getD 5 .reset).st = .filling ∧ u.tileStart 1 5 ≠ .filling ∧
          ((u.multicastFail 0 mc [1]).core 1).tiles.getD 5 .reset = f ∧ ((u.multicastFail 0 mc [1]).core 0).tiles.getD 5 .reset = ⟨2, 2, .empty, 256, 0⟩) ∧
       (let u := s.updCore 1 fun k => { k with tdefs := [5] }
        5 ∈ (u.core 1).tdefs ∧ ((u.multicastFail 0 mc [1]).core 1).tiles.getD 5 .reset = r)) ∧
    (let s := fillTile 0 ⟨2, 2, .filling, 2, 0⟩ ⟨2, 2, .filling, 2, 0⟩ (unit { mj with dst := .tile 5 })
     (s.tile 5).st = .filling ∧ 5 ∉ (s.core 0).tdefs ∧ ((s.copyFault 0 { mj with dst := .tile 5 } 0x10 0).tile 5) = ⟨2, 2, .empty, 2, 0⟩) ∧
    (let s := (unit { mj with src := .tile 4 }).updMyCore fun k => { k with tiles := [(4, ⟨0, 2, .draining, 512, 512⟩)] }
     (s.tile 4).st = .draining ∧ ((s.copyFault 0 { mj with src := .tile 4 } 0x10 0).tile 4) = ⟨0, 2, .ready, 512, 512⟩ ∧
       (s.cluster 0).copyq.map (fun q => q.id) = [3]) ∧
    (let t := (unit mc).copyFault 0 mc 0x10 0
     (jobOf t).code = 2 ∧ (jobOf t).cause = 0x10 ∧ (jobOf t).doneBytes = 0 ∧ (jobOf t).rxfail = 3) := by decide +kernel

/-! ### Signals, acquiring waits, device-side launches, sends from memory -/

/-- PTP time 2^32 + 5 seconds and 7 nanoseconds; a signal with IRQ whose queue has interrupts enabled or not; one performed before. -/
def sig (irq en : Bool) : State :=
  ({ coh (.signal 0xFFFF000000000009 irq) .n64 with ptp := ((2 ^ 32 + 5) * 10 ^ 9 + 7) * ptpUnit }).updPart 0 fun p => { p with queues := [(0, { Queue.reset with irqen := en, msix := 3 })] }
theorem witness_PointOfCoherence_signals :
    ((sig true true).servedOf ⟨0, 0⟩).bind (fun k => (sig true true).launch? k.part k.lid) = some lnch ∧ (sig true true).effect ⟨0, 0⟩ (.line line0) = none ∧
    leads (.coherencePointOperation ⟨0, 0⟩) (sig true true) (fun t => memBytes t.mem 0x1010000100 16 == [7, 0, 0, 0, 5, 0, 0, 0, 1, 0, 9, 0, 0, 0, 0, 0] && t.out == [.msix 0 3] &&
      t.th.esn == 2) = true ∧
    leads (.coherencePointOperation ⟨0, 0⟩) (sig true false) (fun t => t.out.isEmpty) = true ∧ leads (.coherencePointOperation ⟨0, 0⟩) (sig false true) (fun t => t.out.isEmpty) = true ∧
    (let s := (sig true true).setEffect ⟨0, 0⟩ (.line line0) 0
     s.effect ⟨0, 0⟩ (.line line0) = some 0 ∧ leads (.coherencePointOperation ⟨0, 0⟩) s (fun t => t.mem == base.mem && t.out.isEmpty && t.th.esn == 2) = true) ∧
    (let s := (coh (.stcv 0 9) .i64).setEffect ⟨0, 0⟩ (.line line0) 0x100000001
     leads (.coherencePointOperation ⟨0, 0⟩) s (fun t => t.mem == base.mem && t.rs 10 == 0x100000001) = true) ∧
    (let s := (coh (.casv 0 0x4321 9) .i64).setEffect ⟨0, 0⟩ (.line line0) 0x700000001
     leads (.coherencePointOperation ⟨0, 0⟩) s (fun t => t.mem == base.mem && t.rs 10 == 0x700000001) = true) := by decide +kernel
/-- An L1 copy and a posted write before an acquire at BLOCK and at SYSTEM. -/
def stale (s : State) : State := post7 (s.updMyCore fun k => { k with l1 := [⟨1, none, 0⟩] })
theorem witness_BarriersAndInboxes_acquires :
    leads (.barwait ⟨hdr, .block, 10, .i 1, .s 0⟩) (stale (bar ⟨1, 0, 0, [], none⟩)) (fun t => t.rs 10 == 1 && t.myCore.l1.isEmpty && t.posted.length == 1) = true ∧
    leads (.barwait ⟨hdr, .system, 10, .i 1, .s 0⟩) (stale (bar ⟨1, 0, 0, [], none⟩)) (fun t => t.myCore.l1.isEmpty && t.posted.all fun w => w.id < t.th.settle) = true ∧
    (let s := { (stale base).updMyCore fun k => { k with inbox := [(3, 9)] } with cycle := 4 }
     leads (.ibrecv ⟨hdr, .system, 10⟩) s (fun t => t.rs 10 == 9 && t.myCore.l1.isEmpty && t.posted.all fun w => w.id < t.th.settle) = true ∧
       leads (.ibrecv ⟨hdr, .core, 10⟩) s (fun t => t.rs 10 == 9 && t.myCore.l1.length == 1) = true) ∧
    goesIn ((stale (bar ⟨1, 0, 0, [], none⟩)).updTh fun t => { t with pend := some ⟨0, 0, t.regs, 0, .reset, 0, 0, .barWait 1 0 .block 10⟩ }).pollThread (fun t => t.myCore.l1.isEmpty) = true := by
  decide +kernel
/-- A packet of a waiting thread of task 0, and one whose thread waits for it no more. -/
def asking : State := (stage (.dlWait 10) base).updPart 0 fun p => { p with dq := [⟨0x0200, ⟨0, 1, 0⟩, base.tagOf base.me, 0, 1⟩] }
theorem witness_BarriersAndInboxes_answers :
    asking.nextSource = some (0, 64) ∧ asking.stageOf ⟨0, 0⟩ = some (.dlWait 10) ∧ asking.partOf 0 0 = 0 ∧ asking.th.esn = 1 ∧ asking.tagOf ⟨0, 0⟩ = base.tagOf base.me ∧
    (∀ c ∈ [1, 2, 3, 4, 5, 6, 7], asking.stageOf ⟨c, 0⟩ = none) ∧
    leads (.acceptPacket none) asking (fun t => t.rs 10 == 0x100000002 && t.th.esn == 2 && (t.stageOf t.me).isNone && (t.part 0).dq.isEmpty && t.launches.map (·.lid) == [1, 2]) = true ∧
    (let s := asking.updTh fun t => { t with pend := none }
     leads (.acceptPacket none) s (fun t => t.th.regs == s.th.regs && t.th.esn == 1 && (t.part 0).dq.isEmpty) = true) := by decide +kernel
def sixteen (c n : Nat) (s : State) : State := s.updTh fun t => { t with handles := (List.range 16).map fun i => ⟨BitVec.ofNat 64 i, BitVec.ofNat 32 i, false, ⟨c, 0, 0, 0, 0⟩, n⟩ }
/-- Sixteen handles that are final in this cycle, and in an earlier one; a source in memory, and one that is not mapped. -/
theorem witness_MessageInstructions_sources :
    (let s := sixteen 1 0 (sends (mctl 1 3 0 512))
     16 ≤ s.th.handles.countP (fun h => decide (h.st.code = 0 ∨ s.cycle ≤ h.doneAt)) ∧ leads (.msgsend ⟨hdr, true, 10, .t 4, 11⟩) s passes = true ∧
       (let u := { s with cycle := 1 }
        ¬ 16 ≤ u.th.handles.countP (fun h => decide (h.st.code = 0 ∨ u.cycle ≤ h.doneAt)) ∧ leads (.msgsend ⟨hdr, true, 10, .t 4, 11⟩) u (fun t => (t.part 0).tx.length == 1) = true)) ∧
    leads (.msgsend ⟨hdr, true, 10, .s 6, 11⟩) (sixteen 0 0 (sends (mctl 1 3 0 512))) passes = true ∧
    gives ((sends (mctl 1 3 0 512)).access base.agent 0x10000100 512 .load false) (fun p _ => p == byPage) = true ∧
    leads (.msgsend ⟨hdr, true, 10, .s 6, 11⟩) (sends (mctl 1 3 0 512)) (fun t => (t.part 0).tx.map (fun m => (m.tile, m.va, m.home, m.place, m.before, m.key.mseq)) ==
      [(none, 0x10000100, 0, byPage, [], 1)] && (t.myLaunch.map fun l => (l.nextMseq 1 3, l.nextMseq 1 4)) == some (2, 1)) = true ∧
    trapsAs ((sends (mctl 1 3 0 512)).access base.agent 0x80000000 512 .load false) 0x10 = true ∧
    leads (.msgsend ⟨hdr, true, 10, .s 12, 11⟩) ((sends (mctl 1 3 0 512)).ws 12 0x80000000) (trapped 0x10 0x80000000 1) = true ∧
    leads (.msgpost ⟨hdr, 10, 12, 11⟩) ((sends (mctl 1 3 0 512)).ws 12 0x80000000) (trapped 0x10 0x80000000 1) = true := by decide +kernel

/-! ### The service of `smpl` -/

/-- A request of `smpl` on tile 4 with these bytes of the scratchpad beside the record's, K = 2 and P at 1.0 in the last of the states. -/
def asked (more : List Host.Cell) : State :=
  ((sampling more).updCluster 0 fun k => { k with smpq := [⟨8, ⟨0, 0⟩, some 4, 0, 0x400, 10⟩] }).updTh fun t => { t with pend := some ⟨0, 0, regs, 0, .reset, 0, 0, .sampler 8⟩ }
def askTwo (cells : List Host.Cell) (ext : W64) : State :=
  let s := ((seq2 cells).updCluster 0 fun k => { k with smpq := [⟨8, ⟨0, 0⟩, some 4, 0, 0x400, 10⟩] }).updTh fun t => { t with pend := some ⟨0, 0, regs, 0, .reset, 0, 0, .sampler 8⟩ }
  { s with launches := [{ lnch with cext := ext }] }
theorem witness_RandomStreamsAndSampler_choice :
    (let s := asked []
     (s.cluster 0).smpq = [⟨8, ⟨0, 0⟩, some 4, 0, 0x400, 10⟩] ∧ s.stageOf ⟨0, 0⟩ = some (.sampler 8) ∧ s.readRec 0 0x400 (some 4) = .inl (recOf s (some 4)) ∧ s.sramPoison = [] ∧
       10 ≤ (recOf s (some 4)).osize - (recOf s (some 4)).held ∧ s.chooseToken ⟨0, 0⟩ (recOf s (some 4)) 4 s.th.ctr = .token 1 0 ∧ (s.part (s.partOf 0 0)).desc.tokhi = 0 ∧
       leads (.samplerRequestServe ⟨0, by decide⟩) s (fun t => t.rs 10 == 0x1000000001 && t.spBytes 0 0x800 4 == [1, 0, 0, 0] && t.th.esn == 2 && t.th.pend.isNone) = true) ∧
    (let s := askTwo [(2, 0x80), (3, 0xFF), (6, 0x80), (7, 0xFF)] 100
     s.readRec 0 0x400 (some 4) = .inl (recOf s (some 4)) ∧ s.chooseToken ⟨0, 0⟩ (recOf s (some 4)) 4 s.th.ctr = .none ∧
       leads (.samplerRequestServe ⟨0, by decide⟩) s (fun t => t.rs 10 == 0x60FFFFF && t.th.ctr == 0 && t.th.esn == 2 && t.myCore.late.isEmpty && (t.cluster 0).smpq.isEmpty) = true) ∧
    (let s := askTwo [(2, 0x80), (3, 0x3F), (7, 0x40)] 0
     s.chooseToken ⟨0, 0⟩ (recOf s (some 4)) 4 s.th.ctr = .exhausted ∧
       leads (.samplerRequestServe ⟨0, by decide⟩) s (fun t => (t.myCore.queue.map fun r => (r.cause, r.addr, r.info)) == [(0x20, 0, 0)] && t.th.status == .parked) = true) ∧
    (let s := (asked []).updMyCore fun k => { k with sram := k.sram.filter fun c => c.1 != 0x4A4 }
     (match s.readRec 0 0x400 (some 4) with | .inr i => leads (.samplerRequestServe ⟨0, by decide⟩) s (fun t => (t.myCore.queue.map fun r => (r.cause, r.addr, r.info)) == [(0x02, 0, i)]) | _ => false) = true) := by
  decide +kernel
/-- TOKHI 1 of a partition: 0xFFF and 0x2000 lie outside its reserved range. -/
theorem witness_RandomStreamsAndSampler_ordinary :
    (let hi := ((reserved 0xFFF 1).part 0).desc.tokhi
     hi = 1 ∧ 0xFFF < 4096 * hi ∧ 4096 * hi + 4096 ≤ 0x2000) ∧
    leads (.samplerRequestServe ⟨0, by decide⟩) (reserved 0xFFF 1) (fun t => t.rs 10 == 0x1000000FFF && t.spBytes 0 0x4A8 4 == [1, 0, 0, 0]) = true ∧
    leads (.samplerRequestServe ⟨0, by decide⟩) (reserved 0x2000 1) (fun t => t.rs 10 == 0x1000002000 && t.spBytes 0 0x4A8 4 == [1, 0, 0, 0]) = true := by decide +kernel

/-! ### Device-side packets that are left, fragments of several flits, posts past their deadline, signed requests -/

theorem witness_QueuesAndLaunches_packets :
    (let l := { lnch with next := 4 }
     let s : State := { base with launches := [l], tasks := [{ task with place := .retired }] }
     let own := s.updPart 0 fun p => { p with dq := [⟨0, ⟨0, 1, 0⟩, (0, 0), 0, 1⟩] }
     let other := s.updPart 0 fun p => { p with dq := [⟨0, ⟨0, 7, 0⟩, (0, 0), 0, 1⟩] }
     l.state = .running ∧ (∃ x ∈ (own.part 0).dq, x.task.part = l.part ∧ x.task.lid = l.lid) ∧ own.closeStatus l = none ∧
       (∀ x ∈ (other.part 0).dq, ¬ (x.task.part = l.part ∧ x.task.lid = l.lid)) ∧ other.closeStatus l = some 1) := by decide +kernel
/-- Two entries of one line; the fill ends both. -/
theorem witness_BufferMoves_fills :
    (let f : FetchEntry := ⟨0x200000, false, [(3, 0x200001)]⟩
     let g : FetchEntry := ⟨0x200001, false, [(4, 0x200001)]⟩
     f.pa ≠ g.pa ∧ leads (.fetchFill ⟨0, by decide⟩ 0x200000) (base.updCluster 0 fun k => { k with fmb := [f, g] }) (fun t => (t.cluster 0).fmb == [g]) = true) := by decide +kernel
/-- A fragment of 225 bytes is three flits: credits for one, then for the rest; a port with no room. The widths of some lanes. -/
theorem witness_LinkMoves_fragments :
    (let s := link { up with outq := [(1, [frag 225, frag 1])], credits := [(1, 1)] }
     ((frag 225).bytes.length + 111) / 112 = 3 ∧ (s.port 2).sentFlits.getD 1 0 < 3 ∧
       leads (.fragmentTransmit q2 1) s (fun t => ((t.port 2).wire.map fun f => ((hdrOf f).seq, (hdrOf f).last)) == [(1, false)] && (t.port 2).sentFlits.getD 1 0 == 1 &&
         (t.port 2).outq == [(1, [frag 225, frag 1])] && (t.port 2).credits.getD 1 64 == 0) = true) ∧
    (let s := link { up with outq := [(1, [frag 225, frag 1])], sentFlits := [(1, 1)], nextSeq := 0xFFFFF }
     leads (.fragmentTransmit q2 1) s (fun t => ((t.port 2).wire.map fun f => ((hdrOf f).seq, (hdrOf f).last)) == [(0xFFFFF, false), (0, true)] && (t.port 2).sentFlits.getD 1 0 == 0 &&
       (t.port 2).outq == [(1, [frag 1])] && (t.port 2).replay.length == 2) = true) ∧
    leads (.fragmentTransmit q2 1) (link { up with outq := [(1, [frag 225])], replay := List.replicate 8192 0 }) (fun t => (t.port 2).wire.isEmpty) = true ∧
    widthOf 0xFFFF = 16 ∧ widthOf 0xFF7F = 8 ∧ widthOf 0xF0F0 = 4 ∧ widthOf 0x8888 = 0 ∧ widthOf 0xFF00 = 8 ∧ widthOf 0x0FF0 = 4 := by decide +kernel
/-- A message past its deadline as its post comes, with a fragment of it whole in a port or none. -/
theorem witness_MessageAndFrameMoves_posts :
    (let m := { msg with key := ⟨0, 5, 1, 0, 3, 1⟩, lid := 1, frags := [(0, List.replicate 64 0)], got := [0], post := none }
     let y : Post := ⟨⟨0, 0⟩, ⟨0, 1, 0⟩, 7, 1, 3, 100, 0x10000200, .mem []⟩
     let s : State := { handled ⟨7, 7, true, ⟨0, 0, 0, 0, 0⟩, 0⟩ (rxm m) with ptp := 51 * ptpUnit }
     nthFree (((s.part 0).posts.filter fun y => y.on 1 1 3).length + 1) ((s.part 0).matchedOf (1, 3, 1)) = 1 ∧ (s.part 0).lost = [] ∧ (s.part 0).rx = [m] ∧ m.lid = lnch.lid ∧
       m.deadline < s.ptpMsg ∧ s.awaits m.key = false ∧ (s.enterPost lnch y).rx? m.key = none ∧ ((s.enterPost lnch y).part 0).ctr.lost = (s.part 0).ctr.lost + 1 ∧
       (s.enterPost lnch y).th.handles.map (fun h => (h.st.code, h.st.len, h.st.frags)) = [(2, 65, 1)]) := by decide +kernel
/-- The bytes under a signature; a key, a counter above and not above the last; a signature of another length. -/
theorem witness_ManagementService_signatures :
    datagramBytes (dgram 3 2 [9] 0) = [0x4C, 0x41, 1, 3, 2, 0, 0, 0, 1, 0, 0, 0, 0, 0, 0, 0, 1, 0, 0, 0, 0, 0, 0, 0, 9] ∧
    (let d := dgram 3 2 [0] 0x36beccf291ad3379370fd7af2f0021aabe8932b328187e725038ff8d1464e3e
     let s := firm 0x1173bf7d87fe4c8ef969935d091119fc2d93949041fddf3f912fd0dec1366d05 0x36731db38c1757e226f10946a6b9b27cfcd70374e5f4d132b97c3d6dea0a2087
     (s.updMgmt fun m => { m with counter := some 0 }).signedOk d = true ∧ (s.updMgmt fun m => { m with counter := some 1 }).signedOk d = false ∧
       (s.updMgmt fun m => { m with opKey := none }).signedOk d = false ∧ s.signedOk { d with sig := d.sig.take 63 } = false) := by decide +kernel

/-! ## Worked examples of the spec -/

/-- 20 R349: the candidates, their weights and the tokens of the table. -/
theorem test_sampler_example :
    candidates [(0, 0x3F800000), (1, 0x40800000), (2, 0x40400000), (3, 0x40800000), (4, 0x40000000), (5, negInf)] 3 = [(1, 0x40800000), (3, 0x40800000), (2, 0x40400000)] ∧
    [0x40800000, 0x40800000, 0x40400000].map (candWeight 0x40800000 0x3F800000) = [2 ^ 32, 2 ^ 32, 2 ^ 31] ∧
    topP 0x3F400000 10737418240 = 8053063680 ∧ pickCand [2 ^ 32, 2 ^ 32, 2 ^ 31] 0x3F400000 0xE000000000000000 = 1 ∧
    pickCand [2 ^ 32, 2 ^ 32, 2 ^ 31] 0x3F800000 0xE000000000000000 = 2 ∧ pickCand [2 ^ 32, 2 ^ 32, 2 ^ 31] 0x3F400000 0x4000000000000000 = 0 := by decide +kernel
/-- 14 R271: rows 0 to 7 of the record 5, 0, 3 in sm0, rows 3 to 6 in sm1. -/
def mixMaps : State := (mapped ⟨true, 0, 0x1010000100, 0, List.replicate 5 ⟨0, 0, 5⟩ ++ List.replicate 3 ⟨2, 5, 8⟩⟩ ⟨true, 0, 0x1010000100, 3, [⟨0, 0, 5⟩, ⟨0, 0, 5⟩, ⟨2, 5, 8⟩, ⟨2, 5, 8⟩]⟩ base).updTh
  fun t => { t with regs := { t.regs with s := [(7, 0x40C00000)], v := [
    (2, ofLanes [0x3F800000, 0x40000000, 0x40400000, 0x40800000, 0x40A00000, 0x40C00000, 0x40E00000, 0x41000000]), (3, ofLanes [0x40800000, 0x40A00000, 0x40C00000, 0x40E00000])] } }
def firstLanes (t : State) (n : VReg) (k : Nat) : List W32 := (lanes (t.rv n)).take k
theorem test_ragged_example :
    leads (.rrow ⟨hdr, false, false, 10, .i 5⟩) mixMaps (fun t => t.rs 10 == 0x4000000200000005) = true ∧
    leads (.rrow ⟨hdr, false, true, 10, .i 4⟩) mixMaps (fun t => t.rs 10 == 0x8000000000000005) = true ∧
    leads (.rvsum ⟨hdr, false, .f32 .rne, 4, 2, .i 0, .s 0⟩) mixMaps (fun t => firstLanes t 4 9 == List.replicate 5 0x41700000 ++ List.replicate 3 0x41A80000 ++ [0]) = true ∧
    leads (.rvnorm ⟨hdr, false, false, .rne, 5, 2, .i 0⟩) mixMaps (fun t =>
      firstLanes t 5 9 == [0x3D888889, 0x3E088889, 0x3E4CCCCD, 0x3E888889, 0x3EAAAAAB, 0x3E924925, 0x3EAAAAAB, 0x3EC30C31, 0]) = true ∧
    leads (.rvsum ⟨hdr, true, .f32 .rne, 6, 3, .i 0, .s 7⟩) mixMaps (fun t => firstLanes t 6 5 == [0x41700000, 0x41700000, 0x41500000, 0x41500000, 0]) = true ∧
    leads (.rvnorm ⟨hdr, true, true, .rne, 5, 3, .i 0⟩) mixMaps (trapped 0x30 0 0) = true := by decide +kernel
/-- 04 R84: an opcode of no table and a class the position does not accept fail check 2; a reserved bit of MOD and a value in an unused I fail check 4. -/
theorem test_decode_refuses : decodeTableWord 96 0xE000_FFFF_FFFF_0000_0000_0000 = some (.undefinedOpcode 0xE0 0) ∧
    decodeTableWord 96 0x1000_0440_05FF_0000_0000_0000 = some (.undefinedOpcode 0x10 0) ∧
    decodeTableWord 96 0x8E01_09FF_FFFF_0001_0000_0000 = none ∧ decodeTableWord 96 0x8E01_09FF_FFFF_0000_0000_0001 = none := by decide +kernel

end Sys2Proof.Tests
end

section
/-! SUPPORT. The books of the package: what the work of closing, tearing down and delivering leaves as it was. Every operation that a teardown
or a closing is made of has one lemma here. -/

namespace Sys2Proof.Machine

/-! ## The books -/

/-- What names a launch and says where it stands. -/
structure LaunchKey where
  part : Nat
  lid : Nat
  qid : Nat
  state : LState
  status : Nat

def Launch.key (l : Launch) : LaunchKey := ⟨l.part, l.lid, l.qid, l.state, l.status⟩

/-- The launches by their keys, the queue registers and the next LID of each partition, the partition of each retention register, and whether the
forward step of boot is past. -/
structure Books where
  launches : List LaunchKey
  queues : Nat → Tab Queue
  nextLid : Nat → Nat
  retained : Nat → Nat
  stepped : Bool

def State.books (s : State) : Books :=
  ⟨s.launches.map Launch.key, fun p => (s.part p).queues, fun p => (s.part p).nextLid, fun k => (s.retain.getD k .reset).part, s.mgmt.stepped⟩

/-- Launches, partitions, retention registers and the management core are all that the books are kept of. -/
theorem State.books_of_fields {s t : State} (hl : t.launches = s.launches) (hp : t.parts = s.parts) (hr : t.retain = s.retain)
    (hm : t.mgmt = s.mgmt) : t.books = s.books := by
  simp only [State.books, State.part, hl, hp, hr, hm]
/-- What every step of a fold leaves, the fold leaves. -/
theorem State.foldl_proj {α β : Type} (g : State → β) {f : State → α → State} (h : ∀ s a, g (f s a) = g s) (l : List α) (s : State) :
    g (l.foldl f s) = g s := by
  induction l generalizing s with
  | nil => rfl
  | cons a r ih => exact (ih (f s a)).trans (h s a)
theorem State.books_foldl {α : Type} {f : State → α → State} (h : ∀ s a, (f s a).books = s.books) (l : List α) (s : State) :
    (l.foldl f s).books = s.books := State.foldl_proj State.books h l s

/-! ## Updates by number -/

@[simp] theorem State.books_updCore (s : State) (c : Nat) (f : Core → Core) : (s.updCore c f).books = s.books := rfl
@[simp] theorem State.books_updThr (s : State) (t : ThreadId) (f : Thread → Thread) : (s.updThr t f).books = s.books := rfl
@[simp] theorem State.books_updCluster (s : State) (c : Nat) (f : Cluster → Cluster) : (s.updCluster c f).books = s.books := rfl
@[simp] theorem State.books_updTask (s : State) (t : TaskId) (f : Task → Task) : (s.updTask t f).books = s.books := rfl
@[simp] theorem State.books_updPort (s : State) (q : Nat) (f : Port → Port) : (s.updPort q f).books = s.books := rfl

/-- Reading every partition in the same way before and after is reading the same table. -/
theorem State.part_updPart_proj {β : Type} (g : Partition → β) (s : State) (p q : Nat) (f : Partition → Partition)
    (h : ∀ x, g (f x) = g x) : g ((s.updPart p f).part q) = g (s.part q) := by
  by_cases hq : q = p
  · subst hq; rw [State.part_updPart, h]
  · rw [State.part_updPart_ne _ _ hq]
/-- An update of a partition that leaves its queues and its next LID. -/
theorem State.books_updPart (s : State) (p : Nat) (f : Partition → Partition)
    (h : ∀ x, (f x).queues = x.queues ∧ (f x).nextLid = x.nextLid := by exact fun _ => ⟨rfl, rfl⟩) : (s.updPart p f).books = s.books := by
  have hq := fun k => State.part_updPart_proj (·.queues) s p k f fun x => (h x).1
  have hn := fun k => State.part_updPart_proj (·.nextLid) s p k f fun x => (h x).2
  simp only [State.books, hq, hn]; rfl
/-- An update of a launch that leaves its key. -/
theorem State.books_updLaunch (s : State) (p lid : Nat) (f : Launch → Launch) (h : ∀ l, (f l).key = l.key) : (s.updLaunch p lid f).books = s.books := by
  have hk : (s.updLaunch p lid f).launches.map Launch.key = s.launches.map Launch.key := by
    simp only [State.updLaunch, List.map_map]
    exact List.map_congr_left fun l _ => by simp only [Function.comp]; split <;> simp [h]
  simp only [State.books, hk]; rfl

/-- What every entry of a table keeps under a change of the entries, it keeps where it is read. -/
theorem Tab.getD_map_proj {α β : Type} (g : α → β) (f : Nat × α → Nat × α) (h : ∀ e, (f e).1 = e.1 ∧ g (f e).2 = g e.2) (t : Tab α) (k : Nat) (d : α) :
    g (Tab.getD (List.map f t) k d) = g (t.getD k d) := by
  induction t with
  | nil => rfl
  | cons e r ih =>
    obtain ⟨h1, h2⟩ := h e
    simp only [Tab.getD, List.map_cons, Tab.get?, h1] at ih ⊢
    by_cases hk : e.1 = k
    · simp [hk, h2]
    · simp [hk, ih]
/-- A change of every partition that leaves its queues and its next LID, and of the tasks. -/
theorem State.books_mapParts (s : State) (ts : List Task) (f : Nat × Partition → Nat × Partition)
    (h : ∀ e, (f e).1 = e.1 ∧ (f e).2.queues = e.2.queues ∧ (f e).2.nextLid = e.2.nextLid) :
    ({ s with tasks := ts, parts := s.parts.map f } : State).books = s.books := by
  have hq := fun p => Tab.getD_map_proj (·.queues) f (fun e => ⟨(h e).1, (h e).2.1⟩) s.parts p (.reset p)
  have hn := fun p => Tab.getD_map_proj (·.nextLid) f (fun e => ⟨(h e).1, (h e).2.2⟩) s.parts p (.reset p)
  simp only [State.books, State.part, hq, hn]

/-! ## Memory and scratchpads -/

theorem Retain.part_put (ks : Tab Retain) (k : Nat) (r : Retain) (h : r.part = (ks.getD k .reset).part) (j : Nat) :
    ((ks.put k r).getD j .reset).part = (ks.getD j .reset).part := by
  rw [Tab.getD_put]
  split
  · rename_i e; rw [e, h]
  · rfl
/-- A change of the retention registers that leaves the partition of each. -/
theorem State.books_retain {s t : State} (hl : t.launches = s.launches) (hp : t.parts = s.parts) (hm : t.mgmt = s.mgmt)
    (hr : ∀ k, (t.retain.getD k .reset).part = (s.retain.getD k .reset).part) : t.books = s.books := by
  simp only [State.books, State.part, hl, hp, hm, hr]
@[simp] theorem State.books_l2Touch (s : State) (pa : Nat) (e : Bool) : (s.l2Touch pa e).books = s.books := by
  refine State.books_retain ?_ ?_ ?_ fun k => ?_
  iterate 3 rw [State.l2Touch_frame]
  unfold State.l2Touch
  simp only
  split
  · exact Retain.part_put s.retain _ _ (by rfl) k
  · exact Retain.part_put s.retain _ _ (by rfl) k
  · rfl
  · exact Retain.part_put s.retain _ _ (by rfl) k
  · rfl
@[simp] theorem State.books_dropL1 (s : State) (c : Nat) (ls : List Nat) : (s.dropL1 c ls).books = s.books := rfl
@[simp] theorem State.books_pocWrite (s : State) (cs : List Host.Cell) (cl : Option Nat) (ms : Bool) : (s.pocWrite cs cl ms).books = s.books := by
  unfold State.pocWrite
  cases cl <;> rfl
@[simp] theorem State.books_spWrite (s : State) (c off : Nat) (bs : List Byte) : (s.spWrite c off bs).books = s.books := rfl
@[simp] theorem State.books_spPut (s : State) (c off : Nat) (bs : List (Byte × Bool)) : (s.spPut c off bs).books = s.books :=
  State.books_of_fields rfl rfl rfl rfl
@[simp] theorem State.books_setTile (s : State) (c t : Nat) (x : Tile) : (s.setTile c t x).books = s.books := rfl
@[simp] theorem State.books_tileArrive (s : State) (c t off : Nat) (bs : List (Byte × Bool)) : (s.tileArrive c t off bs).1.books = s.books := by
  unfold State.tileArrive
  simp only
  split
  · rfl
  · rw [State.books_setTile, State.books_spPut]
@[simp] theorem State.books_frameArrive (s : State) (c : Nat) (l : Landed) (cs : List Host.Cell) : (s.frameArrive c l cs).books = s.books := by
  unfold State.frameArrive
  split
  · rfl
  · exact (State.books_updPart ..).trans (State.books_tileArrive ..)
@[simp] theorem State.books_postedWrite (s : State) (w : Posted) : (s.postedWrite w).books = s.books := by
  unfold State.postedWrite
  split
  · exact State.books_frameArrive ..
  · exact State.books_foldl (fun s x => State.books_spWrite ..) _ _
  · rw [State.books_pocWrite]
    split
    · rfl
    · exact State.books_foldl (fun s l => State.books_l2Touch ..) _ _

/-! ## Entries of the block buffers -/

@[simp] theorem State.books_reducePerform (s : State) (e : Entry) (op : AOp) (ty : IntTy) (v : W64) (cl : Nat) :
    (s.reducePerform e op ty v cl).books = s.books := by
  unfold State.reducePerform
  split
  · simp only
    split
    · rfl
    · refine (State.books_updPart ..).trans ?_
      exact (State.books_of_fields rfl rfl rfl rfl).trans (State.books_pocWrite s ..)
  · rfl
@[simp] theorem State.books_perform (s : State) (e : Entry) (cl : Nat) : (s.perform e cl).books = s.books := by
  unfold State.perform
  split
  · exact State.books_reducePerform ..
  · split
    · rw [State.books_dropL1]
      exact State.books_updLaunch _ _ _ _ fun l => rfl
    · have hl : (if e.mside then s else (linesOf (hostCells e)).foldl (fun s l => s.l2Touch (128 * l) e.evict) s).books = s.books := by
        split
        · rfl
        · exact State.books_foldl (fun s l => State.books_l2Touch ..) _ _
      simp only
      split
      · exact hl
      · exact (State.books_of_fields rfl rfl rfl rfl).trans ((State.books_pocWrite ..).trans hl)
@[simp] theorem State.books_freeRed (s : State) (cl : Nat) (e : Entry) : (s.freeRed cl e).books = s.books := by
  unfold State.freeRed
  simp only
  split <;> rfl
@[simp] theorem State.books_drainTask (s : State) (p cl : Nat) (cs : List Nat) : (s.drainTask p cl cs).books = s.books := by
  unfold State.drainTask
  refine (State.books_foldl (fun s e => State.books_perform ..) _ _).trans ?_
  rw [State.books_updCluster]
  exact State.books_foldl (fun s e => State.books_freeRed ..) _ _

/-! ## Tasks that go -/

@[simp] theorem State.books_landPosted (s : State) (c : Nat) : (s.landPosted c).books = s.books := by
  unfold State.landPosted
  exact (State.books_foldl (fun s w => State.books_postedWrite ..) _ _).trans (State.books_of_fields rfl rfl rfl rfl)
@[simp] theorem State.books_clearCore (s : State) (c p : Nat) : (s.clearCore c p).books = s.books := by
  unfold State.clearCore
  rw [State.books_updCore]
  exact (State.books_mapParts (s.landPosted c) _ (fun e => (e.1, e.2.forget c)) fun _ => ⟨rfl, rfl, rfl⟩).trans (State.books_landPosted s c)
@[simp] theorem State.books_freeNames (s : State) (t : Task) (cl : Nat) : (s.freeNames t cl).books = s.books := rfl
@[simp] theorem State.books_freeFrame (s : State) (t : TaskId) (f : Nat) : (s.freeFrame t f).books = s.books :=
  State.books_updPart ..
@[simp] theorem State.books_dropMessages (s : State) (t : TaskId) : (s.dropMessages t).books = s.books :=
  State.books_updPart ..
@[simp] theorem State.books_stopJobs (s : State) (t : TaskId) (cl : Nat) : (s.stopJobs t cl).books = s.books := by
  unfold State.stopJobs
  rw [State.books_updCluster, State.books_updTask]
  exact (State.books_foldl (fun s j => State.books_updThr ..) _ _).trans (State.books_foldl (fun s j => State.books_updThr ..) _ _)

/-! ## Messages -/

@[simp] theorem State.books_count (s : State) (p : Nat) (f : MsgCtr → MsgCtr) : (s.count p f).books = s.books :=
  State.books_updPart ..
@[simp] theorem State.books_onThread (s : State) (t : ThreadId) (task : TaskId) (f : Thread → Thread) : (s.onThread t task f).books = s.books := by
  unfold State.onThread
  split
  · rfl
  · split
    · rfl
    · simp only
      split <;> rfl
@[simp] theorem State.books_setMsg (s : State) (t : ThreadId) (task : TaskId) (seq : W32) (f : MsgStatus → MsgStatus) :
    (s.setMsg t task seq f).books = s.books := State.books_onThread ..
@[simp] theorem State.books_onTile (s : State) (c n : Nat) (task : TaskId) (st : TileSt) : (s.onTile c n task st).books = s.books := by
  unfold State.onTile
  simp only
  split
  · rfl
  · split
    · rfl
    · split <;> rfl
@[simp] theorem State.books_updRx (s : State) (k : MsgKey) (f : RxMsg → RxMsg) : (s.updRx k f).books = s.books :=
  State.books_updPart ..
@[simp] theorem State.books_closeRx (s : State) (m : RxMsg) : (s.closeRx m).books = s.books :=
  State.books_updPart ..
@[simp] theorem State.books_showRx (s : State) (m : RxMsg) (code : Nat) : (s.showRx m code).books = s.books := by
  unfold State.showRx
  split
  · exact State.books_setMsg ..
  · rfl
/-- An entry of the posted queue that a message waits for. -/
theorem State.books_queueRx (s : State) (k : MsgKey) (w : Posted) (n : Nat) (f : RxMsg → RxMsg) :
    (({ s with nextId := n, posted := s.posted ++ [w] } : State).updRx k f).books = s.books :=
  (State.books_updRx ..).trans (State.books_of_fields rfl rfl rfl rfl)
@[simp] theorem State.books_deliverBytes (s : State) (m : RxMsg) (x : Post) (off : Nat) (bs : List Byte) : (s.deliverBytes m x off bs).books = s.books := by
  unfold State.deliverBytes
  simp only
  split
  · rfl
  · split
    · rfl
    · exact State.books_queueRx ..
  · split
    · split
      · rfl
      · exact State.books_queueRx ..
    · split <;> rfl
@[simp] theorem State.books_writeData (s : State) (key : MsgKey) (j : Nat) (bs : List Byte) : (s.writeData key j bs).books = s.books := by
  unfold State.writeData
  split
  · rfl
  · split
    · rfl
    · rw [State.books_updRx, State.books_deliverBytes]
@[simp] theorem State.books_rebuildRx (s : State) (key : MsgKey) : (s.rebuildRx key).books = s.books := by
  unfold State.rebuildRx
  split
  · rfl
  · split
    · rfl
    · simp only [State.books_count, State.books_updRx]
      exact State.books_foldl (fun s e => State.books_writeData ..) _ _
/-- What a message's post shows, where there is such a message. -/
theorem State.books_showKept (s : State) (key : MsgKey) : (match s.rx? key with
    | some m => s.showRx m 0
    | none => s).books = s.books := by
  split
  · exact State.books_showRx ..
  · rfl
@[simp] theorem State.books_matchRx (s : State) (m : RxMsg) (x : Post) : (s.matchRx m x).books = s.books := by
  unfold State.matchRx
  have hp : (s.updPart m.key.part fun p => p.setMatched (m.key.srank, m.key.chan, m.lid) m.key.mseq).books = s.books :=
    State.books_updPart ..
  simp only
  split
  · rw [State.books_closeRx, State.books_showRx, hp]
  · refine (State.books_showKept _ m.key).trans ?_
    rw [State.books_rebuildRx, State.books_foldl fun s e => State.books_writeData .., State.books_updRx, hp]
@[simp] theorem State.books_keepFragment (s : State) (key : MsgKey) (fidx : Nat) (bs : List Byte) : (s.keepFragment key fidx bs).books = s.books := by
  unfold State.keepFragment
  simp only
  split
  · exact State.books_updRx ..
  · rename_i m _
    have hw : (if fidx < m.k then (s.updRx key fun m => { m with frags := m.frags.put fidx bs }).writeData key fidx bs
        else s.updRx key fun m => { m with frags := m.frags.put fidx bs }).books = s.books := by
      split
      · rw [State.books_writeData, State.books_updRx]
      · exact State.books_updRx ..
    exact (State.books_showKept _ key).trans ((State.books_rebuildRx _ key).trans hw)
@[simp] theorem State.books_arriveFragment (s : State) (h : FHdr) (now : Nat) (bs : List Byte) : (s.arriveFragment h now bs).books = s.books := by
  have hadd (m : RxMsg) : (s.updPart h.key.part fun x => { x with rx := x.rx ++ [m] }).books = s.books :=
    State.books_updPart ..
  unfold State.arriveFragment
  simp only
  split
  · exact State.books_count ..
  split
  · exact State.books_count ..
  split
  · exact State.books_count ..
  split
  · split
    · exact State.books_count ..
    split
    · exact State.books_count ..
    · exact State.books_keepFragment ..
  · split
    · split
      · exact State.books_count ..
      · rw [State.books_matchRx]
        exact (State.books_updPart ..).trans (hadd _)
    · split
      · rw [State.books_keepFragment]; exact hadd _
      · exact State.books_count ..
@[simp] theorem State.books_finalSend (s : State) (m : TxMsg) (code : Nat) : (s.finalSend m code).books = s.books := by
  unfold State.finalSend
  refine (State.books_updPart ..).trans ?_
  split
  · rw [State.books_onTile, State.books_setMsg]
  · exact State.books_setMsg ..
@[simp] theorem State.books_arriveAck (s : State) (h : FHdr) (now : Nat) : (s.arriveAck h now).books = s.books := by
  unfold State.arriveAck
  simp only
  split
  · split
    · rw [State.books_count, State.books_finalSend]
    · exact State.books_finalSend ..
  · exact State.books_count ..
@[simp] theorem State.books_arrive (s : State) (x : Whole) : (s.arrive x).books = s.books := by
  unfold State.arrive
  simp only
  split
  · exact State.books_arriveAck ..
  · exact State.books_arriveFragment ..
@[simp] theorem State.books_owe (s : State) (x : Option (Nat × Nat)) (n : Nat) : (s.owe x n).books = s.books := by
  unfold State.owe
  split
  · exact State.books_updPort ..
  · rfl
@[simp] theorem State.books_takeFor (s : State) (p lid : Nat) : (s.takeFor p lid).books = s.books := by
  unfold State.takeFor State.takeArrived
  exact (State.books_foldl (fun s x => (State.books_arrive ..).trans (State.books_owe ..)) _ _).trans (State.books_of_fields rfl rfl rfl rfl)

/-! ## A task that is discarded -/

/-- What a discarded task has in its engines and buffers goes, where it is. -/
theorem State.books_discardPlace (s : State) (t : Task) (cs : List Nat) : (match t.place with
    | .resident cl _ => ((s.freeNames t cl).stopJobs t.id cl).drainTask t.id.part cl cs
    | .leaving cl b0 =>
      let sp := (s.core (8 * cl + b0)).spill
      let s := if sp.state = 0 || sp.cause = 0x91 then s else s.freeFrame t.id sp.frame
      ((if t.image.isSome then s else s.freeNames t cl).stopJobs t.id cl).drainTask t.id.part cl cs
    | .saved f => s.freeFrame t.id f
    | .filling _ _ f => s.freeFrame t.id f
    | .retired => s).books = s.books := by
  split
  · rw [State.books_drainTask, State.books_stopJobs, State.books_freeNames]
  · rw [State.books_drainTask, State.books_stopJobs]
    split <;> split <;> simp
  · exact State.books_freeFrame ..
  · exact State.books_freeFrame ..
  · rfl
@[simp] theorem State.books_discardTask (s : State) (t : Task) : (s.discardTask t).books = s.books := by
  unfold State.discardTask
  refine (State.books_mapParts (State.dropMessages _ _) _ _ fun e => ?_).trans ?_
  · split <;> exact ⟨rfl, rfl, rfl⟩
  · rw [State.books_dropMessages, State.books_foldl fun s c => (State.books_clearCore ..).trans (State.books_updCore ..)]
    exact (State.books_discardPlace _ t _).trans (State.books_takeFor ..)

end Sys2Proof.Machine
end

section
/-! SUPPORT. The accesses of the command processor and what closing a launch, the end of a teardown and the slot table leave as it was. -/

namespace Sys2Proof.Machine

/-! ## Accesses of the command processor -/

/-- The state but for device memory, its versions and poison, and L2 with its retention registers. -/
def State.apart (s : State) : State := { s with mem := [], vers := [], mvers := [], vers0 := [], poison := [], l2 := [], retain := [] }

theorem State.apart_l2Touch (s : State) (pa : Nat) (e : Bool) : (s.l2Touch pa e).apart = s.apart := by rw [State.l2Touch_frame]; rfl
theorem State.apart_pocWrite (s : State) (cs : List Host.Cell) (ms : Bool) : (s.pocWrite cs none ms).apart = s.apart := rfl

section
variable {P : State → Prop} (hl : ∀ s pa e, P s → P (s.l2Touch pa e))
include hl

theorem State.l2Touches_keep {α : Type} (g : α → Nat) (as : List α) (s : State) (h : P s) : P (as.foldl (fun s a => s.l2Touch (g a) false) s) := by
  induction as generalizing s with
  | nil => exact h
  | cons a r ih => exact ih _ (hl s _ _ h)
theorem State.cpWalk_keeps (s : State) (p va : Nat) (h : P s) : P (s.cpWalk p va).2 := State.l2Touches_keep hl id _ s h
theorem State.cpPages_keeps (p : Nat) (k : Kind) (user : Bool) (fin n : Nat) : ∀ (s : State) (va : Nat) (acc : List Pg), P s →
    P (s.cpPages p k user fin n va acc).2 := by
  induction n with
  | zero => exact fun s va acc h => h
  | succ n ih =>
    intro s va acc h
    have hw := State.cpWalk_keeps hl s p va h
    unfold State.cpPages
    split
    · exact h
    · split
      · rename_i e; rw [e] at hw; exact hw
      · rename_i e; rw [e] at hw
        split
        · exact hw
        · exact ih _ _ _ hw
/-- What every access of L2 keeps, an access of the command processor keeps. -/
theorem State.cpAccess_keeps (s : State) (p : Nat) (k : Kind) (user : Bool) (a n : Nat) (h : P s) : P (s.cpAccess p k user a n).2 := by
  unfold State.cpAccess
  split
  · exact h
  · split
    · exact h
    · exact State.cpPages_keeps hl p k user _ _ s a [] h
theorem State.cpTouch_keeps (s : State) (pgs : List Pg) (a n : Nat) (h : P s) : P (s.cpTouch pgs a n) := by
  unfold State.cpTouch
  split
  · exact h
  · exact State.l2Touches_keep hl (128 * ·) _ s h
/-- What every access of L2 and every write of device memory keep, a write of the command processor keeps. -/
theorem State.cpWrite_keeps (hw : ∀ s cs ms, P s → P (s.pocWrite cs none ms)) (s : State) (p a : Nat) (bs : List Byte) (h : P s) :
    P (s.cpWrite p a bs).1 := by
  have ha := State.cpAccess_keeps hl s p .store false a bs.length h
  unfold State.cpWrite
  split
  · rename_i e; rw [e] at ha
    exact hw _ _ _ (State.cpTouch_keeps hl _ _ _ _ ha)
  · rename_i e; rw [e] at ha; exact ha
end

@[simp] theorem State.apart_cpWrite (s : State) (p a : Nat) (bs : List Byte) : (s.cpWrite p a bs).1.apart = s.apart :=
  State.cpWrite_keeps (P := fun t => t.apart = s.apart) (fun t pa e h => (State.apart_l2Touch t pa e).trans h)
    (fun t cs ms h => (State.apart_pocWrite t cs ms).trans h) s p a bs rfl
@[simp] theorem State.books_cpWrite (s : State) (p a : Nat) (bs : List Byte) : (s.cpWrite p a bs).1.books = s.books :=
  State.cpWrite_keeps (P := fun t => t.books = s.books) (fun t pa e h => (State.books_l2Touch t pa e).trans h)
    (fun t cs ms h => (State.books_pocWrite t cs none ms).trans h) s p a bs rfl

/-! ## Records, signals, interrupts -/

@[simp] theorem State.books_faultLog (s : State) (p src : Nat) (addr : W64) (lid id : W32) (cause : Byte) (core : Nat) :
    (s.faultLog p src addr lid id cause core).books = s.books :=
  State.books_updPart s p fun x => { x with
    faultLog := x.faultLog.put (x.faultCount.toNat % 64) ⟨addr, lid, id, cause, src, core, s.ptp80⟩, faultCount := x.faultCount + 1 }
/-- A record is written, and a write that fails is logged. -/
theorem State.writeRecord_cases (s : State) (l : Launch) :
    let t := (s.cpWrite l.part ((s.part l.part).recAddr l.lid) l.bytes).1
    s.writeRecord l = t ∨ ∃ addr lid c, s.writeRecord l = t.faultLog l.part 14 addr lid 0 c 0 := by
  unfold State.writeRecord
  simp only
  split
  · rename_i e; rw [e]; exact .inl rfl
  · rename_i e; rw [e]; exact .inr ⟨_, _, _, rfl⟩
/-- A signal is written where the launch asks for one, and a write that fails is logged. -/
theorem State.writeSignal_cases (s : State) (l : Launch) :
    let t := (s.cpWrite l.part l.sigaddr.toNat l.signal).1
    s.writeSignal l = s ∨ s.writeSignal l = t ∨ ∃ addr lid c, s.writeSignal l = t.faultLog l.part 1 addr lid 0 c 0 := by
  unfold State.writeSignal
  split
  · exact .inl rfl
  · split
    · rename_i e; rw [e]; exact .inr (.inl rfl)
    · rename_i e; rw [e]; exact .inr (.inr ⟨_, _, _, rfl⟩)
theorem State.announce_cases (s : State) (l : Launch) :
    s.announce l = s.writeSignal l ∨ ∃ o, s.announce l = { s.writeSignal l with out := o } := by
  unfold State.announce State.launchIrq
  simp only
  split
  · split
    · exact .inr ⟨_, rfl⟩
    · exact .inl rfl
  · exact .inl rfl
@[simp] theorem State.books_writeRecord (s : State) (l : Launch) : (s.writeRecord l).books = s.books := by
  obtain h | ⟨_, _, _, h⟩ := s.writeRecord_cases l
  · rw [h, State.books_cpWrite]
  · rw [h, State.books_faultLog, State.books_cpWrite]
@[simp] theorem State.books_writeSignal (s : State) (l : Launch) : (s.writeSignal l).books = s.books := by
  obtain h | h | ⟨_, _, _, h⟩ := s.writeSignal_cases l
  · rw [h]
  · rw [h, State.books_cpWrite]
  · rw [h, State.books_faultLog, State.books_cpWrite]
@[simp] theorem State.books_announce (s : State) (l : Launch) : (s.announce l).books = s.books := by
  rw [← State.books_writeSignal s l]
  obtain h | ⟨_, h⟩ := s.announce_cases l <;> rw [h]
  rfl
@[simp] theorem State.launches_cpWrite (s : State) (p a : Nat) (bs : List Byte) : (s.cpWrite p a bs).1.launches = s.launches := by
  have h := congrArg State.launches (State.apart_cpWrite s p a bs)
  exact h
@[simp] theorem State.launches_faultLog (s : State) (p src : Nat) (addr : W64) (lid id : W32) (cause : Byte) (core : Nat) :
    (s.faultLog p src addr lid id cause core).launches = s.launches := rfl
@[simp] theorem State.launches_writeRecord (s : State) (l : Launch) : (s.writeRecord l).launches = s.launches := by
  obtain h | ⟨_, _, _, h⟩ := s.writeRecord_cases l
  · rw [h, State.launches_cpWrite]
  · rw [h, State.launches_faultLog, State.launches_cpWrite]
@[simp] theorem State.launches_announce (s : State) (l : Launch) : (s.announce l).launches = s.launches := by
  have hs : (s.writeSignal l).launches = s.launches := by
    obtain h | h | ⟨_, _, _, h⟩ := s.writeSignal_cases l
    · rw [h]
    · rw [h, State.launches_cpWrite]
    · rw [h, State.launches_faultLog, State.launches_cpWrite]
  obtain h | ⟨_, h⟩ := s.announce_cases l <;> rw [h, ← hs]
@[simp] theorem State.books_closeMessages (s : State) (l : Launch) : (s.closeMessages l).books = s.books := State.books_updPart ..

/-! ## The slot table -/

@[simp] theorem State.books_putEntry (s : State) (c e : Nat) (v : W64) : (s.putEntry c e v).books = s.books := by
  unfold State.putEntry
  simp only
  split <;> rfl
@[simp] theorem State.books_applyDeferred (s : State) : s.applyDeferred.books = s.books := by
  refine State.books_foldl (fun s d => ?_) _ s
  split
  · rfl
  · exact (State.books_putEntry ..).trans rfl

/-! ## Expert fields, virtual time -/

/-- A retention register returns to RATIO 16. -/
def State.ratio16 (s : State) (k : Nat) : State :=
  { s.unretain k with retain := s.retain.put k { s.retain.getD k .reset with ratio := 16, fills := [], hits := [] } }
/-- A projection that neither LASTWIN nor the retention registers, their lines and their steps are part of. -/
theorem State.expertReturn_proj {β : Type} (g : State → β) (hp : ∀ (s : State) (p : Nat), g (s.updPart p fun x => { x with lastwin := false }) = g s)
    (hs : ∀ (s : State) (l : List RetainStep), g { s with retainSteps := l } = g s) (hr : ∀ (s : State) (k : Nat), g (s.ratio16 k) = g s) (s : State) (p : Nat) :
    g (s.expertReturn p) = g s := by
  unfold State.expertReturn
  split
  · rfl
  · refine (State.foldl_proj g ?_ _ _).trans ((hs _ _).trans (hp s p))
    exact fun s e => hr s e.1
theorem State.books_ratio16 (s : State) (k : Nat) : (s.ratio16 k).books = s.books := by
  have hr := fun j => Retain.part_put s.retain k { s.retain.getD k .reset with ratio := 16, fills := [], hits := [] } rfl j
  simp only [State.books, State.part, State.ratio16, hr]
  rfl
@[simp] theorem State.books_expertReturn (s : State) (p : Nat) : (s.expertReturn p).books = s.books :=
  State.expertReturn_proj State.books (fun _ _ => State.books_updPart ..) (fun _ _ => rfl) State.books_ratio16 s p
@[simp] theorem State.tasks_expertReturn (s : State) (p : Nat) : (s.expertReturn p).tasks = s.tasks :=
  State.expertReturn_proj State.tasks (fun _ _ => rfl) (fun _ _ => rfl) (fun _ _ => rfl) s p
@[simp] theorem State.mem_expertReturn (s : State) (p : Nat) : (s.expertReturn p).mem = s.mem :=
  State.expertReturn_proj State.mem (fun _ _ => rfl) (fun _ _ => rfl) (fun _ _ => rfl) s p
@[simp] theorem State.cores_expertReturn (s : State) (p : Nat) : (s.expertReturn p).cores = s.cores :=
  State.expertReturn_proj State.cores (fun _ _ => rfl) (fun _ _ => rfl) (fun _ _ => rfl) s p
@[simp] theorem State.desc_expertReturn (s : State) (p q : Nat) : ((s.expertReturn p).part q).desc = (s.part q).desc :=
  State.expertReturn_proj (fun s => (s.part q).desc) (fun s p => State.part_updPart_proj Partition.desc s p q _ fun _ => rfl) (fun _ _ => rfl) (fun _ _ => rfl) s p
/-- A partition but for its virtual time. -/
def Partition.sansVt (x : Partition) : Partition := { x with vt := [], vtActive := [] }
/-- A projection that updates of a partition's virtual time leave, the admission of partitions at their priorities leaves. -/
theorem State.vtJoin_proj {β : Type} (g : State → β)
    (h : ∀ (s : State) (p : Nat) (v : Partition → Tab (Nat × Nat)) (a : Partition → List Nat), g (s.updPart p fun x => { x with vt := v x, vtActive := a x }) = g s)
    (s : State) : g s.vtJoin = g s := by
  refine State.foldl_proj g (fun s e => State.foldl_proj g (fun s q => ?_) _ s) _ s
  simp only
  split
  · exact h s e.1 _ _
  · split
    · exact h s e.1 _ _
    · split
      · exact h s e.1 _ _
      · rfl
@[simp] theorem State.books_vtJoin (s : State) : s.vtJoin.books = s.books := State.vtJoin_proj State.books (fun _ _ _ _ => State.books_updPart ..) s
theorem State.vtJoin_sansVt (s : State) (p : Nat) : (s.vtJoin.part p).sansVt = (s.part p).sansVt :=
  State.vtJoin_proj (fun s => (s.part p).sansVt) (fun s q _ _ => State.part_updPart_proj Partition.sansVt s q p _ fun _ => rfl) s
theorem State.vtJoin_part {β : Type} (g : Partition → β) (s : State) (p : Nat) (h : ∀ x : Partition, g x.sansVt = g x := by exact fun _ => rfl) :
    g (s.vtJoin.part p) = g (s.part p) := by
  rw [← h, s.vtJoin_sansVt p, h]
@[simp] theorem State.launches_vtJoin (s : State) : s.vtJoin.launches = s.launches := State.vtJoin_proj State.launches (fun _ _ _ _ => rfl) s
@[simp] theorem State.tasks_vtJoin (s : State) : s.vtJoin.tasks = s.tasks := State.vtJoin_proj State.tasks (fun _ _ _ _ => rfl) s
@[simp] theorem State.mem_vtJoin (s : State) : s.vtJoin.mem = s.mem := State.vtJoin_proj State.mem (fun _ _ _ _ => rfl) s
@[simp] theorem State.rrPart_vtJoin (s : State) : s.vtJoin.rrPart = s.rrPart := State.vtJoin_proj State.rrPart (fun _ _ _ _ => rfl) s
@[simp] theorem State.queue_vtJoin (s : State) (p q : Nat) : (s.vtJoin.part p).queue q = (s.part p).queue q :=
  congrArg (fun b : Books => Tab.getD (b.queues p) q Queue.reset) s.books_vtJoin

end Sys2Proof.Machine
end

section
/-! SUPPORT. The registers of a queue: what a write of QCTL comes to, the ends of a teardown, closing and aborting launches. -/

namespace Sys2Proof.Machine

/-! ## Bits of a register -/

theorem bit_eq_testBit (n k : Nat) : bit n k = n.testBit k := by
  rw [bit, Nat.testBit_eq_decide_div_mod_eq]; rfl
theorem bit_toNat {w : Nat} (v : BitVec w) (k : Nat) : bit v.toNat k = v.getLsbD k := bit_eq_testBit v.toNat k

/-! ## One queue -/

@[simp] theorem State.queue_updQueue (s : State) (p q : Nat) (f : Queue → Queue) :
    ((s.updQueue p q f).part p).queue q = f ((s.part p).queue q) := by
  simp [State.updQueue, Partition.queue]
@[simp] theorem State.launches_updQueue (s : State) (p q : Nat) (f : Queue → Queue) : (s.updQueue p q f).launches = s.launches := rfl
@[simp] theorem State.mem_updQueue (s : State) (p q : Nat) (f : Queue → Queue) : (s.updQueue p q f).mem = s.mem := rfl
@[simp] theorem State.queueClear_updQueue (s : State) (p q : Nat) (f : Queue → Queue) : (s.updQueue p q f).queueClear p q = s.queueClear p q := rfl
/-- Any queue after an update of one: that one, or as it was. -/
theorem State.queue_updQueue_cases (s : State) (p q : Nat) (f : Queue → Queue) (p' q' : Nat) :
    (p' = p ∧ q' = q) ∨ ((s.updQueue p q f).part p').queue q' = (s.part p').queue q' := by
  by_cases hp : p' = p
  · by_cases hq : q' = q
    · exact .inl ⟨hp, hq⟩
    · subst hp; exact .inr (by simp [State.updQueue, Partition.queue, Tab.getD_put_ne _ _ _ hq])
  · exact .inr (by rw [State.updQueue, State.part_updPart_ne _ _ hp])

/-! ## The end of a teardown -/

/-- The registers of a queue that has gone down. -/
def Queue.down (k : Queue) : Queue := { k with enable := false, tear := 0, st := .disabled }
/-- A queue is on its way down. -/
def Queue.going (k : Queue) : Prop := k.st = .draining ∨ k.st = .aborting

/-- The end of a teardown writes the queue's registers, and may post an interrupt, or does nothing. -/
theorem State.endTeardown_cases (s : State) (p q : Nat) :
    (((s.part p).queue q).going ∧ s.queueClear p q = true ∧ ∃ o, s.endTeardown p q = { s.updQueue p q Queue.down with out := o }) ∨
    (¬ (((s.part p).queue q).going ∧ s.queueClear p q = true) ∧ s.endTeardown p q = s) := by
  unfold State.endTeardown
  simp only [Bool.and_eq_true, Bool.or_eq_true, beq_iff_eq]
  split
  · rename_i h
    refine .inl ⟨h.1, h.2, ?_⟩
    split
    · exact ⟨_, rfl⟩
    · exact ⟨s.out, rfl⟩
  · rename_i h; exact .inr ⟨h, rfl⟩
/-- A queue that goes down is DISABLED once its launches are closed. -/
theorem State.queue_endTeardown_clear (s : State) (p q : Nat) (h : ((s.part p).queue q).going) (hc : s.queueClear p q = true) :
    ((s.endTeardown p q).part p).queue q = ((s.part p).queue q).down := by
  obtain ⟨_, _, _, e⟩ | ⟨n, _⟩ := s.endTeardown_cases p q
  · rw [e]; exact s.queue_updQueue p q Queue.down
  · exact absurd ⟨h, hc⟩ n
theorem State.queue_endTeardown_keep (s : State) (p q : Nat) (h : ¬ (((s.part p).queue q).going ∧ s.queueClear p q = true)) :
    s.endTeardown p q = s := by
  obtain ⟨h1, h2, _⟩ | ⟨_, e⟩ := s.endTeardown_cases p q
  · exact absurd ⟨h1, h2⟩ h
  · exact e
/-- A projection that neither the queues nor the interrupts are part of. -/
theorem State.endTeardown_proj {β : Type} (g : State → β) (h : ∀ s p q f o, g { State.updQueue s p q f with out := o } = g s) (s : State) (p q : Nat) :
    g (s.endTeardown p q) = g s := by
  obtain ⟨_, _, _, e⟩ | ⟨_, e⟩ := s.endTeardown_cases p q
  · rw [e, h]
  · rw [e]
@[simp] theorem State.launches_endTeardown (s : State) (p q : Nat) : (s.endTeardown p q).launches = s.launches :=
  State.endTeardown_proj State.launches (fun _ _ _ _ _ => rfl) s p q
@[simp] theorem State.tasks_endTeardown (s : State) (p q : Nat) : (s.endTeardown p q).tasks = s.tasks :=
  State.endTeardown_proj State.tasks (fun _ _ _ _ _ => rfl) s p q
/-- No queue changes its state at the end of a teardown but to DISABLED. -/
theorem State.st_endTeardown (s : State) (p q p' q' : Nat) :
    (((s.endTeardown p q).part p').queue q').st = ((s.part p').queue q').st ∨ (((s.endTeardown p q).part p').queue q').st = .disabled := by
  obtain ⟨_, _, _, e⟩ | ⟨_, e⟩ := s.endTeardown_cases p q
  · rw [e]
    obtain ⟨rfl, rfl⟩ | h := s.queue_updQueue_cases p q Queue.down p' q'
    · exact .inr (congrArg Queue.st (s.queue_updQueue p' q' Queue.down))
    · exact .inl (congrArg Queue.st h)
  · rw [e]; exact .inl rfl

/-! ## Draining, errors -/

/-- The registers of a queue that drains. -/
def Queue.draining (k : Queue) : Queue := { k with tear := 1, st := .draining }

theorem State.drain_active (s : State) (p q : Nat) (h : ((s.part p).queue q).st = .active) :
    s.drain p q = (s.updQueue p q Queue.draining).endTeardown p q := by
  rw [State.drain, h]; rfl
theorem State.drain_inactive (s : State) (p q : Nat) (h : ((s.part p).queue q).st ≠ .active) : s.drain p q = s := by
  simp [State.drain, h]
/-- An ACTIVE queue that drains: DISABLED if its launches are closed, DRAINING while they are not. -/
theorem State.queue_drain (s : State) (p q : Nat) (h : ((s.part p).queue q).st = .active) : ((s.drain p q).part p).queue q =
    if s.queueClear p q = true then ((s.part p).queue q).draining.down else ((s.part p).queue q).draining := by
  have hq := s.queue_updQueue p q Queue.draining
  rw [s.drain_active p q h, ← hq]
  split
  · rename_i hc
    exact State.queue_endTeardown_clear _ p q (by rw [hq]; exact .inl rfl) hc
  · rename_i hc
    rw [(s.updQueue p q Queue.draining).queue_endTeardown_keep p q fun h => hc h.2]
theorem State.drain_proj {β : Type} (g : State → β) (h : ∀ s p q f o, g { State.updQueue s p q f with out := o } = g s) (s : State) (p q : Nat) :
    g (s.drain p q) = g s := by
  by_cases ha : ((s.part p).queue q).st = .active
  · rw [s.drain_active p q ha]
    exact (State.endTeardown_proj g h _ p q).trans (h s p q _ s.out)
  · rw [s.drain_inactive p q ha]
@[simp] theorem State.mem_drain (s : State) (p q : Nat) : (s.drain p q).mem = s.mem := State.drain_proj State.mem (fun _ _ _ _ _ => rfl) s p q
@[simp] theorem State.launches_drain (s : State) (p q : Nat) : (s.drain p q).launches = s.launches :=
  State.drain_proj State.launches (fun _ _ _ _ _ => rfl) s p q
/-- After a drain request a queue keeps ERR and ECODE and is ACTIVE no more. -/
theorem State.drain_err (s : State) (p q : Nat) : let k := ((s.drain p q).part p).queue q
    k.err = ((s.part p).queue q).err ∧ k.ecode = ((s.part p).queue q).ecode ∧ k.st ≠ .active := by
  by_cases h : ((s.part p).queue q).st = .active
  · simp only [s.queue_drain p q h]
    split <;> exact ⟨rfl, rfl, nofun⟩
  · rw [s.drain_inactive p q h]; exact ⟨rfl, rfl, h⟩
/-- A queue that stops on an error shows it, and is ACTIVE no more. -/
theorem State.queue_queueErr (s : State) (p q code : Nat) : let k := ((s.queueErr p q code).part p).queue q
    k.err = true ∧ k.ecode = code ∧ k.st ≠ .active := by
  obtain ⟨h1, h2, h3⟩ := (s.updQueue p q fun k => { k with err := true, ecode := code }).drain_err p q
  rw [State.queue_updQueue] at h1 h2
  exact ⟨h1, h2, h3⟩
@[simp] theorem State.launches_queueErr (s : State) (p q code : Nat) : (s.queueErr p q code).launches = s.launches := State.launches_drain ..

/-! ## Closing a launch -/

/-- The keys of launches as one closes. -/
def LaunchKey.closed (p lid status : Nat) (k : LaunchKey) : LaunchKey :=
  if k.part = p ∧ k.lid = lid then { k with state := .closed, status := status } else k
/-- A launch marked CLOSED, after the fragments for it that have arrived. -/
def State.markClosed (s : State) (p lid status : Nat) : State :=
  (s.takeFor p lid).updLaunch p lid fun l => { l with state := .closed, status := status, ctime := s.closeTime l, digest := if l.repro then l.dig else 0 }
/-- What follows once a launch is marked: record, signal, messages, tasks, and the teardowns that wait for it. -/
def State.windUp (s : State) (p lid : Nat) (l : Launch) : State :=
  let s := ((s.writeRecord l).announce l).closeMessages l
  let s := { s with tasks := s.tasks.filter fun t => !(t.id.part == p && t.id.lid == lid) }
  ((s.endTeardown p l.qid).expertReturn p).applyDeferred

theorem State.close_none (s : State) (p lid status : Nat) (h : (s.markClosed p lid status).launch? p lid = none) :
    s.close p lid status = s.markClosed p lid status := by
  unfold State.markClosed at h
  unfold State.close State.markClosed
  simp only [h]
theorem State.close_some (s : State) (p lid status : Nat) (l : Launch) (h : (s.markClosed p lid status).launch? p lid = some l) :
    s.close p lid status = (s.markClosed p lid status).windUp p lid l := by
  unfold State.markClosed at h
  unfold State.close State.markClosed
  simp only [h]; rfl

theorem State.keys_markClosed (s : State) (p lid status : Nat) :
    (s.markClosed p lid status).launches.map Launch.key = (s.launches.map Launch.key).map (LaunchKey.closed p lid status) := by
  have hk : (s.takeFor p lid).launches.map Launch.key = s.launches.map Launch.key := congrArg Books.launches (s.books_takeFor p lid)
  rw [← hk, State.markClosed, State.updLaunch, List.map_map, List.map_map]
  refine List.map_congr_left fun l _ => ?_
  by_cases h : l.part = p ∧ l.lid = lid
  · simp [LaunchKey.closed, Launch.key, h]
  · simp [LaunchKey.closed, Launch.key, h]
/-- The state between the record of a closed launch and the end of its queue's teardown. -/
theorem State.windUp_books (s : State) (p lid : Nat) (l : Launch) : ∃ u : State, u.books = s.books ∧ (s.windUp p lid l).books = (u.endTeardown p l.qid).books := by
  refine ⟨{ ((s.writeRecord l).announce l).closeMessages l with
    tasks := (((s.writeRecord l).announce l).closeMessages l).tasks.filter fun t => !(t.id.part == p && t.id.lid == lid) }, ?_, ?_⟩
  · exact (State.books_of_fields rfl rfl rfl rfl).trans ((State.books_closeMessages ..).trans ((State.books_announce ..).trans (State.books_writeRecord ..)))
  · rw [State.windUp, State.books_applyDeferred, State.books_expertReturn]
theorem State.keys_close (s : State) (p lid status : Nat) :
    (s.close p lid status).launches.map Launch.key = (s.launches.map Launch.key).map (LaunchKey.closed p lid status) := by
  rw [← s.keys_markClosed]
  cases h : (s.markClosed p lid status).launch? p lid with
  | none => rw [s.close_none _ _ _ h]
  | some l =>
    obtain ⟨u, hu, hw⟩ := (s.markClosed p lid status).windUp_books p lid l
    rw [s.close_some _ _ _ l h]
    exact (congrArg Books.launches hw).trans ((congrArg (List.map Launch.key) (u.launches_endTeardown p l.qid)).trans (congrArg Books.launches hu))

theorem State.queue_of_books {s t : State} (h : t.books = s.books) (p q : Nat) : (t.part p).queue q = (s.part p).queue q :=
  congrArg (fun b : Books => Tab.getD (b.queues p) q Queue.reset) h
/-- No queue changes its state as a launch closes but to DISABLED. -/
theorem State.st_close (s : State) (p lid status p' q : Nat) :
    (((s.close p lid status).part p').queue q).st = ((s.part p').queue q).st ∨ (((s.close p lid status).part p').queue q).st = .disabled := by
  have hm : ((s.markClosed p lid status).part p').queue q = (s.part p').queue q := State.queue_of_books (s.books_takeFor p lid) p' q
  cases h : (s.markClosed p lid status).launch? p lid with
  | none => rw [s.close_none _ _ _ h, hm]; exact .inl rfl
  | some l =>
    obtain ⟨u, hu, hw⟩ := (s.markClosed p lid status).windUp_books p lid l
    rw [s.close_some _ _ _ l h, State.queue_of_books hw, ← hm, ← State.queue_of_books hu p' q]
    exact u.st_endTeardown p l.qid p' q

/-! ## Aborting the launches of a queue -/

/-- The abort of one launch: its tasks go, and it closes. -/
def State.abortLaunch (p : Nat) (s : State) (lid : Nat) : State :=
  ((s.tasks.filter fun t => t.id.part == p && t.id.lid == lid).foldl (fun (s : State) t => s.discardTask t) s).close p lid 3
/-- The launches of a queue that are not CLOSED, in increasing LID order. -/
def State.openLids (s : State) (p q : Nat) : List Nat :=
  ((s.launches.filter fun l => l.part == p && l.qid == q && l.state != .closed).map fun l => l.lid).insertionSort (· ≤ ·)
theorem State.abortLaunches_eq (s : State) (p q : Nat) : s.abortLaunches p q = (s.openLids p q).foldl (State.abortLaunch p) s := rfl

theorem State.books_discardTasks (s : State) (ts : List Task) : (ts.foldl (fun (s : State) t => s.discardTask t) s).books = s.books :=
  State.books_foldl (fun s t => s.books_discardTask t) ts s
theorem State.keys_abortLaunch (p : Nat) (s : State) (lid : Nat) :
    (s.abortLaunch p lid).launches.map Launch.key = (s.launches.map Launch.key).map (LaunchKey.closed p lid 3) := by
  rw [State.abortLaunch, State.keys_close]
  exact congrArg (List.map (LaunchKey.closed p lid 3)) (congrArg Books.launches (s.books_discardTasks _))
theorem State.st_abortLaunch (p : Nat) (s : State) (lid p' q : Nat) :
    (((s.abortLaunch p lid).part p').queue q).st = ((s.part p').queue q).st ∨ (((s.abortLaunch p lid).part p').queue q).st = .disabled := by
  rw [← State.queue_of_books (s.books_discardTasks _) p' q]
  exact State.st_close _ p lid 3 p' q
/-- Aborting the launches of a list closes those of the queue that were not closed, if the list names them all. -/
theorem State.abortLaunch_closes (p q : Nat) (ls : List Nat) : ∀ s : State,
    (∀ k ∈ s.launches.map Launch.key, k.part = p → k.qid = q → k.state ≠ .closed → k.lid ∈ ls) →
    ∀ k ∈ (ls.foldl (State.abortLaunch p) s).launches.map Launch.key, k.part = p → k.qid = q → k.state = .closed := by
  induction ls with
  | nil => exact fun s h k hk hp hq => Classical.byContradiction fun n => List.not_mem_nil (h k hk hp hq n)
  | cons lid r ih =>
    intro s h
    refine ih _ fun k hk hp hq hs => ?_
    rw [s.keys_abortLaunch] at hk
    obtain ⟨k0, hk0, rfl⟩ := List.mem_map.1 hk
    unfold LaunchKey.closed at hp hq hs ⊢
    split at hs
    · exact absurd rfl hs
    · rename_i hn
      rw [if_neg hn] at hp hq ⊢
      exact (List.mem_cons.1 (h k0 hk0 hp hq hs)).resolve_left fun e => hn ⟨hp, e⟩
theorem State.keys_abortLaunches (s : State) (p q : Nat) :
    ∀ k ∈ (s.abortLaunches p q).launches.map Launch.key, k.part = p → k.qid = q → k.state = .closed := by
  refine State.abortLaunch_closes p q _ s fun k hk hp hq hs => ?_
  obtain ⟨l, hl, rfl⟩ := List.mem_map.1 hk
  exact (List.mem_insertionSort _).2 (List.mem_map.2 ⟨l, List.mem_filter.2 ⟨hl, by simpa [Launch.key] using ⟨⟨hp, hq⟩, hs⟩⟩, rfl⟩)
theorem State.st_abortLaunches (s : State) (p q p' q' : Nat) :
    (((s.abortLaunches p q).part p').queue q').st = ((s.part p').queue q').st ∨ (((s.abortLaunches p q).part p').queue q').st = .disabled := by
  rw [State.abortLaunches_eq]
  generalize s.openLids p q = ls
  induction ls generalizing s with
  | nil => exact .inl rfl
  | cons lid r ih =>
    obtain h | h := ih (s.abortLaunch p lid)
    · rw [List.foldl_cons, h]; exact s.st_abortLaunch p lid p' q'
    · exact .inr h
theorem State.queueClear_iff (s : State) (p q : Nat) :
    s.queueClear p q = true ↔ ∀ k ∈ s.launches.map Launch.key, k.part = p → k.qid = q → k.state = .closed := by
  simp only [State.queueClear, List.all_eq_true, Bool.or_eq_true, bne_iff_ne, beq_iff_eq, List.mem_map, forall_exists_index, and_imp,
    forall_apply_eq_imp_iff₂]
  refine forall₂_congr fun l _ => ?_
  show (l.part ≠ p ∨ l.qid ≠ q) ∨ l.state = .closed ↔ (l.part = p → l.qid = q → l.state = .closed)
  tauto
/-- The registers of a queue whose launches are being aborted. -/
def Queue.aborting (k : Queue) : Queue := { k with tear := 2, st := .aborting }
/-- An abort closes every launch of the queue and leaves the queue DISABLED. -/
theorem State.abort_closes (s : State) (p q : Nat) (h : ((s.part p).queue q).st = .active ∨ ((s.part p).queue q).st = .draining) :
    (((s.abort p q).part p).queue q).st = .disabled ∧ (s.abort p q).queueClear p q = true := by
  have hc : ((s.updQueue p q Queue.aborting).abortLaunches p q).queueClear p q = true :=
    (State.queueClear_iff _ p q).2 (State.keys_abortLaunches _ p q)
  have hs := State.st_abortLaunches (s.updQueue p q Queue.aborting) p q p q
  rw [State.queue_updQueue] at hs
  have he : s.abort p q = ((s.updQueue p q Queue.aborting).abortLaunches p q).endTeardown p q := by
    rw [State.abort, if_pos (by simpa using h)]; rfl
  rw [he]
  generalize (s.updQueue p q Queue.aborting).abortLaunches p q = u at hc hs
  refine ⟨?_, ?_⟩
  · obtain hs | hs := hs
    · rw [u.queue_endTeardown_clear p q (.inr hs) hc]; rfl
    · obtain h | h := u.st_endTeardown p q p q
      · rw [h, hs]
      · exact h
  · rw [State.queueClear, State.launches_endTeardown]; exact hc

end Sys2Proof.Machine
end

section
/-! SUPPORT. What is left of a launch that has closed, and what a write of the slot table does to the tasks it unbinds. -/

namespace Sys2Proof.Machine

/-! ## The slot table -/

/-- The names of the tasks. -/
def State.taskIds (s : State) : List TaskId := s.tasks.map fun t => t.id

/-- A change of the tasks that keeps their names is seen where a task is looked up. -/
theorem State.task?_map (s : State) (f : Task → Task) (h : ∀ x, (f x).id = x.id) (i : TaskId) :
    ({ s with tasks := s.tasks.map f } : State).task? i = (s.task? i).map f := by
  simp only [State.task?, List.find?_map]
  congr 2
  funext x
  simp [h]
theorem State.id_of_task? {s : State} {i : TaskId} {x : Task} (h : s.task? i = some x) : x.id = i := by
  simpa using List.find?_some h

/-- What a new value of an entry of cluster `c` makes of a task. -/
def State.lost (s : State) (c : Nat) (t : Task) : Task :=
  match t.place, s.launchOf t with
  | .resident cl _, some l | .filling cl _ _, some l =>
    if cl = c && !l.bounded && !s.stillBound t l then { t with mustGo := true } else t
  | _, _ => t
theorem State.markLost_eq (s : State) (c : Nat) : s.markLost c = { s with tasks := s.tasks.map (s.lost c) } := rfl
theorem State.id_lost (s : State) (c : Nat) (t : Task) : (s.lost c t).id = t.id := by
  unfold State.lost
  split
  · split <;> rfl
  · split <;> rfl
  · rfl
/-- A SHARED task that has lost a core, or whose fill is under way on one it has lost, is marked. -/
theorem State.mustGo_lost (s : State) (c b0 f : Nat) (t : Task) (l : Launch) (hp : t.place = .resident c b0 ∨ t.place = .filling c b0 f)
    (hl : s.launchOf t = some l) (hb : l.bounded = false) (hn : s.stillBound t l = false) : (s.lost c t).mustGo = true := by
  unfold State.lost
  obtain hp | hp := hp <;> simp [hp, hl, hb, hn]
theorem State.stillBound_eq_false {s : State} {t : Task} {l : Launch} {m : Nat} (hm : m ∈ s.blockOfTask t)
    (h : ∀ j, j < 8 → (s.bindAt (m / 8) j).binds (m % 8) t.id.part false (s.spOf l) = false) : s.stillBound t l = false := by
  rw [State.stillBound, List.all_eq_false]
  refine ⟨m, hm, ?_⟩
  rw [Bool.not_eq_true, List.any_eq_false]
  exact fun j hj => Bool.eq_false_iff.1 (h j (List.mem_range.1 hj))

/-- The state with a new value in the slot table, before a cluster wakes for it. -/
def State.withEntry (s : State) (c e : Nat) (v : W64) : State := { s with slotTable := s.slotTable.put (8 * c + e) v }.markLost c
/-- A new value of an entry: the table, the tasks it marks, and the cluster that it may wake. -/
theorem State.putEntry_cases (s : State) (c e : Nat) (v : W64) :
    s.putEntry c e v = s.withEntry c e v ∨ ∃ f m, s.putEntry c e v = { s.withEntry c e v with free := f, mgmt := m } := by
  unfold State.putEntry
  simp only
  split
  · exact .inr ⟨_, _, rfl⟩
  · exact .inl rfl
/-- A projection that neither free bits nor the management core are part of. -/
theorem State.putEntry_proj {β : Type} (g : State → β) (h : ∀ (s : State) (f : Nat) (m : Mgmt), g { s with free := f, mgmt := m } = g s)
    (s : State) (c e : Nat) (v : W64) : g (s.putEntry c e v) = g (s.withEntry c e v) := by
  obtain h' | ⟨f, m, h'⟩ := s.putEntry_cases c e v
  · rw [h']
  · rw [h', h]
theorem State.slotTable_putEntry (s : State) (c e : Nat) (v : W64) : (s.putEntry c e v).slotTable = s.slotTable.put (8 * c + e) v :=
  State.putEntry_proj State.slotTable (fun _ _ _ => rfl) s c e v
theorem State.mem_putEntry (s : State) (c e : Nat) (v : W64) : (s.putEntry c e v).mem = s.mem := State.putEntry_proj State.mem (fun _ _ _ => rfl) s c e v
theorem State.cores_putEntry (s : State) (c e : Nat) (v : W64) : (s.putEntry c e v).cores = s.cores :=
  State.putEntry_proj State.cores (fun _ _ _ => rfl) s c e v
@[simp] theorem State.taskIds_putEntry (s : State) (c e : Nat) (v : W64) : (s.putEntry c e v).taskIds = s.taskIds := by
  rw [State.putEntry_proj State.taskIds (fun _ _ _ => rfl), State.withEntry, State.markLost_eq, State.taskIds, List.map_map]
  exact List.map_congr_left fun t _ => State.id_lost _ c t
@[simp] theorem State.taskIds_applyDeferred (s : State) : s.applyDeferred.taskIds = s.taskIds := by
  refine State.foldl_proj State.taskIds (fun s d => ?_) _ s
  split
  · rfl
  · exact State.taskIds_putEntry ..
/-- A SHARED task that a new value of an entry unbinds is to be pre-empted. -/
theorem State.mustGo_putEntry (s : State) (c e : Nat) (v : W64) (i : TaskId) (x : Task) (l : Launch) (b0 f m : Nat) (hx : s.task? i = some x)
    (hp : x.place = .resident c b0 ∨ x.place = .filling c b0 f) (hl : s.launchOf x = some l) (hb : l.bounded = false) (hm : m ∈ s.blockOfTask x)
    (h : ∀ j, j < 8 → ((s.putEntry c e v).bindAt (m / 8) j).binds (m % 8) i.part false (s.spOf l) = false) :
    (((s.putEntry c e v).task? i).map fun y => y.mustGo) = some true := by
  have ht := State.putEntry_proj (fun s => (s.task? i).map fun y => y.mustGo) (fun _ _ _ => rfl) s c e v
  refine ht.trans ?_
  rw [State.withEntry, State.markLost_eq, State.task?_map _ _ (State.id_lost _ c)]
  show ((s.task? i).map _).map _ = _
  rw [hx]
  refine congrArg some (State.mustGo_lost _ c b0 f x l hp hl hb (State.stillBound_eq_false (m := m) hm fun j hj => ?_))
  have hj := h j hj
  rw [State.bindAt, State.entryAt, s.slotTable_putEntry c e v] at hj
  rw [State.id_of_task? hx]
  exact hj
/-- The tasks of BOUNDED launches on the cores of an entry. -/
theorem State.mem_boundedOn (s : State) (c cores : Nat) (i : TaskId) : i ∈ s.boundedOn c cores ↔ ∃ m x l, m < 8 ∧ cores.testBit m = true ∧
    (s.core (8 * c + m)).holds = some x.id ∧ s.task? x.id = some x ∧ s.launchOf x = some l ∧ l.bounded = true ∧ i = x.id := by
  simp only [State.boundedOn, List.mem_eraseDups, List.mem_filterMap, bitList, List.mem_filter, List.mem_range, bit_eq_testBit]
  constructor
  · rintro ⟨m, ⟨hm, hc⟩, h⟩
    split at h
    · rename_i x hx
      obtain ⟨j, hj, hx⟩ := Option.bind_eq_some_iff.1 hx
      obtain rfl := State.id_of_task? hx
      cases hl : s.launchOf x with
      | none => simp [hl] at h
      | some l =>
        simp only [hl, Option.map_some, Option.getD_some, Option.ite_none_right_eq_some, Option.some.injEq] at h
        exact ⟨m, x, l, hm, hc, hj, hx, hl, h.1, h.2.symm⟩
    · cases h
  · rintro ⟨m, x, l, hm, hc, hj, hx, hl, hb, rfl⟩
    exact ⟨m, ⟨hm, hc⟩, by simp [hj, hx, hl, hb]⟩

/-! ## A closed launch -/

/-- A launch is found by its key. -/
theorem State.key_launch? (s : State) (p lid : Nat) :
    (s.launch? p lid).map Launch.key = (s.launches.map Launch.key).find? fun k => k.part = p ∧ k.lid = lid := by
  rw [List.find?_map]; rfl
theorem State.key_launch?_closed {s t : State} {p lid status : Nat}
    (h : t.launches.map Launch.key = (s.launches.map Launch.key).map (LaunchKey.closed p lid status)) (l : Launch) (hl : s.launch? p lid = some l) :
    (t.launch? p lid).map Launch.key = some (l.key.closed p lid status) := by
  have hc : ((fun k : LaunchKey => decide (k.part = p ∧ k.lid = lid)) ∘ LaunchKey.closed p lid status) = fun k => decide (k.part = p ∧ k.lid = lid) := by
    funext k
    simp only [Function.comp, LaunchKey.closed]
    split <;> rfl
  rw [t.key_launch?, h, List.find?_map, hc, ← s.key_launch?, hl]
  rfl
theorem Launch.key_closed (s : State) (p lid status : Nat) (l : Launch) (h : s.launch? p lid = some l) :
    l.key.closed p lid status = { l.key with state := .closed, status := status } := by
  have hl := List.find?_some h
  exact if_pos (of_decide_eq_true hl)
/-- A launch that has closed is CLOSED with its status. -/
theorem State.launch?_close (s : State) (p lid status : Nat) (l : Launch) (h : s.launch? p lid = some l) :
    (((s.close p lid status).launch? p lid).map fun l => (l.state, l.status)) = some (.closed, status) := by
  have hk := State.key_launch?_closed (s.keys_close p lid status) l h
  rw [Launch.key_closed s p lid status l h] at hk
  obtain ⟨x, hx, hk⟩ := Option.map_eq_some_iff.1 hk
  rw [hx]
  exact congrArg (fun k : LaunchKey => some (k.state, k.status)) hk
theorem State.taskIds_windUp (s : State) (p lid : Nat) (l : Launch) : ∀ i ∈ (s.windUp p lid l).taskIds, ¬ (i.part = p ∧ i.lid = lid) := by
  rw [State.windUp, State.taskIds_applyDeferred]
  intro i hi
  rw [State.taskIds, State.tasks_expertReturn, State.tasks_endTeardown] at hi
  obtain ⟨t, ht, rfl⟩ := List.mem_map.1 hi
  rintro ⟨hp, hl⟩
  simpa [hp, hl] using (List.mem_filter.1 ht).2
/-- The tasks of a launch go as it closes. -/
theorem State.tasks_close (s : State) (p lid status : Nat) (l : Launch) (h : s.launch? p lid = some l) :
    ∀ k ∈ (s.close p lid status).tasks, ¬ (k.id.part = p ∧ k.id.lid = lid) := by
  have hk := State.key_launch?_closed (s.keys_markClosed p lid status) l h
  obtain ⟨x, hx, _⟩ := Option.map_eq_some_iff.1 hk
  intro k hk
  rw [s.close_some p lid status x hx] at hk
  exact State.taskIds_windUp _ p lid x k.id (List.mem_map_of_mem hk)

end Sys2Proof.Machine
end

section
/-! SUPPORT. The host's writes of a queue's registers, and the acceptance of a packet. -/

namespace Sys2Proof.Machine

/-! ## Writes of a queue register -/

/-- The registers of a queue after a write of QCTL, but for what the write asks of its state. -/
def Queue.written (k : Queue) (v : W64) : Queue :=
  let k := { k with prio := bits v.toNat 3 2, irqen := bit v.toNat 2 }
  if k.st == .disabled then { k with loc := bit v.toNat 1, qlog := bits v.toNat 8 4, msix := bits v.toNat 16 11 } else k
theorem Queue.st_written (k : Queue) (v : W64) : (k.written v).st = k.st := by
  unfold Queue.written
  simp only
  split <;> rfl
/-- What an enabled queue's registers hold. -/
def Queue.enabled (k : Queue) (v : W64) : Queue := { k with
  prio := v.toNat / 2 ^ 3 % 4, irqen := v.getLsbD 2, loc := v.getLsbD 1, qlog := v.toNat / 2 ^ 8 % 16, msix := v.toNat / 2 ^ 16 % 2 ^ 11,
  enable := true, qrd := k.qwr, err := false, ecode := 0, st := .active }
/-- The checks of an enable: QBASE and QLOG. -/
def Queue.mayEnable (k : Queue) (v : W64) : Prop :=
  k.qbase.toNat % 4096 = 0 ∧ (v.getLsbD 1 = true ∨ k.qbase.toNat < 2 ^ 52) ∧ v.toNat / 2 ^ 8 % 16 ≤ 12

section
variable {s : State} {p q : Nat} {v : W64}

theorem State.onQueue_exists (hq : (s.part p).hasQueue q = true) (hr : (s.part p).resetting = false) (f : State → State) :
    s.onQueue p q f = .next (f s) := by
  simp [State.onQueue, hq, hr]
/-- A write of QCTL: its fields, then what ENABLE and TEAR ask for (02 R34, R35, R48, R49). -/
theorem State.writeQctl_eq (s : State) (p q : Nat) (v : W64) : s.writeQctl p q v =
    let st := ((s.part p).queue q).st
    let w := s.updQueue p q (·.written v)
    let u := if bit v.toNat 0 && st == .disabled then w.enableQueue p q else if !bit v.toNat 0 && st == .active then w.drain p q else w
    if st == .disabled then (if bit v.toNat 0 then u else u.overrun p q)
    else if bits v.toNat 12 2 = 1 then u.drain p q
    else if bits v.toNat 12 2 = 2 then (u.abort p q).vtJoin else u.vtJoin := rfl
theorem State.writeQctl_enable (h : ((s.part p).queue q).st = .disabled) (hv : v.getLsbD 0 = true) :
    s.writeQctl p q v = (s.updQueue p q (·.written v)).enableQueue p q := by
  simp only [State.writeQctl_eq, bit_toNat, hv, h]
  rfl
theorem bits_hi_eq_zero (a : W64) : bits a.toNat 52 12 = 0 ↔ a.toNat < 2 ^ 52 := by
  have := a.isLt
  unfold bits
  omega
theorem Queue.written_disabled (k : Queue) (v : W64) (h : k.st = .disabled) : k.written v = { k with
    prio := v.toNat / 2 ^ 3 % 4, irqen := v.getLsbD 2, loc := v.getLsbD 1, qlog := v.toNat / 2 ^ 8 % 16, msix := v.toNat / 2 ^ 16 % 2 ^ 11 } := by
  simp only [Queue.written, h, beq_self_eq_true, if_true, bit_toNat]
  rfl
/-- The check that an enable makes of the registers as they are written with it. -/
theorem Queue.mayEnable_iff (k : Queue) (v : W64) (h : k.st = .disabled) : (let w := k.written v
    w.qbase.toNat % 4096 = 0 && (w.loc || bits w.qbase.toNat 52 12 = 0) && decide (w.qlog ≤ 12)) = true ↔ k.mayEnable v := by
  simp only [k.written_disabled v h, Bool.and_eq_true, Bool.or_eq_true, decide_eq_true_eq, bits_hi_eq_zero, Queue.mayEnable, and_assoc]
theorem State.queue_enableQueue (h : ((s.part p).queue q).st = .disabled) (hg : ((s.part p).queue q).mayEnable v) :
    (((s.updQueue p q (·.written v)).enableQueue p q).part p).queue q = ((s.part p).queue q).enabled v := by
  rw [State.enableQueue, State.queue_updQueue, if_pos ((Queue.mayEnable_iff _ v h).2 hg), State.queue_updQueue, State.queue_updQueue,
    Queue.written_disabled _ v h]
  rfl
theorem State.queue_enableQueue_bad (h : ((s.part p).queue q).st = .disabled) (hg : ¬ ((s.part p).queue q).mayEnable v) :
    let k := (((s.updQueue p q (·.written v)).enableQueue p q).part p).queue q
    k.st = .disabled ∧ k.err = true ∧ k.ecode = 3 := by
  simp only
  rw [State.enableQueue, State.queue_updQueue, if_neg (mt (Queue.mayEnable_iff _ v h).1 hg), State.queue_updQueue, State.queue_updQueue]
  exact ⟨(Queue.st_written ..).trans h, rfl, rfl⟩
theorem State.mem_enableQueue (s : State) (p q : Nat) : (s.enableQueue p q).mem = s.mem := by
  unfold State.enableQueue
  simp only
  split <;> rfl

/-- ENABLE 0 to an ACTIVE queue, with no other request of teardown. -/
theorem State.writeQctl_disable (h : ((s.part p).queue q).st = .active) (hv : v.getLsbD 0 = false) (ht : v.toNat / 2 ^ 12 % 4 = 0) :
    s.writeQctl p q v = ((s.updQueue p q (·.written v)).drain p q).vtJoin := by
  have ht' : bits v.toNat 12 2 = 0 := ht
  simp only [State.writeQctl_eq, bit_toNat, hv, h, ht']
  rfl
theorem State.writeQctl_drain (h : ((s.part p).queue q).st = .active) (hv : v.getLsbD 0 = true) (ht : v.toNat / 2 ^ 12 % 4 = 1) :
    s.writeQctl p q v = (s.updQueue p q (·.written v)).drain p q := by
  have ht' : bits v.toNat 12 2 = 1 := ht
  simp only [State.writeQctl_eq, bit_toNat, hv, h, ht']
  rfl
theorem State.writeQctl_abort (h : ((s.part p).queue q).st = .active ∨ ((s.part p).queue q).st = .draining) (hv : v.getLsbD 0 = true)
    (ht : v.toNat / 2 ^ 12 % 4 = 2) : s.writeQctl p q v = ((s.updQueue p q (·.written v)).abort p q).vtJoin := by
  have ht' : bits v.toNat 12 2 = 2 := ht
  obtain h | h := h <;> simp only [State.writeQctl_eq, bit_toNat, hv, h, ht'] <;> rfl
/-- The state of a queue that a write of QCTL makes drain. -/
theorem State.st_writtenDrain (h : ((s.part p).queue q).st = .active) : ((((s.updQueue p q (·.written v)).drain p q).part p).queue q).st =
    if s.queueClear p q = true then .disabled else .draining := by
  have hw : (((s.updQueue p q (·.written v)).part p).queue q).st = .active := by rw [State.queue_updQueue, Queue.st_written, h]
  rw [State.queue_drain _ p q hw, State.queueClear_updQueue]
  split <;> rfl
/-- The state of a queue that a write of QCTL aborts, and its launches. -/
theorem State.writtenAbort (h : ((s.part p).queue q).st = .active ∨ ((s.part p).queue q).st = .draining) :
    let t := (s.updQueue p q (·.written v)).abort p q
    ((t.part p).queue q).st = .disabled ∧ ∀ l ∈ t.launches, l.part = p → l.qid = q → l.state = .closed := by
  have hw := State.abort_closes (s.updQueue p q (·.written v)) p q (by rw [State.queue_updQueue, Queue.st_written]; exact h)
  exact ⟨hw.1, fun l hl => (State.queueClear_iff _ p q).1 hw.2 l.key (List.mem_map_of_mem hl)⟩
theorem setWidth_eq_extract (v : W64) : v.extractLsb' 0 32 = v.setWidth 32 := by
  ext i hi
  simp
theorem State.overrun_fits (h : ((v.setWidth 32 : W32) - ((s.part p).queue q).qrd).toNat ≤ 2 ^ (((s.part p).queue q).qlog + 4)) :
    (s.updQueue p q fun k => { k with qwr := v.extractLsb' 0 32 }).overrun p q = s.updQueue p q fun k => { k with qwr := v.setWidth 32 } := by
  rw [setWidth_eq_extract, State.overrun, State.queue_updQueue]
  exact if_neg (by simpa [Queue.slots] using h)
theorem State.overrun_over (h : 2 ^ (((s.part p).queue q).qlog + 4) < ((v.setWidth 32 : W32) - ((s.part p).queue q).qrd).toNat) :
    let k := (((s.updQueue p q fun k => { k with qwr := v.extractLsb' 0 32 }).overrun p q).part p).queue q
    k.err = true ∧ k.ecode = 1 ∧ k.st ≠ .active := by
  rw [setWidth_eq_extract, State.overrun, State.queue_updQueue, if_pos (by simpa [Queue.slots] using h)]
  exact State.queue_queueErr _ p q 1
end

end Sys2Proof.Machine
end

section
/-! SUPPORT. The acceptance of a packet from a host-resident ring (02 R37 to R40). -/

namespace Sys2Proof.Machine

/-! ## The packet that comes next -/

theorem State.nextLid_vtJoin (s : State) (p : Nat) : (s.vtJoin.part p).nextLid = (s.part p).nextLid :=
  congrArg (fun b : Books => b.nextLid p) s.books_vtJoin
/-- The admission of partitions at their priorities leaves the packet that comes next. -/
theorem State.nextSource_vtJoin (s : State) : s.vtJoin.nextSource = s.nextSource := by
  have hd (p : Nat) : (s.vtJoin.part p).desc = (s.part p).desc := State.vtJoin_part Partition.desc s p
  have hr (p : Nat) : (s.vtJoin.part p).resetting = (s.part p).resetting := State.vtJoin_part Partition.resetting s p
  have hq (p : Nat) : (s.vtJoin.part p).rrQueue = (s.part p).rrQueue := State.vtJoin_part Partition.rrQueue s p
  have hh (p : Nat) : (s.vtJoin.part p).holds = (s.part p).holds := State.vtJoin_part Partition.holds s p
  simp only [State.nextSource, State.stalled, State.rrPart_vtJoin, State.launches_vtJoin, State.nextLid_vtJoin, hd, hr, hq, hh]
  rfl

/-! ## Acceptance -/

/-- The state in which a packet is judged: the LID is taken. -/
def State.lidTaken (s : State) (p : Nat) : State := s.updPart p fun x => { x with nextLid := x.nextLid + 1 }
theorem State.accept_inr {s u : State} {p q r : Nat} {k : Packet} {dev : Bool}
    (h : (s.lidTaken p).examine p k (Launch.new p (s.part p).nextLid q k dev (s.lidTaken p).ptp80) = (.inr r, u)) : s.accept p q k dev =
    let l := Launch.new p (s.part p).nextLid q k dev (s.lidTaken p).ptp80
    let l := { l with state := .closed, reason := r, status := 2, ctime := l.atime, reuse := k.cext != 0 && r == 10 }
    (l, ({ u with launches := u.launches ++ [l] }.writeRecord l).announce l) := by
  unfold State.lidTaken at h ⊢
  unfold State.accept
  simp only
  rw [h]
theorem State.accept_inl {s u : State} {p q : Nat} {k : Packet} {dev : Bool} {l : Launch}
    (h : (s.lidTaken p).examine p k (Launch.new p (s.part p).nextLid q k dev (s.lidTaken p).ptp80) = (.inl l, u)) : s.accept p q k dev =
    let u := if l.cext = 0 then u else u.updPart p fun x => { x with recent := ((l.seed, l.cbase, l.cext) :: x.recent).take 256 }
    (l, { u with launches := u.launches ++ [l] }.writeRecord l) := by
  unfold State.lidTaken at h
  unfold State.accept
  simp only
  rw [h]

/-- One launch is appended, one LID is taken, and no queue changes. -/
structure State.Appends (s t : State) (p : Nat) (l : Launch) : Prop where
  launches : t.launches = s.launches ++ [l]
  nextLid : (t.part p).nextLid = (s.part p).nextLid + 1
  queue : ∀ q, (t.part p).queue q = (s.part p).queue q

theorem State.appends_of_books {s t : State} {p : Nat} {l : Launch} (hl : t.launches = s.launches ++ [l])
    (hb : t.books = ({ s.lidTaken p with launches := s.launches ++ [l] } : State).books) : s.Appends t p l where
  launches := hl
  nextLid := by
    have hn : (t.part p).nextLid = ((s.lidTaken p).part p).nextLid := congrArg (fun b : Books => b.nextLid p) hb
    rw [hn, State.lidTaken, State.part_updPart]
  queue q := by
    have hq : (t.part p).queue q = ((s.lidTaken p).part p).queue q := State.queue_of_books hb p q
    rw [hq, State.lidTaken, State.part_updPart]; rfl

/-- A packet that is not well formed: its launch is refused with REASON 1. -/
theorem State.accept_misshapen (s : State) (p q : Nat) (k : Packet) (dev : Bool) (h : k.shapeOk = false) :
    let r := s.accept p q k dev
    s.Appends r.2 p r.1 ∧ r.1.part = p ∧ r.1.qid = q ∧ r.1.lid = (s.part p).nextLid ∧ r.1.state = .closed ∧ r.1.reason = 1 ∧ r.1.status = 2 := by
  have he : (s.lidTaken p).examine p k (Launch.new p (s.part p).nextLid q k dev (s.lidTaken p).ptp80) = (.inr 1, s.lidTaken p) := by
    simp [State.examine, h]
  rw [State.accept_inr he]
  refine ⟨State.appends_of_books ?_ ?_, rfl, rfl, rfl, rfl, rfl, rfl⟩
  · rw [State.launches_announce, State.launches_writeRecord]; rfl
  · rw [State.books_announce, State.books_writeRecord]; rfl
theorem Packet.reuseref_marker (k : Packet) (h : k.shapeOk = true) (ht : k.type = 2) : k.reuseref = false := by
  simp only [Packet.shapeOk, ht, Bool.and_eq_true, Bool.or_eq_true, Bool.not_eq_true'] at h
  simp_all
/-- A marker without dependences is accepted. -/
theorem State.accept_marker (s : State) (p q : Nat) (k : Packet) (dev : Bool) (h : k.shapeOk = true) (ht : k.type = 2) (hd : k.deps = []) :
    let r := s.accept p q k dev
    s.Appends r.2 p r.1 ∧ r.1.part = p ∧ r.1.qid = q ∧ r.1.lid = (s.part p).nextLid ∧ r.1.state = .accepted ∧ r.1.marker = true ∧ r.1.reason = 0 := by
  have he : (s.lidTaken p).examine p k (Launch.new p (s.part p).nextLid q k dev (s.lidTaken p).ptp80) =
      (.inl { Launch.new p (s.part p).nextLid q k dev (s.lidTaken p).ptp80 with ridge := 0xFFFFFFFF, ridge0 := 0xFFFFFFFF }, s.lidTaken p) := by
    simp [State.examine, h, ht, hd, k.reuseref_marker h ht]
  rw [State.accept_inl he]
  refine ⟨State.appends_of_books ?_ ?_, rfl, rfl, rfl, rfl, by simp [Launch.new, ht], rfl⟩
  · rw [State.launches_writeRecord]
    split <;> rfl
  · rw [State.books_writeRecord]
    split
    · rfl
    · exact State.books_updPart { s.lidTaken p with launches := _ } p fun x => { x with recent := _ }

/-! ## ACCEPT_PACKET -/

/-- The round robin has gone on from the queue whose turn it is. -/
def State.turned (s : State) (p q : Nat) : State := { s.vtJoin with rrPart := (p + 1) % 16 }.updPart p fun x => { x with rrQueue := (q + 1) % 65 }
theorem State.launches_turned (s : State) (p q : Nat) : (s.turned p q).launches = s.launches := s.launches_vtJoin
theorem State.queue_turned (s : State) (p q : Nat) (j : Nat) : ((s.turned p q).part p).queue j = (s.part p).queue j := by
  rw [← s.queue_vtJoin p j, State.turned, State.part_updPart]; rfl
theorem State.nextLid_turned (s : State) (p q : Nat) : ((s.turned p q).part p).nextLid = (s.part p).nextLid := by
  rw [← s.nextLid_vtJoin p, State.turned, State.part_updPart]; rfl

section
variable {s : State} {p q : Nat} (hn : s.nextSource = some (p, q)) (hq : q ≠ 64) (hl : ((s.part p).queue q).loc = true)
include hn hq hl

theorem execAcceptPacket_none : execAcceptPacket none s = .next ((s.turned p q).queueErr p q 2) := by
  have hl' : (((s.turned p q).part p).queue q).loc = true := by rw [State.queue_turned, hl]
  unfold State.turned at hl'
  simp only [execAcceptPacket, State.nextSource_vtJoin, hn, hq, hl', Option.map_none, if_true, if_false]
  rfl
theorem execAcceptPacket_some (v : VWord) : execAcceptPacket (some v) s =
    let r := (s.turned p q).accept p q ⟨vBytes v⟩ false
    .next (r.2.updQueue p q fun k => { k with qrd := k.qrd + 1, lastlid := w32 r.1.lid }) := by
  have hl' : (((s.turned p q).part p).queue q).loc = true := by rw [State.queue_turned, hl]
  unfold State.turned at hl'
  simp only [execAcceptPacket, State.nextSource_vtJoin, hn, hq, hl', Option.map_some, if_true, if_false]
  rfl
end
/-- What a packet taken from the ring of a queue leaves. -/
theorem State.accepted_books {s u : State} {p q : Nat} {l : Launch} (h : (s.turned p q).Appends u p l) (hlid : l.lid = ((s.turned p q).part p).nextLid) :
    let t := u.updQueue p q fun k => { k with qrd := k.qrd + 1, lastlid := w32 l.lid }
    t.launches = s.launches ++ [l] ∧ l.lid = (s.part p).nextLid ∧ (t.part p).nextLid = (s.part p).nextLid + 1 ∧
      ((t.part p).queue q).qrd = ((s.part p).queue q).qrd + 1 ∧ ((t.part p).queue q).lastlid = BitVec.ofNat 32 l.lid := by
  refine ⟨?_, ?_, ?_, ?_, ?_⟩
  · rw [State.launches_updQueue, h.launches, State.launches_turned]
  · rw [hlid, State.nextLid_turned]
  · rw [State.updQueue, State.part_updPart, ← s.nextLid_turned p q, ← h.nextLid]
  · rw [State.queue_updQueue, ← s.queue_turned p q q, ← h.queue]
  · rw [State.queue_updQueue]; rfl

end Sys2Proof.Machine
end

section
/-! SUPPORT. What each command of the host and of firmware over queues, launches, partitions and the slot table comes to, and the statement of them. -/

namespace Sys2Proof.Machine

/-! ## Queues -/

section
variable {p : PartN} {q : Fin 64} {v : W64} {s : State} (hq : (s.part p.val).hasQueue q.val = true) (hr : (s.part p.val).resetting = false)
include hq hr

theorem exec_queueEnable (h : ((s.part p.val).queue q.val).st = .disabled) (hv : v.getLsbD 0 = true) :
    exec (.queueEnable p q v) s = .next ((s.updQueue p.val q.val (·.written v)).enableQueue p.val q.val) := by
  refine (State.onQueue_exists hq hr _).trans ?_
  rw [hv, h, s.writeQctl_enable h hv]
  rfl
theorem exec_queueDisable (h : ((s.part p.val).queue q.val).st = .active) (hv : v.getLsbD 0 = false) (ht : v.toNat / 2 ^ 12 % 4 = 0) :
    exec (.queueDisable p q v) s = .next ((s.updQueue p.val q.val (·.written v)).drain p.val q.val).vtJoin := by
  refine (State.onQueue_exists hq hr _).trans ?_
  rw [hv, h, s.writeQctl_disable h hv ht]
  rfl
theorem exec_queueDrain (h : ((s.part p.val).queue q.val).st = .active) (hv : v.getLsbD 0 = true) (ht : v.toNat / 2 ^ 12 % 4 = 1) :
    exec (.queueDrain p q v) s = .next ((s.updQueue p.val q.val (·.written v)).drain p.val q.val) := by
  refine (State.onQueue_exists hq hr _).trans ?_
  rw [s.writeQctl_drain h hv ht, if_pos (show bits v.toNat 12 2 = 1 from ht)]
theorem exec_queueAbort (h : ((s.part p.val).queue q.val).st = .active ∨ ((s.part p.val).queue q.val).st = .draining) (hv : v.getLsbD 0 = true)
    (ht : v.toNat / 2 ^ 12 % 4 = 2) :
    exec (.queueAbort p q v) s = .next ((s.updQueue p.val q.val (·.written v)).abort p.val q.val).vtJoin := by
  refine (State.onQueue_exists hq hr _).trans ?_
  rw [s.writeQctl_abort h hv ht, if_pos (show bits v.toNat 12 2 = 2 from ht)]
theorem exec_qwrWrite : exec (.qwrWrite p q v) s =
    .next ((s.updQueue p.val q.val fun k => { k with qwr := v.extractLsb' 0 32 }).overrun p.val q.val) := by
  show execQwrWrite p q v s = _
  exact State.onQueue_exists hq hr _
end

/-! ## Closing -/

theorem exec_closeLaunch_some (p : PartN) (lid st : Nat) (s : State) (l : Launch) (hl : s.launch? p.val lid = some l) (h : s.closeStatus l = some st) :
    ∃ tol, exec (.closeLaunch p lid) s = .next ((s.updLaunch p.val lid fun x => { x with tolran := x.tolran || tol }).close p.val lid st).vtJoin := by
  refine ⟨l.state == .accepted && st == 1 && s.depsTolerated l && !l.marker, ?_⟩
  show execCloseLaunch p lid s = _
  unfold execCloseLaunch
  simp only [hl, h]
theorem exec_closeLaunch_none (p : PartN) (lid : Nat) (s : State) (l : Launch) (hl : s.launch? p.val lid = some l) (h : s.closeStatus l = none) :
    exec (.closeLaunch p lid) s = .next s := by
  show execCloseLaunch p lid s = _
  unfold execCloseLaunch
  simp only [hl, h]
/-- A launch that closes is CLOSED with its status, and its tasks are gone. -/
theorem State.closed_by_command (s : State) (p lid st : Nat) (tol : Bool) (l : Launch) (hl : s.launch? p lid = some l) :
    let t := ((s.updLaunch p lid fun x => { x with tolran := x.tolran || tol }).close p lid st).vtJoin
    ((t.launch? p lid).map fun l => (l.state, l.status)) = some (.closed, st) ∧ ∀ k ∈ t.tasks, ¬ (k.id.part = p ∧ k.id.lid = lid) := by
  have hu : (s.updLaunch p lid fun x => { x with tolran := x.tolran || tol }).launch? p lid = some { l with tolran := l.tolran || tol } := by
    rw [s.launch?_updLaunch p lid (fun x => { x with tolran := x.tolran || tol }) fun _ => ⟨rfl, rfl⟩, hl]; rfl
  refine ⟨?_, ?_⟩
  · rw [State.launch?, State.launches_vtJoin]
    exact State.launch?_close _ p lid st _ hu
  · rw [State.tasks_vtJoin]
    exact State.tasks_close _ p lid st _ hu
theorem State.sendsFinal_iff (s : State) (l : Launch) :
    s.sendsFinal l = true ↔ ∀ x ∈ (s.part l.part).tx, x.task.part = l.part → x.task.lid = l.lid → x.final = true := by
  simp only [State.sendsFinal, List.all_eq_true, Bool.or_eq_true, bne_iff_ne]
  exact forall₂_congr fun x _ => by tauto
theorem State.packetsTaken_iff (s : State) (l : Launch) :
    s.packetsTaken l = true ↔ ∀ x ∈ (s.part l.part).dq, ¬ (x.task.part = l.part ∧ x.task.lid = l.lid) := by
  simp only [State.packetsTaken, List.all_eq_true, Bool.or_eq_true, bne_iff_ne]
  exact forall₂_congr fun x _ => by tauto
theorem State.allRetired_iff (s : State) (l : Launch) : s.allRetired l = true ↔ (l.next = l.last ∧ l.preempted = []) ∧
    ∀ k ∈ s.tasks, k.id.part = l.part → k.id.lid = l.lid → k.place = .retired := by
  simp only [State.allRetired, Launch.allDispatched, Bool.and_eq_true, beq_iff_eq, List.isEmpty_iff, List.all_eq_true, Bool.or_eq_true, bne_iff_ne]
  exact and_congr_right fun _ => forall₂_congr fun x _ => by tauto
/-- When a launch that runs may close. -/
theorem State.closeStatus_running (s : State) (l : Launch) (h : l.state = .running) : s.closeStatus l =
    if s.allRetired l && s.sendsFinal l && s.packetsTaken l && (!l.repro || s.reached l ≤ l.laid) then some (if l.faulted then 4 else 1) else none := by
  unfold State.closeStatus
  rw [h]

/-! ## The slot table -/

/-- The state as a write of the slot table finds it: a deferred value of the entry is superseded. -/
def State.undeferred (s : State) (k : Nat) : State := { s with mgmt := { s.mgmt with deferred := s.mgmt.deferred.filter fun d => d.entry != k } }

section
variable {c : ClusterN} {e : Fin 8} {v : W64} {s : State} (hb : s.bindCheck c.val e.val v = 0)
include hb

theorem exec_slotTableWrite : exec (.slotTableWrite c e v) s =
    let k := 8 * c.val + e.val
    let old := s.bindAt c.val e.val
    let s := s.undeferred k
    let ts := if old.valid && old.cls = 1 then s.boundedOn c.val old.cores else []
    if !ts.isEmpty then
      .next (if s.entryAt c.val e.val = v then s else { s with mgmt := { s.mgmt with deferred := s.mgmt.deferred ++ [⟨k, v, ts⟩] } })
    else .next (s.putEntry c.val e.val v) := by
  show execSlotTableWrite c e v s = _
  unfold execSlotTableWrite
  simp only [hb]
  rfl
theorem exec_slotTableWrite_now (h : (s.bindAt c.val e.val).valid = false ∨ (s.bindAt c.val e.val).cls ≠ 1 ∨
    s.boundedOn c.val (s.bindAt c.val e.val).cores = []) :
    exec (.slotTableWrite c e v) s = .next ((s.undeferred (8 * c.val + e.val)).putEntry c.val e.val v) := by
  have hd : (s.undeferred (8 * c.val + e.val)).boundedOn c.val (s.bindAt c.val e.val).cores = s.boundedOn c.val (s.bindAt c.val e.val).cores := rfl
  rw [exec_slotTableWrite hb]
  simp only [hd]
  rw [if_neg]
  obtain h | h | h := h <;> simp [h]
theorem exec_slotTableWrite_held (hv : (s.bindAt c.val e.val).valid = true) (hc : (s.bindAt c.val e.val).cls = 1) (hn : s.entryAt c.val e.val ≠ v)
    (hh : s.boundedOn c.val (s.bindAt c.val e.val).cores ≠ []) : ∃ t : State, exec (.slotTableWrite c e v) s = .next t ∧ t.slotTable = s.slotTable ∧
      ⟨8 * c.val + e.val, v, s.boundedOn c.val (s.bindAt c.val e.val).cores⟩ ∈ t.mgmt.deferred := by
  have hd : (s.undeferred (8 * c.val + e.val)).boundedOn c.val (s.bindAt c.val e.val).cores = s.boundedOn c.val (s.bindAt c.val e.val).cores := rfl
  have he : (s.undeferred (8 * c.val + e.val)).entryAt c.val e.val = s.entryAt c.val e.val := rfl
  rw [exec_slotTableWrite hb]
  simp only [hd, he, hv, hc, hn, decide_true, Bool.and_self, if_true, if_false, Bool.not_eq_true', List.isEmpty_eq_false_iff, ne_eq, hh, not_false_eq_true]
  exact ⟨_, rfl, rfl, by simp⟩
end
theorem exec_slotTableWrite_refused {c : ClusterN} {e : Fin 8} {v : W64} {s : State} (hb : s.bindCheck c.val e.val v ≠ 0) :
    exec (.slotTableWrite c e v) s = .next { s with mgmt := { s.mgmt with
      sltErr := true, sltEntry := 8 * c.val + e.val, sltEcode := s.bindCheck c.val e.val v } } := by
  show execSlotTableWrite c e v s = _
  obtain ⟨n, hn⟩ := Nat.exists_eq_succ_of_ne_zero hb
  unfold execSlotTableWrite
  simp only [hn]

/-! ## The statement -/

/-- Settles O54: the write of each queue register and of the slot table by the cases of the queue and of the entry; an abort by induction over the
launches that it closes, each of which keeps the books of all the others. -/
theorem queuesAndLaunches : Obligations.QueuesAndLaunches := by
  unfold Obligations.QueuesAndLaunches
  refine ⟨?queues, ?packets, ?noPacket, ?closing, ?creation, ?expert, ?slots, fun v s => rfl⟩
  case queues =>
    intro p q v s hq hr
    refine ⟨fun h hv hg => ?_, fun h hv hg => ?_, fun h hv ht => ?_, fun h hv ht => ?_, fun h hv ht => ?_, fun h => ?_, fun h => ?_⟩
    · exact ⟨_, exec_queueEnable hq hr h hv, State.mem_enableQueue .., State.queue_enableQueue h hg⟩
    · exact ⟨_, exec_queueEnable hq hr h hv, State.queue_enableQueue_bad h hg⟩
    · refine ⟨_, exec_queueDisable hq hr h hv ht, by rw [State.mem_vtJoin, State.mem_drain, State.mem_updQueue], ?_⟩
      rw [State.queue_vtJoin, State.st_writtenDrain h]
    · exact ⟨_, exec_queueDrain hq hr h hv ht, by rw [State.mem_drain, State.mem_updQueue], State.st_writtenDrain h⟩
    · obtain ⟨hd, hc⟩ := State.writtenAbort (v := v) h
      refine ⟨_, exec_queueAbort hq hr h hv ht, by rw [State.queue_vtJoin, hd], ?_⟩
      rw [State.launches_vtJoin]; exact hc
    · rw [exec_qwrWrite hq hr, State.overrun_fits h]
    · exact ⟨_, exec_qwrWrite hq hr, State.overrun_over h⟩
  case packets =>
    intro v s p q hn hq hl
    refine ⟨?_, _, execAcceptPacket_none hn hq hl, ?_⟩
    · rintro (hs | ⟨hs, ht, hd⟩)
      · obtain ⟨ha, hp, hqid, hlid, hst, hre, hsu⟩ := (s.turned p q).accept_misshapen p q ⟨vBytes v⟩ false hs
        obtain ⟨h1, h2, h3, h4, h5⟩ := State.accepted_books ha hlid
        exact ⟨_, _, execAcceptPacket_some hn hq hl v, h1, hp, hqid, h2, by rw [if_neg (by simp [hs])]; exact ⟨hst, hre, hsu⟩, h3, h4, h5⟩
      · obtain ⟨ha, hp, hqid, hlid, hst, hma, hre⟩ := (s.turned p q).accept_marker p q ⟨vBytes v⟩ false hs ht hd
        obtain ⟨h1, h2, h3, h4, h5⟩ := State.accepted_books ha hlid
        exact ⟨_, _, execAcceptPacket_some hn hq hl v, h1, hp, hqid, h2, by rw [if_pos hs]; exact ⟨hst, hma, hre⟩, h3, h4, h5⟩
    · obtain ⟨he, hc, _⟩ := (s.turned p q).queue_queueErr p q 2
      exact ⟨he, hc, by rw [State.launches_queueErr, State.launches_turned]⟩
  case noPacket =>
    intro h s hn
    show execAcceptPacket h s = _
    simp only [execAcceptPacket, State.nextSource_vtJoin, hn]
  case closing =>
    intro p lid s l hl
    refine ⟨fun st h => ?_, exec_closeLaunch_none p lid s l hl, fun hst hn hp ht hre hs hd => ?_, fun hst ⟨x, hx, hp, hl, hf⟩ => ?_, fun hst ⟨x, hx, h⟩ => ?_⟩
    · obtain ⟨tol, he⟩ := exec_closeLaunch_some p lid st s l hl h
      exact ⟨_, he, s.closed_by_command p.val lid st tol l hl⟩
    · rw [s.closeStatus_running l hst, (s.allRetired_iff l).2 ⟨⟨hn, hp⟩, ht⟩, (s.sendsFinal_iff l).2 hs, (s.packetsTaken_iff l).2 hd, hre]
      rfl
    · have hn : s.sendsFinal l = false := Bool.eq_false_iff.2 fun h => by simpa [hf] using (s.sendsFinal_iff l).1 h x hx hp hl
      rw [s.closeStatus_running l hst, hn]; simp
    · have hn : s.packetsTaken l = false := Bool.eq_false_iff.2 fun h' => (s.packetsTaken_iff l).1 h' x hx h
      rw [s.closeStatus_running l hst, hn]; simp
  case creation =>
    intro p v s
    refine ⟨fun hv hok => ?_, fun h => ?_⟩
    · show execPartitionCreate p v s = _
      simp [execPartitionCreate, hv, hok, State.valid]
    · show execPartitionCreate p v s = _
      unfold execPartitionCreate
      simp only
      rw [if_pos (by obtain h | h := h <;> simp [h])]
  case expert =>
    intro p b s hv
    refine ⟨_, (congrArg Host.Outcome.next (if_pos hv) : exec (.expertChange p b) s = _), ?_, State.mem_expertReturn .., State.cores_expertReturn ..⟩
    rw [State.desc_expertReturn, State.part_updPart]
  case slots =>
    intro c e v s
    refine ⟨fun hb h => ?_, s.mem_boundedOn c.val _, fun hb hv hc hn hh => exec_slotTableWrite_held hb hv hc hn hh, fun hb => ?_⟩
    · refine ⟨_, exec_slotTableWrite_now hb h, ?_, fun j hj => ?_, State.mem_putEntry .., State.cores_putEntry .., ?_⟩
      · rw [State.slotTable_putEntry, Tab.getD_put_self]
      · rw [State.slotTable_putEntry, Tab.getD_put_ne _ _ _ hj]; rfl
      · rintro i x l b0 f hx hp hl hbd ⟨m, hm, hj⟩
        exact (s.undeferred _).mustGo_putEntry c.val e.val v i x l b0 f m hx hp hl hbd hm hj
    · exact ⟨_, exec_slotTableWrite_refused hb, rfl, rfl, rfl, rfl⟩

end Sys2Proof.Machine
end

section
/-! SUPPORT. The performance of a tenant reset (24 R387, R388): what each of its steps leaves, and what the whole brings. -/

namespace Sys2Proof.Machine

/-! ## What a reset of a partition's work leaves -/

/-- The partition of each retention register, and whether the forward step of boot is past. -/
def State.fixed (s : State) : (Nat → Nat) × Bool := (s.books.retained, s.books.stepped)

theorem State.fixed_of_books {s t : State} (h : t.books = s.books) : t.fixed = s.fixed := congrArg (fun b : Books => (b.retained, b.stepped)) h
theorem State.retained_of_fixed {s t : State} (h : t.fixed = s.fixed) (k : Nat) : (t.retain.getD k .reset).part = (s.retain.getD k .reset).part :=
  congrArg (fun f : (Nat → Nat) × Bool => f.1 k) h
theorem State.stepped_of_fixed {s t : State} (h : t.fixed = s.fixed) : t.mgmt.stepped = s.mgmt.stepped := congrArg (fun f : (Nat → Nat) × Bool => f.2) h
theorem State.fixed_endTeardown (s : State) (p q : Nat) : (s.endTeardown p q).fixed = s.fixed :=
  State.endTeardown_proj State.fixed (fun _ _ _ _ _ => rfl) s p q
theorem State.fixed_markClosed (s : State) (p lid status : Nat) : (s.markClosed p lid status).fixed = s.fixed := by
  have h := State.fixed_of_books (s.books_takeFor p lid)
  exact h
theorem State.fixed_close (s : State) (p lid status : Nat) : (s.close p lid status).fixed = s.fixed := by
  rw [← s.fixed_markClosed p lid status]
  cases h : (s.markClosed p lid status).launch? p lid with
  | none => rw [s.close_none _ _ _ h]
  | some l =>
    obtain ⟨u, hu, hw⟩ := (s.markClosed p lid status).windUp_books p lid l
    rw [s.close_some _ _ _ l h, State.fixed_of_books hw, State.fixed_endTeardown, State.fixed_of_books hu]
theorem State.fixed_abortLaunches (s : State) (p q : Nat) : (s.abortLaunches p q).fixed = s.fixed := by
  rw [State.abortLaunches_eq]
  exact State.foldl_proj State.fixed (fun s lid => (State.fixed_close ..).trans (State.fixed_of_books (s.books_discardTasks _))) _ s
theorem State.fixed_abort (s : State) (p q : Nat) : (s.abort p q).fixed = s.fixed := by
  unfold State.abort
  simp only
  split
  · rw [State.fixed_endTeardown, State.fixed_abortLaunches]; rfl
  · rfl
theorem State.fixed_updPart (s : State) (p : Nat) (f : Partition → Partition) : (s.updPart p f).fixed = s.fixed := rfl
theorem State.fixed_resetWork (s : State) (p : Nat) : (s.resetWork p).fixed = s.fixed := by
  rw [State.resetWork, State.fixed_updPart]
  exact State.foldl_proj State.fixed (fun s q => s.fixed_abort p q) _ s

/-! ## The steps of a reset -/

/-- Step 4 but for the retention registers: the registers of the partition, and what the cycle has still to bring to it. -/
def State.registersCleared (s : State) (p : Nat) : State :=
  let s := s.updPart p fun x =>
    { x with flow := [], lastwin := false, ctr := .reset, faultLog := [], faultCount := 0, scb := .reset, xl := [], fairw := 1, vt := [], vtActive := [] }
  { s with retainSteps := s.retainSteps.filter fun x => !((s.retain.getD x.k .reset).part == p), frames := s.frames.filter fun f => f.part != p,
           posted := s.posted.filter fun w => !w.land.any fun (l : Landed) => l.part == p }
theorem State.apart_resetRegisters (s : State) (p : Nat) : (s.resetRegisters p).apart = (s.registersCleared p).apart := by
  unfold State.resetRegisters
  refine State.foldl_proj State.apart ?_ _ _
  exact fun _ _ => rfl
theorem State.apart_zeroRing (s : State) (p : Nat) : (s.zeroRing p).apart = s.apart :=
  State.foldl_proj State.apart (fun s _ => s.apart_cpWrite p _ _) _ s
/-- Steps 4 and 5: the registers, the launch-record ring. -/
def State.cleared (s : State) (p : Nat) : State := (s.resetRegisters p).zeroRing p
theorem State.apart_cleared (s : State) (p : Nat) : (s.cleared p).apart = (s.registersCleared p).apart :=
  (State.apart_zeroRing ..).trans (State.apart_resetRegisters ..)
theorem State.cleared_proj {β : Type} (g : State → β) (s : State) (p : Nat) (h : ∀ s : State, g s.apart = g s := by exact fun _ => rfl) :
    g (s.cleared p) = g (s.registersCleared p) := by
  rw [← h, s.apart_cleared p, h]
/-- What a table reads is one of its values, or the default. -/
theorem Tab.getD_cases {α : Type} (t : Tab α) (k : Nat) (d : α) : t.getD k d = d ∨ ∃ e ∈ t, t.getD k d = e.2 := by
  induction t with
  | nil => exact .inl rfl
  | cons e r ih =>
    by_cases hk : e.1 = k
    · exact .inr ⟨e, List.mem_cons_self, by simp [Tab.getD, Tab.get?, hk]⟩
    · have hr : Tab.getD (e :: r) k d = Tab.getD r k d := by simp [Tab.getD, Tab.get?, hk]
      rw [hr]
      exact ih.imp_right fun ⟨x, hx, h⟩ => ⟨x, List.mem_cons_of_mem _ hx, h⟩
/-- No core last ran a task of a partition that the cores have forgotten. -/
theorem State.lastPart_forgetCores (s : State) (p c : Nat) : ((s.forgetCores p).core c).lastPart ≠ some p := by
  unfold State.core
  obtain h | ⟨e, he, h⟩ := Tab.getD_cases (s.forgetCores p).cores c .reset <;> rw [h]
  · exact nofun
  · obtain ⟨e, _, rfl⟩ := List.mem_map.1 he
    by_cases hl : e.2.lastPart = some p
    · rw [if_pos hl]; exact nofun
    · rw [if_neg hl]; exact hl

/-- Step 6 of a reset, and the end of it: the launches go, and the partition has the descriptor that the management core has written. -/
def State.readmitted (s : State) (p : Nat) (r : List Nat) (d : Descriptor) : State :=
  let s := s.forgetCores p
  let s := { s with launches := s.launches.filter fun l => l.part != p, mgmt := { s.mgmt with resets := r } }
  (s.valid d.valid).updPart p fun x => { x with desc := d, nextLid := 1, recent := [], effects := [], resetting := false }
theorem State.part_registersCleared (s : State) (p : Nat) : (s.registersCleared p).part p = { s.part p with
    flow := [], lastwin := false, ctr := .reset, faultLog := [], faultCount := 0, scb := .reset, xl := [], fairw := 1, vt := [], vtActive := [] } :=
  s.part_updPart p fun x =>
    { x with flow := [], lastwin := false, ctr := .reset, faultLog := [], faultCount := 0, scb := .reset, xl := [], fairw := 1, vt := [], vtActive := [] }
theorem State.part_readmitted (s : State) (p : Nat) (r : List Nat) (d : Descriptor) : (s.readmitted p r d).part p =
    { s.part p with desc := d, nextLid := 1, recent := [], effects := [], resetting := false } := by
  rw [State.readmitted, State.part_updPart]; rfl

/-- Steps 4 to 6 of a reset. -/
def State.tenantGone (s : State) (p : Nat) (r : List Nat) (d : Descriptor) : State := (s.cleared p).readmitted p r d
section
variable (s : State) (p : Nat) (r : List Nat) (d : Descriptor)

/-- The partition's registers after its reset, but for those that its descriptor and its launches had. -/
theorem State.part_tenantGone : let x := (s.tenantGone p r d).part p
    x.desc = d ∧ x.nextLid = 1 ∧ x.resetting = false ∧ x.faultLog = [] ∧ x.flow = [] ∧ x.scb = .reset ∧ x.fairw = 1 := by
  simp only [State.tenantGone, State.part_readmitted, s.cleared_proj (State.part · p) p, s.part_registersCleared p, and_self]
theorem State.launches_readmitted : ∀ l ∈ (s.readmitted p r d).launches, l.part ≠ p := fun l hl => by
  simpa using (List.mem_filter.1 hl).2
theorem State.frames_tenantGone : ∀ f ∈ (s.tenantGone p r d).frames, f.part ≠ p := fun f hf => by
  have hz (z : State) : (z.readmitted p r d).frames = z.frames := rfl
  rw [State.tenantGone, hz, s.cleared_proj State.frames p] at hf
  simpa using (List.mem_filter.1 hf).2
theorem State.posted_tenantGone : ∀ w ∈ (s.tenantGone p r d).posted, ∀ l, w.land = some l → l.part ≠ p := fun w hw l hl => by
  have hz (z : State) : (z.readmitted p r d).posted = z.posted := rfl
  rw [State.tenantGone, hz, s.cleared_proj State.posted p] at hw
  simpa [hl] using (List.mem_filter.1 hw).2
theorem State.retainSteps_tenantGone : ∀ x ∈ (s.tenantGone p r d).retainSteps, (s.retain.getD x.k .reset).part ≠ p := fun x hx => by
  have hz (z : State) : (z.readmitted p r d).retainSteps = z.retainSteps := rfl
  rw [State.tenantGone, hz, s.cleared_proj State.retainSteps p] at hx
  simpa using (List.mem_filter.1 hx).2
theorem State.stepped_tenantGone : (s.tenantGone p r d).mgmt.stepped = (s.mgmt.stepped || d.valid) := by
  have hz (z : State) : (z.readmitted p r d).mgmt.stepped = (z.mgmt.stepped || d.valid) := rfl
  rw [State.tenantGone, hz, s.cleared_proj State.mgmt p]
  rfl
theorem State.lastPart_readmitted : ∀ c, ((s.readmitted p r d).core c).lastPart ≠ some p := s.lastPart_forgetCores p
end

theorem exec_tenantResetPerform (v : BitVec 512) (s : State) (p : Nat) (r : List Nat) (h : s.mgmt.resets = p :: r) :
    exec (.tenantResetPerform v) s =
      .next (if (descOf v p).valid && !(descOf v p).ok then s else (s.resetWork p).tenantGone p r (descOf v p)) := by
  show execTenantResetPerform v s = _
  unfold execTenantResetPerform State.tenantGone State.readmitted State.cleared
  simp only [h]
  split <;> rfl

/-! ## Register writes -/

/-- A signed register value is the two's complement value of its bits. -/
theorem toS_toNat (v : W64) : toS 64 v.toNat = v.toInt := by
  have := v.isLt
  rw [BitVec.toInt_eq_toNat_cond]
  unfold toS
  rw [Nat.mod_eq_of_lt this]
  split <;> split <;> omega
theorem extract_eq_setWidth48 (v : W64) : v.extractLsb' 0 48 = v.setWidth 48 := by
  ext i hi
  simp
theorem exec_fairw (p : PartN) (v : W64) (s : State) :
    exec (.registerWrite (.fairw p) v) s = .next (s.updPart p.val fun x => { x with fairw := bits v.toNat 0 16 }) := rfl
theorem exec_mxbud (c : ClusterN) (v : W64) (s : State) : exec (.registerWrite (.mxbud c) v) s =
    .next (s.updCluster c.val fun k => { k with winlog := bits v.toNat 40 4, budget := bits v.toNat 0 32 }) := rfl
theorem bits_zero (n w : Nat) : bits n 0 w = n % 2 ^ w := by simp [bits]
theorem exec_ptpStep (v : W64) (s : State) : exec (.registerWrite .ptpStep v) s = .next (if s.mgmt.stepped || s.parts.any fun e => e.2.desc.valid then s
    else { s with ptp := s.ptp + v.toNat * ptpUnit, mgmt := { s.mgmt with stepped := true } }) := rfl
theorem exec_ptpServo (v : W64) (s : State) : exec (.registerWrite .ptpServo v) s =
    .next (if -200 ≤ v.toInt ∧ v.toInt ≤ 200 then { s with mgmt := { s.mgmt with ppm := v.toInt } } else s) := by
  rw [← toS_toNat]; rfl
theorem exec_memoryWrite (pa : Nat) (ms : Bool) (v : W64) (s : State) : exec (.registerWrite (.memory pa ms) v) s =
    .next (if pa % 8 != 0 || hbmEnd ≤ pa then s
      else { s with nextId := s.nextId + 1, posted := s.posted ++ [⟨s.nextId, none, cellsAt pa (toBytes 8 v.toNat), ms, none⟩] }) := rfl
theorem exec_trstGo (v : W64) (s : State) : exec (.trstGo v) s =
    let p := v.toNat / 2 ^ 16 % 16
    let s : State := { s with mgmt := { s.mgmt with trstPart := p } }
    .next (if v.getLsbD 0 then s.requestReset p else s) := rfl
theorem State.hostWrite_open (s : State) (p : Nat) (f : Partition → Partition) (h : (s.part p).resetting = false) : s.hostWrite p f = s.updPart p f := by
  simp [State.hostWrite, h]

/-! ## The statement -/

/-- Settles O59: each register write by its cases; a reset by its steps, the work of the partition going by aborts that keep the books. -/
theorem registersAndTenantReset : Obligations.RegistersAndTenantReset := by
  unfold Obligations.RegistersAndTenantReset
  refine ⟨?qbase, fun p v s => ?fairw, fun c v s => ?mxbud, ?servo, ?step, ?retain, ?memory, ?station, ?vec, ?rpctl, ?trst, ?perform⟩
  case qbase => exact fun p q v s hq hr => State.onQueue_exists hq hr _
  case fairw => rw [exec_fairw, bits_zero]
  case mxbud => rw [exec_mxbud, bits_zero]; rfl
  case servo =>
    intro v s
    rw [exec_ptpServo]
    exact ⟨fun h => by rw [if_pos h], fun h => by rw [if_neg (by omega)]⟩
  case step =>
    intro v s
    rw [exec_ptpStep]
    refine ⟨fun h => ?_, fun h hp => ?_⟩
    · rw [if_pos (by simpa using h)]
    · rw [if_neg (by simpa [h] using hp)]
  case retain =>
    intro k v s
    exact ⟨_, rfl, rfl, Tab.getD_put_self ..⟩
  case memory =>
    intro pa ms v s
    rw [exec_memoryWrite]
    refine ⟨fun h => by rw [if_pos (by simpa using h)], fun h hp => ⟨_, rfl, ?_⟩⟩
    rw [if_neg (by simpa [h] using hp)]
    exact ⟨rfl, _, rfl⟩
  case station =>
    intro p i v s
    rw [← extract_eq_setWidth48]; rfl
  case vec =>
    intro p v s h
    refine ⟨_, congrArg Host.Outcome.next (s.hostWrite_open p.val (fun x => { x with scb := x.scb.write 4 v }) h), ?_, rfl⟩
    rw [State.part_updPart]; rfl
  case rpctl =>
    intro p v s h
    refine ⟨fun hv he => ?_, fun hv => ?_⟩
    · exact congrArg Host.Outcome.next (if_pos (by rw [hv, he]; rfl))
    · refine congrArg Host.Outcome.next ((if_neg ?_).trans (s.hostWrite_open p.val _ h))
      obtain hv | hv := hv <;> rw [hv]
      · exact Bool.false_ne_true
      · rw [Bool.not_true, Bool.and_false]; exact Bool.false_ne_true
  case trst =>
    intro v s
    rw [exec_trstGo]
    refine ⟨fun hv => by rw [hv]; rfl, fun hv hr => ?_, fun hv hr => ?_⟩
    · simp only [hv, if_true]
      exact congrArg Host.Outcome.next (if_pos hr)
    · refine ⟨_, rfl, ?_⟩
      rw [if_pos hv, State.requestReset, if_neg (by rw [Bool.not_eq_true]; exact hr)]
      exact ⟨rfl, rfl, by rw [State.part_updPart]⟩
  case perform =>
    intro v s
    refine ⟨fun h => ?_, fun p r h => ⟨fun hv hok => ?_, fun hd => ?_⟩⟩
    · show execTenantResetPerform v s = _
      simp only [execTenantResetPerform, h]
    · rw [exec_tenantResetPerform v s p r h, if_pos (by simp [hv, hok])]
    · rw [exec_tenantResetPerform v s p r h, if_neg (by obtain hd | hd := hd <;> simp [hd])]
      have hk := State.retained_of_fixed (s.fixed_resetWork p)
      have hs := State.stepped_of_fixed (s.fixed_resetWork p)
      generalize s.resetWork p = u at hk hs ⊢
      obtain ⟨h1, h2, h3, h4, h5, h6, h7⟩ := u.part_tenantGone p r (descOf v p)
      refine ⟨_, rfl, rfl, (u.cleared p).launches_readmitted p r _, h1, h2, h3, h4, h5, h6, h7, (u.cleared p).lastPart_readmitted p r _,
        u.frames_tenantGone p r _, u.posted_tenantGone p r _, fun x hx => ?_, ?_⟩
      · rw [← hk]; exact u.retainSteps_tenantGone p r _ x hx
      · rw [← hs]; exact u.stepped_tenantGone p r _

end Sys2Proof.Machine
end

section
/-! SUPPORT. What the package holds right after reset. -/

namespace Sys2Proof.Machine

@[simp] theorem State.part_reset (p : Nat) : State.reset.part p = .reset p := rfl
@[simp] theorem State.cluster_reset (c : Nat) : State.reset.cluster c = .reset := rfl
@[simp] theorem State.port_reset (q : Nat) : State.reset.port q = .reset := rfl
@[simp] theorem State.thr_reset (t : ThreadId) : State.reset.thr t = .reset := rfl
@[simp] theorem State.version_reset (l : Nat) (m : Bool) : State.reset.version l m = 0 := by cases m <;> rfl
@[simp] theorem Partition.queue_reset (p q : Nat) : (Partition.reset p).queue q = .reset := rfl

/-- Settles O3: a table that nothing has written reads its reset entry everywhere. -/
theorem resetState : Obligations.ResetState := by
  unfold Obligations.ResetState
  refine ⟨State.thr_reset, rfl, rfl, fun p q => ?queue, fun p => ?part, fun c => ?cluster, rfl, fun _ => rfl, fun q => ?port, rfl, rfl, fun _ => rfl,
    State.version_reset, State.reset_wf⟩
  case queue => rw [State.part_reset, Partition.queue_reset]; exact ⟨rfl, rfl, rfl⟩
  case part => rw [State.part_reset]; exact ⟨rfl, rfl, rfl, rfl, rfl, rfl, rfl⟩
  case cluster => rw [State.cluster_reset]; exact ⟨rfl, rfl⟩
  case port => rw [State.port_reset]; rfl

end Sys2Proof.Machine
end

section
/-! SUPPORT. Tables, lists and byte memories under maps and folds: what a fold leaves, and what one of its steps has written. -/

namespace Sys2Proof.Machine

/-! ## Tables -/

/-- A change of every entry of a table, seen where the table is read at one number. -/
theorem Tab.getD_map_at {α : Type} (f : Nat × α → Nat × α) (g : α → α) (k : Nat) (d : α) (hk : ∀ e, (f e).1 = e.1) (hg : ∀ a, (f (k, a)).2 = g a)
    (hd : g d = d) (t : Tab α) : Tab.getD (List.map f t) k d = g (t.getD k d) := by
  induction t with
  | nil => exact hd.symm
  | cons e r ih =>
    obtain ⟨j, a⟩ := e
    simp only [Tab.getD, List.map_cons, Tab.get?, hk] at ih ⊢
    by_cases hj : j = k
    · subst hj; simp [hg]
    · simpa [hj] using ih
/-- A table of consecutive numbers from 0. -/
theorem Tab.getD_range {α : Type} (f : Nat → α) (d : α) {n k : Nat} (h : k < n) : Tab.getD ((List.range n).map fun j => (j, f j)) k d = f k := by
  have hget (l : List Nat) (hl : k ∈ l) : Tab.get? (l.map fun j => (j, f j)) k = some (f k) := by
    induction l with
    | nil => simp at hl
    | cons j r ih =>
      by_cases hj : j = k
      · simp [Tab.get?, hj]
      · simp [Tab.get?, hj, ih ((List.mem_cons.1 hl).resolve_left (Ne.symm hj))]
  rw [Tab.getD, hget _ (List.mem_range.2 h)]
  rfl
theorem assocGet_assocSet_ne {κ ν : Type} [DecidableEq κ] (l : List (κ × ν)) {k j : κ} (v : ν) (h : j ≠ k) : assocGet (assocSet l k v) j = assocGet l j := by
  have hm (l : List (κ × ν)) : assocGet (l.map fun e => if e.1 = k then (k, v) else e) j = assocGet l j := by
    induction l with
    | nil => rfl
    | cons e r ih =>
      rw [List.map_cons]
      by_cases hk : e.1 = k
      · simp [assocGet, hk, Ne.symm h, ih]
      · simp [assocGet, hk, ih]
  have ha (l : List (κ × ν)) : assocGet (l ++ [(k, v)]) j = assocGet l j := by
    induction l with
    | nil => simp [assocGet, Ne.symm h]
    | cons e r ih => simp [assocGet, ih]
  unfold assocSet
  split
  · exact hm l
  · exact ha l

/-! ## Lists -/

theorem nodup_eraseDups {α : Type} [BEq α] [LawfulBEq α] (l : List α) : l.eraseDups.Nodup := by
  induction h : l.length using Nat.strong_induction_on generalizing l with
  | _ n ih =>
    cases l with
    | nil => exact List.nodup_nil
    | cons a r =>
      rw [List.eraseDups_cons, List.nodup_cons]
      refine ⟨by simp, ih _ ?_ _ rfl⟩
      subst h
      exact Nat.lt_succ_of_le (List.length_filter_le _ _)
/-- A list of one value, without repeats. -/
theorem eraseDups_of_all {α : Type} [BEq α] [LawfulBEq α] {l : List α} {a : α} (hl : l ≠ []) (h : ∀ b ∈ l, b = a) : l.eraseDups = [a] := by
  cases l with
  | nil => exact absurd rfl hl
  | cons b r =>
    obtain rfl := h b List.mem_cons_self
    rw [List.eraseDups_cons, List.filter_eq_nil_iff.2 fun x hx => by simp [h x (List.mem_cons_of_mem _ hx)]]
    rfl
theorem mem_addNew (l : List Nat) (k : Nat) : k ∈ addNew l k := by
  unfold addNew
  split
  · rename_i h; simpa using h
  · simp

/-! ## Folds over the state -/

/-- What every step of a fold leaves for the elements of its list, the fold leaves. -/
theorem State.foldl_proj_mem {α β : Type} (g : State → β) {f : State → α → State} (l : List α) (h : ∀ s, ∀ a ∈ l, g (f s a) = g s) (s : State) :
    g (l.foldl f s) = g s := by
  induction l generalizing s with
  | nil => rfl
  | cons a r ih => exact (ih (fun s b hb => h s b (List.mem_cons_of_mem _ hb)) (f s a)).trans (h s a List.mem_cons_self)
/-- A fold whose steps each write one core, no core twice: the core of one of them is as its own step has written it, on a state that finds the
core as it was at first. -/
theorem State.core_foldl {α β : Type} (key : α → Nat) (g : State → β) {f : State → α → State} (hg : ∀ s a, g (f s a) = g s)
    (hne : ∀ s a c, c ≠ key a → (f s a).core c = s.core c) (l : List α) (hl : l.Pairwise fun a b => key a ≠ key b) (s : State) (a : α) (ha : a ∈ l) :
    ∃ u : State, g u = g s ∧ u.core (key a) = s.core (key a) ∧ (l.foldl f s).core (key a) = (f u a).core (key a) := by
  induction l generalizing s with
  | nil => simp at ha
  | cons b r ih =>
    obtain ⟨hb, hr⟩ := List.pairwise_cons.1 hl
    obtain rfl | ha := List.mem_cons.1 ha
    · exact ⟨s, rfl, rfl, State.foldl_proj_mem (fun s => s.core (key a)) r (fun s x hx => hne s x _ (hb x hx)) (f s a)⟩
    · obtain ⟨u, h1, h2, h3⟩ := ih hr (f s b) ha
      exact ⟨u, h1.trans (hg s b), h2.trans (hne s b _ (hb a ha).symm), h3⟩
/-- What every step of a fold makes of the core that it writes, where no step touches another core. -/
theorem State.core_foldl_eq {β : Type} (g : Core → β) (v : β) {f : State → Nat → State} (hw : ∀ s c, g ((f s c).core c) = v)
    (hne : ∀ s c d, d ≠ c → (f s c).core d = s.core d) (cs : List Nat) (s : State) (c : Nat) (h : c ∈ cs) : g ((cs.foldl f s).core c) = v := by
  induction cs generalizing s with
  | nil => simp at h
  | cons b r ih =>
    by_cases hr : c ∈ r
    · exact ih _ hr
    · obtain rfl := (List.mem_cons.1 h).resolve_right hr
      refine (State.foldl_proj_mem (fun s => g (s.core c)) r (fun s b hb => ?_) _).trans (hw s c)
      have hcb : c ≠ b := fun e => hr (e ▸ hb)
      simp only [hne s b c hcb]
theorem State.core_updCore_proj {β : Type} (g : Core → β) (s : State) (c d : Nat) (f : Core → Core) (h : ∀ k, g (f k) = g k) :
    g ((s.updCore c f).core d) = g (s.core d) := by
  by_cases hd : d = c
  · subst hd; rw [State.core_updCore, h]
  · rw [State.core_updCore_ne _ _ hd]

/-! ## Bytes of a memory after several writes -/

/-- Cells written one after another. -/
def memCells (m : List Host.Cell) (cs : List Host.Cell) : List Host.Cell := cs.foldl (fun m c => memSet m c.1 c.2) m

theorem memByte_memCells_out (cs : List Host.Cell) (m : List Host.Cell) (a : Nat) (h : ∀ c ∈ cs, c.1 ≠ a) : memByte (memCells m cs) a = memByte m a := by
  induction cs generalizing m with
  | nil => rfl
  | cons c r ih =>
    refine (ih (memSet m c.1 c.2) fun x hx => h x (List.mem_cons_of_mem _ hx)).trans ?_
    exact memByte_memSet_ne m c.2 (h c List.mem_cons_self).symm
/-- Of cells at different addresses each is read back. -/
theorem memByte_memCells_in (cs : List Host.Cell) (m : List Host.Cell) (hd : cs.Pairwise fun x y => x.1 ≠ y.1) (c : Host.Cell) (hc : c ∈ cs) :
    memByte (memCells m cs) c.1 = c.2 := by
  induction cs generalizing m with
  | nil => simp at hc
  | cons b r ih =>
    obtain ⟨hb, hr⟩ := List.pairwise_cons.1 hd
    obtain rfl | hc := List.mem_cons.1 hc
    · refine (memByte_memCells_out r _ _ fun x hx => (hb x hx).symm).trans ?_
      exact memByte_memSet_self m c.1 c.2
    · exact ih (memSet m b.1 b.2) hr hc

end Sys2Proof.Machine
end

section
/-! SUPPORT. Shingles and the laying of phases (15 R292 to R296): the bytes of a shingle, the order of the layers, the bytes a line ends with, the first
conflict, the digest. -/

namespace Sys2Proof.Machine

/-! ## Bytes of a shingle -/

/-- The line of a shingle that a load of a byte finds. -/
def shFind (ls : List ShLine) (va : Nat) : Option ShLine := ls.find? fun l => l.line == va / 128 && l.mask.getLsbD (va % 128)
/-- The byte that a shingle's lines hold at an address. -/
def shAt (ls : List ShLine) (va : Nat) : Option Byte := (shFind ls va).map fun l => l.data.extractLsb' (8 * (va % 128)) 8

theorem getLsbD_oneBit (o i : Nat) (hi : i < 128) : ((1#128 <<< o : BitVec 128)).getLsbD i = decide (i = o) := by
  rw [BitVec.getLsbD_shiftLeft]
  by_cases h : i < o
  · simp [h]; omega
  · simp only [hi, decide_true, Bool.true_and, h, decide_false, Bool.not_false, BitVec.getLsbD_one]
    by_cases he : i = o
    · simp [he]
    · have : i - o ≠ 0 := by omega
      simp [he, this]
theorem extract_byteAt (b : Byte) (o i : Nat) (hi : i < 128) :
    (BitVec.ofNat 1024 (b.toNat * 2 ^ (8 * o))).extractLsb' (8 * i) 8 = if i = o then b else 0 := by
  ext j hj
  rw [BitVec.getElem_extractLsb', BitVec.getLsbD_ofNat, Nat.testBit_mul_two_pow]
  have hk : 8 * i + j < 1024 := by omega
  by_cases he : i = o
  · subst he
    simp [hk, BitVec.getElem_eq_testBit_toNat]
  · by_cases hlt : i < o
    · have : ¬ 8 * o ≤ 8 * i + j := by omega
      simp [he, this]
    · have hb : b.toNat.testBit (8 * i + j - 8 * o) = false :=
        Nat.testBit_lt_two_pow (Nat.lt_of_lt_of_le b.isLt (Nat.pow_le_pow_right (by decide) (by omega)))
      simp [he, hb]
theorem shAt_one (va : Nat) (b : Byte) (bad : Bool) (x : Nat) (r : List ShLine) :
    shAt (ShLine.one va b bad :: r) x = if x = va then some b else shAt r x := by
  have hm := getLsbD_oneBit (va % 128) (x % 128) (Nat.mod_lt _ (by decide))
  have hb := extract_byteAt b (va % 128) (x % 128) (Nat.mod_lt _ (by decide))
  unfold shAt shFind
  rw [List.find?_cons]
  by_cases h : x = va
  · subst h; simp [ShLine.one, hm, hb]
  · have : ¬ (va / 128 = x / 128 ∧ x % 128 = va % 128) := by omega
    have hf : ((ShLine.one va b bad).line == x / 128 && (ShLine.one va b bad).mask.getLsbD (x % 128)) = false := by
      simpa [ShLine.one, hm] using this
    simp [hf, h]
theorem extract_ormask (d e : VWord) (o i : Nat) (hi : i < 128) :
    ((d &&& ~~~(BitVec.ofNat 1024 (255 * 2 ^ (8 * o)))) ||| e).extractLsb' (8 * i) 8 =
      (if i = o then 0 else d.extractLsb' (8 * i) 8) ||| e.extractLsb' (8 * i) 8 := by
  have hm := extract_byteAt 255 o i hi
  have hd : ((d &&& ~~~(BitVec.ofNat 1024 (255 * 2 ^ (8 * o)))) ||| e).extractLsb' (8 * i) 8 =
      (d.extractLsb' (8 * i) 8 &&& ~~~((BitVec.ofNat 1024 (255 * 2 ^ (8 * o))).extractLsb' (8 * i) 8)) ||| e.extractLsb' (8 * i) 8 := by
    ext j hj
    have : 8 * i + j < 1024 := by omega
    simp [this]
  rw [hd]
  have h255 : ((255 : Byte)).toNat = 255 := rfl
  rw [h255] at hm
  rw [hm]
  split
  · have : ~~~(255 : Byte) = 0 := by decide
    rw [this]; simp
  · have : ~~~(0 : Byte) = BitVec.allOnes 8 := by decide
    rw [this, BitVec.and_allOnes]
/-- A byte put into a line: its own place holds it, every other place what it held. -/
theorem shAt_put (l : ShLine) (va : Nat) (b : Byte) (bad : Bool) (x : Nat) (r : List ShLine) (h : va / 128 = l.line) :
    shAt (l.put va b bad :: r) x = if x = va then some b else shAt (l :: r) x := by
  have hm := getLsbD_oneBit (va % 128) (x % 128) (Nat.mod_lt _ (by decide))
  have hb := extract_byteAt b (va % 128) (x % 128) (Nat.mod_lt _ (by decide))
  have hd := extract_ormask l.data (ShLine.one va b bad).data (va % 128) (x % 128) (Nat.mod_lt _ (by decide))
  have hl : (l.put va b bad).line = l.line := rfl
  have hmask : (l.put va b bad).mask.getLsbD (x % 128) = (l.mask.getLsbD (x % 128) || decide (x % 128 = va % 128)) := by
    rw [← hm]; exact BitVec.getLsbD_or
  have hdata : (l.put va b bad).data.extractLsb' (8 * (x % 128)) 8 = if x % 128 = va % 128 then b else l.data.extractLsb' (8 * (x % 128)) 8 := by
    refine hd.trans ?_
    rw [show (ShLine.one va b bad).data = BitVec.ofNat 1024 (b.toNat * 2 ^ (8 * (va % 128))) from rfl, hb]
    split <;> simp
  unfold shAt shFind
  rw [List.find?_cons, List.find?_cons, hl, hmask]
  by_cases hx : x = va
  · subst hx; simp [h, hdata]
  · by_cases hline : l.line = x / 128
    · have hne : x % 128 ≠ va % 128 := by omega
      simp only [hline, hne, decide_false, Bool.or_false, hx, if_false]
      split <;> simp [hdata, hne]
    · have hf : (l.line == x / 128) = false := by simpa using hline
      simp [hf, hx]
/-- A shingle's lines after one byte is put. -/
theorem shAt_shPut (ls : List ShLine) (va : Nat) (b : Byte) (bad : Bool) (x : Nat) : shAt (shPut ls va b bad) x = if x = va then some b else shAt ls x := by
  induction ls with
  | nil => exact shAt_one va b bad x []
  | cons l r ih =>
    unfold shPut
    split
    · exact shAt_one va b bad x (l :: r)
    · split
      · rename_i h; exact shAt_put l va b bad x r h
      · rename_i h
        have hs (r : List ShLine) : shAt (l :: r) x = if (l.line == x / 128 && l.mask.getLsbD (x % 128)) = true
            then some (l.data.extractLsb' (8 * (x % 128)) 8) else shAt r x := by
          unfold shAt shFind
          rw [List.find?_cons]
          split <;> rename_i e <;> simp [e]
        rw [hs, ih, hs]
        by_cases hx : x = va
        · subst hx
          have : ¬ l.line = x / 128 := fun e => h e.symm
          simp [this]
        · simp [hx]
/-- A shingle's lines after several bytes: the last one put at an address stands. -/
theorem shAt_puts (cs : List WCell) (ls : List ShLine) (x : Nat) :
    shAt (cs.foldl (fun ls c => shPut ls c.va c.b c.bad) ls) x = ((cs.reverse.find? fun w => w.va == x).map fun w => w.b).or (shAt ls x) := by
  induction cs generalizing ls with
  | nil => simp
  | cons c r ih =>
    rw [List.foldl_cons, ih, shAt_shPut, List.reverse_cons, List.find?_append, List.find?_singleton]
    cases r.reverse.find? fun w => w.va == x with
    | some w => simp
    | none =>
      by_cases h : x = c.va
      · simp [h]
      · simp [h, Ne.symm h]

/-! ## Layers -/

theorem mem_layers (l : Launch) (ph i : Nat) (x : List ShLine) : (i, x) ∈ l.layers ph ↔ ((i, ph), x) ∈ l.shingles := by
  rw [Launch.layers, List.mem_insertionSort]
  simp only [List.mem_map, List.mem_filter, decide_eq_true_eq, Prod.mk.injEq]
  constructor
  · rintro ⟨⟨⟨a, b⟩, y⟩, ⟨h, rfl⟩, rfl, rfl⟩; exact h
  · intro h; exact ⟨((i, ph), x), ⟨h, rfl⟩, rfl, rfl⟩
theorem pairwise_layers (l : Launch) (ph : Nat) : (l.layers ph).Pairwise fun a b => a.1 ≤ b.1 := by
  have : Std.Total fun a b : Nat × List ShLine => a.1 ≤ b.1 := ⟨fun a b => Nat.le_total a.1 b.1⟩
  have : IsTrans (Nat × List ShLine) fun a b => a.1 ≤ b.1 := ⟨fun a b c => Nat.le_trans⟩
  exact List.pairwise_insertionSort _ _

/-! ## The bytes a line ends with -/

/-- No layer has a byte. -/
def bareAt (as : List (Nat × List ShLine)) (n i : Nat) : Prop := ∀ a ∈ as, ∀ y ∈ a.2, y.line = n → y.mask.getLsbD i = false
/-- The line of the last layer that has a byte. -/
def lastLine (ls : List (Nat × List ShLine)) (n i : Nat) : Option ShLine :=
  ls.reverse.findSome? fun a => a.2.find? fun l => l.line = n && l.mask.getLsbD i

theorem lastLine_eq_none (ls : List (Nat × List ShLine)) (n i : Nat) : lastLine ls n i = none ↔ bareAt ls n i := by
  unfold lastLine bareAt
  rw [List.findSome?_eq_none_iff]
  simp only [List.mem_reverse, List.find?_eq_none, Bool.and_eq_true, decide_eq_true_eq, not_and, Bool.not_eq_true]
theorem lastLine_eq_some {pre post : List (Nat × List ShLine)} {a : Nat × List ShLine} {n i : Nat} {x : ShLine}
    (hx : (a.2.find? fun y => y.line == n && y.mask.getLsbD i) = some x) (hp : bareAt post n i) : lastLine (pre ++ a :: post) n i = some x := by
  have hpost : lastLine post n i = none := (lastLine_eq_none post n i).2 hp
  have hx' : (a.2.find? fun l => decide (l.line = n) && l.mask.getLsbD i) = some x := by rw [← hx]; rfl
  unfold lastLine at hpost ⊢
  rw [List.reverse_append, List.reverse_cons, List.append_assoc, List.findSome?_append, hpost, List.singleton_append, List.findSome?_cons, hx']
  rfl
/-- The cell that a byte of a line is laid as, with its poison. -/
def laidCell (ls : List (Nat × List ShLine)) (n i : Nat) : Option (Nat × Byte × Bool) :=
  (lastLine ls n i).map fun l => (128 * n + i, l.data.extractLsb' (8 * i) 8, l.bad.getLsbD i)
theorem laidBytes_eq (ls : List (Nat × List ShLine)) (n : Nat) : laidBytes ls n = (List.range 128).filterMap (laidCell ls n) := by
  unfold laidBytes laidCell lastLine
  refine List.filterMap_congr fun i _ => ?_
  rw [List.map_findSome?]
  rfl
/-- A line's bytes as they are written from a base address. -/
def laidAt (ls : List (Nat × List ShLine)) (n base : Nat) : List Host.Cell :=
  (List.range 128).filterMap fun i => (lastLine ls n i).map fun l => (base + i, l.data.extractLsb' (8 * i) 8)
theorem mem_laidAt {ls : List (Nat × List ShLine)} {n base : Nat} {c : Host.Cell} :
    c ∈ laidAt ls n base ↔ ∃ i l, i < 128 ∧ lastLine ls n i = some l ∧ c = (base + i, l.data.extractLsb' (8 * i) 8) := by
  simp only [laidAt, List.mem_filterMap, List.mem_range, Option.map_eq_some_iff]
  exact ⟨fun ⟨i, h, l, hl, e⟩ => ⟨i, l, h, hl, e.symm⟩, fun ⟨i, l, h, hl, e⟩ => ⟨i, h, l, hl, e.symm⟩⟩
theorem pairwise_laidAt (ls : List (Nat × List ShLine)) (n base : Nat) : (laidAt ls n base).Pairwise fun x y => x.1 ≠ y.1 := by
  unfold laidAt
  rw [List.pairwise_filterMap]
  refine List.Pairwise.imp ?_ List.nodup_range
  intro i j hij b hb c hc
  obtain ⟨l, _, rfl⟩ := Option.map_eq_some_iff.1 hb
  obtain ⟨k, _, rfl⟩ := Option.map_eq_some_iff.1 hc
  simpa using hij

/-! ## The digest -/

theorem bits_eq_extract {w : Nat} (v : BitVec w) (lo n : Nat) : bits v.toNat lo n = (v.extractLsb' lo n).toNat := by
  rw [BitVec.extractLsb'_toNat, Nat.shiftRight_eq_div_pow]; rfl
theorem ofBytes_lt (bs : List Byte) : ofBytes bs < 2 ^ (8 * bs.length) := by
  induction bs with
  | nil => simp [ofBytes]
  | cons b r ih =>
    have hb := b.isLt
    have hp : 2 ^ (8 * (r.length + 1)) = 256 * 2 ^ (8 * r.length) := by rw [Nat.mul_succ, Nat.pow_add, Nat.mul_comm]
    rw [ofBytes, List.length_cons, hp]
    omega
theorem ofBytes_div_mod (bs : List Byte) (i : Nat) (h : i < bs.length) : ofBytes bs / 2 ^ (8 * i) % 256 = bs[i].toNat := by
  induction bs generalizing i with
  | nil => simp at h
  | cons b r ih =>
    have hb := b.isLt
    cases i with
    | zero => simp only [ofBytes, List.getElem_cons_zero, Nat.mul_zero, Nat.pow_zero, Nat.div_one]; omega
    | succ i =>
      have hp : 2 ^ (8 * (i + 1)) = 256 * 2 ^ (8 * i) := by rw [Nat.mul_succ, Nat.pow_add, Nat.mul_comm]
      have hd : (b.toNat + 256 * ofBytes r) / 256 = ofBytes r := by omega
      rw [ofBytes, hp, ← Nat.div_div_eq_div_mul, hd, ih i (Nat.lt_of_succ_lt_succ h), List.getElem_cons_succ]
/-- Byte `i` of a word of 8 bytes. -/
theorem extract_w64_ofBytes (bs : List Byte) (hl : bs.length = 8) (i : Nat) (h : i < bs.length) :
    (w64 (ofBytes bs)).extractLsb' (8 * i) 8 = bs[i] := by
  apply BitVec.eq_of_toNat_eq
  have hlt := ofBytes_lt bs
  rw [hl] at hlt
  rw [BitVec.extractLsb'_toNat, Nat.shiftRight_eq_div_pow, w64, BitVec.toNat_ofNat, Nat.mod_eq_of_lt hlt, ← ofBytes_div_mod bs i h]

/-- The 8 bytes of word `j` of a line, those outside its mask as 0. -/
def digestWord (x : ShLine) (j : Nat) : W64 :=
  digestLine.packBytes ((List.range 8).map fun i => if bit (bits x.mask.toNat (8 * j) 8) i then x.data.extractLsb' (8 * (8 * j + i)) 8 else 0)
theorem byte_digestWord (x : ShLine) (j i : Nat) (hi : i < 8) : (digestWord x j).extractLsb' (8 * i) 8 =
    if x.mask.getLsbD (8 * j + i) then x.data.extractLsb' (8 * (8 * j + i)) 8 else (0 : Byte) := by
  have hm : bit (bits x.mask.toNat (8 * j) 8) i = x.mask.getLsbD (8 * j + i) := by
    rw [bits_eq_extract, bit_toNat, BitVec.getLsbD_extractLsb']
    simp [hi]
  unfold digestWord digestLine.packBytes
  rw [extract_w64_ofBytes _ (by simp) i (by simpa using hi)]
  simp [hm]
theorem digestLine_eq (h : W64) (x : ShLine) : digestLine h x = (List.range 16).foldl (fun h j =>
    let m : Byte := x.mask.extractLsb' (8 * j) 8
    if m = 0 then h else mix (mix h (BitVec.ofNat 64 (256 * j + m.toNat))) (digestWord x j)) (mix h (BitVec.ofNat 64 (128 * x.line))) := by
  have hz (m : Byte) : m.toNat = 0 ↔ m = 0 := ⟨fun e => BitVec.eq_of_toNat_eq e, fun e => by rw [e]; rfl⟩
  unfold digestLine
  simp only [bits_eq_extract, hz]
  simp only [← bits_eq_extract]
  rfl

/-! ## The first conflict -/

/-- A layer holds a byte. -/
def holdsAt (a : Nat × List ShLine) (ad : Nat) : Prop := ∃ x ∈ a.2, x.line = ad / 128 ∧ x.mask.getLsbD (ad % 128) = true
/-- Two layers, the one before the other, hold a byte. -/
def meetAt (ls : List (Nat × List ShLine)) (i j ad : Nat) : Prop :=
  i < j ∧ (∃ a ∈ ls, a.1 = i ∧ holdsAt a ad) ∧ ∃ b ∈ ls, b.1 = j ∧ holdsAt b ad
/-- The masks that the layers after `i` share with a line. -/
def laterMasks (ls : List (Nat × List ShLine)) (i : Nat) (l : ShLine) : List (Nat × BitVec 128) :=
  ls.filterMap fun b => if b.1 ≤ i then none else (b.2.find? fun x => x.line = l.line).map fun x => (b.1, x.mask &&& l.mask)
/-- The first byte of a line that a later layer holds too. -/
def lineConflict (ls : List (Nat × List ShLine)) (i : Nat) (l : ShLine) : Option (Nat × Nat × Nat) :=
  (List.range 128).findSome? fun k => ((laterMasks ls i l).find? fun o => o.2.getLsbD k).map fun o => (128 * l.line + k, i, o.1)
theorem conflictOf_eq (ls : List (Nat × List ShLine)) : conflictOf ls = ls.findSome? fun a => a.2.findSome? fun l => lineConflict ls a.1 l := rfl

section
variable {ls : List (Nat × List ShLine)} (hl : ls.Pairwise fun a b => a.1 < b.1) (hs : ∀ a ∈ ls, a.2.Pairwise fun x y => x.line < y.line)

/-- A byte of a line that layer `j` holds too, after layer `i`. -/
def sharedAt (ls : List (Nat × List ShLine)) (i : Nat) (l : ShLine) (j ad : Nat) : Prop :=
  i < j ∧ ad / 128 = l.line ∧ l.mask.getLsbD (ad % 128) = true ∧ ∃ b ∈ ls, b.1 = j ∧ holdsAt b ad
theorem meetAt_iff (i j ad : Nat) : meetAt ls i j ad ↔ ∃ a ∈ ls, a.1 = i ∧ ∃ l ∈ a.2, sharedAt ls i l j ad := by
  constructor
  · rintro ⟨hij, ⟨a, ha, hi, l, hla, hline, hm⟩, hb⟩; exact ⟨a, ha, hi, l, hla, hij, hline.symm, hm, hb⟩
  · rintro ⟨a, ha, hi, l, hla, hij, hline, hm, hb⟩; exact ⟨hij, ⟨a, ha, hi, l, hla, hline.symm, hm⟩, hb⟩

include hs in
/-- Layers hold a line once: the masks that later layers share with a line, bit by bit. -/
theorem mem_laterMasks (i : Nat) (l : ShLine) (j k : Nat) (hk : k < 128) :
    (∃ o ∈ laterMasks ls i l, o.1 = j ∧ o.2.getLsbD k = true) ↔ sharedAt ls i l j (128 * l.line + k) := by
  have hd : (128 * l.line + k) / 128 = l.line := by omega
  have hm : (128 * l.line + k) % 128 = k := by omega
  unfold laterMasks sharedAt holdsAt
  rw [hd, hm]
  simp only [List.mem_filterMap, Option.ite_none_left_eq_some, Option.map_eq_some_iff]
  constructor
  · rintro ⟨o, ⟨b, hb, hij, x, hx, rfl⟩, rfl, hbit⟩
    rw [BitVec.getLsbD_and, Bool.and_eq_true] at hbit
    exact ⟨by simpa using hij, trivial, hbit.2, b, hb, rfl, x, List.mem_of_find?_eq_some hx, by simpa using List.find?_some hx, hbit.1⟩
  · rintro ⟨hij, -, hbit, b, hb, rfl, x, hx, hline, hx1⟩
    have hfind : (b.2.find? fun x => x.line = l.line) = some x := by
      obtain ⟨y, hy⟩ := Option.isSome_iff_exists.1 (List.find?_isSome.2 ⟨x, hx, by simpa using hline⟩ : (b.2.find? fun x => x.line = l.line).isSome = true)
      have hyl : y.line = l.line := by simpa using List.find?_some hy
      have hinj := List.inj_on_of_nodup_map (List.pairwise_map.2 ((hs b hb).imp Nat.ne_of_lt))
      rw [hy, hinj hx (List.mem_of_find?_eq_some hy) (hline.trans hyl.symm)]
    exact ⟨(b.1, x.mask &&& l.mask), ⟨b, hb, by simpa using hij, x, hfind, rfl⟩, rfl, by rw [BitVec.getLsbD_and, hx1, hbit]; rfl⟩
include hs in
theorem lineConflict_eq_none (i : Nat) (l : ShLine) : lineConflict ls i l = none ↔ ∀ j ad, ¬ sharedAt ls i l j ad := by
  unfold lineConflict
  simp only [List.findSome?_eq_none_iff, List.mem_range, Option.map_eq_none_iff, List.find?_eq_none]
  constructor
  · intro h j ad hsh
    have had : 128 * l.line + ad % 128 = ad := by rw [← hsh.2.1]; omega
    have hk : ad % 128 < 128 := Nat.mod_lt _ (by decide)
    obtain ⟨o, ho, -, hbit⟩ := (mem_laterMasks hs i l j _ hk).2 (by rwa [had])
    exact h _ hk o ho hbit
  · intro h k hk o ho hbit
    exact h o.1 _ ((mem_laterMasks hs i l o.1 k hk).1 ⟨o, ho, rfl, hbit⟩)
include hl in
theorem pairwise_laterMasks (i : Nat) (l : ShLine) : (laterMasks ls i l).Pairwise fun a b => a.1 < b.1 := by
  unfold laterMasks
  rw [List.pairwise_filterMap]
  refine hl.imp fun {a b} hab x hx y hy => ?_
  obtain ⟨_, _, _, rfl⟩ := by simpa [Option.ite_none_left_eq_some, Option.map_eq_some_iff] using hx
  obtain ⟨_, _, _, rfl⟩ := by simpa [Option.ite_none_left_eq_some, Option.map_eq_some_iff] using hy
  exact hab
include hl hs in
/-- The conflict of a line: its first byte that a later layer holds, and the first such layer. -/
theorem lineConflict_eq_some {i : Nat} {l : ShLine} {ad t1 t2 : Nat} (h : lineConflict ls i l = some (ad, t1, t2)) :
    t1 = i ∧ sharedAt ls i l t2 ad ∧ ∀ j b, sharedAt ls i l j b → ad < b ∨ (ad = b ∧ t2 ≤ j) := by
  obtain ⟨pre, k, post, hr, hk, hpre⟩ := List.findSome?_eq_some_iff.1 h
  obtain ⟨o, ho, he⟩ := Option.map_eq_some_iff.1 hk
  obtain ⟨rfl, rfl, rfl⟩ : 128 * l.line + k = ad ∧ i = t1 ∧ o.1 = t2 := by simpa using he
  have hk128 : k < 128 := List.mem_range.1 (hr ▸ by simp)
  have hord : ∀ m, m < 128 → m ∈ pre ∨ m = k ∨ k < m := fun m hm => by
    have hp := hr ▸ List.pairwise_lt_range (n := 128)
    have hmem : m ∈ pre ++ k :: post := hr ▸ List.mem_range.2 hm
    obtain hm | hm := List.mem_append.1 hmem
    · exact .inl hm
    · obtain rfl | hm := List.mem_cons.1 hm
      · exact .inr (.inl rfl)
      · exact .inr (.inr ((List.pairwise_cons.1 (List.pairwise_append.1 hp).2.1).1 m hm))
  refine ⟨rfl, (mem_laterMasks hs i l o.1 k hk128).1 ⟨o, List.mem_of_find?_eq_some ho, rfl, by simpa using List.find?_some ho⟩, fun j b hb => ?_⟩
  have hbl : 128 * l.line + b % 128 = b := by rw [← hb.2.1]; omega
  have hb128 : b % 128 < 128 := Nat.mod_lt _ (by decide)
  obtain ⟨o', ho', rfl, hbit⟩ := (mem_laterMasks hs i l j _ hb128).2 (by rwa [hbl])
  obtain hm | hm | hm := hord _ hb128
  · exact absurd hbit (by simpa using List.find?_eq_none.1 (Option.map_eq_none_iff.1 (hpre _ hm)) o' ho')
  · refine .inr ⟨by omega, ?_⟩
    obtain ⟨-, as, bs, hsplit, has⟩ := List.find?_eq_some_iff_append.1 ho
    obtain hin | hin := List.mem_append.1 (hsplit ▸ ho')
    · exact absurd (has o' hin) (by simp [← hm, hbit])
    · obtain rfl | hin := List.mem_cons.1 hin
      · exact Nat.le_refl _
      · have hp := hsplit ▸ pairwise_laterMasks hl i l
        exact Nat.le_of_lt ((List.pairwise_cons.1 (List.pairwise_append.1 hp).2.1).1 o' hin)
  · exact .inl (by omega)
include hs in
/-- No byte stands in the masks of two layers. -/
theorem conflictOf_eq_none : conflictOf ls = none ↔ ∀ i j ad, ¬ meetAt ls i j ad := by
  simp only [conflictOf_eq, List.findSome?_eq_none_iff, lineConflict_eq_none hs, meetAt_iff]
  constructor
  · rintro h i j ad ⟨a, ha, rfl, l, hla, hsh⟩; exact h a ha l hla j ad hsh
  · intro h a ha l hla j ad hsh; exact h a.1 j ad ⟨a, ha, rfl, l, hla, hsh⟩
include hl hs in
/-- The first byte in laying order that stands in the masks of two layers. -/
theorem conflictOf_eq_some {ad t1 t2 : Nat} (h : conflictOf ls = some (ad, t1, t2)) :
    meetAt ls t1 t2 ad ∧ ∀ i j b, meetAt ls i j b → t1 < i ∨ (t1 = i ∧ (ad < b ∨ (ad = b ∧ t2 ≤ j))) := by
  rw [conflictOf_eq] at h
  obtain ⟨apre, a, apost, hla, ha, hapre⟩ := List.findSome?_eq_some_iff.1 h
  obtain ⟨lpre, l, lpost, hll, hc, hlpre⟩ := List.findSome?_eq_some_iff.1 ha
  obtain ⟨rfl, hsh, hmin⟩ := lineConflict_eq_some hl hs hc
  have hmem : a ∈ ls := hla ▸ by simp
  refine ⟨(meetAt_iff ..).2 ⟨a, hmem, rfl, l, hll ▸ by simp, hsh⟩, fun i j b hm => ?_⟩
  obtain ⟨a', ha', rfl, l', hl', hsh'⟩ := (meetAt_iff ..).1 hm
  obtain hin | hin := List.mem_append.1 (hla ▸ ha')
  · exact absurd hsh' ((lineConflict_eq_none hs _ _).1 (List.findSome?_eq_none_iff.1 (hapre a' hin) l' hl') j b)
  obtain rfl | hin := List.mem_cons.1 hin
  · refine .inr ⟨rfl, ?_⟩
    obtain hin | hin := List.mem_append.1 (hll ▸ hl')
    · exact absurd hsh' ((lineConflict_eq_none hs _ _).1 (hlpre l' hin) j b)
    obtain rfl | hin := List.mem_cons.1 hin
    · exact hmin j b hsh'
    · have hp := hll ▸ hs a' hmem
      have hlt := (List.pairwise_cons.1 (List.pairwise_append.1 hp).2.1).1 l' hin
      rw [← hsh.2.1, ← hsh'.2.1] at hlt
      exact .inl (by omega)
  · have hp := hla ▸ hl
    exact .inl ((List.pairwise_cons.1 (List.pairwise_append.1 hp).2.1).1 a' hin)
end

end Sys2Proof.Machine
end

section
/-! SUPPORT. What an entry performed at its point of coherence and a posted write leave and write, and the moves of store buffers and block buffers
(15 R277, R281, R284). -/

namespace Sys2Proof.Machine

/-! ## Points of coherence -/

/-- Accesses served by L2 change L2 and the retention registers alone. -/
theorem State.l2Touches_frame {α : Type} (f : α → Nat) (ev : Bool) (as : List α) (s : State) :
    ∃ l r, as.foldl (fun s a => s.l2Touch (f a) ev) s = { s with l2 := l, retain := r } := by
  induction as generalizing s with
  | nil => exact ⟨_, _, rfl⟩
  | cons a as ih =>
    obtain ⟨l, r, h⟩ := ih (s.l2Touch (f a) ev)
    refine ⟨l, r, h.trans ?_⟩
    rw [State.l2Touch_frame]
theorem filter_crashMB {cs : List Host.Cell} (h : ∀ c ∈ cs, c.1 < 0x9FFFF00000) : (cs.filter fun c => !crashMB c.1) = cs := by
  refine List.filter_eq_self.2 fun c hc => ?_
  have := h c hc
  have hn : ¬ 0x9FFFF00000 ≤ c.1 := by omega
  simp [crashMB, hn]
theorem State.mem_pocWrite (s : State) {cs : List Host.Cell} (cl : Option Nat) (ms : Bool) (h : ∀ c ∈ cs, c.1 < 0x9FFFF00000) :
    (s.pocWrite cs cl ms).mem = memCells s.mem cs := by
  rw [State.pocWrite_mem, filter_crashMB h]; rfl
theorem State.version_dropL1 (s : State) (cl : Nat) (ls : List Nat) (k : Nat) (m : Bool) : (s.dropL1 cl ls).version k m = s.version k m := by
  cases m <;> rfl
/-- A write of one line steps the line's version once, and no other version. -/
theorem State.version_pocWrite (s : State) {cs : List Host.Cell} (cl : Option Nat) (ms : Bool) {l : Nat} (h : ∀ c ∈ cs, c.1 < 0x9FFFF00000)
    (hl : linesOf cs = [l]) : (s.pocWrite cs cl ms).version l ms = s.version l ms + 1 ∧
      ∀ k m, ¬ (k = l ∧ m = ms) → (s.pocWrite cs cl ms).version k m = s.version k m := by
  have hv (k : Nat) (m : Bool) : (s.pocWrite cs cl ms).version k m =
      if m then (if ms then bumpVersions s.mvers [l] else s.mvers).getD k 0 else (if ms then s.vers else bumpVersions s.vers [l]).getD k 0 := by
    rw [← hl, ← filter_crashMB h]
    cases cl with
    | none => unfold State.pocWrite; rw [filter_crashMB h, filter_crashMB h]; rfl
    | some c => unfold State.pocWrite; rw [filter_crashMB h, filter_crashMB h]; exact State.version_dropL1 ..
  refine ⟨?_, fun k m hk => ?_⟩
  · rw [hv]; cases ms <;> simp [bumpVersions, State.version]
  · rw [hv]
    obtain rfl | hm := eq_or_ne m ms
    · have hkl : k ≠ l := fun e => hk ⟨e, rfl⟩
      cases m <;> exact Tab.getD_put_ne _ _ _ hkl
    · obtain rfl := Bool.eq_not_iff.2 hm
      cases ms <;> rfl
/-- What a core keeps apart from its L1 copies, it keeps as copies are dropped. -/
theorem State.core_dropL1 {β : Type} (g : Core → β) (hg : ∀ k l, g { k with l1 := l } = g k) (s : State) (cl : Nat) (ls : List Nat) (c : Nat) :
    g ((s.dropL1 cl ls).core c) = g (s.core c) := by
  refine Tab.getD_map_proj g _ (fun e => ?_) s.cores c .reset
  split
  · exact ⟨rfl, hg ..⟩
  · exact ⟨rfl, rfl⟩
theorem State.core_pocWrite {β : Type} (g : Core → β) (hg : ∀ k l, g { k with l1 := l } = g k) (s : State) (cs : List Host.Cell) (cl : Option Nat) (ms : Bool)
    (c : Nat) : g ((s.pocWrite cs cl ms).core c) = g (s.core c) := by
  cases cl with
  | none => rfl
  | some d => exact State.core_dropL1 g hg _ d _ c
@[simp] theorem State.pocWrite_clusters (s : State) (cs : List Host.Cell) (cl : Option Nat) (ms : Bool) : (s.pocWrite cs cl ms).clusters = s.clusters := by
  cases cl <;> rfl
@[simp] theorem State.pocWrite_posted (s : State) (cs : List Host.Cell) (cl : Option Nat) (ms : Bool) : (s.pocWrite cs cl ms).posted = s.posted := by
  cases cl <;> rfl

/-! ## Cells of an access -/

theorem cellsAt_cons (pa : Nat) (b : Byte) (bs : List Byte) : cellsAt pa (b :: bs) = (pa, b) :: cellsAt (pa + 1) bs := by
  unfold cellsAt
  rw [List.length_cons, List.range_succ_eq_map, List.map_cons, List.map_map, List.zip_cons_cons]
  congr 2
  exact List.map_congr_left fun i _ => by simp only [Function.comp]; omega
theorem memCells_cellsAt (bs : List Byte) (m : List Host.Cell) (pa : Nat) : memCells m (cellsAt pa bs) = memWrite m pa bs := by
  induction bs generalizing m pa with
  | nil => rfl
  | cons b r ih => rw [cellsAt_cons]; exact ih (memSet m pa b) (pa + 1)
theorem mem_cellsAt {pa : Nat} {bs : List Byte} {c : Host.Cell} (h : c ∈ cellsAt pa bs) : pa ≤ c.1 ∧ c.1 < pa + bs.length := by
  have := (List.of_mem_zip (show (c.1, c.2) ∈ _ from h)).1
  obtain ⟨i, hi, he⟩ := List.mem_map.1 this
  rw [List.mem_range] at hi
  omega
theorem memBytes_memWrite (bs : List Byte) (m : List Host.Cell) (a : Nat) : memBytes (memWrite m a bs) a bs.length = bs := by
  induction bs generalizing m a with
  | nil => rfl
  | cons b r ih =>
    rw [List.length_cons, memBytes, memWrite, ih, memByte_memWrite_out _ _ _ _ (.inl (Nat.lt_succ_self a)), memByte_memSet_self]
@[simp] theorem toBytes_length (k n : Nat) : (toBytes k n).length = k := by
  induction k generalizing n with
  | zero => rfl
  | succ k ih => simp [toBytes, ih]
theorem ofBytes_toBytes (k n : Nat) : ofBytes (toBytes k n) = n % 2 ^ (8 * k) := by
  induction k generalizing n with
  | zero => simp [toBytes, ofBytes, Nat.mod_one]
  | succ k ih =>
    have hp : 2 ^ (8 * (k + 1)) = 256 * 2 ^ (8 * k) := by rw [Nat.mul_succ, Nat.pow_add, Nat.mul_comm]
    rw [toBytes, ofBytes, ih, hp, Nat.mod_mul]
    rfl

/-! ## Entries performed -/

/-- A projection that L2, device memory with its versions and poison, L1 copies, launches and partitions are no part of. -/
theorem State.perform_proj {β : Type} (g : State → β) (hl : ∀ s pa e, g (State.l2Touch s pa e) = g s) (hw : ∀ s cs cl ms, g (State.pocWrite s cs cl ms) = g s)
    (hp : ∀ (s : State) l, g { s with poison := l } = g s) (hd : ∀ s cl ls, g (State.dropL1 s cl ls) = g s)
    (hu : ∀ s p lid f, g (State.updLaunch s p lid f) = g s) (hq : ∀ s p f, g (State.updPart s p f) = g s) (s : State) (e : Entry) (cl : Nat) :
    g (s.perform e cl) = g s := by
  unfold State.perform
  split
  · unfold State.reducePerform
    split
    · simp only
      split
      · rfl
      · exact (hq ..).trans ((hp ..).trans (hw ..))
    · rfl
  · split
    · exact (hd ..).trans (hu ..)
    · have ht : g (if e.mside then s else (linesOf (hostCells e)).foldl (fun s l => s.l2Touch (128 * l) e.evict) s) = g s := by
        split
        · rfl
        · exact State.foldl_proj g (fun s l => hl ..) _ s
      simp only
      split
      · exact ht
      · exact (hp ..).trans ((hw ..).trans ht)
@[simp] theorem State.clusters_perform (s : State) (e : Entry) (cl : Nat) : (s.perform e cl).clusters = s.clusters :=
  State.perform_proj State.clusters (fun s pa e => by rw [State.l2Touch_frame]) State.pocWrite_clusters (fun _ _ => rfl) (fun _ _ _ => rfl)
    (fun _ _ _ _ => rfl) (fun _ _ _ => rfl) s e cl
theorem State.core_perform {β : Type} (g : Core → β) (hg : ∀ k l, g { k with l1 := l } = g k) (s : State) (e : Entry) (cl c : Nat) :
    g ((s.perform e cl).core c) = g (s.core c) :=
  State.perform_proj (fun s => g (s.core c)) (fun s pa e => by rw [State.l2Touch_frame]; rfl) (fun s cs cl ms => State.core_pocWrite g hg s cs cl ms c)
    (fun _ _ => rfl) (fun s cl ls => State.core_dropL1 g hg s cl ls c) (fun _ _ _ _ => rfl) (fun _ _ _ => rfl) s e cl

theorem foldl_cells (e : Entry) (m : List Host.Cell) : e.cells.foldl (fun m x => memSet m x.pa x.b) m = memCells m (hostCells e) := by
  rw [memCells, hostCells, List.foldl_map]

section
variable {e : Entry} (hr : e.red = none) (hs : e.shingle = none)
include hr hs

/-- An entry of plain stores: the accesses of its lines, then its bytes. -/
theorem State.perform_stores (s : State) (cl : Nat) : ∃ l r, let u : State := { s with l2 := l, retain := r }
    s.perform e cl = if e.cells.isEmpty then u
      else { u.pocWrite (hostCells e) (some cl) e.mside with
        poison := (badWords e).foldl addNew (u.pocWrite (hostCells e) (some cl) e.mside).poison } := by
  have ht : ∃ l r, (if e.mside then s else (linesOf (hostCells e)).foldl (fun s l => s.l2Touch (128 * l) e.evict) s) = { s with l2 := l, retain := r } := by
    split
    · exact ⟨_, _, rfl⟩
    · exact State.l2Touches_frame _ _ _ s
  obtain ⟨l, r, h⟩ := ht
  refine ⟨l, r, ?_⟩
  unfold State.perform
  simp only [hr, hs, h]
theorem State.perform_empty (s : State) (cl : Nat) (hc : e.cells = []) : (s.perform e cl).mem = s.mem ∧ ∀ k m, (s.perform e cl).version k m = s.version k m := by
  obtain ⟨l, r, h⟩ := State.perform_stores hr hs s cl
  rw [hc] at h
  rw [h]
  exact ⟨rfl, fun k m => by cases m <;> rfl⟩
/-- An entry of plain stores of one line: its bytes, and one version step of the line. -/
theorem State.perform_line (s : State) (cl l : Nat) (hl : linesOf (hostCells e) = [l]) (hb : ∀ x ∈ e.cells, x.pa < 0x9FFFF00000) :
    (s.perform e cl).mem = e.cells.foldl (fun m x => memSet m x.pa x.b) s.mem ∧ (s.perform e cl).version l e.mside = s.version l e.mside + 1 ∧
      ∀ k m, ¬ (k = l ∧ m = e.mside) → (s.perform e cl).version k m = s.version k m := by
  have hb' : ∀ c ∈ hostCells e, c.1 < 0x9FFFF00000 := fun c hc => by
    obtain ⟨x, hx, rfl⟩ := List.mem_map.1 hc
    exact hb x hx
  have hne : e.cells.isEmpty = false := by
    cases h : e.cells with
    | nil => simp [linesOf, hostCells, h] at hl
    | cons => rfl
  obtain ⟨l2, r, h⟩ := State.perform_stores hr hs s cl
  obtain ⟨hv, hv'⟩ := State.version_pocWrite { s with l2 := l2, retain := r } (some cl) e.mside hb' hl
  have hver (u : State) (po : List Nat) (k : Nat) (m : Bool) : ({ u with poison := po } : State).version k m = u.version k m := by cases m <;> rfl
  have hver' (k : Nat) (m : Bool) : ({ s with l2 := l2, retain := r } : State).version k m = s.version k m := by cases m <;> rfl
  rw [h, hne]
  refine ⟨?_, ?_, fun k m hk => ?_⟩
  · rw [foldl_cells]; exact State.mem_pocWrite _ _ _ hb'
  · exact (hver ..).trans (hv.trans (by rw [hver']))
  · exact (hver ..).trans ((hv' k m hk).trans (hver' ..))
end

/-- An entry of plain stores in reproducible mode goes to the shingle of its task and phase. -/
theorem State.perform_shingle {e : Entry} {sh : TaskId × W32} (hr : e.red = none) (hs : e.shingle = some sh) (s : State) (cl : Nat) :
    s.perform e cl = (s.shWrite sh e.cells).dropL1 cl (linesOf (hostCells e)) := by
  unfold State.perform
  simp only [hr, hs]
theorem State.names_of_launch? {s : State} {p lid : Nat} {l : Launch} (h : s.launch? p lid = some l) : l.part = p ∧ l.lid = lid := by
  have hl := List.find?_some h
  exact of_decide_eq_true hl
theorem State.launch?_updLaunch_ne (s : State) {p lid p' lid' : Nat} (f : Launch → Launch) (hf : ∀ x, (f x).part = x.part ∧ (f x).lid = x.lid)
    (h : ¬ (p' = p ∧ lid' = lid)) : (s.updLaunch p lid f).launch? p' lid' = s.launch? p' lid' := by
  unfold State.launch? State.updLaunch
  induction s.launches with
  | nil => rfl
  | cons x r ih =>
    simp only [List.map_cons, List.find?_cons] at ih ⊢
    by_cases hx : x.part = p ∧ x.lid = lid
    · obtain ⟨rfl, rfl⟩ := hx
      have hn : ¬ (x.part = p' ∧ x.lid = lid') := fun e => h ⟨e.1.symm, e.2.symm⟩
      simp only [and_self, if_true, hf x, hn, decide_false]
      exact ih
    · simp only [hx, if_false, ih]
theorem State.shLines_shWrite (s : State) (sh : TaskId × W32) (cs : List WCell) {q : Launch} (hq : s.launch? sh.1.part sh.1.lid = some q) :
    (s.shWrite sh cs).shLines sh = cs.foldl (fun ls c => shPut ls c.va c.b c.bad) (s.shLines sh) := by
  unfold State.shLines State.shWrite
  rw [State.launch?_updLaunch _ _ _ _ (by exact fun _ => ⟨rfl, rfl⟩), hq]
  simp only [Option.map_some, assocGet_assocSet_self, Option.getD_some]
/-- A write into a shingle leaves the lines of every other one. -/
theorem State.shLines_shWrite_ne (s : State) {sh k : TaskId × W32} (cs : List WCell) (h : k ≠ sh) : (s.shWrite sh cs).shLines k = s.shLines k := by
  unfold State.shLines State.shWrite
  by_cases hl : k.1.part = sh.1.part ∧ k.1.lid = sh.1.lid
  · have hk : (k.1.idx, k.2.toNat) ≠ (sh.1.idx, sh.2.toNat) := by
      rintro e
      obtain ⟨h1, h2⟩ := Prod.mk.inj e
      obtain ⟨⟨kp, kl, ki⟩, kn⟩ := k
      obtain ⟨⟨sp, sl, si⟩, sn⟩ := sh
      obtain ⟨rfl, rfl⟩ := hl
      obtain rfl : ki = si := h1
      obtain rfl := BitVec.eq_of_toNat_eq h2
      exact h rfl
    rw [hl.1, hl.2, State.launch?_updLaunch _ _ _ _ (by exact fun _ => ⟨rfl, rfl⟩)]
    cases s.launch? sh.1.part sh.1.lid with
    | none => rfl
    | some q => simp only [Option.map_some, assocGet_assocSet_ne _ _ hk]
  · rw [State.launch?_updLaunch_ne _ _ (by exact fun _ => ⟨rfl, rfl⟩) hl]
/-- A byte behind the buffers, by the lines of its shingle. -/
theorem State.shByte_some (s : State) (k : TaskId × W32) (va pa : Nat) : s.shByte (some k) va pa = (shAt (s.shLines k) va).getD (memByte s.mem pa) := by
  unfold State.shByte shAt shFind
  simp only
  cases (s.shLines k).find? fun l => l.line == va / 128 && l.mask.getLsbD (va % 128) <;> rfl
/-- A byte of the shingle that is written: the last one put at its address, or what it was. -/
theorem State.shByte_shWrite (s : State) (sh : TaskId × W32) (cs : List WCell) {q : Launch} (hq : s.launch? sh.1.part sh.1.lid = some q) (va pa : Nat) :
    (s.shWrite sh cs).shByte (some sh) va pa = ((cs.reverse.find? fun w => w.va == va).map fun w => w.b).getD (s.shByte (some sh) va pa) := by
  rw [State.shByte_some, State.shLines_shWrite _ _ _ hq, shAt_puts, State.shByte_some]
  cases cs.reverse.find? fun w => w.va == va <;> rfl
theorem State.shByte_shWrite_ne (s : State) {sh k : TaskId × W32} (cs : List WCell) (h : k ≠ sh) (va pa : Nat) :
    (s.shWrite sh cs).shByte (some k) va pa = s.shByte (some k) va pa := by
  rw [State.shByte_some, State.shLines_shWrite_ne _ _ h, State.shByte_some]; rfl

/-- A reduction whose tag has been performed does nothing. -/
theorem State.reducePerform_again (s : State) {e : Entry} {x : WCell} {p lid g : Nat} {n : W32} {r : W64} (op : AOp) (ty : IntTy) (v : W64) (cl : Nat)
    (hx : e.cells.head? = some x) (ht : e.tag = some ((p, lid, g), n)) (ha : assocGet (s.part p).effects (lid, g, Target.line (lineOf x.pa)) = some (n, r)) :
    s.reducePerform e op ty v cl = s := by
  obtain ⟨cs, hc⟩ := List.head?_eq_some_iff.1 hx
  unfold State.reducePerform
  simp [hc, ht, ha]
/-- A reduction that adds 64-bit integers: the word with the sum, and its tag. -/
theorem State.reducePerform_add (s : State) {e : Entry} {x : WCell} {p lid g : Nat} {n : W32} (v : W64) (cl : Nat)
    (hx : e.cells.head? = some x) (hb : x.pa + 8 ≤ 0x9FFFF00000) (ht : e.tag = some ((p, lid, g), n))
    (ha : assocGet (s.part p).effects (lid, g, Target.line (lineOf x.pa)) = none) : let t := s.reducePerform e .add .i64 v cl
    ofBytes (memBytes t.mem x.pa 8) = (ofBytes (memBytes s.mem x.pa 8) + v.toNat) % 2 ^ 64 ∧
      (assocGet (t.part p).effects (lid, g, Target.line (lineOf x.pa))).map (·.1) = some n := by
  obtain ⟨cs, hc⟩ := List.head?_eq_some_iff.1 hx
  have hv : v.toNat % 2 ^ 64 = v.toNat := Nat.mod_eq_of_lt v.isLt
  have hlow (b : List Byte) (hb8 : b.length = 8) : ∀ c ∈ cellsAt x.pa b, c.1 < 0x9FFFF00000 := fun c h => by
    have := mem_cellsAt h
    omega
  have he : s.reducePerform e .add .i64 v cl =
      let sum := (ofBytes (memBytes s.mem x.pa 8) + v.toNat % 2 ^ 64) % 2 ^ 64
      let bad := s.poison.filter fun w => decide (x.pa / 8 ≤ w) && decide (8 * w < x.pa + 8)
      let u := s.pocWrite (cellsAt x.pa (toBytes 8 sum)) (some cl) true
      { u with poison := bad.foldl addNew u.poison }.updPart p fun q => { q with effects := assocSet q.effects (lid, g, Target.line (lineOf x.pa)) (n, 0) } := by
    unfold State.reducePerform
    simp only [hc, ht, ha]
    rfl
  rw [he]
  simp only
  refine ⟨?_, ?_⟩
  · rw [State.updPart_mem]
    show ofBytes (memBytes (State.pocWrite ..).mem x.pa 8) = _
    rw [State.mem_pocWrite _ _ _ (hlow _ (toBytes_length ..)), memCells_cellsAt]
    have hm := memBytes_memWrite (toBytes 8 ((ofBytes (memBytes s.mem x.pa 8) + v.toNat % 2 ^ 64) % 2 ^ 64)) s.mem x.pa
    rw [toBytes_length] at hm
    rw [hm, ofBytes_toBytes, hv, Nat.mod_mod]
  · rw [State.part_updPart]
    simp only [assocGet_assocSet_self, Option.map_some]

end Sys2Proof.Machine
end

section
/-! SUPPORT. Posted writes, and what the laying of a line and of a phase writes and leaves (15 R277, R292 to R294). -/

namespace Sys2Proof.Machine

/-! ## Posted writes -/

/-- A projection that the tiles and scratchpads of a core, L2, device memory with its versions and poison, and flow rules are no part of. -/
theorem State.postedWrite_proj {β : Type} (g : State → β) (hw : ∀ s c off bs, g (State.spWrite s c off bs) = g s) (hb : ∀ (s : State) l, g { s with sramPoison := l } = g s)
    (ht : ∀ s c n x, g (State.setTile s c n x) = g s) (hq : ∀ s p f, g (State.updPart s p f) = g s) (hl : ∀ s pa e, g (State.l2Touch s pa e) = g s)
    (hp : ∀ s cs ms, g (State.pocWrite s cs none ms) = g s) (s : State) (w : Posted) : g (s.postedWrite w) = g s := by
  unfold State.postedWrite
  split
  · unfold State.frameArrive
    split
    · rfl
    · refine (hq ..).trans ?_
      unfold State.tileArrive
      simp only
      split
      · rfl
      · exact (ht ..).trans ((hb ..).trans (hw ..))
  · exact State.foldl_proj g (fun s x => hw ..) _ s
  · refine (hp ..).trans ?_
    split
    · rfl
    · exact State.foldl_proj g (fun s l => hl ..) _ s
@[simp] theorem State.posted_postedWrite (s : State) (w : Posted) : (s.postedWrite w).posted = s.posted :=
  State.postedWrite_proj State.posted (fun _ _ _ _ => rfl) (fun _ _ => rfl) (fun _ _ _ _ => rfl) (fun _ _ _ => rfl)
    (fun s pa e => by rw [State.l2Touch_frame]) (fun s cs ms => State.pocWrite_posted s cs none ms) s w
/-- A posted write of a scratchpad writes its bytes there and nothing else. -/
theorem State.postedWrite_sp (s : State) (w : Posted) (k : Nat) (hd : w.dest = some k) (hl : w.land = none) :
    s.postedWrite w = w.cells.foldl (fun s x => s.spWrite k x.1 [x.2]) s := by
  unfold State.postedWrite
  simp only [hd, hl]
theorem State.sram_spWrites (k : Nat) (cs : List Host.Cell) (s : State) :
    ((cs.foldl (fun s x => s.spWrite k x.1 [x.2]) s).core k).sram = memCells (s.core k).sram cs := by
  induction cs generalizing s with
  | nil => rfl
  | cons c r ih =>
    rw [List.foldl_cons, ih, State.spWrite_sram]
    rfl
theorem State.mem_spWrites (k : Nat) (cs : List Host.Cell) (s : State) : (cs.foldl (fun s x => s.spWrite k x.1 [x.2]) s).mem = s.mem := by
  induction cs generalizing s with
  | nil => rfl
  | cons c r ih => rw [List.foldl_cons, ih, State.spWrite_mem]
/-- A posted write of device memory: its bytes, at the points of coherence. -/
theorem State.postedWrite_mem (s : State) (w : Posted) (hd : w.dest = none) (hb : ∀ x ∈ w.cells, x.1 < 0x9FFFF00000) :
    (s.postedWrite w).mem = memCells s.mem w.cells ∧ (s.postedWrite w).cores = s.cores := by
  have ht : ∃ l r, (if w.mside then s else (linesOf w.cells).foldl (fun s l => s.l2Touch (128 * l) false) s) = { s with l2 := l, retain := r } := by
    split
    · exact ⟨_, _, rfl⟩
    · exact State.l2Touches_frame _ _ _ s
  obtain ⟨l, r, h⟩ := ht
  have he : s.postedWrite w = ({ s with l2 := l, retain := r } : State).pocWrite w.cells none w.mside := by
    unfold State.postedWrite
    simp only [hd, h]
  rw [he]
  exact ⟨State.mem_pocWrite _ _ _ hb, rfl⟩

/-! ## Laying a line -/

/-- A line that does not translate is not written. -/
theorem State.layLine_fault (s : State) (p n : Nat) (ls : List (Nat × List ShLine)) {i : W64} {rd : List Nat}
    (h : walk s.mem (s.part p).desc.ptroot (128 * n) = .fault i rd) : ∃ l r, s.layLine p ls n = { s with l2 := l, retain := r } := by
  obtain ⟨l, r, ht⟩ := State.l2Touches_frame id false rd s
  refine ⟨l, r, ?_⟩
  unfold State.layLine State.cpWalk
  simp only [h]
  exact ht
/-- The physical address of the first byte of a line in its page. -/
def Pg.lineAddr (pg : Pg) (n : Nat) : Nat := pg.pa + (128 * n - pg.va)
/-- The cells of a line are those of its bytes from its address on. -/
theorem cells_laidBytes (ls : List (Nat × List ShLine)) (n sz : Nat) (e : W64) (pg : Pg) (hpg : pg = mkPg (128 * n) sz e) :
    ((laidBytes ls n).map fun b => (pg.pa + (b.1 - pg.va), b.2)).map (fun c => (c.1, c.2.1)) = laidAt ls n (pg.lineAddr n) := by
  have hva : pg.va ≤ 128 * n := by
    rw [hpg]
    exact Nat.div_mul_le_self ..
  rw [laidBytes_eq, List.map_map, List.map_filterMap]
  unfold laidAt laidCell Pg.lineAddr
  refine List.filterMap_congr fun i _ => ?_
  rw [Option.map_map]
  congr 1
  funext l
  simp only [Function.comp, Prod.mk.injEq, and_true]
  omega
theorem State.layLine_leaf (s : State) (p n : Nat) (ls : List (Nat × List ShLine)) {e : W64} {sz : Nat} {rd : List Nat}
    (h : walk s.mem (s.part p).desc.ptroot (128 * n) = .leaf e sz rd) : let pg := mkPg (128 * n) sz e
    ∃ l r po, s.layLine p ls n = { ({ s with l2 := l, retain := r } : State).pocWrite (laidAt ls n (pg.lineAddr n)) none pg.mside with poison := po } := by
  obtain ⟨l, r, ht⟩ := State.l2Touches_frame id false rd s
  intro pg
  have hc : ∃ l' r', (if pg.mside then ({ s with l2 := l, retain := r } : State) else ({ s with l2 := l, retain := r } : State).l2Touch (pg.pa + (128 * n - pg.va)) false) =
      { s with l2 := l', retain := r' } := by
    split
    · exact ⟨_, _, rfl⟩
    · rw [State.l2Touch_frame]; exact ⟨_, _, rfl⟩
  obtain ⟨l', r', hc⟩ := hc
  have ht' : rd.foldl (fun s a => s.l2Touch a false) s = { s with l2 := l, retain := r } := ht
  unfold State.layLine State.cpWalk
  simp only [h, ht', cells_laidBytes ls n sz e pg rfl, show mkPg (128 * n) sz e = pg from rfl, hc]
  exact ⟨l', r', _, rfl⟩
theorem State.apart_layLine (s : State) (p n : Nat) (ls : List (Nat × List ShLine)) : (s.layLine p ls n).apart = s.apart := by
  cases h : walk s.mem (s.part p).desc.ptroot (128 * n) with
  | fault i rd =>
    obtain ⟨l, r, h⟩ := s.layLine_fault p n ls h
    rw [h]; rfl
  | leaf e sz rd =>
    obtain ⟨l, r, po, h⟩ := s.layLine_leaf p n ls h
    rw [h]; rfl

section
variable {ls : List (Nat × List ShLine)} {n base : Nat} (ha : base % 128 = 0) (hb : base + 128 ≤ 0x9FFFF00000)
include hb in
theorem laidAt_low : ∀ c ∈ laidAt ls n base, c.1 < 0x9FFFF00000 := fun c hc => by
  obtain ⟨i, l, hi, -, rfl⟩ := mem_laidAt.1 hc
  show base + i < _
  omega
include ha in
/-- The bytes of a line lie in one line. -/
theorem linesOf_laidAt (hn : ∃ i, i < 128 ∧ ¬ bareAt ls n i) : linesOf (laidAt ls n base) = [base / 128] := by
  obtain ⟨i, hi, hn⟩ := hn
  obtain ⟨l, hl⟩ := Option.ne_none_iff_exists'.1 (mt (lastLine_eq_none ls n i).1 hn)
  refine eraseDups_of_all (List.ne_nil_of_mem (List.mem_map_of_mem (mem_laidAt.2 ⟨i, l, hi, hl, rfl⟩))) fun b hb => ?_
  obtain ⟨c, hc, rfl⟩ := List.mem_map.1 hb
  obtain ⟨j, k, hj, -, rfl⟩ := mem_laidAt.1 hc
  show (base + j) / 128 = _
  omega
/-- The bytes of a line once it is laid. -/
theorem memByte_laid (m : List Host.Cell) {i : Nat} {l : ShLine} (hi : i < 128) (hl : lastLine ls n i = some l) :
    memByte (memCells m (laidAt ls n base)) (base + i) = l.data.extractLsb' (8 * i) 8 :=
  memByte_memCells_in _ m (pairwise_laidAt ls n base) (base + i, _) (mem_laidAt.2 ⟨i, l, hi, hl, rfl⟩)
theorem memByte_laid_bare (m : List Host.Cell) {i : Nat} (hi : bareAt ls n i) : memByte (memCells m (laidAt ls n base)) (base + i) = memByte m (base + i) := by
  refine memByte_memCells_out _ m _ fun c hc he => ?_
  obtain ⟨j, l, -, hl, rfl⟩ := mem_laidAt.1 hc
  obtain rfl : j = i := Nat.add_left_cancel he
  rw [(lastLine_eq_none ls n j).2 hi] at hl
  cases hl
theorem memByte_laid_out (m : List Host.Cell) {a : Nat} (h : a < base ∨ base + 128 ≤ a) : memByte (memCells m (laidAt ls n base)) a = memByte m a := by
  refine memByte_memCells_out _ m _ fun c hc he => ?_
  obtain ⟨j, l, hj, -, rfl⟩ := mem_laidAt.1 hc
  simp only at he
  omega
end

/-! ## Laying a phase -/

/-- The numbers of the lines of a phase, rising. -/
def phaseLines (ls : List (Nat × List ShLine)) : List Nat := ((ls.flatMap fun a => a.2.map (·.line)).eraseDups).insertionSort (· ≤ ·)
theorem pairwise_phaseLines (ls : List (Nat × List ShLine)) : (phaseLines ls).Pairwise fun a b => a < b := by
  have hs : (phaseLines ls).Pairwise (· ≤ ·) := List.pairwise_insertionSort _ _
  have hn : (phaseLines ls).Nodup := (List.perm_insertionSort _ _).nodup_iff.2 (nodup_eraseDups _)
  exact (hs.and hn).imp fun h => Nat.lt_of_le_of_ne h.1 h.2
theorem mem_phaseLines (ls : List (Nat × List ShLine)) (n : Nat) : n ∈ phaseLines ls ↔ ∃ a ∈ ls, ∃ x ∈ a.2, x.line = n := by
  simp only [phaseLines, List.mem_insertionSort, List.mem_eraseDups, List.mem_flatMap, List.mem_map]
/-- The lines of a phase written. -/
def State.layLines (s : State) (p : Nat) (ls : List (Nat × List ShLine)) : State := (phaseLines ls).foldl (fun (u : State) n => u.layLine p ls n) s
theorem State.apart_layLines (s : State) (p : Nat) (ls : List (Nat × List ShLine)) : (s.layLines p ls).apart = s.apart :=
  State.foldl_proj State.apart (fun s n => s.apart_layLine p n ls) _ s
theorem State.layLines_proj {β : Type} (g : State → β) (s : State) (p : Nat) (ls : List (Nat × List ShLine)) (h : ∀ s : State, g s.apart = g s := by exact fun _ => rfl) :
    g (s.layLines p ls) = g s := by
  rw [← h, s.apart_layLines p ls, h]
/-- A launch once its next phase is laid. -/
def Launch.phaseLaid (l : Launch) (ph : Nat) (dig : W64) : Launch := { l with laid := ph + 1, dig := dig, shingles := l.shingles.filter fun e => e.1.2 != ph }
/-- The digest once a phase is laid. -/
def Launch.digAfter (l : Launch) : W64 := (l.layers l.laid).foldl (fun h a => a.2.foldl digestLine h) (mix l.dig (BitVec.ofNat 64 l.laid))
/-- The state once the next phase of a launch is laid, before a conflict is reported. -/
def State.phaseLaid (s : State) (p lid : Nat) (l : Launch) : State :=
  (s.layLines p (l.layers l.laid)).updLaunch p lid fun x => x.phaseLaid l.laid l.digAfter
theorem State.allRetired_phaseLaid (s : State) (p lid : Nat) (l : Launch) : (s.phaseLaid p lid l).allRetired l = s.allRetired l :=
  s.layLines_proj (State.allRetired · l) p (l.layers l.laid)
theorem State.phaseLaid_proj {β : Type} (g : State → β) (s : State) (p lid : Nat) (l : Launch) (h : ∀ s : State, g s.apart = g s := by exact fun _ => rfl)
    (hu : ∀ s p lid f, g (State.updLaunch s p lid f) = g s := by exact fun _ _ _ _ => rfl) : g (s.phaseLaid p lid l) = g s :=
  (hu ..).trans (s.layLines_proj g p _ h)
/-- What a launch is told of a conflict once its tasks have retired. -/
def Launch.conflict (t2 : Nat) (l : Launch) : Launch := if l.faulted then l else { l with fcause := 0x50, ftask := w32 t2, faulted := true }
/-- The state in which a conflict of a phase is reported: to the launch once its tasks have retired, to its threads before. -/
def State.conflictTold (s : State) (p lid : Nat) (l : Launch) (t2 : Nat) (x : W64 × W64) : State :=
  if s.allRetired l then (s.phaseLaid p lid l).updLaunch p lid (Launch.conflict t2) else (s.phaseLaid p lid l).setConfl l x
theorem Launch.names_conflict (t2 : Nat) (l : Launch) : (l.conflict t2).part = l.part ∧ (l.conflict t2).lid = l.lid := by
  unfold Launch.conflict
  split <;> exact ⟨rfl, rfl⟩
theorem Launch.laid_conflict (t2 : Nat) (l : Launch) : ((l.conflict t2).laid, (l.conflict t2).dig, (l.conflict t2).shingles) = (l.laid, l.dig, l.shingles) := by
  unfold Launch.conflict
  split <;> rfl
theorem Launch.fault_conflict (t2 : Nat) (l : Launch) (h : l.faulted = false) :
    ((l.conflict t2).faulted, (l.conflict t2).fcause, (l.conflict t2).ftask) = (true, 0x50, BitVec.ofNat 32 t2) := by
  simp [Launch.conflict, h, w32]

section
variable {p : PartN} {lid : Nat} {s : State} {l : Launch} (hl : s.launch? p.val lid = some l)
include hl

theorem exec_layPhase_stays (h : l.repro = false ∨ l.state ≠ .running ∨ l.ridge.toNat ≤ l.laid ∨ s.reached l ≤ l.laid ∨ s.phaseOut l l.laid = false) :
    exec (.layPhase p lid) s = .next s := by
  show execLayPhase p lid s = _
  unfold execLayPhase
  simp only [hl]
  rw [if_pos]
  simp only [Bool.or_eq_true, Bool.not_eq_true', bne_iff_ne, decide_eq_true_eq]
  tauto
section
variable (hr : l.repro = true) (hs : l.state = .running) (hg : l.laid < l.ridge.toNat) (hre : l.laid < s.reached l) (ho : s.phaseOut l l.laid = true)
include hr hs hg hre ho

theorem exec_layPhase : exec (.layPhase p lid) s = match (if l.lastwin then none else conflictOf (l.layers l.laid)) with
    | none => .next (s.phaseLaid p.val lid l)
    | some (a, t1, t2) =>
      if (s.phaseLaid p.val lid l).allRetired l then .next ((s.phaseLaid p.val lid l).updLaunch p.val lid (Launch.conflict t2))
      else .next ((s.phaseLaid p.val lid l).setConfl l (w64 a, w64 (t1 + 2 ^ 32 * t2))) := by
  show execLayPhase p lid s = _
  unfold execLayPhase
  simp only [hl]
  rw [if_neg (by simp [hr, hs, ho, Nat.not_le.2 hg, Nat.not_le.2 hre])]
  rfl
/-- A phase in which no conflict is reported. -/
theorem exec_layPhase_quiet (h : l.lastwin = true ∨ conflictOf (l.layers l.laid) = none) : exec (.layPhase p lid) s = .next (s.phaseLaid p.val lid l) := by
  rw [exec_layPhase hl hr hs hg hre ho]
  obtain h | h := h <;> simp [h]
/-- A phase with a conflict: the launch is told once its tasks have retired, its threads before. -/
theorem exec_layPhase_conflict {a t1 t2 : Nat} (hw : l.lastwin = false) (h : conflictOf (l.layers l.laid) = some (a, t1, t2)) :
    exec (.layPhase p lid) s = .next (s.conflictTold p.val lid l t2 (w64 a, w64 (t1 + 2 ^ 32 * t2))) := by
  rw [exec_layPhase hl hr hs hg hre ho, hw, State.conflictTold]
  simp only [h, Bool.false_eq_true, if_false, State.allRetired_phaseLaid]
  split <;> rfl
end
theorem State.launch?_phaseLaid : (s.phaseLaid p.val lid l).launch? p.val lid = some (l.phaseLaid l.laid l.digAfter) := by
  unfold State.phaseLaid
  rw [State.launch?_updLaunch _ _ _ _ (by exact fun _ => ⟨rfl, rfl⟩), s.layLines_proj (State.launch? · p.val lid) p.val _, hl]
  rfl
end

/-- What a conflict of a launch makes of a core. -/
def Core.toPark (l : Launch) (x : W64 × W64) (k : Core) : Core :=
  match k.task with
  | some t => if t.part == l.part && t.lid == l.lid then { k with threads := k.threads.map (conflThr x) } else k
  | none => k
/-- What a conflict of its launch makes of a worker thread. -/
def Thread.toPark (x : W64 × W64) (t : Thread) : Thread := if t.status == .ended || t.status == .empty then t else { t with confl := some x }
theorem State.core_setConfl (s : State) (l : Launch) (x : W64 × W64) (c : Nat) : (s.setConfl l x).core c = (s.core c).toPark l x := by
  refine Tab.getD_map_at _ (Core.toPark l x) c .reset (fun e => ?_) (fun a => ?_) rfl s.cores
  · split
    · split <;> rfl
    · rfl
  · unfold Core.toPark
    cases h : a.task with
    | none => simp only
    | some t => simp only; split <;> simp only [h]
theorem thread_conflThr (x : W64 × W64) (ts : Tab Thread) {i : Nat} (hi : i ≠ 7) : Tab.getD (ts.map (conflThr x)) i .reset = (ts.getD i .reset).toPark x := by
  refine Tab.getD_map_at (conflThr x) (Thread.toPark x) i .reset (fun e => ?_) (fun a => ?_) rfl ts
  · unfold conflThr; split <;> rfl
  · simp only [conflThr, Thread.toPark, beq_eq_false_iff_ne.2 hi, Bool.false_or]
    split <;> rfl
/-- A thread of a launch that is to park for a conflict. -/
theorem State.confl_setConfl (s : State) (l : Launch) (x : W64 × W64) {c i : Nat} {k : TaskId} (hk : (s.core c).task = some k) (hp : k.part = l.part)
    (hl : k.lid = l.lid) (hi : i ≠ 7) (he : (s.thr ⟨c, i⟩).status ≠ .ended) (hn : (s.thr ⟨c, i⟩).status ≠ .empty) :
    ((s.setConfl l x).thr ⟨c, i⟩).confl = some x := by
  have hc : (s.core c).toPark l x = { s.core c with threads := (s.core c).threads.map (conflThr x) } := by simp [Core.toPark, hk, hp, hl]
  have ht : (s.setConfl l x).thr ⟨c, i⟩ = (s.thr ⟨c, i⟩).toPark x := by
    rw [State.thr, s.core_setConfl l x c, hc]
    exact thread_conflThr x _ hi
  rw [ht]
  simp [Thread.toPark, he, hn]
theorem State.sram_setConfl (s : State) (l : Launch) (x : W64 × W64) (c : Nat) : ((s.setConfl l x).core c).sram = (s.core c).sram := by
  rw [s.core_setConfl l x c, Core.toPark]
  split
  · split <;> rfl
  · rfl

section
variable {p : PartN} {lid : Nat} {s : State} {l : Launch} (hl : s.launch? p.val lid = some l) (t2 : Nat) (x : W64 × W64)
include hl

omit hl in
theorem State.mem_conflictTold : (s.conflictTold p.val lid l t2 x).mem = (s.layLines p.val (l.layers l.laid)).mem := by
  unfold State.conflictTold
  split <;> rfl
omit hl in
theorem State.version_conflictTold (k : Nat) (b : Bool) : (s.conflictTold p.val lid l t2 x).version k b = (s.layLines p.val (l.layers l.laid)).version k b := by
  unfold State.conflictTold
  split <;> cases b <;> rfl
omit hl in
theorem State.sram_conflictTold (c : Nat) : ((s.conflictTold p.val lid l t2 x).core c).sram = (s.core c).sram := by
  have h := s.phaseLaid_proj (fun s => (s.core c).sram) p.val lid l
  unfold State.conflictTold
  split
  · exact h
  · exact (State.sram_setConfl ..).trans h
theorem State.launch?_conflictTold : (s.conflictTold p.val lid l t2 x).launch? p.val lid =
    some (if s.allRetired l then (l.phaseLaid l.laid l.digAfter).conflict t2 else l.phaseLaid l.laid l.digAfter) := by
  unfold State.conflictTold
  split
  · rw [State.launch?_updLaunch _ _ _ _ (Launch.names_conflict t2), State.launch?_phaseLaid hl]; rfl
  · exact State.launch?_phaseLaid hl
theorem State.laid_conflictTold : (((s.conflictTold p.val lid l t2 x).launch? p.val lid).map fun x => (x.laid, x.dig, x.shingles)) =
    some (l.laid + 1, l.digAfter, l.shingles.filter fun e => e.1.2 != l.laid) := by
  rw [State.launch?_conflictTold hl]
  split
  · exact congrArg some (Launch.laid_conflict t2 _)
  · rfl
theorem State.fault_conflictTold (hr : s.allRetired l = true) (hf : l.faulted = false) :
    (((s.conflictTold p.val lid l t2 x).launch? p.val lid).map fun x => (x.faulted, x.fcause, x.ftask)) = some (true, 0x50, BitVec.ofNat 32 t2) := by
  rw [State.launch?_conflictTold hl, if_pos hr]
  exact congrArg some (Launch.fault_conflict t2 _ hf)
theorem State.confl_conflictTold (hr : s.allRetired l = false) {c i : Nat} {k : TaskId} (hk : (s.core c).task = some k) (hp : k.part = p.val)
    (hkl : k.lid = lid) (hi : i ≠ 7) (he : (s.thr ⟨c, i⟩).status ≠ .ended) (hn : (s.thr ⟨c, i⟩).status ≠ .empty) :
    ((s.conflictTold p.val lid l t2 x).thr ⟨c, i⟩).confl = some x := by
  obtain ⟨h1, h2⟩ := State.names_of_launch? hl
  have hth := s.phaseLaid_proj (State.thr · ⟨c, i⟩) p.val lid l
  have htk := s.phaseLaid_proj (fun s => (s.core c).task) p.val lid l
  rw [State.conflictTold, hr, if_neg Bool.false_ne_true]
  exact State.confl_setConfl _ l x (htk.trans hk) (hp.trans h1.symm) (hkl.trans h2.symm) hi (by rw [hth]; exact he) (by rw [hth]; exact hn)
end

end Sys2Proof.Machine
end

section
/-! SUPPORT. The drains of a store buffer and of a block buffer, fetch fills, RIDGE, the gate of a phase, and the statement of the machine's moves on its buffers. -/

namespace Sys2Proof.Machine

/-! ## Store buffers -/

theorem straight_iff (e : Entry) : straight e = true ↔ e.rel = true ∧ (e.scope = .device ∨ e.scope = .system) := by
  simp [straight]
theorem exec_storeBufferDrain {c : CoreN} {id : Nat} {s : State} {e : Entry} (h : ((s.core c.val).sb.find? fun e => e.id = id) = some e) :
    exec (.storeBufferDrain c id) s = .next (if s.mayDrain c.val e then s.drainEntry c.val e else s) := by
  show execStoreBufferDrain c id s = _
  unfold execStoreBufferDrain
  simp only [h]
  split <;> rfl
/-- A core whose store buffer an entry has left. -/
def Core.drained (e : Entry) (k : Core) : Core := { k with sb := k.sb.filter fun x => x.id != e.id, gone := k.gone ++ [e.id] }
theorem State.drainEntry_eq (s : State) (c : Nat) (e : Entry) : s.drainEntry c e =
    match e.dest with
    | some d => (s.updCore c (Core.drained e)).performWindow e d
    | none => if straight e then (s.updCore c (Core.drained e)).perform e (clusterOf c)
      else if e.cells.isEmpty then s.updCore c (Core.drained e)
      else (s.updCore c (Core.drained e)).updCluster (clusterOf c) fun k => { k with bb := k.bb ++ [e] } := rfl
theorem State.version_updCore (s : State) (c : Nat) (f : Core → Core) (k : Nat) (m : Bool) : (s.updCore c f).version k m = s.version k m := by cases m <;> rfl
/-- A core whose scratchpad an entry has been written to. -/
def Core.windowed (e : Entry) (k : Core) : Core :=
  { k with sram := e.cells.foldl (fun m x => memSet m x.pa x.b) k.sram, late := k.late.filter fun y => y.firm || !e.cells.any fun x => x.pa == y.off }
theorem State.core_performWindow (s : State) (e : Entry) (d c : Nat) : (s.performWindow e d).core c = (s.updCore d (Core.windowed e)).core c := rfl
/-- An entry that drains leaves its store buffer. -/
theorem State.sb_drainEntry (s : State) (c : Nat) (e : Entry) : ((s.drainEntry c e).core c).sb = (s.core c).sb.filter fun x => x.id != e.id := by
  have h : ((s.updCore c (Core.drained e)).core c).sb = (s.core c).sb.filter fun x => x.id != e.id := by rw [State.core_updCore]; rfl
  rw [State.drainEntry_eq]
  split
  · rw [State.core_performWindow]
    exact (State.core_updCore_proj Core.sb _ _ c _ (by exact fun _ => rfl)).trans h
  · split
    · exact (State.core_perform Core.sb (fun _ _ => rfl) _ e _ c).trans h
    · split <;> exact h
/-- An entry of a scratchpad goes there, and nowhere else. -/
theorem State.drainEntry_window (s : State) (c d : Nat) (e : Entry) (hd : e.dest = some d) : (s.drainEntry c e).mem = s.mem ∧
    ((s.drainEntry c e).core d).sram = e.cells.foldl (fun m x => memSet m x.pa x.b) (s.core d).sram ∧
    ∀ k, k ≠ d → ((s.drainEntry c e).core k).sram = (s.core k).sram := by
  have hs (k : Nat) : ((s.updCore c (Core.drained e)).core k).sram = (s.core k).sram := State.core_updCore_proj Core.sram s c k _ (by exact fun _ => rfl)
  rw [State.drainEntry_eq, hd]
  refine ⟨rfl, ?_, fun k hk => ?_⟩
  · rw [State.core_performWindow, State.core_updCore, ← hs d]; rfl
  · rw [State.core_performWindow, State.core_updCore_ne _ _ hk, hs]
/-- A global entry that is no release of a wide scope goes to the block buffer. -/
theorem State.drainEntry_block (s : State) (c : Nat) (e : Entry) (hd : e.dest = none) (hs : straight e = false) : (s.drainEntry c e).mem = s.mem ∧
    ((s.drainEntry c e).cluster (c / 8)).bb = (s.cluster (c / 8)).bb ++ if e.cells.isEmpty then [] else [e] := by
  rw [State.drainEntry_eq, hd]
  simp only [hs, Bool.false_eq_true, if_false]
  split
  · exact ⟨rfl, (List.append_nil _).symm⟩
  · exact ⟨rfl, congrArg Cluster.bb (State.cluster_updCluster (s.updCore c (Core.drained e)) (c / 8) _)⟩
theorem State.drainEntry_straight (s : State) (c : Nat) (e : Entry) (hd : e.dest = none) (hs : straight e = true) :
    s.drainEntry c e = (s.updCore c (Core.drained e)).perform e (clusterOf c) := by
  rw [State.drainEntry_eq, hd]
  simp only [hs, if_true]

/-! ## Block buffers -/

/-- The state but for entries that leave a block buffer. -/
def State.bbWithout (s : State) (cl : Nat) (ids : List Nat) : State := s.updCluster cl fun k => { k with bb := k.bb.filter fun x => !(ids.contains x.id) }
theorem State.version_bbWithout (s : State) (cl : Nat) (ids : List Nat) (k : Nat) (m : Bool) : (s.bbWithout cl ids).version k m = s.version k m := by
  cases m <;> rfl

section
variable {c : ClusterN} {id l : Nat} {s : State} {e : Entry} (hf : ((s.cluster c.val).bb.find? fun e => e.id = id) = some e)
  (hl : linesOf (hostCells e) = [l]) (hh : heldBack e [id] (s.cluster c.val).bb = false)
include hf hl hh

/-- An entry of one line that is not held back drains alone, a reduction once the older entries of its thread have. -/
theorem exec_blockBufferDrain : exec (.blockBufferDrain c id []) s = .next (if s.redClear e c.val then
    (s.bbWithout c.val [id]).perform e c.val else s) := by
  show execBlockBufferDrain c id [] s = _
  have hes : ([id].filterMap fun i => (s.cluster c.val).bb.find? fun e => e.id = i) = [e] := by simp [hf]
  unfold execBlockBufferDrain
  simp only [hes, hl, hh, mergeable, List.all_cons, List.all_nil, List.length_singleton, decide_true, Bool.not_false, Bool.true_and, Bool.and_true,
    List.flatMap_singleton]
  split <;> rfl
theorem exec_blockBufferDrain_clear (hr : s.redClear e c.val = true) : exec (.blockBufferDrain c id []) s =
    .next ((s.bbWithout c.val [id]).perform e c.val) := by
  rw [exec_blockBufferDrain hf hl hh, if_pos hr]
end
theorem State.redClear_of_none (s : State) {e : Entry} (h : e.red = none) (cl : Nat) : s.redClear e cl = true := by
  unfold State.redClear
  simp only [h]
/-- The block buffer that an entry has left, once the entry is performed. -/
theorem State.bb_performed (s : State) (cl : Nat) (ids : List Nat) (e : Entry) :
    (((s.bbWithout cl ids).perform e cl).cluster cl).bb = (s.cluster cl).bb.filter fun x => !(ids.contains x.id) := by
  rw [State.cluster, State.clusters_perform, ← State.cluster, State.bbWithout, State.cluster_updCluster]
/-- The line of an entry of one line is that of its first byte. -/
theorem lineOf_head {e : Entry} {x : WCell} {l : Nat} (hl : linesOf (hostCells e) = [l]) (hx : e.cells.head? = some x) : lineOf x.pa = l := by
  have hm : lineOf x.pa ∈ linesOf (hostCells e) := by
    refine List.mem_eraseDups.2 (List.mem_map.2 ⟨(x.pa, x.b), List.mem_map.2 ⟨x, List.mem_of_mem_head? (by rw [hx]; rfl), rfl⟩, rfl⟩)
  rwa [hl, List.mem_singleton] at hm

/-! ## Fetch fills -/

/-- A line put into the L0 of one requester. -/
def State.fillL0 (img : BitVec 512) (s : State) (x : Nat × Nat) : State := s.updCore x.1 fun k => { k with l0 := l0Put k.l0 x.2 img s.cycle }
/-- The state but for an entry of the fetch buffer that its fill ends. -/
def State.fmbWithout (s : State) (cl pa : Nat) : State := s.updCluster cl fun k => { k with fmb := k.fmb.filter fun x => x.pa != pa }
theorem exec_fetchFill {c : ClusterN} {line : Nat} {s : State} {e : FetchEntry} (h : ((s.cluster c.val).fmb.find? fun e => e.pa = line) = some e) :
    ∃ l r, exec (.fetchFill c line) s = .next (e.reqs.foldl (State.fillL0 (s.lineAt line)) (({ s with l2 := l, retain := r } : State).fmbWithout c.val e.pa)) := by
  have hp : e.pa = line := by simpa using List.find?_some h
  have ht : ∃ l r, (if e.mside then s else s.l2Touch e.pa false) = { s with l2 := l, retain := r } := by
    split
    · exact ⟨_, _, rfl⟩
    · rw [State.l2Touch_frame]; exact ⟨_, _, rfl⟩
  obtain ⟨l, r, ht⟩ := ht
  refine ⟨l, r, ?_⟩
  show execFetchFill c line s = _
  unfold execFetchFill
  simp only [h, ht]
  rw [hp]
  rfl
/-- A line that has come stands in the L0 of each core that asked for it. -/
theorem State.l0_fills (img : BitVec 512) (s : State) (rs : List (Nat × Nat)) (hd : rs.Pairwise fun x y => x.1 ≠ y.1) {k v : Nat} (h : (k, v) ∈ rs) :
    ((rs.foldl (State.fillL0 img) s).core k).l0 = l0Put (s.core k).l0 v img s.cycle := by
  obtain ⟨u, h1, h2, h3⟩ := State.core_foldl (f := State.fillL0 img) (fun x : Nat × Nat => x.1) State.cycle (fun _ _ => rfl)
    (fun s a d hd => State.core_updCore_ne _ _ hd) rs hd s (k, v) h
  rw [h3, State.fillL0, State.core_updCore, h2, h1]
theorem State.l0_fills_out (img : BitVec 512) (s : State) (rs : List (Nat × Nat)) {k : Nat} (h : ∀ v, (k, v) ∉ rs) :
    ((rs.foldl (State.fillL0 img) s).core k).l0 = (s.core k).l0 := by
  refine State.foldl_proj_mem (fun s => (s.core k).l0) rs (fun s x hx => ?_) s
  have hne : k ≠ x.1 := fun e => h x.2 (e ▸ hx)
  rw [State.fillL0, State.core_updCore_ne _ _ hne]

/-! ## The gate of a phase -/

section
variable {s : State} {t : Task} {l : Launch} (ht : s.myTask = some t) (hl : s.launchOf t = some l)
include ht hl

theorem State.phaseGate_eq : s.phaseGate true = if !l.repro then done s
    else if l.laid < t.phase.toNat then .pass (s.updTh fun t => { t with ridgeWait := true })
    else if t.acqPhase then done ((s.dropBlockL1 s.cur.core).updTask t.id fun t => { t with acqPhase := false })
    else done s := by
  unfold State.phaseGate
  simp only [ht, hl]
  rfl
theorem State.myShingle_eq : s.myShingle = if l.repro then some ((match assocGet t.stealing (s.myCore.bidx, s.cur.slot) with
    | some v => { t.id with idx := v }
    | none => t.id), t.phase) else none := by
  have hm : s.taskOn s.me.core = some t := ht
  unfold State.myShingle State.shingleFor State.shingleOf
  simp only [hm, hl]
  cases l.repro with
  | false => rfl
  | true =>
    show some (match assocGet t.stealing (s.myCore.bidx, s.cur.slot) with
      | some v => ({ t.id with idx := v }, t.phase)
      | none => (t.id, t.phase)) = _
    split <;> rfl
end
/-- A projection that the L1 copies are no part of. -/
theorem State.dropBlockL1_proj {β : Type} (g : State → β) (h : ∀ s c, g (State.updCore s c fun k => { k with l1 := [] }) = g s) (s : State) (c : Nat) :
    g (s.dropBlockL1 c) = g s := State.foldl_proj g h _ s
theorem State.task_dropBlockL1 (s : State) (c d : Nat) : ((s.dropBlockL1 c).core d).task = (s.core d).task :=
  State.dropBlockL1_proj (fun s => (s.core d).task) (fun s b => State.core_updCore_proj Core.task s b d _ (by exact fun _ => rfl)) s c
/-- An acquire of the block leaves no L1 copy on its cores. -/
theorem State.l1_dropBlockL1 (s : State) (c d : Nat) (h : d ∈ s.blockOf c) : ((s.dropBlockL1 c).core d).l1 = [] := by
  exact State.core_foldl_eq Core.l1 [] (f := fun s b => s.updCore b fun k => { k with l1 := [] }) (fun s b => by rw [State.core_updCore])
    (fun s b d hd => State.core_updCore_ne _ _ hd) (s.blockOf c) s d h
/-- The acquire that the laying of a phase asks for is made. -/
theorem State.acqPhase_acquired {s : State} {t : Task} (ht : s.myTask = some t) (c : Nat) :
    (((s.dropBlockL1 c).updTask t.id fun t => { t with acqPhase := false }).myTask.map fun t => t.acqPhase) = some false := by
  obtain ⟨i, hi, hti⟩ := Option.bind_eq_some_iff.1 ht
  have hcur : (s.dropBlockL1 c).cur = s.cur := State.dropBlockL1_proj State.cur (fun _ _ => rfl) s c
  have htask : (s.dropBlockL1 c).task? i = some t := (State.dropBlockL1_proj (State.task? · i) (fun _ _ => rfl) s c).trans hti
  have hm : ((s.dropBlockL1 c).updTask t.id fun t => { t with acqPhase := false }).myTask =
      (s.core s.cur.core).task.bind ((s.dropBlockL1 c).updTask t.id fun t => { t with acqPhase := false }).task? := by
    rw [← s.task_dropBlockL1 c s.cur.core, ← hcur]; rfl
  rw [hm, hi, Option.bind_some, State.id_of_task? hti, State.task?_updTask _ _ _ (by exact fun _ => rfl), htask]
  rfl

/-! ## The statement -/

/-- Settles O56: each move by the equation of its event; a shingle byte by byte over the cells put into it, a line laid as one write of the last layer's bytes,
the first conflict by the three searches that find it, each of which takes the least. -/
theorem bufferMoves : Obligations.BufferMoves := by
  unfold Obligations.BufferMoves
  refine ⟨?store, straight_iff, ?block, fun c line s => rfl, ?posted, ?fill, ?ridge, ?lay, fun l ph => ⟨pairwise_layers l ph, mem_layers l ph⟩, ?line, ?conflict,
    fun h x => ⟨digestWord x, fun j i _ hi => byte_digestWord x j i hi, digestLine_eq h x⟩, fun h w => rfl, ?gate, ?shingle⟩
  case store =>
    intro c id s e hf
    rw [exec_storeBufferDrain hf]
    refine ⟨fun hm => by rw [hm]; rfl, fun hm => ⟨_, by rw [if_pos hm], s.sb_drainEntry c.val e, fun d hd => s.drainEntry_window c.val d e hd, s.drainEntry_block c.val e, ?_⟩⟩
    intro hd hs hr hsh
    rw [s.drainEntry_straight c.val e hd hs]
    refine ⟨by rw [State.cluster, State.clusters_perform]; rfl, fun hc => ?_, fun l hl hb => ?_⟩
    · obtain ⟨h1, h2⟩ := State.perform_empty hr hsh (s.updCore c.val (Core.drained e)) (clusterOf c.val) hc
      exact ⟨h1, fun k m => (h2 k m).trans (State.version_updCore ..)⟩
    · obtain ⟨h1, h2, h3⟩ := State.perform_line hr hsh (s.updCore c.val (Core.drained e)) (clusterOf c.val) l hl hb
      refine ⟨fun a => by rw [h1]; rfl, ?_, fun k m hk => (h3 k m hk).trans (State.version_updCore ..)⟩
      rw [h2, State.version_updCore]
  case block =>
    intro c id s e l hf hl hh
    have hbb := s.bb_performed c.val [id] e
    refine ⟨fun sh q hr hs hq => ?_, fun hs hr hb => ?_, fun _ hc => ?_, fun v x p lid g n hs hr hx _ hb ht hc => ?_⟩
    · refine ⟨_, exec_blockBufferDrain_clear hf hl hh (s.redClear_of_none hr c.val), ?_⟩
      rw [State.perform_shingle hr hs] at hbb ⊢
      exact ⟨rfl, fun k m => by cases m <;> rfl, (s.bbWithout c.val [id]).shByte_shWrite sh e.cells hq,
        fun k va pa hk => (s.bbWithout c.val [id]).shByte_shWrite_ne e.cells hk va pa, hbb⟩
    · obtain ⟨h1, h2, h3⟩ := State.perform_line hr hs (s.bbWithout c.val [id]) c.val l hl hb
      refine ⟨_, exec_blockBufferDrain_clear hf hl hh (s.redClear_of_none hr c.val), fun a => by rw [h1]; rfl, ?_,
        fun k m hk => (h3 k m hk).trans (State.version_bbWithout ..), hbb⟩
      rw [h2, State.version_bbWithout]
    · rw [exec_blockBufferDrain hf hl hh, hc]; rfl
    · have hp (u : State) : u.perform e c.val = u.reducePerform e .add .i64 v c.val := by
        unfold State.perform
        simp only [hr]
      have he := exec_blockBufferDrain_clear hf hl hh hc
      rw [hp] at he
      obtain rfl := lineOf_head hl hx
      refine ⟨fun r ha => ⟨_, he, ?_⟩, fun ha => ⟨_, he, (s.bbWithout c.val [id]).reducePerform_add v c.val hx hb ht ha⟩⟩
      rw [(s.bbWithout c.val [id]).reducePerform_again .add .i64 v c.val hx ht ha]; rfl
  case posted =>
    intro s
    refine ⟨fun h => ?_, fun w r h => ?_⟩
    · show execPostedWritePerform s = _
      unfold execPostedWritePerform
      rw [h]
    · have he : exec .postedWritePerform s = .next (({ s with posted := r } : State).postedWrite w) := by
        show execPostedWritePerform s = _
        unfold execPostedWritePerform
        rw [h]
      refine ⟨_, he, State.posted_postedWrite .., fun k hd hl => ?_, fun hd hb => ?_⟩
      · rw [State.postedWrite_sp _ w k hd hl]
        exact ⟨State.mem_spWrites .., fun a => by rw [State.sram_spWrites]; rfl⟩
      · obtain ⟨h1, h2⟩ := State.postedWrite_mem { s with posted := r } w hd hb
        exact ⟨fun a => by rw [h1]; rfl, fun k => by rw [State.core, h2]; rfl⟩
  case fill =>
    intro c line s
    refine ⟨fun h => ?_, fun e h hd => ?_⟩
    · show execFetchFill c line s = _
      unfold execFetchFill
      rw [List.find?_eq_none.2 fun e he => by simpa using h e he]
    · obtain ⟨l, r, he⟩ := exec_fetchFill h
      refine ⟨_, he, ?_, State.foldl_proj (f := State.fillL0 (s.lineAt line)) State.mem (fun _ _ => rfl) e.reqs _,
        fun k v hk => State.l0_fills _ _ e.reqs hd hk, fun k hk => State.l0_fills_out _ _ e.reqs hk⟩
      refine (State.foldl_proj (f := State.fillL0 (s.lineAt line)) (fun s => (s.cluster c.val).fmb) (fun _ _ => rfl) e.reqs _).trans ?_
      rw [State.fmbWithout, State.cluster_updCluster]; rfl
  case ridge =>
    intro p lid s l hl hr
    have he : exec (.ridgePublish p lid) s = .next (if l.ridge < s.trueRidge l then s.updLaunch p.val lid fun x => { x with ridge := s.trueRidge l } else s) := by
      show execRidgePublish p lid s = _
      unfold execRidgePublish
      simp [hl, hr]
    refine ⟨_, he, ?_⟩
    split
    · exact ⟨rfl, rfl, by rw [State.launch?_updLaunch _ _ _ _ (by exact fun _ => ⟨rfl, rfl⟩), hl]; rfl⟩
    · exact ⟨rfl, rfl, by rw [hl]; rfl⟩
  case lay =>
    intro p lid s l hl
    refine ⟨fun h => exec_layPhase_stays hl (by tauto), fun h => exec_layPhase_stays hl (by tauto), fun hr hst hg hre ho => ?_⟩
    by_cases hq : l.lastwin = true ∨ conflictOf (l.layers l.laid) = none
    · refine ⟨_, phaseLines (l.layers l.laid), exec_layPhase_quiet hl hr hst hg hre ho hq, pairwise_phaseLines _, mem_phaseLines _, rfl,
        fun k b => by cases b <;> rfl,
        fun c => s.phaseLaid_proj (fun s => (s.core c).sram) p.val lid l, by rw [State.launch?_phaseLaid hl]; rfl, fun _ => ⟨s.phaseLaid_proj State.tasks p.val lid l, fun u => s.phaseLaid_proj (State.thr · u) p.val lid l⟩,
        fun a t1 t2 hw hc => ?_⟩
      rw [hw, hc] at hq
      simp at hq
    · obtain ⟨hw, hn⟩ := not_or.1 hq
      obtain ⟨⟨a, t1, t2⟩, hc⟩ := Option.ne_none_iff_exists'.1 hn
      refine ⟨_, phaseLines (l.layers l.laid), exec_layPhase_conflict hl hr hst hg hre ho (by simpa using hw) hc, pairwise_phaseLines _, mem_phaseLines _, ?_⟩
      refine ⟨State.mem_conflictTold .., State.version_conflictTold _ _, State.sram_conflictTold _ _, State.laid_conflictTold hl .., fun h => absurd h hq,
        fun a' u1 u2 _ hc' => ?_⟩
      obtain ⟨rfl, rfl, rfl⟩ : a = a' ∧ t1 = u1 ∧ t2 = u2 := by simpa [hc] using hc'
      exact ⟨State.fault_conflictTold hl t2 _, fun h c k i => State.confl_conflictTold hl t2 _ h⟩
  case line =>
    intro s p n ls
    refine ⟨fun i r h => ?_, fun e sz r h ha hb hn => ?_⟩
    · obtain ⟨l, r, h⟩ := s.layLine_fault p n ls h
      rw [h]
      exact ⟨rfl, fun k m => by cases m <;> rfl⟩
    · obtain ⟨l, r, po, h⟩ := s.layLine_leaf p n ls h
      have hv (k : Nat) (m : Bool) : (s.layLine p ls n).version k m = (({ s with l2 := l, retain := r } : State).pocWrite
          (laidAt ls n ((mkPg (128 * n) sz e).lineAddr n)) none (mkPg (128 * n) sz e).mside).version k m := by rw [h]; cases m <;> rfl
      have hm : (s.layLine p ls n).mem = memCells s.mem (laidAt ls n ((mkPg (128 * n) sz e).lineAddr n)) := by
        rw [h]; exact State.mem_pocWrite _ _ _ (laidAt_low hb)
      obtain ⟨h1, h2⟩ := State.version_pocWrite ({ s with l2 := l, retain := r } : State) none (mkPg (128 * n) sz e).mside (laidAt_low hb) (linesOf_laidAt ha hn)
      have hv' (k : Nat) (m : Bool) : ({ s with l2 := l, retain := r } : State).version k m = s.version k m := by cases m <;> rfl
      simp only [hm, hv]
      refine ⟨fun pre a post x i hi hls hx hp => ?_, fun i _ hi => memByte_laid_bare s.mem hi, fun a h => memByte_laid_out s.mem h, h1.trans (by rw [hv']), fun k m hk => (h2 k m hk).trans (hv' ..)⟩
      subst hls
      exact memByte_laid s.mem hi (lastLine_eq_some hx hp)
  case conflict =>
    exact fun ls hl hs => ⟨conflictOf_eq_none hs, fun ad t1 t2 h => conflictOf_eq_some hl hs h⟩
  case gate =>
    intro s t l ht hl
    refine ⟨rfl, ?_⟩
    rw [State.phaseGate_eq ht hl]
    refine ⟨fun hr => by rw [hr]; rfl, fun hr hlt => by rw [hr, if_neg (by decide), if_pos hlt], fun hr hle ha => ?_, fun hr hle ha hc => ?_⟩
    · rw [hr, if_neg (by decide), if_neg (by omega), ha]; rfl
    · rw [hr, if_neg (by decide), if_neg (by omega), ha, if_pos rfl]
      exact ⟨_, rfl, State.dropBlockL1_proj State.mem (fun _ _ => rfl) s _, s.l1_dropBlockL1 _ _ hc, State.acqPhase_acquired ht _⟩
  case shingle =>
    intro s t l ht hl
    rw [State.myShingle_eq ht hl]
    exact ⟨fun hr => by rw [hr]; rfl, fun hr ha => by rw [hr, ha]; rfl, fun v hr ha => by rw [hr, ha]; rfl⟩

end Sys2Proof.Machine
end

section
/-! SUPPORT. What the fragments that have arrived for a launch change as they are delivered, what the slot table's deferred values change, and what is left of a
core that is cleared. -/

namespace Sys2Proof.Machine

/-! ## Delivery of fragments (18 R328 to R333) -/

/-- What the message units leave: the state without partitions, cores, tasks, ports and the posted queue, and the names of the tasks. -/
def State.undelivered (s : State) : State × List TaskId :=
  ({ s with parts := [], cores := [], tasks := [], ports := [], nextId := 0, posted := [] }, s.taskIds)

@[simp] theorem State.undelivered_updPart (s : State) (p : Nat) (f : Partition → Partition) : (s.updPart p f).undelivered = s.undelivered := rfl
theorem State.taskIds_updTask (s : State) (t : TaskId) (f : Task → Task) (h : ∀ x, (f x).id = x.id := by exact fun _ => rfl) : (s.updTask t f).taskIds = s.taskIds := by
  rw [State.updTask, State.taskIds, List.map_map]
  refine List.map_congr_left fun x _ => ?_
  simp only [Function.comp]
  split
  · exact h x
  · rfl
theorem State.undelivered_updTask (s : State) (t : TaskId) (f : Task → Task) (h : ∀ x, (f x).id = x.id := by exact fun _ => rfl) :
    (s.updTask t f).undelivered = s.undelivered := by
  unfold State.undelivered
  rw [State.taskIds_updTask s t f h]
  rfl
@[simp] theorem State.undelivered_count (s : State) (p : Nat) (f : MsgCtr → MsgCtr) : (s.count p f).undelivered = s.undelivered := rfl
@[simp] theorem State.undelivered_updRx (s : State) (k : MsgKey) (f : RxMsg → RxMsg) : (s.updRx k f).undelivered = s.undelivered := rfl
@[simp] theorem State.undelivered_closeRx (s : State) (m : RxMsg) : (s.closeRx m).undelivered = s.undelivered := rfl
@[simp] theorem State.undelivered_onThread (s : State) (t : ThreadId) (task : TaskId) (f : Thread → Thread) : (s.onThread t task f).undelivered = s.undelivered := by
  unfold State.onThread
  split
  · rfl
  · split
    · rfl
    · simp only
      split
      · rfl
      · exact State.undelivered_updTask ..
@[simp] theorem State.undelivered_setMsg (s : State) (t : ThreadId) (task : TaskId) (seq : W32) (f : MsgStatus → MsgStatus) :
    (s.setMsg t task seq f).undelivered = s.undelivered := State.undelivered_onThread ..
@[simp] theorem State.undelivered_onTile (s : State) (c n : Nat) (task : TaskId) (st : TileSt) : (s.onTile c n task st).undelivered = s.undelivered := by
  unfold State.onTile
  simp only
  split
  · rfl
  · split
    · rfl
    · split
      · rfl
      · exact State.undelivered_updTask ..
@[simp] theorem State.undelivered_showRx (s : State) (m : RxMsg) (code : Nat) : (s.showRx m code).undelivered = s.undelivered := by
  unfold State.showRx
  split
  · exact State.undelivered_setMsg ..
  · rfl
theorem State.undelivered_showKept (s : State) (key : MsgKey) : (match s.rx? key with
    | some m => s.showRx m 0
    | none => s).undelivered = s.undelivered := by
  split
  · exact State.undelivered_showRx ..
  · rfl
@[simp] theorem State.undelivered_deliverBytes (s : State) (m : RxMsg) (x : Post) (off : Nat) (bs : List Byte) :
    (s.deliverBytes m x off bs).undelivered = s.undelivered := by
  unfold State.deliverBytes
  simp only
  split
  · rfl
  · split <;> rfl
  · split
    · split <;> rfl
    · split
      · rfl
      · exact State.undelivered_updTask ..
@[simp] theorem State.undelivered_writeData (s : State) (key : MsgKey) (j : Nat) (bs : List Byte) : (s.writeData key j bs).undelivered = s.undelivered := by
  unfold State.writeData
  split
  · rfl
  · split
    · rfl
    · rw [State.undelivered_updRx, State.undelivered_deliverBytes]
theorem State.undelivered_foldl {α : Type} {f : State → α → State} (h : ∀ s a, (f s a).undelivered = s.undelivered) (l : List α) (s : State) :
    (l.foldl f s).undelivered = s.undelivered := State.foldl_proj State.undelivered h l s
@[simp] theorem State.undelivered_rebuildRx (s : State) (key : MsgKey) : (s.rebuildRx key).undelivered = s.undelivered := by
  unfold State.rebuildRx
  split
  · rfl
  · split
    · rfl
    · exact State.undelivered_foldl (fun s e => State.undelivered_writeData ..) _ s
@[simp] theorem State.undelivered_matchRx (s : State) (m : RxMsg) (x : Post) : (s.matchRx m x).undelivered = s.undelivered := by
  unfold State.matchRx
  simp only
  split
  · rw [State.undelivered_closeRx, State.undelivered_showRx, State.undelivered_updPart]
  · refine (State.undelivered_showKept _ m.key).trans ?_
    rw [State.undelivered_rebuildRx, State.undelivered_foldl fun s e => State.undelivered_writeData .., State.undelivered_updRx, State.undelivered_updPart]
@[simp] theorem State.undelivered_keepFragment (s : State) (key : MsgKey) (fidx : Nat) (bs : List Byte) :
    (s.keepFragment key fidx bs).undelivered = s.undelivered := by
  unfold State.keepFragment
  simp only
  split
  · rfl
  · refine (State.undelivered_showKept _ key).trans ((State.undelivered_rebuildRx _ key).trans ?_)
    split
    · rw [State.undelivered_writeData, State.undelivered_updRx]
    · rfl
@[simp] theorem State.undelivered_arriveFragment (s : State) (h : FHdr) (now : Nat) (bs : List Byte) :
    (s.arriveFragment h now bs).undelivered = s.undelivered := by
  unfold State.arriveFragment
  simp only
  split
  · rfl
  split
  · rfl
  split
  · rfl
  split
  · split
    · rfl
    split
    · rfl
    · exact State.undelivered_keepFragment ..
  · split
    · split
      · rfl
      · rw [State.undelivered_matchRx, State.undelivered_updPart, State.undelivered_updPart]
    · split
      · rw [State.undelivered_keepFragment, State.undelivered_updPart]
      · rfl
@[simp] theorem State.undelivered_finalSend (s : State) (m : TxMsg) (code : Nat) : (s.finalSend m code).undelivered = s.undelivered := by
  unfold State.finalSend
  refine (State.undelivered_updPart ..).trans ?_
  split
  · rw [State.undelivered_onTile, State.undelivered_setMsg]
  · exact State.undelivered_setMsg ..
@[simp] theorem State.undelivered_arriveAck (s : State) (h : FHdr) (now : Nat) : (s.arriveAck h now).undelivered = s.undelivered := by
  unfold State.arriveAck
  simp only
  split
  · split
    · rw [State.undelivered_count, State.undelivered_finalSend]
    · exact State.undelivered_finalSend ..
  · rfl
theorem State.undelivered_takeOne (s : State) (q : Option (Nat × Nat)) (n : Nat) (x : Whole) : ((s.owe q n).arrive x).undelivered = s.undelivered := by
  have ho : (s.owe q n).undelivered = s.undelivered := by
    unfold State.owe
    split <;> rfl
  rw [← ho]
  unfold State.arrive
  simp only
  split
  · exact State.undelivered_arriveAck ..
  · exact State.undelivered_arriveFragment ..
/-- The fragments for a launch that have arrived. -/
@[simp] theorem State.undelivered_takeFor (s : State) (p lid : Nat) : (s.takeFor p lid).undelivered = s.undelivered :=
  State.undelivered_foldl (f := fun (s : State) (x : Nat × Whole) => (s.owe (some (x.1, x.2.vc)) x.2.n).arrive x.2) (fun _ _ => State.undelivered_takeOne ..) _ _
@[simp] theorem State.mem_takeFor (s : State) (p lid : Nat) : (s.takeFor p lid).mem = s.mem := congrArg (fun u : State × List TaskId => u.1.mem) (s.undelivered_takeFor p lid)
@[simp] theorem State.taskIds_takeFor (s : State) (p lid : Nat) : (s.takeFor p lid).taskIds = s.taskIds := congrArg Prod.snd (s.undelivered_takeFor p lid)

/-! ## Deferred values of the slot table (03 R58) -/

/-- A projection that the slot table, the marks on tasks, free bits and the management core are no part of. -/
theorem State.applyDeferred_proj {β : Type} (g : State → β)
    (h : ∀ (s : State) t f m, g { s with slotTable := t, free := f, mgmt := m } = g s) (hm : ∀ (s : State) c, g (s.markLost c) = g s) (s : State) :
    g s.applyDeferred = g s := by
  refine State.foldl_proj g (fun s d => ?_) _ s
  split
  · rfl
  · refine (State.putEntry_proj g (fun s f m => h s s.slotTable f m) _ _ _ _).trans ((hm _ _).trans ?_)
    exact h s _ s.free _
@[simp] theorem State.mem_applyDeferred (s : State) : s.applyDeferred.mem = s.mem := State.applyDeferred_proj State.mem (fun _ _ _ _ => rfl) (fun _ _ => rfl) s
@[simp] theorem State.cores_applyDeferred (s : State) : s.applyDeferred.cores = s.cores :=
  State.applyDeferred_proj State.cores (fun _ _ _ _ => rfl) (fun _ _ => rfl) s
@[simp] theorem State.parts_applyDeferred (s : State) : s.applyDeferred.parts = s.parts :=
  State.applyDeferred_proj State.parts (fun _ _ _ _ => rfl) (fun _ _ => rfl) s
/-- What a task keeps as it is marked for pre-emption, it keeps as deferred values take effect. -/
theorem State.task?_applyDeferred {β : Type} (g : Task → β) (hg : ∀ (x : Task) b, g { x with mustGo := b } = g x) (s : State) (i : TaskId) :
    (s.applyDeferred.task? i).map g = (s.task? i).map g := by
  refine State.applyDeferred_proj (fun s => (s.task? i).map g) (fun _ _ _ _ => rfl) (fun s c => ?_) s
  rw [State.markLost_eq, State.task?_map _ _ (State.id_lost s c), Option.map_map]
  congr 1
  funext x
  show g (s.lost c x) = g x
  unfold State.lost
  split
  · split
    · exact hg x true
    · rfl
  · split
    · exact hg x true
    · rfl
  · rfl

/-! ## Clearing cores (02 R49, 15 R276) -/

theorem State.spWrites_proj {β : Type} (g : State → β) (c : Nat) (hw : ∀ s off bs, g (State.spWrite s c off bs) = g s) (cs : List Host.Cell) (s : State) :
    g (cs.foldl (fun s x => s.spWrite c x.1 [x.2]) s) = g s := by
  induction cs generalizing s with
  | nil => rfl
  | cons x r ih => exact (ih _).trans (hw s x.1 [x.2])
/-- A projection that the scratchpad of a core and the posted queue are no part of: what is posted for the core lands there. -/
theorem State.landPosted_proj {β : Type} (g : State → β) (c : Nat) (hw : ∀ s off bs, g (State.spWrite s c off bs) = g s)
    (hp : ∀ (s : State) q, g { s with posted := q } = g s) (s : State) : g (s.landPosted c) = g s := by
  unfold State.landPosted
  refine (State.foldl_proj_mem g _ (fun s w hw' => ?_) _).trans (hp s _)
  obtain ⟨_, hm⟩ := List.mem_filter.1 hw'
  simp only [Bool.and_eq_true, beq_iff_eq, Option.isNone_iff_eq_none] at hm
  rw [State.postedWrite_sp s w c hm.1 hm.2]
  exact State.spWrites_proj g c hw w.cells s
/-- Of the partitions only what they keep for slot 7 of the cleared core goes. -/
def State.forgetCore (s : State) (c : Nat) : State := { s with parts := s.parts.map fun (e : Nat × Partition) => (e.1, e.2.forget c) }
def Core.cleared (p : Nat) (k : Core) : Core :=
  { k with threads := [], task := none, lastPart := some p, tiles := [], tiles0 := [], inbox := [], land := [], queue := [], bank0 := none,
           bank1 := none, observed := [] }
theorem State.clearCore_eq (s : State) (c p : Nat) : s.clearCore c p = ((s.landPosted c).forgetCore c).updCore c (Core.cleared p) := rfl
@[simp] theorem State.mem_clearCore (s : State) (c p : Nat) : (s.clearCore c p).mem = s.mem :=
  State.landPosted_proj State.mem c (fun s off bs => State.spWrite_mem s c off bs) (fun _ _ => rfl) s
@[simp] theorem State.tasks_clearCore (s : State) (c p : Nat) : (s.clearCore c p).tasks = s.tasks :=
  State.landPosted_proj State.tasks c (fun _ _ _ => rfl) (fun _ _ => rfl) s
theorem State.core_clearCore_ne (s : State) (p : Nat) {c d : Nat} (h : d ≠ c) : (s.clearCore c p).core d = s.core d :=
  (State.core_updCore_ne ((s.landPosted c).forgetCore c) (Core.cleared p) h).trans
    (State.landPosted_proj (State.core · d) c (fun s off bs => s.spWrite_core_ne off bs h) (fun _ _ => rfl) s)
theorem State.task_clearCore (s : State) (c p : Nat) : let k := (s.clearCore c p).core c
    (k.task, k.threads) = (none, []) := by
  rw [State.clearCore_eq, State.core_updCore]
  rfl
/-- Every core of a list is cleared. -/
def State.clearCores (s : State) (cs : List Nat) (p : Nat) : State := cs.foldl (fun (s : State) c => s.clearCore c p) s
theorem State.core_clearCores (s : State) (cs : List Nat) (p : Nat) {c : Nat} (h : c ∈ cs) :
    ((s.clearCores cs p).core c).task = none ∧ ((s.clearCores cs p).core c).threads = [] := by
  have ht := State.core_foldl_eq (fun k => (k.task, k.threads)) (none, []) (fun s c => State.task_clearCore s c p) (fun s c d h => s.core_clearCore_ne p h) cs s c h
  exact ⟨congrArg Prod.fst ht, congrArg Prod.snd ht⟩
theorem State.mem_clearCores (s : State) (cs : List Nat) (p : Nat) : (s.clearCores cs p).mem = s.mem :=
  State.foldl_proj State.mem (fun s c => s.mem_clearCore c p) cs s
theorem State.tasks_clearCores (s : State) (cs : List Nat) (p : Nat) : (s.clearCores cs p).tasks = s.tasks :=
  State.foldl_proj State.tasks (fun s c => s.tasks_clearCore c p) cs s

end Sys2Proof.Machine
end

section
/-! SUPPORT. Where a task comes to its cores, and how it leaves them: dispatch, the order of a launch's tasks, retirement, pre-emption (03 R51, R55, R60, 22 R362). -/

namespace Sys2Proof.Machine

/-! ## Tasks and cores as virtual time goes on -/

@[simp] theorem State.cores_vtJoin (s : State) : s.vtJoin.cores = s.cores := State.vtJoin_proj State.cores (fun _ _ _ _ => rfl) s
@[simp] theorem State.core_vtJoin (s : State) (c : Nat) : s.vtJoin.core c = s.core c := by rw [State.core, State.cores_vtJoin]; rfl
@[simp] theorem State.core_applyDeferred (s : State) (c : Nat) : s.applyDeferred.core c = s.core c := by rw [State.core, State.cores_applyDeferred]; rfl
@[simp] theorem State.task?_vtJoin (s : State) (i : TaskId) : s.vtJoin.task? i = s.task? i := by rw [State.task?, State.tasks_vtJoin]; rfl
@[simp] theorem State.launch?_vtJoin (s : State) (p lid : Nat) : s.vtJoin.launch? p lid = s.launch? p lid := by rw [State.launch?, State.launches_vtJoin]; rfl
/-- A task is found where its name is among the names of the tasks. -/
theorem State.isSome_task? (s : State) (i : TaskId) : (s.task? i).isSome = true ↔ i ∈ s.taskIds := by
  simp [State.task?, State.taskIds, List.find?_isSome]
theorem State.task?_of_taskIds {s t : State} (h : t.taskIds = s.taskIds) {i : TaskId} {x : Task} (hx : s.task? i = some x) : ∃ y, t.task? i = some y := by
  refine Option.isSome_iff_exists.1 ((t.isSome_task? i).2 ?_)
  rw [h]
  exact (s.isSome_task? i).1 (by rw [hx]; rfl)

/-! ## The cores of a block -/

theorem nodup_blockCores (cl b0 n : Nat) : (blockCores cl b0 n).Pairwise fun a b => a ≠ b :=
  List.pairwise_map.2 ((List.nodup_range).imp fun h e => h (Nat.add_left_cancel e))
theorem nodup_blockOfTask (s : State) (x : Task) : (s.blockOfTask x).Pairwise fun a b => a ≠ b := by
  unfold State.blockOfTask
  split
  · exact nodup_blockCores ..
  · exact nodup_blockCores ..
  · exact nodup_blockCores ..
  · exact List.Pairwise.nil
theorem mem_blockCores {cl b0 n b : Nat} (h : b < n) : 8 * cl + b0 + b ∈ blockCores cl b0 n := List.mem_map.2 ⟨b, List.mem_range.2 h, rfl⟩

/-! ## The order of a launch's tasks (03 R60, R62) -/

theorem leastOf_eq_min? (l : List Nat) : leastOf l = l.min? := by cases l <;> rfl
theorem leastOf_eq_some {l : List Nat} {i : Nat} (hi : i ∈ l) (h : ∀ j ∈ l, i ≤ j) : leastOf l = some i := by
  rw [leastOf_eq_min?]
  exact List.min?_eq_some_iff.2 ⟨hi, h⟩
theorem State.displaced_iff (s : State) (l : Launch) (i : Nat) :
    s.displaced l i = true ↔ ((s.task? ⟨l.part, l.lid, i⟩).map fun t => t.mustGo) = some true := by
  unfold State.displaced
  cases (s.task? ⟨l.part, l.lid, i⟩).map fun t => t.mustGo <;> simp
/-- Once all tasks are dispatched the pre-empted ones go on. -/
theorem State.nextTask_dispatched (s : State) (l : Launch) (h : l.last ≤ l.next) : s.nextTask l = leastOf l.preempted := if_neg (Nat.not_lt.2 h)
/-- The pre-empted tasks that come before the undispatched ones. -/
def State.resumable (s : State) (l : Launch) : List Nat := l.preempted.filter fun i => !s.aheadOfRidge l i || s.displaced l i
theorem State.nextTask_undispatched (s : State) (l : Launch) (h : l.next < l.last) : s.nextTask l = some ((leastOf (s.resumable l)).getD l.next) := if_pos h
theorem State.mem_resumable (s : State) (l : Launch) (i : Nat) : i ∈ s.resumable l ↔
    i ∈ l.preempted ∧ (s.aheadOfRidge l i = false ∨ ((s.task? ⟨l.part, l.lid, i⟩).map fun t => t.mustGo) = some true) := by
  rw [State.resumable, List.mem_filter, Bool.or_eq_true, Bool.not_eq_true', State.displaced_iff]

/-! ## Dispatch (03 R55) -/

/-- A projection that device memory and partitions are no part of. -/
theorem State.writeRecord_proj {β : Type} (g : State → β) (ha : ∀ s : State, g s.apart = g s) (hp : ∀ s p x, g (State.setPart s p x) = g s)
    (s : State) (l : Launch) : g (s.writeRecord l) = g s := by
  have hw (a : Nat) : g (s.cpWrite l.part a l.bytes).1 = g s := by rw [← ha, State.apart_cpWrite, ha]
  obtain h | ⟨_, _, _, h⟩ := s.writeRecord_cases l
  · rw [h, hw]
  · rw [h, State.faultLog, hp, hw]
theorem State.setRunning_proj {β : Type} (g : State → β) (ha : ∀ s : State, g s.apart = g s) (hp : ∀ s p x, g (State.setPart s p x) = g s)
    (hl : ∀ s p lid f, g (State.updLaunch s p lid f) = g s) (s : State) (l : Launch) : g (s.setRunning l) = g s := by
  unfold State.setRunning
  split
  · rfl
  · rw [← hl s l.part l.lid fun x => { x with state := .running, tolran := s.depsTolerated l }]
    show g (State.recordOf _ _ _) = _
    unfold State.recordOf
    split
    · exact State.writeRecord_proj g ha hp _ _
    · rfl
theorem State.setRunning_of_running (s : State) (l : Launch) (h : l.state = .running) : s.setRunning l = s := if_pos h
/-- A launch that was not running is. -/
theorem State.state_setRunning (s : State) (l : Launch) (h : l.state ≠ .running) : ∀ x ∈ (s.setRunning l).launches, x.part = l.part → x.lid = l.lid →
    x.state = .running := by
  have hl : (s.setRunning l).launches = (s.updLaunch l.part l.lid fun x => { x with state := .running, tolran := s.depsTolerated l }).launches := by
    unfold State.setRunning State.recordOf
    rw [if_neg h]
    simp only
    split
    · exact State.launches_writeRecord ..
    · rfl
  intro x hx hp hlid
  rw [hl] at hx
  obtain ⟨y, _, rfl⟩ := List.mem_map.1 hx
  split at hp
  · rename_i hy; rw [if_pos hy]
  · rename_i hy; rw [if_neg hy] at hlid; exact absurd ⟨hp, hlid⟩ hy

/-- Core `b` of the block of a task that is placed for the first time. -/
def Core.started (l : Launch) (sp : Nat) (id : TaskId) (b settle : Nat) (k : Core) : Core :=
  { freshFor sp l.part b id k with
    threads := (List.range l.kernel.slots).map fun j => (j, { startThread l with settle := settle }), tiles := startTiles l.kernel, tiles0 := startTiles l.kernel }
/-- What engines wrote to a core has landed, and its poisoned words go where the scratchpad does not keep its bytes. -/
def State.vacated (s : State) (p sp c : Nat) : State :=
  let s := s.landLateAt c
  if (s.core c).sp != sp || (s.core c).lastPart != some p then { s with sramPoison := s.sramPoison.filter (·.1 != c) } else s
def State.startCore (l : Launch) (sp : Nat) (id : TaskId) (s : State) (e : Nat × Nat) : State :=
  (s.vacated l.part sp e.2).updCore e.2 (Core.started l sp id e.1 (s.vacated l.part sp e.2).postedEnd)
theorem State.vacated_proj {β : Type} (g : State → β) (hc : ∀ s c f, g (State.updCore s c f) = g s) (hp : ∀ (s : State) l, g { s with sramPoison := l } = g s)
    (s : State) (p sp c : Nat) : g (s.vacated p sp c) = g s := by
  have hl : g (s.landLateAt c) = g s := (hc ..).trans (hp s _)
  unfold State.vacated
  simp only
  split
  · exact (hp ..).trans hl
  · exact hl
theorem State.startCore_proj {β : Type} (g : State → β) (hc : ∀ s c f, g (State.updCore s c f) = g s) (hp : ∀ (s : State) l, g { s with sramPoison := l } = g s)
    (l : Launch) (sp : Nat) (id : TaskId) (s : State) (e : Nat × Nat) : g (s.startCore l sp id e) = g s :=
  (hc ..).trans (State.vacated_proj g hc hp s l.part sp e.2)
theorem State.core_startCore_ne (l : Launch) (sp : Nat) (id : TaskId) (s : State) (e : Nat × Nat) (c : Nat) (h : c ≠ e.2) :
    (s.startCore l sp id e).core c = s.core c := by
  refine (State.core_updCore_ne _ _ h).trans ?_
  have hl : (s.landLateAt e.2).core c = s.core c := State.core_updCore_ne _ _ h
  unfold State.vacated
  simp only
  split
  · exact hl
  · exact hl
/-- The state in which a task that is dispatched has its cores. -/
def State.started (s : State) (l : Launch) (cl b0 : Nat) (id : TaskId) : State :=
  (((List.range l.kernel.block).zip (blockCores cl b0 l.kernel.block)).foldl (State.startCore l (s.spOf l) id) (s.dropFetch cl (blockCores cl b0 l.kernel.block)))
/-- A task before it has run. -/
def Task.fresh (id : TaskId) (cl b0 : Nat) : Task :=
  { id := id, place := .resident cl b0, phase := 0, barriers := [], wq := .reset, arrived := [], onames := [], znames := [], ae := 0, ae0 := 0, faulted := false,
    image := none, held := ([], []), acqPhase := false, mustGo := false, stealing := [] }
theorem State.placeNew_eq (s : State) (l : Launch) (cl b0 i : Nat) : s.placeNew l cl b0 i =
    let u := s.started l cl b0 ⟨l.part, l.lid, i⟩
    { u with tasks := u.tasks ++ [.fresh ⟨l.part, l.lid, i⟩ cl b0] } := rfl
theorem State.started_proj {β : Type} (g : State → β) (hc : ∀ s c f, g (State.updCore s c f) = g s) (hp : ∀ (s : State) l, g { s with sramPoison := l } = g s)
    (hk : ∀ s c f, g (State.updCluster s c f) = g s) (s : State) (l : Launch) (cl b0 : Nat) (id : TaskId) : g (s.started l cl b0 id) = g s :=
  (State.foldl_proj g (State.startCore_proj g hc hp l _ id) _ _).trans (hk ..)
theorem zip_blockCores (cl b0 n : Nat) : (List.range n).zip (blockCores cl b0 n) = (List.range n).map fun b => (b, 8 * cl + b0 + b) := by
  have h := List.zip_map' (l := List.range n) (f := id) (g := fun b => 8 * cl + b0 + b)
  rwa [List.map_id] at h
theorem State.core_started (s : State) (l : Launch) (cl b0 : Nat) (id : TaskId) {b : Nat} (hb : b < l.kernel.block) :
    ∃ k, (s.started l cl b0 id).core (8 * cl + b0 + b) = Core.started l (s.spOf l) id b s.postedEnd k := by
  have hl : ((List.range l.kernel.block).map fun b => (b, 8 * cl + b0 + b)).Pairwise fun a b : Nat × Nat => a.2 ≠ b.2 :=
    List.pairwise_map.2 ((List.nodup_range).imp fun h e => h (Nat.add_left_cancel e))
  obtain ⟨u, hu, _, hc⟩ := State.core_foldl Prod.snd State.posted (State.startCore_proj State.posted (fun _ _ _ => rfl) (fun _ _ => rfl) l (s.spOf l) id)
    (State.core_startCore_ne l (s.spOf l) id) _ hl (s.dropFetch cl (blockCores cl b0 l.kernel.block)) (b, 8 * cl + b0 + b) (List.mem_map.2 ⟨b, List.mem_range.2 hb, rfl⟩)
  rw [State.started, zip_blockCores]
  refine ⟨(u.vacated l.part (s.spOf l) (8 * cl + b0 + b)).core (8 * cl + b0 + b), hc.trans ?_⟩
  rw [State.startCore, State.core_updCore, State.postedEnd, State.vacated_proj State.posted (fun _ _ _ => rfl) (fun _ _ => rfl), hu]
  rfl

section
variable {c : ClusterN} {b0 : Fin 8} {s : State}

theorem exec_dispatchTask_none (h : s.vtJoin.postStalls.chosen = none) : exec (.dispatchTask c b0) s = .next s.vtJoin.postStalls := by
  show execDispatchTask c b0 s = _
  unfold execDispatchTask
  simp only [h]
/-- The state in which the next task of a launch has been placed. -/
def State.dispatched (u : State) (l : Launch) (cl b0 : Nat) : State :=
  ((u.setRunning l).placeNew l cl b0 l.next).updLaunch l.part l.lid fun x => { x.take cl b0 with next := x.next + 1 }
theorem exec_dispatchTask {u : State} (hu : s.vtJoin.postStalls = u) {l : Launch} (hc : u.chosen = some l) (hn : u.nextAt l c.val b0.val = some l.next)
    (hl : l.next < l.last) (hf : u.fitsNext l c.val b0.val = true) : exec (.dispatchTask c b0) s = .next (u.dispatched l c.val b0.val) := by
  show execDispatchTask c b0 s = _
  unfold execDispatchTask
  simp only [hu, hc, hn, hl, hf]
  exact if_neg (by simp)
end
theorem State.mem_dispatched (u : State) (l : Launch) (cl b0 : Nat) (h : l.state = .running) : (u.dispatched l cl b0).mem = u.mem := by
  rw [State.dispatched, State.setRunning_of_running u l h]
  exact State.started_proj State.mem (fun _ _ _ => rfl) (fun _ _ => rfl) (fun _ _ _ => rfl) u l cl b0 _
theorem State.state_dispatched (u : State) (l : Launch) (cl b0 : Nat) (h : l.state ≠ .running) : ∀ x ∈ (u.dispatched l cl b0).launches, x.part = l.part → x.lid = l.lid →
    x.state = .running := by
  have hs : ((u.setRunning l).placeNew l cl b0 l.next).launches = (u.setRunning l).launches :=
    State.started_proj State.launches (fun _ _ _ => rfl) (fun _ _ => rfl) (fun _ _ _ => rfl) _ l cl b0 _
  intro x hx hp hlid
  obtain ⟨y, hy, rfl⟩ := List.mem_map.1 hx
  rw [hs] at hy
  split at hp
  · rename_i h'
    rw [if_pos h']
    exact u.state_setRunning l h y hy h'.1 h'.2
  · rename_i h'
    rw [if_neg h'] at hlid ⊢
    exact u.state_setRunning l h y hy hp hlid
theorem State.place_dispatched (u : State) (l : Launch) (cl b0 : Nat) (h : u.task? ⟨l.part, l.lid, l.next⟩ = none) :
    ((u.dispatched l cl b0).task? ⟨l.part, l.lid, l.next⟩).map (fun k => k.place) = some (.resident cl b0) := by
  have ht : (u.dispatched l cl b0).tasks = u.tasks ++ [.fresh ⟨l.part, l.lid, l.next⟩ cl b0] := by
    rw [State.dispatched, State.placeNew_eq]
    show ((u.setRunning l).started l cl b0 _).tasks ++ _ = _
    rw [State.started_proj State.tasks (fun _ _ _ => rfl) (fun _ _ => rfl) (fun _ _ _ => rfl),
      State.setRunning_proj State.tasks (fun _ => rfl) (fun _ _ _ => rfl) (fun _ _ _ _ => rfl)]
  unfold State.task? at h ⊢
  rw [ht, List.find?_append, h]
  simp [Task.fresh]
theorem State.core_dispatched (u : State) (l : Launch) (cl b0 : Nat) {b : Nat} (hb : b < l.kernel.block) :
    ∃ sp k, (u.dispatched l cl b0).core (8 * cl + b0 + b) = Core.started l sp ⟨l.part, l.lid, l.next⟩ b u.postedEnd k := by
  obtain ⟨k, hk⟩ := (u.setRunning l).core_started l cl b0 ⟨l.part, l.lid, l.next⟩ hb
  refine ⟨(u.setRunning l).spOf l, k, ?_⟩
  have hp := State.setRunning_proj State.postedEnd (fun _ => rfl) (fun _ _ _ => rfl) (fun _ _ _ _ => rfl) u l
  rw [← hp]
  exact hk
theorem State.thr_dispatched (u : State) (l : Launch) (cl b0 : Nat) {b j : Nat} (hb : b < l.kernel.block) (hj : j < l.kernel.slots) :
    (u.dispatched l cl b0).thr ⟨8 * cl + b0 + b, j⟩ = { startThread l with settle := u.postedEnd } := by
  obtain ⟨sp, k, hk⟩ := u.core_dispatched l cl b0 hb
  rw [State.thr, hk]
  exact Tab.getD_range (fun _ => { startThread l with settle := u.postedEnd }) _ hj

/-! ## Retirement (03 R51) -/

def Task.gone (x : Task) : Task := { x with place := .retired, onames := [], znames := [] }
/-- The state in which a task has retired, before deferred values of the slot table take effect. -/
def State.retireTask (s : State) (k : TaskId) (x : Task) (cl : Nat) : State :=
  ((((s.takeFor k.part k.lid).freeNames x cl).clearCores (s.blockOfTask x) k.part).dropMessages k).updTask k Task.gone
theorem exec_taskRetire {k : TaskId} {s : State} {x : Task} {cl b : Nat} (hx : s.task? k = some x) (hp : x.place = .resident cl b) :
    exec (.taskRetire k) s = .next (if s.mayRetire x cl then (s.retireTask k x cl).applyDeferred.vtJoin else s) := by
  show execTaskRetire k s = _
  unfold execTaskRetire
  simp only [hx, hp]
  split <;> rfl
theorem State.taskIds_clearCores (s : State) (cs : List Nat) (p : Nat) : (s.clearCores cs p).taskIds = s.taskIds := by
  rw [State.taskIds, State.tasks_clearCores]; rfl
theorem State.mem_retireTask (s : State) (k : TaskId) (x : Task) (cl : Nat) : (s.retireTask k x cl).mem = s.mem :=
  (State.mem_clearCores ((s.takeFor k.part k.lid).freeNames x cl) _ _).trans (s.mem_takeFor k.part k.lid)
theorem State.core_retireTask (s : State) (k : TaskId) (x : Task) (cl : Nat) {c : Nat} (h : c ∈ s.blockOfTask x) :
    ((s.retireTask k x cl).core c).task = none ∧ ((s.retireTask k x cl).core c).threads = [] :=
  State.core_clearCores ((s.takeFor k.part k.lid).freeNames x cl) _ _ h
theorem State.place_retireTask (s : State) (k : TaskId) (x : Task) (cl : Nat) (hx : s.task? k = some x) :
    ((s.retireTask k x cl).task? k).map (fun y => y.place) = some .retired := by
  have ht : ((((s.takeFor k.part k.lid).freeNames x cl).clearCores (s.blockOfTask x) k.part).dropMessages k).taskIds = s.taskIds :=
    (State.taskIds_clearCores ((s.takeFor k.part k.lid).freeNames x cl) _ _).trans (s.taskIds_takeFor k.part k.lid)
  obtain ⟨y, hy⟩ := State.task?_of_taskIds ht hx
  rw [State.retireTask, State.task?_updTask _ _ _ (by exact fun _ => rfl), hy]
  rfl

/-! ## Pre-emption (22 R362, R372) -/

theorem exec_preemptTask {k : TaskId} {s : State} {x : Task} {l : Launch} {cl b : Nat} (hx : s.task? k = some x) (hp : x.place = .resident cl b)
    (hl : s.launchOf x = some l) : exec (.preemptTask k) s = .next (if x.mustGo || s.stallVictim l == some k.idx then s.preempt x cl b else s) := by
  show execPreemptTask k s = _
  unfold execPreemptTask
  simp only [hx, hp, hl]
  split <;> rfl
/-- Only a reproducible launch gives up a task for another. -/
theorem State.stallVictim_of_plain (s : State) (l : Launch) (h : l.repro = false) : s.stallVictim l = none := by
  unfold State.stallVictim
  split
  · rfl
  · simp [h]
/-- A core has read the control block of the partition whose task leaves it. -/
def State.latchCore (p : Nat) (s : State) (c : Nat) : State := s.updCore c fun k => { k with spill := k.spill.latch (s.part p).scb }
theorem State.preempt_eq (s : State) (x : Task) (cl b0 : Nat) : ∃ k held, s.preempt x cl b0 =
    ((s.blockOfTask x).foldl (State.latchCore x.id.part) (s.setCluster cl k)).updTask x.id fun x => { x with place := .leaving cl b0, held := held } :=
  ⟨_, _, rfl⟩
theorem State.mem_preempt (s : State) (x : Task) (cl b0 : Nat) : (s.preempt x cl b0).mem = s.mem := by
  obtain ⟨k, held, h⟩ := s.preempt_eq x cl b0
  rw [h]
  exact State.foldl_proj (f := State.latchCore x.id.part) State.mem (fun _ _ => rfl) _ (s.setCluster cl k)
theorem State.threads_preempt (s : State) (x : Task) (cl b0 c : Nat) : ((s.preempt x cl b0).core c).threads = (s.core c).threads := by
  obtain ⟨k, held, h⟩ := s.preempt_eq x cl b0
  rw [h]
  refine State.foldl_proj (f := State.latchCore x.id.part) (fun s => (s.core c).threads) (fun s d => ?_) _ (s.setCluster cl k)
  exact State.core_updCore_proj Core.threads s d c (fun k => { k with spill := k.spill.latch (s.part x.id.part).scb }) fun _ => rfl
theorem State.spill_preempt (s : State) (x : Task) (cl b0 : Nat) {c : Nat} (hc : c ∈ s.blockOfTask x) :
    ((s.preempt x cl b0).core c).spill = (s.core c).spill.latch (s.part x.id.part).scb := by
  obtain ⟨k, held, h⟩ := s.preempt_eq x cl b0
  obtain ⟨u, hp, hu, hf⟩ := State.core_foldl (f := State.latchCore x.id.part) id State.parts (fun _ _ => rfl)
    (fun s a c h => State.core_updCore_ne s _ h) _ (nodup_blockOfTask s x) (s.setCluster cl k) c hc
  rw [h]
  refine (congrArg Core.spill hf).trans ?_
  rw [State.latchCore, id, State.core_updCore]
  show (u.core (id c)).spill.latch (u.part x.id.part).scb = _
  rw [hu, State.part, hp]
  rfl
theorem State.place_preempt (s : State) (x : Task) (cl b0 : Nat) {y : Task} (hx : s.task? x.id = some y) :
    ((s.preempt x cl b0).task? x.id).map (fun y => y.place) = some (.leaving cl b0) := by
  obtain ⟨k, held, h⟩ := s.preempt_eq x cl b0
  have ht : ((s.blockOfTask x).foldl (State.latchCore x.id.part) (s.setCluster cl k)).task? x.id = s.task? x.id :=
    State.foldl_proj (f := State.latchCore x.id.part) (State.task? · x.id) (fun _ _ => rfl) _ (s.setCluster cl k)
  rw [h, State.task?_updTask _ _ _ (by exact fun _ => rfl), ht, hx]
  rfl

end Sys2Proof.Machine
end

section
/-! SUPPORT. A task that is spilled: its save, its image, and how the spill stops or ends (22 R372 to R376). -/

namespace Sys2Proof.Machine

/-! ## Spill status (22 R373) -/

/-- Every core that shows the spill of a task shows the new status. -/
def Core.respilled (t : Option TaskId) (x : Spill) (k : Core) : Core := if k.spill.state != 0 && k.spill.task = t then { k with spill := x } else k
theorem State.core_setSpill (s : State) (t : Option TaskId) (x : Spill) (c : Nat) : (s.setSpill t x).core c = (s.core c).respilled t x := by
  refine Tab.getD_map_at _ (Core.respilled t x) c .reset (fun e => ?_) (fun k => ?_) rfl s.cores
  · split <;> rfl
  · unfold Core.respilled
    split <;> rfl
theorem State.spill_setSpill (s : State) {t : Option TaskId} (x : Spill) {c : Nat} (hs : (s.core c).spill.state ≠ 0) (ht : (s.core c).spill.task = t) :
    ((s.setSpill t x).core c).spill = x := by
  rw [State.core_setSpill, Core.respilled, if_pos (by simp [hs, ht])]
theorem State.part_setSpill (s : State) (t : Option TaskId) (x : Spill) (p : Nat) : (s.setSpill t x).part p = s.part p := rfl
theorem State.task?_setSpill (s : State) (t : Option TaskId) (x : Spill) (i : TaskId) : (s.setSpill t x).task? i = s.task? i := rfl
theorem State.beginSpill_proj {β : Type} (g : State → β) (hc : ∀ s c f, g (State.updCore s c f) = g s) (s : State) (cs : List Nat) (x : Spill) :
    g (s.beginSpill cs x) = g s := State.foldl_proj g (fun s c => hc s c _) cs s
theorem State.spill_beginSpill (s : State) {cs : List Nat} (x : Spill) {c : Nat} (h : c ∈ cs) : ((s.beginSpill cs x).core c).spill = x :=
  State.core_foldl_eq Core.spill x (fun s c => by rw [State.core_updCore]) (fun s c d h => State.core_updCore_ne s _ h) cs s c h
theorem State.threads_beginSpill (s : State) (cs : List Nat) (x : Spill) (c : Nat) : ((s.beginSpill cs x).core c).threads = (s.core c).threads :=
  State.foldl_proj (fun s => (s.core c).threads) (fun s d => State.core_updCore_proj Core.threads s d c (fun k => { k with spill := x }) fun _ => rfl) cs s

/-! ## Saving a task (22 R374) -/

/-- What engines wrote in the cycle to the cores of a task has landed. -/
def State.landed (s : State) (cs : List Nat) : State :=
  cs.foldl (fun (s : State) c => s.updCore c fun k => k.landLate.landCtab) { s with sramPoison := cs.foldl (fun l c => latePoison c (s.core c) l) s.sramPoison }
theorem State.landed_proj {β : Type} (g : State → β) (hc : ∀ s c f, g (State.updCore s c f) = g s) (hp : ∀ (s : State) l, g { s with sramPoison := l } = g s)
    (s : State) (cs : List Nat) : g (s.landed cs) = g s :=
  (State.foldl_proj g (fun s c => hc s c fun k => k.landLate.landCtab) cs _).trans (hp s _)
theorem State.settle_of_empty (s : State) (n : Nat) (h : s.posted = []) : s.settle n = s := by
  unfold State.settle
  simp only [h, List.filter_nil, List.foldl_nil]
  rw [← h]
def Task.imaged (i : Image) (x : Task) : Task := { x with image := some i, held := ([], []) }
theorem State.saveTask_eq (s : State) (x : Task) (cl b0 va : Nat) : ∃ n k m l i, s.saveTask x cl b0 va =
    (({ ((s.landed (s.blockOfTask x)).settle n).setCluster cl k with free := m, sramPoison := l } : State).clearCores (s.blockOfTask x) x.id.part).updTask x.id
      (Task.imaged i) := ⟨_, _, _, _, _, rfl⟩

section
variable {s : State} (x : Task) (cl b0 va : Nat) (hp : s.posted = [])
include hp

theorem State.saveTask_quiet : ∃ k m l i, s.saveTask x cl b0 va =
    (({ (s.landed (s.blockOfTask x)).setCluster cl k with free := m, sramPoison := l } : State).clearCores (s.blockOfTask x) x.id.part).updTask x.id
      (Task.imaged i) := by
  obtain ⟨n, k, m, l, i, h⟩ := s.saveTask_eq x cl b0 va
  rw [State.settle_of_empty _ n ((State.landed_proj State.posted (fun _ _ _ => rfl) (fun _ _ => rfl) s _).trans hp)] at h
  exact ⟨k, m, l, i, h⟩
theorem State.mem_saveTask : (s.saveTask x cl b0 va).mem = s.mem := by
  obtain ⟨k, m, l, i, h⟩ := State.saveTask_quiet x cl b0 va hp
  rw [h]
  refine (State.mem_clearCores { (s.landed (s.blockOfTask x)).setCluster cl k with free := m, sramPoison := l } _ _).trans ?_
  exact State.landed_proj State.mem (fun _ _ _ => rfl) (fun _ _ => rfl) s _
theorem State.image_saveTask {y : Task} (hy : s.task? x.id = some y) : ∃ i, ((s.saveTask x cl b0 va).task? x.id) = some (y.imaged i) := by
  obtain ⟨k, m, l, i, h⟩ := State.saveTask_quiet x cl b0 va hp
  refine ⟨i, ?_⟩
  rw [h, State.task?_updTask _ _ _ (by exact fun _ => rfl), State.task?, State.tasks_clearCores]
  have ht : (s.landed (s.blockOfTask x)).tasks = s.tasks := State.landed_proj State.tasks (fun _ _ _ => rfl) (fun _ _ => rfl) s _
  show ((s.landed (s.blockOfTask x)).tasks.find? _).map _ = _
  rw [ht]
  exact congrArg (Option.map (Task.imaged i)) hy
theorem State.threads_saveTask {c : Nat} (h : c ∈ s.blockOfTask x) : ((s.saveTask x cl b0 va).core c).threads = [] := by
  obtain ⟨k, m, l, i, he⟩ := State.saveTask_quiet x cl b0 va hp
  rw [he]
  exact (State.core_clearCores { (s.landed (s.blockOfTask x)).setCluster cl k with free := m, sramPoison := l } _ _ h).2
end

/-! ## The start of a spill -/

section
variable {k : TaskId} {s : State} {x : Task} {cl b : Nat} (hx : s.task? k = some x) (hp : x.place = .leaving cl b) (hi : x.image = none)
include hx hp hi

theorem exec_spillStart_unsettled (h : s.settled x cl = false) : exec (.spillStart k) s = .next s := by
  show execSpillStart k s = _
  unfold execSpillStart
  simp [hx, hp, hi, h]
/-- The status of a spill under way from the start of a frame. -/
def Spill.begun (x : Spill) (f : Nat) (k : TaskId) : Spill := { x with state := 1, cause := 0, frame := f, offset := 0, task := some k }
theorem exec_spillStart {f : Nat} (h : s.settled x cl = true) (hf : s.frameFor x cl b = some f) : exec (.spillStart k) s =
    .next (((s.saveTask x cl b ((s.spillAt cl b).frameAddr f 0)).updPart k.part fun p => { p with frames := addNew p.frames f }).beginSpill (s.blockOfTask x)
      ((s.spillAt cl b).begun f k)).vtJoin := by
  show execSpillStart k s = _
  unfold execSpillStart
  simp only [hx, hp, hi, h, hf]
  rfl
end

/-! ## A spill under way -/

theorem State.spillOf_some {s : State} {k : TaskId} {x : Task} {c : Nat} {sp : Spill} {i : Image} (h : s.spillOf k = some (x, c, sp, i)) :
    s.task? k = some x ∧ (s.core c).spill = sp ∧ x.image = some i := by
  unfold State.spillOf at h
  obtain ⟨y, hy, h⟩ := Option.bind_eq_some_iff.1 h
  split at h
  · rename_i hi
    obtain ⟨rfl, rfl, rfl, rfl⟩ := by simpa using h
    exact ⟨hy, rfl, hi⟩
  · cases h
theorem State.apart_writeParts (s : State) (p va stamp off fin : Nat) : (s.writeParts p va stamp off fin).apart = s.apart :=
  State.foldl_proj State.apart (fun s o => State.apart_cpWrite s p (va + o) _) _ s
theorem State.apart_cpAccess (s : State) (p : Nat) (k : Kind) (user : Bool) (a n : Nat) : (s.cpAccess p k user a n).2.apart = s.apart :=
  State.cpAccess_keeps (P := fun t => t.apart = s.apart) (fun t pa e h => (State.apart_l2Touch t pa e).trans h) s p k user a n rfl
/-- A state that differs in device memory and L2 alone. -/
theorem State.proj_of_apart {β : Type} (g : State → β) {s t : State} (h : t.apart = s.apart) (hg : ∀ s : State, g s.apart = g s := by exact fun _ => rfl) : g t = g s := by
  rw [← hg, h, hg]

section
variable {k : TaskId} {s : State} {x : Task} {c : Nat} {sp : Spill} {i : Image} (hs : s.spillOf k = some (x, c, sp, i))
include hs

theorem exec_spillStop_idle (h : sp.state ≠ 1) : exec (.spillStop k) s = .next s := by
  show execSpillStop k s = _
  unfold execSpillStop
  simp [hs, h]
theorem exec_spillEnd_idle (h : sp.state ≠ 1) : exec (.spillEnd k) s = .next s := by
  show execSpillEnd k s = _
  unfold execSpillEnd
  simp [hs, h]
/-- The status of a spill that has stopped at a part it may not write. -/
def Spill.stopped (x : Spill) (o : Nat) : Spill := { x with state := 2, cause := 0x90, offset := o }
/-- What a spill has written and read as it stops at part `o`. -/
def State.spilledTo (s : State) (k : TaskId) (i : Image) (off o : Nat) : State :=
  ((s.writeParts k.part i.va i.stamp off o).cpAccess k.part .store false (i.va + o) 4096).2
theorem exec_spillStop {o : Nat} (h : sp.state = 1) (hb : s.badPart k.part i.va sp.offset i.bytes = some o) : exec (.spillStop k) s =
    .next ((((s.spilledTo k i sp.offset o).setSpill (some k) (sp.stopped o)).spillRecord c (sp.stopped o) (w64 (i.va + o))).applyDeferred) := by
  show execSpillStop k s = _
  unfold execSpillStop
  simp only [hs, h, hb]
  rfl
theorem exec_spillEnd (h : sp.state = 1) (hb : s.badPart k.part i.va sp.offset i.bytes = none) : exec (.spillEnd k) s =
    .next ((((s.writeParts k.part i.va i.stamp sp.offset i.bytes).setSpill (some k) .reset).updTask k fun x => { x with place := .saved sp.frame }).updLaunch k.part k.lid
      fun l => { l with preempted := addNew l.preempted k.idx, kept := if x.mustGo then l.kept else addNew l.kept c }).vtJoin := by
  show execSpillEnd k s = _
  unfold execSpillEnd
  simp only [hs, h, hb]
  rfl
end
theorem State.apart_spilledTo (s : State) (k : TaskId) (i : Image) (off o : Nat) : (s.spilledTo k i off o).apart = s.apart :=
  (State.apart_cpAccess ..).trans (State.apart_writeParts ..)
/-- A record of a stop, where the partition takes records. -/
theorem State.spillRecord_enabled (s : State) (c : Nat) (sp : Spill) (addr : W64) {k : TaskId} (ht : sp.task = some k) (h : (s.part k.part).scb.en = true) :
    ∃ r, s.spillRecord c sp addr = s.updCore c fun k => { k with queue := k.queue ++ [r] } := by
  unfold State.spillRecord State.appendRec
  simp only [ht, Option.map_some, Option.getD_some]
  exact ⟨_, if_pos h⟩
theorem State.spillRecord_disabled (s : State) (c : Nat) (sp : Spill) (addr : W64) {k : TaskId} (ht : sp.task = some k) (h : (s.part k.part).scb.en = false) :
    s.spillRecord c sp addr = s.loseImage c sp.cause := by
  unfold State.spillRecord State.appendRec
  simp only [ht, Option.map_some, Option.getD_some]
  rw [if_neg (by simp [h]), if_pos trivial]
/-- A task whose image is lost faults. -/
theorem State.task?_loseImage (s : State) (c : Nat) (cause : Byte) {k : TaskId} {x : Task} (ht : (s.core c).spill.task = some k) (hx : s.task? k = some x) :
    ((s.loseImage c cause).task? k).map (fun y => (y.place, y.faulted)) = some (.retired, true) := by
  unfold State.loseImage
  simp only [ht]
  show ((((s.faultTask k cause).updTask k fun x => { x with place := .retired, image := none, onames := [], znames := [] }).task? k).map _) = _
  rw [State.task?_updTask _ _ _ (by exact fun _ => rfl)]
  show (((s.updTask k fun x => { x with faulted := true }).task? k).map _).map _ = _
  rw [State.task?_updTask _ _ _ (by exact fun _ => rfl), hx]
  rfl

section
variable {k : TaskId} {s : State} {x : Task} {c : Nat} {sp : Spill} {i : Image} (hs : s.spillOf k = some (x, c, sp, i)) (ht : sp.task = some k) (h1 : sp.state = 1)
include hs ht h1

theorem State.spill_stopped (o : Nat) : (((s.spilledTo k i sp.offset o).setSpill (some k) (sp.stopped o)).core c).spill = sp.stopped o := by
  obtain ⟨_, hc, _⟩ := State.spillOf_some hs
  have h : ((s.spilledTo k i sp.offset o).core c).spill = sp := (State.proj_of_apart (fun s => (s.core c).spill) (s.apart_spilledTo ..)).trans hc
  exact State.spill_setSpill _ _ (by rw [h, h1]; decide) (by rw [h, ht])
theorem State.spill_stop {o : Nat} (he : (s.part k.part).scb.en = true) :
    (((((s.spilledTo k i sp.offset o).setSpill (some k) (sp.stopped o)).spillRecord c (sp.stopped o) (w64 (i.va + o))).applyDeferred).core c).spill = sp.stopped o := by
  have hu := State.spill_stopped hs ht h1 o
  have he' : (((s.spilledTo k i sp.offset o).setSpill (some k) (sp.stopped o)).part k.part).scb.en = true := by
    rw [State.part_setSpill, State.proj_of_apart (fun s => (s.part k.part).scb.en) (s.apart_spilledTo k i sp.offset o), he]
  generalize (s.spilledTo k i sp.offset o).setSpill (some k) (sp.stopped o) = u at hu he'
  obtain ⟨r, hr⟩ := u.spillRecord_enabled c (sp.stopped o) (w64 (i.va + o)) ht he'
  rw [State.core_applyDeferred, hr, State.core_updCore]
  exact hu
theorem State.task?_stop {o : Nat} (he : (s.part k.part).scb.en = false) :
    (((((s.spilledTo k i sp.offset o).setSpill (some k) (sp.stopped o)).spillRecord c (sp.stopped o) (w64 (i.va + o))).applyDeferred).task? k).map
      (fun y => (y.place, y.faulted)) = some (.retired, true) := by
  have hu := State.spill_stopped hs ht h1 o
  have he' : (((s.spilledTo k i sp.offset o).setSpill (some k) (sp.stopped o)).part k.part).scb.en = false := by
    rw [State.part_setSpill, State.proj_of_apart (fun s => (s.part k.part).scb.en) (s.apart_spilledTo k i sp.offset o), he]
  have hx : ((s.spilledTo k i sp.offset o).setSpill (some k) (sp.stopped o)).task? k = some x := by
    rw [State.task?_setSpill, State.proj_of_apart (State.task? · k) (s.apart_spilledTo k i sp.offset o), (State.spillOf_some hs).1]
  generalize (s.spilledTo k i sp.offset o).setSpill (some k) (sp.stopped o) = u at hu he' hx
  rw [State.task?_applyDeferred (fun y => (y.place, y.faulted)) fun _ _ => rfl, u.spillRecord_disabled c (sp.stopped o) _ ht he']
  exact u.task?_loseImage c _ ((congrArg Spill.task hu).trans ht) hx
end

end Sys2Proof.Machine
end

section
/-! SUPPORT. A task that resumes: the fill of its image, its return to cores, its fault; and the statement of how tasks come and go (22 R377, 03 R62, R63). -/

namespace Sys2Proof.Machine

/-! ## Reading an image -/

/-- Two states with the same device memory and the same partitions. -/
def State.SameStore (s t : State) : Prop := s.mem = t.mem ∧ s.parts = t.parts
theorem State.sameStore_cpWalk (s : State) (p va : Nat) : (s.cpWalk p va).2.SameStore s := by
  refine State.cpWalk_keeps (P := fun u => u.SameStore s) (fun u pa e h => ?_) s p va ⟨rfl, rfl⟩
  rw [State.l2Touch_frame]
  exact h
theorem State.SameStore.walk {s t : State} (h : s.SameStore t) (p va : Nat) : (s.cpWalk p va).1 = (t.cpWalk p va).1 := by
  obtain ⟨hm, hp⟩ := h
  show Sys2Proof.Machine.walk s.mem (s.part p).desc.ptroot va = Sys2Proof.Machine.walk t.mem (t.part p).desc.ptroot va
  rw [hm, State.part, hp]
  rfl
/-- An access translates as device memory and the tables have it. -/
theorem State.SameStore.pages (p : Nat) (k : Kind) (user : Bool) (fin n : Nat) : ∀ (s t : State) (va : Nat) (acc : List Pg), s.SameStore t →
    (s.cpPages p k user fin n va acc).1 = (t.cpPages p k user fin n va acc).1 := by
  induction n with
  | zero => exact fun _ _ _ _ _ => rfl
  | succ n ih =>
    intro s t va acc h
    have hw := h.walk p va
    have hs := s.sameStore_cpWalk p va
    have ht := t.sameStore_cpWalk p va
    unfold State.cpPages
    split
    · rfl
    · revert hw hs ht
      rcases s.cpWalk p va with ⟨w, s'⟩
      rcases t.cpWalk p va with ⟨w', t'⟩
      rintro rfl hs ht
      cases w with
      | fault i r => rfl
      | leaf e sz r =>
        simp only
        split
        · rfl
        · exact ih s' t' _ _ ⟨hs.1.trans (h.1.trans ht.1.symm), hs.2.trans (h.2.trans ht.2.symm)⟩
theorem State.SameStore.access {s t : State} (h : s.SameStore t) (p : Nat) (k : Kind) (user : Bool) (a n : Nat) :
    (s.cpAccess p k user a n).1 = (t.cpAccess p k user a n).1 := by
  unfold State.cpAccess
  split
  · rfl
  · split
    · rfl
    · exact State.SameStore.pages p k user _ _ s t a [] h
theorem State.SameStore.fault {s t : State} (h : s.SameStore t) (p : Nat) (i : Image) : s.fillFault p i = t.fillFault p i := by
  unfold State.fillFault
  rw [h.access, h.1]
/-- A read of the command processor. -/
theorem State.cpRead_keeps {P : State → Prop} (hl : ∀ s pa e, P s → P (State.l2Touch s pa e)) (s : State) (p a n : Nat) (h : P s) : P (s.cpRead p a n).2 := by
  have ha := State.cpAccess_keeps hl s p .load false a n h
  unfold State.cpRead
  split
  · rename_i e; rw [e] at ha; exact State.cpTouch_keeps hl _ _ a n ha
  · rename_i e; rw [e] at ha; exact ha
theorem State.cpRead_sameStore (s : State) (p a n : Nat) : (s.cpRead p a n).2.SameStore s :=
  State.cpRead_keeps (P := fun u => u.SameStore s) (fun u pa e h => by rw [State.l2Touch_frame]; exact h) s p a n ⟨rfl, rfl⟩
theorem State.apart_cpRead (s : State) (p a n : Nat) : (s.cpRead p a n).2.apart = s.apart :=
  State.cpRead_keeps (P := fun u => u.apart = s.apart) (fun u pa e h => (State.apart_l2Touch u pa e).trans h) s p a n rfl

/-! ## The start of a fill -/

/-- The status of a fill. -/
def Spill.filling (b : Scb) (f : Nat) (k : TaskId) : Spill := { Spill.reset.latch b with state := 3, frame := f, task := some k }
/-- The state in which the fill of a task's image is under way. -/
def State.fillBegun (u : State) (k : TaskId) (i : Image) (cl b0 f : Nat) : State :=
  ((u.beginSpill (blockCores cl b0 i.cores.length) (.filling (u.part k.part).scb f k)).updLaunch k.part k.lid fun l =>
    { l.take cl b0 with preempted := l.preempted.filter (· != k.idx) }).updTask k fun x => { x with place := .filling cl b0 f, mustGo := false }

section
variable {k : TaskId} {c : ClusterN} {b0 : Fin 8} {s u : State} (hu : s.vtJoin = u) {l : Launch} {x : Task} {i : Image} {f : Nat} (hx : u.task? k = some x) (hi : x.image = some i)
  (hl : u.launch? k.part k.lid = some l)
include hu hx hi hl

theorem exec_resumeFill_saved (hp : x.place = .saved f) (hc : u.chosen = some l) (hn : u.nextAt l c.val b0.val = some k.idx) (hf : u.fitsNext l c.val b0.val = true) :
    exec (.resumeFill k c b0) s = .next (u.fillBegun k i c.val b0.val f) := by
  obtain ⟨h1, h2⟩ := State.names_of_launch? hl
  show execResumeFill k c b0 s = _
  unfold execResumeFill
  simp only [hu, hx, hl, hp, hi, hc, hn, hf, h1, h2, Option.map_some]
  exact if_neg (by simp)
theorem exec_resumeFill_filling (hp : x.place = .filling c.val b0.val f) (hf : u.freeFor i c.val = true) :
    exec (.resumeFill k c b0) s = .next (u.endFill l x i c.val b0.val f).applyDeferred.vtJoin := by
  show execResumeFill k c b0 s = _
  unfold execResumeFill
  simp only [hu, hx, hl, hp, hi, hf]
  rw [if_pos (by simp)]
end
theorem State.mem_fillBegun (u : State) (k : TaskId) (i : Image) (cl b0 f : Nat) : (u.fillBegun k i cl b0 f).mem = u.mem :=
  State.beginSpill_proj State.mem (fun _ _ _ => rfl) u _ _
theorem State.spill_fillBegun (u : State) (k : TaskId) {i : Image} (cl b0 f : Nat) (hc : i.cores ≠ []) :
    ((u.fillBegun k i cl b0 f).core (8 * cl + b0)).spill = .filling (u.part k.part).scb f k :=
  u.spill_beginSpill _ (mem_blockCores (b := 0) (List.length_pos_of_ne_nil hc))
theorem State.task?_fillBegun (u : State) (k : TaskId) (i : Image) (cl b0 f : Nat) {x : Task} (hx : u.task? k = some x) :
    (u.fillBegun k i cl b0 f).task? k = some { x with place := .filling cl b0 f, mustGo := false } := by
  have ht : (u.beginSpill (blockCores cl b0 i.cores.length) (.filling (u.part k.part).scb f k)).task? k = some x :=
    (State.beginSpill_proj (State.task? · k) (fun _ _ _ => rfl) u _ _).trans hx
  rw [State.fillBegun, State.task?_updTask _ _ _ (by exact fun _ => rfl)]
  exact congrArg (Option.map _) ht

/-! ## A context that returns to a core -/

/-- A core takes over the context that an image holds for it, with its poisoned words. -/
def State.restoreAt (dst : Nat) (l : Launch) (id : TaskId) (s : State) (e : Nat × CoreCtx) : State :=
  { s with sramPoison := s.sramPoison.filter (fun (y : Nat × Nat) => y.1 != dst + e.1) ++ e.2.poison.map fun w => (dst + e.1, w) }.updCore (dst + e.1)
    (restoreCore (s.spOf l) l.part e.1 id e.2)
/-- The contexts of an image are on the cores from `dst` on. -/
def State.restored (s : State) (l : Launch) (id : TaskId) (i : Image) (cl b0 : Nat) : State :=
  ((List.range i.cores.length).zip i.cores).foldl (State.restoreAt (8 * cl + b0) l id) (s.dropFetch cl (blockCores cl b0 i.cores.length))
def Task.back (cl b0 : Nat) (os zs : List (Nat × Nat)) (x : Task) : Task :=
  { x with place := .resident cl b0, image := none, onames := x.onames.map fun e => (e.1, renum os e.2), znames := x.znames.map fun e => (e.1, renum zs e.2) }
theorem State.restoreTask_eq (s : State) (l : Launch) (x : Task) (i : Image) (cl b0 : Nat) : ∃ h os zs, s.restoreTask l x i cl b0 =
    (((s.restored l x.id i cl b0).updCluster cl h).moveMessages x.id i.base (8 * cl + b0)).updTask x.id (Task.back cl b0 os zs) :=
  ⟨_, _, _, rfl⟩
theorem State.restored_proj {β : Type} (g : State → β) (hc : ∀ s c f, g (State.updCore s c f) = g s) (hp : ∀ (s : State) l, g { s with sramPoison := l } = g s)
    (hk : ∀ s c f, g (State.updCluster s c f) = g s) (s : State) (l : Launch) (id : TaskId) (i : Image) (cl b0 : Nat) : g (s.restored l id i cl b0) = g s :=
  (State.foldl_proj (f := State.restoreAt (8 * cl + b0) l id) g (fun s _ => (hc ..).trans (hp s _)) _ _).trans (hk ..)
theorem State.core_restored (s : State) (l : Launch) (id : TaskId) (i : Image) (cl b0 : Nat) {b : Nat} {z : CoreCtx} (hz : i.cores[b]? = some z) :
    ∃ sp k, (s.restored l id i cl b0).core (8 * cl + b0 + b) = restoreCore sp l.part b id z k := by
  have hl : ((List.range i.cores.length).zip i.cores).Pairwise fun a b => 8 * cl + b0 + a.1 ≠ 8 * cl + b0 + b.1 := by
    have hr : (((List.range i.cores.length).zip i.cores).map Prod.fst).Pairwise fun a b => a ≠ b := by
      rw [List.map_fst_zip (by simp)]
      exact List.nodup_range
    exact (List.pairwise_map.1 hr).imp fun h e => h (Nat.add_left_cancel e)
  have hm : (b, z) ∈ (List.range i.cores.length).zip i.cores := by
    obtain ⟨hb, _⟩ := List.getElem?_eq_some_iff.1 hz
    exact List.mem_iff_getElem?.2 ⟨b, List.getElem?_zip_eq_some.2 ⟨by simp [hb], hz⟩⟩
  obtain ⟨u, _, _, hc⟩ := State.core_foldl (f := State.restoreAt (8 * cl + b0) l id) (fun e => 8 * cl + b0 + e.1) State.cycle (fun _ _ => rfl)
    (fun s e c h => State.core_updCore_ne _ _ h) _ hl (s.dropFetch cl (blockCores cl b0 i.cores.length)) (b, z) hm
  refine ⟨u.spOf l, u.core (8 * cl + b0 + b), hc.trans ?_⟩
  rw [State.restoreAt, State.core_updCore]
  rfl
theorem State.mem_restoreTask (s : State) (l : Launch) (x : Task) (i : Image) (cl b0 : Nat) : (s.restoreTask l x i cl b0).mem = s.mem := by
  obtain ⟨h, os, zs, he⟩ := s.restoreTask_eq l x i cl b0
  rw [he]
  exact State.restored_proj State.mem (fun _ _ _ => rfl) (fun _ _ => rfl) (fun _ _ _ => rfl) s l x.id i cl b0
theorem State.task?_restoreTask (s : State) (l : Launch) (i : Image) (cl b0 : Nat) {x : Task} (hx : s.task? x.id = some x) :
    ∃ os zs, (s.restoreTask l x i cl b0).task? x.id = some (x.back cl b0 os zs) := by
  obtain ⟨h, os, zs, he⟩ := s.restoreTask_eq l x i cl b0
  refine ⟨os, zs, ?_⟩
  rw [he, State.task?_updTask _ _ _ (by exact fun _ => rfl)]
  have ht : (s.restored l x.id i cl b0).task? x.id = some x :=
    (State.restored_proj (State.task? · x.id) (fun _ _ _ => rfl) (fun _ _ => rfl) (fun _ _ _ => rfl) s l x.id i cl b0).trans hx
  exact congrArg (Option.map _) ht
theorem State.core_restoreTask (s : State) (l : Launch) (x : Task) (i : Image) (cl b0 : Nat) {b : Nat} {z : CoreCtx} (hz : i.cores[b]? = some z) :
    ∃ sp k, (s.restoreTask l x i cl b0).core (8 * cl + b0 + b) = restoreCore sp l.part b x.id z k := by
  obtain ⟨h, os, zs, he⟩ := s.restoreTask_eq l x i cl b0
  rw [he]
  exact s.core_restored l x.id i cl b0 hz
theorem State.frames_moveMessages (s : State) (t : TaskId) (base dst p : Nat) : ((s.moveMessages t base dst).part p).frames = (s.part p).frames :=
  State.part_updPart_proj Partition.frames s t.part p _ (by exact fun _ => rfl)
theorem State.frames_restoreTask (s : State) (l : Launch) (x : Task) (i : Image) (cl b0 p : Nat) : ((s.restoreTask l x i cl b0).part p).frames = (s.part p).frames := by
  obtain ⟨h, os, zs, he⟩ := s.restoreTask_eq l x i cl b0
  rw [he]
  refine (State.frames_moveMessages ((s.restored l x.id i cl b0).updCluster cl h) x.id i.base (8 * cl + b0) p).trans ?_
  exact State.restored_proj (fun s => (s.part p).frames) (fun _ _ _ => rfl) (fun _ _ => rfl) (fun _ _ _ => rfl) s l x.id i cl b0

/-! ## The end of a fill -/

/-- The state in which an image has been read and its frame is free. -/
def State.filled (s : State) (x : Task) (i : Image) (f : Nat) : State := (((s.cpRead x.id.part i.va i.bytes).2).freeFrame x.id f).setSpill (some x.id) .reset
theorem State.mem_filled (s : State) (x : Task) (i : Image) (f : Nat) : (s.filled x i f).mem = s.mem := (s.cpRead_sameStore ..).1
theorem State.task?_filled (s : State) (x : Task) (i : Image) (f : Nat) (k : TaskId) : (s.filled x i f).task? k = s.task? k := by
  show (s.cpRead x.id.part i.va i.bytes).2.task? k = _
  exact State.proj_of_apart (State.task? · k) (s.apart_cpRead x.id.part i.va i.bytes)
theorem State.frames_filled (s : State) (x : Task) (i : Image) (f : Nat) : f ∉ ((s.filled x i f).part x.id.part).frames := by
  unfold State.filled
  rw [State.part_setSpill, State.freeFrame, State.part_updPart]
  simp
theorem State.endFill_fault (s : State) (l : Launch) {x : Task} {i : Image} (cl b0 f : Nat) {e : Byte} (h : s.fillFault x.id.part i = some e) : s.endFill l x i cl b0 f =
    ((s.filled x i f).faultTask x.id e).updTask x.id fun x => { x with place := .retired, image := none, onames := [], znames := [] } := by
  unfold State.endFill
  simp only [(s.cpRead_sameStore x.id.part i.va i.bytes).fault, h]
  rfl
theorem State.mem_faulted (s : State) (x : Task) (i : Image) (f : Nat) (e : Byte) :
    (((s.filled x i f).faultTask x.id e).updTask x.id fun x => { x with place := .retired, image := none, onames := [], znames := [] }).mem = s.mem :=
  s.mem_filled x i f

section
variable {s : State} (l : Launch) {x : Task} {i : Image} (cl b0 f : Nat) (hx : s.task? x.id = some x)
include hx

theorem State.endFill_back (h : s.fillFault x.id.part i = none) (hg : x.mustGo = false) : s.endFill l x i cl b0 f = (s.filled x i f).restoreTask l x i cl b0 := by
  obtain ⟨os, zs, ht⟩ := (s.filled x i f).task?_restoreTask l i cl b0 ((s.task?_filled x i f x.id).trans hx)
  unfold State.endFill
  simp only [(s.cpRead_sameStore x.id.part i.va i.bytes).fault, h]
  rw [State.filled] at ht ⊢
  simp only [ht]
  exact if_neg (by simp [Task.back, hg])
theorem State.endFill_leave (h : s.fillFault x.id.part i = none) (hg : x.mustGo = true) :
    ∃ y : Task, y.id = x.id ∧ ((s.filled x i f).restoreTask l x i cl b0).task? x.id = some y ∧ s.endFill l x i cl b0 f = ((s.filled x i f).restoreTask l x i cl b0).preempt y cl b0 := by
  obtain ⟨os, zs, ht⟩ := (s.filled x i f).task?_restoreTask l i cl b0 ((s.task?_filled x i f x.id).trans hx)
  refine ⟨x.back cl b0 os zs, rfl, ht, ?_⟩
  unfold State.endFill
  simp only [(s.cpRead_sameStore x.id.part i.va i.bytes).fault, h]
  rw [State.filled] at ht ⊢
  simp only [ht]
  exact if_pos (by simp [Task.back, hg])
theorem State.task?_faulted (e : Byte) :
    ((((s.filled x i f).faultTask x.id e).updTask x.id fun x => { x with place := .retired, image := none, onames := [], znames := [] }).task? x.id).map
      (fun y => (y.place, y.faulted)) = some (.retired, true) := by
  rw [State.task?_updTask _ _ _ (by exact fun _ => rfl)]
  show ((((s.filled x i f).updTask x.id fun x => { x with faulted := true }).task? x.id).map _).map _ = _
  rw [State.task?_updTask _ _ _ (by exact fun _ => rfl), State.task?_filled, hx]
  rfl
end

/-! ## The statement -/

/-- Settles O55: each event by its equation; what a fold over the cores of a block makes of one of them is what the step of that core makes of it, and a task keeps its
name, whatever is delivered to it, until the event gives it its place. -/
theorem tasksComeAndGo : Obligations.TasksComeAndGo := by
  unfold Obligations.TasksComeAndGo
  refine ⟨?dispatch, fun c b0 s h => exec_dispatchTask_none h, ?order, ?retire, ?preempt, ?start, ?stop, ?resume⟩
  case dispatch =>
    intro c b0 s l u hc hn hl hf ht
    refine ⟨_, exec_dispatchTask rfl hc hn hl hf, fun hr => ?_, fun ha => ?_, u.place_dispatched l c.val b0.val ht, fun b hb => ?_⟩
    · exact (u.mem_dispatched l c.val b0.val hr).trans s.mem_vtJoin
    · exact u.state_dispatched l c.val b0.val (by rw [ha]; decide)
    · obtain ⟨sp, k, hk⟩ := u.core_dispatched l c.val b0.val hb
      refine ⟨?_, ?_, ?_, fun j hj => u.thr_dispatched l c.val b0.val hb hj⟩
      · exact congrArg Core.task hk
      · exact congrArg Core.bidx hk
      · exact congrArg Core.ctab hk
  case order =>
    intro s l
    refine ⟨fun h => ?_, fun h => ?_⟩
    · rw [s.nextTask_dispatched l h]
      exact ⟨fun hp => by rw [hp]; rfl, fun i hi hle => leastOf_eq_some hi hle⟩
    · rw [s.nextTask_undispatched l h]
      simp only [← State.mem_resumable]
      refine ⟨fun i hi hle => by rw [leastOf_eq_some hi hle]; rfl, fun hn => ?_⟩
      rw [List.eq_nil_iff_forall_not_mem.2 hn]
      rfl
  case retire =>
    intro k s x cl b hx hp
    rw [exec_taskRetire hx hp]
    refine ⟨fun hm _ => ⟨_, by rw [if_pos hm], ?_, fun c hc => ?_, ?_⟩, fun hm => by rw [hm]; rfl⟩
    · rw [State.task?_vtJoin, State.task?_applyDeferred (fun y => y.place) fun _ _ => rfl]
      exact s.place_retireTask k x cl hx
    · rw [State.core_vtJoin, State.core_applyDeferred]
      exact s.core_retireTask k x cl hc
    · rw [State.mem_vtJoin, State.mem_applyDeferred]
      exact s.mem_retireTask k x cl
  case preempt =>
    intro k s x l cl b hx hp hl
    obtain rfl := State.id_of_task? hx
    rw [exec_preemptTask hx hp hl]
    refine ⟨fun hg => ⟨_, by rw [hg]; rfl, s.place_preempt x cl b hx, s.mem_preempt x cl b, s.threads_preempt x cl b, fun c hc => s.spill_preempt x cl b hc⟩, fun hg hr => ?_⟩
    rw [hg, s.stallVictim_of_plain l hr]
    rfl
  case start =>
    intro k s x cl b f hx hp hi
    obtain rfl := State.id_of_task? hx
    refine ⟨fun hs hf hq hc => ⟨_, exec_spillStart hx hp hi hs hf, ?_, ?_, ?_, ?_, ?_⟩, exec_spillStart_unsettled hx hp hi⟩
    · obtain ⟨j, hj⟩ := State.image_saveTask x cl b ((s.spillAt cl b).frameAddr f 0) hq hx
      rw [State.task?_vtJoin, State.beginSpill_proj (State.task? · x.id) fun _ _ _ => rfl]
      show ((s.saveTask x cl b _).task? x.id).map _ = _
      rw [hj]
      rfl
    · rw [State.vtJoin_part Partition.frames, State.beginSpill_proj (fun s => (s.part x.id.part).frames) fun _ _ _ => rfl, State.part_updPart]
      exact mem_addNew _ f
    · rw [State.core_vtJoin]
      exact State.spill_beginSpill _ _ hc
    · rw [State.core_vtJoin, State.threads_beginSpill]
      exact State.threads_saveTask x cl b ((s.spillAt cl b).frameAddr f 0) hq hc
    · rw [State.mem_vtJoin, State.beginSpill_proj State.mem fun _ _ _ => rfl]
      exact State.mem_saveTask x cl b ((s.spillAt cl b).frameAddr f 0) hq
  case stop =>
    intro k s x c sp i hs ht
    refine ⟨fun o h1 hb => ⟨fun he => ⟨_, exec_spillStop hs h1 hb, State.spill_stop hs ht h1 he⟩, fun he => ⟨_, exec_spillStop hs h1 hb, State.task?_stop hs ht h1 he⟩⟩,
      fun h => ⟨exec_spillStop_idle hs h, exec_spillEnd_idle hs h⟩, fun h1 hb => ⟨_, exec_spillEnd hs h1 hb, ?_, fun l hl => ?_⟩⟩
    · rw [State.task?_vtJoin]
      show (State.task? (State.updTask _ k _) k).map _ = _
      have hx : (s.writeParts k.part i.va i.stamp sp.offset i.bytes).task? k = some x :=
        (State.proj_of_apart (State.task? · k) (s.apart_writeParts ..)).trans (State.spillOf_some hs).1
      rw [State.task?_updTask _ _ _ (by exact fun _ => rfl), State.task?_setSpill, hx]
      rfl
    · rw [State.launch?_vtJoin, State.launch?_updLaunch _ _ _ _ (by exact fun _ => ⟨rfl, rfl⟩)] at hl
      obtain ⟨l', _, rfl⟩ := Option.map_eq_some_iff.1 hl
      exact mem_addNew _ k.idx
  case resume =>
    intro k c b0 s l x i f u hx hi hl hc
    refine ⟨fun hp hch hn hf => ?_, fun hp _ hf => ?_⟩
    · have hs := u.spill_fillBegun k c.val b0.val f hc
      refine ⟨_, exec_resumeFill_saved rfl hx hi hl hp hch hn hf, ?_, by rw [hs]; rfl, by rw [hs]; rfl, (u.mem_fillBegun ..).trans s.mem_vtJoin⟩
      rw [u.task?_fillBegun k i c.val b0.val f hx, ← hi]
      rfl
    obtain rfl := State.id_of_task? hx
    have he := exec_resumeFill_filling rfl hx hi hl hp hf
    have hm : u.mem = s.mem := s.mem_vtJoin
    refine ⟨fun hff hg => ?_, fun hff hg => ?_, fun e hff => ?_⟩
    · obtain ⟨y, hy, hty, hl⟩ := State.endFill_leave l c.val b0.val f hx hff hg
      refine ⟨_, he, ?_, ?_⟩
      · rw [State.task?_vtJoin, State.task?_applyDeferred (fun y => y.place) fun _ _ => rfl, hl, ← hy]
        exact State.place_preempt _ y _ _ (by rw [hy]; exact hty)
      · rw [State.mem_vtJoin, State.mem_applyDeferred, hl, State.mem_preempt, State.mem_restoreTask, State.mem_filled, hm]
    · have hb := State.endFill_back l c.val b0.val f hx hff hg
      refine ⟨_, he, ?_, ?_, ?_, fun b z hz => ?_⟩
      · obtain ⟨os, zs, ht⟩ := (u.filled x i f).task?_restoreTask l i c.val b0.val ((u.task?_filled x i f x.id).trans hx)
        rw [State.task?_vtJoin, State.task?_applyDeferred (fun y => (y.place, y.image)) fun _ _ => rfl, hb, ht]
        rfl
      · rw [State.vtJoin_part Partition.frames, State.part, State.parts_applyDeferred, hb]
        show f ∉ (State.part _ x.id.part).frames
        rw [State.frames_restoreTask]
        exact u.frames_filled x i f
      · rw [State.mem_vtJoin, State.mem_applyDeferred, hb, State.mem_restoreTask, State.mem_filled, hm]
      · obtain ⟨sp, k, hk⟩ := (u.filled x i f).core_restoreTask l x i c.val b0.val hz
        rw [State.core_vtJoin, State.core_applyDeferred, hb, hk]
        exact ⟨rfl, rfl, rfl⟩
    · have hb := u.endFill_fault l c.val b0.val f hff
      refine ⟨_, he, ?_, ?_⟩
      · rw [State.task?_vtJoin, State.task?_applyDeferred (fun y => (y.place, y.faulted)) fun _ _ => rfl, hb]
        exact State.task?_faulted f hx e
      · rw [State.mem_vtJoin, State.mem_applyDeferred, hb]
        exact (u.mem_faulted x i f e).trans hm

end Sys2Proof.Machine
end

section
/-! SUPPORT. What the encoder writes is what the decoder reads (04 R75 to R84): the normal form of the encoder's words, what a position of a row takes,
how MOD is read back. -/

namespace Sys2Proof
namespace Enc

/-! ## Lines: the normal form of the encoder's words -/

/-- A specifier that leaves I alone, as that of a register does. -/
abbrev reg (x : Byte) : Opnd := (x, none)
/-- An unused position. -/
abbrev unused : Opnd := reg 255#8

/-- OP and FN, the header, I where no position names it, MOD, and the four positions. -/
def line (op fn : Nat) (h : Hdr) (i : W32) (m : Nat) (d : Byte) (a b c : Opnd) : Fields :=
  { base op fn h with mod := BitVec.ofNat 5 m, d := d, a := a.1, b := b.1, c := c.1, i := c.2.getD (b.2.getD (a.2.getD i)) }

/-- MOD and a bit of it, as the decoder reads them from a number that the encoder writes. -/
def modOf (m : Nat) : Nat := (BitVec.ofNat 5 m).toNat
def modBit (m n : Nat) : Bool := modOf m / 2 ^ n % 2 == 1

section
variable (op fn : Nat) (h : Hdr) (i : W32) (m n : Nat) (d : Byte) (a b c : Opnd)

@[simp] theorem line_hdr : (line op fn h i m d a b c).hdr = h := hdr_base op fn h
@[simp] theorem line_d : (line op fn h i m d a b c).d = d := rfl
@[simp] theorem line_a : (line op fn h i m d a b c).a = a.1 := rfl
@[simp] theorem line_b : (line op fn h i m d a b c).b = b.1 := rfl
@[simp] theorem line_c : (line op fn h i m d a b c).c = c.1 := rfl
@[simp] theorem line_fn : (line op fn h i m d a b c).fn.toNat = (BitVec.ofNat 8 fn).toNat := rfl
@[simp] theorem line_m : (line op fn h i m d a b c).m = modOf m := rfl
@[simp] theorem line_bit : (line op fn h i m d a b c).bit n = modBit m n := rfl
@[simp] theorem line_i : (line op fn h i m d a b c).i = c.2.getD (b.2.getD (a.2.getD i)) := rfl
@[simp] theorem line_feat : (line op fn h i m d a b c).feat.toNat = h.feat.val := by
  show (BitVec.ofNat 4 h.feat.val).toNat = _
  simp
theorem line_pred (hp : h.pred.val = 0) : (line op fn h i m d a b c).pred = 0 := by
  show BitVec.ofNat 3 h.pred.val = 0
  simp [hp]

/-! A register is read back where it was written. -/

@[simp] theorem line_sD (r : SReg) : (line op fn h i m (s r) a b c).sD = r := regS_s r
@[simp] theorem line_sA (r : SReg) : (line op fn h i m d (reg (s r)) b c).sA = r := regS_s r
@[simp] theorem line_sB (r : SReg) : (line op fn h i m d a (reg (s r)) c).sB = r := regS_s r
@[simp] theorem line_sC (r : SReg) : (line op fn h i m d a b (reg (s r))).sC = r := regS_s r
@[simp] theorem line_vD (r : VReg) : (line op fn h i m (v r) a b c).vD = r := regV_v r
@[simp] theorem line_vA (r : VReg) : (line op fn h i m d (reg (v r)) b c).vA = r := regV_v r
@[simp] theorem line_vB (r : VReg) : (line op fn h i m d a (reg (v r)) c).vB = r := regV_v r
@[simp] theorem line_vC (r : VReg) : (line op fn h i m d a b (reg (v r))).vC = r := regV_v r
@[simp] theorem line_pD (r : PReg) : (line op fn h i m (p r) a b c).pD = r := regP_p r
@[simp] theorem line_pA (r : PReg) : (line op fn h i m d (reg (p r)) b c).pA = r := regP_p r
@[simp] theorem line_pB (r : PReg) : (line op fn h i m d a (reg (p r)) c).pB = r := regP_p r
@[simp] theorem line_pC (r : PReg) : (line op fn h i m d a b (reg (p r))).pC = r := regP_p r
@[simp] theorem line_cD (r : CReg) : (line op fn h i m (Enc.c r) a b c).cD = r := regC_c r
@[simp] theorem line_cA (r : CReg) : (line op fn h i m d (reg (Enc.c r)) b c).cA = r := regC_c r
@[simp] theorem line_tD (r : TReg) : (line op fn h i m (t r) a b c).tD = r := regT_t r
@[simp] theorem line_tA (r : TReg) : (line op fn h i m d (reg (t r)) b c).tA = r := regT_t r
@[simp] theorem line_zA (r : ZReg) : (line op fn h i m d (reg (z r)) b c).zA = r := regZ_z r
@[simp] theorem line_zB (r : ZReg) : (line op fn h i m d a (reg (z r)) c).zB = r := regZ_z r
@[simp] theorem line_oA (r : OReg) : (line op fn h i m d (reg (o r)) b c).oA = r := regO_o r
@[simp] theorem line_oB (r : OReg) : (line op fn h i m d a (reg (o r)) c).oB = r := regO_o r
@[simp] theorem line_oC (r : OReg) : (line op fn h i m d a b (reg (o r))).oC = r := regO_o r

end
end Enc

/-! ## Operands: what a position takes, and what is read back -/

/-- A position takes an operand: checks 2 and 4 accept its specifier, and its specifier names I exactly if the operand sets I. -/
structure Takes (p : Option (List Cls)) (x : Enc.Opnd) : Prop where
  cls : posOk p x.1 = true
  rest : restOk p x.1 = true
  names : posI p x.1 = x.2.isSome
  low : ∀ v, posK p x.1 = true → x.2 = some v → v.toNat % 4096 = 0

@[simp] theorem takes_unused : Takes none Enc.unused := ⟨rfl, rfl, rfl, fun _ _ => nofun⟩
/-- An operand that names a constant word sets I, and the low bits of I are 0. -/
theorem Takes.setsI {p : Option (List Cls)} {x : Enc.Opnd} (t : Takes p x) (hk : posK p x.1 = true) : ∃ v, x.2 = some v ∧ v.toNat % 4096 = 0 := by
  have hi : posI p x.1 = true := by
    simp only [posK, posI, Bool.and_eq_true, Bool.or_eq_true] at hk ⊢
    exact ⟨hk.1, .inl hk.2⟩
  obtain ⟨v, hv⟩ := Option.isSome_iff_exists.1 (t.names ▸ hi)
  exact ⟨v, hv, t.low v hk hv⟩
/-- A register is taken where its class is listed. -/
theorem takes_reg {l : List Cls} {x : Byte} {q : Cls} (hx : clsOf x = some q) (hl : l.contains q = true) (hi : q ≠ .i) (hk : q ≠ .k) :
    Takes (some l) (Enc.reg x) := by
  have h0 : x ≠ 128#8 := by rintro rfl; exact hk (Option.some.inj (hx.symm.trans clsOf_k))
  have h1 : x ≠ 129#8 := by rintro rfl; exact hi (Option.some.inj (hx.symm.trans clsOf_i))
  refine ⟨?_, ?_, ?_, fun _ _ => nofun⟩
  · simp only [posOk, hx, hl]
  · simp [restOk, hx]
  · simp [posI, h0, h1]
theorem takes_i {l : List Cls} (v : W32) (hl : l.contains .i = true) : Takes (some l) (0x81, some v) :=
  ⟨hl, rfl, rfl, fun _ => nofun⟩
theorem takes_k {l : List Cls} (w : Fin 8) (n : Fin 131072) (hl : l.contains .k = true) : Takes (some l) (0x80, some (Enc.iOf w n)) :=
  ⟨hl, rfl, rfl, fun _ _ h => Option.some.inj h ▸ iOf_low w n⟩

@[simp] theorem takes_s (r : SReg) : Takes Form.s (Enc.reg (Enc.s r)) := takes_reg (clsOf_s r) rfl nofun nofun
@[simp] theorem takes_v (r : VReg) : Takes Form.v (Enc.reg (Enc.v r)) := takes_reg (clsOf_v r) rfl nofun nofun
@[simp] theorem takes_p (r : PReg) : Takes Form.p (Enc.reg (Enc.p r)) := takes_reg (clsOf_p r) rfl nofun nofun
@[simp] theorem takes_c (r : CReg) : Takes Form.c' (Enc.reg (Enc.c r)) := takes_reg (clsOf_c r) rfl nofun nofun
@[simp] theorem takes_t (r : TReg) : Takes Form.t (Enc.reg (Enc.t r)) := takes_reg (clsOf_t r) rfl nofun nofun
@[simp] theorem takes_o (r : OReg) : Takes Form.o (Enc.reg (Enc.o r)) := takes_reg (clsOf_o r) rfl nofun nofun
@[simp] theorem takes_z (r : ZReg) : Takes Form.z (Enc.reg (Enc.z r)) := takes_reg (clsOf_z r) rfl nofun nofun
@[simp] theorem takes_i' (v : W32) : Takes Form.i' (129#8, some v) := takes_i v rfl
@[simp] theorem takes_si : ∀ x : SI, Takes Form.si (Enc.si x)
  | .s r => takes_reg (clsOf_s r) rfl nofun nofun
  | .i v => takes_i v rfl
@[simp] theorem takes_src : ∀ x : Src, Takes Form.sik (Enc.src x)
  | .s r => takes_reg (clsOf_s r) rfl nofun nofun
  | .i v => takes_i v rfl
  | .k w n => takes_k w n rfl
@[simp] theorem takes_vsrc : ∀ x : VSrc, Takes Form.vsik (Enc.vsrc x)
  | .v r => takes_reg (clsOf_v r) rfl nofun nofun
  | .s r => takes_reg (clsOf_s r) rfl nofun nofun
  | .i v => takes_i v rfl
  | .k w n => takes_k w n rfl
@[simp] theorem takes_vsi : ∀ x : VSI, Takes Form.vsi (Enc.vsi x)
  | .v r => takes_reg (clsOf_v r) rfl nofun nofun
  | .s r => takes_reg (clsOf_s r) rfl nofun nofun
  | .i v => takes_i v rfl
@[simp] theorem takes_ts : ∀ x : TS, Takes Form.ts (Enc.reg (Enc.ts x))
  | .t r => takes_reg (clsOf_t r) rfl nofun nofun
  | .s r => takes_reg (clsOf_s r) rfl nofun nofun
@[simp] theorem takes_sp : ∀ x : SP, Takes Form.sp (Enc.reg (Enc.sp x))
  | .s r => takes_reg (clsOf_s r) rfl nofun nofun
  | .p r => takes_reg (clsOf_p r) rfl nofun nofun

/-! A specifier tells the classes that may share a position apart. -/

theorem spec_s : ∀ r : SReg, Enc.s r ≠ 129#8 ∧ Enc.s r ≠ 128#8 ∧ (Enc.s r).toNat < 0x40 := by decide
theorem spec_v : ∀ r : VReg, Enc.v r ≠ 129#8 ∧ Enc.v r ≠ 128#8 ∧ ¬ (Enc.v r).toNat < 0x40 := by decide
theorem spec_p : ∀ r : PReg, ¬ (Enc.p r).toNat < 0x40 := by decide
theorem spec_t : ∀ r : TReg, ¬ (Enc.t r).toNat < 0x40 := by decide

namespace Fields

theorem si_read {f : Fields} {x : SI} (h : ∀ v, (Enc.si x).2 = some v → f.i = v) : f.si (Enc.si x).1 = x := by
  cases x with
  | s r => simp [si, Enc.si, spec_s]
  | i v => simp [si, Enc.si, h v rfl]
theorem src_read {f : Fields} {x : Src} (h : ∀ v, (Enc.src x).2 = some v → f.i = v) : f.src (Enc.src x).1 = x := by
  cases x with
  | s r => simp [src, Enc.src, spec_s]
  | i v => simp [src, Enc.src, h v rfl]
  | k w n => simp [src, Enc.src, h _ rfl]
theorem vsrc_read {f : Fields} {x : VSrc} (h : ∀ v, (Enc.vsrc x).2 = some v → f.i = v) : f.vsrc (Enc.vsrc x).1 = x := by
  cases x with
  | v r => simp [vsrc, Enc.vsrc, spec_v]
  | s r => simp [vsrc, Enc.vsrc, spec_s]
  | i v => simp [vsrc, Enc.vsrc, h v rfl]
  | k w n => simp [vsrc, Enc.vsrc, h _ rfl]
theorem vsi_read {f : Fields} {x : VSI} (h : ∀ v, (Enc.vsi x).2 = some v → f.i = v) : f.vsi (Enc.vsi x).1 = x := by
  cases x with
  | v r => simp [vsi, Enc.vsi, spec_v]
  | s r => simp [vsi, Enc.vsi, spec_s]
  | i v => simp [vsi, Enc.vsi, h v rfl]
@[simp] theorem ts_read (f : Fields) (x : TS) : f.ts (Enc.ts x) = x := by
  cases x <;> simp [ts, Enc.ts, spec_s, spec_t]
@[simp] theorem sp_read (f : Fields) (x : SP) : f.sp (Enc.sp x) = x := by
  cases x <;> simp [sp, Enc.sp, spec_s, spec_p]

end Fields

namespace Enc
section
variable {op fn : Nat} {h : Hdr} {i : W32} {m : Nat} {d y z : Byte} {a b : Opnd}

/-! The operand that sets I is the last one that does. -/

@[simp] theorem si_line_a (x : SI) : (line op fn h i m d (si x) (reg y) (reg z)).si (si x).1 = x := Fields.si_read fun v e => by simp [e]
@[simp] theorem si_line_b (x : SI) : (line op fn h i m d a (si x) (reg z)).si (si x).1 = x := Fields.si_read fun v e => by simp [e]
@[simp] theorem si_line_c (x : SI) : (line op fn h i m d a b (si x)).si (si x).1 = x := Fields.si_read fun v e => by simp [e]
@[simp] theorem src_line_a (x : Src) : (line op fn h i m d (src x) (reg y) (reg z)).src (src x).1 = x := Fields.src_read fun v e => by simp [e]
@[simp] theorem src_line_b (x : Src) : (line op fn h i m d a (src x) (reg z)).src (src x).1 = x := Fields.src_read fun v e => by simp [e]
@[simp] theorem vsrc_line_b (x : VSrc) : (line op fn h i m d a (vsrc x) (reg z)).vsrc (vsrc x).1 = x := Fields.vsrc_read fun v e => by simp [e]
@[simp] theorem vsi_line_b (x : VSI) : (line op fn h i m d a (vsi x) (reg z)).vsi (vsi x).1 = x := Fields.vsi_read fun v e => by simp [e]
@[simp] theorem mem_line (g : MemOp) : (line op fn h i m d (reg (s g.base)) (si g.off) (reg z)).mem = g := by simp [Fields.mem]
end

/-! Of two operands that may set I, at most one does. -/

theorem si_line_ab {op fn : Nat} {h : Hdr} {i : W32} {m : Nat} {d z : Byte} (x y : SI) (hn : (!(x.namesI && y.namesI)) = true) :
    (line op fn h i m d (si x) (si y) (reg z)).si (si x).1 = x :=
  Fields.si_read fun v e => by cases x <;> cases y <;> simp_all [si, SI.namesI]
theorem si_line_bc {op fn : Nat} {h : Hdr} {i : W32} {m : Nat} {d : Byte} {a : Opnd} (x y : SI) (hn : (!(x.namesI && y.namesI)) = true) :
    (line op fn h i m d a (si x) (si y)).si (si x).1 = x :=
  Fields.si_read fun v e => by cases x <;> cases y <;> simp_all [si, SI.namesI]
theorem src_line_ab {op fn : Nat} {h : Hdr} {i : W32} {m : Nat} {d z : Byte} (x : Src) (y : SI) (hn : (!(x.namesI && y.namesI)) = true) :
    (line op fn h i m d (src x) (si y) (reg z)).src (src x).1 = x :=
  Fields.src_read fun v e => by cases x <;> cases y <;> simp_all [src, si, SI.namesI, Src.namesI]
@[simp] theorem si_none (x : SI) : (si x).2 = none ↔ x.namesI = false := by cases x <;> simp [si, SI.namesI]
@[simp] theorem src_none (x : Src) : (src x).2 = none ↔ x.namesI = false := by cases x <;> simp [src, Src.namesI]
end Enc

/-! ## Decoding a line -/

/-- I, where no position names it, is what the row allows. -/
def IUse.allows : IUse → W32 → Bool
  | .zero, i => i == 0
  | .offset, _ => true
  | .sreg, i => i.toNat < 4096 && srAssigned i.toNat

/-- The positions of a row take the operands of a line, of which at most one sets I. -/
structure Form.TakesAll (r : Form) (i : W32) (d : Byte) (a b c : Enc.Opnd) : Prop where
  takesD : Takes r.d (Enc.reg d)
  takesA : Takes r.a a
  takesB : Takes r.b b
  takesC : Takes r.c c ∨ r.count = true ∧ r.c = none ∧ c.2 = none
  one : (a.2 = none ∨ b.2 = none) ∧ (a.2 = none ∨ c.2 = none) ∧ (b.2 = none ∨ c.2 = none)
  restI : r.iuse.allows i = true

section
variable {op fn : Nat} {h : Hdr} {i : W32} {m : Nat} {d : Byte} {a b c : Enc.Opnd} {r : Form}

/-- The third position, where it is no count, names I exactly if its operand sets I. -/
theorem Form.TakesAll.namesC (t : r.TakesAll i d a b c) : posI r.c c.1 = c.2.isSome := by
  rcases t.takesC with h | ⟨-, hc, h2⟩
  · exact h.names
  · simp [hc, h2, posI]
theorem Form.TakesAll.classesOk (t : r.TakesAll i d a b c) : r.classesOk (Enc.line op fn h i m d a b c) = true := by
  have hc : posOk r.c c.1 = true := by
    rcases t.takesC with h | ⟨-, hc, -⟩
    · exact h.cls
    · rw [hc]; rfl
  have ho : r.countI (Enc.line op fn h i m d a b c) ≤ 1 := by
    obtain ⟨hab, hac, hbc⟩ := t.one
    simp only [Form.countI, Enc.line_a, Enc.line_b, Enc.line_c, t.takesA.names, t.takesB.names, t.namesC]
    cases ha : a.2 <;> cases hb : b.2 <;> cases hc : c.2 <;> simp_all
  have hd : posOk r.d d = true := t.takesD.cls
  simp [Form.classesOk, hd, t.takesA.cls, t.takesB.cls, hc, ho]
/-- What a constant operand of a line sets I to is I. -/
theorem Form.TakesAll.lowI (t : r.TakesAll i d a b c) (hk : r.namesK (Enc.line op fn h i m d a b c) = true) :
    (Enc.line op fn h i m d a b c).i.toNat % 4096 = 0 := by
  obtain ⟨hab, hac, hbc⟩ := t.one
  simp only [Form.namesK, Bool.or_eq_true, Enc.line_a, Enc.line_b, Enc.line_c] at hk
  rw [Enc.line_i]
  rcases hk with (hk | hk) | hk
  · obtain ⟨v, hv, hl⟩ := t.takesA.setsI hk
    have hn : a.2 ≠ none := by simp [hv]
    simpa [hab.resolve_left hn, hac.resolve_left hn, hv] using hl
  · obtain ⟨v, hv, hl⟩ := t.takesB.setsI hk
    have hn : b.2 ≠ none := by simp [hv]
    simpa [hbc.resolve_left hn, hv] using hl
  · rcases t.takesC with tc | ⟨-, hc, -⟩
    · obtain ⟨v, hv, hl⟩ := tc.setsI hk
      simpa [hv] using hl
    · simp [posK, hc] at hk
theorem Form.TakesAll.iOk (t : r.TakesAll i d a b c) : r.iOk (Enc.line op fn h i m d a b c) = true := by
  have hn : r.namesI (Enc.line op fn h i m d a b c) = (a.2.isSome || b.2.isSome || c.2.isSome) := by
    simp [Form.namesI, t.takesA.names, t.takesB.names, t.namesC]
  unfold Form.iOk
  split
  · cases hk : r.namesK (Enc.line op fn h i m d a b c) with
    | false => rfl
    | true => simp only [t.lowI hk, BEq.rfl, Bool.or_true]
  · rename_i hi
    have hl : (Enc.line op fn h i m d a b c).i = i := by
      simp only [hn, Bool.or_eq_true, not_or, Bool.not_eq_true, Option.isSome_eq_false_iff, Option.isNone_iff_eq_none] at hi
      simp only [Enc.line_i, hi, Option.getD_none]
    have := t.restI
    rw [hl]
    unfold IUse.allows at this
    split at this <;> simp_all
end

/-- A line whose row takes its operands and its MOD decodes to what the row builds. -/
theorem decodes_line {op fn : Nat} {h : Hdr} {i : W32} {m : Nat} {d : Byte} {a b c : Enc.Opnd} {r : Form} {x : Instr}
    (hr : form (Enc.line op fn h i m d a b c) = some r) (hg : (if r.guard then h.any else h.unguarded) = true)
    (ht : r.TakesAll i d a b c) (hm : r.modOk (Enc.line op fn h i m d a b c) = true) (hb : r.build (Enc.line op fn h i m d a b c) = x) :
    decodeFields (Enc.line op fn h i m d a b c) = .ok x := by
  have hf : h.feat.val ≤ 8 := by
    split at hg
    · simpa [Hdr.any, Hdr.featOk] using hg
    · simp only [Hdr.unguarded, Hdr.featOk, Bool.and_eq_true, decide_eq_true_eq] at hg; exact hg.1
  have hp : r.guard = false → (Enc.line op fn h i m d a b c).pred = 0#3 := by
    intro hc
    simp only [hc, Hdr.unguarded, Bool.and_eq_true, beq_iff_eq, Bool.false_eq_true, if_false] at hg
    exact Enc.line_pred _ _ _ _ _ _ _ _ _ hg.2
  have hc : (r.count || restOk r.c c.1) = true := by
    rcases ht.takesC with t | ⟨h, -⟩
    · rw [t.rest, Bool.or_true]
    · rw [h, Bool.true_or]
  have hd : restOk r.d d = true := ht.takesD.rest
  have hbad : r.badField (Enc.line op fn h i m d a b c) = none := by
    simpa [Form.badField, hd, ht.takesA.rest, ht.takesB.rest, hc, hm, ht.iOk] using hp
  simp only [decodeFields, hr, ht.classesOk, Enc.line_feat, hbad, hb]
  simp [hf]


namespace Form
section
variable (dd aa bb cc : Option (List Cls)) (g : Bool) (ok : Fields → Bool) (bd : Fields → Instr) (f : Fields) (i : W32) (d : Byte) (a b c : Enc.Opnd)

@[simp] theorem row_guard : (row dd aa bb cc g ok bd).guard = g := rfl
@[simp] theorem row_modOk : (row dd aa bb cc g ok bd).modOk f = ok f := rfl
@[simp] theorem row_build : (row dd aa bb cc g ok bd).build f = bd f := rfl
theorem takesAll_mk (u : IUse) : (Form.mk dd aa bb cc false u g ok bd).TakesAll i d a b c ↔ Takes dd (Enc.reg d) ∧ Takes aa a ∧ Takes bb b ∧ Takes cc c ∧
    (a.2 = none ∨ b.2 = none) ∧ (a.2 = none ∨ c.2 = none) ∧ (b.2 = none ∨ c.2 = none) ∧ u.allows i = true :=
  ⟨fun ⟨h1, h2, h3, h4, ⟨h5, h6, h7⟩, h8⟩ => ⟨h1, h2, h3, h4.resolve_right (nofun), h5, h6, h7, h8⟩,
    fun ⟨h1, h2, h3, h4, h5, h6, h7, h8⟩ => ⟨h1, h2, h3, .inl h4, ⟨h5, h6, h7⟩, h8⟩⟩
@[simp] theorem takesAll_row : (row dd aa bb cc g ok bd).TakesAll 0#32 d a b c ↔ Takes dd (Enc.reg d) ∧ Takes aa a ∧ Takes bb b ∧ Takes cc c ∧
    (a.2 = none ∨ b.2 = none) ∧ (a.2 = none ∨ c.2 = none) ∧ (b.2 = none ∨ c.2 = none) :=
  ⟨fun ⟨h1, h2, h3, h4, h5, _⟩ => ⟨h1, h2, h3, h4.resolve_right (nofun), h5⟩, fun ⟨h1, h2, h3, h4, h5⟩ => ⟨h1, h2, h3, .inl h4, h5, rfl⟩⟩
end
end Form

/-! ## MOD -/

namespace Enc

@[simp] theorem modOf_zero : modOf 0 = 0 := rfl
@[simp] theorem intTy_modOf (t : IntTy) : intTy (modOf t.code % 8) = t := by cases t <;> rfl
@[simp] theorem intTy_intMod (t : IntTy) (b : Bool) : intTy (modOf (intMod t b) % 8) = t := by cases t <;> cases b <;> rfl
@[simp] theorem sat_intMod (t : IntTy) (b : Bool) : modBit (intMod t b) 3 = b := by cases t <;> cases b <;> rfl
@[simp] theorem intTy_scTy (x : Scope) (t : IntTy) : intTy (modOf (scTy x t) % 8) = t := by cases x <;> cases t <;> rfl
@[simp] theorem scope_scTy (x : Scope) (t : IntTy) : scopeOf (modOf (scTy x t) / 8) = x := by cases x <;> cases t <;> rfl
@[simp] theorem scope_code (x : Scope) : scopeOf (modOf (x.code * 8) / 8) = x := by cases x <;> rfl
@[simp] theorem rm_code (x : Rm) : rmOf (modOf x.code) = x := by cases x <;> rfl
@[simp] theorem rm_code8 (x : Rm) : rmOf (modOf x.code % 8) = x := by cases x <;> rfl
@[simp] theorem rm_fltMod (x : Rm) (b : Bool) : rmOf (modOf (fltMod x b) % 8) = x := by cases x <;> cases b <;> rfl
@[simp] theorem sat_fltMod (x : Rm) (b : Bool) : modBit (fltMod x b) 3 = b := by cases x <;> cases b <;> rfl
@[simp] theorem lane_code (t : LaneTy) : laneTy (modOf t.code % 8) = t := by cases t <;> rfl
section
variable (p q r : Bool) (x : Scope)
@[simp] theorem scope_jobMod : scopeOf (modOf (jobMod p q x r) / 2 % 4) = x := by cases x <;> revert p q r <;> decide
@[simp] theorem bit4_jobMod : modBit (jobMod p q x r) 4 = p := by cases x <;> revert p q r <;> decide
@[simp] theorem bit3_jobMod : modBit (jobMod p q x r) 3 = q := by cases x <;> revert p q r <;> decide
@[simp] theorem bit0_jobMod : modBit (jobMod p q x r) 0 = r := by cases x <;> revert p q r <;> decide
@[simp] theorem even_jobMod : modOf (jobMod p q x false) % 2 = 0 := by cases x <;> revert p q <;> decide
end
@[simp] theorem bit0_bool (b : Bool) : modBit b.toNat 0 = b := by cases b <;> rfl
@[simp] theorem gsize_size (x : GSize) : gsize (modOf x.code) = x := by cases x <;> rfl
theorem modOf_mul8 {x y : Nat} (hx : x < 4) (hy : y < 8) : modOf (x * 8 + y) % 8 = y ∧ modOf (x * 8 + y) / 8 = x := by
  simp only [modOf, BitVec.toNat_ofNat]; omega
theorem modOf_fin {n : Nat} (x : Fin n) (hn : n ≤ 32) : modOf x.val = x.val := by
  simp only [modOf, BitVec.toNat_ofNat]; omega
/-- MAP, or the matrix forms' check bit, above the rest of MOD. -/
theorem modOf_mapped {y : Nat} (b : Bool) (hy : y < 16) : modOf (b.toNat * 16 + y) % 16 = y ∧ modBit (b.toNat * 16 + y) 4 = b := by
  cases b <;> simp [modBit, modOf] <;> omega
@[simp] theorem modOf_map (b : Bool) : modOf (b.toNat * 16) % 16 = 0 ∧ modBit (b.toNat * 16) 4 = b := by revert b; decide
theorem modOf_mapRm (b : Bool) (r : Rm) : modOf (b.toNat * 16 + r.code) % 8 = r.code := by cases r <;> revert b <;> decide
theorem modOf_mapStrictRm (b t : Bool) (r : Rm) : modOf (b.toNat * 16 + t.toNat * 8 + r.code) % 8 = r.code ∧
    modBit (b.toNat * 16 + t.toNat * 8 + r.code) 4 = b ∧ modBit (b.toNat * 16 + t.toNat * 8 + r.code) 3 = t := by
  cases r <;> revert b t <;> decide
theorem code_noRna {r : Rm} (h : r.noRna = true) : r.code < 4 := by revert h; cases r <;> decide
@[simp] theorem modOf_gsize (x : GSize) : 1 ≤ modOf x.code ∧ modOf x.code ≤ 3 := by cases x <;> decide
@[simp] theorem plevel_level (x : PLevel) : plevel (modOf x.code) = x := by cases x <;> rfl
@[simp] theorem modOf_plevel (x : PLevel) : modOf x.code < 3 := by cases x <;> decide
@[simp] theorem modOf_bool_lt (b : Bool) : modOf b.toNat ≤ 1 := by cases b <;> decide

end Enc

namespace Form
section
variable (op fn : Nat) (h : Hdr) (i : W32) (d : Byte) (a b c : Enc.Opnd)

@[simp] theorem mod0_line : mod0 (Enc.line op fn h i 0 d a b c) = true := rfl
@[simp] theorem modAny_line (f : Fields) : modAny f = true := rfl
@[simp] theorem modInt_line (t : IntTy) (x y : Bool) (hs : (x || !y) = true) : modInt x (Enc.line op fn h i (Enc.intMod t y) d a b c) = true := by
  change decide (Enc.modOf _ < _) = true
  revert hs
  cases t <;> revert x y <;> decide
@[simp] theorem modInt_line_code (t : IntTy) (x : Bool) : modInt x (Enc.line op fn h i t.code d a b c) = true := by
  change decide (Enc.modOf _ < _) = true
  cases t <;> revert x <;> decide
theorem modVInt_line (t : IntTy) (x y : Bool) (hs : (x || !y) = true) (ht : t.vec = true) :
    modVInt x (Enc.line op fn h i (Enc.intMod t y) d a b c) = true := by
  rw [modVInt, modInt_line op fn h i d a b c t x y hs]
  change (Enc.modOf _ % 4 != 0) = true
  clear hs
  revert ht
  cases t <;> revert y <;> decide
@[simp] theorem modFlt_line (x : Rm) (y : Bool) (hx : x.noRna = true) : modFlt (Enc.line op fn h i (Enc.fltMod x y) d a b c) = true := by
  change (decide (Enc.modOf _ < 16) && decide (Enc.modOf _ % 8 < 4)) = true
  revert hx
  cases x <;> revert y <;> decide
@[simp] theorem modRm_line (x : Rm) (hx : x.noRna = true) : modRm (Enc.line op fn h i x.code d a b c) = true := by
  change decide (Enc.modOf _ < 4) = true
  revert hx
  cases x <;> decide
@[simp] theorem modScope_line (x : Scope) : modScope (Enc.line op fn h i (x.code * 8) d a b c) = true := by
  change (Enc.modOf _ % 8 == 0) = true
  cases x <;> decide
@[simp] theorem modAtomic_line (x : Scope) (t : IntTy) (ht : t.atomic = true) : modAtomic (Enc.line op fn h i (Enc.scTy x t) d a b c) = true := by
  change decide (Enc.modOf _ % 4 < 2) = true
  revert ht
  cases x <;> cases t <;> decide
end
end Form

end Sys2Proof
end

section
/-! SUPPORT. Encode, then decode (04 R75 to R84): one lemma for each row of the encoding tables, and the statement that no bit is dropped. -/

namespace Sys2Proof

/-! ## The instructions -/

/-- The word of a well-formed instruction decodes to it. -/
def Decodes (x : Instr) : Prop := ∀ f, x.wf = true → encodeFields x = some f → decodeFields f = .ok x

namespace Decodes
open Enc

/-- An instruction whose fields are a line decodes if a row takes the line and builds the instruction from it. -/
theorem of_line {x : Instr} {r : Form} (op fn : Nat) (h : Hdr) (i : W32) (m : Nat) (d : Byte) (a b c : Opnd)
    (he : encodeFields x = some (line op fn h i m d a b c)) (hr : x.wf = true → form (line op fn h i m d a b c) = some r)
    (hg : x.wf = true → (if r.guard then h.any else h.unguarded) = true) (ht : x.wf = true → r.TakesAll i d a b c)
    (hm : x.wf = true → r.modOk (line op fn h i m d a b c) = true) (hb : x.wf = true → r.build (line op fn h i m d a b c) = x) : Decodes x := by
  intro f hw hf
  cases he.symm.trans hf
  exact decodes_line (hr hw) (hg hw) (ht hw) (hm hw) (hb hw)

/-! ### Rows that several instructions share -/

section
variable (op fn : Nat)

theorem intA (k : IntA → Instr) (sat : Bool) (x : IntA) (he : encodeFields (k x) = some (Enc.intA fn x op))
    (hr : form (Enc.intA fn x op) = some (Form.intA k sat)) (hw : (k x).wf = true → x.wf sat = true) : Decodes (k x) :=
  of_line op fn x.h 0 (intMod x.ty x.sat) (s x.d) (reg (s x.a)) (src x.b) unused he (fun _ => hr) (fun h => Bool.and_elim_left (hw h))
    (by simp [Form.intA]) (fun h => Form.modInt_line _ _ _ _ _ _ _ _ _ _ _ (Bool.and_elim_right (hw h))) (by simp [Form.intA])
theorem intSh (k : IntSh → Instr) (sat : Bool) (ok : Fields → Bool) (x : IntSh) (he : encodeFields (k x) = some (Enc.intSh op fn x))
    (hr : form (Enc.intSh op fn x) = some (Form.intSh k sat ok)) (hw : (k x).wf = true → x.wf sat = true ∧ ok (Enc.intSh op fn x) = true) :
    Decodes (k x) :=
  of_line op fn x.h 0 (intMod x.ty x.sat) (s x.d) (reg (s x.a)) (si x.b) unused he (fun _ => hr) (fun h => Bool.and_elim_left (hw h).1)
    (by simp [Form.intSh]) (fun h => Bool.and_intro (Form.modInt_line _ _ _ _ _ _ _ _ _ _ _ (Bool.and_elim_right (hw h).1)) (hw h).2)
    (by simp [Form.intSh])
theorem intU (k : IntU → Instr) (ok : Fields → Bool) (x : IntU) (he : encodeFields (k x) = some (Enc.intU fn x))
    (hr : form (Enc.intU fn x) = some (Form.intU k ok)) (hw : (k x).wf = true → x.wf = true ∧ ok (Enc.intU fn x) = true) : Decodes (k x) :=
  of_line 0x12 fn x.h 0 x.ty.code (s x.d) (reg (s x.a)) unused unused he (fun _ => hr) (fun h => (hw h).1)
    (by simp [Form.intU]) (fun h => Bool.and_intro (Form.modInt_line_code _ _ _ _ _ _ _ _ _ _) (hw h).2) (by simp [Form.intU])
theorem cmp (k : Cmp → Instr) (x : Cmp) (he : encodeFields (k x) = some (Enc.cmp fn x)) (hr : form (Enc.cmp fn x) = some (Form.cmp k))
    (hw : (k x).wf = true → x.h.any = true) : Decodes (k x) :=
  of_line 0x13 fn x.h 0 x.ty.code (sp x.d) (reg (s x.a)) (src x.b) unused he (fun _ => hr) hw (by simp [Form.cmp]) (by simp [Form.cmp])
    (by simp [Form.cmp])
theorem ppp (k : PPP → Instr) (x : PPP) (he : encodeFields (k x) = some (Enc.ppp fn x)) (hr : form (Enc.ppp fn x) = some (Form.ppp k))
    (hw : (k x).wf = true → x.h.any = true) : Decodes (k x) :=
  of_line 0x15 fn x.h 0 0 (p x.d) (reg (p x.a)) (reg (p x.b)) unused he (fun _ => hr) hw (by simp [Form.ppp]) (by simp [Form.ppp])
    (by simp [Form.ppp])
theorem spr (k : SPr → Instr) (x : SPr) (he : encodeFields (k x) = some (Enc.spr fn x)) (hr : form (Enc.spr fn x) = some (Form.spr k))
    (hw : (k x).wf = true → x.h.any = true) : Decodes (k x) :=
  of_line 0x15 fn x.h 0 0 (s x.d) (reg (p x.a)) unused unused he (fun _ => hr) hw (by simp [Form.spr]) (by simp [Form.spr]) (by simp [Form.spr])
theorem hOnly (k : HOnly → Instr) (g : Bool) (x : HOnly) (he : encodeFields (k x) = some (Enc.hOnly op fn x))
    (hr : form (Enc.hOnly op fn x) = some (Form.hOnly k g)) (hw : (k x).wf = true → (if g then x.h.any else x.h.unguarded) = true) : Decodes (k x) :=
  of_line op fn x.h 0 0 0xFF unused unused unused he (fun _ => hr) hw (by simp [Form.hOnly]) (by simp [Form.hOnly]) (by simp [Form.hOnly])
theorem dOnly (k : DOnly → Instr) (g : Bool) (x : DOnly) (he : encodeFields (k x) = some (Enc.dOnly op fn x))
    (hr : form (Enc.dOnly op fn x) = some (Form.dOnly k g)) (hw : (k x).wf = true → (if g then x.h.any else x.h.unguarded) = true) : Decodes (k x) :=
  of_line op fn x.h 0 0 (s x.d) unused unused unused he (fun _ => hr) hw (by simp [Form.dOnly]) (by simp [Form.dOnly]) (by simp [Form.dOnly])
theorem da (k : DA → Instr) (g : Bool) (x : DA) (he : encodeFields (k x) = some (Enc.da op fn x))
    (hr : form (Enc.da op fn x) = some (Form.da k g)) (hw : (k x).wf = true → (if g then x.h.any else x.h.unguarded) = true) : Decodes (k x) :=
  of_line op fn x.h 0 0 (s x.d) (reg (s x.a)) unused unused he (fun _ => hr) hw (by simp [Form.da]) (by simp [Form.da]) (by simp [Form.da])
theorem dsi (k : DSI → Instr) (g : Bool) (x : DSI) (he : encodeFields (k x) = some (Enc.dsi op fn x))
    (hr : form (Enc.dsi op fn x) = some (Form.dsi k g)) (hw : (k x).wf = true → (if g then x.h.any else x.h.unguarded) = true) : Decodes (k x) :=
  of_line op fn x.h 0 0 (s x.d) (si x.a) unused unused he (fun _ => hr) hw (by simp [Form.dsi]) (by simp [Form.dsi]) (by simp [Form.dsi])
theorem aOnly (k : AOnly → Instr) (g : Bool) (x : AOnly) (he : encodeFields (k x) = some (Enc.aOnly op fn x))
    (hr : form (Enc.aOnly op fn x) = some (Form.aOnly k g)) (hw : (k x).wf = true → (if g then x.h.any else x.h.unguarded) = true) : Decodes (k x) :=
  of_line op fn x.h 0 0 0xFF (reg (s x.a)) unused unused he (fun _ => hr) hw (by simp [Form.aOnly]) (by simp [Form.aOnly]) (by simp [Form.aOnly])
theorem brO (k : BrO → Instr) (x : BrO) (he : encodeFields (k x) = some (Enc.brO op fn x))
    (hr : form (Enc.brO op fn x) = some (Form.brO k)) (hw : (k x).wf = true → x.h.any = true) : Decodes (k x) :=
  of_line op fn x.h x.off 0 0xFF unused unused unused he (fun _ => hr) hw (by simp [Form.brO, Form.takesAll_mk, IUse.allows]) (by simp [Form.brO])
    (by simp [Form.brO])
theorem csi (k : CSI → Instr) (x : CSI) (he : encodeFields (k x) = some (Enc.csi fn x)) (hr : form (Enc.csi fn x) = some (Form.csi k))
    (hw : (k x).wf = true → x.h.unguarded = true) : Decodes (k x) :=
  of_line 0x34 fn x.h 0 0 (c x.d) (si x.a) unused unused he (fun _ => hr) hw (by simp [Form.csi]) (by simp [Form.csi]) (by simp [Form.csi])
theorem cbW (k : CbW → Instr) (x : CbW) (he : encodeFields (k x) = some (Enc.cbW fn x)) (hr : form (Enc.cbW fn x) = some (Form.cbW k))
    (hw : (k x).wf = true → x.h.unguarded = true) : Decodes (k x) :=
  of_line 0x34 fn x.h 0 0 (s x.d) (reg (c x.a)) unused (reg (BitVec.ofNat 8 x.n.val)) he (fun _ => hr) hw
    (fun _ => ⟨takes_s _, takes_c _, takes_unused, .inr ⟨rfl, rfl, rfl⟩, ⟨.inl rfl, .inl rfl, .inl rfl⟩, rfl⟩) (by simp [Form.cbW])
    (by simp [Form.cbW])
theorem tsi (k : TSI → Instr) (x : TSI) (he : encodeFields (k x) = some (Enc.tsi op fn x)) (hr : form (Enc.tsi op fn x) = some (Form.tsi k))
    (hw : (k x).wf = true → x.h.unguarded = true) : Decodes (k x) :=
  of_line op fn x.h 0 0 (t x.d) (si x.a) unused unused he (fun _ => hr) hw (by simp [Form.tsi]) (by simp [Form.tsi]) (by simp [Form.tsi])
theorem vint (k : VInt → Instr) (sat : Bool) (x : VInt) (he : encodeFields (k x) = some (Enc.vint fn x))
    (hr : form (Enc.vint fn x) = some (Form.vint k sat)) (hw : (k x).wf = true → x.wf sat = true) : Decodes (k x) :=
  of_line 0x88 fn x.h 0 (intMod x.ty x.sat) (v x.d) (reg (v x.a)) (vsrc x.b) unused he (fun _ => hr)
    (fun h => Bool.and_elim_left (Bool.and_elim_left (hw h))) (by simp [Form.vint])
    (fun h => Form.modVInt_line _ _ _ _ _ _ _ _ _ _ _ (Bool.and_elim_right (hw h)) (Bool.and_elim_right (Bool.and_elim_left (hw h)))) (by simp [Form.vint])
theorem vintSh (k : VIntSh → Instr) (sat : Bool) (x : VIntSh) (he : encodeFields (k x) = some (Enc.vintSh fn x))
    (hr : form (Enc.vintSh fn x) = some (Form.vintSh k sat)) (hw : (k x).wf = true → x.wf sat = true) : Decodes (k x) :=
  of_line 0x88 fn x.h 0 (intMod x.ty x.sat) (v x.d) (reg (v x.a)) (vsi x.b) unused he (fun _ => hr)
    (fun h => Bool.and_elim_left (Bool.and_elim_left (hw h))) (by simp [Form.vintSh])
    (fun h => Form.modVInt_line _ _ _ _ _ _ _ _ _ _ _ (Bool.and_elim_right (hw h)) (Bool.and_elim_right (Bool.and_elim_left (hw h)))) (by simp [Form.vintSh])
theorem vv (k : VV → Instr) (x : VV) (he : encodeFields (k x) = some (Enc.vv op fn x)) (hr : form (Enc.vv op fn x) = some (Form.vv k))
    (hw : (k x).wf = true → x.h.any = true) : Decodes (k x) :=
  of_line op fn x.h 0 0 (v x.d) (reg (v x.a)) unused unused he (fun _ => hr) hw (by simp [Form.vv]) (by simp [Form.vv]) (by simp [Form.vv])
theorem vvv (k : VVV → Instr) (x : VVV) (he : encodeFields (k x) = some (Enc.vvv op fn x)) (hr : form (Enc.vvv op fn x) = some (Form.vvv k))
    (hw : (k x).wf = true → x.h.any = true) : Decodes (k x) :=
  of_line op fn x.h 0 0 (v x.d) (reg (v x.a)) (reg (v x.b)) unused he (fun _ => hr) hw (by simp [Form.vvv]) (by simp [Form.vvv]) (by simp [Form.vvv])
end

section
variable (fn : Nat)

/-- OP names the type of the floating forms. -/
theorem form_float (fn : Nat) (t : FTy) (h : Hdr) (i : W32) (m : Nat) (d : Byte) (a b c : Opnd) :
    form (line (0x80 + t.code) fn h i m d a b c) = formFloat t (BitVec.ofNat 8 fn).toNat := by
  have ho : (line (0x80 + t.code) fn h i m d a b c).op.toNat = 0x80 + t.code := by cases t <;> rfl
  have ht : t.code < 5 := by cases t <;> decide
  simp only [form, ho]
  iterate 6 rw [if_neg (by omega)]
  rw [if_pos (by omega), Nat.add_sub_cancel_left, fty_code]
  rfl

theorem vflt (k : VFlt → Instr) (x : VFlt) (he : encodeFields (k x) = some (Enc.vflt fn x))
    (hr : formFloat x.ft (BitVec.ofNat 8 fn).toNat = some (Form.vflt k x.ft)) (hw : (k x).wf = true → x.wf = true) : Decodes (k x) :=
  of_line (0x80 + x.ft.code) fn x.h 0 (fltMod x.rm x.sat) (v x.d) (reg (v x.a)) (vsrc x.b) unused he (fun _ => (form_float ..).trans hr)
    (fun h => Bool.and_elim_left (hw h)) (by simp [Form.vflt]) (fun h => Form.modFlt_line _ _ _ _ _ _ _ _ _ _ (Bool.and_elim_right (hw h)))
    (by simp [Form.vflt])
theorem vfma (k : VFma → Instr) (x : VFma) (he : encodeFields (k x) = some (Enc.vfma fn x))
    (hr : formFloat x.ft (BitVec.ofNat 8 fn).toNat = some (Form.vfma k x.ft)) (hw : (k x).wf = true → (x.h.any && x.rm.noRna) = true) : Decodes (k x) :=
  of_line (0x80 + x.ft.code) fn x.h 0 (fltMod x.rm x.sat) (v x.d) (reg (v x.a)) (vsrc x.b) (reg (v x.c)) he (fun _ => (form_float ..).trans hr)
    (fun h => Bool.and_elim_left (hw h)) (by simp [Form.vfma]) (fun h => Form.modFlt_line _ _ _ _ _ _ _ _ _ _ (Bool.and_elim_right (hw h)))
    (by simp [Form.vfma])
theorem vfmm (k : VFMM → Instr) (x : VFMM) (he : encodeFields (k x) = some (Enc.vfmm fn x))
    (hr : formFloat x.ft (BitVec.ofNat 8 fn).toNat = some (Form.vfmm k x.ft)) (hw : (k x).wf = true → x.h.any = true) : Decodes (k x) :=
  of_line (0x80 + x.ft.code) fn x.h 0 0 (v x.d) (reg (v x.a)) (vsrc x.b) unused he (fun _ => (form_float ..).trans hr) hw (by simp [Form.vfmm])
    (by simp [Form.vfmm]) (by simp [Form.vfmm])
theorem vfu (k : VFU → Instr) (x : VFU) (he : encodeFields (k x) = some (Enc.vfu fn x))
    (hr : formFloat x.ft (BitVec.ofNat 8 fn).toNat = some (Form.vfu k x.ft)) (hw : (k x).wf = true → x.h.any = true) : Decodes (k x) :=
  of_line (0x80 + x.ft.code) fn x.h 0 0 (v x.d) (reg (v x.a)) unused unused he (fun _ => (form_float ..).trans hr) hw (by simp [Form.vfu])
    (by simp [Form.vfu]) (by simp [Form.vfu])
/-- FN tells the compares of integers from those of floats. -/
theorem vcmp (k : VCmp → Instr) (x : VCmp) (he : encodeFields (k x) = some (Enc.vcmp fn x))
    (hf : formVector 0x85 (BitVec.ofNat 8 fn).toNat = some (Form.vcmpF k))
    (hi : (k x).wf = true → x.ty ≠ .f32 → formVector 0x85 (BitVec.ofNat 8 (0x10 + fn)).toNat = some (Form.vcmpI k))
    (hw : (k x).wf = true → x.h.any = true) : Decodes (k x) := by
  obtain ⟨h, ty, d, a, b⟩ := x
  cases ty
  case f32 =>
    exact of_line 0x85 fn h 0 0 (p d) (reg (v a)) (vsrc b) unused he (fun _ => hf) hw (by simp [Form.vcmpF]) (by simp [Form.vcmpF])
      (by simp [Form.vcmpF])
  all_goals
    exact of_line 0x85 (0x10 + fn) h 0 (LaneTy.code _) (p d) (reg (v a)) (vsrc b) unused he (fun w => hi w nofun) hw (by simp [Form.vcmpI])
      (fun _ => rfl) (by simp [Form.vcmpI])
theorem atom (k : Atom → Instr) (x : Atom) (he : encodeFields (k x) = some (Enc.atom fn x))
    (hr : ∀ o : Ord, formSync 0x60 (BitVec.ofNat 8 (o.code * 16 + fn)).toNat = some (Form.atom k o))
    (hw : (k x).wf = true → (x.h.any && x.ty.atomic) = true) : Decodes (k x) :=
  of_line 0x60 (x.ord.code * 16 + fn) x.h 0 (scTy x.scope x.ty) (s x.d) (reg (s x.m.base)) (si x.m.off) (reg (s x.c)) he (fun _ => hr x.ord)
    (fun h => Bool.and_elim_left (hw h)) (by simp [Form.atom]) (fun h => Form.modAtomic_line _ _ _ _ _ _ _ _ _ _ (Bool.and_elim_right (hw h)))
    (by simp [Form.atom])
theorem mred (k : MRed → Instr) (x : MRed) (he : encodeFields (k x) = some (Enc.mred fn x))
    (hr : ∀ b : Bool, formSync 0x61 (BitVec.ofNat 8 (b.toNat * 32 + fn)).toNat = some (Form.mred k b))
    (hw : (k x).wf = true → (x.h.any && x.ty.atomic) = true) : Decodes (k x) :=
  of_line 0x61 (x.rel.toNat * 32 + fn) x.h 0 (scTy x.scope x.ty) 0xFF (reg (s x.m.base)) (si x.m.off) (reg (s x.c)) he (fun _ => hr x.rel)
    (fun h => Bool.and_elim_left (hw h)) (by simp [Form.mred]) (fun h => Form.modAtomic_line _ _ _ _ _ _ _ _ _ _ (Bool.and_elim_right (hw h)))
    (by simp [Form.mred])
end

/-! ### Reductions -/

section
variable {op fn : Nat} {h : Hdr} {i : W32} {d : Byte} {a b c : Opnd} {ty : Red} {x : Bool}

/-- The type of an integer reduction and its overflow bit are read back from MOD, below MAP where there is one. -/
theorem redTy_line (ht : ty = .i32 x ∨ ty = .n32 x) : Form.redTy (line op fn h i (redMod ty) d a b c) = ty := by
  change (if modOf _ % 8 == 1 then Red.i32 (modBit _ 3) else .n32 (modBit _ 3)) = _
  rcases ht with rfl | rfl <;> revert x <;> decide
theorem redTy_mapped (g : Bool) (ht : ty = .i32 x ∨ ty = .n32 x) : Form.redTy (line op fn h i (g.toNat * 16 + redMod ty) d a b c) = ty := by
  change (if modOf _ % 8 == 1 then Red.i32 (modBit _ 3) else .n32 (modBit _ 3)) = _
  rcases ht with rfl | rfl <;> revert g x <;> decide
theorem modLane_line (sat : Bool) (ht : ty = .i32 x ∨ ty = .n32 x) (hs : (sat || !x) = true) :
    Form.modLane sat (line op fn h i (redMod ty) d a b c) = true := by
  change (modOf _ == 1 || modOf _ == 5 || (sat && (modOf _ == 9 || modOf _ == 13))) = true
  revert hs
  rcases ht with rfl | rfl <;> revert sat x <;> decide
theorem modLane_mapped (g sat : Bool) (ht : ty = .i32 x ∨ ty = .n32 x) (hs : (sat || !x) = true) :
    Form.modLane sat (Form.lo (line op fn h i (g.toNat * 16 + redMod ty) d a b c)) = true := by
  have hm : (Form.lo (line op fn h i (g.toNat * 16 + redMod ty) d a b c)).m = modOf (modOf (g.toNat * 16 + redMod ty) % 16) := rfl
  simp only [Form.modLane, hm]
  clear hm
  revert hs
  rcases ht with rfl | rfl <;> revert g sat x <;> decide
end

section
variable (op fn : Nat) (k : VRed → Instr)

theorem vredF (ok : Fields → Bool) (h : Hdr) (rm : Rm) (d : SReg) (a : VReg)
    (he : encodeFields (k ⟨h, .f32 rm, d, a⟩) = some (Enc.vred op fn ⟨h, .f32 rm, d, a⟩))
    (hr : ∀ d a, form (line op fn h 0 rm.code d a unused unused) = some (Form.redF k ok)) (hw : (k ⟨h, .f32 rm, d, a⟩).wf = true → h.any = true)
    (hm : (k ⟨h, .f32 rm, d, a⟩).wf = true → ∀ d a, ok (line op fn h 0 rm.code d a unused unused) = true) : Decodes (k ⟨h, .f32 rm, d, a⟩) :=
  of_line op fn h 0 rm.code (s d) (reg (v a)) unused unused he (fun _ => hr ..) hw (by simp [Form.redF]) (fun w => hm w ..) (by simp [Form.redF])
theorem vredI (sat : Bool) (h : Hdr) {ty : Red} {x : Bool} (ht : ty = .i32 x ∨ ty = .n32 x) (d : SReg) (a : VReg)
    (he : encodeFields (k ⟨h, ty, d, a⟩) = some (Enc.vred op fn ⟨h, ty, d, a⟩))
    (hr : ∀ m d a, form (line op (8 + fn) h 0 m d a unused unused) = some (Form.redI k sat))
    (hw : (k ⟨h, ty, d, a⟩).wf = true → (h.any && (sat || !x)) = true) : Decodes (k ⟨h, ty, d, a⟩) :=
  of_line op (8 + fn) h 0 (redMod ty) (s d) (reg (v a)) unused unused (by rcases ht with rfl | rfl <;> exact he) (fun _ => hr ..)
    (fun w => Bool.and_elim_left (hw w)) (by simp [Form.redI]) (fun w => modLane_line sat ht (Bool.and_elim_right (hw w)))
    (by simp [Form.redI, redTy_line ht])
/-- A sum has a rounding or an overflow group. -/
theorem vredSum (x : VRed) (he : encodeFields (k x) = some (Enc.vred op fn x))
    (hf : ∀ h m d a, form (line op fn h 0 m d a unused unused) = some (Form.redF k Form.modRm))
    (hi : ∀ h m d a, form (line op (8 + fn) h 0 m d a unused unused) = some (Form.redI k true))
    (hw : (k x).wf = true → (x.h.any && x.ty.noRna) = true) : Decodes (k x) := by
  obtain ⟨h, ty, d, a⟩ := x
  cases ty with
  | f32 rm =>
    exact vredF op fn k _ h rm d a he (fun _ _ => hf ..) (fun w => Bool.and_elim_left (hw w))
      fun w _ _ => Form.modRm_line _ _ _ _ _ _ _ _ _ (Bool.and_elim_right (hw w))
  | i32 b => exact vredI op fn k true h (.inl rfl) d a he (fun _ _ _ => hi ..) hw
  | n32 b => exact vredI op fn k true h (.inr rfl) d a he (fun _ _ _ => hi ..) hw
/-- A maximum or minimum has neither. -/
theorem vredPlain (x : VRed) (he : encodeFields (k x) = some (Enc.vred op fn x))
    (hf : ∀ h m d a, form (line op fn h 0 m d a unused unused) = some (Form.redF k Form.mod0))
    (hi : ∀ h m d a, form (line op (8 + fn) h 0 m d a unused unused) = some (Form.redI k false))
    (hw : (k x).wf = true → (x.h.any && x.ty.plain) = true) : Decodes (k x) := by
  obtain ⟨h, ty, d, a⟩ := x
  cases ty with
  | f32 rm =>
    exact vredF op fn k _ h rm d a he (fun _ _ => hf ..) (fun w => Bool.and_elim_left (hw w))
      fun w _ _ => by cases eq_of_beq (Bool.and_elim_right (hw w) : (rm == .rne) = true); rfl
  | i32 b => exact vredI op fn k false h (.inl rfl) d a he (fun _ _ _ => hi ..) hw
  | n32 b => exact vredI op fn k false h (.inr rfl) d a he (fun _ _ _ => hi ..) hw
end

section
variable (fn : Nat) (k : RVRed → Instr) (h : Hdr) (map : Bool) (d a : VReg) (b c : SI)

theorem rvredF (red : Fields → Red) (ok : Fields → Bool) (rm : Rm)
    (he : encodeFields (k ⟨h, map, .f32 rm, d, a, b, c⟩) = some (Enc.rvred fn ⟨h, map, .f32 rm, d, a, b, c⟩))
    (hr : ∀ m d a b c, form (line 0xC2 fn h 0 m d a b c) = some (Form.rvred k red ok))
    (hw : (k ⟨h, map, .f32 rm, d, a, b, c⟩).wf = true → h.any = true ∧ (!(b.namesI && c.namesI)) = true)
    (hm : (k ⟨h, map, .f32 rm, d, a, b, c⟩).wf = true → ∀ f : Fields, f.m = modOf (map.toNat * 16 + rm.code) → ok f = true ∧ red f = .f32 rm) :
    Decodes (k ⟨h, map, .f32 rm, d, a, b, c⟩) :=
  of_line 0xC2 fn h 0 (map.toNat * 16 + rm.code) (v d) (reg (v a)) (si b) (si c) he (fun _ => hr ..) (fun w => (hw w).1)
    (fun w => by simpa [Form.rvred] using (hw w).2) (fun w => (hm w _ rfl).1)
    (fun w => by simp [Form.rvred, modOf_mapped map (y := rm.code) (by cases rm <;> decide), (hm w (line ..) rfl).2, si_line_bc b c (hw w).2])
theorem rvredI (sat : Bool) {ty : Red} {x : Bool} (ht : ty = .i32 x ∨ ty = .n32 x)
    (he : encodeFields (k ⟨h, map, ty, d, a, b, c⟩) = some (Enc.rvred fn ⟨h, map, ty, d, a, b, c⟩))
    (hr : ∀ m d a b c, form (line 0xC2 (8 + fn) h 0 m d a b c) = some (Form.rvred k Form.redTy fun f => Form.modLane sat (Form.lo f)))
    (hw : (k ⟨h, map, ty, d, a, b, c⟩).wf = true → (h.any && (sat || !x) && !(b.namesI && c.namesI)) = true) :
    Decodes (k ⟨h, map, ty, d, a, b, c⟩) := by
  have hm := modOf_mapped map (y := redMod ty) (by rcases ht with rfl | rfl <;> cases x <;> decide)
  exact of_line 0xC2 (8 + fn) h 0 (map.toNat * 16 + redMod ty) (v d) (reg (v a)) (si b) (si c) (by rcases ht with rfl | rfl <;> exact he)
    (fun _ => hr ..) (fun w => Bool.and_elim_left (Bool.and_elim_left (hw w))) (fun w => by simpa [Form.rvred] using Bool.and_elim_right (hw w))
    (fun w => modLane_mapped map sat ht (Bool.and_elim_right (Bool.and_elim_left (hw w))))
    (fun w => by simp [Form.rvred, redTy_mapped map ht, hm, si_line_bc b c (Bool.and_elim_right (hw w))])
/-- A maximum or minimum has no rounding and no overflow group. -/
theorem rvredPlain (ty : Red) (he : encodeFields (k ⟨h, map, ty, d, a, b, c⟩) = some (Enc.rvred fn ⟨h, map, ty, d, a, b, c⟩))
    (hf : ∀ m d a b c, form (line 0xC2 fn h 0 m d a b c) = some (Form.rvred k (fun _ => .f32 .rne) fun f => f.m % 16 == 0))
    (hi : ∀ m d a b c, form (line 0xC2 (8 + fn) h 0 m d a b c) = some (Form.rvred k Form.redTy fun f => Form.modLane false (Form.lo f)))
    (hw : (k ⟨h, map, ty, d, a, b, c⟩).wf = true → (h.any && ty.plain && !(b.namesI && c.namesI)) = true) :
    Decodes (k ⟨h, map, ty, d, a, b, c⟩) := by
  cases ty with
  | f32 rm =>
    refine rvredF fn k h map d a b c _ _ rm he hf (fun w => ⟨Bool.and_elim_left (Bool.and_elim_left (hw w)), Bool.and_elim_right (hw w)⟩)
      fun w f hm => ?_
    cases eq_of_beq (Bool.and_elim_right (Bool.and_elim_left (hw w)) : (rm == .rne) = true)
    exact ⟨by rw [hm]; cases map <;> rfl, rfl⟩
  | i32 x => exact rvredI fn k h map d a b c false (.inl rfl) he hi hw
  | n32 x => exact rvredI fn k h map d a b c false (.inr rfl) he hi hw
end

theorem rvsum (x : RVRed) : Decodes (.rvsum x) := by
  obtain ⟨h, map, ty, d, a, b, c⟩ := x
  cases ty with
  | f32 rm =>
    refine rvredF 0 .rvsum h map d a b c _ _ rm rfl (fun _ _ _ _ _ => rfl)
      (fun w => ⟨Bool.and_elim_left (Bool.and_elim_left w), Bool.and_elim_right w⟩) fun w f hm => ?_
    have hc : rm.code < 4 := code_noRna (Bool.and_elim_right (Bool.and_elim_left w))
    simp [hm, modOf_mapRm, modOf_mapped map (y := rm.code) (by omega), hc]
  | i32 x => exact rvredI 0 .rvsum h map d a b c true (.inl rfl) rfl (fun _ _ _ _ _ => rfl) id
  | n32 x => exact rvredI 0 .rvsum h map d a b c true (.inr rfl) rfl (fun _ _ _ _ _ => rfl) id

/-! ### Scalar, address and control (07) -/

theorem ins (x : Ins) : Decodes (.ins x) :=
  of_line 0x12 1 x.h 0 0 (s x.d) (reg (s x.a)) (reg (s x.b)) (si x.c) rfl (fun _ => rfl) id (by simp) (by simp) (by simp)
theorem sel (x : Sel) : Decodes (.sel x) :=
  of_line 0x14 0 x.h 0 0 (s x.d) (src x.a) (reg (s x.b)) (reg (p x.c)) rfl (fun _ => rfl) id (by simp) (by simp) (by simp)
theorem mov (x : Mov) : Decodes (.mov x) :=
  of_line 0x14 1 x.h 0 x.ty.code (s x.d) (src x.a) unused unused rfl (fun _ => rfl) id (by simp) (by simp) (by simp)
theorem lih (x : Lih) : Decodes (.lih x) :=
  of_line 0x14 2 x.h 0 0 (s x.d) (reg (s x.a)) (0x81, some x.i) unused rfl (fun _ => rfl) id (by simp) (by simp) (by simp)
theorem lea (x : Lea) : Decodes (.lea x) :=
  of_line 0x18 0 x.h 0 x.scale.val (s x.d) (reg (s x.a)) (si x.b) unused rfl (fun _ => rfl) Bool.and_elim_left (by simp)
    (fun hw => by
      obtain ⟨h, n, d, a, b⟩ := x
      have hw : (!b.namesI || n.val == 0) = true := Bool.and_elim_right hw
      simp only [Form.row_modOk, line_m, line_b, modOf_fin n (by decide)]
      cases b with
      | s r => simp [Enc.si, spec_s]
      | i w => simpa [Enc.si, SI.namesI] using hw)
    (fun _ => by simp [modOf_fin x.scale, Nat.mod_eq_of_lt x.scale.isLt])
theorem pnot (x : PP) : Decodes (.pnot x) :=
  of_line 0x15 4 x.h 0 0 (p x.d) (reg (p x.a)) unused unused rfl (fun _ => rfl) id (by simp) (by simp) (by simp)
theorem pset (x : PI) : Decodes (.pset x) :=
  of_line 0x15 5 x.h 0 0 (p x.d) (0x81, some x.i) unused unused rfl (fun _ => rfl) id (by simp) (by simp) (by simp)
theorem pwrite (x : PS) : Decodes (.pwrite x) :=
  of_line 0x15 7 x.h 0 0 (p x.d) (reg (s x.a)) unused unused rfl (fun _ => rfl) id (by simp) (by simp) (by simp)
/-- A status register's number is read back from I, where the row allows it. -/
theorem allows_sreg (n : Fin 4096) (hn : srAssigned n.val = true) : IUse.sreg.allows (BitVec.ofNat 32 n.val) = true := by
  have hm : (BitVec.ofNat 32 n.val).toNat = n.val := by simp; omega
  simp [IUse.allows, hm, hn]
theorem srd (x : SrdA) : Decodes (.srd x) :=
  of_line 0x16 0 x.h (BitVec.ofNat 32 x.n.val) 0 (s x.d) unused unused unused rfl (fun _ => rfl) Bool.and_elim_left
    (fun h => by simp [Form.takesAll_mk, allows_sreg x.n (Bool.and_elim_right h)]) (by simp) (by simp [Nat.mod_eq_of_lt x.n.isLt])
theorem swr (x : SwrA) : Decodes (.swr x) :=
  of_line 0x16 1 x.h (BitVec.ofNat 32 x.n.val) 0 0xFF (reg (s x.a)) unused unused rfl (fun _ => rfl) Bool.and_elim_left
    (fun h => by simp [Form.takesAll_mk, allows_sreg x.n (Bool.and_elim_right h)]) (by simp) (by simp [Nat.mod_eq_of_lt x.n.isLt])
theorem brz (x : BrR) : Decodes (.brz x) :=
  of_line 0x30 1 x.h x.off 0 0xFF (reg (s x.r)) unused unused rfl (fun _ => rfl) id (by simp [Form.takesAll_mk, IUse.allows]) (by simp) (by simp)
theorem brnz (x : BrR) : Decodes (.brnz x) :=
  of_line 0x30 2 x.h x.off 0 0xFF (reg (s x.r)) unused unused rfl (fun _ => rfl) id (by simp [Form.takesAll_mk, IUse.allows]) (by simp) (by simp)
theorem brdec (x : BrR) : Decodes (.brdec x) :=
  of_line 0x30 3 x.h x.off 0 (s x.r) unused unused unused rfl (fun _ => rfl) id (by simp [Form.takesAll_mk, IUse.allows]) (by simp) (by simp)
theorem gang (x : GangA) : Decodes (.gang x) :=
  of_line 0x32 0 x.h 0 x.size.code 0xFF unused unused unused rfl (fun _ => rfl) id (by simp) (by simp) (by simp)
theorem part (x : PartA) : Decodes (.part x) :=
  of_line 0x32 2 x.h 0 x.row.toNat (s x.d) (si x.a) (si x.b) unused rfl (fun _ => rfl) Bool.and_elim_left
    (fun h => by simpa using Bool.and_elim_right h) (by simp) (fun h => by simp [si_line_ab x.a x.b (Bool.and_elim_right h)])
theorem ftileset (x : ABC) : Decodes (.ftileset x) :=
  of_line 0x33 0 x.h 0 0 0xFF (reg (s x.a)) (reg (s x.b)) (reg (s x.c)) rfl (fun _ => rfl) id (by simp) (by simp) (by simp)

/-! ### Memory, tiles and copies (10) -/

theorem ld (x : LdA) : Decodes (.ld x) := by
  obtain ⟨h, acq, sc, ty, d, m⟩ := x
  cases acq <;> exact of_line 0x40 _ h 0 (scTy sc ty) (s d) (reg (s m.base)) (si m.off) unused rfl (fun _ => rfl) id (by simp) (by simp) (by simp)
theorem st (x : StA) : Decodes (.st x) := by
  obtain ⟨h, rel, sc, ty, m, c⟩ := x
  cases rel <;> exact of_line 0x40 _ h 0 (scTy sc ty) 0xFF (reg (s m.base)) (si m.off) (reg (s c)) rfl (fun _ => rfl) id (by simp) (by simp) (by simp)
theorem form_vld (x : VTy) : formMemory 0x42 (BitVec.ofNat 8 x.code).toNat =
    some (Form.row Form.v Form.s Form.si none x.guarded Form.modScope fun f => .vld ⟨f.hdr, x, scopeOf (f.m / 8), f.vD, f.mem⟩) := by
  cases x <;> rfl
theorem vld (x : VldA) : Decodes (.vld x) :=
  of_line 0x42 x.x.code x.h 0 (x.scope.code * 8) (v x.d) (reg (s x.m.base)) (si x.m.off) unused rfl (fun _ => form_vld x.x) id (by simp) (by simp)
    (by simp)
theorem form_vst (x : VTy) (sat : Bool) (hs : x.raw = true → sat = false) : formMemory 0x42 (BitVec.ofNat 8 (16 + sat.toNat * 16 + x.code)).toNat =
    some (Form.row none Form.s Form.si Form.v x.guarded (fun f => if x.code < 3 then f.m % 8 == 0 else f.m % 8 < 5)
      fun f => .vst ⟨f.hdr, x, sat, rmOf (f.m % 8), scopeOf (f.m / 8), f.mem, f.vC⟩) := by
  cases sat with
  | false => cases x <;> rfl
  | true =>
    cases x with
    | n32 | i32 | f32 => cases hs rfl
    | _ => rfl
theorem vst (x : VstA) : Decodes (.vst x) := by
  obtain ⟨h, x, sat, rm, sc, m, c⟩ := x
  have hm : modOf (sc.code * 8 + rm.code) % 8 = rm.code ∧ modOf (sc.code * 8 + rm.code) / 8 = sc.code :=
    modOf_mul8 (by cases sc <;> decide) (by cases rm <;> decide)
  have hr : ∀ w : (Instr.vst ⟨h, x, sat, rm, sc, m, c⟩).wf = true, x.raw = true → rm = .rne ∧ sat = false := fun w hx => by
    have : (!x.raw || (rm == .rne && !sat)) = true := Bool.and_elim_right w
    simpa [hx] using this
  refine of_line 0x42 (16 + sat.toNat * 16 + x.code) h 0 (sc.code * 8 + rm.code) 0xFF (reg (s m.base)) (si m.off) (reg (v c)) rfl
    (fun w => form_vst x sat fun hx => (hr w hx).2) Bool.and_elim_left (by simp) (fun w => ?_) (by simp [hm])
  have hx : x.code < 3 → x.raw = true := by cases x <;> decide
  have hc : rm.code < 5 := by cases rm <;> decide
  simp only [Form.row_modOk, line_m, hm]
  split
  · rw [(hr w (hx ‹_›)).1]; rfl
  · simpa using hc
theorem ldv (x : LdvA) : Decodes (.ldv x) := by
  obtain ⟨h, acq, track, sc, ty, d, m, c⟩ := x
  cases acq <;> cases track <;>
    exact of_line 0x41 _ h 0 (scTy sc ty) (s d) (reg (s m.base)) (si m.off) (reg (s c)) rfl (fun _ => rfl) id (by simp) (by simp) (by simp)
theorem stcv (x : StcvA) : Decodes (.stcv x) := by
  obtain ⟨h, rel, sc, ty, d, m, c⟩ := x
  cases rel <;>
    exact of_line 0x41 _ h 0 (scTy sc ty) (s d) (reg (s m.base)) (si m.off) (reg (s c)) rfl (fun _ => rfl) id (by simp) (by simp) (by simp)
theorem pref (x : PrefA) : Decodes (.pref x) :=
  of_line 0x43 0 x.h 0 x.level.code 0xFF (reg (s x.m.base)) (si x.m.off) unused rfl (fun _ => rfl) id (by simp) (by simp) (by simp)
theorem trel (x : TOnly) : Decodes (.trel x) :=
  of_line 0x44 1 x.h 0 0 (t x.d) unused unused unused rfl (fun _ => rfl) id (by simp) (by simp) (by simp)
theorem tdef (x : TdefA) : Decodes (.tdef x) :=
  of_line 0x44 2 x.h 0 0 (t x.d) (reg (s x.a)) unused unused rfl (fun _ => rfl) id (by simp) (by simp) (by simp)
theorem tstat (x : TstatA) : Decodes (.tstat x) :=
  of_line 0x44 3 x.h 0 0 (s x.d) (reg (t x.a)) unused unused rfl (fun _ => rfl) id (by simp) (by simp) (by simp)
theorem clsOf_tile (x : TS) : clsOf (ts x) = some .t ↔ x.isTile = true := by
  cases x <;> simp [ts, TS.isTile]
theorem cpy (x : CpyA) : Decodes (.cpy x) :=
  of_line 0x45 0 x.h 0 (jobMod x.acq x.rel x.scope x.fill) (s x.d) (reg (ts x.a)) (reg (ts x.b)) (si x.c) rfl (fun _ => rfl) Bool.and_elim_left (by simp)
    (fun h => by
      have hf : (!x.fill || x.a.isTile) = true := Bool.and_elim_right h
      simpa [clsOf_tile] using hf) (by simp)
theorem cjob (x : CjobA) : Decodes (.cjob x) :=
  of_line 0x45 1 x.h 0 (jobMod x.acq x.rel x.scope false) (s x.d) (reg (s x.a)) unused unused rfl (fun _ => rfl) id (by simp) (by simp) (by simp)
theorem rset (x : ABC) : Decodes (.rset x) :=
  of_line 0x46 0 x.h 0 0 0xFF (reg (s x.a)) (reg (s x.b)) (reg (s x.c)) rfl (fun _ => rfl) id (by simp) (by simp) (by simp)
theorem unpin (x : SIOnly) : Decodes (.unpin x) :=
  of_line 0x46 1 x.h 0 0 0xFF (si x.a) unused unused rfl (fun _ => rfl) id (by simp) (by simp) (by simp)
theorem rrd (x : RrdA) : Decodes (.rrd x) :=
  of_line 0x46 2 x.h 0 x.word.val (s x.d) (si x.a) unused unused rfl (fun _ => rfl) id (by simp) (by simp [modOf_fin x.word])
    (by simp [modOf_fin x.word, Nat.mod_eq_of_lt x.word.isLt])

/-! ### Vector instructions (11) -/

theorem form_vcvt (dst sr : CvtTy) (sat : Bool) (hp : vcvtPair dst sr = true) (hs : (!sat || (dst != .f32 && !dst.intTy)) = true) :
    formVector 0x86 (BitVec.ofNat 8 (sat.toNat * 128 + sr.code * 16 + dst.code)).toNat =
    some (Form.row Form.v Form.v none none (cvtOther dst sr).intTy (fun f => f.m % 8 < 5 && f.m / 8 < 32 / (cvtOther dst sr).width)
      fun f => .vcvt ⟨f.hdr, dst, sr, rmOf (f.m % 8), sat, ⟨f.m / 8 % 4, by omega⟩, f.vD, f.vA⟩) := by
  have hd : dst.code < 7 := by cases dst <;> decide
  have hc : sr.code < 7 := by cases sr <;> decide
  have hb : sat.toNat ≤ 1 := Bool.toNat_le sat
  have hn : (BitVec.ofNat 8 (sat.toNat * 128 + sr.code * 16 + dst.code)).toNat = sat.toNat * 128 + sr.code * 16 + dst.code := by
    rw [BitVec.toNat_ofNat]; omega
  have h1 : (sat.toNat * 128 + sr.code * 16 + dst.code) / 128 = sat.toNat := by omega
  have h2 : (sat.toNat * 128 + sr.code * 16 + dst.code) / 16 % 8 = sr.code := by omega
  have h3 : (sat.toNat * 128 + sr.code * 16 + dst.code) % 16 = dst.code := by omega
  have h4 : (sat.toNat == 1) = sat := by cases sat <;> rfl
  have h5 : (!sat || (1 ≤ dst.code && dst.code ≤ 4)) = true := by
    rw [← hs]; cases dst <;> rfl
  show formCvt _ = _
  simp only [formCvt, hn, h1, h2, h3, h4, h5, cvtTy_code, hp, hd, hc, decide_true, Bool.and_true, if_true]
theorem vcvt (x : VCvt) : Decodes (.vcvt x) := by
  obtain ⟨h, dst, sr, rm, sat, part, d, a⟩ := x
  have hw : (Instr.vcvt ⟨h, dst, sr, rm, sat, part, d, a⟩).wf = true →
      (((if (cvtOther dst sr).intTy then h.any else h.unguarded) = true ∧ vcvtPair dst sr = true) ∧
      (!sat || (dst != .f32 && !dst.intTy)) = true) ∧ part.val < 32 / (cvtOther dst sr).width := by
    intro w
    have ho : (if dst == .f32 then sr else dst) = cvtOther dst sr := by cases dst <;> rfl
    rw [← ho, ← decide_eq_true_iff (p := part.val < _), ← Bool.and_eq_true_iff, ← Bool.and_eq_true_iff, ← Bool.and_eq_true_iff]
    exact w
  have hm := modOf_mul8 (x := part.val) (y := rm.code) part.isLt (by cases rm <;> decide)
  have hc : rm.code < 5 := by cases rm <;> decide
  exact of_line 0x86 (sat.toNat * 128 + sr.code * 16 + dst.code) h 0 (part.val * 8 + rm.code) (v d) (reg (v a)) unused unused rfl
    (fun w => form_vcvt dst sr sat (hw w).1.1.2 (hw w).1.2) (fun w => (hw w).1.1.1) (by simp)
    (fun w => by simp [hm, hc, (hw w).2]) (by simp [hm, Nat.mod_eq_of_lt part.isLt])
theorem vsel (x : VSel) : Decodes (.vsel x) :=
  of_line 0x87 2 x.h 0 0 (v x.d) (reg (v x.a)) (vsrc x.b) (reg (p x.c)) rfl (fun _ => rfl) id (by simp) (by simp) (by simp)
theorem vbcast (x : VBc) : Decodes (.vbcast x) :=
  of_line 0x87 3 x.h 0 0 (v x.d) (src x.a) unused unused rfl (fun _ => rfl) id (by simp) (by simp) (by simp)
theorem vslide (x : VSl) : Decodes (.vslide x) :=
  of_line 0x87 4 x.h 0 0 (v x.d) (reg (v x.a)) (reg (v x.b)) (si x.c) rfl (fun _ => rfl) id (by simp) (by simp) (by simp)
theorem vgetl (x : VGet) : Decodes (.vgetl x) :=
  of_line 0x87 5 x.h 0 0 (s x.d) (reg (v x.a)) (si x.b) unused rfl (fun _ => rfl) id (by simp) (by simp) (by simp)
theorem vsetl (x : VSet) : Decodes (.vsetl x) :=
  of_line 0x87 6 x.h 0 0 (v x.d) (src x.a) (si x.b) unused rfl (fun _ => rfl) Bool.and_elim_left (fun h => by simpa using Bool.and_elim_right h)
    (by simp) (fun h => by simp [src_line_ab x.a x.b (Bool.and_elim_right h)])
theorem vsqrt (x : VSqrt) : Decodes (.vsqrt x) :=
  of_line 0x8B 2 x.h 0 x.rm.code (v x.d) (reg (v x.a)) unused unused rfl (fun _ => rfl) Bool.and_elim_left (by simp)
    (fun h => Form.modRm_line _ _ _ _ _ _ _ _ _ (Bool.and_elim_right h)) (by simp)
theorem vdiv (x : VDivA) : Decodes (.vdiv x) :=
  of_line 0x8B 3 x.h 0 x.rm.code (v x.d) (reg (v x.a)) (vsrc x.b) unused rfl (fun _ => rfl) Bool.and_elim_left (by simp)
    (fun h => Form.modRm_line _ _ _ _ _ _ _ _ _ (Bool.and_elim_right h)) (by simp)
theorem ctload (x : MOnly) : Decodes (.ctload x) :=
  of_line 0x8C 0 x.h 0 0 0xFF (reg (s x.m.base)) (si x.m.off) unused rfl (fun _ => rfl) id (by simp) (by simp) (by simp)
theorem vctdec (x : VCtd) : Decodes (.vctdec x) := by
  obtain ⟨h, f32, part, d, a⟩ := x
  cases f32 <;> exact of_line 0x8C _ h 0 part.val (v d) (reg (v a)) unused unused rfl (fun _ => rfl) id (by simp) (by simp [modOf_fin part])
    (by simp [modOf_fin part, Nat.mod_eq_of_lt part.isLt])
theorem vctenc (x : VCte) : Decodes (.vctenc x) :=
  of_line 0x8C 3 x.h 0 x.part.val (v x.d) (reg (v x.a)) unused unused rfl (fun _ => rfl) id (by simp) (by simp [modOf_fin x.part])
    (by simp [modOf_fin x.part, Nat.mod_eq_of_lt x.part.isLt])
theorem vgbcast (x : VGb) : Decodes (.vgbcast x) :=
  of_line 0x8D 0x11 x.h 0 0 (v x.d) (reg (v x.a)) (si x.b) unused rfl (fun _ => rfl) id (by simp) (by simp) (by simp)

/-! ### Matrix engine and ragged forms (13, 14) -/

theorem oclaim (x : OClaim) : Decodes (.oclaim x) :=
  of_line 0xB0 0 x.h 0 0 (s x.d) (reg (o x.a)) (si x.b) unused rfl (fun _ => rfl) id (by simp) (by simp) (by simp)
theorem orelease (x : ORel) : Decodes (.orelease x) :=
  of_line 0xB0 1 x.h 0 0 0xFF (reg (o x.a)) (si x.b) unused rfl (fun _ => rfl) id (by simp) (by simp) (by simp)
theorem zclaim (x : ZClaim) : Decodes (.zclaim x) :=
  of_line 0xB0 2 x.h 0 0 (s x.d) (reg (z x.a)) (si x.b) unused rfl (fun _ => rfl) id (by simp) (by simp) (by simp)
theorem zrelease (x : ZRel) : Decodes (.zrelease x) :=
  of_line 0xB0 3 x.h 0 0 0xFF (reg (z x.a)) (si x.b) unused rfl (fun _ => rfl) id (by simp) (by simp) (by simp)
theorem oload (x : OLoad) : Decodes (.oload x) :=
  of_line 0xB1 0 x.h 0 (jobMod x.acq false x.scope false) (s x.d) (reg (o x.a)) (reg (ts x.b)) (reg (s x.c)) rfl (fun _ => rfl) id (by simp) (by simp)
    (by simp)
/-- The quadrant and the check bit of the matrix forms, which `.m32` alone may set. -/
@[simp] theorem chk_bit (b : Bool) (q : Fin 4) : modBit (b.toNat * 16 + q.val) 4 = b := (modOf_mapped b (by omega)).2
theorem modOf_chk (b : Bool) (q : Fin 4) : modOf (b.toNat * 16 + q.val) % 4 = q.val ∧ modOf (b.toNat * 16 + q.val) / 4 % 4 = 0 := by
  revert b q; decide
theorem form_mma (m32 : Bool) (y : MFmt) : formMatrix 0xB2 (BitVec.ofNat 8 (m32.toNat * 16 + y.code)).toNat =
    some (Form.row Form.s Form.z Form.o Form.o false (fun f => f.m / 4 % 4 == 0 && (m32 || f.m % 4 == 0))
      fun f => .mma ⟨f.hdr, m32, y, ⟨f.m % 4, by omega⟩, f.bit 4, f.sD, f.zA, f.oB, f.oC⟩) := by
  cases m32 <;> cases y <;> rfl
theorem mma (x : MmaA) : Decodes (.mma x) :=
  of_line 0xB2 (x.m32.toNat * 16 + x.fmt.code) x.h 0 (x.chk.toNat * 16 + x.q.val) (s x.d) (reg (z x.a)) (reg (o x.b)) (reg (o x.c)) rfl
    (fun _ => form_mma ..) Bool.and_elim_left (by simp) (fun h => by simpa [modOf_chk] using Bool.and_elim_right h) (by simp [modOf_chk])
theorem zclear (x : ZClr) : Decodes (.zclear x) :=
  of_line 0xB3 0 x.h 0 x.int.toNat (s x.d) (reg (z x.a)) unused unused rfl (fun _ => rfl) id (by simp) (by simp) (by simp)
theorem zstore (x : ZSt) : Decodes (.zstore x) :=
  of_line 0xB3 1 x.h 0 (jobMod x.rel x.fill x.scope false) (s x.d) (reg (ts x.a)) (reg (z x.b)) (reg (s x.c)) rfl (fun _ => rfl) Bool.and_elim_left
    (by simp) (fun h => by
      have hf : (!x.fill || x.a.isTile) = true := Bool.and_elim_right h
      simpa [clsOf_tile] using hf) (by simp)
theorem zload (x : ZLd) : Decodes (.zload x) :=
  of_line 0xB3 2 x.h 0 (jobMod x.acq false x.scope false) (s x.d) (reg (z x.a)) (reg (ts x.b)) (reg (s x.c)) rfl (fun _ => rfl) id (by simp) (by simp)
    (by simp)
theorem mcheck (x : MChk) : Decodes (.mcheck x) :=
  of_line 0xB4 0 x.h 0 x.notrap.toNat (s x.d) (reg (z x.a)) unused unused rfl (fun _ => rfl) id (by simp) (by simp) (by simp)
theorem rbind (x : RBind) : Decodes (.rbind x) :=
  of_line 0xC0 0 x.h 0 (jobMod x.map false x.scope false) (s x.d) (reg (s x.a)) (si x.b) (si x.c) rfl (fun _ => rfl) Bool.and_elim_left
    (fun h => by simpa using Bool.and_elim_right h) (by simp) (fun h => by simp [si_line_bc x.b x.c (Bool.and_elim_right h)])
theorem modOf_fin_map (b t : Bool) : modOf (b.toNat * 16 + t.toNat) % 16 ≤ 1 ∧ modBit (b.toNat * 16 + t.toNat) 4 = b ∧
    modBit (b.toNat * 16 + t.toNat) 0 = t := by revert b t; decide
theorem rrow (x : RRow) : Decodes (.rrow x) :=
  of_line 0xC0 1 x.h 0 (x.map.toNat * 16 + x.fin.toNat) (s x.d) (si x.a) unused unused rfl (fun _ => rfl) id (by simp)
    (by simp [modOf_fin_map]) (by simp [modOf_fin_map])
theorem rvseg (x : RVseg) : Decodes (.rvseg x) :=
  of_line 0xC0 2 x.h 0 (x.map.toNat * 16) (v x.d) (si x.a) unused unused rfl (fun _ => rfl) id (by simp) (by simp)
    (by simp)
theorem rpseg (x : RPseg) : Decodes (.rpseg x) :=
  of_line 0xC0 3 x.h 0 (x.map.toNat * 16) (p x.d) (si x.a) unused unused rfl (fun _ => rfl) id (by simp) (by simp)
    (by simp)
theorem rvld (x : RVld) : Decodes (.rvld x) :=
  of_line 0xC1 0 x.h 0 (jobMod x.map x.strict x.scope false) (v x.d) (reg (s x.a)) (reg (s x.b)) (si x.c) rfl (fun _ => rfl) id (by simp) (by simp)
    (by simp)
theorem rvnorm (x : RVnorm) : Decodes (.rvnorm x) :=
  of_line 0xC3 0 x.h 0 (x.map.toNat * 16 + x.strict.toNat * 8 + x.rm.code) (v x.d) (reg (v x.a)) (si x.b) unused rfl (fun _ => rfl) Bool.and_elim_left
    (by simp) (fun h => by simp [modOf_mapStrictRm, code_noRna (Bool.and_elim_right h)]) (by simp [modOf_mapStrictRm])
theorem form_rmma (k m32 : Bool) (y : MFmt) (hk : (!k || y.mkOk) = true) :
    formRagged 0xC4 (BitVec.ofNat 8 (k.toNat * 32 + m32.toNat * 16 + y.code)).toNat =
    some (Form.row Form.s Form.z Form.o Form.o false (fun f => f.m / 4 % 4 == 0 && (m32 || f.m % 4 == 0))
      fun f => .rmma ⟨f.hdr, k, m32, y, ⟨f.m % 4, by omega⟩, f.bit 4, f.sD, f.zA, f.oB, f.oC⟩) := by
  cases k with
  | false => cases m32 <;> cases y <;> rfl
  | true =>
    cases y with
    | sx3 | sx5 | c4 => cases hk
    | _ => cases m32 <;> rfl
theorem rmma (x : RMma) : Decodes (.rmma x) :=
  of_line 0xC4 (x.alongK.toNat * 32 + x.m32.toNat * 16 + x.fmt.code) x.h 0 (x.chk.toNat * 16 + x.q.val) (s x.d) (reg (z x.a)) (reg (o x.b))
    (reg (o x.c)) rfl (fun h => form_rmma _ _ _ (Bool.and_elim_right h)) (fun h => Bool.and_elim_left (Bool.and_elim_left h)) (by simp)
    (fun h => by simpa [modOf_chk] using Bool.and_elim_right (Bool.and_elim_left h)) (by simp [modOf_chk])

/-! ### Atomics and synchronisation (16) -/

theorem form_afadd (o : Ord) : formSync 0x60 (BitVec.ofNat 8 (o.code * 16 + 8)).toNat =
    some (Form.row Form.s Form.s Form.si Form.s true Form.modScope fun f => .afadd ⟨f.hdr, o, scopeOf (f.m / 8), f.sD, f.mem, f.sC⟩) := by
  cases o <;> rfl
theorem afadd (x : AtomF) : Decodes (.afadd x) :=
  of_line 0x60 (x.ord.code * 16 + 8) x.h 0 (x.scope.code * 8) (s x.d) (reg (s x.m.base)) (si x.m.off) (reg (s x.c)) rfl (fun _ => form_afadd x.ord) id
    (by simp) (by simp) (by simp)
theorem form_mrfadd (b : Bool) : formSync 0x61 (BitVec.ofNat 8 (b.toNat * 32 + 6)).toNat =
    some (Form.row none Form.s Form.si Form.s true Form.modScope fun f => .mrfadd ⟨f.hdr, b, scopeOf (f.m / 8), f.mem, f.sC⟩) := by
  cases b <;> rfl
theorem mrfadd (x : MRedF) : Decodes (.mrfadd x) :=
  of_line 0x61 (x.rel.toNat * 32 + 6) x.h 0 (x.scope.code * 8) 0xFF (reg (s x.m.base)) (si x.m.off) (reg (s x.c)) rfl (fun _ => form_mrfadd x.rel) id
    (by simp) (by simp) (by simp)
theorem form_casv (o : Ord) : formSync 0x66 (BitVec.ofNat 8 o.code).toNat =
    some (Form.row Form.s Form.s Form.s Form.s true Form.modAtomic fun f =>
      .casv ⟨f.hdr, o, scopeOf (f.m / 8), intTy (f.m % 8), f.sD, f.sA, f.sB, f.sC⟩) := by
  cases o <;> rfl
theorem casv (x : CasvA) : Decodes (.casv x) :=
  of_line 0x66 x.ord.code x.h 0 (scTy x.scope x.ty) (s x.d) (reg (s x.a)) (reg (s x.b)) (reg (s x.c)) rfl (fun _ => form_casv x.ord) Bool.and_elim_left
    (by simp) (fun h => Form.modAtomic_line _ _ _ _ _ _ _ _ _ _ (Bool.and_elim_right h)) (by simp)
theorem waitv (x : WaitvA) : Decodes (.waitv x) :=
  of_line 0x66 4 x.h 0 (x.scope.code * 8) (s x.d) (reg (s x.a)) (reg (s x.b)) (si x.c) rfl (fun _ => rfl) id (by simp) (by simp) (by simp)
theorem fence (x : FenceA) : Decodes (.fence x) := by
  obtain ⟨h, k, sc⟩ := x
  cases k <;> exact of_line 0x62 _ h 0 (sc.code * 8) 0xFF unused unused unused rfl (fun _ => rfl) id (by simp) (by simp) (by simp)
theorem barsync (x : BarA) : Decodes (.barsync x) :=
  of_line 0x63 0 x.h 0 (x.scope.code * 8) (s x.d) (si x.a) unused unused rfl (fun _ => rfl) id (by simp) (by simp) (by simp)
theorem bararv (x : BarA) : Decodes (.bararv x) :=
  of_line 0x63 1 x.h 0 (x.scope.code * 8) (s x.d) (si x.a) unused unused rfl (fun _ => rfl) id (by simp) (by simp) (by simp)
theorem barwait (x : BarW) : Decodes (.barwait x) :=
  of_line 0x63 2 x.h 0 (x.scope.code * 8) (s x.d) (si x.a) (si x.b) unused rfl (fun _ => rfl) Bool.and_elim_left
    (fun h => by simpa using Bool.and_elim_right h) (by simp) (fun h => by simp [si_line_ab x.a x.b (Bool.and_elim_right h)])
theorem ibsend (x : IbS) : Decodes (.ibsend x) :=
  of_line 0x65 0 x.h 0 (x.scope.code * 8) (s x.d) (reg (s x.a)) (si x.b) unused rfl (fun _ => rfl) id (by simp) (by simp) (by simp)
theorem ibrecv (x : IbR) : Decodes (.ibrecv x) :=
  of_line 0x65 1 x.h 0 (x.scope.code * 8) (s x.d) unused unused unused rfl (fun _ => rfl) id (by simp) (by simp) (by simp)
theorem dsignal (x : DSig) : Decodes (.dsignal x) :=
  of_line 0x67 1 x.h 0 x.irq.toNat 0xFF (reg (s x.a)) (reg (s x.b)) unused rfl (fun _ => rfl) id (by simp) (by simp) (by simp)

/-! ### Messages, streams and the sampler (18, 20), the system's forms (22) -/

theorem msgsend (x : MSend) : Decodes (.msgsend x) := by
  obtain ⟨h, ack, d, a, b⟩ := x
  cases ack <;> exact of_line 0x70 _ h 0 0 (s d) (reg (ts a)) (reg (s b)) unused rfl (fun _ => rfl) id (by simp) (by simp) (by simp)
theorem msgpost (x : DAB) : Decodes (.msgpost x) :=
  of_line 0x71 0 x.h 0 0 (s x.d) (reg (s x.a)) (reg (s x.b)) unused rfl (fun _ => rfl) id (by simp) (by simp) (by simp)
theorem vrand (x : VRnd) : Decodes (.vrand x) := by
  obtain ⟨h, f32, d⟩ := x
  cases f32 <;> exact of_line 0x78 _ h 0 0 (v d) unused unused unused rfl (fun _ => rfl) id (by simp) (by simp) (by simp)
theorem smpl (x : SmplA) : Decodes (.smpl x) :=
  of_line 0x7C 0 x.h 0 0 (s x.d) (reg (t x.a)) (reg (s x.b)) unused rfl (fun _ => rfl) id (by simp) (by simp) (by simp)
theorem tokexec (x : DAB) : Decodes (.tokexec x) :=
  of_line 0x7C 1 x.h 0 0 (s x.d) (reg (s x.a)) (reg (s x.b)) unused rfl (fun _ => rfl) id (by simp) (by simp) (by simp)
theorem xwr (x : XwrA) : Decodes (.xwr x) :=
  of_line 0x03 1 x.h 0 0 0xFF (si x.a) (reg (s x.b)) unused rfl (fun _ => rfl) id (by simp) (by simp) (by simp)
theorem tresume (x : TresA) : Decodes (.tresume x) :=
  of_line 0x04 0 x.h 0 x.next.toNat 0xFF unused unused unused rfl (fun _ => rfl) id (by simp) (by simp) (by simp)
/-- MOD bit 0 tells `xlinv.all` from `xlinv.page`. -/
theorem form_xlinv {h : Hdr} {i : W32} {m : Nat} {d : Byte} {a b c : Opnd} (all : Bool) (hm : modBit m 0 = all) :
    form (line 0x06 0 h i m d a b c) =
    some (if all then Form.row none none none none false (fun f => f.m < 2) fun f => .xlinv ⟨f.hdr, none⟩
      else Form.row none Form.s none none false (fun f => f.m < 2) fun f => .xlinv ⟨f.hdr, some f.sA⟩) := by
  change formSystem 0x06 0 (modBit m 0) = _
  rw [hm]; cases all <;> rfl
theorem xlinv (x : XlA) : Decodes (.xlinv x) := by
  obtain ⟨h, a⟩ := x
  cases a with
  | none =>
    exact of_line 0x06 0 h 0 1 0xFF unused unused unused rfl (fun _ => form_xlinv true rfl) id (by simp) (fun _ => rfl) (by simp)
  | some r =>
    exact of_line 0x06 0 h 0 0 0xFF (reg (s r)) unused unused rfl (fun _ => form_xlinv false rfl) id (by simp) (by simp) (by simp)
theorem ldpi (x : LdpiA) : Decodes (.ldpi x) :=
  of_line 0xD0 0 x.h 0 x.ty.code (s x.d) (reg (s x.a)) (0x81, some x.i) unused rfl (fun _ => rfl) id (by simp) (by simp) (by simp)
theorem stpi (x : StpiA) : Decodes (.stpi x) :=
  of_line 0xD0 1 x.h 0 x.ty.code (s x.d) unused (0x81, some x.i) (reg (s x.c)) rfl (fun _ => rfl) id (by simp) (by simp) (by simp)
theorem vldpi (x : VldpiA) : Decodes (.vldpi x) :=
  of_line 0xD1 0 x.h 0 0 (v x.d) (reg (s x.a)) unused unused rfl (fun _ => rfl) id (by simp) (by simp) (by simp)
theorem vdot (x : VdotA) : Decodes (.vdot x) :=
  of_line 0xD2 0 x.h 0 x.rm.code (s x.d) (reg (v x.a)) (reg (v x.b)) unused rfl (fun _ => rfl) Bool.and_elim_left (by simp)
    (fun h => Form.modRm_line _ _ _ _ _ _ _ _ _ (Bool.and_elim_right h)) (by simp)


/-- `ext` has types of 64 bits alone, `bswap` those of more than one byte. -/
theorem modOk_ext (x : IntSh) (ht : (x.ty == .i64 || x.ty == .n64) = true) : ((Enc.intSh 0x12 0 x).m % 4 == 0) = true := by
  obtain ⟨h, ty, sat, d, a, b⟩ := x
  change (ty == .i64 || ty == .n64) = true at ht
  change (modOf (intMod ty sat) % 4 == 0) = true
  revert ht
  cases ty <;> revert sat <;> decide
theorem modOk_bswap (x : IntU) (ht : (x.h.any && x.ty != .i8 && x.ty != .n8) = true) : ((Enc.intU 6 x).m % 4 != 3) = true := by
  obtain ⟨h, ty, d, a⟩ := x
  have ht : (ty != .i8 && ty != .n8) = true := by
    simp only [Bool.and_eq_true] at ht ⊢
    exact ⟨ht.1.2, ht.2⟩
  change (modOf ty.code % 4 != 3) = true
  revert ht
  cases ty <;> decide
/-- The word of every well-formed instruction decodes to it. -/
theorem all (x : Instr) : Decodes x := by
  cases x with
  | add x => exact intA 0x10 0 .add true x rfl rfl id
  | sub x => exact intA 0x10 1 .sub true x rfl rfl id
  | mul x => exact intA 0x10 2 .mul true x rfl rfl id
  | mulh x => exact intA 0x10 3 .mulh false x rfl rfl id
  | and x => exact intA 0x10 4 .and false x rfl rfl id
  | or x => exact intA 0x10 5 .or false x rfl rfl id
  | xor x => exact intA 0x10 6 .xor false x rfl rfl id
  | andn x => exact intA 0x10 7 .andn false x rfl rfl id
  | shl x => exact intSh 0x10 8 .shl true _ x rfl rfl fun w => ⟨w, rfl⟩
  | shr x => exact intSh 0x10 9 .shr false _ x rfl rfl fun w => ⟨w, rfl⟩
  | rotl x => exact intSh 0x10 10 .rotl false _ x rfl rfl fun w => ⟨w, rfl⟩
  | min x => exact intA 0x10 11 .min false x rfl rfl id
  | max x => exact intA 0x10 12 .max false x rfl rfl id
  | div x => exact intA 0x11 0 .div true x rfl rfl id
  | rem x => exact intA 0x11 1 .rem false x rfl rfl id
  | ext x => exact intSh 0x12 0 .ext false _ x rfl rfl fun w => ⟨Bool.and_elim_left w, modOk_ext x (Bool.and_elim_right w)⟩
  | ins x => exact ins x
  | clz x => exact intU 2 .clz _ x rfl rfl fun w => ⟨w, rfl⟩
  | ctz x => exact intU 3 .ctz _ x rfl rfl fun w => ⟨w, rfl⟩
  | popc x => exact intU 4 .popc _ x rfl rfl fun w => ⟨w, rfl⟩
  | brev x => exact intU 5 .brev _ x rfl rfl fun w => ⟨w, rfl⟩
  | bswap x => exact intU 6 .bswap _ x rfl rfl fun w => ⟨Bool.and_elim_left (Bool.and_elim_left w), modOk_bswap x w⟩
  | cmpeq x => exact cmp 0 .cmpeq x rfl rfl id
  | cmpne x => exact cmp 1 .cmpne x rfl rfl id
  | cmplt x => exact cmp 2 .cmplt x rfl rfl id
  | cmple x => exact cmp 3 .cmple x rfl rfl id
  | cmpgt x => exact cmp 4 .cmpgt x rfl rfl id
  | cmpge x => exact cmp 5 .cmpge x rfl rfl id
  | sel x => exact sel x
  | mov x => exact mov x
  | lih x => exact lih x
  | lea x => exact lea x
  | nop x => exact hOnly 0x17 0 .nop true x rfl rfl id
  | pand x => exact ppp 0 .pand x rfl rfl id
  | por x => exact ppp 1 .por x rfl rfl id
  | pxor x => exact ppp 2 .pxor x rfl rfl id
  | pandn x => exact ppp 3 .pandn x rfl rfl id
  | pnot x => exact pnot x
  | pset x => exact pset x
  | pread x => exact spr 6 .pread x rfl rfl id
  | pwrite x => exact pwrite x
  | pcnt x => exact spr 8 .pcnt x rfl rfl id
  | srd x => exact srd x
  | swr x => exact swr x
  | br x => exact brO 0x30 0 .br x rfl rfl id
  | brz x => exact brz x
  | brnz x => exact brnz x
  | brdec x => exact brdec x
  | call x => exact brO 0x31 0 .call x rfl rfl id
  | callr x => exact aOnly 0x31 1 .callr true x rfl rfl id
  | jr x => exact aOnly 0x31 2 .jr true x rfl rfl id
  | ret x => exact hOnly 0x31 3 .ret true x rfl rfl id
  | gang x => exact gang x
  | disband x => exact hOnly 0x32 1 .disband false x rfl rfl id
  | part x => exact part x
  | ftileset x => exact ftileset x
  | ftile x => exact dOnly 0x33 1 .ftile false x rfl rfl id
  | cbset x => exact csi 0 .cbset x rfl rfl id
  | cbwaitc x => exact cbW 1 .cbwaitc x rfl rfl id
  | cbwaitp x => exact cbW 2 .cbwaitp x rfl rfl id
  | cbadvc x => exact csi 3 .cbadvc x rfl rfl id
  | cbadvp x => exact csi 4 .cbadvp x rfl rfl id
  | ld x => exact ld x
  | st x => exact st x
  | vld x => exact vld x
  | vst x => exact vst x
  | ldv x => exact ldv x
  | stcv x => exact stcv x
  | valchk x => exact dOnly 0x41 6 .valchk true x rfl rfl id
  | valclr x => exact hOnly 0x41 7 .valclr true x rfl rfl id
  | pref x => exact pref x
  | tfill x => exact tsi 0x44 0 .tfill x rfl rfl id
  | trel x => exact trel x
  | tdef x => exact tdef x
  | tstat x => exact tstat x
  | cpy x => exact cpy x
  | cjob x => exact cjob x
  | cpoll x => exact da 0x45 2 .cpoll false x rfl rfl id
  | cwait x => exact da 0x45 3 .cwait false x rfl rfl id
  | rset x => exact rset x
  | unpin x => exact unpin x
  | rrd x => exact rrd x
  | frarm x => exact tsi 0x47 0 .frarm x rfl rfl id
  | vflgrd x => exact dOnly 0x8E 0 .vflgrd false x rfl rfl id
  | vflgclr x => exact dOnly 0x8E 1 .vflgclr false x rfl rfl id
  | vadd x => exact vflt 0 .vadd x rfl rfl id
  | vsub x => exact vflt 1 .vsub x rfl rfl id
  | vmul x => exact vflt 2 .vmul x rfl rfl id
  | vfma x => exact vfma 3 .vfma x rfl rfl id
  | vfnma x => exact vfma 4 .vfnma x rfl rfl id
  | vmin x => exact vfmm 5 .vmin x rfl rfl id
  | vmax x => exact vfmm 6 .vmax x rfl rfl id
  | vabs x => exact vfu 7 .vabs x rfl rfl id
  | vneg x => exact vfu 8 .vneg x rfl rfl id
  | vaddInt x => exact vint 0 .vaddInt true x rfl rfl id
  | vsubInt x => exact vint 1 .vsubInt true x rfl rfl id
  | vmulInt x => exact vint 2 .vmulInt true x rfl rfl id
  | vmulh x => exact vint 3 .vmulh false x rfl rfl id
  | vand x => exact vint 4 .vand false x rfl rfl id
  | vor x => exact vint 5 .vor false x rfl rfl id
  | vxor x => exact vint 6 .vxor false x rfl rfl id
  | vandn x => exact vint 7 .vandn false x rfl rfl id
  | vshl x => exact vintSh 8 .vshl true x rfl rfl id
  | vshr x => exact vintSh 9 .vshr false x rfl rfl id
  | vrotl x => exact vintSh 10 .vrotl false x rfl rfl id
  | vminInt x => exact vint 11 .vminInt false x rfl rfl id
  | vmaxInt x => exact vint 12 .vmaxInt false x rfl rfl id
  | vcmpeq x => exact vcmp 0 .vcmpeq x rfl rfl (fun _ _ => rfl) id
  | vcmpne x => exact vcmp 1 .vcmpne x rfl rfl (fun _ _ => rfl) id
  | vcmplt x => exact vcmp 2 .vcmplt x rfl rfl (fun _ _ => rfl) id
  | vcmple x => exact vcmp 3 .vcmple x rfl rfl (fun _ _ => rfl) id
  | vcmpgt x => exact vcmp 4 .vcmpgt x rfl rfl (fun _ _ => rfl) id
  | vcmpge x => exact vcmp 5 .vcmpge x rfl rfl (fun _ _ => rfl) id
  | vcmpun x => exact vcmp 6 .vcmpun x rfl rfl (fun w h => absurd (eq_of_beq (Bool.and_elim_right w)) h) Bool.and_elim_left
  | vcvt x => exact vcvt x
  | vmov x => exact vv 0x87 0 .vmov x rfl rfl id
  | vperm x => exact vvv 0x87 1 .vperm x rfl rfl id
  | vsel x => exact vsel x
  | vbcast x => exact vbcast x
  | vslide x => exact vslide x
  | vgetl x => exact vgetl x
  | vsetl x => exact vsetl x
  | vrsum x => exact vredSum 0x8A 0 .vrsum x rfl (fun _ _ _ _ => rfl) (fun _ _ _ _ => rfl) id
  | vrmax x => exact vredPlain 0x8A 1 .vrmax x rfl (fun _ _ _ _ => rfl) (fun _ _ _ _ => rfl) id
  | vrmin x => exact vredPlain 0x8A 2 .vrmin x rfl (fun _ _ _ _ => rfl) (fun _ _ _ _ => rfl) id
  | vrcp x => exact vv 0x8B 0 .vrcp x rfl rfl id
  | vrsqrt x => exact vv 0x8B 1 .vrsqrt x rfl rfl id
  | vsqrt x => exact vsqrt x
  | vdiv x => exact vdiv x
  | vexp2 x => exact vv 0x8B 4 .vexp2 x rfl rfl id
  | vlog2 x => exact vv 0x8B 5 .vlog2 x rfl rfl id
  | vsinpi x => exact vv 0x8B 6 .vsinpi x rfl rfl id
  | vcospi x => exact vv 0x8B 7 .vcospi x rfl rfl id
  | vtanh x => exact vv 0x8B 8 .vtanh x rfl rfl id
  | ctload x => exact ctload x
  | vctdec x => exact vctdec x
  | vctenc x => exact vctenc x
  | vgsum x => exact vredSum 0x8D 0 .vgsum x rfl (fun _ _ _ _ => rfl) (fun _ _ _ _ => rfl) id
  | vgmax x => exact vredPlain 0x8D 1 .vgmax x rfl (fun _ _ _ _ => rfl) (fun _ _ _ _ => rfl) id
  | vgmin x => exact vredPlain 0x8D 2 .vgmin x rfl (fun _ _ _ _ => rfl) (fun _ _ _ _ => rfl) id
  | vgperm x => exact vvv 0x8D 16 .vgperm x rfl rfl id
  | vgbcast x => exact vgbcast x
  | oclaim x => exact oclaim x
  | orelease x => exact orelease x
  | zclaim x => exact zclaim x
  | zrelease x => exact zrelease x
  | oload x => exact oload x
  | mma x => exact mma x
  | zclear x => exact zclear x
  | zstore x => exact zstore x
  | zload x => exact zload x
  | mcheck x => exact mcheck x
  | mpoll x => exact da 0xB5 0 .mpoll false x rfl rfl id
  | mwait x => exact da 0xB5 1 .mwait false x rfl rfl id
  | mstat x => exact dOnly 0xB5 2 .mstat false x rfl rfl id
  | rbind x => exact rbind x
  | rrow x => exact rrow x
  | rvseg x => exact rvseg x
  | rpseg x => exact rpseg x
  | rvld x => exact rvld x
  | rvsum x => exact rvsum x
  | rvmax x => exact rvredPlain 1 .rvmax x.h x.map x.d x.a x.b x.c x.ty rfl (fun _ _ _ _ _ => rfl) (fun _ _ _ _ _ => rfl) id
  | rvmin x => exact rvredPlain 2 .rvmin x.h x.map x.d x.a x.b x.c x.ty rfl (fun _ _ _ _ _ => rfl) (fun _ _ _ _ _ => rfl) id
  | rvnorm x => exact rvnorm x
  | rmma x => exact rmma x
  | aadd x => exact atom 0 .aadd x rfl (fun o => by cases o <;> rfl) id
  | aand x => exact atom 1 .aand x rfl (fun o => by cases o <;> rfl) id
  | aor x => exact atom 2 .aor x rfl (fun o => by cases o <;> rfl) id
  | axor x => exact atom 3 .axor x rfl (fun o => by cases o <;> rfl) id
  | amin x => exact atom 4 .amin x rfl (fun o => by cases o <;> rfl) id
  | amax x => exact atom 5 .amax x rfl (fun o => by cases o <;> rfl) id
  | aswap x => exact atom 6 .aswap x rfl (fun o => by cases o <;> rfl) id
  | acas x => exact atom 7 .acas x rfl (fun o => by cases o <;> rfl) id
  | afadd x => exact afadd x
  | mradd x => exact mred 0 .mradd x rfl (fun b => by cases b <;> rfl) id
  | mrand x => exact mred 1 .mrand x rfl (fun b => by cases b <;> rfl) id
  | mror x => exact mred 2 .mror x rfl (fun b => by cases b <;> rfl) id
  | mrxor x => exact mred 3 .mrxor x rfl (fun b => by cases b <;> rfl) id
  | mrmin x => exact mred 4 .mrmin x rfl (fun b => by cases b <;> rfl) id
  | mrmax x => exact mred 5 .mrmax x rfl (fun b => by cases b <;> rfl) id
  | mrfadd x => exact mrfadd x
  | casv x => exact casv x
  | waitv x => exact waitv x
  | fence x => exact fence x
  | barsync x => exact barsync x
  | bararv x => exact bararv x
  | barwait x => exact barwait x
  | phadv x => exact dOnly 0x64 0 .phadv false x rfl rfl id
  | phwait x => exact dsi 0x64 1 .phwait false x rfl rfl id
  | ibsend x => exact ibsend x
  | ibrecv x => exact ibrecv x
  | ibpoll x => exact dOnly 0x65 2 .ibpoll false x rfl rfl id
  | dlaunch x => exact da 0x67 0 .dlaunch true x rfl rfl id
  | dsignal x => exact dsignal x
  | msgsend x => exact msgsend x
  | msgpost x => exact msgpost x
  | msgtest x => exact da 0x72 0 .msgtest false x rfl rfl id
  | msgwait x => exact da 0x72 1 .msgwait false x rfl rfl id
  | msgcancel x => exact da 0x73 0 .msgcancel false x rfl rfl id
  | rand x => exact dOnly 0x78 0 .rand true x rfl rfl id
  | vrand x => exact vrand x
  | rtell x => exact dOnly 0x78 3 .rtell false x rfl rfl id
  | rseek x => exact dsi 0x78 4 .rseek false x rfl rfl id
  | smpl x => exact smpl x
  | tokexec x => exact tokexec x
  | exit x => exact hOnly 0x01 0 .exit false x rfl rfl id
  | rgn x => exact hOnly 0x01 1 .rgn false x rfl rfl id
  | tctx x => exact dOnly 0x02 0 .tctx false x rfl rfl id
  | xrd x => exact dsi 0x03 0 .xrd false x rfl rfl id
  | xwr x => exact xwr x
  | tresume x => exact tresume x
  | tkill x => exact hOnly 0x04 1 .tkill false x rfl rfl id
  | tret x => exact hOnly 0x04 2 .tret false x rfl rfl id
  | spillgo x => exact dOnly 0x05 0 .spillgo false x rfl rfl id
  | spstat x => exact dOnly 0x05 1 .spstat false x rfl rfl id
  | xlinv x => exact xlinv x
  | ldpi x => exact ldpi x
  | stpi x => exact stpi x
  | vldpi x => exact vldpi x
  | vdot x => exact vdot x
  | _ => exact fun _ _ h => nomatch h

end Decodes

/-- What is no event, no undefined opcode and no fetch fault has fields. -/
theorem encodeFields_isSome (x : Instr) (hu : ∀ op fn, x ≠ .undefinedOpcode op fn) (hf : ∀ c l i, x ≠ .instructionFetchFault c l i) :
    ((encodeFields x).isSome || x.isEvent) = true := by
  cases x with
  | undefinedOpcode op fn => exact absurd rfl (hu op fn)
  | instructionFetchFault c l i => exact absurd rfl (hf c l i)
  | _ => rfl

/-- Settles O2: the fields of every encoded instruction are a line that a row of the encoding tables takes, and the row builds the instruction from it. -/
theorem encodeThenDecode : Obligations.EncodeThenDecode := by
  unfold Obligations.EncodeThenDecode
  refine ⟨fun x w hx hw => ?_, fun x _ he hu hf => ?_⟩
  · cases hf : encodeFields x with
    | none => simp [encode, hf] at hw
    | some f => exact (decode_encode x f hf w hw).trans (Decodes.all x f hx hf)
  · simpa [encode, he] using encodeFields_isSome x hu hf

end Sys2Proof
end

section
/-! SUPPORT. Branch offsets (04 R69) and the clock's registers (04 R86, R88). -/

namespace Sys2Proof.Machine

/-! ## Program counters and offsets -/

theorem pcLine_mkPc (l n : Nat) (hn : n < 64) : pcLine (mkPc l n) = l % 2 ^ 46 := by
  simp only [pcLine, mkPc, bits, w64, BitVec.toNat_ofNat]; omega
theorem pcSlot_mkPc (l n : Nat) (hn : n < 8) : pcSlot (mkPc l n) = n := by
  simp only [pcSlot, mkPc, bits, w64, BitVec.toNat_ofNat]; omega
/-- The signed line distance of an offset, bits [31:3], is the offset shifted right arithmetically. -/
theorem toS_lineOffset (off : W32) : toS 29 (off.toNat / 8) = (off.sshiftRight 3).toInt := by
  have h := off.isLt
  rw [BitVec.toInt_sshiftRight, BitVec.toInt_eq_toNat_cond, Int.shiftRight_eq_div_pow]
  unfold toS
  split <;> split <;> omega

/-- Settles O16: line and slot are read back from the packed target, the line modulo 2^46. -/
theorem offsetTarget : Obligations.OffsetTarget := by
  unfold Obligations.OffsetTarget
  intro line slot off hl hs
  have hline : pcLine (mkPc line slot) = line := by rw [pcLine_mkPc _ _ (by omega), Nat.mod_eq_of_lt hl]
  have hslot : (off &&& 7).toNat = off.toNat % 8 := by
    rw [BitVec.toNat_and]; exact Nat.and_two_pow_sub_one_eq_mod off.toNat 3
  constructor
  · rw [offTarget, pcLine_mkPc _ _ (by omega), hline, toS_lineOffset]
    simp only [ofZ]
    omega
  · rw [offTarget, pcSlot_mkPc _ _ (by omega), hslot]

/-! ## Status registers read by `srd` -/

/-- `srd` of a register that every level may read writes its value; of TIME it latches the upper seconds first. -/
theorem exec_srd (x : SrdA) (s : State) {v : W64} (hg : s.guardOn x.h = true) (hv : s.status x.n.val = some v) (hs : supOnly x.n.val = false) :
    exec (.srd x) s =
      .next ((if x.n.val = 0x0E then s.updTh fun t => { t with timehi := BitVec.ofNat 16 (s.ptpSec / 2 ^ 32) } else s).ws x.d v) := by
  show execSrd x s = _
  rw [execSrd, guarded_on _ _ _ hg, hv]
  simp only [hs, Bool.false_and, Bool.false_eq_true, if_false, finish_done]

/-- Settles O15: the three values of the clock's registers, and what reset leaves of TIMEHI. -/
theorem timeIsLatched : Obligations.TimeIsLatched := by
  unfold Obligations.TimeIsLatched
  refine ⟨fun x s hn hg => ?_, fun x s hn hg => ?_, fun x s hn hg => ?_, rfl, fun t => rfl⟩
  · rw [exec_srd x s hg (by rw [hn]; rfl) (by rw [hn]; rfl), if_pos hn]; rfl
  · rw [exec_srd x s hg (by rw [hn]; rfl) (by rw [hn]; rfl), if_neg (by omega)]
  · rw [exec_srd x s hg (by rw [hn]; rfl) (by rw [hn]; rfl), if_neg (by omega)]; rfl

end Sys2Proof.Machine
end

section
/-! SUPPORT. What the scalar and predicate groups leave as it was (04 R76, R79, 07 R125 to R132). -/

namespace Sys2Proof.Machine
open Sys2Proof Sys2Proof.Claims

/-! ## A false guard -/

/-- The instructions that act on no lanes and accept a guard take effect under its bit 0. -/
theorem exec_of_guardOf (s : State) {i : Instr} {h : Hdr} (hi : guardOf i = some h) : ∃ f, exec i s = guarded h s f := by
  cases i with
  | add x | sub x | mul x | mulh x | and x | or x | xor x | andn x | min x | max x | div x | rem x =>
    cases hi
    simp only [exec, execAdd, execSub, execMul, execMulh, execAnd, execOr, execXor, execAndn, execMin, execMax, execDiv, execRem]
    exact ⟨_, rfl⟩
  | shl x | shr x | rotl x | ext x =>
    cases hi
    simp only [exec, execShl, execShr, execRotl, execExt]
    exact ⟨_, rfl⟩
  | ins x | clz x | ctz x | popc x | brev x | bswap x =>
    cases hi
    simp only [exec, execIns, execClz, execCtz, execPopc, execBrev, execBswap]
    exact ⟨_, rfl⟩
  | cmpeq x | cmpne x | cmplt x | cmple x | cmpgt x | cmpge x | sel x | mov x | lih x | lea x | nop x =>
    cases hi
    simp only [exec, execCmpeq, execCmpne, execCmplt, execCmple, execCmpgt, execCmpge, execSel, execMov, execLih, execLea, execNop]
    exact ⟨_, rfl⟩
  | pand x | por x | pxor x | pandn x | pnot x | pset x | pread x | pcnt x | pwrite x =>
    cases hi
    simp only [exec, execPand, execPor, execPxor, execPandn, execPnot, execPset, execPread, execPcnt, execPwrite]
    exact ⟨_, rfl⟩
  | srd x | swr x | br x | brz x | brnz x | brdec x | call x | callr x | jr x | ret x | part x =>
    cases hi
    simp only [exec, execSrd, execSwr, execBr, execBrz, execBrnz, execBrdec, execCall, execCallr, execJr, execRet, execPart]
    exact ⟨_, rfl⟩
  | ld x | st x | ldv x | stcv x | valchk x | valclr x | pref x | rrow x =>
    cases hi
    simp only [exec, execLd, execSt, execLdv, execStcv, execValchk, execValclr, execPref, execRrow]
    exact ⟨_, rfl⟩
  | aadd x | aand x | aor x | axor x | amin x | amax x | aswap x | acas x | afadd x | mradd x | mrand x | mror x | mrxor x | mrmin x | mrmax x | mrfadd x =>
    cases hi
    simp only [exec, execAadd, execAand, execAor, execAxor, execAmin, execAmax, execAswap, execAcas, execAfadd,
      execMradd, execMrand, execMror, execMrxor, execMrmin, execMrmax, execMrfadd]
    exact ⟨_, rfl⟩
  | casv x | waitv x | fence x | ibpoll x | ibsend x | ibrecv x | dlaunch x | dsignal x | msgsend x | msgpost x | rand x =>
    cases hi
    simp only [exec, execCasv, execWaitv, execFence, execIbpoll, execIbsend, execIbrecv, execDlaunch, execDsignal, execMsgsend, execMsgpost, execRand]
    exact ⟨_, rfl⟩
  | _ => cases hi

/-- An instruction that acts on no lanes and whose guard bit 0 is 0 changes nothing. -/
theorem exec_guardOff {i : Instr} {s : State} {h : Hdr} (hi : guardOf i = some h) (hg : s.guardOn h = false) : exec i s = .next s := by
  obtain ⟨f, e⟩ := exec_of_guardOf s hi
  rw [e, guarded_off h s f hg]

/-! ## Accesses that move caches alone -/

/-- Only free values, lines of L2, retention counts and translations have moved. -/
def State.Cached (s t : State) : Prop :=
  t = { s with free := t.free, l2 := t.l2, retain := t.retain, clusters := t.clusters } ∧ ∀ c, t.cluster c = { s.cluster c with tlb := (t.cluster c).tlb }

theorem State.Cached.refl (s : State) : s.Cached s := ⟨rfl, fun _ => rfl⟩
theorem State.Cached.trans {s t u : State} (h : s.Cached t) (k : t.Cached u) : s.Cached u := by
  refine ⟨?_, fun c => ?_⟩
  · rw [k.1, h.1]
  · rw [k.2 c, h.2 c]
theorem State.cached_free (s : State) (n : Nat) : s.Cached { s with free := n } := ⟨rfl, fun _ => rfl⟩
theorem State.cached_l2Touch (s : State) (pa : Nat) (e : Bool) : s.Cached (s.l2Touch pa e) := by
  rw [State.l2Touch_frame]; exact ⟨rfl, fun _ => rfl⟩
theorem State.cached_l2Touches (as : List Nat) (s : State) : s.Cached (as.foldl (fun s a => s.l2Touch a false) s) :=
  State.l2Touches_keep (P := fun u => s.Cached u) (fun _ pa e h => h.trans (State.cached_l2Touch _ pa e)) id as s (.refl s)
theorem State.cached_tlb (s : State) (cl : Nat) (e : List TlbEntry) : s.Cached (s.updCluster cl fun k => { k with tlb := k.tlb ++ e }) := by
  refine ⟨rfl, fun c => ?_⟩
  by_cases h : c = cl
  · subst h; rw [State.cluster_updCluster]
  · rw [State.cluster_updCluster_ne _ _ h]
theorem State.cached_lookup (s : State) (cl p va : Nat) : s.Cached (s.lookup cl p va).2 := by
  unfold State.lookup
  extract_lets w cached now cands
  rcases pick s.free now cands with ⟨c, f⟩
  simp only
  by_cases h : cached.contains c = true
  · rw [if_pos h]
    cases c <;> exact s.cached_free f
  · rw [if_neg h]
    cases w with
    | leaf e n reads => exact ((s.cached_free f).trans (State.cached_l2Touches reads _)).trans (State.cached_tlb _ cl [_])
    | fault i reads => exact (s.cached_free f).trans (State.cached_l2Touches reads _)
theorem State.cached_request (s : State) (p : Place) (seen : List Nat) (pa : Nat) (e : Bool) : s.Cached (s.request p seen pa e) := by
  unfold State.request
  split
  · exact .refl s
  · exact s.cached_l2Touch _ _

/-- The state in which a part of an instruction ends has a property, unless it traps. -/
def Res.Ends {α : Type} (P : α → State → Prop) (Q : State → Prop) (r : Res α) : Prop :=
  match r with
  | .ok a s => P a s
  | .pass s => Q s
  | .trap .. => True
theorem Res.Ends.andThen {α β : Type} {P : α → State → Prop} {P' : β → State → Prop} {Q : State → Prop} {r : Res α} {f : α → State → Res β}
    (h : r.Ends P Q) (k : ∀ a s, P a s → (f a s).Ends P' Q) : (r.andThen f).Ends P' Q := by
  cases r with
  | ok a s => exact k a s h
  | pass s => exact h
  | trap s c a i => trivial

theorem Res.Ends.pass_imp {α : Type} {P : α → State → Prop} {Q Q' : State → Prop} {r : Res α} (h : r.Ends P Q)
    (k : ∀ s, Q s → Q' s) : r.Ends P Q' := by
  cases r with
  | ok a s => exact h
  | pass s => exact k s h
  | trap s c a i => trivial

theorem State.pages_cached (x : Agent) (kd : Kind) (fin n : Nat) : ∀ (s : State) (va : Nat) (acc : List Pg),
    (s.pages x kd fin n va acc).Ends (fun _ t => s.Cached t) (fun t => s.Cached t) := by
  induction n with
  | zero => exact fun s _ _ => .refl s
  | succ n ih =>
    intro s va acc
    have hl := s.cached_lookup (clusterOf x.core) x.part va
    unfold State.pages
    split
    · exact .refl s
    · revert hl
      rcases s.lookup (clusterOf x.core) x.part va with ⟨r, s'⟩
      intro hl
      cases r with
      | inr i => trivial
      | inl pg =>
        simp only
        split
        · trivial
        · have := ih s' (pg.va + pg.size) (acc ++ [pg])
          revert this
          rcases State.pages s' x kd fin n (pg.va + pg.size) (acc ++ [pg]) with _ | _ | _
          · exact fun k => hl.trans k
          · exact fun k => hl.trans k
          · exact fun _ => trivial
theorem State.access_cached (s : State) (x : Agent) (a : W64) (n : Nat) (kd : Kind) (noDev : Bool) :
    (s.access x a n kd noDev).Ends (fun _ t => s.Cached t) (fun t => s.Cached t) := by
  unfold State.access
  simp only
  split
  · trivial
  · split
    · split
      · trivial
      · split
        · trivial
        · split
          · split
            · trivial
            · exact .refl s
          · exact .refl s
    · refine (State.pages_cached x kd _ _ s _ _).andThen fun pgs t h => ?_
      split
      · exact h
      · split
        · exact h
        · trivial
theorem State.constLine_cached (s : State) (l : Launch) (w word : Nat) :
    (s.constLine l w word).Ends (fun _ t => s.Cached t) (fun t => s.Cached t) := by
  unfold State.constLine
  simp only
  split
  · exact .refl s
  · refine (s.access_cached ..).andThen fun p t h => ?_
    split
    · split
      · trivial
      · exact h.trans (t.cached_request ..)
    · split
      · trivial
      · exact h
    · exact h

/-! ## Operands -/

/-- Caches alone have moved, the constant lines of the issuing core among them. -/
def State.OnlyCached (s t : State) : Prop :=
  t = { s with free := t.free, l2 := t.l2, retain := t.retain, cores := t.cores, clusters := t.clusters } ∧
  (∀ c, t.core c = { s.core c with cc := (t.core c).cc }) ∧ ∀ c, t.cluster c = { s.cluster c with tlb := (t.cluster c).tlb }
theorem State.Cached.core {s t : State} (h : s.Cached t) (c : Nat) : t.core c = s.core c := by rw [h.1]; rfl
theorem State.Cached.only {s t : State} (h : s.Cached t) : s.OnlyCached t := by
  refine ⟨?_, fun c => ?_, h.2⟩
  · rw [h.1]
  · rw [h.core]
theorem State.Cached.putConst {s t : State} (h : s.Cached t) (f : List (Nat × Nat × BitVec 512) → List (Nat × Nat × BitVec 512)) :
    s.OnlyCached (t.updMyCore fun k => { k with cc := f k.cc }) := by
  refine ⟨?_, fun c => ?_, h.2⟩
  · show ({ t with cores := _ } : State) = _
    rw [h.1]; rfl
  · by_cases e : c = t.cur.core
    · subst e
      rw [State.updMyCore, State.core_updCore, h.core]
    · rw [State.updMyCore, State.core_updCore_ne _ _ e, h.core]

/-- An operand read leaves all but the counter of free values, or passes the turn for a constant line. -/
def Res.Reads {α : Type} (s : State) (r : Res α) : Prop := r.Ends (fun _ t => ∃ k, t = { s with free := k }) fun t => s.OnlyCached t

theorem State.readConst_reads (s : State) (w word : Nat) : (s.readConst w word).Reads s := by
  unfold State.readConst
  cases s.myLaunch with
  | none => trivial
  | some l =>
    simp only
    generalize (if w = 7 && 0 < l.kernel.argsize then ((0 : W64), l.kernel.argsize) else (l.kernel.windows[w]?).getD (0, 0)) = p
    by_cases h : p.2 ≤ 4 * word
    · rw [if_pos h]; trivial
    · rw [if_neg h]
      cases s.myCore.cc.find? fun e => e.1 == w && e.2.1 == word / 16 with
      | none =>
        refine Res.Ends.andThen (P' := fun _ t => ∃ k, t = { s with free := k }) ((s.constLine_cached l w word).pass_imp fun t h => h.only) fun now t h => ?_
        exact h.putConst fun cc => (if cc.length < 256 then cc else cc.drop 1) ++ [(w, word / 16, now)]
      | some e =>
        cases s.constLine l w word with
        | ok now t =>
          simp only
          split
          · exact ⟨s.free, rfl⟩
          · exact ⟨s.free + 1, rfl⟩
        | pass t => exact ⟨s.free, rfl⟩
        | trap t c a i => exact ⟨s.free, rfl⟩
theorem State.src_reads (s : State) (b : Bool) (x : Src) : (s.src b x).Reads s := by
  cases x with
  | s r => exact ⟨s.free, rfl⟩
  | i v => exact ⟨s.free, rfl⟩
  | k w n => exact (s.readConst_reads w.val n.val).andThen fun v t h => h
/-! ## Results -/

/-- An instruction writes a result with `w` and leaves the rest, or passes the turn for a constant line, or traps. -/
def Res.Sets {α : Type} (s : State) (w : Regs → α → Regs) (r : Res Unit) : Prop :=
  r.Ends (fun _ t => ∃ v, Wrote s t fun r => w r v) fun t => s.OnlyCached t
theorem State.wrote_ws (s : State) (k : Nat) (d : SReg) (v : W64) : Wrote s (State.ws { s with free := k } d v) fun r => wrS r d v := ⟨k, rfl⟩
theorem State.wrote_wp (s : State) (k : Nat) (d : PReg) (v : W32) : Wrote s (State.wp { s with free := k } d v) fun r => wrP r d v := ⟨k, rfl⟩

/-- What is done with an operand read gives the property to the whole. -/
theorem State.sets_of_src {α : Type} (s : State) (b : Bool) (x : Src) {w : Regs → α → Regs} {f : W64 → State → Res Unit}
    (h : ∀ v k, (f v { s with free := k }).Sets s w) : ((s.src b x).andThen f).Sets s w := by
  refine (s.src_reads b x).andThen fun v t => ?_
  rintro ⟨k, rfl⟩
  exact h v k
theorem State.putInt_sets (s : State) (k : Nat) (d : SReg) (t : IntTy) (sat : Bool) (x : Int) :
    (State.putInt { s with free := k } d t sat x).Sets s fun r v => wrS r d v := by
  unfold State.putInt
  split
  · trivial
  · exact ⟨_, s.wrote_ws k d _⟩
theorem State.intA_sets (s : State) (x : IntA) (o : IOp) : (s.intA x o).Sets s fun r v => wrS r x.d v :=
  s.sets_of_src _ x.b fun _ k => s.putInt_sets k x.d x.ty x.sat _
theorem State.intSh_sets (s : State) (x : IntSh) (o : IOp) : (s.intSh x o).Sets s fun r v => wrS r x.d v := s.putInt_sets s.free x.d x.ty x.sat _
theorem State.divide_sets (s : State) (x : IntA) (rem : Bool) : (s.divide x rem).Sets s fun r v => wrS r x.d v := by
  refine s.sets_of_src _ x.b fun b k => ?_
  simp only
  split
  · split
    · trivial
    · exact ⟨_, s.wrote_ws k x.d _⟩
  · exact s.putInt_sets k x.d x.ty _ _
theorem State.ws_sets (s : State) (d : SReg) (v : W64) : (done (s.ws d v)).Sets s fun r v => wrS r d v := ⟨v, s.wrote_ws s.free d v⟩
theorem State.wp_sets (s : State) (d : PReg) (v : W32) : (done (s.wp d v)).Sets s fun r v => wrP r d v := ⟨v, s.wrote_wp s.free d v⟩
theorem State.compareS_sets (s : State) {x : Cmp} {d : SReg} (h : x.d = .s d) (f : Int → Int → Bool) : (s.compare x f).Sets s fun r v => wrS r d v :=
  s.sets_of_src _ x.b fun _ k => by rw [h]; exact ⟨_, s.wrote_ws k d _⟩
theorem State.compareP_sets (s : State) {x : Cmp} {d : PReg} (h : x.d = .p d) (f : Int → Int → Bool) : (s.compare x f).Sets s fun r v => wrP r d v :=
  s.sets_of_src _ x.b fun _ k => by rw [h]; exact ⟨_, s.wrote_wp k d _⟩

/-! ## What an instruction leaves as it was -/

theorem onlyRegs_refl (s : State) (ds : List SReg) (vs : List VReg) (ps : List PReg) : OnlyRegs s s ds vs ps :=
  ⟨⟨fun _ _ => rfl, fun _ _ => rfl, fun _ _ => rfl, fun _ _ => rfl⟩, ⟨fun _ => rfl, fun _ _ => rfl⟩,
    ⟨rfl, rfl, rfl, rfl, rfl, rfl, rfl, rfl, rfl, rfl⟩,
    ⟨fun _ => ⟨rfl, rfl, rfl, rfl, rfl⟩, rfl⟩, fun _ _ => rfl, fun _ => ⟨rfl, rfl⟩, fun _ => rfl⟩
/-- Registers written are all that changes. -/
theorem onlyRegs_of_wrote {s t : State} {f : Regs → Regs} {ds : List SReg} {vs : List VReg} {ps : List PReg} (h : Wrote s t f)
    (hs : ∀ n, n ∉ ds → rdS (f s.th.regs) n = rdS s.th.regs n) (hv : ∀ n, n ∉ vs → rdV (f s.th.regs) n = rdV s.th.regs n)
    (hp : ∀ n, n ∉ ps → rdP (f s.th.regs) n = rdP s.th.regs n) (hc : ∀ n, rdC (f s.th.regs) n = rdC s.th.regs n) : OnlyRegs s t ds vs ps := by
  obtain ⟨k, rfl⟩ := h
  have ht : State.th { s.updRegs f with free := k } = { s.th with regs := f s.th.regs } := s.th_updRegs f
  have hk (c : Nat) : State.core { s.updRegs f with free := k } c = { s.core c with threads := ((s.updRegs f).core c).threads } :=
    s.core_updTh (fun t => { t with regs := f t.regs }) c
  refine ⟨⟨?_, ?_, ?_, ?_⟩, ⟨fun _ => rfl, fun c a => by rw [hk]⟩, ?_, ⟨fun c => by rw [hk]; exact ⟨rfl, rfl, rfl, rfl, rfl⟩, by rw [ht]⟩,
    fun u hu => s.thr_updRegs_ne f hu, fun c => ⟨rfl, rfl⟩, fun c => by rw [hk]⟩
  · rw [ht]; exact hs
  · rw [ht]; exact hv
  · rw [ht]; exact hp
  · rw [ht]; exact fun n _ => hc n
  · rw [KeepsStatus, ht]; exact ⟨rfl, rfl, rfl, rfl, rfl, rfl, rfl, rfl, rfl, rfl⟩
theorem keepsFlags_of_wrote {s t : State} {f : Regs → Regs} (h : Wrote s t f) : KeepsFlags s t := by
  obtain ⟨k, rfl⟩ := h
  have ht : State.th { s.updRegs f with free := k } = { s.th with regs := f s.th.regs } := s.th_updRegs f
  rw [KeepsFlags, ht]
theorem onlyRegs_of_wrS {s t : State} {d : SReg} {v : W64} (h : Wrote s t fun r => wrS r d v) : OnlyRegs s t [d] [] [] :=
  onlyRegs_of_wrote h (fun n hn => by rw [rdS_wrS, if_neg fun k => hn (List.mem_singleton.mpr k.1)]) (fun _ _ => rdV_wrS ..) (fun _ _ => rdP_wrS ..)
    fun _ => rdC_wrS ..
theorem onlyRegs_of_wrP {s t : State} {d : PReg} {v : W32} (h : Wrote s t fun r => wrP r d v) : OnlyRegs s t [] [] [d] :=
  onlyRegs_of_wrote h (fun _ _ => rdS_wrP ..) (fun _ _ => rdV_wrP ..) (fun n hn => by rw [rdP_wrP, if_neg fun k => hn (List.mem_singleton.mpr k.1)])
    fun _ => rdC_wrP ..
theorem State.OnlyCached.passed {s t : State} (h : s.OnlyCached t) : OnlyCaches s { t with cur := { t.cur with fate := .passed } } := by
  refine ⟨?_, ?_, h.2.1, h.2.2⟩
  · rw [h.1]
  · show ({ t.cur with fate := .passed } : Cur) = _
    rw [h.1]

/-- What an instruction with result registers `ds`, `ps` and guard `h` leaves as it was, where `W` says that it wrote a result. -/
def Frames (s t : State) (h : Hdr) (ds : List SReg) (ps : List PReg) (W : Prop) : Prop :=
  (t.cur.fate = .go → OnlyRegs s t ds [] ps ∧ KeepsFlags s t ∧ (s.guardOn h = true → W)) ∧ (t.cur.fate = .passed → OnlyCaches s t)

/-- An instruction under a guard that writes a result leaves the rest as it was. -/
theorem guarded_frames {α : Type} {s t : State} {h : Hdr} {f : State → Res Unit} {w : Regs → α → Regs} {ds : List SReg} {ps : List PReg}
    (hw : ∀ v t, Wrote s t (fun r => w r v) → OnlyRegs s t ds [] ps) (hgo : s.cur.fate = .go) (hf : (f s).Sets s w) (e : guarded h s f = .next t) :
    Frames s t h ds ps (∃ v, Wrote s t fun r => w r v) := by
  cases hg : s.guardOn h with
  | false =>
    rw [guarded_off h s f hg] at e
    cases e
    exact ⟨fun _ => ⟨onlyRegs_refl s .., rfl, fun k => by rw [hg] at k; cases k⟩, fun k => by rw [hgo] at k; cases k⟩
  | true =>
    rw [guarded_on h s f hg] at e
    revert hf e
    cases f s with
    | ok u s' =>
      intro hk e
      obtain ⟨v, k⟩ : ∃ v, Wrote s s' fun r => w r v := hk
      cases e
      refine ⟨fun _ => ⟨hw v t k, keepsFlags_of_wrote k, fun _ => ⟨v, k⟩⟩, fun hp => ?_⟩
      obtain ⟨n, rfl⟩ := k
      rw [show State.cur { s.updRegs (fun r => w r v) with free := n } = s.cur from rfl, hgo] at hp
      cases hp
    | pass s' =>
      intro k e
      cases e
      exact ⟨fun hp => (by cases hp), fun _ => State.OnlyCached.passed k⟩
    | trap s' c a i =>
      intro _ e
      cases e
      exact ⟨fun hp => (by cases hp), fun hp => (by cases hp)⟩

section
variable {s t : State} {h : Hdr} {f : State → Res Unit}
theorem guarded_framesS {d : SReg} (hgo : s.cur.fate = .go) (e : guarded h s f = .next t) (hf : (f s).Sets s fun r v => wrS r d v) :
    Frames s t h [d] [] (∃ v, Wrote s t fun r => wrS r d v) := guarded_frames (fun _ _ k => onlyRegs_of_wrS k) hgo hf e
theorem guarded_framesP {d : PReg} (hgo : s.cur.fate = .go) (e : guarded h s f = .next t) (hf : (f s).Sets s fun r v => wrP r d v) :
    Frames s t h [] [d] (∃ v, Wrote s t fun r => wrP r d v) := guarded_frames (fun _ _ k => onlyRegs_of_wrP k) hgo hf e
end
theorem State.cond_sets (s : State) {c : Prop} [Decidable c] (d : SReg) (v : W64) (n : Nat) :
    (if c then done (s.ws d v) else badPos s n : Res Unit).Sets s fun r v => wrS r d v := by
  split
  · exact s.ws_sets d v
  · trivial
/-- Settles O13: each instruction is an operand read or none, then a write of D; an operand read moves the counter of free values, or passes the turn. -/
theorem scalarFrame : Obligations.ScalarFrame := by
  refine ⟨fun i s h hi hg => exec_guardOff hi hg, fun i s t hgo e => ?_⟩
  refine ⟨fun x k => ?_, fun x k => ?_, fun x k => ?_, fun x k => ?_, fun x k => ?_, fun x k => ?_, fun x k => ?_, fun x k => ?_, fun x k => ?_,
    fun x k => ?_, fun x k => ?_, fun x k => ?_, fun x k => ?_, fun x k => ?_⟩
  · rcases k with rfl | rfl | rfl | rfl | rfl | rfl | rfl | rfl | rfl | rfl | rfl | rfl
    all_goals simp only [exec, execAdd, execSub, execMul, execMulh, execAnd, execOr, execXor, execAndn, execMin, execMax, execDiv, execRem] at e
    iterate 10 exact guarded_framesS hgo e (s.intA_sets x _)
    iterate 2 exact guarded_framesS hgo e (s.divide_sets x _)
  · rcases k with rfl | rfl | rfl | rfl
    all_goals simp only [exec, execShl, execShr, execRotl, execExt] at e
    iterate 3 exact guarded_framesS hgo e (s.intSh_sets x _)
    exact guarded_framesS hgo e (s.cond_sets x.d _ _)
  · rcases k with rfl | rfl | rfl | rfl | rfl
    all_goals simp only [exec, execClz, execCtz, execPopc, execBrev, execBswap] at e
    all_goals exact guarded_framesS hgo e (s.ws_sets x.d _)
  · split <;> rename_i d hd <;> rcases k with rfl | rfl | rfl | rfl | rfl | rfl
    all_goals simp only [exec, execCmpeq, execCmpne, execCmplt, execCmple, execCmpgt, execCmpge] at e
    iterate 6 exact guarded_framesS hgo e (s.compareS_sets hd _)
    iterate 6 exact guarded_framesP hgo e (s.compareP_sets hd _)
  · rcases k with rfl | rfl | rfl | rfl
    all_goals simp only [exec, execPand, execPor, execPxor, execPandn] at e
    all_goals exact guarded_framesP hgo e (s.wp_sets x.d _)
  · rw [k, exec, execIns] at e; exact guarded_framesS hgo e (s.cond_sets x.d _ _)
  · rw [k, exec, execSel] at e; exact guarded_framesS hgo e (s.sets_of_src _ x.a fun _ k => ⟨_, s.wrote_ws k x.d _⟩)
  · rw [k, exec, execMov] at e; exact guarded_framesS hgo e (s.sets_of_src _ x.a fun _ k => ⟨_, s.wrote_ws k x.d _⟩)
  · rw [k, exec, execLih] at e; exact guarded_framesS hgo e (s.ws_sets x.d _)
  · rw [k, exec, execLea] at e; exact guarded_framesS hgo e (s.ws_sets x.d _)
  · rw [k, exec, execPnot] at e; exact guarded_framesP hgo e (s.wp_sets x.d _)
  · rw [k, exec, execPset] at e; exact guarded_framesP hgo e (s.wp_sets x.d _)
  · rcases k with rfl | rfl
    all_goals simp only [exec, execPread, execPcnt] at e
    all_goals exact guarded_framesS hgo e (s.ws_sets x.d _)
  · rw [k, exec, execPwrite] at e; exact guarded_framesP hgo e (s.wp_sets x.d _)
end Sys2Proof.Machine
end

section
/-! SUPPORT. A slot's turn, from the agenda to the bundle that issues (06 R107 to R109, R113). -/

namespace Sys2Proof.Machine
open Sys2Proof Sys2Proof.Claims

/-! ## The bundle at the PC -/

theorem check_single {b : Bundle} {i : Instr} (hn : b.n = 1) (hi : decode b.w1 = .ok i) : b.check = .ok (i, none) := by
  simp [Bundle.check, hn, hi]
theorem check_pair {b : Bundle} {i j : Instr} (hn : b.n = 2) (h1 : pairFirstOk b.w1 = true) (h2 : pairSecondOk b.w2 = true)
    (hi : decode b.w1 = .ok i) (hj : decode b.w2 = .ok j) : b.check = .ok (i, some j) := by
  simp [Bundle.check, hn, h1, h2, hi, hj]

/-! ## The turn of a slot -/

@[simp] theorem State.takeRecord_cycle (s : State) (c : Nat) : (s.takeRecord c).cycle = s.cycle := by
  unfold State.takeRecord
  split
  · rfl
  · split <;> rfl
/-- A turn opens in the cycle of the state. -/
theorem State.opened_cycle (s : State) (c slot : Nat) :
    (if slot = 7 then (s.at ⟨c, slot⟩).takeRecord c else s.at ⟨c, slot⟩).cycle = s.cycle := by
  split
  · exact State.takeRecord_cycle ..
  · rfl
theorem step_event {s : State} {i : Instr} {r : List Instr} (ha : s.agenda = i :: r) (hi : isEvent i = true) : step s = exec i { s with agenda := r } := by
  simp [step, ha, hi]
/-- With no agenda it is the turn of the next core's slot. -/
theorem step_core {s : State} {c : Nat} {k : Core} (ha : s.agenda = []) (hf : s.cores.find? (fun e => decide (s.nextCore ≤ e.1)) = some (c, k)) :
    step s = .next { s.slotTurn c (slotAt s.cycle (s.core c).cycle0) with nextCore := c + 1 } := by
  simp [step, ha, State.turn, hf, State.coreTurn]
/-- After the last core comes the next cycle. -/
theorem step_nextCycle {s : State} (ha : s.agenda = []) (h : ∀ e ∈ s.cores, e.1 < s.nextCore) : step s = .next s.nextCycle := by
  have hf : s.cores.find? (fun e => decide (s.nextCore ≤ e.1)) = none :=
    List.find?_eq_none.mpr fun e he => by simpa using h e he
  simp [step, ha, State.turn, hf]

/-- What the look of a thread at its wait leaves of its turn. -/
def Poll.rest (p : Poll) : State :=
  match p with
  | .wait x | .used x => x
  | .go y => y.readyTurn

section
variable {s a : State} {c slot : Nat} (hh : s.halting c = false)
  (ha : (if slot = 7 then (s.at ⟨c, slot⟩).takeRecord c else s.at ⟨c, slot⟩) = a)
include hh ha

theorem slotTurn_idle (h : a.th.status ≠ .running) : s.slotTurn c slot = a := by
  unfold State.slotTurn
  simp only
  rw [show (s.at ⟨c, slot⟩).halting c = false from hh, ha]
  simp [h]
theorem slotTurn_wake (hs : a.th.status = .running) (hw : a.th.wake = some s.cycle) : s.slotTurn c slot = a.updTh Thread.passTurn := by
  have hc : a.cycle = s.cycle := ha ▸ s.opened_cycle c slot
  unfold State.slotTurn
  simp only
  rw [show (s.at ⟨c, slot⟩).halting c = false from hh, ha]
  simp [hs, hw, hc]
/-- A running thread with no data of its own this cycle and no conflict to report passes a turn, or looks at its wait. -/
theorem slotTurn_awake (hs : a.th.status = .running) (hw : a.th.wake ≠ some s.cycle) (hc : slot = 7 ∨ a.th.confl = none) :
    s.slotTurn c slot = if a.th.skip = 0 then a.pollThread.rest else a.updTh Thread.passTurn := by
  have hy : a.cycle = s.cycle := ha ▸ s.opened_cycle c slot
  have hn : (if slot < 7 then a.th.confl else none) = none := by
    rcases hc with h | h
    · rw [if_neg (by omega)]
    · rw [h, ite_self]
  unfold State.slotTurn
  simp only
  rw [show (s.at ⟨c, slot⟩).halting c = false from hh, ha, hn, hy]
  simp only [hs, hw, bne_self_eq_false, Bool.false_eq_true, if_false, beq_iff_eq, bne_iff_ne, ne_eq, ite_not]
  cases a.pollThread <;> rfl
end

theorem passTurn_steps {t : Thread} {p : Pend} {n : Nat} {far : Bool} {r : Result} {st} (hp : t.pend = some p) (h : p.stage = .steps n far r st) :
    t.passTurn.pend = some { p with stage := .steps (n - 1) far r st } := by
  simp [Thread.passTurn, hp, h]
theorem passTurn_other {t : Thread} {p : Pend} (hp : t.pend = some p) (h : ∀ n far r st, p.stage ≠ .steps n far r st) : t.passTurn.pend = some p := by
  simp [Thread.passTurn, hp]
theorem passTurn_idle {t : Thread} (hp : t.pend = none) : t.passTurn = { t with skip := t.skip - 1 } := by
  simp [Thread.passTurn, hp]

theorem readyTurn_alone {y : State} (h : y.th.gang = none) : y.readyTurn = y.fetchTurn := by simp [State.readyTurn, h]
theorem readyTurn_captured {y : State} {g : Gang} (h : y.th.gang = some g) (hi : g.idx = 0) (hl : g.leaving = false) (hc : g.cap ≠ none) :
    y.readyTurn = y := by
  have := Option.isSome_iff_ne_none.mpr hc
  simp [State.readyTurn, h, hi, hl, this]
theorem readyTurn_leader {y : State} {g : Gang} (h : y.th.gang = some g) (hi : g.idx = 0) (hl : g.leaving = false) (hc : g.cap = none) :
    y.readyTurn = y.fetchTurn := by
  simp [State.readyTurn, h, hi, hl, hc]
theorem readyTurn_follower {y : State} {g : Gang} (h : y.th.gang = some g) (hi : g.idx ≠ 0) (hl : g.leaving = false) : y.readyTurn = y.followTurn g := by
  simp [State.readyTurn, h, hi, hl]

/-! ## From the fetched line to the issue -/

section
variable {y u v : State} {img : BitVec 512} {i : Instr} {j : Option Instr} {w : Unit}

theorem fetchTurn_line (hr : y.th.arrive ≠ .resume) (hf : ({ y with cur := { y.cur with ipc := y.th.pc } } : State).fetch = .line img u) :
    y.fetchTurn = u.issueFrom img := by
  unfold State.fetchTurn
  simp only
  rw [show State.th { y with cur := { y.cur with ipc := y.th.pc } } = y.th from rfl, hf]
  simp [hr]

variable (hc : (bundleOf img (pcSlot u.th.pc)).check = .ok (i, j))
  (hs : ({ u with cur := (issueOf (pcLine u.th.pc) (bundleOf img (pcSlot u.th.pc)) i j).cur1 u.cur.core u.cur.slot } : State).checkSig
    (issueOf (pcLine u.th.pc) (bundleOf img (pcSlot u.th.pc)) i j).ipc = .ok w v)
include hc hs

theorem issueFrom_alone (hg : v.th.gang = none) :
    u.issueFrom img = v.issue (issueOf (pcLine u.th.pc) (bundleOf img (pcSlot u.th.pc)) i j) := by
  unfold State.issueFrom
  simp only
  rw [hc]
  simp only
  rw [hs]
  simp only [hg]
theorem issueFrom_leader {g : Gang} (hg : v.th.gang = some g) (hi : g.idx = 0) (ha : v.th.arrive ≠ .again) :
    let x := issueOf (pcLine u.th.pc) (bundleOf img (pcSlot u.th.pc)) i j
    u.issueFrom img = if (v.gangReady g x).1 = true then v.issue x else (v.gangReady g x).2 := by
  unfold State.issueFrom
  simp only
  rw [hc]
  simp only
  rw [hs]
  simp [hg, hi, ha]
end

/-! ## A bundle run -/

theorem runInstr_of {i : Instr} {s t : State} (h : exec i s = .next t) : runInstr i s = t := by simp [runInstr, h]

section
variable {e a b : State} {x : Issue}
theorem runBundle_single {t : State} (h2 : x.i2 = none) (h1 : exec x.i1 { e with cur := x.cur1 e.cur.core e.cur.slot } = .next t) : e.runBundle x = t := by
  simp [State.runBundle, h2, runInstr_of h1]

variable {j : Instr} (h2 : x.i2 = some j) (h1 : exec x.i1 { e with cur := x.cur1 e.cur.core e.cur.slot } = .next a)
include h2 h1
theorem runBundle_first (ha : a.cur.fate ≠ .go) : e.runBundle x = a := by
  simp [State.runBundle, h2, runInstr_of h1, ha]

variable (ha : a.cur.fate = .go) (hj : exec j { e.seeing a with cur := x.cur2 e.cur.core e.cur.slot } = .next b)
include ha hj
theorem runBundle_second (hb : b.cur.fate ≠ .go) : e.runBundle x = b := by
  simp [State.runBundle, h2, runInstr_of h1, ha, runInstr_of hj, hb]
/-- Both can take effect: the second runs where the first has ended, on the operands from before it. -/
theorem runBundle_pair {z : State} (hb : b.cur.fate = .go) (hv : ∀ d, j ≠ .vflgclr d)
    (hz : exec j { a with cur := { x.cur2 e.cur.core e.cur.slot with
      npc := a.cur.npc, taken := a.cur.taken, pre := some e.th, preCtab := some (e.myCore.ctab, e.myCore.ctabhi), flags1 := 0 } } = .next z)
    (hg : z.cur.fate = .go) : e.runBundle x = z.joinPend a.th.pend := by
  -- `hv` decides the match on the second instruction that `runBundle` makes for the flags of the first
  dsimp only at hz
  simp only [State.runBundle, h2, runInstr_of h1, ha, runInstr_of hj, hb]
  rw [if_neg (by decide), if_neg (by decide), runInstr_of hz, hg, if_neg (by decide)]
end

/-! ## A bundle issued -/

section
variable {v t : State} {x : Issue} (hb : (v.enterBundle x).trapBad x = none) (hr : (v.enterBundle x).runBundle x = t)
include hb hr
theorem issue_trapped (hf : t.cur.fate = .trapped) : v.issue x = t := by
  simp [State.issue, hb, hr, hf]
theorem issue_passed (hf : t.cur.fate = .passed) : v.issue x = t.setTh { v.th with line := t.th.line, ridgeWait := t.th.ridgeWait } := by
  simp [State.issue, hb, hr, hf]
theorem issue_held (hf : t.cur.fate ≠ .go) :
    v.issue x = if t.cur.fate = .trapped then t else t.setTh { v.th with line := t.th.line, ridgeWait := t.th.ridgeWait } := by
  cases h : t.cur.fate with
  | go => exact absurd h hf
  | passed => exact issue_passed hb hr h
  | trapped => exact issue_trapped hb hr h

variable (hf : t.cur.fate = .go)
include hf
theorem issue_alone (hg : v.th.gang = none) : v.issue x = t.updTh (commitThr x t.cur.npc t.cur.taken false false) := by
  simp [State.issue, hb, hr, hf, hg]
theorem issue_member {g : Gang} (hg : v.th.gang = some g) (ha : v.th.arrive ≠ .again) (hl : g.idx ≠ 0 ∨ x.follow = true) :
    v.issue x = t.updTh (commitThr x t.cur.npc t.cur.taken false true) := by
  have hn : ¬ (g.idx = 0 ∧ x.follow = false) := by
    rintro ⟨hi, hx⟩
    rcases hl with h | h
    · exact h hi
    · rw [hx] at h; cases h
  simp [State.issue, hb, hr, hf, hg, beq_eq_false_iff_ne.mpr ha, hn]
theorem issue_leader {g : Gang} (hg : v.th.gang = some g) (ha : v.th.arrive ≠ .again) (hi : g.idx = 0) (hx : x.follow = false) :
    v.issue x = (t.updTh (commitThr x t.cur.npc t.cur.taken true true)).giveFollowers g x := by
  simp [State.issue, hb, hr, hf, hg, beq_eq_false_iff_ne.mpr ha, hi, hx]
end

/-! ## A follower's turn -/

theorem followTurn_empty {y : State} {g : Gang} (h : dueBundle y.cycle g = none) : y.followTurn g = y := by simp [State.followTurn, h]
/-- A follower whose turn passes keeps the bundle for a later turn. -/
theorem followTurn_passed {y : State} {g : Gang} {f : FollowBundle} (h : dueBundle y.cycle g = some f)
    (hp : ((y.updTh fun t => { t with gang := t.gang.map fun g => { g with queue := g.queue.filter (· != f) } }).issue f.issue).cur.fate = .passed) :
    y.followTurn g = ((y.updTh fun t => { t with gang := t.gang.map fun g => { g with queue := g.queue.filter (· != f) } }).issue f.issue).updTh
      fun t => { t with gang := some g } := by
  simp [State.followTurn, h, hp]

/-- Settles O4: each clause is one of the rules above about the agenda, the turn, the fetched line, the bundle run and the bundle issued. -/
theorem stepRunsTheDecodedInstruction : Obligations.StepRunsTheDecodedInstruction := by
  refine ⟨fun s i r ha hi => step_event ha hi, fun b i hn hi => check_single hn hi, fun b i j hn h1 h2 hi hj => check_pair hn h1 h2 hi hj,
    ?_, ?_, ?_, ?_, ?_, ?_, ?_, fun s ha h => step_nextCycle ha h⟩
  · intro s c k slot a after hag hf hh
    have hstep : step s = .next (after (s.slotTurn c slot)) := step_core hag hf
    rw [hstep]
    refine ⟨fun h => ?_, fun hs hw => ?_, fun hs hw hc => ?_⟩
    · rw [slotTurn_idle hh rfl h]
    · rw [slotTurn_wake hh rfl hs hw]
    · rw [slotTurn_awake hh rfl hs hw hc]
      refine ⟨fun hk => by rw [if_neg hk], fun hk => ?_⟩
      rw [if_pos hk]
      refine ⟨fun p hp => ?_, fun hp => ?_, fun x hx => ?_, fun y hy => ?_⟩
      · simp only [State.pollThread, hp]
      · simp only [State.pollThread, hp]
      · rcases hx with hx | hx <;> rw [hx] <;> rfl
      · rw [hy]
        refine ⟨fun hg => ?_, fun g hg hi hl hp => ?_, fun g hg hi hl hp => ?_, fun g hg hi hl => ?_⟩
        · rw [← readyTurn_alone hg]; rfl
        · rw [show Poll.rest (.go y) = y from readyTurn_captured hg hi hl hp]
        · rw [← readyTurn_leader hg hi hl hp]; rfl
        · rw [← readyTurn_follower hg hi hl]; rfl
  · refine fun t => ⟨rfl, rfl, rfl, passTurn_idle, fun p hp => ?_⟩
    by_cases h : ∃ n far r st, p.stage = .steps n far r st
    · obtain ⟨n, far, r, st, h⟩ := h
      refine ⟨_, passTurn_steps hp h, fun n' far' r' st' h' => ?_, fun k => absurd h (k n far r st)⟩
      rw [h] at h'
      cases h'
      rfl
    · have hn (n far r st) : p.stage ≠ .steps n far r st := fun k => h ⟨n, far, r, st, k⟩
      exact ⟨p, passTurn_other hp hn, fun n far r st k => absurd k (hn n far r st), fun _ => rfl⟩
  · intro y u v img i j w x hr hf hc hs
    rw [fetchTurn_line hr hf]
    exact ⟨issueFrom_alone hc hs, fun g hg hi ha => issueFrom_leader hc hs hg hi ha⟩
  · intro v t x e h2 hb h1
    have hr : e.runBundle x = t := runBundle_single h2 h1
    exact ⟨issue_trapped hb hr, issue_passed hb hr, fun hf => ⟨issue_alone hb hr hf, fun g hg ha hl => issue_member hb hr hf hg ha hl,
      fun g hg ha hi hx => issue_leader hb hr hf hg ha hi hx⟩⟩
  · intro v a b z x j e here c2 held cl saw h2 hb h1 hj
    refine ⟨fun ha => ?_, fun ha hbf => ?_, fun ha hbf hv hz hzf hg => ?_⟩
    · exact issue_held hb (runBundle_first h2 h1 ha) ha
    · exact issue_held hb (runBundle_second h2 h1 ha hj hbf) hbf
    · intro y hy
      exact issue_alone hb (runBundle_pair h2 h1 ha hj hbf hv hz hzf) hy hg
  · intro y g f hd x hx
    exact followTurn_passed hd hx
  · exact fun y g hd => followTurn_empty hd
end Sys2Proof.Machine
end

section
/-! SUPPORT. A member's share of an extent along an axis of its gang's mesh (06 R116, 07 R138). -/

namespace Sys2Proof.Machine

/-! ## `part` -/

/-- The granules that `part` accepts: the powers of two up to 65,536. -/
theorem isPow2_iff (n : Nat) : isPow2 n = true ↔ ∃ k, k ≤ 16 ∧ n = 2 ^ k := by
  simp only [isPow2, List.any_eq_true, List.mem_range, Nat.lt_succ_iff, beq_iff_eq]
/-- Rows and columns of the mesh for each size of a gang (06 R116). -/
theorem meshOf_eq (size : Nat) :
    meshOf size =
      (if size = 4 then 2 else if size = 8 then 2 else 1,
       if size = 2 then 2 else if size = 4 then 2 else if size = 8 then 4 else 1) := by
  unfold meshOf
  split
  · rfl
  · rfl
  · rfl
  · next h2 h4 h8 => rw [if_neg h4, if_neg h8, if_neg h2, if_neg h4, if_neg h8]
theorem ceilDiv_of_pos (a : Nat) {b : Nat} (h : 0 < b) : ceilDiv a b = (a + b - 1) / b := if_neg (Nat.ne_of_gt h)

/-- A granule that is a power of two up to 65,536 gives the bounds of the member's row or column. -/
theorem exec_part (x : PartA) (s : State) (hg : s.guardOn x.h = true) (hp : isPow2 (s.si x.b).toNat = true) :
    exec (.part x) s =
      let b := partBounds x.row ((s.opTh.gang.map (·.size)).getD 1) ((s.opTh.gang.map (·.idx)).getD 0) ((s.si x.a).toNat % 2 ^ 32) (s.si x.b).toNat
      .next (s.ws x.d (w64 (b.2 * 2 ^ 32 + b.1))) := by
  show execPart x s = _
  rw [execPart, guarded_on _ _ _ hg]
  simp only [hp, Bool.not_true, Bool.false_eq_true, if_false, finish_done]
theorem exec_part_badGranule (x : PartA) (s : State) (hg : s.guardOn x.h = true) (hp : isPow2 (s.si x.b).toNat = false) :
    exec (.part x) s = .next (s.takeTrap 0x02 0 2) := by
  show execPart x s = _
  rw [execPart, guarded_on _ _ _ hg]
  simp only [hp, Bool.not_false, if_true, finish_badPos]; rfl

/-! ## The shares of an extent -/

/-- Where the share of member `i` of `p` begins, in granules of `g`. -/
def shareStart (e g p i : Nat) : Nat := min e (g * ((e + g - 1) / g * i / p))

theorem partBounds_eq (row : Bool) (size idx e : Nat) {g : Nat} (h : 0 < g) :
    partBounds row size idx e g =
      let p := if row then (meshOf size).1 else (meshOf size).2
      let i := if row then idx / (meshOf size).2 else idx % (meshOf size).2
      (shareStart e g p i, shareStart e g p (i + 1)) := by
  simp only [partBounds, shareStart, ceilDiv_of_pos e h]
theorem shareStart_zero (e g p : Nat) : shareStart e g p 0 = 0 := by simp [shareStart]
/-- The granules of an extent cover it. -/
theorem le_granules (e : Nat) {g : Nat} (h : 0 < g) : e ≤ g * ((e + g - 1) / g) := by
  have hd := Nat.div_add_mod (e + g - 1) g
  have hm := Nat.mod_lt (e + g - 1) h
  omega
/-- The share of the last member ends where the extent does. -/
theorem shareStart_last (e : Nat) {g p : Nat} (hg : 0 < g) (hp : 0 < p) : shareStart e g p p = e := by
  rw [shareStart, Nat.mul_div_cancel _ hp, Nat.min_eq_left (le_granules e hg)]
theorem shareStart_mono (e g p i : Nat) : shareStart e g p i ≤ shareStart e g p (i + 1) := by
  unfold shareStart
  gcongr
  exact Nat.le_succ i

/-- Settles O19: the bounds that `part` writes are the starts of two neighbouring shares, and the shares cover the extent in order. -/
theorem subTileBounds : Obligations.SubTileBounds := by
  unfold Obligations.SubTileBounds
  refine ⟨fun x s hg => ⟨fun hk => ?_, fun hk => ?_⟩, fun e k p hp => ⟨shareStart_zero e _ p, ?_, shareStart_mono e _ p⟩⟩
  · have hpos : 0 < (s.si x.b).toNat := by
      obtain ⟨k, _, hk⟩ := hk
      rw [hk]; exact Nat.two_pow_pos k
    rw [exec_part x s hg ((isPow2_iff _).2 hk), partBounds_eq _ _ _ _ hpos, meshOf_eq]
    cases s.opTh.gang <;> rfl
  · have hp : ¬ isPow2 (s.si x.b).toNat = true := fun h => by
      obtain ⟨k, hle, he⟩ := (isPow2_iff _).1 h
      exact hk k hle he
    exact exec_part_badGranule x s hg (Bool.not_eq_true _ ▸ hp)
  · exact shareStart_last e (Nat.two_pow_pos k) (by omega)

end Sys2Proof.Machine
end

section
/-! SUPPORT. Every instruction and every event answers a next state (06 R107, 22 R361). -/

namespace Sys2Proof.Machine
open Sys2Proof Sys2Proof.Claims

/-- The machine goes on: the outcome is a next state, and no fault or refusal. -/
def Answers (o : Out') : Prop := ∃ t : State, o = .next t

theorem answers_next (t : State) : Answers (.next t) := ⟨t, rfl⟩
theorem answers_finish (r : Res Unit) : Answers (finish r) := finish_next r
/-- A signed request is carried out, refused with an answer, or dropped. -/
theorem answers_signedRequest (s : State) (d : Datagram) (op : Byte) (f : State → State × Nat) : Answers (s.signedRequest d op f) := by
  unfold State.signedRequest
  split
  · exact answers_next _
  · split
    · exact answers_next _
    · exact answers_next _

/-- The instructions under a guard of one bit take effect or change nothing. -/
theorem exec_answers_of_guardOf (s : State) {i : Instr} {h : Hdr} (hi : guardOf i = some h) : Answers (exec i s) := by
  obtain ⟨f, e⟩ := exec_of_guardOf s hi
  rw [e]; exact guarded_next h s f

/-- The other instructions end as their operation comes out: done, the turn passed, or a trap; those of the last arm in one way only. -/
theorem exec_answers_of_unguarded (s : State) {i : Instr} (he : isEvent i = false) (hg : guardOf i = none) : Answers (exec i s) := by
  cases i with
  | gang x | ftileset x | ftile x | cbset x | cbwaitc x | cbwaitp x | cbadvc x | cbadvp x | vld x | vst x
  | tfill x | trel x | tdef x | cpy x | cjob x | cpoll x | cwait x | rset x | unpin x | rrd x | frarm x
  | vadd x | vsub x | vmul x | vfma x | vfnma x | vmin x | vmax x | vabs x | vneg x | vaddInt x | vsubInt x | vmulInt x | vmulh x | vand x | vor x
  | vxor x | vandn x | vshl x | vshr x | vrotl x | vminInt x | vmaxInt x | vcmpeq x | vcmpne x | vcmplt x | vcmple x | vcmpgt x | vcmpge x | vcmpun x
  | vcvt x | vsel x | vbcast x | vslide x | vgetl x | vsetl x | vrsum x | vrmax x | vrmin x | vrcp x | vrsqrt x | vsqrt x | vdiv x
  | vexp2 x | vlog2 x | vsinpi x | vcospi x | vtanh x | ctload x | vctenc x | vgsum x | vgmax x | vgmin x | vgperm x | vgbcast x
  | oclaim x | orelease x | zclaim x | zrelease x | oload x | mma x | zclear x | zstore x | zload x | mcheck x | mpoll x | mwait x | mstat x | rbind x
  | rvseg x | rpseg x | rvld x | rvsum x | rvmax x | rvmin x | rvnorm x | rmma x | barsync x | bararv x | barwait x | phadv x | phwait x
  | msgtest x | msgwait x | msgcancel x | vrand x | rseek x | smpl x | tokexec x | exit x | tctx x | xrd x | xwr x | tresume x | tkill x | tret x
  | spillgo x | spstat x | xlinv x | ldpi x | stpi x | vldpi x | vdot x =>
    exact answers_finish _
  | disband x | tstat x | vmov x | vperm x | vctdec x | rgn x | vflgrd x | vflgclr x | rtell x | undefinedOpcode op fn
  | instructionFetchFault cause line info => exact answers_next _
  | _ => cases he <;> cases hg

/-- An event changes the state at once, or looks first at what it acts on and leaves the state where its condition does not hold. -/
theorem exec_answers_of_isEvent (s : State) {i : Instr} (h : isEvent i = true) : Answers (exec i s) := by
  cases i with
  | queueEnable p q v | queueDisable p q v | queueDrain p q v | queueAbort p q v | qwrWrite p q v | partitionCreate p v | expertChange p b
  | sltstatClear v | l1CopyDrop c line | arbiterWindowBoundary c | rpctlWrite p v | flowRuleWrite p r word v | msgCountersClear p | hostXlinv p v
  | trstGo v | operatorKeyLoad x y | flitReceive port flit | ackIdleSend port | replayTimeout port | laneFailure port lane | supervisorTakeRecord c
  | identity dg | attest dg | crashRead dg | errlogRead dg | clusterGate c | thermalTrip die | thermalTripRelease die
  | sidebandUnknownOpcode dg => exact answers_next _
  | tenantReset dg | fwStage dg | fwCommit dg | linkRetrain dg =>
    simp only [exec, execTenantReset, execFwStage, execFwCommit, execLinkRetrain]
    exact answers_signedRequest s dg _ _
  | acceptPacket host | dispatchTask c b0 | slotTableWrite c e v | taskRetire t | closeLaunch p lid | ridgePublish p lid | layPhase p lid
  | preemptTask t | spillStart t | spillStop t | spillEnd t | resumeFill t c b0 | registerWrite r v | tenantResetPerform v
  | fetchFill c line | loadDataArrival t | storeBufferDrain c id | blockBufferDrain c id merged | coherencePointOperation t | postedWritePerform
  | waitvTimeout t | barrierComplete t bar | xlinvComplete p | softErrorDetected e | copyJobStart c | copyJobRow c id | copyJobComplete c id
  | multicastClaim c id | matrixJobStart c | matrixJobComplete c id | samplerRequestServe c
  | fabricSendDepart | frameReceive port bytes | fragmentTransmit port vc | retrainComplete port peer ok | fragmentReceive port | messageComplete k
  | messageDeadlineExpiry k | sendFragmentsDeparted t seq | sendAckTimeout t seq | powerOn | imageReplyReceive src status total off bytes
  | imageRequestResend off | imagePartyAbandon | imageGet dg port0 | clusterWake c pass =>
    simp only [exec, execAcceptPacket, execDispatchTask, execSlotTableWrite, execTaskRetire, execCloseLaunch, execRidgePublish, execLayPhase,
      execPreemptTask, execSpillStart, execSpillStop, execSpillEnd, execResumeFill, execRegisterWrite, execTenantResetPerform,
      execFetchFill, execLoadDataArrival, execStoreBufferDrain, execBlockBufferDrain, execCoherencePointOperation, execPostedWritePerform,
      execWaitvTimeout, execBarrierComplete, execXlinvComplete, execSoftErrorDetected, execCopyJobStart, execCopyJobRow, execCopyJobComplete,
      execMulticastClaim, execMatrixJobStart, execMatrixJobComplete, execSamplerRequestServe,
      execFabricSendDepart, execFrameReceive, execFragmentTransmit, execRetrainComplete, execFragmentReceive, execMessageComplete,
      execMessageDeadlineExpiry, execSendFragmentsDeparted, execSendAckTimeout, execPowerOn, execImageReplyReceive, execImageRequestResend,
      execImagePartyAbandon, execImageGet, execClusterWake]
    -- a tree of tests with a next state at each leaf
    repeat' split
    all_goals exact answers_next _
  | _ => cases h

theorem exec_answers (i : Instr) (s : State) : Answers (exec i s) := by
  cases he : isEvent i with
  | true => exact exec_answers_of_isEvent s he
  | false =>
    cases hg : guardOf i with
    | some h => exact exec_answers_of_guardOf s hg
    | none => exact exec_answers_of_unguarded s he hg

/-- Settles O5: every meaning answers a next state, and the one fault of a step is an entry of the agenda that is no event. -/
theorem noInstructionStopsTheMachine : Obligations.NoInstructionStopsTheMachine := by
  unfold Obligations.NoInstructionStopsTheMachine
  refine ⟨exec_answers, fun s hs => ?_, fun s i r ha hi => ?_⟩
  · cases ha : s.agenda with
    | nil => exact ⟨s.turn, by rw [step, ha]⟩
    | cons i r =>
      have hi : isEvent i = true := by
        rw [State.agendaOk, ha, List.all_cons, Bool.and_eq_true] at hs
        exact hs.1
      rw [step_event ha hi]
      exact exec_answers i _
  · rw [step, ha]; simp only [hi, Bool.false_eq_true, if_false]

end Sys2Proof.Machine
end

section
/-! SUPPORT. Integers of a type: the model's values and results against `value`, `narrow` and `clamp` (07 R122, R123). -/

namespace Sys2Proof.Machine
open Sys2Proof Sys2Proof.Claims

/-! ## Types -/

theorem tyW_eq_width (t : IntTy) : tyW t = width t := by cases t <;> rfl
theorem tySigned_eq_signed (t : IntTy) : tySigned t = signed t := by cases t <;> rfl
theorem tyLo_eq_least (t : IntTy) : tyLo t = least t := by cases t <;> rfl
theorem tyHi_eq_most (t : IntTy) : tyHi t = most t := by cases t <;> rfl
theorem width_pos (t : IntTy) : 0 < width t := by cases t <;> decide
theorem width_le (t : IntTy) : width t ≤ 64 := by cases t <;> decide
theorem least_nonpos (t : IntTy) : least t ≤ 0 := by cases t <;> decide
theorem most_nonneg (t : IntTy) : 0 ≤ most t := by cases t <;> decide
theorem two_pow_width (t : IntTy) : (2 : Int) ^ width t = 2 * 2 ^ (width t - 1) := by
  rw [← pow_succ', Nat.sub_add_cancel (width_pos t)]

/-! ## Values -/

/-- The two's complement value of the low `w` bits. -/
theorem toS_eq_bmod {w : Nat} (n : Nat) (hw : 0 < w) : toS w n = (n : Int).bmod (2 ^ w) := by
  have h2 : 2 ^ w = 2 * 2 ^ (w - 1) := by rw [← pow_succ', Nat.sub_add_cancel hw]
  rw [toS, Int.bmod_def, ← Int.natCast_mod]
  generalize n % 2 ^ w = m
  split <;> split <;> omega
theorem toNat_narrow {t : IntTy} (h : signed t = false) (x : W64) : (narrow t x).toNat = x.toNat % 2 ^ width t := by
  have := x.isLt
  cases t <;> simp [signed] at h <;> simp [narrow, width] <;> omega
theorem toInt_narrow {t : IntTy} (h : signed t = true) (x : W64) : (narrow t x).toInt = (x.toNat : Int).bmod (2 ^ width t) := by
  have he {w : Nat} (hw : w ≤ 64) : ((x.setWidth w).signExtend 64).toInt = (x.toNat : Int).bmod (2 ^ w) := by
    rw [BitVec.toInt_signExtend, BitVec.toInt_setWidth, Nat.min_eq_right hw, Int.bmod_bmod]
  cases t with
  | i64 => exact BitVec.toInt_eq_toNat_bmod x
  | i32 | i16 | i8 => exact he (by decide)
  | n64 | n32 | n16 | n8 => cases h
theorem value_of_unsigned {t : IntTy} (h : signed t = false) (x : W64) : value t x = ((x.toNat % 2 ^ width t : Nat) : Int) := by
  rw [value, if_neg (by simp [h]), toNat_narrow h]
theorem value_of_signed {t : IntTy} (h : signed t = true) (x : W64) : value t x = (x.toNat : Int).bmod (2 ^ width t) := by
  rw [value, if_pos h, toInt_narrow h]
theorem tyVal_eq_value (t : IntTy) (x : W64) : tyVal t x.toNat = value t x := by
  rw [tyVal, tySigned_eq_signed, tyW_eq_width]
  cases h : signed t with
  | false => rw [value_of_unsigned h]; rfl
  | true => rw [value_of_signed h, ← toS_eq_bmod _ (width_pos t)]; rfl
/-- The narrowed pattern is that of the value. -/
theorem ofInt_value (t : IntTy) (x : W64) : BitVec.ofInt 64 (value t x) = narrow t x := by
  rw [value]
  split
  · exact BitVec.ofInt_toInt
  · rw [BitVec.ofInt_natCast, BitVec.ofNat_toNat, BitVec.setWidth_eq]
/-- A value is its pattern modulo 2^w. -/
theorem value_modEq (t : IntTy) (x : W64) : value t x ≡ x.toNat [ZMOD 2 ^ width t] := by
  cases h : signed t with
  | false => rw [value_of_unsigned h]; push_cast; exact Int.mod_modEq _ _
  | true => rw [value_of_signed h]; exact_mod_cast Int.bmod_emod (x := (x.toNat : Int)) (m := 2 ^ width t)
theorem least_le_value (t : IntTy) (x : W64) : least t ≤ value t x := by
  have h2 := two_pow_width t
  cases h : signed t with
  | false => rw [value_of_unsigned h, least, if_neg (by simp [h])]; omega
  | true =>
    rw [value_of_signed h, least, if_pos h]
    have := Int.le_bmod (x := (x.toNat : Int)) (m := 2 ^ width t) (by positivity)
    push_cast at this
    omega
theorem value_le_most (t : IntTy) (x : W64) : value t x ≤ most t := by
  have h2 := two_pow_width t
  cases h : signed t with
  | false =>
    rw [value_of_unsigned h, most, if_neg (by simp [h])]
    have := Nat.mod_lt x.toNat (Nat.two_pow_pos (width t))
    push_cast
    zify at this
    omega
  | true =>
    rw [value_of_signed h, most, if_pos h]
    have := Int.bmod_lt (x := (x.toNat : Int)) (m := 2 ^ width t) (by positivity)
    push_cast at this
    omega
/-- The 64-bit pattern of a number is the number modulo 2^w. -/
theorem ofInt_modEq (t : IntTy) (z : Int) : z ≡ ((BitVec.ofInt 64 z).toNat : Int) [ZMOD 2 ^ width t] := by
  rw [BitVec.toNat_ofInt, Int.toNat_of_nonneg (Int.emod_nonneg _ (by positivity))]
  exact ((Int.mod_modEq z _).of_dvd (by exact_mod_cast Nat.pow_dvd_pow 2 (width_le t))).symm
/-- A number within the range of a type is the value of its pattern. -/
theorem value_ofInt {t : IntTy} {z : Int} (hl : least t ≤ z) (hm : z ≤ most t) : value t (BitVec.ofInt 64 z) = z := by
  have h2 := two_pow_width t
  have he := (value_modEq t (BitVec.ofInt 64 z)).trans (ofInt_modEq t z).symm
  have h1 := least_le_value t (BitVec.ofInt 64 z)
  have h3 := value_le_most t (BitVec.ofInt 64 z)
  have hr : most t - least t < 2 ^ width t := by
    rw [most, least]
    split <;> omega
  obtain ⟨k, hk⟩ := he.symm.dvd
  have hk0 : k = 0 := by
    by_contra hne
    rcases lt_or_gt_of_ne hne with h | h <;> nlinarith
  rw [hk0] at hk
  omega

/-! ## Results -/

theorem w64_ofZ (z : Int) : w64 (ofZ 64 z) = BitVec.ofInt 64 z := by
  refine BitVec.eq_of_toNat_eq ?_
  rw [w64, ofZ, BitVec.toNat_ofNat, BitVec.toNat_ofInt]
  exact Nat.mod_eq_of_lt (by omega)
/-- What the model writes for the exact result `z` is the narrowed pattern of anything equal to it modulo 2^w. -/
theorem tyPut_eq_narrow {t : IntTy} {z : Int} {x : W64} (h : z ≡ x.toNat [ZMOD 2 ^ width t]) : tyPut t z = narrow t x := by
  have hz : ofZ (width t) z = x.toNat % 2 ^ width t := by
    rw [ofZ]
    push_cast
    rw [h]
    norm_cast
  rw [tyPut, tySigned_eq_signed, tyW_eq_width, hz]
  cases hs : signed t with
  | false =>
    refine BitVec.eq_of_toNat_eq ?_
    rw [toNat_narrow hs]
    have : x.toNat % 2 ^ width t < 2 ^ 64 := lt_of_le_of_lt (Nat.mod_le _ _) x.isLt
    simp only [Bool.false_eq_true, if_false, w64, BitVec.toNat_ofNat]
    exact Nat.mod_eq_of_lt this
  | true =>
    refine BitVec.eq_of_toInt_eq ?_
    have hv := value_of_signed hs x
    rw [toInt_narrow hs, if_pos rfl, toS_eq_bmod _ (width_pos t)]
    push_cast
    rw [show ((x.toNat : Int) % 2 ^ width t).bmod (2 ^ width t) = (x.toNat : Int).bmod (2 ^ width t) by
      exact_mod_cast Int.emod_bmod (x := (x.toNat : Int)) (n := 2 ^ width t), ← hv]
    rw [w64_ofZ, ofInt_value, toInt_narrow hs, hv]
theorem tyPut_eq_narrow_ofInt (t : IntTy) (z : Int) : tyPut t z = narrow t (BitVec.ofInt 64 z) := tyPut_eq_narrow (ofInt_modEq t z)
/-- A result within the range of its type is written as it is. -/
theorem tyPut_eq_ofInt {t : IntTy} {z : Int} (hl : least t ≤ z) (hm : z ≤ most t) : tyPut t z = BitVec.ofInt 64 z := by
  rw [tyPut_eq_narrow_ofInt, ← ofInt_value, value_ofInt hl hm]

/-! ## Operations (07 R125) -/

theorem two_pow_width_dvd (t : IntTy) : (2 : Int) ^ width t ∣ 2 ^ 64 := pow_dvd_pow 2 (width_le t)
/-- A number of 64 bits is what its pattern stands for, modulo 2^w. -/
theorem natMod_modEq (t : IntTy) (n : Nat) : ((n % 2 ^ 64 : Nat) : Int) ≡ n [ZMOD 2 ^ width t] := by
  push_cast
  exact (Int.mod_modEq (n : Int) _).of_dvd (two_pow_width_dvd t)

section
variable (t : IntTy) (a b : W64)

theorem tyPut_add : tyPut t (iop .add t a.toNat b.toNat 0) = narrow t (a + b) := by
  refine tyPut_eq_narrow ?_
  rw [iop, tyVal_eq_value, tyVal_eq_value, BitVec.toNat_add]
  refine ((value_modEq t a).add (value_modEq t b)).trans ?_
  exact_mod_cast (natMod_modEq t _).symm
theorem tyPut_sub : tyPut t (iop .sub t a.toNat b.toNat 0) = narrow t (a - b) := by
  refine tyPut_eq_narrow ?_
  rw [iop, tyVal_eq_value, tyVal_eq_value, BitVec.toNat_sub]
  refine ((value_modEq t a).sub (value_modEq t b)).trans (.trans ?_ (natMod_modEq t _).symm)
  have := b.isLt
  refine Int.modEq_iff_dvd.mpr ((two_pow_width_dvd t).trans ⟨1, ?_⟩)
  omega
theorem tyPut_mul : tyPut t (iop .mul t a.toNat b.toNat 0) = narrow t (a * b) := by
  refine tyPut_eq_narrow ?_
  rw [iop, tyVal_eq_value, tyVal_eq_value, BitVec.toNat_mul]
  refine ((value_modEq t a).mul (value_modEq t b)).trans ?_
  exact_mod_cast (natMod_modEq t _).symm
/-- A pattern of w bits goes unchanged into the result. -/
theorem tyPut_natCast {n : Nat} {x : W64} (h : n % 2 ^ width t = x.toNat % 2 ^ width t) : tyPut t (n : Int) = narrow t x :=
  tyPut_eq_narrow (by exact_mod_cast (Int.natCast_modEq_iff.mpr h : (n : Int) ≡ x.toNat [ZMOD ((2 ^ width t : Nat) : Int)]))
theorem tyPut_and : tyPut t (iop .and t a.toNat b.toNat 0) = narrow t (a &&& b) := by
  refine tyPut_natCast t ?_
  rw [tyW_eq_width, BitVec.toNat_and, Nat.and_mod_two_pow, Nat.and_mod_two_pow, Nat.mod_mod, Nat.mod_mod]
theorem tyPut_or : tyPut t (iop .or t a.toNat b.toNat 0) = narrow t (a ||| b) := by
  refine tyPut_natCast t ?_
  rw [tyW_eq_width, BitVec.toNat_or, Nat.or_mod_two_pow, Nat.or_mod_two_pow, Nat.mod_mod, Nat.mod_mod]
theorem tyPut_xor : tyPut t (iop .xor t a.toNat b.toNat 0) = narrow t (a ^^^ b) := by
  refine tyPut_natCast t ?_
  rw [tyW_eq_width, BitVec.toNat_xor, Nat.xor_mod_two_pow, Nat.xor_mod_two_pow, Nat.mod_mod, Nat.mod_mod]
/-- The low bits of a complement are the complement of the low bits. -/
theorem toNat_not_mod (w : Nat) (hw : w ≤ 64) : (~~~b).toNat % 2 ^ w = 2 ^ w - 1 - b.toNat % 2 ^ w := by
  have := congrArg BitVec.toNat (BitVec.setWidth_not (x := b) hw)
  rwa [BitVec.toNat_setWidth, BitVec.toNat_not (x := b.setWidth w), BitVec.toNat_setWidth] at this
theorem tyPut_andn : tyPut t (iop .andn t a.toNat b.toNat 0) = narrow t (a &&& ~~~b) := by
  refine tyPut_natCast t ?_
  rw [tyW_eq_width, BitVec.toNat_and, Nat.and_mod_two_pow, Nat.and_mod_two_pow, toNat_not_mod b _ (width_le t), Nat.mod_mod,
    Nat.mod_eq_of_lt (a := 2 ^ width t - 1 - b.toNat % 2 ^ width t) (by have := Nat.two_pow_pos (width t); omega)]
theorem tyPut_min : tyPut t (iop .min t a.toNat b.toNat 0) = BitVec.ofInt 64 (min (value t a) (value t b)) := by
  rw [iop, tyVal_eq_value, tyVal_eq_value, ← min_def]
  exact tyPut_eq_ofInt (le_min (least_le_value t a) (least_le_value t b)) (min_le_of_left_le (value_le_most t a))
theorem tyPut_max : tyPut t (iop .max t a.toNat b.toNat 0) = BitVec.ofInt 64 (max (value t a) (value t b)) := by
  rw [iop, tyVal_eq_value, tyVal_eq_value, ← max_def]
  exact tyPut_eq_ofInt (le_max_of_le_left (least_le_value t a)) (max_le (value_le_most t a) (value_le_most t b))
/-- The upper half of a product lies within the range of the type. -/
theorem mulHigh_range : least t ≤ value t a * value t b / 2 ^ width t ∧ value t a * value t b / 2 ^ width t ≤ most t := by
  have h2 := two_pow_width t
  have hp : (0 : Int) < 2 ^ (width t - 1) := by positivity
  have ha := least_le_value t a
  have hb := least_le_value t b
  have ha' := value_le_most t a
  have hb' := value_le_most t b
  suffices h : least t * 2 ^ width t ≤ value t a * value t b ∧ value t a * value t b < (most t + 1) * 2 ^ width t from
    ⟨Int.le_ediv_of_mul_le (by positivity) h.1, Int.lt_add_one_iff.mp (Int.ediv_lt_of_lt_mul (by positivity) h.2)⟩
  unfold least most at *
  cases hs : signed t with
  | false =>
    simp only [hs, Bool.false_eq_true, if_false] at *
    constructor <;> nlinarith
  | true =>
    simp only [hs, if_true] at *
    rw [h2]
    generalize (2 : Int) ^ (width t - 1) = m at *
    constructor <;> nlinarith
theorem tyPut_mulh : tyPut t (iop .mulh t a.toNat b.toNat 0) = BitVec.ofInt 64 (value t a * value t b / 2 ^ width t) := by
  rw [iop, tyVal_eq_value, tyVal_eq_value, tyW_eq_width]
  push_cast
  exact tyPut_eq_ofInt (mulHigh_range t a b).1 (mulHigh_range t a b).2

/-! ### Shifts and rotations -/

variable (n : Nat)

/-- A shift by the width or more leaves nothing of the low bits. -/
theorem two_pow_min_modEq (w : Nat) : (2 : Int) ^ min n w ≡ 2 ^ n [ZMOD 2 ^ w] := by
  rcases Nat.le_total n w with h | h
  · rw [Nat.min_eq_left h]
  · rw [Nat.min_eq_right h]
    exact (Int.modEq_zero_iff_dvd.mpr dvd_rfl).trans (Int.modEq_zero_iff_dvd.mpr (pow_dvd_pow 2 h)).symm
theorem tyPut_shl : tyPut t (iop .shl t a.toNat 0 n) = narrow t (a <<< n) := by
  refine tyPut_eq_narrow ?_
  rw [iop, tyVal_eq_value, tyW_eq_width, BitVec.toNat_shiftLeft, Nat.shiftLeft_eq]
  push_cast
  refine ((value_modEq t a).mul (two_pow_min_modEq n (width t))).trans ?_
  exact_mod_cast (natMod_modEq t (a.toNat * 2 ^ n)).symm
/-- A value shifted right by the width or more is 0 or -1. -/
theorem value_div_min : value t a / 2 ^ min n (width t) = value t a / 2 ^ n := by
  rcases Nat.le_total n (width t) with h | h
  · rw [Nat.min_eq_left h]
  · have h2 := two_pow_width t
    have hp : (0 : Int) < 2 ^ (width t - 1) := by positivity
    have hle : (2 : Int) ^ width t ≤ 2 ^ n := pow_le_pow_right₀ (by decide) h
    have hl := least_le_value t a
    have hm := value_le_most t a
    have hb : -(2 ^ width t) ≤ value t a ∧ value t a < 2 ^ width t := by
      unfold least at hl
      unfold most at hm
      split at hl <;> simp only [*, if_true, if_false, Bool.false_eq_true] at hm <;> omega
    rw [Nat.min_eq_right h]
    rcases lt_or_ge (value t a) 0 with hn | hn
    · rw [Int.ediv_eq_neg_one_of_neg_of_le hn (by omega), Int.ediv_eq_neg_one_of_neg_of_le hn (by omega)]
    · rw [Int.ediv_eq_zero_of_lt hn (by omega), Int.ediv_eq_zero_of_lt hn (by omega)]
theorem value_div_range : least t ≤ value t a / 2 ^ n ∧ value t a / 2 ^ n ≤ most t := by
  have hp : (1 : Int) ≤ 2 ^ n := one_le_pow₀ (by decide)
  have hl := least_le_value t a
  have hm := value_le_most t a
  have hl0 := least_nonpos t
  have hm0 := most_nonneg t
  exact ⟨Int.le_ediv_of_mul_le (by omega) (by nlinarith), Int.lt_add_one_iff.mp (Int.ediv_lt_of_lt_mul (by omega) (by nlinarith))⟩
theorem shifted_eq_ofInt : shifted t a n = BitVec.ofInt 64 (value t a / 2 ^ n) := by
  rw [shifted, value]
  split
  · have h := BitVec.toInt_sshiftRight (x := narrow t a) (n := n)
    rw [Int.shiftRight_eq_div_pow] at h
    push_cast at h
    rw [← h, BitVec.ofInt_toInt]
  · refine BitVec.eq_of_toNat_eq ?_
    rw [BitVec.toNat_ushiftRight, Nat.shiftRight_eq_div_pow]
    norm_cast
    rw [BitVec.ofInt_natCast, BitVec.toNat_ofNat]
    exact (Nat.mod_eq_of_lt (lt_of_le_of_lt (Nat.div_le_self _ _) (narrow t a).isLt)).symm
theorem tyPut_shr : tyPut t (iop .shr t a.toNat 0 n) = shifted t a n := by
  rw [iop, tyVal_eq_value, tyW_eq_width, shifted_eq_ofInt]
  push_cast
  rw [value_div_min]
  exact tyPut_eq_ofInt (value_div_range t a n).1 (value_div_range t a n).2
theorem toNat_rotateLeft_eq_rotlN {w : Nat} (x : BitVec w) : (x.rotateLeft n).toNat = rotlN w x.toNat n := by
  rcases Nat.eq_zero_or_pos w with rfl | hw
  · simp [rotlN, BitVec.of_length_zero]
  have hk := Nat.mod_lt n hw
  have hs : 2 ^ w = 2 ^ (w - n % w) * 2 ^ (n % w) := by rw [← pow_add, Nat.sub_add_cancel hk.le]
  have hx : x.toNat >>> (w - n % w) < 2 ^ (n % w) := by
    rw [Nat.shiftRight_eq_div_pow, Nat.div_lt_iff_lt_mul (by positivity), mul_comm, ← hs]
    exact x.isLt
  rw [BitVec.toNat_rotateLeft, rotlN, Nat.mod_eq_of_lt x.isLt, Nat.shiftLeft_eq, hs, Nat.mul_mod_mul_right, ← Nat.shiftLeft_eq,
    ← Nat.shiftLeft_add_eq_or_of_lt hx, Nat.shiftRight_eq_div_pow]
theorem rotated_eq : rotated t a n = narrow t (BitVec.ofNat 64 (rotlN (width t) (a.toNat % 2 ^ width t) n)) := by
  have h {w : Nat} (hw : w ≤ 64) : ((a.setWidth w).rotateLeft n).setWidth 64 = BitVec.ofNat 64 (rotlN w (a.toNat % 2 ^ w) n) := by
    refine BitVec.eq_of_toNat_eq ?_
    rw [BitVec.toNat_setWidth, toNat_rotateLeft_eq_rotlN, BitVec.toNat_setWidth, BitVec.toNat_ofNat]
  cases t with
  | i64 | n64 =>
    have h64 := h (Nat.le_refl 64)
    rw [BitVec.setWidth_eq, BitVec.setWidth_eq] at h64
    exact congrArg (narrow _) h64
  | _ => exact congrArg (narrow _) (h (by decide))
theorem tyPut_rotl : tyPut t (iop .rotl t a.toNat 0 n) = rotated t a n := by
  rw [rotated_eq]
  refine tyPut_natCast t ?_
  rw [tyW_eq_width, BitVec.toNat_ofNat]
  exact (Nat.mod_mod_of_dvd _ (Nat.pow_dvd_pow 2 (width_le t))).symm
end

/-! ## Saturation -/

theorem satTo_wrap (t : IntTy) (z : Int) : satTo t false z = (z, false) := rfl
theorem least_le_most (t : IntTy) : least t ≤ most t := (least_nonpos t).trans (most_nonneg t)
theorem clamp_of_most_lt {t : IntTy} {z : Int} (h : most t < z) : clamp t z = most t := by
  rw [clamp, min_eq_left h.le, max_eq_right (least_le_most t)]
theorem clamp_of_lt_least {t : IntTy} {z : Int} (h : z < least t) : clamp t z = least t := by
  rw [clamp, min_eq_right (h.le.trans (least_le_most t)), max_eq_left h.le]
theorem clamp_of_range {t : IntTy} {z : Int} (hl : least t ≤ z) (hm : z ≤ most t) : clamp t z = z := by
  rw [clamp, min_eq_right hm, max_eq_right hl]
/-- A saturated result is the result clamped, and it is marked where the clamp changed it. -/
theorem satTo_sat (t : IntTy) (z : Int) : satTo t true z = (clamp t z, decide (clamp t z ≠ z)) := by
  simp only [satTo, tyLo_eq_least, tyHi_eq_most, Bool.true_and, decide_eq_true_eq]
  split
  · next h => rw [clamp_of_most_lt h, decide_eq_true h.ne]
  · next hm =>
    split
    · next h => rw [clamp_of_lt_least h, decide_eq_true h.ne']
    · next hl => simp [clamp_of_range (not_lt.mp hl) (not_lt.mp hm)]
theorem clamp_range (t : IntTy) (z : Int) : least t ≤ clamp t z ∧ clamp t z ≤ most t :=
  ⟨le_max_left _ _, max_le (least_le_most t) (min_le_left _ _)⟩
theorem finish_putInt_wrap (s : State) (d : SReg) (t : IntTy) (z : Int) : finish (s.putInt d t false z) = .next (s.ws d (tyPut t z)) := by
  rw [State.putInt, satTo_wrap]; rfl
/-- A saturating result is written clamped, or traps with TRAPINFO 2 under MODE.ARITH. -/
theorem finish_putInt_sat (s : State) (d : SReg) (t : IntTy) (z : Int) :
    finish (s.putInt d t true z) =
      if clamp t z ≠ z ∧ s.mode.arith = true then .next (s.takeTrap 0x40 0 2) else .next (s.ws d (BitVec.ofInt 64 (clamp t z))) := by
  rw [State.putInt, satTo_sat, tyPut_eq_ofInt (clamp_range t z).1 (clamp_range t z).2]
  simp only [Bool.and_eq_true, decide_eq_true_eq]
  split <;> rfl

/-! ## Instructions of the integer group -/

section
variable {s s' : State} {h : Hdr} (hg : s.guardOn h = true)
include hg

theorem guarded_intA {x : IntA} {b : W64} (hs : s.src (tySigned x.ty) x.b = .ok b s') (o : IOp) :
    (guarded h s fun s => s.intA x o) = finish (s'.putInt x.d x.ty x.sat (iop o x.ty (s'.rs x.a).toNat b.toNat 0)) := by
  rw [guarded_on _ _ _ hg, State.intA, hs, andThen_ok]
theorem guarded_intA_wrap {x : IntA} {b : W64} (hw : x.sat = false) (hs : s.src (tySigned x.ty) x.b = .ok b s') {o : IOp} {v : W64}
    (hv : tyPut x.ty (iop o x.ty (s'.rs x.a).toNat b.toNat 0) = v) : (guarded h s fun s => s.intA x o) = .next (s'.ws x.d v) := by
  rw [guarded_intA hg hs, hw, finish_putInt_wrap, hv]
theorem guarded_intSh_wrap {x : IntSh} (hw : x.sat = false) {o : IOp} {v : W64}
    (hv : tyPut x.ty (iop o x.ty (s.rs x.a).toNat 0 (s.siZ x.b).toNat) = v) : (guarded h s fun s => s.intSh x o) = .next (s.ws x.d v) := by
  rw [guarded_on _ _ _ hg, State.intSh, hw, finish_putInt_wrap, hv]
end

/-- Settles O7: each result is its exact result narrowed, which the bit-vector operation gives modulo 2^w. -/
theorem scalarArithmetic : Obligations.ScalarArithmetic := by
  unfold Obligations.ScalarArithmetic
  refine ⟨fun x s s' b hg hw hs => ?_, fun x s hg hw => ?_⟩
  · exact ⟨guarded_intA_wrap hg hw hs (tyPut_add ..), guarded_intA_wrap hg hw hs (tyPut_sub ..), guarded_intA_wrap hg hw hs (tyPut_mul ..),
      guarded_intA_wrap hg hw hs (tyPut_mulh ..), guarded_intA_wrap hg hw hs (tyPut_and ..), guarded_intA_wrap hg hw hs (tyPut_or ..),
      guarded_intA_wrap hg hw hs (tyPut_xor ..), guarded_intA_wrap hg hw hs (tyPut_andn ..), guarded_intA_wrap hg hw hs (tyPut_min ..),
      guarded_intA_wrap hg hw hs (tyPut_max ..)⟩
  · exact ⟨guarded_intSh_wrap hg hw (tyPut_shl ..), guarded_intSh_wrap hg hw (tyPut_shr ..), guarded_intSh_wrap hg hw (tyPut_rotl ..)⟩

/-- Settles O8: the exact result is clamped, and a clamp that changes it is the saturation that MODE.ARITH traps. -/
theorem scalarSaturation : Obligations.ScalarSaturation := by
  unfold Obligations.ScalarSaturation
  refine ⟨fun x s s' b hg hw hs => ?_, fun x s hg hw => ?_⟩
  · have h (o : IOp) (z : Int) (hz : iop o x.ty (s'.rs x.a).toNat b.toNat 0 = z) :
        (guarded x.h s fun s => s.intA x o) =
          if clamp x.ty z ≠ z ∧ s'.mode.arith = true then .next (s'.takeTrap 0x40 0 2)
          else .next (s'.ws x.d (BitVec.ofInt 64 (clamp x.ty z))) := by
      rw [guarded_intA hg hs, hw, finish_putInt_sat, hz]
    refine ⟨h .add _ ?_, h .sub _ ?_, h .mul _ ?_⟩ <;> rw [iop, tyVal_eq_value, tyVal_eq_value]
  · show (guarded x.h s fun s => s.intSh x .shl) = _
    rw [guarded_on _ _ _ hg, State.intSh, hw, finish_putInt_sat, iop, tyVal_eq_value, tyW_eq_width]
    push_cast
    rfl

/-! ## Division (07 R126) -/

section
variable {s s' : State} {x : IntA} {b : W64} (hg : s.guardOn x.h = true) (hs : s.src (tySigned x.ty) x.b = .ok b s') (rem : Bool)
include hg hs

theorem guarded_divide_zero (hz : value x.ty b = 0) :
    (guarded x.h s fun s => s.divide x rem) =
      if s'.mode.arith = true then .next (s'.takeTrap 0x40 0 1)
      else .next (s'.ws x.d (tyPut x.ty (if rem then value x.ty (s'.rs x.a) else (2 ^ width x.ty : Nat) - 1))) := by
  rw [guarded_on _ _ _ hg, State.divide, hs, andThen_ok]
  simp only [divRem, tyVal_eq_value, hz, if_true, tyW_eq_width]
  split
  · rfl
  · cases rem <;> rfl
theorem guarded_divide (hz : value x.ty b ≠ 0) :
    (guarded x.h s fun s => s.divide x rem) =
      finish (s'.putInt x.d x.ty (x.sat && !rem) (if rem then (value x.ty (s'.rs x.a)).tmod (value x.ty b) else (value x.ty (s'.rs x.a)).tdiv (value x.ty b))) := by
  rw [guarded_on _ _ _ hg, State.divide, hs, andThen_ok]
  simp only [divRem, tyVal_eq_value, hz, if_false]
end

/-- The quotient of a division by zero: every bit of the type set. -/
theorem tyPut_allOnes (t : IntTy) : tyPut t ((2 ^ width t : Nat) - 1) = narrow t (-1) := by
  refine tyPut_eq_narrow (Int.modEq_iff_dvd.mpr ?_)
  have h := dvd_sub (two_pow_width_dvd t) (dvd_refl (2 ^ width t))
  have he : ((-1 : W64).toNat : Int) - ((2 ^ width t : Nat) - 1) = 2 ^ 64 - 2 ^ width t := by push_cast; ring
  exact he ▸ h
/-- A remainder lies between 0 and the dividend. -/
theorem tmod_range (t : IntTy) (a b : W64) : least t ≤ (value t a).tmod (value t b) ∧ (value t a).tmod (value t b) ≤ most t := by
  have hl := least_le_value t a
  have hm := value_le_most t a
  have hl0 := least_nonpos t
  have hm0 := most_nonneg t
  generalize value t a = x at *
  generalize value t b = y
  have habs : (x.tmod y).natAbs ≤ x.natAbs := by rw [Int.natAbs_tmod]; exact Nat.mod_le _ _
  rcases le_total 0 x with h | h
  · have := Int.tmod_nonneg y h
    omega
  · have := Int.tmod_nonneg (a := -x) y (by omega)
    rw [Int.neg_tmod] at this
    omega
/-- A quotient is no larger than the dividend, and no quotient of naturals is negative. -/
theorem least_le_tdiv (t : IntTy) (a b : W64) : least t ≤ (value t a).tdiv (value t b) := by
  have habs := Int.natAbs_tdiv_le_natAbs (value t a) (value t b)
  have hl := least_le_value t a
  have hm := value_le_most t a
  have hlb := least_le_value t b
  cases hs : signed t with
  | false =>
    have h0 : least t = 0 := by simp [least, hs]
    exact h0 ▸ Int.tdiv_nonneg (h0 ▸ hl) (h0 ▸ hlb)
  | true =>
    have h : most t = -least t - 1 := by simp [least, most, hs]
    omega

/-- Settles O9: quotient and remainder are within the range of the type but for the one quotient that saturates. -/
theorem scalarDivision : Obligations.ScalarDivision := by
  unfold Obligations.ScalarDivision
  intro x s s' b hg hs va vb
  have hdiv (hz : vb ≠ 0) : exec (.div x) s = finish (s'.putInt x.d x.ty x.sat (va.tdiv vb)) := by
    refine (guarded_divide hg hs false hz).trans ?_
    rw [Bool.not_false, Bool.and_true, if_neg (by decide)]
  have hl := least_le_tdiv x.ty (s'.rs x.a) b
  refine ⟨fun hz ha => ⟨?_, ?_⟩, fun hz ha => ⟨?_, ?_⟩, fun hz => ⟨?_, fun hw => ?_, fun hw hle => ?_, fun hw hlt ha => ?_, fun hw hlt ha => ?_⟩⟩
  · refine (guarded_divide_zero hg hs false hz).trans ?_
    rw [ha, if_neg (by decide), if_neg (by decide), tyPut_allOnes]
  · refine (guarded_divide_zero hg hs true hz).trans ?_
    rw [ha, if_neg (by decide), if_pos rfl, tyPut_eq_narrow (value_modEq _ _)]
  · exact (guarded_divide_zero hg hs false hz).trans (if_pos ha)
  · exact (guarded_divide_zero hg hs true hz).trans (if_pos ha)
  · obtain ⟨hl, hm⟩ := tmod_range x.ty (s'.rs x.a) b
    refine (guarded_divide hg hs true hz).trans ?_
    rw [Bool.not_true, Bool.and_false, finish_putInt_wrap, if_pos rfl, tyPut_eq_ofInt hl hm]
  · rw [hdiv hz, hw, finish_putInt_wrap, tyPut_eq_narrow_ofInt]
  · rw [hdiv hz, hw, finish_putInt_sat, clamp_of_range hl hle, if_neg fun h => h.1 rfl]
  · rw [hdiv hz, hw, finish_putInt_sat, clamp_of_most_lt hlt, if_neg (by simp [ha])]
  · rw [hdiv hz, hw, finish_putInt_sat, clamp_of_most_lt hlt, if_pos ⟨hlt.ne, ha⟩]

end Sys2Proof.Machine
end

section
/-! SUPPORT. Bit fields, counts and reversals (07 R127). -/

namespace Sys2Proof.Machine
open Sys2Proof Sys2Proof.Claims

/-! ## Field controls -/

/-- A control holds POS and LENM1 alone, and its field ends within 64 bits. -/
theorem fieldOk_iff (c : W64) :
    fieldOk c = true ↔ c.toNat = fieldPos c + 256 * (fieldLen c - 1) ∧ fieldPos c + fieldLen c ≤ 64 := by
  have := c.isLt
  rw [fieldOk, Bool.and_eq_true, Bool.and_eq_true, beq_iff_eq, beq_iff_eq, decide_eq_true_eq]
  simp only [fieldPos, fieldLen, bits]
  omega
theorem fieldPos_eq (c : W64) : fieldPos c = c.toNat % 64 := by simp [fieldPos, bits]

/-! ## Fields -/

/-- The low `n` bits of a word as a mask. -/
theorem getLsbD_lowMask (n i : Nat) : (BitVec.ofNat 64 (2 ^ n - 1)).getLsbD i = (decide (i < 64) && decide (i < n)) := by
  rw [BitVec.getLsbD_ofNat, Nat.testBit_two_pow_sub_one]
theorem toNat_lowMask {n : Nat} (hn : n ≤ 64) : (BitVec.ofNat 64 (2 ^ n - 1)).toNat = 2 ^ n - 1 := by
  have := Nat.pow_le_pow_right (n := 2) (by decide) hn
  have := Nat.two_pow_pos n
  rw [BitVec.toNat_ofNat]
  exact Nat.mod_eq_of_lt (by omega)
theorem toNat_field (a : W64) (p : Nat) {n : Nat} (hn : n ≤ 64) :
    ((a >>> p) &&& BitVec.ofNat 64 (2 ^ n - 1)).toNat = bits a.toNat p n := by
  rw [BitVec.toNat_and, toNat_lowMask hn, BitVec.toNat_ushiftRight, Nat.and_two_pow_sub_one_eq_mod, Nat.shiftRight_eq_div_pow, bits]
/-- Shifted up and down again arithmetically, a field of `n` bits is sign-extended. -/
theorem sshiftRight_shiftLeft {f : W64} {n : Nat} (h0 : 0 < n) (hn : n ≤ 64) (hf : f.toNat < 2 ^ n) :
    (f <<< (64 - n)).sshiftRight (64 - n) = BitVec.ofInt 64 (toS n f.toNat) := by
  have hs : (2 : Nat) ^ 64 = 2 ^ n * 2 ^ (64 - n) := by rw [← pow_add, Nat.add_sub_cancel' hn]
  have hm : 2 ^ n = 2 * 2 ^ (n - 1) := by rw [← pow_succ', Nat.sub_add_cancel h0]
  have hk : 0 < 2 ^ (64 - n) := Nat.two_pow_pos _
  have hl : (f <<< (64 - n)).toNat = f.toNat * 2 ^ (64 - n) := by
    rw [BitVec.toNat_shiftLeft, Nat.shiftLeft_eq, hs]
    exact Nat.mod_eq_of_lt ((Nat.mul_lt_mul_right hk).mpr hf)
  rw [← BitVec.ofInt_toInt (x := BitVec.sshiftRight _ _), BitVec.toInt_sshiftRight, Int.shiftRight_eq_div_pow, BitVec.toInt_eq_toNat_cond, hl, toS,
    Nat.mod_eq_of_lt hf, hs]
  generalize 2 ^ (64 - n) = k at *
  generalize f.toNat = x at *
  have hc : 2 * (x * k) < 2 ^ n * k ↔ x < 2 ^ (n - 1) := by
    rw [← Nat.mul_assoc, Nat.mul_lt_mul_right hk, hm]; omega
  congr 1
  by_cases h : x < 2 ^ (n - 1)
  · rw [if_pos (hc.mpr h), if_pos h]
    push_cast
    exact Int.mul_ediv_cancel _ (by omega)
  · rw [if_neg (mt hc.mp h), if_neg h]
    push_cast
    rw [← sub_mul]
    exact Int.mul_ediv_cancel _ (by omega)
/-- The field that a control names, extended by the sign of the type. -/
theorem extractField_eq (sg : Bool) (a c : W64) {p n : Nat} (hp : fieldPos c = p) (hl : fieldLen c = n) (h0 : 0 < n) (hn : n ≤ 64) :
    let f := (a >>> p) &&& BitVec.ofNat 64 (2 ^ n - 1)
    extractField sg a c = if sg = true then (f <<< (64 - n)).sshiftRight (64 - n) else f := by
  intro f
  have hf : f.toNat = bits a.toNat p n := toNat_field a p hn
  have hlt : f.toNat < 2 ^ n := hf ▸ Nat.mod_lt _ (Nat.two_pow_pos n)
  rw [sshiftRight_shiftLeft h0 hn hlt]
  simp only [extractField, hp, hl, ← hf, w64_ofZ]
  simp only [w64, BitVec.ofNat_toNat, BitVec.setWidth_eq]
/-- A field put into a word: below and above it the word stands. -/
theorem insertField_eq (a b c : W64) {p n : Nat} (hp : fieldPos c = p) (hl : fieldLen c = n) :
    let m := BitVec.ofNat 64 (2 ^ n - 1) <<< p
    insertField a b c = (b &&& ~~~m) ||| ((a <<< p) &&& m) := by
  intro m
  refine BitVec.eq_of_getLsbD_eq fun i hi => ?_
  have hb : b.toNat % 2 ^ p + a.toNat % 2 ^ n * 2 ^ p + b.toNat / 2 ^ (p + n) * 2 ^ (p + n) =
      2 ^ p * (2 ^ n * (b.toNat / 2 ^ (p + n)) + a.toNat % 2 ^ n) + b.toNat % 2 ^ p := by rw [pow_add]; ring
  have hin : (insertField a b c).getLsbD i =
      if i < p then b.getLsbD i else if i - p < n then a.getLsbD (i - p) else b.getLsbD i := by
    rw [insertField, hp, hl, w64, BitVec.getLsbD_ofNat, hb, Nat.testBit_two_pow_mul_add _ (Nat.mod_lt _ (Nat.two_pow_pos p)),
      Nat.testBit_two_pow_mul_add _ (Nat.mod_lt _ (Nat.two_pow_pos n)), Nat.testBit_div_two_pow, Nat.testBit_mod_two_pow, Nat.testBit_mod_two_pow]
    simp only [BitVec.testBit_toNat, hi, decide_true, Bool.true_and]
    split
    · simp [*]
    · split
      · simp [*]
      · rw [show i - p - n + (p + n) = i by omega]
  have hm : m.getLsbD i = (!decide (i < p) && decide (i - p < n)) := by
    rw [BitVec.getLsbD_shiftLeft, getLsbD_lowMask]
    have : i - p < 64 := by omega
    simp [hi, this]
  rw [hin, BitVec.getLsbD_or, BitVec.getLsbD_and, BitVec.getLsbD_and, BitVec.getLsbD_not, hm, BitVec.getLsbD_shiftLeft]
  simp only [hi, decide_true, Bool.true_and]
  by_cases h1 : i < p
  · simp [h1]
  · by_cases h2 : i - p < n <;> simp [h1, h2]

/-! ## Counts -/

theorem clzN_le (w n : Nat) : clzN w n ≤ w := Nat.sub_le _ _
/-- A number below 2^w has its highest one at its bit length. -/
theorem bitLen_le {w m : Nat} (h : m < 2 ^ w) : bitLen m ≤ w := by
  unfold bitLen
  split
  · omega
  · next h0 => exact (Nat.log2_lt h0).mpr h
theorem testBit_of_bitLen_le {m i : Nat} (h : bitLen m ≤ i) : m.testBit i = false := by
  unfold bitLen at h
  split at h
  · next h0 => rw [h0, Nat.zero_testBit]
  · next h0 => exact Nat.testBit_lt_two_pow ((Nat.log2_lt h0).mp h)
theorem testBit_bitLen_pred {m : Nat} (h : 0 < bitLen m) : m.testBit (bitLen m - 1) = true := by
  unfold bitLen at *
  split at h
  · omega
  · next h0 => rw [if_neg h0]; exact Nat.testBit_log2 h0
theorem testBit_below_clzN {w n j : Nat} (h : j < clzN w n) : n.testBit (w - 1 - j) = false := by
  have hz := testBit_of_bitLen_le (m := n % 2 ^ w) (i := w - 1 - j) (by unfold clzN at h; omega)
  rw [Nat.testBit_mod_two_pow] at hz
  have : w - 1 - j < w := by unfold clzN at h; omega
  simpa [this] using hz
theorem testBit_at_clzN {w n : Nat} (h : clzN w n < w) : n.testBit (w - 1 - clzN w n) = true := by
  have hl := bitLen_le (Nat.mod_lt n (Nat.two_pow_pos w))
  have h1 := testBit_bitLen_pred (m := n % 2 ^ w) (by unfold clzN at h; omega)
  rw [Nat.testBit_mod_two_pow, Bool.and_eq_true] at h1
  rw [show w - 1 - clzN w n = bitLen (n % 2 ^ w) - 1 by unfold clzN at *; omega]
  exact h1.2
theorem ctzFrom_le (w : Nat) : ∀ n, ctzFrom w n ≤ w := by
  induction w with
  | zero => exact fun n => le_rfl
  | succ k ih =>
    intro n
    have := ih (n / 2)
    rw [ctzFrom]
    split <;> omega
theorem testBit_below_ctzFrom (w : Nat) : ∀ n j, j < ctzFrom w n → n.testBit j = false := by
  induction w with
  | zero => exact fun n j h => absurd h (Nat.not_lt_zero j)
  | succ k ih =>
    intro n j h
    rw [ctzFrom] at h
    split at h
    · omega
    · next h2 =>
      cases j with
      | zero => simpa [Nat.testBit_zero] using h2
      | succ j => rw [Nat.testBit_succ]; exact ih (n / 2) j (by omega)
theorem testBit_at_ctzFrom (w : Nat) : ∀ n, ctzFrom w n < w → n.testBit (ctzFrom w n) = true := by
  induction w with
  | zero => exact fun n h => absurd h (Nat.not_lt_zero _)
  | succ k ih =>
    intro n h
    rw [ctzFrom] at h ⊢
    split
    · next h1 => simpa [Nat.testBit_zero] using h1
    · next h1 =>
      rw [if_neg h1] at h
      rw [Nat.add_comm, Nat.testBit_succ]
      exact ih (n / 2) (by omega)
theorem popcount_eq {n : Nat} (x : BitVec n) (w : Nat) : popcount x.toNat w = (List.range w).countP fun j => x.getLsbD j := by
  rw [popcount, bitList, List.countP_eq_length_filter]
  exact congrArg (fun f => ((List.range w).filter f).length) (funext fun j => bit_toNat x j)

/-! ## Reversals -/

theorem brevN_lt (w : Nat) : ∀ n, brevN w n < 2 ^ w := by
  induction w with
  | zero => exact fun _ => Nat.one_pos
  | succ k ih =>
    intro n
    have := ih (n / 2)
    have : n % 2 * 2 ^ k ≤ 1 * 2 ^ k := Nat.mul_le_mul_right _ (by omega)
    rw [brevN, pow_succ]
    omega
theorem testBit_brevN (w : Nat) : ∀ n j, j < w → (brevN w n).testBit (w - 1 - j) = n.testBit j := by
  induction w with
  | zero => exact fun n j h => absurd h (Nat.not_lt_zero j)
  | succ k ih =>
    intro n j h
    rw [brevN, mul_comm, Nat.testBit_two_pow_mul_add _ (brevN_lt k _)]
    cases j with
    | zero => simp [Nat.testBit_zero]
    | succ j => rw [if_pos (by omega), show k + 1 - 1 - (j + 1) = k - 1 - j by omega, ih _ _ (by omega), Nat.testBit_succ]
theorem bswapN_lt (k : Nat) : ∀ n, bswapN k n < 2 ^ (8 * k) := by
  induction k with
  | zero => exact fun _ => Nat.one_pos
  | succ k ih =>
    intro n
    have := ih (n / 256)
    have hp : 256 ^ k = 2 ^ (8 * k) := (pow_mul 2 8 k).symm
    have : n % 256 * 256 ^ k ≤ 255 * 256 ^ k := Nat.mul_le_mul_right _ (by omega)
    rw [bswapN, Nat.mul_succ, pow_add]
    omega
theorem testBit_bswapN (k : Nat) : ∀ n j i, j < k → i < 8 → (bswapN k n).testBit (8 * (k - 1 - j) + i) = n.testBit (8 * j + i) := by
  induction k with
  | zero => exact fun n j i h => absurd h (Nat.not_lt_zero j)
  | succ k ih =>
    intro n j i h hi
    rw [bswapN, mul_comm, show 256 ^ k = 2 ^ (8 * k) from (pow_mul 2 8 k).symm, Nat.testBit_two_pow_mul_add _ (bswapN_lt k _)]
    cases j with
    | zero =>
      rw [if_neg (by omega), show 256 = 2 ^ 8 from rfl, Nat.testBit_mod_two_pow, show 8 * (k + 1 - 1 - 0) + i - 8 * k = i by omega]
      simp [hi]
    | succ j =>
      rw [if_pos (by omega), show k + 1 - 1 - (j + 1) = k - 1 - j by omega, ih _ _ _ (by omega) hi, show 256 = 2 ^ 8 from rfl,
        Nat.testBit_div_two_pow, show 8 * j + i + 8 = 8 * (j + 1) + i by omega]
theorem getLsbD_w64 (n : Nat) {i : Nat} (h : i < 64) : (w64 n).getLsbD i = n.testBit i := by
  rw [w64, BitVec.getLsbD_ofNat, decide_eq_true h, Bool.true_and]
theorem tyPutN_eq_narrow (t : IntTy) (n : Nat) : tyPutN t n = narrow t (w64 n) := by
  refine tyPut_natCast t ?_
  rw [w64, BitVec.toNat_ofNat]
  exact (Nat.mod_mod_of_dvd _ (Nat.pow_dvd_pow 2 (width_le t))).symm

/-! ## Instructions -/

theorem exec_ext (x : IntSh) (s : State) (hg : s.guardOn x.h = true) :
    exec (.ext x) s = if fieldOk (s.si x.b) = true then .next (s.ws x.d (extractField (tySigned x.ty) (s.rs x.a) (s.si x.b)))
      else .next (s.takeTrap 0x02 0 2) := by
  show execExt x s = _
  rw [execExt, guarded_on _ _ _ hg]
  split <;> rename_i h <;> simp only [h] <;> rfl
theorem exec_ins (x : Ins) (s : State) (hg : s.guardOn x.h = true) :
    exec (.ins x) s = if fieldOk (s.si x.c) = true then .next (s.ws x.d (insertField (s.rs x.a) (s.rs x.b) (s.si x.c)))
      else .next (s.takeTrap 0x02 0 3) := by
  show execIns x s = _
  rw [execIns, guarded_on _ _ _ hg]
  split <;> rename_i h <;> simp only [h] <;> rfl

/-- Settles O10: a field by the bits of its mask, a count by the bits around it, a reversal by the place of each bit. -/
theorem scalarFields : Obligations.ScalarFields := by
  unfold Obligations.ScalarFields
  refine ⟨fun x s hg => ?_, fun x s hg => ?_, fun x s hg => ?_⟩
  · intro c p n f
    have hp : fieldPos (s.si x.b) = p := fieldPos_eq _
    have hl : fieldLen (s.si x.b) = n := rfl
    have hn : n ≤ 64 := by omega
    have hok : fieldOk (s.si x.b) = true ↔ c = p + 256 * (n - 1) ∧ p + n ≤ 64 := by rw [fieldOk_iff, hp, hl]
    rw [exec_ext x s hg]
    refine ⟨fun hc hle => ?_, fun hc => by rw [if_neg (mt hok.mp hc)]⟩
    rw [if_pos (hok.mpr ⟨hc, hle⟩), extractField_eq _ _ _ hp hl (Nat.succ_pos _) hn]
  · intro c p n m
    have hp : fieldPos (s.si x.c) = p := fieldPos_eq _
    have hl : fieldLen (s.si x.c) = n := rfl
    have hok : fieldOk (s.si x.c) = true ↔ c = p + 256 * (n - 1) ∧ p + n ≤ 64 := by rw [fieldOk_iff, hp, hl]
    rw [exec_ins x s hg]
    refine ⟨fun hc hle => ?_, fun hc => by rw [if_neg (mt hok.mp hc)]⟩
    rw [if_pos (hok.mpr ⟨hc, hle⟩), insertField_eq _ _ _ hp hl]
  · intro w a
    have hw : tyW x.ty = w := tyW_eq_width x.ty
    have h64 : w ≤ 64 := width_le x.ty
    refine ⟨⟨clzN w a.toNat, ?_, clzN_le _ _, fun j hj => ?_, fun h => ?_⟩, ⟨ctzFrom w a.toNat, ?_, ctzFrom_le _ _, fun j hj => ?_, fun h => ?_⟩,
      ?_, ⟨w64 (brevN w a.toNat), ?_, fun j hj => ?_⟩, ⟨w64 (bswapN (w / 8) a.toNat), ?_, fun j k hj hk => ?_⟩⟩
    · show execClz x s = _
      rw [execClz, guarded_on _ _ _ hg, hw]; rfl
    · rw [← BitVec.testBit_toNat]; exact testBit_below_clzN hj
    · rw [← BitVec.testBit_toNat]; exact testBit_at_clzN h
    · show execCtz x s = _
      rw [execCtz, guarded_on _ _ _ hg, hw]; rfl
    · rw [← BitVec.testBit_toNat]; exact testBit_below_ctzFrom w _ j hj
    · rw [← BitVec.testBit_toNat]; exact testBit_at_ctzFrom w _ h
    · show execPopc x s = _
      rw [execPopc, guarded_on _ _ _ hg, hw, popcount_eq]; rfl
    · show execBrev x s = _
      rw [execBrev, guarded_on _ _ _ hg, hw, tyPutN_eq_narrow]; rfl
    · rw [getLsbD_w64 _ (by omega), testBit_brevN w _ j hj, BitVec.testBit_toNat]
    · show execBswap x s = _
      rw [execBswap, guarded_on _ _ _ hg, hw, tyPutN_eq_narrow]; rfl
    · rw [getLsbD_w64 _ (by omega), testBit_bswapN _ _ j k hj hk, BitVec.testBit_toNat]

end Sys2Proof.Machine
end

section
/-! SUPPORT. Words that the spec prints; compares, moves and predicates (07 R128 to R132). -/

namespace Sys2Proof.Machine
open Sys2Proof Sys2Proof.Claims

/-- Settles O1: the decoder evaluated on each printed word. -/
theorem decodeWords : Obligations.DecodeWords := by
  unfold Obligations.DecodeWords
  decide +kernel

/-! ## Compares -/

/-- A compare writes the truth of its relation between the values of A and B. -/
theorem guarded_compare {x : Cmp} {s s' : State} {b : W64} (hg : s.guardOn x.h = true) (hs : s.src (tySigned x.ty) x.b = .ok b s')
    (f : Int → Int → Bool) :
    (guarded x.h s fun s => s.compare x f) = .next (s'.putBool x.d (f (value x.ty (s'.rs x.a)) (value x.ty b))) := by
  rw [guarded_on _ _ _ hg, State.compare, hs, andThen_ok, tyVal_eq_value, tyVal_eq_value]; rfl

/-- Settles O11: each compare is its relation on the values, put into the kind of register that D names. -/
theorem scalarCompare : Obligations.ScalarCompare := by
  unfold Obligations.ScalarCompare
  intro x s s' b hg hs va vb out
  exact ⟨guarded_compare hg hs _, guarded_compare hg hs _, guarded_compare hg hs _, guarded_compare hg hs _, guarded_compare hg hs _,
    guarded_compare hg hs _⟩

/-! ## Moves and predicates -/

/-- A result under a guard that holds is written. -/
theorem guarded_wp {h : Hdr} {s : State} (hg : s.guardOn h = true) (d : PReg) (f : State → W32) :
    (guarded h s fun s => done (s.wp d (f s))) = .next (s.wp d (f s)) := guarded_on h s _ hg
/-- `lih` puts I above the low half of A. -/
theorem append_lowHalf (i : W32) (a : W64) : i ++ a.extractLsb' 0 32 = i.setWidth 64 <<< 32 ||| (a &&& 0xFFFFFFFF) := by
  refine BitVec.eq_of_getLsbD_eq fun j hj => ?_
  have hm : (0xFFFFFFFF : W64).getLsbD j = decide (j < 32) := by
    rw [show (0xFFFFFFFF : W64) = BitVec.ofNat 64 (2 ^ 32 - 1) from rfl, getLsbD_lowMask, decide_eq_true hj, Bool.true_and]
  rw [BitVec.getLsbD_append, BitVec.getLsbD_or, BitVec.getLsbD_and, BitVec.getLsbD_shiftLeft, BitVec.getLsbD_extractLsb', BitVec.getLsbD_setWidth, hm]
  by_cases h : j < 32
  · simp [h]
  · have : j - 32 < 64 := by omega
    simp [h, hj, this]
theorem extractLsb'_zero_eq (a : W64) (n : Nat) : a.extractLsb' 0 n = a.setWidth n := by
  rw [BitVec.extractLsb', Nat.shiftRight_zero, BitVec.ofNat_toNat]
theorem shiftLeft_eq_mul (a : W64) (k : Nat) : a <<< k = a * BitVec.ofNat 64 (2 ^ k) := by
  refine BitVec.eq_of_toNat_eq ?_
  rw [BitVec.toNat_shiftLeft, BitVec.toNat_mul, BitVec.toNat_ofNat, Nat.shiftLeft_eq, Nat.mul_mod_mod]

/-- Settles O12: each instruction by its one result. -/
theorem movesAndPredicates : Obligations.MovesAndPredicates := by
  unfold Obligations.MovesAndPredicates
  refine ⟨fun x s s' a hg hs => ?_, fun x s s' a hg hs => ?_, fun x s hg => ?_, fun x s hg => ?_, fun x s => ?_, fun x s hg => ?_, fun x s hg => ?_,
    fun x s hg => guarded_wp hg x.d fun _ => x.i, fun x s hg => ⟨?_, ?_⟩, fun x s hg => ?_⟩
  · show execSel x s = _
    rw [execSel, guarded_on _ _ _ hg, hs]; rfl
  · show execMov x s = _
    rw [execMov, guarded_on _ _ _ hg, hs, andThen_ok, tyPutN_eq_narrow, w64, BitVec.ofNat_toNat, BitVec.setWidth_eq]; rfl
  · show execLih x s = _
    rw [execLih, guarded_on _ _ _ hg, append_lowHalf]; rfl
  · show execLea x s = _
    rw [execLea, guarded_on _ _ _ hg]
    cases x.b with
    | s r => simp only [shiftLeft_eq_mul]; rfl
    | i v => rfl
  · show guarded x.h s done = _
    unfold guarded
    split <;> rfl
  · exact ⟨guarded_wp hg x.d fun s => s.rp x.a &&& s.rp x.b, guarded_wp hg x.d fun s => s.rp x.a ||| s.rp x.b,
      guarded_wp hg x.d fun s => s.rp x.a ^^^ s.rp x.b, guarded_wp hg x.d fun s => s.rp x.a &&& ~~~(s.rp x.b)⟩
  · show execPnot x s = _
    rw [execPnot, guarded_on _ _ _ hg, ← BitVec.xor_allOnes]; rfl
  · show execPread x s = _
    rw [execPread, guarded_on _ _ _ hg, BitVec.ofNat_toNat]; rfl
  · show execPcnt x s = _
    rw [execPcnt, guarded_on _ _ _ hg, popcount_eq]; rfl
  · show execPwrite x s = _
    rw [execPwrite, guarded_on _ _ _ hg, extractLsb'_zero_eq]; rfl
end Sys2Proof.Machine
end

section
/-! SUPPORT. Reads and writes of status registers (07 R133, R134, 04 R86, R87). -/

namespace Sys2Proof.Machine
open Sys2Proof Sys2Proof.Claims

/-! ## Reads -/

/-- The registers up to 0x1D have a value, and no other number. -/
theorem isSome_status (s : State) (n : Nat) : (s.status n).isSome = true ↔ n ≤ 0x1D := by
  constructor
  · intro h
    by_contra hn
    obtain ⟨k, rfl⟩ : ∃ k, n = k + 0x1E := ⟨n - 0x1E, by omega⟩
    exact absurd h Bool.false_ne_true
  · intro h
    interval_cases n <;> rfl
theorem status_reserved (s : State) {n : Nat} (h : 0x1D < n) : s.status n = none := by
  have := isSome_status s n
  cases hv : s.status n with
  | none => rfl
  | some v => rw [hv] at this; exact absurd (this.mp rfl) (by omega)
theorem supOnly_iff (n : Nat) : supOnly n = true ↔ 0x15 ≤ n ∧ n ≤ 0x18 := by rw [supOnly, Bool.and_eq_true, decide_eq_true_eq, decide_eq_true_eq]
theorem super_eq_false_iff (s : State) : s.super = false ↔ s.cur.slot ≠ 7 := by rw [State.super, beq_eq_false_iff_ne]
/-- A read that the thread's level does not permit. -/
def State.srdClosed (s : State) (n : Nat) : Bool := supOnly n && !s.super
theorem srdClosed_iff (s : State) (n : Nat) : s.srdClosed n = true ↔ 0x15 ≤ n ∧ n ≤ 0x18 ∧ s.cur.slot ≠ 7 := by
  rw [State.srdClosed, Bool.and_eq_true, supOnly_iff, Bool.not_eq_true', super_eq_false_iff, and_assoc]

section
variable {x : SrdA} {s : State} (hg : s.guardOn x.h = true)
include hg
theorem exec_srd_open {v : W64} (hv : s.status x.n.val = some v) (hc : s.srdClosed x.n.val = false) (ht : x.n.val ≠ 0x0E) :
    exec (.srd x) s = .next (s.ws x.d v) := by
  show execSrd x s = _
  rw [execSrd, guarded_on _ _ _ hg, hv]
  simp only [show (supOnly x.n.val && !s.super) = false from hc, ht, Bool.false_eq_true, if_false, finish_done]
theorem exec_srd_closed {v : W64} (hv : s.status x.n.val = some v) (hc : s.srdClosed x.n.val = true) :
    exec (.srd x) s = .next (s.takeTrap 0x11 0 0) := by
  show execSrd x s = _
  rw [execSrd, guarded_on _ _ _ hg, hv]
  simp only [show (supOnly x.n.val && !s.super) = true from hc, if_true, finish_fail]
theorem exec_srd_reserved (hn : 0x1D < x.n.val) : exec (.srd x) s = .next (s.takeTrap 0x02 0 5) := by
  show execSrd x s = _
  rw [execSrd, guarded_on _ _ _ hg, status_reserved s hn]; rfl
end

/-! ## Values -/

/-- The resident task is found under the name that the core holds. -/
theorem task_of_myTask {s : State} {t : Task} (h : s.myTask = some t) : (s.core s.cur.core).task = some t.id ∧ s.task? t.id = some t := by
  rw [State.myTask, State.taskOn, Option.bind_eq_some_iff] at h
  obtain ⟨i, hi, ht⟩ := h
  rw [State.id_of_task? ht]
  exact ⟨hi, ht⟩
theorem gIndex_me {s : State} {t : Task} {l : Launch} (ht : s.myTask = some t) (hl : s.myLaunch = some l) :
    s.gIndex s.me = (t.id.idx * l.kernel.block + (s.core s.cur.core).bidx) * 8 + s.cur.slot := by
  have hl' : s.launchOf t = some l := by rwa [State.myLaunch, ht] at hl
  unfold State.gIndex
  simp only [State.me]
  rw [(task_of_myTask ht).1, show s.taskOn s.cur.core = some t from ht]
  simp only [hl', Option.map_some, Option.getD_some]
theorem zext32_eq (x : W32) : zext32 x = BitVec.ofNat 64 x.toNat := (BitVec.ofNat_toNat 64 x).symm
theorem mode_word (m : Mode) :
    m.word = BitVec.ofNat 64 ((if m.repro then 1 else 0) + 2 * (if m.fp8ns then 1 else 0) + 4 * (if m.arith then 1 else 0) +
      8 * (if m.fmtovr then 1 else 0) + 16 * (if m.rngrep then 1 else 0)) := by
  obtain ⟨a, b, c, d, e⟩ := m
  revert a b c d e
  decide
theorem bank_eq_some_iff (k : Core) (r : TrapRec) : k.bank = some r ↔ k.bank1 = some r ∨ k.bank1 = none ∧ k.bank0 = some r := by
  unfold Core.bank
  cases k.bank1 <;> simp

/-! ## Writes -/

/-- A write that the thread's level does not permit. -/
def State.swrClosed (s : State) (n : Nat) : Bool := (0x15 ≤ n && n ≤ 0x19) && !s.super
theorem swrClosed_iff (s : State) (n : Nat) : s.swrClosed n = true ↔ 0x15 ≤ n ∧ n ≤ 0x19 ∧ s.cur.slot ≠ 7 := by
  rw [State.swrClosed, Bool.and_eq_true, Bool.and_eq_true, decide_eq_true_eq, decide_eq_true_eq, Bool.not_eq_true', super_eq_false_iff, and_assoc]

section
variable {x : SwrA} {s : State} (hg : s.guardOn x.h = true)
include hg
theorem exec_swr_reserved (hn : 0x1D < x.n.val) : exec (.swr x) s = .next (s.takeTrap 0x02 0 5) := by
  show execSwr x s = _
  rw [execSwr, guarded_on _ _ _ hg, status_reserved s hn]; rfl
theorem exec_swr_closed (hc : s.swrClosed x.n.val = true) : exec (.swr x) s = .next (s.takeTrap 0x11 0 0) := by
  have hn := (isSome_status s x.n.val).mpr (by have := (swrClosed_iff _ _).mp hc; omega)
  show execSwr x s = _
  rw [execSwr, guarded_on _ _ _ hg, Option.isNone_eq_false_iff.mpr hn, if_neg (by decide)]
  simp only [show ((0x15 ≤ x.n.val && x.n.val ≤ 0x19) && !s.super) = true from hc, if_true, finish_fail]

variable (hn : x.n.val ≤ 0x1D) (hc : s.swrClosed x.n.val = false)
include hn hc
/-- A write that the level permits is what `setStatus` makes of it. -/
theorem exec_swr_open {r : Res Unit} (h : ((s.setStatus x.n.val (s.rs x.a)).elim (fail s 0x11 0) done : Res Unit) = r) :
    exec (.swr x) s = finish r := by
  show execSwr x s = _
  rw [execSwr, guarded_on _ _ _ hg, Option.isNone_eq_false_iff.mpr ((isSome_status s _).mpr hn), if_neg (by decide)]
  simp only [show ((0x15 ≤ x.n.val && x.n.val ≤ 0x19) && !s.super) = false from hc, Bool.false_eq_true, if_false]
  subst h
  cases s.setStatus x.n.val (s.rs x.a) <;> rfl
theorem exec_swr_done {t : State} (h : s.setStatus x.n.val (s.rs x.a) = some t) : exec (.swr x) s = .next t :=
  exec_swr_open hg hn hc (r := done t) (by rw [h]; rfl)
theorem exec_swr_fails (h : s.setStatus x.n.val (s.rs x.a) = none) : exec (.swr x) s = .next (s.takeTrap 0x11 0 0) :=
  exec_swr_open hg hn hc (r := fail s 0x11 0) (by rw [h]; rfl)
end

/-! ## MODE -/

theorem toNat_mode_word_lt (m : Mode) : m.word.toNat < 2 ^ 5 := by
  obtain ⟨a, b, c, d, e⟩ := m
  revert a b c d e
  decide
theorem getLsbD_mode_word (m : Mode) : m.word.getLsbD 0 = m.repro ∧ m.word.getLsbD 3 = m.fmtovr ∧ m.word.getLsbD 4 = m.rngrep := by
  obtain ⟨a, b, c, d, e⟩ := m
  revert a b c d e
  decide
/-- The bits above the fields change where the value has one. -/
theorem bits_reserved_eq_zero (v : W64) (m : Mode) : bits (v ^^^ m.word).toNat 5 59 = 0 ↔ v >>> 5 = 0 := by
  have hv : v.toNat / 2 ^ 5 < 2 ^ 59 := by have := v.isLt; omega
  rw [bits, BitVec.toNat_xor, Nat.xor_div_two_pow, Nat.div_eq_of_lt (toNat_mode_word_lt m), Nat.xor_zero, Nat.mod_eq_of_lt hv,
    ← BitVec.toNat_inj, BitVec.toNat_ushiftRight, Nat.shiftRight_eq_div_pow]
  rfl
theorem xor_eq_false_iff (a b : Bool) : (a ^^ b) = false ↔ a = b := by cases a <;> cases b <;> decide
theorem bits_expert_eq_zero (v : W64) (m : Mode) : bits (v ^^^ m.word).toNat 3 2 = 0 ↔ v.getLsbD 3 = m.fmtovr ∧ v.getLsbD 4 = m.rngrep := by
  have h (n : Nat) : bits n 3 2 = 0 ↔ bit n 3 = false ∧ bit n 4 = false := by
    simp only [bits, bit, beq_eq_false_iff_ne]
    omega
  obtain ⟨-, h3, h4⟩ := getLsbD_mode_word m
  rw [h, bit_toNat, bit_toNat, BitVec.getLsbD_xor, BitVec.getLsbD_xor, h3, h4, xor_eq_false_iff, xor_eq_false_iff]
/-- A write of MODE would change a field that it may not: one without RW, or without EXPERT an Expert one. -/
def State.modeHeld (s : State) (v : W64) : Bool :=
  let d := v ^^^ s.opTh.mode.word
  d.getLsbD 0 || bits d.toNat 5 59 != 0 || (bits d.toNat 3 2 != 0 && !s.expert)
theorem modeHeld_eq_false_iff (s : State) (v : W64) :
    s.modeHeld v = false ↔ v.getLsbD 0 = s.opTh.mode.repro ∧ v >>> 5 = 0 ∧
      ((v.getLsbD 3 = s.opTh.mode.fmtovr ∧ v.getLsbD 4 = s.opTh.mode.rngrep) ∨ s.expert = true) := by
  have h0 : (v ^^^ s.opTh.mode.word).getLsbD 0 = false ↔ v.getLsbD 0 = s.opTh.mode.repro := by
    rw [BitVec.getLsbD_xor, (getLsbD_mode_word _).1, xor_eq_false_iff]
  rw [State.modeHeld, Bool.or_eq_false_iff, Bool.or_eq_false_iff, Bool.and_eq_false_iff, bne_eq_false_iff_eq, bne_eq_false_iff_eq, h0,
    bits_reserved_eq_zero, bits_expert_eq_zero, Bool.not_eq_false', and_assoc]
theorem setStatus_mode {s : State} {v : W64} (h : s.modeHeld v = false) :
    s.setStatus 0x0D v = some (s.updTh fun t => { t with mode := ⟨t.mode.repro, v.getLsbD 1, v.getLsbD 2, v.getLsbD 3, v.getLsbD 4⟩ }) := by
  obtain ⟨hr, he⟩ := Bool.or_eq_false_iff.mp h
  simp only [State.setStatus, hr, he, Bool.false_eq_true, if_false]
  rfl
theorem setStatus_mode_held {s : State} {v : W64} (h : s.modeHeld v = true) : s.setStatus 0x0D v = none := by
  simp only [State.setStatus]
  split
  · rfl
  · next hr => rw [if_pos ((Bool.or_eq_true_iff.mp h).resolve_left hr)]

/-! ## The trap bank -/

theorem updMyCore_congr {s : State} {f g : Core → Core} (h : f s.myCore = g s.myCore) : s.updMyCore f = s.updMyCore g := by
  show s.setCore _ (f s.myCore) = s.setCore _ (g s.myCore)
  rw [h]
/-- The bank in use with `f` of its record. -/
def Core.inBank (k : Core) (f : TrapRec → TrapRec) : Core :=
  match k.bank with
  | some r => k.setBank (f r)
  | none => k
/-- A record written back into the bank that holds it. -/
theorem updMyCore_inBank {s : State} {r : TrapRec} (h : s.myCore.bank = some r) (f : TrapRec → TrapRec) :
    (s.updMyCore fun k => k.inBank f) =
      s.updMyCore fun k => if s.myCore.bank1.isSome then { k with bank1 := some (f r) } else { k with bank0 := some (f r) } :=
  updMyCore_congr (by rw [Core.inBank, h]; rfl)
theorem setStatus_cause (s : State) {v : W64} (h : v.toNat < 256) :
    s.setStatus 0x15 v = some (s.updMyCore fun k => k.inBank fun r => { r with cause := v.setWidth 8 }) := by
  rw [← extractLsb'_zero_eq]
  exact if_pos h
theorem setStatus_cause_fails (s : State) {v : W64} (h : 256 ≤ v.toNat) : s.setStatus 0x15 v = none := if_neg (not_lt.mpr h)
theorem setStatus_pc (s : State) (v : W64) : s.setStatus 0x16 v = some (s.updMyCore fun k => k.inBank fun r => { r with pc := v }) := rfl
theorem setStatus_addr (s : State) (v : W64) : s.setStatus 0x17 v = some (s.updMyCore fun k => k.inBank fun r => { r with addr := v }) := rfl
theorem setStatus_info (s : State) (v : W64) : s.setStatus 0x18 v = some (s.updMyCore fun k => k.inBank fun r => { r with info := v }) := rfl
/-- No other register has an RW field. -/
theorem setStatus_none (s : State) (v : W64) {n : Nat} (hn : n ≤ 0x1D) (h : n ∉ [0x0D, 0x15, 0x16, 0x17, 0x18, 0x19, 0x1A, 0x1B]) : s.setStatus n v = none := by
  interval_cases n
  iterate 13 rfl
  exact absurd (by decide) h
  iterate 7 rfl
  iterate 7 exact absurd (by decide) h
  iterate 2 rfl

/-- Settles O14: a read by the value of its register, a write by what `setStatus` makes of it at the thread's level. -/
theorem statusRegisters : Obligations.StatusRegisters := by
  unfold Obligations.StatusRegisters
  refine ⟨fun x s v hg hv hn => ⟨fun h => ?_, fun h => ?_⟩, isSome_status, fun s t l ht hl => ?_, fun s => ?_, fun x y s hx hy hgx hgy => ?_, fun x s hg => ?_⟩
  · exact exec_srd_open hg hv (Bool.eq_false_iff.mpr (mt (srdClosed_iff _ _).mp h)) hn
  · exact exec_srd_closed hg hv ((srdClosed_iff _ _).mpr h)
  · intro c b is
    have h0 : is 0x00 ((t.id.idx * l.kernel.block + b) * 8 + s.cur.slot) := congrArg (fun n => some (w64 n)) (gIndex_me ht hl)
    refine ⟨h0, rfl, rfl, rfl, congrArg some (zext32_eq _), ?_, ?_, ?_, ?_, ?_, ?_, ?_, ?_⟩
    all_goals simp only [is, State.status, ht, hl, Option.map_some, Option.getD_some, Option.bind_some, zext32_eq]
    · cases l.group <;> rfl
    iterate 2 rfl
  · intro m one is
    refine ⟨congrArg some (mode_word _), rfl, rfl, ?_, ?_, rfl, rfl, rfl, rfl, rfl, fun r hr => ?_⟩
    · show some _ = some _
      cases s.opTh.gang <;> rfl
    · show some _ = some _
      cases s.opTh.gang <;> rfl
    · have hb := (bank_eq_some_iff s.myCore r).mpr hr
      refine ⟨?_, ?_, ?_, ?_⟩ <;> simp only [is, State.status, hb, Option.getD_some]
      rfl
  · exact ⟨exec_srd_reserved hgx hx, exec_swr_reserved hgy hy⟩
  · intro v m
    have hopen {n : Nat} (hx : x.n.val = n) (hn : n ≤ 0x1D) (hc : ¬ (0x15 ≤ n ∧ n ≤ 0x19 ∧ s.cur.slot ≠ 7)) {t : State}
        (h : s.setStatus n v = some t) : exec (.swr x) s = .next t := by
      subst hx
      exact exec_swr_done hg hn (Bool.eq_false_iff.mpr (mt (swrClosed_iff _ _).mp hc)) h
    have hfail {n : Nat} (hx : x.n.val = n) (hn : n ≤ 0x1D) (hc : ¬ (0x15 ≤ n ∧ n ≤ 0x19 ∧ s.cur.slot ≠ 7))
        (h : s.setStatus n v = none) : exec (.swr x) s = .next (s.takeTrap 0x11 0 0) := by
      subst hx
      exact exec_swr_fails hg hn (Bool.eq_false_iff.mpr (mt (swrClosed_iff _ _).mp hc)) h
    have hheld := modeHeld_eq_false_iff s v
    refine ⟨fun hx h0 h5 he => ?_, fun hx h => ?_, fun hx hE h => ?_, fun hx => ?_, fun hx => ?_, fun hx h7 => ?_, fun h7 => ⟨fun r hr => ?_, ?_, ?_⟩, fun hx hn => ?_⟩
    · exact hopen hx (by decide) (by omega) (setStatus_mode (hheld.mpr ⟨h0, h5, he⟩))
    · refine hfail hx (by decide) (by omega) (setStatus_mode_held ((Bool.not_eq_false _).mp fun k => ?_))
      obtain ⟨h0, h5, -⟩ := hheld.mp k
      exact h.elim (· h0) (· h5)
    · refine hfail hx (by decide) (by omega) (setStatus_mode_held ((Bool.not_eq_false _).mp fun k => ?_))
      obtain ⟨-, -, he⟩ := hheld.mp k
      rcases he with ⟨h3, h4⟩ | he
      · exact h.elim (· h3) (· h4)
      · exact Bool.false_ne_true (hE.symm.trans he)
    · exact hopen hx (by decide) (by omega) rfl
    · exact hopen hx (by decide) (by omega) rfl
    · simp only [List.mem_cons, List.not_mem_nil, or_false] at hx
      exact exec_swr_closed hg ((swrClosed_iff _ _).mpr ⟨by omega, by omega, h7⟩)
    · have hb := (bank_eq_some_iff s.myCore r).mpr hr
      intro put
      refine ⟨fun hx hv => ?_, fun hx => ?_, fun hx => ?_, fun hx => ?_⟩
      · rw [hopen hx (by decide) (by omega) (setStatus_cause s hv), updMyCore_inBank hb]
      · rw [hopen hx (by decide) (by omega) (setStatus_pc s v), updMyCore_inBank hb]
      · rw [hopen hx (by decide) (by omega) (setStatus_addr s v), updMyCore_inBank hb]
      · rw [hopen hx (by decide) (by omega) (setStatus_info s v), updMyCore_inBank hb]
    · exact fun hx hv => hfail hx (by decide) (by omega) (setStatus_cause_fails s hv)
    · exact fun hx => hopen hx (by decide) (by omega) rfl
    · refine hfail rfl hx (fun hc => hn ?_) (setStatus_none s v hx hn)
      simp only [List.mem_cons, List.not_mem_nil, or_false]
      omega

end Sys2Proof.Machine
end

section
/-! SUPPORT. Control transfers and the checks of their targets (07 R135 to R137, 04 R70, 08 R150). -/

namespace Sys2Proof.Machine
open Sys2Proof Sys2Proof.Claims

/-! ## The form of a target -/

theorem bits_eq_zero_iff (n lo w : Nat) : bits n lo w = 0 ↔ ∀ i, i < w → n.testBit (lo + i) = false := by
  have hb (i : Nat) : (bits n lo w).testBit i = (decide (i < w) && n.testBit (i + lo)) := by
    rw [bits, Nat.testBit_mod_two_pow, Nat.testBit_div_two_pow]
  constructor
  · intro h i hi
    have := hb i
    rw [h, Nat.zero_testBit, decide_eq_true hi, Bool.true_and] at this
    rw [Nat.add_comm]
    exact this.symm
  · intro h
    refine Nat.eq_of_testBit_eq fun i => ?_
    rw [hb, Nat.zero_testBit]
    by_cases hi : i < w
    · rw [Nat.add_comm, h i hi, Bool.and_false]
    · rw [decide_eq_false hi, Bool.false_and]
/-- The bits that the form of 04 R68 has as zero: [63:52] and [5:3]. -/
theorem and_targetMask_eq_zero_iff (t : W64) : t &&& 0xFFF0000000000038 = 0 ↔ bits t.toNat 3 3 = 0 ∧ bits t.toNat 52 12 = 0 := by
  have hm : ∀ i < 64, (0xFFF0000000000038 : W64).getLsbD i = (decide (3 ≤ i ∧ i < 6) || decide (52 ≤ i)) := by decide
  rw [bits_eq_zero_iff, bits_eq_zero_iff]
  simp only [BitVec.testBit_toNat]
  constructor
  · intro h
    have hz (i : Nat) (hi : i < 64) (hs : (0xFFF0000000000038 : W64).getLsbD i = true) : t.getLsbD i = false := by
      have := congrArg (fun v : W64 => v.getLsbD i) h
      simp only [BitVec.getLsbD_and, hs, Bool.and_true] at this
      exact this.trans BitVec.getLsbD_zero
    refine ⟨fun i hi => hz _ (by omega) ?_, fun i hi => hz _ (by omega) ?_⟩
    · rw [hm _ (by omega), Bool.or_eq_true, decide_eq_true_eq]; omega
    · rw [hm _ (by omega), Bool.or_eq_true, decide_eq_true_eq, decide_eq_true_eq]; omega
  · rintro ⟨h3, h52⟩
    refine BitVec.eq_of_getLsbD_eq fun i hi => ?_
    rw [BitVec.getLsbD_and, hm i hi]
    by_cases ha : 3 ≤ i ∧ i < 6
    · have := h3 (i - 3) (by omega)
      rw [Nat.add_sub_cancel' ha.1] at this
      simp [this]
    · by_cases hb : 52 ≤ i
      · have := h52 (i - 52) (by omega)
        rw [Nat.add_sub_cancel' hb] at this
        simp [this]
      · simp [ha, hb]
theorem pcSlot_eq (t : W64) : pcSlot t = (t &&& 7).toNat := by
  rw [pcSlot, bits_zero, BitVec.toNat_and]
  exact (Nat.and_two_pow_sub_one_eq_mod t.toNat 3).symm
/-- A target of the form of 04 R68. -/
def targetForm (t : W64) : Bool := !(4 < pcSlot t || bits t.toNat 3 3 != 0 || bits t.toNat 52 12 != 0)
theorem targetForm_iff (t : W64) : targetForm t = true ↔ t &&& 0xFFF0000000000038 = 0 ∧ (t &&& 7).toNat ≤ 4 := by
  rw [targetForm, Bool.not_eq_true', Bool.or_eq_false_iff, Bool.or_eq_false_iff, bne_eq_false_iff_eq, bne_eq_false_iff_eq, decide_eq_false_iff_not,
    and_targetMask_eq_zero_iff, pcSlot_eq, not_lt, and_assoc, and_comm]
theorem pcLine_eq {t : W64} (h : targetForm t = true) : pcLine t = (t >>> 6).toNat := by
  have hlt : t.toNat < 2 ^ 52 := (bits_hi_eq_zero t).mp ((and_targetMask_eq_zero_iff t).mp ((targetForm_iff t).mp h).1).2
  rw [pcLine, bits, BitVec.toNat_ushiftRight, Nat.shiftRight_eq_div_pow]
  omega

/-! ## The checks -/

theorem State.cached_fetchPage (s : State) (line : Nat) : s.Cached (s.fetchPage line).2 := by
  have hl := s.cached_lookup (clusterOf s.cur.core) s.myPart (64 * line)
  unfold State.fetchPage
  simp only
  split
  · exact .refl s
  · revert hl
    rcases s.lookup (clusterOf s.cur.core) s.myPart (64 * line) with ⟨r, u⟩
    intro hl
    cases r with
    | inr i => exact hl
    | inl pg => cases h : leafFail pg.leaf .fetch u.super <;> simp only [h] <;> exact hl
/-- The image of a target line: the core's L0 copy, else what stands at the points of coherence. -/
def State.targetImage (u : State) (pg : Pg) (t : W64) : BitVec 512 :=
  match l0Get u.myCore (pcLine t) with
  | some e => e.1
  | none => u.lineAt (pg.pa + (64 * pcLine t - pg.va))

section
variable {s u : State} {t : W64}
theorem checkTarget_badForm (s : State) (h : targetForm t = false) : s.checkTarget t true = .trap s 0x05 t 0 := by
  have hf : (4 < pcSlot t || bits t.toNat 3 3 != 0 || bits t.toNat 52 12 != 0) = true := by rwa [targetForm, Bool.not_eq_false'] at h
  rw [State.checkTarget, if_pos hf]
variable (hf : targetForm t = true)
include hf
theorem checkTarget_badPage {c : Byte} {i : W64} (hp : s.fetchPage (pcLine t) = (.inr (c, i), u)) : s.checkTarget t true = .trap u c t i := by
  have hf : ¬ (4 < pcSlot t || bits t.toNat 3 3 != 0 || bits t.toNat 52 12 != 0) = true := by rwa [targetForm, Bool.not_eq_true', Bool.eq_false_iff] at hf
  rw [State.checkTarget, if_neg hf, hp]
theorem checkTarget_page {pg : Pg} (hp : s.fetchPage (pcLine t) = (.inl pg, u)) :
    s.checkTarget t true = if lineTgt (u.targetImage pg t) (pcSlot t) = true then .ok () u else .trap u 0x05 t 0 := by
  have hf : ¬ (4 < pcSlot t || bits t.toNat 3 3 != 0 || bits t.toNat 52 12 != 0) = true := by rwa [targetForm, Bool.not_eq_true', Bool.eq_false_iff] at hf
  rw [State.checkTarget, if_neg hf, hp, State.targetImage]
  simp only [Bool.true_and, Bool.not_eq_true']
  cases l0Get u.myCore (pcLine t) with
  | some e => simp only; cases lineTgt e.1 (pcSlot t) <;> rfl
  | none => simp only; cases lineTgt (u.lineAt (pg.pa + (64 * pcLine t - pg.va))) (pcSlot t) <;> rfl
end

theorem super_of_cached {s u : State} (h : s.Cached u) : u.super = s.super := by rw [h.1]; rfl
/-- Why a page does not let a thread fetch from it: INFO 12 where U is missing at USER level, else 4 where X is. -/
theorem leafFail_fetch (e : W64) (b : Bool) :
    leafFail e .fetch b = if e.getLsbD 5 = false ∨ (b = false ∧ e.getLsbD 2 = false) then
      some (if b = false ∧ e.getLsbD 2 = false then 12 else 4) else none := by
  unfold leafFail
  cases b <;> cases e.getLsbD 5 <;> cases e.getLsbD 2 <;> rfl
section
variable {s u : State} {line : Nat}
theorem fetchPage_device (h : devBase ≤ 64 * line) : s.fetchPage line = (.inr (0x11, 4), s) := by
  rw [State.fetchPage, if_pos h]; rfl
variable (h : 64 * line < devBase)
include h
theorem fetchPage_unmapped {i : W64} (hl : s.lookup (clusterOf s.cur.core) s.myPart (64 * line) = (.inr i, u)) :
    s.fetchPage line = (.inr (0x10, i), u) := by
  rw [State.fetchPage, if_neg (not_le.mpr h), hl]
theorem fetchPage_mapped {pg : Pg} (hl : s.lookup (clusterOf s.cur.core) s.myPart (64 * line) = (.inl pg, u)) :
    s.fetchPage line = if pg.leaf.getLsbD 5 = false ∨ (s.cur.slot ≠ 7 ∧ pg.leaf.getLsbD 2 = false) then
      (.inr (0x11, if s.cur.slot ≠ 7 ∧ pg.leaf.getLsbD 2 = false then 12 else 4), u) else (.inl pg, u) := by
  have hc : s.Cached u := by
    have := s.cached_lookup (clusterOf s.cur.core) s.myPart (64 * line)
    rwa [hl] at this
  rw [State.fetchPage, if_neg (not_le.mpr h), hl]
  simp only [leafFail_fetch, super_of_cached hc, super_eq_false_iff]
  by_cases hx : pg.leaf.getLsbD 5 = false ∨ (s.cur.slot ≠ 7 ∧ pg.leaf.getLsbD 2 = false)
  · rw [if_pos hx, if_pos hx]
  · rw [if_neg hx, if_neg hx]
end

/-- The look at a target moves caches alone. -/
theorem State.checkTarget_cached (s : State) (t : W64) {u : State}
    (h : s.checkTarget t true = .ok () u ∨ ∃ c a i, s.checkTarget t true = .trap u c a i) : s.Cached u := by
  cases hf : targetForm t with
  | false =>
    rw [checkTarget_badForm s hf] at h
    rcases h with h | ⟨c, a, i, h⟩ <;> cases h
    exact .refl s
  | true =>
    have hp := s.cached_fetchPage (pcLine t)
    cases hq : s.fetchPage (pcLine t) with
    | mk r v =>
      rw [hq] at hp
      cases r with
      | inr e =>
        rw [checkTarget_badPage hf (c := e.1) (i := e.2) hq] at h
        rcases h with h | ⟨c, a, i, h⟩ <;> cases h
        exact hp
      | inl pg =>
        rw [checkTarget_page hf hq] at h
        cases hb : lineTgt (v.targetImage pg t) (pcSlot t) <;> simp only [hb, if_true, Bool.false_eq_true, if_false] at h <;>
          rcases h with h | ⟨c, a, i, h⟩ <;> cases h <;> exact hp

/-! ## Transfers -/

section
variable {s s' : State} {t : W64} {f : State → State}
theorem transfer_not (s : State) (t : W64) (f : State → State) : finish (s.transfer false t f) = .next (f s) := by
  rw [State.transfer, Bool.not_false, Bool.or_true]; rfl
theorem transfer_follow (h : s.cur.follow = true) (b : Bool) : finish (s.transfer b t f) = .next (f s) := by
  rw [State.transfer, h, Bool.true_or]; rfl
variable (h : s.cur.follow = false)
include h
theorem transfer_ok (hc : s.checkTarget t true = .ok () s') : finish (s.transfer true t f) = .next ((f s').jump t) := by
  rw [State.transfer, h, hc]; rfl
theorem transfer_trap {c : Byte} {a i : W64} (hc : s.checkTarget t true = .trap s' c a i) : finish (s.transfer true t f) = .next (s'.takeTrap c a i) := by
  rw [State.transfer, h, hc]; rfl
end

section
variable {s : State}
theorem exec_br {x : BrO} (hg : s.guardOn x.h = true) : exec (.br x) s = finish (s.transfer true (offTarget s.cur.ipc x.off) id) := by
  rw [exec, execBr, guarded_on _ _ _ hg]
theorem exec_call {x : BrO} (hg : s.guardOn x.h = true) :
    exec (.call x) s = finish (s.transfer true (offTarget s.cur.ipc x.off) fun s => s.ws 63 s.cur.link) := by
  rw [exec, execCall, guarded_on _ _ _ hg, linkReg]
theorem exec_brz {x : BrR} (hg : s.guardOn x.h = true) : exec (.brz x) s = finish (s.transfer (s.rs x.r == 0) (offTarget s.cur.ipc x.off) id) := by
  rw [exec, execBrz, guarded_on _ _ _ hg]
theorem exec_brnz {x : BrR} (hg : s.guardOn x.h = true) : exec (.brnz x) s = finish (s.transfer (s.rs x.r != 0) (offTarget s.cur.ipc x.off) id) := by
  rw [exec, execBrnz, guarded_on _ _ _ hg]
theorem exec_brdec {x : BrR} (hg : s.guardOn x.h = true) :
    exec (.brdec x) s = finish (s.transfer (s.rs x.r - 1 != 0) (offTarget s.cur.ipc x.off) fun u => u.ws x.r (s.rs x.r - 1)) := by
  rw [exec, execBrdec, guarded_on _ _ _ hg]
theorem exec_jr {x : AOnly} (hg : s.guardOn x.h = true) : exec (.jr x) s = finish (s.transfer true (s.rs x.a) id) := by
  rw [exec, execJr, guarded_on _ _ _ hg]
theorem exec_callr {x : AOnly} (hg : s.guardOn x.h = true) :
    exec (.callr x) s = finish (s.transfer true (s.rs x.a) fun s => s.ws 63 s.cur.link) := by
  rw [exec, execCallr, guarded_on _ _ _ hg, linkReg]
theorem exec_ret {x : HOnly} (hg : s.guardOn x.h = true) : exec (.ret x) s = finish (s.transfer true (s.rs 63) id) := by
  rw [exec, execRet, guarded_on _ _ _ hg, linkReg]
end

theorem sub_one_eq_zero_iff (v : W64) : v - 1 = 0 ↔ v = 1 := sub_eq_zero

/-- Settles O17: a transfer is not taken, is its leader's, or goes as the checks of its target come out: the form, the page, the TGT bit. -/
theorem controlTransfers : Obligations.ControlTransfers := by
  unfold Obligations.ControlTransfers
  refine ⟨fun x s s' hg hf hc => ⟨?_, ?_⟩, fun x s s' c a i hg hf hc => ⟨?_, ?_⟩, fun x s s' hg hf hc => ⟨?_, ?_, ?_⟩,
    fun x s s' c a i hg hf hc => ⟨?_, ?_, ?_⟩, fun x s s' hg hf hc => ⟨?_, ?_⟩, fun x s s' c a i hg hf hc => ⟨?_, ?_⟩,
    fun x s s' hg hf hc => ?_, fun x s s' c a i hg hf hc => ?_, fun s s' t c a i h => ?_, fun x y z s hx hy hz hf => ?_, fun s t h => ?_,
    fun s t h38 h4 => ⟨fun hd => ?_, fun hd => ⟨fun i u hl => ?_, fun pg u hl => ?_⟩⟩⟩
  · rw [exec_br hg, transfer_ok hf hc]; rfl
  · rw [exec_call hg, transfer_ok hf hc]
  · rw [exec_br hg, transfer_trap hf hc]
  · rw [exec_call hg, transfer_trap hf hc]
  · rw [exec_brz hg]
    by_cases hr : s.rs x.r = 0
    · rw [if_pos hr, hr, beq_self_eq_true, transfer_ok hf hc]; rfl
    · rw [if_neg hr, beq_eq_false_iff_ne.mpr hr, transfer_not]; rfl
  · rw [exec_brnz hg]
    by_cases hr : s.rs x.r = 0
    · rw [if_pos hr, bne_eq_false_iff_eq.mpr hr, transfer_not]; rfl
    · rw [if_neg hr, bne_iff_ne.mpr hr, transfer_ok hf hc]; rfl
  · rw [exec_brdec hg]
    by_cases hr : s.rs x.r = 1
    · rw [if_pos hr, hr, show ((1 : W64) - 1 != 0) = false from rfl, transfer_not]; rfl
    · rw [if_neg hr, bne_iff_ne.mpr (mt (sub_one_eq_zero_iff _).mp hr), transfer_ok hf hc]
  · rw [exec_brz hg]
    by_cases hr : s.rs x.r = 0
    · rw [if_pos hr, hr, beq_self_eq_true, transfer_trap hf hc]
    · rw [if_neg hr, beq_eq_false_iff_ne.mpr hr, transfer_not]; rfl
  · rw [exec_brnz hg]
    by_cases hr : s.rs x.r = 0
    · rw [if_pos hr, bne_eq_false_iff_eq.mpr hr, transfer_not]; rfl
    · rw [if_neg hr, bne_iff_ne.mpr hr, transfer_trap hf hc]
  · rw [exec_brdec hg]
    by_cases hr : s.rs x.r = 1
    · rw [if_pos hr, hr, show ((1 : W64) - 1 != 0) = false from rfl, transfer_not]; rfl
    · rw [if_neg hr, bne_iff_ne.mpr (mt (sub_one_eq_zero_iff _).mp hr), transfer_trap hf hc]
  · rw [exec_jr hg, transfer_ok hf hc]; rfl
  · rw [exec_callr hg, transfer_ok hf hc]
  · rw [exec_jr hg, transfer_trap hf hc]
  · rw [exec_callr hg, transfer_trap hf hc]
  · rw [exec_ret hg, transfer_ok hf hc]; rfl
  · rw [exec_ret hg, transfer_trap hf hc]
  · exact (s.checkTarget_cached t (h.imp_right fun h => ⟨c, a, i, h⟩)).1
  · refine ⟨?_, ?_, ?_, ?_, ?_, fun r hr => ?_, ?_, ?_⟩
    · rw [exec_br hx, transfer_follow hf]; rfl
    · rw [exec_brz hy, transfer_follow hf]; rfl
    · rw [exec_brnz hy, transfer_follow hf]; rfl
    · rw [exec_jr hz, transfer_follow hf]; rfl
    · rw [exec_brdec hy, transfer_follow hf]
    · rw [exec_ret hr, transfer_follow hf]; rfl
    · rw [exec_call hx, transfer_follow hf]
    · rw [exec_callr hz, transfer_follow hf]
  · refine checkTarget_badForm s (Bool.eq_false_iff.mpr fun hk => ?_)
    obtain ⟨h38, h4⟩ := (targetForm_iff t).mp hk
    rcases h with h | h
    · exact h h38
    · omega
  all_goals
    have hform := (targetForm_iff t).mpr ⟨h38, h4⟩
    rw [← pcLine_eq hform] at hd
  · exact checkTarget_badPage hform (fetchPage_device hd)
  · rw [← pcLine_eq hform] at hl
    exact checkTarget_badPage hform (fetchPage_unmapped hd hl)
  · rw [← pcLine_eq hform] at hl ⊢
    have hp := fetchPage_mapped hd hl
    intro noUser img
    have himg : lineTgt (u.targetImage pg t) (pcSlot t) = img.getLsbD (480 + (t &&& 7).toNat) := by rw [lineTgt, pcSlot_eq]; rfl
    refine ⟨fun hx => ?_, fun h5 hu hb => ?_, fun h5 hu hb => ?_⟩
    · rw [if_pos hx] at hp
      exact checkTarget_badPage hform hp
    all_goals
      have hx : ¬ (pg.leaf.getLsbD 5 = false ∨ noUser) := fun k => k.elim (fun k => Bool.false_ne_true (k.symm.trans h5)) hu
      rw [if_neg hx] at hp
      rw [checkTarget_page hform hp, himg, hb]
    · exact if_neg Bool.false_ne_true
    · exact if_pos rfl

end Sys2Proof.Machine
end

section
/-! SUPPORT. What control instructions leave as it was (07 R133 to R143, 06 R116). -/

namespace Sys2Proof.Machine
open Sys2Proof Sys2Proof.Claims

/-! ## Instructions that end with the fate they began with -/

section
variable {s t : State} {P : State → Prop} {r : Res Unit}
/-- An instruction that neither passed the turn nor trapped was done. -/
theorem of_finish_go (hr : r.Ends (fun _ u => P u) fun _ => True) (e : finish r = .next t) (hgo : t.cur.fate = .go) : P t := by
  cases r with
  | ok a u => cases e; exact hr
  | pass u => cases e; cases hgo
  | trap u c a i => cases e; cases hgo
theorem of_guarded_go {h : Hdr} {f : State → Res Unit} (h0 : P s) (hr : (f s).Ends (fun _ u => P u) fun _ => True)
    (e : guarded h s f = .next t) (hgo : t.cur.fate = .go) : P t := by
  cases hg : s.guardOn h with
  | false => rw [guarded_off h s f hg] at e; cases e; exact h0
  | true => rw [guarded_on h s f hg] at e; exact of_finish_go hr e hgo
end

/-! ## Updates of the issuing thread -/

/-- Nothing but the issuing thread has changed. -/
def State.OnlyThread (s t : State) : Prop :=
  t.mem = s.mem ∧ t.clusters = s.clusters ∧ t.me = s.me ∧ (∀ c, t.core c = { s.core c with threads := (t.core c).threads }) ∧
    ∀ u, u ≠ s.me → t.thr u = s.thr u
theorem State.onlyThread_refl (s : State) : s.OnlyThread s := ⟨rfl, rfl, rfl, fun _ => rfl, fun _ _ => rfl⟩
theorem State.onlyThread_updTh (s : State) (f : Thread → Thread) : s.OnlyThread (s.updTh f) :=
  ⟨rfl, rfl, rfl, s.core_updTh f, fun _ hu => s.thr_updTh_ne f hu⟩
theorem State.OnlyThread.trans {s t u : State} (h : s.OnlyThread t) (k : t.OnlyThread u) : s.OnlyThread u := by
  obtain ⟨hm, hc, hme, hk, ho⟩ := h
  obtain ⟨km, kc, kme, kk, ko⟩ := k
  refine ⟨km.trans hm, kc.trans hc, kme.trans hme, fun c => ?_, fun w hw => (ko w (hme ▸ hw)).trans (ho w hw)⟩
  rw [kk c, hk c]

section
variable {s t : State} (h : s.OnlyThread t)
include h
theorem keepsMem_of_onlyThread : KeepsMem s t := by
  obtain ⟨hm, -, -, hk, -⟩ := h
  exact ⟨fun a => by rw [hm], fun c a => by rw [hk]⟩
theorem keepsOthers_of_onlyThread : KeepsOthers s t := h.2.2.2.2
theorem keepsUnits_of_onlyThread : KeepsUnits s t := by
  obtain ⟨-, hc, -, hk, -⟩ := h
  exact ⟨fun c => by rw [State.cluster, hc]; exact ⟨rfl, rfl⟩, fun c => by rw [hk]⟩
theorem keepsCore_of_onlyThread (hp : t.th.pc = s.th.pc) : KeepsCore s t := by
  obtain ⟨-, -, -, hk, -⟩ := h
  exact ⟨fun c => by rw [hk]; exact ⟨rfl, rfl, rfl, rfl, rfl⟩, hp⟩
end

/-- A circular-buffer handle written, and the flags kept. -/
def KeepsButHandle (s t : State) (d : CReg) : Prop :=
  KeepsRegs s t [] [] [] [d] ∧ KeepsMem s t ∧ KeepsStatus s t ∧ KeepsCore s t ∧ KeepsOthers s t ∧ KeepsUnits s t ∧ KeepsFlags s t
theorem keepsButHandle_wc (s : State) (d : CReg) (v : Cb) : KeepsButHandle s (s.wc d v) d := by
  have h : s.OnlyThread (s.wc d v) := s.onlyThread_updTh _
  have ht := s.th_wc d v
  refine ⟨⟨?_, ?_, ?_, ?_⟩, keepsMem_of_onlyThread h, ?_, keepsCore_of_onlyThread h (by rw [ht]), keepsOthers_of_onlyThread h,
    keepsUnits_of_onlyThread h, by rw [KeepsFlags, ht]⟩
  · rw [ht]; exact fun n _ => rdS_wrC ..
  · rw [ht]; exact fun n _ => rdV_wrC ..
  · rw [ht]; exact fun n _ => rdP_wrC ..
  · rw [ht]; exact fun n hn => by rw [rdC_wrC, if_neg fun k => hn (List.mem_singleton.mpr k)]
  · rw [KeepsStatus, ht]; exact ⟨rfl, rfl, rfl, rfl, rfl, rfl, rfl, rfl, rfl, rfl⟩

/-! ## What a transfer leaves -/

/-- Registers in `ds` may be written, and nothing else but caches. -/
def KeepsButRegs (s t : State) (ds : List SReg) : Prop := OnlyRegs s t ds [] [] ∧ KeepsFlags s t
theorem keepsButRegs_refl (s : State) (ds : List SReg) : KeepsButRegs s s ds := ⟨onlyRegs_refl s .., rfl⟩
theorem keepsButRegs_ws (s : State) (d : SReg) (v : W64) : KeepsButRegs s (s.ws d v) [d] :=
  ⟨onlyRegs_of_wrS (s.wrote_ws s.free d v), keepsFlags_of_wrote (s.wrote_ws s.free d v)⟩
/-- Caches that moved before do not matter. -/
theorem keepsButRegs_of_cached {s v u : State} {ds : List SReg} (h : s.Cached v) (k : KeepsButRegs v u ds) : KeepsButRegs s u ds := by
  obtain ⟨hv, hc⟩ := h
  have hth : v.th = s.th := by rw [hv]; rfl
  have hcore (c : Nat) : v.core c = s.core c := by rw [hv]; rfl
  obtain ⟨⟨hregs, hmem, hst, hcr, hoth, hun, htl⟩, hfl⟩ := k
  refine ⟨⟨?_, ⟨?_, ?_⟩, ?_, ⟨?_, ?_⟩, ?_, fun c => ?_, fun c => ?_⟩, ?_⟩
  · rwa [KeepsRegs, hth] at hregs
  · rw [show s.mem = v.mem by rw [hv]]; exact hmem.1
  · exact fun c a => hcore c ▸ hmem.2 c a
  · rwa [KeepsStatus, hth] at hst
  · exact fun c => hcore c ▸ hcr.1 c
  · exact hth ▸ hcr.2
  · exact fun w hw => (hoth w (by rw [show v.me = s.me by rw [hv]; rfl]; exact hw)).trans (by rw [State.thr, hcore]; rfl)
  · rw [(hun c).1, (hun c).2, hc c]; exact ⟨rfl, rfl⟩
  · rw [htl c, hcore]
  · rwa [KeepsFlags, hth] at hfl
theorem transfer_keeps (s : State) (b : Bool) (t : W64) {f : State → State} {ds : List SReg} (hf : ∀ v, KeepsButRegs v (f v) ds) :
    (s.transfer b t f).Ends (fun _ u => KeepsButRegs s u ds) fun _ => True := by
  unfold State.transfer
  split
  · exact hf s
  · have hc := fun u => s.checkTarget_cached t (u := u)
    revert hc
    cases s.checkTarget t true with
    | ok a v => exact fun hc => show KeepsButRegs s (f v) ds from keepsButRegs_of_cached (hc v (.inl rfl)) (hf v)
    | pass v => exact fun _ => trivial
    | trap v c a i => exact fun _ => trivial

/-! ## What the other control instructions leave -/

/-- A use of a handle does what it is for, or fails a check. -/
theorem cbUse_ends {s : State} {c : Cb} {pos w q : Nat} {tiles : Bool} {f : List Nat → Res Unit} {P : State → Prop}
    (h : ∀ es, (f es).Ends (fun _ u => P u) fun _ => True) : (s.cbUse c pos w q tiles f).Ends (fun _ u => P u) fun _ => True := by
  unfold State.cbUse
  split
  · trivial
  · split
    · trivial
    · simp only
      split
      · trivial
      · exact h _
/-- `srd` leaves all but D and the latch of TIME. -/
def KeepsButLatch (s t : State) (d : SReg) : Prop :=
  KeepsRegs s t [d] [] [] [] ∧ KeepsMem s t ∧ KeepsCore s t ∧ KeepsOthers s t ∧ KeepsUnits s t ∧
    KeepsFlags s t ∧ t.th.mode = s.th.mode ∧ t.th.esn = s.th.esn ∧ t.th.ctr = s.th.ctr
theorem keepsButLatch_refl (s : State) (d : SReg) : KeepsButLatch s s d := by
  obtain ⟨hr, hm, -, hc, ho, hu⟩ := onlyRegs_refl s [d] [] []
  exact ⟨hr, hm, hc, ho, hu, rfl, rfl, rfl, rfl⟩
theorem keepsButLatch_ws {s u : State} (h : s.OnlyThread u) {y : BitVec 16} (hu : u.th = { s.th with timehi := y }) (d : SReg) (v : W64) :
    KeepsButLatch s (u.ws d v) d := by
  have hk : s.OnlyThread (u.ws d v) := h.trans (u.onlyThread_updTh _)
  have ht : (u.ws d v).th = { s.th with timehi := y, regs := wrS s.th.regs d v } := by rw [State.th_ws, hu]
  refine ⟨⟨?_, ?_, ?_, ?_⟩, keepsMem_of_onlyThread hk, keepsCore_of_onlyThread hk (by rw [ht]), keepsOthers_of_onlyThread hk,
    keepsUnits_of_onlyThread hk, by rw [KeepsFlags, ht], by rw [ht], by rw [ht], by rw [ht]⟩
  · rw [ht]; exact fun n hn => by rw [rdS_wrS, if_neg fun k => hn (List.mem_singleton.mpr k.1)]
  · rw [ht]; exact fun n _ => rdV_wrS ..
  · rw [ht]; exact fun n _ => rdP_wrS ..
  · rw [ht]; exact fun n _ => rdC_wrS ..

/-- Settles O22: each instruction is done with one register written, caches apart, or it passes or traps. -/
theorem controlFrame : Obligations.ControlFrame := by
  unfold Obligations.ControlFrame
  intro i s t hs e hgo
  have hid : ∀ v : State, KeepsButRegs v (id v) [] := fun v => keepsButRegs_refl v []
  refine ⟨fun x hi => ?_, fun x hi => ?_, fun x hi => ?_, fun x hi => ?_, fun x hi => ?_, fun x hi => ?_, fun x hi => ?_, fun x hi => ?_, fun x hi => ?_,
    fun x hi => ?_, fun x hi => ?_⟩
  · rw [hi, exec, execBr] at e
    exact of_guarded_go (keepsButRegs_refl s []) (transfer_keeps s _ _ hid) e hgo
  · rcases hi with rfl | rfl
    all_goals
      simp only [exec, execBrz, execBrnz] at e
      exact of_guarded_go (keepsButRegs_refl s []) (transfer_keeps s _ _ hid) e hgo
  · rw [hi, exec, execBrdec] at e
    exact of_guarded_go (keepsButRegs_refl s _) (transfer_keeps s _ _ fun v => keepsButRegs_ws v _ _) e hgo
  · rw [hi, exec, execCall] at e
    exact of_guarded_go (keepsButRegs_refl s _) (transfer_keeps s _ _ fun v => keepsButRegs_ws v _ _) e hgo
  · rw [hi, exec, execCallr] at e
    exact of_guarded_go (keepsButRegs_refl s _) (transfer_keeps s _ _ fun v => keepsButRegs_ws v _ _) e hgo
  · rw [hi, exec, execJr] at e
    exact of_guarded_go (keepsButRegs_refl s []) (transfer_keeps s _ _ hid) e hgo
  · rw [hi, exec, execRet] at e
    exact of_guarded_go (keepsButRegs_refl s []) (transfer_keeps s _ _ hid) e hgo
  · rw [hi, exec, execPart] at e
    refine of_guarded_go (P := fun u => KeepsButRegs s u [x.d]) (keepsButRegs_refl s _) ?_ e hgo
    simp only
    split
    · trivial
    · exact keepsButRegs_ws s _ _
  · rcases hi with rfl | rfl
    all_goals
      simp only [exec, execCbwaitc, execCbwaitp] at e
      refine of_finish_go (P := fun u => KeepsButRegs s u [x.d]) (cbUse_ends fun es => ?_) e hgo
      split
      · exact keepsButRegs_ws s _ _
      · trivial
  · rw [hi, exec, execSrd] at e
    refine of_guarded_go (P := fun u => KeepsButLatch s u x.d) (keepsButLatch_refl s _) ?_ e hgo
    split
    · trivial
    · split
      · trivial
      · simp only
        split
        · exact keepsButLatch_ws (s.onlyThread_updTh _) (s.th_updTh _) x.d _
        · exact keepsButLatch_ws s.onlyThread_refl (y := s.th.timehi) rfl x.d _
  · rcases hi with rfl | rfl
    all_goals simp only [exec, execCbset, execCbadvp] at e
    · refine of_finish_go (P := fun u => KeepsButHandle s u x.d) ?_ e hgo
      split
      · trivial
      · exact keepsButHandle_wc s _ _
    · refine of_finish_go (P := fun u => KeepsButHandle s u x.d) (cbUse_ends fun es => ?_) e hgo
      exact keepsButHandle_wc s _ _

end Sys2Proof.Machine
end

section
/-! SUPPORT. Circular buffers (07 R142, R143, 06 R119, R120). -/

namespace Sys2Proof.Machine
open Sys2Proof Sys2Proof.Claims

/-! ## The use of a handle -/

section
variable {s : State} {c : Cb} {pos w q : Nat} {tiles : Bool} {f : List Nat → Res Unit}
theorem cbUse_invalid (h : c.valid = false) : s.cbUse c pos w q tiles f = badPos s pos := by rw [State.cbUse, h]; rfl
variable (h : c.valid = true)
include h
theorem cbUse_badCount (hw : w = 0 ∨ c.lenm1 + 1 < w) : s.cbUse c pos w q tiles f = badPos s 3 := by
  rw [State.cbUse, h, if_neg (by decide), if_pos (by simpa using hw)]
/-- A valid handle with a count in its range and entries that are in use. -/
theorem cbUse_ok (h1 : 1 ≤ w) (hw : w ≤ c.lenm1 + 1) (hu : tiles = true → ∀ e ∈ c.entries q w, (s.tile e).size ≠ 0) :
    s.cbUse c pos w q tiles f = f (c.entries q w) := by
  have ht : ¬ (tiles && (c.entries q w).any fun e => (s.tile e).size == 0) = true := by
    rw [Bool.and_eq_true, List.any_eq_true]
    rintro ⟨hb, e, he, hz⟩
    exact hu hb e he (beq_iff_eq.mp hz)
  rw [State.cbUse, h, if_neg (by decide), if_neg (by simp; omega)]
  exact if_neg ht
end
theorem forall_mem_entries {c : Cb} {q w : Nat} {p : Nat → Prop} :
    (∀ e ∈ c.entries q w, p e) ↔ ∀ i, i < w → p (c.first + (q + i) % (c.lenm1 + 1)) := by
  simp only [Cb.entries, List.mem_map, List.mem_range, forall_exists_index, and_imp, forall_apply_eq_imp_iff₂, Cb.entry]

/-! ## Waits -/

/-- `cbwaitc` and `cbwaitp`: the entries from position `q` onward are in state `k` at the start of the cycle, or the turn passes. -/
def State.cbWait (s : State) (x : CbW) (q : Nat) (k : TileSt) : Out' :=
  finish <| s.cbUse (s.rc x.a) 1 x.n.val q true fun es =>
    if es.all fun e => s.tileStart s.cur.core e == k then done (s.ws x.d (w64 ((s.rc x.a).first + q))) else .pass s
theorem exec_cbwaitc (x : CbW) (s : State) : exec (.cbwaitc x) s = s.cbWait x (s.rc x.a).q .ready := rfl
theorem exec_cbwaitp (x : CbW) (s : State) : exec (.cbwaitp x) s = s.cbWait x (s.rc x.a).p .empty := rfl

section
variable {s : State} {x : CbW} {q : Nat} {k : TileSt}
theorem cbWait_invalid (h : (s.rc x.a).valid = false) : s.cbWait x q k = .next (s.takeTrap 0x02 0 1) := by rw [State.cbWait, cbUse_invalid h]; rfl
variable (h : (s.rc x.a).valid = true)
include h
theorem cbWait_badCount (hw : x.n.val = 0 ∨ (s.rc x.a).lenm1 + 1 < x.n.val) : s.cbWait x q k = .next (s.takeTrap 0x02 0 3) := by
  rw [State.cbWait, cbUse_badCount h hw]; rfl
variable (h1 : 1 ≤ x.n.val) (hw : x.n.val ≤ (s.rc x.a).lenm1 + 1)
  (hu : ∀ i, i < x.n.val → (s.tile ((s.rc x.a).first + (q + i) % ((s.rc x.a).lenm1 + 1))).size ≠ 0)
include h1 hw hu
theorem cbWait_ends :
    s.cbWait x q k = if ∀ i, i < x.n.val → s.tileStart s.cur.core ((s.rc x.a).first + (q + i) % ((s.rc x.a).lenm1 + 1)) = k then
      .next (s.ws x.d (w64 ((s.rc x.a).first + q))) else .next { s with cur := { s.cur with fate := .passed } } := by
  rw [State.cbWait, cbUse_ok h h1 hw fun _ => forall_mem_entries.mpr hu]
  simp only [List.all_eq_true, beq_iff_eq, forall_mem_entries (p := fun e => s.tileStart s.cur.core e = k)]
  split <;> rfl
theorem cbWait_done (hk : ∀ i, i < x.n.val → s.tileStart s.cur.core ((s.rc x.a).first + (q + i) % ((s.rc x.a).lenm1 + 1)) = k) :
    s.cbWait x q k = .next (s.ws x.d (BitVec.ofNat 64 ((s.rc x.a).first + q))) := (cbWait_ends h h1 hw hu).trans (if_pos hk)
theorem cbWait_passes (hk : ∃ i, i < x.n.val ∧ s.tileStart s.cur.core ((s.rc x.a).first + (q + i) % ((s.rc x.a).lenm1 + 1)) ≠ k) :
    s.cbWait x q k = .next { s with cur := { s.cur with fate := .passed } } := by
  obtain ⟨i, hi, hne⟩ := hk
  exact (cbWait_ends h h1 hw hu).trans (if_neg fun hall => hne (hall i hi))
end

/-! ## Advances -/

/-- Entries of the issuing core that become EMPTY. -/
def State.emptied (s : State) (es : List Nat) : State := es.foldl (fun s e => s.setTile s.cur.core e { s.tile e with st := .empty }) s
theorem State.tile_setTile (s : State) (e f : Nat) (x : Tile) : (s.setTile s.cur.core e x).tile f = if f = e then x else s.tile f := by
  rw [State.tile, State.myCore, State.setTile, State.updCore_cur, State.core_updCore]
  exact Tab.getD_put ..
theorem State.th_setTile (s : State) (e : Nat) (x : Tile) : (s.setTile s.cur.core e x).th = s.th := by
  show ((s.updCore s.cur.core _).core s.cur.core).threads.getD _ _ = _
  rw [State.core_updCore]; rfl
theorem State.emptied_spec (es : List Nat) : ∀ s : State, (s.emptied es).cur = s.cur ∧ (s.emptied es).th = s.th ∧
    ∀ f, (s.emptied es).tile f = if f ∈ es then { s.tile f with st := .empty } else s.tile f := by
  induction es with
  | nil => exact fun s => ⟨rfl, rfl, fun f => rfl⟩
  | cons e r ih =>
    intro s
    obtain ⟨hc, ht, hf⟩ := ih (s.setTile s.cur.core e { s.tile e with st := .empty })
    refine ⟨hc, ht.trans (s.th_setTile _ _), fun f => (hf f).trans ?_⟩
    rw [State.tile_setTile]
    by_cases h1 : f = e
    · subst h1; simp
    · simp [h1]
theorem State.tile_wc (s : State) (d : CReg) (v : Cb) (e : Nat) : (s.wc d v).tile e = s.tile e := by
  show ((s.updTh _).core s.cur.core).tiles.getD e .reset = _
  rw [State.core_updTh]; rfl
theorem exec_cbset (x : CSI) (s : State) :
    exec (.cbset x) s = if (s.si x.a).toNat / 256 != 0 || 15 < bits (s.si x.a).toNat 0 4 + bits (s.si x.a).toNat 4 4 then .next (s.takeTrap 0x02 0 1)
      else .next (s.wc x.d ⟨true, 0, 0, bits (s.si x.a).toNat 4 4, bits (s.si x.a).toNat 0 4⟩) := by
  show execCbset x s = _
  rw [execCbset]
  split <;> rename_i h <;> simp only [h] <;> rfl

section
variable {x : CSI} {s : State}
theorem exec_cbadvc (x : CSI) (s : State) :
    exec (.cbadvc x) s = finish (s.cbUse (s.rc x.d) 0 (s.si x.a).toNat (s.rc x.d).q true fun es =>
      if es.all fun e => s.tileStart s.cur.core e == .ready then
        done ((s.emptied es).wc x.d { s.rc x.d with q := ((s.rc x.d).q + (s.si x.a).toNat) % ((s.rc x.d).lenm1 + 1) })
      else badPos s 3) := rfl
theorem exec_cbadvp (x : CSI) (s : State) :
    exec (.cbadvp x) s = finish (s.cbUse (s.rc x.d) 0 (s.si x.a).toNat (s.rc x.d).p false fun _ =>
      done (s.wc x.d { s.rc x.d with p := ((s.rc x.d).p + (s.si x.a).toNat) % ((s.rc x.d).lenm1 + 1) })) := rfl
variable (h : (s.rc x.d).valid = true) (h1 : 1 ≤ (s.si x.a).toNat) (hw : (s.si x.a).toNat ≤ (s.rc x.d).lenm1 + 1)
  (hu : ∀ i, i < (s.si x.a).toNat → (s.tile ((s.rc x.d).first + ((s.rc x.d).q + i) % ((s.rc x.d).lenm1 + 1))).size ≠ 0)
include h h1 hw hu
/-- Entries all READY are advanced over; one that is not fails position 3. -/
theorem exec_cbadvc_ends :
    exec (.cbadvc x) s = if ∀ i, i < (s.si x.a).toNat → s.tileStart s.cur.core ((s.rc x.d).first + ((s.rc x.d).q + i) % ((s.rc x.d).lenm1 + 1)) = .ready then
      .next ((s.emptied ((s.rc x.d).entries (s.rc x.d).q (s.si x.a).toNat)).wc x.d
        { s.rc x.d with q := ((s.rc x.d).q + (s.si x.a).toNat) % ((s.rc x.d).lenm1 + 1) }) else .next (s.takeTrap 0x02 0 3) := by
  rw [exec_cbadvc, cbUse_ok h h1 hw fun _ => forall_mem_entries.mpr hu]
  simp only [List.all_eq_true, beq_iff_eq, forall_mem_entries (p := fun e => s.tileStart s.cur.core e = .ready)]
  split <;> rfl
end

/-- Settles O21: each use of a handle by its checks in order, then what it is for; entries advanced over become EMPTY one after another. -/
theorem circularBuffers : Obligations.CircularBuffers := by
  unfold Obligations.CircularBuffers
  refine ⟨fun x s => ⟨fun hv hb => ?_, fun hv => ?_⟩, fun x s => ⟨fun hc h1 hw => ⟨fun hu => ⟨?_, ?_⟩, fun hu => ⟨?_, ?_⟩⟩, fun hc => ⟨?_, ?_⟩,
    fun hc hw => ⟨?_, ?_⟩⟩, fun x s => ?_⟩
  · rw [exec_cbset, if_neg (by simp [bits]; omega), bits_zero]
    congr 3
    rw [bits]; omega
  · rw [exec_cbset, if_pos (by simp [bits]; omega)]
  · exact fun hk => (exec_cbwaitc x s).trans (cbWait_done hc h1 hw hu hk)
  · exact fun hk => (exec_cbwaitc x s).trans (cbWait_passes hc h1 hw hu hk)
  · exact fun hk => (exec_cbwaitp x s).trans (cbWait_done hc h1 hw hu hk)
  · exact fun hk => (exec_cbwaitp x s).trans (cbWait_passes hc h1 hw hu hk)
  · exact (exec_cbwaitc x s).trans (cbWait_invalid hc)
  · exact (exec_cbwaitp x s).trans (cbWait_invalid hc)
  · exact (exec_cbwaitc x s).trans (cbWait_badCount hc hw)
  · exact (exec_cbwaitp x s).trans (cbWait_badCount hc hw)
  · intro c n
    refine ⟨fun hc h1 hw => ⟨?_, fun hu => ⟨fun hk => ?_, fun hk => ?_⟩⟩, fun hc => ⟨?_, ?_⟩, fun hc hw => ⟨?_, ?_⟩⟩
    · rw [exec_cbadvp, cbUse_ok hc h1 hw (fun k => by cases k)]; rfl
    · obtain ⟨-, ht, hf⟩ := s.emptied_spec (c.entries c.q n)
      refine ⟨_, (exec_cbadvc_ends hc h1 hw hu).trans (if_pos hk), ?_, fun i hi => ?_, fun e he => ?_⟩
      · rw [State.th_wc, rdC_wrC, if_pos rfl]
      · rw [State.tile_wc, hf, if_pos (forall_mem_entries.mp (fun e he => he) i hi)]
      · rw [State.tile_wc, hf, if_neg fun hm => forall_mem_entries.mpr he e hm rfl]
    · obtain ⟨i, hi, hne⟩ := hk
      exact (exec_cbadvc_ends hc h1 hw hu).trans (if_neg fun hall => hne (hall i hi))
    · rw [exec_cbadvc, cbUse_invalid hc]; rfl
    · rw [exec_cbadvp, cbUse_invalid hc]; rfl
    · rw [exec_cbadvc, cbUse_badCount hc hw]; rfl
    · rw [exec_cbadvp, cbUse_badCount hc hw]; rfl

end Sys2Proof.Machine
end

section
/-! SUPPORT. Traps of worker threads and what they leave of other threads; forming and disbanding a gang (07 R138, 06 R112, R115). -/

namespace Sys2Proof.Machine
open Sys2Proof Sys2Proof.Claims

/-! ## What the trap of one worker thread leaves of the others -/

/-- A trap of thread `t` has been taken: partitions and tasks of cores stand, queues of other cores, and other threads that are in no gang. -/
def State.TrapKeeps (s u : State) (t : ThreadId) : Prop :=
  u.cur = s.cur ∧ u.parts = s.parts ∧ (∀ c, (u.core c).task = (s.core c).task) ∧ (∀ c, c ≠ t.core → (u.core c).queue = (s.core c).queue) ∧
    ∀ k, k ≠ t → (s.thr k).gang = none → u.thr k = s.thr k
theorem State.trapKeeps_refl (s : State) (t : ThreadId) : s.TrapKeeps s t := ⟨rfl, rfl, fun _ => rfl, fun _ _ => rfl, fun _ _ _ => rfl⟩
theorem State.TrapKeeps.trans {s u v : State} {t : ThreadId} (h : s.TrapKeeps u t) (k : u.TrapKeeps v t) : s.TrapKeeps v t := by
  obtain ⟨hc, hp, ht, hq, hth⟩ := h
  obtain ⟨kc, kp, kt, kq, kth⟩ := k
  refine ⟨kc.trans hc, kp.trans hp, fun c => (kt c).trans (ht c), fun c hne => (kq c hne).trans (hq c hne), fun w hne hg => ?_⟩
  have hw := hth w hne hg
  exact (kth w hne (hw ▸ hg)).trans hw
/-- An update of one thread leaves all else of every core. -/
theorem State.core_updThr (s : State) (w : ThreadId) (f : Thread → Thread) (c : Nat) :
    (s.updThr w f).core c = { s.core c with threads := ((s.updThr w f).core c).threads } := s.core_setThr w _ c
theorem State.trapKeeps_updThr (s : State) {t w : ThreadId} {f : Thread → Thread} (h : w = t ∨ ∀ x : Thread, x.gang = none → f x = x) :
    s.TrapKeeps (s.updThr w f) t := by
  refine ⟨rfl, rfl, fun c => by rw [State.core_updThr], fun c _ => by rw [State.core_updThr], fun k hk hg => ?_⟩
  by_cases hw : k = w
  · subst hw
    rw [State.thr_updThr]
    exact (h.resolve_left hk) _ hg
  · exact s.thr_updThr_ne f hw
theorem leaveGang_of_none (cycle : Nat) {t : Thread} (h : t.gang = none) : leaveGang cycle t = t := by rw [leaveGang, h]
theorem State.trapKeeps_leaveGangs (t : ThreadId) (cs : List Nat) : ∀ s : State,
    s.TrapKeeps (cs.foldl (fun s c => s.updThr ⟨c, t.slot⟩ (leaveGang s.cycle)) s) t := by
  induction cs with
  | nil => exact fun s => s.trapKeeps_refl t
  | cons c r ih => exact fun s => (s.trapKeeps_updThr (.inr fun _ h => leaveGang_of_none _ h)).trans (ih _)
theorem State.trapKeeps_disbandGang (s : State) (t : ThreadId) : s.TrapKeeps (s.disbandGang t) t := by
  unfold State.disbandGang
  split
  · exact s.trapKeeps_refl t
  · exact (State.trapKeeps_leaveGangs t _ s).trans (State.trapKeeps_updThr _ (.inl rfl))
theorem State.disbandGang_of_none (s : State) {t : ThreadId} (h : (s.thr t).gang = none) : s.disbandGang t = s := by rw [State.disbandGang, h]
theorem State.appendRec_enabled (s : State) (c : Nat) {r : TrapRec} (h : (s.part r.part).scb.en = true) :
    s.appendRec c r = s.updCore c fun k => { k with queue := k.queue ++ [r] } := by rw [State.appendRec, if_pos h]
theorem State.trapKeeps_appendRec (s : State) {t : ThreadId} {r : TrapRec} (hs : r.slot = t.slot) (h7 : t.slot ≠ 7) :
    s.TrapKeeps (s.appendRec t.core r) t := by
  unfold State.appendRec
  split
  · refine ⟨rfl, rfl, fun c => ?_, fun c hc => by rw [State.core_updCore_ne _ _ hc], fun k _ _ => ?_⟩
    · by_cases hc : c = t.core
      · rw [hc, State.core_updCore]
      · rw [State.core_updCore_ne _ _ hc]
    · by_cases hc : k.core = t.core
      · rw [State.thr, hc, State.core_updCore, State.thr, hc]
      · rw [State.thr, State.core_updCore_ne _ _ hc]; rfl
  · rw [hs, if_neg h7]
    simp only
    have hu : s.TrapKeeps (s.updThr t endThr) t := s.trapKeeps_updThr (.inl rfl)
    split
    · exact hu.trans ⟨rfl, rfl, fun _ => rfl, fun _ _ => rfl, fun _ _ _ => rfl⟩
    · exact hu
theorem State.trapKeeps_park (s : State) {t : ThreadId} {r : TrapRec} (hs : r.slot = t.slot) (h7 : t.slot ≠ 7) : s.TrapKeeps (s.park t r) t :=
  ((s.trapKeeps_disbandGang t).trans (State.trapKeeps_updThr _ (.inl rfl))).trans (State.trapKeeps_appendRec _ hs h7)
theorem State.trapKeeps_trapThread (s : State) {t : ThreadId} (h7 : t.slot ≠ 7) (pc : W64) (c : Byte) (a i : W64) (w o : W96) :
    s.TrapKeeps (s.trapThread t pc c a i w o) t := by
  rw [State.trapThread]
  simp only [h7, if_false]
  exact s.trapKeeps_park rfl h7
theorem State.trapKeeps_trapPend (s : State) {t : ThreadId} (h7 : t.slot ≠ 7) (c : Byte) (a i : W64) : s.TrapKeeps (s.trapPend t c a i) t := by
  unfold State.trapPend
  split
  · exact s.trapKeeps_refl t
  · exact (s.trapKeeps_updThr (.inl rfl)).trans (State.trapKeeps_trapThread _ h7 ..)

/-! ## What it does with its own -/

/-- Thread `t` of core `t.core` is parked at `pc` with registers `regs`, and its record is the last of the queue. -/
def State.ParkedWith (s u : State) (t : ThreadId) (regs : Regs) (pc : W64) (cause : Byte) (info : W64) : Prop :=
  (u.thr t).status = .parked ∧ (u.thr t).regs = regs ∧ (u.thr t).pc = pc ∧ (u.thr t).gang = none ∧
    ∃ r : TrapRec, (u.core t.core).queue = (s.core t.core).queue ++ [r] ∧ r.cause = cause ∧ r.info = info ∧ r.pc = pc ∧ r.slot = t.slot
theorem State.thr_updCore_queue (s : State) (c : Nat) (r : TrapRec) (t : ThreadId) :
    (s.updCore c fun k => { k with queue := k.queue ++ [r] }).thr t = s.thr t := by
  by_cases hc : t.core = c
  · subst hc; rw [State.thr, State.core_updCore]; rfl
  · rw [State.thr, State.core_updCore_ne _ _ hc]; rfl
theorem State.parked_park {s : State} {t : ThreadId} {r : TrapRec} (hs : r.slot = t.slot) (hg : (s.thr t).gang = none)
    (he : (s.part r.part).scb.en = true) : s.ParkedWith (s.park t r) t (s.thr t).regs r.pc r.cause r.info := by
  rw [State.park, State.disbandGang_of_none s hg, State.ParkedWith]
  rw [State.appendRec_enabled _ _ (by exact he), State.thr_updCore_queue, State.thr_updThr, State.core_updCore, State.core_updThr]
  exact ⟨rfl, rfl, rfl, rfl, r, rfl, rfl, rfl, rfl, hs⟩
theorem State.parked_trapThread {s : State} {t : ThreadId} (h7 : t.slot ≠ 7) (hg : (s.thr t).gang = none)
    (he : (s.part (s.partOf t.core t.slot)).scb.en = true) (pc : W64) (c : Byte) (a i : W64) (w o : W96) :
    s.ParkedWith (s.trapThread t pc c a i w o) t (s.thr t).regs pc c i := by
  rw [State.trapThread]
  simp only [h7, if_false]
  exact State.parked_park rfl hg he
/-- The partition of a worker thread is that of the task on its core. -/
theorem State.partOf_worker (s : State) (c : Nat) {k : Nat} (h7 : k ≠ 7) : s.partOf c k = ((s.core c).task.map (·.part)).getD 0 := by
  rw [State.partOf]
  simp only [beq_eq_false_iff_ne.mpr h7, Bool.false_eq_true, if_false]
theorem State.TrapKeeps.enabled {s u : State} {t : ThreadId} (h : s.TrapKeeps u t) (c : Nat) {k : Nat} (h7 : k ≠ 7) :
    (u.part (u.partOf c k)).scb.en = (s.part (s.partOf c k)).scb.en := by
  obtain ⟨-, hp, ht, -, -⟩ := h
  rw [State.partOf_worker u c h7, State.partOf_worker s c h7, ht, State.part, State.part, hp]
/-- A waiting worker thread that traps is parked at its instruction with the registers of before it. -/
theorem State.parked_trapPend {s : State} {t : ThreadId} {p : Pend} (h7 : t.slot ≠ 7) (hp : (s.thr t).pend = some p) (hg : (s.thr t).gang = none)
    (he : (s.part (s.partOf t.core t.slot)).scb.en = true) (c : Byte) (a i : W64) :
    s.ParkedWith (s.trapPend t c a i) t p.regs p.ipc c i := by
  have hk : s.TrapKeeps (s.updThr t fun x => { x.dropPend with regs := p.regs, sticky := p.sticky, mode := p.mode }) t := s.trapKeeps_updThr (.inl rfl)
  have hth := s.thr_updThr t fun x => { x.dropPend with regs := p.regs, sticky := p.sticky, mode := p.mode }
  have h := State.parked_trapThread h7 (hth ▸ hg) ((hk.enabled t.core h7).trans he) p.ipc c a i p.word p.other
  rw [State.ParkedWith, State.core_updThr, hth] at h
  simp only [State.trapPend, hp]
  exact h

/-! ## Several waiting threads that trap -/

/-- Waiting threads of one slot trap one after another. -/
def State.trapGangs (s : State) (ts : List ThreadId) (i : W64) : State := ts.foldl (fun s t => s.trapGang t i) s
/-- Each thread of the list is parked with its own record, and a thread outside it that is in no gang stands. -/
theorem State.trapGangs_spec {k : Nat} (h7 : k ≠ 7) (i : W64) (ts : List ThreadId) : ∀ s : State, ts.Nodup → (∀ t ∈ ts, t.slot = k) →
    (s.trapGangs ts i).cur = s.cur ∧ (∀ c, ((s.trapGangs ts i).part ((s.trapGangs ts i).partOf c k)).scb.en = (s.part (s.partOf c k)).scb.en) ∧
      (∀ c, (∀ t ∈ ts, t.core ≠ c) → ((s.trapGangs ts i).core c).queue = (s.core c).queue) ∧
      (∀ t, t ∉ ts → (s.thr t).gang = none → (s.trapGangs ts i).thr t = s.thr t) ∧
      ∀ t ∈ ts, ∀ p, (s.thr t).pend = some p → (s.thr t).gang = none → (s.part (s.partOf t.core k)).scb.en = true →
        s.ParkedWith (s.trapGangs ts i) t p.regs p.ipc 0xA0 i := by
  induction ts with
  | nil => exact fun s _ _ => ⟨rfl, fun _ => rfl, fun _ _ => rfl, fun _ _ _ => rfl, fun _ h => absurd h List.not_mem_nil⟩
  | cons t r ih =>
    intro s hn hk
    obtain ⟨hnt, hnr⟩ := List.nodup_cons.mp hn
    have ht : t.slot = k := hk t List.mem_cons_self
    have h7t : t.slot ≠ 7 := ht ▸ h7
    have hkeep : s.TrapKeeps (s.trapGang t i) t := s.trapKeeps_trapPend h7t 0xA0 0 i
    have hen := fun c => hkeep.enabled c h7
    obtain ⟨kc, -, -, kq, kth⟩ := hkeep
    obtain ⟨hc, he, hq, hth, hp⟩ := ih (s.trapGang t i) hnr fun t h => hk t (List.mem_cons_of_mem _ h)
    have hcore (u : ThreadId) (hu : u ∈ r) : u.core ≠ t.core := fun h => hnt (by
      have : u = t := by
        have := hk u (List.mem_cons_of_mem _ hu)
        cases u; cases t; simp_all
      exact this ▸ hu)
    have hne (u : ThreadId) (hu : u ∈ r) : u ≠ t := fun h => hnt (h ▸ hu)
    refine ⟨hc.trans kc, fun c => (he c).trans (hen c), fun c hcs => ?_, fun u hu hg => ?_, fun u hu p hup hg hue => ?_⟩
    · exact (hq c fun u hu => hcs u (List.mem_cons_of_mem _ hu)).trans (kq c (hcs t List.mem_cons_self).symm)
    · have hut := kth u (fun h => hu (h ▸ List.mem_cons_self)) hg
      exact (hth u (fun h => hu (List.mem_cons_of_mem _ h)) (hut ▸ hg)).trans hut
    · rcases List.mem_cons.mp hu with rfl | hur
      · obtain ⟨h1, h2, h3, h4, h5⟩ := State.parked_trapPend h7t hup hg (ht ▸ hue) 0xA0 0 i
        have hs := hth u hnt h4
        rw [State.ParkedWith, show s.trapGangs (u :: r) i = (s.trapGang u i).trapGangs r i from rfl, hs, hq u.core hcore]
        exact ⟨h1, h2, h3, h4, h5⟩
      · have hut := kth u (hne u hur) hg
        have := hp u hur p (hut ▸ hup) (hut ▸ hg) ((hen u.core).trans hue)
        rwa [State.ParkedWith, kq u.core (hcore u hur)] at this

/-! ## Forming a gang -/

/-- Each of several distinct threads is updated once. -/
theorem State.thr_foldl_updThr {w : Nat → ThreadId} (hw : Function.Injective w) (g : Nat → Thread → Thread) (l : List Nat) : ∀ s : State, l.Nodup →
    (∀ i ∈ l, (l.foldl (fun s i => s.updThr (w i) (g i)) s).thr (w i) = g i (s.thr (w i))) ∧
      ∀ i, i ∉ l → (l.foldl (fun s i => s.updThr (w i) (g i)) s).thr (w i) = s.thr (w i) := by
  induction l with
  | nil => exact fun s _ => ⟨fun _ h => absurd h List.not_mem_nil, fun _ _ => rfl⟩
  | cons j r ih =>
    intro s hn
    obtain ⟨hj, hr⟩ := List.nodup_cons.mp hn
    obtain ⟨hin, hout⟩ := ih (s.updThr (w j) (g j)) hr
    have hne {i : Nat} (h : i ≠ j) : (s.updThr (w j) (g j)).thr (w i) = s.thr (w i) := s.thr_updThr_ne _ fun k => h (hw k)
    refine ⟨fun i hi => ?_, fun i hi => ?_⟩
    · rcases List.mem_cons.mp hi with rfl | hir
      · exact (hout i hj).trans (s.thr_updThr _ _)
      · exact (hin i hir).trans (congrArg (g i) (hne fun h => hj (h ▸ hir)))
    · obtain ⟨h1, h2⟩ := not_or.mp (mt List.mem_cons.mpr hi)
      exact (hout i h2).trans (hne h1)
/-- A member that the gang has formed with. -/
def joined (n j : Nat) (t : Thread) : Thread := { t with pend := none, gang := some ⟨n, j, 0, [], none, [], false, false, none⟩ }
theorem formGang_eq (s : State) (slot n c j : Nat) :
    s.formGang slot n (gangCores c j n) = (List.range n).foldl (fun s i => s.updThr ⟨c - j + i, slot⟩ (joined n i)) s := by
  have hz : (List.range n).zip (gangCores c j n) = (List.range n).map fun i => (i, c - j + i) := by
    simpa only [List.map_id, id_eq, gangCores] using List.zip_map' (f := id) (g := fun i => c - j + i) (l := List.range n)
  rw [State.formGang, hz, List.foldl_map]
  rfl
theorem thr_formGang (s : State) (slot n c j i : Nat) (hi : i < n) :
    (s.formGang slot n (gangCores c j n)).thr ⟨c - j + i, slot⟩ = joined n i (s.thr ⟨c - j + i, slot⟩) := by
  rw [formGang_eq]
  refine (State.thr_foldl_updThr (w := fun i => ⟨c - j + i, slot⟩) (fun a b h => ?_) (joined n) _ s List.nodup_range).1 i (List.mem_range.mpr hi)
  simp only [ThreadId.mk.injEq, and_true] at h
  omega

/-! ## The branches of `gang` -/

/-- Threads of one slot on several cores. -/
def slotThreads (slot : Nat) (l : List Nat) : List ThreadId := l.map fun c => ⟨c, slot⟩
theorem mem_slotThreads {slot : Nat} {l : List Nat} {t : ThreadId} : t ∈ slotThreads slot l ↔ t.core ∈ l ∧ t.slot = slot := by
  rw [slotThreads, List.mem_map]
  exact ⟨fun ⟨c, hc, h⟩ => h ▸ ⟨hc, rfl⟩, fun ⟨hc, hs⟩ => ⟨t.core, hc, hs ▸ rfl⟩⟩
/-- Thread `t` waits for a gang of `m`, another size than `n`, and its group meets that of the issuing thread. -/
def State.meetsGang (s : State) (n : Nat) (t : ThreadId) (m : Nat) : Bool :=
  m != n && ((gangCores s.cur.core ((s.core s.cur.core).bidx % n) n).contains t.core ||
    (gangCores t.core ((s.core t.core).bidx % m) m).contains s.cur.core)
/-- The first thread of the block whose size clashes. -/
def State.gangClash (s : State) (n : Nat) : Option ThreadId :=
  (slotThreads s.cur.slot (s.blockOf s.cur.core)).find? fun t => ((gangWait (s.thr t)).map (s.meetsGang n t)).getD false
theorem State.meetsGang_iff (s : State) (n : Nat) (t : ThreadId) (m : Nat) :
    s.meetsGang n t m = true ↔ m ≠ n ∧ (t.core ∈ gangCores s.cur.core ((s.core s.cur.core).bidx % n) n ∨
      s.cur.core ∈ gangCores t.core ((s.core t.core).bidx % m) m) := by
  rw [State.meetsGang, Bool.and_eq_true, bne_iff_ne, Bool.or_eq_true, List.contains_iff_mem, List.contains_iff_mem]
theorem State.gangClash_some {s : State} {n : Nat} {t : ThreadId} (h : s.gangClash n = some t) :
    t.core ∈ s.blockOf s.cur.core ∧ t.slot = s.cur.slot ∧ ∃ m, gangWait (s.thr t) = some m ∧ s.meetsGang n t m = true := by
  have hp := List.find?_some h
  obtain ⟨hc, hs⟩ := mem_slotThreads.mp (List.mem_of_find?_eq_some h)
  refine ⟨hc, hs, ?_⟩
  cases hw : gangWait (s.thr t) with
  | none => rw [hw] at hp; exact absurd hp Bool.false_ne_true
  | some m => rw [hw] at hp; exact ⟨m, rfl, hp⟩
theorem State.gangClash_none {s : State} {n : Nat}
    (h : ∀ o ∈ s.blockOf s.cur.core, gangWait (s.thr ⟨o, s.cur.slot⟩) = none ∨ gangWait (s.thr ⟨o, s.cur.slot⟩) = some n) : s.gangClash n = none := by
  refine List.find?_eq_none.mpr fun t ht hp => ?_
  obtain ⟨hc, hs⟩ := mem_slotThreads.mp ht
  have hw := h t.core hc
  rw [← hs] at hw
  rcases hw with hw | hw
  · rw [hw] at hp; exact Bool.false_ne_true hp
  · rw [hw] at hp; exact ((s.meetsGang_iff n t n).mp hp).1 rfl
theorem State.gangClash_isSome {s : State} {n o m : Nat} (ho : o ∈ s.blockOf s.cur.core) (hw : gangWait (s.thr ⟨o, s.cur.slot⟩) = some m)
    (h : s.meetsGang n ⟨o, s.cur.slot⟩ m = true) : ∃ t, s.gangClash n = some t := by
  refine Option.isSome_iff_exists.mp (List.find?_isSome.mpr ⟨⟨o, s.cur.slot⟩, mem_slotThreads.mpr ⟨ho, rfl⟩, ?_⟩)
  rw [hw]
  exact h
/-- The waiting threads of the issuing thread's group and of the group of thread `o` that clashes with it. -/
def State.clashing (s : State) (n : Nat) (o : ThreadId) : List ThreadId :=
  (slotThreads s.cur.slot (gangCores s.cur.core ((s.core s.cur.core).bidx % n) n) ++
      slotThreads s.cur.slot (gangCores o.core ((s.core o.core).bidx % (gangWait (s.thr o)).getD n) ((gangWait (s.thr o)).getD n))).eraseDups.filter
    fun t => t != s.me && (gangWait (s.thr t)).isSome
theorem State.nodup_clashing (s : State) (n : Nat) (o : ThreadId) : (s.clashing n o).Nodup := (nodup_eraseDups _).filter _
theorem State.mem_clashing {s : State} {n : Nat} {o t : ThreadId} : t ∈ s.clashing n o ↔
    (t.core ∈ gangCores s.cur.core ((s.core s.cur.core).bidx % n) n ∨
        t.core ∈ gangCores o.core ((s.core o.core).bidx % (gangWait (s.thr o)).getD n) ((gangWait (s.thr o)).getD n)) ∧
      t.slot = s.cur.slot ∧ t ≠ s.me ∧ (gangWait (s.thr t)).isSome = true := by
  rw [State.clashing, List.mem_filter, List.mem_eraseDups, List.mem_append, mem_slotThreads, mem_slotThreads, ← or_and_right, and_assoc,
    Bool.and_eq_true, bne_iff_ne]

theorem State.gangFew_iff (s : State) (l : Launch) (n : Nat) :
    (decide (l.kernel.block < s.myCore.bidx / n * n + n) || decide (l.kernel.gang < n)) = true ↔
      l.kernel.block < (s.core s.cur.core).bidx / n * n + n ∨ l.kernel.gang < n := by
  rw [Bool.or_eq_true, decide_eq_true_eq, decide_eq_true_eq]
  rfl
theorem State.othersWait_iff (s : State) (n : Nat) (cs : List Nat) :
    (((slotThreads s.cur.slot cs).filter (· != s.me)).all fun t => gangWait (s.thr t) == some n) = true ↔
      ∀ o ∈ cs, o ≠ s.cur.core → gangWait (s.thr ⟨o, s.cur.slot⟩) = some n := by
  rw [List.all_eq_true]
  refine ⟨fun h o ho hne => ?_, fun h t ht => ?_⟩
  · refine beq_iff_eq.mp (h ⟨o, s.cur.slot⟩ (List.mem_filter.mpr ⟨mem_slotThreads.mpr ⟨ho, rfl⟩, bne_iff_ne.mpr fun he => hne ?_⟩))
    exact congrArg ThreadId.core he
  · obtain ⟨hm, hne⟩ := List.mem_filter.mp ht
    obtain ⟨hc, hs⟩ := mem_slotThreads.mp hm
    have := h t.core hc fun he => bne_iff_ne.mp hne (by cases t; cases he; cases hs; rfl)
    rw [← hs] at this
    exact beq_iff_eq.mpr this

section
variable {s : State} {l : Launch} (hl : s.myLaunch = some l) (x : GangA)
include hl
theorem exec_gang_few (h : l.kernel.block < (s.core s.cur.core).bidx / gsizeN x.size * gsizeN x.size + gsizeN x.size ∨ l.kernel.gang < gsizeN x.size) :
    exec (.gang x) s = .next (s.takeTrap 0xA0 0 1) := by
  show execGang x s = _
  simp only [execGang, hl, Option.map_some, Option.getD_some]
  rw [if_pos ((s.gangFew_iff l _).mpr h)]
  rfl
variable (hb : (s.core s.cur.core).bidx / gsizeN x.size * gsizeN x.size + gsizeN x.size ≤ l.kernel.block) (hn : gsizeN x.size ≤ l.kernel.gang)
include hb hn
theorem exec_gang_ganged (hg : s.th.gang.isSome = true) : exec (.gang x) s = .next (s.takeTrap 0xA0 0 2) := by
  show execGang x s = _
  simp only [execGang, hl, Option.map_some, Option.getD_some]
  rw [if_neg (mt (s.gangFew_iff l _).mp (not_or.mpr ⟨not_lt.mpr hb, not_lt.mpr hn⟩)), if_pos hg]
  rfl
variable (hg : s.th.gang = none)
include hg
/-- `gang` where the block and the kernel allow the size and the thread is in no gang. -/
theorem exec_gang_open : exec (.gang x) s = (s.gangClash (gsizeN x.size)).elim
    (.next (if ∀ o ∈ gangCores s.cur.core ((s.core s.cur.core).bidx % gsizeN x.size) (gsizeN x.size), o ≠ s.cur.core →
        gangWait (s.thr ⟨o, s.cur.slot⟩) = some (gsizeN x.size)
      then s.formGang s.cur.slot (gsizeN x.size) (gangCores s.cur.core ((s.core s.cur.core).bidx % gsizeN x.size) (gsizeN x.size))
      else s.wait (.gang (gsizeN x.size))))
    fun o => .next ((s.trapGangs (s.clashing (gsizeN x.size) o) 4).takeTrap 0xA0 0 4) := by
  show execGang x s = _
  simp only [execGang, hl, Option.map_some, Option.getD_some]
  rw [if_neg (mt (s.gangFew_iff l _).mp (not_or.mpr ⟨not_lt.mpr hb, not_lt.mpr hn⟩)), if_neg (by rw [hg]; exact Bool.false_ne_true)]
  split
  next o ho =>
    rw [show s.gangClash _ = some o from ho]
    rfl
  next hc =>
    rw [show s.gangClash _ = none from hc]
    rw [Option.elim_none]
    split
    next h =>
      rw [if_pos (by exact (s.othersWait_iff _ _).mp h)]
      rfl
    next h =>
      rw [if_neg (by exact mt (s.othersWait_iff _ _).mpr h)]
      rfl
end

/-! ## Threads that trap together -/

theorem gangWait_pend {t : Thread} {n : Nat} (h : gangWait t = some n) : ∃ p, t.pend = some p := by
  cases hp : t.pend with
  | none => rw [gangWait, hp] at h; exact absurd h (by simp)
  | some p => exact ⟨p, rfl⟩
theorem gangWait_of_isSome {t : Thread} (h : (gangWait t).isSome = true) : ∃ p, t.pend = some p :=
  let ⟨_, hn⟩ := Option.isSome_iff_exists.mp h
  gangWait_pend hn
/-- The trap of the issuing worker thread, which is in no gang. -/
theorem State.parked_takeTrap {s : State} (h7 : s.cur.slot ≠ 7) (hg : s.th.gang = none) (he : (s.part s.myPart).scb.en = true) (c : Byte) (a i : W64) :
    s.ParkedWith (s.takeTrap c a i) s.me s.th.regs s.cur.ipc c i :=
  State.parked_trapThread (t := s.me) h7 hg he s.cur.ipc c a i s.cur.word s.cur.other
theorem State.me_of_cur {s u : State} (h : u.cur = s.cur) : u.me = s.me := by rw [State.me, h, State.me]
theorem State.me_takeTrap {s : State} (h7 : s.cur.slot ≠ 7) (c : Byte) (a i : W64) : (s.takeTrap c a i).me = s.me :=
  (State.me_of_cur (s.trapKeeps_trapThread (t := s.me) h7 s.cur.ipc c a i s.cur.word s.cur.other).1 :
    (s.trapThread s.me s.cur.ipc c a i s.cur.word s.cur.other).me = s.me)
/-- Where sizes clash, the issuing thread and every waiting thread of either group are parked with their records. -/
theorem State.parked_clash {s : State} (h7 : s.cur.slot ≠ 7) (hg : s.th.gang = none) (he : (s.part s.myPart).scb.en = true) (n : Nat) (o : ThreadId) :
    (((s.trapGangs (s.clashing n o) 4).takeTrap 0xA0 0 4).th).status = .parked ∧
      ∀ k, ⟨k, s.cur.slot⟩ ∈ s.clashing n o → k ≠ s.cur.core → (s.thr ⟨k, s.cur.slot⟩).gang = none → (s.core k).task = s.myCore.task →
        ∃ p, (s.thr ⟨k, s.cur.slot⟩).pend = some p ∧
          s.ParkedWith ((s.trapGangs (s.clashing n o) 4).takeTrap 0xA0 0 4) ⟨k, s.cur.slot⟩ p.regs p.ipc 0xA0 4 := by
  obtain ⟨hc, hen, hq, hth, hp⟩ := State.trapGangs_spec h7 4 (s.clashing n o) s (s.nodup_clashing n o) fun t ht => (State.mem_clashing.mp ht).2.1
  generalize hu : s.trapGangs (s.clashing n o) 4 = u at hc hen hq hth hp ⊢
  have hme : u.me = s.me := State.me_of_cur hc
  have h7u : u.cur.slot ≠ 7 := by rwa [hc]
  have hthu : u.th = s.th := by
    rw [State.th, hme]
    exact hth s.me (fun h => (State.mem_clashing.mp h).2.2.1 rfl) hg
  have heu : (u.part u.myPart).scb.en = true := by
    rw [State.myPart, hc]
    exact (hen s.cur.core).trans he
  refine ⟨?_, fun k hk hne hkg hkt => ?_⟩
  · rw [State.th, State.me_takeTrap h7u]
    exact (State.parked_takeTrap h7u (by rwa [hthu]) heu 0xA0 0 4).1
  · obtain ⟨-, -, -, hw⟩ := State.mem_clashing.mp hk
    obtain ⟨p, hpe⟩ := gangWait_of_isSome hw
    have hke : (s.part (s.partOf k s.cur.slot)).scb.en = true := by
      rw [State.partOf_worker s k h7, hkt]
      rwa [State.myPart, State.partOf_worker s _ h7] at he
    obtain ⟨h1, h2, h3, h4, h5⟩ := hp _ hk p hpe hkg hke
    refine ⟨p, hpe, ?_⟩
    have hkeep := State.trapKeeps_trapThread u (t := u.me) h7u u.cur.ipc 0xA0 0 4 u.cur.word u.cur.other
    obtain ⟨-, -, -, hqt, hkt⟩ := hkeep
    have hk' := hkt ⟨k, s.cur.slot⟩ (fun h => hne (congrArg ThreadId.core (h.trans hme))) h4
    have hq' := hqt k (fun h => hne (h.trans (congrArg ThreadId.core hme)))
    show s.ParkedWith (u.trapThread u.me u.cur.ipc 0xA0 0 4 u.cur.word u.cur.other) _ _ _ _ _
    rw [State.ParkedWith, hk', hq']
    exact ⟨h1, h2, h3, h4, h5⟩

/-! ## A thread that waits for its gang -/

theorem State.pollThread_gang {s : State} {p : Pend} {n : Nat} (hp : s.th.pend = some p) (hs : p.stage = .gang n) : s.pollThread = s.pollGang n := by
  rw [State.pollThread, hp]
  simp only [hs]
  rfl
theorem State.lost_iff (s : State) (cs : List Nat) (slot : Nat) :
    (cs.any fun c => (s.thr ⟨c, slot⟩).status != .running || (s.thr ⟨c, slot⟩).gang.isSome) = true ↔
      ∃ k ∈ cs, (s.thr ⟨k, slot⟩).status ≠ .running ∨ (s.thr ⟨k, slot⟩).gang.isSome = true := by
  simp only [List.any_eq_true, Bool.or_eq_true, bne_iff_ne]

/-- Settles O18: the branches of `gang` by the size the block and the kernel allow, then by a thread whose size clashes; the threads of
both groups trap one after another, and none of these traps touches another that waits. -/
theorem gangFormation : Obligations.GangFormation := by
  unfold Obligations.GangFormation
  refine ⟨fun x s l hl => ?_, fun x s l o m hl => ?_, fun s p n hp hs h7 => ?_, fun _ _ => rfl⟩
  · intro n c b slot
    refine ⟨exec_gang_few hl x, exec_gang_ganged hl x, fun hb hn hg hall => ⟨fun h => ?_, fun h => ⟨s.formGang slot n (gangCores c (b % n) n), ?_, fun j hj => ?_⟩⟩⟩
    · obtain ⟨o, ho, hne, hw⟩ := h
      rw [exec_gang_open hl x hb hn hg, State.gangClash_none hall, Option.elim_none, if_neg fun h => hw (h o ho hne)]
    · rw [exec_gang_open hl x hb hn hg, State.gangClash_none hall, Option.elim_none, if_pos h]
    · rw [thr_formGang s slot n c (b % n) j hj]
      exact ⟨rfl, rfl⟩
  · intro n c b hb hn hg ho hw hm hmeet
    obtain ⟨t, ht⟩ := State.gangClash_isSome ho hw ((s.meetsGang_iff n _ m).mpr ⟨hm, hmeet⟩)
    have hx : exec (.gang x) s = .next ((s.trapGangs (s.clashing n t) 4).takeTrap 0xA0 0 4) := by
      rw [exec_gang_open hl x hb hn hg, ht, Option.elim_some]
    refine ⟨⟨_, hx⟩, fun h7 he => ?_⟩
    obtain ⟨hto, hts, m', hw', hmm⟩ := State.gangClash_some ht
    obtain ⟨hpark, hrest⟩ := State.parked_clash (Nat.ne_of_lt h7) hg he n t
    have htt : t = ⟨t.core, s.cur.slot⟩ := by rw [← hts]
    refine ⟨_, t.core, m', hx, hpark, hto, htt ▸ hw', ((s.meetsGang_iff n t m').mp hmm).1, fun k hk hne hkw hkg hkt => ?_⟩
    have hmem : ⟨k, s.cur.slot⟩ ∈ s.clashing n t :=
      State.mem_clashing.mpr ⟨by rw [hw']; exact hk, rfl, fun h => hne (congrArg ThreadId.core h), hkw⟩
    obtain ⟨p, hp, h1, h2, h3, -, r, hq, hrc, hri, hrp, hrs⟩ := hrest k hmem hne hkg hkt
    exact ⟨p, r, hp, h1, h2, h3, hq, hrc, hri, hrp, hrs⟩
  · intro cs gone
    rw [State.pollThread_gang hp hs]
    refine ⟨fun h => ?_, fun h he hg => ?_⟩
    · exact if_neg (mt (s.lost_iff cs s.cur.slot).mp fun ⟨k, hk, hl⟩ => h k hk hl)
    · obtain ⟨h1, h2, h3, -, r, hq, hrc, hri, hrp, -⟩ := State.parked_trapPend (s := s) (t := s.me) (Nat.ne_of_lt h7) hp hg he 0xA0 0 8
      have hcur := (s.trapKeeps_trapPend (t := s.me) (Nat.ne_of_lt h7) 0xA0 0 8).1
      refine ⟨s.trapPend s.me 0xA0 0 8, r, if_pos ((s.lost_iff cs s.cur.slot).mpr h), ?_⟩
      rw [State.th, State.myCore, State.me_of_cur hcur, hcur]
      exact ⟨h1, h2, h3, hq, hrc, hri, hrp⟩

end Sys2Proof.Machine
end

section
/-! SUPPORT. The work queue of a task: its grids, what it hands out, and the two instructions on it (07 R139, R140, 06 R117, R118, 03 R61). -/

namespace Sys2Proof.Machine
open Sys2Proof Sys2Proof.Claims

/-! ## Lists -/

/-- The first index at which a search over a range finds something. -/
theorem findSome?_range {β : Type} {f : Nat → Option β} {k : Nat} {b : β} (hn : ∀ i, i < k → f i = none) (h : f k = some b) (m : Nat) :
    k < m → (List.range m).findSome? f = some b := by
  induction m with
  | zero => exact fun hk => absurd hk (Nat.not_lt_zero k)
  | succ m ih =>
    intro hk
    rw [List.range_succ, List.findSome?_append]
    rcases Nat.lt_succ_iff_lt_or_eq.mp hk with hlt | rfl
    · rw [ih hlt, Option.some_or]
    · rw [List.findSome?_eq_none_iff.mpr fun i hi => hn i (List.mem_range.mp hi), Option.none_or, List.findSome?_cons, h]

/-! ## Grids with a record -/

/-- Rows of segment `i` of the bounds `bs`. -/
def segRows (bs : List Nat) (i : Nat) : Nat := bs.getD (i + 1) 0 - bs.getD i 0
/-- Row sub-tiles of the first `n` segments. -/
def segTiles (h : Nat) (bs : List Nat) (n : Nat) : Nat := ((List.range n).map fun i => (segRows bs i + h - 1) / h).sum
theorem segTiles_cons (h a b : Nat) (r : List Nat) (n : Nat) :
    segTiles h (a :: b :: r) (n + 1) = (b - a + h - 1) / h + segTiles h (b :: r) n := by
  rw [segTiles, List.range_succ_eq_map, List.map_cons, List.sum_cons, List.map_map]
  rfl
/-- The pairs of neighbouring bounds. -/
theorem zip_bounds_cons (a b : Nat) (r : List Nat) : (a :: b :: r).zip ((a :: b :: r).drop 1) = (a, b) :: (b :: r).zip ((b :: r).drop 1) := rfl
theorem sumNat_segments {h : Nat} (hh : 1 ≤ h) (nx : Nat) : ∀ bs : List Nat,
    sumNat ((bs.zip (bs.drop 1)).map fun e => ceilDiv (e.2 - e.1) h * nx) = nx * segTiles h bs (bs.length - 1)
  | [] => (Nat.mul_zero nx).symm
  | [_] => (Nat.mul_zero nx).symm
  | a :: b :: r => by
    rw [zip_bounds_cons, List.map_cons, sumNat, sumNat_segments hh nx (b :: r), ceilDiv_of_pos _ hh]
    simp only [List.length_cons, Nat.add_sub_cancel]
    rw [segTiles_cons, Nat.mul_add, Nat.mul_comm nx ((b - a + h - 1) / h)]
/-- Row `y`, column `c` of segment `g` is sub-tile `nx * (rows before it) + c`. -/
theorem segTile_eq {h nx c y : Nat} (hh : 1 ≤ h) (hc : c < nx) : ∀ (bs : List Nat) (g : Nat), g + 1 < bs.length → y < (segRows bs g + h - 1) / h →
    WorkQueue.segTile h nx (bs.zip (bs.drop 1)) (nx * (segTiles h bs g + y) + c) = some (bs.getD g 0 + h * y, Nat.min h (segRows bs g - h * y), c)
  | [], _, hg, _ => absurd hg (Nat.not_lt_zero _)
  | [_], _, hg, _ => absurd hg (by simp)
  | a :: b :: r, 0, _, hy => by
    have hlt : nx * y + c < (b - a + h - 1) / h * nx :=
      calc nx * y + c < nx * (y + 1) := by rw [Nat.mul_succ]; exact Nat.add_lt_add_left hc _
        _ ≤ _ := by rw [Nat.mul_comm]; exact Nat.mul_le_mul_right nx hy
    rw [zip_bounds_cons, WorkQueue.segTile, ceilDiv_of_pos _ hh, show segTiles h (a :: b :: r) 0 = 0 from rfl, Nat.zero_add]
    rw [if_pos hlt, Nat.mul_add_div (by omega), Nat.div_eq_of_lt hc, Nat.mul_add_mod, Nat.mod_eq_of_lt hc]
    rfl
  | a :: b :: r, g + 1, hg, hy => by
    have hj : nx * (segTiles h (a :: b :: r) (g + 1) + y) + c = (b - a + h - 1) / h * nx + (nx * (segTiles h (b :: r) g + y) + c) := by
      rw [segTiles_cons, Nat.add_assoc, Nat.mul_add, Nat.mul_comm nx ((b - a + h - 1) / h), Nat.add_assoc]
    rw [zip_bounds_cons, WorkQueue.segTile, ceilDiv_of_pos _ hh, hj]
    rw [if_neg (by omega), Nat.add_sub_cancel_left]
    exact segTile_eq hh hc (b :: r) g (by simpa using hg) hy

/-! ## What a queue hands out -/

/-- Nothing is left of a queue. -/
def WorkQueue.dry (q : WorkQueue) : Prop := q.set = false ∨ q.total ≤ q.next + q.stolen
theorem WorkQueue.not_left {q : WorkQueue} (h : q.dry) : (q.set && decide (q.next + q.stolen < q.total)) = false := by
  rcases h with h | h
  · rw [h, Bool.false_and]
  · rw [decide_eq_false (Nat.not_lt.mpr h), Bool.and_false]
theorem WorkQueue.takeNext_of_dry {q : WorkQueue} (h : q.dry) : q.takeNext = none := by
  rw [WorkQueue.takeNext, WorkQueue.not_left h]
  rfl
theorem WorkQueue.takeLast_of_dry {q : WorkQueue} (h : q.dry) : q.takeLast = none := by
  rw [WorkQueue.takeLast, WorkQueue.not_left h]
  rfl
theorem WorkQueue.tile_grid {h nx ny : Nat} (n st m : Nat) (hj : m < ny * nx) :
    (⟨true, h, nx, ny, none, n, st⟩ : WorkQueue).tile m = some (h * (m / nx), h, m % nx) := if_pos hj
theorem WorkQueue.takeNext_of_tile {q : WorkQueue} {t : Nat × Nat × Nat} (hs : q.set = true) (hl : q.next + q.stolen < q.total) (ht : q.tile q.next = some t) :
    q.takeNext = some (t, { q with next := q.next + 1 }) := by
  rw [WorkQueue.takeNext, hs, decide_eq_true hl, ht]
  rfl
theorem WorkQueue.takeLast_of_tile {q : WorkQueue} {t : Nat × Nat × Nat} (hs : q.set = true) (hl : q.next + q.stolen < q.total)
    (ht : q.tile (q.total - 1 - q.stolen) = some t) : q.takeLast = some (t, { q with stolen := q.stolen + 1 }) := by
  rw [WorkQueue.takeLast, hs, decide_eq_true hl, ht]
  rfl

/-! ## `ftileset` -/

/-- The fields of A: NY below, H above, and nothing above H. -/
theorem ftileset_fields (a : W64) : bits a.toNat 0 32 = a.toNat % 2 ^ 32 ∧
    (a.toNat / 2 ^ 32 < 65536 → bits a.toNat 32 16 = a.toNat / 2 ^ 32 ∧ bits a.toNat 48 16 = 0) ∧
    (65536 ≤ a.toNat / 2 ^ 32 → bits a.toNat 48 16 ≠ 0) := by
  have := a.isLt
  simp only [bits]
  omega
section
variable {x : ABC} {s : State}
theorem ftileset_height (h : (s.rs x.a).toNat / 2 ^ 32 = 0 ∨ 65536 ≤ (s.rs x.a).toNat / 2 ^ 32) :
    exec (.ftileset x) s = .next (s.takeTrap 0x02 0 1) := by
  obtain ⟨-, hlo, hhi⟩ := ftileset_fields (s.rs x.a)
  show execFtileset x s = _
  rw [execFtileset]
  simp only
  rw [if_pos ?_]
  · rfl
  · rcases h with h | h
    · rw [(hlo (by omega)).1, h]; simp
    · simp [hhi h]
variable {t : Task} (h1 : 1 ≤ (s.rs x.a).toNat / 2 ^ 32) (h2 : (s.rs x.a).toNat / 2 ^ 32 < 65536)
include h1 h2
/-- `ftileset` without a record. -/
theorem ftileset_plain (ht : s.myTask = some t) (hc : s.rs x.c = 0) : exec (.ftileset x) s = finish (
    if 2 ^ 31 < (s.rs x.a).toNat / 2 ^ 32 * ((s.rs x.a).toNat % 2 ^ 32) then badPos s 1
    else if (s.rs x.b).toNat = 0 ∨ 65535 < (s.rs x.b).toNat then badPos s 2
    else done ((s.updTask t.id fun u =>
      { u with wq := ⟨true, (s.rs x.a).toNat / 2 ^ 32, (s.rs x.b).toNat, (s.rs x.a).toNat % 2 ^ 32, none, 0, 0⟩ }).wait (.data .none))) := by
  obtain ⟨hny, hlo, -⟩ := ftileset_fields (s.rs x.a)
  obtain ⟨hh, hz⟩ := hlo h2
  show execFtileset x s = _
  simp only [execFtileset, hny, hh, hz, hc, ht, if_true, bne_self_eq_false, Bool.false_or, decide_eq_false (Nat.ne_of_gt h1), decide_eq_true_eq,
    Bool.or_eq_true, show ((0 : W64).toNat % 64 != 0) = false from rfl, show (bits (0 : W64).toNat 52 12 != 0) = false from rfl, Bool.or_self,
    Bool.false_eq_true, if_false]
/-- `ftileset` with a record, its other registers in their limits. -/
theorem ftileset_record (hny : (s.rs x.a).toNat % 2 ^ 32 = 0) (hb1 : 1 ≤ (s.rs x.b).toNat) (hb2 : (s.rs x.b).toNat < 65536) (hc : s.rs x.c ≠ 0)
    (hc1 : (s.rs x.c).toNat < 2 ^ 52) (hc2 : (s.rs x.c).toNat % 64 = 0) {hd : List Byte} {bs : List Nat} {m : Bool} {s' : State}
    (hr : s.readRecord (s.rs x.c) = .ok (hd, bs, m) s') (ht : s'.myTask = some t) : exec (.ftileset x) s = finish (
    if recordOk hd bs = true ∧ field hd 4 4 ≤ 2 ^ 31 then
      done ((s'.updTask t.id fun u => { u with wq := ⟨true, (s.rs x.a).toNat / 2 ^ 32, (s.rs x.b).toNat, 0, some bs, 0, 0⟩ }).wait (.data .none))
    else fail s' 0x31 0) := by
  obtain ⟨hny', hlo, -⟩ := ftileset_fields (s.rs x.a)
  obtain ⟨hh, hz⟩ := hlo h2
  have hb : ¬ 65535 < (s.rs x.b).toNat := by omega
  show execFtileset x s = _
  simp only [execFtileset, hny', hny, hh, hz, hc, hr, ht, Res.andThen, bne_self_eq_false, decide_eq_false (Nat.ne_of_gt h1),
    decide_eq_false (Nat.ne_of_gt hb1), decide_eq_false hb, decide_eq_true_eq, Bool.and_eq_true, (bits_hi_eq_zero _).mpr hc1, hc2, Bool.or_self,
    Bool.false_eq_true, if_false]
end

/-! ## `ftile` -/

theorem victims_findSome? {β : Type} (i n : Nat) (f : Nat → Option β) : (victims i n).findSome? f = (List.range (n - 1)).findSome? fun k => f ((i + 1 + k) % n) :=
  List.findSome?_map
/-- The task `k` places after task `i` in a launch of `n`. -/
def nthTask (i : TaskId) (n k : Nat) : TaskId := { i with idx := (i.idx + k) % n }
theorem nthTask_ne (i : TaskId) {n k : Nat} (h1 : 1 ≤ k) (hk : k < n) : nthTask i n k ≠ i := by
  intro h
  have h := congrArg TaskId.idx h
  simp only [nthTask] at h
  have hi : i.idx < n := h ▸ Nat.mod_lt _ (by omega)
  rcases Nat.lt_or_ge (i.idx + k) n with hlt | hge
  · rw [Nat.mod_eq_of_lt hlt] at h
    omega
  · rw [Nat.mod_eq_sub_mod hge, Nat.mod_eq_of_lt (by omega)] at h
    omega
theorem State.task?_updTask_ne (s : State) {i j : TaskId} (f : Task → Task) (hf : ∀ x, (f x).id = x.id) (h : j ≠ i) :
    (s.updTask i f).task? j = s.task? j := by
  have hm := s.task?_map (fun x => if x.id = i then f x else x) (fun x => by split <;> simp [hf]) j
  refine hm.trans ?_
  cases hx : s.task? j with
  | none => rfl
  | some x => rw [Option.map_some, if_neg fun he => h ((State.id_of_task? hx).symm.trans he)]
theorem State.task?_of_tasks {s u : State} (h : u.tasks = s.tasks) (i : TaskId) : u.task? i = s.task? i := by rw [State.task?, h, State.task?]
/-- The task takes a sub-tile of its own, or none: the thread steals from no task. -/
def State.ownTile (s : State) (t : Task) : State :=
  s.updTask t.id fun t => { t with stealing := t.stealing.filter (·.1 != (s.myCore.bidx, s.cur.slot)) }
/-- `ftile` gives `v`, after which the tasks are those of `u`. -/
def State.Gives (s : State) (x : DOnly) (v : W64) (u : State) : Prop :=
  ∃ w : State, (exec (.ftile x) s = .next w ∧ w.stageOf s.me = some (.data { Result.none with s := [(x.d, v)], owned := some v })) ∧ w.tasks = u.tasks

section
variable {x : DOnly} {s : State} {t : Task}
theorem exec_ftile_due {v : W64} (ht : s.myTask = some t) (hd : s.th.tileDue = some v) :
    exec (.ftile x) s = .next ((s.updTh fun t => { t with tileDue := none }).wait (.data { Result.none with s := [(x.d, v)], owned := some v })) := by
  show execFtile x s = _
  rw [execFtile, ht]
  simp only [hd]
  rfl
/-- What `takeTile` answers is what `ftile` gives. -/
theorem gives_of_takeTile {v : W64} {u : State} (ht : s.myTask = some t) (hd : s.th.tileDue = none) (h : s.takeTile t = (v, u)) (hc : u.cur = s.cur) :
    s.Gives x v u := by
  refine ⟨u.wait (.data { Result.none with s := [(x.d, v)], owned := some v }), ⟨?_, ?_⟩, u.wait_tasks _⟩
  · show execFtile x s = _
    rw [execFtile, ht]
    simp only [hd, h]
    rfl
  · rw [← State.me_of_cur hc]
    exact u.stageOf_wait _
theorem takeTile_own {y : Nat × Nat × Nat} {q : WorkQueue} (hs : t.wq.set = true) (h : t.wq.takeNext = some (y, q)) :
    s.takeTile t = (tileWord y, (s.ownTile t).updTask t.id fun t => { t with wq := q }) := by
  rw [State.takeTile, hs, h]
  rfl
theorem takeTile_unset (hs : t.wq.set = false) : s.takeTile t = (BitVec.allOnes 64, s.ownTile t) := by
  rw [State.takeTile, hs]
  rfl
theorem takeTile_dry {l : Launch} (hl : s.launchOf t = some l) (hr : l.repro = false) (hd : t.wq.dry) :
    s.takeTile t = (BitVec.allOnes 64, s.ownTile t) := by
  cases hs : t.wq.set with
  | false => exact takeTile_unset hs
  | true =>
    rw [State.takeTile, hs, WorkQueue.takeNext_of_dry hd, hl]
    simp only [hr]
    rfl
/-- What the task `k` places on can give: the last sub-tile not handed out, while its PHASE is that of the task. -/
def State.victimTile (s : State) (t : Task) (v : Nat) : Option (Nat × (Nat × Nat × Nat) × WorkQueue) :=
  (s.task? { t.id with idx := v }).bind fun w => if w.phase = t.phase then w.wq.takeLast.map fun r => (v, r) else none
variable {l : Launch} (hl : s.launchOf t = some l) (hr : l.repro = true) (hs : t.wq.set = true) (hd : t.wq.dry)
include hl hr hs hd
theorem takeTile_none (hv : ∀ k, 1 ≤ k → k < l.tasks → s.victimTile t (nthTask t.id l.tasks k).idx = none) :
    s.takeTile t = (BitVec.allOnes 64, s.ownTile t) := by
  have hf : (victims t.id.idx l.tasks).findSome? (s.victimTile t) = none := by
    rw [victims_findSome?, List.findSome?_eq_none_iff]
    intro k hk
    have hk := List.mem_range.mp hk
    rw [Nat.add_assoc, Nat.add_comm 1 k]
    exact hv (k + 1) (by omega) (by omega)
  rw [State.takeTile, hs, WorkQueue.takeNext_of_dry hd, hl]
  simp only [hr]
  unfold State.victimTile at hf
  rw [hf]
  rfl
theorem takeTile_steal {k : Nat} (h1 : 1 ≤ k) (hk : k < l.tasks) (hv : ∀ i, 1 ≤ i → i < k → s.victimTile t (nthTask t.id l.tasks i).idx = none)
    {y : Nat × Nat × Nat} {q : WorkQueue} (h : s.victimTile t (nthTask t.id l.tasks k).idx = some ((nthTask t.id l.tasks k).idx, y, q)) :
    s.takeTile t = (tileWord y, (s.updTask (nthTask t.id l.tasks k) fun w => { w with wq := q }).updTask t.id fun u =>
      { u with stealing := assocSet u.stealing (s.myCore.bidx, s.cur.slot) (nthTask t.id l.tasks k).idx }) := by
  have hf : (victims t.id.idx l.tasks).findSome? (s.victimTile t) = some ((nthTask t.id l.tasks k).idx, y, q) := by
    rw [victims_findSome?]
    refine findSome?_range (k := k - 1) (fun i hi => ?_) ?_ _ (by omega)
    · rw [Nat.add_assoc, Nat.add_comm 1 i]
      exact hv (i + 1) (by omega) (by omega)
    · rw [Nat.add_assoc, Nat.add_comm 1, Nat.sub_add_cancel h1]
      exact h
  rw [State.takeTile, hs, WorkQueue.takeNext_of_dry hd, hl]
  simp only [hr]
  unfold State.victimTile at hf
  rw [hf]
  rfl
end
theorem victimTile_of_dry {s : State} {t : Task} {v : Nat}
    (h : ∀ w, s.task? { t.id with idx := v } = some w → w.phase ≠ t.phase ∨ w.wq.dry) : s.victimTile t v = none := by
  rw [State.victimTile, Option.bind_eq_none_iff]
  intro w hw
  rcases h w hw with hp | hd
  · exact if_neg hp
  · rw [WorkQueue.takeLast_of_dry hd, Option.map_none, ite_self]
theorem victimTile_of_takeLast {s : State} {t w : Task} {v : Nat} {r : (Nat × Nat × Nat) × WorkQueue} (h : s.task? { t.id with idx := v } = some w)
    (hp : w.phase = t.phase) (hr : w.wq.takeLast = some r) : s.victimTile t v = some (v, r) := by
  rw [State.victimTile, h, Option.bind_some, if_pos hp, hr, Option.map_some]

section
variable {x : DOnly} {s : State} {t : Task} (ht : s.myTask = some t) (hd : s.th.tileDue = none)
include ht hd
/-- `ftile` hands out the sub-tile at the queue's place. -/
theorem ftile_own {y : Nat × Nat × Nat} (hs : t.wq.set = true) (hl : t.wq.next + t.wq.stolen < t.wq.total) (hy : t.wq.tile t.wq.next = some y) :
    ∃ u : State, (exec (.ftile x) s = .next u ∧
      u.stageOf s.me = some (.data { Result.none with s := [(x.d, tileWord y)], owned := some (tileWord y) })) ∧
      (u.task? t.id).map (fun v => v.wq) = some { t.wq with next := t.wq.next + 1 } := by
  obtain ⟨w, hw, htasks⟩ := gives_of_takeTile (x := x) ht hd (takeTile_own hs (WorkQueue.takeNext_of_tile hs hl hy)) rfl
  refine ⟨w, hw, ?_⟩
  rw [State.task?_of_tasks htasks, State.task?_updTask _ _ _ (by exact fun _ => rfl), State.ownTile, State.task?_updTask _ _ _ (by exact fun _ => rfl),
    (task_of_myTask ht).2]
  rfl
theorem ftile_none {u : State} (h : s.takeTile t = (BitVec.allOnes 64, u)) (hc : u.cur = s.cur) :
    ∃ u : State, exec (.ftile x) s = .next u ∧
      u.stageOf s.me = some (.data { Result.none with s := [(x.d, 0xFFFFFFFFFFFFFFFF)], owned := some 0xFFFFFFFFFFFFFFFF }) :=
  let ⟨w, hw, _⟩ := gives_of_takeTile (x := x) ht hd h hc
  ⟨w, hw⟩
/-- A sub-tile taken from another task: that task counts it, and the thread's own task notes whom it came from. -/
theorem ftile_steal {v : TaskId} {y : Nat × Nat × Nat} {w : Task} {q : WorkQueue} (hv : v ≠ t.id) (hw : s.task? v = some w)
    (h : s.takeTile t = (tileWord y, (s.updTask v fun w => { w with wq := q }).updTask t.id fun u =>
      { u with stealing := assocSet u.stealing (s.myCore.bidx, s.cur.slot) v.idx })) :
    ∃ u : State, (exec (.ftile x) s = .next u ∧
      u.stageOf s.me = some (.data { Result.none with s := [(x.d, tileWord y)], owned := some (tileWord y) })) ∧
      (u.task? v).map (fun v => v.wq) = some q ∧
      (u.task? t.id).map (fun v => assocGet v.stealing (s.myCore.bidx, s.cur.slot)) = some (some v.idx) := by
  obtain ⟨u, hu, htasks⟩ := gives_of_takeTile (x := x) ht hd h rfl
  refine ⟨u, hu, ?_, ?_⟩
  · rw [State.task?_of_tasks htasks, State.task?_updTask_ne _ _ (by exact fun _ => rfl) hv, State.task?_updTask _ _ _ (by exact fun _ => rfl), hw]
    rfl
  · rw [State.task?_of_tasks htasks, State.task?_updTask _ _ _ (by exact fun _ => rfl), State.task?_updTask_ne _ _ (by exact fun _ => rfl) hv.symm,
      (task_of_myTask ht).2]
    exact congrArg some (assocGet_assocSet_self _ _ _)
end

/-- Settles O20: `ftileset` by the limits of its registers, `ftile` by what is left of the task's own queue, then by the first of the other
tasks that has a sub-tile left. -/
theorem workQueueGrid : Obligations.WorkQueueGrid := by
  unfold Obligations.WorkQueueGrid
  refine ⟨fun x s t ht => ⟨fun h1 h2 hp hb1 hb2 hc => ?_, fun h1 h2 hny hb1 hb2 hc hc1 hc2 hd bs m s' hr ht' => ⟨fun hok hf => ?_, fun hbad => ?_⟩,
    ftileset_height, fun h1 h2 hc hp => ?_, fun h1 h2 hp hc hb => ?_⟩, fun x s t l ht hl hd => ?_, fun x s t v ht hd => exec_ftile_due ht hd⟩
  · rw [ftileset_plain h1 h2 ht hc, if_neg (Nat.not_lt.mpr hp), if_neg (by omega)]
    rfl
  · rw [ftileset_record h1 h2 hny hb1 hb2 hc hc1 hc2 hr ht', if_pos ⟨hok, hf⟩]
    rfl
  · rw [ftileset_record h1 h2 hny hb1 hb2 hc hc1 hc2 hr ht', if_neg]
    · rfl
    · rintro ⟨hok, hf⟩
      rcases hbad with hb | hb
      · exact Bool.false_ne_true (hb.symm.trans hok)
      · exact absurd hf (Nat.not_le.mpr hb)
  · rw [ftileset_plain h1 h2 ht hc, if_pos hp]
    rfl
  · rw [ftileset_plain h1 h2 ht hc, if_neg (Nat.not_lt.mpr hp), if_pos (by omega)]
    rfl
  · refine ⟨fun h nx ny j st hq hlt => ?_, fun h nx bs j st g y c hq hh hg hy hc hj hlt => ?_, fun hs => ftile_none ht hd (takeTile_unset hs) rfl,
      fun hr hn => ftile_none ht hd (takeTile_dry hl hr hn) rfl, fun hr hs hdry => ⟨fun hall => ?_, fun k w h nx ny j st h1 hk hbefore hw hph hq hlt => ?_⟩⟩
    · have := ftile_own (x := x) (y := (h * (j / nx), h, j % nx)) ht hd
      rw [hq] at this
      exact this rfl hlt (WorkQueue.tile_grid j st j (show j < ny * nx by omega))
    · have := ftile_own (x := x) (y := (bs.getD g 0 + h * y, min h (segRows bs g - h * y), c)) ht hd
      rw [hq] at this
      refine this rfl ?_ ?_
      · exact hlt.trans_eq (sumNat_segments hh nx bs).symm
      · rw [hj]
        exact segTile_eq hh hc bs g hg hy
    · exact ftile_none ht hd (takeTile_none hl hr hs (.inr hdry) fun k h1 hk => victimTile_of_dry (hall k h1 hk)) rfl
    · have hlast : w.wq.takeLast = some ((h * ((ny * nx - 1 - st) / nx), h, (ny * nx - 1 - st) % nx), { w.wq with stolen := w.wq.stolen + 1 }) := by
        rw [hq]
        exact WorkQueue.takeLast_of_tile rfl hlt (WorkQueue.tile_grid j st _ (show ny * nx - 1 - st < ny * nx by omega))
      have htake := takeTile_steal hl hr hs (.inr hdry) h1 hk (fun i hi hik => victimTile_of_dry (hbefore i hi hik)) (victimTile_of_takeLast hw hph hlast)
      have := ftile_steal (x := x) ht hd (nthTask_ne t.id h1 hk) hw htake
      rw [hq] at this
      exact this

end Sys2Proof.Machine
end

section
/-! SUPPORT. O6, device memory stays in canonical form. Two things write it: `State.rawWrite`, byte by byte through `Memory.set`, and power-on, which
empties it. The lemmas that follow say of each operation of the model, in the order of the model's files, that canonical memory stays canonical:
`State.wf_f` of `State.f`, `wf_f` of a function `f` that takes the state last, `canonical_f` of one that answers an outcome. First the rules for
folds, sequencing and branches. -/
namespace Sys2Proof.Machine
open Sys2Proof Sys2Proof.Claims

/-- The state in which a part of an instruction leaves the machine, however it ends. -/
abbrev Res.state {α : Type} : Res α → State
  | .ok _ s | .pass s | .trap s _ _ _ => s
/-- The state after a look at a wait. -/
abbrev Poll.state : Poll → State
  | .wait s | .go s | .used s => s
/-- The state after a look at the line of the next bundle. -/
abbrev Fetch.state : Fetch → State
  | .line _ s | .wait s | .fault _ _ _ s => s
/-- The state after a look at a snapshot. -/
abbrev SnapPoll.state : SnapPoll → State
  | .wait s | .again _ s | .holds _ s | .trap s _ _ _ => s
/-- An outcome that goes on does so with device memory in canonical form. -/
def Canonical (o : Out') : Prop := ∀ t, o = .next t → Memory.wf t.mem = true
theorem canonical_next {s : State} (h : Memory.wf s.mem) : Canonical (.next s) := by rintro _ ⟨⟩; exact h
/-- A fold over values that carry a state, read off by `g`. -/
theorem Memory.wf_foldl_of {α β : Type} (g : β → State) {f : β → α → β} {l : List α} {b : β}
    (hf : ∀ b a, Memory.wf (g b).mem → Memory.wf (g (f b a)).mem) (h : Memory.wf (g b).mem) : Memory.wf (g (l.foldl f b)).mem := by
  induction l generalizing b with
  | nil => exact h
  | cons a r ih => exact ih (hf b a h)
theorem State.foldl_wf {α : Type} {f : State → α → State} {l : List α} {s : State} (hf : ∀ s a, Memory.wf s.mem → Memory.wf (f s a).mem)
    (h : Memory.wf s.mem) : Memory.wf (l.foldl f s).mem := by
  induction l generalizing s with
  | nil => exact h
  | cons a r ih => exact ih (hf s a h)
theorem Res.wf_andThen {α β : Type} {r : Res α} {f : α → State → Res β} (h : Memory.wf r.state.mem)
    (hf : ∀ a s, Memory.wf s.mem → Memory.wf (f a s).state.mem) : Memory.wf (r.andThen f).state.mem := by
  cases r with
  | ok a s => exact hf a s h
  | pass s => exact h
  | trap s c a i => exact h
/-- What is shown of an answer holds of the answer that a branch of a `match` names. -/
theorem Res.wf_of_eq {α : Type} {r q : Res α} (e : r = q) (h : Memory.wf r.state.mem) : Memory.wf q.state.mem := e ▸ h
theorem Poll.wf_of_eq {p q : Poll} (e : p = q) (h : Memory.wf p.state.mem) : Memory.wf q.state.mem := e ▸ h
theorem Fetch.wf_of_eq {p q : Fetch} (e : p = q) (h : Memory.wf p.state.mem) : Memory.wf q.state.mem := e ▸ h
theorem SnapPoll.wf_of_eq {p q : SnapPoll} (e : p = q) (h : Memory.wf p.state.mem) : Memory.wf q.state.mem := e ▸ h
theorem State.wf_snd_of_eq {α : Type} {p q : α × State} (e : p = q) (h : Memory.wf p.2.mem) : Memory.wf q.2.mem := e ▸ h
theorem State.wf_fst_of_eq {α : Type} {p q : State × α} (e : p = q) (h : Memory.wf p.1.mem) : Memory.wf q.1.mem := e ▸ h
theorem State.wf_ite {c : Prop} [Decidable c] {s t : State} (hs : Memory.wf s.mem) (ht : Memory.wf t.mem) : Memory.wf (if c then s else t).mem := by
  split
  · exact hs
  · exact ht
theorem Res.wf_ite {α : Type} {c : Prop} [Decidable c] {r q : Res α} (hr : Memory.wf r.state.mem) (hq : Memory.wf q.state.mem) :
    Memory.wf (if c then r else q).state.mem := by
  split
  · exact hr
  · exact hq
/-- Translation and the requests of the caches leave device memory. -/
theorem State.Cached.wf {s t : State} (hc : s.Cached t) (h : Memory.wf s.mem) : Memory.wf t.mem :=
  hc.1 ▸ h
theorem State.wf_lookup {s : State} {cl p va : Nat} (h : Memory.wf s.mem) : Memory.wf (s.lookup cl p va).2.mem :=
  (s.cached_lookup cl p va).wf h
theorem State.wf_l2Touch {s : State} {pa : Nat} {e : Bool} (h : Memory.wf s.mem) : Memory.wf (s.l2Touch pa e).mem :=
  (s.cached_l2Touch pa e).wf h
theorem State.wf_request {s : State} {p : Place} {seen : List Nat} {pa : Nat} {ev : Bool} (h : Memory.wf s.mem) :
    Memory.wf (s.request p seen pa ev).mem :=
  (s.cached_request p seen pa ev).wf h

end Sys2Proof.Machine
end

section
/-! SUPPORT. O6, updates of the state, late writes and logs, gangs, traps and the end of an instruction. No update of a core, a thread, a cluster, a
partition, a task or a launch writes device memory; the third reset of a core writes its crash record. -/
namespace Sys2Proof.Machine
open Sys2Proof Sys2Proof.Claims

section
variable {s : State}
theorem State.wf_setCore {c : Nat} {k : Core} (h : Memory.wf s.mem) : Memory.wf (s.setCore c k).mem := h
theorem State.wf_updCore {c : Nat} {f : Core → Core} (h : Memory.wf s.mem) : Memory.wf (s.updCore c f).mem := h
theorem State.wf_setThr {t : ThreadId} {x : Thread} (h : Memory.wf s.mem) : Memory.wf (s.setThr t x).mem := h
theorem State.wf_updThr {t : ThreadId} {f : Thread → Thread} (h : Memory.wf s.mem) : Memory.wf (s.updThr t f).mem := h
theorem State.wf_setTh {x : Thread} (h : Memory.wf s.mem) : Memory.wf (s.setTh x).mem := h
theorem State.wf_updTh {f : Thread → Thread} (h : Memory.wf s.mem) : Memory.wf (s.updTh f).mem := h
theorem State.wf_updMyCore {f : Core → Core} (h : Memory.wf s.mem) : Memory.wf (s.updMyCore f).mem := h
theorem State.wf_setCluster {c : Nat} {k : Cluster} (h : Memory.wf s.mem) : Memory.wf (s.setCluster c k).mem := h
theorem State.wf_updCluster {c : Nat} {f : Cluster → Cluster} (h : Memory.wf s.mem) : Memory.wf (s.updCluster c f).mem := h
theorem State.wf_setPart {p : Nat} {x : Partition} (h : Memory.wf s.mem) : Memory.wf (s.setPart p x).mem := h
theorem State.wf_updPart {p : Nat} {f : Partition → Partition} (h : Memory.wf s.mem) : Memory.wf (s.updPart p f).mem := h
theorem State.wf_updTask {t : TaskId} {f : Task → Task} (h : Memory.wf s.mem) : Memory.wf (s.updTask t f).mem := h
theorem State.wf_updLaunch {p lid : Nat} {f : Launch → Launch} (h : Memory.wf s.mem) : Memory.wf (s.updLaunch p lid f).mem := h
theorem State.wf_fresh (h : Memory.wf s.mem) : Memory.wf s.fresh.2.mem := h
theorem State.wf_flip (h : Memory.wf s.mem) : Memory.wf s.flip.2.mem := h
theorem State.wf_updRegs {f : Regs → Regs} (h : Memory.wf s.mem) : Memory.wf (s.updRegs f).mem := h
theorem State.wf_ws {n : SReg} {v : W64} (h : Memory.wf s.mem) : Memory.wf (s.ws n v).mem := h
theorem State.wf_wv {n : VReg} {v : VWord} (h : Memory.wf s.mem) : Memory.wf (s.wv n v).mem := h
theorem State.wf_wvPart {n : VReg} {m : W32} {v : VWord} (h : Memory.wf s.mem) : Memory.wf (s.wvPart n m v).mem := h
theorem State.wf_wp {n : PReg} {v : W32} (h : Memory.wf s.mem) : Memory.wf (s.wp n v).mem := h
theorem State.wf_wc {n : CReg} {v : Cb} (h : Memory.wf s.mem) : Memory.wf (s.wc n v).mem := h
theorem State.wf_orSticky {f : BitVec 4} (h : Memory.wf s.mem) : Memory.wf (s.orSticky f).mem := h
theorem wf_done (h : Memory.wf s.mem) : Memory.wf (done s).state.mem := h
theorem wf_fail {α : Type} {cause : Byte} {info : W64} (h : Memory.wf s.mem) : Memory.wf (fail s cause info : Res α).state.mem := h
theorem wf_badPos {α : Type} {pos : Nat} (h : Memory.wf s.mem) : Memory.wf (badPos s pos : Res α).state.mem := h
theorem State.wf_unretain {k : Nat} (h : Memory.wf s.mem) : Memory.wf (s.unretain k).mem := h
theorem State.wf_retainStep {x : RetainStep} (h : Memory.wf s.mem) : Memory.wf (s.retainStep x).mem := h
theorem State.wf_landRetain (h : Memory.wf s.mem) : Memory.wf s.landRetain.mem := State.foldl_wf (fun _ _ ht => ht) h
theorem State.wf_dropL1 {cl : Nat} {ls : List Nat} (h : Memory.wf s.mem) : Memory.wf (s.dropL1 cl ls).mem := h
theorem State.wf_versionRead {key : Nat} (h : Memory.wf s.mem) : Memory.wf (s.versionRead key).mem := by
  unfold State.versionRead
  split
  · exact h
  · exact State.wf_l2Touch h
theorem State.wf_versionReads {keys : List Nat} (h : Memory.wf s.mem) : Memory.wf (s.versionReads keys).mem :=
  State.foldl_wf (fun _ _ ht => State.wf_versionRead ht) h
theorem State.wf_spWrite {c off : Nat} {bs : List Byte} (h : Memory.wf s.mem) : Memory.wf (s.spWrite c off bs).mem := h
theorem State.wf_spLate {c off : Nat} {bs : List (Byte × Bool)} {firm : Bool} (h : Memory.wf s.mem) : Memory.wf (s.spLate c off bs firm).mem := h
theorem State.wf_landLate (h : Memory.wf s.mem) : Memory.wf s.landLate.mem := h
theorem State.wf_landLateAt {c : Nat} (h : Memory.wf s.mem) : Memory.wf (s.landLateAt c).mem := h
theorem State.wf_faultLog {p src : Nat} {addr : W64} {lid id : W32} {cause : Byte} {core : Nat} (h : Memory.wf s.mem) :
    Memory.wf (s.faultLog p src addr lid id cause core).mem :=
  h
theorem State.wf_errLog {src : Nat} {addr : W64} {lid id : W32} {cause : Byte} {core : Nat} (h : Memory.wf s.mem) :
    Memory.wf (s.errLog src addr lid id cause core).mem :=
  h
theorem State.wf_disbandGang {t : ThreadId} (h : Memory.wf s.mem) : Memory.wf (s.disbandGang t).mem := by
  unfold State.disbandGang
  dsimp only
  split
  · exact h
  · exact State.wf_updThr (State.foldl_wf (fun u _ ht => ht) h)
theorem State.wf_faultTask {t : TaskId} {cause : Byte} (h : Memory.wf s.mem) : Memory.wf (s.faultTask t cause).mem := h
theorem State.wf_endThread {t : ThreadId} (h : Memory.wf s.mem) : Memory.wf (s.endThread t).mem := State.wf_updThr (State.wf_disbandGang h)
theorem State.wf_copyDone {j : CopyJob} {st : W64} (h : Memory.wf s.mem) : Memory.wf (s.copyDone j st).mem := h
theorem State.wf_stopJobs {t : TaskId} {cl : Nat} (h : Memory.wf s.mem) : Memory.wf (s.stopJobs t cl).mem :=
  State.wf_updCluster (State.wf_updTask (State.foldl_wf (fun _ _ ht => ht) (State.foldl_wf (fun _ _ ht => ht) h)))
theorem State.wf_setSpill {t : Option TaskId} {x : Spill} (h : Memory.wf s.mem) : Memory.wf (s.setSpill t x).mem := h
theorem State.wf_loseImage {c : Nat} {cause : Byte} (h : Memory.wf s.mem) : Memory.wf (s.loseImage c cause).mem := by
  unfold State.loseImage
  dsimp only
  split
  · exact h
  · exact State.wf_setSpill (State.wf_updPart (State.wf_updTask (State.wf_faultTask h)))
theorem State.wf_thirdReset {c : Nat} {third : TrapRec} (h : Memory.wf s.mem) : Memory.wf (s.thirdReset c third).mem := by
  unfold State.thirdReset
  extract_lets s1 s2 s3 s4 s5 s6 s7
  have h2 : Memory.wf s2.mem := State.rawWrite_wf s1 _ h
  clear_value s2
  have h4 : Memory.wf s4.mem := h2
  have h5 : Memory.wf s5.mem := by
    refine State.foldl_wf (fun u b hu => ?_) h4
    extract_lets u1 u2 tx u3
    have h1 : Memory.wf u1.mem := by
      unfold u1
      exact State.foldl_wf (fun _ _ hv => State.wf_ite hv (State.wf_updThr hv)) hu
    clear_value u1
    have h2 : Memory.wf u2.mem := State.wf_updThr h1
    exact h2
  clear_value s5
  have h6 : Memory.wf s6.mem := by
    unfold s6
    split
    · exact State.wf_updTask (State.wf_stopJobs (State.wf_faultTask h5))
    · exact h5
  have h7 : Memory.wf s7.mem := State.wf_updThr (State.wf_loseImage h6)
  clear_value s7
  exact h7
theorem State.wf_appendRec {c : Nat} {r : TrapRec} (h : Memory.wf s.mem) : Memory.wf (s.appendRec c r).mem := by
  unfold State.appendRec
  dsimp only
  split
  · exact h
  split
  · exact State.wf_loseImage h
  repeat' split
  all_goals exact h
theorem State.wf_park {t : ThreadId} {r : TrapRec} (h : Memory.wf s.mem) : Memory.wf (s.park t r).mem :=
  State.wf_appendRec (State.wf_updThr (State.wf_disbandGang h))
theorem State.wf_superTrap {c : Nat} {r : TrapRec} (h : Memory.wf s.mem) : Memory.wf (s.superTrap c r).mem := by
  unfold State.superTrap
  dsimp only
  split
  · exact State.wf_thirdReset h
  · exact h
theorem State.wf_trapThread {t : ThreadId} {pc : W64} {cause : Byte} {addr info : W64} {w o : W96} (h : Memory.wf s.mem) :
    Memory.wf (s.trapThread t pc cause addr info w o).mem := by
  unfold State.trapThread
  dsimp only
  split
  · exact State.wf_superTrap h
  · exact State.wf_park h
theorem State.wf_trapAfter {t : ThreadId} {pc : W64} {cause : Byte} {addr info : W64} (h : Memory.wf s.mem) :
    Memory.wf (s.trapAfter t pc cause addr info).mem :=
  State.wf_trapThread h
theorem State.wf_takeTrap {cause : Byte} {addr info : W64} (h : Memory.wf s.mem) : Memory.wf (s.takeTrap cause addr info).mem := State.wf_trapThread h
theorem canonical_finish {r : Res Unit} (h : Memory.wf r.state.mem) : Canonical (finish r) := by
  cases r with
  | ok a s => exact canonical_next h
  | pass s => exact canonical_next h
  | trap s c a i => exact canonical_next (State.wf_takeTrap h)
theorem canonical_guarded {x : Hdr} {f : State → Res Unit} (h : Memory.wf s.mem) (hf : Memory.wf (f s).state.mem) : Canonical (guarded x s f) := by
  unfold guarded
  split
  · exact canonical_finish hf
  · exact canonical_next h
theorem State.wf_wait {g : Stage} (h : Memory.wf s.mem) : Memory.wf (s.wait g).mem := h
theorem State.wf_trapPend {t : ThreadId} {cause : Byte} {addr info : W64} (h : Memory.wf s.mem) : Memory.wf (s.trapPend t cause addr info).mem := by
  unfold State.trapPend
  dsimp only
  split
  · exact h
  · exact State.wf_trapThread h
theorem State.wf_unpark {t : ThreadId} {target : W64} (h : Memory.wf s.mem) : Memory.wf (s.unpark t target).mem := h
theorem State.wf_idle7 {c : Nat} (h : Memory.wf s.mem) : Memory.wf (s.idle7 c).mem := h
end

end Sys2Proof.Machine
end

section
/-! SUPPORT. O6, accesses and their page walks, reads from buffers and memory, posted writes, loads, stores, releases and constant words. -/
namespace Sys2Proof.Machine
open Sys2Proof Sys2Proof.Claims

section
variable {s : State}
theorem State.wf_pages {x : Agent} {kd : Kind} {fin n va : Nat} {acc : List Pg} (h : Memory.wf s.mem) :
    Memory.wf (s.pages x kd fin n va acc).state.mem := by
  induction n generalizing s va acc with
  | zero => exact h
  | succ n ih =>
    unfold State.pages
    split
    · exact h
    dsimp only
    split
    · exact State.wf_lookup h
    split
    · exact State.wf_lookup h
    · exact ih (State.wf_lookup h)
theorem State.wf_access {x : Agent} {a : W64} {n : Nat} {kd : Kind} {noDev : Bool} (h : Memory.wf s.mem) :
    Memory.wf (s.access x a n kd noDev).state.mem := by
  unfold State.access
  dsimp only
  split
  · exact h
  split
  · repeat' split
    all_goals exact h
  · refine Res.wf_andThen (State.wf_pages h) fun a1 t ht => ?_
    repeat' split
    all_goals exact ht
theorem State.wf_accessAligned {x : Agent} {a : W64} {n align : Nat} {kd : Kind} {noDev : Bool} (h : Memory.wf s.mem) :
    Memory.wf (s.accessAligned x a n align kd noDev).state.mem := by
  unfold State.accessAligned
  refine Res.wf_andThen (State.wf_access h) fun a1 t ht => ?_
  repeat' split
  all_goals exact ht
theorem State.wf_markRead {cl id : Nat} {t : Option ThreadId} {job : Option Nat} (h : Memory.wf s.mem) : Memory.wf (s.markRead cl id t job).mem := h
theorem State.wf_markSb {id : Nat} {t : ThreadId} (h : Memory.wf s.mem) : Memory.wf (s.markSb id t).mem := h
theorem State.wf_readUnit {t : ThreadId} {sh : Option (TaskId × W32)} {p : Place} {first : Nat} {seen : List Nat} {ev : Bool} {vas : List Nat}
    (h : Memory.wf s.mem) : Memory.wf (s.readUnit t sh p first seen ev vas).state.mem := by
  unfold State.readUnit
  extract_lets c ads cl
  split
  · exact h
  split
  · exact h
  · exact h
  split
  · exact h
  · exact h
  · exact h
  rename_i copy u _ _ _ _ _ _
  have hu : Memory.wf u.mem := State.wf_ite (State.wf_request h) h
  split
  · exact State.wf_errLog hu
  clear_value u copy
  split
  · exact hu
  · exact hu
  · exact hu
theorem State.wf_readUnits {t : ThreadId} {sh : Option (TaskId × W32)} {p : Place} {first : Nat} {ev : Bool} {us : List (List Nat)} {bs : List Byte}
    {vl seen : List Nat} (h : Memory.wf s.mem) : Memory.wf (s.readUnits t sh p first ev us bs vl seen).state.mem := by
  induction us generalizing s bs vl seen with
  | nil => exact h
  | cons vas r ih => exact Res.wf_andThen (State.wf_readUnit h) fun _ _ ht => ih ht
theorem State.wf_setTile {c t : Nat} {x : Tile} (h : Memory.wf s.mem) : Memory.wf (s.setTile c t x).mem := h
theorem State.wf_spPut {c off : Nat} {bs : List (Byte × Bool)} (h : Memory.wf s.mem) : Memory.wf (s.spPut c off bs).mem := h
theorem State.wf_tileArrive {c t off : Nat} {bs : List (Byte × Bool)} (h : Memory.wf s.mem) : Memory.wf (s.tileArrive c t off bs).1.mem := by
  unfold State.tileArrive
  extract_lets x
  split
  · exact h
  · exact State.wf_setTile (State.wf_spPut h)
theorem State.wf_frameArrive {c : Nat} {l : Landed} {cs : List Host.Cell} (h : Memory.wf s.mem) : Memory.wf (s.frameArrive c l cs).mem := by
  unfold State.frameArrive
  dsimp only
  split
  · exact h
  · exact State.wf_updPart (State.wf_tileArrive h)
theorem State.wf_postedWrite {w : Posted} (h : Memory.wf s.mem) : Memory.wf (s.postedWrite w).mem := by
  unfold State.postedWrite
  split
  · exact State.wf_frameArrive h
  · exact State.foldl_wf (fun t _ ht => ht) h
  · exact State.pocWrite_wf _ _ _ _ (State.wf_ite h (State.foldl_wf (fun t a ht => State.wf_l2Touch ht) h))
theorem State.wf_settle {k : Nat} (h : Memory.wf s.mem) : Memory.wf (s.settle k).mem := State.foldl_wf (fun _ _ ht => State.wf_postedWrite ht) h
theorem State.wf_dropBlockL1 {c : Nat} (h : Memory.wf s.mem) : Memory.wf (s.dropBlockL1 c).mem := State.foldl_wf (fun _ _ ht => ht) h
theorem State.wf_phaseGate {global : Bool} (h : Memory.wf s.mem) : Memory.wf (s.phaseGate global).state.mem := by
  unfold State.phaseGate
  split
  · exact h
  split
  · exact h
  split
  · exact h
  split
  · exact h
  split
  · exact h
  split
  · exact wf_done (State.wf_updTask (State.wf_dropBlockL1 h))
  · exact h
theorem State.wf_settleTh (h : Memory.wf s.mem) : Memory.wf s.settleTh.mem := State.wf_updTh (State.wf_settle h)
theorem State.wf_loadAt {p : Place} {a : W64} {vas : List Nat} {vec : Bool} {hint : Nat} (h : Memory.wf s.mem) :
    Memory.wf (s.loadAt p a vas vec hint).state.mem := by
  unfold State.loadAt
  refine Res.wf_andThen (State.wf_phaseGate h) fun a1 t ht => ?_
  dsimp only
  split
  · exact State.wf_settleTh ht
  · rename_i he
    exact (Res.wf_of_eq he (State.wf_readUnits (State.wf_settleTh ht)) :)
  · rename_i he
    have ht' := Res.wf_of_eq he (State.wf_readUnits (State.wf_settleTh ht))
    split
    · split
      · exact ht'
      · exact State.wf_updCore ht'
    · exact ht'
    · exact ht'
theorem State.wf_load {p : Place} {a : W64} {n : Nat} {vec : Bool} {hint : Nat} (h : Memory.wf s.mem) :
    Memory.wf (s.load p a n vec hint).state.mem :=
  State.wf_loadAt h
theorem State.wf_newEntry {f : Nat → Entry} (h : Memory.wf s.mem) : Memory.wf (s.newEntry f).state.mem := by
  unfold State.newEntry
  dsimp only
  repeat' split
  all_goals exact h
theorem State.wf_storeNow {p : Place} {cells : List WCell} {sc : Scope} {rel ev : Bool} (h : Memory.wf s.mem) :
    Memory.wf (s.storeNow p cells sc rel ev).state.mem := by
  unfold State.storeNow
  refine Res.wf_andThen (State.wf_newEntry h) fun a t ht => ?_
  repeat' split
  all_goals exact ht
theorem State.wf_store {p : Place} {a : W64} {bs : List (Nat × Byte)} {sc : Scope} {rel ev : Bool} (h : Memory.wf s.mem) :
    Memory.wf (s.store p a bs sc rel ev).state.mem := by
  unfold State.store
  refine Res.wf_andThen (State.wf_phaseGate h) fun a1 t ht => ?_
  dsimp only
  split
  · exact ht
  · exact State.wf_storeNow ht
theorem State.wf_release {sc : Scope} (h : Memory.wf s.mem) : Memory.wf (s.release sc).state.mem := State.wf_newEntry h
theorem State.wf_acquireBy {t : ThreadId} {sc : Scope} (h : Memory.wf s.mem) : Memory.wf (s.acquireBy t sc).mem := by
  unfold State.acquireBy
  dsimp only
  repeat' split
  all_goals exact h
theorem State.wf_acquire {sc : Scope} (h : Memory.wf s.mem) : Memory.wf (s.acquire sc).mem := State.wf_acquireBy h
theorem State.wf_deliver {t : ThreadId} {r : Result} (h : Memory.wf s.mem) : Memory.wf (s.deliver t r).mem := by
  unfold State.deliver
  dsimp only
  split
  · refine State.wf_acquireBy ?_
    repeat' split
    all_goals exact h
  · repeat' split
    all_goals exact h
theorem State.wf_reply {leaves : Bool} {r : Result} (h : Memory.wf s.mem) : Memory.wf (s.reply leaves r).mem := by
  unfold State.reply
  split
  · exact h
  · exact State.wf_deliver h
theorem State.wf_constLine {l : Launch} {w word : Nat} (h : Memory.wf s.mem) : Memory.wf (s.constLine l w word).state.mem := by
  unfold State.constLine
  dsimp only
  split
  · exact h
  refine Res.wf_andThen (State.wf_access h) fun a t ht => ?_
  split
  · split
    · exact State.wf_errLog (State.wf_request ht)
    · exact State.wf_request ht
  · repeat' split
    all_goals exact ht
  · exact ht
theorem State.wf_readConst {w word : Nat} (h : Memory.wf s.mem) : Memory.wf (s.readConst w word).state.mem := by
  unfold State.readConst
  split
  · exact h
  · rename_i l _
    generalize (if w = 7 && 0 < l.kernel.argsize then ((0 : W64), l.kernel.argsize) else (l.kernel.windows[w]?).getD (0, 0)) = q
    dsimp only
    split
    · exact h
    split
    · exact Res.wf_andThen (State.wf_constLine h) fun _ _ ht => ht
    · repeat' split
      all_goals exact h
end

end Sys2Proof.Machine
end

section
/-! SUPPORT. O6, reading the sources of an instruction. -/
namespace Sys2Proof.Machine
open Sys2Proof Sys2Proof.Claims

section
variable {s : State}
theorem State.wf_src {signed : Bool} {x : Src} (h : Memory.wf s.mem) : Memory.wf (s.src signed x).state.mem := by
  unfold State.src
  split
  · exact h
  · exact h
  · exact Res.wf_andThen (State.wf_readConst h) fun _ t ht => ht
theorem State.wf_vsrc {x : VSrc} (h : Memory.wf s.mem) : Memory.wf (s.vsrc x).state.mem := by
  unfold State.vsrc
  split
  · exact h
  · exact h
  · exact h
  · exact Res.wf_andThen (State.wf_readConst h) fun _ t ht => ht
end

end Sys2Proof.Machine
end

section
/-! SUPPORT. O6, scalar integer, compare and predicate instructions. -/
namespace Sys2Proof.Machine
open Sys2Proof Sys2Proof.Claims

section
variable {s : State}
theorem State.wf_putInt {d : SReg} {t : IntTy} {sat : Bool} {x : Int} (h : Memory.wf s.mem) : Memory.wf (s.putInt d t sat x).state.mem := by
  unfold State.putInt
  repeat' split
  all_goals exact h
theorem State.wf_intA {x : IntA} {o : IOp} (h : Memory.wf s.mem) : Memory.wf (s.intA x o).state.mem :=
  Res.wf_andThen (State.wf_src h) fun _ _ ht => State.wf_putInt ht
theorem State.wf_intSh {x : IntSh} {o : IOp} (h : Memory.wf s.mem) : Memory.wf (s.intSh x o).state.mem := State.wf_putInt h
theorem State.wf_divide {x : IntA} {rem : Bool} (h : Memory.wf s.mem) : Memory.wf (s.divide x rem).state.mem := by
  unfold State.divide
  refine Res.wf_andThen (State.wf_src h) fun a t ht => ?_
  dsimp only
  split
  · repeat' split
    all_goals exact ht
  · exact State.wf_putInt ht
theorem canonical_execExt {x : IntSh} (h : Memory.wf s.mem) : Canonical (execExt x s) := by
  unfold execExt
  refine canonical_guarded h ?_
  dsimp only
  repeat' split
  all_goals exact h
theorem canonical_execIns {x : Ins} (h : Memory.wf s.mem) : Canonical (execIns x s) := by
  unfold execIns
  refine canonical_guarded h ?_
  dsimp only
  repeat' split
  all_goals exact h
theorem State.wf_putBool {d : SP} {c : Bool} (h : Memory.wf s.mem) : Memory.wf (s.putBool d c).mem := by
  unfold State.putBool
  repeat' split
  all_goals exact h
theorem State.wf_compare {x : Cmp} {f : Int → Int → Bool} (h : Memory.wf s.mem) : Memory.wf (s.compare x f).state.mem :=
  Res.wf_andThen (State.wf_src h) fun _ _ ht => wf_done (State.wf_putBool ht)
end

end Sys2Proof.Machine
end

section
/-! SUPPORT. O6, vector loads and stores, validation sets and prefetch. -/
namespace Sys2Proof.Machine
open Sys2Proof Sys2Proof.Claims

section
variable {s : State}
theorem State.wf_typed {p : Place} {a : W64} {x : VTy} (h : Memory.wf s.mem) : Memory.wf (s.typed p a x).state.mem := by
  unfold State.typed
  dsimp only
  repeat' split
  all_goals exact h
theorem State.wf_arithTrap {f : Nat} {k : State → Res Unit} (h : Memory.wf s.mem) (hf : ∀ t, Memory.wf t.mem → Memory.wf (k t).state.mem) :
    Memory.wf (s.arithTrap f k).state.mem := by
  unfold State.arithTrap
  split
  · exact h
  · exact hf _ h
theorem canonical_execVld {x : VldA} (h : Memory.wf s.mem) : Canonical (execVld x s) := by
  unfold execVld
  refine canonical_finish ?_
  dsimp only
  split
  · exact h
  refine Res.wf_andThen (State.wf_access h) fun a t ht => Res.wf_andThen (State.wf_typed ht) fun a1 u hu =>
    Res.wf_andThen (State.wf_loadAt hu) fun a2 v hv => ?_
  split
  · exact State.wf_arithTrap hv fun w hw => wf_done (State.wf_reply hw)
  · exact wf_done (State.wf_reply hv)
theorem canonical_execVst {x : VstA} (h : Memory.wf s.mem) : Canonical (execVst x s) := by
  unfold execVst
  refine canonical_finish ?_
  dsimp only
  split
  · exact h
  · exact Res.wf_andThen (State.wf_access h) fun a t ht => Res.wf_andThen (State.wf_typed ht) fun _ u hu => State.wf_arithTrap hu fun v hv =>
      Res.wf_andThen (State.wf_store hv) fun _ w hw => hw
theorem canonical_execValchk {x : DOnly} (h : Memory.wf s.mem) : Canonical (execValchk x s) := by
  unfold execValchk
  refine canonical_guarded h ?_
  dsimp only
  split
  · exact h
  · exact wf_done (State.wf_ws (State.wf_versionReads h))
theorem canonical_execPref {x : PrefA} (h : Memory.wf s.mem) : Canonical (execPref x s) := by
  unfold execPref
  refine canonical_guarded h ?_
  dsimp only
  split
  · rename_i he
    have ht := Res.wf_of_eq he (State.wf_access h)
    split
    · exact wf_done (State.wf_l2Touch ht)
    · split
      · exact wf_done ht
      · exact wf_done (State.wf_updMyCore (State.wf_l2Touch ht))
    · exact wf_done ht
  · rename_i he
    exact wf_done (Res.wf_of_eq he (State.wf_access h))
  · rename_i he
    exact wf_done (Res.wf_of_eq he (State.wf_access h))
end

end Sys2Proof.Machine
end

section
/-! SUPPORT. O6, fetching, control transfers and the check of a signature. -/
namespace Sys2Proof.Machine
open Sys2Proof Sys2Proof.Claims

section
variable {s : State}
theorem State.wf_fetchPage {line : Nat} (h : Memory.wf s.mem) : Memory.wf (s.fetchPage line).2.mem := by
  unfold State.fetchPage
  dsimp only
  split
  · exact h
  repeat' split
  all_goals exact State.wf_lookup h
theorem State.wf_fetchRequest {pa line : Nat} {ms : Bool} (h : Memory.wf s.mem) : Memory.wf (s.fetchRequest pa line ms).mem := by
  unfold State.fetchRequest
  dsimp only
  repeat' split
  all_goals exact h
theorem State.wf_prefetch {line : Nat} (h : Memory.wf s.mem) : Memory.wf (s.prefetch line).mem := by
  unfold State.prefetch
  refine State.foldl_wf (fun t a ht => ?_) h
  dsimp only
  split
  · exact ht
  split
  · exact ht
  rename_i he
  split
  · exact State.wf_fetchRequest (State.wf_snd_of_eq he (State.wf_fetchPage ht))
  · exact ht
theorem State.wf_checkTarget {t : W64} {tgt : Bool} (h : Memory.wf s.mem) : Memory.wf (s.checkTarget t tgt).state.mem := by
  unfold State.checkTarget
  split
  · exact h
  split
  · rename_i he
    exact (State.wf_snd_of_eq he (State.wf_fetchPage h) :)
  · rename_i he
    have ht := State.wf_snd_of_eq he (State.wf_fetchPage h)
    exact Res.wf_ite ht ht
theorem State.wf_jump {t : W64} (h : Memory.wf s.mem) : Memory.wf (s.jump t).mem := h
theorem State.wf_enterLine {line pa : Nat} {ms : Bool} {img : BitVec 512} (h : Memory.wf s.mem) :
    Memory.wf (s.enterLine line pa ms img).state.mem := by
  unfold State.enterLine
  dsimp only
  split
  · exact State.wf_updTh (State.wf_fetchRequest h)
  repeat' split
  all_goals exact h
theorem State.wf_enterPage {line : Nat} {img : BitVec 512} (h : Memory.wf s.mem) : Memory.wf (s.enterPage line img).state.mem := by
  unfold State.enterPage
  split
  · rename_i he
    exact State.wf_snd_of_eq he (State.wf_fetchPage h)
  · rename_i t he
    have ht : Memory.wf t.mem := State.wf_snd_of_eq he (State.wf_fetchPage h)
    extract_lets pa now
    have hu : Memory.wf (if now = img then (false, t) else t.flip).2.mem := by
      split
      · exact ht
      · exact State.wf_flip ht
    generalize (if now = img then (false, t) else t.flip) = q at hu
    rcases q with ⟨b, u⟩
    dsimp only
    generalize (if b then now else img) = i
    split
    · exact hu
    · exact State.wf_enterLine hu
theorem State.wf_prefetchOnce {line : Nat} (h : Memory.wf s.mem) : Memory.wf (s.prefetchOnce line).mem := by
  unfold State.prefetchOnce
  split
  · exact h
  · exact State.wf_updTh (State.wf_prefetch h)
theorem State.wf_fetch (h : Memory.wf s.mem) : Memory.wf s.fetch.state.mem := by
  unfold State.fetch
  dsimp only
  split
  · split
    · exact State.wf_prefetchOnce h
    split
    · split
      · exact State.wf_prefetchOnce h
      · exact State.wf_enterPage (State.wf_prefetchOnce h)
    · exact State.wf_enterPage (State.wf_prefetchOnce h)
  · split
    · rename_i he1
      exact State.wf_snd_of_eq he1 (State.wf_fetchPage h)
    · rename_i he1
      exact State.wf_prefetchOnce (State.wf_fetchRequest (State.wf_snd_of_eq he1 (State.wf_fetchPage h)))
theorem State.wf_sigLoad {l : Launch} (h : Memory.wf s.mem) : Memory.wf (s.sigLoad l).state.mem := by
  unfold State.sigLoad
  refine Res.wf_andThen (State.wf_access h) fun a t ht => Res.wf_andThen (State.wf_load ht) fun a1 u hu => ?_
  dsimp only
  split
  · exact hu
  · exact Res.wf_andThen (State.wf_access hu) fun _ v hv => Res.wf_andThen (State.wf_load hv) fun _ w hw => hw
theorem State.wf_sigWith {l : Launch} {bs : List Byte} {pc : W64} (h : Memory.wf s.mem) : Memory.wf (s.sigWith l bs pc).state.mem := by
  unfold State.sigWith
  dsimp only
  repeat' split
  all_goals exact h
theorem State.wf_checkSig {pc : W64} (h : Memory.wf s.mem) : Memory.wf (s.checkSig pc).state.mem := by
  unfold State.checkSig
  split
  · exact h
  split
  · exact h
  split
  · split
    · exact h
    split
    · exact State.wf_sigWith h
    · exact h
  · refine Res.wf_andThen (State.wf_sigLoad h) fun a t ht => ?_
    split
    · split
      · exact ht
      · exact State.wf_sigWith ht
end

end Sys2Proof.Machine
end

section
/-! SUPPORT. O6, status registers, branches, gangs, work queues and circular buffers. -/
namespace Sys2Proof.Machine
open Sys2Proof Sys2Proof.Claims

section
variable {s : State}
theorem canonical_execSrd {x : SrdA} (h : Memory.wf s.mem) : Canonical (execSrd x s) := by
  unfold execSrd
  refine canonical_guarded h ?_
  dsimp only
  split
  · exact h
  split
  · exact h
  · exact wf_done (State.wf_ws (State.wf_ite h h))
theorem State.wf_setStatus {n : Nat} {v : W64} {t : State} (h : Memory.wf s.mem) (ht : s.setStatus n v = some t) : Memory.wf t.mem := by
  unfold State.setStatus at ht
  dsimp only at ht
  split at ht
  · split at ht
    · cases ht
    · split at ht
      · cases ht
      · cases ht; exact h
  · split at ht
    · cases ht; exact h
    · cases ht
  iterate 6 cases ht; exact h
  cases ht
theorem canonical_execSwr {x : SwrA} (h : Memory.wf s.mem) : Canonical (execSwr x s) := by
  unfold execSwr
  refine canonical_guarded h ?_
  split
  · exact h
  split
  · exact h
  split
  · rename_i ht
    exact State.wf_setStatus h ht
  · exact h
theorem State.wf_transfer {taken : Bool} {t : W64} {f : State → State} (h : Memory.wf s.mem) (hf : ∀ t, Memory.wf t.mem → Memory.wf (f t).mem) :
    Memory.wf (s.transfer taken t f).state.mem := by
  unfold State.transfer
  split
  · exact wf_done (hf _ h)
  · exact Res.wf_andThen (State.wf_checkTarget h) fun a u ht => wf_done (State.wf_jump (hf _ ht))
theorem State.wf_trapGang {t : ThreadId} {info : W64} (h : Memory.wf s.mem) : Memory.wf (s.trapGang t info).mem := State.wf_trapPend h
theorem State.wf_formGang {slot n : Nat} {cs : List Nat} (h : Memory.wf s.mem) : Memory.wf (s.formGang slot n cs).mem :=
  State.foldl_wf (fun _ _ ht => ht) h
theorem canonical_execGang {x : GangA} (h : Memory.wf s.mem) : Canonical (execGang x s) := by
  unfold execGang
  refine canonical_finish ?_
  dsimp only
  split
  · exact h
  split
  · exact h
  split
  · exact wf_fail (State.foldl_wf (fun _ a ht => State.wf_trapGang ht) h)
  split
  · exact wf_done (State.wf_formGang h)
  · exact h
theorem canonical_execPart {x : PartA} (h : Memory.wf s.mem) : Canonical (execPart x s) := by
  unfold execPart
  refine canonical_guarded h ?_
  dsimp only
  repeat' split
  all_goals exact h
theorem State.wf_readRecord {a : W64} (h : Memory.wf s.mem) : Memory.wf (s.readRecord a).state.mem :=
  Res.wf_andThen (State.wf_access h) fun _ _ ht => Res.wf_andThen (State.wf_load ht) fun _ _ hu => Res.wf_andThen (State.wf_access hu) fun _ _ hv =>
    Res.wf_andThen (State.wf_load hv) fun _ _ hw => hw
theorem canonical_execFtileset {x : ABC} (h : Memory.wf s.mem) : Canonical (execFtileset x s) := by
  unfold execFtileset
  extract_lets a b c hh ny put
  have hput {bs : Option (List Nat)} {t : State} (ht : Memory.wf t.mem) : Memory.wf (put t bs).mem := by
    unfold put
    split
    · exact State.wf_updTask ht
    · exact ht
  refine canonical_finish (Res.wf_ite h (Res.wf_ite h (Res.wf_ite h (Res.wf_ite (wf_done (State.wf_wait (hput h))) ?_))))
  exact Res.wf_andThen (State.wf_readRecord h) fun _ _ ht => Res.wf_ite (wf_done (State.wf_wait (hput ht))) ht
theorem State.wf_takeTile {t : Task} (h : Memory.wf s.mem) : Memory.wf (s.takeTile t).2.mem := by
  unfold State.takeTile
  dsimp only
  repeat' split
  all_goals exact h
theorem canonical_execFtile {x : DOnly} (h : Memory.wf s.mem) : Canonical (execFtile x s) := by
  unfold execFtile
  refine canonical_finish ?_
  dsimp only
  split
  · exact h
  split
  · exact h
  · exact wf_done (State.wf_wait (State.wf_takeTile h))
theorem State.wf_cbUse {c : Cb} {pos w q : Nat} {tiles : Bool} {f : List Nat → Res Unit} (h : Memory.wf s.mem) (hf : ∀ a, Memory.wf (f a).state.mem) :
    Memory.wf (s.cbUse c pos w q tiles f).state.mem := by
  unfold State.cbUse
  dsimp only
  split
  · exact h
  split
  · exact h
  split
  · exact h
  · exact hf _
theorem canonical_execCbset {x : CSI} (h : Memory.wf s.mem) : Canonical (execCbset x s) := by
  unfold execCbset
  refine canonical_finish ?_
  dsimp only
  repeat' split
  all_goals exact h
theorem canonical_execCbwaitc {x : CbW} (h : Memory.wf s.mem) : Canonical (execCbwaitc x s) := by
  unfold execCbwaitc
  refine canonical_finish (State.wf_cbUse h fun x1 => ?_)
  repeat' split
  all_goals exact h
theorem canonical_execCbwaitp {x : CbW} (h : Memory.wf s.mem) : Canonical (execCbwaitp x s) := by
  unfold execCbwaitp
  refine canonical_finish (State.wf_cbUse h fun x1 => ?_)
  repeat' split
  all_goals exact h
theorem canonical_execCbadvc {x : CSI} (h : Memory.wf s.mem) : Canonical (execCbadvc x s) := by
  unfold execCbadvc
  refine canonical_finish (State.wf_cbUse h fun x1 => ?_)
  dsimp only
  split
  · exact wf_done (State.wf_wc (State.foldl_wf (fun t _ ht => ht) h))
  · exact h
end

end Sys2Proof.Machine
end

section
/-! SUPPORT. O6, effects at the coherence points, fences, barriers, phases, inboxes and launches, and the waits on them. -/
namespace Sys2Proof.Machine
open Sys2Proof Sys2Proof.Claims

section
variable {s : State}
theorem State.wf_setEffect {t : ThreadId} {g : Target} {r : W64} (h : Memory.wf s.mem) : Memory.wf (s.setEffect t g r).mem := h
theorem State.wf_endWait {t : ThreadId} {r : Result} (h : Memory.wf s.mem) : Memory.wf (s.endWait t r).mem := State.wf_updThr (State.wf_deliver h)
theorem State.wf_setStage {t : ThreadId} {g : Stage} (h : Memory.wf s.mem) : Memory.wf (s.setStage t g).mem := h
theorem State.wf_launchIrq {l : Launch} (h : Memory.wf s.mem) : Memory.wf (s.launchIrq l).mem := by
  unfold State.launchIrq
  dsimp only
  repeat' split
  all_goals exact h
theorem State.wf_cohPerform {t : ThreadId} {o : CohOp} (h : Memory.wf s.mem) : Memory.wf (s.cohPerform t o).1.mem := by
  unfold State.cohPerform
  extract_lets n ln cl s1 s2 _ res put old
  have h2 : Memory.wf s2.mem := State.wf_dropL1 (State.wf_ite h (State.wf_l2Touch h))
  have hres {u : State} {v : W64} (hu : Memory.wf u.mem) : Memory.wf (res u v).1.mem := State.wf_setEffect hu
  have hput {b : Bool} {v : Nat} : Memory.wf (put s2 b v).mem := State.wf_ite (State.pocWrite_wf _ _ _ _ h2) h2
  split
  · exact h2
  · split
    · exact hres h2
    · exact hres hput
  · split
    · exact hres h2
    · exact hres hput
  · split
    · exact hres h2
    · exact hres hput
  · split
    · exact hres h2
    refine hres ?_
    split
    · exact State.wf_launchIrq (State.pocWrite_wf _ _ _ _ h2)
    · exact State.pocWrite_wf _ _ _ _ h2
theorem canonical_execCoherencePointOperation {t : ThreadId} (h : Memory.wf s.mem) : Canonical (execCoherencePointOperation t s) := by
  unfold execCoherencePointOperation
  dsimp only
  split
  · split
    · split
      · exact canonical_next (State.wf_trapPend (State.wf_errLog (State.wf_ite h (State.wf_l2Touch h))))
      · exact canonical_next (State.wf_updThr (State.wf_endWait (State.wf_cohPerform h)))
    · exact canonical_next h
  · exact canonical_next h
theorem canonical_execLoadDataArrival {t : ThreadId} (h : Memory.wf s.mem) : Canonical (execLoadDataArrival t s) := by
  unfold execLoadDataArrival
  split
  · exact canonical_next (State.wf_updThr (State.wf_endWait h))
  · exact canonical_next h
  · exact canonical_next h
  · repeat' split
    all_goals exact canonical_next h
  · exact canonical_next h
theorem State.wf_cohRelease {rel : Bool} {sc : Scope} (h : Memory.wf s.mem) : Memory.wf (s.cohRelease rel sc).state.mem := by
  unfold State.cohRelease
  split
  · exact h
  · exact Res.wf_andThen (State.wf_release h) fun _ t ht => ht
theorem State.wf_cohIssue {p : Place} {a : W64} {k : CohKind} {ty : IntTy} {d : SReg} {acq rel : Bool} {sc : Scope} {ev : Bool} (h : Memory.wf s.mem) :
    Memory.wf (s.cohIssue p a k ty d acq rel sc ev).state.mem :=
  Res.wf_andThen (State.wf_phaseGate h) fun _ _ ht => Res.wf_andThen (State.wf_cohRelease (State.wf_settleTh ht)) fun _ _ hu => hu
theorem State.wf_atomic {x : Atom} {op : AOp} (h : Memory.wf s.mem) : Memory.wf (s.atomic x op).state.mem :=
  Res.wf_andThen (State.wf_accessAligned h) fun _ _ ht => State.wf_cohIssue ht
theorem State.wf_reduce {x : MRed} {op : AOp} (h : Memory.wf s.mem) : Memory.wf (s.reduce x op).state.mem := by
  unfold State.reduce
  refine Res.wf_andThen (State.wf_access h) fun a t ht => ?_
  dsimp only
  split
  · exact ht
  split
  · exact ht
  · exact Res.wf_andThen (State.wf_phaseGate ht) fun _ u hu => Res.wf_andThen (State.wf_newEntry hu) fun _ v hv => hv
theorem canonical_execWaitv {x : WaitvA} (h : Memory.wf s.mem) : Canonical (execWaitv x s) := by
  unfold execWaitv
  refine canonical_guarded h (Res.wf_andThen (State.wf_access h) fun a t ht => Res.wf_andThen (State.wf_phaseGate ht) fun a1 u hu => ?_)
  dsimp only
  split
  · exact wf_done (State.wf_deliver (State.wf_versionRead (State.wf_settleTh hu)))
  · exact wf_done (State.wf_wait (State.wf_versionRead (State.wf_settleTh hu)))
theorem canonical_execWaitvTimeout {t : ThreadId} (h : Memory.wf s.mem) : Canonical (execWaitvTimeout t s) := by
  unfold execWaitvTimeout
  dsimp only
  split
  · split
    · exact canonical_next (State.wf_updThr (State.wf_endWait h))
    · exact canonical_next h
  · exact canonical_next h
theorem canonical_execFence {x : FenceA} (h : Memory.wf s.mem) : Canonical (execFence x s) := by
  unfold execFence
  refine canonical_guarded h ?_
  split
  · exact wf_done (State.wf_acquire h)
  · exact Res.wf_andThen (State.wf_release h) fun _ t ht => ht
  refine Res.wf_andThen (State.wf_release h) fun a t ht => ?_
  repeat' split
  all_goals exact ht
theorem State.wf_setBarrier {t : ThreadId} {id : Nat} {b : Barrier} (h : Memory.wf s.mem) : Memory.wf (s.setBarrier t id b).mem := by
  unfold State.setBarrier
  repeat' split
  all_goals exact h
theorem State.wf_barArrive {x : BarA} {sync : Bool} (h : Memory.wf s.mem) : Memory.wf (s.barArrive x sync).state.mem := by
  unfold State.barArrive
  dsimp only
  split
  · exact h
  split
  · split
    · exact h
    · exact wf_done (State.wf_deliver h)
  · split
    · exact h
    · exact Res.wf_andThen (State.wf_release h) fun _ t ht => ht
theorem State.wf_pollBarRel {r : Nat} {sync : Bool} {sc : Scope} {c : W64} {d : SReg} (h : Memory.wf s.mem) :
    Memory.wf (s.pollBarRel r sync sc c d).state.mem := by
  unfold State.pollBarRel
  split
  · exact h
  extract_lets b
  split
  · exact State.wf_trapPend h
  rename_i s1 s2 s3 _
  have h2 : Memory.wf s2.mem := State.wf_setEffect (State.wf_setBarrier h)
  have h3 : Memory.wf s3.mem := by
    unfold s3
    split
    · exact State.wf_updTask h2
    · exact h2
  split
  · exact State.wf_setStage h3
  · exact State.wf_endWait h3
theorem State.wf_pollBarWait {id : Nat} {g : W32} {sc : Scope} {d : SReg} (h : Memory.wf s.mem) :
    Memory.wf (s.pollBarWait id g sc d).state.mem := by
  unfold State.pollBarWait
  dsimp only
  split
  · exact State.wf_endWait h
  · exact h
theorem canonical_execBarwait {x : BarW} (h : Memory.wf s.mem) : Canonical (execBarwait x s) := by
  unfold execBarwait
  refine canonical_finish ?_
  dsimp only
  split
  · exact h
  split
  · exact wf_done (State.wf_acquire h)
  · exact h
theorem canonical_execBarrierComplete {t : TaskId} {bar : Fin 4} (h : Memory.wf s.mem) : Canonical (execBarrierComplete t bar s) := by
  unfold execBarrierComplete
  dsimp only
  repeat' split
  all_goals exact canonical_next h
theorem canonical_execPhadv {x : DOnly} (h : Memory.wf s.mem) : Canonical (execPhadv x s) := by
  unfold execPhadv
  refine canonical_finish ?_
  split
  · exact h
  split
  · exact h
  · exact Res.wf_andThen (State.wf_release h) fun _ t ht => ht
theorem State.wf_pollPhRel {r : Nat} {d : SReg} (h : Memory.wf s.mem) : Memory.wf (s.pollPhRel r d).state.mem := by
  unfold State.pollPhRel
  dsimp only
  repeat' split
  all_goals exact h
theorem State.wf_advance {t : Task} (h : Memory.wf s.mem) : Memory.wf (s.advance t).mem := h
theorem State.wf_phaseTick (h : Memory.wf s.mem) : Memory.wf s.phaseTick.mem := by
  unfold State.phaseTick
  refine State.foldl_wf (fun t a ht => ?_) h
  repeat' split
  all_goals exact ht
theorem State.wf_pollPhWait {ph : W32} {d : SReg} (h : Memory.wf s.mem) : Memory.wf (s.pollPhWait ph d).state.mem := by
  unfold State.pollPhWait
  split
  · exact h
  split
  · exact State.wf_endWait h
  · exact h
theorem canonical_execPhwait {x : DSI} (h : Memory.wf s.mem) : Canonical (execPhwait x s) := by
  unfold execPhwait
  refine canonical_finish ?_
  dsimp only
  split
  · exact h
  split
  · exact h
  · exact wf_done (State.wf_acquire h)
theorem canonical_execIbsend {x : IbS} (h : Memory.wf s.mem) : Canonical (execIbsend x s) := by
  unfold execIbsend
  refine canonical_guarded h ?_
  dsimp only
  split
  · exact h
  · exact Res.wf_andThen (State.wf_release h) fun _ t ht => ht
theorem State.wf_inboxSend {dest v : W64} (h : Memory.wf s.mem) : Memory.wf (s.inboxSend dest v).1.mem := by
  unfold State.inboxSend
  dsimp only
  repeat' split
  all_goals exact h
theorem State.wf_pollIbRel {r : Nat} {sc : Scope} {dest v : W64} {d : SReg} (h : Memory.wf s.mem) :
    Memory.wf (s.pollIbRel r sc dest v d).state.mem := by
  unfold State.pollIbRel
  dsimp only
  split
  · exact h
  split
  · exact State.wf_endWait h
  · exact State.wf_endWait (State.wf_setEffect (State.wf_inboxSend h))
theorem canonical_execIbrecv {x : IbR} (h : Memory.wf s.mem) : Canonical (execIbrecv x s) := by
  unfold execIbrecv
  refine canonical_guarded h ?_
  dsimp only
  split
  · exact wf_done (State.wf_deliver h)
  split
  · exact h
  split
  · exact h
  · exact wf_done (State.wf_deliver h)
theorem State.wf_pollDlFull {w : VWord} {d : SReg} (h : Memory.wf s.mem) : Memory.wf (s.pollDlFull w d).state.mem := by
  unfold State.pollDlFull
  dsimp only
  repeat' split
  all_goals exact h
theorem State.wf_pollDlRel {r : Nat} {a : W64} {d : SReg} (h : Memory.wf s.mem) : Memory.wf (s.pollDlRel r a d).state.mem := by
  unfold State.pollDlRel
  split
  · exact h
  split
  · exact State.wf_endWait h
  split
  · exact h
  split
  · rename_i he1
    exact State.wf_trapPend (Res.wf_of_eq he1 (Res.wf_andThen (State.wf_accessAligned h) fun _ u ht => State.wf_load ht))
  · rename_i he1
    exact Res.wf_of_eq he1 (Res.wf_andThen (State.wf_accessAligned h) fun _ u ht => State.wf_load ht)
  · rename_i he1
    exact State.wf_pollDlFull (Res.wf_of_eq he1 (Res.wf_andThen (State.wf_accessAligned h) fun _ u ht => State.wf_load ht))
theorem canonical_execDsignal {x : DSig} (h : Memory.wf s.mem) : Canonical (execDsignal x s) := by
  unfold execDsignal
  refine canonical_guarded h ?_
  dsimp only
  split
  · exact Res.wf_andThen (State.wf_accessAligned h) fun _ t ht => ht
  split
  · exact h
  · exact Res.wf_andThen (State.wf_access h) fun a t ht => State.wf_cohIssue ht
end

end Sys2Proof.Machine
end

section
/-! SUPPORT. O6, the drains of the store and block buffers, which write device memory through `State.pocWrite`. -/
namespace Sys2Proof.Machine
open Sys2Proof Sys2Proof.Claims

section
variable {s : State}
theorem State.wf_shWrite {sh : TaskId × W32} {cells : List WCell} (h : Memory.wf s.mem) : Memory.wf (s.shWrite sh cells).mem := h
theorem State.wf_reducePerform {e : Entry} {op : AOp} {ty : IntTy} {v : W64} {cl : Nat} (h : Memory.wf s.mem) :
    Memory.wf (s.reducePerform e op ty v cl).mem := by
  unfold State.reducePerform
  dsimp only
  split
  · split
    · exact h
    · exact State.wf_updPart (State.pocWrite_wf _ _ _ _ h)
  · exact h
theorem State.wf_perform {e : Entry} {cl : Nat} (h : Memory.wf s.mem) : Memory.wf (s.perform e cl).mem := by
  unfold State.perform
  dsimp only
  split
  · exact State.wf_reducePerform h
  split
  · exact h
  split
  · split
    · exact h
    · exact State.foldl_wf (fun t a ht => State.wf_l2Touch ht) h
  · exact State.pocWrite_wf _ _ _ _ (State.wf_ite h (State.foldl_wf (fun t a ht => State.wf_l2Touch ht) h))
theorem State.wf_performWindow {e : Entry} {c : Nat} (h : Memory.wf s.mem) : Memory.wf (s.performWindow e c).mem := h
theorem State.wf_drainEntry {c : Nat} {e : Entry} (h : Memory.wf s.mem) : Memory.wf (s.drainEntry c e).mem := by
  unfold State.drainEntry
  dsimp only
  split
  · exact h
  split
  · exact State.wf_perform h
  repeat' split
  all_goals exact h
theorem canonical_execStoreBufferDrain {c : CoreN} {id : Nat} (h : Memory.wf s.mem) : Canonical (execStoreBufferDrain c id s) := by
  unfold execStoreBufferDrain
  split
  · split
    · exact canonical_next (State.wf_drainEntry h)
    · exact canonical_next h
  · exact canonical_next h
theorem canonical_execBlockBufferDrain {c : ClusterN} {id : Nat} {merged : List Nat} (h : Memory.wf s.mem) :
    Canonical (execBlockBufferDrain c id merged s) := by
  unfold execBlockBufferDrain
  dsimp only
  split
  · exact canonical_next h
  split
  · repeat' split
    all_goals exact canonical_next (State.wf_perform h)
  · exact canonical_next h
theorem canonical_execPostedWritePerform (h : Memory.wf s.mem) : Canonical (execPostedWritePerform s) := by
  unfold execPostedWritePerform
  split
  · exact canonical_next h
  · exact canonical_next (State.wf_postedWrite h)
end

end Sys2Proof.Machine
end

section
/-! SUPPORT. O6, snapshots of shape records. -/
namespace Sys2Proof.Machine
open Sys2Proof Sys2Proof.Claims

section
variable {s : State}
theorem State.wf_snapRead {p : Place} {ls : List Nat} (h : Memory.wf s.mem) : Memory.wf (s.snapRead p ls).mem :=
  State.wf_dropL1 (State.foldl_wf (fun _ _ ht => State.wf_request ht) h)
theorem State.wf_snapClean {α : Type} {p : Place} {va n : Nat} {f : State → Res α} (h : Memory.wf s.mem)
    (hf : ∀ t, Memory.wf t.mem → Memory.wf (f t).state.mem) :
    Memory.wf (s.snapClean p va n f).state.mem := by
  unfold State.snapClean
  split
  · exact h
  · exact hf _ h
theorem State.wf_snapTake {a : W64} {sc : Scope} {attempt : Nat} (h : Memory.wf s.mem) : Memory.wf (s.snapTake a sc attempt).state.mem := by
  unfold State.snapTake
  refine Res.wf_andThen (State.wf_phaseGate h) fun a1 t ht => Res.wf_andThen (State.wf_access ht) fun a2 u hu => ?_
  dsimp only
  split
  · exact hu
  refine State.wf_snapClean (State.wf_snapRead (State.wf_settleTh (State.wf_acquire hu))) fun v hv =>
    Res.wf_andThen (State.wf_access hv) fun a3 w hw => ?_
  split
  · exact State.wf_settleTh (State.wf_acquire hu)
  split
  · exact hw
  · exact State.wf_snapClean (State.wf_snapRead hw) fun x1 hx1 => hx1
theorem State.wf_snapKeep {x : Snap} (h : Memory.wf s.mem) : Memory.wf (s.snapKeep x).mem := h
theorem State.wf_snapPoll {x : Snap} {a : W64} {sc : Scope} (h : Memory.wf s.mem) : Memory.wf (s.snapPoll x a sc).state.mem := by
  unfold State.snapPoll
  dsimp only
  split
  · exact State.wf_snapKeep (State.wf_versionReads h)
  split
  · exact State.wf_versionReads h
  split
  · rename_i he
    exact Res.wf_of_eq he (State.wf_snapTake (State.wf_versionReads h))
  · rename_i he
    exact Res.wf_of_eq he (State.wf_snapTake (State.wf_versionReads h))
  · rename_i he
    exact Res.wf_of_eq he (State.wf_snapTake (State.wf_versionReads h))
end

end Sys2Proof.Machine
end

section
/-! SUPPORT. O6, tile instructions, copy-unit jobs as submitted and read, retention. -/
namespace Sys2Proof.Machine
open Sys2Proof Sys2Proof.Claims

section
variable {s : State}
theorem State.wf_drainEnd {c t : Nat} (h : Memory.wf s.mem) : Memory.wf (s.drainEnd c t).mem := by
  unfold State.drainEnd
  dsimp only
  repeat' split
  all_goals exact h
theorem canonical_execTfill {x : TSI} (h : Memory.wf s.mem) : Canonical (execTfill x s) := by
  unfold execTfill
  refine canonical_finish ?_
  dsimp only
  repeat' split
  all_goals exact h
theorem canonical_execTrel {x : TOnly} (h : Memory.wf s.mem) : Canonical (execTrel x s) := by
  unfold execTrel
  refine canonical_finish ?_
  dsimp only
  repeat' split
  all_goals exact h
theorem canonical_execTdef {x : TdefA} (h : Memory.wf s.mem) : Canonical (execTdef x s) := by
  unfold execTdef
  refine canonical_finish ?_
  dsimp only
  repeat' split
  all_goals exact h
theorem State.wf_submitCopy {j : CopyJob} (h : Memory.wf s.mem) : Memory.wf (s.submitCopy j).state.mem := by
  unfold State.submitCopy
  dsimp only
  split
  · exact h
  split
  · exact h
  refine State.wf_updTh (State.wf_updCluster (State.wf_fresh ?_))
  split
  · refine State.wf_setTile ?_
    repeat' split
    all_goals exact h
  · repeat' split
    all_goals exact h
theorem State.wf_cpySide {x : TS} {pos n : Nat} {f : State → Res Unit} (h : Memory.wf s.mem) (hf : ∀ t, Memory.wf t.mem → Memory.wf (f t).state.mem) :
    Memory.wf (s.cpySide x pos n f).state.mem := by
  unfold State.cpySide
  dsimp only
  split
  · exact hf _ h
  split
  · exact h
  split
  · exact h
  · exact hf _ h
theorem canonical_execCpy {x : CpyA} (h : Memory.wf s.mem) : Canonical (execCpy x s) := by
  unfold execCpy
  refine canonical_finish ?_
  dsimp only
  split
  · exact h
  refine State.wf_cpySide h fun t ht => State.wf_cpySide ht fun u hu => ?_
  split
  · exact hu
  · exact Res.wf_andThen (State.wf_submitCopy hu) fun _ v hv => hv
theorem wf_descBad {word : Nat} (h : Memory.wf s.mem) : Memory.wf (descBad s word).state.mem := h
theorem State.wf_descCheck {j : CopyJob} {d : List Byte} {row : Nat} {f : State → Res Unit} (h : Memory.wf s.mem)
    (hf : ∀ t, Memory.wf t.mem → Memory.wf (f t).state.mem) : Memory.wf (s.descCheck j d row f).state.mem := by
  unfold State.descCheck
  extract_lets w c dtv stv block dests dt
  iterate 14 refine Res.wf_ite (wf_descBad h) ?_
  exact hf s h
theorem State.wf_checkedJob {x : CjobA} {d : List Byte} {row : Option Snap} (h : Memory.wf s.mem) : Memory.wf (s.checkedJob x d row).state.mem := by
  unfold State.checkedJob
  dsimp only
  split
  · exact Res.wf_andThen (State.wf_descCheck h fun t ht => ht) fun _ t ht => ht
  refine Res.wf_andThen (State.wf_descCheck h fun t ht => ht) fun a t ht => Res.wf_andThen (State.wf_accessAligned ht) fun a1 u hu =>
    Res.wf_andThen (State.wf_load hu) fun a2 v hv => ?_
  split
  · exact hv
  refine Res.wf_andThen (State.wf_descCheck hv fun w hw => hw) fun a3 w hw => ?_
  repeat' split
  all_goals exact hw
theorem State.wf_pollCjob {d : List Byte} {step : Nat} {x : CjobA} {row : Option Snap} (h : Memory.wf s.mem) :
    Memory.wf (s.pollCjob d step x row).state.mem := by
  unfold State.pollCjob
  extract_lets trap res submit check
  have hsubmit {j : CopyJob} {t : State} (ht : Memory.wf t.mem) : Memory.wf (submit j t).state.mem := by
    unfold submit
    split
    · rename_i he
      exact State.wf_endWait (Res.wf_of_eq he (State.wf_submitCopy ht))
    · rename_i he
      exact State.wf_setStage (Res.wf_of_eq he (State.wf_submitCopy ht))
    · rename_i he
      exact State.wf_trapPend (Res.wf_of_eq he (State.wf_submitCopy ht))
  have hcheck {row : Option Snap} {t : State} (ht : Memory.wf t.mem) : Memory.wf (check row t).state.mem := by
    unfold check
    split
    · rename_i he
      exact hsubmit (Res.wf_of_eq he (State.wf_checkedJob ht))
    · rename_i he
      have hu := Res.wf_of_eq he (State.wf_checkedJob ht)
      split
      · rename_i he
        exact State.wf_setStage (Res.wf_of_eq he (State.wf_snapTake hu))
      · rename_i he
        exact Res.wf_of_eq he (State.wf_snapTake hu)
      · rename_i he
        exact State.wf_trapPend (Res.wf_of_eq he (State.wf_snapTake hu))
    · rename_i he
      exact Res.wf_of_eq he (State.wf_checkedJob ht)
    · rename_i he
      exact State.wf_trapPend (Res.wf_of_eq he (State.wf_checkedJob ht))
  split
  · exact h
  · split
    · exact hcheck h
    split
    · rename_i he
      exact State.wf_trapPend (Res.wf_of_eq he (Res.wf_andThen (State.wf_accessAligned h) fun _ _ ht => State.wf_load ht))
    · rename_i he
      exact Res.wf_of_eq he (Res.wf_andThen (State.wf_accessAligned h) fun _ _ ht => State.wf_load ht)
    · rename_i he
      have ht := Res.wf_of_eq he (Res.wf_andThen (State.wf_accessAligned h) fun _ _ ht => State.wf_load ht)
      extract_lets va
      split
      · rename_i he
        exact hcheck (SnapPoll.wf_of_eq he (State.wf_snapPoll ht))
      · rename_i he
        exact State.wf_setStage (SnapPoll.wf_of_eq he (State.wf_snapPoll ht))
      · rename_i he
        exact SnapPoll.wf_of_eq he (State.wf_snapPoll ht)
      · rename_i he
        exact State.wf_trapPend (SnapPoll.wf_of_eq he (State.wf_snapPoll ht))
  · split
    · rename_i he
      exact hsubmit (Res.wf_of_eq he (State.wf_checkedJob h))
    · rename_i he
      exact Res.wf_of_eq he (State.wf_checkedJob h)
    · rename_i he
      exact Res.wf_of_eq he (State.wf_checkedJob h)
    · rename_i he
      exact State.wf_trapPend (Res.wf_of_eq he (State.wf_checkedJob h))
theorem State.wf_copyReport {l : LiveJob} {d : SReg} {st : W64} (h : Memory.wf s.mem) : Memory.wf (s.copyReport l d st).mem := State.wf_acquire h
theorem canonical_execCpoll {x : DA} (h : Memory.wf s.mem) : Canonical (execCpoll x s) := by
  unfold execCpoll
  refine canonical_finish ?_
  split
  · exact h
  split
  · exact wf_done (State.wf_copyReport h)
  · exact h
theorem canonical_execCwait {x : DA} (h : Memory.wf s.mem) : Canonical (execCwait x s) := by
  unfold execCwait
  refine canonical_finish ?_
  split
  · exact h
  split
  · exact wf_done (State.wf_copyReport h)
  · exact h
theorem State.wf_retainLater {k : Nat} {r : Retain} {clear : Bool} (h : Memory.wf s.mem) : Memory.wf (s.retainLater k r clear).mem := h
theorem State.wf_onePage {a : W64} (h : Memory.wf s.mem) : Memory.wf (s.onePage a).state.mem := by
  unfold State.onePage
  refine Res.wf_andThen (State.wf_access h) fun a1 t ht => ?_
  repeat' split
  all_goals exact ht
theorem canonical_execRset {x : ABC} (h : Memory.wf s.mem) : Canonical (execRset x s) := by
  unfold execRset
  extract_lets a b c k ratio ways valid others
  refine canonical_finish ?_
  iterate 7 refine Res.wf_ite h ?_
  exact Res.wf_andThen (State.wf_onePage h) fun _ _ ht => Res.wf_andThen (State.wf_onePage ht) fun _ _ hu => Res.wf_ite hu (wf_done (State.wf_wait hu))
theorem State.wf_retainIdx {x : SI} {f : Nat → State → Res Unit} (h : Memory.wf s.mem) (hf : ∀ a t, Memory.wf t.mem → Memory.wf (f a t).state.mem) :
    Memory.wf (s.retainIdx x f).state.mem := by
  unfold State.retainIdx
  dsimp only
  split
  · exact h
  split
  · exact h
  · exact hf _ _ h
theorem canonical_execFrarm {x : TSI} (h : Memory.wf s.mem) : Canonical (execFrarm x s) := by
  unfold execFrarm
  refine canonical_finish ?_
  dsimp only
  repeat' split
  all_goals exact h
end

end Sys2Proof.Machine
end

section
/-! SUPPORT. O6, the rows of copy-unit jobs. -/
namespace Sys2Proof.Machine
open Sys2Proof Sys2Proof.Claims

section
variable {s : State}
theorem State.wf_updCopy {cl id : Nat} {f : CopyJob → CopyJob} (h : Memory.wf s.mem) : Memory.wf (s.updCopy cl id f).mem := h
theorem State.wf_jobByte {cl job : Nat} {sh : Option (TaskId × W32)} {p : Place} {first va : Nat} (h : Memory.wf s.mem) :
    Memory.wf (s.jobByte cl job sh p first va).state.mem := by
  unfold State.jobByte
  dsimp only
  repeat' split
  all_goals exact h
theorem State.wf_jobBytes {cl job : Nat} {sh : Option (TaskId × W32)} {p : Place} {first : Nat} {vas : List Nat} (h : Memory.wf s.mem) :
    Memory.wf (s.jobBytes cl job sh p first vas).state.mem := by
  induction vas generalizing s with
  | nil => exact h
  | cons va r ih => exact Res.wf_andThen (State.wf_jobByte h) fun _ _ ht => Res.wf_andThen (ih ht) fun _ _ hu => hu
theorem State.wf_jobRead {cl job : Nat} {sh : Option (TaskId × W32)} {p : Place} {va n : Nat} {ev : Bool} (h : Memory.wf s.mem) :
    Memory.wf (s.jobRead cl job sh p va n ev).state.mem :=
  Res.wf_andThen (State.wf_jobBytes h) fun _ _ ht => State.foldl_wf (fun _ _ hu => State.wf_request hu) ht
theorem State.wf_jobWrite {cl job : Nat} {o : Owner} {sc : Scope} {ev : Bool} {p : Place} {va : Nat} {bs : List (Byte × Bool)} (h : Memory.wf s.mem) :
    Memory.wf (s.jobWrite cl job o sc ev p va bs).state.mem := by
  unfold State.jobWrite
  dsimp only
  repeat' split
  all_goals exact h
theorem canonical_execCopyJobStart {c : ClusterN} (h : Memory.wf s.mem) : Canonical (execCopyJobStart c s) := by
  unfold execCopyJobStart
  dsimp only
  split
  · exact canonical_next h
  · exact canonical_next (State.wf_updCluster (State.wf_updCopy (State.wf_settle h)))
theorem canonical_execMulticastClaim {c : ClusterN} {id : Nat} (h : Memory.wf s.mem) : Canonical (execMulticastClaim c id s) := by
  unfold execMulticastClaim
  repeat' split
  all_goals exact canonical_next h
theorem State.wf_claimTile {c t n : Nat} (h : Memory.wf s.mem) : Memory.wf (s.claimTile c t n).mem := by
  unfold State.claimTile
  repeat' split
  all_goals exact h
theorem State.wf_claimJob {cl : Nat} {j : CopyJob} (h : Memory.wf s.mem) : Memory.wf (s.claimJob cl j).mem := by
  unfold State.claimJob
  dsimp only
  split
  · exact h
  split
  · exact State.wf_updCopy (State.foldl_wf (fun t a ht => State.wf_claimTile ht) h)
  · exact h
theorem State.wf_landClaims (h : Memory.wf s.mem) : Memory.wf s.landClaims.mem :=
  State.foldl_wf (fun _ _ ht => State.foldl_wf (fun _ _ hu => State.wf_claimJob hu) ht) h
theorem State.wf_undrain {j : CopyJob} (h : Memory.wf s.mem) : Memory.wf (s.undrain j).mem := by
  unfold State.undrain
  dsimp only
  repeat' split
  all_goals exact h
theorem State.wf_emptyTiles {l : List (Nat × Nat)} (h : Memory.wf s.mem) : Memory.wf (s.emptyTiles l).mem := by
  unfold State.emptyTiles
  refine State.foldl_wf (fun t a ht => ?_) h
  dsimp only
  repeat' split
  all_goals exact ht
theorem State.wf_copyFault {cl : Nat} {j : CopyJob} {cause : Byte} {addr : W64} (h : Memory.wf s.mem) :
    Memory.wf (s.copyFault cl j cause addr).mem := by
  unfold State.copyFault
  dsimp only
  split
  · exact State.wf_updCopy (State.wf_emptyTiles (State.wf_undrain h))
  refine State.wf_updCopy ?_
  split
  · split
    · exact State.wf_emptyTiles (State.wf_undrain h)
    · exact State.wf_undrain h
  · exact State.wf_undrain h
theorem State.wf_multicastFail {cl : Nat} {j : CopyJob} {failed : List Nat} (h : Memory.wf s.mem) : Memory.wf (s.multicastFail cl j failed).mem :=
  State.wf_updCopy (State.wf_emptyTiles (State.wf_undrain h))
theorem State.wf_rowIndex {cl : Nat} {j : CopyJob} {i : Nat} (h : Memory.wf s.mem) : Memory.wf (s.rowIndex cl j i).state.mem := by
  unfold State.rowIndex
  dsimp only
  split
  · exact Res.wf_andThen (State.wf_accessAligned h) fun a t ht => Res.wf_andThen (State.wf_jobRead ht) fun _ u hu => hu
  · exact h
theorem State.wf_tensorTyped {j : CopyJob} {p : Place} {a : W64} (h : Memory.wf s.mem) : Memory.wf (s.tensorTyped j p a).state.mem := by
  unfold State.tensorTyped
  dsimp only
  repeat' split
  all_goals exact h
theorem State.wf_rowSource {cl : Nat} {j : CopyJob} {si i : Nat} (h : Memory.wf s.mem) : Memory.wf (s.rowSource cl j si i).state.mem := by
  unfold State.rowSource
  dsimp only
  split
  · exact State.wf_jobRead h
  refine Res.wf_andThen (State.wf_access h) fun a1 t ht => ?_
  split
  · exact State.wf_jobRead ht
  · exact Res.wf_andThen (State.wf_tensorTyped ht) fun _ u hu => Res.wf_andThen (State.wf_jobRead hu) fun _ v hv => hv
theorem State.wf_rowDest {cl : Nat} {j : CopyJob} {di : Nat} {bs : List (Byte × Bool)} (h : Memory.wf s.mem) :
    Memory.wf (s.rowDest cl j di bs).state.mem := by
  unfold State.rowDest
  split
  · exact Res.wf_andThen (State.wf_access h) fun _ _ ht => Res.wf_andThen (State.wf_jobWrite ht) fun _ _ hu => hu
  · exact Memory.wf_foldl_of Prod.fst (fun _ _ ht => State.wf_tileArrive ht) h
theorem State.wf_rowMoves {cl : Nat} {j : CopyJob} {i : Nat} (h : Memory.wf s.mem) : Memory.wf (s.rowMoves cl j i).state.mem := by
  unfold State.rowMoves
  refine Res.wf_andThen (State.wf_rowIndex h) fun a t ht => Res.wf_andThen (State.wf_rowSource ht) fun a1 u hu => ?_
  dsimp only
  split
  · split
    · exact hu
    · exact Res.wf_andThen (State.wf_rowDest hu) fun _ v hv => hv
  · split
    · exact hu
    · exact Res.wf_andThen (State.wf_rowDest hu) fun _ v hv => hv
theorem State.wf_copyRow {cl : Nat} {j : CopyJob} {i : Nat} (h : Memory.wf s.mem) : Memory.wf (s.copyRow cl j i).mem := by
  unfold State.copyRow
  dsimp only
  split
  · exact h
  · rename_i he
    exact State.wf_copyFault (Res.wf_of_eq he (State.wf_rowMoves h))
  · rename_i he
    exact State.wf_multicastFail (Res.wf_of_eq he (State.wf_rowMoves h))
  · rename_i he
    have ht := Res.wf_of_eq he (State.wf_rowMoves h)
    refine State.wf_updCopy ?_
    split
    · split
      · exact State.wf_drainEnd ht
      · exact ht
    · exact ht
theorem canonical_execCopyJobRow {c : ClusterN} {id : Nat} (h : Memory.wf s.mem) : Canonical (execCopyJobRow c id s) := by
  unfold execCopyJobRow
  split
  · exact canonical_next h
  split
  · split
    · exact canonical_next (State.wf_copyRow h)
    · exact canonical_next h
  · exact canonical_next h
theorem canonical_execCopyJobComplete {c : ClusterN} {id : Nat} (h : Memory.wf s.mem) : Canonical (execCopyJobComplete c id s) := by
  unfold execCopyJobComplete
  dsimp only
  repeat' split
  all_goals exact canonical_next h
end

end Sys2Proof.Machine
end

section
/-! SUPPORT. O6, flits, lanes and forwarding on the links. -/
namespace Sys2Proof.Machine
open Sys2Proof Sys2Proof.Claims

section
variable {s : State}
theorem State.wf_setPort {q : Nat} {x : Port} (h : Memory.wf s.mem) : Memory.wf (s.setPort q x).mem := h
theorem State.wf_updPort {q : Nat} {f : Port → Port} (h : Memory.wf s.mem) : Memory.wf (s.updPort q f).mem := h
theorem canonical_execFlitReceive {q : Fin 12} {f : VWord} (h : Memory.wf s.mem) : Canonical (execFlitReceive q f s) := by
  unfold execFlitReceive
  refine canonical_next ?_
  repeat' split
  all_goals exact h
theorem canonical_execAckIdleSend {q : Fin 12} (h : Memory.wf s.mem) : Canonical (execAckIdleSend q s) := by
  unfold execAckIdleSend
  refine canonical_next ?_
  repeat' split
  all_goals exact h
theorem canonical_execReplayTimeout {q : Fin 12} (h : Memory.wf s.mem) : Canonical (execReplayTimeout q s) := by
  unfold execReplayTimeout
  refine canonical_next ?_
  repeat' split
  all_goals exact h
theorem State.wf_fragmentLeft {x : Nat × Nat} (h : Memory.wf s.mem) : Memory.wf (s.fragmentLeft x).mem := h
theorem State.wf_owe {x : Option (Nat × Nat)} {n : Nat} (h : Memory.wf s.mem) : Memory.wf (s.owe x n).mem := by
  unfold State.owe
  repeat' split
  all_goals exact h
theorem State.wf_sendFlits {q vc : Nat} {fr : Fragment} {n : Nat} (h : Memory.wf s.mem) : Memory.wf (s.sendFlits q vc fr n).mem := by
  induction n generalizing s with
  | zero => exact h
  | succ n ih =>
    unfold State.sendFlits
    dsimp only
    split
    · exact h
    · exact ih (State.wf_owe (State.wf_setPort h))
theorem canonical_execFragmentTransmit {q : Fin 12} {vc : Fin 8} (h : Memory.wf s.mem) : Canonical (execFragmentTransmit q vc s) := by
  unfold execFragmentTransmit
  dsimp only
  split
  · exact canonical_next h
  split
  · exact canonical_next h
  split
  · refine canonical_next ?_
    split
    · exact State.wf_fragmentLeft (State.wf_updPort (State.wf_sendFlits h))
    · exact State.wf_updPort (State.wf_sendFlits h)
  · exact canonical_next (State.wf_sendFlits h)
theorem State.wf_linkDown {q : Nat} (h : Memory.wf s.mem) : Memory.wf (s.linkDown q).mem := by
  unfold State.linkDown
  refine State.wf_errLog (State.foldl_wf (fun t a ht => ?_) h)
  dsimp only
  split
  · exact State.wf_fragmentLeft (State.wf_owe ht)
  · exact State.wf_owe ht
theorem canonical_execLaneFailure {q : Fin 12} {lane : Fin 16} (h : Memory.wf s.mem) : Canonical (execLaneFailure q lane s) := by
  unfold execLaneFailure
  refine canonical_next ?_
  dsimp only
  repeat' split
  all_goals exact h
theorem canonical_execRetrainComplete {q : Fin 12} {peer : BitVec 16} {ok : Bool} (h : Memory.wf s.mem) :
    Canonical (execRetrainComplete q peer ok s) := by
  unfold execRetrainComplete
  dsimp only
  split
  · exact canonical_next h
  split
  · refine canonical_next ?_
    split
    · exact State.wf_linkDown h
    · exact h
  · split
    · exact canonical_next (State.wf_linkDown h)
    refine canonical_next ?_
    repeat' split
    all_goals exact h
theorem State.wf_dropForward {b : List Byte} {hop egress : Nat} (h : Memory.wf s.mem) : Memory.wf (s.dropForward b hop egress).mem := h
theorem State.wf_forward {b : List Byte} {hop : Nat} {src : Nat × Nat} {n : Nat} (h : Memory.wf s.mem) : Memory.wf (s.forward b hop src n).mem := by
  unfold State.forward
  dsimp only
  split
  · exact State.wf_owe h
  · exact h
end

end Sys2Proof.Machine
end

section
/-! SUPPORT. O6, fragments of messages, their delivery and their acknowledgement. -/
namespace Sys2Proof.Machine
open Sys2Proof Sys2Proof.Claims

section
variable {s : State}
theorem State.wf_launchFragment {bytes : List Byte} {path : Nat} {mine : Option (Nat × Nat)} (h : Memory.wf s.mem) :
    Memory.wf (s.launchFragment bytes path mine).mem :=
  h
theorem State.wf_onThread {t : ThreadId} {task : TaskId} {f : Thread → Thread} (h : Memory.wf s.mem) : Memory.wf (s.onThread t task f).mem := by
  unfold State.onThread
  dsimp only
  repeat' split
  all_goals exact h
theorem State.wf_setMsg {t : ThreadId} {task : TaskId} {seq : W32} {f : MsgStatus → MsgStatus} (h : Memory.wf s.mem) :
    Memory.wf (s.setMsg t task seq f).mem :=
  State.wf_onThread h
theorem State.wf_onTile {c n : Nat} {task : TaskId} {st : TileSt} (h : Memory.wf s.mem) : Memory.wf (s.onTile c n task st).mem := by
  unfold State.onTile
  dsimp only
  repeat' split
  all_goals exact h
theorem State.wf_count {p : Nat} {f : MsgCtr → MsgCtr} (h : Memory.wf s.mem) : Memory.wf (s.count p f).mem := h
theorem State.wf_updRx {k : MsgKey} {f : RxMsg → RxMsg} (h : Memory.wf s.mem) : Memory.wf (s.updRx k f).mem := h
theorem State.wf_closeRx {m : RxMsg} (h : Memory.wf s.mem) : Memory.wf (s.closeRx m).mem := h
theorem State.wf_showRx {m : RxMsg} {code : Nat} (h : Memory.wf s.mem) : Memory.wf (s.showRx m code).mem := by
  unfold State.showRx
  split
  · exact State.wf_setMsg h
  · exact h
theorem State.wf_deliverBytes {m : RxMsg} {x : Post} {off : Nat} {bs : List Byte} (h : Memory.wf s.mem) :
    Memory.wf (s.deliverBytes m x off bs).mem := by
  unfold State.deliverBytes
  dsimp only
  repeat' split
  all_goals exact h
theorem State.wf_writeData {key : MsgKey} {j : Nat} {bs : List Byte} (h : Memory.wf s.mem) : Memory.wf (s.writeData key j bs).mem := by
  unfold State.writeData
  split
  · exact h
  split
  · exact h
  · exact State.wf_updRx (State.wf_deliverBytes h)
theorem State.wf_rebuildRx {key : MsgKey} (h : Memory.wf s.mem) : Memory.wf (s.rebuildRx key).mem := by
  unfold State.rebuildRx
  dsimp only
  split
  · exact h
  split
  · exact h
  · exact State.wf_count (State.wf_updRx (State.foldl_wf (fun t a ht => State.wf_writeData ht) h))
theorem State.wf_matchRx {m : RxMsg} {x : Post} (h : Memory.wf s.mem) : Memory.wf (s.matchRx m x).mem := by
  unfold State.matchRx
  dsimp only
  split
  · exact State.wf_closeRx (State.wf_showRx h)
  split
  · exact State.wf_showRx (State.wf_rebuildRx (State.foldl_wf (fun t a ht => State.wf_writeData ht) h))
  · exact State.wf_rebuildRx (State.foldl_wf (fun t a ht => State.wf_writeData ht) h)
theorem State.wf_keepFragment {key : MsgKey} {fidx : Nat} {bs : List Byte} (h : Memory.wf s.mem) : Memory.wf (s.keepFragment key fidx bs).mem := by
  unfold State.keepFragment
  dsimp only
  split
  · exact h
  split
  · exact State.wf_showRx (State.wf_rebuildRx (State.wf_ite (State.wf_writeData h) h))
  · exact State.wf_rebuildRx (State.wf_ite (State.wf_writeData h) h)
theorem State.wf_arriveFragment {k : FHdr} {now : Nat} {bs : List Byte} (h : Memory.wf s.mem) : Memory.wf (s.arriveFragment k now bs).mem := by
  unfold State.arriveFragment
  dsimp only
  split
  · exact h
  split
  · exact h
  split
  · exact h
  split
  · split
    · exact h
    split
    · exact h
    · exact State.wf_keepFragment h
  · split
    · split
      · exact h
      · exact State.wf_matchRx h
    · split
      · exact State.wf_keepFragment h
      · exact h
theorem State.wf_finalSend {m : TxMsg} {code : Nat} (h : Memory.wf s.mem) : Memory.wf (s.finalSend m code).mem := by
  unfold State.finalSend
  refine State.wf_updPart ?_
  split
  · exact State.wf_onTile (State.wf_setMsg h)
  · exact State.wf_setMsg h
theorem State.wf_arriveAck {k : FHdr} {now : Nat} (h : Memory.wf s.mem) : Memory.wf (s.arriveAck k now).mem := by
  unfold State.arriveAck
  dsimp only
  split
  · split
    · exact State.wf_count (State.wf_finalSend h)
    · exact State.wf_finalSend h
  · exact h
theorem State.wf_sendAck {m : RxMsg} (h : Memory.wf s.mem) : Memory.wf (s.sendAck m).mem := by
  unfold State.sendAck
  dsimp only
  split
  · exact h
  split
  · exact h
  · exact State.foldl_wf (fun t _ ht => ht) h
theorem State.wf_arrive {x : Whole} (h : Memory.wf s.mem) : Memory.wf (s.arrive x).mem := by
  unfold State.arrive
  dsimp only
  split
  · exact State.wf_arriveAck h
  · exact State.wf_arriveFragment h
theorem State.wf_takeArrived {ok : FHdr → Nat → Bool} (h : Memory.wf s.mem) : Memory.wf (s.takeArrived ok).mem :=
  State.foldl_wf (fun _ _ ht => State.wf_arrive (State.wf_owe ht)) h
theorem State.wf_takeFor {p lid : Nat} (h : Memory.wf s.mem) : Memory.wf (s.takeFor p lid).mem := State.wf_takeArrived h
theorem State.wf_takeMessage {k : MsgKey} (h : Memory.wf s.mem) : Memory.wf (s.takeMessage k).mem := State.wf_takeArrived h
end

end Sys2Proof.Machine
end

section
/-! SUPPORT. O6, the matrix engine. -/
namespace Sys2Proof.Machine
open Sys2Proof Sys2Proof.Claims

section
variable {s : State}
theorem State.wf_mtxOpen {f : State → Res Unit} (h : Memory.wf s.mem) (hf : ∀ t, Memory.wf t.mem → Memory.wf (f t).state.mem) :
    Memory.wf (s.mtxOpen f).state.mem := by
  unfold State.mtxOpen
  split
  · exact h
  · exact hf _ h
theorem State.wf_oname {o : OReg} {pos : Nat} (h : Memory.wf s.mem) : Memory.wf (s.oname o pos).state.mem := by
  unfold State.oname
  repeat' split
  all_goals exact h
theorem State.wf_zname {z : ZReg} {pos : Nat} (h : Memory.wf s.mem) : Memory.wf (s.zname z pos).state.mem := by
  unfold State.zname
  repeat' split
  all_goals exact h
theorem canonical_execOclaim {x : OClaim} (h : Memory.wf s.mem) : Canonical (execOclaim x s) := by
  unfold execOclaim
  refine canonical_finish (State.wf_mtxOpen h fun t ht => ?_)
  dsimp only
  split
  · exact ht
  split
  · exact ht
  repeat' split
  all_goals exact wf_done (State.wf_reply ht)
theorem canonical_execZclaim {x : ZClaim} (h : Memory.wf s.mem) : Canonical (execZclaim x s) := by
  unfold execZclaim
  refine canonical_finish (State.wf_mtxOpen h fun t ht => ?_)
  dsimp only
  split
  · exact ht
  split
  · exact ht
  repeat' split
  all_goals exact wf_done (State.wf_reply ht)
theorem State.wf_releaseNames {os zs : List Nat} (h : Memory.wf s.mem) : Memory.wf (s.releaseNames os zs).state.mem := wf_done (State.wf_reply h)
theorem canonical_execOrelease {x : ORel} (h : Memory.wf s.mem) : Canonical (execOrelease x s) := by
  unfold execOrelease
  refine canonical_finish (State.wf_mtxOpen h fun t ht => ?_)
  dsimp only
  split
  · exact ht
  split
  · exact ht
  split
  · exact ht
  · exact State.wf_releaseNames ht
theorem canonical_execZrelease {x : ZRel} (h : Memory.wf s.mem) : Canonical (execZrelease x s) := by
  unfold execZrelease
  refine canonical_finish (State.wf_mtxOpen h fun t ht => ?_)
  dsimp only
  split
  · exact ht
  split
  · exact ht
  split
  · exact ht
  · exact State.wf_releaseNames ht
theorem State.wf_submitMtx {j : MtxJob} {d : SReg} (h : Memory.wf s.mem) : Memory.wf (s.submitMtx j d).state.mem := by
  unfold State.submitMtx
  extract_lets c ready
  split
  · exact h
  split
  · exact h
  rename_i s1 s2 _ _ _ live _
  have h1 : Memory.wf s1.mem := by
    unfold s1
    split
    · exact State.wf_setTile h
    · exact h
  have h2 : Memory.wf s2.mem := by
    unfold s2
    split
    · exact State.wf_setTile h1
    · exact h1
  exact State.wf_ws (State.wf_updTh (State.wf_updCluster (State.wf_fresh h2)))
theorem State.wf_setAcc {cl z : Nat} {a : Machine.Acc} (h : Memory.wf s.mem) : Memory.wf (s.setAcc cl z a).mem := h
theorem State.wf_setSubMode {z : Nat} {m : Bool} (h : Memory.wf s.mem) : Memory.wf (s.setSubMode z m).mem := h
theorem State.wf_tileSide {x : TS} {pos : Nat} {f : State → Res Unit} (h : Memory.wf s.mem) (hf : ∀ t, Memory.wf t.mem → Memory.wf (f t).state.mem) :
    Memory.wf (s.tileSide x pos f).state.mem := by
  unfold State.tileSide
  split
  · split
    · exact h
    · exact hf _ h
  · exact hf _ h
theorem canonical_execOload {x : OLoad} (h : Memory.wf s.mem) : Canonical (execOload x s) := by
  unfold execOload
  refine canonical_finish (State.wf_mtxOpen h fun t ht => Res.wf_andThen (State.wf_oname ht) fun a u hu => State.wf_tileSide hu fun v hv => ?_)
  dsimp only
  split
  · split
    · exact hv
    · exact State.wf_submitMtx hv
  · split
    · exact hv
    · exact State.wf_submitMtx hv
theorem canonical_execMma {x : MmaA} (h : Memory.wf s.mem) : Canonical (execMma x s) := by
  unfold execMma
  refine canonical_finish (State.wf_mtxOpen h fun t ht => Res.wf_andThen (State.wf_zname ht) fun a u hu =>
    Res.wf_andThen (State.wf_oname hu) fun a1 v hv => Res.wf_andThen (State.wf_oname hv) fun a2 w hw => ?_)
  split
  · exact hw
  · exact State.wf_submitMtx hw
theorem canonical_execRmma {x : RMma} (h : Memory.wf s.mem) : Canonical (execRmma x s) := by
  unfold execRmma
  refine canonical_finish (State.wf_mtxOpen h fun t ht => ?_)
  dsimp only
  split
  · exact ht
  split
  · exact ht
  refine Res.wf_andThen (State.wf_zname ht) fun a u hu => Res.wf_andThen (State.wf_oname hu) fun a1 v hv =>
    Res.wf_andThen (State.wf_oname hv) fun a2 w hw => ?_
  split
  · exact hw
  · exact State.wf_submitMtx hw
theorem canonical_execZstore {x : ZSt} (h : Memory.wf s.mem) : Canonical (execZstore x s) := by
  unfold execZstore
  refine canonical_finish (State.wf_mtxOpen h fun t ht => State.wf_tileSide ht fun u hu => Res.wf_andThen (State.wf_zname hu) fun a v hv => ?_)
  extract_lets c k rb fits
  exact Res.wf_ite hv (Res.wf_ite hv (Res.wf_ite hv (State.wf_submitMtx hv)))
theorem canonical_execZload {x : ZLd} (h : Memory.wf s.mem) : Canonical (execZload x s) := by
  unfold execZload
  refine canonical_finish (State.wf_mtxOpen h fun t ht => Res.wf_andThen (State.wf_zname ht) fun a u hu => State.wf_tileSide hu fun v hv => ?_)
  dsimp only
  split
  · split
    · exact hv
    · exact Res.wf_andThen (State.wf_submitMtx hv) fun _ w hw => hw
  · split
    · exact hv
    · exact Res.wf_andThen (State.wf_submitMtx hv) fun _ w hw => hw
theorem State.wf_mtxReport {l : LiveJob} {d : SReg} {st : W64} (h : Memory.wf s.mem) : Memory.wf (s.mtxReport l d st).state.mem := by
  unfold State.mtxReport
  extract_lets s1 s2 s3
  have h2 : Memory.wf s2.mem := State.wf_updMyCore (State.wf_updTh h)
  have h3 : Memory.wf s3.mem := State.wf_acquire (State.wf_orSticky (State.wf_ws h2))
  clear_value s3
  split
  · rename_i info s4 _ _
    have h4 : Memory.wf s4.mem := State.wf_trapAfter h3
    exact h4
  · exact h3
theorem canonical_execMpoll {x : DA} (h : Memory.wf s.mem) : Canonical (execMpoll x s) := by
  unfold execMpoll
  refine canonical_finish (State.wf_mtxOpen h fun t ht => ?_)
  split
  · exact ht
  split
  · exact State.wf_mtxReport ht
  · exact ht
theorem canonical_execMwait {x : DA} (h : Memory.wf s.mem) : Canonical (execMwait x s) := by
  unfold execMwait
  refine canonical_finish (State.wf_mtxOpen h fun t ht => ?_)
  split
  · exact ht
  split
  · exact State.wf_mtxReport ht
  · exact ht
theorem State.wf_updMtx {cl id : Nat} {f : MtxJob → MtxJob} (h : Memory.wf s.mem) : Memory.wf (s.updMtx cl id f).mem := h
theorem State.wf_mtxRead {cl : Nat} {j : MtxJob} {src : Side} {stride : W32} {i n : Nat} {ev : Bool} (h : Memory.wf s.mem) :
    Memory.wf (s.mtxRead cl j src stride i n ev).state.mem := by
  unfold State.mtxRead
  dsimp only
  split
  · exact Res.wf_andThen (State.wf_jobBytes h) fun _ t ht => ht
  · exact Res.wf_andThen (State.wf_access h) fun _ t ht => State.wf_jobRead ht
theorem State.wf_mtxTyped {j : MtxJob} {p : Place} {a : W64} {ofmt : Nat} (h : Memory.wf s.mem) : Memory.wf (s.mtxTyped j p a ofmt).state.mem := by
  unfold State.mtxTyped
  dsimp only
  repeat' split
  all_goals exact h
theorem State.wf_mtxFault {cl : Nat} {j : MtxJob} {cause : Byte} {addr : W64} (h : Memory.wf s.mem) :
    Memory.wf (s.mtxFault cl j cause addr).mem := by
  unfold State.mtxFault
  extract_lets c s1 s2 s3
  have h1 : Memory.wf s1.mem := State.wf_faultLog h
  have h2 : Memory.wf s2.mem := by
    unfold s2
    split
    · exact State.wf_ite (State.wf_setTile h1) h1
    · exact h1
  refine State.wf_updMtx ?_
  unfold s3
  split
  · exact State.wf_ite (State.wf_emptyTiles h2) h2
  · exact h2
theorem State.wf_mtxStep {cl : Nat} {j : MtxJob} {i : Nat} (h : Memory.wf s.mem) : Memory.wf (s.mtxStep cl j i).state.mem := by
  unfold State.mtxStep
  dsimp only
  split
  · exact Res.wf_andThen (State.wf_mtxRead h) fun _ t ht => ht
  · exact h
  · exact h
  · split
    · exact State.wf_tileArrive h
    · exact Res.wf_andThen (State.wf_access h) fun _ t ht => Res.wf_andThen (State.wf_mtxTyped ht) fun _ u hu =>
        Res.wf_andThen (State.wf_jobWrite hu) fun _ v hv => hv
  · exact Res.wf_andThen (State.wf_mtxRead h) fun _ t ht => ht
  · exact h
  · exact h
theorem canonical_execMatrixJobStart {c : ClusterN} (h : Memory.wf s.mem) : Canonical (execMatrixJobStart c s) := by
  unfold execMatrixJobStart
  dsimp only
  split
  · exact canonical_next h
  split
  · exact canonical_next h
  · exact canonical_next (State.wf_updMtx (State.wf_updCluster (State.wf_updTask (State.wf_ite (State.wf_settle h) h))))
theorem State.wf_winBegin {cl : Nat} (h : Memory.wf s.mem) : Memory.wf (s.winBegin cl).mem := by
  unfold State.winBegin
  dsimp only
  repeat' split
  all_goals exact h
theorem State.wf_winTick (h : Memory.wf s.mem) : Memory.wf s.winTick.mem := State.foldl_wf (fun _ _ ht => State.wf_winBegin ht) h
theorem State.wf_mtxFinish {cl : Nat} {j : MtxJob} (h : Memory.wf s.mem) : Memory.wf (s.mtxFinish cl j).mem := h
theorem canonical_execMatrixJobComplete {c : ClusterN} {id : Nat} (h : Memory.wf s.mem) : Canonical (execMatrixJobComplete c id s) := by
  unfold execMatrixJobComplete
  extract_lets cl
  split
  · exact canonical_next h
  split
  · split
    · split
      · split
        · rename_i he
          have ht := Res.wf_of_eq he (State.wf_mtxStep h)
          refine canonical_next (State.wf_updMtx ?_)
          split
          · exact State.wf_ite (State.wf_drainEnd ht) ht
          · exact ht
        · rename_i he
          exact canonical_next (Res.wf_of_eq he (State.wf_mtxStep h))
        · rename_i he
          exact canonical_next (State.wf_mtxFault (Res.wf_of_eq he (State.wf_mtxStep h)))
      · exact canonical_next h
    · split
      · exact canonical_next h
      · exact canonical_next h
  · exact canonical_next h
end

end Sys2Proof.Machine
end

section
/-! SUPPORT. O6, the vector instructions. -/
namespace Sys2Proof.Machine
open Sys2Proof Sys2Proof.Claims

section
variable {s : State}
theorem State.wf_dropPend {f : Stage → Stage} (h : Memory.wf s.mem) : Memory.wf (s.dropPend f).mem := h
theorem State.wf_wvOnly {d : VReg} {m : W32} {v : VWord} (h : Memory.wf s.mem) : Memory.wf (s.wvOnly d m v).mem := h
theorem State.wf_wvG {g : W32} {d : VReg} {v : VWord} (h : Memory.wf s.mem) : Memory.wf (s.wvG g d v).mem := by
  unfold State.wvG
  repeat' split
  all_goals exact h
theorem State.wf_wsV {d : SReg} {v : W64} (h : Memory.wf s.mem) : Memory.wf (s.wsV d v).mem := h
theorem State.wf_vflags {f : Nat} {k : State → Res Unit} (h : Memory.wf s.mem) (hf : ∀ t, Memory.wf t.mem → Memory.wf (k t).state.mem) :
    Memory.wf (s.vflags f k).state.mem := by
  unfold State.vflags
  split
  · exact h
  · exact Res.wf_andThen (hf _ h) fun _ t ht => ht
theorem State.wf_putV {g : W32} {d : VReg} {r : VWord × Nat} (h : Memory.wf s.mem) : Memory.wf (s.putV g d r).state.mem :=
  State.wf_vflags h fun _ ht => wf_done (State.wf_wvG ht)
theorem State.canonical_vflt {o : FOp} {x : VFlt} (h : Memory.wf s.mem) : Canonical (s.vflt o x) :=
  canonical_finish (Res.wf_andThen (State.wf_vsrc h) fun _ _ ht => State.wf_putV ht)
theorem State.canonical_vfmaOp {o : FOp} {x : VFma} (h : Memory.wf s.mem) : Canonical (s.vfmaOp o x) :=
  canonical_finish (Res.wf_andThen (State.wf_vsrc h) fun _ _ ht => State.wf_putV ht)
theorem State.canonical_vfmm {o : FOp} {x : VFMM} (h : Memory.wf s.mem) : Canonical (s.vfmm o x) :=
  canonical_finish (Res.wf_andThen (State.wf_vsrc h) fun _ _ ht => State.wf_putV ht)
theorem State.canonical_vfu {o : FOp} {x : VFU} (h : Memory.wf s.mem) : Canonical (s.vfu o x) :=
  canonical_finish (Res.wf_andThen h fun _ _ ht => State.wf_putV ht)
theorem State.canonical_vintA {o : IOp} {x : VInt} (h : Memory.wf s.mem) : Canonical (s.vintA o x) :=
  canonical_finish (Res.wf_andThen (State.wf_vsrc h) fun _ _ ht => State.wf_putV ht)
theorem State.canonical_vintSh {o : IOp} {x : VIntSh} (h : Memory.wf s.mem) : Canonical (s.vintSh o x) :=
  canonical_finish (Res.wf_andThen h fun _ _ ht => State.wf_putV ht)
theorem State.canonical_vcompare {r : Machine.Rel} {x : VCmp} (h : Memory.wf s.mem) : Canonical (s.vcompare r x) := by
  unfold State.vcompare
  refine canonical_finish (Res.wf_andThen (State.wf_vsrc h) fun a t ht => State.wf_vflags ht fun u hu => ?_)
  repeat' split
  all_goals exact hu
theorem canonical_execVcvt {x : VCvt} (h : Memory.wf s.mem) : Canonical (execVcvt x s) := by
  unfold execVcvt
  refine canonical_finish ?_
  dsimp only
  repeat' split
  all_goals exact State.wf_putV h
theorem State.wf_moveV {k : Hdr} {d : VReg} {f : Nat → W32} (h : Memory.wf s.mem) : Memory.wf (s.moveV k d f).state.mem := wf_done (State.wf_wvG h)
theorem canonical_execVslide {x : VSl} (h : Memory.wf s.mem) : Canonical (execVslide x s) := by
  unfold execVslide
  refine canonical_finish ?_
  dsimp only
  split
  · exact h
  · exact State.wf_moveV h
theorem canonical_execVgetl {x : VGet} (h : Memory.wf s.mem) : Canonical (execVgetl x s) := by
  unfold execVgetl
  refine canonical_finish ?_
  dsimp only
  repeat' split
  all_goals exact h
theorem canonical_execVsetl {x : VSet} (h : Memory.wf s.mem) : Canonical (execVsetl x s) := by
  unfold execVsetl
  refine canonical_finish (Res.wf_andThen (State.wf_src h) fun a t ht => ?_)
  dsimp only
  repeat' split
  all_goals exact ht
theorem State.canonical_vreduce {o : RedOp} {x : VRed} (h : Memory.wf s.mem) : Canonical (s.vreduce o x) :=
  canonical_finish (State.wf_vflags h fun _ ht => ht)
theorem State.canonical_vspecial {x : VV} {f : Nat → Nat × Nat} (h : Memory.wf s.mem) : Canonical (s.vspecial x f) :=
  canonical_finish (State.wf_putV h)
theorem State.wf_gangWide {c : Cap} {write : List (ThreadId × Cap) → List Cap → State → State} (h : Memory.wf s.mem)
    (hf : ∀ a b t, Memory.wf t.mem → Memory.wf (write a b t).mem) :
    Memory.wf (s.gangWide c write).state.mem := by
  unfold State.gangWide
  dsimp only
  split
  · exact wf_done (hf _ _ _ h)
  split
  · exact wf_done (hf _ _ _ h)
  split
  · exact wf_done (hf _ _ _ (State.foldl_wf (fun t _ ht => ht) h))
  · exact h
theorem State.canonical_gangReduce {o : RedOp} {x : VRed} (h : Memory.wf s.mem) : Canonical (s.gangReduce o x) :=
  canonical_finish (State.wf_gangWide h fun _ _ _ ht => State.foldl_wf (fun _ _ hu => hu) ht)
theorem State.wf_gangPut {d : VReg} {cs : List (ThreadId × Cap)} {f : Cap → Nat → W32} (h : Memory.wf s.mem) : Memory.wf (s.gangPut d cs f).mem :=
  State.foldl_wf (fun _ _ ht => ht) h
theorem canonical_execVgbcast {x : VGb} (h : Memory.wf s.mem) : Canonical (execVgbcast x s) := by
  unfold execVgbcast
  refine canonical_finish ?_
  dsimp only
  split
  · exact h
  · exact State.wf_gangWide h fun _ _ t ht => State.wf_gangPut ht
end

end Sys2Proof.Machine
end

section
/-! SUPPORT. O6, segment maps and the ragged forms. -/
namespace Sys2Proof.Machine
open Sys2Proof Sys2Proof.Claims

section
variable {s : State}
theorem State.wf_bindMap {x : Snap} {sel : Bool} {origin count : W64} {d : SReg} (h : Memory.wf s.mem) :
    Memory.wf (s.bindMap x sel origin count d).state.mem := by
  unfold State.bindMap
  dsimp only
  repeat' split
  all_goals exact h
theorem wf_trapAddrA {a : W64} {r : Res Unit} (h : Memory.wf r.state.mem) : Memory.wf (trapAddrA a r).state.mem := by
  unfold trapAddrA
  split
  · exact h
  · exact h
theorem canonical_execRbind {x : RBind} (h : Memory.wf s.mem) : Canonical (execRbind x s) := by
  refine canonical_finish (wf_trapAddrA ?_)
  split
  · exact h
  split
  · exact h
  · exact Res.wf_andThen (State.wf_snapTake h) fun _ _ ht => State.wf_wait ht
theorem State.wf_pollRbind {sn : Snap} {a : W64} {sel : Bool} {sc : Scope} {o c : W64} {d : SReg} (h : Memory.wf s.mem) :
    Memory.wf (s.pollRbind sn a sel sc o c d).state.mem := by
  unfold State.pollRbind
  split
  · rename_i he
    exact SnapPoll.wf_of_eq he (State.wf_snapPoll h)
  · rename_i he
    exact State.wf_setStage (SnapPoll.wf_of_eq he (State.wf_snapPoll h))
  · rename_i he
    exact State.wf_trapPend (SnapPoll.wf_of_eq he (State.wf_snapPoll h))
  · rename_i he
    have ht := SnapPoll.wf_of_eq he (State.wf_snapPoll h)
    split
    · rename_i he1
      exact State.wf_endWait (Res.wf_of_eq he1 (State.wf_bindMap ht))
    · rename_i he1
      exact Res.wf_of_eq he1 (State.wf_bindMap ht)
    · rename_i he1
      exact State.wf_trapPend (Res.wf_of_eq he1 (State.wf_bindMap ht))
theorem State.wf_segMap {sel : Bool} {f : SegMap → State → Res Unit} (h : Memory.wf s.mem) (hf : ∀ a t, Memory.wf t.mem → Memory.wf (f a t).state.mem) :
    Memory.wf (s.segMap sel f).state.mem := by
  unfold State.segMap
  dsimp only
  split
  · split
    · exact hf _ _ h
    · exact h
  · split
    · exact hf _ _ h
    · exact h
theorem canonical_execRrow {x : RRow} (h : Memory.wf s.mem) : Canonical (execRrow x s) := by
  unfold execRrow
  refine canonical_guarded h (State.wf_segMap h fun x1 t ht => ?_)
  dsimp only
  repeat' split
  all_goals exact ht
theorem canonical_execRpseg {x : RPseg} (h : Memory.wf s.mem) : Canonical (execRpseg x s) := by
  unfold execRpseg
  refine canonical_finish (State.wf_segMap h fun x1 t ht => ?_)
  dsimp only
  repeat' split
  all_goals exact ht
theorem wf_crossing {m : SegMap} {k j : Nat} {addr : W64} (h : Memory.wf s.mem) : Memory.wf (crossing s m k j addr).state.mem := h
theorem State.wf_laneAccess {a b : W64} {js : List Nat} (h : Memory.wf s.mem) : Memory.wf (s.laneAccess a b js).state.mem := by
  induction js generalizing s with
  | nil => exact h
  | cons j r ih => exact Res.wf_andThen (State.wf_accessAligned h) fun _ _ ht => Res.wf_andThen (ih ht) fun _ _ hu => hu
theorem State.wf_laneLoad {hint : Nat} {l : List (Nat × W64 × Place)} (h : Memory.wf s.mem) : Memory.wf (s.laneLoad hint l).state.mem := by
  induction l generalizing s with
  | nil => exact h
  | cons e r ih => exact Res.wf_andThen (State.wf_load h) fun _ _ ht => Res.wf_andThen (ih ht) fun _ _ hu => hu
theorem State.wf_lanesLoad {hint : Nat} {l : List (Nat × W64 × Place)} (h : Memory.wf s.mem) : Memory.wf (s.lanesLoad hint l).state.mem := by
  unfold State.lanesLoad
  split
  · exact State.wf_updTh h
  · exact State.wf_laneLoad h
theorem canonical_execRvld {x : RVld} (h : Memory.wf s.mem) : Canonical (execRvld x s) := by
  unfold execRvld
  refine canonical_finish (State.wf_segMap h fun x1 t ht => ?_)
  dsimp only
  split
  · exact ht
  split
  · exact ht
  refine Res.wf_andThen (State.wf_laneAccess ht) fun a u hu => Res.wf_andThen (State.wf_lanesLoad hu) fun a1 v hv => ?_
  split
  · exact hv
  · exact wf_done (State.wf_reply hv)
theorem State.canonical_rreduce {o : RedOp} {x : RVRed} (h : Memory.wf s.mem) : Canonical (s.rreduce o x) := by
  unfold State.rreduce
  refine canonical_finish (State.wf_segMap h fun x1 t ht => ?_)
  dsimp only
  split
  · exact ht
  refine State.wf_vflags ht fun u hu => ?_
  repeat' split
  all_goals exact hu
theorem canonical_execRvnorm {x : RVnorm} (h : Memory.wf s.mem) : Canonical (execRvnorm x s) := by
  unfold execRvnorm
  refine canonical_finish (State.wf_segMap h fun x1 t ht => ?_)
  dsimp only
  split
  · exact ht
  split
  · exact ht
  refine State.wf_vflags ht fun u hu => ?_
  repeat' split
  all_goals exact hu
end

end Sys2Proof.Machine
end

section
/-! SUPPORT. O6, system and trap instructions, pair forms and soft errors. -/
namespace Sys2Proof.Machine
open Sys2Proof Sys2Proof.Claims

section
variable {s : State}
theorem State.canonical_superOnly {f : State → Res Unit} (h : Memory.wf s.mem) (hf : ∀ t, Memory.wf t.mem → Memory.wf (f t).state.mem) :
    Canonical (s.superOnly f) := by
  unfold State.superOnly
  refine canonical_finish ?_
  split
  · exact hf _ h
  · exact h
theorem State.wf_workerRec {pos : Nat} {f : TrapRec → State → Res Unit} (h : Memory.wf s.mem)
    (hf : ∀ a t, Memory.wf t.mem → Memory.wf (f a t).state.mem) :
    Memory.wf (s.workerRec pos f).state.mem := by
  unfold State.workerRec
  split
  · split
    · exact h
    · exact hf _ _ h
  · exact h
theorem State.wf_killParked {r : TrapRec} (h : Memory.wf s.mem) : Memory.wf (s.killParked r).mem := by
  unfold State.killParked
  dsimp only
  split
  · exact State.wf_faultTask (State.wf_endThread h)
  · exact State.wf_endThread h
theorem canonical_execExit {x : HOnly} (h : Memory.wf s.mem) : Canonical (execExit x s) := by
  unfold execExit
  refine canonical_finish ?_
  dsimp only
  split
  · exact h
  refine wf_done (State.wf_idle7 ?_)
  split
  · split
    · exact h
    · exact State.wf_killParked h
  · exact h
theorem canonical_execXrd {x : DSI} (h : Memory.wf s.mem) : Canonical (execXrd x s) := by
  unfold execXrd
  refine State.canonical_superOnly h fun t ht => State.wf_workerRec ht fun x1 u hu => ?_
  dsimp only
  repeat' split
  all_goals exact hu
theorem canonical_execXwr {x : XwrA} (h : Memory.wf s.mem) : Canonical (execXwr x s) := by
  unfold execXwr
  refine State.canonical_superOnly h fun t ht => State.wf_workerRec ht fun x1 u hu => ?_
  dsimp only
  repeat' split
  all_goals exact hu
theorem State.wf_lineImage {line : Nat} (h : Memory.wf s.mem) : Memory.wf (s.lineImage line).2.mem := by
  unfold State.lineImage
  split
  · exact h
  split
  · rename_i he1
    exact (State.wf_snd_of_eq he1 (State.wf_fetchPage h) :)
  · rename_i he1
    exact (State.wf_snd_of_eq he1 (State.wf_fetchPage h) :)
theorem State.wf_pcAfterBundle {pc : W64} (h : Memory.wf s.mem) : Memory.wf (s.pcAfterBundle pc).2.mem := by
  unfold State.pcAfterBundle
  split
  · rename_i he
    exact (State.wf_snd_of_eq he (State.wf_lineImage h) :)
theorem canonical_execTresume {x : TresA} (h : Memory.wf s.mem) : Canonical (execTresume x s) := by
  refine State.canonical_superOnly h fun t ht => State.wf_workerRec ht fun r u hu => ?_
  have hp : Memory.wf (if x.next then u.pcAfterBundle r.pc else (r.pc, u)).2.mem := by
    split
    · exact State.wf_pcAfterBundle hu
    · exact hu
  exact State.wf_idle7 (State.wf_unpark hp)
theorem canonical_execTret {x : HOnly} (h : Memory.wf s.mem) : Canonical (execTret x s) := by
  unfold execTret
  refine State.canonical_superOnly h fun t ht => ?_
  dsimp only
  repeat' split
  all_goals exact ht
theorem State.wf_takeRecord {c : Nat} (h : Memory.wf s.mem) : Memory.wf (s.takeRecord c).mem := by
  unfold State.takeRecord
  dsimp only
  repeat' split
  all_goals exact h
theorem canonical_execHostXlinv {p : PartN} {v : W64} (h : Memory.wf s.mem) : Canonical (execHostXlinv p v s) := by
  unfold execHostXlinv
  refine canonical_next ?_
  dsimp only
  repeat' split
  all_goals exact h
theorem State.wf_xlPerform {p : Nat} {o : Option ThreadId × Option Nat} (h : Memory.wf s.mem) : Memory.wf (s.xlPerform p o).mem := by
  unfold State.xlPerform
  dsimp only
  split
  · split
    · exact State.wf_updThr (State.wf_endWait h)
    · exact h
  · exact h
theorem canonical_execXlinvComplete {p : PartN} (h : Memory.wf s.mem) : Canonical (execXlinvComplete p s) := by
  unfold execXlinvComplete
  dsimp only
  split
  · exact canonical_next (State.wf_updPart (State.foldl_wf (fun t a ht => State.wf_xlPerform ht) h))
  · exact canonical_next h
theorem State.wf_spillRecord {c : Nat} {sp : Spill} {addr : W64} (h : Memory.wf s.mem) : Memory.wf (s.spillRecord c sp addr).mem :=
  State.wf_appendRec h
theorem State.wf_spillGo {c : Nat} (h : Memory.wf s.mem) : Memory.wf (s.spillGo c).mem := by
  unfold State.spillGo
  dsimp only
  split
  · exact h
  split
  · exact h
  split
  · split
    · repeat' split
      all_goals exact h
    · exact State.wf_spillRecord h
  · exact State.wf_spillRecord h
theorem wf_atStep {n : Nat} {r : Res Unit} (h : Memory.wf r.state.mem) : Memory.wf (atStep n r).state.mem := by
  unfold atStep
  split
  · exact h
  · exact h
theorem canonical_execLdpi {x : LdpiA} (h : Memory.wf s.mem) : Canonical (execLdpi x s) := by
  unfold execLdpi
  refine canonical_finish ?_
  dsimp only
  split
  · exact h
  · exact Res.wf_andThen (State.wf_accessAligned h) fun a t ht => Res.wf_andThen (State.wf_load ht) fun _ u hu => hu
theorem canonical_execStpi {x : StpiA} (h : Memory.wf s.mem) : Canonical (execStpi x s) := by
  unfold execStpi
  refine canonical_finish (Res.wf_andThen (State.wf_accessAligned h) fun a t ht => Res.wf_andThen (State.wf_phaseGate ht) fun a1 u hu => ?_)
  dsimp only
  repeat' split
  all_goals exact hu
theorem State.wf_trapNow {t : ThreadId} {cause : Byte} {addr info : W64} (h : Memory.wf s.mem) : Memory.wf (s.trapNow t cause addr info).mem := by
  unfold State.trapNow
  split
  · exact State.wf_trapPend h
  · exact State.wf_trapAfter h
theorem State.wf_transientError {t : ThreadId} (h : Memory.wf s.mem) : Memory.wf (s.transientError t).mem := by
  unfold State.transientError
  dsimp only
  split
  · exact State.wf_updThr (State.wf_disbandGang h)
  · exact State.wf_trapNow h
theorem State.wf_registerError {t : ThreadId} {f : RegFile} {n w : Nat} (h : Memory.wf s.mem) : Memory.wf (s.registerError t f n w).mem := by
  unfold State.registerError
  split
  · exact State.wf_transientError h
  · exact h
theorem canonical_execSoftErrorDetected {e : SoftErr} (h : Memory.wf s.mem) : Canonical (execSoftErrorDetected e s) := by
  unfold execSoftErrorDetected
  split
  · exact canonical_next h
  · exact canonical_next h
  · split
    · refine canonical_next ?_
      split
      · exact h
      · exact State.wf_registerError h
    · refine canonical_next ?_
      split
      · exact h
      · exact State.wf_registerError h
    · exact canonical_next h
  · refine canonical_next ?_
    split
    · exact State.wf_transientError h
    · exact h
end

end Sys2Proof.Machine
end

section
/-! SUPPORT. O6, queues, launches and dispatch; the command processor writes device memory through `State.cpWrite`. -/
namespace Sys2Proof.Machine
open Sys2Proof Sys2Proof.Claims

section
variable {s : State}
theorem State.wf_cpWalk {p va : Nat} (h : Memory.wf s.mem) : Memory.wf (s.cpWalk p va).2.mem := State.foldl_wf (fun _ _ ht => State.wf_l2Touch ht) h
theorem State.wf_cpPages {p : Nat} {k : Kind} {user : Bool} {fin n va : Nat} {acc : List Pg} (h : Memory.wf s.mem) :
    Memory.wf (s.cpPages p k user fin n va acc).2.mem := by
  induction n generalizing s va acc with
  | zero => exact h
  | succ n ih =>
    have hw : Memory.wf (s.cpWalk p va).2.mem := State.wf_cpWalk h
    unfold State.cpPages
    split
    · exact h
    revert hw
    rcases s.cpWalk p va with ⟨⟨e, sz, _⟩ | _, t⟩
    · intro ht
      dsimp only
      split
      · exact ht
      · exact ih ht
    · exact fun ht => ht
theorem State.wf_cpAccess {p : Nat} {k : Kind} {user : Bool} {a n : Nat} (h : Memory.wf s.mem) : Memory.wf (s.cpAccess p k user a n).2.mem := by
  unfold State.cpAccess
  split
  · exact h
  split
  · exact h
  · exact State.wf_cpPages h
theorem State.wf_cpTouch {pgs : List Pg} {a n : Nat} (h : Memory.wf s.mem) : Memory.wf (s.cpTouch pgs a n).mem := by
  unfold State.cpTouch
  split
  · exact h
  · exact State.foldl_wf (fun t _ ht => State.wf_l2Touch ht) h
theorem State.wf_cpRead {p a n : Nat} (h : Memory.wf s.mem) : Memory.wf (s.cpRead p a n).2.mem := by
  unfold State.cpRead
  split
  · rename_i he
    exact State.wf_cpTouch (State.wf_snd_of_eq he (State.wf_cpAccess h))
  · rename_i he
    exact (State.wf_snd_of_eq he (State.wf_cpAccess h) :)
theorem wf_cpThen {α β : Type} {r : Option α × State} {f : α → State → Option β × State} (h : Memory.wf r.2.mem)
    (hf : ∀ a t, Memory.wf t.mem → Memory.wf (f a t).2.mem) : Memory.wf (cpThen r f).2.mem := by
  rcases r with ⟨_ | a, t⟩
  · exact h
  · exact hf a t h
theorem State.wf_cpWrite {p a : Nat} {bs : List Byte} (h : Memory.wf s.mem) : Memory.wf (s.cpWrite p a bs).1.mem := by
  unfold State.cpWrite
  split
  · rename_i he
    exact State.pocWrite_wf _ _ _ _ (State.wf_cpTouch (State.wf_snd_of_eq he (State.wf_cpAccess h)))
  · rename_i he
    exact State.wf_snd_of_eq he (State.wf_cpAccess h)
theorem State.wf_writeRecord {l : Launch} (h : Memory.wf s.mem) : Memory.wf (s.writeRecord l).mem := by
  have hw : Memory.wf (s.cpWrite l.part ((s.part l.part).recAddr l.lid) l.bytes).1.mem := State.wf_cpWrite h
  unfold State.writeRecord
  revert hw
  dsimp only
  rcases s.cpWrite l.part ((s.part l.part).recAddr l.lid) l.bytes with ⟨t, _ | c⟩
  · exact fun ht => ht
  · exact fun ht => State.wf_faultLog ht
theorem State.wf_recordOf {p lid : Nat} (h : Memory.wf s.mem) : Memory.wf (s.recordOf p lid).mem := by
  unfold State.recordOf
  split
  · exact State.wf_writeRecord h
  · exact h
theorem State.wf_markLost {c : Nat} (h : Memory.wf s.mem) : Memory.wf (s.markLost c).mem := h
theorem State.wf_wake {c : Nat} {pass : Bool} (h : Memory.wf s.mem) : Memory.wf (s.wake c pass).mem := h
theorem State.wf_putEntry {c e : Nat} {v : W64} (h : Memory.wf s.mem) : Memory.wf (s.putEntry c e v).mem := by
  unfold State.putEntry
  dsimp only
  repeat' split
  all_goals exact h
theorem canonical_execSlotTableWrite {c : ClusterN} {e : Fin 8} {v : W64} (h : Memory.wf s.mem) : Canonical (execSlotTableWrite c e v s) := by
  unfold execSlotTableWrite
  dsimp only
  split
  · split
    · split
      · refine canonical_next ?_
        repeat' split
        all_goals exact h
      · exact canonical_next (State.wf_putEntry h)
    · split
      · refine canonical_next ?_
        repeat' split
        all_goals exact h
      · exact canonical_next (State.wf_putEntry h)
  · exact canonical_next h
theorem canonical_execSltstatClear {v : W32} (h : Memory.wf s.mem) : Canonical (execSltstatClear v s) := by
  unfold execSltstatClear
  refine canonical_next ?_
  dsimp only
  repeat' split
  all_goals exact h
theorem State.wf_applyDeferred (h : Memory.wf s.mem) : Memory.wf s.applyDeferred.mem := by
  unfold State.applyDeferred
  refine State.foldl_wf (fun t a ht => ?_) h
  dsimp only
  split
  · exact ht
  · exact State.wf_putEntry ht
theorem State.wf_writeSignal {l : Launch} (h : Memory.wf s.mem) : Memory.wf (s.writeSignal l).mem := by
  unfold State.writeSignal
  split
  · exact h
  split
  · rename_i he
    exact State.wf_fst_of_eq he (State.wf_cpWrite h)
  · rename_i he
    exact State.wf_faultLog (State.wf_fst_of_eq he (State.wf_cpWrite h))
theorem State.wf_announce {l : Launch} (h : Memory.wf s.mem) : Memory.wf (s.announce l).mem := by
  unfold State.announce
  dsimp only
  split
  · exact State.wf_launchIrq (State.wf_writeSignal h)
  · exact State.wf_writeSignal h
theorem State.wf_updQueue {p q : Nat} {f : Queue → Queue} (h : Memory.wf s.mem) : Memory.wf (s.updQueue p q f).mem := h
theorem State.wf_endTeardown {p q : Nat} (h : Memory.wf s.mem) : Memory.wf (s.endTeardown p q).mem := by
  unfold State.endTeardown
  dsimp only
  repeat' split
  all_goals exact h
theorem State.wf_expertReturn {p : Nat} (h : Memory.wf s.mem) : Memory.wf (s.expertReturn p).mem := by
  unfold State.expertReturn
  dsimp only
  split
  · exact h
  · exact State.foldl_wf (fun t _ ht => ht) h
theorem State.wf_closeMessages {l : Launch} (h : Memory.wf s.mem) : Memory.wf (s.closeMessages l).mem := h
theorem State.wf_close {p lid status : Nat} (h : Memory.wf s.mem) : Memory.wf (s.close p lid status).mem := by
  unfold State.close
  extract_lets s1
  have h1 : Memory.wf s1.mem := State.wf_updLaunch (State.wf_takeFor h)
  split
  · exact h1
  rename_i l _
  extract_lets s2 s3
  have h2 : Memory.wf s2.mem := State.wf_closeMessages (State.wf_announce (State.wf_writeRecord h1))
  have h3 : Memory.wf s3.mem := h2
  exact State.wf_applyDeferred (State.wf_expertReturn (State.wf_endTeardown h3))
theorem State.wf_vtJoin (h : Memory.wf s.mem) : Memory.wf s.vtJoin.mem := by
  unfold State.vtJoin
  refine State.foldl_wf (fun t a ht => State.foldl_wf (fun u a1 hu => ?_) ht) h
  dsimp only
  repeat' split
  all_goals exact hu
theorem State.wf_drain {p q : Nat} (h : Memory.wf s.mem) : Memory.wf (s.drain p q).mem := by
  unfold State.drain
  split
  · exact State.wf_endTeardown h
  · exact h
theorem State.wf_queueErr {p q code : Nat} (h : Memory.wf s.mem) : Memory.wf (s.queueErr p q code).mem := State.wf_drain h
theorem State.wf_landPosted {c : Nat} (h : Memory.wf s.mem) : Memory.wf (s.landPosted c).mem :=
  State.foldl_wf (fun _ _ ht => State.wf_postedWrite ht) h
theorem State.wf_clearCore {c p : Nat} (h : Memory.wf s.mem) : Memory.wf (s.clearCore c p).mem := State.wf_updCore (State.wf_landPosted h)
theorem State.wf_freeNames {t : Task} {cl : Nat} (h : Memory.wf s.mem) : Memory.wf (s.freeNames t cl).mem := h
theorem State.wf_dropMessages {t : TaskId} (h : Memory.wf s.mem) : Memory.wf (s.dropMessages t).mem := h
theorem State.wf_freeRed {cl : Nat} {e : Entry} (h : Memory.wf s.mem) : Memory.wf (s.freeRed cl e).mem := by
  unfold State.freeRed
  split
  · rename_i he
    have ht := State.wf_snd_of_eq he h
    split
    · exact State.wf_updCluster ht
    · exact ht
theorem State.wf_drainTask {p cl : Nat} {cs : List Nat} (h : Memory.wf s.mem) : Memory.wf (s.drainTask p cl cs).mem :=
  State.foldl_wf (fun _ _ ht => State.wf_perform ht) (State.wf_updCluster (State.foldl_wf (fun _ _ ht => State.wf_freeRed ht) h))
theorem State.wf_freeFrame {t : TaskId} {f : Nat} (h : Memory.wf s.mem) : Memory.wf (s.freeFrame t f).mem := h
theorem State.wf_discardTask {t : Task} (h : Memory.wf s.mem) : Memory.wf (s.discardTask t).mem := by
  unfold State.discardTask
  extract_lets cs s1 s2 s3 s4
  have h1 : Memory.wf s1.mem := State.wf_takeFor h
  have h2 : Memory.wf s2.mem := by
    unfold s2
    split
    · exact State.wf_drainTask (State.wf_stopJobs (State.wf_freeNames h1))
    · extract_lets sp s5
      have h5 : Memory.wf s5.mem := State.wf_ite h1 (State.wf_freeFrame h1)
      exact State.wf_drainTask (State.wf_stopJobs (State.wf_ite h5 (State.wf_freeNames h5)))
    · exact State.wf_freeFrame h1
    · exact State.wf_freeFrame h1
    · exact h1
  have h3 : Memory.wf s3.mem := State.foldl_wf (fun _ _ hu => State.wf_clearCore (State.wf_updCore hu)) h2
  have h4 : Memory.wf s4.mem := State.wf_dropMessages h3
  exact h4
theorem State.wf_abortLaunches {p q : Nat} (h : Memory.wf s.mem) : Memory.wf (s.abortLaunches p q).mem :=
  State.foldl_wf (fun _ _ ht => State.wf_close (State.foldl_wf (fun _ _ hu => State.wf_discardTask hu) ht)) h
theorem State.wf_abort {p q : Nat} (h : Memory.wf s.mem) : Memory.wf (s.abort p q).mem := by
  unfold State.abort
  dsimp only
  split
  · exact State.wf_endTeardown (State.wf_abortLaunches h)
  · exact h
theorem State.wf_enableQueue {p q : Nat} (h : Memory.wf s.mem) : Memory.wf (s.enableQueue p q).mem := by
  unfold State.enableQueue
  dsimp only
  repeat' split
  all_goals exact h
theorem State.wf_overrun {p q : Nat} (h : Memory.wf s.mem) : Memory.wf (s.overrun p q).mem := by
  unfold State.overrun
  dsimp only
  split
  · exact State.wf_queueErr h
  · exact h
theorem State.wf_writeQctl {p q : Nat} {v : W64} (h : Memory.wf s.mem) : Memory.wf (s.writeQctl p q v).mem := by
  unfold State.writeQctl
  extract_lets k n s1 s2
  have h1 : Memory.wf s1.mem := State.wf_updQueue h
  have h2 : Memory.wf s2.mem := State.wf_ite (State.wf_enableQueue h1) (State.wf_ite (State.wf_drain h1) h1)
  clear_value s2
  split
  · exact State.wf_ite h2 (State.wf_overrun h2)
  split
  · exact State.wf_drain h2
  split
  · exact State.wf_vtJoin (State.wf_abort h2)
  · exact State.wf_vtJoin h2
theorem State.canonical_onQueue {p q : Nat} {f : State → State} (h : Memory.wf s.mem) (hf : ∀ t, Memory.wf t.mem → Memory.wf (f t).mem) :
    Canonical (s.onQueue p q f) := by
  unfold State.onQueue
  refine canonical_next ?_
  split
  · exact hf _ h
  · exact h
theorem canonical_execQueueEnable {p : PartN} {q : Fin 64} {v : W64} (h : Memory.wf s.mem) : Canonical (execQueueEnable p q v s) := by
  unfold execQueueEnable
  refine State.canonical_onQueue h fun t ht => ?_
  split
  · exact State.wf_writeQctl ht
  · exact ht
theorem canonical_execQueueDisable {p : PartN} {q : Fin 64} {v : W64} (h : Memory.wf s.mem) : Canonical (execQueueDisable p q v s) := by
  unfold execQueueDisable
  refine State.canonical_onQueue h fun t ht => ?_
  split
  · exact State.wf_writeQctl ht
  · exact ht
theorem canonical_execQueueDrain {p : PartN} {q : Fin 64} {v : W64} (h : Memory.wf s.mem) : Canonical (execQueueDrain p q v s) := by
  unfold execQueueDrain
  refine State.canonical_onQueue h fun t ht => ?_
  split
  · exact State.wf_writeQctl ht
  · exact ht
theorem canonical_execQueueAbort {p : PartN} {q : Fin 64} {v : W64} (h : Memory.wf s.mem) : Canonical (execQueueAbort p q v s) := by
  unfold execQueueAbort
  refine State.canonical_onQueue h fun t ht => ?_
  split
  · exact State.wf_writeQctl ht
  · exact ht
theorem State.wf_entryWalks {p : Nat} {d : List Byte} {addr : W64} (h : Memory.wf s.mem) : Memory.wf (s.entryWalks p d addr).mem := by
  unfold State.entryWalks
  refine State.foldl_wf (fun t a ht => ?_) h
  split
  · exact State.wf_cpAccess ht
  · exact ht
theorem State.wf_readPresets {p : Nat} {d : List Byte} {addr : W64} (h : Memory.wf s.mem) : Memory.wf (s.readPresets p d addr).2.mem := by
  unfold State.readPresets
  dsimp only
  split
  · exact h
  split
  · exact h
  · exact wf_cpThen (State.wf_cpRead h) fun _ _ ht => ht
theorem State.wf_readGroup {p a : Nat} (h : Memory.wf s.mem) : Memory.wf (s.readGroup p a).2.mem :=
  wf_cpThen (State.wf_cpRead h) fun _ _ ht => wf_cpThen (State.wf_cpRead ht) fun _ _ hu => wf_cpThen (State.wf_cpRead hu) fun _ _ hv => hv
theorem State.wf_readProfiles {p nset : Nat} (h : Memory.wf s.mem) : Memory.wf (s.readProfiles p nset).2.mem := by
  unfold State.readProfiles
  split
  · rename_i he
    exact (State.wf_snd_of_eq he (State.wf_cpRead h) :)
  · rename_i he
    exact (State.wf_snd_of_eq he (State.wf_cpRead h) :)
theorem State.wf_readAll {p : Nat} {k : Packet} (h : Memory.wf s.mem) : Memory.wf (s.readAll p k).2.mem := by
  refine wf_cpThen (State.wf_cpRead h) fun _ _ ht => wf_cpThen (State.wf_readPresets ht) fun _ _ hu => wf_cpThen (State.wf_cpRead hu) fun _ v hv => ?_
  split
  · exact State.wf_readProfiles hv
  · refine wf_cpThen (State.wf_readGroup hv) fun g w hw => ?_
    have hr : Memory.wf (w.readProfiles p (field g.head 2 1)).2.mem := State.wf_readProfiles hw
    generalize w.readProfiles p (field g.head 2 1) = q at hr
    exact hr
theorem State.wf_examine {p : Nat} {k : Packet} {l : Launch} (h : Memory.wf s.mem) : Memory.wf (s.examine p k l).2.mem := by
  unfold State.examine
  split
  · exact h
  split
  · exact h
  split
  · exact h
  split
  · rename_i he
    exact (State.wf_snd_of_eq he (State.wf_readAll h) :)
  · rename_i he
    exact State.wf_entryWalks (State.wf_snd_of_eq he (State.wf_readAll h))
theorem State.wf_accept {p qid : Nat} {k : Packet} {dev : Bool} (h : Memory.wf s.mem) : Memory.wf (s.accept p qid k dev).2.mem := by
  unfold State.accept
  extract_lets lid s1 l
  have hx : Memory.wf (s1.examine p k l).2.mem := State.wf_examine (State.wf_updPart h)
  revert hx
  rcases s1.examine p k l with ⟨l' | r, t⟩
  · intro ht
    dsimp only
    refine State.wf_writeRecord ?_
    exact State.wf_ite ht (State.wf_updPart ht)
  · intro ht
    dsimp only
    refine State.wf_announce (State.wf_writeRecord ?_)
    exact ht
theorem State.wf_dlReply {p : Nat} {k : DevPacket} {l : Launch} (h : Memory.wf s.mem) : Memory.wf (s.dlReply p k l).mem := by
  unfold State.dlReply
  dsimp only
  split
  · exact State.wf_updThr (State.wf_endWait h)
  · exact h
theorem canonical_execAcceptPacket {host : Option VWord} (h : Memory.wf s.mem) : Canonical (execAcceptPacket host s) := by
  unfold execAcceptPacket
  extract_lets s1
  have h1 : Memory.wf s1.mem := State.wf_vtJoin h
  split
  · exact canonical_next h1
  extract_lets s2
  have h2 : Memory.wf s2.mem := State.wf_updPart h1
  split
  · split
    · exact canonical_next h2
    · exact canonical_next (State.wf_dlReply (State.wf_accept (State.wf_updPart h2)))
  · rename_i k bytes _
    have hb : Memory.wf bytes.2.mem := by
      unfold bytes
      split
      · exact h2
      · exact State.wf_cpRead h2
    clear_value bytes
    rcases bytes with ⟨_ | b, t⟩
    · exact canonical_next (State.wf_queueErr hb)
    · exact canonical_next (State.wf_updQueue (State.wf_accept hb))
theorem State.wf_vtTick (h : Memory.wf s.mem) : Memory.wf s.vtTick.mem := by
  unfold State.vtTick
  refine State.foldl_wf (fun t a ht => State.foldl_wf (fun u a1 hu => ?_) ht) (State.wf_vtJoin h)
  dsimp only
  repeat' split
  all_goals exact hu
theorem State.wf_dropFetch {cl : Nat} {cs : List Nat} (h : Memory.wf s.mem) : Memory.wf (s.dropFetch cl cs).mem := h
theorem State.wf_placeNew {l : Launch} {cl b0 i : Nat} (h : Memory.wf s.mem) : Memory.wf (s.placeNew l cl b0 i).mem :=
  State.foldl_wf (fun _ _ ht => State.wf_updCore (State.wf_ite ht ht)) h
theorem State.wf_setRunning {l : Launch} (h : Memory.wf s.mem) : Memory.wf (s.setRunning l).mem := by
  unfold State.setRunning
  dsimp only
  split
  · exact h
  · exact State.wf_recordOf h
theorem State.wf_postStalls (h : Memory.wf s.mem) : Memory.wf s.postStalls.mem := h
theorem canonical_execDispatchTask {c : ClusterN} {b0 : Fin 8} (h : Memory.wf s.mem) : Canonical (execDispatchTask c b0 s) := by
  unfold execDispatchTask
  dsimp only
  split
  · exact canonical_next (State.wf_postStalls (State.wf_vtJoin h))
  split
  · exact canonical_next (State.wf_postStalls (State.wf_vtJoin h))
  · exact canonical_next (State.wf_updLaunch (State.wf_placeNew (State.wf_setRunning (State.wf_postStalls (State.wf_vtJoin h)))))
theorem canonical_execTaskRetire {t : TaskId} (h : Memory.wf s.mem) : Canonical (execTaskRetire t s) := by
  unfold execTaskRetire
  dsimp only
  split
  · split
    · split
      · exact canonical_next (State.wf_vtJoin (State.wf_applyDeferred (State.wf_updTask (State.wf_dropMessages (State.foldl_wf (fun _ a ht =>
          State.wf_clearCore ht) (State.wf_freeNames (State.wf_takeFor h)))))))
      · exact canonical_next h
    · exact canonical_next h
  · exact canonical_next h
theorem canonical_execCloseLaunch {p : PartN} {lid : Nat} (h : Memory.wf s.mem) : Canonical (execCloseLaunch p lid s) := by
  unfold execCloseLaunch
  dsimp only
  split
  · exact canonical_next h
  split
  · exact canonical_next (State.wf_vtJoin (State.wf_close h))
  · exact canonical_next h
theorem State.wf_valid {v : Bool} (h : Memory.wf s.mem) : Memory.wf (s.valid v).mem := h
theorem canonical_execPartitionCreate {p : PartN} {v : BitVec 512} (h : Memory.wf s.mem) : Canonical (execPartitionCreate p v s) := by
  unfold execPartitionCreate
  refine canonical_next ?_
  repeat' split
  all_goals exact h
theorem canonical_execExpertChange {p : PartN} {b : Bool} (h : Memory.wf s.mem) : Canonical (execExpertChange p b s) := by
  unfold execExpertChange
  refine canonical_next ?_
  dsimp only
  split
  · exact State.wf_expertReturn h
  · exact h
end

end Sys2Proof.Machine
end

section
/-! SUPPORT. O6, pre-emption, spilling and resuming. -/
namespace Sys2Proof.Machine
open Sys2Proof Sys2Proof.Claims

section
variable {s : State}
theorem canonical_execRidgePublish {p : PartN} {lid : Nat} (h : Memory.wf s.mem) : Canonical (execRidgePublish p lid s) := by
  unfold execRidgePublish
  dsimp only
  split
  · refine canonical_next ?_
    repeat' split
    all_goals exact h
  · exact canonical_next h
theorem State.wf_layLine {p : Nat} {ls : List (Nat × List ShLine)} {line : Nat} (h : Memory.wf s.mem) : Memory.wf (s.layLine p ls line).mem := by
  unfold State.layLine
  dsimp only
  split
  · rename_i he
    exact State.wf_snd_of_eq he (State.wf_cpWalk h)
  · rename_i he
    have ht := State.wf_snd_of_eq he (State.wf_cpWalk h)
    exact State.pocWrite_wf _ _ _ _ (State.wf_ite ht (State.wf_l2Touch ht))
theorem State.wf_setConfl {l : Launch} {x : W64 × W64} (h : Memory.wf s.mem) : Memory.wf (s.setConfl l x).mem := h
theorem canonical_execLayPhase {p : PartN} {lid : Nat} (h : Memory.wf s.mem) : Canonical (execLayPhase p lid s) := by
  unfold execLayPhase
  dsimp only
  split
  · exact canonical_next h
  split
  · exact canonical_next h
  split
  · exact canonical_next (State.wf_updLaunch (State.foldl_wf (fun t a ht => State.wf_layLine ht) h))
  split
  · exact canonical_next (State.wf_updLaunch (State.wf_updLaunch (State.foldl_wf (fun t _ ht => State.wf_layLine ht) h)))
  · exact canonical_next (State.wf_setConfl (State.wf_updLaunch (State.foldl_wf (fun t _ ht => State.wf_layLine ht) h)))
theorem State.wf_preempt {x : Task} {cl b0 : Nat} (h : Memory.wf s.mem) : Memory.wf (s.preempt x cl b0).mem :=
  State.wf_updTask (State.foldl_wf (fun _ _ ht => ht) h)
theorem canonical_execPreemptTask {t : TaskId} (h : Memory.wf s.mem) : Canonical (execPreemptTask t s) := by
  unfold execPreemptTask
  split
  · exact canonical_next h
  split
  · split
    · exact canonical_next (State.wf_preempt h)
    · exact canonical_next h
  · exact canonical_next h
theorem State.wf_saveTask {x : Task} {cl b0 va : Nat} (h : Memory.wf s.mem) : Memory.wf (s.saveTask x cl b0 va).mem := by
  unfold State.saveTask
  extract_lets cs s1 s2 s3 k os zs n img s4 s5 s6
  have h2 : Memory.wf s2.mem := State.foldl_wf (fun _ _ ht => State.wf_updCore ht) h
  have h4 : Memory.wf s4.mem := State.wf_setCluster (State.wf_settle h2)
  have h6 : Memory.wf s6.mem := State.foldl_wf (fun _ _ ht => State.wf_clearCore ht) h4
  exact State.wf_updTask h6
theorem State.wf_beginSpill {cs : List Nat} {x : Spill} (h : Memory.wf s.mem) : Memory.wf (s.beginSpill cs x).mem :=
  State.foldl_wf (fun _ _ ht => ht) h
theorem canonical_execSpillStart {t : TaskId} (h : Memory.wf s.mem) : Canonical (execSpillStart t s) := by
  unfold execSpillStart
  dsimp only
  split
  · exact canonical_next h
  split
  · split
    · exact canonical_next h
    split
    · exact canonical_next h
    · exact canonical_next (State.wf_vtJoin (State.wf_beginSpill (State.wf_updPart (State.wf_saveTask h))))
  · exact canonical_next h
theorem State.wf_writeParts {p va stamp off fin : Nat} (h : Memory.wf s.mem) : Memory.wf (s.writeParts p va stamp off fin).mem :=
  State.foldl_wf (fun _ _ ht => State.wf_cpWrite ht) h
theorem canonical_execSpillStop {t : TaskId} (h : Memory.wf s.mem) : Canonical (execSpillStop t s) := by
  unfold execSpillStop
  dsimp only
  split
  · split
    · exact canonical_next h
    split
    · exact canonical_next h
    · exact canonical_next (State.wf_applyDeferred (State.wf_spillRecord (State.wf_setSpill (State.wf_cpAccess (State.wf_writeParts h)))))
  · split
    · exact canonical_next h
    split
    · split
      · exact canonical_next (State.wf_vtJoin (State.wf_applyDeferred (State.wf_spillRecord (State.wf_beginSpill (State.wf_saveTask h)))))
      · exact canonical_next h
    · exact canonical_next h
theorem canonical_execSpillEnd {t : TaskId} (h : Memory.wf s.mem) : Canonical (execSpillEnd t s) := by
  unfold execSpillEnd
  dsimp only
  split
  · exact canonical_next h
  split
  · exact canonical_next h
  · exact canonical_next (State.wf_vtJoin (State.wf_updLaunch (State.wf_updTask (State.wf_setSpill (State.wf_writeParts h)))))
theorem State.wf_moveMessages {t : TaskId} {base dst : Nat} (h : Memory.wf s.mem) : Memory.wf (s.moveMessages t base dst).mem := h
theorem State.wf_restoreTask {l : Launch} {x : Task} {i : Image} {cl b0 : Nat} (h : Memory.wf s.mem) :
    Memory.wf (s.restoreTask l x i cl b0).mem :=
  State.wf_updTask (State.wf_moveMessages (State.wf_updCluster (State.foldl_wf (fun _ _ ht => ht) h)))
theorem State.wf_endFill {l : Launch} {x : Task} {i : Image} {cl b0 f : Nat} (h : Memory.wf s.mem) :
    Memory.wf (s.endFill l x i cl b0 f).mem := by
  unfold State.endFill
  dsimp only
  split
  · exact State.wf_updTask (State.wf_faultTask (State.wf_setSpill (State.wf_freeFrame (State.wf_cpRead h))))
  split
  · split
    · exact State.wf_preempt (State.wf_restoreTask (State.wf_setSpill (State.wf_freeFrame (State.wf_cpRead h))))
    · exact State.wf_restoreTask (State.wf_setSpill (State.wf_freeFrame (State.wf_cpRead h)))
  · exact State.wf_restoreTask (State.wf_setSpill (State.wf_freeFrame (State.wf_cpRead h)))
theorem canonical_execResumeFill {t : TaskId} {c : ClusterN} {b0 : Fin 8} (h : Memory.wf s.mem) : Canonical (execResumeFill t c b0 s) := by
  unfold execResumeFill
  dsimp only
  split
  · split
    · split
      · exact canonical_next (State.wf_vtJoin h)
      · exact canonical_next (State.wf_updTask (State.wf_updLaunch (State.wf_beginSpill (State.wf_vtJoin h))))
    · refine canonical_next ?_
      split
      · exact State.wf_vtJoin (State.wf_applyDeferred (State.wf_endFill (State.wf_vtJoin h)))
      · exact State.wf_vtJoin h
    · exact canonical_next (State.wf_vtJoin h)
  · exact canonical_next (State.wf_vtJoin h)
end

end Sys2Proof.Machine
end

section
/-! SUPPORT. O6, the message instructions and events. -/
namespace Sys2Proof.Machine
open Sys2Proof Sys2Proof.Claims

section
variable {s : State}
theorem canonical_execFragmentReceive {q : Fin 12} (h : Memory.wf s.mem) : Canonical (execFragmentReceive q s) := by
  unfold execFragmentReceive
  dsimp only
  split
  · exact canonical_next h
  split
  · exact canonical_next (State.wf_forward h)
  · exact canonical_next (State.wf_arrive (State.wf_owe h))
theorem canonical_execMessageComplete {k : MsgKey} (h : Memory.wf s.mem) : Canonical (execMessageComplete k s) := by
  unfold execMessageComplete
  dsimp only
  split
  · exact canonical_next h
  split
  · refine canonical_next ?_
    split
    · exact State.wf_sendAck (State.wf_count (State.wf_closeRx (State.wf_showRx h)))
    · exact State.wf_count (State.wf_closeRx (State.wf_showRx h))
  · exact canonical_next h
theorem State.wf_countLost {p : Nat} (h : Memory.wf s.mem) : Memory.wf (s.countLost p).mem := h
theorem canonical_execMessageDeadlineExpiry {k : MsgKey} (h : Memory.wf s.mem) : Canonical (execMessageDeadlineExpiry k s) := by
  unfold execMessageDeadlineExpiry
  split
  · exact canonical_next h
  split
  · exact canonical_next h
  split
  · refine canonical_next ?_
    split
    · exact State.wf_countLost (State.wf_closeRx (State.wf_showRx h))
    · exact h
  · exact canonical_next h
theorem canonical_execSendFragmentsDeparted {t : ThreadId} {seq : W32} (h : Memory.wf s.mem) : Canonical (execSendFragmentsDeparted t seq s) := by
  unfold execSendFragmentsDeparted
  split
  · refine canonical_next ?_
    split
    · exact State.wf_finalSend h
    · exact h
  · exact canonical_next h
theorem canonical_execSendAckTimeout {t : ThreadId} {seq : W32} (h : Memory.wf s.mem) : Canonical (execSendAckTimeout t seq s) := by
  unfold execSendAckTimeout
  split
  · refine canonical_next ?_
    split
    · exact State.wf_finalSend h
    · exact h
  · exact canonical_next h
theorem State.wf_sendSource {m : TxMsg} (h : Memory.wf s.mem) : Memory.wf (s.sendSource m).state.mem := by
  unfold State.sendSource
  dsimp only
  split
  · exact h
  · exact Res.wf_andThen (State.wf_jobRead h) fun _ t ht => ht
theorem State.wf_depart {m : TxMsg} {up : List W32} {src : List Byte} (h : Memory.wf s.mem) : Memory.wf (s.depart m up src).mem :=
  State.wf_updPart (State.foldl_wf (fun _ _ ht => ht) h)
theorem canonical_execFabricSendDepart (h : Memory.wf s.mem) : Canonical (execFabricSendDepart s) := by
  unfold execFabricSendDepart
  dsimp only
  split
  · exact canonical_next h
  split
  · exact canonical_next h
  split
  · exact canonical_next (State.wf_finalSend h)
  split
  · rename_i he1
    exact canonical_next (State.wf_depart (Res.wf_of_eq he1 (State.wf_sendSource h)))
  · exact canonical_next h
theorem wf_badMsg {α : Type} {reason : Nat} (h : Memory.wf s.mem) : Memory.wf (badMsg s reason : Res α).state.mem := h
theorem State.wf_newHandle {hs : List Handle} {seq : W32} {recv : Bool} {st : MsgStatus} {d : SReg} (h : Memory.wf s.mem) :
    Memory.wf (s.newHandle hs seq recv st d).mem :=
  State.wf_deliver h
theorem State.wf_submitSend {l : Launch} {g : Machine.Group} {f : Profile} {ps : List W32} {c : MsgCtl} {ack : Bool} {tile : Option Nat} {p : Place}
    {va : Nat} {d : SReg} (h : Memory.wf s.mem) :
    Memory.wf (s.submitSend l g f ps c ack tile p va d).state.mem := by
  unfold State.submitSend
  dsimp only
  split
  · exact h
  refine wf_done (State.wf_newHandle (State.wf_updPart (State.wf_updLaunch ?_)))
  repeat' split
  all_goals exact h
theorem canonical_execMsgsend {x : MSend} (h : Memory.wf s.mem) : Canonical (execMsgsend x s) := by
  unfold execMsgsend
  refine canonical_guarded h ?_
  dsimp only
  split
  · exact wf_done (State.wf_deliver h)
  split
  · exact h
  split
  · exact h
  split
  · exact h
  split
  · exact h
  split
  · exact h
  split
  · exact h
  split
  · exact h
  split
  · split
    · exact h
    split
    · exact h
    · exact State.wf_submitSend h
  · exact Res.wf_andThen (State.wf_access h) fun _ t ht => State.wf_submitSend ht
theorem State.wf_postLost {x : Post} {len frags : Nat} (h : Memory.wf s.mem) : Memory.wf (s.postLost x len frags).mem := State.wf_setMsg h
theorem State.wf_enterPost {l : Launch} {x : Post} (h : Memory.wf s.mem) : Memory.wf (s.enterPost l x).mem := by
  unfold State.enterPost
  dsimp only
  split
  · exact State.wf_postLost h
  split
  · split
    · split
      · exact State.wf_postLost (State.wf_countLost (State.wf_updPart (State.wf_closeRx (State.wf_takeMessage h))))
      · exact State.wf_matchRx (State.wf_takeMessage h)
    · exact State.wf_matchRx h
  · exact h
theorem canonical_execMsgpost {x : DAB} (h : Memory.wf s.mem) : Canonical (execMsgpost x s) := by
  unfold execMsgpost
  refine canonical_guarded h ?_
  dsimp only
  split
  · exact wf_done (State.wf_deliver h)
  split
  · exact h
  split
  · exact h
  split
  · exact h
  split
  · exact h
  refine Res.wf_andThen (State.wf_access h) fun a t ht => ?_
  split
  · exact ht
  · exact wf_done (State.wf_enterPost (State.wf_newHandle ht))
theorem canonical_execMsgtest {x : DA} (h : Memory.wf s.mem) : Canonical (execMsgtest x s) := by
  unfold execMsgtest
  refine canonical_finish ?_
  dsimp only
  split
  · exact h
  · exact wf_done (State.wf_deliver h)
theorem canonical_execMsgwait {x : DA} (h : Memory.wf s.mem) : Canonical (execMsgwait x s) := by
  unfold execMsgwait
  refine canonical_finish ?_
  dsimp only
  split
  · exact h
  split
  · exact h
  split
  · exact wf_done (State.wf_trapAfter (State.wf_deliver h))
  · exact wf_done (State.wf_deliver h)
theorem State.wf_cancel {k : Handle} (h : Memory.wf s.mem) : Memory.wf (s.cancel k).mem := by
  unfold State.cancel
  dsimp only
  repeat' split
  all_goals exact h
theorem canonical_execMsgcancel {x : DA} (h : Memory.wf s.mem) : Canonical (execMsgcancel x s) := by
  unfold execMsgcancel
  refine canonical_finish ?_
  dsimp only
  split
  · exact wf_done (State.wf_deliver h)
  refine wf_done (State.wf_deliver (State.wf_setEffect ?_))
  split
  · exact State.wf_cancel h
  · exact h
end

end Sys2Proof.Machine
end

section
/-! SUPPORT. O6, register writes, received frames and the tenant reset. -/
namespace Sys2Proof.Machine
open Sys2Proof Sys2Proof.Claims

section
variable {s : State}
theorem canonical_execFetchFill {c : ClusterN} {line : Nat} (h : Memory.wf s.mem) : Canonical (execFetchFill c line s) := by
  unfold execFetchFill
  dsimp only
  split
  · exact canonical_next h
  · exact canonical_next (State.foldl_wf (fun t _ ht => ht) (State.wf_updCluster (State.wf_ite h (State.wf_l2Touch h))))
theorem State.wf_hostWrite {p : Nat} {f : Partition → Partition} (h : Memory.wf s.mem) : Memory.wf (s.hostWrite p f).mem := by
  unfold State.hostWrite
  repeat' split
  all_goals exact h
theorem State.wf_hostStore {pa : Nat} {ms : Bool} {v : W64} (h : Memory.wf s.mem) : Memory.wf (s.hostStore pa ms v).mem := by
  unfold State.hostStore
  split
  · exact h
  · exact h
theorem canonical_execRegisterWrite {r : RegTarget} {v : W64} (h : Memory.wf s.mem) : Canonical (execRegisterWrite r v s) := by
  unfold execRegisterWrite
  dsimp only
  split
  · refine State.canonical_onQueue h fun t ht => ?_
    repeat' split
    all_goals exact ht
  · exact State.canonical_onQueue h fun t ht => State.wf_writeQctl ht
  · exact canonical_next h
  · exact canonical_next h
  · exact canonical_next h
  · split
    · exact canonical_execHostXlinv h
    · exact canonical_next (State.wf_hostWrite h)
  · exact canonical_next h
  · exact canonical_next h
  · exact canonical_next (State.wf_hostStore h)
  · refine canonical_next ?_
    repeat' split
    all_goals exact h
  · refine canonical_next ?_
    repeat' split
    all_goals exact h
theorem canonical_execRpctlWrite {p : PartN} {v : W64} (h : Memory.wf s.mem) : Canonical (execRpctlWrite p v s) := by
  unfold execRpctlWrite
  refine canonical_next ?_
  split
  · exact h
  · exact State.wf_hostWrite h
theorem State.wf_fillFrame {f : RxFrame} {k : TaskId} {t : Nat} (h : Memory.wf s.mem) : Memory.wf (s.fillFrame f k t).mem := State.wf_claimTile h
theorem State.wf_dropFrame {f : RxFrame} (h : Memory.wf s.mem) : Memory.wf (s.dropFrame f).mem := h
theorem State.wf_landFrame {f : RxFrame} (h : Memory.wf s.mem) : Memory.wf (s.landFrame f).mem := by
  unfold State.landFrame
  dsimp only
  split
  · exact h
  split
  · split
    · split
      · exact State.wf_fillFrame h
      · exact h
    · exact h
  · split
    · exact h
    split
    · exact State.wf_fillFrame h
    · exact h
theorem State.wf_landFrames (h : Memory.wf s.mem) : Memory.wf s.landFrames.mem := State.foldl_wf (fun _ _ ht => State.wf_landFrame ht) h
theorem canonical_execFrameReceive {port : Fin 2} {bytes : List Byte} (h : Memory.wf s.mem) : Canonical (execFrameReceive port bytes s) := by
  unfold execFrameReceive
  dsimp only
  repeat' split
  all_goals exact canonical_next h
theorem State.wf_requestReset {p : Nat} (h : Memory.wf s.mem) : Memory.wf (s.requestReset p).mem := by
  unfold State.requestReset
  dsimp only
  repeat' split
  all_goals exact h
theorem canonical_execTrstGo {v : W64} (h : Memory.wf s.mem) : Canonical (execTrstGo v s) := by
  unfold execTrstGo
  refine canonical_next ?_
  dsimp only
  split
  · exact State.wf_requestReset h
  · exact h
theorem State.wf_zeroRing {p : Nat} (h : Memory.wf s.mem) : Memory.wf (s.zeroRing p).mem := State.foldl_wf (fun _ _ ht => State.wf_cpWrite ht) h
theorem State.wf_resetWork {p : Nat} (h : Memory.wf s.mem) : Memory.wf (s.resetWork p).mem := by
  unfold State.resetWork
  exact State.wf_updPart (State.foldl_wf (fun _ _ ht => State.wf_abort ht) h)
theorem State.wf_resetRegisters {p : Nat} (h : Memory.wf s.mem) : Memory.wf (s.resetRegisters p).mem := State.foldl_wf (fun _ _ ht => ht) h
theorem State.wf_forgetCores {p : Nat} (h : Memory.wf s.mem) : Memory.wf (s.forgetCores p).mem := h
theorem canonical_execTenantResetPerform {v : BitVec 512} (h : Memory.wf s.mem) : Canonical (execTenantResetPerform v s) := by
  unfold execTenantResetPerform
  split
  · exact canonical_next h
  split
  · exact canonical_next h
  extract_lets s1 m s2 s3
  have h1 : Memory.wf s1.mem := State.wf_forgetCores (State.wf_zeroRing (State.wf_resetRegisters (State.wf_resetWork h)))
  clear_value s1
  have h3 : Memory.wf s3.mem := h1
  exact canonical_next (State.wf_updPart h3)
end

end Sys2Proof.Machine
end

section
/-! SUPPORT. O6, random streams, the sampler and drawn instructions. -/
namespace Sys2Proof.Machine
open Sys2Proof Sys2Proof.Claims

section
variable {s : State}
theorem canonical_execRand {x : DOnly} (h : Memory.wf s.mem) : Canonical (execRand x s) := by
  unfold execRand
  refine canonical_guarded h ?_
  repeat' split
  all_goals exact h
theorem canonical_execVrand {x : VRnd} (h : Memory.wf s.mem) : Canonical (execVrand x s) := by
  unfold execVrand
  refine canonical_finish ?_
  dsimp only
  repeat' split
  all_goals exact h
theorem canonical_execRseek {x : DSI} (h : Memory.wf s.mem) : Canonical (execRseek x s) := by
  unfold execRseek
  refine canonical_finish ?_
  dsimp only
  repeat' split
  all_goals exact h
theorem State.wf_submitSmp {tile : Option Nat} {token off : Nat} {d : SReg} (h : Memory.wf s.mem) :
    Memory.wf (s.submitSmp tile token off d).state.mem := by
  unfold State.submitSmp
  dsimp only
  repeat' split
  all_goals exact h
theorem canonical_execTokexec {x : DAB} (h : Memory.wf s.mem) : Canonical (execTokexec x s) := by
  unfold execTokexec
  refine canonical_finish ?_
  dsimp only
  split
  · exact h
  · exact State.wf_submitSmp h
theorem State.wf_smpDone {q : SmpReq} {v : W64} (h : Memory.wf s.mem) : Memory.wf (s.smpDone q v).mem := State.wf_updThr (State.wf_endWait h)
theorem State.wf_smpPut {c off : Nat} {bs : List Byte} (h : Memory.wf s.mem) : Memory.wf (s.smpPut c off bs).mem := h
theorem State.wf_appendTokens {c : Nat} {r : SeqRec} {k : Nat} {l : List Nat} (h : Memory.wf s.mem) : Memory.wf (s.appendTokens c r k l).mem := by
  induction l generalizing s k with
  | nil => exact h
  | cons t l ih => exact ih (State.wf_smpPut h)
theorem State.wf_smpTrap {q : SmpReq} {cause : Byte} {addr info : W64} (h : Memory.wf s.mem) : Memory.wf (s.smpTrap q cause addr info).mem :=
  State.wf_trapPend h
theorem State.wf_smpBad {q : SmpReq} {a : Nat} (h : Memory.wf s.mem) : Memory.wf (s.smpBad q a).mem := State.wf_smpTrap h
theorem State.wf_smpToken {q : SmpReq} {r : SeqRec} {tk ctr : Nat} (h : Memory.wf s.mem) : Memory.wf (s.smpToken q r tk ctr).mem := by
  unfold State.smpToken
  extract_lets t c hi res runs e
  split
  · exact State.wf_smpBad h
  rename_i toks s1 s2 rb s3 s4 npc s5 _ _
  have h2 : Memory.wf s2.mem := State.foldl_wf (fun _ _ ht => State.wf_smpPut ht) (State.wf_appendTokens h)
  have h3 : Memory.wf s3.mem := State.foldl_wf (fun _ _ ht => State.wf_smpPut ht) h2
  have h5 : Memory.wf s5.mem := State.wf_smpDone (State.wf_updThr h3)
  split
  · exact State.wf_updThr h5
  · exact h5
theorem State.wf_smpServe {q : SmpReq} (h : Memory.wf s.mem) : Memory.wf (s.smpServe q).mem := by
  unfold State.smpServe
  dsimp only
  split
  · exact State.wf_smpTrap h
  split
  · exact State.wf_smpBad h
  split
  · exact State.wf_smpDone h
  split
  · exact State.wf_smpToken h
  split
  · exact State.wf_smpDone h
  · exact State.wf_smpTrap h
  · exact State.wf_smpToken h
theorem State.wf_parkDues (h : Memory.wf s.mem) : Memory.wf s.parkDues.mem := by
  unfold State.parkDues
  refine State.foldl_wf (fun t a ht => State.foldl_wf (fun u a1 hu => ?_) ht) h
  dsimp only
  split
  · split
    · exact State.wf_trapAfter hu
    · exact hu
  · exact hu
theorem canonical_execSamplerRequestServe {c : ClusterN} (h : Memory.wf s.mem) : Canonical (execSamplerRequestServe c s) := by
  unfold execSamplerRequestServe
  dsimp only
  split
  · exact canonical_next h
  refine canonical_next ?_
  split
  · exact State.wf_smpServe h
  · exact h
end

end Sys2Proof.Machine
end

section
/-! SUPPORT. O6, the management core. Power-on empties device memory. -/
namespace Sys2Proof.Machine
open Sys2Proof Sys2Proof.Claims

section
variable {s : State}
theorem State.wf_updMgmt {f : Mgmt → Mgmt} (h : Memory.wf s.mem) : Memory.wf (s.updMgmt f).mem := h
theorem State.wf_answer {d : Datagram} {status : Nat} {body : List Byte} (h : Memory.wf s.mem) : Memory.wf (s.answer d status body).mem := h
theorem State.canonical_unsigned {d : Datagram} {op : Byte} {f : Nat × List Byte} (h : Memory.wf s.mem) : Canonical (s.unsigned d op f) := by
  unfold State.unsigned
  refine canonical_next ?_
  repeat' split
  all_goals exact h
theorem State.canonical_signedRequest {d : Datagram} {op : Byte} {f : State → State × Nat} (h : Memory.wf s.mem)
    (hf : ∀ t, Memory.wf t.mem → Memory.wf (f t).1.mem) :
    Canonical (s.signedRequest d op f) := by
  unfold State.signedRequest
  split
  · exact canonical_next h
  split
  · exact canonical_next h
  · exact canonical_next (State.wf_answer (hf _ h))
theorem canonical_execOperatorKeyLoad {x y : BitVec 256} (h : Memory.wf s.mem) : Canonical (execOperatorKeyLoad x y s) := by
  unfold execOperatorKeyLoad
  refine canonical_next ?_
  repeat' split
  all_goals exact h
theorem canonical_execTenantReset {dg : Datagram} (h : Memory.wf s.mem) : Canonical (execTenantReset dg s) := by
  unfold execTenantReset
  refine State.canonical_signedRequest h fun t ht => ?_
  dsimp only
  split
  · exact ht
  · exact State.wf_requestReset ht
theorem canonical_execFwStage {dg : Datagram} (h : Memory.wf s.mem) : Canonical (execFwStage dg s) := by
  unfold execFwStage
  refine State.canonical_signedRequest h fun t ht => ?_
  dsimp only
  repeat' split
  all_goals exact ht
theorem canonical_execFwCommit {dg : Datagram} (h : Memory.wf s.mem) : Canonical (execFwCommit dg s) := by
  unfold execFwCommit
  refine State.canonical_signedRequest h fun t ht => ?_
  dsimp only
  repeat' split
  all_goals exact ht
theorem canonical_execLinkRetrain {dg : Datagram} (h : Memory.wf s.mem) : Canonical (execLinkRetrain dg s) := by
  unfold execLinkRetrain
  refine State.canonical_signedRequest h fun t ht => ?_
  dsimp only
  repeat' split
  all_goals exact ht
theorem canonical_execSidebandUnknownOpcode {dg : Datagram} (h : Memory.wf s.mem) : Canonical (execSidebandUnknownOpcode dg s) := by
  unfold execSidebandUnknownOpcode
  refine canonical_next ?_
  repeat' split
  all_goals exact h
theorem State.wf_mgmtSend {b : List Byte} (h : Memory.wf s.mem) : Memory.wf (s.mgmtSend b).mem := by
  unfold State.mgmtSend
  dsimp only
  split
  · exact h
  · exact State.foldl_wf (fun t _ ht => ht) h
theorem State.wf_takeMgmt {ok : List Byte → Bool} {t : State} (h : Memory.wf s.mem) (ht : s.takeMgmt ok = some t) : Memory.wf t.mem := by
  unfold State.takeMgmt at ht
  split at ht
  · cases ht
  · cases ht; exact State.wf_updPort h
theorem canonical_execImageGet {dg : Datagram} {port0 : Bool} (h : Memory.wf s.mem) : Canonical (execImageGet dg port0 s) := by
  unfold execImageGet
  split
  · exact canonical_next h
  dsimp only
  split
  · exact canonical_next (State.wf_answer h)
  split
  · rename_i ht
    exact canonical_next (State.wf_mgmtSend (State.wf_takeMgmt h ht))
  · exact canonical_next h
theorem State.wf_askImage {port0 : Bool} {off : Nat} (h : Memory.wf s.mem) : Memory.wf (s.askImage port0 off).mem := by
  unfold State.askImage
  dsimp only
  split
  · exact State.wf_mgmtSend h
  · exact h
theorem canonical_execPowerOn (h : Memory.wf s.mem) : Canonical (execPowerOn s) := by
  unfold execPowerOn
  split
  · exact canonical_next h
  · exact canonical_next (State.wf_askImage (State.wf_updMgmt (State.wf_updPort State.reset_wf)))
theorem State.wf_nextParty {port0 : Bool} (h : Memory.wf s.mem) : Memory.wf (s.nextParty port0).mem := State.wf_askImage h
theorem State.wf_askMore {port0 : Bool} {n total : Nat} (h : Memory.wf s.mem) : Memory.wf (s.askMore port0 n total).mem :=
  State.foldl_wf (fun _ _ ht => State.wf_askImage ht) h
theorem State.wf_bootTest (h : Memory.wf s.mem) : Memory.wf s.bootTest.mem := h
theorem State.wf_takeChunk {port0 : Bool} {src : BitVec 128} {total : Nat} {chunks : Tab (List Byte)} {off : Nat} {bytes : List Byte}
    (h : Memory.wf s.mem) :
    Memory.wf (s.takeChunk port0 src total chunks off bytes).mem := by
  unfold State.takeChunk
  dsimp only
  split
  · exact h
  split
  · split
    · exact h
    · exact State.wf_nextParty h
  · exact State.wf_askMore h
theorem canonical_execImageReplyReceive {src : BitVec 128} {status : Byte} {total off : W32} {bytes : List Byte} (h : Memory.wf s.mem) :
    Canonical (execImageReplyReceive src status total off bytes s) := by
  unfold execImageReplyReceive
  split
  · extract_lets body is come
    have hc (t : State) (ht : come = some t) : Memory.wf t.mem := by
      unfold come at ht
      split at ht
      · exact State.wf_takeMgmt h ht
      · cases ht; exact h
    clear_value come
    cases come with
    | none => exact canonical_next h
    | some t =>
      have ht := hc t rfl
      dsimp only
      split
      · exact canonical_next ht
      split
      · exact canonical_next (State.wf_takeChunk ht)
      split
      · exact canonical_next ht
      split
      · exact canonical_next (State.wf_nextParty ht)
      · exact canonical_next (State.wf_takeChunk ht)
  · exact canonical_next h
theorem canonical_execImageRequestResend {off : W32} (h : Memory.wf s.mem) : Canonical (execImageRequestResend off s) := by
  unfold execImageRequestResend
  split
  · refine canonical_next ?_
    split
    · exact State.wf_askImage h
    · exact h
  · exact canonical_next h
theorem canonical_execImagePartyAbandon (h : Memory.wf s.mem) : Canonical (execImagePartyAbandon s) := by
  unfold execImagePartyAbandon
  split
  · exact canonical_next (State.wf_nextParty h)
  · exact canonical_next h
theorem canonical_execClusterGate {c : ClusterN} (h : Memory.wf s.mem) : Canonical (execClusterGate c s) := by
  unfold execClusterGate
  refine canonical_next ?_
  repeat' split
  all_goals exact h
theorem canonical_execClusterWake {c : ClusterN} {pass : Bool} (h : Memory.wf s.mem) : Canonical (execClusterWake c pass s) := by
  unfold execClusterWake
  dsimp only
  repeat' split
  all_goals exact canonical_next h
end

end Sys2Proof.Machine
end

section
/-! SUPPORT. O6, every instruction and event, by the lemmas of its form. -/
namespace Sys2Proof.Machine
open Sys2Proof Sys2Proof.Claims

section
variable {s : State}
theorem canonical_exec {i : Instr} (h : Memory.wf s.mem) : Canonical (exec i s) := by
  unfold exec
  cases i with
  | add | sub | mul | mulh | and | or | xor | andn | min | max => exact canonical_guarded h (State.wf_intA h)
  | shl | shr | rotl => exact canonical_guarded h (State.wf_intSh h)
  | div | rem => exact canonical_guarded h (State.wf_divide h)
  | ext => exact canonical_execExt h
  | ins => exact canonical_execIns h
  | clz | ctz | popc | brev | bswap | lih | lea | nop | pand | por | pxor | pandn | pnot | pset | pread | pwrite | pcnt | valclr | ibpoll =>
    exact canonical_guarded h h
  | cmpeq | cmpne | cmplt | cmple | cmpgt | cmpge => exact canonical_guarded h (State.wf_compare h)
  | sel | mov => exact canonical_guarded h (Res.wf_andThen (State.wf_src h) fun _ t ht => ht)
  | srd => exact canonical_execSrd h
  | swr => exact canonical_execSwr h
  | br | brz | brnz | brdec | call | callr | jr | ret => exact canonical_guarded h (State.wf_transfer h fun t ht => ht)
  | gang => exact canonical_execGang h
  | disband | tstat | vflgrd | vflgclr | rtell | rgn => exact canonical_finish h
  | part => exact canonical_execPart h
  | ftileset => exact canonical_execFtileset h
  | ftile => exact canonical_execFtile h
  | cbset => exact canonical_execCbset h
  | cbwaitc => exact canonical_execCbwaitc h
  | cbwaitp => exact canonical_execCbwaitp h
  | cbadvc => exact canonical_execCbadvc h
  | cbadvp => exact canonical_finish (State.wf_cbUse h fun _ => h)
  | ld =>
    exact canonical_guarded h (Res.wf_andThen (State.wf_accessAligned h) fun a t ht => Res.wf_andThen (State.wf_load ht) fun _ u hu =>
      wf_done (State.wf_reply hu))
  | st => exact canonical_guarded h (Res.wf_andThen (State.wf_accessAligned h) fun a t ht => State.wf_store ht)
  | vld => exact canonical_execVld h
  | vst => exact canonical_execVst h
  | ldv | stcv | casv => exact canonical_guarded h (Res.wf_andThen (State.wf_accessAligned h) fun a t ht => State.wf_cohIssue ht)
  | valchk => exact canonical_execValchk h
  | pref => exact canonical_execPref h
  | tfill => exact canonical_execTfill h
  | trel => exact canonical_execTrel h
  | tdef => exact canonical_execTdef h
  | cpy => exact canonical_execCpy h
  | cjob | vldpi =>
    exact canonical_finish (Res.wf_andThen (State.wf_accessAligned h) fun a t ht => Res.wf_andThen (State.wf_load ht) fun _ u hu => hu)
  | cpoll => exact canonical_execCpoll h
  | cwait => exact canonical_execCwait h
  | rset => exact canonical_execRset h
  | unpin | rrd => exact canonical_finish (State.wf_retainIdx h fun _ t ht => ht)
  | frarm => exact canonical_execFrarm h
  | vadd | vsub | vmul => exact State.canonical_vflt h
  | vfma | vfnma => exact State.canonical_vfmaOp h
  | vmin | vmax => exact State.canonical_vfmm h
  | vabs | vneg => exact State.canonical_vfu h
  | vaddInt | vsubInt | vmulInt | vmulh | vand | vor | vxor | vandn | vminInt | vmaxInt => exact State.canonical_vintA h
  | vshl | vshr | vrotl => exact State.canonical_vintSh h
  | vcmpeq | vcmpne | vcmplt | vcmple | vcmpgt | vcmpge | vcmpun => exact State.canonical_vcompare h
  | vcvt => exact canonical_execVcvt h
  | vmov | vperm | vctdec => exact canonical_finish (State.wf_moveV h)
  | vsel => exact canonical_finish (Res.wf_andThen (State.wf_vsrc h) fun a t ht => State.wf_moveV ht)
  | vbcast => exact canonical_finish (Res.wf_andThen (State.wf_src h) fun a t ht => State.wf_moveV ht)
  | vslide => exact canonical_execVslide h
  | vgetl => exact canonical_execVgetl h
  | vsetl => exact canonical_execVsetl h
  | vrsum | vrmax | vrmin => exact State.canonical_vreduce h
  | vrcp | vrsqrt | vsqrt | vexp2 | vlog2 | vsinpi | vcospi | vtanh => exact State.canonical_vspecial h
  | vdiv => exact canonical_finish (Res.wf_andThen (State.wf_vsrc h) fun a t ht => State.wf_putV ht)
  | ctload =>
    exact canonical_finish (Res.wf_andThen (State.wf_accessAligned h) fun a t ht => Res.wf_andThen (State.wf_load ht) fun _ u hu =>
      wf_done (State.wf_reply hu))
  | vctenc => exact canonical_finish (State.wf_vflags h fun t ht => ht)
  | vgsum | vgmax | vgmin => exact State.canonical_gangReduce h
  | vgperm => exact canonical_finish (State.wf_gangWide h fun _ _ t ht => State.wf_gangPut ht)
  | vgbcast => exact canonical_execVgbcast h
  | oclaim => exact canonical_execOclaim h
  | orelease => exact canonical_execOrelease h
  | zclaim => exact canonical_execZclaim h
  | zrelease => exact canonical_execZrelease h
  | oload => exact canonical_execOload h
  | mma => exact canonical_execMma h
  | zclear =>
    exact canonical_finish (State.wf_mtxOpen h fun t ht => Res.wf_andThen (State.wf_zname ht) fun a u hu =>
      Res.wf_andThen (State.wf_submitMtx hu) fun _ v hv => hv)
  | zstore => exact canonical_execZstore h
  | zload => exact canonical_execZload h
  | mcheck => exact canonical_finish (State.wf_mtxOpen h fun t ht => Res.wf_andThen (State.wf_zname ht) fun a u hu => State.wf_submitMtx hu)
  | mpoll => exact canonical_execMpoll h
  | mwait => exact canonical_execMwait h
  | mstat => exact canonical_finish (State.wf_mtxOpen h fun t ht => ht)
  | rbind => exact canonical_execRbind h
  | rrow => exact canonical_execRrow h
  | rvseg => exact canonical_finish (State.wf_segMap h fun _ t ht => State.wf_moveV ht)
  | rpseg => exact canonical_execRpseg h
  | rvld => exact canonical_execRvld h
  | rvsum | rvmax | rvmin => exact State.canonical_rreduce h
  | rvnorm => exact canonical_execRvnorm h
  | rmma => exact canonical_execRmma h
  | aadd | aand | aor | axor | amin | amax | aswap | acas | afadd => exact canonical_guarded h (State.wf_atomic h)
  | mradd | mrand | mror | mrxor | mrmin | mrmax | mrfadd => exact canonical_guarded h (State.wf_reduce h)
  | waitv => exact canonical_execWaitv h
  | fence => exact canonical_execFence h
  | barsync | bararv => exact canonical_finish (State.wf_barArrive h)
  | barwait => exact canonical_execBarwait h
  | phadv => exact canonical_execPhadv h
  | phwait => exact canonical_execPhwait h
  | ibsend => exact canonical_execIbsend h
  | ibrecv => exact canonical_execIbrecv h
  | dlaunch => exact canonical_guarded h (Res.wf_andThen (State.wf_release h) fun _ t ht => ht)
  | dsignal => exact canonical_execDsignal h
  | msgsend => exact canonical_execMsgsend h
  | msgpost => exact canonical_execMsgpost h
  | msgtest => exact canonical_execMsgtest h
  | msgwait => exact canonical_execMsgwait h
  | msgcancel => exact canonical_execMsgcancel h
  | rand => exact canonical_execRand h
  | vrand => exact canonical_execVrand h
  | rseek => exact canonical_execRseek h
  | smpl => exact canonical_finish (State.wf_submitSmp h)
  | tokexec => exact canonical_execTokexec h
  | exit => exact canonical_execExit h
  | tctx | spstat | xlinv => exact State.canonical_superOnly h fun t ht => ht
  | xrd => exact canonical_execXrd h
  | xwr => exact canonical_execXwr h
  | tresume => exact canonical_execTresume h
  | tkill => exact State.canonical_superOnly h fun t ht => State.wf_workerRec ht fun _ u hu => wf_done (State.wf_idle7 (State.wf_killParked hu))
  | tret => exact canonical_execTret h
  | spillgo => exact State.canonical_superOnly h fun t ht => wf_done (State.wf_ws (State.wf_spillGo ht))
  | ldpi => exact canonical_execLdpi h
  | stpi => exact canonical_execStpi h
  | vdot =>
    exact canonical_finish (Res.wf_andThen (wf_atStep (State.wf_arithTrap h fun _ ht => ht)) fun _ _ ht =>
      Res.wf_andThen (wf_atStep (State.wf_arithTrap ht fun _ hu => hu)) fun _ _ hu => State.wf_wait hu)
  | undefinedOpcode | instructionFetchFault => exact canonical_next (State.wf_takeTrap h)
  | queueEnable => exact canonical_execQueueEnable h
  | qwrWrite => exact State.canonical_onQueue h fun t ht => State.wf_overrun ht
  | acceptPacket => exact canonical_execAcceptPacket h
  | dispatchTask => exact canonical_execDispatchTask h
  | partitionCreate => exact canonical_execPartitionCreate h
  | slotTableWrite => exact canonical_execSlotTableWrite h
  | fetchFill => exact canonical_execFetchFill h
  | loadDataArrival => exact canonical_execLoadDataArrival h
  | storeBufferDrain => exact canonical_execStoreBufferDrain h
  | blockBufferDrain => exact canonical_execBlockBufferDrain h
  | coherencePointOperation => exact canonical_execCoherencePointOperation h
  | copyJobStart => exact canonical_execCopyJobStart h
  | copyJobRow => exact canonical_execCopyJobRow h
  | copyJobComplete => exact canonical_execCopyJobComplete h
  | barrierComplete => exact canonical_execBarrierComplete h
  | registerWrite => exact canonical_execRegisterWrite h
  | queueDisable => exact canonical_execQueueDisable h
  | queueDrain => exact canonical_execQueueDrain h
  | queueAbort => exact canonical_execQueueAbort h
  | taskRetire => exact canonical_execTaskRetire h
  | closeLaunch => exact canonical_execCloseLaunch h
  | expertChange => exact canonical_execExpertChange h
  | sltstatClear => exact canonical_execSltstatClear h
  | preemptTask => exact canonical_execPreemptTask h
  | spillStart => exact canonical_execSpillStart h
  | spillStop => exact canonical_execSpillStop h
  | spillEnd => exact canonical_execSpillEnd h
  | resumeFill => exact canonical_execResumeFill h
  | l1CopyDrop | thermalTrip | thermalTripRelease => exact canonical_next h
  | postedWritePerform => exact canonical_execPostedWritePerform h
  | fabricSendDepart => exact canonical_execFabricSendDepart h
  | multicastClaim => exact canonical_execMulticastClaim h
  | matrixJobStart => exact canonical_execMatrixJobStart h
  | matrixJobComplete => exact canonical_execMatrixJobComplete h
  | arbiterWindowBoundary => exact canonical_next (State.wf_winBegin h)
  | ridgePublish => exact canonical_execRidgePublish h
  | layPhase => exact canonical_execLayPhase h
  | waitvTimeout => exact canonical_execWaitvTimeout h
  | samplerRequestServe => exact canonical_execSamplerRequestServe h
  | rpctlWrite => exact canonical_execRpctlWrite h
  | flowRuleWrite | msgCountersClear => exact canonical_next (State.wf_hostWrite h)
  | hostXlinv => exact canonical_execHostXlinv h
  | xlinvComplete => exact canonical_execXlinvComplete h
  | trstGo => exact canonical_execTrstGo h
  | tenantResetPerform => exact canonical_execTenantResetPerform h
  | operatorKeyLoad => exact canonical_execOperatorKeyLoad h
  | frameReceive => exact canonical_execFrameReceive h
  | flitReceive => exact canonical_execFlitReceive h
  | ackIdleSend => exact canonical_execAckIdleSend h
  | replayTimeout => exact canonical_execReplayTimeout h
  | fragmentTransmit => exact canonical_execFragmentTransmit h
  | laneFailure => exact canonical_execLaneFailure h
  | retrainComplete => exact canonical_execRetrainComplete h
  | fragmentReceive => exact canonical_execFragmentReceive h
  | messageComplete => exact canonical_execMessageComplete h
  | messageDeadlineExpiry => exact canonical_execMessageDeadlineExpiry h
  | sendFragmentsDeparted => exact canonical_execSendFragmentsDeparted h
  | sendAckTimeout => exact canonical_execSendAckTimeout h
  | softErrorDetected => exact canonical_execSoftErrorDetected h
  | supervisorTakeRecord => exact canonical_next (State.wf_takeRecord h)
  | powerOn => exact canonical_execPowerOn h
  | imageReplyReceive => exact canonical_execImageReplyReceive h
  | imageRequestResend => exact canonical_execImageRequestResend h
  | imagePartyAbandon => exact canonical_execImagePartyAbandon h
  | identity | attest | crashRead | errlogRead => exact State.canonical_unsigned h
  | tenantReset => exact canonical_execTenantReset h
  | fwStage => exact canonical_execFwStage h
  | fwCommit => exact canonical_execFwCommit h
  | linkRetrain => exact canonical_execLinkRetrain h
  | imageGet => exact canonical_execImageGet h
  | clusterGate => exact canonical_execClusterGate h
  | clusterWake => exact canonical_execClusterWake h
  | sidebandUnknownOpcode => exact canonical_execSidebandUnknownOpcode h
end

end Sys2Proof.Machine
end

section
/-! SUPPORT. O6, the turn of a slot and of the package. -/
namespace Sys2Proof.Machine
open Sys2Proof Sys2Proof.Claims

section
variable {s : State}
theorem wf_runInstr {i : Instr} (h : Memory.wf s.mem) : Memory.wf (runInstr i s).mem := by
  unfold runInstr
  split
  · rename_i t ht
    exact canonical_exec h t ht
  · exact h
theorem State.wf_joinPend {first : Option Pend} (h : Memory.wf s.mem) : Memory.wf (s.joinPend first).mem := by
  unfold State.joinPend
  split
  · split
    · exact h
    split
    · exact h
    · exact State.wf_updTh (State.wf_deliver h)
    · exact h
  · exact h
theorem State.wf_waitSecond {o : Thread} {b : Issue} (h : Memory.wf s.mem) : Memory.wf (s.waitSecond o b).mem := h
theorem State.wf_seeing {x : State} (h : Memory.wf s.mem) : Memory.wf (s.seeing x).mem := h
theorem State.wf_runBundle {b : Issue} (h : Memory.wf s.mem) : Memory.wf (s.runBundle b).mem := by
  unfold State.runBundle
  extract_lets a x
  have hx : Memory.wf x.mem := wf_runInstr h
  split
  · exact hx
  split
  · exact hx
  extract_lets y
  have hy : Memory.wf y.mem := wf_runInstr (State.wf_seeing (x := x) h)
  split
  · exact hy
  split
  · exact State.wf_waitSecond hx
  · exact State.wf_joinPend (wf_runInstr hx)
theorem State.wf_enterBundle {b : Issue} (h : Memory.wf s.mem) : Memory.wf (s.enterBundle b).mem := h
theorem State.wf_giveFollowers {g : Gang} {b : Issue} (h : Memory.wf s.mem) : Memory.wf (s.giveFollowers g b).mem :=
  State.foldl_wf (fun _ _ ht => ht) h
theorem State.wf_trapBad {b : Issue} {t : State} (h : Memory.wf s.mem) (ht : s.trapBad b = some t) : Memory.wf t.mem := by
  obtain ⟨c, -, rfl⟩ := Option.map_eq_some_iff.mp ht
  exact State.wf_takeTrap h
theorem State.wf_runOrTrap {b : Issue} (h : Memory.wf s.mem) : Memory.wf ((s.trapBad b).getD (s.runBundle b)).mem := by
  cases ht : s.trapBad b with
  | none => exact State.wf_runBundle h
  | some t => exact State.wf_trapBad h ht
theorem State.wf_issue {b : Issue} (h : Memory.wf s.mem) : Memory.wf (s.issue b).mem := by
  unfold State.issue
  extract_lets before again x1 x
  have hx : Memory.wf x.mem := State.wf_runOrTrap (State.wf_enterBundle h)
  split
  · exact State.wf_setTh hx
  · exact hx
  rename_i lead y _ _
  have hy : Memory.wf y.mem := State.wf_updTh hx
  clear_value y lead
  split
  · exact State.wf_giveFollowers hy
  · exact hy
theorem State.wf_badBundle {b : Bundle} {e : BadWord} (h : Memory.wf s.mem) : Memory.wf (s.badBundle b e).mem := by
  unfold State.badBundle
  dsimp only
  split
  · exact wf_runInstr h
  · exact State.wf_takeTrap h
theorem State.wf_pollGang {n : Nat} (h : Memory.wf s.mem) : Memory.wf (s.pollGang n).state.mem := by
  unfold State.pollGang
  dsimp only
  split
  · exact State.wf_trapGang h
  · exact h
theorem State.wf_pollSteps {left : Nat} {far : Bool} {r : Result} {st : Option (Place × W64 × List Byte × Bool)} (h : Memory.wf s.mem) :
    Memory.wf (s.pollSteps left far r st).state.mem := by
  unfold State.pollSteps
  split
  · exact State.wf_setStage h
  extract_lets x
  have hx : Memory.wf x.state.mem := by
    unfold x
    split
    · exact h
    · exact State.wf_storeNow h
  clear_value x
  cases x with
  | ok a t =>
    dsimp only
    split
    · exact State.wf_endWait hx
    · exact State.wf_endWait hx
  | pass t => exact h
  | trap t c a i => exact h
theorem State.wf_pollSecond (h : Memory.wf s.mem) : Memory.wf s.pollSecond.state.mem := by
  unfold State.pollSecond
  dsimp only
  split
  · exact h
  split
  · exact h
  split
  · exact h
  repeat' split
  all_goals exact wf_runInstr h
theorem State.wf_pollStage {g : Stage} (h : Memory.wf s.mem) : Memory.wf (s.pollStage g).state.mem := by
  unfold State.pollStage
  dsimp only
  split
  · exact h
  · exact h
  · exact h
  · exact h
  · exact h
  · split
    · exact State.wf_endWait (State.wf_acquire h)
    · exact h
  · exact State.wf_pollBarRel h
  · exact State.wf_pollBarWait h
  · exact State.wf_pollPhRel h
  · exact State.wf_pollPhWait h
  · exact State.wf_pollIbRel h
  · exact State.wf_pollDlRel h
  · exact State.wf_pollDlFull h
  · split
    · exact State.wf_endWait (State.wf_versionRead h)
    · exact State.wf_versionRead h
  · exact State.wf_pollSteps h
  · exact State.wf_pollSecond h
  · exact State.wf_pollRbind h
  · exact h
  · exact State.wf_pollCjob h
  · exact State.wf_pollGang h
theorem State.wf_pollThread (h : Memory.wf s.mem) : Memory.wf s.pollThread.state.mem := by
  unfold State.pollThread
  split
  · exact h
  · exact State.wf_pollStage h
theorem State.wf_at {t : ThreadId} (h : Memory.wf s.mem) : Memory.wf (s.at t).mem := h
theorem State.wf_memberReady {m : ThreadId} {b : Issue} (h : Memory.wf s.mem) : Memory.wf (s.memberReady m b).2.mem := by
  have hp : Memory.wf (s.at m).pollThread.state.mem := State.wf_pollThread (State.wf_at h)
  unfold State.memberReady
  dsimp only
  split
  · exact h
  split
  · exact h
  · exact h
  rename_i x he
  have hx : Memory.wf x.mem := Poll.wf_of_eq he hp
  split
  · split
    · exact h
    · exact State.wf_ite (State.wf_runOrTrap (State.wf_at hx)) h
  · split
    · exact h
    · exact h
theorem State.wf_gangReady {g : Gang} {b : Issue} (h : Memory.wf s.mem) : Memory.wf (s.gangReady g b).2.mem := by
  refine Memory.wf_foldl_of Prod.snd (fun a c ha => ?_) h
  split
  · exact State.wf_memberReady ha
  · exact ha
theorem State.wf_followTurn {g : Gang} (h : Memory.wf s.mem) : Memory.wf (s.followTurn g).mem := by
  unfold State.followTurn
  dsimp only
  split
  · exact h
  repeat' split
  all_goals exact State.wf_updTh (State.wf_issue h)
theorem State.wf_issueFrom {img : BitVec 512} (h : Memory.wf s.mem) : Memory.wf (s.issueFrom img).mem := by
  unfold State.issueFrom
  dsimp only
  split
  · exact State.wf_badBundle h
  split
  · rename_i he1
    exact Res.wf_of_eq he1 (State.wf_checkSig h)
  · rename_i he1
    exact State.wf_takeTrap (Res.wf_of_eq he1 (State.wf_checkSig h))
  · rename_i he1
    have hu := Res.wf_of_eq he1 (State.wf_checkSig h)
    split
    · split
      · split
        · exact State.wf_issue hu
        · exact State.wf_gangReady hu
      · exact State.wf_issue hu
    · exact State.wf_issue hu
theorem State.wf_fetchTurn (h : Memory.wf s.mem) : Memory.wf s.fetchTurn.mem := by
  unfold State.fetchTurn
  extract_lets pc cur s1
  have hf : Memory.wf s1.fetch.state.mem := State.wf_fetch h
  split
  · exact State.wf_takeTrap h
  split
  · rename_i he
    exact Fetch.wf_of_eq he hf
  · rename_i cause info img t he
    extract_lets cur s2
    have ht : Memory.wf t.mem := Fetch.wf_of_eq he hf
    have h2 : Memory.wf s2.mem := by
      unfold s2
      split
      · exact ht
      · exact ht
    exact wf_runInstr h2
  · rename_i he
    exact State.wf_issueFrom (Fetch.wf_of_eq he hf)
theorem State.wf_readyTurn (h : Memory.wf s.mem) : Memory.wf s.readyTurn.mem := by
  unfold State.readyTurn
  split
  · split
    · exact State.wf_fetchTurn h
    split
    · exact State.wf_followTurn h
    split
    · exact h
    · exact State.wf_fetchTurn h
  · exact State.wf_fetchTurn h
theorem State.wf_haltTurn (h : Memory.wf s.mem) : Memory.wf s.haltTurn.mem := by
  unfold State.haltTurn
  extract_lets t due
  split
  · exact h
  split
  · exact h
  split
  · split
    · exact State.wf_ite (State.wf_followTurn h) h
    · exact h
  split
  · exact h
  split
  · split
    · rename_i he
      exact Poll.wf_of_eq he (State.wf_pollStage h)
    · rename_i he
      exact Poll.wf_of_eq he (State.wf_pollStage h)
    · rename_i he
      exact Poll.wf_of_eq he (State.wf_pollStage h)
  · split
    · rename_i he
      exact Poll.wf_of_eq he (State.wf_pollStage h)
    · rename_i he
      exact Poll.wf_of_eq he (State.wf_pollStage h)
    · rename_i he
      exact State.wf_ite (Poll.wf_of_eq he (State.wf_pollStage h)) h
theorem State.wf_slotTurn {c slot : Nat} (h : Memory.wf s.mem) : Memory.wf (s.slotTurn c slot).mem := by
  unfold State.slotTurn
  extract_lets s0
  split
  · exact State.wf_haltTurn h
  rename_i s1 t _ s2 _ _
  have h1 : Memory.wf s1.mem := State.wf_ite (State.wf_takeRecord h) h
  have hp : Memory.wf s1.pollThread.state.mem := State.wf_pollThread h1
  split
  · exact h1
  split
  · exact State.wf_updTh h1
  split
  · have h2 : Memory.wf s2.mem := State.wf_updTh h1
    split
    · exact State.wf_trapPend h2
    · exact State.wf_takeTrap h2
  · split
    · exact State.wf_updTh h1
    split
    · rename_i he
      exact Poll.wf_of_eq he hp
    · rename_i he
      exact Poll.wf_of_eq he hp
    · rename_i he
      exact State.wf_readyTurn (Poll.wf_of_eq he hp)
theorem State.wf_coreTurn {c : Nat} (h : Memory.wf s.mem) : Memory.wf (s.coreTurn c).mem := State.wf_slotTurn h
theorem State.wf_endCycle (h : Memory.wf s.mem) : Memory.wf s.endCycle.mem :=
  State.wf_parkDues (State.wf_landLate (State.wf_landRetain (State.wf_winTick (State.wf_phaseTick (State.wf_applyDeferred (State.wf_landFrames
    (State.wf_landClaims h)))))))
theorem State.wf_nextCycle (h : Memory.wf s.mem) : Memory.wf s.nextCycle.mem := by
  unfold State.nextCycle
  extract_lets s1
  have h1 : Memory.wf s1.mem := State.wf_vtTick (State.wf_endCycle h)
  clear_value s1
  exact h1
theorem State.wf_turn (h : Memory.wf s.mem) : Memory.wf s.turn.mem := by
  unfold State.turn
  dsimp only
  split
  · exact State.wf_coreTurn h
  · exact State.wf_nextCycle h
end

end Sys2Proof.Machine
end

section
/-! SUPPORT. O6, one step. -/
namespace Sys2Proof.Machine
open Sys2Proof Sys2Proof.Claims

section
variable {s : State}
theorem canonical_step (h : Memory.wf s.mem) : Canonical (step s) := by
  unfold step
  split
  · exact canonical_next (State.wf_turn h)
  split
  · exact canonical_exec h
  · rintro _ ⟨⟩
end

end Sys2Proof.Machine
end

section
/-! PROOF. O6. -/
namespace Sys2Proof.Machine
open Sys2Proof Sys2Proof.Claims

/-- Settles O6: device memory is written byte by byte through `Memory.set` or emptied, and every operation of a step is made of such writes
and of operations that leave it. -/
theorem stepKeepsMemoryCanonical : Obligations.StepKeepsMemoryCanonical := by
  unfold Obligations.StepKeepsMemoryCanonical
  exact fun s t h e => canonical_step h t e

end Sys2Proof.Machine
end
